-- ==== Sys2Proof/Word.lean ====
section
/-! DEFINITION. Sys2Proof/Word.lean: the word types of the SH8 and their plainest arithmetic. -/

namespace Sys2Proof

/-- One byte of memory. -/
abbrev Byte := BitVec 8
/-- A 16-bit half. -/
abbrev W16 := BitVec 16
/-- An instruction lane, an f32 or an i32 (R24, R49). -/
abbrev W32 := BitVec 32
/-- An x register, a pc or a pointer (R70, R80). -/
abbrev W64 := BitVec 64
/-- The index of an x register, x0 to x31. -/
abbrev XReg := BitVec 5
/-- The index of a vector register, v0 to v31. -/
abbrev VReg := BitVec 5
/-- The index of a token register, k0 to k15. -/
abbrev KReg := BitVec 4
/-- The index of a mask, m0 to m7. -/
abbrev MReg := BitVec 3
/-- The index of a ring handle, h0 to h15. -/
abbrev HReg := BitVec 4
/-- The index of an accumulator tile, acc0 to acc7. -/
abbrev AccReg := BitVec 3
/-- A context of a core: 0 is L, 1 is C and 2 is S (R6). -/
abbrev CtxId := Fin 3

/-- A 512-bit line (64 bytes). -/
abbrev Line := BitVec 512

end Sys2Proof
end

