-- ==== Sys2Proof/Syntax.lean ====
section
/-! DEFINITION. Sys2Proof/Syntax.lean: the instructions of the SH8 as syntax, one constructor for each row of
spec/opcode_table.json: the instructions of the units K, V, E and Y, and the events (steps that no instruction word
names) with what the event is about as their arguments. -/

namespace Sys2Proof

/-- The unit of a lane (R26). -/
inductive LaneUnit where
  | k | v | e | y
  deriving DecidableEq, Repr

/-- Element types, coded 0 to 6 (R48, R49). -/
inductive ElemTy where
  | i8 | i32 | f32 | bf16 | e4m3 | e5m2 | l6
  deriving DecidableEq, Repr

/-- Orders, coded 0 to 4 (R48). -/
inductive Order where
  | rlx | acq | rel | ar | sc
  deriving DecidableEq, Repr

/-- Scopes, coded 0 to 5 (R16, R48). -/
inductive Scope where
  | lane | core | quad | die | pkg | pod
  deriving DecidableEq, Repr

/-- Timelines, coded 0 to 4 (R38, R48). -/
inductive Timeline where
  | tlv | tlm | tls | tlc | tlg
  deriving DecidableEq, Repr

/-- Rounding modes, coded 0 to 4 (R60). -/
inductive RMode where
  | rne | rtz | rup | rdn | sr
  deriving DecidableEq, Repr

/-- Atomic operand types, coded 0 to 3 (R48). -/
inductive AmoTy where
  | w | d | f | h2
  deriving DecidableEq, Repr

/-- Atomic operations, coded 0 to 8 (R48). -/
inductive AmoOp where
  | add | min | max | minu | maxu | and | or | xor | swp
  deriving DecidableEq, Repr

/-- Compare relations, coded 0 to 3 (R48). -/
inductive CmpRel where
  | eq | ne | lt | le
  deriving DecidableEq, Repr

/-- Reduction operations, coded 0 to 2 (R48). -/
inductive RedOp where
  | add | min | max
  deriving DecidableEq, Repr

/-- Drain modes of mdrain, coded 1 to 3 (R48). -/
inductive DrainMode where
  | store | add | addc
  deriving DecidableEq, Repr

/-- Residency hint kinds, coded 0 to 3 (R48). -/
inductive HintKind where
  | l2 | ro | keep | rel
  deriving DecidableEq, Repr

/-- The second operand of a V instruction, by form (R32, R160). -/
inductive VSrc where
  | vv (vs2 : VReg)
  | vx (xs2 : XReg)
  | vi (imm5 : BitVec 5)
  deriving DecidableEq, Repr

/-- The CSRs of R83; srst (0x803) is reached by SRST_ACCESS. -/
inductive CsrName where
  | cycle | coreid | quadid | dieid | pkgid | rank | gsize | ctxid | reqtag | tenant
  | vrnd | fstat | mstat | srst
  | tvec | tcause | tval | tpc | tstat | tscratch | wdog | occtmo | prin | clrptr | evptr
  deriving DecidableEq, Repr

/-- The six CSR instructions, as SRST_ACCESS carries them (R40, R62). -/
inductive CsrOp where
  | rw | rs | rc | rwi | rsi | rci
  deriving DecidableEq, Repr

/-- What holds a stalled request at its issue point (R123): the context itself or one of its engines. -/
inductive StallSrc where
  | ctx | vec | mat | str | coll | gal | job
  deriving DecidableEq, Repr

/-- The soft error that strikes a matrix step (R199, R200): none, one in one element of its sums, another one in its sums or its
check lanes, or one there and again in the recompute. -/
inductive StepFault where
  | none | element | step | double
  deriving DecidableEq, Repr

/-- A link of the fabric (R235): the package-ring link from die d to die d + 1, or the rack-ring side of a bridge. -/
inductive FabricLink where
  | ring (d : Fin 8)
  | rack (bridge : Bool)
  deriving DecidableEq, Repr

/-- The instructions and events of spec/opcode_table.json, in the table's order. In an event, g is a core of the
package numbered 128 * die + core, d is a die, and c is a context. -/
inductive Instr where
  -- unit K: RV64 loads and stores (R79)
  | lb (rd rs1 : XReg) (imm : BitVec 12)
  | lh (rd rs1 : XReg) (imm : BitVec 12)
  | lw (rd rs1 : XReg) (imm : BitVec 12)
  | ld (rd rs1 : XReg) (imm : BitVec 12)
  | lbu (rd rs1 : XReg) (imm : BitVec 12)
  | lhu (rd rs1 : XReg) (imm : BitVec 12)
  | lwu (rd rs1 : XReg) (imm : BitVec 12)
  | sb (rs2 rs1 : XReg) (imm : BitVec 12)
  | sh (rs2 rs1 : XReg) (imm : BitVec 12)
  | sw (rs2 rs1 : XReg) (imm : BitVec 12)
  | sd (rs2 rs1 : XReg) (imm : BitVec 12)
  -- unit K: RV64 integer operations (R39, R79)
  | addi (rd rs1 : XReg) (imm : BitVec 12)
  | slti (rd rs1 : XReg) (imm : BitVec 12)
  | sltiu (rd rs1 : XReg) (imm : BitVec 12)
  | xori (rd rs1 : XReg) (imm : BitVec 12)
  | ori (rd rs1 : XReg) (imm : BitVec 12)
  | andi (rd rs1 : XReg) (imm : BitVec 12)
  | slli (rd rs1 : XReg) (sh : BitVec 6)
  | srli (rd rs1 : XReg) (sh : BitVec 6)
  | srai (rd rs1 : XReg) (sh : BitVec 6)
  | auipc (rd : XReg) (imm : BitVec 20)
  | addiw (rd rs1 : XReg) (imm : BitVec 12)
  | slliw (rd rs1 : XReg) (sh : BitVec 5)
  | srliw (rd rs1 : XReg) (sh : BitVec 5)
  | sraiw (rd rs1 : XReg) (sh : BitVec 5)
  | add (rd rs1 rs2 : XReg)
  | sub (rd rs1 rs2 : XReg)
  | sll (rd rs1 rs2 : XReg)
  | slt (rd rs1 rs2 : XReg)
  | sltu (rd rs1 rs2 : XReg)
  | xor (rd rs1 rs2 : XReg)
  | srl (rd rs1 rs2 : XReg)
  | sra (rd rs1 rs2 : XReg)
  | or (rd rs1 rs2 : XReg)
  | and (rd rs1 rs2 : XReg)
  | mul (rd rs1 rs2 : XReg)
  | mulh (rd rs1 rs2 : XReg)
  | mulhsu (rd rs1 rs2 : XReg)
  | mulhu (rd rs1 rs2 : XReg)
  | div (rd rs1 rs2 : XReg)
  | divu (rd rs1 rs2 : XReg)
  | rem (rd rs1 rs2 : XReg)
  | remu (rd rs1 rs2 : XReg)
  | addw (rd rs1 rs2 : XReg)
  | subw (rd rs1 rs2 : XReg)
  | sllw (rd rs1 rs2 : XReg)
  | srlw (rd rs1 rs2 : XReg)
  | sraw (rd rs1 rs2 : XReg)
  | mulw (rd rs1 rs2 : XReg)
  | divw (rd rs1 rs2 : XReg)
  | divuw (rd rs1 rs2 : XReg)
  | remw (rd rs1 rs2 : XReg)
  | remuw (rd rs1 rs2 : XReg)
  | lui (rd : XReg) (imm : BitVec 20)
  -- unit K: control flow; a branch holds offset bits [12:1], jal bits [20:1]
  | beq (rs1 rs2 : XReg) (off : BitVec 12)
  | bne (rs1 rs2 : XReg) (off : BitVec 12)
  | blt (rs1 rs2 : XReg) (off : BitVec 12)
  | bge (rs1 rs2 : XReg) (off : BitVec 12)
  | bltu (rs1 rs2 : XReg) (off : BitVec 12)
  | bgeu (rs1 rs2 : XReg) (off : BitVec 12)
  | jalr (rd rs1 : XReg) (imm : BitVec 12)
  | jal (rd : XReg) (off : BitVec 20)
  | ecall
  | ebreak
  | csrrw (rd : XReg) (csr : CsrName) (rs1 : XReg)
  | csrrs (rd : XReg) (csr : CsrName) (rs1 : XReg)
  | csrrc (rd : XReg) (csr : CsrName) (rs1 : XReg)
  | csrrwi (rd : XReg) (csr : CsrName) (uimm : BitVec 5)
  | csrrsi (rd : XReg) (csr : CsrName) (uimm : BitVec 5)
  | csrrci (rd : XReg) (csr : CsrName) (uimm : BitVec 5)
  | srstAccess (op : CsrOp) (rd : XReg) (src : BitVec 5)
  | rvfence (pred succ : BitVec 4) (rd rs1 : XReg)
  | rvfenceI
  -- unit K: custom-0 (R41)
  | trn (kd : KReg) (xva xlen : XReg) (rights : BitVec 4) (ms : Bool)
  | trnp (kd : KReg) (xpa xlen : XReg) (rights : BitVec 4) (ms host : Bool)
  | tkmov (kd ks : KReg)
  | tkdrop (ks : KReg)
  | tklen (xd : XReg) (ks : KReg)
  | tkinfo (xd : XReg) (ks : KReg)
  | ptr (xd : XReg) (ks : KReg) (xoff : XReg) (policy : BitVec 2)
  | gpatch (xd : XReg) (slot : BitVec 4)
  | guntag (xd : XReg)
  | vxmv (ty : ElemTy) (xd : XReg) (vs1 : VReg) (xi : XReg)
  | mpop (ty : ElemTy) (xd : XReg) (mk : MReg)
  -- unit V (R42)
  | vadd (ty : ElemTy) (mk : MReg) (s2 : VSrc) (vs1 vd : VReg)
  | vsub (ty : ElemTy) (mk : MReg) (s2 : VSrc) (vs1 vd : VReg)
  | vmul (ty : ElemTy) (mk : MReg) (s2 : VSrc) (vs1 vd : VReg)
  | vfma (ty : ElemTy) (mk : MReg) (s2 : VSrc) (vs1 vd : VReg)
  | vmin (ty : ElemTy) (mk : MReg) (s2 : VSrc) (vs1 vd : VReg)
  | vmax (ty : ElemTy) (mk : MReg) (s2 : VSrc) (vs1 vd : VReg)
  | vabs (ty : ElemTy) (mk : MReg) (vs1 vd : VReg)
  | vneg (ty : ElemTy) (mk : MReg) (vs1 vd : VReg)
  | vdiv (mk : MReg) (s2 : VSrc) (vs1 vd : VReg)
  | vsqrt (mk : MReg) (vs1 vd : VReg)
  | vrcp (mk : MReg) (vs1 vd : VReg)
  | vrsq (mk : MReg) (vs1 vd : VReg)
  | vexp2 (mk : MReg) (vs1 vd : VReg)
  | vlog2 (mk : MReg) (vs1 vd : VReg)
  | vand (ty : ElemTy) (mk : MReg) (s2 : VSrc) (vs1 vd : VReg)
  | vor (ty : ElemTy) (mk : MReg) (s2 : VSrc) (vs1 vd : VReg)
  | vxor (ty : ElemTy) (mk : MReg) (s2 : VSrc) (vs1 vd : VReg)
  | vnot (ty : ElemTy) (mk : MReg) (vs1 vd : VReg)
  | vshl (ty : ElemTy) (mk : MReg) (s2 : VSrc) (vs1 vd : VReg)
  | vshr (ty : ElemTy) (mk : MReg) (s2 : VSrc) (vs1 vd : VReg)
  | vsra (ty : ElemTy) (mk : MReg) (s2 : VSrc) (vs1 vd : VReg)
  | vcmp (rel : CmpRel) (ty : ElemTy) (mk : MReg) (s2 : VSrc) (vs1 : VReg) (md : MReg)
  | vsel (ty : ElemTy) (mk : MReg) (vs2 vs1 vd : VReg)
  | vcvt (ty ts : ElemTy) (mk : MReg) (vs1 vd : VReg)
  | vmov (ty : ElemTy) (mk : MReg) (vs1 vd : VReg)
  | vbcast (ty : ElemTy) (mk : MReg) (xs : XReg) (vd : VReg)
  | viota (ty : ElemTy) (mk : MReg) (vd : VReg)
  | vshuf (ty : ElemTy) (mk : MReg) (vs2 vs1 vd : VReg)
  | vslide (down : Bool) (ty : ElemTy) (mk : MReg) (s2 : VSrc) (vs1 vd : VReg)
  | vcmpr (ty : ElemTy) (mk : MReg) (vs1 vd : VReg)
  | vpart (ty : ElemTy) (mk : MReg) (vd : VReg)
  | vred (op : RedOp) (ty : ElemTy) (mk : MReg) (vs1 vd : VReg)
  | vscan (op : RedOp) (ty : ElemTy) (mk : MReg) (vs1 vd : VReg)
  | mset (ty : ElemTy) (xn : XReg) (md : MReg)
  | mand (mb ma md : MReg)
  | mor (mb ma md : MReg)
  | mxor (mb ma md : MReg)
  | mnot (ma md : MReg)
  | vld (ty : ElemTy) (mk : MReg) (xs : XReg) (vd : VReg)
  | vst (ty : ElemTy) (mk : MReg) (xs : XReg) (vd : VReg)
  | vldg (ty : ElemTy) (mk : MReg) (xs : XReg) (vs1 vd : VReg)
  | vsts (ty : ElemTy) (mk : MReg) (xs : XReg) (vs1 vd : VReg)
  | vldr (ty : ElemTy) (mk : MReg) (xoff : XReg) (h : HReg) (vd : VReg)
  | vstr (ty : ElemTy) (mk : MReg) (xoff : XReg) (h : HReg) (vd : VReg)
  | vadv (xn : XReg) (h : HReg)
  | vpub (xn : XReg) (h : HReg)
  | vlda (last : Bool) (xrow : XReg) (acc : AccReg) (vd : VReg)
  -- unit E (R44)
  | rset (h : HReg) (xa : XReg)
  | sfill (h : HReg) (xa xb : XReg)
  | sdrain (h : HReg) (xa xb : XReg)
  | scopy (xa xb xc : XReg)
  | shint (kind : HintKind) (xa xb : XReg)
  | mcfg (f : BitVec 7) (xa : XReg)
  | mgo
  | mrnd (rm : RMode)
  | mzero (acc : AccReg)
  | mdrain (acc : AccReg) (mode : DrainMode) (xa xb : XReg)
  | mchk (xa : XReg)
  | clset (cls : BitVec 3) (xa : XReg)
  | clclr (cls : BitVec 3) (xa : XReg)
  | clins (cls : BitVec 3) (xa xb xc : XReg)
  | cldel (cls : BitVec 3) (xa xb xc : XReg)
  | clsub (cls : BitVec 3) (xa xb : XReg)
  | clxch (cls : BitVec 3) (xa xb : XReg)
  | clpeel (cls : BitVec 3) (t : Bool) (xa xb xc : XReg)
  | clstat (xa : XReg) (cls : BitVec 3)
  | grec (g : BitVec 3)
  | gend
  | gplay (xa : XReg) (g : BitVec 3) (xb : XReg)
  | gsave (g : BitVec 3) (xa : XReg)
  | gload (g : BitVec 3) (xa : XReg)
  | gdrop (g : BitVec 3)
  | gstat (xa : XReg) (g : BitVec 3)
  | jpost (xa xb : XReg)
  | jdone
  | jstat (xa xb : XReg)
  | jyield
  | jprio (xa xb : XReg)
  -- unit Y (R46)
  | amo (op : AmoOp) (ty : AmoTy) (ord : Order) (sc : Scope) (xd xp xv : XReg)
  | cas (dbl : Bool) (ord : Order) (sc : Scope) (xd xp xexp xnew : XReg)
  | fence (sc : Scope) (xd : XReg)
  | xfence
  | rosync
  | twait (tl : Timeline) (xn : XReg)
  | tliss (xd : XReg) (tl : Timeline)
  | barArv (sc : Scope) (b : BitVec 3) (xd : XReg)
  | barWt (sc : Scope) (b : BitVec 3) (xphase : XReg)
  | barAw (sc : Scope) (b : BitVec 3) (xd : XReg)
  | barStat (sc : Scope) (b : BitVec 3) (xd : XReg)
  | waita (xd xp xexp xtmo : XReg)
  | rwaitf (h : HReg) (xi : XReg)
  | rwaite (h : HReg) (xi : XReg)
  | stf (xp xv xf : XReg)
  | pocc (xa : XReg)
  | poccW (xa : XReg)
  | pref (xa xb xc : XReg)
  | pret (xa : XReg)
  | ptstat (xd xa : XReg)
  | tret
  | purge (xa : XReg)
  -- events: contexts and occultation
  | engineQueueFullRelease (g : Nat) (c : CtxId)
  | watchdogExpiry (g : Nat) (c : CtxId)
  | asyncTrapTake (g : Nat) (c : CtxId)
  | twaitComplete (g : Nat) (c : CtxId)
  | trnWalkEnd (g : Nat) (c : CtxId)
  | walkerSlotFree (g : Nat) (c : CtxId)
  | occultationStallResume (g : Nat) (c : CtxId)
  | occtmoOverrun (g : Nat) (c : CtxId) (src : StallSrc)
  | occultationWaitTimeout (g : Nat) (c : CtxId)
  | holderProbe (g : Nat) (pte : BitVec 20)
  | requestPerformed (d : Nat) (n : Nat)
  -- events: engines
  | vEntryExecute (g : Nat)
  | vEntryResult (g : Nat) (n : Nat)
  | streamCommandBegin (g : Nat) (c : CtxId)
  | streamGranuleIssue (g : Nat)
  | streamGranuleDone (g : Nat) (c : CtxId) (n : Nat)
  | matrixEntryExecute (g : Nat)
  | mgoLaunch (g : Nat)
  | matrixStep (g : Nat) (f : StepFault)
  | drainRowPerformed (g : Nat) (j : Nat)
  | collationCommandExecute (g : Nat)
  | cellOperation (g : Nat)
  | clxchPair (g : Nat)
  | clxchTransferDone (g : Nat)
  | clxchNoPartner (g : Nat)
  | clxchExchangeFailed (g : Nat)
  | galleyInstall (g : Nat)
  | galleyPlayCheck (g : Nat)
  | galleyFeed (g : Nat)
  | galleyWaitRelease (g : Nat)
  | galleyPlayComplete (g : Nat)
  -- events: the store buffer, homes, barriers and monitors
  | storeBufferAgeDrain (g : Nat)
  | storeBufferDepart (g : Nat)
  | storeRegistered (g : Nat) (seq : Nat)
  | scTicket (op : Nat)
  | homeOperation (op : Nat)
  | atomicReply (op : Nat)
  | fenceComplete (g : Nat) (c : CtxId)
  | barrierArrival (n : Nat)
  | barrierWake (g : Nat) (c : CtxId)
  | waitaWakeWrite (g : Nat) (c : CtxId)
  | waitaMonitorLost (g : Nat) (c : CtxId)
  | waitaTimeout (g : Nat) (c : CtxId)
  | waitaSpuriousWake (g : Nat) (c : CtxId)
  -- events: the fabric
  | remoteRequestArrive (r : Nat) (accept : Bool)
  | invalidationReceive (r : Nat) (d : Nat)
  | invalidationAckReceive (r : Nat) (d : Nat)
  | slotReturn (r : Nat)
  | retryBackoffExpiry (r : Nat)
  | remoteReplyReceive (r : Nat)
  | transactionTimeout (r : Nat)
  | tagFreeRelease (g : Nat) (c : CtxId)
  | dieFence (d : Fin 8)
  -- events: containment and jobs
  | uncorrectableError (loc : Nat)
  | poisonConsume
  | purgeComplete (g : Nat) (c : CtxId)
  | cardAccept (d : Fin 8) (q : BitVec 6)
  | tileMigrateDone (card : Nat)
  | cardSelect (d : Fin 8)
  | partyBind (card : Nat)
  | partyStart (g : Nat)
  | contextSwitch (g : Nat)
  | setSaveComplete (g : Nat)
  | timeSliceExpiry (g : Nat)
  | jobRetire (card : Nat)
  -- events: the host port and the service complex
  | postRegisterWrite (d : Fin 8) (q : BitVec 6) (t : W64)
  | mailboxTargetWrite (d : Fin 8) (slot : BitVec 6) (w : W64)
  | mailboxDataWrite (d : Fin 8) (slot : BitVec 6) (w : W64)
  | mailboxReclaim (d : Fin 8) (slot : BitVec 6)
  | mailboxDataRead (d : Fin 8) (slot : BitVec 6)
  | serviceRequest (w0 w1 : W64)
  | attestationReport (nonce : Option (List Byte))
  | eventsRead
  | hostWindowAccess (off : BitVec 40) (bytes : List Byte) (write : Bool)
  | registerWriteOther (off : BitVec 24) (w : W64)
  | packageReset (failed : BitVec 8)
  | bootImageReceived (image : List Byte)
  | bootFetchRetry
  | bootRelease (pkgid : BitVec 5) (tables : List (Nat × Byte))
  | trayBudgetDeclare (amps : W16)
  | powerPeriod (measured : List Nat)
  | illegalInstruction (w : W32)
  | galleyEntryExecute (g : Nat)
  | jobPortEntryExecute (g : Nat)
  | hostPurge (tag : W16)
  | deadLink (l : FabricLink)
  | msixVectorUnmask (v : Fin 9)
  deriving DecidableEq, Repr

end Sys2Proof
end

