-- ==== Sys2Proof/WellFormed.lean ====
section
/-! DEFINITION. Sys2Proof/WellFormed.lean: the limits that the spec sets on an instruction's fields beyond their widths
(R40, R42, R43, R45, R47), and the ranges of an event's arguments. -/

namespace Sys2Proof

/-- i8 and i32 (R42). -/
def ElemTy.isInt : ElemTy → Bool
  | .i8 | .i32 => true
  | _ => false

/-- f32, bf16, e4m3 and e5m2 (R42). -/
def ElemTy.isFloat : ElemTy → Bool
  | .f32 | .bf16 | .e4m3 | .e5m2 => true
  | _ => false

/-- Every type but l6: "int, float" in the map of R42. -/
def ElemTy.notL6 (t : ElemTy) : Bool := t != .l6

/-- The second operand is an immediate. -/
def VSrc.isVi : VSrc → Bool
  | .vi _ => true
  | _ => false

/-- The second operand is a register of the vector file. -/
def VSrc.isVv : VSrc → Bool
  | .vv _ => true
  | _ => false

/-- Forms and types of vadd and of the operations of its mould: vi for int types only (R42). -/
def vArithOk (t : ElemTy) (s : VSrc) : Bool := t.notL6 && (!s.isVi || t.isInt)

/-- An offset group of vldg and vsts begins at a multiple of its size (R43). -/
def offsetGroupOk (t : ElemTy) (vs1 : VReg) : Bool :=
  match t with
  | .f32 | .i32 => true
  | .bf16 => vs1.toNat % 2 == 0
  | .i8 | .e4m3 | .e5m2 | .l6 => vs1.toNat % 4 == 0

/-- The numbers of mcfg that name a field (R45, R184). -/
def mcfgFieldOk (f : BitVec 7) : Bool :=
  let n := f.toNat
  n ≤ 0x0D || (0x10 ≤ n && n ≤ 0x15) || (0x18 ≤ n && n ≤ 0x1D) || (0x20 ≤ n && n ≤ 0x25) ||
    (0x28 ≤ n && n ≤ 0x2D)

/-- The read-only CSRs of R83. -/
def CsrName.readOnly : CsrName → Bool
  | .cycle | .coreid | .quadid | .dieid | .pkgid | .rank | .gsize | .ctxid | .reqtag | .tenant => true
  | _ => false

/-- A register or immediate source of a CSR instruction that sets or clears bits writes only when not 0 (R40). -/
def csrOk (csr : CsrName) (always : Bool) (src : BitVec 5) : Bool :=
  csr != .srst && (!csr.readOnly || (!always && src == 0))

/-- An instruction within the limits of the spec; an event about a core, a die or a context that exists. -/
def Instr.wellFormed : Instr → Bool
  | .csrrw _ csr s => csrOk csr true s
  | .csrrs _ csr s => csrOk csr false s
  | .csrrc _ csr s => csrOk csr false s
  | .csrrwi _ csr s => csrOk csr true s
  | .csrrsi _ csr s => csrOk csr false s
  | .csrrci _ csr s => csrOk csr false s
  | .vadd t _ s2 _ _ => vArithOk t s2
  | .vsub t _ s2 _ _ => vArithOk t s2
  | .vmul t _ s2 _ _ => vArithOk t s2 || (t == .l6 && s2.isVv)
  | .vfma t _ s2 _ _ => t.isFloat && !s2.isVi
  | .vmin t _ s2 _ _ => vArithOk t s2
  | .vmax t _ s2 _ _ => vArithOk t s2
  | .vabs t _ _ _ => t.notL6
  | .vneg t _ _ _ => t.notL6
  | .vdiv _ s2 _ _ => !s2.isVi
  | .vand t _ _ _ _ => t.notL6
  | .vor t _ _ _ _ => t.notL6
  | .vxor t _ _ _ _ => t.notL6
  | .vnot t _ _ _ => t.notL6
  | .vshl t _ _ _ _ => t.isInt
  | .vshr t _ _ _ _ => t.isInt
  | .vsra t _ _ _ _ => t.isInt
  | .vcmp _ t _ s2 _ md => vArithOk t s2 && md != 0
  | .viota t _ _ => t.isInt
  | .vslide _ _ _ s2 _ _ => !s2.isVv
  | .vpart t _ vd => (t == .i32 || t == .f32) && vd != 31
  | .vred _ t _ _ _ => t.notL6
  | .vscan _ t _ _ _ => t.notL6
  | .mset _ _ md => md != 0
  | .mand _ _ md => md != 0
  | .mor _ _ md => md != 0
  | .mxor _ _ md => md != 0
  | .mnot _ md => md != 0
  | .vldg t _ _ vs1 _ => offsetGroupOk t vs1
  | .vsts t _ _ vs1 _ => offsetGroupOk t vs1
  | .mcfg f _ => mcfgFieldOk f
  | .mdrain _ mode _ xb => mode == .addc || xb == 0
  | .amo op ty _ _ _ _ _ => op == .add || ty == .w || ty == .d
  | .barArv sc _ _ => sc != .lane
  | .barWt sc _ _ => sc != .lane
  | .barAw sc _ _ => sc != .lane
  | .barStat sc _ _ => sc != .lane
  | _ => true

/-- Well-formedness as a proposition. -/
abbrev Instr.WellFormed (i : Instr) : Prop := i.wellFormed = true

end Sys2Proof
end

