-- ==== Sys2Proof/Decode.lean ====
section
/-! DEFINITION. Sys2Proof/Decode.lean: the decoder of the four units (R24 to R48), total on every word and rejecting by
name, and the encoder written from the same tables. -/

namespace Sys2Proof

/-- Why a word is no instruction of its unit: each is the ILL of R35. -/
inductive DecodeError where
  | badLengthMarker | badOpcode | badFunct | mustBeZero | badRegister | badOp | badForm | badCode | badCsr
  | outsideLimits
  deriving DecidableEq, Repr

/-! ### Coded fields (R48) -/

/-- Element type of a 4-bit code. -/
def ElemTy.ofCode (c : BitVec 4) : Option ElemTy :=
  match c.toNat with
  | 0 => some .i8 | 1 => some .i32 | 2 => some .f32 | 3 => some .bf16 | 4 => some .e4m3 | 5 => some .e5m2
  | 6 => some .l6 | _ => none
/-- The 4-bit code of an element type. -/
def ElemTy.code : ElemTy → BitVec 4
  | .i8 => 0 | .i32 => 1 | .f32 => 2 | .bf16 => 3 | .e4m3 => 4 | .e5m2 => 5 | .l6 => 6

/-- Order of a 3-bit code. -/
def Order.ofCode (c : BitVec 3) : Option Order :=
  match c.toNat with
  | 0 => some .rlx | 1 => some .acq | 2 => some .rel | 3 => some .ar | 4 => some .sc | _ => none
/-- The 3-bit code of an order. -/
def Order.code : Order → BitVec 3
  | .rlx => 0 | .acq => 1 | .rel => 2 | .ar => 3 | .sc => 4

/-- Scope of a 3-bit code. -/
def Scope.ofCode (c : BitVec 3) : Option Scope :=
  match c.toNat with
  | 0 => some .lane | 1 => some .core | 2 => some .quad | 3 => some .die | 4 => some .pkg | 5 => some .pod
  | _ => none
/-- The 3-bit code of a scope. -/
def Scope.code : Scope → BitVec 3
  | .lane => 0 | .core => 1 | .quad => 2 | .die => 3 | .pkg => 4 | .pod => 5

/-- Timeline of a 3-bit code. -/
def Timeline.ofCode (c : BitVec 3) : Option Timeline :=
  match c.toNat with
  | 0 => some .tlv | 1 => some .tlm | 2 => some .tls | 3 => some .tlc | 4 => some .tlg | _ => none
/-- The 3-bit code of a timeline. -/
def Timeline.code : Timeline → BitVec 3
  | .tlv => 0 | .tlm => 1 | .tls => 2 | .tlc => 3 | .tlg => 4

/-- Rounding mode of a 3-bit code. -/
def RMode.ofCode (c : BitVec 3) : Option RMode :=
  match c.toNat with
  | 0 => some .rne | 1 => some .rtz | 2 => some .rup | 3 => some .rdn | 4 => some .sr | _ => none
/-- The 3-bit code of a rounding mode. -/
def RMode.code : RMode → BitVec 3
  | .rne => 0 | .rtz => 1 | .rup => 2 | .rdn => 3 | .sr => 4

/-- Atomic operand type of a 2-bit code. -/
def AmoTy.ofCode (c : BitVec 2) : AmoTy :=
  match c.toNat with
  | 0 => .w | 1 => .d | 2 => .f | _ => .h2
/-- The 2-bit code of an atomic operand type. -/
def AmoTy.code : AmoTy → BitVec 2
  | .w => 0 | .d => 1 | .f => 2 | .h2 => 3

/-- Atomic operation of a 4-bit code. -/
def AmoOp.ofCode (c : BitVec 4) : Option AmoOp :=
  match c.toNat with
  | 0 => some .add | 1 => some .min | 2 => some .max | 3 => some .minu | 4 => some .maxu | 5 => some .and
  | 6 => some .or | 7 => some .xor | 8 => some .swp | _ => none
/-- The 4-bit code of an atomic operation. -/
def AmoOp.code : AmoOp → BitVec 4
  | .add => 0 | .min => 1 | .max => 2 | .minu => 3 | .maxu => 4 | .and => 5 | .or => 6 | .xor => 7 | .swp => 8

/-- Compare relation of a 2-bit code. -/
def CmpRel.ofCode (c : BitVec 2) : CmpRel :=
  match c.toNat with
  | 0 => .eq | 1 => .ne | 2 => .lt | _ => .le
/-- The 2-bit code of a compare relation. -/
def CmpRel.code : CmpRel → BitVec 2
  | .eq => 0 | .ne => 1 | .lt => 2 | .le => 3

/-- Reduction operation of a 2-bit code. -/
def RedOp.ofCode (c : BitVec 2) : Option RedOp :=
  match c.toNat with
  | 0 => some .add | 1 => some .min | 2 => some .max | _ => none
/-- The 2-bit code of a reduction operation. -/
def RedOp.code : RedOp → BitVec 2
  | .add => 0 | .min => 1 | .max => 2

/-- Drain mode of a 2-bit code. -/
def DrainMode.ofCode (c : BitVec 2) : Option DrainMode :=
  match c.toNat with
  | 1 => some .store | 2 => some .add | 3 => some .addc | _ => none
/-- The 2-bit code of a drain mode. -/
def DrainMode.code : DrainMode → BitVec 2
  | .store => 1 | .add => 2 | .addc => 3

/-- Hint kind of a 2-bit code. -/
def HintKind.ofCode (c : BitVec 2) : HintKind :=
  match c.toNat with
  | 0 => .l2 | 1 => .ro | 2 => .keep | _ => .rel
/-- The 2-bit code of a hint kind. -/
def HintKind.code : HintKind → BitVec 2
  | .l2 => 0 | .ro => 1 | .keep => 2 | .rel => 3

/-- CSR of a 12-bit number (R83). -/
def CsrName.ofNum (n : BitVec 12) : Option CsrName :=
  match n.toNat with
  | 0xC00 => some .cycle | 0xCC0 => some .coreid | 0xCC1 => some .quadid | 0xCC2 => some .dieid
  | 0xCC3 => some .pkgid | 0xCC4 => some .rank | 0xCC5 => some .gsize | 0xCC6 => some .ctxid
  | 0xCC7 => some .reqtag | 0xCC8 => some .tenant | 0x800 => some .vrnd | 0x801 => some .fstat
  | 0x802 => some .mstat | 0x803 => some .srst | 0x5C0 => some .tvec | 0x5C1 => some .tcause
  | 0x5C2 => some .tval | 0x5C3 => some .tpc | 0x5C4 => some .tstat | 0x5C5 => some .tscratch
  | 0x5C6 => some .wdog | 0x5C7 => some .occtmo | 0x5C8 => some .prin | 0x5C9 => some .clrptr
  | 0x5CA => some .evptr | _ => none
/-- The 12-bit number of a CSR (R83). -/
def CsrName.num : CsrName → BitVec 12
  | .cycle => 0xC00 | .coreid => 0xCC0 | .quadid => 0xCC1 | .dieid => 0xCC2 | .pkgid => 0xCC3
  | .rank => 0xCC4 | .gsize => 0xCC5 | .ctxid => 0xCC6 | .reqtag => 0xCC7 | .tenant => 0xCC8
  | .vrnd => 0x800 | .fstat => 0x801 | .mstat => 0x802 | .srst => 0x803 | .tvec => 0x5C0
  | .tcause => 0x5C1 | .tval => 0x5C2 | .tpc => 0x5C3 | .tstat => 0x5C4 | .tscratch => 0x5C5
  | .wdog => 0x5C6 | .occtmo => 0x5C7 | .prin => 0x5C8 | .clrptr => 0x5C9 | .evptr => 0x5CA

/-! ### Fields of a word -/

/-- Bits [lo + len - 1 : lo] of a word. -/
def bits (w : W32) (lo len : Nat) : BitVec len := w.extractLsb' lo len

/-- Bits [hi : lo] of a word are all 0. -/
def zeroBits (w : W32) (lo len : Nat) : Bool := bits w lo len == 0

/-- `a` when the condition holds, else the named rejection. -/
def demand (c : Bool) (e : DecodeError) (a : Except DecodeError Instr) : Except DecodeError Instr :=
  if c then a else .error e

/-- The instruction of a coded field, or the named rejection. -/
def coded {α : Type} (o : Option α) (f : α → Except DecodeError Instr) : Except DecodeError Instr :=
  match o with
  | some a => f a
  | none => .error .badCode

/-! ### Unit K (R31, R39 to R41) -/

/-- The I immediate. -/
def immI (w : W32) : BitVec 12 := bits w 20 12
/-- The S immediate. -/
def immS (w : W32) : BitVec 12 := bits w 25 7 ++ bits w 7 5
/-- Offset bits [12:1] of the B format. -/
def immB (w : W32) : BitVec 12 := bits w 31 1 ++ bits w 7 1 ++ bits w 25 6 ++ bits w 8 4
/-- Offset bits [20:1] of the J format. -/
def immJ (w : W32) : BitVec 20 := bits w 31 1 ++ bits w 12 8 ++ bits w 20 1 ++ bits w 21 10

/-- OP: register operations of RV64I and M. -/
def decodeOp (w : W32) : Except DecodeError Instr :=
  let rd := bits w 7 5; let rs1 := bits w 15 5; let rs2 := bits w 20 5
  match (bits w 25 7).toNat, (bits w 12 3).toNat with
  | 0, 0 => .ok (.add rd rs1 rs2)
  | 0, 1 => .ok (.sll rd rs1 rs2)
  | 0, 2 => .ok (.slt rd rs1 rs2)
  | 0, 3 => .ok (.sltu rd rs1 rs2)
  | 0, 4 => .ok (.xor rd rs1 rs2)
  | 0, 5 => .ok (.srl rd rs1 rs2)
  | 0, 6 => .ok (.or rd rs1 rs2)
  | 0, 7 => .ok (.and rd rs1 rs2)
  | 32, 0 => .ok (.sub rd rs1 rs2)
  | 32, 5 => .ok (.sra rd rs1 rs2)
  | 1, 0 => .ok (.mul rd rs1 rs2)
  | 1, 1 => .ok (.mulh rd rs1 rs2)
  | 1, 2 => .ok (.mulhsu rd rs1 rs2)
  | 1, 3 => .ok (.mulhu rd rs1 rs2)
  | 1, 4 => .ok (.div rd rs1 rs2)
  | 1, 5 => .ok (.divu rd rs1 rs2)
  | 1, 6 => .ok (.rem rd rs1 rs2)
  | 1, 7 => .ok (.remu rd rs1 rs2)
  | _, _ => .error .badFunct

/-- OP-32: the W forms. -/
def decodeOp32 (w : W32) : Except DecodeError Instr :=
  let rd := bits w 7 5; let rs1 := bits w 15 5; let rs2 := bits w 20 5
  match (bits w 25 7).toNat, (bits w 12 3).toNat with
  | 0, 0 => .ok (.addw rd rs1 rs2)
  | 0, 1 => .ok (.sllw rd rs1 rs2)
  | 0, 5 => .ok (.srlw rd rs1 rs2)
  | 32, 0 => .ok (.subw rd rs1 rs2)
  | 32, 5 => .ok (.sraw rd rs1 rs2)
  | 1, 0 => .ok (.mulw rd rs1 rs2)
  | 1, 4 => .ok (.divw rd rs1 rs2)
  | 1, 5 => .ok (.divuw rd rs1 rs2)
  | 1, 6 => .ok (.remw rd rs1 rs2)
  | 1, 7 => .ok (.remuw rd rs1 rs2)
  | _, _ => .error .badFunct

/-- OP-IMM. -/
def decodeOpImm (w : W32) : Except DecodeError Instr :=
  let rd := bits w 7 5; let rs1 := bits w 15 5; let imm := immI w; let sh := bits w 20 6
  match (bits w 12 3).toNat with
  | 0 => .ok (.addi rd rs1 imm)
  | 1 => demand (zeroBits w 26 6) .badFunct (.ok (.slli rd rs1 sh))
  | 2 => .ok (.slti rd rs1 imm)
  | 3 => .ok (.sltiu rd rs1 imm)
  | 4 => .ok (.xori rd rs1 imm)
  | 5 => if zeroBits w 26 6 then .ok (.srli rd rs1 sh)
         else demand (bits w 26 6 == 16) .badFunct (.ok (.srai rd rs1 sh))
  | 6 => .ok (.ori rd rs1 imm)
  | _ => .ok (.andi rd rs1 imm)

/-- OP-IMM-32. -/
def decodeOpImm32 (w : W32) : Except DecodeError Instr :=
  let rd := bits w 7 5; let rs1 := bits w 15 5; let sh := bits w 20 5
  match (bits w 12 3).toNat with
  | 0 => .ok (.addiw rd rs1 (immI w))
  | 1 => demand (zeroBits w 25 7) .badFunct (.ok (.slliw rd rs1 sh))
  | 5 => if zeroBits w 25 7 then .ok (.srliw rd rs1 sh)
         else demand (bits w 25 7 == 32) .badFunct (.ok (.sraiw rd rs1 sh))
  | _ => .error .badFunct

/-- LOAD. -/
def decodeLoad (w : W32) : Except DecodeError Instr :=
  let rd := bits w 7 5; let rs1 := bits w 15 5; let imm := immI w
  match (bits w 12 3).toNat with
  | 0 => .ok (.lb rd rs1 imm)
  | 1 => .ok (.lh rd rs1 imm)
  | 2 => .ok (.lw rd rs1 imm)
  | 3 => .ok (.ld rd rs1 imm)
  | 4 => .ok (.lbu rd rs1 imm)
  | 5 => .ok (.lhu rd rs1 imm)
  | 6 => .ok (.lwu rd rs1 imm)
  | _ => .error .badFunct

/-- STORE. -/
def decodeStore (w : W32) : Except DecodeError Instr :=
  let rs1 := bits w 15 5; let rs2 := bits w 20 5; let imm := immS w
  match (bits w 12 3).toNat with
  | 0 => .ok (.sb rs2 rs1 imm)
  | 1 => .ok (.sh rs2 rs1 imm)
  | 2 => .ok (.sw rs2 rs1 imm)
  | 3 => .ok (.sd rs2 rs1 imm)
  | _ => .error .badFunct

/-- BRANCH. -/
def decodeBranch (w : W32) : Except DecodeError Instr :=
  let rs1 := bits w 15 5; let rs2 := bits w 20 5; let off := immB w
  match (bits w 12 3).toNat with
  | 0 => .ok (.beq rs1 rs2 off)
  | 1 => .ok (.bne rs1 rs2 off)
  | 4 => .ok (.blt rs1 rs2 off)
  | 5 => .ok (.bge rs1 rs2 off)
  | 6 => .ok (.bltu rs1 rs2 off)
  | 7 => .ok (.bgeu rs1 rs2 off)
  | _ => .error .badFunct

/-- A CSR instruction of a CSR that exists (R40). -/
def decodeCsr (w : W32) (op : CsrOp) (mk : XReg → CsrName → BitVec 5 → Instr) : Except DecodeError Instr :=
  match CsrName.ofNum (bits w 20 12) with
  | none => .error .badCsr
  | some .srst => .ok (.srstAccess op (bits w 7 5) (bits w 15 5))
  | some c => .ok (mk (bits w 7 5) c (bits w 15 5))

/-- SYSTEM (R40). -/
def decodeSystem (w : W32) : Except DecodeError Instr :=
  match (bits w 12 3).toNat with
  | 0 => if w == 0x00000073 then .ok .ecall else demand (w == 0x00100073) .badFunct (.ok .ebreak)
  | 1 => decodeCsr w .rw .csrrw
  | 2 => decodeCsr w .rs .csrrs
  | 3 => decodeCsr w .rc .csrrc
  | 5 => decodeCsr w .rwi .csrrwi
  | 6 => decodeCsr w .rsi .csrrsi
  | 7 => decodeCsr w .rci .csrrci
  | _ => .error .badFunct

/-- MISC-MEM (R40). -/
def decodeMiscMem (w : W32) : Except DecodeError Instr :=
  match (bits w 12 3).toNat with
  | 0 => demand (zeroBits w 28 4) .mustBeZero
      (.ok (.rvfence (bits w 24 4) (bits w 20 4) (bits w 7 5) (bits w 15 5)))
  | 1 => demand (zeroBits w 15 17 && zeroBits w 7 5) .mustBeZero (.ok .rvfenceI)
  | _ => .error .badFunct

/-- custom-0 (R41). -/
def decodeCustom0 (w : W32) : Except DecodeError Instr :=
  let d := bits w 7 5; let a := bits w 15 5; let b := bits w 20 5
  let kd := bits w 7 4; let ka := bits w 15 4
  match (bits w 12 3).toNat with
  | 0 => demand (zeroBits w 30 2) .mustBeZero <| demand (zeroBits w 11 1) .badRegister <|
      .ok (.trn kd a b (bits w 25 4) (bits w 29 1 == 1))
  | 1 => demand (zeroBits w 31 1) .mustBeZero <| demand (zeroBits w 11 1) .badRegister <|
      .ok (.trnp kd a b (bits w 25 4) (bits w 29 1 == 1) (bits w 30 1 == 1))
  | 2 => demand (zeroBits w 19 1) .badRegister <| demand (zeroBits w 20 5) .mustBeZero <|
      match (bits w 25 7).toNat with
      | 0 => demand (zeroBits w 11 1) .badRegister (.ok (.tkmov kd ka))
      | 1 => demand (zeroBits w 7 5) .mustBeZero (.ok (.tkdrop ka))
      | 2 => .ok (.tklen d ka)
      | 3 => .ok (.tkinfo d ka)
      | _ => .error .badFunct
  | 3 => demand (zeroBits w 27 5) .mustBeZero <| demand (zeroBits w 19 1) .badRegister <|
      .ok (.ptr d ka b (bits w 25 2))
  | 4 => demand (zeroBits w 15 10) .mustBeZero <|
      if zeroBits w 29 3 then .ok (.gpatch d (bits w 25 4))
      else demand (bits w 25 7 == 0x10) .badFunct (.ok (.guntag d))
  | 5 => demand (zeroBits w 29 3) .mustBeZero <| coded (ElemTy.ofCode (bits w 25 4)) fun t =>
      .ok (.vxmv t d a b)
  | 6 => demand (zeroBits w 29 3) .mustBeZero <| demand (zeroBits w 18 7) .mustBeZero <|
      coded (ElemTy.ofCode (bits w 25 4)) fun t => .ok (.mpop t d (bits w 15 3))
  | _ => .error .badFunct

/-- Unit K (R39). -/
def decodeK (w : W32) : Except DecodeError Instr :=
  match (bits w 0 7).toNat with
  | 0x03 => decodeLoad w
  | 0x0B => decodeCustom0 w
  | 0x0F => decodeMiscMem w
  | 0x13 => decodeOpImm w
  | 0x17 => .ok (.auipc (bits w 7 5) (bits w 12 20))
  | 0x1B => decodeOpImm32 w
  | 0x23 => decodeStore w
  | 0x33 => decodeOp w
  | 0x37 => .ok (.lui (bits w 7 5) (bits w 12 20))
  | 0x3B => decodeOp32 w
  | 0x63 => decodeBranch w
  | 0x67 => demand (zeroBits w 12 3) .badFunct (.ok (.jalr (bits w 7 5) (bits w 15 5) (immI w)))
  | 0x6F => .ok (.jal (bits w 7 5) (immJ w))
  | 0x73 => decodeSystem w
  | _ => if bits w 0 2 == 3 then .error .badOpcode else .error .badLengthMarker

/-! ### Unit V (R32, R42, R43) -/

/-- The second operand by form; form 11 is none of the three. -/
def vsrcOf (w : W32) : Option VSrc :=
  match (bits w 2 2).toNat with
  | 0 => some (.vv (bits w 14 5))
  | 1 => some (.vx (bits w 14 5))
  | 2 => some (.vi (bits w 14 5))
  | _ => none

/-- The word has the form given. -/
def formIs (w : W32) (f : BitVec 2) : Bool := bits w 2 2 == f

/-- An operation with an element operand in its second source. -/
def decodeV3 (w : W32) (mk : ElemTy → MReg → VSrc → VReg → VReg → Instr) : Except DecodeError Instr :=
  demand (zeroBits w 0 2) .mustBeZero <| coded (ElemTy.ofCode (bits w 22 4)) fun t =>
    match vsrcOf w with
    | some s => .ok (mk t (bits w 19 3) s (bits w 9 5) (bits w 4 5))
    | none => .error .badForm

/-- An operation of one source in form vv, with s2 and aux 0. -/
def decodeV2 (w : W32) (mk : ElemTy → MReg → VReg → VReg → Instr) : Except DecodeError Instr :=
  demand (zeroBits w 0 2 && zeroBits w 14 5) .mustBeZero <| demand (formIs w 0) .badForm <|
    coded (ElemTy.ofCode (bits w 22 4)) fun t => .ok (mk t (bits w 19 3) (bits w 9 5) (bits w 4 5))

/-- An f32 operation of one source. -/
def decodeVF (w : W32) (mk : MReg → VReg → VReg → Instr) : Except DecodeError Instr :=
  demand (bits w 22 4 == 2) .outsideLimits <| demand (zeroBits w 0 2 && zeroBits w 14 5) .mustBeZero <|
    demand (formIs w 0) .badForm (.ok (mk (bits w 19 3) (bits w 9 5) (bits w 4 5)))

/-- A mask operation of two sources in form vv, type 0. -/
def decodeMask (w : W32) (mk : MReg → MReg → MReg → Instr) : Except DecodeError Instr :=
  demand (zeroBits w 22 4 && zeroBits w 19 3 && zeroBits w 0 2) .mustBeZero <| demand (formIs w 0) .badForm <|
    demand (zeroBits w 17 2 && zeroBits w 12 2 && zeroBits w 7 2) .badRegister
      (.ok (mk (bits w 14 3) (bits w 9 3) (bits w 4 3)))

/-- vld and vst: form vx, vs1 0. -/
def decodeVMem (w : W32) (mk : ElemTy → MReg → XReg → VReg → Instr) : Except DecodeError Instr :=
  demand (zeroBits w 0 2 && zeroBits w 9 5) .mustBeZero <| demand (formIs w 1) .badForm <|
    coded (ElemTy.ofCode (bits w 22 4)) fun t => .ok (mk t (bits w 19 3) (bits w 14 5) (bits w 4 5))

/-- vldg and vsts: form vx, vs1 the offset group. -/
def decodeVIdx (w : W32) (mk : ElemTy → MReg → XReg → VReg → VReg → Instr) : Except DecodeError Instr :=
  demand (zeroBits w 0 2) .mustBeZero <| demand (formIs w 1) .badForm <|
    coded (ElemTy.ofCode (bits w 22 4)) fun t =>
      .ok (mk t (bits w 19 3) (bits w 14 5) (bits w 9 5) (bits w 4 5))

/-- vldr and vstr: form vx, vs1 the handle. -/
def decodeVRing (w : W32) (mk : ElemTy → MReg → XReg → HReg → VReg → Instr) : Except DecodeError Instr :=
  demand (zeroBits w 0 2) .mustBeZero <| demand (formIs w 1) .badForm <| demand (zeroBits w 13 1) .badRegister <|
    coded (ElemTy.ofCode (bits w 22 4)) fun t =>
      .ok (mk t (bits w 19 3) (bits w 14 5) (bits w 9 4) (bits w 4 5))

/-- vadv and vpub: form vx, type 0, vs1 the handle. -/
def decodeVAdv (w : W32) (mk : XReg → HReg → Instr) : Except DecodeError Instr :=
  demand (zeroBits w 22 4 && zeroBits w 19 3 && zeroBits w 4 5 && zeroBits w 0 2) .mustBeZero <|
    demand (formIs w 1) .badForm <| demand (zeroBits w 13 1) .badRegister (.ok (mk (bits w 14 5) (bits w 9 4)))

/-- Unit V before the limits of R42 and R43 on types and forms. -/
def decodeVRaw (w : W32) : Except DecodeError Instr :=
  let m := bits w 19 3
  match (bits w 26 6).toNat with
  | 0x00 => decodeV3 w .vadd
  | 0x01 => decodeV3 w .vsub
  | 0x02 => decodeV3 w .vmul
  | 0x03 => decodeV3 w .vfma
  | 0x04 => decodeV3 w .vmin
  | 0x05 => decodeV3 w .vmax
  | 0x06 => decodeV2 w .vabs
  | 0x07 => decodeV2 w .vneg
  | 0x08 => demand (bits w 22 4 == 2) .outsideLimits (decodeV3 w fun _ => .vdiv)
  | 0x09 => decodeVF w .vsqrt
  | 0x0A => decodeVF w .vrcp
  | 0x0B => decodeVF w .vrsq
  | 0x0C => decodeVF w .vexp2
  | 0x0D => decodeVF w .vlog2
  | 0x10 => decodeV3 w .vand
  | 0x11 => decodeV3 w .vor
  | 0x12 => decodeV3 w .vxor
  | 0x13 => decodeV2 w .vnot
  | 0x14 => decodeV3 w .vshl
  | 0x15 => decodeV3 w .vshr
  | 0x16 => decodeV3 w .vsra
  | 0x18 => demand (zeroBits w 7 2) .badRegister <| coded (ElemTy.ofCode (bits w 22 4)) fun t =>
      match vsrcOf w with
      | some s => .ok (.vcmp (CmpRel.ofCode (bits w 0 2)) t m s (bits w 9 5) (bits w 4 3))
      | none => .error .badForm
  | 0x19 => demand (zeroBits w 0 2) .mustBeZero <| demand (formIs w 0) .badForm <|
      coded (ElemTy.ofCode (bits w 22 4)) fun t => .ok (.vsel t m (bits w 14 5) (bits w 9 5) (bits w 4 5))
  | 0x1A => demand (zeroBits w 0 2 && zeroBits w 18 1) .mustBeZero <| demand (formIs w 3) .badForm <|
      coded (ElemTy.ofCode (bits w 22 4)) fun t => coded (ElemTy.ofCode (bits w 14 4)) fun ts =>
        .ok (.vcvt t ts m (bits w 9 5) (bits w 4 5))
  | 0x1C => decodeV2 w .vmov
  | 0x1D => decodeVMem w .vbcast
  | 0x1E => demand (zeroBits w 0 2 && zeroBits w 9 10) .mustBeZero <| demand (formIs w 0) .badForm <|
      coded (ElemTy.ofCode (bits w 22 4)) fun t => .ok (.viota t m (bits w 4 5))
  | 0x1F => demand (zeroBits w 0 2) .mustBeZero <| demand (formIs w 0) .badForm <|
      coded (ElemTy.ofCode (bits w 22 4)) fun t => .ok (.vshuf t m (bits w 14 5) (bits w 9 5) (bits w 4 5))
  | 0x20 => demand (zeroBits w 1 1) .mustBeZero <| coded (ElemTy.ofCode (bits w 22 4)) fun t =>
      match vsrcOf w with
      | some s => .ok (.vslide (bits w 0 1 == 1) t m s (bits w 9 5) (bits w 4 5))
      | none => .error .badForm
  | 0x21 => decodeV2 w .vcmpr
  | 0x22 => demand (zeroBits w 0 2 && zeroBits w 9 10) .mustBeZero <| demand (formIs w 0) .badForm <|
      coded (ElemTy.ofCode (bits w 22 4)) fun t => .ok (.vpart t m (bits w 4 5))
  | 0x24 => demand (zeroBits w 14 5) .mustBeZero <| demand (formIs w 0) .badForm <|
      coded (RedOp.ofCode (bits w 0 2)) fun o => coded (ElemTy.ofCode (bits w 22 4)) fun t =>
        .ok (.vred o t m (bits w 9 5) (bits w 4 5))
  | 0x25 => demand (zeroBits w 14 5) .mustBeZero <| demand (formIs w 0) .badForm <|
      coded (RedOp.ofCode (bits w 0 2)) fun o => coded (ElemTy.ofCode (bits w 22 4)) fun t =>
        .ok (.vscan o t m (bits w 9 5) (bits w 4 5))
  | 0x28 => demand (zeroBits w 0 2 && zeroBits w 9 5 && zeroBits w 19 3) .mustBeZero <|
      demand (formIs w 1) .badForm <| demand (zeroBits w 7 2) .badRegister <|
      coded (ElemTy.ofCode (bits w 22 4)) fun t => .ok (.mset t (bits w 14 5) (bits w 4 3))
  | 0x29 => decodeMask w .mand
  | 0x2A => decodeMask w .mor
  | 0x2B => decodeMask w .mxor
  | 0x2C => demand (zeroBits w 14 5) .mustBeZero (decodeMask w fun _ => .mnot)
  | 0x30 => decodeVMem w .vld
  | 0x31 => decodeVMem w .vst
  | 0x32 => decodeVIdx w .vldg
  | 0x33 => decodeVIdx w .vsts
  | 0x34 => decodeVRing w .vldr
  | 0x35 => decodeVRing w .vstr
  | 0x36 => decodeVAdv w .vadv
  | 0x37 => decodeVAdv w .vpub
  | 0x38 => demand (bits w 22 4 == 2) .outsideLimits <| demand (zeroBits w 1 1 && zeroBits w 19 3) .mustBeZero <|
      demand (formIs w 1) .badForm <| demand (zeroBits w 12 2) .badRegister <|
      .ok (.vlda (bits w 0 1 == 1) (bits w 14 5) (bits w 9 3) (bits w 4 5))
  | _ => .error .badOp

/-! ### Unit E (R33, R44, R45) -/

/-- Unit E. -/
def decodeE (w : W32) : Except DecodeError Instr :=
  let xa := bits w 17 5; let xb := bits w 12 5; let xc := bits w 7 5
  let noA := zeroBits w 17 5; let noB := zeroBits w 12 5; let noC := zeroBits w 7 5
  let s3 := bits w 0 3; let h := bits w 0 4
  match (bits w 27 5).toNat, (bits w 22 5).toNat with
  | 0, 0 => demand (noB && noC && zeroBits w 4 3) .mustBeZero (.ok (.rset h xa))
  | 0, 1 => demand (noC && zeroBits w 4 3) .mustBeZero (.ok (.sfill h xa xb))
  | 0, 2 => demand (noC && zeroBits w 4 3) .mustBeZero (.ok (.sdrain h xa xb))
  | 0, 3 => demand (zeroBits w 0 7) .mustBeZero (.ok (.scopy xa xb xc))
  | 0, 4 => demand (noC && zeroBits w 2 5) .mustBeZero (.ok (.shint (HintKind.ofCode (bits w 0 2)) xa xb))
  | 1, 0 => demand (noB && noC) .mustBeZero (.ok (.mcfg (bits w 0 7) xa))
  | 1, 1 => demand (noA && noB && noC && zeroBits w 0 7) .mustBeZero (.ok .mgo)
  | 1, 2 => demand (noA && noB && noC && zeroBits w 3 4) .mustBeZero <|
      coded (RMode.ofCode s3) fun r => .ok (.mrnd r)
  | 1, 3 => demand (noA && noB && noC && zeroBits w 3 4) .mustBeZero (.ok (.mzero s3))
  | 1, 4 => demand (noC && zeroBits w 5 2) .mustBeZero <|
      coded (DrainMode.ofCode (bits w 3 2)) fun m => .ok (.mdrain s3 m xa xb)
  | 1, 5 => demand (noB && noC && zeroBits w 0 7) .mustBeZero (.ok (.mchk xa))
  | 2, 0 => demand (noB && noC && zeroBits w 3 4) .mustBeZero (.ok (.clset s3 xa))
  | 2, 1 => demand (noB && noC && zeroBits w 3 4) .mustBeZero (.ok (.clclr s3 xa))
  | 2, 2 => demand (zeroBits w 3 4) .mustBeZero (.ok (.clins s3 xa xb xc))
  | 2, 3 => demand (zeroBits w 3 4) .mustBeZero (.ok (.cldel s3 xa xb xc))
  | 2, 4 => demand (noC && zeroBits w 3 4) .mustBeZero (.ok (.clsub s3 xa xb))
  | 2, 5 => demand (noC && zeroBits w 3 4) .mustBeZero (.ok (.clxch s3 xa xb))
  | 2, 6 => demand (zeroBits w 3 3) .mustBeZero (.ok (.clpeel s3 (bits w 6 1 == 1) xa xb xc))
  | 2, 7 => demand (noB && noC && zeroBits w 3 4) .mustBeZero (.ok (.clstat xa s3))
  | 3, 0 => demand (noA && noB && noC && zeroBits w 3 4) .mustBeZero (.ok (.grec s3))
  | 3, 1 => demand (noA && noB && noC && zeroBits w 0 7) .mustBeZero (.ok .gend)
  | 3, 2 => demand (noC && zeroBits w 3 4) .mustBeZero (.ok (.gplay xa s3 xb))
  | 3, 3 => demand (noB && noC && zeroBits w 3 4) .mustBeZero (.ok (.gsave s3 xa))
  | 3, 4 => demand (noB && noC && zeroBits w 3 4) .mustBeZero (.ok (.gload s3 xa))
  | 3, 5 => demand (noA && noB && noC && zeroBits w 3 4) .mustBeZero (.ok (.gdrop s3))
  | 3, 6 => demand (noB && noC && zeroBits w 3 4) .mustBeZero (.ok (.gstat xa s3))
  | 4, 0 => demand (noC && zeroBits w 0 7) .mustBeZero (.ok (.jpost xa xb))
  | 4, 1 => demand (noA && noB && noC && zeroBits w 0 7) .mustBeZero (.ok .jdone)
  | 4, 2 => demand (noC && zeroBits w 0 7) .mustBeZero (.ok (.jstat xa xb))
  | 4, 3 => demand (noA && noB && noC && zeroBits w 0 7) .mustBeZero (.ok .jyield)
  | 4, 4 => demand (noC && zeroBits w 0 7) .mustBeZero (.ok (.jprio xa xb))
  | _, _ => .error .badOp

/-! ### Unit Y (R34, R46, R47) -/

/-- A barrier instruction. -/
def decodeBar (w : W32) (mk : Scope → BitVec 3 → XReg → Instr) : Except DecodeError Instr :=
  demand (zeroBits w 0 15) .mustBeZero <| coded (Scope.ofCode (bits w 23 3)) fun sc =>
    .ok (mk sc (bits w 20 3) (bits w 15 5))

/-- Unit Y. -/
def decodeY (w : W32) : Except DecodeError Instr :=
  match (bits w 28 4).toNat with
  | 0 => demand (zeroBits w 0 1) .mustBeZero <| coded (AmoOp.ofCode (bits w 24 4)) fun op =>
      coded (Order.ofCode (bits w 19 3)) fun o => coded (Scope.ofCode (bits w 16 3)) fun sc =>
        .ok (.amo op (AmoTy.ofCode (bits w 22 2)) o sc (bits w 11 5) (bits w 6 5) (bits w 1 5))
  | 1 => demand (zeroBits w 27 1) .badCode <| coded (Order.ofCode (bits w 23 3)) fun o =>
      coded (Scope.ofCode (bits w 20 3)) fun sc =>
        .ok (.cas (bits w 26 1 == 1) o sc (bits w 15 5) (bits w 10 5) (bits w 5 5) (bits w 0 5))
  | 2 => match (bits w 26 2).toNat with
      | 0 => demand (zeroBits w 0 18) .mustBeZero <| coded (Scope.ofCode (bits w 23 3)) fun sc =>
          .ok (.fence sc (bits w 18 5))
      | 1 => demand (zeroBits w 0 26) .mustBeZero (.ok .xfence)
      | 2 => demand (zeroBits w 0 26) .mustBeZero (.ok .rosync)
      | _ => .error .badOp
  | 3 => demand (zeroBits w 0 19) .mustBeZero <| coded (Timeline.ofCode (bits w 24 3)) fun tl =>
      if zeroBits w 27 1 then .ok (.twait tl (bits w 19 5)) else .ok (.tliss (bits w 19 5) tl)
  | 4 => match (bits w 26 2).toNat with
      | 0 => decodeBar w .barArv
      | 1 => decodeBar w .barWt
      | 2 => decodeBar w .barAw
      | _ => decodeBar w .barStat
  | 5 => match (bits w 26 2).toNat with
      | 0 => demand (zeroBits w 0 6) .mustBeZero
          (.ok (.waita (bits w 21 5) (bits w 16 5) (bits w 11 5) (bits w 6 5)))
      | 1 => demand (zeroBits w 0 17) .mustBeZero (.ok (.rwaitf (bits w 22 4) (bits w 17 5)))
      | 2 => demand (zeroBits w 0 17) .mustBeZero (.ok (.rwaite (bits w 22 4) (bits w 17 5)))
      | _ => .error .badOp
  | 6 => demand (zeroBits w 0 13) .mustBeZero
      (.ok (.stf (bits w 23 5) (bits w 18 5) (bits w 13 5)))
  | 7 => match (bits w 25 3).toNat with
      | 0 => demand (zeroBits w 0 20) .mustBeZero (.ok (.pocc (bits w 20 5)))
      | 1 => demand (zeroBits w 0 20) .mustBeZero (.ok (.poccW (bits w 20 5)))
      | 2 => demand (zeroBits w 0 10) .mustBeZero (.ok (.pref (bits w 20 5) (bits w 15 5) (bits w 10 5)))
      | 3 => demand (zeroBits w 0 20) .mustBeZero (.ok (.pret (bits w 20 5)))
      | 4 => demand (zeroBits w 0 15) .mustBeZero (.ok (.ptstat (bits w 20 5) (bits w 15 5)))
      | _ => .error .badOp
  | 8 => if zeroBits w 27 1 then demand (zeroBits w 0 27) .mustBeZero (.ok .tret)
      else demand (zeroBits w 0 22) .mustBeZero (.ok (.purge (bits w 22 5)))
  | _ => .error .badOp

/-! ### The decoder -/

/-- The word as its unit reads it, before the limits of WellFormed. -/
def decodeRaw (u : LaneUnit) (w : W32) : Except DecodeError Instr :=
  match u with
  | .k => decodeK w
  | .v => decodeVRaw w
  | .e => decodeE w
  | .y => decodeY w

/-- The decoder (R28, R35): the instruction of a word under a unit, or the name of what makes it ILL. -/
def decode (u : LaneUnit) (w : W32) : Except DecodeError Instr :=
  match decodeRaw u w with
  | .error e => .error e
  | .ok i => if i.wellFormed then .ok i else .error .outsideLimits

/-- A little-endian word of four bytes (R24). -/
def wordOfBytes (b0 b1 b2 b3 : Byte) : W32 := b3 ++ b2 ++ b1 ++ b0

/-- The decoder on the bytes of a lane: an instruction and the bytes after it. -/
def decodeBytes (u : LaneUnit) : List Byte → Except DecodeError (Instr × List Byte)
  | b0 :: b1 :: b2 :: b3 :: rest =>
    match decode u (wordOfBytes b0 b1 b2 b3) with
    | .ok i => .ok (i, rest)
    | .error e => .error e
  | _ => .error .badLengthMarker

/-! ### The encoder -/

/-- Five-bit immediate or register with its form (R32). -/
def VSrc.field : VSrc → BitVec 5
  | .vv r | .vx r | .vi r => r
/-- The form code of a second operand (R32). -/
def VSrc.form : VSrc → BitVec 2
  | .vv _ => 0 | .vx _ => 1 | .vi _ => 2

/-- A Bool as one bit. -/
def bit1 (b : Bool) : BitVec 1 := if b then 1 else 0

/-- The R format. -/
def encR (f7 : BitVec 7) (rs2 rs1 : XReg) (f3 : BitVec 3) (rd : XReg) (op : BitVec 7) : W32 :=
  f7 ++ rs2 ++ rs1 ++ f3 ++ rd ++ op
/-- The I format. -/
def encI (imm : BitVec 12) (rs1 : XReg) (f3 : BitVec 3) (rd : XReg) (op : BitVec 7) : W32 :=
  imm ++ rs1 ++ f3 ++ rd ++ op
/-- The S format. -/
def encS (imm : BitVec 12) (rs2 rs1 : XReg) (f3 : BitVec 3) : W32 :=
  imm.extractLsb' 5 7 ++ rs2 ++ rs1 ++ f3 ++ imm.extractLsb' 0 5 ++ 0x23#7
/-- The B format, of offset bits [12:1]. -/
def encB (off : BitVec 12) (rs2 rs1 : XReg) (f3 : BitVec 3) : W32 :=
  off.extractLsb' 11 1 ++ off.extractLsb' 4 6 ++ rs2 ++ rs1 ++ f3 ++ off.extractLsb' 0 4 ++
    off.extractLsb' 10 1 ++ 0x63#7
/-- The J format, of offset bits [20:1]. -/
def encJ (off : BitVec 20) (rd : XReg) : W32 :=
  off.extractLsb' 19 1 ++ off.extractLsb' 0 10 ++ off.extractLsb' 10 1 ++ off.extractLsb' 11 8 ++ rd ++ 0x6F#7
/-- Unit V (R32). -/
def encV (op : BitVec 6) (ty : BitVec 4) (mk : MReg) (s2 vs1 vd : BitVec 5) (form aux : BitVec 2) : W32 :=
  op ++ ty ++ mk ++ s2 ++ vs1 ++ vd ++ form ++ aux
/-- Unit E (R33). -/
def encE (group op xa xb xc : BitVec 5) (spec : BitVec 7) : W32 := group ++ op ++ xa ++ xb ++ xc ++ spec
/-- A barrier instruction (R46). -/
def encBar (sub : BitVec 2) (sc : Scope) (b : BitVec 3) (x : XReg) : W32 :=
  4#4 ++ sub ++ sc.code ++ b ++ x ++ 0#15
/-- A vector operation with an element operand. -/
def encV3 (op : BitVec 6) (t : ElemTy) (m : MReg) (s : VSrc) (a d : VReg) (aux : BitVec 2) : W32 :=
  encV op t.code m s.field a d s.form aux
/-- A mask or other three-bit index in a five-bit field. -/
def idx3 (m : BitVec 3) : BitVec 5 := 0#2 ++ m
/-- A four-bit index in a five-bit field. -/
def idx4 (k : BitVec 4) : BitVec 5 := 0#1 ++ k

/-- The unit and the word of an instruction; an event has none. -/
def encode : Instr → Option (LaneUnit × W32)
  | .lb rd rs1 imm => some (.k, encI imm rs1 0 rd 0x03)
  | .lh rd rs1 imm => some (.k, encI imm rs1 1 rd 0x03)
  | .lw rd rs1 imm => some (.k, encI imm rs1 2 rd 0x03)
  | .ld rd rs1 imm => some (.k, encI imm rs1 3 rd 0x03)
  | .lbu rd rs1 imm => some (.k, encI imm rs1 4 rd 0x03)
  | .lhu rd rs1 imm => some (.k, encI imm rs1 5 rd 0x03)
  | .lwu rd rs1 imm => some (.k, encI imm rs1 6 rd 0x03)
  | .sb rs2 rs1 imm => some (.k, encS imm rs2 rs1 0)
  | .sh rs2 rs1 imm => some (.k, encS imm rs2 rs1 1)
  | .sw rs2 rs1 imm => some (.k, encS imm rs2 rs1 2)
  | .sd rs2 rs1 imm => some (.k, encS imm rs2 rs1 3)
  | .addi rd rs1 imm => some (.k, encI imm rs1 0 rd 0x13)
  | .slti rd rs1 imm => some (.k, encI imm rs1 2 rd 0x13)
  | .sltiu rd rs1 imm => some (.k, encI imm rs1 3 rd 0x13)
  | .xori rd rs1 imm => some (.k, encI imm rs1 4 rd 0x13)
  | .ori rd rs1 imm => some (.k, encI imm rs1 6 rd 0x13)
  | .andi rd rs1 imm => some (.k, encI imm rs1 7 rd 0x13)
  | .slli rd rs1 sh => some (.k, encI (0#6 ++ sh) rs1 1 rd 0x13)
  | .srli rd rs1 sh => some (.k, encI (0#6 ++ sh) rs1 5 rd 0x13)
  | .srai rd rs1 sh => some (.k, encI (16#6 ++ sh) rs1 5 rd 0x13)
  | .auipc rd imm => some (.k, imm ++ rd ++ 0x17#7)
  | .addiw rd rs1 imm => some (.k, encI imm rs1 0 rd 0x1B)
  | .slliw rd rs1 sh => some (.k, encI (0#7 ++ sh) rs1 1 rd 0x1B)
  | .srliw rd rs1 sh => some (.k, encI (0#7 ++ sh) rs1 5 rd 0x1B)
  | .sraiw rd rs1 sh => some (.k, encI (32#7 ++ sh) rs1 5 rd 0x1B)
  | .add rd rs1 rs2 => some (.k, encR 0 rs2 rs1 0 rd 0x33)
  | .sub rd rs1 rs2 => some (.k, encR 32 rs2 rs1 0 rd 0x33)
  | .sll rd rs1 rs2 => some (.k, encR 0 rs2 rs1 1 rd 0x33)
  | .slt rd rs1 rs2 => some (.k, encR 0 rs2 rs1 2 rd 0x33)
  | .sltu rd rs1 rs2 => some (.k, encR 0 rs2 rs1 3 rd 0x33)
  | .xor rd rs1 rs2 => some (.k, encR 0 rs2 rs1 4 rd 0x33)
  | .srl rd rs1 rs2 => some (.k, encR 0 rs2 rs1 5 rd 0x33)
  | .sra rd rs1 rs2 => some (.k, encR 32 rs2 rs1 5 rd 0x33)
  | .or rd rs1 rs2 => some (.k, encR 0 rs2 rs1 6 rd 0x33)
  | .and rd rs1 rs2 => some (.k, encR 0 rs2 rs1 7 rd 0x33)
  | .mul rd rs1 rs2 => some (.k, encR 1 rs2 rs1 0 rd 0x33)
  | .mulh rd rs1 rs2 => some (.k, encR 1 rs2 rs1 1 rd 0x33)
  | .mulhsu rd rs1 rs2 => some (.k, encR 1 rs2 rs1 2 rd 0x33)
  | .mulhu rd rs1 rs2 => some (.k, encR 1 rs2 rs1 3 rd 0x33)
  | .div rd rs1 rs2 => some (.k, encR 1 rs2 rs1 4 rd 0x33)
  | .divu rd rs1 rs2 => some (.k, encR 1 rs2 rs1 5 rd 0x33)
  | .rem rd rs1 rs2 => some (.k, encR 1 rs2 rs1 6 rd 0x33)
  | .remu rd rs1 rs2 => some (.k, encR 1 rs2 rs1 7 rd 0x33)
  | .addw rd rs1 rs2 => some (.k, encR 0 rs2 rs1 0 rd 0x3B)
  | .subw rd rs1 rs2 => some (.k, encR 32 rs2 rs1 0 rd 0x3B)
  | .sllw rd rs1 rs2 => some (.k, encR 0 rs2 rs1 1 rd 0x3B)
  | .srlw rd rs1 rs2 => some (.k, encR 0 rs2 rs1 5 rd 0x3B)
  | .sraw rd rs1 rs2 => some (.k, encR 32 rs2 rs1 5 rd 0x3B)
  | .mulw rd rs1 rs2 => some (.k, encR 1 rs2 rs1 0 rd 0x3B)
  | .divw rd rs1 rs2 => some (.k, encR 1 rs2 rs1 4 rd 0x3B)
  | .divuw rd rs1 rs2 => some (.k, encR 1 rs2 rs1 5 rd 0x3B)
  | .remw rd rs1 rs2 => some (.k, encR 1 rs2 rs1 6 rd 0x3B)
  | .remuw rd rs1 rs2 => some (.k, encR 1 rs2 rs1 7 rd 0x3B)
  | .lui rd imm => some (.k, imm ++ rd ++ 0x37#7)
  | .beq rs1 rs2 off => some (.k, encB off rs2 rs1 0)
  | .bne rs1 rs2 off => some (.k, encB off rs2 rs1 1)
  | .blt rs1 rs2 off => some (.k, encB off rs2 rs1 4)
  | .bge rs1 rs2 off => some (.k, encB off rs2 rs1 5)
  | .bltu rs1 rs2 off => some (.k, encB off rs2 rs1 6)
  | .bgeu rs1 rs2 off => some (.k, encB off rs2 rs1 7)
  | .jalr rd rs1 imm => some (.k, encI imm rs1 0 rd 0x67)
  | .jal rd off => some (.k, encJ off rd)
  | .ecall => some (.k, 0x00000073)
  | .ebreak => some (.k, 0x00100073)
  | .csrrw rd csr s => some (.k, encI csr.num s 1 rd 0x73)
  | .csrrs rd csr s => some (.k, encI csr.num s 2 rd 0x73)
  | .csrrc rd csr s => some (.k, encI csr.num s 3 rd 0x73)
  | .csrrwi rd csr s => some (.k, encI csr.num s 5 rd 0x73)
  | .csrrsi rd csr s => some (.k, encI csr.num s 6 rd 0x73)
  | .csrrci rd csr s => some (.k, encI csr.num s 7 rd 0x73)
  | .srstAccess op rd s =>
    some (.k, encI 0x803 s (match op with | .rw => 1 | .rs => 2 | .rc => 3 | .rwi => 5 | .rsi => 6 | .rci => 7)
      rd 0x73)
  | .rvfence p q rd rs1 => some (.k, encI (0#4 ++ p ++ q) rs1 0 rd 0x0F)
  | .rvfenceI => some (.k, 0x0000100F)
  | .trn kd a b r ms => some (.k, encR (0#2 ++ bit1 ms ++ r) b a 0 (idx4 kd) 0x0B)
  | .trnp kd a b r ms host => some (.k, encR (0#1 ++ bit1 host ++ bit1 ms ++ r) b a 1 (idx4 kd) 0x0B)
  | .tkmov kd ks => some (.k, encR 0 0 (idx4 ks) 2 (idx4 kd) 0x0B)
  | .tkdrop ks => some (.k, encR 1 0 (idx4 ks) 2 0 0x0B)
  | .tklen xd ks => some (.k, encR 2 0 (idx4 ks) 2 xd 0x0B)
  | .tkinfo xd ks => some (.k, encR 3 0 (idx4 ks) 2 xd 0x0B)
  | .ptr xd ks xoff p => some (.k, encR (0#5 ++ p) xoff (idx4 ks) 3 xd 0x0B)
  | .gpatch xd s => some (.k, encR (0#3 ++ s) 0 0 4 xd 0x0B)
  | .guntag xd => some (.k, encR 0x10 0 0 4 xd 0x0B)
  | .vxmv t xd vs1 xi => some (.k, encR (0#3 ++ t.code) xi vs1 5 xd 0x0B)
  | .mpop t xd mk => some (.k, encR (0#3 ++ t.code) 0 (idx3 mk) 6 xd 0x0B)
  | .vadd t m s a d => some (.v, encV3 0x00 t m s a d 0)
  | .vsub t m s a d => some (.v, encV3 0x01 t m s a d 0)
  | .vmul t m s a d => some (.v, encV3 0x02 t m s a d 0)
  | .vfma t m s a d => some (.v, encV3 0x03 t m s a d 0)
  | .vmin t m s a d => some (.v, encV3 0x04 t m s a d 0)
  | .vmax t m s a d => some (.v, encV3 0x05 t m s a d 0)
  | .vabs t m a d => some (.v, encV 0x06 t.code m 0 a d 0 0)
  | .vneg t m a d => some (.v, encV 0x07 t.code m 0 a d 0 0)
  | .vdiv m s a d => some (.v, encV3 0x08 .f32 m s a d 0)
  | .vsqrt m a d => some (.v, encV 0x09 2 m 0 a d 0 0)
  | .vrcp m a d => some (.v, encV 0x0A 2 m 0 a d 0 0)
  | .vrsq m a d => some (.v, encV 0x0B 2 m 0 a d 0 0)
  | .vexp2 m a d => some (.v, encV 0x0C 2 m 0 a d 0 0)
  | .vlog2 m a d => some (.v, encV 0x0D 2 m 0 a d 0 0)
  | .vand t m s a d => some (.v, encV3 0x10 t m s a d 0)
  | .vor t m s a d => some (.v, encV3 0x11 t m s a d 0)
  | .vxor t m s a d => some (.v, encV3 0x12 t m s a d 0)
  | .vnot t m a d => some (.v, encV 0x13 t.code m 0 a d 0 0)
  | .vshl t m s a d => some (.v, encV3 0x14 t m s a d 0)
  | .vshr t m s a d => some (.v, encV3 0x15 t m s a d 0)
  | .vsra t m s a d => some (.v, encV3 0x16 t m s a d 0)
  | .vcmp r t m s a md => some (.v, encV3 0x18 t m s a (idx3 md) r.code)
  | .vsel t m b a d => some (.v, encV 0x19 t.code m b a d 0 0)
  | .vcvt t ts m a d => some (.v, encV 0x1A t.code m (idx4 ts.code) a d 3 0)
  | .vmov t m a d => some (.v, encV 0x1C t.code m 0 a d 0 0)
  | .vbcast t m xs d => some (.v, encV 0x1D t.code m xs 0 d 1 0)
  | .viota t m d => some (.v, encV 0x1E t.code m 0 0 d 0 0)
  | .vshuf t m b a d => some (.v, encV 0x1F t.code m b a d 0 0)
  | .vslide dn t m s a d => some (.v, encV3 0x20 t m s a d (0#1 ++ bit1 dn))
  | .vcmpr t m a d => some (.v, encV 0x21 t.code m 0 a d 0 0)
  | .vpart t m d => some (.v, encV 0x22 t.code m 0 0 d 0 0)
  | .vred o t m a d => some (.v, encV 0x24 t.code m 0 a d 0 o.code)
  | .vscan o t m a d => some (.v, encV 0x25 t.code m 0 a d 0 o.code)
  | .mset t xn md => some (.v, encV 0x28 t.code 0 xn 0 (idx3 md) 1 0)
  | .mand b a d => some (.v, encV 0x29 0 0 (idx3 b) (idx3 a) (idx3 d) 0 0)
  | .mor b a d => some (.v, encV 0x2A 0 0 (idx3 b) (idx3 a) (idx3 d) 0 0)
  | .mxor b a d => some (.v, encV 0x2B 0 0 (idx3 b) (idx3 a) (idx3 d) 0 0)
  | .mnot a d => some (.v, encV 0x2C 0 0 0 (idx3 a) (idx3 d) 0 0)
  | .vld t m xs d => some (.v, encV 0x30 t.code m xs 0 d 1 0)
  | .vst t m xs d => some (.v, encV 0x31 t.code m xs 0 d 1 0)
  | .vldg t m xs a d => some (.v, encV 0x32 t.code m xs a d 1 0)
  | .vsts t m xs a d => some (.v, encV 0x33 t.code m xs a d 1 0)
  | .vldr t m xoff h d => some (.v, encV 0x34 t.code m xoff (idx4 h) d 1 0)
  | .vstr t m xoff h d => some (.v, encV 0x35 t.code m xoff (idx4 h) d 1 0)
  | .vadv xn h => some (.v, encV 0x36 0 0 xn (idx4 h) 0 1 0)
  | .vpub xn h => some (.v, encV 0x37 0 0 xn (idx4 h) 0 1 0)
  | .vlda l xrow acc d => some (.v, encV 0x38 2 0 xrow (idx3 acc) d 1 (0#1 ++ bit1 l))
  | .rset h xa => some (.e, encE 0 0 xa 0 0 (0#3 ++ h))
  | .sfill h xa xb => some (.e, encE 0 1 xa xb 0 (0#3 ++ h))
  | .sdrain h xa xb => some (.e, encE 0 2 xa xb 0 (0#3 ++ h))
  | .scopy xa xb xc => some (.e, encE 0 3 xa xb xc 0)
  | .shint k xa xb => some (.e, encE 0 4 xa xb 0 (0#5 ++ k.code))
  | .mcfg f xa => some (.e, encE 1 0 xa 0 0 f)
  | .mgo => some (.e, encE 1 1 0 0 0 0)
  | .mrnd r => some (.e, encE 1 2 0 0 0 (0#4 ++ r.code))
  | .mzero acc => some (.e, encE 1 3 0 0 0 (0#4 ++ acc))
  | .mdrain acc m xa xb => some (.e, encE 1 4 xa xb 0 (0#2 ++ m.code ++ acc))
  | .mchk xa => some (.e, encE 1 5 xa 0 0 0)
  | .clset c xa => some (.e, encE 2 0 xa 0 0 (0#4 ++ c))
  | .clclr c xa => some (.e, encE 2 1 xa 0 0 (0#4 ++ c))
  | .clins c xa xb xc => some (.e, encE 2 2 xa xb xc (0#4 ++ c))
  | .cldel c xa xb xc => some (.e, encE 2 3 xa xb xc (0#4 ++ c))
  | .clsub c xa xb => some (.e, encE 2 4 xa xb 0 (0#4 ++ c))
  | .clxch c xa xb => some (.e, encE 2 5 xa xb 0 (0#4 ++ c))
  | .clpeel c t xa xb xc => some (.e, encE 2 6 xa xb xc (bit1 t ++ 0#3 ++ c))
  | .clstat xa c => some (.e, encE 2 7 xa 0 0 (0#4 ++ c))
  | .grec g => some (.e, encE 3 0 0 0 0 (0#4 ++ g))
  | .gend => some (.e, encE 3 1 0 0 0 0)
  | .gplay xa g xb => some (.e, encE 3 2 xa xb 0 (0#4 ++ g))
  | .gsave g xa => some (.e, encE 3 3 xa 0 0 (0#4 ++ g))
  | .gload g xa => some (.e, encE 3 4 xa 0 0 (0#4 ++ g))
  | .gdrop g => some (.e, encE 3 5 0 0 0 (0#4 ++ g))
  | .gstat xa g => some (.e, encE 3 6 xa 0 0 (0#4 ++ g))
  | .jpost xa xb => some (.e, encE 4 0 xa xb 0 0)
  | .jdone => some (.e, encE 4 1 0 0 0 0)
  | .jstat xa xb => some (.e, encE 4 2 xa xb 0 0)
  | .jyield => some (.e, encE 4 3 0 0 0 0)
  | .jprio xa xb => some (.e, encE 4 4 xa xb 0 0)
  | .amo op ty o sc xd xp xv =>
    some (.y, 0#4 ++ op.code ++ ty.code ++ o.code ++ sc.code ++ xd ++ xp ++ xv ++ 0#1)
  | .cas d o sc xd xp xe xn => some (.y, 1#4 ++ 0#1 ++ bit1 d ++ o.code ++ sc.code ++ xd ++ xp ++ xe ++ xn)
  | .fence sc xd => some (.y, 2#4 ++ 0#2 ++ sc.code ++ xd ++ 0#18)
  | .xfence => some (.y, 0x24000000)
  | .rosync => some (.y, 0x28000000)
  | .twait tl xn => some (.y, 3#4 ++ 0#1 ++ tl.code ++ xn ++ 0#19)
  | .tliss xd tl => some (.y, 3#4 ++ 1#1 ++ tl.code ++ xd ++ 0#19)
  | .barArv sc b x => some (.y, encBar 0 sc b x)
  | .barWt sc b x => some (.y, encBar 1 sc b x)
  | .barAw sc b x => some (.y, encBar 2 sc b x)
  | .barStat sc b x => some (.y, encBar 3 sc b x)
  | .waita xd xp xe xt => some (.y, 5#4 ++ 0#2 ++ xd ++ xp ++ xe ++ xt ++ 0#6)
  | .rwaitf h xi => some (.y, 5#4 ++ 1#2 ++ h ++ xi ++ 0#17)
  | .rwaite h xi => some (.y, 5#4 ++ 2#2 ++ h ++ xi ++ 0#17)
  | .stf xp xv xf => some (.y, 6#4 ++ 0#0 ++ xp ++ xv ++ xf ++ 0#13)
  | .pocc xa => some (.y, 7#4 ++ 0#3 ++ xa ++ 0#20)
  | .poccW xa => some (.y, 7#4 ++ 1#3 ++ xa ++ 0#20)
  | .pref xa xb xc => some (.y, 7#4 ++ 2#3 ++ xa ++ xb ++ xc ++ 0#10)
  | .pret xa => some (.y, 7#4 ++ 3#3 ++ xa ++ 0#20)
  | .ptstat xd xa => some (.y, 7#4 ++ 4#3 ++ xd ++ xa ++ 0#15)
  | .tret => some (.y, 0x80000000)
  | .purge xa => some (.y, 8#4 ++ 1#1 ++ xa ++ 0#22)
  | _ => none

/-! ### Words as the opcode table numbers them -/

/-- The instruction that an unlabelled word stands for. A lane word does not name its unit (R28): this takes the
first unit, in the order K, E, V, Y, under which it decodes (log entry 1). -/
def decodeAnyUnit (w : W32) : Option (LaneUnit × Instr) :=
  match decode .k w with
  | .ok i => some (.k, i)
  | .error _ =>
    match decode .e w with
    | .ok i => some (.e, i)
    | .error _ =>
      match decode .v w with
      | .ok i => some (.v, i)
      | .error _ =>
        match decode .y w with
        | .ok i => some (.y, i)
        | .error _ => none

/-- The instruction read from a word of the opcode table: one lane word of 32 bits, bits above nbits 0. -/
def decodeTableWord (_nbits w : Nat) : Option Instr :=
  (decodeAnyUnit (BitVec.ofNat 32 w)).map (·.2)

end Sys2Proof
end

