-- ==== Sys2Proof/Machine/Numbers.lean ====
section
/-! DEFINITION. Sys2Proof/Machine/Numbers.lean: the element formats as exact values, rounding with its flags, the
conversions and the elementary functions (R49 to R69, R168). -/

namespace Sys2Proof.Machine

/-- An exact value of a floating format: (-1)^neg * m * 2^e, an infinity, or a NaN (quiet or signalling). -/
inductive Fl where
  | nan (neg sig : Bool)
  | inf (neg : Bool)
  | fin (neg : Bool) (m : Nat) (e : Int)
  deriving DecidableEq, Repr

/-- A binary floating format (R51): fraction bits, exponent bits, bias, and whether it has infinities. -/
structure Fmt where
  mb : Nat
  eb : Nat
  bias : Int
  hasInf : Bool

def fmtF32 : Fmt := ⟨23, 8, 127, true⟩
def fmtBf16 : Fmt := ⟨7, 8, 127, true⟩
def fmtE5m2 : Fmt := ⟨2, 5, 15, true⟩
def fmtE4m3 : Fmt := ⟨3, 4, 7, false⟩

/-- The sticky flags, in the bits of fstat (R64): invalid 0, divz 1, overflow 2, underflow 3, inexact 4. -/
abbrev FFlags := BitVec 5
def flInvalid : FFlags := 1
def flDivz : FFlags := 2
def flOverflow : FFlags := 4
def flUnderflow : FFlags := 8
def flInexact : FFlags := 16

/-- The encoding of the largest finite magnitude (R51). -/
def Fmt.maxBits (f : Fmt) : Nat :=
  if f.hasInf then (2 ^ f.eb - 1) * 2 ^ f.mb - 1 else 2 ^ (f.eb + f.mb) - 2

/-- The encoding of infinity. -/
def Fmt.infBits (f : Fmt) : Nat := (2 ^ f.eb - 1) * 2 ^ f.mb

/-- The canonical quiet NaN with the sign given (R52). -/
def Fmt.nanBits (f : Fmt) (neg : Bool) : Nat :=
  (if neg then 2 ^ (f.eb + f.mb) else 0) +
    (if f.hasInf then f.infBits + 2 ^ (f.mb - 1) else 2 ^ (f.eb + f.mb) - 1)

/-- The sign bit in place. -/
def Fmt.sign (f : Fmt) (neg : Bool) : Nat := if neg then 2 ^ (f.eb + f.mb) else 0

/-- The exponent of the smallest subnormal. -/
def Fmt.qmin (f : Fmt) : Int := 1 - f.bias - f.mb

/-- The value of an encoding (R51, R52). -/
def Fmt.unpack (f : Fmt) (b : Nat) : Fl :=
  let neg := (b / 2 ^ (f.eb + f.mb)) % 2 == 1
  let e := (b / 2 ^ f.mb) % 2 ^ f.eb
  let m := b % 2 ^ f.mb
  if f.hasInf && e == 2 ^ f.eb - 1 then
    if m == 0 then .inf neg else .nan neg (m < 2 ^ (f.mb - 1))
  else if !f.hasInf && e == 2 ^ f.eb - 1 && m == 2 ^ f.mb - 1 then .nan neg false
  else if e == 0 then .fin neg m f.qmin
  else .fin neg (2 ^ f.mb + m) ((e : Int) - f.bias - f.mb)

/-! ### l6 (R54 to R58) -/

/-- T[j] as a 24-bit significand: T[j] = t * 2^-23 (R54, R56). -/
def l6T (j : Nat) : Nat :=
  match j % 4 with
  | 0 => 0x800000 | 1 => 0x9837F0 | 2 => 0xB504F3 | _ => 0xD744FD

/-- The value of an l6 index with a sign: 0 for index 0 (R54). -/
def l6Index (neg : Bool) (q : Nat) : Fl :=
  if q == 0 then .fin neg 0 0 else .fin neg (l6T (q % 4)) ((q / 4 : Nat) - 4 - 23)

/-- The value of an l6 code; bits [7:6] are ignored (R55). -/
def l6Unpack (b : Nat) : Fl := l6Index ((b / 32) % 2 == 1) (b % 32)

/-- The exact product of two l6 codes in the matrix engine (R56). -/
def l6Prod (a b : Nat) : Fl :=
  let neg := ((a / 32) % 2 == 1) != ((b / 32) % 2 == 1)
  let qa := a % 32; let qb := b % 32
  if qa == 0 || qb == 0 then .fin neg 0 0
  else
    let f := qa % 4 + qb % 4
    .fin neg (l6T (f % 4)) (((qa / 4 + qb / 4 + f / 4 : Nat) : Int) - 8 - 23)

/-- vmul.l6 (R57). -/
def l6Mul (a b : Nat) : Nat × FFlags :=
  let s := (((a / 32) + (b / 32)) % 2) * 32
  let qa := a % 32; let qb := b % 32
  if qa == 0 || qb == 0 then (s, 0)
  else
    let q : Int := (qa : Int) + qb - 16
    if q > 31 then (s + 31, flOverflow ||| flInexact)
    else if q < 1 then (s, flUnderflow ||| flInexact)
    else (s + q.toNat, 0)

/-- Number of bits of a natural number. -/
def bitLen (m : Nat) : Nat := if m == 0 then 0 else m.log2 + 1

/-- m * 2^e = m' * 2^e' for exact dyadic values. -/
def sameValue (m : Nat) (e : Int) (m' : Nat) (e' : Int) : Bool :=
  if e ≤ e' then m == m' * 2 ^ (e' - e).toNat else m * 2 ^ (e - e').toNat == m'

/-- Conversion to l6 (R58). -/
def toL6 : Fl → Nat × FFlags
  | .nan _ _ => (0, flInvalid)
  | .inf neg => ((if neg then 32 else 0) + 31, flOverflow ||| flInexact)
  | .fin neg m e =>
    let s := if neg then 32 else 0
    if m == 0 then (s, 0)
    else
      let len := bitLen m
      let below (t : Nat) : Bool := m * 2 ^ 23 < t * 2 ^ (len - 1)
      let ex : Int := e + len - 1
      let (f, ex) : Nat × Int :=
        if below 0x8B95C2 then (0, ex) else if below 0xA1DED4 then (1, ex)
        else if below 0xBC1142 then (2, ex) else if below 0xDAE5C8 then (3, ex) else (0, ex + 1)
      let i := ex + 4
      if i > 7 then (s + 31, flOverflow ||| flInexact)
      else if i < 0 || (i == 0 && f == 0) then (s, flUnderflow ||| flInexact)
      else
        let q := 4 * i.toNat + f
        let exact := sameValue m e (l6T f) (((q / 4 : Nat) : Int) - 4 - 23)
        (s + q, if exact then 0 else flInexact)

/-! ### Rounding (R60, R61, R64) -/

/-- Rounds m * 2^e (m not 0) at the quantum 2^q: the multiple of 2^q chosen by the mode, and whether it is inexact.
In mode SR the draw is compared with the fraction (R61). -/
def roundAt (rm : RMode) (draw : Nat) (neg : Bool) (m : Nat) (e q : Int) : Nat × Bool :=
  if q ≤ e then (m * 2 ^ (e - q).toNat, false)
  else
    let sh := (q - e).toNat
    let lo := m / 2 ^ sh
    let rem := m % 2 ^ sh
    let up : Bool :=
      match rm with
      | .rne => decide (2 ^ sh < 2 * rem) || (2 * rem == 2 ^ sh && lo % 2 == 1)
      | .rtz => false
      | .rup => !neg && rem != 0
      | .rdn => neg && rem != 0
      | .sr => decide (draw < rem * 2 ^ 32 / 2 ^ sh)
    (if up then lo + 1 else lo, rem != 0)

/-- Rounds an exact value to a floating format with its flags (R52, R60, R64): RoundTo of the spec. A NaN gives the
positive canonical NaN. -/
def Fmt.round (f : Fmt) (rm : RMode) (draw : Nat) : Fl → Nat × FFlags
  | .nan _ _ => (f.nanBits false, 0)
  | .inf neg =>
    if f.hasInf then (f.sign neg + f.infBits, 0) else (f.sign neg + f.maxBits, flOverflow ||| flInexact)
  | .fin neg m e =>
    if m == 0 then (f.sign neg, 0)
    else
      let qu : Int := e + bitLen m - (f.mb + 1 : Nat)
      let q := max qu f.qmin
      let (r, inx) := roundAt rm draw neg m e q
      let (ru, _) := roundAt rm draw neg m e qu
      let b := (q - f.qmin).toNat * 2 ^ f.mb + r
      if b > f.maxBits then
        let toInf : Bool := f.hasInf &&
          (match rm with
            | .rne | .sr => true
            | .rtz => false
            | .rup => !neg
            | .rdn => neg)
        (f.sign neg + (if toInf then f.infBits else f.maxBits), flOverflow ||| flInexact)
      else
        let tiny : Bool := decide (qu < f.qmin) && decide (ru < 2 ^ (f.qmin + f.mb - qu).toNat)
        (f.sign neg + b, if inx then (if tiny then flInexact ||| flUnderflow else flInexact) else 0)

/-- Rounds an exact value to a two's complement integer of w bits (R63): NaN gives 0, out of range saturates, both
with invalid and nothing else. -/
def roundInt (w : Nat) (rm : RMode) (draw : Nat) : Fl → Nat × FFlags
  | .nan _ _ => (0, flInvalid)
  | .inf neg => (if neg then 2 ^ (w - 1) else 2 ^ (w - 1) - 1, flInvalid)
  | .fin neg m e =>
    if m == 0 then (0, 0)
    else
      let (r, inx) := roundAt rm draw neg m e 0
      if neg then
        if r > 2 ^ (w - 1) then (2 ^ (w - 1), flInvalid)
        else ((2 ^ w - r) % 2 ^ w, if inx then flInexact else 0)
      else if r > 2 ^ (w - 1) - 1 then (2 ^ (w - 1) - 1, flInvalid)
      else (r, if inx then flInexact else 0)

/-- Register width of an element (R49). -/
def elemWidth : ElemTy → Nat
  | .i8 | .e4m3 | .e5m2 | .l6 => 8
  | .bf16 => 16
  | .i32 | .f32 => 32

/-- The floating format of a type; f32 for the others. -/
def elemFmt : ElemTy → Fmt
  | .bf16 => fmtBf16 | .e4m3 => fmtE4m3 | .e5m2 => fmtE5m2 | _ => fmtF32

/-- Two's complement of w bits as an integer. -/
def toSigned (w n : Nat) : Int := if n < 2 ^ (w - 1) then n else (n : Int) - 2 ^ w

/-- The exact value of an integer. -/
def Fl.ofInt (i : Int) : Fl := .fin (i < 0) i.natAbs 0

/-- The value of an element's bits (R49 to R55). -/
def elemValue (t : ElemTy) (b : Nat) : Fl :=
  match t with
  | .i8 => .ofInt (toSigned 8 b)
  | .i32 => .ofInt (toSigned 32 b)
  | .l6 => l6Unpack b
  | _ => (elemFmt t).unpack b

/-- RoundTo for any type (R58, R60, R63): a NaN gives the positive canonical NaN of a floating type. -/
def roundTo (t : ElemTy) (rm : RMode) (draw : Nat) (x : Fl) : Nat × FFlags :=
  match t with
  | .i8 => roundInt 8 rm draw x
  | .i32 => roundInt 32 rm draw x
  | .l6 => toL6 x
  | _ => (elemFmt t).round rm draw x

/-- A NaN that is signalling. -/
def Fl.isSig : Fl → Bool
  | .nan _ s => s
  | _ => false
/-- A NaN. -/
def Fl.isNan : Fl → Bool
  | .nan _ _ => true
  | _ => false

/-- Conversion of an element from type ts to type t (R63): a move when they are equal; a NaN keeps its sign; a
signalling NaN sets invalid. -/
def convert (t ts : ElemTy) (rm : RMode) (draw : Nat) (b : Nat) : Nat × FFlags :=
  if t == ts then (b, 0)
  else
    match elemValue ts b with
    | .nan neg sig =>
      match t with
      | .i8 | .i32 | .l6 => (0, flInvalid)
      | _ => ((elemFmt t).nanBits neg, if sig then flInvalid else 0)
    | x => roundTo t rm draw x

/-! ### Exact arithmetic -/

/-- The sign of a zero that is an exact sum of opposite terms: -0 only in RDN. -/
def zeroSign (rm : RMode) : Bool := rm == .rdn

/-- Exact sum, with the invalid flag of infinities of opposite signs and of signalling NaNs. -/
def Fl.add (rm : RMode) (a b : Fl) : Fl × FFlags :=
  let sig := if a.isSig || b.isSig then flInvalid else 0
  match a, b with
  | .nan _ _, _ => (.nan false false, sig)
  | _, .nan _ _ => (.nan false false, sig)
  | .inf x, .inf y => if x == y then (.inf x, 0) else (.nan false false, flInvalid)
  | .inf x, _ => (.inf x, 0)
  | _, .inf y => (.inf y, 0)
  | .fin x m e, .fin y n f =>
    if m == 0 && n == 0 then (.fin (if x == y then x else zeroSign rm) 0 0, 0)
    else
      let q := min e f
      let i : Int := (if x then -1 else 1) * (m * 2 ^ (e - q).toNat : Nat)
        + (if y then -1 else 1) * (n * 2 ^ (f - q).toNat : Nat)
      if i == 0 then (.fin (zeroSign rm) 0 0, 0) else (.fin (i < 0) i.natAbs q, 0)

/-- The value with its sign inverted. -/
def Fl.neg : Fl → Fl
  | .nan n s => .nan n s
  | .inf n => .inf !n
  | .fin n m e => .fin (!n) m e

/-- Exact product; 0 times infinity is a NaN with invalid. -/
def Fl.mul (a b : Fl) : Fl × FFlags :=
  let sig := if a.isSig || b.isSig then flInvalid else 0
  match a, b with
  | .nan _ _, _ => (.nan false false, sig)
  | _, .nan _ _ => (.nan false false, sig)
  | .inf x, .inf y => (.inf (x != y), 0)
  | .inf x, .fin y n _ => if n == 0 then (.nan false false, flInvalid) else (.inf (x != y), 0)
  | .fin x m _, .inf y => if m == 0 then (.nan false false, flInvalid) else (.inf (x != y), 0)
  | .fin x m e, .fin y n f => (.fin (x != y) (m * n) (e + f), 0)

/-- a * b + c, exact (R167): 0 times infinity is invalid whatever c is. -/
def Fl.fma (rm : RMode) (a b c : Fl) : Fl × FFlags :=
  let (p, fp) := Fl.mul a b
  let (s, fs) := Fl.add rm p c
  (s, fp ||| fs)

/-- a < b for values that are not NaN; -0 equals +0. -/
def Fl.lt (a b : Fl) : Bool :=
  match a, b with
  | .nan _ _, _ | _, .nan _ _ => false
  | .inf x, .inf y => x && !y
  | .inf x, _ => x
  | _, .inf y => !y
  | .fin x m e, .fin y n f =>
    let q := min e f
    let i : Int := (if x then -1 else 1) * (m * 2 ^ (e - q).toNat : Nat)
    let j : Int := (if y then -1 else 1) * (n * 2 ^ (f - q).toNat : Nat)
    decide (i < j)

/-- a = b for values that are not NaN. -/
def Fl.eqv (a b : Fl) : Bool := !a.isNan && !b.isNan && !Fl.lt a b && !Fl.lt b a

/-- The sign of a value. -/
def Fl.isNeg : Fl → Bool
  | .nan n _ | .inf n | .fin n _ _ => n

/-- The value of vmin (max false) or vmax of two elements, as one of the two or the canonical NaN (R52). -/
def Fl.minMax (max : Bool) (a b : Fl) : Fl × FFlags :=
  let sig := if a.isSig || b.isSig then flInvalid else 0
  if a.isNan && b.isNan then (.nan false false, sig)
  else if a.isNan then (b, sig)
  else if b.isNan then (a, sig)
  else
    let aLess := Fl.lt a b || (Fl.eqv a b && a.isNeg && !b.isNeg)
    (if aLess == max then b else a, sig)

/-- The exact sum of a list of products (R68), with the invalid flag of a NaN or of infinities of both signs. -/
def exactSum (rm : RMode) (l : List Fl) : Fl × FFlags :=
  let pinf := l.any (· == .inf false)
  let ninf := l.any (· == .inf true)
  if l.any (·.isNan) || (pinf && ninf) then (.nan false false, flInvalid)
  else if pinf then (.inf false, 0)
  else if ninf then (.inf true, 0)
  else
    let allNeg := l.all fun x => match x with | .fin true 0 _ => true | _ => false
    let allPos := l.all fun x => match x with | .fin false 0 _ => true | _ => false
    if allNeg && !l.isEmpty then (.fin true 0 0, 0)
    else if allPos then (.fin false 0 0, 0)
    else
      let q := l.foldl (fun q x => match x with | .fin _ _ e => min q e | _ => q) 0
      let i := l.foldl (fun (i : Int) x => match x with
        | .fin n m e => i + (if n then -1 else 1) * (m * 2 ^ (e - q).toNat : Nat)
        | _ => i) 0
      if i == 0 then (.fin (zeroSign rm) 0 0, 0) else (.fin (i < 0) i.natAbs q, 0)

/-! ### The functions of R168, correctly rounded -/

/-- Integer square root by bits: the largest r below 2^n with r * r at most x. -/
def isqrtBits (x : Nat) : Nat → Nat → Nat
  | 0, r => r
  | n + 1, r => isqrtBits x n (if (r + 2 ^ n) * (r + 2 ^ n) ≤ x then r + 2 ^ n else r)
/-- Integer square root. -/
def isqrt (x : Nat) : Nat := isqrtBits x ((bitLen x + 1) / 2 + 1) 0

/-- A truncated significand with a last bit that says whether more follows: it rounds as the exact value does. -/
def sticky (neg : Bool) (m : Nat) (more : Bool) (e : Int) : Fl :=
  .fin neg (2 * m + (if more then 1 else 0)) (e - 1)

/-- a / b (R168). -/
def Fl.div (a b : Fl) : Fl × FFlags :=
  let sig := if a.isSig || b.isSig then flInvalid else 0
  match a, b with
  | .nan _ _, _ => (.nan false false, sig)
  | _, .nan _ _ => (.nan false false, sig)
  | .inf _, .inf _ => (.nan false false, flInvalid)
  | .inf x, .fin y _ _ => (.inf (x != y), 0)
  | .fin x _ _, .inf y => (.fin (x != y) 0 0, 0)
  | .fin x m e, .fin y n f =>
    if n == 0 then (if m == 0 then (.nan false false, flInvalid) else (.inf (x != y), flDivz))
    else
      let q := m * 2 ^ 64 / n
      (sticky (x != y) q (m * 2 ^ 64 % n != 0) (e - f - 64), 0)

/-- The square root (R168). -/
def Fl.sqrt : Fl → Fl × FFlags
  | .nan _ s => (.nan false false, if s then flInvalid else 0)
  | .inf neg => if neg then (.nan false false, flInvalid) else (.inf false, 0)
  | .fin neg m e =>
    if m == 0 then (.fin neg 0 0, 0)
    else if neg then (.nan false false, flInvalid)
    else
      let (m, e) := if e % 2 == 0 then (m, e) else (2 * m, e - 1)
      let x := m * 2 ^ 80
      let r := isqrt x
      (sticky false r (r * r != x) (e / 2 - 40), 0)

/-- 1 / sqrt a (R168). -/
def Fl.rsqrt : Fl → Fl × FFlags
  | .nan _ s => (.nan false false, if s then flInvalid else 0)
  | .inf neg => if neg then (.nan false false, flInvalid) else (.fin false 0 0, 0)
  | .fin neg m e =>
    if m == 0 then (.inf neg, flDivz)
    else if neg then (.nan false false, flInvalid)
    else
      let (m, e) := if e % 2 == 0 then (m, e) else (2 * m, e - 1)
      let r := isqrt (2 ^ 160 / m)
      (sticky false r (r * r * m != 2 ^ 160) (-(e / 2) - 80), 0)

/-- Working precision of vexp2 and vlog2, in bits after the point. -/
def funPrec : Nat := 480

/-- The product of 2^(2^-i) over the bits i of a fraction f / 2^n, in fixed point: root is 2^(2^-(n - k)). -/
def exp2Loop (f n : Nat) : Nat → Nat → Nat → Nat
  | 0, _, acc => acc
  | k + 1, root, acc =>
    let root' := isqrt (root * 2 ^ funPrec)
    let acc' := if (f / 2 ^ k) % 2 == 1 then acc * root' / 2 ^ funPrec else acc
    exp2Loop f n k root' acc'

/-- 2^a (R168): exact for an integer a, and otherwise a truncation with a sticky bit (log entry 21). -/
def Fl.exp2 : Fl → Fl × FFlags
  | .nan _ s => (.nan false false, if s then flInvalid else 0)
  | .inf neg => if neg then (.fin false 0 0, 0) else (.inf false, 0)
  | .fin neg m e =>
    if m == 0 then (.fin false 1 0, 0)
    else if e + bitLen m > 11 then (.fin false 1 (if neg then -2048 else 2048), 0)
    else
      let n := (-e).toNat
      let i : Int := (if neg then -1 else 1) * (m * 2 ^ e.toNat : Nat)
      let k := i / (2 ^ n : Nat)
      let f := (i % (2 ^ n : Nat)).toNat
      if f == 0 then (.fin false 1 k, 0)
      else (sticky false (exp2Loop f n n (2 * 2 ^ funPrec) (2 ^ funPrec)) true (k - funPrec), 0)

/-- The bits of log2 of x / 2^funPrec, in [1, 2), by repeated squaring. -/
def log2Loop : Nat → Nat → Nat → Nat
  | 0, _, acc => acc
  | k + 1, x, acc =>
    let y := x * x / 2 ^ funPrec
    if y < 2 * 2 ^ funPrec then log2Loop k y (2 * acc) else log2Loop k (y / 2) (2 * acc + 1)

/-- Bits after the point that vlog2 forms. -/
def logBits : Nat := 200

/-- log2 a (R168): exact for a power of two, and otherwise a truncation with a sticky bit (log entry 21). -/
def Fl.log2 : Fl → Fl × FFlags
  | .nan _ s => (.nan false false, if s then flInvalid else 0)
  | .inf neg => if neg then (.nan false false, flInvalid) else (.inf false, 0)
  | .fin neg m e =>
    if m == 0 then (.inf true, flDivz)
    else if neg then (.nan false false, flInvalid)
    else
      let len := bitLen m
      let k : Int := e + len - 1
      if m == 2 ^ (len - 1) then (.ofInt k, 0)
      else
        let frac := log2Loop logBits (m * 2 ^ funPrec / 2 ^ (len - 1)) 0
        let v : Int := k * (2 ^ logBits : Nat) + frac
        if v < 0 then (sticky true (v.natAbs - 1) true (-logBits), 0)
        else (sticky false v.toNat true (-logBits), 0)

/-! ### Draws (R62, R197) -/

/-- One step of the xorshift32 generator (R62). -/
def xorShift (x : W32) : W32 :=
  let a := x ^^^ (x <<< 13)
  let b := a ^^^ (a >>> 17)
  b ^^^ (b <<< 5)

/-! ### Drains (R69) -/

/-- The sum of an add drain: Value(dest, D) + acc, exact, with invalid as R64 sets it. -/
def drainSum (d : ElemTy) (dest acc : Nat) : Fl × FFlags :=
  Fl.add .rne (elemValue d dest) (fmtF32.unpack acc)

/-- A value delivered by a drain to type D, by R63 and R69: a NaN gives the canonical NaN, 0 for an integer or l6 with
invalid. -/
def drainDeliver (d : ElemTy) (x : Fl) : Nat × FFlags :=
  match x with
  | .nan _ _ =>
    match d with
    | .i8 | .i32 | .l6 => (0, flInvalid)
    | _ => ((elemFmt d).nanBits false, 0)
  | x => roundTo d .rne 0 x

/-- The bound of mode addc: the magnitude of the clamp; a NaN means infinity. -/
def clampBound (clamp : W32) : Fl :=
  match fmtF32.unpack clamp.toNat with
  | .nan _ _ => .inf false
  | .inf _ => .inf false
  | .fin _ m e => .fin false m e

/-- A value limited to a bound on both sides. -/
def clampTo (c x : Fl) : Fl :=
  if x.isNan then x else if Fl.lt c x then c else if Fl.lt x c.neg then c.neg else x

/-- An element drained in mode 1 store, 2 add or 3 addc (R69). -/
def drainElem (d : ElemTy) (mode : BitVec 2) (clamp : W32) (dest acc : Nat) : Nat × FFlags :=
  match mode.toNat with
  | 2 =>
    let (s, f) := drainSum d dest acc
    let (b, g) := drainDeliver d s
    (b, f ||| g)
  | 3 =>
    let (s, f) := drainSum d dest acc
    let (b, g) := drainDeliver d (clampTo (clampBound clamp) s)
    (b, f ||| g)
  | _ => convert d .f32 .rne 0 acc

end Sys2Proof.Machine
end

