-- ==== Sys2Proof/Config.lean ====
section
/-! DEFINITION. Sys2Proof/Config.lean: what an implementation fixes and the spec does not give: the free values of
the model. Each is an opaque constant or function: nothing can be proved about the value it has. -/

namespace Sys2Proof.Config

/-- The 32-byte seed of the device identity key pair, made at manufacture (R341): a free value, log entry 20. -/
opaque identitySeed : Vector Byte 32
/-- The context string of the ML-DSA-44 signatures (R339, R341): a free value, log entry 20. -/
opaque dsaContext : List Byte
/-- The randomness of a signature (R341), by a count: a free value, log entry 20. -/
opaque dsaRandom : Nat → Vector Byte 32
/-- The hashes of the later stages that a boot image's body loads, and whether the stage before verifies each (R339 step 4), whose
form the spec does not give: a free value, log entry 20. -/
opaque stages : List Byte → List (BitVec 256 × Bool)
/-- The fused 32-byte hash of the boot key (R339): a free value, log entry 20. -/
opaque fusedKeyHash : BitVec 256
/-- The fused minimum image version (R340): a free value, log entry 20. -/
opaque fusedMinVersion : W32
/-- Where the frame list and the deny bitmap of a Pin Table entry stand in the list pool (R107, R114), as die-local addresses,
by die, entry and generation: free values, log entry 58. -/
opaque framesAt : Nat → BitVec 20 → BitVec 12 → BitVec 51
opaque denyAt : Nat → BitVec 20 → BitVec 12 → BitVec 51
/-- What a row of an accumulator tile holds after the recompute of a step has mismatched again (R200), by a count: a free
value, log entry 22. -/
opaque faultRow : Nat → BitVec 2048
/-- The current that an island draws in a period (R346), by a count: a free value, log entry 23. -/
opaque islandCurrent : Nat → W32
/-- What the data word of a mailbox slot holds after its data is discarded (R344), by a count: a free value, log entry 24. -/
opaque discardedData : Nat → W64

/-- A doubleword of the status space of a die of another package (R245), by the die, the offset and the clk: a free value, log
entry 55. -/
opaque otherStatus : Nat → Nat → Nat → W64

/-- A byte of a save slot from 0x06_2000 to 0x0C_FFFF (R326), by the number of the save and the byte's: a free value, log entry 63. -/
opaque slotByte : Nat → Nat → Byte

end Sys2Proof.Config
end

