-- ==== Sys2Proof/Machine/State.lean ====
section
/-! DEFINITION. Sys2Proof/Machine/State.lean: the state of the SH8 package as plain data, and the state after a package
reset. INVENTORY.md, '## State', gives the rule of the spec behind every field. -/

namespace Sys2Proof.Machine

/-- Why a step can stop the machine. -/
inductive Fault where
  /-- Raised by no step: the spec gives every instruction and event an effect, and its traps are next states (safe). -/
  | neverRaised
  deriving DecidableEq, Repr

/-- Why a step can be refused. -/
inductive Refusal where
  /-- Raised by an arm of exec for an instruction that has no meaning yet (safe). -/
  | notModelled (mnemonic : String)
  deriving DecidableEq, Repr

/-- Memory: the listed (location, byte) pairs in rising order of location, without entries equal to 0. A location
below 2^59 is a pod physical address (R231); location 2^60 + 2^21 * g + o is vault offset o of core g. -/
abbrev Memory := List (Nat × Byte)

/-- A finite map by number: entries in rising order of key. -/
abbrev FMap (α : Type) := List (Nat × α)

/-! ### Tokens, tags and pointers -/

/-- A token register (R104). -/
structure Token where
  pte : BitVec 20 := 0
  gen : BitVec 12 := 0
  rights : BitVec 4 := 0
  ms : Bool := false
  host : Bool := false
  valid : Bool := false
  lenm1 : BitVec 40 := 0
  deriving DecidableEq, Repr

/-- A patch tag (R97). -/
inductive Tag where
  | plain
  | patched (slot : BitVec 4) (delta : BitVec 48)
  | opq
  | vol
  deriving DecidableEq, Repr

/-- The states of a Pin Table entry (R109). -/
inductive PinState where
  | free | live | ebb | occulted
  deriving DecidableEq, Repr

/-- A Pin Table entry (R107). The frame list and the denied granules are held here and the list pool as a count of bytes in
the die; where the lists stand in the pool is Config.framesAt and Config.denyAt (log entry 58). -/
structure Pin where
  state : PinState := .free
  gen : BitVec 12 := 0
  rights : BitVec 4 := 0
  ms : Bool := false
  host : Bool := false
  phys : Bool := false
  tenant : Byte := 0
  prin : W32 := 0
  lenm1 : BitVec 40 := 0
  base : W64 := 0
  frames : List W64 := []
  deny : List Nat := []
  holders : BitVec 128 := 0
  /-- holders whose probe is still to be acknowledged, in EBB (R124) -/
  probes : BitVec 128 := 0
  inflight : Nat := 0
  saved : Nat := 0
  deriving DecidableEq, Repr

/-! ### Contexts -/

/-- The state of a context (R70). -/
inductive CtxSt where
  | idle | run | wait | halt
  deriving DecidableEq, Repr

/-- An engine queue (R37). -/
inductive EngQ where
  | vec | mat | str | coll | gal | job
  deriving DecidableEq, Repr

/-- The path of an access (R132, R133). -/
inductive Path where
  | vault | l1 | l2 | ro | direct
  deriving DecidableEq, Repr

/-- One byte of a load on its way: known (with its poison), byte `off` of the reply to fabric request `req`, or a byte
of an access of independent bytes (R249) that has still to be performed at a location of the core's die, on a path, through
a token. -/
inductive LdByte where
  | val (b : Byte) (psn : Bool)
  | req (req : Nat) (off : Nat)
  | due (loc : Nat) (path : Path) (tok : Option Token)
  deriving DecidableEq, Repr

/-- What a context in WAIT holds at issue (R70). -/
inductive Hold where
  /-- nothing is held -/
  | none
  /-- an access stalled on occultation (R123): the instruction issues again from its start -/
  | stall (pte : BitVec 20)
  /-- no fabric tag is free (R239): issues again -/
  | tag
  /-- a fetch waits for the 32-byte code line at a location from a remote home (R72, R236): fetches again -/
  | line (loc : Nat)
  /-- the store buffer is full (R254), or bytes of a posted operation in flight are named (R252): issues again -/
  | buffer
  /-- an engine queue is full (R37) -/
  | queueFull (q : EngQ) (i : Instr)
  /-- a result hold (R38): kind 0 to 4 of R88, and the number of the entry it waits for -/
  | result (kind : Fin 5) (num : Nat) (xd : XReg)
  /-- rwaitf (full) or rwaite (R156) -/
  | ring (full : Bool) (h : HReg) (i : W64)
  /-- twait (R225) -/
  | twait (tl : Timeline) (n : W64)
  /-- bar.wt or bar.aw (R228): until the phase has completed -/
  | barrier (aw : Bool) (sc : Scope) (b : BitVec 3) (phase : W32)
  /-- vxmv, mpop or an access to srst (R62, R102): until the V entries numbered up to num have executed -/
  | vector (num : Nat) (i : Instr)
  /-- the walk of a trn (R114), with the operands it captured -/
  | walk (kd : KReg) (va len : W64) (rights : BitVec 4) (ms : Bool)
  /-- a trn without a walker slot (R114): issues again -/
  | walker
  /-- a non-posted amo or a cas, until home operation op answers (R217) -/
  | reply (op : Nat)
  /-- a load whose bytes are on their way from a remote home -/
  | load (xd : XReg) (sgn : Bool) (bytes : List LdByte)
  /-- fence (R220): until every store and posted operation numbered up to upTo is done -/
  | fence (sc : Scope) (xd : XReg) (upTo : Nat)
  /-- xfence (R222) or rvfence.i (R78) -/
  | drain (upTo : Nat) (fetch : Bool)
  /-- pocc.w, pref or pret: until the entry leaves EBB (R125) and the stores up to upTo are done -/
  | occWait (i : Instr) (pte : BitVec 20) (upTo : Nat)
  /-- waita asleep (R230), with the clk of its read -/
  | waita (xd : XReg) (line : Nat) (tmo : W64) (armed : Nat)
  /-- purge (R338), with the tag -/
  | purge (tag : W16)
  deriving DecidableEq, Repr

/-- The asynchronous causes pending in a context (R92). Each REVK is pending at most once; the entry that its tval
names when a second one of its kind arises before the first is taken is the later one (DESIGN CHOICE, log entry 48). -/
structure Pend where
  withdraw : Option (BitVec 20) := none
  /-- the engine queues whose later entries from the context are discarded until it takes the withdrawal (R127); a stream queue is
  that of a context -/
  queues : List (EngQ × CtxId) := []
  overrun : Option (BitVec 20) := none
  host : List (BitVec 6) := []
  timer : Bool := false
  deriving DecidableEq, Repr

/-- The failure record of a context (R221): the four bits and the count. -/
structure FailRec where
  count : W16 := 0
  psn : Bool := false
  lost : Bool := false
  refused : Bool := false
  dead : Bool := false
  deriving DecidableEq, Repr

/-- One context of a set (R70, R83). -/
structure Ctx where
  st : CtxSt := .idle
  x : Vector W64 32 := Vector.replicate 32 0
  tag : Vector Tag 32 := Vector.replicate 32 .plain
  xpois : BitVec 32 := 0
  pc : W64 := 0
  /-- the next instruction is the first owned lane after pc (R73); otherwise it is the lane at pc -/
  seek : Bool := false
  sup : Bool := false
  vrnd : BitVec 3 := 0
  fstat : BitVec 5 := 0
  mstat : BitVec 8 := 0
  srst : W32 := 0x13579BDF
  tvec : W64 := 0
  tcause : W64 := 0
  tval : W64 := 0
  tpc : W64 := 0
  tstat : BitVec 3 := 0
  tscratch : W64 := 0
  wdog : W32 := 0x1000000
  occtmo : W32 := 0x100000
  prin : W32 := 0
  clrptr : W64 := 0
  evptr : W64 := 0
  fail : FailRec := {}
  pend : Pend := {}
  hold : Hold := .none
  /-- clk counted by the wait in progress (R87), and the clk up to which it is counted -/
  waited : Nat := 0
  waitMark : Nat := 0
  /-- the wait that a switch-out has interrupted, with its count, which goes on when the context holds for it again (R87) -/
  paused : Option (Hold × Nat) := none
  /-- the first clk at which it may issue again (R11, R77) -/
  slotAt : Nat := 0
  /-- a trap has been taken whose check of tvec still waits for the line (R72, R93) -/
  entering : Bool := false
  /-- arrival numbers and pending bits, per scope (.core to .pod) and barrier (R227, R228): index 8 * (scope - 1) + b -/
  arrive : Vector W32 40 := Vector.replicate 40 0
  barPend : BitVec 40 := 0
  /-- tlc numbers of failed clpeel.t that have raised no CPEEL yet (R94) -/
  peels : List Nat := []
  deriving DecidableEq, Repr

/-! ### Engine entries and what engines have in progress -/

/-- An engine stalled on occultation at an issue point (R123, R128): the context that issued the stalled command, the
entry, and the clk counted against occtmo; of the matrix engine, whether a drain row stalls and not a step (R201). -/
structure EngStall where
  src : StallSrc
  ctx : CtxId
  pte : BitVec 20
  row : Bool := false
  count : Nat := 0
  mark : Nat := 0
  deriving DecidableEq, Repr

/-- A captured entry of an engine queue (R13, R123). -/
structure Entry where
  num : Nat := 0
  ctx : CtxId := 0
  /-- the context that takes its flags, draws and withdrawal: ctx itself, or the issuer of the play that fed it (R300) -/
  who : CtxId := 0
  instr : Instr
  x0 : W64 := 0
  x1 : W64 := 0
  x2 : W64 := 0
  k0 : Option Token := none
  k1 : Option Token := none
  k2 : Option Token := none
  rm : BitVec 3 := 0
  sup : Bool := false
  /-- the tlg number of the play that fed the entry (R300) -/
  play : Option Nat := none
  /-- for the job port: the stores of the core numbered up to this precede the entry (R333, R334) -/
  upTo : Nat := 0
  deriving DecidableEq, Repr

/-- A V entry that has executed and whose result is still to come (R162). -/
structure VDone where
  e : Entry
  fl : BitVec 5 := 0
  mst : BitVec 8 := 0
  fail : FailRec := {}
  deriving DecidableEq, Repr

/-- A byte of an element of a vector load: read, with its mark, or still to be read at a location. -/
inductive VByte where
  | val (b : Byte) (m : Bool)
  | due (loc : Nat)
  deriving DecidableEq, Repr

/-- An element of a vector load under way: its index, the number of its element group (R165), whether it is single-copy atomic
(R177, R249), and its bytes. -/
structure VElem where
  i : Nat
  grp : Nat
  atomic : Bool
  bytes : List VByte
  deriving DecidableEq, Repr

/-- How far the V entry at the head of the queue has come: the element groups issued (R165), what they set, and the
stores a vpub waits for (R142). -/
structure VProgress where
  pos : Nat := 0
  mst : BitVec 8 := 0
  fail : FailRec := {}
  logged : List Nat := []
  upTo : Option Nat := none
  /-- of a load that has begun: its elements, of which bytes may still have to be performed (R249) -/
  elems : Option (List VElem) := none
  /-- of a load: the stores of the core numbered up to this come before it (R255) -/
  seq0 : Nat := 0
  /-- of a store that has begun: the locations that it has still to write (R255) -/
  writes : List Nat := []
  deriving DecidableEq, Repr

/-- A timeline of a context set (R224): the issue count, the count up to which all have completed, and the numbers
completed beyond it. -/
structure TLine where
  issued : Nat := 0
  done : Nat := 0
  ahead : List Nat := []
  deriving DecidableEq, Repr

/-- A ring handle (R136). -/
structure Ring where
  base : BitVec 21 := 0
  slot : BitVec 4 := 0
  count : BitVec 4 := 0
  producer : BitVec 2 := 0
  consumer : BitVec 2 := 0
  head : W32 := 0
  tail : W32 := 0
  deriving DecidableEq, Repr

/-- A pattern descriptor as a stream command has read it (R144). -/
structure Pattern where
  base : Int := 0
  esize : Nat := 0
  c0 : Nat := 0
  c1 : Nat := 0
  c2 : Nat := 0
  c3 : Nat := 0
  s0 : Int := 0
  s1 : Int := 0
  s2 : Int := 0
  s3 : Int := 0
  deriving DecidableEq, Repr

/-- Where a byte of an engine request is read or written, fixed at the request's issue point (R123): a location
(with the path it takes), or nowhere (failed or stray: reads 0, drops the write). -/
inductive ByteRef where
  | nowhere
  | home (loc : Nat)
  | ro (loc : Nat)
  | poisonZero
  deriving DecidableEq, Repr

/-- A granule in flight (R149): its bytes' sources and destinations, and the entries it is counted on. -/
structure Granule where
  id : Nat
  /-- the first byte of the stream (or of the copy) that it moves -/
  start : Nat
  src : List ByteRef
  dst : List ByteRef
  ptes : List (BitVec 20)
  /-- it has performed some of its bytes, and the locations of those it has read -/
  begun : Bool := false
  read : List Nat := []
  deriving DecidableEq, Repr

/-- A stream command that has begun (R149 to R154). -/
structure StreamRun where
  e : Entry
  pat : Pattern := {}
  /-- bytes of the stream (or of the copy), and how many have been issued and are performed -/
  total : Nat := 0
  issued : Nat := 0
  /-- ring position of the command's first slot, and slots already published or freed -/
  pos : W32 := 0
  slots : Nat := 0
  flying : List Granule := []
  /-- a copy over itself by the same means that goes from its last granule to its first (R154) -/
  down : Bool := false
  /-- a request of it was withdrawn: it issues no more (R127) -/
  cut : Bool := false
  mst : BitVec 8 := 0
  /-- denied granules already recorded (R121) -/
  logged : List Nat := []
  fail : FailRec := {}
  deriving DecidableEq, Repr

/-- The state of an accumulator tile (R189). -/
inductive TileSt where
  | empty | busy | full
  deriving DecidableEq, Repr

/-- An accumulator tile: rows of 64 f32, and the rows poisoned by R200. -/
structure Tile where
  st : TileSt := .empty
  rows : Vector (BitVec 2048) 64 := Vector.replicate 64 0
  pois : BitVec 64 := 0
  deriving DecidableEq, Repr

/-- A bank of the matrix-nest configuration (R183, R184), with the captured tokens of fields 0 to 3. -/
structure Bank where
  f : Vector W64 64 := Vector.replicate 64 0
  cap : Vector (Option Token) 4 := Vector.replicate 4 none
  deriving DecidableEq, Repr

/-- What a nest knows of one tile (R190, R191). -/
structure NestTile where
  open_ : Bool := false
  drained : Bool := false
  coff : Int := 0
  deriving DecidableEq, Repr

/-- A nest in progress (R182, R196, R204). -/
structure Nest where
  e : Entry
  bank : Bank
  mode : BitVec 3 := 0
  total : Nat := 0
  s : Nat := 0
  tiles : Vector NestTile 8 := Vector.replicate 8 {}
  flags : BitVec 5 := 0
  mst : BitVec 8 := 0
  logged : List Nat := []
  fail : FailRec := {}
  drains : Nat := 0
  deriving DecidableEq, Repr

/-- A drain in progress (R191, R207): of a nest or of an mdrain. -/
structure DrainJob where
  e : Entry
  nest : Bool
  tile : AccReg
  mode : BitVec 2
  ty : BitVec 4
  ptr : W64
  tok : Option Token
  off : Int
  ld : Int
  clamp : W32
  ring : Option HReg := none
  row : Nat := 0
  /-- bytes of a ring drain not yet published (R192) -/
  part : List (Byte × Bool) := []
  flags : BitVec 5 := 0
  mst : BitVec 8 := 0
  logged : List Nat := []
  fail : FailRec := {}
  deriving DecidableEq, Repr

/-- A class slot (R272, R273). -/
structure ClassSlot where
  set : Bool := false
  id : W16 := 0
  n : Byte := 0
  keyonly : Bool := false
  round : W16 := 0
  peerPkg : BitVec 5 := 0
  peerDie : BitVec 3 := 0
  limit : W32 := 0
  table : List W32 := []
  status : W64 := 0
  deriving DecidableEq, Repr

/-- How far a collation command has come. -/
inductive CollPhase where
  | clear | insert | sub | scan | peel | count | announced | transfer | net | zero
  deriving DecidableEq, Repr

/-- A collation command in progress (R271, R286). -/
structure CollRun where
  e : Entry
  phase : CollPhase
  i : Nat := 0
  j : Nat := 0
  /-- the entry or cell under way: key, payload, check and count -/
  key : W64 := 0
  pay : BitVec 128 := 0
  check : W32 := 0
  side : W32 := 0
  /-- what has been read of it was poisoned (R328) -/
  mark : Bool := false
  out : Nat := 0
  residual : Nat := 0
  q : List Nat := []
  inq : List Nat := []
  /-- of clxch: the clk of its announcement and the partner once paired (core and set number) -/
  since : Nat := 0
  partner : Option (Nat × Nat) := none
  /-- of a paired clxch: what has come from the partner and is still to be written; of a clset: its descriptor -/
  buf : List (Byte × Bool) := []
  mst : BitVec 8 := 0
  logged : List Nat := []
  fail : FailRec := {}
  deriving DecidableEq, Repr

/-- An entry of a galley that a play feeds: its bits, its index, and whether it had an uncorrectable error when the play
began (R291). -/
structure PlayEnt where
  e : BitVec 128
  i : Nat
  bad : Bool := false
  deriving DecidableEq, Repr

/-- A play in progress (R299, R300): its slot, its entries still to feed, the patch words and the play table. -/
structure PlayRun where
  num : Nat
  ctx : CtxId
  slot : BitVec 3 := 0
  rest : List PlayEnt
  patch : Vector W64 16 := Vector.replicate 16 0
  table : Vector Token 16 := Vector.replicate 16 {}
  /-- issue counts when the feed began, and the numbers taken by the commands of the play, per timeline, oldest first -/
  base : Vector Nat 5 := Vector.replicate 5 0
  took : Vector (List Nat) 5 := Vector.replicate 5 []
  card : Bool := false
  deriving DecidableEq, Repr

/-- The checks of the gplay at the head of the galley queue, whose guards and external tokens have passed (R299, R115): the patch
words, the play table and the indices of the translates still to perform. -/
structure PlayCheck where
  patch : Vector W64 16
  table : Vector Token 16
  rest : List Nat
  deriving DecidableEq, Repr

/-- A context set (R12, R326). -/
structure CtxSet where
  /-- a number of its own, by which work in flight finds its set again (the model's own) -/
  sid : Nat := 0
  /-- the acceptance number of the card whose party it holds -/
  card : Option Nat := none
  /-- the party has started (R324) and the contexts it started -/
  started : Bool := false
  entered : Vector Bool 3 := Vector.replicate 3 false
  rank : BitVec 10 := 0
  gsize : BitVec 11 := 0
  reqtag : W16 := 0
  tenant : Byte := 0
  cls : BitVec 2 := 0
  root : W64 := 0
  vaultWin : Nat × Nat := (0, 0)
  ctx : Vector Ctx 3 := Vector.replicate 3 {}
  k : Vector Token 16 := Vector.replicate 16 {}
  codeTok : Token := {}
  v : Vector (BitVec 2048) 32 := Vector.replicate 32 0
  /-- poison marks of v registers, one bit per byte (R328) -/
  vpois : Vector (BitVec 256) 32 := Vector.replicate 32 0
  /-- m1 to m7; entry 0 is not used: m0 reads as all ones (R158) -/
  m : Vector (BitVec 256) 8 := Vector.replicate 8 0
  ring : Vector Ring 16 := Vector.replicate 16 {}
  tile : Vector Tile 8 := Vector.replicate 8 {}
  filling : Bank := {}
  running : Bank := {}
  mmode : BitVec 3 := 0
  chkElem : W32 := 0
  chkStep : W32 := 0
  tl : Vector TLine 5 := Vector.replicate 5 {}
  cls8 : Vector ClassSlot 8 := Vector.replicate 8 {}
  vq : List Entry := []
  /-- V entries executed whose results are still to come (R162) -/
  vdone : List VDone := []
  vprog : VProgress := {}
  mq : List Entry := []
  nests : List Nest := []
  drains : List DrainJob := []
  sq : Vector (List Entry) 3 := Vector.replicate 3 []
  srun : Vector (List StreamRun) 3 := Vector.replicate 3 []
  /-- the queue the stream engine serves next (R149) -/
  sptr : CtxId := 0
  cq : List Entry := []
  crun : Option CollRun := none
  gq : List Entry := []
  /-- the checks in progress of the gplay at its head -/
  gcheck : Option PlayCheck := none
  plays : List PlayRun := []
  /-- plays fed to the end whose commands are not all complete: tlg number and the numbers awaited per timeline -/
  fed : List PlayRun := []
  jq : List Entry := []
  /-- the job port holds a jpost that stalls (R333) -/
  jheld : Bool := false
  /-- the card that the jpost at its head has read, with its mstat bits, while it stalls on a full queue (R333) -/
  jcard : Option (BitVec 8 × List (Byte × Bool)) := none
  /-- the party's card play: it ends when its play completes (R302) -/
  cardPlay : Option Nat := none
  playOver : Bool := false
  /-- what its card's status says of the party (R312): a play fell back, was played, was withdrawn; a galley was recorded; a
  jdone found a failure; the first context that halted, with its clk -/
  playFell : Bool := false
  playRan : Bool := false
  recRan : Bool := false
  withdrawnPlay : Bool := false
  haltedAny : Option (Nat × CtxId) := none
  stFail : Bool := false
  /-- engines of the set stalled on occultation (R128) -/
  engStalls : List EngStall := []
  /-- clk of the start of the slice, and of the switch-out (R327, R320) -/
  sliceAt : Nat := 0
  timerAt : Option Nat := none
  outAt : Nat := 0
  /-- it is being switched out: its contexts have stopped, and its engines go on to their boundaries (R325) -/
  leaving : Bool := false
  deriving DecidableEq, Repr

/-! ### The core -/

/-- What becomes of a request that never arrives or is never answered (R240). -/
inductive Fate where
  | ok | dead | refused | lost (performed : Bool)
  deriving DecidableEq, Repr

/-- An entry of the store buffer (R253): the bytes in one 64-byte line of a store, or of an element group (R165). -/
structure StoreEnt where
  seq : Nat
  sid : Nat
  ctx : CtxId
  bytes : List (Nat × Byte)
  /-- the request tag of its set, which may go before it (R329) -/
  reqtag : W16 := 0
  poison : Bool := false
  /-- the entries it is counted on (R124) -/
  pte : Option (BitVec 20) := none
  born : Nat := 0
  /-- it has left the buffer and is on its way to its home -/
  sent : Bool := false
  /-- for each byte the number of the unit that it is performed with: the byte alone, or a single-copy atomic element (R177,
  R249); none for an entry that is performed whole -/
  units : List Nat := []
  /-- the locations of which the bytes are marked, when not all are (R328) -/
  marks : List Nat := []
  /-- locations of which only some bits are written (R177) -/
  bits : List Nat := []
  /-- the fabric request that carries it -/
  req : Option Nat := none
  /-- the memory-side, host or ordinary path (R133) -/
  ms : Bool := false
  host : Bool := false
  deriving DecidableEq, Repr

/-- A line held in a cache, with a poison bit per 8-byte word. In an L1: the 8-byte words that it holds, and those that
its core owns (R253, R254, R257). -/
structure Copy where
  data : Line
  pois : Byte := 0
  words : Byte := 0xFF
  own : Byte := 0
  deriving DecidableEq, Repr

/-- What an engine of a core does with one set of line requests (R236, R239). -/
inductive XKey where
  | granule (id : Nat) | vec (grp : Nat) | step | row (tile : AccReg) | cell | recv | gal | galBody | job
  deriving DecidableEq, Repr

/-- The request of one remote line for an engine: its fate once it has been answered or has failed (R236, R240). -/
structure XLine where
  line : Nat
  write : Bool
  req : Nat
  fate : Option Fate := none
  /-- of a read: the line as its home answered it -/
  data : Option Copy := none
  /-- it stays pinned at its home from its read until the check of its step (R194) -/
  pin : Bool := false
  /-- the entry that the access names (R123) -/
  pte : Option (BitVec 20) := none
  deriving DecidableEq, Repr

/-- What an engine of a core has issued for what it does next: its line requests, the entries that it is counted on (R123), and the
bytes of its own die, which are independent (R249): the locations still to be read, the bytes read, and the bytes still to be
written. -/
structure Xfer where
  key : XKey
  sid : Nat
  lines : List XLine
  ptes : List (BitVec 20) := []
  todo : List Nat := []
  got : List (Nat × Byte × Bool) := []
  put : List (Nat × Byte × Bool) := []
  deriving DecidableEq, Repr

/-- A galley (R292 to R294): entries 0 to N - 1 as the spec lays them out, and the entries with an uncorrectable
error (R291). -/
structure Galley where
  ent : List (BitVec 128)
  bad : List Nat := []
  deriving DecidableEq, Repr

/-- A galley finished by the issue of the gend numbered num of a set, for slot g (R304). -/
structure Finished where
  sid : Nat
  num : Nat
  g : BitVec 3
  gal : Galley
  deriving DecidableEq, Repr

/-- A recording in progress (R295 to R298). -/
structure Recording where
  g : BitVec 3
  tenant : Byte
  bycard : Bool := false
  card : W16 := 0
  used : W16 := 0
  vals : Vector W64 16 := Vector.replicate 16 0
  rejected : W16 := 0
  smudge : BitVec 3 := 0
  /-- the entries after the VALs, newest first -/
  ent : List (BitVec 128) := []
  base : Vector Nat 5 := Vector.replicate 5 0
  kWritten : W16 := 0
  kCaptured : W16 := 0
  sid : Nat := 0
  deriving DecidableEq, Repr

/-- A switch in progress on a core (R325): the outgoing set is being written to its save slot. -/
structure Switch where
  sid : Nat
  slot : Nat
  since : Nat
  deriving DecidableEq, Repr

/-- A core (R6, R12). -/
structure Core where
  set : Vector CtxSet 2 := #v[{}, { sid := 1 }]
  active : Fin 2 := 0
  /-- sets in the save slots, by slot number (R326) -/
  slots : FMap CtxSet := []
  switch : Option Switch := none
  sb : List StoreEnt := []
  seq : Nat := 0
  /-- entries numbered up to this are to leave the buffer (R254) -/
  drainTo : Nat := 0
  /-- the lines of L1, by line number (R253, R256, R257) -/
  l1 : FMap Copy := []
  /-- line requests of the engines (R236, R239) -/
  xfers : List Xfer := []
  /-- the first clk at which slot A, and slot B, may issue: on one clk slot A comes first, then slot B, then the galley
  sequencer (R13, R300) -/
  aFrom : Nat := 0
  bFrom : Nat := 0
  /-- the fetch buffer, by 32-byte line number (R78) -/
  fetch : FMap (BitVec 256) := []
  galley : Vector (Option Galley) 8 := Vector.replicate 8 none
  gLast : Vector (BitVec 4) 8 := Vector.replicate 8 0
  /-- galleys whose recording has ended and whose gend has not executed (R304), oldest first -/
  gReady : List Finished := []
  rec_ : Option Recording := none
  hintDrops : W32 := 0
  matSteps : W64 := 0
  spurAt : Option Nat := none
  /-- the next granule and switch numbers -/
  gid : Nat := 0
  deriving DecidableEq, Repr

/-! ### The die, the fabric and the package -/

/-- A voltage and frequency island (R345 to R347). -/
structure Island where
  grant : W32 := 0
  nextGrant : W32 := 0
  measured : W32 := 0
  level : BitVec 3 := 0
  periods : W64 := 0
  deriving DecidableEq, Repr

/-- What the last write of word 0 of a mailbox slot was (R344). -/
inductive MailWord0 where
  | target | malformed | reclaim
  deriving DecidableEq, Repr

/-- A mailbox slot (R344). -/
structure Mailbox where
  word0 : MailWord0 := .target
  target : W64 := 0
  data : W64 := 0
  full : Bool := false
  deriving DecidableEq, Repr

/-- A line kept in its L2 home by a hint (R155), with the die and number of the hint's entry, and its card. -/
structure Kept where
  line : Nat
  die : Nat
  pte : BitVec 20
  card : Option Nat
  deriving DecidableEq, Repr

/-- A compute die. -/
structure Die where
  fenced : Bool := false
  pins : FMap Pin := []
  /-- bytes of the list pool in use (R114) -/
  pool : Nat := 0
  ticket : Nat := 0
  /-- transaction tags: incarnations (R239) and the tags in use -/
  inc : FMap (BitVec 4) := []
  tags : List Nat := []
  tagMax : Nat := 0
  returns : W64 := 0
  retries : W64 := 0
  refused : W64 := 0
  lost : W64 := 0
  late : W64 := 0
  dead : W64 := 0
  aged : W64 := 0
  island : Vector Island 4 := Vector.replicate 4 {}
  mailbox : Vector Mailbox 64 := Vector.replicate 64 {}
  /-- shared copies of remote lines in this die's L2 (R241) -/
  l2 : FMap Copy := []
  /-- frames of the staging area in use (R318) -/
  staged : List Nat := []
  /-- collation commands announced on this die, oldest first (R285): core and set number -/
  announced : List (Nat × Nat) := []
  /-- lines of this die's slices that hints keep (R155) -/
  kept : List Kept := []
  deriving DecidableEq, Repr

/-- The state of a line in its home slice with respect to HBM (R242); an unlisted line is invalid there. -/
inductive Moesi where
  | modified | owned | exclusive | shared
  deriving DecidableEq, Repr

/-- The sharers of a line (R242): exact or coarse mode and the vector. -/
structure Sharers where
  coarse : Bool := false
  bits : W16 := 0
  deriving DecidableEq, Repr

/-- The route of a slot (R235): its direction on the sender's package ring and, for another package, the bridge it
leaves by, its direction on the rack ring, the bridge it enters by and its direction on the package ring there. Bridges:
false is die 0, true is die 4; directions: true is ascending. -/
structure Route where
  asc : Bool := true
  bridge : Option Bool := none
  rackAsc : Bool := true
  entry : Bool := false
  entryAsc : Bool := true
  deriving DecidableEq, Repr

/-- What a remote request asks for (R236, R238). -/
inductive ReqWhat where
  /-- read of a line for a load of a context, and where its copy is installed: 0 nowhere, 1 L2 and L1, 2 L2 (and an
  L1 copy is replaced), 3 the quad's read-only path cache, 4 L2 and the core's fetch buffer (R72, R78), 5 the fetch
  buffer alone -/
  | read (install : Nat)
  /-- an aligned load of the status space at an offset of its die (R245) -/
  | status (off : Nat)
  /-- a line that an engine of the core reads, or writes; of a read, where its copy is installed, as for read -/
  | eng (key : XKey) (write : Bool) (install : Option Nat)
  /-- a store buffer entry's bytes -/
  | store (seq : Nat)
  /-- the operation of a HomeOp, or the current half of an stf -/
  | op (op : Nat)
  deriving DecidableEq, Repr

/-- Where a remote request is (R237 to R243). -/
inductive ReqAt where
  /-- a granule's write at its sender, whose data is still to come: it has its tag and has not been sent (R149) -/
  | held
  /-- travelling to its home -/
  | toHome
  /-- refused once, on its second circuit -/
  | circuit
  /-- refused twice, returning to its sender -/
  | returning
  /-- at its sender, waiting out its backoff since the given clk -/
  | backoff (since : Nat)
  /-- accepted; the dies that have still to receive the invalidation, and those whose acknowledgement is under way -/
  | home (toInval : List Nat) (toAck : List Nat)
  /-- performed; the reply is on its way, with the line it carries and its poison -/
  | reply (data : Option Copy)
  /-- discarded at its home for its age: nothing will answer -/
  | gone
  deriving DecidableEq, Repr

/-- A remote request (R236). -/
structure Req where
  core : Nat
  sid : Nat
  ctx : CtxId
  reqtag : W16
  what : ReqWhat
  line : Nat
  home : Nat
  tag : Nat
  inc : BitVec 4
  first : Nat
  returns : Nat := 0
  pos : ReqAt := .toHome
  route : Route := {}
  pte : Option (BitVec 20) := none
  /-- its tag has been taken back: it was counted LOST (R239) -/
  dropped : Bool := false
  ms : Bool := false
  host : Bool := false
  /-- of an engine's write: the bytes still to be written; none of a read and write at the home, which its engine performs
  when it has been granted -/
  bytes : List (Nat × Byte × Bool) := []
  deriving DecidableEq, Repr

/-- How far an operation at a home has come. -/
inductive OpAt where
  | waiting | sent (req : Nat) | ready | done (old : W64) (flags : BitVec 5) (psn : Bool)
  deriving DecidableEq, Repr

/-- An atomic, a cas or an stf on its way to its home (R211, R217 to R219). -/
structure HomeOp where
  core : Nat
  sid : Nat
  ctx : CtxId
  instr : Instr
  seq : Nat
  /-- the request tag of its set, which may go before it (R329) -/
  reqtag : W16 := 0
  posted : Bool
  loc : Nat
  size : Nat
  v : W64
  vexp : W64 := 0
  /-- of stf: the location of the flag once the data is written -/
  flag : Option Nat := none
  flagPte : Option (BitVec 20) := none
  onFlag : Bool := false
  /-- the release condition: stores and posted operations numbered below this (R214) -/
  after : Nat := 0
  ticket : Option (Scope × Nat) := none
  pos : OpAt := .waiting
  pte : Option (BitVec 20) := none
  ms : Bool := false
  host : Bool := false
  flagMs : Bool := false
  flagHost : Bool := false
  poison : Bool := false
  deriving DecidableEq, Repr

/-- A barrier instance (R226, R227), named by card, scope, member and barrier. -/
structure BarInst where
  card : Nat
  sc : Scope
  member : Nat
  b : BitVec 3
  phase : W32 := 0
  cur : Nat := 0
  next : Nat := 0
  overrun : Bool := false
  deriving DecidableEq, Repr

/-- An arrival on its way to its instance (R227). -/
structure Arrival where
  card : Nat
  sc : Scope
  member : Nat
  b : BitVec 3
  q : W32
  core : Nat
  sid : Nat
  ctx : CtxId
  after : Nat
  deriving DecidableEq, Repr

/-- A monitor armed by waita (R230). -/
structure Monitor where
  core : Nat
  sid : Nat
  ctx : CtxId
  line : Nat
  hit : Bool := false
  /-- the line or the monitor has been evicted -/
  lost : Bool := false
  deriving DecidableEq, Repr

/-- The states of a card (R316). -/
inductive CardSt where
  | wait | move | ready | selected | run | retire | final
  deriving DecidableEq, Repr

/-- A card held by a dispatcher (R310, R316). -/
structure Card where
  die : Fin 8
  queue : BitVec 6
  pos : W32
  words : Vector W64 32
  st : CardSt
  preds : W16
  prio : BitVec 3
  readyAt : Nat := 0
  bound : Nat := 0
  ended : Nat := 0
  /-- cores of its parties, by rank, and the numbers of their sets -/
  cores : List Nat := []
  sids : List Nat := []
  /-- tokens made for its tiles (R318), by tile index, with the staging frames taken -/
  tiles : List (Nat × Token) := []
  frames : List Nat := []
  /-- the order in which its dispatcher selected it (R320) -/
  selSeq : Nat := 0
  /-- its completion counter (R317): the location, and whether it lies in a host extent -/
  counter : Option (Nat × Bool) := none
  halted : Option (Nat × BitVec 10 × CtxId) := none
  withdrawn : Bool := false
  played : Bool := false
  recorded : Bool := false
  fallback : Bool := false
  stFail : Bool := false
  noSucc : Bool := false
  /-- how many of the retirement steps of R17 have been performed -/
  steps : Nat := 0
  /-- the successors found for it at the first of them (R319) -/
  succ : List Nat := []
  prin : W32 := 0
  tenant : Byte := 0
  /-- expected counts that its supervisor descriptor gave at job start, for .core to .pod (R226) -/
  given : List Nat := []
  deriving DecidableEq, Repr

/-- Where poison was found (R331). -/
structure PoisonHit where
  core : Nat
  tag : W16
  off : W64
  /-- the die and queue of the card whose work consumed it (R331) -/
  queue : Option (Fin 8 × BitVec 6) := none
  deriving DecidableEq, Repr

/-- What the units of the package and the host do, besides the events that Action.event names. -/
inductive Duty where
  | partyStart (g : Nat) | contextSwitch (g : Nat) | setSave (g : Nat) | timeSlice (g : Nat) | retire (card : Nat)
  | power | report | galleyEntry (g : Nat) | jobPort (g : Nat) | registerRead (off : BitVec 24) (n : Nat)
  deriving DecidableEq, Repr

/-- What the environment or an engine does in one step. An event is a constructor of Instr that no word encodes. -/
inductive Action where
  | issue (g : Nat) (c : CtxId)
  | event (e : Instr)
  | duty (d : Duty)
  | evictL1 (g : Nat) (line : Nat)
  | evictRo (quad : Nat) (line : Nat)
  | evictFetch (g : Nat) (line : Nat)
  | evictL2 (d : Nat) (line : Nat)
  | msixMask (v : Fin 9)
  deriving DecidableEq, Repr

/-- The state of the package. -/
structure State where
  mem : Memory := []
  /-- poisoned 8-byte words, by location / 8, rising (R328) -/
  mpois : List Nat := []
  cores : FMap Core := []
  dies : Vector Die 8 := Vector.replicate 8 {}
  /-- read-only path caches, by quad of the package (R267) -/
  ro : FMap (FMap Copy) := []
  sharers : FMap Sharers := []
  /-- the states of lines in their home slices (R242) -/
  moesi : FMap Moesi := []
  reqs : FMap Req := []
  ops : FMap HomeOp := []
  nextId : Nat := 2
  /-- requests performed whose in-flight count has still to fall: die and entry (R124) -/
  performed : List (Nat × BitVec 20) := []
  pkgTicket : Nat := 0
  podTicket : Nat := 0
  bars : List BarInst := []
  arrivals : List Arrival := []
  monitors : List Monitor := []
  cards : FMap Card := []
  poisonHits : List PoisonHit := []
  /-- the host port and the service complex (R339 to R346) -/
  hostState : BitVec 2 := 0
  pkgid : BitVec 5 := 0
  postDrops : W64 := 0
  events : BitVec 9 := 0
  raised : BitVec 9 := 0
  masked : BitVec 9 := 0
  pending : BitVec 9 := 0
  messages : List (Fin 9) := []
  measure : Vector (BitVec 256) 8 := Vector.replicate 8 0
  imageVersion : W32 := 0
  /-- fetches of a boot image that were repeated; the image is verified and runs; the dies are released -/
  bootFails : Nat := 0
  imageRuns : Bool := false
  /-- every later stage of the image has been verified and started (R339 step 4) -/
  stagesRun : Bool := false
  booted : Bool := false
  /-- attestation reports sent over the management Ethernet, and the bytes that the host's last read returned -/
  hostReply : List Byte := []
  reports : List (List Byte) := []
  /-- the service complex has reported the package out of service over its management Ethernet (R19) -/
  outReport : Bool := false
  budget : W16 := 0
  /-- the clk of the last power period -/
  powerAt : Nat := 0
  linkDown : List FabricLink := []
  clk : Nat := 0
  coreResetAt : Nat := 0
  /-- the issuing context of exec -/
  curCore : Nat := 0
  curCtx : CtxId := 0
  /-- what happens in the steps to come, each with the clk that pass before it -/
  agenda : List (Nat × Action) := []
  turn : Nat := 0
  /-- choices the spec leaves to the hardware -/
  oracle : List Nat := []
  deriving DecidableEq, Repr

/-- The package right after a package reset (R339): booting, every register at its reset value. -/
def State.reset : State := {}

end Sys2Proof.Machine
end

