-- ==== Sys2Proof/Machine/Ops.lean ====
section
/-! DEFINITION. Sys2Proof/Machine/Ops.lean: the named operations over the state: cores, sets, contexts, registers, memory
at its homes, the Pin Table, the event log, fetch, and taking an exception and returning from one. -/

namespace Sys2Proof.Machine

open Host (Outcome)

/-- What every meaning answers. -/
abbrev Out := Outcome State Fault Refusal

/-! ### Finite maps and vectors -/

/-- The entry of a key. -/
def fget {α : Type} : FMap α → Nat → Option α
  | [], _ => none
  | (k, a) :: m, n => if k = n then some a else fget m n

/-- Sets the entry of a key, keeping the keys rising. -/
def fset {α : Type} : FMap α → Nat → α → FMap α
  | [], n, a => [(n, a)]
  | (k, b) :: m, n, a =>
    if n < k then (n, a) :: (k, b) :: m else if n = k then (n, a) :: m else (k, b) :: fset m n a

/-- Removes the entry of a key. -/
def fdel {α : Type} : FMap α → Nat → FMap α
  | [], _ => []
  | (k, b) :: m, n => if k = n then m else (k, b) :: fdel m n

/-- The element of a vector of 2^n that a bit pattern names. -/
def vget {α : Type} {k n : Nat} (v : Vector α k) (i : BitVec n) (h : 2 ^ n ≤ k := by decide) : α :=
  v[i.toNat]'(Nat.lt_of_lt_of_le i.isLt h)

/-- Sets the element of a vector that a bit pattern names. -/
def vset {α : Type} {k n : Nat} (v : Vector α k) (i : BitVec n) (a : α) (h : 2 ^ n ≤ k := by decide) : Vector α k :=
  v.set i.toNat a (Nat.lt_of_lt_of_le i.isLt h)

/-- The element of a vector at a bounded index. -/
def nget {α : Type} {k : Nat} (v : Vector α k) (i : Fin k) : α := v[i.val]'i.isLt

/-- Sets the element of a vector at a bounded index. -/
def nset {α : Type} {k : Nat} (v : Vector α k) (i : Fin k) (a : α) : Vector α k := v.set i.val a i.isLt

/-- Little-endian bytes of the low 8 * n bits of a number. -/
def leBytes : Nat → Nat → List Byte
  | 0, _ => []
  | n + 1, v => BitVec.ofNat 8 v :: leBytes n (v / 256)

/-- The number of little-endian bytes. -/
def leNat : List Byte → Nat
  | [] => 0
  | b :: l => b.toNat + 256 * leNat l

/-! ### Memory -/

/-- The byte at a location: an unlisted location reads 0 (log entry 3). -/
def Memory.get (m : Memory) (a : Nat) : Byte := (fget m a).getD 0

/-- Writes a byte, keeping the canonical form: writing 0 removes the entry. -/
def Memory.set (m : Memory) (a : Nat) (b : Byte) : Memory := if b = 0 then fdel m a else fset m a b

/-- The canonical form: locations rise strictly and no listed byte is 0. -/
def Memory.wf : Memory → Bool
  | [] => true
  | (_, b) :: [] => b != 0
  | (a, b) :: (c, d) :: m => b != 0 && a < c && Memory.wf ((c, d) :: m)

/-- Inserts a number into a rising list without repeats. -/
def insertNat : List Nat → Nat → List Nat
  | [], n => [n]
  | k :: m, n => if n < k then n :: k :: m else if n = k then k :: m else k :: insertNat m n

/-- Bytes at n locations from a. -/
def Memory.read (m : Memory) (a n : Nat) : List Byte := (List.range n).map fun i => m.get (a + i)

/-! ### Locations (R231 to R234, R247) -/

/-- Die-local size of a die's address space. -/
def dieSpan : Nat := 2 ^ 51

/-- The pod physical address of a die-local address of a die of this package (R231). -/
def podAddr (s : State) (die loc : Nat) : Nat := s.pkgid.toNat * 2 ^ 54 + die * 2 ^ 51 + loc % 2 ^ 51

/-- The location of a vault byte of a core of the package (R134). -/
def vaultLoc (g off : Nat) : Nat := 2 ^ 60 + g * 2 ^ 21 + off

/-- A location lies in a vault. -/
def isVault (loc : Nat) : Bool := 2 ^ 60 ≤ loc

/-- The global die of a location: 8 * package + die; a vault's is that of its core in this package (R231). -/
def locDie (s : State) (loc : Nat) : Nat :=
  if isVault loc then s.pkgid.toNat * 8 + (loc - 2 ^ 60) / 2 ^ 28 else loc / 2 ^ 51

/-- The die of a core of this package, as a global die. -/
def coreDie (s : State) (g : Nat) : Nat := s.pkgid.toNat * 8 + g / 128

/-- What lies at a die-local address (R232). -/
inductive Region where
  | hbm | labels | reserved | status | hostWin | unpopulated
  deriving DecidableEq, Repr

/-- The region of a pod physical address (R113, R232). -/
def region (loc : Nat) : Region :=
  let l := loc % 2 ^ 51
  if l < 0x1FC0000000 then .hbm
  else if l < 0x2000000000 then (if 0x1FC4000000 ≤ l && l < 0x1FC4400000 then .labels else .reserved)
  else if 0x300000000000 ≤ l && l < 0x300000200000 then .status
  else if 0x400000000000 ≤ l && l < 0x800000000000 && (loc / 2 ^ 51) % 8 == 0 then .hostWin
  else .unpopulated

/-! ### Cores, sets and contexts -/

/-- A core of the package; an unlisted core is in its reset state. -/
def State.core (s : State) (g : Nat) : Core := (fget s.cores g).getD {}

/-- Replaces a core. -/
def State.setCore (s : State) (g : Nat) (c : Core) : State := { s with cores := fset s.cores g c }

/-- Changes a core. -/
def State.updCore (s : State) (g : Nat) (f : Core → Core) : State := s.setCore g (f (s.core g))

/-- The active set of a core. -/
def Core.act (k : Core) : CtxSet := nget k.set k.active

/-- The active set of a core of the state. -/
def State.aset (s : State) (g : Nat) : CtxSet := (s.core g).act

/-- Changes the active set of a core. -/
def State.updAct (s : State) (g : Nat) (f : CtxSet → CtxSet) : State :=
  s.updCore g fun k => { k with set := nset k.set k.active (f k.act) }

/-- A context of the active set of a core. -/
def State.ctx (s : State) (g : Nat) (c : CtxId) : Ctx := nget (s.aset g).ctx c

/-- Changes a context of the active set of a core. -/
def State.updCtx (s : State) (g : Nat) (c : CtxId) (f : Ctx → Ctx) : State :=
  s.updAct g fun t => { t with ctx := nset t.ctx c (f (nget t.ctx c)) }

/-- The issuing context of exec. -/
def State.me (s : State) : Ctx := s.ctx s.curCore s.curCtx

/-- The active set of the issuing core. -/
def State.mySet (s : State) : CtxSet := s.aset s.curCore

/-- Changes the issuing context. -/
def State.updMe (s : State) (f : Ctx → Ctx) : State := s.updCtx s.curCore s.curCtx f

/-- Changes the active set of the issuing core. -/
def State.updMySet (s : State) (f : CtxSet → CtxSet) : State := s.updAct s.curCore f

/-- A context named by its core, the number of its set and its own number, wherever its set is. -/
structure Who where
  g : Nat
  sid : Nat
  c : CtxId
  deriving DecidableEq, Repr

/-- The set of a core with a given number: resident or saved. -/
def Core.findSet (k : Core) (sid : Nat) : Option CtxSet :=
  if k.act.sid = sid then some k.act
  else if (nget k.set (k.active + 1)).sid = sid then some (nget k.set (k.active + 1))
  else (k.slots.find? fun e => e.2.sid = sid).map (·.2)

/-- Changes the set of a core with a given number; nothing when it has gone. -/
def Core.updSid (k : Core) (sid : Nat) (f : CtxSet → CtxSet) : Core :=
  if k.act.sid = sid then { k with set := nset k.set k.active (f k.act) }
  else if (nget k.set (k.active + 1)).sid = sid then
    { k with set := nset k.set (k.active + 1) (f (nget k.set (k.active + 1))) }
  else { k with slots := k.slots.map fun e => if e.2.sid = sid then (e.1, f e.2) else e }

/-- Changes a set named by its number. -/
def State.updSid (s : State) (g sid : Nat) (f : CtxSet → CtxSet) : State := s.updCore g fun k => k.updSid sid f

/-- Changes a context of a set. -/
def CtxSet.updCtx (t : CtxSet) (c : CtxId) (f : Ctx → Ctx) : CtxSet :=
  { t with ctx := nset t.ctx c (f (nget t.ctx c)) }

/-- Changes a context wherever its set is. -/
def State.updWho (s : State) (w : Who) (f : Ctx → Ctx) : State := s.updSid w.g w.sid fun t => t.updCtx w.c f

/-- The set a context belongs to, wherever it is. -/
def State.whoSet (s : State) (w : Who) : Option CtxSet := (s.core w.g).findSet w.sid

/-- The request tag of the set of a context. -/
def State.reqtagOf (s : State) (w : Who) : W16 :=
  match s.whoSet w with
  | some t => t.reqtag
  | none => 0

/-- A context wherever its set is; a context in reset state when it has gone. -/
def State.whoCtx (s : State) (w : Who) : Ctx :=
  match s.whoSet w with
  | some t => nget t.ctx w.c
  | none => {}

/-- The issuing context by name. -/
def State.iam (s : State) : Who := ⟨s.curCore, s.mySet.sid, s.curCtx⟩

/-- The cycle CSR of every core (R79). -/
def State.cycle (s : State) : W64 := BitVec.ofNat 64 (s.clk - s.coreResetAt)

/-- A die of this package. -/
def State.die (s : State) (d : Nat) : Die := vget s.dies (BitVec.ofNat 3 d)

/-- Changes a die. -/
def State.updDie (s : State) (d : Nat) (f : Die → Die) : State :=
  { s with dies := vset s.dies (BitVec.ofNat 3 d) (f (s.die d)) }

/-- A context in a state that issues, waits or can be interrupted. -/
def Ctx.live (x : Ctx) : Bool := x.st == .run || x.st == .wait

/-! ### x registers, tags and marks -/

/-- X(n): x0 reads 0 (R22). -/
def Ctx.rx (t : Ctx) (r : XReg) : W64 := if r = 0 then 0 else vget t.x r

/-- SetX(n, v): a write to x0 is discarded (R22). The tag and the poison mark go with the value (R97, R328). -/
def Ctx.wx (t : Ctx) (r : XReg) (v : W64) (tag : Tag) (pois : Bool) : Ctx :=
  if r = 0 then t
  else { t with x := vset t.x r v, tag := vset t.tag r tag,
                xpois := if pois then t.xpois ||| (1#32 <<< r.toNat) else t.xpois &&& ~~~(1#32 <<< r.toNat) }

/-- The poison mark of an x register. -/
def Ctx.marked (t : Ctx) (r : XReg) : Bool := r != 0 && t.xpois.getLsbD r.toNat

/-- X(n) of the issuing context. -/
def State.rx (s : State) (r : XReg) : W64 := s.me.rx r

/-- Writes an x register of the issuing context. -/
def State.wx (s : State) (r : XReg) (v : W64) (tag : Tag) (pois : Bool) : State := s.updMe fun t => t.wx r v tag pois

/-- The context goes on to its next owned lane (R73): the instruction at pc has been performed. -/
def Ctx.goOn (t : Ctx) : Ctx :=
  { t with seek := true, st := if t.st == .wait then .run else t.st, hold := .none, waited := 0 }

/-- The issuing context goes on to its next owned lane. -/
def State.goOn (s : State) : State := s.updMe Ctx.goOn

/-- A meaning that is done. -/
def finish (s : State) : Out := .next s.goOn

/-- Holds a context at the instruction at pc (R70). -/
def Ctx.holdAt (now : Nat) (h : Hold) (t : Ctx) : Ctx :=
  { t with st := .wait, hold := h, seek := false, waited := 0, waitMark := now }

/-- Holds the issuing context. -/
def State.holdMe (s : State) (h : Hold) : State := s.updMe (Ctx.holdAt s.clk h)

/-- Holds a context that already waits goes on waiting for something else of the same instruction. -/
def Ctx.holdOn (h : Hold) (t : Ctx) : Ctx := { t with hold := h }

/-- Sets mstat bits of a context wherever its set is (R82, R84). -/
def State.orMstat (s : State) (w : Who) (b : BitVec 8) : State :=
  s.updWho w fun t => { t with mstat := t.mstat ||| b }

/-- Sets fstat bits of a context wherever its set is (R65). -/
def State.orFstat (s : State) (w : Who) (b : FFlags) : State :=
  s.updWho w fun t => { t with fstat := t.fstat ||| b }

/-- Adds a failure to a failure record (R221). -/
def FailRec.add (r : FailRec) (psn lost refused dead : Bool) : FailRec :=
  { count := if r.count = 0xFFFF then r.count else r.count + 1
    psn := r.psn || psn, lost := r.lost || lost, refused := r.refused || refused, dead := r.dead || dead }

/-- Two failure records joined (R240). -/
def FailRec.join (r q : FailRec) : FailRec :=
  { count := if r.count.toNat + q.count.toNat > 0xFFFF then 0xFFFF else r.count + q.count
    psn := r.psn || q.psn, lost := r.lost || q.lost, refused := r.refused || q.refused, dead := r.dead || q.dead }

/-- The status word of fence (R221). -/
def FailRec.word (r : FailRec) : W64 :=
  BitVec.ofNat 64 (r.count.toNat * 2 ^ 16 + (if r.psn then 8 else 0) + (if r.lost then 4 else 0)
    + (if r.refused then 2 else 0) + (if r.dead then 1 else 0))

/-- Adds a failure to the record of a context. -/
def State.addFail (s : State) (w : Who) (psn lost refused dead : Bool) : State :=
  s.updWho w fun t => { t with fail := t.fail.add psn lost refused dead }

/-! ### Poison (R328) and memory at its home -/

/-- The 8-byte word of a location is poisoned. -/
def State.poisoned (s : State) (loc : Nat) : Bool := s.mpois.contains (loc / 8)

/-- Marks or clears the poison of the words of some bytes being written (R328): poisoned data poisons every word it
touches; a whole clean word clears; part of a word, be it only some bits of a byte, leaves its mark. -/
def State.poisonWrite (s : State) (locs : List Nat) (poison : Bool) (bits : List Nat := []) : State :=
  let words := (locs.map (· / 8)).dedup
  if poison then { s with mpois := words.foldl insertNat s.mpois }
  else
    let whole := words.filter fun w => (List.range 8).all fun i => locs.contains (8 * w + i) && !bits.contains (8 * w + i)
    { s with mpois := s.mpois.filter fun w => !whole.contains w }

/-- What a read asks for when it is to install no copy in L2 or L1: only the code line that it fetches enters the fetch buffer. -/
def ReqWhat.noCopy : ReqWhat → ReqWhat
  | .read n => if n = 3 then .read 3 else .read (if n = 4 || n = 5 then 5 else 0)
  | .eng k w (some n) => .eng k w (some (if n = 3 then 3 else 0))
  | w => w

/-- What a read asks for when it is to install no line in the read-only path (R223). -/
def ReqWhat.noRo : ReqWhat → ReqWhat
  | .read 3 => .read 0
  | .eng k w (some 3) => .eng k w none
  | w => w

/-- Reads of a line that its home has answered for some dies install no copy in L2 or L1 when their replies come (R243). -/
def State.staleReads (s : State) (line : Nat) (from_ : Nat → Bool) : State :=
  { s with reqs := s.reqs.map fun e =>
    match e.2.pos with
    | .reply _ =>
      if e.2.line = line && from_ (e.2.core / 128) then (e.1, { e.2 with what := e.2.what.noCopy }) else e
    | _ => e }

/-! ### Pins (R194) -/

/-- A line is pinned: a step of some core has read it at its home and has not been checked. -/
def State.pinned (s : State) (line : Nat) : Bool :=
  s.cores.any fun e => e.2.xfers.any fun x => x.lines.any fun y =>
    y.pin && y.line = line && (y.data.isSome || (y.fate.isNone &&
      match fget s.reqs y.req with
      | some r => !r.dropped && (match r.pos with | .reply _ => true | _ => false)
      | none => false))

/-! ### Words of an L1 (R253 to R257) -/

/-- A word of a line as a bit of its mask. -/
def wordBit (loc : Nat) : Byte := 1#8 <<< (loc / 8 % 8)

/-- The words that some locations of a line touch. -/
def wordMask (locs : List Nat) : Byte := locs.foldl (fun m l => m ||| wordBit l) 0

/-- Some words leave an L1; a line without words goes. -/
def dropWords (l1 : FMap Copy) (line : Nat) (mask : Byte) : FMap Copy :=
  match fget l1 line with
  | none => l1
  | some c =>
    if c.words &&& ~~~mask == 0 then fdel l1 line
    else fset l1 line { c with words := c.words &&& ~~~mask, own := c.own &&& ~~~mask }

/-- The owned words of an L1 alone: what an acquire leaves (R214, R257). -/
def ownedWords (l1 : FMap Copy) : FMap Copy :=
  (l1.filter fun e => e.2.own != 0).map fun e => (e.1, { e.2 with words := e.2.own })

/-- Words owned by an L1 are recalled to the home before a write of their bytes is performed there (R211, R254, R264). -/
def State.recall (s : State) (locs : List Nat) : State :=
  let lines := (locs.map (· / 64)).dedup
  { s with cores := s.cores.map fun e =>
      (e.1, lines.foldl (fun (k : Core) line =>
        match fget k.l1 line with
        | none => k
        | some c =>
          let m := c.own &&& wordMask (locs.filter fun l => l / 64 = line)
          if m == 0 then k else { k with l1 := dropWords k.l1 line m }) e.2) }

/-- The home slice of a line takes a state with respect to HBM (R242). -/
def State.setMoesi (s : State) (line : Nat) (m : Moesi) : State :=
  if region (64 * line) == .hbm && !isVault (64 * line) then { s with moesi := fset s.moesi line m } else s

/-- A line read at its home is held there: exclusive when it was not held before (DESIGN CHOICE, log entry 50). -/
def State.homeRead (s : State) (line : Nat) : State :=
  if (fget s.moesi line).isSome then s else s.setMoesi line .exclusive

/-- A shared copy of a line leaves its home: a modified line is then owned there, another one shared (log entry 50). -/
def State.homeShares (s : State) (line : Nat) : State :=
  match fget s.moesi line with
  | some .modified | some .owned => s.setMoesi line .owned
  | _ => s.setMoesi line .shared

/-- Discards every L2 copy of a remote line that its home's sharers hold, with the unowned L1 words of those dies
(R243), when the write is performed in one step with its invalidations. -/
def State.invalidate (s : State) (line : Nat) : State :=
  match fget s.sharers line with
  | none => s
  | some _ =>
    let s := s.staleReads line fun _ => true
    { s with
      sharers := fdel s.sharers line
      dies := s.dies.map fun d => { d with l2 := fdel d.l2 line }
      cores := s.cores.map fun e =>
        if coreDie s e.1 = locDie s (64 * line) then e else (e.1, { e.2 with l1 := fdel e.2.l1 line }) }

/-- Wakes the monitors of the line of a write (R230), but for those that have been lost. -/
def State.hitMonitors (s : State) (locs : List Nat) : State :=
  if s.monitors.isEmpty then s
  else { s with monitors := s.monitors.map fun m => if locs.any (fun l => l / 64 = m.line) && !m.lost then { m with hit := true } else m }

/-- Performs a write of bytes at their homes (R247): memory, poison, sharers, owned words and monitors; the home slice
holds the lines modified (R242). Of the locations in bits only some bits are written. -/
def State.writeHome (s : State) (bytes : List (Nat × Byte)) (poison : Bool) (bits : List Nat := []) : State :=
  let locs := bytes.map (·.1)
  let s := (locs.map (· / 64)).dedup.foldl State.invalidate s
  let s := (locs.map (· / 64)).dedup.foldl (fun (s : State) line => s.setMoesi line .modified) (s.recall locs)
  let s := { s with mem := bytes.foldl (fun (m : Memory) (b : Nat × Byte) => Memory.set m b.1 b.2) s.mem }
  (s.poisonWrite locs poison bits).hitMonitors locs

/-- Bytes at consecutive locations, little-endian, of a number. -/
def bytesAt (loc n v : Nat) : List (Nat × Byte) := ((List.range n).map (loc + ·)).zip (leBytes n v)

/-- A little-endian number of n bytes at a location. -/
def State.readNat (s : State) (loc n : Nat) : Nat := leNat (s.mem.read loc n)

/-- HBM4E of a die, which its hardware reads and writes without a token; host memory is reached by host extents alone
(R4). -/
def inHbm (loc : Nat) : Bool :=
  match region loc with
  | .hbm | .labels | .reserved => true
  | .status | .hostWin | .unpopulated => false

/-- The code of an entry state (R107). -/
def PinState.code : PinState → Nat
  | .free => 0 | .live => 1 | .ebb => 2 | .occulted => 3

/-- The 64 bytes of entry e of a die's Pin Table as it stands in memory (R107). -/
def Pin.image (p : Pin) (die : Nat) (e : BitVec 20) : List Byte :=
  let flag (b : Bool) (n : Nat) : Nat := if b then 2 ^ n else 0
  leBytes 8 (p.prin.toNat * 2 ^ 32 + p.tenant.toNat * 2 ^ 24 + flag (!p.deny.isEmpty) 23 + flag p.phys 22 + flag p.host 21
      + flag p.ms 20 + p.rights.toNat * 2 ^ 16 + p.gen.toNat * 2 ^ 4 + p.state.code)
    ++ leBytes 8 p.lenm1.toNat ++ leBytes 8 p.base.toNat
    ++ leBytes 8 (if p.frames.isEmpty then 0 else (Config.framesAt die e p.gen).toNat / 8 * 8)
    ++ leBytes 8 (if p.deny.isEmpty then 0 else (Config.denyAt die e p.gen).toNat)
    ++ leBytes 16 p.holders.toNat ++ leBytes 8 (p.inflight % 2 ^ 32 * 2 ^ 32 + p.saved % 2 ^ 32)

/-- The die-local address of the Pin Table (R113). -/
def pinTable : Nat := 0x1FC0000000

/-- A byte of a die's Pin Table, by its offset in the table (R107, R113). -/
def State.pinByte (s : State) (die off : Nat) : Byte :=
  let e := BitVec.ofNat 20 (off / 64)
  ((((fget (s.die die).pins e.toNat).getD {}).image die e)[off % 64]?).getD 0

/-- A byte at a die-local address, as the hardware of a die reads it: the Pin Table (R113), other memory, and 0 outside its
HBM4E (DESIGN CHOICE, log entry 51). -/
def State.dieByte (s : State) (die loc : Nat) : Byte :=
  let l := loc % 2 ^ 51
  if pinTable ≤ l && l < pinTable + 2 ^ 26 then s.pinByte die (l - pinTable)
  else if inHbm (podAddr s die loc) then s.mem.get (podAddr s die loc) else 0

/-- A number of n bytes at a die-local address, as the hardware of a die reads it. -/
def State.dieRead (s : State) (die loc n : Nat) : Nat := leNat ((List.range n).map fun i => s.dieByte die (loc + i))

/-- The hardware of a die writes bytes at die-local addresses of its HBM4E; others are dropped (log entry 51). -/
def State.dieWrite (s : State) (die loc : Nat) (bytes : List Byte) : State :=
  s.writeHome ((((List.range bytes.length).map fun i => podAddr s die (loc + i)).zip bytes).filter fun b => inHbm b.1) false

/-! ### The event log (R90) -/

/-- Appends a 32-byte record to the log of a descriptor address of a die. -/
def State.appendLog (s : State) (die : Nat) (evptr : W64) (r : List Byte) : State :=
  let a := evptr.toNat
  let base := s.dieRead die a 8
  let cap := s.dieRead die (a + 8) 4
  let head := s.dieRead die (a + 16) 8
  let s := if 4 ≤ cap && cap ≤ 20 then s.dieWrite die (base + 32 * (head % 2 ^ cap)) r else s
  s.dieWrite die (a + 16) (leBytes 8 (head + 1))

/-- The common first sixteen bytes of a record: cycle, prin, request tag, code and the byte after it. -/
def recHead (s : State) (prin : W32) (tag : W16) (code last : Nat) : List Byte :=
  leBytes 8 s.cycle.toNat ++ leBytes 4 prin.toNat ++ leBytes 2 tag.toNat ++ leBytes 1 code ++ leBytes 1 last

/-! ### Notifications (R342) -/

/-- A notification for a vector: its event bit, and a message unless the vector is raised; a masked vector keeps the
message pending. -/
def State.notify (s : State) (v : Fin 9) : State :=
  let b := 1#9 <<< v.val
  let s := { s with events := s.events ||| b }
  if s.raised.getLsbD v.val then s
  else if s.masked.getLsbD v.val then { s with pending := s.pending ||| b }
  else { s with raised := s.raised ||| b, messages := s.messages ++ [v] }

/-- A notification of a die. -/
def State.notifyDie (s : State) (d : Nat) : State := s.notify ⟨d % 8, by omega⟩

/-- The package is out of service, as the service complex reports over its management Ethernet (R19). -/
def State.outOfService (s : State) : State := { s with hostState := 3, outReport := true }

/-! ### The Pin Table (R104 to R109) -/

/-- An entry of a die's Pin Table; an unlisted entry is FREE with every field 0 (R107). -/
def State.pin (s : State) (d : Nat) (e : BitVec 20) : Pin := (fget (s.die d).pins e.toNat).getD {}

/-- Replaces an entry. -/
def State.setPin (s : State) (d : Nat) (e : BitVec 20) (p : Pin) : State :=
  s.updDie d fun x => { x with pins := fset x.pins e.toNat p }

/-- Changes an entry. -/
def State.updPin (s : State) (d : Nat) (e : BitVec 20) (f : Pin → Pin) : State := s.setPin d e (f (s.pin d e))

/-- Bytes of the list pool that an entry uses (R114, R116). -/
def Pin.poolBytes (p : Pin) : Nat :=
  8 * p.frames.length + (if p.deny.isEmpty then 0 else (p.lenm1.toNat / 2 ^ 16 + 8) / 8)

/-- The size of the list pool (R113). -/
def poolSize : Nat := 512 * 2 ^ 20

/-- The entry leaves LIVE: its lines are no longer kept (R155). -/
def State.unkeep (s : State) (d : Nat) (e : BitVec 20) : State :=
  { s with dies := s.dies.map fun x => { x with kept := x.kept.filter fun k => !(k.die = d && k.pte == e) } }

/-- Frees an entry: gen rises and its lists return to the pool (R108, R122). -/
def State.freePin (s : State) (d : Nat) (e : BitVec 20) : State :=
  let p := s.pin d e
  let s := (s.updDie d fun x => { x with pool := x.pool - p.poolBytes }).unkeep d e
  s.setPin d e { gen := p.gen + 1 }

/-- A token names an entry with the entry's current generation. -/
def Token.names (t : Token) (e : BitVec 20) (gen : BitVec 12) : Bool := t.valid && t.pte == e && t.gen == gen

/-- Tokens captured by an engine entry. -/
def Entry.tokens (e : Entry) : List Token := e.k0.toList ++ e.k1.toList ++ e.k2.toList

/-- The tokens by which a resident set holds entries (R106, R183): its k registers, code token, and captured copies. -/
def CtxSet.tokens (t : CtxSet) : List Token :=
  t.codeTok :: t.k.toList
  ++ ((t.vq ++ t.mq ++ t.cq ++ t.gq ++ t.jq ++ t.sq.toList.flatten).map Entry.tokens).flatten
  ++ ((t.srun.toList.flatten.map fun r => r.e.tokens).flatten)
  ++ ((t.nests.map fun n => n.bank.cap.toList.reduceOption).flatten)
  ++ ((t.drains.map fun j => j.tok.toList).flatten)
  ++ (t.crun.toList.map fun r => r.e.tokens).flatten
  ++ t.filling.cap.toList.reduceOption ++ t.running.cap.toList.reduceOption

/-- The core holds the entry (R106). -/
def State.holds (s : State) (g : Nat) (e : BitVec 20) (gen : BitVec 12) : Bool :=
  let k := s.core g
  k.set.toList.any fun t => t.tokens.any fun x => x.names e gen

/-- A LIVE entry that nothing holds, nothing saved names and nothing is in flight for is freed (R122); one in EBB with
nothing in flight and every probe acknowledged is OCCULTED (R109). -/
def State.settlePin (s : State) (d : Nat) (e : BitVec 20) : State :=
  let p := s.pin d e
  if p.state == .live && p.holders == 0 && p.saved == 0 && p.inflight == 0 then s.freePin d e
  else if p.state == .ebb && p.inflight == 0 && p.probes == 0 then s.setPin d e { p with state := .occulted }
  else s

/-- Recomputes a core's holder bit of an entry (R106). -/
def State.holderBit (s : State) (g : Nat) (e : BitVec 20) : State :=
  let d := g / 128
  let p := s.pin d e
  let b := 1#128 <<< (g % 128)
  s.setPin d e { p with holders := if s.holds g e p.gen then p.holders ||| b else p.holders &&& ~~~b }

/-- The release of a token whose register no longer names its entry (R122): a stale token touches nothing. -/
def State.released (s : State) (g : Nat) (t : Token) : State :=
  let p := s.pin (g / 128) t.pte
  if !t.valid || p.gen != t.gen then s else (s.holderBit g t.pte).settlePin (g / 128) t.pte

/-- The core begins to hold the entry of a token (R106). -/
def State.held (s : State) (g : Nat) (t : Token) : State :=
  let p := s.pin (g / 128) t.pte
  if !t.valid || p.gen != t.gen then s else s.holderBit g t.pte

/-- What the check at an issue point finds (R123). -/
inductive IssueCheck where
  | go | stall | withdrawn
  deriving DecidableEq, Repr

/-- The check of a token at an issue point of a core (R123). -/
def State.issueCheck (s : State) (g : Nat) (t : Token) : IssueCheck :=
  let p := s.pin (g / 128) t.pte
  if p.gen != t.gen then .withdrawn
  else if p.state == .ebb || p.state == .occulted then .stall
  else .go

/-- The in-flight count of an entry rises when a request naming it issues (R123). -/
def State.flyIn (s : State) (d : Nat) (e : BitVec 20) : State :=
  s.updPin d e fun p => { p with inflight := p.inflight + 1 }

/-- The in-flight count falls when a request is performed (R124), with what follows from it (R109, R122). -/
def State.flyOut (s : State) (d : Nat) (e : BitVec 20) : State :=
  (s.updPin d e fun p => { p with inflight := p.inflight - 1 }).settlePin d e

/-- A request is performed: its in-flight count has still to fall, at REQUEST_PERFORMED (R124). -/
def State.performedPte (s : State) (d : Nat) (e : Option (BitVec 20)) : State :=
  match e with
  | none => s
  | some e => { s with performed := s.performed ++ [(d, e)] }

/-- The entries that the bytes of a load which are still to be performed are counted on (R123). -/
def Hold.duePtes : Hold → List (BitVec 20)
  | .load _ _ bytes => bytes.filterMap fun b => match b with
    | .due _ _ (some t) => some t.pte
    | _ => Option.none
  | _ => []

/-- The counts of some accesses that will not be performed are to fall (R124). -/
def State.giveUp (s : State) (g : Nat) (l : List (BitVec 20)) : State :=
  l.foldl (fun (s : State) e => s.performedPte (g / 128) (some e)) s

/-- The requests that an engine has sent go on without it: each count of the engine stays with a request of its entry that is
still unanswered, and falls when none is (R124). -/
def State.leaveReqs (s : State) (g : Nat) (x : Xfer) : State :=
  x.ptes.foldl (fun (s : State) e =>
    match x.lines.find? fun y => y.fate.isNone && y.pte == some e &&
        (match fget s.reqs y.req with | some r => r.pte.isNone && !r.dropped | none => false) with
    | some y =>
      (match fget s.reqs y.req with
       | some r => { s with reqs := fset s.reqs y.req { r with pte := some e } }
       | none => s)
    | none => s.performedPte (g / 128) (some e)) s

/-- The engines of a set give up what they have issued under some keys: what is on its way goes on, and its answers are not
used. -/
def State.orphan (s : State) (g sid : Nat) (pick : XKey → Bool) : State :=
  let gone := (s.core g).xfers.filter fun x => x.sid == sid && pick x.key
  (gone.foldl (fun (s : State) x => s.leaveReqs g x) s).updCore g fun k =>
    { k with xfers := k.xfers.filter fun x => !(x.sid == sid && pick x.key) }

/-- Why a byte of a token access fails (R119). -/
inductive ByteFail where
  | beyond | rgt | denied
  deriving DecidableEq, Repr

/-- The byte at an offset of a token's extent (R119): its physical location, or why it fails. -/
def State.tokenByte (s : State) (g : Nat) (t : Token) (need : BitVec 4) (off : Nat) : Except ByteFail Nat :=
  let p := s.pin (g / 128) t.pte
  if t.lenm1.toNat < off then .error .beyond
  else if need &&& t.rights != need then .error .rgt
  else if p.deny.contains (off / 2 ^ 16) then .error .denied
  else
    let fs := if t.host then 16 else 21
    .ok ((p.frames.getD (off / 2 ^ fs) 0).toNat % 2 ^ 59 + off % 2 ^ fs)

/-! ### Routes and the fate an address decides (R4, R19, R233, R235, R244) -/

/-- A package-ring link is down. -/
def State.linkIsDown (s : State) (d : Nat) : Bool := s.linkDown.contains (.ring ⟨d % 8, by omega⟩)

/-- The ring path of n hops from die d in ascending direction is whole: its links are up and the dies it passes are
not fenced. -/
def State.ascOk (s : State) : Nat → Nat → Bool
  | _, 0 => true
  | d, n + 1 => !s.linkIsDown d && (n == 0 || !(s.die (d + 1)).fenced) && s.ascOk (d + 1) n

/-- The path from a die to another in a direction of the package ring, ascending or descending, is whole. -/
def State.pathOk (s : State) (a b : Nat) (asc : Bool) : Bool :=
  if asc then s.ascOk a ((b + 8 - a % 8) % 8) else s.ascOk b ((a + 8 - b % 8) % 8)

/-- The direction that R235 prefers between two dies for an address: bit 6 of it decides at distance 4. -/
def prefersAsc (a b loc : Nat) : Bool :=
  let h := (b + 8 - a % 8) % 8
  if h = 4 then loc / 64 % 2 == 0 else h < 4

/-- The direction a slot takes on the package ring: the preferred one, or the other when that would pass a fenced die or a
dead link (R235). -/
def State.ringDir (s : State) (a b loc : Nat) : Option Bool :=
  let p := prefersAsc a b loc
  if a % 8 == b % 8 then some true
  else if s.pathOk a b p then some p else if s.pathOk a b (!p) then some !p else none

/-- The bridge that serves a die: that of die 4 for dies 3 to 6, else that of die 0 (R235). -/
def bridgeOf (d : Nat) : Bool := 3 ≤ d % 8 && d % 8 ≤ 6

/-- The die of a bridge. -/
def bridgeDie (b : Bool) : Nat := if b then 4 else 0

/-- A bridge is usable: its die is not fenced and its rack link is up. -/
def State.bridgeOk (s : State) (b : Bool) : Bool := !(s.die (bridgeDie b)).fenced && !s.linkDown.contains (.rack b)

/-- The direction on the rack ring between two bridge stations: the shorter one, a tie ascending (R235). The stations of
the 32 packages that R231 numbers close the ring (DESIGN CHOICE, log entry 49). -/
def rackAscends (p : Nat) (b : Bool) (q : Nat) (e : Bool) : Bool :=
  (2 * q + (if e then 1 else 0) + 64 - (2 * p + (if b then 1 else 0)) % 64) % 64 ≤ 32

/-- The direction a slot takes on the rack ring from a bridge of this package: the shorter one, or the other when that would
pass the package's other bridge die and it is fenced (R235). -/
def State.rackDir (s : State) (b : Bool) (q : Nat) (e : Bool) : Bool :=
  if (s.die (bridgeDie (!b))).fenced then b else rackAscends s.pkgid.toNat b q e

/-- The route of a slot from a die of this package (0 to 7) to a global die for an address (R235, R244): none when no
route remains, or when a die at its ends is fenced. -/
def State.routeOf (s : State) (a dst loc : Nat) : Option Route :=
  if (s.die a).fenced then none
  else if dst / 8 == s.pkgid.toNat then
    if (s.die dst).fenced then none else (s.ringDir a dst loc).map fun asc => { asc := asc }
  else
    [bridgeOf a, !bridgeOf a].findSome? fun b =>
      if s.bridgeOk b then
        (s.ringDir a (bridgeDie b) loc).map fun asc =>
          let e := bridgeOf dst
          { asc := asc, bridge := some b, rackAsc := s.rackDir b (dst / 8) e, entry := e
            entryAsc := dst % 8 == bridgeDie e || prefersAsc (bridgeDie e) dst loc }
      else none

/-- A request from a die of this package to a global die has a route. -/
def State.reaches (s : State) (a dst : Nat) : Bool := (s.routeOf a dst 0).isSome

/-- The attributes of the extent by which an access reaches an address (R4, R113). -/
structure Via where
  phys : Bool := false
  host : Bool := false
  deriving DecidableEq, Repr

/-- The attributes of a token's extent: those of its entry, and the host bit that the token carries. -/
def State.via (s : State) (g : Nat) (t : Option Token) : Via :=
  match t with
  | some t => { phys := (s.pin (g / 128) t.pte).phys, host := t.host }
  | none => {}

/-- The global die at which an access to a location is performed: for a host extent the host port on die 0 of the address's
package, else the die of the address (R234). -/
def State.homeDie (s : State) (loc : Nat) (v : Via) : Nat :=
  if v.host && !isVault loc then loc / 2 ^ 54 * 8 else locDie s loc

/-- The fate that the address alone decides: a vault or an address of a fenced die, or of one without a route, is DEAD
(R19, R244), and an unpopulated or reserved address is REFUSED (R233). The label array is reached only through a trnp
token (R113), and host memory only through a host extent (R4): an access to the host window through another extent is REFUSED
(DESIGN CHOICE, log entry 67). -/
def State.addrFate (s : State) (g loc : Nat) (v : Via) : Fate :=
  if isVault loc then (if (s.die ((loc - 2 ^ 60) / 2 ^ 28)).fenced then .dead else .ok)
  else if !s.reaches (g / 128) (s.homeDie loc v) then .dead
  else
    match region loc with
    | .hbm | .status => .ok
    | .hostWin => if v.host then .ok else .refused
    | .labels => if v.phys then .ok else .refused
    | .reserved | .unpopulated => .refused

/-- The home of an access to a location lies on another die than the core (R234). -/
def State.remote (s : State) (g loc : Nat) (v : Via := {}) : Bool := !isVault loc && s.homeDie loc v != coreDie s g

/-- Counts a failed request in the fabric status block of a core's die (R245). -/
def State.countFate (s : State) (g : Nat) (f : Fate) : State :=
  s.updDie (g / 128) fun d =>
    match f with
    | .ok => d
    | .dead => { d with dead := d.dead + 1 }
    | .refused => { d with refused := d.refused + 1 }
    | .lost _ => { d with lost := d.lost + 1 }

/-! ### Issue slots (R11, R13) -/

/-- An issue slot of a context is open: C has every clk, L the even and S the odd ones by cycle, each issues at most one
instruction in its slot (R11), and on one clk slot A comes before slot B, and both before the galley sequencer's feed
(R13, R300). -/
def State.slotOpen (s : State) (g : Nat) (c : CtxId) : Bool :=
  (s.ctx g c).slotAt ≤ s.clk &&
    (if c == 1 then decide ((s.core g).aFrom ≤ s.clk) else decide ((s.core g).bFrom ≤ s.clk) && (s.cycle.getLsbD 0 == (c == 2)))

/-- A context uses its slot: what comes before the slot on a clk issues from the next clk on. -/
def State.useSlot (s : State) (g : Nat) (c : CtxId) : State :=
  let s := s.updCtx g c fun x => { x with slotAt := s.clk + 1 }
  if c == 1 then s else s.updCore g fun k => { k with aFrom := s.clk + 1 }

/-! ### Code and fetch (R24 to R28, R72 to R78) -/

/-- What reading a line through a set's code token gives (R72): the line, what the fetch waits for, or a stale token. -/
inductive LineRead where
  | line (w : BitVec 256)
  | stall (h : Hold)
  | stale
  deriving DecidableEq, Repr

/-- The physical location of the line at a code offset, when it begins inside the extent and its frame exists. -/
def State.codeLoc (s : State) (g : Nat) (t : Token) (off : Nat) : Option Nat :=
  match s.tokenByte g t 1 off with
  | .ok loc => some loc
  | .error _ => none

/-- Bits of a 32-byte line as the home holds them. -/
def State.lineBits (s : State) (loc : Nat) : BitVec 256 := BitVec.ofNat 256 (s.readNat loc 32)

/-- The bytes of a code line inside the extent; those beyond it read 0 (R72). -/
def codeMask (t : Token) (off : Nat) (w : BitVec 256) : BitVec 256 :=
  let keep := t.lenm1.toNat + 1 - off
  if keep < 32 then w &&& BitVec.ofNat 256 (2 ^ (8 * keep) - 1) else w

/-- The extent of a code token is one that a trnp names (R72), by which the label array is reached (R113). -/
def codeVia : Via := { phys := true }

/-- A code line that the core can read now: from the fetch buffer (R78), from its home on the die, or from the die's
copy of a remote line (R241). A line that no request reaches reads 0, as R233 and R240 deliver it (DEDUCED, log entry 52):
in reserved, unpopulated or status space, in host memory, or on a die that is fenced or without a route. -/
def State.codeHere (s : State) (g loc : Nat) : Option (BitVec 256) :=
  match fget (s.core g).fetch (loc / 32) with
  | some w => some w
  | none =>
    if s.addrFate g loc codeVia != .ok || region loc == .status then some 0
    else if !s.remote g loc then some (s.lineBits loc)
    else (fget (s.die (g / 128)).l2 (loc / 64)).map fun c => c.data.extractLsb' (8 * (loc % 64)) 256

/-- The line of an instruction address is one that no request reaches: the failed request is counted (R245), unless the fetch
buffer answered. -/
def State.countFetch (s : State) (g : Nat) (t : Token) (a : Nat) : State :=
  match s.codeLoc g t (a / 32 * 32) with
  | some loc => if (fget (s.core g).fetch (loc / 32)).isSome then s else s.countFate g (s.addrFate g loc codeVia)
  | none => s

/-- The line at a code offset (R72, R78): bytes beyond the extent read 0. A line that is not in the fetch buffer is read
through the code token, which may be occulted (R123), and a remote one may have to come from its home (R236). -/
def State.readLine (s : State) (g : Nat) (t : Token) (off : Nat) : LineRead :=
  match s.issueCheck g t, s.codeLoc g t off with
  | .withdrawn, _ => .stale
  | .go, none => .line 0
  | .go, some loc =>
    (match s.codeHere g loc with
     | some w => .line (codeMask t off w)
     | none => .stall (.line loc))
  | .stall, none => .stall (.stall t.pte)
  | .stall, some loc =>
    match fget (s.core g).fetch (loc / 32) with
    | some w => .line (codeMask t off w)
    | none => .stall (.stall t.pte)

/-- The line at a code offset as it lies at its home, whatever its fetch would wait for: it names the lane before which a
cause is taken that ends a stalled fetch (R92; DEDUCED, log entry 53). -/
def State.peekLine (s : State) (g : Nat) (t : Token) (off : Nat) : LineRead :=
  match s.issueCheck g t, s.codeLoc g t off with
  | .withdrawn, _ => .stale
  | _, none => .line 0
  | _, some loc => .line (codeMask t off ((s.codeHere g loc).getD (s.lineBits loc)))

/-- The fetch buffer after reading the line at a code offset (R78). -/
def State.keepLine (s : State) (g : Nat) (t : Token) (off : Nat) : State :=
  match s.codeLoc g t off with
  | none => s
  | some loc =>
    match fget (s.core g).fetch (loc / 32), s.codeHere g loc with
    | none, some w => s.updCore g fun k => { k with fetch := fset k.fetch (loc / 32) w }
    | _, _ => s

/-- The header word of a line (R24). -/
def headerOf (l : BitVec 256) : W32 := l.extractLsb' 0 32
/-- The instruction word of a lane. -/
def laneOf (l : BitVec 256) (n : Nat) : W32 := l.extractLsb' (32 * n) 32
/-- The nibble of lane n, 1 to 7 (R25). -/
def nibble (h : W32) (n : Nat) : BitVec 4 := h.extractLsb' (4 * (n - 1)) 4

/-- A header fails the check of R27. -/
def headerBad (h : W32) : Bool :=
  !h.getLsbD 31 || h.extractLsb' 28 3 != 0 ||
    (List.range 7).any fun i => (nibble h (i + 1)).extractLsb' 2 2 == 0 && (nibble h (i + 1)).extractLsb' 0 2 != 0

/-- The owner code of a context in a nibble: 1 L, 2 C, 3 S (R26). -/
def ownerCode (c : CtxId) : BitVec 2 := BitVec.ofNat 2 (c.val + 1)

/-- A context owns lane n of a line. -/
def owns (h : W32) (c : CtxId) (n : Nat) : Bool := (nibble h n).extractLsb' 2 2 == ownerCode c

/-- The unit of lane n (R26). -/
def unitOfLane (h : W32) (n : Nat) : LaneUnit :=
  match ((nibble h n).extractLsb' 0 2).toNat with
  | 0 => .k | 1 => .v | 2 => .e | _ => .y

/-- The line address of an instruction address. -/
def lineAddr (a : W64) : W64 := a &&& ~~~31#64
/-- The lane of an instruction address. -/
def laneIdx (a : W64) : Nat := a.toNat / 4 % 8
/-- An instruction address that is no lane's: bits [1:0] or lane 0 (R76 step 1). -/
def misLane (a : W64) : Bool := a.toNat % 4 != 0 || laneIdx a == 0

/-- The first lane after lane n, up to 7, that a context owns. -/
def nextIn (h : W32) (c : CtxId) (n : Nat) : Option Nat :=
  ((List.range 8).filter fun i => n < i && owns h c i).head?

/-- What a search for the next owned lane finds (R73 to R75). -/
inductive Search where
  | lane (a : W64)
  | badHeader (line : W64) (w : W32)
  | starved (line : W64)
  | stall (h : Hold)
  | stale
  deriving DecidableEq, Repr

/-- The search over lines from the one given, for at most n lines, with a way to read a line. -/
def searchLines (read : Nat → LineRead) (c : CtxId) (line : W64) : Nat → Search
  | 0 => .starved line
  | n + 1 =>
    match read line.toNat with
    | .stall h => .stall h
    | .stale => .stale
    | .line l =>
      if headerBad (headerOf l) then .badHeader line (headerOf l)
      else
        match nextIn (headerOf l) c 0 with
        | some i => .lane (line + BitVec.ofNat 64 (4 * i))
        | none => searchLines read c (line + 32) n

/-- The next owned lane after an address: the rest of its line and the 16 lines that follow (R73, R74). -/
def nextLaneBy (read : Nat → LineRead) (c : CtxId) (a : W64) : Search :=
  match read (lineAddr a).toNat with
  | .stall h => .stall h
  | .stale => .stale
  | .line l =>
    match nextIn (headerOf l) c (laneIdx a) with
    | some i => .lane (lineAddr a + BitVec.ofNat 64 (4 * i))
    | none => searchLines read c (lineAddr a + 32) 16

/-- The next owned lane of a context after an address, read as its fetch reads lines. -/
def State.nextLane (s : State) (g : Nat) (c : CtxId) (a : W64) : Search :=
  nextLaneBy (s.readLine g (s.aset g).codeTok) c a

/-- What the checks of a target find, in the order of R76. -/
inductive TargetCheck where
  | ok | ftgt | fhdr (w : W32) | stall (h : Hold) | stale
  deriving DecidableEq, Repr

/-- The checks of a branch target, an entry lane or a handler for a context (R71, R76, R93, R96). -/
def State.checkTarget (s : State) (g : Nat) (c : CtxId) (a : W64) : TargetCheck :=
  if misLane a then .ftgt
  else
    match s.readLine g (s.aset g).codeTok (lineAddr a).toNat with
    | .stall h => .stall h
    | .stale => .stale
    | .line l =>
      if headerBad (headerOf l) then .fhdr (headerOf l)
      else if owns (headerOf l) c (laneIdx a) then .ok else .ftgt

/-! ### Taking an exception and returning from one (R91 to R96) -/

/-- Trap causes (R91). -/
inductive Cause where
  | ill | fhdr | ftgt | fstv | ecall | ebrk | priv | tnm | trt | tlen | tpt | wdog | ggrd | gtrn | gstl | gsmd
  | cpeel | barc | revk | timer | host
  deriving DecidableEq, Repr

/-- The code of a cause (R91). -/
def Cause.code : Cause → Nat
  | .ill => 0x01 | .fhdr => 0x02 | .ftgt => 0x03 | .fstv => 0x04 | .ecall => 0x05 | .ebrk => 0x06 | .priv => 0x07
  | .tnm => 0x08 | .trt => 0x09 | .tlen => 0x0A | .tpt => 0x0B | .wdog => 0x0C | .ggrd => 0x10 | .gtrn => 0x11
  | .gstl => 0x12 | .gsmd => 0x13 | .cpeel => 0x18 | .barc => 0x19 | .revk => 0x20 | .timer => 0x30 | .host => 0x31

/-- The asynchronous causes (R92). -/
def Cause.isAsync : Cause → Bool
  | .revk | .timer | .host => true
  | _ => false

/-- tcause of a cause (R86). -/
def Cause.word (k : Cause) : W64 := BitVec.ofNat 64 ((if k.isAsync then 2 ^ 63 else 0) + k.code)

/-- Smudges a recording: the first smudge fixes the reason and drops its entries (R297). -/
def Recording.smudged (r : Recording) (reason : BitVec 3) : Recording :=
  if r.smudge == 0 then { r with smudge := reason, ent := [] } else r

/-- Smudges the recording of a core's set, if one is in progress. -/
def State.smudge (s : State) (g : Nat) (sid : Nat) (reason : BitVec 3) : State :=
  s.updCore g fun k => { k with rec_ := k.rec_.map fun r => if r.sid = sid then r.smudged reason else r }

/-- The halt of a context of the active set (R95): HALT, an event record and a notification. -/
def State.halt (s : State) (g : Nat) (c : CtxId) : State :=
  let t := s.aset g
  let x := nget t.ctx c
  let r := recHead s x.prin t.reqtag 0x01 c.val ++ leBytes 8 x.tcause.toNat ++ leBytes 8 x.tpc.toNat
  let s := (s.giveUp g x.hold.duePtes).updAct g fun t =>
    { t with haltedAny := match t.haltedAny with | none => some (s.clk, c) | h => h
             ctx := nset t.ctx c { nget t.ctx c with st := .halt, hold := .none } }
  (s.appendLog (g / 128) x.evptr r).notifyDie (g / 128)

/-- Every context of the active set halts: its code token is stale (R127). -/
def State.haltAll (s : State) (g : Nat) : State :=
  let s := if (s.ctx g 0).live then s.halt g 0 else s
  let s := if (s.ctx g 1).live then s.halt g 1 else s
  if (s.ctx g 2).live then s.halt g 2 else s

/-- The registers a trap writes (R93): tpc, tcause, tval, tstat and the mode; a hold at issue is abandoned (R92). -/
def Ctx.trapRegs (k : Cause) (val tpc : W64) (x : Ctx) : Ctx :=
  { x with
    tpc := tpc, tcause := k.word, tval := val
    tstat := ((if x.tstat.getLsbD 1 then 4#3 else 0) ||| (if x.sup then 1#3 else 0))
    sup := true, pc := x.tvec, seek := false, st := .run, hold := .none, waited := 0, paused := none, entering := false }

/-- A barrier wait that a trap or a switch-out abandons leaves its barrier pending (R228). The set records it for each of
its contexts apart (DESIGN CHOICE, log entry 54). -/
def Ctx.abandon (x : Ctx) : Ctx :=
  match x.hold with
  | .barrier true sc b _ => { x with barPend := x.barPend ||| (1#40 <<< (8 * (sc.code.toNat - 1) + b.toNat)) }
  | _ => x

/-- The gplay that a context holds at is the head of the galley queue. -/
def CtxSet.headPlay (t : CtxSet) (c : CtxId) : Bool :=
  match (nget t.ctx c).hold, t.gq.head? with
  | .result 2 n _, some e => e.num == n && (match e.instr with | .gplay .. => true | _ => false)
  | _, _ => false

/-- What a context's hold leaves in its set when it is abandoned (R92): the checks of a gplay end, and its entry, which
has no number yet, leaves the queue (R115, R299). -/
def CtxSet.abandonPlay (t : CtxSet) (c : CtxId) : CtxSet :=
  match (nget t.ctx c).hold with
  | .result 2 n _ =>
    { t with gcheck := if t.headPlay c then Option.none else t.gcheck
             gq := t.gq.filter fun e => e.num != n || (match e.instr with | .gplay .. => false | _ => true) }
  | _ => t

/-- The hold of a context of the active set at a gplay is abandoned: what its checks asked for is given up, and the core no
longer holds by what the gplay captured (R106). -/
def State.abandonPlay (s : State) (g : Nat) (c : CtxId) : State :=
  let t := s.aset g
  let s := if t.headPlay c then s.orphan g t.sid (· == .gal) else s
  let s := s.updAct g fun t => t.abandonPlay c
  match (nget t.ctx c).hold with
  | .result 2 _ _ => ((t.gq.map Entry.tokens).flatten).foldl (fun (s : State) k => s.released g k) s
  | _ => s

/-- TakeTrap (R93): a trap of a context of the active set before the instruction at tpc. The galley being recorded
is smudged (R296). A line whose header is bad because it could not be read is counted (R245). An unusable tvec halts the context (R95); when its line cannot be read yet, the check is made before
the first instruction of the handler. -/
def State.trap (s : State) (g : Nat) (c : CtxId) (k : Cause) (val tpc : W64) : State :=
  let t := (s.aset g).codeTok
  let s := if k == .fhdr then s.countFetch g t tpc.toNat else s
  let s := s.smudge g (s.aset g).sid 5
  let s := s.abandonPlay g c
  let s := s.updCtx g c fun x => x.abandon.trapRegs k val tpc
  match s.checkTarget g c (s.ctx g c).tvec with
  | .ok => s
  | .stall _ => s.updCtx g c fun x => { x with entering := true }
  | .stale => s.haltAll g
  | .ftgt => s.halt g c
  | .fhdr _ => (s.countFetch g t (s.ctx g c).tvec.toNat).halt g c

/-- A trap of the issuing context at its instruction. -/
def State.trapMe (s : State) (k : Cause) (val : W64) : State := s.trap s.curCore s.curCtx k val s.me.pc

/-- The first clk after the slot that a taken branch or a tret of a context leaves empty (R77). -/
def slotAfterJump (c : CtxId) (clk : Nat) : Nat := if c = 1 then clk + 2 else clk + 3

/-- The return from a trap (R96): the mode, ie and pie come back and the pc is tpc; a bad target traps FTGT before
any state changes. It leaves one slot empty (R77). -/
def State.trapReturn (s : State) : State :=
  let x := s.me
  match s.checkTarget s.curCore s.curCtx x.tpc with
  | .ok =>
    s.updMe fun x => { x with
      sup := x.tstat.getLsbD 0
      tstat := (x.tstat &&& 1#3) ||| (if x.tstat.getLsbD 2 then 2#3 else 0) ||| 4#3
      pc := x.tpc, seek := false, st := .run, hold := .none, waited := 0, slotAt := slotAfterJump s.curCtx s.clk }
  | .stall h => s.holdMe h
  | .stale => s.haltAll s.curCore
  | .ftgt | .fhdr _ => s.trapMe .ftgt x.tpc

/-- A cause pending in a context and takeable now, in the order of R92: its tval and the causes left pending. -/
def Ctx.takeable (x : Ctx) : Option (Cause × W64 × Pend) :=
  match x.pend.withdraw with
  | some e => some (.revk, BitVec.setWidth 64 e, { x.pend with withdraw := none, queues := [] })
  | none =>
    if x.sup && !x.tstat.getLsbD 1 then none
    else
      match x.pend.overrun, x.pend.host with
      | some e, _ => some (.revk, 1#64 <<< 63 ||| BitVec.setWidth 64 e, { x.pend with overrun := none })
      | none, n :: rest => some (.host, BitVec.setWidth 64 n, { x.pend with host := rest })
      | none, [] => if x.pend.timer then some (.timer, 0, { x.pend with timer := false }) else none

/-- The privilege check of a supervisor instruction (R35): PRIV in user mode, with the instruction word in tval. -/
def privileged (i : Instr) (s : State) (act : State → Out) : Out :=
  if s.me.sup then act s
  else .next (s.trapMe .priv (match encode i with | some (_, w) => BitVec.setWidth 64 w | none => 0))

end Sys2Proof.Machine
end

