-- ==== Sys2Proof/Machine/Flags.lean ====
section
/-! DEFINITION. Sys2Proof/Machine/Flags.lean: the bits of mstat (R84), the patch tags of results (R97, R98), poison marks
of results (R328), and the field rules of the CSRs (R83 to R89). -/

namespace Sys2Proof.Machine

/-! ### mstat (R84) -/

def mXld : BitVec 8 := 0x01
def mXst : BitVec 8 := 0x02
def mDnr : BitVec 8 := 0x04
def mDnw : BitVec 8 := 0x08
def mRgt : BitVec 8 := 0x10
def mStray : BitVec 8 := 0x20
def mPsn : BitVec 8 := 0x40
def mWdr : BitVec 8 := 0x80

/-- The mstat bit of a failing read byte (R119). -/
def ByteFail.readBit : ByteFail → BitVec 8
  | .beyond => mXld | .rgt => mRgt | .denied => mDnr
/-- The mstat bit of a failing write byte (R119). -/
def ByteFail.writeBit : ByteFail → BitVec 8
  | .beyond => mXst | .rgt => mRgt | .denied => mDnw
/-- The mstat bits of the first failing byte of an operation that reads and writes (R119). -/
def ByteFail.bothBits (f : ByteFail) : BitVec 8 := f.readBit ||| f.writeBit

/-! ### Patch tags (R98) -/

/-- The tag of an x register as R98 and R99 apply it: a slot rejected by gpatch counts as opaque (R103). -/
def State.tagOf (s : State) (r : XReg) : Tag :=
  if r = 0 then .plain
  else
    match vget s.me.tag r with
    | .patched sl d =>
      match (s.core s.curCore).rec_ with
      | some rc => if rc.rejected.getLsbD sl.toNat then .opq else .patched sl d
      | none => .patched sl d
    | t => t

/-- The tag of a result that only its operands' kinds decide: volatile, plain or opaque (R98). -/
def anyTag (l : List Tag) : Tag :=
  if l.any (· == .vol) then .vol else if l.all (· == .plain) then .plain else .opq

/-- A patched tag with its delta moved by an integer; opaque when it leaves the signed 48-bit range (R98). -/
def moveTag (sl : BitVec 4) (d : BitVec 48) (by_ : Int) : Tag :=
  let n := d.toInt + by_
  if -(2 ^ 47) ≤ n && n < 2 ^ 47 then .patched sl (BitVec.ofInt 48 n) else .opq

/-- The tag of a sum (R98). -/
def addTag (ta tb : Tag) (va vb : W64) : Tag :=
  match ta, tb with
  | .patched sl d, .plain => moveTag sl d vb.toInt
  | .plain, .patched sl d => moveTag sl d va.toInt
  | _, _ => anyTag [ta, tb]

/-- The tag of a difference (R98). -/
def subTag (ta tb : Tag) (vb : W64) : Tag :=
  match ta, tb with
  | .patched sl d, .plain => moveTag sl d (-vb.toInt)
  | _, _ => anyTag [ta, tb]

/-! ### Poison consumption (R328) -/

/-- The die and queue of the card of a set. -/
def State.queueOf (s : State) (t : CtxSet) : Option (Fin 8 × BitVec 6) :=
  match t.card with
  | some n => (fget s.cards n).map fun c => (c.die, c.queue)
  | none => none

/-- Records that poison was consumed by the work of a set of a core: POISON_CONSUME starts the purge. -/
def State.consume (s : State) (g : Nat) (t : CtxSet) (off : W64) : State :=
  { s with poisonHits := s.poisonHits ++ [{ core := g, tag := t.reqtag, off := off, queue := s.queueOf t }] }

/-- Consumes a marked x register of the issuing context, used as a pointer, branch operand or engine operand. -/
def State.useX (s : State) (r : XReg) : State :=
  if s.me.marked r then s.consume s.curCore s.mySet 0 else s

/-- Any of some x registers is marked. -/
def State.anyMarked (s : State) (l : List XReg) : Bool := l.any s.me.marked

/-! ### CSRs (R83 to R89) -/

/-- The supervisor CSRs (R83). -/
def csrSup : CsrName → Bool
  | .tvec | .tcause | .tval | .tpc | .tstat | .tscratch | .wdog | .occtmo | .prin | .clrptr | .evptr => true
  | _ => false

/-- The value a CSR reads in the issuing context. -/
def csrRead (s : State) (c : CsrName) : W64 :=
  let x := s.me
  let t := s.mySet
  match c with
  | .cycle => s.cycle
  | .coreid => BitVec.ofNat 64 (s.curCore % 128)
  | .quadid => BitVec.ofNat 64 (s.curCore % 128 / 4)
  | .dieid => BitVec.ofNat 64 (s.curCore / 128 % 8)
  | .pkgid => BitVec.setWidth 64 s.pkgid
  | .rank => BitVec.setWidth 64 t.rank
  | .gsize => BitVec.setWidth 64 t.gsize
  | .ctxid => BitVec.ofNat 64 s.curCtx.val
  | .reqtag => BitVec.setWidth 64 t.reqtag
  | .tenant => BitVec.setWidth 64 t.tenant
  | .vrnd => BitVec.setWidth 64 x.vrnd
  | .fstat => BitVec.setWidth 64 x.fstat
  | .mstat => BitVec.setWidth 64 x.mstat
  | .srst => BitVec.setWidth 64 x.srst
  | .tvec => x.tvec
  | .tcause => x.tcause
  | .tval => x.tval
  | .tpc => x.tpc
  | .tstat => BitVec.setWidth 64 x.tstat
  | .tscratch => x.tscratch
  | .wdog => BitVec.setWidth 64 x.wdog
  | .occtmo => BitVec.setWidth 64 x.occtmo
  | .prin => BitVec.setWidth 64 x.prin
  | .clrptr => x.clrptr
  | .evptr => x.evptr

/-- Writes a whole CSR under the field rules of its map: reserved bits ignore writes, a mode of 5 to 7 leaves vrnd
unchanged (R64), a zero state stores the reset state of srst (R62). -/
def csrWrite (c : CsrName) (v : W64) (x : Ctx) : Ctx :=
  match c with
  | .vrnd => if v.toNat % 8 ≤ 4 then { x with vrnd := v.setWidth 3 } else x
  | .fstat => { x with fstat := v.setWidth 5 }
  | .mstat => { x with mstat := v.setWidth 8 }
  | .srst => { x with srst := if v.setWidth 32 = 0 then 0x13579BDF else v.setWidth 32 }
  | .tvec => { x with tvec := v }
  | .tcause => { x with tcause := v &&& 0x80000000000000FF }
  | .tval => { x with tval := v }
  | .tpc => { x with tpc := v }
  | .tstat => { x with tstat := v.setWidth 3 }
  | .tscratch => { x with tscratch := v }
  | .wdog => { x with wdog := v.setWidth 32 }
  | .occtmo => { x with occtmo := v.setWidth 32 }
  | .prin => { x with prin := v.setWidth 32 }
  | .clrptr => { x with clrptr := v &&& 0x0007FFFFFFFFFE00 }
  | .evptr => { x with evptr := v &&& 0x0007FFFFFFFFFFC0 }
  | .cycle | .coreid | .quadid | .dieid | .pkgid | .rank | .gsize | .ctxid | .reqtag | .tenant => x

/-- The value a CSR instruction writes, and whether it writes (R40): the source is a register value or an
immediate. -/
def csrNext (op : CsrOp) (old src : W64) (srcZero : Bool) : Option W64 :=
  match op with
  | .rw | .rwi => some src
  | .rs | .rsi => if srcZero then none else some (old ||| src)
  | .rc | .rci => if srcZero then none else some (old &&& ~~~src)

end Sys2Proof.Machine
end

