-- ==== Sys2Proof/Machine/Operands.lean ====
section
/-! DEFINITION. Sys2Proof/Machine/Operands.lean: the operand forms: generic pointers (R80, R81), the elements of vector
registers and masks (R157 to R160), and the packed memory image of a register (R55, R157). -/

namespace Sys2Proof.Machine

/-! ### Generic pointers -/

/-- A generic pointer as R80 and R81 read it: a vault offset of a core, an offset of a token with the policy, or
stray. -/
inductive Ptr where
  | vault (g : Nat) (off : Nat)
  | token (pol : Nat) (k : KReg) (off : Nat)
  | stray
  deriving DecidableEq, Repr

/-- A core holds a party, resident or saved, of a card (R81). -/
def Core.holdsCard (k : Core) (card : Nat) : Bool :=
  k.set.toList.any (fun t => t.card == some card) || k.slots.any fun e => e.2.card == some card

/-- A lateral pointer of a set may reach the vault of a core of its die (R81): its own core, or one bound to a party
of the same card. -/
def State.lateralOk (s : State) (g : Nat) (t : CtxSet) (g' : Nat) : Bool :=
  g' == g || (match t.card with
    | some n => (s.core g').holdsCard n
    | none => false)

/-- Reads a pointer for a set of core g. The valid bit of a token pointer is the caller's: it tests its k register or
captured copy. -/
def State.ptr (s : State) (g : Nat) (t : CtxSet) (p : W64) : Ptr :=
  match (p.extractLsb' 60 4).toNat with
  | 0 => if p.extractLsb' 21 39 == 0 then .vault g (p.extractLsb' 0 21).toNat else .stray
  | 1 =>
    let g' := 128 * (g / 128) + (p.extractLsb' 52 7).toNat
    if p.getLsbD 59 || p.extractLsb' 21 31 != 0 then .stray
    else if s.lateralOk g t g' then .vault g' (p.extractLsb' 0 21).toNat else .stray
  | 2 =>
    if p.extractLsb' 48 4 != 0 || 4 ≤ (p.extractLsb' 56 4).toNat then .stray
    else .token (p.extractLsb' 56 4).toNat (p.extractLsb' 52 4) (p.extractLsb' 0 48).toNat
  | _ => .stray

/-- The policy by which an access through a token acts: on a host extent every policy acts as 0 (R133). -/
def Token.policy (t : Token) (pol : Nat) : Nat := if t.host then 0 else pol

/-- The token that a captured x operand names as a pointer in space 0x2: a copy of its k register (R123). -/
def captureTok (t : CtxSet) (p : W64) : Option Token :=
  if p.extractLsb' 60 4 == 2 then some (vget t.k (p.extractLsb' 52 4 : BitVec 4)) else none

/-- The path of a token access by its policy and the attributes of its extent (R80, R132, R133). -/
def tokenPath (pol : Nat) (t : Token) : Path :=
  if t.ms || t.host then .direct
  else
    match pol with
    | 1 => .l2
    | 2 => .ro
    | _ => .l1

/-- The rights a read needs (R120). -/
def readRights (pol : Nat) : BitVec 4 := if pol == 2 then 9 else 1

/-! ### Elements (R49, R157) -/

/-- N(ty): the elements of a register (R157). -/
def elemCount : ElemTy → Nat
  | .i8 | .e4m3 | .e5m2 | .l6 => 256
  | .bf16 => 128
  | .i32 | .f32 => 64

/-- The bytes of the memory image of a register (R157). -/
def imageSize : ElemTy → Nat
  | .l6 => 192
  | _ => 256

/-- Bits of element i of width w of a register, as a number. -/
def lane (v : BitVec 2048) (w i : Nat) : Nat := (v.toNat >>> (w * i)) % 2 ^ w

/-- The register with the lane replaced by the low w bits of a number. -/
def setLane (v : BitVec 2048) (w i n : Nat) : BitVec 2048 :=
  let m : BitVec 2048 := BitVec.ofNat 2048 ((2 ^ w - 1) <<< (w * i))
  (v &&& ~~~m) ||| BitVec.ofNat 2048 ((n % 2 ^ w) <<< (w * i))

/-- Elem(v, t, i): the bits of an element; bits [7:6] of an l6 element are ignored (R55). -/
def elem (v : BitVec 2048) (t : ElemTy) (i : Nat) : Nat :=
  match t with
  | .l6 => lane v 8 i % 64
  | _ => lane v (elemWidth t) i

/-- Writes an element; an l6 element has bits [7:6] 0 (R55). -/
def setElem (v : BitVec 2048) (t : ElemTy) (i n : Nat) : BitVec 2048 :=
  match t with
  | .l6 => setLane v 8 i (n % 64)
  | _ => setLane v (elemWidth t) i n

/-- The register whose lanes of width w are a list of numbers, from lane 0. -/
def packLanes (w : Nat) (l : List Nat) : BitVec 2048 :=
  BitVec.ofNat 2048 (l.foldr (fun n acc => n % 2 ^ w + 2 ^ w * acc) 0)

/-- A poison mark of element i: any of its bytes is marked. -/
def elemMarked (m : BitVec 256) (t : ElemTy) (i : Nat) : Bool :=
  let n := elemWidth t / 8
  (List.range n).any fun j => m.getLsbD (n * i + j)

/-- Marks or clears the bytes of element i. -/
def markElem (m : BitVec 256) (t : ElemTy) (i : Nat) (p : Bool) : BitVec 256 :=
  let n := elemWidth t / 8
  let bitsOf : BitVec 256 := BitVec.ofNat 256 ((2 ^ n - 1) <<< (n * i))
  if p then m ||| bitsOf else m &&& ~~~bitsOf

/-- The bits of a mask: m0 reads as all ones (R158). -/
def CtxSet.mask (t : CtxSet) (m : MReg) : BitVec 256 := if m = 0 then BitVec.allOnes 256 else vget t.m m

/-- Writes a mask; m0 is never written (R43). -/
def CtxSet.setMask (t : CtxSet) (m : MReg) (v : BitVec 256) : CtxSet :=
  if m = 0 then t else { t with m := vset t.m m v }

/-- A sign-extended 5-bit immediate of w bits (R160). -/
def imm5 (w : Nat) (i : BitVec 5) : Nat := (i.signExtend w).toNat

/-- The element operand of form vv, vx or vi at element i (R160). -/
def CtxSet.elemOperand (t : CtxSet) (ty : ElemTy) (s2 : VSrc) (x : W64) (i : Nat) : Nat :=
  match s2 with
  | .vv r => elem (vget t.v r) ty i
  | .vx _ => x.toNat % 2 ^ elemWidth ty
  | .vi im => imm5 (elemWidth ty) im

/-- The count operand of a shift at element i (R169): unsigned, an immediate zero-extended. -/
def CtxSet.countOperand (t : CtxSet) (ty : ElemTy) (s2 : VSrc) (x : W64) (i : Nat) : Nat :=
  match s2 with
  | .vv r => elem (vget t.v r) ty i
  | .vx _ => x.toNat % 2 ^ elemWidth ty
  | .vi im => im.toNat

/-- The bytes that element i takes in the memory image: first byte and how many (R55, R157, R177). -/
def imageBytes (t : ElemTy) (i : Nat) : Nat × Nat :=
  match t with
  | .l6 =>
    let b := 3 * (i / 4)
    match i % 4 with
    | 0 => (b, 1) | 1 => (b, 2) | 2 => (b + 1, 2) | _ => (b + 2, 1)
  | _ => (elemWidth t / 8 * i, elemWidth t / 8)

/-- The bit offset of an l6 code in its first image byte (R55). -/
def l6Shift (i : Nat) : Nat := (6 * i) % 8

/-- The element read from its image bytes as a little-endian number. -/
def elemOfImage (t : ElemTy) (i : Nat) (n : Nat) : Nat :=
  match t with
  | .l6 => (n >>> l6Shift i) % 64
  | _ => n

/-- The image bytes of an element, over what they held: only an l6 code keeps bits of the old bytes (R177). -/
def imageOfElem (t : ElemTy) (i : Nat) (e old : Nat) : Nat :=
  match t with
  | .l6 => old - ((old >>> l6Shift i) % 64) <<< l6Shift i + (e % 64) <<< l6Shift i
  | _ => e

end Sys2Proof.Machine
end

