-- ==== Sys2Proof/Machine/Access.lean ====
section
/-! DEFINITION. Sys2Proof/Machine/Access.lean: how an access reaches its bytes: failures (R240, R244), sources of a load (R253, R256), the store buffer (R253), remote requests (R236, R239), denial records (R121) and the
status space (R245, R345). -/

namespace Sys2Proof.Machine

/-! ### Failed requests (R221, R240, R245) -/

/-- Adds the failure of a request to a context's failure record (R221, R240). -/
def State.failOf (s : State) (w : Who) (f : Fate) : State :=
  match f with
  | .ok => s
  | .dead => s.addFail w false false false true
  | .refused => s.addFail w false false true false
  | .lost _ => s.addFail w false true false false

/-- The failure record of one failed request. -/
def Fate.record (f : Fate) : FailRec :=
  match f with
  | .ok => {}
  | .dead => FailRec.add {} false false false true
  | .refused => FailRec.add {} false false true false
  | .lost _ => FailRec.add {} false true false false

/-- A choice the spec leaves to the hardware: the head of the oracle, 0 when it is empty (log entry 2). -/
def State.choose (s : State) : Nat × State :=
  match s.oracle with
  | [] => (0, s)
  | n :: r => (n, { s with oracle := r })

/-! ### Transaction tags and requests (R236, R239) -/

/-- The number of transaction tags of a die. -/
def tagCount : Nat := 4096

/-- The lowest tag that is free, at or after n. -/
def freeTag (used : List Nat) : Nat → Nat → Nat
  | 0, n => n
  | f + 1, n => if used.contains n then freeTag used f (n + 1) else n

/-- A die has a free tag. -/
def State.hasTag (s : State) (d : Nat) : Bool := (s.die d).tags.length < tagCount

/-- A die has n free tags. -/
def State.hasTags (s : State) (d n : Nat) : Bool := (s.die d).tags.length + n ≤ tagCount

/-- Sends a request under a fresh tag on the route of its line (R235, R239). -/
def State.send (s : State) (w : Who) (reqtag : W16) (what : ReqWhat) (line home : Nat)
    (pte : Option (BitVec 20)) (ms host : Bool) : Nat × State :=
  let d := w.g / 128
  let dd := s.die d
  let t := freeTag dd.tags dd.tags.length 0
  let r : Req :=
    { core := w.g, sid := w.sid, ctx := w.c, reqtag := reqtag, what := what, line := line, home := home
      tag := t, inc := (fget dd.inc t).getD 0, first := s.clk, pte := pte, ms := ms, host := host
      route := (s.routeOf d home (64 * line)).getD {} }
  let s := s.updDie d fun x =>
    { x with tags := insertNat x.tags t, tagMax := max x.tagMax (x.tags.length + 1) }
  (s.nextId, { s with reqs := fset s.reqs s.nextId r, nextId := s.nextId + 1 })

/-- Frees the tag of a request (R239). -/
def State.freeTagOf (s : State) (r : Req) : State :=
  s.updDie (r.core / 128) fun x => { x with tags := x.tags.filter (· != r.tag) }

/-- A request asks its home for a write, an atomic, a cas or half of an stf (R238). -/
def ReqWhat.writes : ReqWhat → Bool
  | .read _ | .status _ | .eng _ false _ => false
  | .eng _ true _ | .store _ | .op _ => true

/-- What an engine does under a key sends its writes after it has begun: a granule, when its data has come. -/
def XKey.late : XKey → Bool
  | .granule _ => true
  | _ => false

/-- The core has a write-class request in flight to a remote line (R238), or an engine of it has still to end what it does with
one. -/
def State.writing (s : State) (g line : Nat) : Bool :=
  (s.reqs.any fun e => e.2.core == g && e.2.line == line && !e.2.dropped && e.2.what.writes && e.2.pos != .held) ||
  (s.core g).xfers.any fun x => !x.key.late && x.lines.any fun y => y.write && y.line = line

/-- Byte i of a copy, with its poison. -/
def Copy.byte (c : Copy) (i : Nat) : Byte × Bool := (c.data.extractLsb' (8 * i) 8, c.pois.getLsbD (i / 8))

/-! ### Line requests of the engines (R236 to R240) -/

/-- What became of an engine's accesses: its line requests, and the bytes of its own die that it has read. -/
structure Fates where
  lines : List XLine := []
  got : List (Nat × Byte × Bool) := []
  deriving DecidableEq, Repr

/-- The request for a line. -/
def Fates.find (l : Fates) (line : Nat) (write : Bool) : Option XLine :=
  l.lines.find? fun x => x.line = line && x.write == write

/-- The byte at a location as the request of its line brought it, as it has been read, or as its home holds it. -/
def State.answeredByte (s : State) (l : Fates) (loc : Nat) : Byte × Bool :=
  match (l.find (loc / 64) false).bind (·.data) with
  | some c => c.byte (loc % 64)
  | none =>
    match l.got.find? fun b => b.1 = loc with
    | some b => b.2
    | none => (s.mem.get loc, s.poisoned loc)

/-- The fate of an engine's access to a location: what became of its line's request, or what the address decides. -/
def State.fateOf (s : State) (l : Fates) (g loc : Nat) (write : Bool) (v : Via) : Fate :=
  match l.find (loc / 64) write with
  | some x => x.fate.getD .ok
  | none => s.addrFate g loc v

/-- A line that an engine requests from its home: its direction, the entry that it names, whether its line is pinned there (R194),
where a line that is read is installed (R241, R267), and the bytes to be written; a write without them asks for a read and write at
the home. -/
structure Want where
  line : Nat
  write : Bool
  home : Nat
  pte : Option (BitVec 20) := none
  host : Bool := false
  pin : Bool := false
  install : Option Nat := none
  bytes : List (Nat × Byte × Bool) := []
  deriving DecidableEq, Repr

/-- What an engine issues for one action: its line requests, the locations of its own die that it reads, the bytes that it writes
there, the locations that the action itself reads and writes, and the entries that it is counted on (R123). -/
structure Plan where
  want : List Want := []
  reads : List Nat := []
  writes : List (Nat × Byte × Bool) := []
  mods : List Nat := []
  ptes : List (BitVec 20) := []
  deriving DecidableEq, Repr

/-- The request of a line that another plan asks for too is sent once (R236), and pins the line if either does (R194). -/
def Want.also (l : List Want) (x : Want) : Want :=
  { x with pin := x.pin || l.any fun y => y.line = x.line && y.write == x.write && y.pin }

/-- Two plans joined. -/
def Plan.join (p q : Plan) : Plan :=
  { want := p.want.map (Want.also q.want) ++ q.want.filter fun y => !p.want.any fun x => x.line = y.line && x.write == y.write
    reads := p.reads ++ q.reads, writes := p.writes ++ q.writes, mods := p.mods ++ q.mods, ptes := (p.ptes ++ q.ptes).dedup }

/-- The locations of an access that do not fail by their address. -/
def State.alive (s : State) (g : Nat) (v : Via) (locs : List Nat) : List Nat := locs.filter fun l => s.addrFate g l v == .ok

/-- The lines of some remote locations, each once. -/
def State.awayLines (s : State) (g : Nat) (v : Via) (locs : List Nat) : List Nat :=
  ((locs.filter fun l => s.remote g l v).map (· / 64)).dedup

/-- The plan of an engine's read of some locations through an extent (R236). -/
def State.readPlan (s : State) (g : Nat) (v : Via) (pte : Option (BitVec 20)) (locs : List Nat) (pin : Bool := false)
    (install : Option Nat := none) : Plan :=
  let locs := s.alive g v locs
  { want := (s.awayLines g v locs).map fun x =>
      { line := x, write := false, home := s.homeDie (64 * x) v, pte := pte, host := v.host, pin := pin, install := install }
    reads := if pin then [] else locs.filter fun l => !s.remote g l v
    ptes := pte.toList }

/-- The plan of an engine's write of some bytes through an extent (R236). -/
def State.writePlan (s : State) (g : Nat) (v : Via) (pte : Option (BitVec 20)) (bytes : List (Nat × Byte × Bool)) : Plan :=
  let bytes := bytes.filter fun b => s.addrFate g b.1 v == .ok
  { want := (s.awayLines g v (bytes.map (·.1))).map fun x =>
      { line := x, write := true, home := s.homeDie (64 * x) v, pte := pte, host := v.host
        bytes := bytes.filter fun b => b.1 / 64 = x }
    writes := bytes.filter fun b => !s.remote g b.1 v
    ptes := pte.toList }

/-- The plan of an engine's read and write of some locations as one operation at their homes (R208, R278). -/
def State.modPlan (s : State) (g : Nat) (v : Via) (pte : Option (BitVec 20)) (locs : List Nat) : Plan :=
  let locs := s.alive g v locs
  { want := (s.awayLines g v locs).map fun x =>
      { line := x, write := true, home := s.homeDie (64 * x) v, pte := pte, host := v.host }
    mods := locs
    ptes := pte.toList }

/-- What an engine of a set has issued under a key. -/
def Core.xfer (k : Core) (sid : Nat) (key : XKey) : Option Xfer := k.xfers.find? fun x => x.sid == sid && x.key == key

/-- An engine of the set has issued what it does under a key (R123). -/
def State.begun (s : State) (g sid : Nat) (key : XKey) : Bool := ((s.core g).xfer sid key).isSome

/-- Replaces what an engine of a set has issued under a key. -/
def State.setXfer (s : State) (g sid : Nat) (key : XKey) (x : Option Xfer) : State :=
  s.updCore g fun k => { k with xfers := (k.xfers.filter fun y => !(y.sid == sid && y.key == key)) ++ x.toList }

/-- A write of an engine has still to be performed at one of some locations, as independent bytes (R249). -/
def State.halfWritten (s : State) (locs : List Nat) : Bool :=
  (s.cores.any fun e => e.2.xfers.any fun x => x.put.any fun b => locs.contains b.1) ||
  s.reqs.any fun e => e.2.pos == .home [] [] && e.2.bytes.any fun b => locs.contains b.1

/-- Sends the request of a line for an engine (R236). -/
def State.sendLine (s : State) (w : Who) (reqtag : W16) (key : XKey) (x : Want) : XLine × State :=
  let (id, s) := s.send w reqtag (.eng key x.write x.install) x.line x.home none false x.host
  let s := match fget s.reqs id with
    | some r => { s with reqs := fset s.reqs id { r with bytes := x.bytes } }
    | none => s
  ({ line := x.line, write := x.write, req := id, pin := x.pin, pte := x.pte }, s)

/-- Sends the requests of some lines. -/
def State.sendLines (s : State) (w : Who) (reqtag : W16) (key : XKey) : List Want → List XLine × State
  | [] => ([], s)
  | x :: l =>
    let (y, s) := s.sendLine w reqtag key x
    let (ys, s) := s.sendLines w reqtag key l
    (y :: ys, s)

/-- The request of an engine's line ends with a fate, and a read with the line. -/
def State.lineFate (s : State) (g sid id : Nat) (key : XKey) (f : Fate) (data : Option Copy) : State :=
  s.setXfer g sid key (((s.core g).xfer sid key).map fun x =>
    { x with lines := x.lines.map fun y => if y.req = id then { y with fate := some f, data := data } else y })

/-! ### Copies of lines -/

/-- A 64-byte line as its home holds it. -/
def State.lineCopy (s : State) (line : Nat) : Copy :=
  { data := BitVec.ofNat 512 (s.readNat (64 * line) 64)
    pois := BitVec.ofNat 8 ((List.range 8).foldl (fun a i => if s.poisoned (64 * line + 8 * i) then a + 2 ^ i else a) 0) }

/-- The byte at a location as its home holds it. -/
def State.homeByte (s : State) (loc : Nat) : Byte × Bool := (s.mem.get loc, s.poisoned loc)

/-- The byte of a store buffer entry at a location, with its mark. -/
def StoreEnt.byteAt (e : StoreEnt) (loc : Nat) : Option (Byte × Bool) :=
  (e.bytes.find? fun b => b.1 = loc).map fun b => (b.2, e.poison || e.marks.contains loc)

/-- The youngest store buffer entry holding a byte (R253), among those numbered up to a given number. -/
def Core.forward (k : Core) (loc : Nat) (seq : Option Nat := none) : Option (Byte × Bool) :=
  k.sb.reverse.findSome? fun e => if (seq.getD e.seq) < e.seq then none else e.byteAt loc

/-- Installs a line in a core's L1 (R256): unowned, but for the words that the core owns, which the home forwards. -/
def State.installL1 (s : State) (g line : Nat) (c : Copy) : State :=
  s.updCore g fun k => { k with l1 := fset k.l1 line { c with
    words := 0xFF, own := ((fget k.l1 line).map (·.own)).getD 0 } }

/-- A core's L1 discards the word of a location, unless it owns it: the home has been read (R257). -/
def State.dropStale (s : State) (g loc : Nat) : State :=
  match fget (s.core g).l1 (loc / 64) with
  | none => s
  | some c => s.updCore g fun k => { k with l1 := dropWords k.l1 (loc / 64) (wordBit loc &&& ~~~c.own) }

/-- A core's L1 discards the words of a line that it does not own. -/
def State.dropUnowned (s : State) (g line : Nat) : State :=
  match fget (s.core g).l1 line with
  | none => s
  | some c => s.updCore g fun k => { k with l1 := dropWords k.l1 line (~~~c.own) }

/-- The line of an L1 that holds the word of a location (R253, R256). -/
def Core.l1Word (k : Core) (loc : Nat) : Option Copy :=
  (fget k.l1 (loc / 64)).filter fun c => c.words &&& wordBit loc != 0

/-- Adds a die to the sharers of a line (R242). -/
def Sharers.add (v : Sharers) (home die : Nat) : Sharers :=
  let grp (n : Nat) : W16 := 1#16 <<< (n / 16)
  if v.coarse then { v with bits := v.bits ||| grp die }
  else if die / 16 == home / 16 then { v with bits := v.bits ||| (1#16 <<< (die % 16)) }
  else { coarse := true, bits := (if v.bits == 0 then 0 else grp home) ||| grp die }

/-- The dies that a sharer vector names (R242). -/
def Sharers.dies (v : Sharers) (home : Nat) : List Nat :=
  if v.coarse then (List.range 256).filter fun d => v.bits.getLsbD (d / 16)
  else (List.range 16).filterMap fun i => if v.bits.getLsbD i then some (16 * (home / 16) + i) else none

/-- Installs a shared copy of a remote line in a die's L2 and names the die in the home's vector (R241, R242). -/
def State.installL2 (s : State) (d line : Nat) (c : Copy) : State :=
  let home := locDie s (64 * line)
  let s := s.updDie d fun x => { x with l2 := fset x.l2 line c }
  { s with sharers := fset s.sharers line (((fget s.sharers line).getD {}).add home (s.pkgid.toNat * 8 + d % 8)) }

/-- The quad of a core in the package. -/
def quadOf (g : Nat) : Nat := g / 4

/-- The line of a quad's read-only path cache. -/
def State.roLine (s : State) (g line : Nat) : Option Copy := fget ((fget s.ro (quadOf g)).getD []) line

/-- Installs a line in a quad's read-only path cache (R267). -/
def State.installRo (s : State) (g line : Nat) (c : Copy) : State :=
  { s with ro := fset s.ro (quadOf g) (fset ((fget s.ro (quadOf g)).getD []) line c) }

/-! ### One byte of a load by an agent of the core (R253, R256) -/

/-- What a byte of a load found so far: the state, the byte, and what became of the access's lines that no copy answers:
the request sent for each, or 0 for one that failed (R236). -/
abbrev ByteRead := State × LdByte × List (Nat × Nat)

/-- Poisoned zeros (R240). -/
def poisonZero : LdByte := .val 0 true

/-- A line read by policy 1 replaces an unowned copy in the core's L1 (R256). -/
def State.again (s : State) (g line : Nat) (c : Copy) : State :=
  match fget (s.core g).l1 line with
  | some _ => s.installL1 g line c
  | none => s

/-- What a load byte finds without its home (R253, R256, R241, R267): a copy of its line on the path, with the state after
it is read. -/
def State.fromCopy (s : State) (g : Nat) (path : Path) (loc : Nat) : Option (Copy × State) :=
  let k := s.core g
  let line := loc / 64
  let l2 := if s.remote g loc then fget (s.die (g / 128)).l2 line else none
  match path with
  | .vault | .direct => none
  | .ro => (s.roLine g line).map fun c => (c, s)
  | .l1 => match k.l1Word loc with
    | some c => some (c, s)
    | none => l2.map fun c => (c, s.installL1 g line c)
  | .l2 => l2.map fun c => (c, s.again g line c)

/-- What reading a line at its home on the path leaves in the copies of the core (R256, R257, R267), and in its home slice
(R242). -/
def State.afterHome (s : State) (g : Nat) (path : Path) (loc : Nat) : State :=
  let line := loc / 64
  match path with
  | .vault => s
  | .direct => s.dropStale g loc
  | .ro => (s.homeRead line).installRo g line (s.lineCopy line)
  | .l1 => (s.homeRead line).installL1 g line (s.lineCopy line)
  | .l2 => (s.homeRead line).again g line (s.lineCopy line)

/-- Where a remote line is installed when its home answers. -/
def Path.install : Path → Nat
  | .vault | .direct => 0
  | .l1 => 1
  | .l2 => 2
  | .ro => 3

/-- A byte that no copy answers: it is read at its home, or a request goes to a remote one, one for each line of the
access (R236), or the line fails (R240). A byte of the core's die may be left for later (R249): it is counted on its entry until
then (R123). -/
def State.missByte (s : State) (w : Who) (reqtag : W16) (path : Path) (loc : Nat) (t : Option Token)
    (mine : List (Nat × Nat)) (later : Bool) : ByteRead :=
  let v := s.via w.g t
  match mine.find? fun m => m.1 = loc / 64 with
  | some (_, 0) => (s, poisonZero, mine)
  | some (_, id) => (s, .req id (loc % 64), mine)
  | none =>
    match s.addrFate w.g loc v with
    | .ok =>
      let s' := match t with
        | some t => s.flyIn (w.g / 128) t.pte
        | none => s
      if s.remote w.g loc v then
        let (id, s) := s'.send w reqtag (.read path.install) (loc / 64) (s.homeDie loc v) (t.map (·.pte))
          (match t with | some t => t.ms | none => false) v.host
        (s, .req id (loc % 64), (loc / 64, id) :: mine)
      else if later then (s', .due loc path t, mine)
      else (s.afterHome w.g path loc, .val (s.homeByte loc).1 (s.homeByte loc).2, mine)
    | f => (s.countFate w.g f, poisonZero, (loc / 64, 0) :: mine)

/-- What a byte of a load finds without its home: the store buffer, but for the read-only path, and then a copy on its path (R253,
R256). An access that its address refuses finds nothing (R233). -/
def State.nearByte (s : State) (g : Nat) (path : Path) (v : Via) (loc : Nat) (seq : Option Nat := none) :
    Option ((Byte × Bool) × State) :=
  if s.addrFate g loc v == .refused then none
  else
    match if path == .ro then none else (s.core g).forward loc seq with
    | some p => some (p, s)
    | none => (s.fromCopy g path loc).map fun x => (x.1.byte (loc % 64), x.2)

/-- One byte of a scalar load at a location on a path (R253, R256, R241, R267). -/
def State.loadByte (s : State) (w : Who) (reqtag : W16) (path : Path) (loc : Nat) (t : Option Token)
    (mine : List (Nat × Nat)) (later : Bool := false) : ByteRead :=
  match s.nearByte w.g path (s.via w.g t) loc with
  | some (p, s) => (s, .val p.1 p.2, mine)
  | none => s.missByte w reqtag path loc t mine later

/-- A byte of a load that was left for later is read at its home, and its count is to fall (R124). -/
def State.dueByte (s : State) (g : Nat) (path : Path) (loc : Nat) (t : Option Token) : State × LdByte :=
  ((s.afterHome g path loc).performedPte (g / 128) (t.map (·.pte)), .val (s.homeByte loc).1 (s.homeByte loc).2)

/-- Whether every byte of a load has its value. -/
def allKnown (l : List LdByte) : Bool := l.all fun b => match b with | .val _ _ => true | _ => false

/-- The values of known bytes. -/
def knownBytes (l : List LdByte) : List Byte := l.map fun b => match b with | .val b _ => b | _ => 0

/-- Any known byte is poisoned. -/
def anyPoison (l : List LdByte) : Bool := l.any fun b => match b with | .val _ p => p | _ => false

/-! ### Denial records (R121) -/

/-- Appends a denial record for a token, an offset and an operation code, for the issuing context. -/
def State.denialRecord (s : State) (w : Who) (t : Token) (off code : Nat) : State :=
  match s.whoSet w with
  | none => s
  | some ts =>
    let x := nget ts.ctx w.c
    s.appendLog (w.g / 128) x.evptr
      (recHead s x.prin ts.reqtag 0x03 w.c.val ++ leBytes 4 (t.pte.toNat + t.gen.toNat * 2 ^ 20)
        ++ leBytes 6 off ++ leBytes 1 code ++ leBytes 5 0)

/-- One record for each denied granule among some denied offsets, at its first denied byte. -/
def State.denialRecords (s : State) (w : Who) (t : Token) (code : Nat) (offs : List Nat) : State :=
  ((offs.map (· / 2 ^ 16)).dedup).foldl
    (fun s gr => s.denialRecord w t ((offs.filter fun o => o / 2 ^ 16 = gr).headD 0) code) s

/-- Where the bytes of an access lie: each a location, or the mstat bits of its failure. -/
abbrev Places := List (Except (BitVec 8) Nat)

/-- The bytes of a vault access (R81): those past the end of the vault are stray. -/
def vaultPlaces (g off n : Nat) : Places :=
  (List.range n).map fun i => if off + i < 2 ^ 21 then .ok (vaultLoc g (off + i)) else .error mStray

/-- The bytes of a token access (R119), with the mstat bit of each failure; a byte past offset 2^48 - 1 is stray, as the
pointer to it would be (R81). -/
def State.tokenPlaces (s : State) (g : Nat) (t : Token) (need : BitVec 4) (off n : Nat)
    (bit : ByteFail → BitVec 8) : Places :=
  (List.range n).map fun i =>
    if 2 ^ 48 ≤ off + i then .error mStray
    else match s.tokenByte g t need (off + i) with
    | .ok l => .ok l
    | .error f => .error (bit f)

/-- The mstat bits of the failures of an access. -/
def Places.bits (l : Places) : BitVec 8 :=
  l.foldl (fun a p => match p with | .ok _ => a | .error b => a ||| b) 0

/-- An operation is still to be performed: it is on its way to its home, or its flag half is (R219). -/
def HomeOp.pending (o : HomeOp) : Bool :=
  match o.pos with
  | .done .. => o.flag.isSome && !o.onFlag
  | _ => true

/-- Bytes of a posted operation of the core in flight are named by an access (R252). -/
def State.postedOver (s : State) (g : Nat) (locs : List Nat) : Bool :=
  s.ops.any fun e => e.2.core == g && e.2.posted && e.2.pending &&
    locs.any fun l => (e.2.loc ≤ l && l < e.2.loc + e.2.size) ||
      (match e.2.flag with | some f => f ≤ l && l < f + 8 | none => false)

/-- The locations of an access that succeed. -/
def Places.locs (l : Places) : List Nat := l.filterMap fun p => match p with | .ok a => some a | .error _ => none

/-! ### The status space (R245, R345) -/

/-- The 16-bit and longer fields of the fabric status block at an aligned offset (R245). -/
def State.fabricStatus (s : State) (d off : Nat) : W64 :=
  let x := s.die d
  match off / 8 with
  | 0 => x.returns | 1 => x.retries | 2 => x.refused | 3 => x.lost | 4 => x.late | 5 => x.dead | 6 => x.aged
  | _ => BitVec.ofNat 64 (x.tags.length % 2 ^ 16 + (x.tagMax % 2 ^ 16) * 2 ^ 16 +
      ((List.range 8).foldl (fun a i => if (s.die i).fenced then a + 2 ^ i else a) 0) * 2 ^ 32)

/-- The doubleword of an island at an aligned offset of its block (R345). -/
def Island.word (i : Island) (off : Nat) : W64 :=
  match off / 8 with
  | 0 => BitVec.ofNat 64 (i.grant.toNat + i.measured.toNat * 2 ^ 32)
  | 1 => BitVec.setWidth 64 i.level
  | 2 => i.periods
  | _ => 0

/-- The doubleword of the status space of a die at an aligned offset (R345). -/
def State.statusWord (s : State) (d off : Nat) : W64 :=
  if off < 0x100 then (vget (s.die d).island (BitVec.ofNat 2 (off / 64))).word (off % 64)
  else if 0x800 ≤ off && off < 0x840 then s.fabricStatus d (off - 0x800)
  else if 0x1000 ≤ off && off < 0x3000 then
    let k := s.core (128 * d + (off - 0x1000) / 64)
    match off % 64 / 8 with
    | 0 => BitVec.setWidth 64 k.hintDrops
    | 1 => k.matSteps
    | 2 => BitVec.ofNat 64 k.active.val
    | _ => 0
  else if 0x3000 ≤ off && off < 0x3400 then
    let m := vget (s.die d).mailbox (BitVec.ofNat 6 ((off - 0x3000) / 16))
    if off % 16 == 0 then m.target else m.data
  else 0

/-- A load of the data word of a mailbox slot clears its full bit (R344). -/
def State.statusRead (s : State) (d off : Nat) : State :=
  if 0x3000 ≤ off && off < 0x3400 && off % 16 == 8 then
    let i := BitVec.ofNat 6 ((off - 0x3000) / 16)
    s.updDie d fun x => { x with mailbox := vset x.mailbox i { vget x.mailbox i with full := false } }
  else s

/-! ### The store buffer (R253) -/

/-- The line of a store buffer entry. -/
def StoreEnt.line (e : StoreEnt) : Nat := (e.bytes.headD (0, 0)).1 / 64

/-- The store buffer has room for a store to some lines (R253): 32 lines, without those of entries that have left it. -/
def Core.sbRoom (k : Core) (locs : List Nat) : Bool :=
  ((((k.sb.filter fun (e : StoreEnt) => !e.sent).map StoreEnt.line) ++ locs.map (· / 64)).dedup).length ≤ 32

/-- Some bytes of a store in one line enter the buffer as an entry: units gives the units that it is performed in when that is not
as a whole (R249), bits the locations of which only some bits are written, and marks the marked ones. -/
def State.pushStore (s : State) (w : Who) (bytes : List (Nat × Byte)) (poison : Bool) (t : Option Token) (units : List Nat := [])
    (bits : List Nat := []) (marks : List Nat := []) : State :=
  let k := s.core w.g
  let e : StoreEnt :=
    { seq := k.seq + 1, sid := w.sid, ctx := w.c, reqtag := s.reqtagOf w, bytes := bytes, poison := poison, pte := t.map (·.pte), born := s.clk
      units := units, bits := bits, marks := marks
      ms := match t with | some t => t.ms | none => false
      host := match t with | some t => t.host | none => false }
  let s := s.setCore w.g { k with sb := k.sb ++ [e], seq := k.seq + 1 }
  match t with
  | some t => s.flyIn (w.g / 128) t.pte
  | none => s

/-- The store enters the buffer: one entry for each line it touches, in address order of its bytes; one that is performed as
independent bytes (R79, R249) has each byte as a unit of its own. -/
def State.bufferStore (s : State) (w : Who) (bytes : List (Nat × Byte)) (poison : Bool) (t : Option Token) (split : Bool := false) :
    State :=
  ((bytes.map fun b => b.1 / 64).dedup).foldl (fun s line =>
    let here := bytes.filter fun b => b.1 / 64 = line
    s.pushStore w here poison t (if split then List.range here.length else [])) s

/-- The bytes of an entry whose unit has its bit 0 in a choice, or 1; a whole entry is one unit, whose bit is 0. -/
def StoreEnt.pick (e : StoreEnt) (one : Bool) (n : Nat) : StoreEnt :=
  if e.units.isEmpty then (if one then { e with bytes := [] } else e)
  else
    let l := (e.bytes.zip e.units).filter fun x => (n / 2 ^ x.2 % 2 == 1) == one
    { e with bytes := l.map (·.1), units := l.map (·.2) }

/-! ### The order of one core's accesses (R255) -/

/-- A byte of a load has still to be read at a location: later, or at a remote home that has not accepted its request. -/
def LdByte.awaits (s : State) (loc : Nat) : LdByte → Bool
  | .due l _ _ => l == loc
  | .req id off =>
    (match fget s.reqs id with
     | some r => 64 * r.line + off == loc && (match r.pos with | .reply _ | .gone => false | _ => true)
     | none => false)
  | .val .. => false

/-- A load of a set that comes before what the core has numbered n has still to be read at a location. -/
def CtxSet.awaits (t : CtxSet) (s : State) (n loc : Nat) : Bool :=
  (t.ctx.toList.any fun x => match x.hold with
    | .load _ _ bytes => bytes.any (LdByte.awaits s loc)
    | _ => false) ||
  (match t.vprog.elems with
   | some els => t.vprog.seq0 < n && els.any fun x => x.bytes.any fun b => match b with
     | .due l => l == loc
     | .val .. => false
   | none => false)

/-- The sets of a core, resident and saved. -/
def Core.allSets (k : Core) : List CtxSet := k.set.toList ++ k.slots.map (·.2)

/-- A load of the core that comes before what it has numbered n has still to be read at one of some locations, so that a later
write of the core is not performed there yet (R255). -/
def State.awaited (s : State) (g n : Nat) (locs : List Nat) : Bool :=
  locs.any fun l => (s.core g).allSets.any fun t => t.awaits s n l

/-- A V store of the core that has begun has still to write one of some locations: a scalar access to them, which comes after it,
holds (R255). -/
def State.vStoring (s : State) (g : Nat) (locs : List Nat) : Bool :=
  (s.core g).allSets.any fun t => t.vprog.writes.any locs.contains

/-- Entries numbered up to n are to leave the buffer (R254). -/
def State.triggerDrain (s : State) (g n : Nat) : State :=
  s.updCore g fun k => { k with drainTo := max k.drainTo n }

/-- Every store and posted operation of a core numbered up to n is done (R220). -/
def State.storesDone (s : State) (g n : Nat) : Bool :=
  (s.core g).sb.all (fun e => n < e.seq) && s.ops.all fun e => e.2.core != g || !e.2.posted || n < e.2.seq

/-- Every store of a core numbered up to n has left the buffer and has been performed or has failed (R222). -/
def State.sbDone (s : State) (g n : Nat) : Bool := (s.core g).sb.all fun e => n < e.seq

/-- Acquire self-invalidation: the core's L1 discards every word it does not own (R214). -/
def State.selfInvalidate (s : State) (g : Nat) : State := s.updCore g fun k => { k with l1 := ownedWords k.l1 }

/-- A scope at which an acquire discards unowned L1 words and a release moves the buffer: .quad and wider. -/
def scopeWide : Scope → Bool
  | .lane | .core => false
  | _ => true

/-! ### Monitors (R230) -/

/-- The monitor of a context. -/
def State.monitorOf (s : State) (w : Who) : Option Monitor :=
  s.monitors.find? fun m => m.core == w.g && m.sid == w.sid && m.ctx == w.c

/-- The monitors of a line are evicted with it, unless a write has ended their sleep (R230). -/
def State.loseMonitors (s : State) (line : Nat) : State :=
  { s with monitors := s.monitors.map fun m => if m.line = line && !m.hit then { m with lost := true } else m }

/-- A monitor is armed (R230): when 64 of the line are armed, which are all in its slice, the oldest of them is evicted. -/
def State.armMonitor (s : State) (m : Monitor) : State :=
  let live (y : Monitor) : Bool := y.line = m.line && !y.hit && !y.lost
  let l := if (s.monitors.filter live).length < 64 then s.monitors
    else s.monitors.map fun y => if some y == s.monitors.find? live then { y with lost := true } else y
  { s with monitors := l ++ [m] }

/-- A sleeping waita ends with a code: its monitor goes, xd is written, and the core's L1 is self-invalidated (R230). -/
def State.wakeWaita (s : State) (w : Who) (xd : XReg) (code : W64) : State :=
  let s := { s with monitors := s.monitors.filter fun m => !(m.core == w.g && m.sid == w.sid && m.ctx == w.c) }
  (s.updWho w fun x => (x.wx xd code .vol false).goOn).selfInvalidate w.g

end Sys2Proof.Machine
end

