-- ==== Sys2Proof/Machine/Sha3.lean ====
section
/-! DEFINITION. Sys2Proof/Machine/Sha3.lean: SHA3-256, which the service complex computes (R2, R339, R341), and the SHAKE functions
that ML-DSA-44 uses, as FIPS 202 defines them (PRESUMED: the spec names the standard and does not restate it, log entry 19). -/

namespace Sys2Proof.Machine

/-- The state of Keccak-f[1600]: lane (x, y) is lane x + 5 * y. -/
abbrev Keccak := Vector W64 25

/-- The lane at coordinates, which wrap at 5. -/
def Keccak.at_ (a : Keccak) (x y : Fin 5) : W64 := a[x.val + 5 * y.val]

/-- A state by its lanes. -/
def Keccak.ofFn (f : Fin 5 → Fin 5 → W64) : Keccak :=
  Vector.ofFn fun i => f ⟨i.val % 5, Nat.mod_lt _ (by decide)⟩ ⟨i.val / 5, by omega⟩

/-- The step theta: each lane takes the parity of two columns. -/
def Keccak.theta (a : Keccak) : Keccak :=
  let c : Vector W64 5 := Vector.ofFn fun x => a.at_ x 0 ^^^ a.at_ x 1 ^^^ a.at_ x 2 ^^^ a.at_ x 3 ^^^ a.at_ x 4
  Keccak.ofFn fun x y => a.at_ x y ^^^ nget c (x + 4) ^^^ (nget c (x + 1)).rotateLeft 1

/-- The rotation of each lane in the step rho, by lane number. -/
def rhoOffsets : Vector Nat 25 :=
  #v[0, 1, 62, 28, 27, 36, 44, 6, 55, 20, 3, 10, 43, 25, 39, 41, 45, 15, 21, 8, 18, 2, 61, 56, 14]

/-- The steps rho and pi: lane (x, y) of the result is lane (x + 3 * y, x), rotated. -/
def Keccak.rhoPi (a : Keccak) : Keccak :=
  Keccak.ofFn fun x y => (a.at_ (x + 3 * y) x).rotateLeft rhoOffsets[(x + 3 * y).val + 5 * x.val]

/-- The step chi: the only step that is not linear. -/
def Keccak.chi (a : Keccak) : Keccak :=
  Keccak.ofFn fun x y => a.at_ x y ^^^ (~~~(a.at_ (x + 1) y) &&& a.at_ (x + 2) y)

/-- The round constants of the step iota. -/
def roundConstants : List W64 :=
  [0x0000000000000001, 0x0000000000008082, 0x800000000000808A, 0x8000000080008000, 0x000000000000808B, 0x0000000080000001,
   0x8000000080008081, 0x8000000000008009, 0x000000000000008A, 0x0000000000000088, 0x0000000080008009, 0x000000008000000A]
  ++ [0x000000008000808B, 0x800000000000008B, 0x8000000000008089, 0x8000000000008003, 0x8000000000008002, 0x8000000000000080,
   0x000000000000800A, 0x800000008000000A, 0x8000000080008081, 0x8000000000008080, 0x0000000080000001, 0x8000000080008008]

/-- Keccak-f[1600]: 24 rounds. -/
def Keccak.permute (a : Keccak) : Keccak :=
  roundConstants.foldl (fun b rc => let t := b.theta.rhoPi.chi; nset t 0 (nget t 0 ^^^ rc)) a

/-- Absorbs a block of at most 200 bytes. -/
def Keccak.absorb (a : Keccak) (block : List Byte) : Keccak :=
  Keccak.permute (Vector.ofFn fun i => nget a i ^^^ BitVec.ofNat 64 (leNat ((block.drop (8 * i.val)).take 8)))

/-- A message with the domain bits of a function and the padding 10*1, to a whole number of blocks of rate bytes. -/
def keccakPad (rate : Nat) (suffix : Byte) (m : List Byte) : List Byte :=
  match rate - m.length % rate with
  | 1 => m ++ [suffix ||| 0x80]
  | n => m ++ suffix :: (List.replicate (n - 2) 0 ++ [0x80])

/-- Absorbs the first n blocks of a padded message. -/
def Keccak.absorbAll (rate : Nat) : Nat → List Byte → Keccak → Keccak
  | 0, _, a => a
  | n + 1, m, a => Keccak.absorbAll rate n (m.drop rate) (a.absorb (m.take rate))

/-- The state after a message has been absorbed. -/
def keccakOf (rate : Nat) (suffix : Byte) (m : List Byte) : Keccak :=
  Keccak.absorbAll rate (m.length / rate + 1) (keccakPad rate suffix m) (Vector.replicate 25 0)

/-- SHA3-256 of a byte string: a number whose lowest byte is the first byte of the digest. -/
def sha3 (m : List Byte) : BitVec 256 :=
  let a := keccakOf 136 0x06 m
  nget a 3 ++ nget a 2 ++ nget a 1 ++ nget a 0

/-- n blocks of rate bytes squeezed from a state. -/
def Keccak.squeeze (rate : Nat) : Nat → Keccak → List Byte
  | 0, _ => []
  | n + 1, a => ((a.toList.map fun w => leBytes 8 w.toNat).flatten).take rate ++ Keccak.squeeze rate n a.permute

/-- The first n bytes of SHAKE128 of a byte string. -/
def shake128 (m : List Byte) (n : Nat) : List Byte := (Keccak.squeeze 168 (n / 168 + 1) (keccakOf 168 0x1F m)).take n

/-- The first n bytes of SHAKE256 of a byte string. -/
def shake256 (m : List Byte) (n : Nat) : List Byte := (Keccak.squeeze 136 (n / 136 + 1) (keccakOf 136 0x1F m)).take n

end Sys2Proof.Machine
end

