-- ==== Sys2Proof/Machine/Mldsa.lean ====
section
/-! DEFINITION. Sys2Proof/Machine/Mldsa.lean: ML-DSA-44 (R2, R339, R341): key generation, signing and verification, as FIPS 204
defines them (PRESUMED: the spec names the standard and does not restate it, log entry 20). -/

namespace Sys2Proof.Machine

/-! ### Polynomials modulo X^256 + 1 and q -/

/-- The modulus q. -/
def dsaQ : Nat := 8380417

/-- A polynomial, or its transform: 256 residues modulo q. -/
abbrev Poly := List Nat

/-- The residue of an integer. -/
def residue (x : Int) : Nat := (x % dsaQ).toNat

/-- The representative of a residue between -(q - 1) / 2 and (q - 1) / 2. -/
def centred (x : Nat) : Int := if dsaQ < 2 * x then (x : Int) - dsaQ else x

/-- Sum, difference and pointwise product. -/
def Poly.add (a b : Poly) : Poly := List.zipWith (fun x y => (x + y) % dsaQ) a b
def Poly.sub (a b : Poly) : Poly := List.zipWith (fun x y => (x + dsaQ - y) % dsaQ) a b
def Poly.mul (a b : Poly) : Poly := List.zipWith (fun x y => x * y % dsaQ) a b

/-- The greatest magnitude of a coefficient. -/
def Poly.norm (a : Poly) : Nat := (a.map fun x => (centred x).natAbs).foldl max 0

/-- The 8 bits of a number in reverse order. -/
def bitRev8 (n : Nat) : Nat := (List.range 8).foldl (fun a i => 2 * a + n / 2 ^ i % 2) 0

/-- The powers 0 to 511 of the 512th root of unity 1753. -/
def zetas : Array Nat := ((List.range 511).foldl (fun (a : Array Nat) i => a.push (a.getD i 1 * 1753 % dsaQ)) #[1])

/-- The exponents of the roots at which the transform evaluates, in its order. -/
def nttRoots : List Nat := (List.range 256).map fun i => 2 * bitRev8 i + 1

/-- The transform: the values of a polynomial at those roots. -/
def Poly.ntt (f : Poly) : Poly :=
  let z := zetas
  nttRoots.map fun r => (f.foldl (fun (a : Nat × Nat) c => (a.1 + c * z.getD a.2 0, (a.2 + r) % 512)) (0, 0)).1 % dsaQ

/-- The inverse transform; 8347681 is 1/256 modulo q. -/
def Poly.intt (f : Poly) : Poly :=
  let z := zetas
  let fr := f.zip nttRoots
  (List.range 256).map fun j => fr.foldl (fun a x => a + x.1 * z.getD ((512 - x.2 * j % 512) % 512) 0) 0 % dsaQ * 8347681 % dsaQ

/-- The product of a matrix and a vector of transforms. -/
def matVec (m : List (List Poly)) (v : List Poly) : List Poly :=
  m.map fun row => (row.zip v).foldl (fun a p => Poly.add a (Poly.mul p.1 p.2)) (List.replicate 256 0)

/-! ### Rounding -/

/-- The remainder of a residue that lies above -a / 2 and up to a / 2. -/
def modPm (r a : Nat) : Int := if a < 2 * (r % a) then ((r % a : Nat) : Int) - a else (r % a : Nat)

/-- gamma2, (q - 1) / 88. -/
def gamma2 : Nat := 95232

/-- Power2Round: the high part, and the low 13 bits. -/
def power2Round (r : Nat) : Nat × Int :=
  let r0 := modPm r (2 ^ 13)
  ((((r : Int) - r0) / 2 ^ 13).toNat, r0)

/-- Decompose. -/
def decompose (r : Nat) : Nat × Int :=
  let r0 := modPm r (2 * gamma2)
  if (r : Int) - r0 = dsaQ - 1 then (0, r0 - 1) else ((((r : Int) - r0) / (2 * gamma2)).toNat, r0)

/-- MakeHint: adding z changes the high part of r. -/
def makeHint (z r : Nat) : Bool := (decompose r).1 != (decompose ((r + z) % dsaQ)).1

/-- UseHint. -/
def useHint (h : Bool) (r : Nat) : Nat :=
  let (r1, r0) := decompose r
  if !h then r1 else if 0 < r0 then (r1 + 1) % 44 else (r1 + 43) % 44

/-! ### Encodings -/

/-- Values of w bits each, little-endian. -/
def packBits (w : Nat) (l : List Nat) : List Byte := leBytes (l.length * w / 8) (l.foldr (fun x a => x + 2 ^ w * a) 0)

/-- 256 values of w bits each. -/
def unpackBits (w : Nat) (b : List Byte) : List Nat :=
  let n := leNat b
  (List.range 256).map fun i => n / 2 ^ (w * i) % 2 ^ w

/-- Small coefficients up to hi, packed as hi minus the coefficient. -/
def packSmall (w hi : Nat) (p : Poly) : List Byte := packBits w (p.map fun x => ((hi : Int) - centred x).toNat)
def unpackSmall (w hi : Nat) (b : List Byte) : Poly := (unpackBits w b).map fun x => residue ((hi : Int) - x)

/-- A byte string cut into pieces of n bytes. -/
def pieces (n k : Nat) (b : List Byte) : List (List Byte) := (List.range k).map fun i => (b.drop (n * i)).take n

/-- The high parts of w, as the challenge hashes them. -/
def packW1 (w : List (List Nat)) : List Byte := (w.map (packBits 6)).flatten

/-- The positions of the hints of a polynomial. -/
def hintPositions (h : List Bool) : List Nat := (h.zipIdx.filter (·.1)).map (·.2)

/-- The hint in 84 bytes. -/
def packHint (h : List (List Bool)) : List Byte :=
  let l := (h.map hintPositions).flatten
  let ends := (List.range 4).map fun i => (((h.take (i + 1)).map hintPositions).flatten).length
  (l ++ List.replicate (80 - l.length) 0 ++ ends).map (BitVec.ofNat 8)

/-- The positions rise strictly. -/
def rising : List Nat → Bool
  | a :: b :: l => a < b && rising (b :: l)
  | _ => true

/-- The hint that 84 bytes give, when they are well formed. -/
def unpackHint (b : List Byte) : Option (List (List Bool)) :=
  let pos := (b.take 80).map BitVec.toNat
  let ends := 0 :: ((b.drop 80).take 4).map BitVec.toNat
  let runs := (List.range 4).map fun i => (ends.getD i 0, ends.getD (i + 1) 0)
  if runs.any (fun r => r.2 < r.1 || 80 < r.2) || (pos.drop (ends.getD 4 0)).any (· != 0) then none
  else
    let ls := runs.map fun r => (pos.drop r.1).take (r.2 - r.1)
    if ls.all rising then some (ls.map fun l => (List.range 256).map fun i => l.contains i) else none

/-! ### Sampling -/

/-- A polynomial of the matrix, from SHAKE128: three bytes for each candidate. -/
def rejNtt (seed : List Byte) : Poly :=
  let b := shake128 seed 2100
  let c := (pieces 3 700 b).map fun x => leNat x % 2 ^ 23
  ((c.filter (· < dsaQ)) ++ List.replicate 256 0).take 256

/-- ExpandA. -/
def expandA (rho : List Byte) : List (List Poly) :=
  (List.range 4).map fun r => (List.range 4).map fun s => rejNtt (rho ++ [BitVec.ofNat 8 s, BitVec.ofNat 8 r])

/-- A polynomial with coefficients from -2 to 2, from SHAKE256: two candidates in each byte. -/
def rejBounded (seed : List Byte) : Poly :=
  let c := ((shake256 seed 680).map fun b => [b.toNat % 16, b.toNat / 16]).flatten
  (((c.filter (· < 15)).map fun x => residue (2 - ((x % 5 : Nat) : Int))) ++ List.replicate 256 0).take 256

/-- ExpandS. -/
def expandS (rho : List Byte) : List Poly × List Poly :=
  let l := (List.range 8).map fun r => rejBounded (rho ++ leBytes 2 r)
  (l.take 4, l.drop 4)

/-- ExpandMask. -/
def expandMask (rho : List Byte) (kappa : Nat) : List Poly :=
  (List.range 4).map fun r => unpackSmall 18 (2 ^ 17) (shake256 (rho ++ leBytes 2 (kappa + r)) 576)

/-- The places of the challenge, from i on: each takes the first byte that is at most i. -/
def ballFrom (signs : Nat) : List Nat → List Byte → Poly → Poly
  | [], _, c => c
  | i :: l, b, c =>
    match b.dropWhile fun x => i < x.toNat with
    | [] => c
    | j :: b =>
      let c := (c.set i (c.getD j.toNat 0)).set j.toNat (if signs / 2 ^ (i - 217) % 2 = 1 then dsaQ - 1 else 1)
      ballFrom signs l b c

/-- SampleInBall: 39 coefficients are 1 or -1. -/
def sampleInBall (seed : List Byte) : Poly :=
  let b := shake256 seed 1032
  ballFrom (leNat (b.take 8)) ((List.range 39).map (217 + ·)) (b.drop 8) (List.replicate 256 0)

/-! ### Keys and signatures -/

/-- A private key, with the matrix seed that it shares with the public key. -/
structure DsaKey where
  rho : List Byte
  key : List Byte
  tr : List Byte
  s1 : List Poly
  s2 : List Poly
  t0 : List Poly
  deriving DecidableEq, Repr

/-- The public key, 1,312 bytes, and the private key of a 32-byte seed. -/
def dsaKeyGen (seed : List Byte) : List Byte × DsaKey :=
  let h := shake256 (seed ++ [4, 4]) 128
  let rho := h.take 32
  let (s1, s2) := expandS ((h.drop 32).take 64)
  let t := List.zipWith Poly.add ((matVec (expandA rho) (s1.map Poly.ntt)).map Poly.intt) s2
  let pk := rho ++ (t.map fun p => packBits 10 (p.map fun x => (power2Round x).1)).flatten
  (pk, { rho := rho, key := h.drop 96, tr := shake256 pk 64, s1 := s1, s2 := s2
         t0 := t.map fun p => p.map fun x => residue (power2Round x).2 })

/-- A message as it is signed in the pure form, with a context string. -/
def dsaMessage (ctx m : List Byte) : List Byte := [0, BitVec.ofNat 8 ctx.length] ++ ctx ++ m

/-- One attempt at a signature: none when it is rejected. -/
def dsaTry (a : List (List Poly)) (s1 s2 t0 : List Poly) (mu rho : List Byte) (kappa : Nat) : Option (List Byte) :=
  let y := expandMask rho kappa
  let w := (matVec a (y.map Poly.ntt)).map Poly.intt
  let c' := shake256 (mu ++ packW1 (w.map fun p => p.map fun x => (decompose x).1)) 32
  let c := (sampleInBall c').ntt
  let times (l : List Poly) : List Poly := l.map fun p => (Poly.mul c p).intt
  let z := List.zipWith Poly.add y (times s1)
  let low := List.zipWith Poly.sub w (times s2)
  let ct0 := times t0
  let h := List.zipWith (fun p q => List.zipWith (fun x y => makeHint ((dsaQ - x) % dsaQ) ((y + x) % dsaQ)) p q) ct0 low
  if z.any (fun p => 2 ^ 17 - 78 ≤ p.norm) || low.any (fun p => p.any fun x => gamma2 - 78 ≤ (decompose x).2.natAbs)
      || ct0.any (fun p => gamma2 ≤ p.norm) || 80 < ((h.map hintPositions).flatten).length then none
  else some (c' ++ (z.map (packSmall 18 (2 ^ 17))).flatten ++ packHint h)

/-- The first attempt that is not rejected, among n. -/
def dsaLoop (a : List (List Poly)) (s1 s2 t0 : List Poly) (mu rho : List Byte) : Nat → Nat → List Byte
  | 0, _ => List.replicate 2420 0
  | n + 1, kappa =>
    match dsaTry a s1 s2 t0 mu rho kappa with
    | some s => s
    | none => dsaLoop a s1 s2 t0 mu rho n (kappa + 4)

/-- The signature of a message, 2,420 bytes, with 32 bytes of randomness. -/
def dsaSign (k : DsaKey) (ctx m rnd : List Byte) : List Byte :=
  let mu := shake256 (k.tr ++ dsaMessage ctx m) 64
  dsaLoop (expandA k.rho) (k.s1.map Poly.ntt) (k.s2.map Poly.ntt) (k.t0.map Poly.ntt) mu (shake256 (k.key ++ rnd ++ mu) 64) 814 0

/-- Verification of a signature under a public key. -/
def dsaVerify (pk ctx m sig : List Byte) : Bool :=
  let c' := sig.take 32
  let z := (pieces 576 4 (sig.drop 32)).map (unpackSmall 18 (2 ^ 17))
  match unpackHint (sig.drop 2336) with
  | none => false
  | some h =>
    let rho := pk.take 32
    let t1 := (pieces 320 4 (pk.drop 32)).map fun b => (unpackBits 10 b).map fun x => x * 2 ^ 13 % dsaQ
    let mu := shake256 (shake256 pk 64 ++ dsaMessage ctx m) 64
    let c := (sampleInBall c').ntt
    let az := matVec (expandA rho) (z.map Poly.ntt)
    let w := List.zipWith (fun p q => (Poly.sub p (Poly.mul c (Poly.ntt q))).intt) az t1
    let w1 := List.zipWith (fun p q => List.zipWith useHint p q) h w
    pk.length == 1312 && sig.length == 2420 && z.all (fun p => p.norm < 2 ^ 17 - 78) && c' == shake256 (mu ++ packW1 w1) 32

end Sys2Proof.Machine
end

