-- ==== Sys2Proof/Machine/Queues.lean ====
section
/-! DEFINITION. Sys2Proof/Machine/Queues.lean: the dispatch block, queue descriptors and supervisor descriptors in memory
(R313, R314), the fields of cards (R310 to R312), expected barrier counts (R226), and containment records (R331, R332). -/

namespace Sys2Proof.Machine

/-! ### The dispatch block (R313) -/

/-- The die-local address of a die's dispatch block. -/
def dispatchBlock : Nat := 0x1FBFF00000

/-- A queue descriptor as memory holds it. -/
structure QDesc where
  base : Nat
  logcap : Nat
  flags : Nat
  pad : Nat
  slice : Nat
  tail : W32
  head : W32
  free : W32
  pad2 : Nat
  sdesc : Nat
  codeBase : W64
  codeLen : Nat
  vaultBase : Nat
  vaultSize : Nat
  deriving DecidableEq, Repr

/-- The die-local address of a queue descriptor. -/
def qdescAddr (q : BitVec 6) : Nat := dispatchBlock + 64 * q.toNat

/-- The queue descriptor q of a die. -/
def State.qdesc (s : State) (d : Nat) (q : BitVec 6) : QDesc :=
  let rd (off n : Nat) : Nat := s.dieRead d (qdescAddr q + off) n
  { base := rd 0 8, logcap := rd 8 1, flags := rd 9 1, pad := rd 10 2, slice := rd 12 4
    tail := BitVec.ofNat 32 (rd 16 4), head := BitVec.ofNat 32 (rd 20 4), free := BitVec.ofNat 32 (rd 24 4)
    pad2 := rd 28 4, sdesc := rd 32 8, codeBase := BitVec.ofNat 64 (rd 40 8), codeLen := rd 48 8
    vaultBase := rd 56 4, vaultSize := rd 60 4 }

/-- A malformed descriptor (R313). -/
def QDesc.malformed (q : QDesc) : Bool :=
  12 < q.logcap || q.codeLen == 0 || 2 ^ 40 < q.codeLen || q.codeBase.toNat % 2 ^ 21 != 0 || q.base % 256 != 0
    || 2 ^ 21 < q.vaultBase + q.vaultSize || q.flags / 8 != 0 || q.pad != 0 || q.pad2 != 0

/-- The queue is enabled and its descriptor is not malformed. -/
def QDesc.enabled (q : QDesc) : Bool := q.flags % 2 == 1 && !q.malformed
/-- The host may post. -/
def QDesc.hostPosts (q : QDesc) : Bool := q.flags / 2 % 2 == 1
/-- Cores may post. -/
def QDesc.coresPost (q : QDesc) : Bool := q.flags / 4 % 2 == 1

/-- The die-local address of the card at a position of a queue. -/
def QDesc.slotAddr (q : QDesc) (pos : W32) : Nat := q.base + 256 * (pos.toNat % 2 ^ q.logcap)

/-- Writes a 4-byte field of a queue descriptor. -/
def State.setQField (s : State) (d : Nat) (q : BitVec 6) (off : Nat) (v : W32) : State :=
  s.writeHome (bytesAt (podAddr s d (qdescAddr q + off)) 4 v.toNat) false

/-- The tenant that owns a core: 0xFF means unowned. -/
def State.owner (s : State) (g : Nat) : Nat := s.dieRead (g / 128) (dispatchBlock + 0x1000 + g % 128) 1
/-- The save area of a die. -/
def State.saveBase (s : State) (d : Nat) : Nat := s.dieRead d (dispatchBlock + 0x10C0) 8
/-- Save slots per core of a die. -/
def State.saveSlots (s : State) (d : Nat) : Nat := min 14 (s.dieRead d (dispatchBlock + 0x10C8) 1)
/-- The tile staging area of a die. -/
def State.stagingBase (s : State) (d : Nat) : Nat := s.dieRead d (dispatchBlock + 0x10D0) 8
/-- Staging frames of a die. -/
def State.stagingFrames (s : State) (d : Nat) : Nat := s.dieRead d (dispatchBlock + 0x10D8) 4

/-! ### Supervisor descriptors (R314) -/

/-- A field of a supervisor descriptor of a die. -/
def State.sdescField (s : State) (d sdesc off n : Nat) : Nat := s.dieRead d (sdesc + off) n
/-- A reserved byte of the descriptor is not 0. -/
def State.sdescFaulty (s : State) (d sdesc : Nat) : Bool :=
  s.sdescField d sdesc 29 3 != 0 || s.sdescField d sdesc 42 22 != 0
/-- The root, clearance set and event log for parties on a die. -/
def State.sdescRoot (s : State) (d sdesc on : Nat) : W64 := BitVec.ofNat 64 (s.sdescField d sdesc (64 + 24 * on) 8)
def State.sdescClrptr (s : State) (d sdesc on : Nat) : W64 := BitVec.ofNat 64 (s.sdescField d sdesc (72 + 24 * on) 8)
def State.sdescEvptr (s : State) (d sdesc on : Nat) : W64 := BitVec.ofNat 64 (s.sdescField d sdesc (80 + 24 * on) 8)
/-- The queue's tenant and principal. -/
def State.sdescTenant (s : State) (d sdesc : Nat) : Byte := BitVec.ofNat 8 (s.sdescField d sdesc 28 1)
def State.sdescPrin (s : State) (d sdesc : Nat) : W32 := BitVec.ofNat 32 (s.sdescField d sdesc 24 4)

/-- The supervisor descriptor of a card's queue. -/
def State.cardSdesc (s : State) (c : Card) : Nat := (s.qdesc c.die.val c.queue).sdesc

/-! ### Cards (R310) -/

/-- A word of a card. -/
def Card.word (c : Card) (n : Fin 32) : W64 := nget c.words n
/-- Bits of a word as a number. -/
def field (w : W64) (lo n : Nat) : Nat := w.toNat / 2 ^ lo % 2 ^ n
def Card.id (c : Card) : W32 := (c.word 0).setWidth 32
def Card.cls (c : Card) : Nat := field (c.word 0) 56 2
def Card.tag (c : Card) : W16 := BitVec.ofNat 16 (field (c.word 0) 40 16)
def Card.gsize (c : Card) : Nat := field (c.word 1) 0 11
def Card.pdie (c : Card) : Nat := field (c.word 1) 13 3
def Card.placement (c : Card) : Nat := field (c.word 1) 11 2
/-- The entry lane of a context. -/
def Card.entryLane (c : Card) (x : CtxId) : W64 := c.word ⟨2 + x.val, by omega⟩
/-- Contexts that the card starts. -/
def Card.starts (c : Card) : List CtxId := [0, 1, 2].filter fun x => c.entryLane x != 0
/-- The card is of class CONC. -/
def Card.conc (c : Card) : Bool := c.cls == 2

/-- The card of a set. -/
def State.cardOf (s : State) (t : CtxSet) : Option Card :=
  match t.card with
  | some n => fget s.cards n
  | none => none

/-- Changes a card. -/
def State.updCard (s : State) (n : Nat) (f : Card → Card) : State :=
  match fget s.cards n with
  | some c => { s with cards := fset s.cards n (f c) }
  | none => s

/-! ### Barriers: members and expected counts (R226) -/

/-- The member of a scope that a core lies in. -/
def memberOf (sc : Scope) (g : Nat) : Nat :=
  match sc with
  | .lane | .core => g
  | .quad => g / 4
  | .die => g / 128
  | .pkg | .pod => 0

/-- The expected counts that a card's supervisor descriptor gives when its job starts (R226, R314). -/
def State.givenCounts (s : State) (c : Card) : List Nat :=
  (List.range 5).map fun i => s.sdescField c.die.val (s.cardSdesc c) (32 + 2 * i) 2

/-- The expected count of an instance, fixed at job start (R226): the given one, or the contexts of the job's parties in the
member. -/
def State.expected (s : State) (card : Nat) (sc : Scope) (member : Nat) : Nat :=
  match fget s.cards card with
  | none => 0
  | some c =>
    let given := c.given.getD (sc.code.toNat - 1) 0
    if given != 0 then given else (c.cores.filter fun g => memberOf sc g == member).length * c.starts.length

/-! ### Containment records (R331, R332) -/

/-- The queue that a containment record about a tag belongs to when no card's work found it: that of the earliest accepted card
that carries the tag (log entry 9). -/
def State.tagQueue (s : State) (tag : W16) : Option (Fin 8 × BitVec 6) :=
  (s.cards.find? fun e => e.2.tag == tag).map fun e => (e.2.die, e.2.queue)

/-- A containment record about a tag, found at a core (code 0x04, or 0x05 for R332): it goes to the log of the queue of the card
whose work found it, on the core's die; without a card to the log of the core's context C (log entry 9). -/
def State.containRecord (s : State) (g : Nat) (own : Option (Fin 8 × BitVec 6)) (tag : W16) (code source : Nat) (off : W64) :
    State :=
  let d := g / 128
  let (evptr, prin) := match own.or (s.tagQueue tag) with
    | some (e, q) => (s.sdescEvptr e.val (s.qdesc e.val q).sdesc (d % 8), s.sdescPrin e.val (s.qdesc e.val q).sdesc)
    | none => ((s.ctx g 1).evptr, (s.ctx g 1).prin)
  s.appendLog d evptr
    (recHead s prin tag code source ++ leBytes 2 g ++ leBytes 2 0 ++ leBytes 6 off.toNat ++ leBytes 6 0)

/-- A write of clean bytes that leaves an 8-byte word poisoned (R332). -/
def State.leavesPoison (s : State) (locs : List Nat) (bits : List Nat := []) : Bool :=
  !s.mpois.isEmpty && locs.any fun l => s.poisoned l &&
    !(List.range 8).all fun i => locs.contains (l / 8 * 8 + i) && !bits.contains (l / 8 * 8 + i)

/-- Writes bytes at their homes, the clean ones first and then the marked ones (R328). -/
def State.writeMarked (s : State) (clean bad : List (Nat × Byte)) (bits : List Nat := []) : State :=
  let s := if clean.isEmpty then s else s.writeHome clean false bits
  if bad.isEmpty then s else s.writeHome bad true

/-- Performs a store of a context at its home (R247), of which the bytes at some locations are marked: clean data that leaves its
word poisoned sets PSN in the failure record (R221) and appends a record (R332). -/
def State.performStore (s : State) (w : Who) (bytes : List (Nat × Byte)) (poison : Bool) (bits : List Nat := [])
    (marks : List Nat := []) : State :=
  let bad (b : Nat × Byte) : Bool := poison || marks.contains b.1
  let clean := bytes.filter fun b => !bad b
  let left := s.leavesPoison (clean.map (·.1)) bits
  let s := s.writeMarked clean (bytes.filter bad) bits
  if left then
    let s := s.addFail w true false false false
    match s.whoSet w with
    | some t => s.containRecord w.g (s.queueOf t) t.reqtag 0x05 0 0
    | none => s
  else s

end Sys2Proof.Machine
end

