-- ==== Sys2Proof/Machine/HostPort.lean ====
section
/-! DEFINITION. Sys2Proof/Machine/HostPort.lean: the host port: BAR0 and BAR2 (R342), posts (R343), the mailbox and the
service request slot (R344), attestation reports (R341), and the MSI-X vectors. -/

namespace Sys2Proof.Machine

/-- The host reaches a die: its port is on die 0 (R4, R19). -/
def State.hostReaches (s : State) (d : Nat) : Bool := !(s.die 0).fenced && s.reaches 0 (s.pkgid.toNat * 8 + d)

/-- A post is refused. -/
def State.dropPost (s : State) : State := { s with postDrops := s.postDrops + 1 }

/-- POST_REGISTER_WRITE (R343): the tail of a queue, or a post drop. -/
def execPostRegisterWrite (d : Fin 8) (q : BitVec 6) (t : W64) (s : State) : Out :=
  let k := s.qdesc d.val q
  let t : W32 := t.setWidth 32
  if (s.die 0).fenced then .next s
  else if !s.hostReaches d.val || !k.enabled || !k.hostPosts || 2 ^ k.logcap < (t - k.free).toNat then .next s.dropPost
  else .next (s.setQField d.val q 16 t)

/-! ### The mailbox (R344) -/

/-- A mailbox slot. -/
def State.mail (s : State) (d : Fin 8) (n : BitVec 6) : Mailbox := vget (s.die d.val).mailbox n

/-- Replaces a mailbox slot. -/
def State.setMail (s : State) (d : Fin 8) (n : BitVec 6) (m : Mailbox) : State :=
  s.updDie d.val fun x => { x with mailbox := vset x.mailbox n m }

/-- The slot that goes to the service complex. -/
def serviceSlot (d : Fin 8) (n : BitVec 6) : Bool := d == 0 && n == 63

/-- A word 0 names no context: ctxid 3, or a bit of [62:9] set; the service slot has no target field. -/
def badTarget (d : Fin 8) (n : BitVec 6) (w : W64) : Bool :=
  !serviceSlot d n && (w.extractLsb' 7 2 == 3 || w.extractLsb' 9 54 != 0)

/-- HOST from a slot is no longer pending in a context. -/
def Ctx.dropHost (n : BitVec 6) (x : Ctx) : Ctx := { x with pend := { x.pend with host := x.pend.host.filter (· != n) } }
/-- HOST from a slot is no longer pending in a set. -/
def CtxSet.dropHost (n : BitVec 6) (t : CtxSet) : CtxSet := { t with ctx := t.ctx.map (Ctx.dropHost n) }
/-- HOST from a slot is no longer pending in a core's sets, resident or saved. -/
def Core.dropHost (n : BitVec 6) (k : Core) : Core :=
  { k with set := k.set.map (CtxSet.dropHost n), slots := k.slots.map fun e => (e.1, e.2.dropHost n) }

/-- The reclaim of a slot: its full bit, its data and the HOST it made pending. -/
def State.reclaim (s : State) (d : Fin 8) (n : BitVec 6) : State :=
  let m := s.mail d n
  let v := if m.full then Config.discardedData s.nextId else m.data
  let s := s.setMail d n { m with full := false, word0 := .reclaim, data := v }
  let cores := s.cores.map fun (e : Nat × Core) => if e.1 / 128 = d.val then (e.1, e.2.dropHost n) else e
  { s with cores := cores, nextId := s.nextId + 1 }

/-- A host write of word 0 of a slot. -/
def State.mailWord0 (s : State) (d : Fin 8) (n : BitVec 6) (w : W64) : State :=
  let m := s.mail d n
  if w.getLsbD 63 then s.reclaim d n
  else if m.full then s
  else if badTarget d n w then s.setMail d n { m with word0 := .malformed }
  else s.setMail d n { m with word0 := .target, target := w }

/-- HOST becomes pending in a context that runs or waits, once for a slot (R92). -/
def Ctx.addHost (n : BitVec 6) (x : Ctx) : Ctx :=
  if x.live && !x.pend.host.contains n then { x with pend := { x.pend with host := x.pend.host ++ [n] } } else x

/-- HOST for the target of a slot, in the active set of its core when it holds a party. -/
def State.raiseHost (s : State) (d : Fin 8) (n : BitVec 6) (target : W64) : State :=
  let g := 128 * d.val + (target.extractLsb' 0 7).toNat
  let c : CtxId := ⟨(target.extractLsb' 7 2).toNat % 3, by omega⟩
  if (s.aset g).card.isSome then s.updCtx g c (Ctx.addHost n) else s

/-- A host write of word 1 of a slot. -/
def State.mailWord1 (s : State) (d : Fin 8) (n : BitVec 6) (w : W64) : State :=
  let m := s.mail d n
  if m.full then s.dropPost
  else
    match m.word0 with
    | .reclaim => s
    | .malformed => s.dropPost
    | .target =>
      let s := s.setMail d n { m with full := true, data := w }
      if serviceSlot d n then s else s.raiseHost d n m.target

/-- MAILBOX_TARGET_WRITE (R344). -/
def execMailboxTargetWrite (d : Fin 8) (slot : BitVec 6) (w : W64) (s : State) : Out :=
  if s.hostReaches d.val then .next (s.mailWord0 d slot w) else .next s

/-- MAILBOX_DATA_WRITE (R344). -/
def execMailboxDataWrite (d : Fin 8) (slot : BitVec 6) (w : W64) (s : State) : Out :=
  if s.hostReaches d.val then .next (s.mailWord1 d slot w) else .next s

/-- MAILBOX_RECLAIM (R344): a write of word 0 with bit 63 set. -/
def execMailboxReclaim (d : Fin 8) (slot : BitVec 6) (s : State) : Out :=
  if s.hostReaches d.val then .next (s.reclaim d slot) else .next s

/-- MAILBOX_DATA_READ (R344, R345): a load of the data word clears the full bit. -/
def execMailboxDataRead (d : Fin 8) (slot : BitVec 6) (s : State) : Out :=
  .next (s.statusRead d.val (0x3000 + 16 * slot.toNat + 8))

/-! ### Attestation (R341, R344) -/

/-- Bits of the fenced dies. -/
def State.fencedMask (s : State) : Nat := (List.range 8).foldl (fun a i => if (s.die i).fenced then a + 2 ^ i else a) 0

/-- A list cut, or filled with zeros, to n bytes. -/
def fitBytes (n : Nat) (l : List Byte) : List Byte := (List.range n).map fun i => l.getD i 0

/-- The device identity key pair (R341). -/
def identity : List Byte × DsaKey := dsaKeyGen Config.identitySeed.toList

/-- Bytes 0 to 1,607 of a report (R341). -/
def State.reportBody (s : State) (nonce : List Byte) : List Byte :=
  fitBytes 32 nonce ++ (s.measure.toList.map fun m => leBytes 32 m.toNat).flatten ++ leBytes 4 s.imageVersion.toNat
    ++ leBytes 1 s.pkgid.toNat ++ leBytes 1 s.fencedMask ++ [0xB0, 0] ++ identity.1

/-- A report with its signature. -/
def State.report (s : State) (nonce : List Byte) : List Byte :=
  s.reportBody nonce ++ dsaSign identity.2 (Config.dsaContext.take 255) (s.reportBody nonce) (Config.dsaRandom s.clk).toList

/-- The home of BAR2 offset o (R342): none past the window, in the reserved gigabyte or on a die that is not reached. -/
def State.windowLoc (s : State) (o : Nat) : Option Nat :=
  let d := o / 2 ^ 37 % 8
  let loc := podAddr s d (o % 2 ^ 37)
  if 2 ^ 40 ≤ o then none
  else if region loc == .hbm && s.hostReaches d then some loc else none

/-- A write through BAR2: bytes of the reserved gigabyte are dropped (R233). -/
def State.windowWrite (s : State) (o : Nat) (b : List Byte) : State :=
  let l := b.zipIdx.filterMap fun e => (s.windowLoc (o + e.2)).map fun a => (a, e.1)
  if l.isEmpty then s else s.writeHome l false

/-- A read through BAR2: bytes of the reserved gigabyte read 0 (R233). -/
def State.windowRead (s : State) (o n : Nat) : List Byte :=
  (List.range n).map fun i => match s.windowLoc (o + i) with
    | some a => s.mem.get a
    | none => 0

/-- The buffer of a service request lies in usable HBM, 4 KiB aligned. -/
def State.bufferOk (s : State) (w1 : W64) : Bool :=
  w1.toNat < 2 ^ 40 && w1.toNat % 4096 == 0 && (s.windowLoc w1.toNat).isSome

/-- The status of a service request (R344): 2 for an unknown code, 3 for an unusable buffer, else 1. -/
def State.serviceStatus (s : State) (w0 w1 : W64) : Nat :=
  if w0.extractLsb' 0 63 != 1 then 2 else if s.bufferOk w1 then 1 else 3

/-- The service complex handles the request in its slot (R344). -/
def State.serve (s : State) (m : Mailbox) : State :=
  let s := s.setMail 0 63 { m with full := false }
  let st := s.serviceStatus m.target m.data
  let s := if st = 1 then s.windowWrite m.data.toNat (s.report (s.windowRead m.data.toNat 32)) else s
  (s.windowWrite (m.data.toNat + 4088) (leBytes 8 st)).notify 8

/-- SERVICE_REQUEST (R344): the two writes to slot 63 of die 0. -/
def execServiceRequest (w0 w1 : W64) (s : State) : Out :=
  if s.hostReaches 0 then .next ((s.mailWord0 0 63 w0).mailWord1 0 63 w1) else .next s

/-- ATTESTATION_REPORT (R341): on request over management Ethernet, with its nonce, or for the service request slot. -/
def execAttestationReport (nonce : Option (List Byte)) (s : State) : Out :=
  match nonce with
  | some n => .next { s with reports := s.reports ++ [s.report n] }
  | none =>
    let m := s.mail 0 63
    if s.imageRuns && s.hostReaches 0 && m.full then .next (s.serve m) else .next s

/-! ### Registers, the window and the vectors (R342) -/

/-- EVENTS_READ: a host read of the events register returns its bits, clears them and ends their vectors' raised state. -/
def execEventsRead (s : State) : Out :=
  if (s.die 0).fenced then .next s
  else .next { s with hostReply := leBytes 8 s.events.toNat, raised := s.raised &&& ~~~s.events, events := 0 }

/-- What a host read of a BAR0 register other than events returns: 0 for an access of another size than 8 bytes and for a
location that is no readable register. -/
def State.registerValue (s : State) (off : BitVec 24) (n : Nat) : Nat :=
  if n != 8 then 0
  else if off == 0 then s.hostState.toNat + 2 ^ 8 * s.fencedMask + 2 ^ 16 * s.pkgid.toNat
  else if off == 8 then s.postDrops.toNat
  else 0

/-- A host read of n bytes of BAR0. -/
def execRegisterRead (off : BitVec 24) (n : Nat) (s : State) : Out :=
  if (s.die 0).fenced then .next s
  else if off == 0x10 && n == 8 then execEventsRead s
  else .next { s with hostReply := leBytes n (s.registerValue off n) }

/-- HOST_WINDOW_ACCESS: a write through BAR2, or a read of as many bytes. -/
def execHostWindowAccess (off : BitVec 40) (bytes : List Byte) (write : Bool) (s : State) : Out :=
  if (s.die 0).fenced then .next s
  else if write then .next (s.windowWrite off.toNat bytes)
  else .next { s with hostReply := s.windowRead off.toNat bytes.length }

/-- REGISTER_WRITE_OTHER: an 8-byte write to a location of BAR0 (R342): a post register or a word of a mailbox slot takes it, and one
to any other location is dropped. -/
def execRegisterWriteOther (off : BitVec 24) (w : W64) (s : State) : Out :=
  let o := off.toNat
  if o % 8 != 0 then .next s
  else if 0x010000 ≤ o && o < 0x011000 then
    execPostRegisterWrite ⟨(o - 0x010000) / 512 % 8, Nat.mod_lt _ (by decide)⟩ (BitVec.ofNat 6 (o / 8)) w s
  else if 0x020000 ≤ o && o < 0x022000 then
    let d : Fin 8 := ⟨(o - 0x020000) / 1024 % 8, Nat.mod_lt _ (by decide)⟩
    if o / 8 % 2 = 0 then execMailboxTargetWrite d (BitVec.ofNat 6 (o / 16)) w s
    else execMailboxDataWrite d (BitVec.ofNat 6 (o / 16)) w s
  else .next s

/-- MSIX_VECTOR_UNMASK: a vector that is unmasked sends the message it kept. -/
def execMsixVectorUnmask (v : Fin 9) (s : State) : Out :=
  let b := 1#9 <<< v.val
  let s := { s with masked := s.masked &&& ~~~b }
  if s.pending.getLsbD v.val then
    .next { s with pending := s.pending &&& ~~~b, raised := s.raised ||| b, messages := s.messages ++ [v] }
  else .next s

end Sys2Proof.Machine
end

