-- ==== Sys2Proof/Machine/Boot.lean ====
section
/-! DEFINITION. Sys2Proof/Machine/Boot.lean: the service complex: reset and boot (R339, R340), measurement (R341), the current
budget and the islands (R346, R347). -/

namespace Sys2Proof.Machine

/-! ### Reset and boot -/

/-- Host memory, which a package reset does not touch. -/
def Memory.host (m : Memory) : Memory := m.filter fun e => !isVault e.1 && region e.1 == .hostWin

/-- The dies at a package reset: a die that fails its self-test is fenced (R339 step 1). -/
def resetDies (failed : BitVec 8) : Vector Die 8 := Vector.ofFn fun i => { fenced := failed.getLsbD i.val }

/-- PACKAGE_RESET: every register at its reset value, the dies that fail their self-test fenced, and the package booting. -/
def execPackageReset (failed : BitVec 8) (s : State) : Out :=
  .next { State.reset with
    mem := s.mem.host, dies := resetDies failed
    podTicket := s.podTicket, messages := s.messages, hostReply := s.hostReply, reports := s.reports
    nextId := s.nextId, clk := s.clk, coreResetAt := s.clk, powerAt := s.clk
    curCore := s.curCore, curCtx := s.curCtx, agenda := s.agenda, turn := s.turn, oracle := s.oracle }

/-- A number of n bytes of an image. -/
def imageField (image : List Byte) (at_ n : Nat) : Nat := leNat ((image.drop at_).take n)

/-- The body of an image (R340). -/
def imageBody (image : List Byte) : List Byte := (image.drop 3776).take (imageField image 4 4)

/-- An image has the layout of R340. -/
def imageFormed (image : List Byte) : Bool :=
  let l := imageField image 4 4
  imageField image 0 4 == 0x5A584F47 && l ≤ 6 * 2 ^ 20 && 3776 + l ≤ image.length && imageField image 12 4 == 0
    && imageField image 3748 28 == 0

/-- The checks of step 3 of R339: the fused key hash, the fused minimum version and the signature. -/
def imageGood (image : List Byte) : Bool :=
  let key := (image.drop 16).take 1312
  imageFormed image && sha3 key == Config.fusedKeyHash && Config.fusedMinVersion.toNat ≤ imageField image 8 4
    && dsaVerify key (Config.dsaContext.take 255) (leBytes 32 (sha3 (imageBody image)).toNat) ((image.drop 1328).take 2420)

/-- The extension of a measurement register with a hash (R341). -/
def extend (m h : BitVec 256) : BitVec 256 := sha3 (leBytes 32 m.toNat ++ leBytes 32 h.toNat)

/-- The later stages of an image, from the one measured into register n on (R339 step 4): each is verified by the stage before it,
measured and started, and one that is not verified stops the sequence. Answers whether every stage was started. -/
def runStages (m : Vector (BitVec 256) 8) : Nat → List (BitVec 256 × Bool) → Vector (BitVec 256) 8 × Bool
  | _, [] => (m, true)
  | n, (h, ok) :: l =>
    if !ok then (m, false)
    else runStages (if h8 : n < 8 then m.set n (extend m[n] h) h8 else m) (n + 1) l

/-- BOOT_IMAGE_RECEIVED: an image that passes the checks is measured and started, and then its stages; another is discarded (R339
steps 3, 4). -/
def execBootImageReceived (image : List Byte) (s : State) : Out :=
  if s.imageRuns then .next s
  else if !imageGood image then .next { s with hostState := 2 }
  else
    let body := imageBody image
    let r := runStages (nset s.measure 0 (extend (nget s.measure 0) (sha3 body))) 1 (Config.stages body)
    .next { s with
      imageRuns := true, stagesRun := r.2, imageVersion := BitVec.ofNat 32 (imageField image 8 4), measure := r.1 }

/-- BOOT_FETCH_RETRY: a failed fetch is repeated (R339 step 2). -/
def execBootFetchRetry (s : State) : Out :=
  if s.imageRuns then .next s else .next { s with bootFails := s.bootFails + 1 }

/-- A byte of the label array or the dispatch block of an unfenced die of the package (R339 step 5). -/
def State.bootTable (s : State) (loc : Nat) : Bool :=
  let l := loc % 2 ^ 51
  loc / 2 ^ 54 == s.pkgid.toNat && loc < 2 ^ 59 && !(s.die (loc / 2 ^ 51)).fenced
    && (region loc == .labels || (dispatchBlock ≤ l && l < dispatchBlock + 2 ^ 20))

/-- BOOT_RELEASE: the last stage writes pkgid, the Pin Table, the label arrays and the dispatch blocks; the dies are released
from reset and the package runs (R339 step 5). -/
def execBootRelease (pkgid : BitVec 5) (tables : List (Nat × Byte)) (s : State) : Out :=
  if !s.stagesRun || s.booted then .next s
  else
    let dies := s.dies.map fun (d : Die) => { d with pins := [] }
    let s := { s with pkgid := pkgid, booted := true, coreResetAt := s.clk, dies := dies }
    let l := tables.filter fun e => s.bootTable e.1
    let s := { s with mem := l.foldl (fun (m : Memory) (b : Nat × Byte) => Memory.set m b.1 b.2) s.mem }
    .next (if (s.die 0).fenced then s.outOfService else { s with hostState := 1 })

/-! ### Power (R346, R347) -/

/-- TRAY_BUDGET_DECLARE: the tray's current budget, at boot. -/
def execTrayBudgetDeclare (amps : W16) (s : State) : Out :=
  if s.booted || 12000 < amps.toNat then .next s else .next { s with budget := amps }

/-- The throttle level after a period (R347). -/
def nextLevel (level : BitVec 3) (measured grant : Nat) : BitVec 3 :=
  if grant < measured then (if level.toNat < 4 then level + 1 else level)
  else if 10 * measured < 9 * grant then (if level = 0 then 0 else level - 1)
  else level

/-- The grants for some measured currents (R346): each requests 10% more; above the budget they are shared and scaled down. -/
def grants (budget : Nat) (measured : List Nat) : List Nat :=
  let total := measured.sum
  if 11 * total ≤ 10 * budget then measured.map fun m => 11 * m / 10
  else
    let g := measured.map fun m => max 100 (budget * m / total)
    if g.sum ≤ budget then g else g.map fun x => x * budget / g.sum

/-- The islands of the unfenced dies. -/
def State.livingIslands (s : State) : List Nat := (List.range 32).filter fun i => !(s.die (i / 4)).fenced

/-- An island at a period boundary: the grant that was ready comes into force (R346, R347). -/
def Island.boundary (i : Island) (measured next : Nat) : Island :=
  { grant := i.nextGrant, nextGrant := BitVec.ofNat 32 next, measured := BitVec.ofNat 32 measured
    level := nextLevel i.level measured i.grant.toNat, periods := if i.level = 0 then i.periods else i.periods + 1 }

/-- Changes an island of the package. -/
def State.updIsland (s : State) (i : Nat) (f : Island → Island) : State :=
  s.updDie (i / 4) fun d =>
    { d with island := vset d.island (BitVec.ofNat 2 i) (f (vget d.island (BitVec.ofNat 2 i))) }

/-- POWER_PERIOD: a period ends with the currents measured in it; an island for which none is given draws a free value. -/
def execPowerPeriod (measured : List Nat) (s : State) : Out :=
  let l := s.livingIslands
  let draw (i : Nat) : Nat := (measured[i]?).getD (Config.islandCurrent (32 * s.clk + i)).toNat % 2 ^ 32
  let g := grants s.budget.toNat (l.map draw)
  let s := (l.zip g).foldl (fun (s : State) e => s.updIsland e.1 fun x => x.boundary (draw e.1) e.2) s
  .next { s with powerAt := s.clk }

end Sys2Proof.Machine
end

