-- ==== Sys2Proof/Machine/Enqueue.lean ====
section
/-! DEFINITION. Sys2Proof/Machine/Enqueue.lean: the capture of V and E entries at issue (R13, R23, R37, R38, R123), the
timelines (R224), and what a recording writes (R99, R292 to R298). -/

namespace Sys2Proof.Machine

/-! ### Timelines (R224) -/

/-- The index of a timeline. -/
def tlIdx : Timeline → Fin 5
  | .tlv => 0 | .tlm => 1 | .tls => 2 | .tlc => 3 | .tlg => 4

/-- Removes the numbers that follow the completed count without a gap. -/
def catchUp : Nat → Nat → List Nat → Nat × List Nat
  | 0, d, l => (d, l)
  | f + 1, d, l => if l.contains (d + 1) then catchUp f (d + 1) (l.filter (· != d + 1)) else (d, l)

/-- The entry numbered n completes: the completed count is the largest n below which all have completed. -/
def TLine.complete (t : TLine) (n : Nat) : TLine :=
  let l := if t.done < n then insertNat t.ahead n else t.ahead
  let (d, l) := catchUp l.length t.done l
  { t with done := d, ahead := l }

/-- The next number of a timeline is taken. -/
def TLine.take (t : TLine) : TLine := { t with issued := t.issued + 1 }

/-- A timeline of a set. -/
def CtxSet.time (t : CtxSet) (l : Timeline) : TLine := nget t.tl (tlIdx l)

/-- An entry of a timeline of a set completes. -/
def CtxSet.complete (t : CtxSet) (l : Timeline) (n : Nat) : CtxSet :=
  { t with tl := nset t.tl (tlIdx l) ((nget t.tl (tlIdx l)).complete n) }

/-! ### What an instruction captures -/

/-- The engine queue of a V or E instruction (R13, R33). -/
def engQueue : Instr → EngQ
  | .rset .. | .sfill .. | .sdrain .. | .scopy .. | .shint .. => .str
  | .mcfg .. | .mgo | .mrnd .. | .mzero .. | .mdrain .. | .mchk .. => .mat
  | .clset .. | .clclr .. | .clins .. | .cldel .. | .clsub .. | .clxch .. | .clpeel .. | .clstat .. => .coll
  | .grec .. | .gend | .gplay .. | .gsave .. | .gload .. | .gdrop .. | .gstat .. => .gal
  | .jpost .. | .jdone | .jstat .. | .jyield | .jprio .. => .job
  | _ => .vec

/-- The timeline of a queue (R38); the job port has none. -/
def EngQ.timeline : EngQ → Option Timeline
  | .vec => some .tlv | .mat => some .tlm | .str => some .tls | .coll => some .tlc | .gal => some .tlg | .job => none

/-- Entries a queue holds at most (R37). -/
def EngQ.depth : EngQ → Nat
  | .vec => 32 | .mat => 16 | .str => 16 | .coll => 16 | .gal => 8 | .job => 4

/-- The code of a queue in the tval of WDOG (R88). -/
def EngQ.code : EngQ → Nat
  | .vec => 0 | .mat => 1 | .str => 2 | .coll => 3 | .gal => 4 | .job => 5

/-- The x register of the second operand of a V instruction, in form vx. -/
def vxReg : VSrc → XReg
  | .vx r => r
  | _ => 0

/-- The x source fields of a V or E instruction, in the order of their fields: V s2 or E xa, xb, xc; x0 where a field
is no source (R32, R44). -/
def xSources : Instr → XReg × XReg × XReg
  | .vadd _ _ s _ _ | .vsub _ _ s _ _ | .vmul _ _ s _ _ | .vfma _ _ s _ _ | .vmin _ _ s _ _ | .vmax _ _ s _ _
  | .vand _ _ s _ _ | .vor _ _ s _ _ | .vxor _ _ s _ _ | .vshl _ _ s _ _ | .vshr _ _ s _ _ | .vsra _ _ s _ _ =>
    (vxReg s, 0, 0)
  | .vdiv _ s _ _ => (vxReg s, 0, 0)
  | .vcmp _ _ _ s _ _ => (vxReg s, 0, 0)
  | .vslide _ _ _ s _ _ => (vxReg s, 0, 0)
  | .vbcast _ _ x _ => (x, 0, 0)
  | .mset _ x _ => (x, 0, 0)
  | .vld _ _ x _ | .vst _ _ x _ => (x, 0, 0)
  | .vldg _ _ x _ _ | .vsts _ _ x _ _ => (x, 0, 0)
  | .vldr _ _ x _ _ | .vstr _ _ x _ _ => (x, 0, 0)
  | .vadv x _ | .vpub x _ => (x, 0, 0)
  | .vlda _ x _ _ => (x, 0, 0)
  | .rset _ a => (a, 0, 0)
  | .sfill _ a b | .sdrain _ a b => (a, b, 0)
  | .scopy a b c => (a, b, c)
  | .shint _ a b => (a, b, 0)
  | .mcfg _ a => (a, 0, 0)
  | .mdrain _ _ a b => (a, b, 0)
  | .clset _ a | .clclr _ a => (a, 0, 0)
  | .clins _ a b c | .cldel _ a b c => (a, b, c)
  | .clsub _ a b | .clxch _ a b => (a, b, 0)
  | .clpeel _ _ a b c => (a, b, c)
  | .gplay _ _ b => (0, b, 0)
  | .gsave _ a | .gload _ a => (a, 0, 0)
  | .jpost a b => (a, b, 0)
  | .jstat _ b => (0, b, 0)
  | .jprio a b => (a, b, 0)
  | _ => (0, 0, 0)

/-- Which x source fields are pointers, whose tokens are captured (R123). -/
def ptrSources : Instr → Bool × Bool × Bool
  | .vld .. | .vst .. | .vldg .. | .vsts .. | .sfill .. | .sdrain .. | .shint .. | .mdrain .. | .clset ..
  | .clclr .. | .gsave .. | .gload .. | .jpost .. => (true, false, false)
  | .mcfg f _ => (f.toNat ≤ 3, false, false)
  | .scopy .. | .clins .. | .cldel .. | .clsub .. | .clxch .. | .clpeel .. => (true, true, false)
  | .gplay .. => (false, true, false)
  | _ => (false, false, false)

/-- The destination and result-hold kind of a result-returning E instruction (R38, R88). -/
def resultOf : Instr → Option (Fin 5 × XReg)
  | .mchk x => some (0, x)
  | .clstat x _ => some (1, x)
  | .gplay x _ _ => some (2, x)
  | .gstat x _ => some (3, x)
  | .jstat x _ => some (4, x)
  | _ => none

/-- The captured entry of an instruction, of a context of a set, with its x operands given (R13, R123). -/
def mkEntry (t : CtxSet) (c : CtxId) (i : Instr) (x0 x1 x2 : W64) (rm : BitVec 3) (sup : Bool) : Entry :=
  let (p0, p1, p2) := ptrSources i
  { num := 0, ctx := c, who := c, instr := i, x0 := x0, x1 := x1, x2 := x2
    k0 := if p0 then captureTok t x0 else none
    k1 := if p1 then captureTok t x1 else none
    k2 := if p2 then captureTok t x2 else none
    rm := rm, sup := sup }

/-- The entries of a queue, as a context sees it (R37). A collation command that has begun takes no place of its queue any more
(DESIGN CHOICE, log entry 75). -/
def CtxSet.queueLen (t : CtxSet) (c : CtxId) : EngQ → Nat
  | .vec => t.vq.length
  | .mat => t.mq.length
  | .str => (nget t.sq c).length
  | .coll => t.cq.length
  | .gal => t.gq.length
  | .job => t.jq.length

/-- The queue is full (R37); a jpost that the job port holds keeps later J instructions out (R333). -/
def CtxSet.queueFull (t : CtxSet) (c : CtxId) (q : EngQ) : Bool := q.depth ≤ t.queueLen c q || (q == .job && t.jheld)

/-- Appends an entry to a queue. -/
def CtxSet.append (t : CtxSet) (q : EngQ) (e : Entry) : CtxSet :=
  match q with
  | .vec => { t with vq := t.vq ++ [e] }
  | .mat => { t with mq := t.mq ++ [e] }
  | .str => { t with sq := nset t.sq e.ctx (nget t.sq e.ctx ++ [e]) }
  | .coll => { t with cq := t.cq ++ [e] }
  | .gal => { t with gq := t.gq ++ [e] }
  | .job => { t with jq := t.jq ++ [e] }

/-- Takes the next number of the queue's timeline for an entry and appends it (R38). A job entry and a gplay take
none. -/
def CtxSet.enqueue (t : CtxSet) (q : EngQ) (e : Entry) (numbered : Bool) : CtxSet :=
  match q.timeline with
  | some l =>
    if numbered then
      let n := (nget t.tl (tlIdx l)).issued + 1
      { t.append q { e with num := n } with tl := nset t.tl (tlIdx l) (nget t.tl (tlIdx l)).take }
    else t.append q e
  | none => t.append q e

/-! ### Recording (R99, R292 to R298) -/

/-- Entries of the galley store in use (R291). -/
def Core.galleyUsed (k : Core) : Nat :=
  (k.galley.toList.map fun g => match g with | some g => g.ent.length | none => 0).sum
  + (k.gReady.map fun f => f.gal.ent.length).sum

/-- Appends an entry to the recording: full galleys and a full store smudge it with reason 4 (R297). -/
def State.recEntry (s : State) (g : Nat) (e : BitVec 128) : State :=
  s.updCore g fun k => { k with rec_ := k.rec_.map fun r =>
    if r.smudge != 0 then r
    else if 4095 ≤ r.ent.length + 9 || 4096 ≤ k.galleyUsed + r.ent.length + 9 then r.smudged 4
    else { r with ent := e :: r.ent } }

/-- The recording that an instruction of the issuing context falls into (R295). -/
def State.recording (s : State) : Option Recording :=
  match (s.core s.curCore).rec_ with
  | some r => if r.sid = s.mySet.sid then some r else none
  | none => none

/-- Smudges the recording that an instruction of the issuing context falls into. -/
def State.smudgeMe (s : State) (reason : BitVec 3) : State := s.smudge s.curCore s.mySet.sid reason

/-- A GUARD entry (R294). -/
def guardEntry (sl : BitVec 4) (rel : BitVec 3) (swap taken : Bool) (delta : BitVec 48) (c : W64) : BitVec 128 :=
  1#4 ++ sl ++ rel ++ bit1 swap ++ bit1 taken ++ 0#3 ++ delta ++ c
/-- An XLAT entry. -/
def xlatEntry (kd rights : BitVec 4) (ms patched : Bool) (sl : BitVec 4) (lenm1 : BitVec 40) (va : W64) : BitVec 128 :=
  2#4 ++ kd ++ rights ++ bit1 ms ++ bit1 patched ++ sl ++ lenm1 ++ 0#6 ++ va
/-- A CMD entry. -/
def cmdEntry (ctx unit nopnd : BitVec 2) (rm : BitVec 3) (word : W32) : BitVec 128 :=
  3#4 ++ ctx ++ unit ++ nopnd ++ rm ++ 0#83 ++ word
/-- An OPND entry. -/
def opndEntry (field : BitVec 2) (patched : Bool) (sl : BitVec 4) (v : W64) : BitVec 128 :=
  4#4 ++ field ++ bit1 patched ++ sl ++ 0#53 ++ v
/-- A WAIT entry. -/
def waitEntry (ctx : BitVec 2) (tl : BitVec 3) (rel : W64) : BitVec 128 := 5#4 ++ ctx ++ tl ++ 0#55 ++ rel
/-- An EXTK entry. -/
def extkEntry (k : KReg) (t : Token) : BitVec 128 :=
  6#4 ++ k ++ t.gen ++ t.pte ++ t.rights ++ bit1 t.ms ++ bit1 t.host ++ bit1 t.valid ++ t.lenm1 ++ 0#41
/-- A VAL entry of the recorded values of an odd and an even slot. -/
def valEntry (odd even : W64) : BitVec 128 := 7#4 ++ 0#4 ++ odd.setWidth 60 ++ even.setWidth 60
/-- The END entry. -/
def endEntry : BitVec 128 := 15#4 ++ 0#124
/-- The HDR entry (R293). -/
def hdrEntry (count : BitVec 13) (used : W16) (status : BitVec 2) (reason : BitVec 3) (tenant : Byte) (card : W16)
    (bycard : Bool) (top : W64) : BitVec 128 :=
  0#4 ++ count ++ used ++ status ++ reason ++ tenant ++ card ++ bit1 bycard ++ 0#1 ++ top

/-- The branch relation with its operands exchanged keeps its funct3; the swap bit says so (R294). Records the guard of
a conditional branch, or smudges (R99). -/
def State.recBranch (s : State) (rel : BitVec 3) (rs1 rs2 : XReg) (taken : Bool) : State :=
  match s.recording with
  | none => s
  | some _ =>
    match s.tagOf rs1, s.tagOf rs2 with
    | .plain, .plain => s
    | .patched sl d, .plain => s.recEntry s.curCore (guardEntry sl rel false taken d (s.rx rs2))
    | .plain, .patched sl d => s.recEntry s.curCore (guardEntry sl rel true taken d (s.rx rs1))
    | _, _ => s.smudgeMe 2

/-- Records the k register that a pointer operand captures, ahead of its command (R298). -/
def State.recCapture (s : State) (p : W64) : State :=
  match s.recording with
  | none => s
  | some r =>
    if p.extractLsb' 60 4 != 2 then s
    else
      let k : KReg := p.extractLsb' 52 4
      let s := if r.kWritten.getLsbD k.toNat || r.kCaptured.getLsbD k.toNat then s
        else s.recEntry s.curCore (extkEntry k (vget s.mySet.k k))
      s.updCore s.curCore fun c => { c with rec_ := c.rec_.map fun r =>
        { r with kCaptured := r.kCaptured ||| (1#16 <<< k.toNat) } }

/-- Records one x operand (R99): x0 is no operand. -/
def State.recOperand (s : State) (field : BitVec 2) (r : XReg) : State :=
  if r = 0 then s
  else
    match s.tagOf r with
    | .plain => s.recEntry s.curCore (opndEntry field false 0 (s.rx r))
    | .patched sl d => s.recEntry s.curCore (opndEntry field true sl (d.signExtend 64))
    | _ => s.smudgeMe 3

/-- The code of a context in a galley. -/
def ctxCode (c : CtxId) : BitVec 2 := BitVec.ofNat 2 c.val

/-- An instruction that a recording passes over (R295). -/
def unrecorded : Instr → Bool
  | .gend | .jdone => true
  | _ => false

/-- An instruction that a recording keeps as a CMD (R295). -/
def recordable (i : Instr) : Bool :=
  match engQueue i with
  | .gal | .job => false
  | .coll => match i with | .clxch .. => false | _ => true
  | _ => true

/-- Records a V or E instruction of the issuing context (R295, R298), or smudges with reason 6. -/
def State.recCommand (s : State) (i : Instr) : State :=
  match s.recording with
  | none => s
  | some _ =>
    if unrecorded i then s
    else if !recordable i then s.smudgeMe 6
    else
      match encode i with
      | none => s
      | some (u, word) =>
        let (a, b, c) := xSources i
        let (pa, pb, pc) := ptrSources i
        let s := if pa then s.recCapture (s.rx a) else s
        let s := if pb then s.recCapture (s.rx b) else s
        let s := if pc then s.recCapture (s.rx c) else s
        let n := ([a, b, c].filter (· != 0)).length
        let unit : BitVec 2 := if u == .v then 1 else 2
        let rm := if u == .v then s.me.vrnd else 0
        let s := s.recEntry s.curCore (cmdEntry (ctxCode s.curCtx) unit (BitVec.ofNat 2 n) rm word)
        ((s.recOperand 0 a).recOperand 1 b).recOperand 2 c

/-! ### Issue of a V or E instruction -/

/-- Enqueues a V or E instruction of the issuing context with its captured operands (R13, R23, R38), and goes on; a
result-returning instruction goes on to its result hold. -/
def State.enter (s : State) (i : Instr) (numbered : Bool) : State :=
  let (a, b, c) := xSources i
  let s := ((s.useX a).useX b).useX c
  let s := s.recCommand i
  let x := s.me
  let q := engQueue i
  let e := mkEntry s.mySet s.curCtx i (x.rx a) (x.rx b) (x.rx c) x.vrnd x.sup
  let e := if q == .job then { e with num := s.nextId, upTo := (s.core s.curCore).seq } else e
  let num := match q.timeline with
    | some l => if numbered then (s.mySet.time l).issued + 1 else s.nextId
    | none => s.nextId
  let e := if numbered then e else { e with num := s.nextId }
  let s := { s with nextId := s.nextId + 1 }
  let s := s.updMySet fun t => t.enqueue q e numbered
  let s := (e.tokens).foldl (fun s t => s.held s.curCore t) s
  match resultOf i with
  | some (kind, xd) => s.holdMe (.result kind num xd)
  | none => s.goOn

/-- The issue of a V or E instruction: a full queue holds the context (R37). -/
def issueEngine (i : Instr) (s : State) : Out :=
  if s.mySet.queueFull s.curCtx (engQueue i) then .next (s.holdMe (.queueFull (engQueue i) i))
  else .next (s.enter i true)

end Sys2Proof.Machine
end

