-- ==== Sys2Proof/Machine/Scalar.lean ====
section
/-! DEFINITION. Sys2Proof/Machine/Scalar.lean: the RV64 integer operations of unit K (R39, R79), with the patch tags (R98)
and poison marks (R328) of their results. -/

namespace Sys2Proof.Machine

/-- The tag of a result that only its operands' kinds decide (R98). -/
def State.tagsOf (s : State) (l : List XReg) : Tag := anyTag (l.map s.tagOf)

/-- An operation of one x register: its result, tag and mark. -/
def aluOne (f : W64 → W64) (rd rs1 : XReg) (s : State) : Out :=
  finish (s.wx rd (f (s.rx rs1)) (s.tagsOf [rs1]) (s.anyMarked [rs1]))

/-- An operation of two x registers: its result, tag and mark. -/
def aluTwo (f : W64 → W64 → W64) (rd rs1 rs2 : XReg) (s : State) : Out :=
  finish (s.wx rd (f (s.rx rs1) (s.rx rs2)) (s.tagsOf [rs1, rs2]) (s.anyMarked [rs1, rs2]))

/-- A 12-bit immediate. -/
def simm (imm : BitVec 12) : W64 := imm.signExtend 64
/-- A 20-bit upper immediate (LUI, AUIPC). -/
def uimm20 (imm : BitVec 20) : W64 := (imm ++ 0#12).signExtend 64
/-- 1 or 0. -/
def ofBool64 (b : Bool) : W64 := if b then 1 else 0
/-- The low word of a doubleword. -/
def lo32 (v : W64) : W32 := v.setWidth 32
/-- A word result, sign-extended. -/
def sx32 (w : W32) : W64 := w.signExtend 64
/-- The low n bits of a doubleword as a number. -/
def lowBits (n : Nat) (v : W64) : Nat := v.toNat % 2 ^ n

/-- Signed division of RV64M: all ones by zero, the dividend when it overflows. -/
def rvDiv {w : Nat} (a b : BitVec w) : BitVec w := if b = 0 then BitVec.allOnes w else a.sdiv b
/-- Unsigned division of RV64M. -/
def rvDivu {w : Nat} (a b : BitVec w) : BitVec w := if b = 0 then BitVec.allOnes w else a.udiv b
/-- Signed remainder of RV64M: the dividend by zero. -/
def rvRem {w : Nat} (a b : BitVec w) : BitVec w := if b = 0 then a else a.srem b
/-- Unsigned remainder of RV64M. -/
def rvRemu {w : Nat} (a b : BitVec w) : BitVec w := if b = 0 then a else a.umod b
/-- Bits [127:64] of a product of integers. -/
def highProduct (a b : Int) : W64 := BitVec.ofInt 64 ((a * b) >>> 64)

/-- ADDI: the sum, in which a patched base moves its delta (R98). -/
def execAddi (rd rs1 : XReg) (imm : BitVec 12) (s : State) : Out :=
  let tag := match s.tagOf rs1 with
    | .patched sl d => moveTag sl d imm.toInt
    | t => anyTag [t]
  finish (s.wx rd (s.rx rs1 + simm imm) tag (s.anyMarked [rs1]))

/-- ADD (R98). -/
def execAdd (rd rs1 rs2 : XReg) (s : State) : Out :=
  finish (s.wx rd (s.rx rs1 + s.rx rs2) (addTag (s.tagOf rs1) (s.tagOf rs2) (s.rx rs1) (s.rx rs2))
    (s.anyMarked [rs1, rs2]))

/-- SUB (R98). -/
def execSub (rd rs1 rs2 : XReg) (s : State) : Out :=
  finish (s.wx rd (s.rx rs1 - s.rx rs2) (subTag (s.tagOf rs1) (s.tagOf rs2) (s.rx rs2)) (s.anyMarked [rs1, rs2]))

/-- LUI: plain (R98). -/
def execLui (rd : XReg) (imm : BitVec 20) (s : State) : Out := finish (s.wx rd (uimm20 imm) .plain false)

/-- AUIPC: an offset in the code extent (R72), plain (R98). -/
def execAuipc (rd : XReg) (imm : BitVec 20) (s : State) : Out :=
  finish (s.wx rd (s.me.pc + uimm20 imm) .plain false)

/-- SLTI. -/
def execSlti (rd rs1 : XReg) (imm : BitVec 12) (s : State) : Out := aluOne (fun a => ofBool64 (a.slt (simm imm))) rd rs1 s

/-- SLTIU. -/
def execSltiu (rd rs1 : XReg) (imm : BitVec 12) (s : State) : Out := aluOne (fun a => ofBool64 (a.ult (simm imm))) rd rs1 s

/-- XORI. -/
def execXori (rd rs1 : XReg) (imm : BitVec 12) (s : State) : Out := aluOne (fun a => a ^^^ simm imm) rd rs1 s

/-- ORI. -/
def execOri (rd rs1 : XReg) (imm : BitVec 12) (s : State) : Out := aluOne (fun a => a ||| simm imm) rd rs1 s

/-- ANDI. -/
def execAndi (rd rs1 : XReg) (imm : BitVec 12) (s : State) : Out := aluOne (fun a => a &&& simm imm) rd rs1 s

/-- ADDIW. -/
def execAddiw (rd rs1 : XReg) (imm : BitVec 12) (s : State) : Out := aluOne (fun a => sx32 (lo32 (a + simm imm))) rd rs1 s

/-- SLLI. -/
def execSlli (rd rs1 : XReg) (sh : BitVec 6) (s : State) : Out := aluOne (fun a => a <<< sh.toNat) rd rs1 s

/-- SRLI. -/
def execSrli (rd rs1 : XReg) (sh : BitVec 6) (s : State) : Out := aluOne (fun a => a >>> sh.toNat) rd rs1 s

/-- SRAI. -/
def execSrai (rd rs1 : XReg) (sh : BitVec 6) (s : State) : Out := aluOne (fun a => a.sshiftRight sh.toNat) rd rs1 s

/-- SLLIW. -/
def execSlliw (rd rs1 : XReg) (sh : BitVec 5) (s : State) : Out := aluOne (fun a => sx32 (lo32 a <<< sh.toNat)) rd rs1 s

/-- SRLIW. -/
def execSrliw (rd rs1 : XReg) (sh : BitVec 5) (s : State) : Out := aluOne (fun a => sx32 (lo32 a >>> sh.toNat)) rd rs1 s

/-- SRAIW. -/
def execSraiw (rd rs1 : XReg) (sh : BitVec 5) (s : State) : Out := aluOne (fun a => sx32 ((lo32 a).sshiftRight sh.toNat)) rd rs1 s

/-- SLL. -/
def execSll (rd rs1 rs2 : XReg) (s : State) : Out := aluTwo (fun a b => a <<< lowBits 6 b) rd rs1 rs2 s

/-- SLT. -/
def execSlt (rd rs1 rs2 : XReg) (s : State) : Out := aluTwo (fun a b => ofBool64 (a.slt b)) rd rs1 rs2 s

/-- SLTU. -/
def execSltu (rd rs1 rs2 : XReg) (s : State) : Out := aluTwo (fun a b => ofBool64 (a.ult b)) rd rs1 rs2 s

/-- XOR. -/
def execXor (rd rs1 rs2 : XReg) (s : State) : Out := aluTwo (fun a b => a ^^^ b) rd rs1 rs2 s

/-- SRL. -/
def execSrl (rd rs1 rs2 : XReg) (s : State) : Out := aluTwo (fun a b => a >>> lowBits 6 b) rd rs1 rs2 s

/-- SRA. -/
def execSra (rd rs1 rs2 : XReg) (s : State) : Out := aluTwo (fun a b => a.sshiftRight (lowBits 6 b)) rd rs1 rs2 s

/-- OR. -/
def execOr (rd rs1 rs2 : XReg) (s : State) : Out := aluTwo (fun a b => a ||| b) rd rs1 rs2 s

/-- AND. -/
def execAnd (rd rs1 rs2 : XReg) (s : State) : Out := aluTwo (fun a b => a &&& b) rd rs1 rs2 s

/-- MUL. -/
def execMul (rd rs1 rs2 : XReg) (s : State) : Out := aluTwo (fun a b => a * b) rd rs1 rs2 s

/-- MULH. -/
def execMulh (rd rs1 rs2 : XReg) (s : State) : Out := aluTwo (fun a b => highProduct a.toInt b.toInt) rd rs1 rs2 s

/-- MULHSU. -/
def execMulhsu (rd rs1 rs2 : XReg) (s : State) : Out := aluTwo (fun a b => highProduct a.toInt b.toNat) rd rs1 rs2 s

/-- MULHU. -/
def execMulhu (rd rs1 rs2 : XReg) (s : State) : Out := aluTwo (fun a b => highProduct a.toNat b.toNat) rd rs1 rs2 s

/-- DIV. -/
def execDiv (rd rs1 rs2 : XReg) (s : State) : Out := aluTwo (fun a b => rvDiv a b) rd rs1 rs2 s

/-- DIVU. -/
def execDivu (rd rs1 rs2 : XReg) (s : State) : Out := aluTwo (fun a b => rvDivu a b) rd rs1 rs2 s

/-- REM. -/
def execRem (rd rs1 rs2 : XReg) (s : State) : Out := aluTwo (fun a b => rvRem a b) rd rs1 rs2 s

/-- REMU. -/
def execRemu (rd rs1 rs2 : XReg) (s : State) : Out := aluTwo (fun a b => rvRemu a b) rd rs1 rs2 s

/-- ADDW. -/
def execAddw (rd rs1 rs2 : XReg) (s : State) : Out := aluTwo (fun a b => sx32 (lo32 a + lo32 b)) rd rs1 rs2 s

/-- SUBW. -/
def execSubw (rd rs1 rs2 : XReg) (s : State) : Out := aluTwo (fun a b => sx32 (lo32 a - lo32 b)) rd rs1 rs2 s

/-- SLLW. -/
def execSllw (rd rs1 rs2 : XReg) (s : State) : Out := aluTwo (fun a b => sx32 (lo32 a <<< lowBits 5 b)) rd rs1 rs2 s

/-- SRLW. -/
def execSrlw (rd rs1 rs2 : XReg) (s : State) : Out := aluTwo (fun a b => sx32 (lo32 a >>> lowBits 5 b)) rd rs1 rs2 s

/-- SRAW. -/
def execSraw (rd rs1 rs2 : XReg) (s : State) : Out := aluTwo (fun a b => sx32 ((lo32 a).sshiftRight (lowBits 5 b))) rd rs1 rs2 s

/-- MULW. -/
def execMulw (rd rs1 rs2 : XReg) (s : State) : Out := aluTwo (fun a b => sx32 (lo32 a * lo32 b)) rd rs1 rs2 s

/-- DIVW. -/
def execDivw (rd rs1 rs2 : XReg) (s : State) : Out := aluTwo (fun a b => sx32 (rvDiv (lo32 a) (lo32 b))) rd rs1 rs2 s

/-- DIVUW. -/
def execDivuw (rd rs1 rs2 : XReg) (s : State) : Out := aluTwo (fun a b => sx32 (rvDivu (lo32 a) (lo32 b))) rd rs1 rs2 s

/-- REMW. -/
def execRemw (rd rs1 rs2 : XReg) (s : State) : Out := aluTwo (fun a b => sx32 (rvRem (lo32 a) (lo32 b))) rd rs1 rs2 s

/-- REMUW. -/
def execRemuw (rd rs1 rs2 : XReg) (s : State) : Out := aluTwo (fun a b => sx32 (rvRemu (lo32 a) (lo32 b))) rd rs1 rs2 s

end Sys2Proof.Machine
end

