-- ==== Sys2Proof/Machine/LoadStore.lean ====
section
/-! DEFINITION. Sys2Proof/Machine/LoadStore.lean: the scalar loads and stores (R79 to R82, R119, R250 to R256). An access
never faults: its failing bytes read 0 or are dropped. -/

namespace Sys2Proof.Machine

/-! ### Pointers as an access uses them -/

/-- An access of n bytes resolved at its issue point (R81, R119, R123). -/
inductive Resolved where
  /-- the access is made: its path, its token, and where each byte lies -/
  | access (path : Path) (t : Option Token) (off : Nat) (places : Places)
  | stray
  | stall (pte : BitVec 20)
  | withdrawn (pte : BitVec 20)
  deriving DecidableEq, Repr

/-- Resolves an access of the issuing core through a pointer: the right it needs by policy, and the mstat bit of a
failing byte. -/
def State.resolve (s : State) (p : W64) (n : Nat) (need : Nat → BitVec 4) (bit : ByteFail → BitVec 8) : Resolved :=
  let g := s.curCore
  match s.ptr g s.mySet p with
  | .stray => .stray
  | .vault g' off => .access .vault none off (vaultPlaces g' off n)
  | .token pol k off =>
    let t := vget s.mySet.k k
    if !t.valid then .stray
    else
      match s.issueCheck g t with
      | .withdrawn => .withdrawn t.pte
      | .stall => .stall t.pte
      | .go => .access (tokenPath pol t) (some t) off (s.tokenPlaces g t (need (t.policy pol)) off n bit)

/-- The denial records of an access (R121): one for each denied granule. -/
def State.recordDenials (s : State) (w : Who) (t : Option Token) (off code : Nat) (places : Places)
    (bit : ByteFail → BitVec 8) : State :=
  match t with
  | none => s
  | some t =>
    s.denialRecords w t code (places.zipIdx.filterMap fun (p : Except (BitVec 8) Nat × Nat) =>
      match p.1 with
      | .error b => if b = bit .denied then some (off + p.2) else none
      | .ok _ => none)

/-- Some byte of the access lies in a die status space (R233). -/
def Places.inStatus (l : Places) : Bool := l.locs.any fun a => !isVault a && region a == .status

/-! ### Loads -/

/-- Extends the bytes of a load to 64 bits. -/
def extendLoad (sgn : Bool) (bytes : List Byte) : W64 :=
  let v := leNat bytes
  if sgn && 2 ^ (8 * bytes.length) ≤ 2 * v then BitVec.ofNat 64 (v + (2 ^ 64 - 2 ^ (8 * bytes.length)))
  else BitVec.ofNat 64 v

/-- A load whose bytes are all known writes its register (R81, R82, R328). -/
def State.finishLoad (s : State) (w : Who) (xd : XReg) (sgn : Bool) (bytes : List LdByte) : State :=
  let psn := anyPoison bytes
  let s := if psn then s.orMstat w mPsn else s
  s.updWho w fun x => (x.wx xd (extendLoad sgn (knownBytes bytes)) .vol psn).goOn

/-- The bytes of a load, in ascending order; those of the core's die that no copy answers and whose bit is set in later are left
to be performed later. -/
def State.loadBytes (s : State) (w : Who) (reqtag : W16) (path : Path) (t : Option Token) :
    Places → List (Nat × Nat) → Nat → State × List LdByte
  | [], _, _ => (s, [])
  | .error _ :: l, mine, later =>
    let (s, bs) := s.loadBytes w reqtag path t l mine (later / 2)
    (s, .val 0 false :: bs)
  | .ok loc :: l, mine, later =>
    let (s, b, mine) := s.loadByte w reqtag path loc t mine (later % 2 == 1)
    let (s, bs) := s.loadBytes w reqtag path t l mine (later / 2)
    (s, b :: bs)

/-- Performs bytes of a load that are still due, but for those that the hardware leaves for later once more (R249). -/
def State.dueBytes (s : State) (g : Nat) : List LdByte → Nat → State × List LdByte
  | [], _ => (s, [])
  | .due loc path t :: l, later =>
    let (s, b) := if later % 2 = 1 then (s, .due loc path t) else s.dueByte g path loc t
    let (s, bs) := s.dueBytes g l (later / 2)
    (s, b :: bs)
  | b :: l, later =>
    let (s, bs) := s.dueBytes g l (later / 2)
    (s, b :: bs)

/-- An access that R249 does not call single-copy atomic: misaligned, or with failing bytes. Its bytes are independent, and
a choice of the hardware leaves some of them for later. -/
def splitAccess (n : Nat) (p : W64) (bits : BitVec 8) : Bool := p.toNat % n != 0 || bits != 0

/-- The bytes that a load leaves for later: none of a single-copy atomic one. -/
def State.laterBytes (s : State) (n : Nat) (p : W64) (bits : BitVec 8) : Nat × State :=
  if splitAccess n p bits then s.choose else (0, s)

/-- The doubleword of a status space that its die answers, at its place in a line (R245). Another package's dies are not in
the state: their block reads as a free value (log entry 55). -/
def State.statusAnswer (s : State) (home off : Nat) : W64 :=
  if home / 8 == s.pkgid.toNat then s.statusWord (home % 8) off else Config.otherStatus home off s.clk

/-- What a load of the status space does at its die (R344). -/
def State.statusTouch (s : State) (home off : Nat) : State :=
  if home / 8 == s.pkgid.toNat then s.statusRead (home % 8) off else s

/-- An aligned 8-byte load of a status space (R233, R245, R345): of the core's own die at once, of another die by a request
(R236), when a tag is free (R239). -/
def State.loadStatus (s : State) (w : Who) (t : Option Token) (xd : XReg) (sgn : Bool) (loc : Nat) : State :=
  match s.addrFate w.g loc (s.via w.g t) with
  | .ok =>
    let home := s.homeDie loc (s.via w.g t)
    let off := loc % 2 ^ 21
    if s.remote w.g loc (s.via w.g t) then
      let (id, s) := s.send w (s.reqtagOf w) (.status off) (loc / 64) home (t.map (·.pte)) false false
      let s := match t with
        | some t => s.flyIn (w.g / 128) t.pte
        | none => s
      s.updWho w (Ctx.holdAt s.clk (.load xd sgn ((List.range 8).map fun i => .req id (loc % 64 + i))))
    else (s.statusTouch home off).finishLoad w xd sgn ((leBytes 8 (s.statusAnswer home off).toNat).map fun b => .val b false)
  | f => (s.countFate w.g f).finishLoad w xd sgn (List.replicate 8 poisonZero)

/-- A load whose bytes are performed independently goes on with those still due (R249). -/
def State.readDue (s : State) (g : Nat) (c : CtxId) : State :=
  let t := s.aset g
  let w : Who := ⟨g, t.sid, c⟩
  match (nget t.ctx c).hold with
  | .load xd sgn bytes =>
    if !bytes.any fun b => match b with | .due .. => true | _ => false then s
    else
      let (later, s) := s.choose
      let (s, bytes) := s.dueBytes g bytes later
      if allKnown bytes then s.finishLoad w xd sgn bytes else s.updWho w (Ctx.holdOn (.load xd sgn bytes))
  | _ => s

/-- A stray load reads 0 and sets mstat.stray (R81). -/
def State.strayLoad (s : State) (rd : XReg) : State := (s.orMstat s.iam mStray).wx rd 0 .vol false

/-- A scalar load of n bytes (R79 to R82). -/
def scalarLoad (n : Nat) (sgn : Bool) (rd rs1 : XReg) (imm : BitVec 12) (s : State) : Out :=
  let w := s.iam
  match s.resolve (s.rx rs1 + simm imm) n readRights ByteFail.readBit with
  | .stray => finish ((s.useX rs1).strayLoad rd)
  | .withdrawn e => .next (s.trapMe .revk (BitVec.setWidth 64 e))
  | .stall e => .next (s.holdMe (.stall e))
  | .access path t off places =>
    if s.postedOver w.g places.locs || s.vStoring w.g places.locs then .next (s.holdMe .buffer)
    else
      let s' := (s.useX rs1).orMstat w places.bits
      let s' := s'.recordDenials w t off 0 places ByteFail.readBit
      if places.inStatus then
        if n = 8 && places.locs.length == 8 && places.locs.headD 1 % 8 == 0 then
          if s.remote w.g (places.locs.headD 0) (s.via w.g t) && !s.hasTag (w.g / 128) then .next (s.holdMe .tag)
          else .next (s'.loadStatus w t rd sgn (places.locs.headD 0))
        else finish (s'.strayLoad rd)
      else
        let (later, s') := s'.laterBytes n (s.rx rs1 + simm imm) places.bits
        let (s', bytes) := s'.loadBytes w s.mySet.reqtag path t places [] later
        if allKnown bytes then .next (s'.finishLoad w rd sgn bytes)
        else if tagCount < (s'.die (w.g / 128)).tags.length then .next (s.holdMe .tag)
        else .next (s'.holdMe (.load rd sgn bytes))

/-- LB. -/
def execLb (rd rs1 : XReg) (imm : BitVec 12) (s : State) : Out := scalarLoad 1 true rd rs1 imm s
/-- LH. -/
def execLh (rd rs1 : XReg) (imm : BitVec 12) (s : State) : Out := scalarLoad 2 true rd rs1 imm s
/-- LW. -/
def execLw (rd rs1 : XReg) (imm : BitVec 12) (s : State) : Out := scalarLoad 4 true rd rs1 imm s
/-- LD. -/
def execLd (rd rs1 : XReg) (imm : BitVec 12) (s : State) : Out := scalarLoad 8 false rd rs1 imm s
/-- LBU. -/
def execLbu (rd rs1 : XReg) (imm : BitVec 12) (s : State) : Out := scalarLoad 1 false rd rs1 imm s
/-- LHU. -/
def execLhu (rd rs1 : XReg) (imm : BitVec 12) (s : State) : Out := scalarLoad 2 false rd rs1 imm s
/-- LWU. -/
def execLwu (rd rs1 : XReg) (imm : BitVec 12) (s : State) : Out := scalarLoad 4 false rd rs1 imm s

/-! ### Stores -/

/-- The bytes of a store that succeed, with their values. -/
def storeBytes (places : Places) (v : W64) : List (Nat × Byte) :=
  (places.zip (leBytes places.length v.toNat)).filterMap fun (p : Except (BitVec 8) Nat × Byte) =>
    match p.1 with
    | .ok a => some (a, p.2)
    | .error _ => none

/-- A store enters the buffer (R253), whole or as independent bytes (R249); a marked value poisons its words and enters the
failure record (R328). -/
def State.enterStore (s : State) (w : Who) (bytes : List (Nat × Byte)) (poison : Bool) (t : Option Token) (split : Bool) :
    State :=
  let s := if poison then s.addFail w true false false false else s
  s.bufferStore w bytes poison t split

/-- A scalar store through a pointer outside spaces 0x0 and 0x1 smudges a recording with reason 1 (R99). -/
def State.storeSmudge (s : State) (p : W64) : State :=
  if 2 ≤ (p.extractLsb' 60 4).toNat then s.smudge s.curCore s.mySet.sid 1 else s

/-- A scalar store of n bytes (R79 to R82, R253). A full buffer drains and holds the store (R254): which entries it names is the
model's choice, all of them (log entry 68). -/
def scalarStore (n : Nat) (rs2 rs1 : XReg) (imm : BitVec 12) (s : State) : Out :=
  let w := s.iam
  let p := s.rx rs1 + simm imm
  match s.resolve p n (fun _ => 2) ByteFail.writeBit with
  | .stray => finish (((s.useX rs1).storeSmudge p).orMstat w mStray)
  | .withdrawn e => .next (s.trapMe .revk (BitVec.setWidth 64 e))
  | .stall e => .next (s.holdMe (.stall e))
  | .access _ t off places =>
    if s.postedOver w.g places.locs || s.vStoring w.g places.locs then .next (s.holdMe .buffer)
    else if places.inStatus then finish (((s.useX rs1).storeSmudge p).orMstat w (mStray ||| places.bits))
    else if !(s.core w.g).sbRoom places.locs then
      .next ((s.triggerDrain w.g (s.core w.g).seq).holdMe .buffer)
    else
      let s := (((s.useX rs1).storeSmudge p).orMstat w places.bits).recordDenials w t off 1 places ByteFail.writeBit
      finish (s.enterStore w (storeBytes places (s.rx rs2)) (s.me.marked rs2) t (splitAccess n p places.bits))

/-- SB. -/
def execSb (rs2 rs1 : XReg) (imm : BitVec 12) (s : State) : Out := scalarStore 1 rs2 rs1 imm s
/-- SH. -/
def execSh (rs2 rs1 : XReg) (imm : BitVec 12) (s : State) : Out := scalarStore 2 rs2 rs1 imm s
/-- SW. -/
def execSw (rs2 rs1 : XReg) (imm : BitVec 12) (s : State) : Out := scalarStore 4 rs2 rs1 imm s
/-- SD. -/
def execSd (rs2 rs1 : XReg) (imm : BitVec 12) (s : State) : Out := scalarStore 8 rs2 rs1 imm s

end Sys2Proof.Machine
end

