-- ==== Sys2Proof/Machine/Control.lean ====
section
/-! DEFINITION. Sys2Proof/Machine/Control.lean: branches and jumps (R75 to R77), traps by instruction (R90, R91), the CSR
instructions (R40, R83), the scalar fences (R78, R79), pointer composition (R100), patch tags (R103) and the results of
the vector engine (R102). -/

namespace Sys2Proof.Machine

/-! ### Branches and jumps (R75, R76) -/

/-- A jump of the issuing context to a checked target (R76): what its issue does in any case, what it writes when the
target passes, and the pc. A stalled fetch leaves the jump to issue again. -/
def jumpTo (t : W64) (pre write : State → State) (s : State) : Out :=
  match s.checkTarget s.curCore s.curCtx t with
  | .ok => .next ((write (pre s)).updMe fun x =>
      { x with pc := t, seek := false, st := .run, hold := .none, slotAt := slotAfterJump s.curCtx s.clk })
  | .ftgt => .next ((pre s).trapMe .ftgt t)
  | .fhdr w => .next ((pre s).trap s.curCore s.curCtx .fhdr (BitVec.setWidth 64 w) t)
  | .stall h => .next (s.holdMe h)
  | .stale => .next (s.haltAll s.curCore)

/-- The target of a branch: its offset bits [12:1] added to the pc. -/
def branchTarget (pc : W64) (off : BitVec 12) : W64 := pc + (off ++ 0#1).signExtend 64
/-- The target of jal: its offset bits [20:1] added to the pc. -/
def jalTarget (pc : W64) (off : BitVec 20) : W64 := pc + (off ++ 0#1).signExtend 64
/-- The target of jalr: bit 0 of the sum is cleared (R76). -/
def jalrTarget (base : W64) (imm : BitVec 12) : W64 := (base + simm imm) &&& ~~~1#64

/-- A conditional branch with its funct3 (R76, R99): one that is not taken checks nothing about its target. -/
def branchIf (rel : BitVec 3) (cond : W64 → W64 → Bool) (rs1 rs2 : XReg) (off : BitVec 12) (s : State) : Out :=
  let taken := cond (s.rx rs1) (s.rx rs2)
  let pre (s : State) : State := ((s.useX rs1).useX rs2).recBranch rel rs1 rs2 taken
  if taken then jumpTo (branchTarget s.me.pc off) pre id s else finish (pre s)

/-- BEQ. -/
def execBeq (rs1 rs2 : XReg) (off : BitVec 12) (s : State) : Out := branchIf 0 (· == ·) rs1 rs2 off s
/-- BNE. -/
def execBne (rs1 rs2 : XReg) (off : BitVec 12) (s : State) : Out := branchIf 1 (· != ·) rs1 rs2 off s
/-- BLT. -/
def execBlt (rs1 rs2 : XReg) (off : BitVec 12) (s : State) : Out := branchIf 4 BitVec.slt rs1 rs2 off s
/-- BGE. -/
def execBge (rs1 rs2 : XReg) (off : BitVec 12) (s : State) : Out :=
  branchIf 5 (fun a b => !a.slt b) rs1 rs2 off s
/-- BLTU. -/
def execBltu (rs1 rs2 : XReg) (off : BitVec 12) (s : State) : Out := branchIf 6 BitVec.ult rs1 rs2 off s
/-- BGEU. -/
def execBgeu (rs1 rs2 : XReg) (off : BitVec 12) (s : State) : Out :=
  branchIf 7 (fun a b => !a.ult b) rs1 rs2 off s

/-- What the search for the link value finds (R75). -/
inductive Link where
  | value (v : W64)
  | stall (h : Hold)
  | stale
  deriving DecidableEq, Repr

/-- The link value of the issuing context: its next owned lane, or 0 (R75). -/
def State.link (s : State) : Link :=
  match s.nextLane s.curCore s.curCtx s.me.pc with
  | .lane a => .value a
  | .badHeader _ _ | .starved _ => .value 0
  | .stall h => .stall h
  | .stale => .stale

/-- Goes on with the link value. -/
def withLink (s : State) (k : W64 → Out) : Out :=
  match s.link with
  | .value v => k v
  | .stall h => .next (s.holdMe h)
  | .stale => .next (s.haltAll s.curCore)

/-- JAL (R75, R76): the link is plain (R98) and is written only when the target passes its checks (log entry 7). -/
def execJal (rd : XReg) (off : BitVec 20) (s : State) : Out :=
  withLink s fun v => jumpTo (jalTarget s.me.pc off) id (fun s => s.wx rd v .plain false) s

/-- JALR (R75, R76): a base that is not plain smudges a recording with reason 2 (R99). The link of a volatile base is
volatile, by the second row of R98, which comes before the row of the links. -/
def execJalr (rd rs1 : XReg) (imm : BitVec 12) (s : State) : Out :=
  withLink s fun v =>
    let pre (s : State) : State := (if s.tagOf rs1 == .plain then s else s.smudgeMe 2).useX rs1
    let tag : Tag := if s.tagOf rs1 == .vol then .vol else .plain
    jumpTo (jalrTarget (s.rx rs1) imm) pre (fun s => s.wx rd v tag false) s

/-- ECALL: tval is the next owned lane (R91). -/
def execEcall (s : State) : Out := withLink s fun v => .next (s.trapMe .ecall v)

/-- EBREAK (R91). -/
def execEbreak (s : State) : Out := withLink s fun v => .next (s.trapMe .ebrk v)

/-- A word that decodes to nothing traps ILL with the word in tval (R35, R91). -/
def execIllegalInstruction (w : W32) (s : State) : Out := .next (s.trapMe .ill (BitVec.setWidth 64 w))

/-! ### CSR instructions (R40, R83) -/

/-- The effect of a CSR instruction (R40, R83): xd takes the old value, volatile (R98). -/
def State.csrAct (s : State) (op : CsrOp) (rd : XReg) (csr : CsrName) (src : W64) (srcZero mark : Bool) : State :=
  let old := csrRead s csr
  let s := match csrNext op old src srcZero with
    | some v => s.updMe (csrWrite csr v)
    | none => s
  s.wx rd old .vol mark

/-- A CSR instruction: a supervisor CSR traps PRIV in user mode (R40). -/
def csrInstr (i : Instr) (op : CsrOp) (rd : XReg) (csr : CsrName) (src : W64) (srcZero mark : Bool) (s : State) : Out :=
  let act (s : State) : Out := finish (s.csrAct op rd csr src srcZero mark)
  if csrSup csr then privileged i s act else act s

/-- CSRRW. -/
def execCsrrw (rd : XReg) (csr : CsrName) (rs1 : XReg) (s : State) : Out :=
  csrInstr (.csrrw rd csr rs1) .rw rd csr (s.rx rs1) (rs1 == 0) (s.me.marked rs1) s
/-- CSRRS. -/
def execCsrrs (rd : XReg) (csr : CsrName) (rs1 : XReg) (s : State) : Out :=
  csrInstr (.csrrs rd csr rs1) .rs rd csr (s.rx rs1) (rs1 == 0) (s.me.marked rs1) s
/-- CSRRC. -/
def execCsrrc (rd : XReg) (csr : CsrName) (rs1 : XReg) (s : State) : Out :=
  csrInstr (.csrrc rd csr rs1) .rc rd csr (s.rx rs1) (rs1 == 0) (s.me.marked rs1) s
/-- CSRRWI. -/
def execCsrrwi (rd : XReg) (csr : CsrName) (uimm : BitVec 5) (s : State) : Out :=
  csrInstr (.csrrwi rd csr uimm) .rwi rd csr (uimm.setWidth 64) (uimm == 0) false s
/-- CSRRSI. -/
def execCsrrsi (rd : XReg) (csr : CsrName) (uimm : BitVec 5) (s : State) : Out :=
  csrInstr (.csrrsi rd csr uimm) .rsi rd csr (uimm.setWidth 64) (uimm == 0) false s
/-- CSRRCI. -/
def execCsrrci (rd : XReg) (csr : CsrName) (uimm : BitVec 5) (s : State) : Out :=
  csrInstr (.csrrci rd csr uimm) .rci rd csr (uimm.setWidth 64) (uimm == 0) false s

/-! ### The vector-engine hold of vxmv, mpop and accesses to srst (R62, R102) -/

/-- Every V entry numbered up to n has executed: of any context, or those that draw from the srst of one (R62, R300). -/
def CtxSet.vDone (t : CtxSet) (n : Nat) (only : Option CtxId) : Bool :=
  t.vq.all fun e => n < e.num || (match only with | some c => e.who != c | none => false)

/-- Whose entries an instruction waits for: those of its own context for srst, and of every context otherwise. -/
def vWaitsFor (c : CtxId) : Instr → Option CtxId
  | .srstAccess .. => some c
  | _ => none

/-- The effect of an access to srst (R62). -/
def State.srstAct (s : State) (op : CsrOp) (rd : XReg) (src : BitVec 5) : State :=
  match op with
  | .rwi | .rsi | .rci => s.csrAct op rd .srst (src.setWidth 64) (src == 0) false
  | _ => s.csrAct op rd .srst (s.rx src) (src == 0) (s.me.marked src)

/-- The effect of vxmv (R102): an index past the last element reads 0. -/
def State.vxmvAct (s : State) (ty : ElemTy) (xd : XReg) (vs1 : VReg) (xi : XReg) : State :=
  let i := s.rx xi
  let t := s.mySet
  if elemCount ty ≤ i.toNat then s.wx xd 0 .vol (s.me.marked xi)
  else
    let e := elem (vget t.v vs1) ty i.toNat
    let v : W64 := match ty with
      | .i8 => (BitVec.ofNat 8 e).signExtend 64
      | .i32 => (BitVec.ofNat 32 e).signExtend 64
      | _ => BitVec.ofNat 64 e
    s.wx xd v .vol (s.me.marked xi || elemMarked (vget t.vpois vs1) ty i.toNat)

/-- The effect of mpop (R102). -/
def State.mpopAct (s : State) (ty : ElemTy) (xd : XReg) (mk : MReg) : State :=
  let m := s.mySet.mask mk
  s.wx xd (BitVec.ofNat 64 ((List.range (elemCount ty)).filter fun i => m.getLsbD i).length) .vol false

/-- The effect of an instruction held for the vector engine. -/
def State.vectorAct (s : State) (i : Instr) : State :=
  match i with
  | .srstAccess op rd src => s.srstAct op rd src
  | .vxmv ty xd vs1 xi => s.vxmvAct ty xd vs1 xi
  | .mpop ty xd m => s.mpopAct ty xd m
  | _ => s

/-- Waits until the V entries enqueued so far have executed, then acts (R62, R102). -/
def vectorWait (i : Instr) (s : State) : Out :=
  let n := (s.mySet.time .tlv).issued
  if s.mySet.vDone n (vWaitsFor s.curCtx i) then finish (s.vectorAct i)
  else .next (s.holdMe (.vector n i))

/-- SRST_ACCESS: a CSR instruction that names srst (R62). -/
def execSrstAccess (op : CsrOp) (rd : XReg) (src : BitVec 5) (s : State) : Out :=
  vectorWait (.srstAccess op rd src) s

/-- VXMV (R102): a recording is smudged with reason 7 (R99). -/
def execVxmv (ty : ElemTy) (xd : XReg) (vs1 : VReg) (xi : XReg) (s : State) : Out :=
  vectorWait (.vxmv ty xd vs1 xi) (s.smudgeMe 7)

/-- MPOP (R102): a recording is smudged with reason 7 (R99). -/
def execMpop (ty : ElemTy) (xd : XReg) (mk : MReg) (s : State) : Out := vectorWait (.mpop ty xd mk) (s.smudgeMe 7)

/-! ### Scalar fences (R78, R79) -/

/-- RVFENCE (R79): the loads of a context are performed in order and its stores enter the buffer in order, so every
earlier access is already ordered at scope .core; pred and succ are ignored. -/
def execRvfence (_pred _succ : BitVec 4) (_rd _rs1 : XReg) (s : State) : Out := finish s

/-- The fetch buffer is discarded (R78). -/
def State.dropFetch (s : State) (g : Nat) : State := s.updCore g fun k => { k with fetch := [] }

/-- RVFENCE_I (R78): every earlier store of the core is registered, then the fetch buffer is discarded. -/
def execRvfenceI (s : State) : Out :=
  let g := s.curCore
  let n := (s.core g).seq
  if s.sbDone g n then finish (s.dropFetch g)
  else .next ((s.triggerDrain g n).holdMe (.drain n true))

/-! ### Pointers and patch tags (R100, R103) -/

/-- The pointer that ptr composes (R100). -/
def composePtr (ks : KReg) (off : W64) (policy : BitVec 2) : W64 :=
  let p : W64 := 2#4 ++ (0#2 ++ policy) ++ ks ++ 0#4 ++ off.extractLsb' 0 48
  if off.extractLsb' 48 16 = 0 then p else p ||| (0xF#64 <<< 48)

/-- PTR (R100). -/
def execPtr (xd : XReg) (ks : KReg) (xoff : XReg) (policy : BitVec 2) (s : State) : Out :=
  finish (s.wx xd (composePtr ks (s.rx xoff) policy) (s.tagsOf [xoff]) (s.anyMarked [xoff]))

/-- Changes the tag of an x register; x0 is always plain (R97). -/
def State.setTag (s : State) (r : XReg) (t : Tag) : State :=
  if r = 0 then s else s.updMe fun x => { x with tag := vset x.tag r t }

/-- GPATCH (R103): the value of xd is never changed. As a patch value of the recording it consumes a mark (R328). R103 acts while
the core records, also in a recording that has been smudged, whose used slots and values go on changing (DESIGN CHOICE, log
entry 72). -/
def execGpatch (xd : XReg) (slot : BitVec 4) (s : State) : Out :=
  match s.recording with
  | none => finish (s.setTag xd (.patched slot 0))
  | some r =>
    let s := s.useX xd
    let v := s.rx xd
    let upd (s : State) (f : Recording → Recording) : State :=
      s.updCore s.curCore fun k => { k with rec_ := k.rec_.map f }
    if r.rejected.getLsbD slot.toNat then finish (s.setTag xd .opq)
    else if !r.used.getLsbD slot.toNat then
      finish ((upd s fun r => { r with used := r.used ||| (1#16 <<< slot.toNat), vals := vset r.vals slot v }).setTag xd
        (.patched slot 0))
    else if vget r.vals slot = v then finish (s.setTag xd (.patched slot 0))
    else finish ((upd s fun r => { r with rejected := r.rejected ||| (1#16 <<< slot.toNat) }).setTag xd .opq)

/-- GUNTAG (R103). -/
def execGuntag (xd : XReg) (s : State) : Out := finish (s.setTag xd .plain)

end Sys2Proof.Machine
end

