-- ==== Sys2Proof/Machine/Fetch.lean ====
section
/-! DEFINITION. Sys2Proof/Machine/Fetch.lean: fetching the next instruction of a context (R71 to R74, R27, R28) and taking
an asynchronous cause before it (R92). -/

namespace Sys2Proof.Machine

/-- What fetching the next instruction of a context gives. -/
inductive Fetched where
  /-- its word and its unit; the context's pc is at its lane -/
  | word (s : State) (u : LaneUnit) (w : W32)
  /-- no instruction: a trap, a halt or a stall instead -/
  | done (s : State)
  deriving Repr

/-- A context whose fetch waits: on occultation (R72), or for a remote line (R236). It does not lose its place. -/
def State.fetchStall (s : State) (g : Nat) (c : CtxId) (h : Hold) : State :=
  s.updCtx g c fun x => { x with st := .wait, hold := h, waited := 0, waitMark := s.clk }

/-- The word at a lane whose checks have passed. -/
def State.laneWord (s : State) (g : Nat) (a : W64) : Fetched :=
  let t := (s.aset g).codeTok
  match s.readLine g t (lineAddr a).toNat with
  | .line l => .word (s.keepLine g t (lineAddr a).toNat) (unitOfLane (headerOf l) (laneIdx a)) (laneOf l (laneIdx a))
  | _ => .done s

/-- The check of tvec of a trap that has been taken is over (R93). -/
def State.entered (s : State) (g : Nat) (c : CtxId) : State :=
  if (s.ctx g c).entering then s.updCtx g c fun x => { x with entering := false } else s

/-- The instruction at the pc, checked as an entry lane, a handler or a branch target (R71, R76). A handler whose check a
trap left open halts the context when it fails (R93). -/
def State.fetchAt (s : State) (g : Nat) (c : CtxId) : Fetched :=
  let a := (s.ctx g c).pc
  let bad (t : State) : Fetched := .done (if (s.ctx g c).entering then s.halt g c else t)
  match s.checkTarget g c a with
  | .ok => (s.entered g c).laneWord g a
  | .ftgt => bad (s.trap g c .ftgt a a)
  | .fhdr w => bad (s.trap g c .fhdr (BitVec.setWidth 64 w) a)
  | .stall h => .done (s.fetchStall g c h)
  | .stale => .done (s.haltAll g)

/-- The next instruction of a context: the first owned lane after the last one issued (R73, R74), or the one at pc. -/
def State.fetchNext (s : State) (g : Nat) (c : CtxId) : Fetched :=
  let x := s.ctx g c
  if x.seek then
    match s.nextLane g c x.pc with
    | .lane a => (s.updCtx g c fun x => { x with pc := a, seek := false }).laneWord g a
    | .badHeader line w => .done (s.trap g c .fhdr (BitVec.setWidth 64 w) (line + 4))
    | .starved line => .done (s.trap g c .fstv x.pc (line + 4))
    | .stall h => .done (s.fetchStall g c h)
    | .stale => .done (s.haltAll g)
  else s.fetchAt g c

/-- A takeable pending cause is taken before the instruction at pc (R92), but not while the check of tvec of a trap that has been
taken is still open: its cause comes first (R93). -/
def State.takeAsync (s : State) (g : Nat) (c : CtxId) : Option State :=
  match if (s.ctx g c).entering then none else (s.ctx g c).takeable with
  | none => none
  | some (k, v, p) => some ((s.updCtx g c fun x => { x with pend := p }).trap g c k v (s.ctx g c).pc)

/-- A fetch that waits for a remote code line asks for it, once a tag is free (R72, R236, R239). -/
def State.fetchRemote (s : State) (g : Nat) (c : CtxId) (loc : Nat) : State :=
  let line := loc / 64
  let asked := s.reqs.any fun e => e.2.core == g && e.2.line == line && (e.2.what == .read 4 || e.2.what == .read 5) && !e.2.dropped
  if asked || !s.hasTag (g / 128) then s
  else
    let t := s.aset g
    let s := (s.send ⟨g, t.sid, c⟩ t.reqtag (.read 4) line (locDie s loc) (some t.codeTok.pte) false false).2
    s.flyIn (g / 128) t.codeTok.pte

/-- The count of a wait of a context of the active set, in clk (R87). -/
def State.waitCount (s : State) (g : Nat) (c : CtxId) : Nat :=
  let x := s.ctx g c
  x.waited + (s.clk - x.waitMark)

/-- A wait's count has reached a limit; a limit of 0 disables the check (R87). -/
def State.expired (s : State) (g : Nat) (c : CtxId) (limit : W32) : Bool :=
  limit != 0 && limit.toNat ≤ s.waitCount g c

end Sys2Proof.Machine
end

