-- ==== Sys2Proof/Machine/Tokens.lean ====
section
/-! DEFINITION. Sys2Proof/Machine/Tokens.lean: making, copying and releasing tokens (R104 to R122), and occultation
(R123 to R131). -/

namespace Sys2Proof.Machine

/-! ### The page tables (R110, R111) -/

/-- Bits of a page-table entry that must be 0 at every level (R111). -/
def pteReserved (e : Nat) : Bool := e / 2 ^ 59 != 0 || e / 2 ^ 8 % 16 != 0

/-- A valid entry of a level above the leaves: the next table. -/
def nextTable (e : Nat) : Option Nat :=
  if e % 2 == 0 || e / 2 % 2 == 1 || pteReserved e || e / 4 % 64 != 0 then none
  else some (e / 2 ^ 12 % 2 ^ 47 * 2 ^ 12)

/-- The leaf entry of the 2 MiB page at a virtual address, when it is mapped (R110). -/
def State.walkPage (s : State) (d root va : Nat) : Option Nat :=
  let entry (table i : Nat) := s.dieRead d (table + 8 * i) 8
  match nextTable (entry root (va / 2 ^ 39 % 512)) with
  | none => none
  | some t2 =>
    match nextTable (entry t2 (va / 2 ^ 30 % 512)) with
    | none => none
    | some t1 =>
      let e := entry t1 (va / 2 ^ 21 % 512)
      if e % 2 == 0 || e / 2 % 2 == 0 || pteReserved e then none
      else if e / 2 ^ 7 % 2 == 0 && e / 2 ^ 12 % 2 ^ 9 != 0 then none
      else some e

/-- A leaf is a host leaf. -/
def leafHost (e : Nat) : Bool := e / 2 ^ 7 % 2 == 1
/-- A leaf has the memory-side attribute. -/
def leafMs (e : Nat) : Bool := e / 2 ^ 6 % 2 == 1
/-- The rights of a leaf. -/
def leafRights (e : Nat) : BitVec 4 := BitVec.ofNat 4 (e / 4)

/-- The frame named by a host sub-table entry, when it is mapped (R111). -/
def hostFrame (e : Nat) : Option Nat :=
  if e % 2 == 0 || e / 2 % 2 ^ 15 != 0 || e / 2 ^ 59 != 0 then none else some (e / 2 ^ 16 * 2 ^ 16)

/-- What a walk over an extent finds: its frames and whether it is a host extent, or a trap (R114). -/
inductive Walked where
  | frames (fs : List W64) (host : Bool)
  | trap (k : Cause) (val : Nat)
  deriving DecidableEq, Repr

/-- The host frames of the 64 KiB pages from a up to stop, through a sub-table; the first page not mapped. -/
def State.walkHost (s : State) (d table : Nat) : Nat → Nat → Nat → Except Nat (List W64)
  | 0, _, _ => .ok []
  | n + 1, a, stop =>
    if stop ≤ a then .ok []
    else
      match hostFrame (s.dieRead d (table + 8 * (a / 2 ^ 16 % 32)) 8) with
      | none => .error a
      | some f =>
        match s.walkHost d table n (a + 2 ^ 16) stop with
        | .ok l => .ok (BitVec.ofNat 64 f :: l)
        | .error e => .error e

/-- The walk over n pages from page p, for an extent (R114): host is fixed by the first page. Of a host page, the entries of
the sub-table are looked at after the page's TLEN and rights checks, where R114 appends their frames (DESIGN CHOICE, log entry
59). -/
def State.walkPages (s : State) (d root va len : Nat) (rights : BitVec 4) (ms : Bool) :
    Nat → Nat → Option Bool → Walked
  | 0, _, host => .frames [] (host.getD false)
  | n + 1, p, host =>
    let at_ (h : Bool) : Nat := if h then max p va else p
    match s.walkPage d root p with
    | none => .trap .tnm (at_ (host.getD false))
    | some e =>
      let h := host.getD (leafHost e)
      let fs := if h then 16 else 21
      if va % 2 ^ fs != 0 || leafHost e != h then .trap .tlen (at_ h)
      else if rights &&& leafRights e != rights then .trap .trt (at_ h)
      else if ms && !leafMs e then .trap .trt (at_ h)
      else
        let here : Except Nat (List W64) :=
          if h then s.walkHost d (e / 2 ^ 12 % 2 ^ 47 * 2 ^ 12) 32 (max p va) (min (p + 2 ^ 21) (va + len))
          else .ok [BitVec.ofNat 64 (e / 2 ^ 21 % 2 ^ 38 * 2 ^ 21)]
        match here with
        | .error a => .trap .tnm a
        | .ok l =>
          match s.walkPages d root va len rights ms n (p + 2 ^ 21) (some h) with
          | .frames m h => .frames (l ++ m) h
          | t => t

/-- The checks and the walk of a trn (R114). -/
def State.walkExtent (s : State) (d root : Nat) (va len : W64) (rights : BitVec 4) (ms : Bool) : Walked :=
  let v := va.toNat
  let n := len.toNat
  if n == 0 || 2 ^ 40 < n || 2 ^ 48 < v + n then .trap .tlen n
  else if v % 2 ^ 16 != 0 then .trap .tlen v
  else
    let p := v / 2 ^ 21 * 2 ^ 21
    s.walkPages d root v n rights ms ((v + n - p + 2 ^ 21 - 1) / 2 ^ 21) p none

/-! ### The deny bitmap (R112, R116) -/

/-- The label of the granule at a location of a die's HBM; a host granule carries label 0, and so does an unpopulated address
(R112; log entry 8). -/
def State.label (s : State) (loc : Nat) : Nat :=
  if inHbm loc then s.readNat (loc / 2 ^ 51 * 2 ^ 51 + 0x1FC4000000 + 2 * (loc % 2 ^ 51 / 2 ^ 16)) 2 % 2 ^ 12
  else 0

/-- A label is cleared in the clearance set at a die-local address (R112). -/
def State.cleared (s : State) (d : Nat) (clrptr : W64) (l : Nat) : Bool :=
  s.dieRead d (clrptr.toNat + l / 8) 1 / 2 ^ (l % 8) % 2 == 1

/-- The denied granules of an extent (R116). -/
def State.denyBitmap (s : State) (d : Nat) (frames : List W64) (host : Bool) (len : Nat) (clrptr : W64) : List Nat :=
  let fs := if host then 16 else 21
  (List.range ((len + 2 ^ 16 - 1) / 2 ^ 16)).filter fun i =>
    let loc := (frames.getD (i * 2 ^ 16 / 2 ^ fs) 0).toNat % 2 ^ 59 + i * 2 ^ 16 % 2 ^ fs
    !s.cleared d clrptr (s.label loc)

/-! ### Allocation and pin records (R107, R108, R117) -/

/-- A FREE entry that is not sealed, at or after e (R108). -/
def State.freeEntry (s : State) (d : Nat) : Nat → Nat → Option Nat
  | 0, _ => none
  | f + 1, e =>
    let p := s.pin d (BitVec.ofNat 20 e)
    if p.state == .free && p.gen != 0xFFF then some (e % 2 ^ 20) else s.freeEntry d f ((e + 1) % 2 ^ 20)

/-- Allocates an entry of a die with the fields given (R114): 0 or 1 is the tval of TPT. Which FREE entry it takes is
left to the hardware (log entry 2). -/
def State.newEntry (s : State) (d : Nat) (p : Pin) : Except Nat (BitVec 20 × BitVec 12 × State) :=
  let (n, s) := s.choose
  match s.freeEntry d ((s.die d).pins.length + 1) (n % 2 ^ 20) with
  | none => .error 0
  | some e =>
    if poolSize < (s.die d).pool + p.poolBytes then .error 1
    else
      let e := BitVec.ofNat 20 e
      let gen := (s.pin d e).gen
      let s := s.updDie d fun x => { x with pool := x.pool + p.poolBytes }
      .ok (e, gen, s.setPin d e { p with state := .live, gen := gen })

/-- The token of an entry (R114). -/
def tokenOf (p : Pin) (e : BitVec 20) (gen : BitVec 12) : Token :=
  { pte := e, gen := gen, rights := p.rights, ms := p.ms, host := p.host, valid := true, lenm1 := p.lenm1 }

/-- The pin record of a token (R117), for a principal, a request tag and a context byte. -/
def State.pinRecord (s : State) (d : Nat) (evptr : W64) (prin : W32) (reqtag : W16) (who : Nat) (base : W64) (t : Token)
    (phys : Bool) : State :=
  let flag (b : Bool) (n : Nat) : Nat := if b then n else 0
  s.appendLog d evptr
    (recHead s prin reqtag 0x02 who ++ leBytes 6 base.toNat ++ leBytes 5 t.lenm1.toNat
      ++ leBytes 4 (t.pte.toNat + t.gen.toNat * 2 ^ 20)
      ++ leBytes 1 (t.rights.toNat + flag t.ms 16 + flag t.host 32 + flag phys 64))

/-- Writes a token register of a core's active set, releasing what it held (R114, R122). -/
def State.setK (s : State) (g : Nat) (kd : KReg) (t : Token) : State :=
  let old := vget (s.aset g).k kd
  let s := s.updAct g fun a => { a with k := vset a.k kd { old with valid := false } }
  let s := s.released g old
  let s := s.updAct g fun a => { a with k := vset a.k kd t }
  s.held g t

/-- Frames of consecutive bytes from a physical base (R118). -/
def contiguous (base : W64) (host : Bool) (len : Nat) : List W64 :=
  let fs := if host then 16 else 21
  (List.range ((len + 2 ^ fs - 1) / 2 ^ fs)).map fun i => BitVec.ofNat 64 ((base.toNat + i * 2 ^ fs) % 2 ^ 59)

/-- What making a token by a context gives. -/
inductive Made where
  | token (t : Token) (s : State)
  | trap (k : Cause) (val : Nat)
  deriving Repr

/-- The entry that a context of a core's active set makes: its tenant, principal and holder (R114). -/
def State.entryFor (s : State) (g : Nat) (c : CtxId) (p : Pin) : Pin :=
  { p with tenant := (s.aset g).tenant, prin := (s.ctx g c).prin, holders := 1#128 <<< (g % 128) }

/-- Makes a token by walking the page tables for a context of the active set, into kd (R114). -/
def State.translate (s : State) (g : Nat) (c : CtxId) (kd : KReg) (va len : W64) (rights : BitVec 4) (ms : Bool) : Made :=
  let d := g / 128
  match s.walkExtent d (s.aset g).root.toNat va len rights ms with
  | .trap k v => .trap k v
  | .frames fs host =>
    let deny := s.denyBitmap d fs host len.toNat (s.ctx g c).clrptr
    let p := s.entryFor g c
      { rights := rights, ms := ms, host := host, lenm1 := BitVec.ofNat 40 (len.toNat - 1), base := va
        frames := fs, deny := deny }
    match s.newEntry d p with
    | .error v => .trap .tpt v
    | .ok (e, gen, s) =>
      let t := tokenOf p e gen
      let s := s.setK g kd t
      .token t (s.pinRecord d (s.ctx g c).evptr (s.ctx g c).prin (s.aset g).reqtag c.val va t false)

/-- Makes a token for a physical extent, into kd (R118). Bits [63:59] of the base, which R231 wants 0, are dropped (DESIGN
CHOICE, log entry 60). -/
def State.makePhys (s : State) (g : Nat) (c : CtxId) (kd : KReg) (pa len : W64) (rights : BitVec 4) (ms host : Bool) :
    Made :=
  let d := g / 128
  if len.toNat == 0 || 2 ^ 40 < len.toNat then .trap .tlen len.toNat
  else if pa.toNat % 2 ^ (if host then 16 else 21) != 0 then .trap .tlen pa.toNat
  else
    let p := s.entryFor g c
      { rights := rights, ms := ms, host := host, phys := true, lenm1 := BitVec.ofNat 40 (len.toNat - 1), base := pa
        frames := contiguous pa host len.toNat }
    match s.newEntry d p with
    | .error v => .trap .tpt v
    | .ok (e, gen, s) =>
      let t := tokenOf p e gen
      let s := s.setK g kd t
      .token t (s.pinRecord d (s.ctx g c).evptr (s.ctx g c).prin (s.aset g).reqtag c.val pa t true)

/-! ### trn and trnp -/

/-- Walker slots of a die (R114). -/
def walkerSlots : Nat := 4096

/-- Walks in progress on a die. -/
def State.walks (s : State) (d : Nat) : Nat :=
  (s.cores.map fun e =>
    if e.1 / 128 = d then (e.2.act.ctx.toList.filter fun x => match x.hold with | .walk .. => true | _ => false).length
    else 0).sum

/-- The tags of the operands of a trn allow it to be recorded (R295), and kd is fresh (R296). -/
def State.recXlat (s : State) (kd : KReg) (va len : W64) (tva tlen : Tag) (rights : BitVec 4) (ms : Bool) : State :=
  match s.recording with
  | none => s
  | some r =>
    if r.kWritten.getLsbD kd.toNat || r.kCaptured.getLsbD kd.toNat then s.smudgeMe 6
    else
      let l := BitVec.ofNat 40 (len.toNat - 1)
      let s := match tlen, tva with
        | .plain, .plain => s.recEntry s.curCore (xlatEntry kd rights ms false 0 l va)
        | .plain, .patched sl d => s.recEntry s.curCore (xlatEntry kd rights ms true sl l (d.signExtend 64))
        | _, _ => s.smudgeMe 3
      s.updCore s.curCore fun k => { k with rec_ := k.rec_.map fun r =>
        { r with kWritten := r.kWritten ||| (1#16 <<< kd.toNat) } }

/-- TRN (R114): holds the context until TRN_WALK_END, with the operands captured; without a walker slot it holds at issue. Inside
a recording it is recorded where it issues (R295). -/
def execTrn (kd : KReg) (xva xlen : XReg) (rights : BitVec 4) (ms : Bool) (s : State) : Out :=
  if walkerSlots ≤ s.walks (s.curCore / 128) then .next (s.holdMe .walker)
  else
    .next ((s.recXlat kd (s.rx xva) (s.rx xlen) (s.tagOf xva) (s.tagOf xlen) rights ms).holdMe
      (.walk kd (s.rx xva) (s.rx xlen) rights ms))

/-- TRN_WALK_END: the walk, the entry, kd and the pin record are one step (R114, R115). -/
def execTrnWalkEnd (g : Nat) (c : CtxId) (s : State) : Out :=
  match (s.ctx g c).hold with
  | .walk kd va len rights ms =>
    let s := { s with curCore := g, curCtx := c }
    match s.translate g c kd va len rights ms with
    | .trap k v => .next (s.trapMe k (BitVec.ofNat 64 v))
    | .token _ s => finish s
  | _ => .next s

/-- WALKER_SLOT_FREE: a trn that waits for a walker slot begins its walk (R114). -/
def execWalkerSlotFree (g : Nat) (c : CtxId) (s : State) : Out :=
  match (s.ctx g c).hold with
  | .walker =>
    if walkerSlots ≤ s.walks (g / 128) then .next s
    else .next (s.updCtx g c fun x => { x with st := .run, hold := .none })
  | _ => .next s

/-- TRNP (R118): PRIV in user mode; a recording is smudged with reason 6 (R295). -/
def execTrnp (kd : KReg) (xpa xlen : XReg) (rights : BitVec 4) (ms host : Bool) (s : State) : Out :=
  privileged (.trnp kd xpa xlen rights ms host) s fun s =>
    let s := s.smudgeMe 6
    match s.makePhys s.curCore s.curCtx kd (s.rx xpa) (s.rx xlen) rights ms host with
    | .trap k v => .next (s.trapMe k (BitVec.ofNat 64 v))
    | .token _ s => finish s

/-! ### Copying, releasing and reading tokens (R101, R122) -/

/-- TKMOV (R122): a recording is smudged with reason 6 (R295). -/
def execTkmov (kd ks : KReg) (s : State) : Out :=
  let s := s.smudgeMe 6
  if kd = ks then finish s else finish (s.setK s.curCore kd (vget s.mySet.k ks))

/-- TKDROP (R122): every field but valid is kept. -/
def execTkdrop (ks : KReg) (s : State) : Out :=
  let t := vget s.mySet.k ks
  if t.valid then finish (s.setK s.curCore ks { t with valid := false }) else finish s

/-- TKLEN (R122). -/
def execTklen (xd : XReg) (ks : KReg) (s : State) : Out :=
  let t := vget s.mySet.k ks
  finish (s.wx xd (if t.valid then t.lenm1.setWidth 64 + 1 else 0) .vol false)

/-- Bits [38:0] of a token register (R101, R104). -/
def Token.info (t : Token) : W64 :=
  BitVec.setWidth 64 (BitVec.ofBool t.valid ++ BitVec.ofBool t.host ++ BitVec.ofBool t.ms ++ t.rights ++ t.gen ++ t.pte)

/-- TKINFO (R101). -/
def execTkinfo (xd : XReg) (ks : KReg) (s : State) : Out := finish (s.wx xd (vget s.mySet.k ks).info .vol false)

/-! ### Occultation (R124 to R126) -/

/-- POCC's effect on an entry (R125): LIVE becomes EBB and its holders are to be probed. -/
def State.poccAct (s : State) (d : Nat) (e : BitVec 20) : State :=
  let p := s.pin d e
  if p.state == .live then
    ((s.setPin d e { p with state := .ebb, probes := p.holders }).unkeep d e).settlePin d e
  else s

/-- The entry that an x register names, when bits [63:20] are 0 (R125). -/
def entryArg (v : W64) : Option (BitVec 20) := if v.extractLsb' 20 44 = 0 then some (v.setWidth 20) else none

/-- Denied granules of a replacement bitmap at a die-local address (R125). -/
def State.bitmapAt (s : State) (d : Nat) (a : W64) (lenm1 : Nat) : List Nat :=
  (List.range (lenm1 / 2 ^ 16 + 1)).filter fun i => s.dieRead d (a.toNat + i / 8) 1 / 2 ^ (i % 8) % 2 == 1

/-- PREF's effect on an OCCULTED entry (R109, R125): it is LIVE again with the same generation, held or not. A list or a bitmap that is
not aligned as R125 has it is read at the address as it stands (DESIGN CHOICE, log entry 73). -/
def State.prefAct (s : State) (d : Nat) (e : BitVec 20) (list bitmap : W64) : State :=
  let p := s.pin d e
  if p.state != .occulted then s
  else
    let frames := (List.range p.frames.length).map fun i =>
      BitVec.ofNat 64 (s.dieRead d (list.toNat + 8 * i) 8 % 2 ^ 59)
    let deny := if bitmap = 0 then [] else s.bitmapAt d bitmap p.lenm1.toNat
    let q := { p with state := .live, frames := frames, deny := deny }
    let pool := (s.die d).pool - p.poolBytes + q.poolBytes
    if poolSize < pool then s
    else (s.updDie d fun x => { x with pool := pool }).setPin d e q

/-- PRET's effect on an OCCULTED entry (R125). -/
def State.pretAct (s : State) (d : Nat) (e : BitVec 20) : State :=
  if (s.pin d e).state == .occulted then s.freePin d e else s

/-- What pocc.w, pref and pret do when their wait ends (R125). -/
def State.occAct (s : State) (i : Instr) (e : BitVec 20) : State :=
  let d := s.curCore / 128
  match i with
  | .pref _ xb xc => s.prefAct d e (s.rx xb) (s.rx xc)
  | .pret _ => s.pretAct d e
  | _ => s

/-- The wait of pocc.w, pref and pret: the entry leaves EBB and the stores up to upTo are done (R125). -/
def occWaitOr (i : Instr) (e : BitVec 20) (upTo : Nat) (s : State) : Out :=
  if (s.pin (s.curCore / 128) e).state != .ebb && s.sbDone s.curCore upTo then finish (s.occAct i e)
  else .next (s.holdMe (.occWait i e upTo))

/-- POCC (R125). -/
def execPocc (xa : XReg) (s : State) : Out :=
  privileged (.pocc xa) s fun s =>
    let s := s.smudgeMe 6
    match entryArg (s.rx xa) with
    | none => finish s
    | some e => finish (s.poccAct (s.curCore / 128) e)

/-- POCC_W (R125). -/
def execPoccW (xa : XReg) (s : State) : Out :=
  privileged (.poccW xa) s fun s =>
    let s := s.smudgeMe 6
    match entryArg (s.rx xa) with
    | none => finish s
    | some e => occWaitOr (.poccW xa) e 0 (s.poccAct (s.curCore / 128) e)

/-- PREF (R125): first every earlier store of the core is registered. -/
def execPref (xa xb xc : XReg) (s : State) : Out :=
  privileged (.pref xa xb xc) s fun s =>
    let s := s.smudgeMe 6
    match entryArg (s.rx xa) with
    | none => finish s
    | some e => occWaitOr (.pref xa xb xc) e (s.core s.curCore).seq (s.triggerDrain s.curCore (s.core s.curCore).seq)

/-- PRET (R125): first every earlier store of the core is registered. -/
def execPret (xa : XReg) (s : State) : Out :=
  privileged (.pret xa) s fun s =>
    let s := s.smudgeMe 6
    match entryArg (s.rx xa) with
    | none => finish s
    | some e => occWaitOr (.pret xa) e (s.core s.curCore).seq (s.triggerDrain s.curCore (s.core s.curCore).seq)

/-- Cores named by a set of bits. -/
def countBits (b : BitVec 128) : Nat := ((List.range 128).filter fun i => b.getLsbD i).length

/-- The status word of an entry (R126). -/
def Pin.status (p : Pin) : W64 :=
  BitVec.ofNat 64
    ((if p.state == .free && p.gen == 0xFFF then 2 ^ 63 else 0) + min p.saved 0x7FFF * 2 ^ 48
      + min p.inflight 0xFFFFFF * 2 ^ 24 + countBits p.holders * 2 ^ 16 + p.gen.toNat * 16
      + (if p.state == .ebb && p.probes == 0 then 8 else 0) + p.state.code)

/-- PTSTAT (R125, R126). -/
def execPtstat (xd xa : XReg) (s : State) : Out :=
  privileged (.ptstat xd xa) s fun s =>
    let s := s.smudgeMe 6
    let v : W64 := match entryArg (s.rx xa) with
      | none => BitVec.allOnes 64
      | some e => (s.pin (s.curCore / 128) e).status
    finish (s.wx xd v .vol false)

/-! ### Events of occultation -/

/-- An engine of a set is no longer stalled; of the matrix engine, its steps, or its drain rows. -/
def CtxSet.unstall (t : CtxSet) (src : StallSrc) (c : CtxId) (row : Bool := false) : CtxSet :=
  { t with engStalls := t.engStalls.filter fun e => e.src != src || e.ctx != c || e.row != row }

/-- An engine stalls at an issue point (R123): its count starts unless it stalls there on the same entry already. -/
def State.engineStall (s : State) (g : Nat) (src : StallSrc) (c : CtxId) (e : BitVec 20) (row : Bool := false) : State :=
  s.updAct g fun t =>
    if t.engStalls.any fun x => x.src == src && x.ctx == c && x.row == row && x.pte == e then t
    else
      let t := t.unstall src c row
      { t with engStalls := t.engStalls ++ [{ src := src, ctx := c, pte := e, row := row, mark := s.clk }] }

/-- A stall of an engine goes on, and its count has reached the occtmo of its context (R128). -/
def State.stallOver (s : State) (g : Nat) (x : EngStall) : Bool :=
  let limit := (s.ctx g x.ctx).occtmo
  let st := (s.pin (g / 128) x.pte).state
  limit != 0 && limit.toNat ≤ x.count + (s.clk - x.mark) && (st == .ebb || st == .occulted)

/-- OCCULTATION_STALL_RESUME: the entry on which a context stalls has changed its state (R123): the instruction reaches its
issue point again. -/
def execOccultationStallResume (g : Nat) (c : CtxId) (s : State) : Out :=
  let x := s.ctx g c
  match x.hold with
  | .stall e =>
    let st := (s.pin (g / 128) e).state
    if st == .ebb || st == .occulted then .next s
    else .next (s.updCtx g c fun x => { x with st := .run, hold := .none })
  | _ => .next s

/-- A stall overrun becomes pending in a context (R128). -/
def Ctx.overrun (e : BitVec 20) (x : Ctx) : Ctx := { x with pend := { x.pend with overrun := some e } }

/-- OCCTMO_OVERRUN: the count of a stall reaches occtmo (R128); it withdraws nothing and the count restarts. -/
def execOcctmoOverrun (g : Nat) (c : CtxId) (src : StallSrc) (s : State) : Out :=
  let x := s.ctx g c
  match src with
  | .ctx =>
    match x.hold with
    | .stall e =>
      let st := (s.pin (g / 128) e).state
      if s.expired g c x.occtmo && (st == .ebb || st == .occulted) then
        .next (s.updCtx g c fun x => { x.overrun e with waited := 0, waitMark := s.clk })
      else .next s
    | _ => .next s
  | src =>
    match (s.aset g).engStalls.find? fun e => e.src == src && e.ctx == c && s.stallOver g e with
    | none => .next s
    | some e =>
      let s := s.updCtx g c (Ctx.overrun e.pte)
      .next (s.updAct g fun t => { t with engStalls := t.engStalls.map fun y =>
        if y == e then { y with count := 0, mark := s.clk } else y })

/-- OCCULTATION_WAIT_TIMEOUT: the wait of pocc.w, pref or pret for an entry to leave EBB ends at occtmo (R125): pref and pret
of an entry still in EBB then do nothing. -/
def execOccultationWaitTimeout (g : Nat) (c : CtxId) (s : State) : Out :=
  match (s.ctx g c).hold with
  | .occWait _ e upTo =>
    if (s.pin (g / 128) e).state == .ebb && s.expired g c (s.ctx g c).occtmo && s.sbDone g upTo then
      .next (s.updCtx g c Ctx.goOn)
    else .next s
  | _ => .next s

/-- The 64-byte lines of an entry's frames that a line lies in. -/
def Pin.ownsLine (p : Pin) (line : Nat) : Bool :=
  let fs := if p.host then 16 else 21
  p.frames.any fun f => f.toNat % 2 ^ 59 / 2 ^ fs = line / 2 ^ (fs - 6)

/-- An L1 without its unowned words of the frames of an entry (R124). -/
def Pin.dropUnowned (p : Pin) (l1 : FMap Copy) : FMap Copy :=
  l1.filterMap fun e =>
    if !p.ownsLine e.1 then some e else if e.2.own == 0 then none else some (e.1, { e.2 with words := e.2.own })

/-- HOLDER_PROBE: a core acknowledges the probe of an entry in EBB (R124): its buffered stores counted against the entry
have left, its sleepers on the entry's frames wake with code 2 (R230), and its unowned words and its quad's read-only
lines of the frames go. -/
def execHolderProbe (g : Nat) (pte : BitVec 20) (s : State) : Out :=
  let d := g / 128
  let p := s.pin d pte
  if p.state != .ebb || !p.probes.getLsbD (g % 128) then .next s
  else
    match ((s.core g).sb.filter fun e => e.pte == some pte).getLast? with
    | some e => .next (s.triggerDrain g e.seq)
    | none =>
      let s := (s.monitors.filter fun m => m.core = g && p.ownsLine m.line).foldl (fun (s : State) m =>
        match (s.whoCtx ⟨m.core, m.sid, m.ctx⟩).hold with
        | .waita xd _ _ _ => s.wakeWaita ⟨m.core, m.sid, m.ctx⟩ xd (if m.hit then 1 else 2)
        | _ => s) s
      let s := s.updCore g fun k => { k with l1 := p.dropUnowned k.l1 }
      let ro := s.ro.map fun e => if e.1 = quadOf g then (e.1, e.2.filter fun l => !p.ownsLine l.1) else e
      let s := { s with ro := ro }
      let s := s.setPin d pte { p with probes := p.probes &&& ~~~(1#128 <<< (g % 128)) }
      .next (s.settlePin d pte)

/-- REQUEST_PERFORMED: the in-flight count of an entry falls for the n-th request performed (R124). -/
def execRequestPerformed (d : Nat) (n : Nat) (s : State) : Out :=
  match s.performed[n]? with
  | some (d', e) =>
    if d' = d then .next ({ s with performed := s.performed.eraseIdx n }.flyOut d e) else .next s
  | none => .next s

end Sys2Proof.Machine
end

