-- ==== Sys2Proof/Machine/Engine.lean ====
section
/-! DEFINITION. Sys2Proof/Machine/Engine.lean: what the engines share: the completion of a command with its flags (R65,
R82, R224, R240), withdrawal (R127, R301), and the bytes of an engine's accesses (R132, R146, R264). -/

namespace Sys2Proof.Machine

/-! ### Completion and withdrawal -/

/-- The failures of a command enter the record of its context when it completes (R240). -/
def Ctx.addFailures (f : FailRec) (x : Ctx) : Ctx := { x with fail := x.fail.join f }

/-- A command of a set completes: its number counts on its timeline, and its flags, mstat bits and failures go to the
context that takes them (R65, R82, R240). -/
def CtxSet.completeEntry (t : CtxSet) (e : Entry) (fl : BitVec 5) (mst : BitVec 8) (fail : FailRec) : CtxSet :=
  let t := t.updCtx e.who fun x => ({ x with fstat := x.fstat ||| fl, mstat := x.mstat ||| mst }).addFailures fail
  match (engQueue e.instr).timeline with
  | some l => t.complete l e.num
  | none => t

/-- The class slot that a collation command names, and its op number (R44). -/
def collOp : Instr → Option (BitVec 3 × Nat)
  | .clset c _ => some (c, 0) | .clclr c _ => some (c, 1) | .clins c _ _ _ => some (c, 2) | .cldel c _ _ _ => some (c, 3)
  | .clsub c _ _ => some (c, 4) | .clxch c _ _ => some (c, 5) | .clpeel c _ _ _ _ => some (c, 6) | .clstat _ c => some (c, 7)
  | _ => none

/-- The status word of R279. -/
def collStatus (op result records residual : Nat) : W64 :=
  BitVec.ofNat 64 (residual % 2 ^ 24 * 2 ^ 40 + records % 2 ^ 32 * 2 ^ 8 + op * 2 ^ 4 + result)

/-- Writes the status word of the class slot of a command (R279). -/
def CtxSet.setStatus (t : CtxSet) (i : Instr) (result records residual : Nat) : CtxSet :=
  match collOp i with
  | some (c, op) => { t with cls8 := vset t.cls8 c { vget t.cls8 c with status := collStatus op result records residual } }
  | none => t

/-- The command has the form clpeel.t. -/
def isPeelT : Instr → Bool
  | .clpeel _ t _ _ _ => t
  | _ => false

/-- The result of a collation command is written to the slot it names, and a failed clpeel.t is kept for the twait that
covers it (R94, R279). -/
def CtxSet.collResult (t : CtxSet) (e : Entry) (result records residual : Nat) : CtxSet :=
  let t := t.setStatus e.instr result records residual
  if isPeelT e.instr && result != 0 then t.updCtx e.who fun x => { x with peels := x.peels ++ [e.num] } else t

/-- An entry is discarded by a withdrawal (R127): it advances its timeline and sets mstat.wdr, and a collation command
writes result 5 into the slot it names (R288). -/
def CtxSet.discard (t : CtxSet) (e : Entry) : CtxSet := (t.collResult e 5 0 0).completeEntry e 0 mWdr {}

/-- An entry is a gplay, which has no number until its checks have passed (R299). -/
def isGplay : Instr → Bool
  | .gplay .. => true
  | _ => false

/-- The V entry at the head of the queue has begun: it has issued element groups, or waits for stores (R164). -/
def CtxSet.vBegan (t : CtxSet) : Bool := 0 < t.vprog.pos || t.vprog.upTo.isSome

/-- The V entry that has begun. -/
def CtxSet.vNow (t : CtxSet) : Option Entry := if t.vBegan then t.vq.head? else none

/-- Discards the entries of a set's queues that a test picks and that have not begun; a gplay that still holds its context is no
entry yet. -/
def CtxSet.discardWhere (t : CtxSet) (pick : EngQ → Entry → Bool) : CtxSet :=
  let now := t.vNow
  let p (q : EngQ) (e : Entry) : Bool := pick q e && !isGplay e.instr && !(q == .vec && now == some e)
  let gone := t.vq.filter (p .vec) ++ t.mq.filter (p .mat) ++ (t.sq.toList.map fun l => l.filter (p .str)).flatten
    ++ t.cq.filter (p .coll) ++ t.gq.filter (p .gal)
  let t := { t with
    vq := t.vq.filter fun e => !p .vec e
    mq := t.mq.filter fun e => !p .mat e
    sq := t.sq.map fun l => l.filter fun e => !p .str e
    cq := t.cq.filter fun e => !p .coll e
    gq := t.gq.filter fun e => !p .gal e }
  gone.foldl CtxSet.discard t

/-- A play feeds no further command (R301). -/
def CtxSet.stopPlay (t : CtxSet) (n : Nat) : CtxSet :=
  { t with
    plays := t.plays.filter fun p => p.num != n
    fed := t.fed ++ (t.plays.filter fun p => p.num == n).map fun p => { p with rest := [] }
    withdrawnPlay := t.withdrawnPlay || t.cardPlay == some n }

/-- The queue of an entry, as a withdrawal names it: that of streams is its context's (R37). -/
def Entry.queue (e : Entry) : EngQ × CtxId := (engQueue e.instr, if engQueue e.instr == .str then e.ctx else 0)

/-- A withdrawal REVK becomes pending in a context that can still take it (R92, R127), for an entry of some queue. -/
def Ctx.withdrawn (e : BitVec 20) (q : Option (EngQ × CtxId)) (x : Ctx) : Ctx :=
  if x.live then { x with pend := { x.pend with withdraw := some e, queues := x.pend.queues ++ q.toList } } else x

/-- A command of a set is withdrawn at a request naming entry pte (R127): the later entries of its queue from its
context are discarded, and for a command of a play every command the play fed that has not begun (R301). -/
def CtxSet.withdraw (t : CtxSet) (e : Entry) (pte : BitVec 20) : CtxSet :=
  let q := engQueue e.instr
  let t := t.discardWhere fun q' y => q' == q && y.who == e.who && (q != .str || y.ctx == e.ctx) && y.num != e.num
  let t := match e.play with
    | some n => (t.discardWhere fun _ y => y.play == some n && !(y.num == e.num && engQueue y.instr == q)).stopPlay n
    | none => t
  t.updCtx e.who (Ctx.withdrawn pte (some e.queue))

/-- The core no longer holds the entries of some tokens, unless it still does by others (R106, R122). -/
def State.releaseAll (s : State) (g : Nat) (l : List Token) : State :=
  l.foldl (fun (s : State) t => s.released g t) s

/-- A command of the active set is withdrawn at a request naming entry pte, and what it held is released (R127). -/
def State.withdrawCmd (s : State) (g : Nat) (e : Entry) (pte : BitVec 20) : State :=
  let old := e.tokens ++ (s.aset g).tokens
  (s.updAct g fun t => t.withdraw e pte).releaseAll g old.dedup

/-- The context of a result-returning entry takes its result, unless it no longer holds for it (R38); one that a play fed has
its result discarded (R300). -/
def State.deliver (s : State) (g : Nat) (e : Entry) (v : W64) : State :=
  if e.play.isSome then s
  else s.updCtx g e.ctx fun x =>
    match x.hold with
    | .result _ n xd => if n = e.num then (x.wx xd v .vol false).goOn else x
    | _ => x

/-! ### The pointer of a command -/

/-- A captured pointer as an engine uses it: a vault of a core, a captured token, or stray (R80, R81, R123). -/
inductive EPtr where
  | vault (g : Nat) (off : Nat)
  | token (path : Path) (pol : Nat) (t : Token) (off : Nat)
  | stray
  deriving DecidableEq, Repr

/-- Reads a captured pointer with its captured token. -/
def State.eptr (s : State) (g : Nat) (p : W64) (k : Option Token) : EPtr :=
  match s.ptr g (s.aset g) p with
  | .vault g' off => .vault g' off
  | .stray => .stray
  | .token pol _ off =>
    match k with
    | some t => if t.valid then .token (tokenPath pol t) (t.policy pol) t off else .stray
    | none => .stray

/-- What the issue point of a request through a captured pointer finds (R123). -/
def State.eptrCheck (s : State) (g : Nat) : EPtr → IssueCheck
  | .token _ _ t _ => s.issueCheck g t
  | _ => .go

/-- The entry a captured pointer names. -/
def EPtr.pte : EPtr → Option (BitVec 20)
  | .token _ _ t _ => some t.pte
  | _ => none

/-- The path of the accesses through a captured pointer. -/
def EPtr.path : EPtr → Path
  | .token p _ _ _ => p
  | _ => .vault

/-- The byte at a signed distance from a captured pointer (R119, R146): its location, or the mstat bit of its failure. A
byte of the status space is stray for an engine (R233). -/
def State.eptrByte (s : State) (g : Nat) (p : EPtr) (need : Nat → BitVec 4) (bit : ByteFail → BitVec 8) (d : Int) :
    Except (BitVec 8) Nat :=
  match p with
  | .stray => .error mStray
  | .vault g' off =>
    let o := (off : Int) + d
    if o < 0 || (2 ^ 21 : Int) ≤ o then .error mStray else .ok (vaultLoc g' o.toNat)
  | .token _ pol t off =>
    let o := (off : Int) + d
    if o < 0 || (2 ^ 48 : Int) ≤ o then .error mStray
    else
      match s.tokenByte g t (need pol) o.toNat with
      | .ok l => if region l == .status then .error mStray else .ok l
      | .error f => .error (bit f)

/-- The attributes of the extent of a captured pointer (R4, R113). -/
def State.eptrVia (s : State) (g : Nat) : EPtr → Via
  | .token _ _ t _ => s.via g (some t)
  | _ => {}

/-- The granule of a denied byte at a distance from a captured pointer, with its offset. -/
def EPtr.offset (p : EPtr) (d : Int) : Nat :=
  match p with
  | .token _ _ _ off => ((off : Int) + d).toNat
  | .vault _ off => ((off : Int) + d).toNat
  | .stray => 0

/-- The number of a denied granule of an extent, by its entry. -/
def granuleKey (t : Token) (off : Nat) : Nat := t.pte.toNat * 2 ^ 32 + off / 2 ^ 16

/-- Denial records of a command (R121): one for each denied granule it has not recorded yet, by whichever of its pointers it
touches it. Answers the granules recorded. -/
def State.engineDenials (s : State) (w : Who) (p : EPtr) (code : Nat) (logged : List Nat) (offs : List Nat) :
    State × List Nat :=
  match p with
  | .token _ _ t _ =>
    offs.foldl (fun (a : State × List Nat) o =>
      if a.2.contains (granuleKey t o) then a else (a.1.denialRecord w t o code, a.2 ++ [granuleKey t o])) (s, logged)
  | _ => (s, logged)

/-! ### Stores leave the buffer (R254) -/

/-- Removes an entry from the store buffer. -/
def State.dropStore (s : State) (g seq : Nat) : State :=
  s.updCore g fun k => { k with sb := k.sb.filter fun e => e.seq != seq }

/-- The context of a store. -/
def StoreEnt.who (e : StoreEnt) (g : Nat) : Who := ⟨g, e.sid, e.ctx⟩

/-- The attributes of the extent that a store buffer entry goes through (R4, R113). -/
def State.storeVia (s : State) (g : Nat) (e : StoreEnt) : Via :=
  { phys := match e.pte with | some p => (s.pin (g / 128) p).phys | none => false, host := e.host }

/-- An entry is a store to an ordinary line homed on the core's die, which is registered there (R254). -/
def State.registers (s : State) (g : Nat) (e : StoreEnt) : Bool :=
  let loc := (e.bytes.headD (0, 0)).1
  !isVault loc && !s.remote g loc (s.storeVia g e) && !e.ms && !e.host

/-- The core owns the words of a registered store: they stay in its L1 (R254). -/
def State.own (s : State) (g : Nat) (e : StoreEnt) : State :=
  let m := wordMask (e.bytes.map (·.1))
  let c := s.lineCopy e.line
  let old := (fget (s.core g).l1 e.line).getD { data := c.data, words := 0 }
  let pick (b : Byte) : BitVec 512 :=
    (List.range 8).foldl (fun a i => if b.getLsbD i then a ||| (BitVec.ofNat 512 (2 ^ 64 - 1) <<< (64 * i)) else a) 0
  let new : Copy :=
    { data := (old.data &&& ~~~(pick m)) ||| (c.data &&& pick m), pois := (old.pois &&& ~~~m) ||| (c.pois &&& m)
      words := old.words ||| m, own := old.own ||| m }
  s.updCore g fun k => { k with l1 := fset k.l1 e.line new }

/-- An entry with bytes left stays in the buffer with them, on its way (R249); one without leaves it, and its count is to fall
(R124). -/
def State.putStore (s : State) (g : Nat) (e : StoreEnt) : State :=
  if e.bytes.isEmpty then (s.dropStore g e.seq).performedPte (g / 128) e.pte
  else s.updCore g fun k => { k with sb := k.sb.map fun y => if y.seq = e.seq then { e with sent := true } else y }

/-- The part of an entry that is performed now, the rest, and the state after the choice: an entry that is not performed whole is
performed in its units, some of which the hardware leaves for later (R249), never one of a poisoned word (log entry 66). -/
def State.splitStore (s : State) (e : StoreEnt) : StoreEnt × StoreEnt × State :=
  if e.units.isEmpty || e.bytes.any (fun b => s.poisoned b.1) then (e, { e with bytes := [], units := [] }, s)
  else
    let (n, s) := s.choose
    (e.pick false n, e.pick true n, s)

/-- A store of a core is performed at its home (R133, R134, R254), where a die-local ordinary one is registered, and leaves the
buffer, as a whole or in its units. Another's copies of its words in the core's L1 are older and go (R257). -/
def State.storeAtHome (s : State) (g : Nat) (e : StoreEnt) : State :=
  let (now, rest, s) := s.splitStore e
  if now.bytes.isEmpty then s.putStore g rest
  else
    let s := s.performStore (e.who g) now.bytes now.poison now.bits now.marks
    let s := if s.registers g now then s.own g now
      else s.updCore g fun k => { k with l1 := dropWords k.l1 now.line (wordMask (now.bytes.map (·.1))) }
    s.putStore g { rest with pte := e.pte }

/-- A store fails (R240). -/
def State.storeFails (s : State) (g : Nat) (e : StoreEnt) (f : Fate) : State :=
  (((s.countFate g f).failOf (e.who g) f).dropStore g e.seq).performedPte (g / 128) e.pte

/-- The core owns every word of a store (R254). -/
def State.ownsAll (s : State) (g : Nat) (e : StoreEnt) : Bool :=
  match fget (s.core g).l1 e.line with
  | none => false
  | some c => wordMask (e.bytes.map (·.1)) &&& ~~~c.own == 0

/-- An earlier entry of the line is on its way to its home. -/
def State.behind (s : State) (g : Nat) (e : StoreEnt) : Bool := (s.core g).sb.any fun y => y.seq < e.seq && y.line = e.line

/-- An entry leaves the buffer (R254), once no earlier load of the core has still to be read at its bytes (R255): a vault byte is
performed and a store to words that the core owns is registered at once; another die-local line is on its way to its registration,
a remote one is sent (R236, R238), when it can be, and an entry without a live home fails (R240). -/
def State.depart (s : State) (g : Nat) (e : StoreEnt) : State :=
  let loc := (e.bytes.headD (0, 0)).1
  let v := s.storeVia g e
  let mark (s : State) (r : Option Nat) : State := s.updCore g fun k => { k with
    sb := k.sb.map fun y => if y.seq = e.seq then { y with sent := true, req := r } else y }
  if s.awaited g e.seq (e.bytes.map (·.1)) then s
  else
    match s.addrFate g loc v with
    | .ok =>
      if s.remote g loc v then
        if s.writing g e.line || !s.hasTag (g / 128) then s
        else
          let (r, s) := s.send (e.who g) e.reqtag (.store e.seq) e.line (s.homeDie loc v) e.pte e.ms e.host
          mark s (some r)
      else if (isVault loc || s.registers g e && s.ownsAll g e) && !s.behind g e && !s.pinned e.line then s.storeAtHome g e
      else mark s none
    | f => s.storeFails g e f

/-- A full buffer drains its oldest entries until it has room for some locations, as far as they can leave (R254). -/
def State.makeRoom (s : State) (g : Nat) (locs : List Nat) : Nat → State
  | 0 => s
  | n + 1 =>
    if (s.core g).sbRoom locs then s
    else
      match (s.core g).sb.find? fun e => !e.sent with
      | none => s
      | some e =>
        let t := s.depart g e
        if (t.core g).sb.any fun y => y.seq = e.seq && !y.sent then s else t.makeRoom g locs n

/-- The lines of some locations that fail by their address, counted in the status block (R245); the requests of the others
are counted when they fail. -/
def State.countLines (s : State) (l : Fates) (g : Nat) (write : Bool) (v : Via) (locs : List Nat) : State :=
  ((locs.map (· / 64)).dedup).foldl (fun (s : State) line =>
    if (l.find line write).isSome then s else s.countFate g (s.addrFate g (64 * line) v)) s

/-! ### Bytes of the other engines: at L2 or at the home (R132, R264) -/

/-- A byte of an engine's read: a copy of the read-only path, but for an address that refuses the access (R233), or the line as its
home answered it. -/
def State.engByte (s : State) (l : Fates) (g : Nat) (ro : Bool) (loc : Nat) : Byte × Bool :=
  match if ro then s.roLine g (loc / 64) else none with
  | some c => c.byte (loc % 64)
  | none => s.answeredByte l loc

/-- A line of the core's die that is read through the read-only path is installed in the quad's cache (R267); a remote one is
installed when its home answers. -/
def State.engTouch (s : State) (g loc : Nat) : State :=
  if (s.roLine g (loc / 64)).isSome || s.remote g loc then s else s.installRo g (loc / 64) (s.lineCopy (loc / 64))

/-- The fate of an engine's request for each line of some locations (R236, R240), with the failures counted. -/
def State.lineFates (s : State) (l : Fates) (g : Nat) (write : Bool) (v : Via) (locs : List Nat) : List (Nat × Fate) × State :=
  (((locs.map (· / 64)).dedup).map fun line => (line, s.fateOf l g (64 * line) write v), s.countLines l g write v locs)

/-- The fate of the request that a location belongs to. -/
def fateAt (l : List (Nat × Fate)) (loc : Nat) : Fate :=
  match l.find? fun x => x.1 = loc / 64 with
  | some x => x.2
  | none => .ok

/-- The failures among some requests, as a failure record (R221, R240). -/
def fateRecord (l : List (Nat × Fate)) : FailRec := l.foldl (fun r x => r.join x.2.record) {}

/-- The elements of a list whose bits of a number are 0, or 1. -/
def bitsPick {α : Type} (one : Bool) : List α → Nat → List α
  | [], _ => []
  | a :: l, n => if (n % 2 == 1) == one then a :: bitsPick one l (n / 2) else bitsPick one l (n / 2)

/-- The last value written to each location. -/
def lastWrites : List (Nat × Byte × Bool) → List (Nat × Byte × Bool)
  | [] => []
  | b :: l => if l.any fun c => c.1 = b.1 then lastWrites l else b :: lastWrites l

/-- Performs an engine's write of bytes at their homes (R133, R264), a later value of a location after an earlier one; clean
data that leaves its word poisoned appends a record (R332). -/
def State.engineWrite (s : State) (w : Who) (bytes : List (Nat × Byte × Bool)) : State :=
  let bytes := if bytes.any fun b => b.2.2 then lastWrites bytes else bytes
  let clean := (bytes.filter fun b => !b.2.2).map fun b => (b.1, b.2.1)
  let bad := (bytes.filter fun b => b.2.2).map fun b => (b.1, b.2.1)
  let left := s.leavesPoison (clean.map (·.1))
  let s := s.writeMarked clean bad
  if left then
    match s.whoSet w with
    | some t => s.containRecord w.g (s.queueOf t) t.reqtag 0x05 0 0
    | none => s
  else s

/-! ### What an engine does at once or in parts (R123, R236, R238, R239, R249) -/

/-- Bytes to be written, as those that are written now and those left for later: independent bytes of which the hardware leaves
some, but none of a poisoned word (log entry 66), and all of a pinned line (R194). -/
def State.splitWrites (s : State) (l : List (Nat × Byte × Bool)) (n : Nat) :
    List (Nat × Byte × Bool) × List (Nat × Byte × Bool) :=
  let l := if n = 0 then l else lastWrites l
  let later := bitsPick true (l.zip (List.range l.length)) n
  let wait (b : (Nat × Byte × Bool) × Nat) : Bool :=
    s.pinned (b.1.1 / 64) || (later.any (fun x => x.2 = b.2) && !s.poisoned b.1.1)
  let z := l.zip (List.range l.length)
  ((z.filter fun b => !wait b).map (·.1), (z.filter wait).map (·.1))

/-- An engine goes on with what it has issued: bytes of its own die are read and written, some of them later (R249), and when all
are and every line has been answered or has failed, the engine can act. Until then it is counted on its entries. -/
def State.carryOn (s : State) (w : Who) (fresh : Bool) (mods : List Nat) (x : Xfer) : Option Fates × State :=
  let (n, s) := if x.todo.isEmpty && x.put.isEmpty then (0, s) else s.choose
  let todo := bitsPick true x.todo n
  let got := x.got ++ (bitsPick false x.todo n).map fun l => (l, s.homeByte l)
  let (now, put) := s.splitWrites x.put (n / 2 ^ x.todo.length)
  let s := if now.isEmpty then s else s.engineWrite w now
  if todo.isEmpty && put.isEmpty && x.lines.all (fun y => y.fate.isSome) && !mods.any fun l => s.pinned (l / 64) then
    let s := if fresh then s else s.giveUp w.g x.ptes
    (some { lines := x.lines, got := if x.got.isEmpty then [] else got }, s.setXfer w.g w.sid x.key none)
  else
    let s := if fresh then x.ptes.foldl (fun (s : State) e => s.flyIn (w.g / 128) e) s else s
    (none, s.setXfer w.g w.sid x.key (some { x with todo := todo, got := got, put := put }))

/-- An engine's action: it issues what its plan needs (R123, R236), when the die has tags for its lines (R239) and no write-class
request of the core is in flight to a line that it writes (R238), and goes on with it until it can act. -/
def State.carry (s : State) (w : Who) (reqtag : W16) (key : XKey) (plan : Plan) : Option Fates × State :=
  match (s.core w.g).xfer w.sid key with
  | some x => s.carryOn w false plan.mods x
  | none =>
    if !s.hasTags (w.g / 128) plan.want.length || plan.want.any (fun x => x.write && s.writing w.g x.line) then (none, s)
    else
      let (l, s) := s.sendLines w reqtag key plan.want
      s.carryOn w true plan.mods
        { key := key, sid := w.sid, lines := l, ptes := plan.ptes, todo := plan.reads, put := plan.writes }

end Sys2Proof.Machine
end

