-- ==== Sys2Proof/Machine/VectorArith.lean ====
section
/-! DEFINITION. Sys2Proof/Machine/VectorArith.lean: what the V instructions compute on the registers of a set (R157 to R160,
R167 to R176). -/

namespace Sys2Proof.Machine

/-- The result of one element: its bits, flags, poison mark, and whether it consumes poison (R328). -/
structure ElemOut where
  n : Nat
  fl : FFlags := 0
  mark : Bool := false
  eat : Bool := false
  deriving Repr

/-- What an elementwise entry leaves: the register and its marks, flags, consumption, and the draw state. -/
structure RegOut where
  lanes : List Nat := []
  marks : BitVec 256 := 0
  fl : FFlags := 0
  eat : Bool := false
  srst : W32 := 0
  deriving Repr

/-- The register width of an element that moves as raw bits: a whole byte for l6. -/
def rawLane (v : BitVec 2048) (ty : ElemTy) (i : Nat) : Nat := lane v (elemWidth ty) i

/-- The element bits as written: l6 clears bits [7:6] (R55). -/
def written (ty : ElemTy) (n : Nat) : Nat :=
  match ty with
  | .l6 => n % 64
  | _ => n % 2 ^ elemWidth ty

/-- One element of an elementwise entry (R159): an inactive element keeps its lane and its mark. When the entry rounds in
mode SR every active element that draws takes one draw, in ascending order (R61). -/
def elemStep (old : BitVec 2048) (marks : BitVec 256) (ty : ElemTy) (act : BitVec 256) (draws : Nat → Bool)
    (f : Nat → Nat → ElemOut) (a : RegOut) (i : Nat) : RegOut :=
  if act.getLsbD i then
    let srst := if draws i then xorShift a.srst else a.srst
    let r := f srst.toNat i
    { lanes := written ty r.n :: a.lanes
      marks := markElem a.marks ty i r.mark
      fl := a.fl ||| r.fl
      eat := a.eat || r.eat
      srst := srst }
  else
    { a with lanes := rawLane old ty i :: a.lanes, marks := markElem a.marks ty i (elemMarked marks ty i) }

/-- An elementwise entry over all elements of a register. -/
def mapElems (old : BitVec 2048) (marks : BitVec 256) (ty : ElemTy) (act : BitVec 256) (draws : Nat → Bool) (seed : W32)
    (f : Nat → Nat → ElemOut) : RegOut :=
  (List.range (elemCount ty)).foldl (elemStep old marks ty act draws f) { marks := marks, srst := seed }

/-- The register that an elementwise entry leaves. -/
def RegOut.reg (r : RegOut) (ty : ElemTy) : BitVec 2048 := packLanes (elemWidth ty) r.lanes.reverse

/-! ### Arithmetic on elements (R167 to R169) -/

/-- Two's complement of an integer in the width of a type. -/
def wrapInt (ty : ElemTy) (i : Int) : Nat := (i % (2 ^ elemWidth ty : Nat)).toNat

/-- An element as a signed integer. -/
def signedElem (ty : ElemTy) (n : Nat) : Int := toSigned (elemWidth ty) n

/-- An exact result rounded, with the flags of the operation and of the rounding. -/
def rounded (ty : ElemTy) (rm : RMode) (draw : Nat) (x : Fl × FFlags) : Nat × FFlags :=
  let (b, f) := roundTo ty rm draw x.1
  (b, x.2 ||| f)

/-- A sum (neg false) or a difference of two elements (R167). -/
def elemAdd (neg : Bool) (ty : ElemTy) (rm : RMode) (draw a b : Nat) : Nat × FFlags :=
  match ty with
  | .i8 | .i32 => (wrapInt ty (if neg then signedElem ty a - signedElem ty b else signedElem ty a + signedElem ty b), 0)
  | _ => rounded ty rm draw (Fl.add rm (elemValue ty a) (if neg then (elemValue ty b).neg else elemValue ty b))

/-- A product of two elements (R57, R167). -/
def elemMul (ty : ElemTy) (rm : RMode) (draw a b : Nat) : Nat × FFlags :=
  match ty with
  | .i8 | .i32 => (wrapInt ty (signedElem ty a * signedElem ty b), 0)
  | .l6 => l6Mul a b
  | _ => rounded ty rm draw (Fl.mul (elemValue ty a) (elemValue ty b))

/-- a * b + c with one rounding (R167). -/
def elemFma (ty : ElemTy) (rm : RMode) (draw a b c : Nat) : Nat × FFlags :=
  rounded ty rm draw (Fl.fma rm (elemValue ty a) (elemValue ty b) (elemValue ty c))

/-- The smaller or the larger of two elements (R52, R167). -/
def elemMinMax (max : Bool) (ty : ElemTy) (a b : Nat) : Nat × FFlags :=
  match ty with
  | .i8 | .i32 => (if decide (signedElem ty a < signedElem ty b) == max then b else a, 0)
  | _ =>
    let (v, f) := Fl.minMax max (elemValue ty a) (elemValue ty b)
    ((roundTo ty .rne 0 v).1, f)

/-- The sign bit of a type. -/
def signBit (ty : ElemTy) : Nat := 2 ^ (elemWidth ty - 1)

/-- vabs: a float only loses its sign bit (R167). -/
def elemAbs (ty : ElemTy) (a : Nat) : Nat :=
  match ty with
  | .i8 | .i32 => wrapInt ty (signedElem ty a).natAbs
  | _ => a % signBit ty

/-- vneg: a float only has its sign bit inverted (R167). -/
def elemNeg (ty : ElemTy) (a : Nat) : Nat :=
  match ty with
  | .i8 | .i32 => wrapInt ty (-signedElem ty a)
  | _ => if a < signBit ty then a + signBit ty else a - signBit ty

/-- The six functions of R168. -/
inductive Trans where
  | div | sqrt | rcp | rsq | exp2 | log2
  deriving DecidableEq, Repr

/-- The value of a function of R168, before its rounding to f32 in RNE. -/
def transValue (o : Trans) (a b : Fl) : Fl × FFlags :=
  match o with
  | .div => Fl.div a b
  | .sqrt => Fl.sqrt a
  | .rcp => Fl.div (.fin false 1 0) a
  | .rsq => Fl.rsqrt a
  | .exp2 => Fl.exp2 a
  | .log2 => Fl.log2 a

/-- A function of R168 of f32 elements. -/
def elemTrans (o : Trans) (a b : Nat) : Nat × FFlags :=
  rounded .f32 .rne 0 (transValue o (fmtF32.unpack a) (fmtF32.unpack b))

/-- The logical operations and the shifts (R169). -/
inductive BitOp where
  | and | or | xor | not | shl | shr | sra
  deriving DecidableEq, Repr

/-- A logical operation or a shift by a count on element bits (R169). -/
def elemBits (o : BitOp) (ty : ElemTy) (a b : Nat) : Nat :=
  let w := elemWidth ty
  match o with
  | .and => a &&& b
  | .or => a ||| b
  | .xor => a ^^^ b
  | .not => 2 ^ w - 1 - a
  | .shl => if w ≤ b then 0 else a * 2 ^ b % 2 ^ w
  | .shr => if w ≤ b then 0 else a / 2 ^ b
  | .sra => wrapInt ty (signedElem ty a / (2 ^ min b w : Nat))

/-- A comparison with its flags (R170). -/
def elemCmp (rel : CmpRel) (ty : ElemTy) (a b : Nat) : Bool × FFlags :=
  match ty with
  | .i8 | .i32 =>
    let x := signedElem ty a
    let y := signedElem ty b
    (match rel with
      | .eq => x == y
      | .ne => x != y
      | .lt => decide (x < y)
      | .le => decide (x ≤ y), 0)
  | _ =>
    let x := elemValue ty a
    let y := elemValue ty b
    let nan := x.isNan || y.isNan
    let sig := x.isSig || y.isSig
    match rel with
    | .eq => (Fl.eqv x y, if sig then flInvalid else 0)
    | .ne => (!Fl.eqv x y, if sig then flInvalid else 0)
    | .lt => (Fl.lt x y, if nan then flInvalid else 0)
    | .le => (Fl.lt x y || Fl.eqv x y, if nan then flInvalid else 0)

/-- A conversion rounds by the captured mode: its row of R63 names rm. -/
def cvtRounds (ty ts : ElemTy) : Bool :=
  ty != ts &&
    (match ty with
     | .l6 => false
     | .f32 => ts.isInt
     | .i32 => !ts.isInt
     | .i8 => !ts.isInt
     | _ => true)

/-- The rounding mode of a captured vrnd (R60). -/
def modeOf (rm : BitVec 3) : RMode :=
  match rm.toNat with
  | 0 => .rne | 1 => .rtz | 2 => .rup | 3 => .rdn | _ => .sr

/-! ### Reductions and scans (R66, R67, R175) -/

/-- The identity of a reduction as bits of f32 or of the integer type. -/
def redIdentity (o : RedOp) (ty : ElemTy) : Nat :=
  match ty with
  | .i8 | .i32 =>
    match o with
    | .add => 0
    | .min => 2 ^ (elemWidth ty - 1) - 1
    | .max => 2 ^ (elemWidth ty - 1)
  | _ =>
    match o with
    | .add => 0x80000000
    | .min => 0x7F800000
    | .max => 0xFF800000

/-- The type in which a reduction runs: f32 for a float type. -/
def redType (ty : ElemTy) : ElemTy := if ty.isInt then ty else .f32

/-- Two partial results combined (R66). -/
def redCombine (o : RedOp) (ty : ElemTy) (a b : Nat) : Nat × FFlags :=
  match o with
  | .add => elemAdd false (redType ty) .rne 0 a b
  | .min => elemMinMax false (redType ty) a b
  | .max => elemMinMax true (redType ty) a b

/-- One level of the pairwise tree. -/
def redLevel (o : RedOp) (ty : ElemTy) : List Nat → List Nat × FFlags
  | a :: b :: l =>
    let (c, f) := redCombine o ty a b
    let (m, g) := redLevel o ty l
    (c :: m, f ||| g)
  | l => (l, 0)

/-- The pairwise tree over positions (R66): n levels. -/
def redTree (o : RedOp) (ty : ElemTy) : Nat → List Nat → Nat × FFlags
  | 0, l => (l.headD 0, 0)
  | n + 1, l =>
    let (m, f) := redLevel o ty l
    let (r, g) := redTree o ty n m
    (r, f ||| g)

/-- An element as the reduction reads it: an f32 for a float type. -/
def redElem (ty : ElemTy) (b : Nat) : Nat × FFlags := if ty.isInt then (b, 0) else convert .f32 ty .rne 0 b

/-- The result of a reduction delivered in its type (R66). -/
def redDeliver (ty : ElemTy) (b : Nat) : Nat × FFlags :=
  if ty.isInt || ty == .f32 then (b, 0) else roundTo ty .rne 0 (fmtF32.unpack b)

/-- vred of the active elements (R175): with none active it delivers the identity and sets no flag. -/
def reduce (o : RedOp) (ty : ElemTy) (v : BitVec 2048) (act : BitVec 256) : Nat × FFlags :=
  let n := elemCount ty
  let es := (List.range n).map fun i => if act.getLsbD i then redElem ty (elem v ty i) else (redIdentity o ty, 0)
  let f0 := es.foldl (fun a e => a ||| e.2) 0
  let (w, f1) := redTree o ty (bitLen n - 1) (es.map (·.1))
  let (r, f2) := redDeliver ty w
  (r, if (List.range n).any act.getLsbD then f0 ||| f1 ||| f2 else 0)

/-- What a scan has come to: the running result, the lanes so far, flags, marks and consumption. -/
structure ScanOut where
  w : Nat
  out : RegOut
  tainted : Bool := false
  deriving Repr

/-- One element of a scan (R67). -/
def scanStep (o : RedOp) (ty : ElemTy) (src old : BitVec 2048) (srcMarks oldMarks act : BitVec 256) (a : ScanOut)
    (i : Nat) : ScanOut :=
  if act.getLsbD i then
    let (x, f0) := redElem ty (elem src ty i)
    let (w, f1) := redCombine o ty a.w x
    let (r, f2) := redDeliver ty w
    let tainted := a.tainted || elemMarked srcMarks ty i
    { w := w
      out := { a.out with
               lanes := written ty r :: a.out.lanes
               marks := markElem a.out.marks ty i tainted
               fl := a.out.fl ||| f0 ||| f1 ||| f2
               eat := tainted }
      tainted := tainted }
  else
    { a with out := { a.out with
        lanes := rawLane old ty i :: a.out.lanes
        marks := markElem a.out.marks ty i (elemMarked oldMarks ty i) } }

/-- vscan (R67, R175). -/
def scan (o : RedOp) (ty : ElemTy) (src old : BitVec 2048) (srcMarks oldMarks act : BitVec 256) : RegOut :=
  ((List.range (elemCount ty)).foldl (scanStep o ty src old srcMarks oldMarks act)
    { w := redIdentity o ty, out := { marks := oldMarks } }).out

/-! ### Permutes (R173, R174) -/

/-- vcmpr: the selected elements packed from element 0, then zeros; with their marks. -/
def compress (ty : ElemTy) (src : BitVec 2048) (marks act : BitVec 256) : List (Nat × Bool) :=
  let n := elemCount ty
  let sel := ((List.range n).filter act.getLsbD).map fun i => (elem src ty i, elemMarked marks ty i)
  sel ++ List.replicate (n - sel.length) (0, false)

/-- vpart: the indices whose mask bit is 1, or 0, then -1 (R174). -/
def partition_ (act : BitVec 256) (want : Bool) : List Nat :=
  let sel := (List.range 64).filter fun i => act.getLsbD i == want
  sel ++ List.replicate (64 - sel.length) 0xFFFFFFFF

/-- Marks of a whole register from marks of its elements. -/
def packMarks (ty : ElemTy) (l : List Bool) : BitVec 256 :=
  (l.zipIdx).foldl (fun (m : BitVec 256) p => markElem m ty p.2 p.1) 0

end Sys2Proof.Machine
end

