-- ==== Sys2Proof/Machine/VectorExec.lean ====
section
/-! DEFINITION. Sys2Proof/Machine/VectorExec.lean: the vector engine: an entry executes at the head of the queue (R161 to
R165) and its result completes it later (R162). -/

namespace Sys2Proof.Machine

/-- What executing the entry at the head of the queue comes to. -/
inductive VStep where
  /-- done, with its flags, mstat bits and failures -/
  | done (s : State) (fl : BitVec 5) (mst : BitVec 8) (fail : FailRec)
  /-- it waits, or has done a part -/
  | wait (s : State)
  /-- a request was withdrawn (R127) -/
  | withdrawn (s : State) (pte : BitVec 20)
  deriving Repr

/-- An entry done with no flags. -/
def VStep.plain (s : State) : VStep := .done s 0 0 {}

/-! ### Register entries (R167 to R176) -/

/-- What a register entry does to its set: the new set, its flags, and whether poison was consumed. -/
structure SetOut where
  t : CtxSet
  fl : FFlags := 0
  eat : Bool := false
  deriving Repr

/-- Writes a v register with its marks. -/
def CtxSet.setV (t : CtxSet) (vd : VReg) (v : BitVec 2048) (m : BitVec 256) : CtxSet :=
  { t with v := vset t.v vd v, vpois := vset t.vpois vd m }

/-- Runs an elementwise entry into vd: the element function gets the draw and the element's index. -/
def CtxSet.elementwise (t : CtxSet) (e : Entry) (ty : ElemTy) (mk : MReg) (vd : VReg) (draws : Nat → Bool)
    (f : Nat → Nat → ElemOut) : SetOut :=
  let seed := (nget t.ctx e.who).srst
  let r := mapElems (vget t.v vd) (vget t.vpois vd) ty (t.mask mk) draws seed f
  { t := (t.setV vd (r.reg ty) r.marks).updCtx e.who fun x => { x with srst := r.srst }
    fl := r.fl, eat := r.eat }

/-- The mark of element i of the second operand: only a register carries marks. -/
def CtxSet.operandMark (t : CtxSet) (ty : ElemTy) (s2 : VSrc) (i : Nat) : Bool :=
  match s2 with
  | .vv r => elemMarked (vget t.vpois r) ty i
  | _ => false

/-- An entry that computes from two operands: marked elements are consumed and mark the result (R328). -/
def CtxSet.binary (t : CtxSet) (e : Entry) (ty : ElemTy) (mk : MReg) (s2 : VSrc) (vs1 vd : VReg) (sr : Bool)
    (f : Nat → Nat → Nat → Nat × FFlags) : SetOut :=
  t.elementwise e ty mk vd (fun _ => sr) fun draw i =>
    let (n, fl) := f draw (elem (vget t.v vs1) ty i) (t.elemOperand ty s2 e.x0 i)
    let p := elemMarked (vget t.vpois vs1) ty i || t.operandMark ty s2 i
    { n := n, fl := fl, mark := p, eat := p }

/-- An entry that computes from one operand. -/
def CtxSet.unary (t : CtxSet) (e : Entry) (ty : ElemTy) (mk : MReg) (vs1 vd : VReg) (f : Nat → Nat × FFlags) : SetOut :=
  t.elementwise e ty mk vd (fun _ => false) fun _ i =>
    let (n, fl) := f (elem (vget t.v vs1) ty i)
    let p := elemMarked (vget t.vpois vs1) ty i
    { n := n, fl := fl, mark := p, eat := p }

/-- A shift entry: its second operand is a count (R169). -/
def CtxSet.shift (t : CtxSet) (e : Entry) (ty : ElemTy) (mk : MReg) (s2 : VSrc) (vs1 vd : VReg) (o : BitOp) : SetOut :=
  t.elementwise e ty mk vd (fun _ => false) fun _ i =>
    let p := elemMarked (vget t.vpois vs1) ty i || t.operandMark ty s2 i
    { n := elemBits o ty (elem (vget t.v vs1) ty i) (t.countOperand ty s2 e.x0 i), mark := p, eat := p }

/-- An entry that moves elements: a marked source marks the result and is not consumed (R328). -/
def CtxSet.move (t : CtxSet) (e : Entry) (ty : ElemTy) (mk : MReg) (vd : VReg) (f : Nat → ElemOut) : SetOut :=
  t.elementwise e ty mk vd (fun _ => false) fun _ i => f i

/-- The whole register written with elements and their marks. -/
def CtxSet.setElems (t : CtxSet) (ty : ElemTy) (vd : VReg) (l : List (Nat × Bool)) : CtxSet :=
  t.setV vd (packLanes (elemWidth ty) (l.map (·.1))) (packMarks ty (l.map (·.2)))

/-- Element i of a register as a copied element. -/
def CtxSet.copyElem (t : CtxSet) (ty : ElemTy) (r : VReg) (i : Nat) : ElemOut :=
  { n := elem (vget t.v r) ty i, mark := elemMarked (vget t.vpois r) ty i }

/-- vcmp: every bit of md that is not an active element's result is 0 (R170). -/
def CtxSet.compare (t : CtxSet) (e : Entry) (rel : CmpRel) (ty : ElemTy) (mk : MReg) (s2 : VSrc) (vs1 : VReg)
    (md : MReg) : SetOut :=
  let act := t.mask mk
  let r := (List.range (elemCount ty)).foldl (fun (a : BitVec 256 × FFlags × Bool) i =>
    if act.getLsbD i then
      let (b, f) := elemCmp rel ty (elem (vget t.v vs1) ty i) (t.elemOperand ty s2 e.x0 i)
      let p := elemMarked (vget t.vpois vs1) ty i || t.operandMark ty s2 i
      (if b then a.1 ||| (1#256 <<< i) else a.1, a.2.1 ||| f, a.2.2 || p)
    else a) (0, 0, false)
  { t := t.setMask md r.1, fl := r.2.1, eat := r.2.2 }

/-- vcvt (R172): elements past the source's count become 0 and draw nothing (R61). -/
def CtxSet.convertV (t : CtxSet) (e : Entry) (ty ts : ElemTy) (mk : MReg) (vs1 vd : VReg) : SetOut :=
  let n := elemCount ts
  let sr := modeOf e.rm == .sr && cvtRounds ty ts
  t.elementwise e ty mk vd (fun i => sr && i < n) fun draw i =>
    if n ≤ i then { n := 0 }
    else
      let (b, fl) := convert ty ts (modeOf e.rm) draw (elem (vget t.v vs1) ts i)
      let p := elemMarked (vget t.vpois vs1) ts i
      { n := b, fl := fl, mark := p, eat := p }

/-- vshuf (R173): an index of N or more gives 0; an index element is used as a pointer is (R328). -/
def CtxSet.shuffle (t : CtxSet) (e : Entry) (ty : ElemTy) (mk : MReg) (vs2 vs1 vd : VReg) : SetOut :=
  t.move e ty mk vd fun i =>
    let j := rawLane (vget t.v vs2) ty i
    let eat := elemMarked (vget t.vpois vs2) ty i
    if j < elemCount ty then { t.copyElem ty vs1 j with eat := eat } else { n := 0, eat := eat }

/-- The count of a vslide: a whole x value or a zero-extended immediate (R160, R173). -/
def slideCount (s2 : VSrc) (x : W64) : Nat :=
  match s2 with
  | .vi im => im.toNat
  | _ => x.toNat

/-- vslide (R173). -/
def CtxSet.slide (t : CtxSet) (e : Entry) (down : Bool) (ty : ElemTy) (mk : MReg) (s2 : VSrc) (vs1 vd : VReg) : SetOut :=
  let n := slideCount s2 e.x0
  t.move e ty mk vd fun i =>
    if down then (if i + n < elemCount ty then t.copyElem ty vs1 (i + n) else { n := 0 })
    else if n ≤ i then t.copyElem ty vs1 (i - n) else { n := 0 }

/-- vred (R175): element 0 of vd is written and the others keep their values. -/
def CtxSet.reduceV (t : CtxSet) (o : RedOp) (ty : ElemTy) (mk : MReg) (vs1 vd : VReg) : SetOut :=
  let act := t.mask mk
  let (r, fl) := reduce o ty (vget t.v vs1) act
  let p := (List.range (elemCount ty)).any fun i => act.getLsbD i && elemMarked (vget t.vpois vs1) ty i
  { t := t.setV vd (setElem (vget t.v vd) ty 0 r) (markElem (vget t.vpois vd) ty 0 p), fl := fl, eat := p }

/-- vscan (R175). -/
def CtxSet.scanV (t : CtxSet) (o : RedOp) (ty : ElemTy) (mk : MReg) (vs1 vd : VReg) : SetOut :=
  let r := scan o ty (vget t.v vs1) (vget t.v vd) (vget t.vpois vs1) (vget t.vpois vd) (t.mask mk)
  { t := t.setV vd (r.reg ty) r.marks, fl := r.fl, eat := r.eat }

/-- The register entries: what each does to its set; no other entry is one. -/
def CtxSet.regEntry (t : CtxSet) (e : Entry) : Option SetOut :=
  let rm := modeOf e.rm
  let sr (ty : ElemTy) : Bool := rm == .sr && ty.isFloat
  let bits (o : BitOp) (ty : ElemTy) (mq : MReg) (s2 : VSrc) (vs1 vd : VReg) : SetOut :=
    t.binary e ty mq s2 vs1 vd false fun _ a b => (elemBits o ty a b, 0)
  let trans (o : Trans) (mq : MReg) (vs1 vd : VReg) : SetOut := t.unary e .f32 mq vs1 vd fun a => elemTrans o a 0
  match e.instr with
  | .vadd ty mq s2 vs1 vd => some (t.binary e ty mq s2 vs1 vd (sr ty) (elemAdd false ty rm))
  | .vsub ty mq s2 vs1 vd => some (t.binary e ty mq s2 vs1 vd (sr ty) (elemAdd true ty rm))
  | .vmul ty mq s2 vs1 vd => some (t.binary e ty mq s2 vs1 vd (sr ty) (elemMul ty rm))
  | .vfma ty mq s2 vs1 vd =>
    some (t.elementwise e ty mq vd (fun _ => sr ty) fun draw i =>
      let (n, fl) := elemFma ty rm draw (elem (vget t.v vs1) ty i) (t.elemOperand ty s2 e.x0 i) (elem (vget t.v vd) ty i)
      let p := elemMarked (vget t.vpois vs1) ty i || t.operandMark ty s2 i || elemMarked (vget t.vpois vd) ty i
      { n := n, fl := fl, mark := p, eat := p })
  | .vmin ty mq s2 vs1 vd => some (t.binary e ty mq s2 vs1 vd false fun _ a b => elemMinMax false ty a b)
  | .vmax ty mq s2 vs1 vd => some (t.binary e ty mq s2 vs1 vd false fun _ a b => elemMinMax true ty a b)
  | .vabs ty mq vs1 vd => some (t.unary e ty mq vs1 vd fun a => (elemAbs ty a, 0))
  | .vneg ty mq vs1 vd => some (t.unary e ty mq vs1 vd fun a => (elemNeg ty a, 0))
  | .vdiv mq s2 vs1 vd => some (t.binary e .f32 mq s2 vs1 vd false fun _ a b => elemTrans .div a b)
  | .vsqrt mq vs1 vd => some (trans .sqrt mq vs1 vd)
  | .vrcp mq vs1 vd => some (trans .rcp mq vs1 vd)
  | .vrsq mq vs1 vd => some (trans .rsq mq vs1 vd)
  | .vexp2 mq vs1 vd => some (trans .exp2 mq vs1 vd)
  | .vlog2 mq vs1 vd => some (trans .log2 mq vs1 vd)
  | .vand ty mq s2 vs1 vd => some (bits .and ty mq s2 vs1 vd)
  | .vor ty mq s2 vs1 vd => some (bits .or ty mq s2 vs1 vd)
  | .vxor ty mq s2 vs1 vd => some (bits .xor ty mq s2 vs1 vd)
  | .vnot ty mq vs1 vd => some (t.unary e ty mq vs1 vd fun a => (elemBits .not ty a 0, 0))
  | .vshl ty mq s2 vs1 vd => some (t.shift e ty mq s2 vs1 vd .shl)
  | .vshr ty mq s2 vs1 vd => some (t.shift e ty mq s2 vs1 vd .shr)
  | .vsra ty mq s2 vs1 vd => some (t.shift e ty mq s2 vs1 vd .sra)
  | .vcmp rel ty mq s2 vs1 md => some (t.compare e rel ty mq s2 vs1 md)
  | .vsel ty mq vs2 vs1 vd =>
    some { t := t.setElems ty vd ((List.range (elemCount ty)).map fun i =>
      let r := t.copyElem ty (if (t.mask mq).getLsbD i then vs1 else vs2) i
      (r.n, r.mark)) }
  | .vcvt ty ts mq vs1 vd => some (t.convertV e ty ts mq vs1 vd)
  | .vmov ty mq vs1 vd => some (t.move e ty mq vd (t.copyElem ty vs1))
  | .vbcast ty mq _ vd => some (t.move e ty mq vd fun _ => { n := e.x0.toNat })
  | .viota ty mq vd => some (t.move e ty mq vd fun i => { n := i })
  | .vshuf ty mq vs2 vs1 vd => some (t.shuffle e ty mq vs2 vs1 vd)
  | .vslide down ty mq s2 vs1 vd => some (t.slide e down ty mq s2 vs1 vd)
  | .vcmpr ty mq vs1 vd =>
    some { t := t.setElems ty vd (compress ty (vget t.v vs1) (vget t.vpois vs1) (t.mask mq)) }
  | .vpart _ mq vd =>
    let l (want : Bool) := (partition_ (t.mask mq) want).map fun n => (n, false)
    some { t := (t.setElems .i32 vd (l true)).setElems .i32 (vd + 1) (l false) }
  | .vred o ty mq vs1 vd => some (t.reduceV o ty mq vs1 vd)
  | .vscan o ty mq vs1 vd => some (t.scanV o ty mq vs1 vd)
  | .mset ty _ md => some { t := t.setMask md (BitVec.ofNat 256 (2 ^ min e.x0.toNat (elemCount ty) - 1)) }
  | .mand mb ma md => some { t := t.setMask md (t.mask ma &&& t.mask mb) }
  | .mor mb ma md => some { t := t.setMask md (t.mask ma ||| t.mask mb) }
  | .mxor mb ma md => some { t := t.setMask md (t.mask ma ^^^ t.mask mb) }
  | .mnot ma md => some { t := t.setMask md (~~~(t.mask ma)) }
  | _ => none

/-! ### Memory entries (R165, R177, R178) -/

/-- An element that a memory entry accesses: its index, and its first byte and byte count from the pointer. -/
structure ElemAt where
  i : Nat
  off : Int
  n : Nat
  deriving DecidableEq, Repr

/-- The active elements that vld or vst accesses (R177). -/
def contiguousElems (ty : ElemTy) (act : BitVec 256) : List ElemAt :=
  ((List.range (elemCount ty)).filter act.getLsbD).map fun i =>
    { i := i, off := ((imageBytes ty i).1 : Nat), n := (imageBytes ty i).2 }

/-- The signed offset of element i from its offset group (R178). -/
def CtxSet.gatherOffset (t : CtxSet) (vs1 : VReg) (i : Nat) : Int :=
  toSigned 32 (elem (vget t.v (vs1 + BitVec.ofNat 5 (i / 64))) .i32 (i % 64))

/-- A mark on the offset of element i. -/
def CtxSet.gatherMark (t : CtxSet) (vs1 : VReg) (i : Nat) : Bool :=
  elemMarked (vget t.vpois (vs1 + BitVec.ofNat 5 (i / 64))) .i32 (i % 64)

/-- The active elements that vldg or vsts accesses: those with negative offsets are skipped (R178). -/
def CtxSet.gatherElems (t : CtxSet) (ty : ElemTy) (act : BitVec 256) (vs1 : VReg) : List ElemAt :=
  ((List.range (elemCount ty)).filter fun i => act.getLsbD i && 0 ≤ t.gatherOffset vs1 i).map fun i =>
    let o := t.gatherOffset vs1 i
    match ty with
    | .l6 => { i := i, off := ((imageBytes .l6 o.toNat).1 : Nat), n := (imageBytes .l6 o.toNat).2 }
    | _ => { i := i, off := o, n := elemWidth ty / 8 }

/-- The position of an element's code in its packed group: its own index, or its gather index (R178). -/
def CtxSet.codeIndex (t : CtxSet) (ins : Instr) (i : Nat) : Nat :=
  match ins with
  | .vldg _ _ _ vs1 _ | .vsts _ _ _ vs1 _ => (t.gatherOffset vs1 i).toNat
  | _ => i

/-- Element groups (R165), in ascending element order: a group takes the next element while its bytes and the group's form
one contiguous run within one 64-byte block of offsets. The group so far is cur, newest first, over [lo, hi). -/
def groupsFrom (base : Int) : List ElemAt → List ElemAt → Int → Int → List (List ElemAt)
  | [], cur, _, _ => if cur.isEmpty then [] else [cur.reverse]
  | e :: l, cur, lo, hi =>
    let stop := e.off + e.n
    if cur.isEmpty then groupsFrom base l [e] e.off stop
    else if e.off ≤ hi && lo ≤ stop && (base + min lo e.off) / 64 == (base + max hi stop - 1) / 64 then
      groupsFrom base l (e :: cur) (min lo e.off) (max hi stop)
    else cur.reverse :: groupsFrom base l [e] e.off stop

/-- Element groups of the elements that an entry accesses; the base is the pointer's offset. -/
def groups (base : Int) (l : List ElemAt) : List (List ElemAt) := groupsFrom base l [] 0 0

/-- The offset of a pointer. -/
def EPtr.base : EPtr → Int
  | .vault _ off => off
  | .token _ _ _ off => off
  | .stray => 0

/-- The places of an element's bytes. -/
def State.elemPlaces (s : State) (g : Nat) (p : EPtr) (need : Nat → BitVec 4) (bit : ByteFail → BitVec 8) (e : ElemAt) :
    Places :=
  (List.range e.n).map fun (j : Nat) => s.eptrByte g p need bit (e.off + (j : Int))

/-- Distances from the pointer whose bytes are denied. -/
def deniedAt (bit : ByteFail → BitVec 8) (e : ElemAt) (l : Places) : List Int :=
  l.zipIdx.filterMap fun (x : Except (BitVec 8) Nat × Nat) =>
    match x.1 with
    | .error b => if b = bit .denied then some (e.off + x.2) else none
    | .ok _ => none

/-- An element whose access is single-copy atomic (R177): aligned to its size and without failing bytes; never one of l6. -/
def elemAtomic (ty : ElemTy) (base : Int) (x : ElemAt) (places : Places) : Bool :=
  ty != .l6 && (base + x.off) % (x.n : Int) == 0 && Places.bits places == 0

/-- The elements of a load, group by group, with where their bytes lie (R119, R165, R177); failing bytes read 0. -/
def loadElems (ty : ElemTy) (base : Int) (l : List (List (ElemAt × Places))) : List VElem :=
  (l.zipIdx.map fun y => y.1.map fun (x : ElemAt × Places) =>
    ({ i := x.1.i
       grp := y.2
       atomic := elemAtomic ty base x.1 x.2
       bytes := x.2.map fun p => match p with | .ok loc => .due loc | .error _ => .val 0 false } : VElem)).flatten

/-- A byte of a load has been read. -/
def VByte.read : VByte → Bool
  | .val .. => true
  | .due _ => false

/-- The location at which a byte of a load has still to be read. -/
def VByte.loc : VByte → Option Nat
  | .val .. => none
  | .due l => some l

/-- Every byte of an element has been read. -/
def VElem.read (x : VElem) : Bool := x.bytes.all VByte.read

/-- The value of an element that has been read, and its mark. -/
def VElem.value (x : VElem) (ty : ElemTy) (code : Nat) : Nat × Bool :=
  let v := leNat (x.bytes.map fun b => match b with | .val b _ => b | .due _ => 0)
  (match ty with | .l6 => (v >>> l6Shift code) % 64 | _ => v,
   x.bytes.any fun b => match b with | .val _ m => m | .due _ => false)

/-- The denial records of the elements of a V entry (R121). -/
def State.elemDenials (s : State) (w : Who) (p : EPtr) (code : Nat) (bit : ByteFail → BitVec 8) (logged : List Nat)
    (l : List (ElemAt × Places)) : State × List Nat :=
  l.foldl (fun (a : State × List Nat) x => a.1.engineDenials w p code a.2 ((deniedAt bit x.1 x.2).map p.offset)) (s, logged)

/-- Whether a byte of an access lies under a posted operation of the core (R252). -/
def State.elemsPosted (s : State) (g : Nat) (p : EPtr) (need : Nat → BitVec 4) (bit : ByteFail → BitVec 8)
    (l : List ElemAt) : Bool :=
  !s.ops.isEmpty && l.any fun e => s.postedOver g (s.elemPlaces g p need bit e).locs

/-- A load whose bytes have all been read writes its elements together (R162). -/
def State.vectorLoaded (s : State) (g : Nat) (e : Entry) (ty : ElemTy) (mk : MReg) (vd : VReg) (els : List VElem) (mst : BitVec 8)
    (eat : Bool) : VStep :=
  let t := s.aset g
  let r := t.move e ty mk vd fun i =>
    match els.find? fun x => x.i = i with
    | some x => { n := (x.value ty (t.codeIndex e.instr i)).1, mark := (x.value ty (t.codeIndex e.instr i)).2 }
    | none => { n := 0 }
  let s := s.updAct g fun t' => { t' with v := r.t.v, vpois := r.t.vpois }
  .done (if eat && t.mask mk != 0 then s.consume g t 0 else s) 0 mst {}

/-- A byte of a V load whose group issues: what the stores of the core before the entry have left in the buffer (R163, R255), or a
copy on the path, holds of it; poisoned zeros when its address fails (R240); otherwise it is due. -/
def State.vIssueByte (s : State) (g : Nat) (p : EPtr) (seq : Nat) : VByte → VByte × State
  | .val b m => (.val b m, s)
  | .due loc =>
    match s.nearByte g p.path (s.eptrVia g p) loc (some seq) with
    | some (x, s) => (.val x.1 x.2, s)
    | none => (if s.addrFate g loc (s.eptrVia g p) == .ok then .due loc else .val 0 true, s)

/-- A due byte is read: one of the core's die at its home, one of another die in the answer to its line's request, if that has
come. -/
def State.vReadByte (s : State) (g : Nat) (p : EPtr) (lines : List XLine) : VByte → VByte × State
  | .val b m => (.val b m, s)
  | .due loc =>
    if s.remote g loc (s.eptrVia g p) then
      match (lines.find? fun y => y.line = loc / 64).bind fun y => y.fate.map fun _ => y.data with
      | some (some c) => (.val (c.byte (loc % 64)).1 (c.byte (loc % 64)).2, s)
      | some none => (.val 0 true, s)
      | none => (.due loc, s)
    else (.val (s.homeByte loc).1 (s.homeByte loc).2, s.afterHome g p.path loc)

/-- Does something to every byte of a list that a choice does not leave for later; all takes one bit of it for all of them. -/
def vEach (f : State → VByte → VByte × State) (all : Bool) : List VByte → Nat → State → List VByte × State
  | [], _, s => ([], s)
  | b :: l, later, s =>
    let (b, s) := if later % 2 == 1 then (b, s) else f s b
    let (l, s) := vEach f all l (if all then later else later / 2) s
    (b :: l, s)

/-- The elements of group i issue: a single-copy atomic one of the core's die of which the buffer or a copy holds a part is read
as a whole (R177). -/
def State.vIssueElems (s : State) (g : Nat) (p : EPtr) (seq i : Nat) : List VElem → List VElem × State
  | [] => ([], s)
  | x :: l =>
    if x.grp != i then
      let (l, s) := s.vIssueElems g p seq i l
      (x :: l, s)
    else
      let (bs, s) := vEach (fun s => s.vIssueByte g p seq) true x.bytes 0 s
      let (bs, s) := if x.atomic && bs.any VByte.read then vEach (fun s => s.vReadByte g p []) true bs 0 s else (bs, s)
      let (l, s) := s.vIssueElems g p seq i l
      ({ x with bytes := bs } :: l, s)

/-- Reads what is due of the elements of the groups before n, but for what the hardware leaves for later (R249): a single-copy
atomic element as a whole. -/
def State.vReadElems (s : State) (g : Nat) (p : EPtr) (sid n : Nat) : List VElem → Nat → List VElem × State
  | [], _ => ([], s)
  | x :: l, later =>
    if n ≤ x.grp then
      let (l, s) := s.vReadElems g p sid n l later
      (x :: l, s)
    else
      let lines := (((s.core g).xfer sid (.vec x.grp)).map (·.lines)).getD []
      let (bs, s) := vEach (fun s => s.vReadByte g p lines) x.atomic x.bytes later s
      let (l, s) := s.vReadElems g p sid n l (later / 2 ^ (if x.atomic then 1 else x.bytes.length))
      ({ x with bytes := bs } :: l, s)

/-- The locations at which group i of a load has still to be read. -/
def dueOf (i : Nat) (els : List VElem) : List Nat :=
  ((els.filter fun x => x.grp = i).map fun x => x.bytes.filterMap VByte.loc).flatten

/-- The element groups of an entry with where their bytes lie. -/
def State.groupPlaces (s : State) (g : Nat) (p : EPtr) (need : Nat → BitVec 4) (bit : ByteFail → BitVec 8) (l : List ElemAt) :
    List (List (ElemAt × Places)) :=
  (groups p.base l).map fun gr => gr.map fun x => (x, s.elemPlaces g p need bit x)

/-- What stops the issue of an entry's element groups. -/
inductive VStop where
  | none | tags | stall | withdrawn
  deriving DecidableEq, Repr

/-- The remaining groups of a load pass their issue points, in order (R123, R165): each reads what the buffer and the copies hold, and
requests its remote lines (R236) when the die has tags for them (R239). -/
def State.vIssue (s : State) (w : Who) (reqtag : W16) (p : EPtr) (seq : Nat) :
    List (List (ElemAt × Places)) → List VElem → VStop × List VElem × State
  | [], els => (.none, els, s)
  | gr :: rest, els =>
    let i := (s.aset w.g).vprog.pos
    match s.eptrCheck w.g p with
    | .withdrawn => (.withdrawn, els, s)
    | .stall => (.stall, els, s)
    | .go =>
      let (els', s') := s.vIssueElems w.g p seq i els
      let plan := s'.readPlan w.g (s.eptrVia w.g p) p.pte (dueOf i els') false (some p.path.install)
      if !s.hasTags (w.g / 128) plan.want.length then (.tags, els, s)
      else
        let s' := s'.countLines {} w.g false (s.eptrVia w.g p) (((gr.map fun x => x.2.locs).flatten).filter fun l =>
          (s.nearByte w.g p.path (s.eptrVia w.g p) l (some seq)).isNone)
        let (lines, s') := s'.sendLines w reqtag (.vec i) plan.want
        let s' := s'.setXfer w.g w.sid (.vec i) (some { key := .vec i, sid := w.sid, lines := lines })
        let (s', lg) := s'.elemDenials w p 2 ByteFail.readBit (s'.aset w.g).vprog.logged gr
        let s' := s'.updAct w.g fun t => { t with vprog :=
          { t.vprog with pos := i + 1, seq0 := seq, elems := some els', logged := lg
                         mst := gr.foldl (fun m x => m ||| x.2.bits) t.vprog.mst } }
        s'.vIssue w reqtag p seq rest els'

/-- After a part of a load: the groups that have been read end, and the others are counted on their entry (R123, R124). -/
def State.vSettle (s : State) (g sid : Nat) (pte : Option (BitVec 20)) (els : List VElem) : State :=
  ((s.core g).xfers.filter fun x => x.sid == sid).foldl (fun (s : State) x =>
    match x.key with
    | .vec i =>
      if x.lines.all (fun y => y.fate.isSome) && (dueOf i els).isEmpty then (s.giveUp g x.ptes).setXfer g sid x.key none
      else if x.ptes.isEmpty then
        (match pte with
         | some e => (s.flyIn (g / 128) e).setXfer g sid x.key (some { x with ptes := [e] })
         | none => s)
      else s
    | _ => s) s

/-- A load entry whose groups have issued, but for those that something stops, reads what is due of them, all of it or, where the
hardware leaves some for later, a part; with every byte read it is done. -/
def State.loadGoesOn (s : State) (g : Nat) (e : Entry) (ty : ElemTy) (mk : MReg) (vd : VReg) (eat : Bool) (stop : VStop)
    (els : List VElem) : VStep :=
  let t := s.aset g
  let p := s.eptr g e.x0 e.k0
  let n := t.vprog.pos
  let local_ := els.any fun x => x.grp < n && (x.bytes.filterMap VByte.loc).any fun loc => !s.remote g loc (s.eptrVia g p)
  let (later, s) := if local_ then s.choose else (0, s)
  let (els, s) := s.vReadElems g p t.sid n els later
  let s := s.vSettle g t.sid p.pte els
  let s := if 0 < n then s.updAct g fun t => { t with vprog := { t.vprog with elems := some els } } else s
  let s := if stop == .stall then s else s.updAct g fun t => t.unstall .vec e.who
  match stop with
  | .withdrawn => .withdrawn s (p.pte.getD 0)
  | .stall => .wait (s.engineStall g .vec e.who (p.pte.getD 0))
  | .tags => .wait s
  | .none => if els.all VElem.read then s.vectorLoaded g e ty mk vd els (s.aset g).vprog.mst eat else .wait s

/-- A load entry (R163, R165, R177, R178): its element groups issue in order, and its elements are read, at once or, where the
hardware leaves some for later, in parts that are independent (R249, R266). -/
def State.vectorLoad (s : State) (g : Nat) (e : Entry) (ty : ElemTy) (mk : MReg) (vd : VReg) (l : List ElemAt)
    (eat : Bool) : VStep :=
  let t := s.aset g
  let p := s.eptr g e.x0 e.k0
  let w : Who := ⟨g, t.sid, e.who⟩
  let gs := s.groupPlaces g p readRights ByteFail.readBit l
  let seq := if t.vprog.elems.isSome then t.vprog.seq0 else (s.core g).seq
  if t.vprog.elems.isNone && s.elemsPosted g p readRights ByteFail.readBit l then .wait s
  else
    let (stop, els, s) := s.vIssue w t.reqtag p seq (gs.drop t.vprog.pos) (t.vprog.elems.getD (loadElems ty p.base gs))
    s.loadGoesOn g e ty mk vd eat stop els

/-- A byte to be stored: its location and value, its mark, and the bits of it that are written (R177). -/
structure SByte where
  loc : Nat
  b : Byte
  marked : Bool
  bits : Byte := 0xFF
  /-- the unit that it is performed with (R249) -/
  unit : Nat := 0
  deriving DecidableEq, Repr

/-- Adds a byte to those of a group; codes of l6 that share a byte write the bits of both, and a mark stays while any of the
bits it was written with do (R328). -/
def putByte (new : SByte) : List SByte → List SByte
  | [] => [new]
  | x :: l =>
    if x.loc = new.loc then
      { new with marked := new.marked || (x.marked && x.bits &&& ~~~new.bits != 0), bits := new.bits ||| x.bits } :: l
    else x :: putByte new l

/-- The bits of byte j of its image bytes that an element writes (R55, R177). -/
def elemBitsAt (ty : ElemTy) (code j : Nat) : Byte :=
  match ty with
  | .l6 => BitVec.ofNat 8 ((63 <<< l6Shift code) >>> (8 * j))
  | _ => 0xFF

/-- The bytes that one element stores at its places, over those of its group so far; old reads a byte as it was. -/
def elemStore (ty : ElemTy) (code v : Nat) (marked : Bool) (places : Places) (old : Nat → Byte) (acc : List SByte) : List SByte :=
  let was (loc : Nat) : Byte := match acc.find? fun b => b.loc = loc with
    | some b => b.b
    | none => old loc
  let image := match ty with
    | .l6 => imageOfElem .l6 code v (leNat (places.map fun x => match x with | .ok l => was l | .error _ => 0))
    | _ => v
  ((places.zip (leBytes places.length image)).zipIdx).foldl (fun acc x =>
    match x.1.1 with
    | .ok loc => putByte { loc := loc, b := x.1.2, marked := marked, bits := elemBitsAt ty code x.2 } acc
    | .error _ => acc) acc

/-- A byte as an agent of the core last saw it in the store buffer, its L1 or the home: the old bits of a byte that codes of
l6 share (R177, R253). -/
def State.oldByte (s : State) (g loc : Nat) : Byte :=
  match (s.core g).forward loc with
  | some p => p.1
  | none =>
    match (s.core g).l1Word loc with
    | some c => (c.byte (loc % 64)).1
    | none => s.mem.get loc

/-- Bytes to be stored enter the store buffer, an entry for each line (R253, R236), which is performed in their units (R249); marked
ones poison their words and set PSN in the failure record at once (R221, R328). -/
def State.pushBytes (s : State) (w : Who) (t : Option Token) (l : List SByte) : State :=
  let s := if l.any SByte.marked then s.addFail w true false false false else s
  ((l.map fun b => b.loc / 64).dedup).foldl (fun (s : State) line =>
    let here := l.filter fun b => b.loc / 64 = line
    let whole := here.all fun b => b.unit = (here.headD { loc := 0, b := 0, marked := false }).unit
    s.pushStore w (here.map fun b => (b.loc, b.b)) (here.all SByte.marked) t (if whole then [] else here.map SByte.unit)
      ((here.filter fun b => b.bits != 0xFF).map (·.loc))
      (if here.all SByte.marked then [] else (here.filter SByte.marked).map (·.loc))) s

/-- The bytes of element number j of a group, in units: one for a single-copy atomic element, else one for each byte (R177). -/
def inUnits (j : Nat) (atomic : Bool) (l : List SByte) : List SByte :=
  l.zipIdx.map fun x => { x.1 with unit := 8 * j + (if atomic then 0 else x.2) }

/-- The bytes of a group enter the buffer; codes of l6 share bytes, so a group of them enters as its bytes. Elements that write the
same bytes enter one after another (R178). -/
def State.pushGroup (s : State) (w : Who) (t : CtxSet) (ins : Instr) (ty : ElemTy) (vd : VReg) (base : Int) (tok : Option Token)
    (gr : List (ElemAt × Places)) : State :=
  let store (x : ElemAt × Places) (acc : List SByte) : List SByte :=
    elemStore ty (t.codeIndex ins x.1.i) (elem (vget t.v vd) ty x.1.i) (elemMarked (vget t.vpois vd) ty x.1.i) x.2
      (s.oldByte w.g) acc
  match ty with
  | .l6 => s.pushBytes w tok ((gr.foldl (fun acc x => store x acc) []).zipIdx.map fun x => { x.1 with unit := x.2 })
  | _ =>
    let els := gr.zipIdx.map fun x => inUnits x.2 (elemAtomic ty base x.1.1 x.1.2) (store x.1 [])
    if (els.flatten.map SByte.loc).Nodup then s.pushBytes w tok els.flatten
    else els.foldl (fun (s : State) l => s.pushBytes w tok l) s

/-- The V store at the head of the queue waits between its groups: what it has still to write is claimed (R255). -/
def State.claimWrites (s : State) (g : Nat) (l : List (List (ElemAt × Places))) : State :=
  s.updAct g fun t => if t.vprog.pos = 0 then t else
    { t with vprog := { t.vprog with writes := ((l.flatten.map fun x => x.2.locs).flatten) } }

/-- A store entry: its groups enter the store buffer in order, in one step as far as the buffer can make room for them (R163,
R165, R253 to R255); the entry goes on with its next group when lines that cannot leave yet have left. -/
def State.vectorStore (s : State) (g : Nat) (e : Entry) (ty : ElemTy) (vd : VReg) (eat : Bool) :
    List (List (ElemAt × Places)) → Nat → VStep
  | [], _ => .done (if eat then s.consume g (s.aset g) 0 else s) 0 (s.aset g).vprog.mst {}
  | gr :: rest, n =>
    let t := s.aset g
    if n < t.vprog.pos then s.vectorStore g e ty vd eat rest (n + 1)
    else
      let p := s.eptr g e.x0 e.k0
      match s.eptrCheck g p with
      | .withdrawn => .withdrawn s (p.pte.getD 0)
      | .stall => .wait ((s.engineStall g .vec e.who (p.pte.getD 0)).claimWrites g (gr :: rest))
      | .go =>
        let w : Who := ⟨g, t.sid, e.who⟩
        let locs := (gr.map fun x => x.2.locs).flatten
        let s := s.makeRoom g locs ((s.core g).sb.length + 1)
        if s.postedOver g locs then .wait (s.claimWrites g (gr :: rest))
        else if !(s.core g).sbRoom locs then .wait ((s.triggerDrain g (s.core g).seq).claimWrites g (gr :: rest))
        else
          let (s, logged) := s.elemDenials w p 3 ByteFail.writeBit t.vprog.logged gr
          let tok := match p with | .token _ _ t _ => some t | _ => none
          let s := s.pushGroup w t e.instr ty vd p.base tok gr
          let s := s.updAct g fun t => { t.unstall .vec e.who with vprog :=
            { t.vprog with pos := n + 1, mst := gr.foldl (fun m x => m ||| x.2.bits) t.vprog.mst, logged := logged } }
          s.vectorStore g e ty vd eat rest (n + 1)

/-! ### Rings (R136 to R143, R179, R180) -/

/-- A handle is unset (R137). -/
def Ring.unset (r : Ring) : Bool := r.slot == 0
/-- Filled slots (R138). -/
def Ring.filled (r : Ring) : Nat := (r.head - r.tail).toNat
/-- Free slots (R138). -/
def Ring.free (r : Ring) : Nat := 2 ^ r.count.toNat - r.filled
/-- Bytes of a slot. -/
def Ring.slotSize (r : Ring) : Nat := 2 ^ r.slot.toNat
/-- The vault location of byte n of the window that begins at a position (R138, R179). -/
def Ring.loc (r : Ring) (g : Nat) (pos : W32) (n : Nat) : Nat :=
  vaultLoc g (r.base.toNat + ((pos.toNat + n / r.slotSize) % 2 ^ r.count.toNat) * r.slotSize + n % r.slotSize)
/-- A code that admits the vector engine and the contexts: 1 or 3 (R141). -/
def admitsV (c : BitVec 2) : Bool := c == 1 || c == 3
/-- Head moves by min(n, free); whether n was more (R140). -/
def Ring.publish (r : Ring) (n : Nat) : Ring × Bool :=
  ({ r with head := r.head + BitVec.ofNat 32 (min n r.free) }, r.free < n)
/-- Tail moves by min(n, filled); whether n was more (R140). -/
def Ring.release (r : Ring) (n : Nat) : Ring × Bool :=
  ({ r with tail := r.tail + BitVec.ofNat 32 (min n r.filled) }, r.filled < n)

/-- Changes a ring of the active set. -/
def State.setRing (s : State) (g : Nat) (h : HReg) (r : Ring) : State :=
  s.updAct g fun t => { t with ring := vset t.ring h r }

/-- vldr and vstr refuse an access (R179). -/
def ringRefused (r : Ring) (code : BitVec 2) (off : W64) (ty : ElemTy) : Bool :=
  r.unset || !admitsV code || 2 ^ r.count.toNat * r.slotSize < off.toNat + imageSize ty

/-- The vault location of byte b of a register's image in a ring window (R179). -/
def Ring.imageLoc (r : Ring) (g : Nat) (pos : W32) (off : W64) (b : Nat) : Nat := r.loc g pos (off.toNat + b)

/-- A vault byte as a vldr reads it: from the store buffer or at its home (R163). -/
def State.vaultByte (s : State) (g loc : Nat) : Byte × Bool := ((s.core g).forward loc).getD (s.homeByte loc)

/-- vldr (R179). -/
def State.ringLoad (s : State) (g : Nat) (e : Entry) (ty : ElemTy) (mk : MReg) (h : HReg) (vd : VReg) : VStep :=
  let t := s.aset g
  let r := vget t.ring h
  if ringRefused r r.consumer e.x0 ty then
    .done (s.updAct g fun t => (t.move e ty mk vd fun _ => { n := 0 }).t) 0 mStray {}
  else if r.filled ≤ (e.x0.toNat + imageSize ty - 1) / r.slotSize then .wait s
  else
    let act := t.mask mk
    let els := (List.range (elemCount ty)).filter act.getLsbD
    let bytesOf (i : Nat) : List (Byte × Bool) := (List.range (imageBytes ty i).2).map fun j =>
      s.vaultByte g (r.imageLoc g r.tail e.x0 ((imageBytes ty i).1 + j))
    if s.postedOver g ((els.map fun i => (List.range (imageBytes ty i).2).map fun j =>
        r.imageLoc g r.tail e.x0 ((imageBytes ty i).1 + j)).flatten) then .wait s
    else
      .plain (s.updAct g fun t => (t.move e ty mk vd fun i =>
        { n := elemOfImage ty i (leNat ((bytesOf i).map (·.1))), mark := (bytesOf i).any (·.2) }).t)

/-- The elements of a register's image that vstr stores, with the vault locations of their bytes (R179). -/
def ringElems (g : Nat) (r : Ring) (off : W64) (ty : ElemTy) (act : BitVec 256) : List (ElemAt × Places) :=
  (contiguousElems ty act).map fun x =>
    (x, (List.range x.n).map fun (j : Nat) => .ok (r.imageLoc g r.head off (x.off.toNat + j)))

/-- vstr (R179): the bytes of the active elements enter the store buffer (R163). -/
def State.ringStore (s : State) (g : Nat) (e : Entry) (ty : ElemTy) (mk : MReg) (h : HReg) (vd : VReg) : VStep :=
  let t := s.aset g
  let r := vget t.ring h
  if ringRefused r r.producer e.x0 ty then .done s 0 mStray {}
  else if r.free ≤ (e.x0.toNat + imageSize ty - 1) / r.slotSize then .wait s
  else
    let all := ringElems g r e.x0 ty (t.mask mk)
    let locs := (all.map fun x => x.2.locs).flatten
    let s := s.makeRoom g locs ((s.core g).sb.length + 1)
    if s.postedOver g locs then .wait s
    else if !(s.core g).sbRoom locs then .wait (s.triggerDrain g (s.core g).seq)
    else .done (s.pushGroup ⟨g, t.sid, e.who⟩ t e.instr ty vd e.x0.toNat none all) 0 0 {}

/-- A ring advance with its mstat bit. -/
def State.advance (s : State) (g : Nat) (h : HReg) (r : Ring × Bool) : VStep :=
  .done (s.setRing g h r.1) 0 (if r.2 then mStray else 0) {}

/-- A scalar load of the core from a vault has still to be performed (R142). -/
def Core.vaultDue (k : Core) : Bool :=
  k.allSets.any fun t => t.ctx.toList.any fun x => match x.hold with
    | .load _ _ bytes => bytes.any fun b => match b with
      | .due loc _ _ => isVault loc
      | _ => false
    | _ => false

/-- vadv (R142, R180): first the scalar loads of the core from vaults are performed; those of the earlier V entries have been. -/
def State.vadvEntry (s : State) (g : Nat) (e : Entry) (h : HReg) : VStep :=
  let r := vget (s.aset g).ring h
  if r.unset || !admitsV r.consumer then .done s 0 mStray {}
  else if (s.core g).vaultDue then .wait s
  else s.advance g h (r.release e.x0.toNat)

/-- The youngest entry of the store buffer that holds a vault byte. -/
def Core.lastVault (k : Core) : Option Nat :=
  ((k.sb.filter fun e => e.bytes.any fun b => isVault b.1).getLast?).map (·.seq)

/-- vpub (R142, R180): first every store to vault addresses that is buffered when it executes is performed. -/
def State.vpubEntry (s : State) (g : Nat) (e : Entry) (h : HReg) : VStep :=
  let t := s.aset g
  let r := vget t.ring h
  if r.unset || !admitsV r.producer then .done s 0 mStray {}
  else
    let go := s.advance g h (r.publish e.x0.toNat)
    match t.vprog.upTo with
    | none =>
      match (s.core g).lastVault with
      | none => go
      | some n => .wait ((s.triggerDrain g n).updAct g fun t => { t with vprog := { t.vprog with upTo := some n } })
    | some n =>
      if (s.core g).sb.any fun e => e.seq ≤ n && e.bytes.any fun b => isVault b.1 then .wait s else go

/-- vlda (R181). -/
def State.vldaEntry (s : State) (g : Nat) (e : Entry) (last : Bool) (acc : AccReg) (vd : VReg) : VStep :=
  let t := s.aset g
  let ti := vget t.tile acc
  if 64 ≤ e.x0.toNat then .done (s.updAct g fun t => t.setV vd 0 0) 0 mStray {}
  else if ti.st != .full then .wait s
  else
    let row : BitVec 6 := e.x0.setWidth 6
    let marks : BitVec 256 := if ti.pois.getLsbD row.toNat then BitVec.allOnes 256 else 0
    let s := s.updAct g fun t => t.setV vd (vget ti.rows row) marks
    .plain (if last then s.updAct g fun t => { t with tile := vset t.tile acc { ti with st := .empty, pois := 0 } } else s)

/-! ### The engine's events -/

/-- A key of a V load's groups. -/
def XKey.isVec : XKey → Bool
  | .vec _ => true
  | _ => false

/-- Executes the entry at the head of the queue (R161). -/
def State.vExec (s : State) (g : Nat) (e : Entry) : VStep :=
  let t := s.aset g
  match t.regEntry e with
  | some r =>
    let s := s.updAct g fun _ => r.t
    .done (if r.eat then s.consume g t 0 else s) r.fl 0 {}
  | none =>
    match e.instr with
    | .vld ty mq _ vd => s.vectorLoad g e ty mq vd (contiguousElems ty (t.mask mq)) false
    | .vst ty mq _ vd =>
      let p := s.eptr g e.x0 e.k0
      s.vectorStore g e ty vd false (s.groupPlaces g p (fun _ => 2) ByteFail.writeBit (contiguousElems ty (t.mask mq))) 0
    | .vldg ty mq _ vs1 vd =>
      let eat := (List.range (elemCount ty)).any fun i => (t.mask mq).getLsbD i && t.gatherMark vs1 i
      s.vectorLoad g e ty mq vd (t.gatherElems ty (t.mask mq) vs1) eat
    | .vsts ty mq _ vs1 vd =>
      let eat := (List.range (elemCount ty)).any fun i => (t.mask mq).getLsbD i && t.gatherMark vs1 i
      let p := s.eptr g e.x0 e.k0
      s.vectorStore g e ty vd eat (s.groupPlaces g p (fun _ => 2) ByteFail.writeBit (t.gatherElems ty (t.mask mq) vs1)) 0
    | .vldr ty mq _ h vd => s.ringLoad g e ty mq h vd
    | .vstr ty mq _ h vd => s.ringStore g e ty mq h vd
    | .vadv _ h => s.vadvEntry g e h
    | .vpub _ h => s.vpubEntry g e h
    | .vlda last _ acc vd => s.vldaEntry g e last acc vd
    | _ => .plain s

/-- V_ENTRY_EXECUTE: the entry at the head of the active set's queue executes, or waits (R161, R164, R165). In a set that is being
switched out only one that has begun goes on (R164). -/
def execVEntryExecute (g : Nat) (s : State) : Out :=
  match (s.aset g).vq with
  | [] => .next s
  | e :: rest =>
    let pop (s : State) : State :=
      s.updAct g fun t => { t.unstall .vec e.who with vq := rest, vprog := {} }
    if (s.aset g).leaving && !(s.aset g).vBegan then .next s
    else
    match s.vExec g e with
    | .done s fl mst fail =>
      let s := (pop s).updAct g fun t => { t with vdone := t.vdone ++ [{ e := e, fl := fl, mst := mst, fail := fail }] }
      .next ((e.tokens).foldl (fun s t => s.released g t) s)
    | .wait s => .next s
    | .withdrawn s pte =>
      let pr := (s.aset g).vprog
      let s := pop (s.orphan g (s.aset g).sid XKey.isVec)
      .next ((s.updAct g fun t => t.completeEntry e 0 (pr.mst ||| mWdr) pr.fail).withdrawCmd g e pte)

/-- V_ENTRY_RESULT: the result of V entry n completes it (R162). -/
def execVEntryResult (g : Nat) (n : Nat) (s : State) : Out :=
  match (s.aset g).vdone.find? fun d => d.e.num = n with
  | none => .next s
  | some d =>
    .next (s.updAct g fun t =>
      { t with vdone := t.vdone.filter fun x => x.e.num != n }.completeEntry d.e d.fl d.mst d.fail)

end Sys2Proof.Machine
end

