-- ==== Sys2Proof/Machine/Sync.lean ====
section
/-! DEFINITION. Sys2Proof/Machine/Sync.lean: the synchronisation class: atomics, cas and stf at their homes (R211 to R219),
the store buffer's departures (R254), fences (R220 to R223), timelines (R224, R225), barriers (R226 to R229), waita (R230),
the ring waits (R156), and the waits' ends by watchdog and by asynchronous causes (R87, R88, R92). -/

namespace Sys2Proof.Machine

/-! ### Where an atomic, a cas or an stf half acts (R211, R212) -/

/-- What the issue of an operation of size bytes through a pointer finds. -/
inductive AtomAt where
  /-- it goes to a location, counted on a token's entry -/
  | loc (a : Nat) (t : Option Token)
  /-- nothing is performed: the mstat bits, with the denied byte's token and offset if it is one -/
  | nothing (mst : BitVec 8) (denied : Option (Token × Nat))
  | stall (pte : BitVec 20)
  | withdrawn (pte : BitVec 20)
  deriving DecidableEq, Repr

/-- The first failing byte of an access: its place and its mstat bits. -/
def firstFail : Places → Nat → Option (Nat × BitVec 8)
  | [], _ => none
  | .ok _ :: l, i => firstFail l (i + 1)
  | .error b :: _, i => some (i, b)

/-- The check of R212 for an operand: alignment, then the pointer, then byte by byte the right it needs. -/
def State.atomAt (s : State) (p : W64) (size : Nat) (need : BitVec 4) (bit : ByteFail → BitVec 8) : AtomAt :=
  if p.toNat % size != 0 then .nothing mStray none
  else
    match s.resolve p size (fun _ => need) bit with
    | .stray => .nothing mStray none
    | .stall e => .stall e
    | .withdrawn e => .withdrawn e
    | .access _ t off places =>
      match firstFail places 0 with
      | some (i, b) => .nothing b (if b = bit .denied then t.map fun t => (t, off + i) else none)
      | none => if places.inStatus then .nothing mStray none else .loc (places.locs.headD 0) t

/-- What R212 leaves of an operation that does nothing: mstat bits and a denial record. -/
def State.atomFails (s : State) (w : Who) (code : Nat) (mst : BitVec 8) (denied : Option (Token × Nat)) : State :=
  let s := s.orMstat w mst
  match denied with
  | some (t, off) => s.denialRecord w t off code
  | none => s

/-! ### What the operations compute (R217, R218, R219) -/

/-- Bytes of an atomic's operand. -/
def amoSize : AmoTy → Nat
  | .d => 8
  | _ => 4

/-- A rounded sum of two elements with its flags (R52, R217): RNE, no draw. -/
def amoSum (t : ElemTy) (a b : Nat) : Nat × FFlags :=
  let (x, f1) := (elemValue t a).add .rne (elemValue t b)
  let (r, f2) := roundTo t .rne 0 x
  (r, f1 ||| f2)

/-- Op(op, type, m, v) of R217 with its flags. -/
def amoOp (op : AmoOp) (ty : AmoTy) (m v : Nat) : Nat × FFlags :=
  match ty with
  | .f => amoSum .f32 m v
  | .h2 =>
    let (lo, f1) := amoSum .bf16 (m % 2 ^ 16) (v % 2 ^ 16)
    let (hi, f2) := amoSum .bf16 (m / 2 ^ 16) (v / 2 ^ 16)
    (lo + hi * 2 ^ 16, f1 ||| f2)
  | ty =>
    let w := 8 * amoSize ty
    let sm := toSigned w m
    let sv := toSigned w v
    (match op with
     | .add => (m + v) % 2 ^ w
     | .min => if sm ≤ sv then m else v
     | .max => if sv ≤ sm then m else v
     | .minu => min m v
     | .maxu => max m v
     | .and => m &&& v
     | .or => m ||| v
     | .xor => m ^^^ v
     | .swp => v, 0)

/-- The value written by an operation at its home, if it writes, with its flags, and whether the value is computed from
what the location held (R217 to R219, R328). -/
def HomeOp.compute (o : HomeOp) (m : Nat) : Option Nat × FFlags × Bool :=
  let v := o.v.toNat % 2 ^ (8 * o.size)
  match o.instr with
  | .amo op ty .. =>
    let (r, f) := amoOp op ty m v
    (some r, f, op != .swp)
  | .cas .. => (if m = o.vexp.toNat % 2 ^ (8 * o.size) then some v else none, 0, false)
  | _ => if o.onFlag then (some ((m + 1) % 2 ^ 64), 0, true) else (some v, 0, false)

/-- The operation reads its location: all but the data half of an stf. -/
def HomeOp.reads (o : HomeOp) : Bool :=
  match o.instr with
  | .stf .. => o.onFlag
  | _ => true

/-- The context of an operation. -/
def HomeOp.who (o : HomeOp) : Who := ⟨o.core, o.sid, o.ctx⟩

/-- The order and scope of an operation; an stf is relaxed (R219). -/
def HomeOp.order (o : HomeOp) : Order × Scope :=
  match o.instr with
  | .amo _ _ ord sc .. => (ord, sc)
  | .cas _ ord sc .. => (ord, sc)
  | _ => (.rlx, .lane)

/-- An order that releases. -/
def isRel : Order → Bool
  | .rel | .ar | .sc => true
  | _ => false
/-- An order that acquires. -/
def isAcq : Order → Bool
  | .acq | .ar | .sc => true
  | _ => false

/-! ### Performing an operation at its home -/

/-- Changes an operation. -/
def State.setOp (s : State) (id : Nat) (o : HomeOp) : State := { s with ops := fset s.ops id o }

/-- An operation is performed at its home: one indivisible read and write (R211, R248). The data of an stf is followed by
its flag (R219). -/
def State.performOp (s : State) (id : Nat) (o : HomeOp) : State :=
  let w := o.who
  let m := s.readNat o.loc o.size
  let psn := s.poisoned o.loc
  let (new, fl, computed) := o.compute m
  let s := match new with
    | none => s
    | some v =>
      let bad := o.poison && !o.onFlag || psn && computed
      let s := if bad then s.addFail w true false false false else s
      s.performStore w (bytesAt o.loc o.size v) bad
  (s.dropStale o.core o.loc).setOp id { o with pos := .done (BitVec.ofNat 64 m) fl (psn && o.reads) }

/-- An operation fails on its way (R240): its old value is 0; an stf whose data fails raises no flag (R219). -/
def State.failOp (s : State) (id : Nat) (o : HomeOp) (f : Fate) : State :=
  let s := (s.countFate o.core f).failOf o.who f
  let s := if o.onFlag then s else match o.flag with
    | some _ => s.performedPte (o.core / 128) o.flagPte
    | none => s
  s.setOp id { o with flag := none, pos := .done 0 0 false }

/-- Goes on with an operation that has been performed or has failed: an stf whose data is written turns to its flag. -/
def State.nextHalf (s : State) (id : Nat) : State :=
  match fget s.ops id with
  | none => s
  | some o =>
    match o.pos, o.flag with
    | .done .., some f =>
      if o.onFlag then s
      else s.setOp id { o with loc := f, pte := o.flagPte, ms := o.flagMs, host := o.flagHost, onFlag := true, pos := .waiting }
    | _, _ => s

/-! ### Issue of amo, cas and stf -/

/-- The operation enters the core's order, with the release condition (R214) and its entry's in-flight count (R123). -/
def State.newOp (s : State) (o : HomeOp) (t : Option Token) : Nat × State :=
  let g := o.core
  let k := s.core g
  let (ord, sc) := o.order
  let wide := isRel ord && scopeWide sc
  let locs := (List.range o.size).map (o.loc + ·) ++ (match o.flag with | some f => (List.range 8).map (f + ·) | none => [])
  let youngest := ((k.sb.filter fun e => e.bytes.any fun b => locs.contains b.1).getLast?).map (·.seq)
  let o := { o with
    seq := k.seq + 1
    reqtag := s.reqtagOf o.who
    after := if wide then k.seq + 1 else 0
    pte := t.map (·.pte)
    ms := match t with | some t => t.ms | none => false
    host := match t with | some t => t.host | none => false }
  let s := s.setCore g { k with seq := k.seq + 1 }
  let s := s.triggerDrain g (if wide then k.seq else youngest.getD 0)
  let s := match t with
    | some t => s.flyIn (g / 128) t.pte
    | none => s
  (s.nextId, { s with ops := fset s.ops s.nextId o, nextId := s.nextId + 1 })

/-- The issue of an amo or a cas (R212, R217, R218). -/
def atomic (i : Instr) (size : Nat) (xd xp : XReg) (v vexp : W64) (poison posted : Bool) (s : State) : Out :=
  let w := s.iam
  let p := s.rx xp
  match s.atomAt p size 4 ByteFail.bothBits with
  | .stall e => .next (s.holdMe (.stall e))
  | .withdrawn e => .next (s.trapMe .revk (BitVec.setWidth 64 e))
  | .nothing mst den => finish ((((s.useX xp).storeSmudge p).atomFails w 9 mst den).wx xd 0 .vol false)
  | .loc a t =>
    if s.vStoring w.g ((List.range size).map (a + ·)) then .next (s.holdMe .buffer)
    else
    let s := (s.useX xp).storeSmudge p
    let o : HomeOp :=
      { core := w.g, sid := w.sid, ctx := w.c, instr := i, seq := 0, posted := posted, loc := a, size := size, v := v
        vexp := vexp, poison := poison }
    let (id, s) := s.newOp o t
    if posted then finish s else .next (s.holdMe (.reply id))

/-- AMO (R217): posted with xd = x0 and order .rlx. -/
def execAmo (op : AmoOp) (ty : AmoTy) (ord : Order) (sc : Scope) (xd xp xv : XReg) (s : State) : Out :=
  atomic (.amo op ty ord sc xd xp xv) (amoSize ty) xd xp (s.rx xv) 0 (s.me.marked xv) (xd == 0 && ord == .rlx) s

/-- CAS (R218). -/
def execCas (dbl : Bool) (ord : Order) (sc : Scope) (xd xp xexp xnew : XReg) (s : State) : Out :=
  atomic (.cas dbl ord sc xd xp xexp xnew) (if dbl then 8 else 4) xd xp (s.rx xnew) (s.rx xexp) (s.me.marked xnew) false s

/-- STF (R219): posted; the data half is decided first. -/
def execStf (xp xv xf : XReg) (s : State) : Out :=
  let w := s.iam
  let p := s.rx xp
  let pf := s.rx xf
  let pre (s : State) : State := (((s.useX xp).useX xf).storeSmudge p).storeSmudge pf
  match s.atomAt p 8 2 ByteFail.writeBit with
  | .stall e => .next (s.holdMe (.stall e))
  | .withdrawn e => .next (s.trapMe .revk (BitVec.setWidth 64 e))
  | .nothing mst den => finish ((pre s).atomFails w 1 mst den)
  | .loc a t =>
    if s.vStoring w.g ((List.range 8).map (a + ·)) then .next (s.holdMe .buffer)
    else
    let o : HomeOp :=
      { core := w.g, sid := w.sid, ctx := w.c, instr := .stf xp xv xf, seq := 0, posted := true, loc := a, size := 8
        v := s.rx xv, poison := s.me.marked xv }
    match s.atomAt pf 8 4 ByteFail.bothBits with
    | .stall e => .next (s.holdMe (.stall e))
    | .withdrawn e => .next (s.trapMe .revk (BitVec.setWidth 64 e))
    | .nothing mst den => finish ((((pre s).atomFails w 9 mst den).newOp o t).2)
    | .loc b tf =>
      if s.vStoring w.g ((List.range 8).map (b + ·)) then .next (s.holdMe .buffer)
      else
      let s := pre s
      let s := match tf with
        | some tf => s.flyIn (w.g / 128) tf.pte
        | none => s
      finish ((s.newOp { o with
        flag := some b, flagPte := tf.map (·.pte)
        flagMs := match tf with | some t => t.ms | none => false
        flagHost := match tf with | some t => t.host | none => false } t).2)

/-! ### SC tickets (R216) -/

/-- The sequencer of a scope: 0 of a die, 1 of the package, 2 of the pod. -/
def sequencer : Scope → Nat
  | .pkg => 1
  | .pod => 2
  | _ => 0

/-- Two operations take tickets from one sequencer. -/
def sameSequencer (a b : HomeOp) : Bool :=
  sequencer a.order.2 == sequencer b.order.2 && (sequencer a.order.2 != 0 || a.core / 128 == b.core / 128)

/-- Every half of an operation has been performed or has failed, and a remote home's acknowledgement has come (R215). -/
def State.settled (s : State) (id : Nat) (o : HomeOp) : Bool :=
  !o.pending && !s.reqs.any fun e => e.2.what == .op id && !e.2.dropped

/-- An operation's covered stores and posted operations have been performed and acknowledged, or have failed (R214, R215,
R261). -/
def State.covered (s : State) (o : HomeOp) : Bool :=
  s.sbDone o.core (o.after - 1) && s.ops.all fun e =>
    e.2.core != o.core || !e.2.posted || o.after ≤ e.2.seq || s.settled e.1 e.2

/-- The sequencer of an operation can be reached (R216): its own die's, the package's on die 0, the pod's at package 0. -/
def State.sequencerOk (s : State) (o : HomeOp) : Bool :=
  let d := o.core / 128
  match sequencer o.order.2 with
  | 0 => !(s.die d).fenced
  | 1 => s.reaches d (s.pkgid.toNat * 8)
  | _ => s.reaches d 0

/-- The next ticket of a sequencer is taken. -/
def State.takeTicket (s : State) (o : HomeOp) : Nat × State :=
  let d := o.core / 128
  match sequencer o.order.2 with
  | 0 => ((s.die d).ticket, s.updDie d fun x => { x with ticket := (x.ticket + 1) % 2 ^ 64 })
  | 1 => (s.pkgTicket, { s with pkgTicket := (s.pkgTicket + 1) % 2 ^ 64 })
  | _ => (s.podTicket, { s with podTicket := (s.podTicket + 1) % 2 ^ 64 })

/-- SC_TICKET: an .sc operation whose earlier accesses are done takes a ticket of its scope's sequencer, which answers
LOST when it cannot be reached (R216). -/
def execScTicket (op : Nat) (s : State) : Out :=
  match fget s.ops op with
  | none => .next s
  | some o =>
    match o.pos, o.ticket with
    | .waiting, none =>
      if o.order.1 != .sc || !s.covered o then .next s
      else if s.sequencerOk o then
        let (n, s) := s.takeTicket o
        .next (s.setOp op { o with ticket := some (o.order.2, n) })
      else .next ((s.failOp op o (.lost false)).performedPte (o.core / 128) o.pte)
    | _, _ => .next s

/-! ### Operations at their homes -/

/-- Two ranges of locations share a byte. -/
def overlap (a n b m : Nat) : Bool := a < b + m && b < a + n

/-- Every access of the core to the operation's bytes that it follows has been performed (R214, R250, R252, R255). -/
def State.inOrder (s : State) (id : Nat) (o : HomeOp) : Bool :=
  !s.awaited o.core o.seq ((List.range o.size).map (o.loc + ·)) &&
  (s.core o.core).sb.all (fun e => o.seq < e.seq || e.bytes.all fun b => !overlap b.1 1 o.loc o.size) &&
  s.ops.all fun e =>
    e.1 == id || e.2.core != o.core || o.seq < e.2.seq || !e.2.pending ||
      (!overlap e.2.loc e.2.size o.loc o.size &&
        (match e.2.flag with | some f => !overlap f 8 o.loc o.size | none => true))

/-- Every .sc operation of the sequencer on the location with a lower ticket has been performed (R216). -/
def State.ticketTurn (s : State) (id : Nat) (o : HomeOp) : Bool :=
  match o.order.1, o.ticket with
  | .sc, none => false
  | .sc, some (_, n) =>
    s.ops.all fun e =>
      e.1 == id || !e.2.pending || !sameSequencer o e.2 || !overlap e.2.loc e.2.size o.loc o.size ||
        (match e.2.ticket with | some (_, m) => n < m | none => true)
  | _, _ => true

/-- HOME_OPERATION: an operation whose turn has come is performed at its home (R211, R214, R216, R252), or is sent to a
remote one (R236, R238), or fails (R240); one on a pinned line of the core's die waits until it is unpinned (R194). -/
def execHomeOperation (op : Nat) (s : State) : Out :=
  match fget s.ops op with
  | none => .next s
  | some o =>
    match o.pos with
    | .waiting =>
      if !s.covered o || !s.inOrder op o || !s.ticketTurn op o then .next s
      else
        let d := o.core / 128
        let v : Via := { phys := match o.pte with | some e => (s.pin d e).phys | none => false, host := o.host }
        match s.addrFate o.core o.loc v with
        | .ok =>
          if s.remote o.core o.loc v then
            if s.writing o.core (o.loc / 64) || !s.hasTag d then .next s
            else
              let (r, s) := s.send o.who o.reqtag (.op op) (o.loc / 64) (s.homeDie o.loc v) o.pte o.ms o.host
              .next (s.setOp op { o with pos := .sent r })
          else if s.pinned (o.loc / 64) then .next s
          else .next (((s.performOp op o).performedPte d o.pte).nextHalf op)
        | f => .next ((s.failOp op o f).performedPte d o.pte)
    | _ => .next s

/-- The destination of an amo or a cas, its operand's size and its order. -/
def opDest : Instr → Option (XReg × Nat × Order × Scope)
  | .amo _ ty ord sc xd _ _ => some (xd, amoSize ty, ord, sc)
  | .cas dbl ord sc xd _ _ _ => some (xd, if dbl then 8 else 4, ord, sc)
  | _ => none

/-- The register value of an old value (R217, R218). -/
def oldValue (size : Nat) (v : W64) : W64 := if size = 4 then sx32 (lo32 v) else v

/-- ATOMIC_REPLY: the value or the acknowledgement of an operation returns (R214, R217 to R219): xd, the flags and
mstat.psn are written, and an acquire discards the core's unowned L1 words. -/
def execAtomicReply (op : Nat) (s : State) : Out :=
  match fget s.ops op with
  | none => .next s
  | some o =>
    match o.pos with
    | .done old fl psn =>
      if !s.settled op o then .next s
      else
        let w := o.who
        let s := { s with ops := fdel s.ops op }
        let s := (s.orFstat w fl).orMstat w (if psn then mPsn else 0)
        if o.posted then .next s
        else
          match opDest o.instr with
          | none => .next s
          | some (xd, size, ord, sc) =>
            let s := s.updWho w fun x =>
              if x.hold == .reply op then (x.wx xd (oldValue size old) .vol psn).goOn else x
            .next (if isAcq ord && scopeWide sc then s.selfInvalidate o.core else s)
    | _ => .next s

/-! ### The store buffer (R254) -/

/-- STORE_BUFFER_AGE_DRAIN: entries that have reached 256 clk of age are to leave, with those before them. -/
def execStoreBufferAgeDrain (g : Nat) (s : State) : Out :=
  match ((s.core g).sb.filter fun e => 256 ≤ s.clk - e.born).getLast? with
  | some e => .next (s.triggerDrain g e.seq)
  | none => .next s

/-- STORE_BUFFER_DEPART: the oldest entry still in the buffer leaves, when a trigger names it or a later one (R254). -/
def execStoreBufferDepart (g : Nat) (s : State) : Out :=
  match (s.core g).sb.find? fun e => !e.sent with
  | none => .next s
  | some e => if (s.core g).drainTo < e.seq then .next s else .next (s.depart g e)

/-- STORE_REGISTERED: a store that has left the buffer for a home on the core's die is registered or performed there, after
the earlier ones of its line (R213, R254), and once its line is not pinned (R194). -/
def execStoreRegistered (g : Nat) (seq : Nat) (s : State) : Out :=
  match (s.core g).sb.find? fun e => e.sent && e.req.isNone && e.seq = seq with
  | none => .next s
  | some e =>
    if s.behind g e || s.pinned e.line then .next s else .next (s.storeAtHome g e)

/-! ### Fences (R220 to R223) -/

/-- The end of a fence of a context (R220, R221): self-invalidation at .quad and wider, and the failure record. -/
def State.fenceEnd (s : State) (w : Who) (sc : Scope) (xd : XReg) : State :=
  let s := if scopeWide sc then s.selfInvalidate w.g else s
  s.updWho w fun x => ({ x.wx xd x.fail.word .vol false with fail := {} } : Ctx).goOn

/-- FENCE (R220). -/
def execFence (sc : Scope) (xd : XReg) (s : State) : Out :=
  let g := s.curCore
  let n := (s.core g).seq
  if !scopeWide sc then .next (s.fenceEnd s.iam sc xd)
  else
    let s := s.triggerDrain g n
    if s.storesDone g n then .next (s.fenceEnd s.iam sc xd) else .next (s.holdMe (.fence sc xd n))

/-- FENCE_COMPLETE: every store and posted operation the fence covers has reached the scope or failed (R220). -/
def execFenceComplete (g : Nat) (c : CtxId) (s : State) : Out :=
  match (s.ctx g c).hold with
  | .fence sc xd n => if s.storesDone g n then .next (s.fenceEnd ⟨g, (s.aset g).sid, c⟩ sc xd) else .next s
  | _ => .next s

/-- XFENCE (R222). -/
def execXfence (s : State) : Out :=
  let g := s.curCore
  let n := (s.core g).seq
  let s := s.triggerDrain g n
  if s.sbDone g n then finish s else .next (s.holdMe (.drain n false))

/-- ROSYNC (R223): the quad's lines go, and reads in flight for it install nothing. -/
def execRosync (s : State) : Out :=
  let q := quadOf s.curCore
  finish { s with
    ro := fdel s.ro q
    reqs := s.reqs.map fun e => if quadOf e.2.core = q then (e.1, { e.2 with what := e.2.what.noRo }) else e }

/-! ### Timelines (R224, R225) -/

/-- Removes one number from a list. -/
def dropNat (n : Nat) (l : List Nat) : List Nat := l.filter (· != n)

/-- The lowest number of a list that is at most n. -/
def lowestUpTo (n : Nat) (l : List Nat) : Option Nat :=
  l.foldl (fun a k => if n < k then a else match a with | some m => some (min m k) | none => some k) none

/-- The end of a twait whose count is reached (R94, R225): first any CPEEL it owes. -/
def State.twaitEnd (s : State) (g : Nat) (c : CtxId) (tl : Timeline) (n : W64) : State :=
  match if tl == .tlc then lowestUpTo n.toNat (s.ctx g c).peels else none with
  | some k => (s.updCtx g c fun x => { x with peels := dropNat k x.peels }).trap g c .cpeel (BitVec.ofNat 64 k) (s.ctx g c).pc
  | none => (if tl == .tlv then s else s.selfInvalidate g).updCtx g c Ctx.goOn

/-- The count of a timeline has reached n. -/
def CtxSet.reached (t : CtxSet) (tl : Timeline) (n : W64) : Bool := n.toNat ≤ (t.time tl).done

/-- The code of a timeline (R48). -/
def tlCode (tl : Timeline) : BitVec 3 := BitVec.ofNat 3 (tlIdx tl).val

/-- Records a twait as a WAIT entry (R298), or smudges with reason 6 (R296). -/
def State.recWait (s : State) (tl : Timeline) (n : W64) : State :=
  match s.recording with
  | none => s
  | some r =>
    if (s.mySet.time tl).issued < n.toNat then s.smudgeMe 6
    else
      let base := nget r.base (tlIdx tl)
      s.recEntry s.curCore (waitEntry (ctxCode s.curCtx) (tlCode tl) (n - BitVec.ofNat 64 base))

/-- TWAIT (R225). -/
def execTwait (tl : Timeline) (xn : XReg) (s : State) : Out :=
  let n := s.rx xn
  let s := s.recWait tl n
  if s.mySet.reached tl n then .next (s.twaitEnd s.curCore s.curCtx tl n) else .next (s.holdMe (.twait tl n))

/-- TWAIT_COMPLETE: the completed count reaches the awaited value (R225). -/
def execTwaitComplete (g : Nat) (c : CtxId) (s : State) : Out :=
  match (s.ctx g c).hold with
  | .twait tl n =>
    if (s.aset g).reached tl n && !s.expired g c (s.ctx g c).wdog then .next (s.twaitEnd g c tl n) else .next s
  | _ => .next s

/-- TLISS (R225). -/
def execTliss (xd : XReg) (tl : Timeline) (s : State) : Out :=
  finish (s.wx xd (BitVec.ofNat 64 (s.mySet.time tl).issued) .vol false)

/-! ### Barriers (R226 to R229) -/

/-- The index of a barrier at a scope in a context's arrival numbers. -/
def barIdx (sc : Scope) (b : BitVec 3) : Fin 40 := ⟨(8 * (sc.code.toNat - 1) + b.toNat) % 40, by omega⟩

/-- The instance of a barrier for a card's parties in a core's member of a scope; it starts with phase 0. -/
def State.barrier (s : State) (card : Nat) (sc : Scope) (member : Nat) (b : BitVec 3) : BarInst :=
  (s.bars.find? fun i => i.card == card && i.sc == sc && i.member == member && i.b == b).getD
    { card := card, sc := sc, member := member, b := b }

/-- Replaces an instance. -/
def State.setBarrier (s : State) (i : BarInst) : State :=
  { s with bars := i :: s.bars.filter fun y => !(y.card == i.card && y.sc == i.sc && y.member == i.member && y.b == i.b) }

/-- Completes the phases that the counts allow (R227). -/
def BarInst.complete (e : Nat) : Nat → BarInst → BarInst
  | 0, i => i
  | n + 1, i =>
    if e = 0 || i.cur < e then i
    else BarInst.complete e n { i with phase := i.phase + 1, cur := i.cur - e + i.next, next := 0 }

/-- An arrival with number q is counted (R227). -/
def BarInst.arrive (i : BarInst) (q : W32) (e : Nat) : BarInst :=
  let d := (q - i.phase).toInt
  let i := if d ≤ 0 then { i with cur := i.cur + 1, overrun := i.overrun || d < 0 }
    else { i with next := i.next + 1, overrun := i.overrun || 1 < d }
  i.complete e (i.cur + i.next + 1)

/-- The phase has completed: not P ≤ phase, where (phase - P) mod 2^32 is read as signed (R227). -/
def BarInst.passed (i : BarInst) (phase : W32) : Bool := (phase - i.phase).toInt < 0

/-- The status word of bar.stat (R229). -/
def BarInst.status (i : BarInst) : W64 :=
  BitVec.ofNat 64 ((if i.overrun then 2 ^ 63 else 0) + i.cur % 2 ^ 17 * 2 ^ 32 + i.phase.toNat)

/-- The instance that a context of a core's active set meets. -/
def State.barrierOf (s : State) (g : Nat) (sc : Scope) (b : BitVec 3) : BarInst :=
  s.barrier ((s.aset g).card.getD 0) sc (memberOf sc g) b

/-- A barrier instruction: BARC in a job not of class CONC (R228); a recording is smudged with reason 6 (R295). -/
def barrierInstr (i : Instr) (s : State) (act : State → Out) : Out :=
  if s.mySet.cls != 2 then
    .next (s.trapMe .barc (match encode i with | some (_, w) => BitVec.setWidth 64 w | none => 0))
  else act (s.smudgeMe 6)

/-- Any barrier instruction but a re-entered bar.aw clears the pending bit (R228). -/
def State.clearBarPend (s : State) (sc : Scope) (b : BitVec 3) : State :=
  s.updMe fun x => { x with barPend := x.barPend &&& ~~~(1#40 <<< (barIdx sc b).val) }

/-- An arrival of the issuing context: a release at the barrier's scope, xd takes its number (R227, R228). -/
def State.arrive (s : State) (sc : Scope) (b : BitVec 3) (xd : XReg) : State :=
  let g := s.curCore
  let q := nget s.me.arrive (barIdx sc b)
  let n := if scopeWide sc then (s.core g).seq else 0
  let a : Arrival :=
    { card := s.mySet.card.getD 0, sc := sc, member := memberOf sc g, b := b, q := q, core := g, sid := s.mySet.sid
      ctx := s.curCtx, after := n }
  let s := { (s.triggerDrain g n) with arrivals := s.arrivals ++ [a] }
  s.updMe fun x => { x.wx xd (BitVec.setWidth 64 q) .vol false with arrive := nset x.arrive (barIdx sc b) (q + 1) }

/-- The end of a barrier wait: an acquire at its scope (R227). -/
def State.barrierEnd (s : State) (g : Nat) (c : CtxId) (sc : Scope) : State :=
  (if scopeWide sc then s.selfInvalidate g else s).updCtx g c Ctx.goOn

/-- Waits until a phase has completed (R228). -/
def State.barrierWait (s : State) (aw : Bool) (sc : Scope) (b : BitVec 3) (phase : W32) : State :=
  if (s.barrierOf s.curCore sc b).passed phase then s.barrierEnd s.curCore s.curCtx sc
  else s.holdMe (.barrier aw sc b phase)

/-- BAR_ARV (R228). -/
def execBarArv (sc : Scope) (b : BitVec 3) (xd : XReg) (s : State) : Out :=
  barrierInstr (.barArv sc b xd) s fun s => finish ((s.clearBarPend sc b).arrive sc b xd)

/-- BAR_WT (R228). -/
def execBarWt (sc : Scope) (b : BitVec 3) (xphase : XReg) (s : State) : Out :=
  barrierInstr (.barWt sc b xphase) s fun s =>
    .next ((s.clearBarPend sc b).barrierWait false sc b ((s.rx xphase).setWidth 32))

/-- BAR_AW (R228): a re-entered one only waits. -/
def execBarAw (sc : Scope) (b : BitVec 3) (xd : XReg) (s : State) : Out :=
  barrierInstr (.barAw sc b xd) s fun s =>
    let again := s.me.barPend.getLsbD (barIdx sc b).val
    let s := s.clearBarPend sc b
    let s := if again then s else s.arrive sc b xd
    .next (s.barrierWait true sc b (nget s.me.arrive (barIdx sc b) - 1))

/-- BAR_STAT (R228, R229). -/
def execBarStat (sc : Scope) (b : BitVec 3) (xd : XReg) (s : State) : Out :=
  barrierInstr (.barStat sc b xd) s fun s =>
    let s := s.clearBarPend sc b
    let i := s.barrierOf s.curCore sc b
    finish ((s.setBarrier { i with overrun := false }).wx xd i.status .vol false)

/-- BARRIER_ARRIVAL: the n-th arrival on its way is counted at its instance, after the stores it releases (R227). -/
def execBarrierArrival (n : Nat) (s : State) : Out :=
  match s.arrivals[n]? with
  | none => .next s
  | some a =>
    let o : HomeOp := { core := a.core, sid := a.sid, ctx := a.ctx, instr := .xfence, seq := a.after + 1, posted := true
                        loc := 0, size := 0, v := 0, after := a.after + 1 }
    if a.after != 0 && !s.covered o then .next s
    else
      let i := s.barrier a.card a.sc a.member a.b
      .next ({ s with arrivals := s.arrivals.eraseIdx n }.setBarrier (i.arrive a.q (s.expected a.card a.sc a.member)))

/-- BARRIER_WAKE: a waiter goes on after its phase has completed (R228). -/
def execBarrierWake (g : Nat) (c : CtxId) (s : State) : Out :=
  match (s.ctx g c).hold with
  | .barrier _ sc b phase =>
    if (s.barrierOf g sc b).passed phase && !s.expired g c (s.ctx g c).wdog then .next (s.barrierEnd g c sc) else .next s
  | _ => .next s

/-! ### waita (R230) -/

/-- A location is monitorable by a core (R230): a vault byte of its die, or an ordinary extent's line homed on it. -/
def State.monitorable (s : State) (g : Nat) (t : Option Token) (loc : Nat) : Bool :=
  !s.remote g loc && s.addrFate g loc (s.via g t) == .ok &&
    (match t with | some t => !t.ms && !t.host && !isVault loc | none => true)

/-- WAITA (R230): a recording is smudged with reason 6 (R295). -/
def execWaita (xd xp xexp xtmo : XReg) (s : State) : Out :=
  let w := s.iam
  let p := s.rx xp
  let six (s : State) : Out := finish (s.wx xd 6 .vol false)
  let pre (s : State) : State := (s.smudgeMe 6).useX xp
  if p.toNat % 8 != 0 then six ((pre s).orMstat w mStray)
  else
    match s.resolve p 8 readRights ByteFail.readBit with
    | .stray => six ((pre s).orMstat w mStray)
    | .stall e => .next (s.holdMe (.stall e))
    | .withdrawn e => .next (s.trapMe .revk (BitVec.setWidth 64 e))
    | .access _ t off places =>
      let s := ((pre s).orMstat w places.bits).recordDenials w t off 0 places ByteFail.readBit
      let loc := places.locs.headD 0
      if places.bits != 0 then six s
      else if places.inStatus then six (s.orMstat w mStray)
      else if !s.monitorable w.g t loc then six s
      else
        let s := (s.dropStale w.g loc).orMstat w (if s.poisoned loc then mPsn else 0)
        if s.readNat loc 8 != (s.rx xexp).toNat then finish (s.wx xd 0 .vol false)
        else
          let s := s.armMonitor { core := w.g, sid := w.sid, ctx := w.c, line := loc / 64 }
          .next (s.holdMe (.waita xd (loc / 64) (s.rx xtmo) s.clk))

/-- Neither a write nor an eviction has ended the sleep at a monitor. -/
def Monitor.asleep (m : Monitor) : Bool := !m.hit && !m.lost

/-- A sleeping waita of a core's active set with its monitor, its destination, timeout and arming time. -/
def State.sleeper (s : State) (g : Nat) (c : CtxId) : Option (Who × XReg × W64 × Nat × Monitor) :=
  let w : Who := ⟨g, (s.aset g).sid, c⟩
  match (s.ctx g c).hold, s.monitorOf w with
  | .waita xd _ tmo armed, some m => some (w, xd, tmo, armed, m)
  | _, _ => none

/-- WAITA_WAKE_WRITE: code 1 after a write to the line has been performed at its home. -/
def execWaitaWakeWrite (g : Nat) (c : CtxId) (s : State) : Out :=
  match s.sleeper g c with
  | some (w, xd, _, _, m) => if m.hit then .next (s.wakeWaita w xd 1) else .next s
  | none => .next s

/-- WAITA_MONITOR_LOST: code 2 when the line or the monitor is evicted, or has been. -/
def execWaitaMonitorLost (g : Nat) (c : CtxId) (s : State) : Out :=
  match s.sleeper g c with
  | some (w, xd, _, _, m) => if m.hit then .next s else .next (s.wakeWaita w xd 2)
  | none => .next s

/-- WAITA_TIMEOUT: code 3 when X(xtmo) clk, not 0, have passed since the read. -/
def execWaitaTimeout (g : Nat) (c : CtxId) (s : State) : Out :=
  match s.sleeper g c with
  | some (w, xd, tmo, armed, m) =>
    if m.asleep && tmo != 0 && tmo.toNat ≤ s.clk - armed then .next (s.wakeWaita w xd 3) else .next s
  | none => .next s

/-- WAITA_SPURIOUS_WAKE: code 5, at most one per 2^16 clk per core. -/
def execWaitaSpuriousWake (g : Nat) (c : CtxId) (s : State) : Out :=
  match s.sleeper g c with
  | some (w, xd, _, _, m) =>
    if !m.asleep then .next s
    else
    match (s.core g).spurAt with
    | some n => if s.clk - n < 2 ^ 16 then .next s else .next ((s.wakeWaita w xd 5).updCore g fun k => { k with spurAt := some s.clk })
    | none => .next ((s.wakeWaita w xd 5).updCore g fun k => { k with spurAt := some s.clk })
  | none => .next s

/-- A sleeping waita is interrupted or switched out (R92, R325): code 4, or what its monitor says when that came first. -/
def State.interruptWaita (s : State) (g : Nat) (c : CtxId) : State :=
  match s.sleeper g c with
  | some (w, xd, _, _, m) => s.wakeWaita w xd (if m.hit then 1 else if m.lost then 2 else 4)
  | none => s

/-! ### Ring waits (R156) -/

/-- The slot that rwaitf (full) or rwaite waits for is filled or free. -/
def Ring.ready (r : Ring) (full : Bool) (i : W64) : Bool := i.toNat < (if full then r.filled else r.free)

/-- A wait on an unset handle or for a slot the ring does not have is stray (R156); a pending one is tested again after an rset
(R152). -/
def Ring.strayWait (r : Ring) (i : W64) : Bool := r.unset || 2 ^ r.count.toNat ≤ i.toNat

/-- The wait of rwaitf and rwaite (R156): on an unset handle or for a slot the ring does not have, it is stray. -/
def ringWait (full : Bool) (h : HReg) (i : W64) (s : State) : Out :=
  let r := vget s.mySet.ring h
  if r.strayWait i then finish (s.orMstat s.iam mStray)
  else if r.ready full i then finish s
  else .next (s.holdMe (.ring full h i))

/-- RWAITF. -/
def execRwaitf (h : HReg) (xi : XReg) (s : State) : Out := ringWait true h (s.rx xi) s
/-- RWAITE. -/
def execRwaite (h : HReg) (xi : XReg) (s : State) : Out := ringWait false h (s.rx xi) s

/-! ### Return from a trap (R96) -/

/-- TRET. -/
def execTret (s : State) : Out := privileged .tret s fun s => .next s.trapReturn

/-! ### The ends of the waits -/

/-- The waits that end by what they wait for alone (R62, R102, R156, R222, R78, R125): the context goes on when its
condition holds. -/
def State.tryWake (s : State) (g : Nat) (c : CtxId) : State :=
  let t := s.aset g
  let me : State := { s with curCore := g, curCtx := c }
  match (nget t.ctx c).hold with
  | .ring full h i =>
    let r := vget t.ring h
    if r.strayWait i then (s.orMstat ⟨g, t.sid, c⟩ mStray).updCtx g c Ctx.goOn
    else if r.ready full i then s.updCtx g c Ctx.goOn
    else s
  | .vector n i => if t.vDone n (vWaitsFor c i) then (me.vectorAct i).goOn else s
  | .drain n fetch => if s.sbDone g n then (if fetch then s.dropFetch g else s).updCtx g c Ctx.goOn else s
  | .occWait i e n =>
    if (s.pin (g / 128) e).state != .ebb && s.sbDone g n then (me.occAct i e).goOn else s
  | _ => s

/-- The resource of a wait that wdog bounds, as tval names it (R87, R88). R87 bounds by wdog also the holds of rvfence.i, of an
access to bytes of a posted operation (R252) and of a full store buffer (R254), for which R88 gives no code: their tval is 0 (DESIGN
CHOICE, log entry 57). -/
def Hold.resource : Hold → Option Nat
  | .queueFull q _ => some (0x100 + q.code)
  | .ring _ h _ => some (0x200 + h.toNat)
  | .twait tl _ => some (0x300 + (tlCode tl).toNat)
  | .barrier _ sc b _ => some (0x400 + sc.code.toNat * 8 + b.toNat)
  | .vector _ _ => some 0x500
  | .result k _ _ => some (0x600 + k.val)
  | .buffer | .drain _ true => some 0
  | _ => Option.none

/-- WATCHDOG_EXPIRY: a wait's count reaches wdog: WDOG before the waiting instruction (R87, R88). -/
def execWatchdogExpiry (g : Nat) (c : CtxId) (s : State) : Out :=
  let x := s.ctx g c
  match x.hold.resource with
  | some n => if s.expired g c x.wdog then .next (s.trap g c .wdog (BitVec.ofNat 64 n) x.pc) else .next s
  | none => .next s

/-- A hold that an asynchronous cause abandons (R92): not one whose instruction has acted at a home or across the
package, nor a load on its way. -/
def Hold.abandonable : Hold → Bool
  | .reply _ | .load .. | .waita .. | .purge _ => false
  | _ => true

/-- A fetch that waits looks for its lane where the code lies at its home, so that tpc can name the instruction before which a
cause is taken (R72, R92): a line that fails R27, or the one after the window, gives its first lane, as in R27 and R74
(DEDUCED, log entry 53). A stale code token halts the set (R127). -/
def State.findLane (s : State) (g : Nat) (c : CtxId) : Option State :=
  let x := s.ctx g c
  let found (a : W64) : Option State := some (s.updCtx g c fun x => { x with pc := a, seek := false })
  if x.seek then
    match nextLaneBy (s.peekLine g (s.aset g).codeTok) c x.pc with
    | .lane a => found a
    | .badHeader line _ | .starved line => found (line + 4)
    | .stall _ => some s
    | .stale => none
  else some s

/-- ASYNC_TRAP_TAKE: a pending cause that is takeable is taken before the next instruction (R92): a waita first completes
with code 4, and a hold that has acted keeps the cause waiting, as does the check of tvec that an earlier trap has left open (R93),
and the switch-out of its set. -/
def execAsyncTrapTake (g : Nat) (c : CtxId) (s : State) : Out :=
  let x := s.ctx g c
  if x.takeable.isNone || !x.live || x.entering || (s.aset g).leaving then .next s
  else
    match x.hold with
    | .waita .. => .next (s.interruptWaita g c)
    | h =>
      if x.st == .wait && !h.abandonable then .next s
      else
        match s.findLane g c with
        | some s => .next ((s.takeAsync g c).getD s)
        | none => .next (s.haltAll g)

end Sys2Proof.Machine
end

