-- ==== Sys2Proof/Machine/Fabric.lean ====
section
/-! DEFINITION. Sys2Proof/Machine/Fabric.lean: remote requests on the package and rack rings: arrival, refusal and retry
(R237), invalidations (R242, R243), replies, timeouts and tags (R239, R240), fenced dies and dead links (R235, R244). -/

namespace Sys2Proof.Machine

/-- The context of a request. -/
def Req.who (r : Req) : Who := ⟨r.core, r.sid, r.ctx⟩

/-- Changes a request. -/
def State.setReq (s : State) (id : Nat) (r : Req) : State := { s with reqs := fset s.reqs id r }

/-- Removes a request. -/
def State.dropReq (s : State) (id : Nat) : State := { s with reqs := fdel s.reqs id }

/-! ### What an answer or a failure does to the requester -/

/-- Fills the bytes that a load awaits from a request: from the line, or with poisoned zeros (R240). -/
def fillBytes (id : Nat) (data : Option Copy) (l : List LdByte) : List LdByte :=
  l.map fun b =>
    match b with
    | .req n off =>
      if n = id then
        match data with
        | some c => .val (c.byte off).1 (c.byte off).2
        | none => poisonZero
      else b
    | .val .. | .due .. => b

/-- A load of a context takes what a request brought; it ends when every byte is there. -/
def State.fillLoad (s : State) (id : Nat) (w : Who) (data : Option Copy) : State :=
  match (s.whoCtx w).hold with
  | .load xd sgn bytes =>
    let bytes := fillBytes id data bytes
    if allKnown bytes then s.finishLoad w xd sgn bytes else s.updWho w (Ctx.holdOn (.load xd sgn bytes))
  | _ => s

/-- Both halves of a line enter a core's fetch buffer (R72, R78); a line that could not be read is zeros (R240). -/
def State.fillFetch (s : State) (g line : Nat) (data : Option Copy) : State :=
  let half (n : Nat) : BitVec 256 := match data with
    | some c => c.data.extractLsb' (256 * n) 256
    | none => 0
  s.updCore g fun k => { k with fetch := fset (fset k.fetch (2 * line) (half 0)) (2 * line + 1) (half 1) }

/-- Installs the line of an answered read where its path keeps it (R241, R256, R267); the home of an uncached line has been
read in any case (R257). -/
def State.installRead (s : State) (r : Req) (install : Nat) (c : Copy) : State :=
  let d := r.core / 128
  let inL2 (s : State) : State := s.updDie d fun x => { x with l2 := fset x.l2 r.line c }
  match install with
  | 1 => (inL2 s).installL1 r.core r.line c
  | 2 => if (fget (s.core r.core).l1 r.line).isSome then (inL2 s).installL1 r.core r.line c else inL2 s
  | 3 => s.installRo r.core r.line c
  | 4 => (inL2 s).fillFetch r.core r.line (some c)
  | 5 => s.fillFetch r.core r.line (some c)
  | _ => s.dropUnowned r.core r.line

/-- The store buffer entry that a request carries. -/
def State.storeOf (s : State) (r : Req) (seq : Nat) : Option StoreEnt := (s.core r.core).sb.find? fun e => e.seq = seq

/-- A request ends: its tag is free and its entry's in-flight count is to fall (R124, R239). -/
def State.endReq (s : State) (r : Req) : State := (s.freeTagOf r).performedPte (r.core / 128) r.pte

/-- A request is answered: a load takes its bytes, a store leaves the buffer, an operation goes on (R217, R219, R254). -/
def State.answered (s : State) (id : Nat) (r : Req) (data : Option Copy) : State :=
  let s := (s.endReq r).dropReq id
  match r.what with
  | .read install =>
    let s := match data with
      | some c => s.installRead r install c
      | none => s
    s.fillLoad id r.who data
  | .status _ => s.fillLoad id r.who data
  | .eng key _ install =>
    let s := match data, install with
      | some c, some n => s.installRead r n c
      | _, _ => s
    s.lineFate r.core r.sid id key .ok data
  | .store seq => s.dropStore r.core seq
  | .op op => s.nextHalf op

/-- A request fails as REFUSED, LOST or DEAD (R240). -/
def State.failReq (s : State) (id : Nat) (r : Req) (f : Fate) : State :=
  let s := s.endReq r
  match r.what with
  | .read n =>
    let s := s.countFate r.core f
    if n = 4 || n = 5 then s.fillFetch r.core r.line none else s.fillLoad id r.who none
  | .status _ => (s.countFate r.core f).fillLoad id r.who none
  | .eng key _ _ => (s.countFate r.core f).lineFate r.core r.sid id key f none
  | .store seq => ((s.countFate r.core f).failOf r.who f).dropStore r.core seq
  | .op op =>
    match fget s.ops op with
    | some o => s.failOp op o f
    | none => s.countFate r.core f

/-! ### Arrival at the home (R237, R239, R242, R243) -/

/-- The age at which a home discards a request (R239). -/
def agedAt : Nat := 2 ^ 20 - 2 ^ 16

/-- Adds 1 to the aged counter of a home die of this package (R245). -/
def State.countAged (s : State) (home : Nat) : State :=
  if home / 8 == s.pkgid.toNat then s.updDie (home % 8) fun d => { d with aged := d.aged + 1 } else s

/-- The dies that hold a shared copy of a line, without the fenced ones, which count as acknowledged (R243). -/
def State.toInvalidate (s : State) (line : Nat) : List Nat :=
  match fget s.sharers line with
  | none => []
  | some v => (v.dies (locDie s (64 * line))).filter fun d => d / 8 != s.pkgid.toNat || !(s.die (d % 8)).fenced

/-- An engine's write is performed at its home, as independent bytes of which the hardware may leave some for later (R249); a read
and write is granted, and its engine performs it. -/
def State.performLine (s : State) (id : Nat) (r : Req) : State :=
  if r.bytes.isEmpty then s.setReq id { r with pos := .reply none }
  else
    let (n, s) := s.choose
    let (now, rest) := s.splitWrites r.bytes n
    let s := if now.isEmpty then s else s.engineWrite r.who now
    if rest.isEmpty then s.setReq id { r with pos := .reply none } else s.setReq id { r with pos := .home [] [], bytes := rest }

/-- A store is performed at its remote home, whole or in its units (R249). -/
def State.performSent (s : State) (id : Nat) (r : Req) (e : StoreEnt) : State :=
  let (now, rest, s) := s.splitStore e
  let s := if now.bytes.isEmpty then s
    else (s.performStore r.who now.bytes now.poison now.bits now.marks).updCore r.core fun k =>
      { k with l1 := dropWords k.l1 r.line (wordMask (now.bytes.map (·.1))) }
  if rest.bytes.isEmpty then s.setReq id { r with pos := .reply none }
  else
    (s.updCore r.core fun k => { k with sb := k.sb.map fun y => if y.seq = e.seq then rest else y }).setReq id
      { r with pos := .home [] [] }

/-- A write-class request is performed at its home (R243), or waits there while its line is pinned (R194), or has bytes left; one
that its sender has given up is not performed (R239). -/
def State.performReq (s : State) (id : Nat) (r : Req) : State :=
  if r.dropped then s.dropReq id
  else if s.pinned r.line then s.setReq id { r with pos := .home [] [] }
  else
    match r.what with
    | .read _ | .status _ | .eng _ false _ => s.setReq id { r with pos := .reply none }
    | .eng _ true _ => s.performLine id r
    | .store seq =>
      match s.storeOf r seq with
      | some e => s.performSent id r e
      | none => s.setReq id { r with pos := .reply none }
    | .op op =>
      let s := s.setReq id { r with pos := .reply none }
      match fget s.ops op with
      | some o => s.performOp op o
      | none => s

/-- The line in which a status answer stands at its place. -/
def statusLine (off : Nat) (v : W64) : Copy := { data := BitVec.setWidth 512 v <<< (8 * (off % 64)) }

/-- What a read leaves at its home slice (R241, R242): the die of a copy is named in the vector, for loads and fetches through
L2; a read of the read-only path leaves the line held. -/
def State.readAtHome (s : State) (r : Req) (install : Nat) : State :=
  if install == 1 || install == 2 || install == 4 then
    let d := s.pkgid.toNat * 8 + r.core / 128
    { s with sharers := fset s.sharers r.line (((fget s.sharers r.line).getD {}).add r.home d) }.homeShares r.line
  else if install == 3 then s.homeRead r.line
  else s

/-- A request is accepted at its home. -/
def State.acceptReq (s : State) (id : Nat) (r : Req) : State :=
  match r.what with
  | .read install => (s.readAtHome r install).setReq id { r with pos := .reply (some (s.lineCopy r.line)) }
  | .status off =>
    (s.statusTouch r.home off).setReq id { r with pos := .reply (some (statusLine off (s.statusAnswer r.home off))) }
  | .eng _ false install =>
    (match install with
     | some n => s.readAtHome r n
     | none => s).setReq id { r with pos := .reply (some (s.lineCopy r.line)) }
  | .eng _ true _ | .store _ | .op _ =>
    match s.toInvalidate r.line with
    | [] => s.performReq id r
    | l => s.setReq id { r with pos := .home l [] }

/-- REMOTE_REQUEST_ARRIVE: a request is offered at its home, which discards it for its age, refuses it, or accepts it
(R237, R239). -/
def execRemoteRequestArrive (r : Nat) (accept : Bool) (s : State) : Out :=
  match fget s.reqs r with
  | none => .next s
  | some q =>
    match q.pos with
    | .toHome | .circuit =>
      if agedAt ≤ s.clk - q.first then
        let s := s.countAged q.home
        .next (if q.dropped then s.dropReq r else s.setReq r { q with pos := .gone })
      else if q.dropped then .next (s.dropReq r)
      else if accept then .next (s.acceptReq r q)
      else .next (s.setReq r { q with pos := match q.pos with | .toHome => .circuit | _ => .returning })
    | _ => .next s

/-- INVALIDATION_RECEIVE: a sharer die discards its L2 copy of the line and its cores' unowned L1 words of it (R243). -/
def execInvalidationReceive (r : Nat) (d : Nat) (s : State) : Out :=
  match fget s.reqs r with
  | none => .next s
  | some q =>
    match q.pos with
    | .home inv ack =>
      if !inv.contains d then .next s
      else
        let here (x : Nat) : Bool := d == s.pkgid.toNat * 8 + x
        let s := s.staleReads q.line here
        let cores := s.cores.map fun (e : Nat × Core) =>
          if here (e.1 / 128) then (e.1, { e.2 with l1 := fdel e.2.l1 q.line }) else e
        let s := { s with cores := cores }
        let s := if d / 8 == s.pkgid.toNat then s.updDie (d % 8) fun x => { x with l2 := fdel x.l2 q.line } else s
        .next (s.setReq r { q with pos := .home (inv.filter (· != d)) (ack ++ [d]) })
    | _ => .next s

/-- INVALIDATION_ACK_RECEIVE: the home takes an acknowledgement; after the last one it performs the write (R243). -/
def execInvalidationAckReceive (r : Nat) (d : Nat) (s : State) : Out :=
  match fget s.reqs r with
  | none => .next s
  | some q =>
    match q.pos with
    | .home inv ack =>
      if !ack.contains d then .next s
      else
        let ack := ack.filter (· != d)
        let q := { q with pos := .home inv ack }
        .next (if inv.isEmpty && ack.isEmpty then s.performReq r q else s.setReq r q)
    | _ => .next s

/-! ### Return and retry (R237) -/

/-- The wait before the n-th retry. -/
def backoff (n : Nat) : Nat := min 8192 (64 * 2 ^ (n - 1))

/-- SLOT_RETURN: a slot refused twice comes back: a retry after its backoff, or REFUSED after the eighth retry. -/
def execSlotReturn (r : Nat) (s : State) : Out :=
  match fget s.reqs r with
  | none => .next s
  | some q =>
    match q.pos with
    | .returning =>
      let s := s.updDie (q.core / 128) fun d => { d with returns := d.returns + 1 }
      if q.dropped then .next (s.dropReq r)
      else if 8 ≤ q.returns then .next ((s.failReq r q .refused).dropReq r)
      else .next (s.setReq r { q with returns := q.returns + 1, pos := .backoff s.clk })
    | _ => .next s

/-- RETRY_BACKOFF_EXPIRY: the backoff has passed and the request is sent again; without a route it fails as DEAD (R235). -/
def execRetryBackoffExpiry (r : Nat) (s : State) : Out :=
  match fget s.reqs r with
  | none => .next s
  | some q =>
    match q.pos with
    | .backoff since =>
      if s.clk - since < backoff q.returns then .next s
      else
        let s := s.updDie (q.core / 128) fun d => { d with retries := d.retries + 1 }
        match s.routeOf (q.core / 128) q.home (64 * q.line) with
        | some t => .next (s.setReq r { q with pos := .toHome, route := t })
        | none => .next ((s.failReq r q .dead).dropReq r)
    | _ => .next s

/-! ### Replies, timeouts and tags (R239) -/

/-- REMOTE_REPLY_RECEIVE: a reply frees its tag; one of an earlier incarnation is discarded and counted. A write that its home has
not performed yet, or not as a whole, goes on there first. -/
def execRemoteReplyReceive (r : Nat) (s : State) : Out :=
  match fget s.reqs r with
  | none => .next s
  | some q =>
    match q.pos with
    | .reply data =>
      if q.dropped then .next ((s.updDie (q.core / 128) fun d => { d with late := d.late + 1 }).dropReq r)
      else .next (s.answered r q data)
    | .home [] [] => .next (s.performReq r q)
    | _ => .next s

/-- A tag taken back from an unanswered request changes its incarnation (R239). -/
def State.bumpInc (s : State) (q : Req) : State :=
  s.updDie (q.core / 128) fun d => { d with inc := fset d.inc q.tag (((fget d.inc q.tag).getD 0) + 1) }

/-- A request is counted LOST (R239), performed or not, but for a read and write at its home, which its engine does not perform any
more: it stays on its way, unless it waits at its sender or was discarded. -/
def State.lose (s : State) (id : Nat) (q : Req) : State :=
  let done := (match q.pos with | .reply _ => true | _ => false) && (match q.what with
    | .eng _ true _ => !q.bytes.isEmpty
    | _ => true)
  let s := (s.failReq id q (.lost done)).bumpInc q
  match q.pos with
  | .backoff _ | .gone => s.dropReq id
  | _ => s.setReq id { q with dropped := true, pte := none }

/-- TRANSACTION_TIMEOUT: no answer 2^20 clk after the first sending (R239). -/
def execTransactionTimeout (r : Nat) (s : State) : Out :=
  match fget s.reqs r with
  | none => .next s
  | some q => if q.dropped || q.pos == .held || s.clk - q.first < 2 ^ 20 then .next s else .next (s.lose r q)

/-- TAG_FREE_RELEASE: a context that waits for a tag issues its instruction again when one is free (R239). -/
def execTagFreeRelease (g : Nat) (c : CtxId) (s : State) : Out :=
  match (s.ctx g c).hold with
  | .tag => if s.hasTag (g / 128) then .next (s.updCtx g c fun x => { x with st := .run, hold := .none }) else .next s
  | _ => .next s

/-! ### Fenced dies and dead links (R235, R244) -/

/-- What a request that meets a new fence or a dead link becomes: a slot that has not arrived is returned and fails as DEAD;
one that waits for a reply of the fenced die is LOST. -/
def State.cutOff (s : State) (id : Nat) (fenced : Bool) : State :=
  match fget s.reqs id with
  | none => s
  | some q =>
    if q.dropped then s
    else
      match q.pos with
      | .held | .toHome | .circuit | .returning | .backoff _ => (s.failReq id q .dead).dropReq id
      | _ => if fenced then s.lose id q else s

/-- Invalidations that wait for a fenced die count as acknowledged (R243). -/
def State.ackFenced (s : State) (d id : Nat) : State :=
  match fget s.reqs id with
  | none => s
  | some q =>
    match q.pos with
    | .home inv ack =>
      if !inv.contains d && !ack.contains d then s
      else
        let q := { q with pos := .home (inv.filter (· != d)) (ack.filter (· != d)) }
        match q.pos with
        | .home [] [] => s.performReq id q
        | _ => s.setReq id q
    | _ => s

/-- A slot on its way takes the route that is left to it (R235). -/
def State.reroute (s : State) (id : Nat) : State :=
  match fget s.reqs id with
  | none => s
  | some q =>
    match q.pos, s.routeOf (q.core / 128) q.home (64 * q.line) with
    | .toHome, some t | .circuit, some t | .returning, some t => s.setReq id { q with route := t }
    | _, _ => s

/-- DIE_FENCE (R19, R20, R244): the requests to the fenced die, and its own to other dies, fail: those that have not arrived
as DEAD, those that wait for a reply as LOST. It takes no further request or acknowledgement. -/
def execDieFence (d : Fin 8) (s : State) : Out :=
  if (s.die d.val).fenced then .next s
  else
    let s := s.updDie d.val fun x => { x with fenced := true }
    let s := if d = 0 then s.outOfService else s
    let n := s.pkgid.toNat * 8 + d.val
    let s := (s.reqs.filter fun e => e.2.home == n || e.2.core / 128 == d.val).foldl (fun (s : State) e => s.cutOff e.1 true) s
    .next (s.reqs.foldl (fun (s : State) e => s.ackFenced n e.1) s)

/-- DEAD_LINK (R235): a link fails; slots on their way without a route left fail as DEAD. -/
def execDeadLink (l : FabricLink) (s : State) : Out :=
  if s.linkDown.contains l then .next s
  else
    let s := { s with linkDown := s.linkDown ++ [l] }
    let s := (s.reqs.filter fun e => (s.routeOf (e.2.core / 128) e.2.home (64 * e.2.line)).isNone).foldl
      (fun (s : State) e => s.cutOff e.1 false) s
    .next (s.reqs.foldl (fun (s : State) e => s.reroute e.1) s)

end Sys2Proof.Machine
end

