-- ==== Sys2Proof/Machine/Stream.lean ====
section
/-! DEFINITION. Sys2Proof/Machine/Stream.lean: the stream engine: pattern descriptors (R144 to R147), granules (R149), rset
(R152), sfill and sdrain (R153), scopy (R154) and shint (R155). -/

namespace Sys2Proof.Machine

/-! ### Issue -/

/-- RSET (R152). -/
def execRset (h : HReg) (xa : XReg) (s : State) : Out := issueEngine (.rset h xa) s
/-- SFILL (R153). -/
def execSfill (h : HReg) (xa xb : XReg) (s : State) : Out := issueEngine (.sfill h xa xb) s
/-- SDRAIN (R153). -/
def execSdrain (h : HReg) (xa xb : XReg) (s : State) : Out := issueEngine (.sdrain h xa xb) s
/-- SCOPY (R154). -/
def execScopy (xa xb xc : XReg) (s : State) : Out := issueEngine (.scopy xa xb xc) s
/-- SHINT (R155). -/
def execShint (kind : HintKind) (xa xb : XReg) (s : State) : Out := issueEngine (.shint kind xa xb) s

/-! ### Pattern descriptors (R144 to R147) -/

/-- A signed number of n bytes. -/
def signedOf (n v : Nat) : Int := toSigned (8 * n) v

/-- Reads the descriptor at an own-vault offset (R144, R145), for a pointer whose offset is off: none when it is invalid.
The base is kept as the distance of o0 from the pointer (R146: 64-bit signed arithmetic). -/
def State.readPattern (s : State) (g : Nat) (at_ : W64) (off : Nat) : Option Pattern :=
  if at_.toNat / 2 ^ 21 != 0 || at_.toNat % 64 != 0 then none
  else
    let rd (o n : Nat) : Nat := s.readNat (vaultLoc g (at_.toNat + o)) n
    let o0 := toSigned 64 ((off + rd 0 8) % 2 ^ 64)
    let p : Pattern :=
      { base := o0 - off, esize := rd 8 1, c0 := rd 16 4, c1 := rd 20 4, c2 := rd 24 4, c3 := rd 28 4
        s0 := signedOf 4 (rd 32 4), s1 := signedOf 4 (rd 36 4), s2 := signedOf 4 (rd 40 4), s3 := signedOf 4 (rd 44 4) }
    if 6 < p.esize || rd 9 7 != 0 || rd 48 16 != 0 || 2 ^ 40 < p.c0 * p.c1 * p.c2 * p.c3 * 2 ^ p.esize then none
    else some p

/-- Bytes of a pattern's stream. -/
def Pattern.total (p : Pattern) : Nat := p.c0 * p.c1 * p.c2 * p.c3 * 2 ^ p.esize

/-- The distance of byte n of the stream from the pointer (R146). -/
def Pattern.dist (p : Pattern) (n : Nat) : Int :=
  let e := n / 2 ^ p.esize
  let i0 := e % p.c0
  let i1 := e / p.c0 % p.c1
  let i2 := e / (p.c0 * p.c1) % p.c2
  let i3 := e / (p.c0 * p.c1 * p.c2)
  p.base + i0 * p.s0 + i1 * p.s1 + i2 * p.s2 + i3 * p.s3 + (n % 2 ^ p.esize : Nat)

/-! ### Which commands wait for which (R149, R152) -/

/-- The handle that a stream command names, with its role: 0 rset, 1 producer, 2 consumer. -/
def handleRole : Instr → Option (HReg × Nat)
  | .rset h _ => some (h, 0)
  | .sfill h _ _ => some (h, 1)
  | .sdrain h _ _ => some (h, 2)
  | _ => none

/-- The unfinished stream commands of a set. -/
def CtxSet.streamCmds (t : CtxSet) : List Entry := t.sq.toList.flatten ++ (t.srun.toList.flatten.map (·.e))

/-- A command may not begin yet: an earlier-numbered unfinished one names its handle in the same role, or one of the two is
an rset (R149, R152). -/
def CtxSet.streamBlocked (t : CtxSet) (e : Entry) : Bool :=
  match handleRole e.instr with
  | none => false
  | some (h, r) =>
    t.streamCmds.any fun y => y.num < e.num &&
      (match handleRole y.instr with
       | some (h', r') => h' == h && (r == 0 || r' == 0 || r == r')
       | none => false)

/-- A run has issued its last request. -/
def StreamRun.issuedAll (r : StreamRun) : Bool := r.cut || r.total ≤ r.issued

/-- Changes the runs of a queue. -/
def CtxSet.setRuns (t : CtxSet) (c : CtxId) (l : List StreamRun) : CtxSet := { t with srun := nset t.srun c l }

/-- A stream command completes on tls, and what it captured is released (R150, R106). -/
def State.streamDone (s : State) (g : Nat) (e : Entry) (mst : BitVec 8) (fail : FailRec) : State :=
  (s.updAct g fun t => (t.completeEntry e 0 mst fail).unstall .str e.who).releaseAll g e.tokens

/-! ### rset and shint -/

/-- The value of an rset is accepted (R152). -/
def rsetOk (v : Nat) : Bool :=
  let slot := v / 2 ^ 21 % 16
  let count := v / 2 ^ 25 % 16
  let base := v % 2 ^ 21
  v / 2 ^ 33 == 0 && 6 ≤ slot && slot ≤ 11 && 1 ≤ count && count ≤ 10 && v / 2 ^ 31 % 4 != 2
    && base % 2 ^ slot == 0 && base + 2 ^ (slot + count) ≤ 2 ^ 21

/-- The handle that an accepted value sets; a rejected one leaves it unset (R152). -/
def ringOf (v : W64) : Ring :=
  if rsetOk v.toNat then
    { base := v.extractLsb' 0 21, slot := v.extractLsb' 21 4, count := v.extractLsb' 25 4
      producer := v.extractLsb' 29 2, consumer := v.extractLsb' 31 2 }
  else {}

/-- The lines that are kept at most when their slices are not known to be full: those of one slice, and of all (R155). -/
def keptSlice : Nat := 2048
def keptAll : Nat := 384 * 2048

/-- Keeps a line in its home slice for an entry of die d; whether the keep limit of its slice is reached is left to the hardware
beyond one slice's lines. A home in another package is not in the state (log entry 55). -/
def State.keepHint (s : State) (d line : Nat) (pte : BitVec 20) (card : Option Nat) : Bool × State :=
  let home := locDie s (64 * line)
  let l := (s.die (home % 8)).kept
  if home / 8 != s.pkgid.toNat || l.any fun k => k.line == line && k.die == d && k.pte == pte then (true, s)
  else if keptAll ≤ l.length then (false, s)
  else
    let (n, s) := if l.length < keptSlice then (0, s) else s.choose
    if n != 0 then (false, s)
    else (true, s.updDie (home % 8) fun x => { x with kept := x.kept ++ [{ line := line, die := d, pte := pte, card := card }] })

/-- Clears the kept mark of a line in its home slice. -/
def State.unkeepLine (s : State) (line : Nat) : State :=
  let home := locDie s (64 * line)
  if home / 8 != s.pkgid.toNat then s
  else s.updDie (home % 8) fun x => { x with kept := x.kept.filter fun k => k.line != line }

/-- What a hint does to one line of its extent, at an offset; whether it was dropped. -/
def State.hintLine (s : State) (g : Nat) (kind : HintKind) (t : Token) (need : BitVec 4) (card : Option Nat) (first last : Nat) :
    Bool × State :=
  let dropped := match s.tokenByte g t need last with
    | .ok _ => false
    | .error _ => true
  match s.tokenByte g t need first with
  | .error _ => (true, s)
  | .ok loc =>
    let line := loc / 64
    let live := s.addrFate g loc (s.via g (some t)) == .ok
    match kind with
    | .l2 => (dropped, if live then s.homeRead line else s)
    | .ro => (dropped, if (s.roLine g line).isSome || !live then s else s.installRo g line (s.lineCopy line))
    | .keep =>
      let (ok, s) := if live then s.keepHint (g / 128) line t.pte card else (true, s)
      (dropped || !ok, s)
    | .rel => (dropped, if live then s.unkeepLine line else s)

/-- The lines of a hint, from the one at offset o up to the end. -/
def State.hintLines (s : State) (g : Nat) (kind : HintKind) (t : Token) (need : BitVec 4) (card : Option Nat) (o stop : Nat) :
    Nat → Bool × State
  | 0 => (false, s)
  | n + 1 =>
    if stop ≤ o then (false, s)
    else
      let next := min stop ((o / 64 + 1) * 64)
      let (a, s) := s.hintLine g kind t need card o (next - 1)
      let (b, s) := s.hintLines g kind t need card next stop n
      (a || b, s)

/-- The effect of shint (R155); whether the command counts as dropped. A hint whose offset lies past the end of its extent counts as
dropped even when it is of 0 bytes (DESIGN CHOICE, log entry 69). -/
def State.hint (s : State) (g : Nat) (e : Entry) (kind : HintKind) : Bool × State :=
  match s.eptr g e.x0 e.k0 with
  | .token _ pol t off =>
    let p := s.pin (g / 128) t.pte
    if t.ms || t.host || p.gen != t.gen || p.state != .live then (true, s)
    else
      let need : BitVec 4 := if kind == .ro || pol == 2 then 9 else 1
      let stop := off + e.x1.toNat
      let lim := min stop (t.lenm1.toNat + 1)
      let (b, s) := s.hintLines g kind t need (s.aset g).card off lim ((lim - off) / 64 + 2)
      (b || lim < stop, s)
  | _ => (true, s)

/-- The hint-drop count rises, saturating. -/
def Core.dropHint (k : Core) : Core := { k with hintDrops := if k.hintDrops = 0xFFFFFFFF then k.hintDrops else k.hintDrops + 1 }

/-! ### Beginning a command -/

/-- Both pointers of a copy name the same storage by the same means, and its destination lies ahead of its source within the
range (R154): the same k register, or the vault of one core. -/
def copyDown (e : Entry) (d src : EPtr) (n : Nat) : Bool :=
  match d, src with
  | .vault g a, .vault g' b => g == g' && b < a && a < b + n
  | .token _ _ _ a, .token _ _ _ b => e.x0.extractLsb' 52 4 == e.x1.extractLsb' 52 4 && b < a && a < b + n
  | _, _ => false

/-- The offset part of a captured pointer. -/
def EPtr.off : EPtr → Nat
  | .vault _ o => o
  | .token _ _ _ o => o
  | .stray => 0

/-- What a command that begins becomes: complete at once with mstat bits, or a run. -/
inductive Begun where
  | complete (s : State) (mst : BitVec 8)
  | run (r : StreamRun)
  deriving Repr

/-- A ring command begins (R145, R153): the descriptor is read once, in full. -/
def State.beginRing (s : State) (g : Nat) (e : Entry) (h : HReg) (role : BitVec 2) (pos : W32) : Begun :=
  let r := vget (s.aset g).ring h
  match s.readPattern g e.x1 (s.eptr g e.x0 e.k0).off with
  | none => .complete s mStray
  | some p =>
    if r.unset || role != 0 then .complete s mStray
    else if p.total = 0 then .complete s 0
    else .run { e := e, pat := p, total := p.total, pos := pos }

/-- Begins a stream command (R145, R152 to R155). -/
def State.beginStream (s : State) (g : Nat) (e : Entry) : Begun :=
  match e.instr with
  | .rset h _ => .complete (s.setRing g h (ringOf e.x0)) (if rsetOk e.x0.toNat then 0 else mStray)
  | .sfill h _ _ => s.beginRing g e h (vget (s.aset g).ring h).producer (vget (s.aset g).ring h).head
  | .sdrain h _ _ => s.beginRing g e h (vget (s.aset g).ring h).consumer (vget (s.aset g).ring h).tail
  | .scopy .. =>
    let n := e.x2.toNat
    if 2 ^ 40 < n then .complete s mStray
    else if n = 0 then .complete s 0
    else .run { e := e, total := n, down := copyDown e (s.eptr g e.x0 e.k0) (s.eptr g e.x1 e.k1) n }
  | .shint kind _ _ =>
    let (b, s) := s.hint g e kind
    .complete (if b then s.updCore g Core.dropHint else s) 0
  | _ => .complete s 0

/-- STREAM_COMMAND_BEGIN: the next command of a queue begins once the one before it has issued its last request and no
earlier command of its handle holds it (R149). -/
def execStreamCommandBegin (g : Nat) (c : CtxId) (s : State) : Out :=
  let t := s.aset g
  match nget t.sq c with
  | [] => .next s
  | e :: rest =>
    if t.leaving || !((nget t.srun c).all StreamRun.issuedAll) || t.streamBlocked e then .next s
    else
      let pop (s : State) : State := s.updAct g fun t => { t with sq := nset t.sq c rest }
      match s.beginStream g e with
      | .complete s mst => .next ((pop s).streamDone g e mst {})
      | .run r => .next ((pop s).updAct g fun t => t.setRuns c (nget t.srun c ++ [r]))

/-! ### Granules (R149) -/

/-- Where some bytes at distances from a captured pointer lie, with the mstat bits of the failing ones and the distances of
the denied ones (R119, R146). -/
def State.byteRefs (s : State) (g : Nat) (p : EPtr) (ro : Bool) (need : Nat → BitVec 4) (bit : ByteFail → BitVec 8) :
    List Int → List ByteRef × BitVec 8 × List Int
  | [] => ([], 0, [])
  | d :: l =>
    let (r, m, x) := s.byteRefs g p ro need bit l
    match s.eptrByte g p need bit d with
    | .ok loc => ((if ro then .ro loc else .home loc) :: r, m, x)
    | .error b => (.nowhere :: r, b ||| m, if b = bit .denied then d :: x else x)

/-- The location of a byte reference. -/
def ByteRef.loc : ByteRef → Option Nat
  | .home l | .ro l => some l
  | .nowhere | .poisonZero => none

/-- The rights and mstat bits of a source and of a destination. -/
def State.srcRefs (s : State) (g : Nat) (p : EPtr) (l : List Int) : List ByteRef × BitVec 8 × List Int :=
  s.byteRefs g p (p.path == .ro) readRights ByteFail.readBit l
def State.dstRefs (s : State) (g : Nat) (p : EPtr) (l : List Int) : List ByteRef × BitVec 8 × List Int :=
  s.byteRefs g p false (fun _ => 2) ByteFail.writeBit l

/-- What trying to issue the next granule of a run gives. -/
inductive Tried where
  /-- it waits for a slot -/
  | no
  | stall (pte : BitVec 20) | withdrawn (pte : BitVec 20)
  | granule (src dst : List ByteRef) (mst : BitVec 8) (den : List (EPtr × Nat × List Int)) (start n : Nat)
      (ptes : List (BitVec 20))
  deriving Repr

/-- The issue points of a granule's requests, in order (R123). -/
def State.issuePoints (s : State) (g : Nat) : List EPtr → Option Tried
  | [] => none
  | p :: l =>
    match s.eptrCheck g p with
    | .withdrawn => some (.withdrawn (p.pte.getD 0))
    | .stall => some (.stall (p.pte.getD 0))
    | .go => s.issuePoints g l

/-- Stream bytes from a up to b. -/
def upTo (a b : Nat) : List Nat := (List.range (b - a)).map (a + ·)

/-- The end of the next granule of a ring command: 256 bytes of the stream at most, and no further than the slots that are
free or filled now (R147, R149, R153). -/
def StreamRun.ringEnd (r : StreamRun) (avail size : Nat) : Nat :=
  min (min r.total ((r.issued / 256 + 1) * 256)) ((r.slots + avail) * size)

/-- Tries the next granule of a run. -/
def State.tryGranule (s : State) (g : Nat) (r : StreamRun) : Tried :=
  let t := s.aset g
  let e := r.e
  match e.instr with
  | .sfill h _ _ =>
    let ring := vget t.ring h
    let b := r.ringEnd ring.free ring.slotSize
    if b ≤ r.issued then .no
    else
      let p := if e.x0.extractLsb' 60 4 == 2 then s.eptr g e.x0 e.k0 else .stray
      (s.issuePoints g [p]).getD
        (let ns := upTo r.issued b
         let (src, m, den) := s.srcRefs g p (ns.map r.pat.dist)
         .granule src (ns.map fun n => .home (ring.loc g r.pos n)) m [(p, 4, den)] r.issued (b - r.issued) p.pte.toList)
  | .sdrain h _ _ =>
    let ring := vget t.ring h
    let b := r.ringEnd ring.filled ring.slotSize
    if b ≤ r.issued then .no
    else
      let p := s.eptr g e.x0 e.k0
      (s.issuePoints g [p]).getD
        (let ns := upTo r.issued b
         let (dst, m, den) := s.dstRefs g p (ns.map r.pat.dist)
         .granule (ns.map fun n => .home (ring.loc g r.pos n)) dst m [(p, 5, den)] r.issued (b - r.issued) p.pte.toList)
  | _ =>
    let d := s.eptr g e.x0 e.k0
    let p := s.eptr g e.x1 e.k1
    let (a, b) : Nat × Nat :=
      if r.down then
        let b := r.total - r.issued
        (max d.off ((d.off + b - 1) / 256 * 256) - d.off, b)
      else (r.issued, min r.total (((d.off + r.issued) / 256 + 1) * 256 - d.off))
    (s.issuePoints g [p, d]).getD
      (let ns := upTo a b
       let is : List Int := ns.map fun (n : Nat) => (n : Int)
       let (src, m1, den1) := s.srcRefs g p is
       let (dst, m2, den2) := s.dstRefs g d is
       .granule src dst (m1 ||| m2) [(p, 6, den1), (d, 5, den2)] a (b - a) (p.pte.toList ++ d.pte.toList))

/-- Writes the denial records of a granule (R121). -/
def State.granuleDenials (s : State) (w : Who) (r : StreamRun) (l : List (EPtr × Nat × List Int)) : State × StreamRun :=
  l.foldl (fun (a : State × StreamRun) x =>
    let (s, lg) := a.1.engineDenials w x.1 x.2.1 a.2.logged (x.2.2.map x.1.offset)
    (s, { a.2 with logged := lg })) (s, r)

/-! ### Performing a granule -/

/-- The pointer that the granules of a command read through; a ring is no pointer. -/
def State.srcPtr (s : State) (g : Nat) (e : Entry) : EPtr :=
  match e.instr with
  | .scopy .. => s.eptr g e.x1 e.k1
  | .sfill .. => s.eptr g e.x0 e.k0
  | _ => .stray
/-- The pointer that the granules of a command write through. -/
def State.dstPtr (s : State) (g : Nat) (e : Entry) : EPtr :=
  match e.instr with
  | .scopy .. | .sdrain .. => s.eptr g e.x0 e.k0
  | _ => .stray
/-- The attributes of the extents that a granule reads and writes (R4, R113). -/
def State.srcVia (s : State) (g : Nat) (e : Entry) : Via := s.eptrVia g (s.srcPtr g e)
def State.dstVia (s : State) (g : Nat) (e : Entry) : Via := s.eptrVia g (s.dstPtr g e)

/-- A byte of a granule's source is found in the read-only path (R267), where its address does not refuse it (R233). -/
def State.roHit (s : State) (g : Nat) (v : Via) : ByteRef → Bool
  | .ro l => (s.roLine g (l / 64)).isSome && s.addrFate g l v != .refused
  | _ => false

/-- The value of a source byte, with the answers to the granule's requests: poisoned zeros for one that failed (R240). -/
def State.refByte (s : State) (l : Fates) (g : Nat) (v : Via) (r : ByteRef) : Byte × Bool :=
  match r with
  | .nowhere => (0, false)
  | .poisonZero => (0, true)
  | .home a | .ro a =>
    if s.roHit g v r then s.engByte l g true a
    else match s.fateOf l g a false v with
      | .ok => s.answeredByte l a
      | _ => (0, true)

/-- The locations that a granule reads at their homes: those of the read-only path are read there on a miss alone (R267). -/
def State.srcLocs (s : State) (g : Nat) (v : Via) (gr : Granule) : List Nat :=
  (gr.src.filter fun r => !s.roHit g v r).filterMap ByteRef.loc

/-- The locations that a granule writes. -/
def Granule.dstLocs (gr : Granule) : List Nat := gr.dst.filterMap ByteRef.loc

/-- The remote lines of a granule (R236): those it reads, which the read-only path keeps when it is read through it, and those it
writes. -/
def State.granuleWant (s : State) (g : Nat) (e : Entry) (gr : Granule) : List Want :=
  let v := s.srcVia g e
  let ro := gr.src.any fun r => match r with | .ro _ => true | _ => false
  let dv := s.dstVia g e
  (s.readPlan g v (s.srcPtr g e).pte (s.srcLocs g v gr) false (if ro then some 3 else none)).want
    ++ (s.awayLines g dv (s.alive g dv gr.dstLocs)).map fun x =>
      { line := x, write := true, home := s.homeDie (64 * x) dv, pte := (s.dstPtr g e).pte, host := dv.host }

/-- The bytes of a granule with their values. -/
def State.granuleBytes (s : State) (l : Fates) (g : Nat) (e : Entry) (gr : Granule) : List (Nat × Byte × Bool) :=
  (gr.dst.zip gr.src).filterMap fun (x : ByteRef × ByteRef) => x.1.loc.map fun a => (a, s.refByte l g (s.srcVia g e) x.2)

/-- A granule's write to a remote line gets its data, while it is held at its sender. -/
def State.giveBytes (s : State) (bytes : List (Nat × Byte × Bool)) (y : XLine) : State :=
  match fget s.reqs y.req with
  | some r =>
    let here := bytes.filter fun b => b.1 / 64 = y.line
    if y.write && r.pos == .held && !here.isEmpty then s.setReq y.req { r with bytes := here } else s
  | none => s

/-- An earlier write of the core to a line is held with its data. -/
def State.heldBefore (s : State) (id : Nat) (r : Req) : Bool :=
  s.reqs.any fun e => e.1 < id && e.2.core == r.core && e.2.line == r.line && e.2.pos == .held && !e.2.bytes.isEmpty

/-- A granule's held write that has its data is sent (R236), once no write-class request of the core is in flight to its line
(R238), on the route of the moment (R235); its age counts from then (R239). Without a route it fails as DEAD. -/
def State.release (s : State) (y : XLine) : State :=
  match fget s.reqs y.req with
  | some r =>
    if r.pos != .held || r.bytes.isEmpty || s.writing r.core r.line || s.heldBefore y.req r then s
    else
      match s.routeOf (r.core / 128) r.home (64 * r.line) with
      | some t => s.setReq y.req { r with pos := .toHome, route := t, first := s.clk }
      | none => (s.failReq y.req r .dead).dropReq y.req
  | none => s

/-- The in-flight counts of a granule that is performed are to fall (R124). -/
def State.granuleOver (s : State) (g : Nat) (gr : Granule) : State :=
  gr.ptes.foldl (fun (s : State) e => s.performedPte (g / 128) (some e)) s

/-- The end of slot j of a run's stream. -/
def StreamRun.slotEnd (r : StreamRun) (size j : Nat) : Nat := min r.total ((j + 1) * size)

/-- Slot j of a run is complete: all its stream bytes are issued and performed. -/
def StreamRun.slotDone (r : StreamRun) (size j : Nat) : Bool :=
  r.slotEnd size j ≤ r.issued && r.flying.all fun f => r.slotEnd size j ≤ f.start

/-- Publishes or frees the complete slots of a ring command in position order; the last slot of an sfill is padded with
zero bytes (R142, R147, R153). -/
def State.publishSlots (s : State) (g : Nat) (h : HReg) (fill : Bool) : Nat → StreamRun → State × StreamRun
  | 0, r => (s, r)
  | n + 1, r =>
    let ring := vget (s.aset g).ring h
    let size := ring.slotSize
    if r.total ≤ r.slots * size || !r.slotDone size r.slots then (s, r)
    else
      let pad := upTo (r.slotEnd size r.slots) ((r.slots + 1) * size)
      let s := if fill && !pad.isEmpty then s.writeHome (pad.map fun n => (ring.loc g r.pos n, 0)) false else s
      let s := s.setRing g h (if fill then (ring.publish 1).1 else (ring.release 1).1)
      s.publishSlots g h fill n { r with slots := r.slots + 1 }

/-- Publishes what a run has completed. -/
def State.publishRun (s : State) (g : Nat) (r : StreamRun) : State × StreamRun :=
  match r.e.instr with
  | .sfill h _ _ => s.publishSlots g h true (r.total - r.slots + 1) r
  | .sdrain h _ _ => s.publishSlots g h false (r.total - r.slots + 1) r
  | _ => (s, r)

/-- Replaces a run of a queue, by its number. -/
def CtxSet.putRun (t : CtxSet) (c : CtxId) (r : StreamRun) : CtxSet :=
  t.setRuns c ((nget t.srun c).map fun y => if y.e.num = r.e.num then r else y)
/-- Removes a run of a queue. -/
def CtxSet.dropRun (t : CtxSet) (c : CtxId) (n : Nat) : CtxSet := t.setRuns c ((nget t.srun c).filter fun y => y.e.num != n)

/-- A run with nothing left to issue and no granule in flight completes (R150), one that a withdrawn request has cut with mstat.wdr
(R127); another takes its place in its queue again. -/
def State.endRun (s : State) (g : Nat) (c : CtxId) (r : StreamRun) : State :=
  if r.issuedAll && r.flying.isEmpty then
    (s.updAct g fun t => t.dropRun c r.e.num).streamDone g r.e (if r.cut then r.mst ||| mWdr else r.mst) r.fail
  else s.updAct g fun t => t.putRun c r

/-- A run whose next request is withdrawn issues no more (R127): what it has issued is performed, and complete slots are
published. -/
def State.withdrawRun (s : State) (g : Nat) (c : CtxId) (r : StreamRun) (pte : BitVec 20) : State :=
  let s := s.endRun g c { r with cut := true }
  (s.updAct g fun t => t.unstall .str r.e.who).withdrawCmd g r.e pte

/-- A request is held at its sender. -/
def State.holdReq (s : State) (id : Nat) : State :=
  match fget s.reqs id with
  | some r => s.setReq id { r with pos := .held }
  | none => s

/-- Issues the next granule of the head of a queue, if it is ready; whether it did. A head whose granule finds no tags for its
remote lines is not ready (R149, R239). The lines that it reads are requested, and those that it writes are held until its data has
come. -/
def State.issueHead (s : State) (g : Nat) (c : CtxId) : Bool × State :=
  match (nget (s.aset g).srun c).find? fun r => !r.issuedAll with
  | none => (false, s)
  | some r =>
    match s.tryGranule g r with
    | .no => (false, s)
    | .stall e => (false, s.engineStall g .str r.e.who e)
    | .withdrawn e => (true, s.withdrawRun g c r e)
    | .granule src dst m den start n ptes =>
      let w : Who := ⟨g, (s.aset g).sid, r.e.who⟩
      let id := (s.core g).gid
      let gr : Granule := { id := id, start := start, src := src, dst := dst, ptes := ptes }
      let want := s.granuleWant g r.e gr
      if !s.hasTags (g / 128) want.length then (false, s)
      else
      let (s, r) := s.granuleDenials w r den
      let (lines, s) := s.sendLines w (s.aset g).reqtag (.granule id) want
      let s := (lines.filter (·.write)).foldl (fun (s : State) y => s.holdReq y.req) s
      let s := if lines.isEmpty then s
        else s.setXfer g w.sid (.granule id) (some { key := .granule id, sid := w.sid, lines := lines })
      let r := { r with issued := r.issued + n, mst := r.mst ||| m, flying := r.flying ++ [gr] }
      let s := s.updCore g fun k => { k with gid := k.gid + 1 }
      let s := ptes.foldl (fun (s : State) e => s.flyIn (g / 128) e) s
      (true, s.updAct g fun t => (t.putRun c r).unstall .str r.e.who)

/-- STREAM_GRANULE_ISSUE: the first ready head at or after the engine's pointer, in the order L, C, S, issues a granule, and
the pointer moves to the queue after it (R149). Each set has a pointer, which names L at first (DESIGN CHOICE, log entry
56). A head that is withdrawn at its issue point counts as served: the pointer moves past its queue, though no granule issues
(DESIGN CHOICE, log entry 70). -/
def execStreamGranuleIssue (g : Nat) (s : State) : Out :=
  if (s.aset g).leaving then .next s
  else
  let p := (s.aset g).sptr
  let (_, s) := [p, p + 1, p + 2].foldl (fun (a : Bool × State) c =>
    if a.1 then a
    else
      let (ok, s) := a.2.issueHead g c
      (ok, if ok then s.updAct g fun t => { t with sptr := c + 1 } else s)) (false, s)
  .next s

/-- A granule may be performed now: an earlier one in flight writes none of its destination bytes (R153), and a copy over
itself goes in order (R154). -/
def StreamRun.mayPerform (r : StreamRun) (gr : Granule) : Bool :=
  let before := r.flying.takeWhile fun x => x.id != gr.id
  let locs := gr.dst.filterMap ByteRef.loc
  before.all fun x =>
    (x.dst.filterMap ByteRef.loc).all (fun l => !locs.contains l) &&
    (match r.e.instr with
     | .scopy .. => (x.src.filterMap ByteRef.loc).all fun l => !locs.contains l
     | _ => true)

/-- A granule may be performed in parts (R249): it reads no byte that it writes (R154), and writes none twice (R153). -/
def Granule.mayPart (gr : Granule) : Bool :=
  (gr.src.filterMap ByteRef.loc).all (fun a => !gr.dstLocs.contains a) && decide gr.dstLocs.Nodup

/-- The bytes of a granule that are left for later: of its destinations on the core's die those that the hardware leaves, but none of
a poisoned word (log entry 66), and those of a pinned line (R194). -/
def State.leftOver (s : State) (g : Nat) (v : Via) (gr : Granule) (n : Nat) : List Bool :=
  gr.dst.zipIdx.map fun x => match x.1.loc with
    | some a => !s.remote g a v && s.addrFate g a v == .ok &&
        (s.pinned (a / 64) || (n / 2 ^ x.2 % 2 == 1 && !s.poisoned a))
    | none => false

/-- The part of a granule that is left for later, or that is performed now. -/
def Granule.part (gr : Granule) (left : List Bool) (one : Bool) : Granule :=
  let pick (l : List ByteRef) : List ByteRef := (l.zip left).filterMap fun x => if x.2 == one then some x.1 else none
  { gr with src := pick gr.src, dst := pick gr.dst }

/-- A granule is performed, or the bytes of it that are not left for later (R150, R154, R249, R264): they are read at their homes or in
the answers to its requests, those of the core's die are written, and those of other dies go with their requests. Answers the failures
that addresses decide. -/
def State.performGranule (s : State) (l : Fates) (w : Who) (e : Entry) (gr : Granule) : State × FailRec :=
  let g := w.g
  let v := s.srcVia g e
  let dv := s.dstVia g e
  let bytes := s.granuleBytes l g e gr
  let s := gr.src.foldl (fun (s : State) r => match r with
    | .ro a => if s.addrFate g a v == .ok then s.engTouch g a else s
    | _ => s) s
  let failed := ((gr.dstLocs.map (· / 64)).dedup).filterMap fun x =>
    if (l.find x true).isSome then none else match s.addrFate g (64 * x) dv with | .ok => none | f => some (x, f)
  let s := s.countLines l g true dv gr.dstLocs
  let s := s.engineWrite w (bytes.filter fun b => s.addrFate g b.1 dv == .ok && !s.remote g b.1 dv)
  (l.lines.foldl (fun (s : State) y => s.giveBytes bytes y) s, fateRecord failed)

/-- A granule goes on, once its read lines have been answered (R236): it performs what it can, and sends what it can. Answers what is
left of it, with its failures so far. -/
def State.granuleStep (s : State) (w : Who) (e : Entry) (gr : Granule) (l : Fates) : Granule × FailRec × State :=
  let n_s : Nat × State := if gr.dst.isEmpty || !gr.mayPart then (0, s) else s.choose
  let left := n_s.2.leftOver w.g (s.dstVia w.g e) gr n_s.1
  let left := if gr.mayPart || !left.contains true then left else left.map fun _ => true
  let now := gr.part left false
  let v := s.srcVia w.g e
  let s := if gr.begun then n_s.2 else n_s.2.countLines l w.g false v (s.srcLocs w.g v gr)
  let (s, f) := s.performGranule l w e now
  let s := l.lines.foldl State.release s
  ({ gr.part left true with begun := true, read := gr.read ++ now.src.filterMap ByteRef.loc }, f, s)

/-- A granule is over: its bytes are performed or on their way, its requests have been answered or have failed; its counts are to
fall (R124). -/
def State.granuleEnd (s : State) (g sid : Nat) (gr : Granule) (l : Fates) : FailRec × State :=
  (fateRecord ((l.lines.filter (·.write)).map fun y => (y.line, y.fate.getD .ok)),
   (s.setXfer g sid (.granule gr.id) none).granuleOver g gr)

/-- What a granule of a set has asked for is given up: each of its counts stays with a request of its entry that is unanswered, or is
to fall (R124, R329). -/
def State.dropGranule (s : State) (g sid : Nat) (gr : Granule) : State :=
  let x := ((s.core g).xfer sid (.granule gr.id)).getD { key := .granule gr.id, sid := sid, lines := [] }
  s.leaveReqs g { x with ptes := gr.ptes }

/-- The requests of a granule. -/
def State.granuleFates (s : State) (g sid : Nat) (gr : Granule) : Fates :=
  { lines := (((s.core g).xfer sid (.granule gr.id)).map (·.lines)).getD [] }

/-- STREAM_GRANULE_DONE: granule n of a queue is performed; complete slots are published or freed in order, and a command
with nothing left completes (R142, R150). A granule waits for the answers to its line requests (R236); bytes of it may be left
for a later step (R249). -/
def execStreamGranuleDone (g : Nat) (c : CtxId) (n : Nat) (s : State) : Out :=
  match (nget (s.aset g).srun c).find? fun r => r.flying.any fun x => x.id = n with
  | none => .next s
  | some r =>
    match r.flying.find? fun x => x.id = n with
    | none => .next s
    | some gr =>
      let w : Who := ⟨g, (s.aset g).sid, r.e.who⟩
      let l := s.granuleFates g w.sid gr
      if !r.mayPerform gr || l.lines.any (fun y => !y.write && y.fate.isNone) then .next s
      else
        let (rest, f, s) := s.granuleStep w r.e gr l
        let l := s.granuleFates g w.sid gr
        let ends := rest.dst.isEmpty && l.lines.all fun y => y.fate.isSome
        let (f', s) := if ends then s.granuleEnd g w.sid gr l else ({}, s)
        let r := { r with
          flying := if ends then r.flying.filter fun x => x.id != n
            else r.flying.map fun x => if x.id = n then rest else x
          fail := (r.fail.join f).join f' }
        let (s, r) := s.publishRun g r
        .next (s.endRun g c r)

end Sys2Proof.Machine
end

