-- ==== Sys2Proof/Machine/Matrix.lean ====
section
/-! DEFINITION. Sys2Proof/Machine/Matrix.lean: the matrix class: the configuration banks (R183 to R186), steps (R182, R187,
R188, R190, R193, R194), tile states (R189), drains (R191, R192, R207, R208), checks (R199, R200) and the queue (R196 to
R198, R201). -/

namespace Sys2Proof.Machine

/-! ### Issue -/

/-- MCFG (R203). -/
def execMcfg (f : BitVec 7) (xa : XReg) (s : State) : Out := issueEngine (.mcfg f xa) s
/-- MGO (R204). -/
def execMgo (s : State) : Out := issueEngine .mgo s
/-- MRND (R205). -/
def execMrnd (rm : RMode) (s : State) : Out := issueEngine (.mrnd rm) s
/-- MZERO (R206). -/
def execMzero (acc : AccReg) (s : State) : Out := issueEngine (.mzero acc) s
/-- MDRAIN (R207). -/
def execMdrain (acc : AccReg) (mode : DrainMode) (xa xb : XReg) (s : State) : Out := issueEngine (.mdrain acc mode xa xb) s
/-- MCHK (R209). -/
def execMchk (xa : XReg) (s : State) : Out := issueEngine (.mchk xa) s

/-! ### The configuration (R184, R185) -/

/-- A field of a bank. -/
def Bank.field (b : Bank) (n : Fin 64) : W64 := nget b.f n
/-- The fmt field. -/
def Bank.fmt (b : Bank) : Nat := (b.field 4).toNat
def Bank.clamp (b : Bank) : W32 := (b.field 4).extractLsb' 32 32
def Bank.drainMode (b : Bank) : BitVec 2 := (b.field 4).extractLsb' 21 2
def Bank.onto (b : Bank) : Bool := (b.field 4).getLsbD 20
def Bank.ringDrain (b : Bank) : Bool := (b.field 4).getLsbD 19
def Bank.accstart (b : Bank) : Nat := b.fmt / 2 ^ 16 % 8
def Bank.batch (b : Bank) : Nat := b.fmt / 2 ^ 13 % 8
def Bank.mv (b : Bank) : Bool := (b.field 4).getLsbD 12
def Bank.drainType (b : Bank) : BitVec 4 := 0#1 ++ (b.field 4).extractLsb' 9 3
def Bank.scaled (b : Bank) : Bool := (b.field 4).getLsbD 8
def Bank.typeB (b : Bank) : BitVec 4 := (b.field 4).extractLsb' 4 4
def Bank.typeA (b : Bank) : BitVec 4 := (b.field 4).extractLsb' 0 4

/-- The levels of a nest. -/
def levels : List (Fin 6) := [0, 1, 2, 3, 4, 5]
/-- The count field of a level. -/
def Bank.countField (b : Bank) (l : Fin 6) : W64 := b.field ⟨8 + l.val, by omega⟩
/-- The count a level acts as (R182). -/
def Bank.count (b : Bank) (l : Fin 6) : Nat := max ((b.countField l).toNat % 2 ^ 32) 1
/-- The signed strides of a level. -/
def Bank.strideA (b : Bank) (l : Fin 6) : Int := (b.field ⟨0x10 + l.val, by omega⟩).toInt
def Bank.strideB (b : Bank) (l : Fin 6) : Int := (b.field ⟨0x18 + l.val, by omega⟩).toInt
def Bank.strideC (b : Bank) (l : Fin 6) : Int := (b.field ⟨0x20 + l.val, by omega⟩).toInt
/-- The step-and-flags field of a level. -/
def Bank.stepField (b : Bank) (l : Fin 6) : W64 := b.field ⟨0x28 + l.val, by omega⟩

/-- The product of the counts of the levels below one. -/
def Bank.below (b : Bank) (l : Nat) : Nat := (levels.filter fun k => k.val < l).foldl (fun n k => n * b.count k) 1

/-- The steps of a nest: none when its six counts are all 0 (R182). -/
def Bank.steps (b : Bank) : Nat := if levels.all fun l => (b.countField l).toNat % 2 ^ 32 == 0 then 0 else b.below 6

/-- The pair of operand types is one of R186. -/
def pairOk (a b : Option ElemTy) : Bool :=
  match a, b with
  | some .bf16, some .bf16 | some .i8, some .i8 | some .l6, some .l6 => true
  | some a, some b => (a == .e4m3 || a == .e5m2) && (b == .e4m3 || b == .e5m2)
  | _, _ => false

/-- The checks of R186. -/
def Bank.invalid (b : Bank) : Bool :=
  !pairOk (ElemTy.ofCode b.typeA) (ElemTy.ofCode b.typeB) || b.drainType == 7 || b.fmt / 2 ^ 23 % 2 ^ 9 != 0
    || levels.any (fun l => (b.countField l).toNat / 2 ^ 32 != 0 || (b.stepField l).toNat / 8 % 2 ^ 5 != 0
        || (b.stepField l).toNat / 2 ^ 9 != 0)
    || 2 ^ 48 < b.below 6
    || b.ringDrain && (b.drainMode == 2 || b.drainMode == 3 || (b.field 2).toNat / 16 != 0)

/-- The loop index of a level at step s. -/
def Bank.index (b : Bank) (s : Nat) (l : Fin 6) : Nat := s / b.below l.val % b.count l
/-- The sum over the levels of index times stride. -/
def Bank.along (b : Bank) (s : Nat) (f : Fin 6 → Int) : Int := levels.foldl (fun n l => n + b.index s l * f l) 0
/-- The tile of step s. -/
def Bank.tileOf (b : Bank) (s : Nat) : AccReg :=
  BitVec.ofNat 3 (levels.foldl (fun n l => n + b.index s l * ((b.stepField l).toNat % 8)) b.accstart)
/-- The loop of a level with its drain flag set ends at step s. -/
def Bank.drainsAt (b : Bank) (s : Nat) : Bool :=
  levels.any fun l => (b.stepField l).getLsbD 8 && (s + 1) % b.below (l.val + 1) == 0

/-! ### Operands of a step (R187, R188) -/

/-- A byte of an operand as a step reads it. -/
structure OpByte where
  v : Nat := 0
  psn : Bool := false
  mst : BitVec 8 := 0
  den : Option Int := none
  deriving Repr

/-- One byte at a distance from an operand's pointer, with the answers to the step's line requests. -/
def State.opByte (s : State) (g : Nat) (p : EPtr) (l : Fates) (d : Int) : OpByte :=
  match s.eptrByte g p readRights ByteFail.readBit d with
  | .ok loc =>
    match s.fateOf l g loc false (s.eptrVia g p) with
    | .ok => { v := (s.answeredByte l loc).1.toNat, psn := (s.answeredByte l loc).2 }
    | _ => { psn := true }
  | .error b => { mst := b, den := if b = mDnr then some d else none }

/-- An operand pointer of a nest: only a token pointer is one (R187). -/
def State.nestPtr (s : State) (g : Nat) (p : W64) (k : Option Token) : EPtr :=
  match s.eptr g p k with
  | .token path pol t off => .token path pol t off
  | _ => .stray

/-- An element formed from its bytes. -/
structure OpElem where
  bits : Nat := 0
  psn : Bool := false
  deriving Repr

/-- The byte distances of element i of a row at a distance, of a type. -/
def elemDists (t : ElemTy) (row : Int) (i : Nat) : List Int :=
  (List.range (imageBytes t i).2).map fun (j : Nat) => row + ((imageBytes t i).1 + j : Nat)

/-- Reads element i of a row. -/
def State.opElem (s : State) (g : Nat) (p : EPtr) (f : Fates) (t : ElemTy) (row : Int) (i : Nat) : OpElem :=
  let l := (elemDists t row i).map (s.opByte g p f)
  { bits := elemOfImage t i (l.foldr (fun b n => b.v + 256 * n) 0), psn := l.any (·.psn) }

/-- The rows of an operand: its pointer, its type, the distances of its rows and the elements of a row. -/
structure OpRows where
  p : EPtr
  t : ElemTy
  rows : List Int
  n : Nat
  deriving Repr

/-- Bytes of a packed or plain row of n elements. -/
def rowBytes (t : ElemTy) (n : Nat) : Nat :=
  match t with
  | .l6 => 3 * n / 4
  | _ => n * (elemWidth t / 8)

/-- The distances of all the bytes of an operand. -/
def OpRows.dists (o : OpRows) : List Int :=
  (o.rows.map fun r => (List.range (rowBytes o.t o.n)).map fun (j : Nat) => r + (j : Int)).flatten

/-- The locations of an operand's bytes. -/
def State.opLocs (s : State) (g : Nat) (o : OpRows) : List Nat :=
  o.dists.filterMap fun d => (s.eptrByte g o.p readRights ByteFail.readBit d).toOption

/-- The tile fetch goes through L2 for an operand (R195): by policies 0 to 2 on an ordinary extent. -/
def EPtr.throughL2 : EPtr → Bool
  | .token _ pol t _ => !t.ms && !t.host && pol != 3
  | _ => false

/-- The plan of a step's fetch of an operand (R194, R195, R236): through L2 each line of A and B is read once and as a whole, a line
of the core's die when the step acts, and is pinned if the operand's are; other bytes are independent (R249). -/
def State.opPlan (s : State) (g : Nat) (whole pinned : Bool) (o : OpRows) : Plan :=
  let p := s.readPlan g (s.eptrVia g o.p) o.p.pte (s.opLocs g o) (pinned && o.p.throughL2)
  if whole && o.p.throughL2 then { p with reads := [] } else p

/-- The plan of a step's fetch: A, which MV mode does not pin (R193), B, and the scale record. -/
def State.stepPlan (s : State) (g : Nat) (mv : Bool) (a b : OpRows) (sc : Option OpRows) : Plan :=
  let ab := (s.opPlan g true (!mv) a).join (s.opPlan g true true b)
  match sc with
  | some o => ab.join (s.opPlan g false false o)
  | none => ab

/-- The failing lines of the operands of a step are counted (R245). -/
def State.countOps (s : State) (g : Nat) (f : Fates) (l : List OpRows) : State :=
  l.foldl (fun (s : State) o => s.countLines f g false (s.eptrVia g o.p) (s.opLocs g o)) s

/-- The mstat bits and the denied distances of an operand. -/
def State.opFaults (s : State) (g : Nat) (o : OpRows) : BitVec 8 × List Int :=
  o.dists.foldl (fun (a : BitVec 8 × List Int) d =>
    let b := s.opByte g o.p {} d
    (a.1 ||| b.mst, match b.den with | some d => a.2 ++ [d] | none => a.2)) (0, [])

/-! ### The arithmetic of a step (R53, R68, R197) -/

/-- The exact product of two operand elements (R56, R68): that of two integers has no sign of zero. -/
def prodOf (ta tb : ElemTy) (a b : Nat) : Fl :=
  match ta with
  | .l6 => l6Prod a b
  | .i8 => Fl.ofInt (toSigned 8 a * toSigned 8 b)
  | _ => ((elemValue ta a).mul (elemValue tb b)).1

/-- A product times the scales of its row and column (R53); no scale is 1. -/
def scaleProd (x : Fl) : Option (Nat × Nat) → Fl
  | none => x
  | some (a, b) =>
    if a == 255 || b == 255 then .nan false false
    else match x with
      | .fin n m e => .fin n m (e + (a : Int) + b - 254)
      | y => y

/-- The two draws of element (i, j) of step s of the nest numbered z (R197). -/
def stepDraws (z s i j : Nat) : W32 × W32 :=
  let x := BitVec.ofNat 32 z ^^^ BitVec.ofNat 32 (s * 0x9E3779B9) ^^^ (BitVec.ofNat 32 i <<< 20) ^^^ (BitVec.ofNat 32 j <<< 10)
  let x := if x = 0 then 0x13579BDF else x
  let d1 := xorShift x
  (d1, xorShift d1)

/-- The new value of an element of a tile, with its flags: the block sum is rounded, and added to the held value unless the
step opens the tile from zero (R68, R190). -/
def stepElem (rm : RMode) (d : W32 × W32) (zero : Bool) (acc : Nat) (sum : Fl × FFlags) : Nat × FFlags :=
  let (x, f1) := sum
  let (b, f2) := roundTo .f32 rm d.1.toNat x
  if zero then (b, f1 ||| f2)
  else
    let (y, f3) := (elemValue .f32 acc).add rm (elemValue .f32 b)
    let (r, f4) := roundTo .f32 rm d.2.toNat y
    (r, f1 ||| f2 ||| f3 ||| f4)

/-- The rounding mode of a code. -/
def rmOf (m : BitVec 3) : RMode := (RMode.ofCode m).getD .rne

/-! ### What waits (R189, R190, R196) -/

/-- The nest that has steps left. -/
def CtxSet.running_ (t : CtxSet) : Option Nest := t.nests.find? fun n => n.s < n.total

/-- The next step of a nest opens its tile, and whether from zero (R190). -/
def Nest.opening (n : Nest) : Bool × Bool :=
  let k := vget n.tiles (n.bank.tileOf n.s)
  (!k.open_, !n.bank.onto || k.drained)

/-- The tile of an opening step is in the state it waits for. -/
def CtxSet.stepReady (t : CtxSet) (n : Nest) : Bool :=
  let a := n.bank.tileOf n.s
  let (opens, zero) := n.opening
  !opens || ((vget t.tile a).st == (if zero then .empty else .full) && t.drains.all fun d => d.tile != a)

/-- The drain at the head of the drain unit waits for a slot of its ring: a slot is complete, or is its tile's last (R192). -/
def CtxSet.drainWaits (t : CtxSet) : Bool :=
  match t.drains with
  | [] => false
  | d :: _ =>
    match d.ring with
    | some h =>
      let r := vget t.ring h
      !r.unset && r.producer == 2 && (r.slotSize ≤ d.part.length || (64 ≤ d.row && !d.part.isEmpty)) && r.free == 0
    | none => false

/-- The matrix queue is held: a nest or drain waits, or a request is stalled (R189, R201). A later entry is not ordered after
the rows of a drain (R196). -/
def CtxSet.matHeld (t : CtxSet) : Bool :=
  (match t.running_ with | some n => !t.stepReady n | none => false) || t.drainWaits
    || t.engStalls.any fun x => x.src == .mat

/-- An earlier mdrain has rows of a tile left, so a later entry of the queue that acts on the tile waits for it: the queue's
entries act in order (R196; DEDUCED, log entry 17). -/
def CtxSet.tileDue (t : CtxSet) (a : AccReg) : Bool := t.drains.any fun d => !d.nest && d.tile == a

/-- Sets the state of a tile. -/
def CtxSet.setTile (t : CtxSet) (a : AccReg) (x : Tile) : CtxSet := { t with tile := vset t.tile a x }
def CtxSet.tileState (t : CtxSet) (a : AccReg) (st : TileSt) : CtxSet := t.setTile a { vget t.tile a with st := st }

/-- A matrix entry completes on tlm, and what it captured is released. -/
def State.matDone (s : State) (g : Nat) (e : Entry) (fl : BitVec 5) (mst : BitVec 8) (fail : FailRec) (old : List Token) : State :=
  (s.updAct g fun t => t.completeEntry e fl mst fail).releaseAll g (e.tokens ++ old)

/-! ### The queue (R196) -/

/-- Writes a field of the filling bank, with the captured token of fields 0 to 3 (R203). -/
def Bank.write (b : Bank) (f : BitVec 7) (v : W64) (k : Option Token) : Bank :=
  { f := vset b.f (f.setWidth 6 : BitVec 6) v
    cap := if f.toNat ≤ 3 then vset b.cap (f.setWidth 2 : BitVec 2) k else b.cap }

/-- The accumulator row of zeros, and a tile of +0. -/
def zeroTile : Tile := { st := .full }

/-- MATRIX_ENTRY_EXECUTE: the entry at the head of the queue executes, but for an mgo, or waits (R196, R203, R205 to R207,
R209). -/
def execMatrixEntryExecute (g : Nat) (s : State) : Out :=
  let t := s.aset g
  match t.mq with
  | [] => .next s
  | e :: rest =>
    if t.leaving || t.matHeld then .next s
    else
      let pop (s : State) : State := s.updAct g fun t => { t with mq := rest }
      match e.instr with
      | .mcfg f _ =>
        let old := t.filling.cap.toList.reduceOption
        let s := (pop s).updAct g fun t => { t with filling := t.filling.write f e.x0 e.k0 }
        .next (s.matDone g e 0 0 {} old)
      | .mrnd rm => .next (((pop s).updAct g fun t => { t with mmode := rm.code }).matDone g e 0 0 {} [])
      | .mzero a =>
        if (vget t.tile a).st == .busy || t.tileDue a then .next s
        else .next (((pop s).updAct g fun t => t.setTile a zeroTile).matDone g e 0 0 {} [])
      | .mdrain a mode _ _ =>
        if (vget t.tile a).st != .full || t.tileDue a then .next s
        else if t.filling.drainType == 7 then
          .next (((pop s).updAct g fun t => t.tileState a .empty).matDone g e 0 mStray {} [])
        else
          let j : DrainJob :=
            { e := e, nest := false, tile := a, mode := mode.code, ty := t.filling.drainType, ptr := e.x0, tok := e.k0, off := 0
              ld := (t.filling.field 7).toInt, clamp := e.x1.setWidth 32 }
          .next ((pop s).updAct g fun t => { t with drains := t.drains ++ [j] })
      | .mchk _ =>
        if !t.nests.isEmpty then .next s
        else
          let v : W64 := t.chkStep ++ t.chkElem
          let s := (pop s).updAct g fun t => { t with chkElem := 0, chkStep := 0 }
          .next ((s.deliver g e v).matDone g e 0 0 {} [])
      | _ => .next s

/-- MGO_LAUNCH: the mgo at the head of the queue launches when no earlier nest has steps left (R186, R196, R204). -/
def execMgoLaunch (g : Nat) (s : State) : Out :=
  let t := s.aset g
  match t.mq with
  | [] => .next s
  | e :: rest =>
    match e.instr with
    | .mgo =>
      if t.leaving || t.matHeld || t.running_.isSome then .next s
      else
        let old := t.running.cap.toList.reduceOption
        let s := s.updAct g fun t => { t with mq := rest, running := t.filling }
        if t.filling.invalid then .next (s.matDone g e 0 mStray {} old)
        else if t.filling.steps = 0 then .next (s.matDone g e 0 0 {} old)
        else
          let n : Nest := { e := e, bank := t.filling, mode := t.mmode, total := t.filling.steps }
          .next ((s.updAct g fun t => { t with nests := t.nests ++ [n] }).releaseAll g old)
    | _ => .next s

/-! ### A step (R182, R187 to R190, R193, R194, R197, R199 to R201) -/

/-- Replaces a nest by its number. -/
def CtxSet.putNest (t : CtxSet) (n : Nest) : CtxSet :=
  { t with nests := t.nests.map fun y => if y.e.num = n.e.num then n else y }

/-- The tiles a nest holds BUSY become FULL (R189, R201). -/
def CtxSet.closeTiles (t : CtxSet) (n : Nest) : CtxSet :=
  (List.range 8).foldl (fun (t : CtxSet) i =>
    if (vget n.tiles (BitVec.ofNat 3 i)).open_ then t.tileState (BitVec.ofNat 3 i) .full else t) t

/-- A nest whose last step has entered its tile completes when its drains have been performed (R198). -/
def State.nestDone (s : State) (g : Nat) (num : Nat) : State :=
  match (s.aset g).nests.find? fun n => n.e.num = num with
  | none => s
  | some n =>
    if n.s < n.total || (s.aset g).drains.any (fun d => d.nest && d.e.num = num) then s
    else
      (s.updAct g fun t => { t with nests := t.nests.filter fun y => y.e.num != num }).matDone g n.e n.flags n.mst n.fail
        (n.bank.cap.toList.reduceOption)

/-- A nest stops: no step of it remains, and its BUSY tiles become FULL (R200, R201). -/
def CtxSet.stopNest (t : CtxSet) (n : Nest) : CtxSet :=
  let n' := { n with s := n.total, tiles := n.tiles.map fun k => { k with open_ := false } }
  (t.closeTiles n).putNest n'

/-- The later matrix work of a context in progress is discarded with a withdrawn command (R127, R201). -/
def CtxSet.dropLater (t : CtxSet) (e : Entry) : CtxSet :=
  let gone (y : Entry) : Bool := y.who == e.who && e.num ≤ y.num
  let nests := t.nests.filter fun n => gone n.e
  let jobs := t.drains.filter fun d => gone d.e
  let t := nests.foldl (fun (t : CtxSet) n => t.closeTiles n) t
  let t := jobs.foldl (fun (t : CtxSet) d => t.tileState d.tile .full) t
  let t := { t with nests := t.nests.filter (fun n => !gone n.e), drains := t.drains.filter fun d => !gone d.e }
  let t := nests.foldl (fun (t : CtxSet) n => t.completeEntry n.e n.flags (n.mst ||| mWdr) n.fail) t
  (jobs.filter fun d => !d.nest).foldl (fun (t : CtxSet) d => t.completeEntry d.e d.flags (d.mst ||| mWdr) d.fail) t

/-- Changes the drain at the head of the drain unit. -/
def CtxSet.putDrain (t : CtxSet) (f : DrainJob → DrainJob) : CtxSet :=
  { t with drains := t.drains.mapIdx fun i d => if i = 0 then f d else d }

/-- The drain unit has begun to write a row of its head drain. -/
def State.rowBegun (s : State) (g : Nat) : Bool :=
  match (s.aset g).drains with
  | [] => false
  | d :: _ => s.begun g (s.aset g).sid (.row d.tile)

/-- A nest or an mdrain is withdrawn at a request (R127, R201), once the row that the drain unit has begun is written. The answers to
the step of a nest that goes with it are not used. -/
def State.withdrawMat (s : State) (g : Nat) (e : Entry) (pte : BitVec 20) : State :=
  if s.rowBegun g then s
  else
    let t := s.aset g
    let old := t.tokens
    let s := if t.running_.any fun n => n.e.who == e.who && e.num ≤ n.e.num then s.orphan g t.sid (· == .step) else s
    ((s.updAct g fun t => ((t.dropLater e).unstall .mat e.who).unstall .mat e.who true).withdrawCmd g e pte).releaseAll g old

/-- The operands of a step, A, B and the scale record if it has one. -/
def State.stepRows (s : State) (g : Nat) (n : Nest) : OpRows × OpRows × Option OpRows :=
  let b := n.bank
  let ta := (ElemTy.ofCode b.typeA).getD .i8
  let tb := (ElemTy.ofCode b.typeB).getD .i8
  let aoff := b.along n.s b.strideA
  let boff := b.along n.s b.strideB
  let rows (off ld : Int) (k : Nat) : List Int := (List.range k).map fun (i : Nat) => off + i * ld
  ({ p := s.nestPtr g (b.field 0) (nget b.cap 0), t := ta, rows := rows aoff (b.field 5).toInt 64, n := 32 },
   if b.mv then
     { p := s.nestPtr g (b.field 1) (nget b.cap 1), t := tb, rows := rows boff (b.field 6).toInt (b.batch + 1), n := 32 }
   else { p := s.nestPtr g (b.field 1) (nget b.cap 1), t := tb, rows := rows boff (b.field 6).toInt 32, n := 64 },
   if b.scaled then
     some { p := s.nestPtr g (b.field 3) (nget b.cap 3), t := .i8, rows := [128 * (n.s : Int)], n := 128 }
   else none)

/-- The values of a step: the elements of A (row, k) and B (k, column), the scales, and the poison of each row. -/
structure StepVals where
  a : Array OpElem
  b : Array OpElem
  sc : Option (Array OpElem)
  deriving Repr

/-- Reads the operands of a step. -/
def State.stepVals (s : State) (g : Nat) (mv : Bool) (f : Fates) (a b : OpRows) (sc : Option OpRows) : StepVals :=
  let all (f : Fates) (o : OpRows) : Array OpElem :=
    ((o.rows.map fun r => (List.range o.n).map (s.opElem g o.p f o.t r)).flatten).toArray
  let lines (o : OpRows) : Fates := if o.p.throughL2 then { f with got := [] } else f
  let bs := all (lines b) b
  { a := all (lines a) a
    b := if mv then ((List.range 32).map fun k => (List.range 64).map fun n => bs.getD (32 * n + k) {}).flatten.toArray else bs
    sc := sc.map (all f) }

/-- The products of element (i, j) of a step. -/
def StepVals.products (v : StepVals) (ta tb : ElemTy) (i j : Nat) : List Fl :=
  let sc := v.sc.map fun x => ((x.getD i {}).bits, (x.getD (64 + j) {}).bits)
  (List.range 32).map fun k => scaleProd (prodOf ta tb (v.a.getD (32 * i + k) {}).bits (v.b.getD (64 * k + j) {}).bits) sc

/-- Row i of a step reads a poisoned operand, among its columns. -/
def StepVals.rowPoisoned (v : StepVals) (cols i : Nat) : Bool :=
  (List.range 32).any (fun k => (v.a.getD (32 * i + k) {}).psn || (List.range cols).any fun j => (v.b.getD (64 * k + j) {}).psn) ||
    (match v.sc with
     | some x => (x.getD i {}).psn || (List.range cols).any fun j => (x.getD (64 + j) {}).psn
     | none => false)

/-- The block sums of a step, by row and column (R68). -/
abbrev Sums := Nat → Nat → Fl × FFlags

/-- The exact block sums of a step. -/
def StepVals.exact (v : StepVals) (ta tb : ElemTy) (rm : RMode) : Sums := fun i j => exactSum rm (v.products ta tb i j)

/-- Row i of the tile after the step, with its flags, from the block sums. -/
def Sums.row (x : Sums) (n : Nest) (zero : Bool) (i : Nat) (old : BitVec 2048) : BitVec 2048 × FFlags :=
  let cols := if n.bank.mv then n.bank.batch + 1 else 64
  let l := (List.range 64).map fun j =>
    if j < cols then stepElem (rmOf n.mode) (stepDraws n.e.num n.s i j) zero (elem old .f32 j) (x i j)
    else (if zero then 0 else elem old .f32 j, 0)
  (packLanes 32 (l.map (·.1)), l.foldl (fun f x => f ||| x.2) 0)

/-- Denial records of a nest's operands (R121): one for each denied granule that its command has not recorded yet. -/
def State.nestDenials (s : State) (w : Who) (n : Nest) (p : EPtr) (ds : List Int) : State × Nest :=
  let (s, lg) := s.engineDenials w p 7 n.logged (ds.map p.offset)
  (s, { n with logged := lg })

/-! ### The check of a step (R199, R200) -/

/-- An element is neither a NaN nor an infinity. -/
def finiteElem (t : ElemTy) (n : Nat) : Bool :=
  match t with
  | .l6 | .i8 => true
  | t => match elemValue t n with
    | .fin .. => true
    | _ => false

/-- The rows of A, and the columns of B, that the check lanes compare: those with finite operands and scales (R199). -/
def StepVals.checked (v : StepVals) (ta tb : ElemTy) (cols : Nat) : List Nat × List Nat :=
  let scale (i : Nat) : Bool := match v.sc with
    | some x => (x.getD i {}).bits != 255
    | none => true
  ((List.range 64).filter fun i => scale i && (List.range 32).all fun k => finiteElem ta (v.a.getD (32 * i + k) {}).bits,
   (List.range cols).filter fun j => scale (64 + j) && (List.range 32).all fun k => finiteElem tb (v.b.getD (64 * k + j) {}).bits)

/-- The modulus of the check (R199). -/
def checkP : Nat := 2 ^ 61 - 1

/-- The checkResidue of an exact value n * 2^e (R199). -/
def checkResidue : Fl → Nat
  | .fin neg m e => (((if neg then -(m : Int) else m) * 2 ^ (e % 61).toNat) % (checkP : Int)).toNat
  | _ => 0

/-- A value with a scale folded into it (R53, R199). -/
def foldScale (x : Fl) : Option Nat → Fl
  | some a => match x with
    | .fin n m e => .fin n m (e + a - 127)
    | y => y
  | none => x

/-- Element (i, k) of A, and element (k, j) of B, as the check lanes take them. -/
def StepVals.checkA (v : StepVals) (t : ElemTy) (i k : Nat) : Fl :=
  foldScale (elemValue t (v.a.getD (32 * i + k) {}).bits) (v.sc.map fun x => (x.getD i {}).bits)
def StepVals.checkB (v : StepVals) (t : ElemTy) (k j : Nat) : Fl :=
  foldScale (elemValue t (v.b.getD (64 * k + j) {}).bits) (v.sc.map fun x => (x.getD (64 + j) {}).bits)

/-- A sum of residues. -/
def sumP (l : List Nat) : Nat := l.sum % checkP

/-- What the check lanes expect of the sums of row i over some columns, from the operands (R199); l6 products are those of R56. -/
def StepVals.rowWants (v : StepVals) (ta tb : ElemTy) (cols : List Nat) (i : Nat) : Nat :=
  match ta with
  | .l6 => sumP (cols.map fun j => sumP ((v.products ta tb i j).map checkResidue))
  | _ => sumP ((List.range 32).map fun k =>
      checkResidue (v.checkA ta i k) * checkResidue (exactSum .rne (cols.map (v.checkB tb k))).1)

/-- What they expect of the sums of column j over some rows. -/
def StepVals.colWants (v : StepVals) (ta tb : ElemTy) (rows : List Nat) (j : Nat) : Nat :=
  match ta with
  | .l6 => sumP (rows.map fun i => sumP ((v.products ta tb i j).map checkResidue))
  | _ => sumP ((List.range 32).map fun k =>
      checkResidue (exactSum .rne (rows.map fun i => v.checkA ta i k)).1 * checkResidue (v.checkB tb k j))

/-- The soft errors of a pass of a step: elements of the array's sums that come out wrong, with the error of each, and check lanes
that report a mismatch of themselves, the row lanes before the column lanes from 64 on. -/
structure Upset where
  elems : List (Nat × Nat × Nat) := []
  lanes : List Nat := []
  deriving DecidableEq, Repr

/-- The block sums as the array forms them. -/
def Sums.struck (x : Sums) (u : Upset) : Sums := fun i j =>
  match u.elems.find? fun e => e.1 = i && e.2.1 = j with
  | some e => ((exactSum .rne [(x i j).1, .ofInt e.2.2]).1, (x i j).2)
  | none => x i j

/-- The rows and the columns that mismatch, among those compared (R199). -/
def StepVals.mismatch (v : StepVals) (ta tb : ElemTy) (rows cols : List Nat) (x : Sums) (lanes : List Nat) : List Nat × List Nat :=
  (rows.filter fun i => sumP (cols.map fun j => checkResidue (x i j).1) != v.rowWants ta tb cols i || lanes.contains i,
   cols.filter fun j => sumP (rows.map fun i => checkResidue (x i j).1) != v.colWants ta tb rows j || lanes.contains (64 + j))

/-- Element n of a list, counted round. -/
def around (l : List Nat) (n : Nat) : Nat := l.getD (n % l.length) 0

/-- The soft error that strikes a pass of a step, whose place and amount are left to the hardware (log entry 22): an element of a
compared row and column; or two elements of two such rows, or a check lane. -/
def State.upset (s : State) (f : StepFault) (rows cols : List Nat) : Upset × State :=
  if f == .none || rows.isEmpty && cols.isEmpty then ({}, s)
  else
    let (n, s) := s.choose
    let amount (n : Nat) : Nat := n % (checkP - 1) + 1
    if f == .element then
      (if rows.isEmpty || cols.isEmpty then {}
       else { elems := [(around rows n, around cols (n / 64), amount (n / 2 ^ 12))] }, s)
    else if n % 2 == 1 && 2 ≤ rows.length && !cols.isEmpty then
      let other := around (rows.filter (· != around rows (n / 2))) (n / 2 ^ 7)
      ({ elems := [(around rows (n / 2), around cols (n / 2 ^ 13), amount (n / 2 ^ 25)),
                   (other, around cols (n / 2 ^ 19), amount (n / 2 ^ 86))] }, s)
    else ({ lanes := [around (rows ++ cols.map (64 + ·)) (n / 2)] }, s)

/-- What the check of a step does (R200): the sums that enter the tile, whether an element was corrected, whether the step was
recomputed, and the rows that mismatch again, which are all when only columns do. -/
structure Checked where
  sums : Sums
  elem : Bool := false
  step : Bool := false
  bad : List Nat := []

/-- The check of a step (R199, R200): the one element that mismatches in its row and its column is computed again; with another
pattern the whole step is computed and checked again. -/
def State.checkStep (s : State) (v : StepVals) (ta tb : ElemTy) (cols : Nat) (rm : RMode) (f : StepFault) : Checked × State :=
  let (r, c) := v.checked ta tb cols
  let x := v.exact ta tb rm
  let (u, s) := s.upset f r c
  match v.mismatch ta tb r c (x.struck u) u.lanes with
  | ([], []) => ({ sums := x.struck u }, s)
  | ([i], [j]) => ({ sums := fun i' j' => if i' = i && j' = j then x i j else x.struck u i' j', elem := true }, s)
  | _ =>
    let (u, s) := s.upset (if f == .double then f else .none) r c
    let bad := match v.mismatch ta tb r c (x.struck u) u.lanes with
      | ([], []) => []
      | ([], _) => List.range 64
      | (l, _) => l
    ({ sums := x.struck u, step := true, bad := bad }, s)

/-- A saturating counter rises by 1. -/
def satInc (x : W32) : W32 := if x = 0xFFFFFFFF then x else x + 1

/-- A nest leaves its step with the flags and mstat bits that the step set (R197, R198). -/
def Nest.stepped (n : Nest) (a : AccReg) (fl : FFlags) (mst : BitVec 8) : Nest :=
  let k := vget n.tiles a
  { n with
    s := n.s + 1
    tiles := vset n.tiles a { k with open_ := true, coff := n.bank.along n.s n.bank.strideC }
    flags := n.flags ||| fl, mst := n.mst ||| mst }

/-- The drains that a nest calls at the end of a step, in ascending tile index (R191). -/
def Nest.drainJobs (n : Nest) : List DrainJob :=
  let b := n.bank
  if b.drainMode == 0 then []
  else (List.range 8).filterMap fun i =>
    let a : AccReg := BitVec.ofNat 3 i
    let k := vget n.tiles a
    if k.open_ then
      some { e := n.e, nest := true, tile := a, mode := b.drainMode, ty := b.drainType, ptr := b.field 2, tok := nget b.cap 2
             off := k.coff, ld := (b.field 7).toInt, clamp := b.clamp
             ring := if b.ringDrain then some ((b.field 2).setWidth 4) else none }
    else none

/-- A step is over, and its nest goes on: it stops at poison or a second mismatch (R200), or its drains begin at a group's end (R191,
R204), and after its last step it closes its tiles (R190). -/
def State.stepEnds (s : State) (g : Nat) (n : Nest) (t : CtxSet) (stop : Bool) : State :=
  if stop then ((s.updAct g fun t => t.stopNest n).consume g t 0).nestDone g n.e.num
  else
    let jobs := if n.bank.drainsAt (n.s - 1) then n.drainJobs else []
    let n := { n with tiles := if jobs.isEmpty then n.tiles else n.tiles.map fun k =>
      if k.open_ then { k with open_ := false, drained := true } else k }
    let s := s.updAct g fun t => { t.putNest n with drains := t.drains ++ jobs }
    let s := if n.s < n.total then s
      else s.updAct g fun t => (t.closeTiles n).putNest { n with tiles := n.tiles.map fun k => { k with open_ := false } }
    s.nestDone g n.e.num

/-- A step whose lines have been answered is performed, struck by a soft error f, and checked (R182, R187 to R190, R194, R199,
R200); it calls the drains of the levels that end with it (R191). Rows of a second mismatch hold free values (log entry 22). -/
def State.performStep (s : State) (g : Nat) (n : Nest) (l : Fates) (f : StepFault) : State :=
  let t := s.aset g
  let w : Who := ⟨g, t.sid, n.e.who⟩
  let (ra, rb, rs) := s.stepRows g n
  let ops := ra :: rb :: rs.toList
  let a := n.bank.tileOf n.s
  let zero := n.opening.1 && n.opening.2
  let v := s.stepVals g n.bank.mv l ra rb rs
  let cols := if n.bank.mv then n.bank.batch + 1 else 64
  let tile := vget t.tile a
  let (ck, s) := s.checkStep v ra.t rb.t cols (rmOf n.mode) f
  let rows := (List.range 64).map fun i => ck.sums.row n zero i (vget tile.rows (BitVec.ofNat 6 i))
  let eaten := (List.range 64).filter (v.rowPoisoned cols)
  let faults := ops.map (s.opFaults g)
  let s := s.countOps g l ops
  let pois := (eaten ++ ck.bad).foldl (fun (m : BitVec 64) i => m ||| (1#64 <<< i)) (if zero then 0 else tile.pois)
  let seed := s.nextId
  let s := if ck.bad.isEmpty then s else { s with nextId := s.nextId + 64 }
  let newRow (i : Nat) : BitVec 2048 := if ck.bad.contains i then Config.faultRow (seed + i) else (rows.getD i (0, 0)).1
  let tile' : Tile := { st := .busy, rows := Vector.ofFn fun i => newRow i.val, pois := pois }
  let (s, n) := (ops.zip faults).foldl (fun (x : State × Nest) o => x.1.nestDenials w x.2 o.1.p o.2.2) (s, n)
  let stop := !ck.bad.isEmpty || !eaten.isEmpty
  let n := n.stepped a (rows.foldl (fun fl r => fl ||| r.2) 0)
    (faults.foldl (fun m o => m ||| o.1) (if stop then mPsn else 0))
  let s := s.updCore g fun c => { c with matSteps := c.matSteps + 1 }
  let s := s.updAct g fun t =>
    { (t.setTile a tile').unstall .mat n.e.who with
      chkElem := if ck.elem then satInc t.chkElem else t.chkElem
      chkStep := if ck.step then satInc t.chkStep else t.chkStep }
  s.stepEnds g n t stop

/-- MATRIX_STEP: the next step of the running nest is performed, when its tile is in the state it needs (R182, R190, R194) and its
lines have been answered (R236), and is checked, struck by the soft error f (R199, R200). A set that leaves its core begins no
step (R202). -/
def execMatrixStep (g : Nat) (f : StepFault) (s : State) : Out :=
  let t := s.aset g
  match t.running_ with
  | none => .next s
  | some n =>
    let begun := s.begun g t.sid .step
    if !begun && (t.leaving || !t.stepReady n) then .next s
    else
      let (ra, rb, rs) := s.stepRows g n
      let ops := ra :: rb :: rs.toList
      match if begun then none else (ops.map (·.p)).find? fun p => s.eptrCheck g p != .go with
      | some p =>
        (match s.eptrCheck g p with
         | .withdrawn => .next (s.withdrawMat g n.e (p.pte.getD 0))
         | _ => .next (s.engineStall g .mat n.e.who (p.pte.getD 0)))
      | none =>
        match s.carry ⟨g, t.sid, n.e.who⟩ t.reqtag .step (s.stepPlan g n.bank.mv ra rb rs) with
        | (none, s) => .next s
        | (some l, s) => .next (s.performStep g n l f)

/-! ### Drain rows (R191, R192, R207, R208) -/

/-- The aligned elements of n bytes of which an access has read one byte and not the next, among bytes whose locations are left
where they have still to be read. -/
def halfElems (n : Nat) : List (Option Nat) → List Nat
  | some l :: none :: r => (if (l + 1) / n = l / n then [l / n] else []) ++ halfElems n (none :: r)
  | none :: some l :: r => (if 0 < l && (l - 1) / n = l / n then [l / n] else []) ++ halfElems n (some l :: r)
  | _ :: r => halfElems n r
  | [] => []

/-- Those of one list of locations read and another still to be read. -/
def halfOf (n : Nat) (done todo : List Nat) : List Nat := (todo.map (· / n)).filter fun e => done.any fun l => l / n = e

/-- Those of the accesses of a set: the loads of its contexts, its V entry, and its stream commands. -/
def CtxSet.halfElems (t : CtxSet) (n : Nat) : List Nat :=
  (t.ctx.toList.map fun x => match x.hold with
    | .load _ _ bytes => Machine.halfElems n (bytes.map fun b => match b with | .due l _ _ => some l | _ => none)
    | _ => []).flatten
  ++ (((t.vprog.elems.getD []).map fun x => Machine.halfElems n (x.bytes.map VByte.loc)).flatten)
  ++ ((t.srun.toList.flatten.map fun r => (r.flying.map fun f => halfOf n f.read (f.src.filterMap ByteRef.loc)).flatten).flatten)

/-- Some access has read a part, and not the rest, of an aligned element of n bytes at one of some locations (R266). -/
def State.halfRead (s : State) (n : Nat) (locs : List Nat) : Bool :=
  decide (1 < n) && s.cores.any fun e =>
    ((e.2.allSets.map (·.halfElems n)).flatten ++ (e.2.xfers.map fun x => halfOf n (x.got.map (·.1)) x.todo).flatten).any fun x =>
      locs.any fun l => l / n = x

/-- A drain has ended: its tile becomes EMPTY, and the command completes if this was its last (R191, R198, R207). -/
def State.drainEnd (s : State) (g : Nat) (j : DrainJob) : State :=
  let s := s.updAct g fun t =>
    { t.tileState j.tile .empty with drains := t.drains.tail }
  if j.nest then s.nestDone g j.e.num else s.matDone g j.e j.flags j.mst j.fail []

/-- Adds what a row sets to its command: the nest's or the mdrain's own. -/
def CtxSet.noteDrain (t : CtxSet) (j : DrainJob) (fl : FFlags) (mst : BitVec 8) (fail : FailRec) (logged : List Nat) : CtxSet :=
  if j.nest then
    { t with nests := t.nests.map fun n =>
      if n.e.num = j.e.num then
        { n with flags := n.flags ||| fl, mst := n.mst ||| mst, fail := n.fail.join fail, logged := n.logged ++ logged }
      else n }
  else t.putDrain fun d =>
    { d with flags := d.flags ||| fl, mst := d.mst ||| mst, fail := d.fail.join fail, logged := d.logged ++ logged }

/-- The denied granules already recorded for a drain's command. -/
def CtxSet.drainLogged (t : CtxSet) (j : DrainJob) : List Nat :=
  if j.nest then ((t.nests.find? fun n => n.e.num = j.e.num).map (·.logged)).getD [] else j.logged

/-- The image of a row of elements in memory (R191): packed for l6. -/
def rowImage (ty : ElemTy) (els : List Nat) : List Byte :=
  match ty with
  | .l6 => leBytes 48 (els.foldr (fun n acc => n % 64 + 64 * acc) 0)
  | _ => (els.map fun n => leBytes (elemWidth ty / 8) n).flatten

/-- The byte distances of a row. -/
def DrainJob.dists (j : DrainJob) (ty : ElemTy) : List Int :=
  (List.range (rowBytes ty 64)).map fun (b : Nat) => j.off + j.row * j.ld + (b : Int)

/-- A row of a memory drain is performed (R69, R207, R208): the new bytes with their marks, the flags, and whether a poisoned
destination was consumed. -/
def State.drainRow (s : State) (g : Nat) (j : DrainJob) (ty : ElemTy) (places : List (Except (BitVec 8) Nat)) :
    List (Byte × Bool) × FFlags × Bool :=
  let tile := vget (s.aset g).tile j.tile
  let acc := vget tile.rows (BitVec.ofNat 6 j.row)
  let mark := tile.pois.getLsbD j.row
  let adds := j.mode != 1
  let old := places.map fun p => match p with
    | .ok l => if adds then ((s.mem.get l).toNat, s.poisoned l) else (0, false)
    | .error _ => (0, false)
  let dest (i : Nat) : Nat × Bool :=
    let (b0, k) := imageBytes ty i
    let bs := (List.range k).map fun x => old.getD (b0 + x) (0, false)
    (elemOfImage ty i (bs.foldr (fun b n => b.1 + 256 * n) 0), bs.any (·.2))
  let els := (List.range 64).map fun i => drainElem ty j.mode j.clamp (dest i).1 (elem acc .f32 i)
  let marks := (List.range 64).map fun i => mark || (adds && (dest i).2)
  let markOf (b : Nat) : Bool := (List.range 64).any fun i =>
    (imageBytes ty i).1 ≤ b && b < (imageBytes ty i).1 + (imageBytes ty i).2 && marks.getD i false
  let img := rowImage ty (els.map (·.1))
  ((img.zipIdx).map fun x => (x.1, markOf x.2), els.foldl (fun f x => f ||| x.2) 0,
    adds && (List.range 64).any fun i => (dest i).2)

/-- Where the bytes of a drain's next row lie, with their distances (R187, R207): of an add row, which reads and writes, a failing
byte sets the bits of both (DESIGN CHOICE, log entry 61). -/
def State.rowPlaces (s : State) (g : Nat) (j : DrainJob) (ty : ElemTy) : List (Int × Except (BitVec 8) Nat) :=
  let adds := j.mode != 1
  (j.dists ty).map fun d => (d, s.eptrByte g (s.eptr g j.ptr j.tok) (fun _ => if adds then 4 else 2)
    (if adds then ByteFail.bothBits else ByteFail.writeBit) d)

/-- The bytes of a row of a drain, with their marks, where they are written; the flags; and whether a poisoned destination was
consumed. -/
def State.rowBytes (s : State) (g : Nat) (j : DrainJob) (ty : ElemTy) : List (Nat × Byte × Bool) × FFlags × Bool :=
  let places := s.rowPlaces g j ty
  let (row, fl, eat) := s.drainRow g j ty (places.map (·.2))
  ((places.zip row).filterMap fun x => match x.1.2 with
    | .ok a => some (a, x.2.1, x.2.2)
    | .error _ => none, fl, eat)

/-- The plan of a row of a drain (R208, R236): a store row is written as independent bytes (R249), an add row is read and written as
one operation at its homes. -/
def State.rowPlan (s : State) (g : Nat) (j : DrainJob) (ty : ElemTy) : Plan :=
  let p := s.eptr g j.ptr j.tok
  if j.mode == 1 then s.writePlan g (s.eptrVia g p) p.pte (s.rowBytes g j ty).1
  else s.modPlan g (s.eptrVia g p) p.pte ((s.rowPlaces g j ty).filterMap fun x => x.2.toOption)

/-- The row of a drain that its engine has carried to its end is performed: the bytes of an add row are written now, as a whole (R208,
R266), those of a store row have been written. -/
def State.performRow (s : State) (g : Nat) (j : DrainJob) (ty : ElemTy) (l : Fates) : State :=
  let t := s.aset g
  let w : Who := ⟨g, t.sid, j.e.who⟩
  let p := s.eptr g j.ptr j.tok
  let bit : ByteFail → BitVec 8 := if j.mode != 1 then ByteFail.bothBits else ByteFail.writeBit
  let places := s.rowPlaces g j ty
  let mst := places.foldl (fun (m : BitVec 8) x => match x.2 with | .ok _ => m | .error b => m ||| b) 0
  let den := places.filterMap fun x => match x.2 with
    | .error b => if b = bit .denied then some (p.offset x.1) else none
    | .ok _ => none
  let lg := t.drainLogged j
  let (s, lg') := s.engineDenials w p 8 lg den
  let (bytes, fl, eat) := s.rowBytes g j ty
  let (fw, s) := s.lineFates l g true (s.eptrVia g p) (bytes.map (·.1))
  let s := if j.mode == 1 then s else s.engineWrite w (bytes.filter fun b => fateAt fw b.1 == .ok)
  let s := if eat then s.consume g t 0 else s
  let s := s.updAct g fun t => (t.noteDrain j fl mst (fateRecord fw) (lg'.drop lg.length)).unstall .mat j.e.who true
  s.updAct g fun t => t.putDrain fun d => { d with row := d.row + 1 }

/-- A row of a drain to memory: its issue point (R123, R201), its line requests (R236, R238) and its performing. A set that leaves its
core begins no row (R202). An add row waits for an access that has read a part, and not the rest, of an element of it (R266). -/
def State.memDrain (s : State) (g : Nat) (j : DrainJob) (ty : ElemTy) : State :=
  let t := s.aset g
  let p := s.eptr g j.ptr j.tok
  match if s.begun g t.sid (.row j.tile) then .go else s.eptrCheck g p with
  | .withdrawn => s.withdrawMat g j.e (p.pte.getD 0)
  | .stall => s.engineStall g .mat j.e.who (p.pte.getD 0) true
  | .go =>
    if j.mode != 1 && s.halfRead (elemWidth ty / 8) ((s.rowPlaces g j ty).filterMap fun x => x.2.toOption) then s
    else
      match s.carry ⟨g, t.sid, j.e.who⟩ t.reqtag (.row j.tile) (s.rowPlan g j ty) with
      | (none, s) => s
      | (some l, s) => s.performRow g j ty l

/-- Part of a drain to a ring (R192): a complete slot is written and published, or the next row is taken. -/
def State.ringDrainStep (s : State) (g : Nat) (j : DrainJob) (h : HReg) (ty : ElemTy) : State :=
  let t := s.aset g
  let r := vget t.ring h
  let put (f : DrainJob → DrainJob) (s : State) : State := s.updAct g fun t => t.putDrain f
  if r.unset || r.producer != 2 then
    (put (fun d => { d with row := 64, part := [] }) s).updAct g fun t => t.noteDrain j 0 mStray {} []
  else if r.slotSize ≤ j.part.length || (64 ≤ j.row && !j.part.isEmpty) then
    if r.free == 0 then s
    else
      let slot := j.part.take r.slotSize
      let bytes := (List.range r.slotSize).map fun i =>
        let b := slot.getD i (0, false)
        (r.loc g r.head i, b.1, b.2)
      let s := s.engineWrite ⟨g, t.sid, j.e.who⟩ bytes
      (put (fun d => { d with part := d.part.drop r.slotSize }) s).setRing g h (r.publish 1).1
  else if j.row < 64 then
    let (row, fl, _) := s.drainRow g { j with mode := 1 } ty []
    (put (fun d => { d with row := d.row + 1, part := d.part ++ row }) s).updAct g fun t => t.noteDrain j fl 0 {} []
  else s

/-- DRAIN_ROW_PERFORMED: the next row of the drain at the head of the drain unit is performed (R191, R192, R198, R207,
R208); j names that drain and is 0. -/
def execDrainRowPerformed (g : Nat) (j : Nat) (s : State) : Out :=
  if j != 0 || (s.aset g).leaving && !s.rowBegun g then .next s
  else
    match (s.aset g).drains with
    | [] => .next s
    | d :: _ =>
      let ty := (ElemTy.ofCode d.ty).getD .f32
      let s := match d.ring with
        | some h => s.ringDrainStep g d h ty
        | none => s.memDrain g d ty
      match (s.aset g).drains with
      | d' :: _ => .next (if d'.e.num = d.e.num && d'.tile = d.tile && 64 ≤ d'.row && d'.part.isEmpty then s.drainEnd g d' else s)
      | [] => .next s

end Sys2Proof.Machine
end

