-- ==== Sys2Proof/Machine/Collation.lean ====
section
/-! DEFINITION. Sys2Proof/Machine/Collation.lean: the collation class: class slots (R272, R273, R281), hashing (R274), cells
and sketches (R275 to R278), and the commands as the steps the engine performs one at a time (R271, R282 to R288). -/

namespace Sys2Proof.Machine

/-! ### Issue -/

/-- CLSET (R281). -/
def execClset (cls : BitVec 3) (xa : XReg) (s : State) : Out := issueEngine (.clset cls xa) s
/-- CLCLR (R282). -/
def execClclr (cls : BitVec 3) (xa : XReg) (s : State) : Out := issueEngine (.clclr cls xa) s
/-- CLINS (R283). -/
def execClins (cls : BitVec 3) (xa xb xc : XReg) (s : State) : Out := issueEngine (.clins cls xa xb xc) s
/-- CLDEL (R283). -/
def execCldel (cls : BitVec 3) (xa xb xc : XReg) (s : State) : Out := issueEngine (.cldel cls xa xb xc) s
/-- CLSUB (R284). -/
def execClsub (cls : BitVec 3) (xa xb : XReg) (s : State) : Out := issueEngine (.clsub cls xa xb) s
/-- CLXCH (R285). -/
def execClxch (cls : BitVec 3) (xa xb : XReg) (s : State) : Out := issueEngine (.clxch cls xa xb) s
/-- CLPEEL (R286). -/
def execClpeel (cls : BitVec 3) (t : Bool) (xa xb xc : XReg) (s : State) : Out := issueEngine (.clpeel cls t xa xb xc) s
/-- CLSTAT (R287): a result hold until COLLATION_COMMAND_EXECUTE reaches it. -/
def execClstat (xa : XReg) (cls : BitVec 3) (s : State) : Out := issueEngine (.clstat xa cls) s

/-! ### Hashing, cells and sketches (R274 to R276) -/

/-- H_j of a key (R274). -/
def ClassSlot.hash (c : ClassSlot) (j : Nat) (key : W64) : W32 :=
  (List.range 8).foldl (fun h b => h ^^^ c.table.getD (256 * (8 * j + b) + key.toNat / 2 ^ (8 * b) % 256) 0) 0
/-- The cell of a key in sub-table j (R274). -/
def ClassSlot.cell (c : ClassSlot) (j : Nat) (key : W64) : Nat := j * 2 ^ c.n.toNat + (c.hash j key).toNat % 2 ^ c.n.toNat
/-- The check value of a key (R274). -/
def ClassSlot.hc (c : ClassSlot) (key : W64) : W32 := c.hash 3 key
/-- Cells of a sketch of a slot (R273). -/
def ClassSlot.cells (c : ClassSlot) : Nat := 3 * 2 ^ c.n.toNat
/-- Bytes of a cell that a command reads and writes (R277). -/
def ClassSlot.cellBytes (c : ClassSlot) : Nat := if c.keyonly then 16 else 32
/-- Bytes of an entry of an input list (R277). -/
def ClassSlot.entryBytes (c : ClassSlot) : Nat := if c.keyonly then 8 else 24

/-- A cell (R275). -/
structure Cell where
  count : W32 := 0
  check : W32 := 0
  key : W64 := 0
  pay : BitVec 128 := 0
  deriving DecidableEq, Repr

/-- A cell of its little-endian bytes. -/
def Cell.ofNat (n : Nat) : Cell :=
  { count := BitVec.ofNat 32 n, check := BitVec.ofNat 32 (n / 2 ^ 32), key := BitVec.ofNat 64 (n / 2 ^ 64)
    pay := BitVec.ofNat 128 (n / 2 ^ 128) }
/-- The number of a cell's bytes. -/
def Cell.toNat (c : Cell) : Nat := c.count.toNat + c.check.toNat * 2 ^ 32 + c.key.toNat * 2 ^ 64 + c.pay.toNat * 2 ^ 128
/-- A cell is pure (R275). -/
def Cell.pure (sl : ClassSlot) (c : Cell) : Bool := (c.count == 1 || c.count == 0xFFFFFFFF) && c.check == sl.hc c.key
/-- A cell is empty (R275); the payload of a keyonly class has not been read and is 0. -/
def Cell.empty (c : Cell) : Bool := c == {}
/-- A cell with another folded in: its count added, the rest by XOR (R278). -/
def Cell.fold (c d : Cell) : Cell :=
  { count := c.count + d.count, check := c.check ^^^ d.check, key := c.key ^^^ d.key, pay := c.pay ^^^ d.pay }

/-- The byte of cell i in a sketch (R276). -/
def cellAt (i : Nat) : Int := (64 + 32 * i : Nat)

/-- A header matches a slot (R276). -/
def ClassSlot.matches_ (c : ClassSlot) (h : List Byte) : Bool :=
  leNat (h.take 2) == c.id.toNat && h.getD 2 0 == c.n && leNat ((h.drop 4).take 2) == c.round.toNat

/-- The header that clclr writes (R282). -/
def ClassSlot.header (c : ClassSlot) : List Byte :=
  leBytes 2 c.id.toNat ++ [c.n, 0] ++ leBytes 2 c.round.toNat ++ List.replicate 58 0

/-- The class slot that a set's command names. -/
def CtxSet.slotOf (t : CtxSet) (i : Instr) : ClassSlot :=
  match collOp i with
  | some (c, _) => vget t.cls8 c
  | none => {}

/-! ### Reads, writes and cell operations (R278) -/

/-- Denial records of a command: one for each denied granule it touches (R121). -/
def State.collDenials (s : State) (w : Who) (p : EPtr) (code : Nat) (r : CollRun) (ds : List Int) : State × CollRun :=
  let (s, lg) := s.engineDenials w p code r.logged (ds.map p.offset)
  (s, { r with logged := lg })

/-- The distances of n bytes from distance d of a pointer. -/
def span (d : Int) (n : Nat) : List Int := (List.range n).map fun (i : Nat) => d + i

/-- Where the n bytes at distance d lie for a read or a write, with the mstat bits and denials noted (R119). -/
def State.collPlaces (s : State) (w : Who) (p : EPtr) (d : Int) (n : Nat) (write : Bool) (r : CollRun) :
    List (Option Nat) × State × CollRun :=
  let bit := if write then ByteFail.writeBit else ByteFail.readBit
  let l := (span d n).map fun x => (x, s.eptrByte w.g p (if write then fun _ => 2 else readRights) bit x)
  let r := l.foldl (fun (r : CollRun) x => match x.2 with | .ok _ => r | .error b => { r with mst := r.mst ||| b }) r
  let den := l.filterMap fun x => match x.2 with
    | .ok _ => none
    | .error b => if b = bit .denied then some x.1 else none
  let (s, r) := s.collDenials w p (if write then 11 else 10) r den
  (l.map fun x => match x.2 with | .ok a => some a | .error _ => none, s, r)

/-- Poison read by a command is consumed (R288). -/
def State.collConsume (s : State) (w : Who) (off : Nat) : State :=
  match s.whoSet w with
  | some t => s.consume w.g t (BitVec.ofNat 64 off)
  | none => s

/-- An access of a command: a pointer, the distance and the number of its bytes, and the bytes that it writes; one that writes without
them reads and writes as one operation at its home (R278). -/
structure CollNeed where
  p : EPtr
  d : Int
  n : Nat
  write : Bool := false
  data : Option (List (Byte × Bool)) := none
  deriving Repr

/-- Where the bytes of an access lie that may be read, or written. -/
def State.needPlaces (s : State) (g : Nat) (x : CollNeed) (need : Nat → BitVec 4) : List (Option Nat) :=
  (span x.d x.n).map fun d => (s.eptrByte g x.p need ByteFail.readBit d).toOption

/-- The locations of an access that reads and writes as one operation. -/
def State.modLocs (s : State) (g : Nat) (x : CollNeed) : List Nat :=
  ((s.needPlaces g x readRights ++ s.needPlaces g x fun _ => 2).reduceOption).dedup

/-- The plan of an access (R236, R249). -/
def State.needPlan (s : State) (g : Nat) (x : CollNeed) : Plan :=
  let v := s.eptrVia g x.p
  match x.write, x.data with
  | false, _ => s.readPlan g v x.p.pte (s.needPlaces g x readRights).reduceOption
  | true, some l => s.writePlan g v x.p.pte (((s.needPlaces g x fun _ => 2).zip l).filterMap fun y => y.1.map fun a => (a, y.2))
  | true, none => s.modPlan g v x.p.pte (s.modLocs g x)

/-- The plan of some accesses. -/
def State.collPlan (s : State) (g : Nat) (l : List CollNeed) : Plan := l.foldl (fun p x => p.join (s.needPlan g x)) {}

/-- An operation at its home waits for a load that has read a part, and not the rest, of an aligned element there, and for a
plain write that is not yet performed as a whole (R278, R282). -/
def State.collWaits (s : State) (g : Nat) (l : List CollNeed) : Bool :=
  l.any fun x => x.write && x.data.isNone && (s.halfRead 8 (s.modLocs g x) || s.halfWritten (s.modLocs g x))

/-- A request of an access has failed (R240). -/
def State.needFails (s : State) (g : Nat) (f : Fates) (x : CollNeed) : Bool :=
  (s.needPlaces g x (if x.write then fun _ => 2 else readRights)).reduceOption.any fun a =>
    s.fateOf f g a x.write (s.eptrVia g x.p) != .ok

/-- Reads n bytes at distance d of a pointer (R278), with the answers to the line requests: a failing byte reads 0, and the bytes
of a failed request are poisoned zeros (R240). A poisoned byte is consumed (R288). -/
def State.collRead (s : State) (w : Who) (f : Fates) (p : EPtr) (d : Int) (n : Nat) (r : CollRun) :
    List (Byte × Bool) × State × CollRun :=
  let (l, s, r) := s.collPlaces w p d n false r
  let v := s.eptrVia w.g p
  let s := s.countLines f w.g false v l.reduceOption
  let bytes := l.map fun x => match x with
    | none => (0, false)
    | some a => match s.fateOf f w.g a false v with
      | .ok => s.answeredByte f a
      | _ => (0, true)
  let s := match (bytes.zip (List.range n)).find? fun b => b.1.2 with
    | some b => s.collConsume w (p.offset (d + (b.2 : Int)))
    | none => s
  (bytes, s, r)

/-- A command has written n bytes at distance d of a pointer (R278): a failing byte was dropped, and a failed request enters the
failures of the command (R240). -/
def State.collWrote (s : State) (w : Who) (f : Fates) (p : EPtr) (d : Int) (n : Nat) (r : CollRun) : State × CollRun :=
  let (places, s, r) := s.collPlaces w p d n true r
  let (f, s) := s.lineFates f w.g true (s.eptrVia w.g p) places.reduceOption
  (s, { r with fail := r.fail.join (fateRecord f) })

/-- The bytes of a number as clean or marked bytes. -/
def plainBytes (n v : Nat) (mark : Bool) : List (Byte × Bool) := (leBytes n v).map fun b => (b, mark)
/-- The number of some bytes, and whether one is poisoned. -/
def bytesNat (l : List (Byte × Bool)) : Nat := leNat (l.map (·.1))
def bytesBad (l : List (Byte × Bool)) : Bool := l.any (·.2)

/-- A read, modify and write of n bytes as one operation at their home (R278): a failed request is a poisoned read and is
counted once (R240). What it writes is marked when what it read was, or what the command has read before (R328). -/
def State.collModify (s : State) (w : Who) (l : Fates) (p : EPtr) (d : Int) (n : Nat) (f : Nat → Nat) (r : CollRun) :
    State × CollRun :=
  let (rd, s, r) := s.collPlaces w p d n false r
  let (wr, s, r) := s.collPlaces w p d n true r
  let (ft, s) := s.lineFates l w.g true (s.eptrVia w.g p) ((rd ++ wr).reduceOption).dedup
  let old := rd.map fun x => match x with
    | none => (0, false)
    | some a => s.homeByte a
  let failed := rd.any fun x => match x with
    | none => false
    | some a => fateAt ft a != .ok
  let s := if bytesBad old || failed then s.collConsume w (p.offset d) else s
  let new := plainBytes n (f (bytesNat old)) (bytesBad old || r.mark)
  let bytes := (wr.zip new).filterMap fun (x : Option Nat × Byte × Bool) =>
    match x.1 with
    | some a => if fateAt ft a == .ok then some (a, x.2.1, x.2.2) else none
    | none => none
  (s.engineWrite w bytes, { r with fail := r.fail.join (fateRecord ft) })

/-- CellOp(i): another cell is folded into cell i of a sketch. -/
def State.cellOp (s : State) (w : Who) (f : Fates) (sl : ClassSlot) (p : EPtr) (i : Nat) (c : Cell) (r : CollRun) :
    State × CollRun :=
  s.collModify w f p (cellAt i) sl.cellBytes (fun n => ((Cell.ofNat n).fold c).toNat) r

/-- NetOp: the net field of a header rises by a number modulo 2^64. -/
def State.netOp (s : State) (w : Who) (f : Fates) (p : EPtr) (n : W64) (r : CollRun) : State × CollRun :=
  s.collModify w f p 8 8 (fun v => v + n.toNat) r

/-- Reads cell i of a sketch; the command keeps whether it was poisoned (R328). -/
def State.readCell (s : State) (w : Who) (f : Fates) (sl : ClassSlot) (p : EPtr) (i : Nat) (r : CollRun) :
    Cell × State × CollRun :=
  let (l, s, r) := s.collRead w f p (cellAt i) sl.cellBytes r
  (Cell.ofNat (bytesNat l), s, { r with mark := bytesBad l })

/-! ### Ends of a command -/

/-- The sketch pointer and the second pointer of a command: only a token pointer names a sketch or a list (R132). -/
def State.collA (s : State) (g : Nat) (e : Entry) : EPtr := s.nestPtr g e.x0 e.k0
def State.collB (s : State) (g : Nat) (e : Entry) : EPtr := s.nestPtr g e.x1 e.k1

/-- The accesses of a collation command: those of its operations, and of an exchange those to its receive buffer. -/
def XKey.isColl : XKey → Bool
  | .cell | .recv => true
  | _ => false

/-- Replaces the command in progress of a set. -/
def State.putColl (s : State) (w : Who) (r : Option CollRun) : State := s.updSid w.g w.sid fun t => { t with crun := r }

/-- A command completes with a result (R269, R279): its status is written, and a failed clpeel.t is kept for the twait that
covers it (R94). -/
def State.collDone (s : State) (w : Who) (r : CollRun) (result records residual : Nat) : State :=
  let s := s.updSid w.g w.sid fun t =>
    let t := { t.collResult r.e result records residual with crun := Option.none }
    (t.completeEntry r.e 0 r.mst r.fail).unstall .coll r.e.who
  (s.releaseAll w.g r.e.tokens).orphan w.g w.sid XKey.isColl

/-- The partner of an exchange of a set learns that it has failed (R285). -/
def State.abortExchange (s : State) (w : Who) (r : CollRun) : State :=
  let mine (y : CollRun) : Bool := y.phase == .transfer && y.partner == (w.g, w.sid)
  match r.phase, r.partner with
  | .transfer, some (g, sid) => s.updSid g sid fun t =>
    { t with crun := t.crun.map fun y => if mine y then { y with partner := Option.none } else y }
  | _, _ => s

/-- An announcement is withdrawn. -/
def State.unannounce (s : State) (w : Who) : State :=
  s.updDie (w.g / 128) fun d => { d with announced := d.announced.filter fun a => a != (w.g, w.sid) }

/-- The records that the status of a command gives (R279): those a clpeel has written, the entries that clins or cldel has
processed. -/
def CollRun.records (r : CollRun) : Nat :=
  match r.e.instr with
  | .clpeel .. => r.out
  | .clins .. | .cldel .. => if r.phase == .net then r.e.x2.toNat else r.i
  | _ => 0

/-- A command is withdrawn at a request naming entry pte (R127, R288): its status is result 5, with the records it has come
to. -/
def State.collWithdraw (s : State) (w : Who) (r : CollRun) (pte : BitVec 20) : State :=
  let s := ((s.abortExchange w r).unannounce w).orphan w.g w.sid XKey.isColl
  let old := match s.whoSet w with
    | some t => t.tokens
    | none => []
  let s := s.updSid w.g w.sid fun t =>
    let t := { t.collResult r.e 5 r.records 0 with crun := Option.none }
    ((t.completeEntry r.e 0 (r.mst ||| mWdr) r.fail).unstall .coll r.e.who).withdraw r.e pte
  s.releaseAll w.g (r.e.tokens ++ old).dedup

/-- Performs the accesses of a command, when they pass their issue points (R123, R288) and their line requests have been answered
(R236). -/
def State.collIssue (s : State) (w : Who) (r : CollRun) (need : List CollNeed) (act : State → Fates → State) (key : XKey := .cell) :
    State :=
  match if s.begun w.g w.sid key then none else s.issuePoints w.g (need.map (·.p)) with
  | some (.stall e) => if (s.aset w.g).sid = w.sid then s.engineStall w.g .coll r.e.who e else s
  | some (.withdrawn e) => s.collWithdraw w r e
  | _ =>
    if s.collWaits w.g need then s
    else
      match s.carry w ((s.whoSet w).getD {}).reqtag key (s.collPlan w.g need) with
      | (none, s) => s
      | (some f, s) => act (s.updSid w.g w.sid fun t => t.unstall .coll r.e.who) f

/-- The access to cell i of a sketch (R277): a read, or an operation. -/
def cellNeed (sl : ClassSlot) (p : EPtr) (i : Nat) (write : Bool) : CollNeed := { p := p, d := cellAt i, n := sl.cellBytes, write := write }

/-- A read of n bytes at a distance, a plain write of bytes there, and an operation on the net field of a header. -/
def readNeed (p : EPtr) (d : Int) (n : Nat) : CollNeed := { p := p, d := d, n := n }
def writeNeed (p : EPtr) (d : Int) (l : List (Byte × Bool)) : CollNeed := { p := p, d := d, n := l.length, write := true, data := some l }
def netNeed (p : EPtr) : CollNeed := { p := p, d := 8, n := 8, write := true }

/-! ### Beginning a command -/

/-- The fields of a class descriptor are within the limits of R273. -/
def descOk (d : List Byte) : Bool :=
  let rd (o n : Nat) : Nat := leNat ((d.drop o).take n)
  let tab : W64 := BitVec.ofNat 64 (rd 8 8)
  rd 0 2 != 0 && 2 ≤ rd 2 1 && rd 2 1 ≤ 18 && rd 3 1 / 2 == 0 && rd 6 2 == 0 && rd 16 1 / 32 == 0 && rd 17 1 / 8 == 0
    && rd 18 2 == 0 && (d.drop 24).all (· == 0)
    && tab.extractLsb' 60 4 == 2 && tab.extractLsb' 48 4 == 0 && (tab.extractLsb' 56 4).toNat < 4

/-- The slot that a valid descriptor and its table set (R281). -/
def slotFrom (d table : List Byte) (status : W64) : ClassSlot :=
  let rd (o n : Nat) : Nat := leNat ((d.drop o).take n)
  { set := true, id := BitVec.ofNat 16 (rd 0 2), n := BitVec.ofNat 8 (rd 2 1), keyonly := rd 3 1 % 2 == 1
    round := BitVec.ofNat 16 (rd 4 2), peerPkg := BitVec.ofNat 5 (rd 16 1), peerDie := BitVec.ofNat 3 (rd 17 1)
    limit := BitVec.ofNat 32 (rd 20 4), status := status
    table := (List.range 8192).map fun i => BitVec.ofNat 32 (leNat ((table.drop (4 * i)).take 4)) }

/-- The slot that a clset names becomes unset, or takes what it has read; its status word stays (R281). -/
def State.putSlot (s : State) (w : Who) (cls : BitVec 3) (c : W64 → ClassSlot) : State :=
  s.updSid w.g w.sid fun t => { t with cls8 := vset t.cls8 cls (c (vget t.cls8 cls).status) }

/-- CLSET's first step (R281): the descriptor is read once and its limits are checked; the k register that its table pointer names
is captured as it stands. -/
def State.clsetAct (s : State) (w : Who) (r : CollRun) (cls : BitVec 3) : State :=
  let a := s.collA w.g r.e
  s.collIssue w r [readNeed a 0 64] fun s f =>
    let (l, s, r) := s.collRead w f a 0 64 r
    let d := l.map (·.1)
    let tab : W64 := BitVec.ofNat 64 (leNat ((d.drop 8).take 8))
    let k := captureTok (s.aset w.g) tab
    if !descOk d || s.nestPtr w.g tab k == .stray then (s.putSlot w cls fun st => { status := st }).collDone w r 4 0 0
    else s.putColl w (some { r with buf := l, j := 1, e := { r.e with x1 := tab, k1 := k } })

/-- CLSET's second step (R281): the table is read and the slot is set. -/
def State.clsetTable (s : State) (w : Who) (r : CollRun) (cls : BitVec 3) : State :=
  let p := s.collB w.g r.e
  s.collIssue w r [readNeed p 0 32768] fun s f =>
    let (tb, s, r) := s.collRead w f p 0 32768 r
    (s.putSlot w cls fun st => slotFrom (r.buf.map (·.1)) (tb.map (·.1)) st).collDone w r 0 0 0

/-- An operand is out of the range of R283 or R286. -/
def rangeBad (e : Entry) : Bool :=
  match e.instr with
  | .clins .. | .cldel .. | .clpeel .. => 2 ^ 32 ≤ e.x2.toNat
  | _ => false

/-- The first phase of a command that begins. -/
def firstPhase : Instr → CollPhase
  | .clclr .. => .clear
  | .clsub .. => .sub
  | .clpeel .. => .scan
  | .clxch .. => .announced
  | _ => .insert

/-- The headers of a command are read and must match its slot (R276). -/
def State.headersMatch (s : State) (w : Who) (f : Fates) (sl : ClassSlot) (r : CollRun) : List EPtr → Bool × State × CollRun
  | [] => (true, s, r)
  | p :: l =>
    let (h, s, r) := s.collRead w f p 0 64 r
    let (ok, s, r) := s.headersMatch w f sl r l
    (ok && sl.matches_ (h.map (·.1)), s, r)

/-- The sketches whose headers a command reads at its start. -/
def State.headerPtrs (s : State) (g : Nat) (e : Entry) : List EPtr :=
  match e.instr with
  | .clclr .. | .clxch .. => []
  | .clsub .. => [s.collA g e, s.collB g e]
  | _ => [s.collA g e]

/-- A command of the active set begins. -/
def State.beginColl (s : State) (w : Who) (r : CollRun) : State :=
  let t := s.aset w.g
  let sl := t.slotOf r.e.instr
  match r.e.instr with
  | .clset cls _ => s.clsetAct w r cls
  | .clstat _ cls =>
    let v := (vget t.cls8 cls).status
    let s := s.deliver w.g r.e v
    let s := s.updAct w.g fun t => { t.completeEntry r.e 0 0 {} with crun := Option.none }
    s.releaseAll w.g r.e.tokens
  | i =>
    if !sl.set || rangeBad r.e then s.collDone w r 4 0 0
    else
      s.collIssue w r ((s.headerPtrs w.g r.e).map fun p => readNeed p 0 64) fun s f =>
        let (ok, s, r) := s.headersMatch w f sl r (s.headerPtrs w.g r.e)
        if !ok then s.collDone w r 2 0 0
        else
          match i with
          | .clxch .. =>
            (s.updDie (w.g / 128) fun d => { d with announced := d.announced ++ [(w.g, w.sid)] }).putColl w
              (some { r with since := s.clk })
          | .clins .. | .cldel .. => if r.e.x2 = 0 then s.collDone w r 0 0 0 else s.putColl w (some { r with j := 1 })
          | _ => s.putColl w (some { r with j := 1 })

/-- The command at the head of a set's collation queue, or the one in progress that has not begun its first phase: j is 0
until its headers have been read. -/
def execCollationCommandExecute (g : Nat) (s : State) : Out :=
  let t := s.aset g
  match t.crun, t.cq with
  | some r, _ =>
    if r.j = 0 && r.phase != .announced && r.phase != .transfer && r.phase != .zero && (!t.leaving || s.begun g t.sid .cell) then
      .next (s.beginColl ⟨g, t.sid, r.e.who⟩ r)
    else .next s
  | none, e :: rest =>
    if t.leaving then .next s
    else
    let r : CollRun := { e := e, phase := firstPhase e.instr }
    .next ((s.updAct g fun t => { t with cq := rest, crun := some r }).beginColl ⟨g, t.sid, e.who⟩ r)
  | none, [] => .next s

/-! ### The steps of a command (R278, R282 to R286); j counts the steps of one entry, cell or removal from 1 -/

/-- Bytes of a cell of zeros, and of the sketch of a slot. -/
def ClassSlot.sketchBytes (c : ClassSlot) : Nat := 64 + 32 * c.cells

/-- CLCLR: the header, then each cell (R282). -/
def State.clearStep (s : State) (w : Who) (sl : ClassSlot) (r : CollRun) : State :=
  let p := s.collA w.g r.e
  let (d, bytes) := if r.i = 0 then (0, sl.header.map fun b => (b, false)) else (cellAt (r.i - 1), plainBytes 32 0 false)
  s.collIssue w r [writeNeed p d bytes] fun s f =>
    let (s, r) := s.collWrote w f p d bytes.length r
    if r.i = sl.cells then s.collDone w r 0 0 0 else s.putColl w (some { r with i := r.i + 1 })

/-- The sign of clins and cldel. -/
def insertSign : Instr → W32
  | .cldel .. => 0xFFFFFFFF
  | _ => 1

/-- CLINS and CLDEL: step 1 reads entry i, steps 2 to 4 fold it into its three cells, and the last entry is followed by the
update of net (R283). -/
def State.insertStep (s : State) (w : Who) (sl : ClassSlot) (r : CollRun) : State :=
  let a := s.collA w.g r.e
  let b := s.collB w.g r.e
  if r.j = 1 then
    s.collIssue w r [readNeed b (sl.entryBytes * r.i : Nat) sl.entryBytes] fun s f =>
      let (l, s, r) := s.collRead w f b (sl.entryBytes * r.i : Nat) sl.entryBytes r
      let n := bytesNat l
      s.putColl w (some { r with key := BitVec.ofNat 64 n, pay := BitVec.ofNat 128 (n / 2 ^ 64), mark := bytesBad l, j := 2 })
  else
    s.collIssue w r [cellNeed sl a (sl.cell (r.j - 2) r.key) true] fun s f =>
      let c : Cell := { count := insertSign r.e.instr, check := sl.hc r.key, key := r.key, pay := r.pay }
      let (s, r) := s.cellOp w f sl a (sl.cell (r.j - 2) r.key) c r
      if r.j < 4 then s.putColl w (some { r with j := r.j + 1 })
      else if r.i + 1 < r.e.x2.toNat then s.putColl w (some { r with i := r.i + 1, j := 1 })
      else s.putColl w (some { r with phase := .net, j := 1, mark := false })

/-- CLSUB: step 1 reads cell i of the subtrahend, step 2 folds it out of cell i of the minuend (R284). -/
def State.subStep (s : State) (w : Who) (sl : ClassSlot) (r : CollRun) : State :=
  let a := s.collA w.g r.e
  let b := s.collB w.g r.e
  if r.j = 1 then
    s.collIssue w r [cellNeed sl b r.i false] fun s f =>
      let (c, s, r) := s.readCell w f sl b r.i r
      s.putColl w (some { r with key := c.key, pay := c.pay, check := c.check, side := c.count, j := 2 })
  else
    s.collIssue w r [cellNeed sl a r.i true] fun s f =>
      let (s, r) := s.cellOp w f sl a r.i { count := -r.side, check := r.check, key := r.key, pay := r.pay } r
      if r.i + 1 < sl.cells then s.putColl w (some { r with i := r.i + 1, j := 1 })
      else s.putColl w (some { r with phase := .net, j := 1, mark := false })

/-- The update of net that ends clins, cldel and clsub (R283, R284). -/
def State.netStep (s : State) (w : Who) (r : CollRun) : State :=
  let a := s.collA w.g r.e
  match r.e.instr with
  | .clsub .. =>
    let b := s.collB w.g r.e
    s.collIssue w r [readNeed b 8 8, netNeed a] fun s f =>
      let (l, s, r) := s.collRead w f b 8 8 r
      let (s, r) := s.netOp w f a (-(BitVec.ofNat 64 (bytesNat l))) { r with mark := bytesBad l }
      s.collDone w r 0 0 0
  | i =>
    s.collIssue w r [netNeed a] fun s f =>
      let n := r.e.x2
      let (s, r) := s.netOp w f a (match i with | .cldel .. => -n | _ => n) r
      s.collDone w r 0 n.toNat 0

/-- CLPEEL: the ascending scan for pure cells (R286). -/
def State.scanStep (s : State) (w : Who) (sl : ClassSlot) (r : CollRun) : State :=
  let a := s.collA w.g r.e
  s.collIssue w r [cellNeed sl a r.i false] fun s f =>
    let (c, s, r) := s.readCell w f sl a r.i r
    let r := if c.pure sl then { r with q := r.q ++ [r.i], inq := insertNat r.inq r.i } else r
    if r.i + 1 < sl.cells then s.putColl w (some { r with i := r.i + 1 })
    else s.putColl w (some { r with phase := .peel, i := 0, j := 1 })

/-- An output record (R277). -/
def recordBytes (r : CollRun) : List (Byte × Bool) :=
  plainBytes 8 r.key.toNat r.mark ++ plainBytes 16 r.pay.toNat r.mark ++ plainBytes 4 r.side.toNat r.mark ++ plainBytes 4 0 false

/-- CLPEEL: the removal of one entry (R286): step 1 takes the head of Q and tests it, step 2 writes the record, steps 3 to 5
are the cell operations, step 6 updates net and steps 7 to 9 look for cells that have become pure. -/
def State.peelStep (s : State) (w : Who) (sl : ClassSlot) (r : CollRun) : State :=
  let a := s.collA w.g r.e
  match r.j with
  | 1 =>
    match r.q with
    | [] => s.putColl w (some { r with phase := .count, i := 0 })
    | i :: q =>
      s.collIssue w r [cellNeed sl a i false] fun s f =>
        let (c, s, r) := s.readCell w f sl a i r
        let r := { r with q := q, inq := r.inq.filter (· != i) }
        if !c.pure sl then s.putColl w (some r)
        else if r.out = r.e.x2.toNat then s.collDone w r 3 r.out 0
        else s.putColl w (some { r with key := c.key, pay := if sl.keyonly then 0 else c.pay, side := c.count, j := 2 })
  | 2 =>
    let b := s.collB w.g r.e
    s.collIssue w r [writeNeed b (32 * r.out : Nat) (recordBytes r)] fun s f =>
      let (s, r) := s.collWrote w f b (32 * r.out : Nat) 32 r
      s.putColl w (some { r with out := r.out + 1, j := 3 })
  | 3 | 4 | 5 =>
    s.collIssue w r [cellNeed sl a (sl.cell (r.j - 3) r.key) true] fun s f =>
      let c : Cell := { count := -r.side, check := sl.hc r.key, key := r.key, pay := r.pay }
      let (s, r) := s.cellOp w f sl a (sl.cell (r.j - 3) r.key) c r
      s.putColl w (some { r with j := r.j + 1 })
  | 6 =>
    s.collIssue w r [netNeed a] fun s f =>
      let (s, r) := s.netOp w f a (-(r.side.signExtend 64)) r
      s.putColl w (some { r with j := 7 })
  | j =>
    let i := sl.cell (j - 7) r.key
    s.collIssue w r [cellNeed sl a i false] fun s f =>
      let (c, s, r) := s.readCell w f sl a i r
      let r := if c.pure sl && !r.inq.contains i then { r with q := r.q ++ [i], inq := insertNat r.inq i } else r
      s.putColl w (some { r with j := if j < 9 then j + 1 else 1 })

/-- CLPEEL: the nonempty cells left are counted (R286). -/
def State.countStep (s : State) (w : Who) (sl : ClassSlot) (r : CollRun) : State :=
  let a := s.collA w.g r.e
  s.collIssue w r [cellNeed sl a r.i false] fun s f =>
    let (c, s, r) := s.readCell w f sl a r.i r
    let r := if c.empty then r else { r with residual := r.residual + 1 }
    if r.i + 1 < sl.cells then s.putColl w (some { r with i := r.i + 1 })
    else s.collDone w r (if r.residual = 0 then 0 else 1) r.out r.residual

/-! ### The exchange (R285): i counts the 32-byte pieces sent, j those written, and both go up to 2 + c -/

/-- Pieces of a sketch. -/
def ClassSlot.pieces (c : ClassSlot) : Nat := 2 + c.cells

/-- Every piece of the partner's sketch has come. -/
def CollRun.gotAll (r : CollRun) (sl : ClassSlot) : Bool := r.j + r.buf.length / 32 == sl.pieces

/-- The exchange fails: its partner learns of it, and the side goes on to write zeros over its receive buffer (R285), once what it has
asked for is over. -/
def State.exchangeFail (s : State) (w : Who) (r : CollRun) : State :=
  let s := s.abortExchange w r
  if s.begun w.g w.sid .recv then s.putColl w (some { r with partner := none })
  else
    (s.orphan w.g w.sid (· == .cell)).putColl w
      (some { r with phase := .zero, i := 0, j := 0, buf := [], partner := none })

/-- A side whose exchange has failed writes zeros over its receive buffer, piece after piece, and completes with result 6 (R285). -/
def State.zeroStep (s : State) (w : Who) (sl : ClassSlot) (r : CollRun) : State :=
  let b := s.collB w.g r.e
  s.collIssue w r [writeNeed b (32 * r.i : Nat) (plainBytes 32 0 false)] fun s f =>
    let (s, r) := s.collWrote w f b (32 * r.i : Nat) 32 r
    if r.i + 1 < sl.pieces then s.putColl w (some { r with i := r.i + 1 }) else s.collDone w r 6 0 0

/-- A request of a transfer fails: a side that has written the whole sketch of its partner completes all the same, and another fails
(R285). -/
def State.transferFails (s : State) (w : Who) (sl : ClassSlot) (r : CollRun) : State :=
  if r.j = sl.pieces then (s.abortExchange w r).collDone w r 0 0 0 else s.exchangeFail w r

/-- A piece that has come from the partner is written to the receive buffer (R285). -/
def State.recvStep (s : State) (w : Who) (sl : ClassSlot) (r : CollRun) : State :=
  let b := s.collB w.g r.e
  let need := writeNeed b (32 * r.j : Nat) (r.buf.take 32)
  s.collIssue w r [need] (key := .recv) fun s f =>
    let bad := s.needFails w.g f need
    let (s, r) := s.collWrote w f b (32 * r.j : Nat) 32 r
    if bad then s.exchangeFail w r else s.putColl w (some { r with j := r.j + 1, buf := r.buf.drop 32 })

/-- The next piece of the local sketch is read and sent to the partner (R285). -/
def State.sendStep (s : State) (w : Who) (sl : ClassSlot) (r : CollRun) (partner : Nat × Nat) : State :=
  let a := s.collA w.g r.e
  if !s.reaches (w.g / 128) (coreDie s partner.1) then s.transferFails w sl { r with fail := r.fail.join (Fate.record .dead) }
  else
    let need := readNeed a (32 * r.i : Nat) 32
    s.collIssue w r [need] fun s f =>
      let bad := s.needFails w.g f need
      let (l, s, r) := s.collRead w f a (32 * r.i : Nat) 32 r
      if bad then s.transferFails w sl r
      else
        let s := s.updSid partner.1 partner.2 fun t => { t with crun := t.crun.map fun y => { y with buf := y.buf ++ l } }
        s.putColl w (some { r with i := r.i + 1 })

/-- A piece of the transfer: a piece that has come is written, or the next one of the local sketch is sent. A partner that
has gone, or a die that cannot be reached, fails the exchange. -/
def State.transferStep (s : State) (w : Who) (sl : ClassSlot) (r : CollRun) : State :=
  if s.begun w.g w.sid .recv then s.recvStep w sl r
  else
    match r.partner with
    | none => if r.j = sl.pieces then s else s.exchangeFail w r
    | some b =>
      if !r.buf.isEmpty then s.recvStep w sl r
      else if r.i < sl.pieces then s.sendStep w sl r b
      else s

/-- A paired exchange has something to do: a piece to write or to send, or a partner that has gone. -/
def CollRun.moves (r : CollRun) (sl : ClassSlot) : Bool :=
  !r.buf.isEmpty || r.i < sl.pieces || (r.partner.isNone && r.j != sl.pieces)

/-- The sets of a core whose commands can go on: the active one, and those that are out with a paired exchange, which runs to
completion (R288). -/
def Core.collating (k : Core) : List CtxSet :=
  let goes (out : Bool) (t : CtxSet) : Bool := match t.crun with
    | some r => (match r.phase with
      | .announced => false
      | .transfer => r.moves (t.slotOf r.e.instr)
      | .zero => true
      | _ => !out)
    | none => false
  [k.act].filter (goes false) ++ ((nget k.set (k.active + 1)) :: k.slots.map (·.2)).filter (goes true)

/-- A command is inside an entry, cell or removal (R288). -/
def CollRun.midEntry (r : CollRun) : Bool := 2 ≤ r.j && (r.phase == .insert || r.phase == .sub || r.phase == .peel)

/-- One step of the command in progress of a set; that of a set that leaves its core stops after its current entry, cell or removal
(R288). -/
def State.collStep (s : State) (w : Who) (t : CtxSet) (r : CollRun) : State :=
  let sl := t.slotOf r.e.instr
  match r.phase with
  | .transfer => s.transferStep w sl r
  | .zero => s.zeroStep w sl r
  | .announced => s
  | ph =>
    if r.j = 0 || t.leaving && !r.midEntry && !s.begun w.g w.sid .cell then s
    else
      match ph with
      | .clear => s.clearStep w sl r
      | .insert => (match r.e.instr with
        | .clset cls _ => s.clsetTable w r cls
        | _ => s.insertStep w sl r)
      | .sub => s.subStep w sl r
      | .net => s.netStep w r
      | .scan => s.scanStep w sl r
      | .peel => s.peelStep w sl r
      | .count => s.countStep w sl r
      | .transfer | .zero | .announced => s

/-- CELL_OPERATION: the command in progress of the core performs its next operation, and so do the paired exchanges of its sets
that are out (R288): all of them, or the one that the hardware chooses. -/
def execCellOperation (g : Nat) (s : State) : Out :=
  let l := (s.core g).collating
  let (n, s) := if l.length ≤ 1 then (0, s) else s.choose
  let l := if n = 0 then l else (l.drop ((n - 1) % l.length)).take 1
  .next (l.foldl (fun (s : State) t =>
    match s.whoSet ⟨g, t.sid, 0⟩ with
    | some t => (match t.crun with
      | some r => s.collStep ⟨g, t.sid, r.e.who⟩ t r
      | none => s)
    | none => s) s)

/-! ### Pairing -/

/-- The command in progress of a set of a core. -/
def State.collOf (s : State) (a : Nat × Nat) : Option (CtxSet × CollRun) :=
  match (s.core a.1).findSet a.2 with
  | some t => t.crun.map fun r => (t, r)
  | none => none

/-- Two announcements of dies can pair (R285): the second lies on the peer die of the first and has its class id, its round
and the first's die as peer. -/
def State.canPair (s : State) (a b : Nat × Nat) : Bool :=
  match s.collOf a, s.collOf b with
  | some (t, r), some (u, q) =>
    let x := t.slotOf r.e.instr
    let y := u.slotOf q.e.instr
    a != b && x.id == y.id && x.round == y.round
      && x.peerPkg == s.pkgid && y.peerPkg == s.pkgid
      && x.peerDie.toNat == b.1 / 128 && y.peerDie.toNat == a.1 / 128
  | _, _ => false

/-- Pairs two announcements: with different n both complete with result 2 (R285). -/
def State.pairUp (s : State) (a b : Nat × Nat) : State :=
  match s.collOf a, s.collOf b with
  | some (t, r), some (u, q) =>
    let wa : Who := ⟨a.1, a.2, r.e.who⟩
    let wb : Who := ⟨b.1, b.2, q.e.who⟩
    let s := (s.unannounce wa).unannounce wb
    if (t.slotOf r.e.instr).n != (u.slotOf q.e.instr).n then (s.collDone wa r 2 0 0).collDone wb q 2 0 0
    else
      (s.putColl wa (some { r with phase := .transfer, i := 0, j := 0, partner := some b })).putColl wb
        (some { q with phase := .transfer, i := 0, j := 0, partner := some a })
  | _, _ => s

/-- The announcement of a core that pairs next: no earlier one of its die could take the same partner. -/
def State.firstPair (s : State) (g : Nat) : Option ((Nat × Nat) × (Nat × Nat)) :=
  let mine := (s.die (g / 128)).announced
  (mine.filter fun a => a.1 == g).findSome? fun a =>
    match s.collOf a with
    | none => none
    | some (t, r) =>
      let peer := (t.slotOf r.e.instr).peerDie.toNat
      match (s.die peer).announced.find? (s.canPair a) with
      | none => none
      | some b => if (mine.takeWhile fun x => x != a).any fun x => x != b && s.canPair x b then none else some (a, b)

/-- CLXCH_PAIR: an announcement of the core pairs with the earliest that it can (R285). -/
def execClxchPair (g : Nat) (s : State) : Out :=
  match s.firstPair g with
  | some (a, b) => .next (s.pairUp a b)
  | none => .next s

/-- Sets of a core, resident and saved. -/
def Core.sets (k : Core) : List CtxSet := k.act :: nget k.set (k.active + 1) :: k.slots.map (·.2)

/-- The first command in progress of a core that a test picks. -/
def State.collFind (s : State) (g : Nat) (p : CtxSet → CollRun → Bool) : Option (CtxSet × CollRun) :=
  (s.core g).sets.findSome? fun t => match t.crun with
    | some r => if p t r then some (t, r) else none
    | none => none

/-- CLXCH_TRANSFER_DONE: a side that has written all it receives, and has sent all or lost its partner since, completes with
result 0 (R285). -/
def execClxchTransferDone (g : Nat) (s : State) : Out :=
  match s.collFind g fun t r => r.phase == .transfer && r.j == (t.slotOf r.e.instr).pieces
      && (r.i == (t.slotOf r.e.instr).pieces || r.partner.isNone) with
  | some (t, r) => .next (s.collDone ⟨g, t.sid, r.e.who⟩ r 0 0 0)
  | none => .next s

/-- The exchange limit of a slot (R273). -/
def ClassSlot.exchangeLimit (c : ClassSlot) : Nat := if c.limit = 0 then 2 ^ 24 else c.limit.toNat

/-- CLXCH_NO_PARTNER: a command not paired within its limit withdraws its announcement with result 7 (R285). -/
def execClxchNoPartner (g : Nat) (s : State) : Out :=
  match s.collFind g fun t r => r.phase == .announced && (t.slotOf r.e.instr).exchangeLimit ≤ s.clk - r.since
      && (s.die (g / 128)).announced.contains (g, t.sid) with
  | some (t, r) =>
    let w : Who := ⟨g, t.sid, r.e.who⟩
    .next ((s.unannounce w).collDone w r 7 0 0)
  | none => .next s

/-- CLXCH_EXCHANGE_FAILED: a side whose partner has gone, or a transfer request of which to another die has failed, writes zeros over
its receive buffer and completes with result 6 (R285). -/
def execClxchExchangeFailed (g : Nat) (s : State) : Out :=
  match s.collFind g fun t r => r.phase == .transfer && r.j != (t.slotOf r.e.instr).pieces &&
      (match r.partner with
       | none => true
       | some (g', _) => g' / 128 != g / 128) with
  | some (t, r) => .next (s.exchangeFail ⟨g, t.sid, r.e.who⟩ r)
  | none => .next s

end Sys2Proof.Machine
end

