-- ==== Sys2Proof/Machine/Galley.lean ====
section
/-! DEFINITION. Sys2Proof/Machine/Galley.lean: the galley class: the store (R291), entries (R292 to R294), recording (R295 to
R298, R303, R304), play (R299 to R301), and gsave, gload, gdrop and gstat (R306 to R309). -/

namespace Sys2Proof.Machine

/-! ### Entries (R292 to R294) -/

/-- The kind of an entry. -/
def entKind (e : BitVec 128) : Nat := (e.extractLsb' 124 4).toNat
/-- Fields of HDR. -/
def hdrCount (e : BitVec 128) : Nat := (e.extractLsb' 111 13).toNat
def hdrUsed (e : BitVec 128) : W16 := e.extractLsb' 95 16
def hdrStatus (e : BitVec 128) : Nat := (e.extractLsb' 93 2).toNat
def hdrReason (e : BitVec 128) : Nat := (e.extractLsb' 90 3).toNat
def hdrTenant (e : BitVec 128) : Byte := e.extractLsb' 82 8
def hdrCard (e : BitVec 128) : W16 := e.extractLsb' 66 16
def hdrByCard (e : BitVec 128) : Bool := e.getLsbD 65
/-- The token of an EXTK, with its k register. -/
def extkToken (e : BitVec 128) : Token :=
  { gen := e.extractLsb' 108 12, pte := e.extractLsb' 88 20, rights := e.extractLsb' 84 4, ms := e.getLsbD 83
    host := e.getLsbD 82, valid := e.getLsbD 81, lenm1 := e.extractLsb' 41 40 }
def extkReg (e : BitVec 128) : KReg := e.extractLsb' 120 4

/-- The header of a galley. -/
def Galley.hdr (g : Galley) : BitVec 128 := g.ent.headD 0
/-- The status of a slot as tval and gstat give it: 3 when empty. -/
def slotStatus : Option Galley → Nat
  | some g => hdrStatus g.hdr
  | none => 3

/-- The valid EXTK tokens of a galley. -/
def Galley.extks (g : Galley) : List Token :=
  (g.ent.filter fun e => entKind e == 6).filterMap fun e => if (extkToken e).valid then some (extkToken e) else none

/-! ### Installing and dropping (R131, R304, R308) -/

/-- The saved count of an entry that a token still names changes (R131). -/
def State.savedBy (s : State) (g : Nat) (t : Token) (up : Bool) : State :=
  let p := s.pin (g / 128) t.pte
  if p.gen != t.gen || p.state == .free then s
  else if up then s.setPin (g / 128) t.pte { p with saved := p.saved + 1 }
  else (s.setPin (g / 128) t.pte { p with saved := p.saved - 1 }).settlePin (g / 128) t.pte

/-- Drops the galley of a slot (R308). -/
def State.dropGalley (s : State) (g : Nat) (n : BitVec 3) : State :=
  match vget (s.core g).galley n with
  | none => s
  | some gal =>
    let s := s.updCore g fun k => { k with galley := vset k.galley n none }
    gal.extks.foldl (fun (s : State) t => s.savedBy g t false) s

/-- Installs a galley in a slot: the old one is dropped and saved counts rise (R304). -/
def State.installGalley (s : State) (g : Nat) (n : BitVec 3) (gal : Galley) : State :=
  let s := s.dropGalley g n
  let s := s.updCore g fun k => { k with galley := vset k.galley n (some gal) }
  gal.extks.foldl (fun (s : State) t => s.savedBy g t true) s

/-! ### Recording -/

/-- The recorded value of a slot; 0 when it was given none. -/
def Recording.slotVal (r : Recording) (s : Fin 16) : W64 := if r.used.getLsbD s.val then nget r.vals s else 0

/-- Bits [63:60] of the recorded values, slot s at bits [4s+3:4s] (R293). -/
def Recording.top (r : Recording) : W64 :=
  BitVec.ofNat 64 ((List.finRange 16).foldl (fun n s => n + (r.slotVal s).toNat / 2 ^ 60 * 2 ^ (4 * s.val)) 0)

/-- The VAL entries (R294). -/
def Recording.valEntries (r : Recording) : List (BitVec 128) :=
  (List.finRange 8).map fun i => valEntry (r.slotVal ⟨2 * i.val + 1, by omega⟩) (r.slotVal ⟨2 * i.val, by omega⟩)

/-- The galley that the end of a recording makes (R292, R297, R304); one that the pool cannot hold is smudged. -/
def Recording.finish (r : Recording) (used : Nat) : Galley :=
  let n := 10 + r.ent.length
  let r := if r.smudge == 0 && 4096 < used + n then r.smudged 4 else r
  if r.smudge != 0 then { ent := [hdrEntry 1 r.used 2 r.smudge r.tenant r.card r.bycard r.top] }
  else
    { ent := hdrEntry (BitVec.ofNat 13 n) r.used 1 0 r.tenant r.card r.bycard r.top
        :: (r.valEntries ++ r.ent.reverse ++ [endEntry]) }

/-- A recording begins in a set (R97, R303). -/
def State.startRecording (s : State) (g : Nat) (n : BitVec 3) (bycard : Bool) (card : W16) : State :=
  let t := s.aset g
  let r : Recording :=
    { g := n, tenant := t.tenant, bycard := bycard, card := card, sid := t.sid, base := t.tl.map (·.issued) }
  let s := s.updAct g fun t => { t with ctx := t.ctx.map fun x => { x with tag := Vector.replicate 32 .plain } }
  s.updCore g fun k => { k with rec_ := some r }

/-- GREC at issue (R303). -/
def State.grecIssue (s : State) (n : BitVec 3) : State :=
  let s := s.enter (.grec n) true
  match (s.core s.curCore).rec_ with
  | some r => s.smudge s.curCore r.sid 6
  | none => s.startRecording s.curCore n false 0

/-- GREC. -/
def execGrec (g : BitVec 3) (s : State) : Out :=
  if s.mySet.queueFull s.curCtx .gal then .next (s.holdMe (.queueFull .gal (.grec g))) else .next (s.grecIssue g)

/-- The recording of the active set ends; the gend numbered num installs it (R304). -/
def State.endRecording (s : State) (g num : Nat) : State :=
  let k := s.core g
  match k.rec_ with
  | some r =>
    if r.sid = k.act.sid then
      s.setCore g { k with rec_ := none, gReady := k.gReady ++ [⟨r.sid, num, r.g, r.finish k.galleyUsed⟩] }
    else s
  | none => s

/-- GEND at issue (R304). -/
def State.gendIssue (s : State) : State :=
  let s := s.enter .gend true
  s.endRecording s.curCore (s.mySet.time .tlg).issued

/-- GEND. -/
def execGend (s : State) : Out :=
  if s.mySet.queueFull s.curCtx .gal then .next (s.holdMe (.queueFull .gal .gend)) else .next s.gendIssue

/-- GPLAY (R305): it holds at its place in the queue, without a number, until its checks have passed. -/
def execGplay (xa : XReg) (g : BitVec 3) (xb : XReg) (s : State) : Out :=
  if s.mySet.queueFull s.curCtx .gal then .next (s.holdMe (.queueFull .gal (.gplay xa g xb)))
  else .next (s.enter (.gplay xa g xb) false)

/-- GSAVE (R306). -/
def execGsave (g : BitVec 3) (xa : XReg) (s : State) : Out := issueEngine (.gsave g xa) s
/-- GLOAD (R307). -/
def execGload (g : BitVec 3) (xa : XReg) (s : State) : Out := issueEngine (.gload g xa) s
/-- GDROP (R308). -/
def execGdrop (g : BitVec 3) (s : State) : Out := issueEngine (.gdrop g) s
/-- GSTAT (R309). -/
def execGstat (xa : XReg) (g : BitVec 3) (s : State) : Out := issueEngine (.gstat xa g) s

/-! ### Reads and writes of the sequencer -/

/-- Where n bytes at a captured pointer lie for a read or a write (R119, R306, R307). -/
def State.galPlaces (s : State) (g : Nat) (p : EPtr) (n : Nat) (write : Bool) : List (Int × Except (BitVec 8) Nat) :=
  (span 0 n).map fun d => (d, s.eptrByte g p (if write then fun _ => 2 else readRights)
    (if write then ByteFail.writeBit else ByteFail.readBit) d)

/-- The plan of a read of n bytes at a captured pointer, and of a write of bytes there (R236, R249). -/
def State.galReads (s : State) (g : Nat) (p : EPtr) (n : Nat) : Plan :=
  s.readPlan g (s.eptrVia g p) p.pte ((s.galPlaces g p n false).filterMap fun x => x.2.toOption)
def State.galWrites (s : State) (g : Nat) (p : EPtr) (b : List (Byte × Bool)) : Plan :=
  s.writePlan g (s.eptrVia g p) p.pte (((s.galPlaces g p b.length true).zip b).filterMap fun x => match x.1.2 with
    | .ok a => some (a, x.2)
    | .error _ => none)

/-- The bytes of a read, with the answers to its line requests: a failing byte reads 0. -/
def State.galPeek (s : State) (g : Nat) (l : Fates) (p : EPtr) (n : Nat) : List (Byte × Bool) :=
  (s.galPlaces g p n false).map fun x => match x.2 with
    | .error _ => (0, false)
    | .ok a => match s.fateOf l g a false (s.eptrVia g p) with
      | .ok => s.answeredByte l a
      | _ => (0, true)

/-- The mstat bits and the denied offsets of some bytes. -/
def placeFaults (p : EPtr) (denied : BitVec 8) (l : List (Int × Except (BitVec 8) Nat)) : BitVec 8 × List Nat :=
  (l.foldl (fun (m : BitVec 8) x => match x.2 with | .ok _ => m | .error b => m ||| b) 0,
   l.filterMap fun x => match x.2 with
    | .ok _ => none
    | .error b => if b = denied then some (p.offset x.1) else none)

/-- Reads n bytes at a captured pointer with right R: failing bytes read 0 and their mstat bits are answered (R306, R307). R121
names no operation code for the reads of gload, of a patch vector and of jpost's card: the denials are recorded as of a load
(DESIGN CHOICE, log entry 25). -/
def State.galRead (s : State) (w : Who) (l : Fates) (p : EPtr) (n : Nat) : List (Byte × Bool) × BitVec 8 × State :=
  let places := s.galPlaces w.g p n false
  let (mst, den) := placeFaults p mDnr places
  let bytes := s.galPeek w.g l p n
  let (s, _) := s.engineDenials w p 0 [] den
  (bytes, mst, s.countLines l w.g false (s.eptrVia w.g p) (places.filterMap fun x => x.2.toOption))

/-- Bytes have been written at a captured pointer with right W (R306): failing bytes were dropped. The denials are recorded as of a
store (DESIGN CHOICE, log entry 25). -/
def State.galWrote (s : State) (w : Who) (l : Fates) (p : EPtr) (n : Nat) : BitVec 8 × FailRec × State :=
  let places := s.galPlaces w.g p n true
  let (mst, den) := placeFaults p mDnw places
  let (s, _) := s.engineDenials w p 1 [] den
  let (f, s) := s.lineFates l w.g true (s.eptrVia w.g p) (places.filterMap fun x => x.2.toOption)
  (mst, fateRecord f, s)

/-! ### The checks of a play (R299) -/

/-- The relation of a branch, by funct3 (R294). -/
def guardRel (f3 : Nat) (a b : W64) : Bool :=
  match f3 with
  | 0 => a == b
  | 1 => a != b
  | 4 => a.slt b
  | 5 => !a.slt b
  | 6 => a.ult b
  | _ => !a.ult b

/-- Word s of a patch vector, plus a delta. -/
def patchWord (p : Vector W64 16) (sl : BitVec 4) (d : W64) : W64 := vget p sl + d

/-- A GUARD holds for a patch vector. -/
def guardOk (p : Vector W64 16) (e : BitVec 128) : Bool :=
  let v := patchWord p (e.extractLsb' 120 4) ((e.extractLsb' 64 48).signExtend 64)
  let c : W64 := e.extractLsb' 0 64
  let f3 := (e.extractLsb' 117 3).toNat
  (if e.getLsbD 116 then guardRel f3 c v else guardRel f3 v c) == e.getLsbD 115

/-- An EXTK passes for a tenant (R299). -/
def State.extkOk (s : State) (g : Nat) (tenant : Byte) (t : Token) : Bool :=
  let p := s.pin (g / 128) t.pte
  !t.valid || (p.gen == t.gen && p.state != .free && p.tenant == tenant && p.rights == t.rights && p.lenm1 == t.lenm1)

/-- What the checks of a play give: the state, with the play table, or the cause and tval of the first failure. -/
inductive PlayFound where
  | ok (table : Vector Token 16) (s : State)
  | fail (k : Cause) (v : Nat) (s : State)
  deriving Repr

/-- The entries of some kind of a galley, with their indices and error marks. -/
def Galley.ofKind (gal : Galley) (kind : Nat) : List (BitVec 128 × Nat × Bool) :=
  (gal.ent.zipIdx.filter fun e => entKind e.1 == kind).map fun e => (e.1, e.2, gal.bad.contains e.2)

/-- What the guards and the external tokens of the galley of a slot give for a context's set (R299): the play table, or the cause
and tval of the first failure. -/
def State.playGuards (s : State) (g : Nat) (n : BitVec 3) (p : Vector W64 16) : Except (Cause × Nat) (Vector Token 16) :=
  let t := s.aset g
  match vget (s.core g).galley n with
  | none => .error (.gsmd, 0x300)
  | some gal =>
    let mism := hdrTenant gal.hdr != t.tenant
    if mism || hdrStatus gal.hdr != 1 || gal.bad.contains 0 then
      .error (.gsmd, (if mism then 0x400 else 0) + hdrStatus gal.hdr * 0x100 + (if gal.bad.contains 0 then 0 else hdrReason gal.hdr))
    else
      match (gal.ofKind 1).find? fun e => e.2.2 || !guardOk p e.1 with
      | some (_, i, bad) => .error (if bad then (.gsmd, 0x100) else (.ggrd, i))
      | none =>
        match (gal.ofKind 6).find? fun e => e.2.2 || !s.extkOk g t.tenant (extkToken e.1) with
        | some (_, i, bad) => .error (if bad then (.gsmd, 0x100) else (.gstl, i))
        | none => .ok ((gal.ofKind 6).foldl (fun (v : Vector Token 16) e => vset v (extkReg e.1) (extkToken e.1)) t.k)

/-- The indices of the prologue translates of the galley of a slot. -/
def State.playXlats (s : State) (g : Nat) (n : BitVec 3) : List Nat :=
  match vget (s.core g).galley n with
  | none => []
  | some gal => (gal.ofKind 2).map fun e => e.2.1

/-- One prologue translate of a play, in the issuing context (R299, R300): that of entry i of the galley of a slot. -/
def State.playXlat (s : State) (g : Nat) (c : CtxId) (n : BitVec 3) (p : Vector W64 16) (table : Vector Token 16) (i : Nat) :
    PlayFound :=
  match (vget (s.core g).galley n).bind fun gal => gal.ent[i]?.map fun e => (e, gal.bad.contains i) with
  | none => .ok table s
  | some (e, bad) =>
    if bad then .fail .gsmd 0x100 s
    else
      let kd : KReg := e.extractLsb' 120 4
      let va : W64 := if e.getLsbD 114 then patchWord p (e.extractLsb' 110 4) (e.extractLsb' 0 64) else e.extractLsb' 0 64
      match s.translate g c kd va ((e.extractLsb' 70 40).setWidth 64 + 1) (e.extractLsb' 116 4) (e.getLsbD 115) with
      | .trap _ _ => .fail .gtrn i s
      | .token t s => .ok (vset table kd t) s

/-- Some prologue translates, one after another. -/
def State.playXlatsAll (s : State) (g : Nat) (c : CtxId) (n : BitVec 3) (p : Vector W64 16) (table : Vector Token 16) :
    List Nat → PlayFound
  | [] => .ok table s
  | i :: l =>
    match s.playXlat g c n p table i with
    | .ok table s => s.playXlatsAll g c n p table l
    | f => f

/-- The checks of R299 of the galley of a slot, for a context of the active set, as a card play makes them (R302). -/
def State.playChecks (s : State) (g : Nat) (c : CtxId) (n : BitVec 3) (p : Vector W64 16) : PlayFound :=
  match s.playGuards g n p with
  | .error (k, v) => .fail k v s
  | .ok table => s.playXlatsAll g c n p table (s.playXlats g n)

/-- Sixteen 64-bit words of 128 bytes. -/
def patchOf (b : List Byte) : Vector W64 16 := Vector.ofFn fun i => BitVec.ofNat 64 (leNat ((b.drop (8 * i.val)).take 8))

/-- The entries of a galley that a play feeds. -/
def Galley.feed (gal : Galley) : List PlayEnt :=
  (gal.ent.zipIdx.filter fun e => entKind e.1 == 3 || entKind e.1 == 4 || entKind e.1 == 5).map fun e =>
    ⟨e.1, e.2, gal.bad.contains e.2⟩

/-- A play whose checks have passed takes its tlg number and begins to feed (R299, R300): its own copy of the entries of the galley,
from which one that is pre-empted feeds on, whatever has become of the slot since (DESIGN CHOICE, log entry 71). -/
def State.beginPlay (s : State) (g : Nat) (c : CtxId) (n : BitVec 3) (p : Vector W64 16) (table : Vector Token 16)
    (card : Bool) : State :=
  match vget (s.core g).galley n with
  | none => s
  | some gal =>
    s.updAct g fun t =>
      let t := { t with tl := nset t.tl (tlIdx .tlg) (nget t.tl (tlIdx .tlg)).take }
      let num := (nget t.tl (tlIdx .tlg)).issued
      let run : PlayRun :=
        { num := num, ctx := c, slot := n, rest := gal.feed, patch := p, table := table, base := t.tl.map (·.issued), card := card }
      { t with plays := t.plays ++ [run], cardPlay := if card then some num else t.cardPlay }

/-- The head of a set's galley queue, which every earlier play has fed its last command for (R299, R308). -/
def CtxSet.galHead (t : CtxSet) : Option Entry := if t.plays.isEmpty then t.gq.head? else none

/-- A gplay whose patch vector is withdrawn (R127): its context takes REVK before it. -/
def State.playWithdrawn (s : State) (g : Nat) (e : Entry) (pte : BitVec 20) : State :=
  (s.updAct g fun t => t.updCtx e.ctx (Ctx.withdrawn pte (some e.queue))).updAct g fun t => { t with gq := t.gq.drop 1 }

/-- The gplay at the head fails a check: its context traps before it (R299). -/
def State.playFails (s : State) (g : Nat) (e : Entry) (k : Cause) (v : Nat) : State :=
  (s.trap g e.ctx k (BitVec.ofNat 64 v) (s.ctx g e.ctx).pc).releaseAll g e.tokens

/-- The gplay at the head has passed its checks: the play is enqueued, and xa takes its number (R299). -/
def State.playPasses (s : State) (g : Nat) (e : Entry) (xa : XReg) (n : BitVec 3) (pv : Vector W64 16) (table : Vector Token 16) :
    State :=
  let s := s.updAct g fun t => { t with gq := t.gq.drop 1, gcheck := none }
  let s := s.beginPlay g e.ctx n pv table false
  let num := ((s.aset g).time .tlg).issued
  let s := s.updCtx g e.ctx fun x => (x.wx xa (BitVec.ofNat 64 num) .vol false).goOn
  s.releaseAll g e.tokens

/-- The checks of the gplay at the head go on, or it has passed them. -/
def State.playGoesOn (s : State) (g : Nat) (e : Entry) (xa : XReg) (n : BitVec 3) (c : PlayCheck) : State :=
  if c.rest.isEmpty then s.playPasses g e xa n c.patch c.table else s.updAct g fun t => { t with gcheck := some c }

/-- GALLEY_PLAY_CHECK: the gplay at the head of the queue reads its patch vector and checks the guards and the external tokens, and
then performs one translate in each step (R115, R299): a failure traps before it, and a pass enqueues the play and writes xa. -/
def execGalleyPlayCheck (g : Nat) (s : State) : Out :=
  let t := s.aset g
  match if t.leaving && !s.begun g t.sid .gal then none else t.galHead with
  | none => .next s
  | some e =>
    match e.instr, t.gcheck with
    | .gplay xa n _, some c =>
      (match c.rest with
       | [] => .next (s.playGoesOn g e xa n c)
       | i :: l =>
         match s.playXlat g e.ctx n c.patch c.table i with
         | .fail k v s => .next (s.playFails g e k v)
         | .ok table s => .next (s.playGoesOn g e xa n { c with table := table, rest := l }))
    | .gplay xa n _, none =>
      let p := s.eptr g e.x1 e.k1
      (match if s.begun g t.sid .gal then none else s.issuePoints g [p] with
       | some (.stall pte) => .next (s.engineStall g .gal e.who pte)
       | some (.withdrawn pte) => .next (s.playWithdrawn g e pte)
       | _ =>
         let w : Who := ⟨g, t.sid, e.ctx⟩
         match s.carry w t.reqtag .gal (s.galReads g p 128) with
         | (none, s) => .next s
         | (some f, s) =>
           let (b, mst, s) := s.galRead w f p 128
           let s := (s.orMstat w mst).updAct g fun t => t.unstall .gal e.who
           let s := if bytesBad b then s.collConsume w (p.offset 0) else s
           let pv := patchOf (b.map (·.1))
           match s.playGuards g n pv with
           | .error (k, v) => .next (s.playFails g e k v)
           | .ok table => .next (s.playGoesOn g e xa n { patch := pv, table := table, rest := s.playXlats g n }))
    | _, _ => .next s

/-! ### The feed (R300) -/

/-- The operand of an OPND for a field. -/
def opndValue (p : Vector W64 16) (l : List PlayEnt) (field : Nat) : W64 :=
  match l.find? fun x => (x.e.extractLsb' 122 2).toNat == field with
  | some x => if x.e.getLsbD 121 then patchWord p (x.e.extractLsb' 117 4) (x.e.extractLsb' 0 64) else x.e.extractLsb' 0 64
  | none => 0

/-- A context of its 2-bit code. -/
def ctxOfCode (c : BitVec 2) : CtxId := if c.toNat = 0 then 0 else if c.toNat = 1 then 1 else 2

/-- The token that a play's pointer operand captures: from the play table. -/
def playTok (table : Vector Token 16) (is : Bool) (p : W64) : Option Token :=
  if is && p.extractLsb' 60 4 == 2 then some (vget table (p.extractLsb' 52 4 : BitVec 4)) else none

/-- The entry that a CMD and its OPNDs feed for a play. -/
def feedEntry (p : PlayRun) (sup : Bool) (cmd : BitVec 128) (ops : List PlayEnt) (i : Instr) : Entry :=
  let (a, b, c) := ptrSources i
  let x0 := opndValue p.patch ops 0
  let x1 := opndValue p.patch ops 1
  let x2 := opndValue p.patch ops 2
  { ctx := ctxOfCode (cmd.extractLsb' 122 2), who := p.ctx, instr := i, x0 := x0, x1 := x1, x2 := x2
    k0 := playTok p.table a x0, k1 := playTok p.table b x1, k2 := playTok p.table c x2
    rm := cmd.extractLsb' 115 3, sup := sup, play := some p.num }

/-- The unit and word of a CMD (R294). -/
def cmdInstr (e : BitVec 128) : Option Instr :=
  let u : LaneUnit := if (e.extractLsb' 120 2).toNat = 1 then .v else .e
  match decode u (e.extractLsb' 0 32) with
  | .ok i => some i
  | .error _ => none

/-- Appends a fed command to its queue with the next number of its timeline (R268, R300). -/
def CtxSet.feedCmd (t : CtxSet) (p : PlayRun) (e : Entry) (rest : List PlayEnt) : CtxSet :=
  let q := engQueue e.instr
  match q.timeline with
  | none => t
  | some l =>
    let n := (t.time l).issued + 1
    let t := t.enqueue q e true
    { t with plays := t.plays.map fun y =>
      if y.num = p.num then { y with rest := rest, took := nset y.took (tlIdx l) (nget y.took (tlIdx l) ++ [n]) } else y }

/-- The first token of a list whose issue point does not pass, with what it finds (R123). -/
def State.tokensIssue (s : State) (g : Nat) (l : List Token) : IssueCheck × BitVec 20 :=
  match l.find? fun t => t.valid && s.issueCheck g t != .go with
  | some t => (s.issueCheck g t, t.pte)
  | none => (.go, 0)

/-- A play is withdrawn at its feed of an entry (R301): it feeds no more, and what it fed and has not begun is discarded. -/
def State.feedWithdrawn (s : State) (g : Nat) (p : PlayRun) (e : Entry) (pte : BitVec 20) : State :=
  let old := (s.aset g).tokens
  let s := s.updAct g fun t =>
    let t := (t.discardWhere fun _ y => y.play == some p.num).stopPlay p.num
    (t.updCtx p.ctx fun x => { (Ctx.withdrawn pte (some e.queue) x) with mstat := x.mstat ||| mWdr }).unstall .gal p.ctx
  s.releaseAll g old.dedup

/-- An entry that a play feeds has an uncorrectable error: since before the play began, or since (R291). -/
def State.feedBad (s : State) (g : Nat) (p : PlayRun) (x : PlayEnt) : Bool :=
  x.bad || (match vget (s.core g).galley p.slot with
    | some gal => gal.bad.contains x.i && gal.ent[x.i]? == some x.e
    | none => false)

/-- The head of a play leaves its feed. -/
def CtxSet.feedRest (t : CtxSet) (p : PlayRun) (rest : List PlayEnt) : CtxSet :=
  { t with plays := t.plays.map fun y => if y.num = p.num then { y with rest := rest } else y }

/-- A poisoned command takes its number and completes without being performed (R291; DEDUCED, log entry 25). -/
def CtxSet.feedDead (t : CtxSet) (p : PlayRun) (i : Instr) (rest : List PlayEnt) : CtxSet :=
  match (engQueue i).timeline with
  | none => t.feedRest p rest
  | some l =>
    let n := (t.time l).issued + 1
    let t := ({ t with tl := nset t.tl (tlIdx l) (nget t.tl (tlIdx l)).take }).complete l n
    { t with plays := t.plays.map fun y =>
        if y.num = p.num then { y with rest := rest, took := nset y.took (tlIdx l) (nget y.took (tlIdx l) ++ [n]) } else y }

/-- An uncorrectable error in a command being fed (R291): the command is poisoned, and the tag of the play's issuer is purged. An
entry of which no command can be read ends the feed. -/
def State.feedPoisoned (s : State) (g : Nat) (p : PlayRun) (i : Option Instr) (rest : List PlayEnt) : State :=
  (s.updAct g fun t => match i with
    | some i => t.feedDead p i rest
    | none => t.stopPlay p.num).collConsume ⟨g, (s.aset g).sid, p.ctx⟩ 0

/-- The sequencer appends after slots A and B of its clk (R300). -/
def State.useFeed (s : State) (g : Nat) : State := s.updCore g fun k => { k with aFrom := s.clk + 1, bFrom := s.clk + 1 }

/-- A command that a play feeds joins its queue, unless entries of the queue from its context are being discarded up to a REVK that
the context has still to take (R127): then it takes its number and is discarded. -/
def CtxSet.feedOrDiscard (t : CtxSet) (p : PlayRun) (e : Entry) (rest : List PlayEnt) : CtxSet :=
  let t' := t.feedCmd p e rest
  if (nget t.ctx e.who).pend.queues.contains e.queue then
    match (engQueue e.instr).timeline with
    | some l => t'.discardWhere fun q y => q == engQueue e.instr && y.play == some p.num && y.num == (t'.time l).issued
    | none => t'
  else t'

/-- GALLEY_FEED: the play at the head of the sequencer feeds its next command, or ends its feed (R300). A full queue or an
occulted token holds the feed. -/
def execGalleyFeed (g : Nat) (s : State) : Out :=
  let t := s.aset g
  match if t.leaving then [] else t.plays with
  | [] => .next s
  | p :: _ =>
    match p.rest with
    | [] => .next (s.updAct g fun t => { t with plays := t.plays.drop 1, fed := t.fed ++ [p] })
    | x :: rest =>
      if entKind x.e != 3 then .next s
      else
        let n := (x.e.extractLsb' 118 2).toNat
        let ops := rest.take n
        match cmdInstr x.e with
        | none => .next (s.feedPoisoned g p none [])
        | some i =>
          if s.feedBad g p x || ops.any (s.feedBad g p) then .next ((s.useFeed g).feedPoisoned g p (some i) (rest.drop n))
          else
            let y := feedEntry p (nget t.ctx p.ctx).sup x.e ops i
            if t.queueFull y.ctx (engQueue i) then .next s
            else
              match s.tokensIssue g y.tokens with
              | (.stall, pte) => .next (s.engineStall g .gal p.ctx pte)
              | (.withdrawn, pte) => .next (s.feedWithdrawn g p y pte)
              | (.go, _) =>
                let s := (s.useFeed g).updAct g fun t => (t.feedOrDiscard p y (rest.drop n)).unstall .gal p.ctx
                .next (y.tokens.foldl (fun (s : State) k => s.held g k) s)

/-- A timeline of its code; codes above 4 name none. -/
def tlOfCode (n : Nat) : Option Timeline :=
  match n with
  | 0 => some .tlv | 1 => some .tlm | 2 => some .tls | 3 => some .tlc | 4 => some .tlg | _ => none

/-- The wait of a WAIT entry is over (R300). -/
def PlayRun.waitOver (p : PlayRun) (t : CtxSet) (e : BitVec 128) : Bool :=
  match tlOfCode (e.extractLsb' 119 3).toNat with
  | none => true
  | some l =>
    let rel := (e.extractLsb' 0 64).toInt
    if 1 ≤ rel then
      match (nget p.took (tlIdx l))[rel.toNat - 1]? with
      | some n => n ≤ (t.time l).done
      | none => false
    else ((nget p.base (tlIdx l) : Nat) : Int) + rel ≤ ((t.time l).done : Int)

/-- GALLEY_WAIT_RELEASE: a WAIT at the head of the feed whose count is complete lets the feed go on, and acquires (R268,
R300). -/
def execGalleyWaitRelease (g : Nat) (s : State) : Out :=
  let t := s.aset g
  match if t.leaving then [] else t.plays with
  | [] => .next s
  | p :: _ =>
    match p.rest with
    | x :: rest =>
      if entKind x.e = 5 then
        if s.feedBad g p x then .next (s.feedPoisoned g p none [])
        else if p.waitOver t x.e then .next ((s.updAct g fun t => t.feedRest p rest).selfInvalidate g)
        else .next s
      else if entKind x.e = 4 then .next (s.updAct g fun t => t.feedRest p rest)
      else .next s
    | [] => .next s

/-- A number of a timeline has completed. -/
def TLine.completed (t : TLine) (n : Nat) : Bool := n ≤ t.done || t.ahead.contains n

/-- Every command that a play fed has completed (R300). -/
def CtxSet.playDone (t : CtxSet) (p : PlayRun) : Bool :=
  ([.tlv, .tlm, .tls, .tlc, .tlg] : List Timeline).all fun l => (nget p.took (tlIdx l)).all (t.time l).completed

/-! ### gend, gsave, gload, gdrop and gstat in queue order -/

/-- The head of the queue has executed: it completes on tlg with its mstat bits and failures. -/
def State.galDone (s : State) (g : Nat) (e : Entry) (mst : BitVec 8) (fail : FailRec) : State :=
  (s.updAct g fun t => ({ t with gq := t.gq.drop 1 }.completeEntry e 0 mst fail).unstall .gal e.who).releaseAll g e.tokens

/-- GALLEY_INSTALL: the gend at the head of the queue installs the galley its issue finished (R304). -/
def execGalleyInstall (g : Nat) (s : State) : Out :=
  let t := s.aset g
  match if t.leaving then none else t.galHead with
  | none => .next s
  | some e =>
    match e.instr with
    | .gend =>
      match (s.core g).gReady.find? fun f => f.sid == t.sid && f.num == e.num with
      | none => .next (s.galDone g e 0 {})
      | some f =>
        let s := s.updCore g fun k => { k with gReady := k.gReady.filter fun x => x != f }
        .next ((s.installGalley g f.g f.gal).galDone g e 0 {})
    | _ => .next s

/-- The last result of a slot (R309). -/
def State.setLast (s : State) (g : Nat) (n : BitVec 3) (v : BitVec 4) : State :=
  s.updCore g fun k => { k with gLast := vset k.gLast n v }

/-- The bytes of a galley in memory (R306): those of an entry with an uncorrectable error are poisoned (R328). -/
def Galley.bytes (g : Galley) : List (Byte × Bool) :=
  (g.ent.zipIdx.map fun e => (leBytes 16 e.1.toNat).map fun b => (b, g.bad.contains e.2)).flatten

/-- The galley of a slot, when a context of a tenant may save it (R306). -/
def savable (tenant : Byte) : Option Galley → Option Galley
  | some gal => if hdrStatus gal.hdr != 1 || hdrTenant gal.hdr != tenant then none else some gal
  | none => none

/-- What the sequencer asks for, for the copy at the head of its queue. -/
def XKey.isGal : XKey → Bool
  | .gal | .galBody => true
  | _ => false

/-- An access of the sequencer passes its issue point (R123) once its line requests have been answered (R236), or the entry at the
head is withdrawn (R127). -/
def State.galIssue (s : State) (g : Nat) (e : Entry) (key : XKey) (p : EPtr) (plan : Plan) (act : State → Fates → State) : State :=
  let t := s.aset g
  match if s.begun g t.sid key then none else s.issuePoints g [p] with
  | some (.stall pte) => s.engineStall g .gal e.who pte
  | some (.withdrawn pte) => ((s.orphan g t.sid XKey.isGal).galDone g e mWdr {}).withdrawCmd g e pte
  | _ =>
    match s.carry ⟨g, t.sid, e.who⟩ t.reqtag key plan with
    | (none, s) => s
    | (some f, s) => act s f

/-- GSAVE's effect (R306): a slot that is not set, or is another tenant's, makes no request. -/
def State.gsaveAct (s : State) (g : Nat) (e : Entry) (n : BitVec 3) : State :=
  let t := s.aset g
  match savable t.tenant (vget (s.core g).galley n) with
  | none => (s.setLast g n 1).galDone g e 0 {}
  | some gal =>
    let p := s.eptr g e.x0 e.k0
    s.galIssue g e .gal p (s.galWrites g p gal.bytes) fun s f =>
      let (mst, fail, s) := s.galWrote ⟨g, t.sid, e.who⟩ f p gal.bytes.length
      (s.setLast g n 0).galDone g e mst fail

/-- Bits [lo + len - 1 : lo] of an entry are 0. -/
def zeros (e : BitVec 128) (lo len : Nat) : Bool := e.toNat / 2 ^ lo % 2 ^ len == 0

/-- A GUARD, XLAT, CMD, OPND, WAIT or EXTK entry of a copy is acceptable in itself (R294, R307): the bit ranges that R294 does not
list are 0, and a CMD has a unit and a word that R295 records. -/
def entryOk (e : BitVec 128) : Bool :=
  match entKind e with
  | 1 => zeros e 112 3
  | 2 => zeros e 64 6
  | 3 =>
    let u := (e.extractLsb' 120 2).toNat
    zeros e 32 83 && (u == 1 || u == 2)
      && (match cmdInstr e with
          | some i => recordable i && !unrecorded i
          | none => false)
  | 4 => zeros e 64 53
  | 5 => zeros e 64 55
  | 6 => zeros e 0 41
  | _ => false

/-- Each CMD has exactly its number of OPND entries after it (R307): n are still due. -/
def opndsOk : Nat → List (BitVec 128) → Bool
  | n, [] => n == 0
  | n, e :: l =>
    if entKind e = 4 then n != 0 && opndsOk (n - 1) l
    else n == 0 && opndsOk (if entKind e = 3 then (e.extractLsb' 118 2).toNat else 0) l

/-- The checks of R307 on a copy of N entries after its header. -/
def copyOk (ent : List (BitVec 128)) : Bool :=
  let body := (ent.drop 9).dropLast
  (((ent.drop 1).take 8).all fun e => entKind e == 7 && zeros e 120 4)
    && ent.getLast? == some endEntry && body.all entryOk && opndsOk 0 body

/-- The header of a copy is acceptable for a tenant (R307). -/
def copyHdrOk (tenant : Byte) (h : BitVec 128) : Bool :=
  entKind h == 0 && hdrStatus h == 1 && hdrTenant h == tenant && 10 ≤ hdrCount h && hdrCount h ≤ 4096 && !h.getLsbD 64

/-- Entries of their bytes. -/
def entriesOf (n : Nat) (b : List Byte) : List (BitVec 128) :=
  (List.range n).map fun i => BitVec.ofNat 128 (leNat ((b.drop (16 * i)).take 16))

/-- A slot holds a galley of another tenant, which gload does not replace (R291). -/
def otherTenant (tenant : Byte) : Option Galley → Bool
  | some g => hdrTenant g.hdr != tenant
  | none => false

/-- The entries of which some byte is poisoned: the copy carries the mark into the store (R291, R328). -/
def badEntries (b : List (Byte × Bool)) (n : Nat) : List Nat :=
  (List.range n).filter fun i => bytesBad ((b.drop (16 * i)).take 16)

/-- The result of gload for the entries of a copy that it has read (R307). -/
def State.gloadResult (s : State) (g : Nat) (gal : Galley) : BitVec 4 :=
  let k := s.core g
  let used := k.galleyUsed + (match k.rec_ with
    | some r => if r.smudge == 0 then 9 + r.ent.length else 1
    | none => 0)
  if !copyOk gal.ent then 2
  else if !gal.extks.all (s.extkOk g (s.aset g).tenant) then 3
  else if 4096 < used + gal.ent.length then 4 else 0

/-- GLOAD's effect (R307): the header is read, and then the whole copy. -/
def State.gloadAct (s : State) (g : Nat) (e : Entry) (n : BitVec 3) : State :=
  let t := s.aset g
  let w : Who := ⟨g, t.sid, e.who⟩
  let p := s.eptr g e.x0 e.k0
  s.galIssue g e .gal p (s.galReads g p 16) fun s f =>
    let h := (entriesOf 1 ((s.galPeek g f p 16).map (·.1))).headD 0
    if !copyHdrOk t.tenant h || otherTenant t.tenant (vget (s.core g).galley n) then
      let (_, mst, s) := s.galRead w f p 16
      (s.setLast g n 2).galDone g e mst {}
    else
      (s.setXfer g t.sid .gal (some { key := .gal, sid := t.sid, lines := f.lines, got := f.got })).galIssue g e .galBody p
          (s.galReads g p (16 * hdrCount h)) fun s f =>
        let (b, mst, s) := (s.setXfer g t.sid .gal none).galRead w f p (16 * hdrCount h)
        let gal : Galley := { ent := entriesOf (hdrCount h) (b.map (·.1)), bad := badEntries b (hdrCount h) }
        let r := s.gloadResult g gal
        let s := if r == 0 then s.installGalley g n gal else s
        (s.setLast g n r).galDone g e mst {}

/-- The word of gstat (R309): a recording into the slot in progress is what it describes. -/
def State.gstatWord (s : State) (g : Nat) (n : BitVec 3) : W64 :=
  let k := s.core g
  let word (used : W16) (tenant : Byte) (card : W16) (bycard : Bool) (reason status count : Nat) : W64 :=
    BitVec.ofNat 64 (used.toNat * 2 ^ 48 + tenant.toNat * 2 ^ 40 + card.toNat * 2 ^ 24 + (if bycard then 2 ^ 23 else 0)
      + reason * 2 ^ 20 + status * 2 ^ 18 + (vget k.gLast n).toNat * 2 ^ 13 + count)
  let held : W64 := match vget k.galley n with
    | some gal => word (hdrUsed gal.hdr) (hdrTenant gal.hdr) (hdrCard gal.hdr) (hdrByCard gal.hdr) (hdrReason gal.hdr)
        (hdrStatus gal.hdr) (hdrCount gal.hdr)
    | none => word 0 0 0 false 0 3 0
  match k.rec_ with
  | some r =>
    if r.g == n then
      word r.used r.tenant r.card r.bycard r.smudge.toNat 0 (if r.smudge == 0 then 9 + r.ent.length else 1)
    else held
  | none => held

/-- GALLEY_ENTRY_EXECUTE: the head of the galley queue executes in queue order (R303, R306 to R309). -/
def execGalleyEntryExecute (g : Nat) (s : State) : Out :=
  let t := s.aset g
  match if t.leaving && !s.begun g t.sid .gal && !s.begun g t.sid .galBody then none else t.galHead with
  | none => .next s
  | some e =>
    match e.instr with
    | .gplay .. | .gend => .next s
    | .gsave n _ => .next (s.gsaveAct g e n)
    | .gload n _ => .next (s.gloadAct g e n)
    | .gdrop n =>
      if otherTenant t.tenant (vget (s.core g).galley n) then .next (s.galDone g e 0 {})
      else .next ((s.dropGalley g n).galDone g e 0 {})
    | .gstat _ n => .next ((s.deliver g e (s.gstatWord g n)).galDone g e 0 {})
    | _ => .next (s.galDone g e 0 {})

end Sys2Proof.Machine
end

