-- ==== Sys2Proof/Machine/Cards.lean ====
section
/-! DEFINITION. Sys2Proof/Machine/Cards.lean: the dispatchers: acceptance (R315 to R317), tiles (R318), selection (R320, R321),
placement and binding (R322, R324), the start of a party (R302, R324) and retirement (R17, R312, R319). -/

namespace Sys2Proof.Machine

/-! ### Cards and their status (R312) -/

/-- The status word of a card. -/
def Card.status (c : Card) (code detail : Nat) : W64 :=
  let b (x : Bool) (n : Nat) : Nat := if x then 2 ^ n else 0
  BitVec.ofNat 64 (detail * 2 ^ 32 + b c.stFail 12 + b c.noSucc 11 + b c.fallback 10 + b c.recorded 9 + b c.played 8 + code)

/-- A held card of a queue position: one that is not final. -/
def State.heldAt (s : State) (d : Fin 8) (q : BitVec 6) (pos : W32) : Bool :=
  s.cards.any fun e => e.2.die == d && e.2.queue == q && e.2.pos == pos && e.2.st != .final

/-- free passes over every final position in order (R315). -/
def State.passFinal (s : State) (d : Fin 8) (q : BitVec 6) (head : W32) : Nat → W32 → W32
  | 0, p => p
  | n + 1, p => if p == head || s.heldAt d q p then p else s.passFinal d q head n (p + 1)

/-- Moves a queue's free position on. -/
def State.advanceFree (s : State) (d : Fin 8) (q : BitVec 6) : State :=
  let k := s.qdesc d.val q
  let p := s.passFinal d q k.head 4096 k.free
  if p == k.free then s else s.setQField d.val q 24 p

/-- Writes the final status word of a card, in the die's own memory (R4), and frees its position; the host is notified when asked
(R312, R315). -/
def State.writeFinal (s : State) (c : Card) (code detail : Nat) (tell : Bool) : State :=
  let k := s.qdesc c.die.val c.queue
  let s := s.dieWrite c.die.val (k.slotAddr c.pos + 224) (leBytes 8 (c.status code detail).toNat)
  let s := s.advanceFree c.die c.queue
  if tell && (c.word 0).getLsbD 63 then s.notifyDie c.die.val else s

/-- A saved reference of a token is given up (R131). -/
def State.dropSaved (s : State) (d : Nat) (t : Token) : State := s.savedBy (128 * d) t false

/-- The tokens of a card's tiles that no job start has placed, and its staging frames, are released (R131, R318). -/
def State.releaseTiles (s : State) (c : Card) : State :=
  let d := c.pdie
  let s := if c.bound = 0 then c.tiles.foldl (fun (s : State) t => s.dropSaved d t.2) s else s
  s.updDie d fun x => { x with staged := x.staged.filter fun f => !c.frames.contains f }

/-- Lines kept by hints of a card's parties are no longer kept (R155), and its barriers end (R226). -/
def State.forgetCard (s : State) (n : Nat) : State :=
  { s with
    dies := s.dies.map fun d => { d with kept := d.kept.filter fun k => k.card != some n }
    bars := s.bars.filter fun b => b.card != n
    arrivals := s.arrivals.filter fun a => a.card != n }

/-! ### Virtual addresses read by the dispatcher (R302, R317) -/

/-- The location of the byte at a virtual address, whether its leaf is a host extent's, and the leaf's rights. -/
def State.vaByte (s : State) (d root va : Nat) : Option (Nat × Bool × BitVec 4) :=
  if 2 ^ 48 ≤ va then none
  else
    match s.walkPage d root (va / 2 ^ 21 * 2 ^ 21) with
    | none => none
    | some e =>
      if leafHost e then
        match hostFrame (s.dieRead d (e / 2 ^ 12 % 2 ^ 47 * 2 ^ 12 + 8 * (va / 2 ^ 16 % 32)) 8) with
        | some f => some (f + va % 2 ^ 16, true, leafRights e)
        | none => none
      else some (e / 2 ^ 21 % 2 ^ 38 * 2 ^ 21 + va % 2 ^ 21, false, leafRights e)

/-! ### Acceptance (R317) -/

/-- The used tiles of a card: index, virtual address and tile word (R311). -/
def Card.used (c : Card) : List (Nat × Nat × W64) :=
  (List.finRange 6).filterMap fun i =>
    let w := c.word ⟨14 + 2 * i.val, by omega⟩
    if field w 0 40 = 0 then none else some (i.val, (c.word ⟨13 + 2 * i.val, by omega⟩).toNat, w)

/-- The target register of a tile word. -/
def tileReg (w : W64) : KReg := w.extractLsb' 44 4

/-- A tenant owns a core by the core owner table; 0xFF there means that no tenant does (R313). -/
def State.owns (s : State) (g : Nat) (tenant : Byte) : Bool := tenant != 0xFF && s.owner g == tenant.toNat

/-- The cores of a die that a tenant owns. -/
def State.owned (s : State) (d : Nat) (tenant : Byte) : Nat :=
  ((List.range 128).filter fun i => s.owns (128 * d + i) tenant).length

/-- The check of code 0x14. -/
def State.cardMalformed (s : State) (c : Card) : Bool :=
  c.id == 0 || c.cls == 3 || c.placement == 3 || c.gsize == 0 || 1024 < c.gsize || c.starts.isEmpty
    || field (c.word 1) 48 16 != 0 || c.word 30 != 0 || c.word 31 != 0
    || ((List.finRange 6).any fun i => field (c.word ⟨14 + 2 * i.val, by omega⟩) 49 15 != 0)
    || ((c.used.map fun u => tileReg u.2.2).dedup).length != c.used.length
    || s.sdescFaulty c.die.val (s.cardSdesc c)

/-- The codes of R317 that need no translation, in order; 0 when none applies. -/
def State.cardCode (s : State) (c : Card) : Nat :=
  let tiled := !c.used.isEmpty
  let unfenced := ((List.range 8).filter fun d => !(s.die d).fenced).length
  let all := ((List.range 8).map fun d => s.owned d c.tenant).sum
  if s.cardMalformed c then 0x14
  else if c.tenant != s.sdescTenant c.die.val (s.cardSdesc c) then 0x13
  else if c.conc && 128 * unfenced < c.gsize then 0x11
  else if c.conc && all < c.gsize then 0x10
  else if tiled && ((s.die c.pdie).fenced || (c.conc && s.owned c.pdie c.tenant < c.gsize)) then 0x12
  else 0

/-- What making the tokens of a card's tiles gives. -/
inductive TilesMade where
  | ok (s : State) (l : List (Nat × Token))
  | fail (s : State) (l : List (Nat × Token)) (cause i : Nat)
  deriving Repr

/-- Makes the tokens of tiles, as trn does, through the preferred die (R318). -/
def State.makeTiles (s : State) (c : Card) (acc : List (Nat × Token)) : List (Nat × Nat × W64) → TilesMade
  | [] => .ok s acc
  | (i, va, w) :: l =>
    let d := c.pdie
    let sd := s.cardSdesc c
    let root := (s.sdescRoot c.die.val sd d).toNat
    let rights : BitVec 4 := w.extractLsb' 40 4
    let len := field w 0 40
    match s.walkExtent d root (BitVec.ofNat 64 va) (BitVec.ofNat 64 len) rights false with
    | .trap k _ => .fail s acc k.code i
    | .frames fs host =>
      let deny := s.denyBitmap d fs host len (s.sdescClrptr c.die.val sd d &&& 0x0007FFFFFFFFFE00)
      let p : Pin :=
        { rights := rights, host := host, lenm1 := BitVec.ofNat 40 (len - 1), base := BitVec.ofNat 64 va, frames := fs
          deny := deny, tenant := c.tenant, prin := c.prin, saved := 1 }
      match s.newEntry d p with
      | .error _ => .fail s acc Cause.tpt.code i
      | .ok (e, gen, s) =>
        let t := tokenOf p e gen
        let s := s.pinRecord d (s.sdescEvptr c.die.val sd d &&& 0x0007FFFFFFFFFFC0) c.prin c.tag 0xFF (BitVec.ofNat 64 va) t
          false
        s.makeTiles c (acc ++ [(i, t)]) l

/-- The completion counter of a card (R317): none when it has none, an error when it is unusable. -/
def State.cardCounter (s : State) (c : Card) : Except Unit (Option (Nat × Bool)) :=
  let va := (c.word 29).toNat
  if va = 0 then .ok none
  else if va % 8 != 0 then .error ()
  else
    match s.vaByte c.pdie (s.sdescRoot c.die.val (s.cardSdesc c) c.pdie).toNat va with
    | some (loc, host, r) => if r.getLsbD 2 then .ok (some (loc, host)) else .error ()
    | none => .error ()

/-- A card enters MOVE, or READY at once when no tile migrates (R316). -/
def Card.toMove (c : Card) (now : Nat) : Card :=
  if c.used.any fun u => u.2.2.getLsbD 48 then { c with st := .move } else { c with st := .ready, readyAt := now }

/-- Accepts or rejects a card (R317). -/
def State.acceptCard (s : State) (c : Card) : State :=
  let code := s.cardCode c
  if code != 0 then s.writeFinal c code 0 true
  else
    match s.makeTiles c [] c.used with
    | .fail s l cause i =>
      (l.foldl (fun (s : State) t => s.dropSaved c.pdie t.2) s).writeFinal c 0x15 (cause * 2 ^ 8 + i) true
    | .ok s l =>
      match s.cardCounter c with
      | .error _ => (l.foldl (fun (s : State) t => s.dropSaved c.pdie t.2) s).writeFinal c 0x16 0 true
      | .ok ctr =>
        let c := { c with tiles := l, counter := ctr }
        let c := if c.preds = 0 then c.toMove s.clk else c
        { s with cards := fset s.cards s.nextId c, nextId := s.nextId + 1 }

/-- CARD_ACCEPT: a die's dispatcher accepts the next position of a queue, from head up to tail (R313, R315, R317), which it reads in
the die's own memory (R4); a tail that is not past head, as one that a post moved back, gives it none (R343). -/
def execCardAccept (d : Fin 8) (q : BitVec 6) (s : State) : Out :=
  let k := s.qdesc d.val q
  if !s.booted || (s.die d.val).fenced || !k.enabled || k.tail == k.head || (k.tail - k.head).msb
      || 2 ^ k.logcap ≤ (k.head - k.free).toNat then .next s
  else
    let words : Vector W64 32 := Vector.ofFn fun i => BitVec.ofNat 64 (s.dieRead d.val (k.slotAddr k.head + 8 * i.val) 8)
    let w0 := words[0]
    let c : Card :=
      { die := d, queue := q, pos := k.head, words := words, st := .wait, preds := words[1].extractLsb' 32 16
        prio := w0.extractLsb' 58 3, prin := s.sdescPrin d.val k.sdesc, tenant := w0.extractLsb' 32 8 }
    let s := s.setQField d.val q 20 (k.head + 1)
    .next (s.acceptCard c)

/-! ### Migrating tiles (R318) -/

/-- The memory with the n bytes from a location on replaced by those that a memory lists there. -/
def Memory.splice (m : Memory) (dst n : Nat) (new : Memory) : Memory :=
  m.filter (fun e => e.1 < dst) ++ new ++ m.filter fun e => dst + n ≤ e.1

/-- The memory with n bytes at a location replaced by those at another. -/
def Memory.copy (m : Memory) (src dst n : Nat) : Memory :=
  m.splice dst n ((m.filter fun e => src ≤ e.1 && e.1 < src + n).map fun e => (dst + (e.1 - src), e.2))

/-- What a write of n bytes from a location on does to their lines, besides memory and poison (R211, R230, R243, R254): copies and
owned words go, monitors are hit, and the home slices hold them no longer. -/
def State.clobber (s : State) (dst n : Nat) : State :=
  let hit (line : Nat) : Bool := dst / 64 ≤ line && 64 * line < dst + n
  let s := ((s.sharers.map (·.1)).filter hit).foldl State.invalidate s
  { s with
    cores := s.cores.map fun e =>
      (e.1, { e.2 with l1 := (e.2.l1.filter fun c => hit c.1 && c.2.own != 0).foldl (fun m c => dropWords m c.1 c.2.own) e.2.l1 })
    moesi := s.moesi.filter fun e => !hit e.1
    monitors := s.monitors.map fun m => if hit m.line && !m.lost then { m with hit := true } else m }

/-- Copies n bytes from a location to another with their poison. -/
def State.copyBytes (s : State) (src dst n : Nat) : State :=
  let s := s.clobber dst n
  let bad := (s.mpois.filter fun w => src ≤ 8 * w && 8 * w < src + n).map fun w => w - src / 8 + dst / 8
  { s with
    mem := Memory.copy s.mem src dst n
    mpois := bad.foldl insertNat (s.mpois.filter fun w => !(dst ≤ 8 * w && 8 * w < dst + n)) }

/-- Writes bytes with their marks from a location on, one whole word after another. -/
def State.writeBlock (s : State) (dst : Nat) (bytes : List (Byte × Bool)) : State :=
  let n := bytes.length
  let s := s.clobber dst n
  let at_ := (bytes.zipIdx dst).map fun b => (b.2, b.1)
  let bad := ((at_.filter fun b => b.2.2).map fun b => b.1 / 8).dedup
  { s with
    mem := s.mem.splice dst n ((at_.filter fun e => e.2.1 != 0).map fun e => (e.1, e.2.1))
    mpois := bad.foldl insertNat (s.mpois.filter fun w => !(dst ≤ 8 * w && 8 * w + 8 ≤ dst + n)) }

/-- Writes n poisoned zeros from a location on. -/
def State.poisonBlock (s : State) (dst n : Nat) : State :=
  let s := s.clobber dst n
  let lo := dst / 8
  let hi := (dst + n + 7) / 8
  { s with
    mem := s.mem.splice dst n []
    mpois := s.mpois.filter (fun w => w < lo) ++ (List.range (hi - lo)).map (lo + ·) ++ s.mpois.filter fun w => hi ≤ w }

/-- Frames of 2 MiB that an extent fills. -/
def framesOf (lenm1 : Nat) : Nat := lenm1 / 2 ^ 21 + 1

/-- Copies the extent of an entry into some staging frames, and gives it their list. A frame that the extent does not reach is copied
as the poisoned zeros of its failed reads (R4, R233, R240). -/
def State.stageEntry (s : State) (d : Nat) (e : BitVec 20) (dst : List Nat) : State :=
  let p := s.pin d e
  let fs := if p.host then 16 else 21
  let len := p.lenm1.toNat + 1
  let s := (p.frames.zipIdx).foldl (fun (s : State) f =>
    let off := f.2 * 2 ^ fs
    let n := min (2 ^ fs) (len - off)
    let src := f.1.toNat % 2 ^ 59
    let dest := dst.getD (off / 2 ^ 21) 0 + off % 2 ^ 21
    if s.addrFate (128 * d) src { phys := p.phys, host := p.host } == .ok then s.copyBytes src dest n else s.poisonBlock dest n) s
  let q := { p with frames := dst.map (BitVec.ofNat 64), host := false }
  (s.updDie d fun x => { x with pool := x.pool - p.poolBytes + q.poolBytes }).setPin d e q

/-- The migrating tiles of a card with their tokens. -/
def Card.migrating (c : Card) : List Token :=
  c.tiles.filterMap fun t => if (c.used.any fun u => u.1 == t.1 && u.2.2.getLsbD 48) then some t.2 else none

/-- Gives each migrating tile its frames, in order, and copies it. -/
def State.stageAll (s : State) (d : Nat) (base : Nat) : List Token → List Nat → State
  | [], _ => s
  | t :: l, fr =>
    let n := framesOf t.lenm1.toNat
    let s := s.stageEntry d t.pte ((fr.take n).map fun i => podAddr s d (base + i * 2 ^ 21))
    s.stageAll d base l (fr.drop n)

/-- The tenant that a die's copy engines and memory ports serve in the window of a clk, 0xFF for every tenant (R323). -/
def State.slotTenant (s : State) (d clk : Nat) : Nat := s.dieRead d (dispatchBlock + 0x1080 + clk / 32 % 64) 1

/-- The copy engines of a die serve a tenant now (R323). -/
def State.serves (s : State) (d : Nat) (tenant : Byte) : Bool :=
  s.slotTenant d s.clk == 0xFF || s.slotTenant d s.clk == tenant.toNat

/-- TILE_MIGRATE_DONE: the migrating tiles of a card land in staging frames, and the card is READY; while frames lack, an
entry is not LIVE or the window is another tenant's it stays in MOVE (R318, R323). -/
def execTileMigrateDone (card : Nat) (s : State) : Out :=
  match fget s.cards card with
  | none => .next s
  | some c =>
    if c.st != .move then .next s
    else
      let d := c.pdie
      let l := c.migrating
      let need := (l.map fun t => framesOf t.lenm1.toNat).sum
      let avail := (List.range (s.stagingFrames d)).filter fun i => !(s.die d).staged.contains i
      if avail.length < need || !s.serves d c.tenant || l.any fun t => s.issueCheck (128 * d) t == .stall then .next s
      else
        let fr := avail.take need
        let s := s.stageAll d (s.stagingBase d) (l.filter fun t => s.issueCheck (128 * d) t == .go) fr
        let s := s.updDie d fun x => { x with staged := x.staged ++ fr }
        let c := { c with
          frames := fr, st := .ready, readyAt := s.clk
          tiles := c.tiles.map fun t => if l.contains t.2 then (t.1, { t.2 with host := false }) else t }
        .next { s with cards := fset s.cards card c }

/-! ### Sets of a core -/

/-- A party occupies a set. -/
def CtxSet.occupied (t : CtxSet) : Bool := t.card.isSome

/-- The core's set that is not active. -/
def Core.other (k : Core) : CtxSet := nget k.set (k.active + 1)

/-- The resident sets of a core that nothing occupies; one whose former contents are still being saved is not free (R325). -/
def Core.vacant (k : Core) : List (Fin 2) :=
  ([k.active, k.active + 1] : List (Fin 2)).filter fun p =>
    !(nget k.set p).occupied && !(k.switch.isSome && p == k.active + 1)

/-- The parties of a core, resident and saved. -/
def Core.parties (k : Core) : List CtxSet := k.sets.filter CtxSet.occupied

/-- Saved sets whose save is complete, by slot. -/
def Core.waiting (k : Core) : List (Nat × CtxSet) :=
  k.slots.filter fun e => match k.switch with
    | some w => w.sid != e.2.sid
    | none => true

/-- A free save slot of a core (R326). -/
def State.freeSlot (s : State) (g : Nat) : Option Nat :=
  (List.range (s.saveSlots (g / 128))).find? fun j => (fget (s.core g).slots j).isNone

/-- The effective priority of a card since a clk (R320). -/
def effSince (prio : BitVec 3) (since now : Nat) : Nat := min 7 (prio.toNat + (now - since) / 2 ^ 16)
/-- The effective priority of a card (R320). -/
def State.eff (s : State) (c : Card) : Nat := effSince c.prio c.readyAt s.clk
/-- The effective priority of a saved set (R320). -/
def State.savedEff (s : State) (t : CtxSet) : Nat :=
  match s.cardOf t with
  | some c => effSince c.prio t.outAt s.clk
  | none => 0

/-- A card may take a set of a core although saved sets wait for it: it beats them all (R320). -/
def State.beatsSaved (s : State) (g : Nat) (c : Card) : Bool :=
  (s.core g).slots.all fun e => s.savedEff e.2 < s.eff c

/-! ### Placement (R322) -/

/-- Two vault windows overlap: they share a byte. -/
def windowsMeet (a b : Nat × Nat) : Bool := a.1 < b.1 + b.2 && b.1 < a.1 + a.2 && 0 < a.2 && 0 < b.2

/-- A core could take a party of a card if it had a set to take it: it is the tenant's, on a die where the card's parties may lie,
with none of them yet, and no window there overlaps (R322). -/
def State.mayTake (s : State) (c : Card) (g : Nat) : Bool :=
  let q := s.qdesc c.die.val c.queue
  !(s.die (g / 128)).fenced && s.owns g c.tenant && (c.used.isEmpty || c.pdie == g / 128) && !c.cores.contains g
    && ((s.core g).parties.all fun t => !windowsMeet t.vaultWin (q.vaultBase, q.vaultSize))

/-- A party of a card may be bound to a core now (R320, R322, R326). -/
def State.fits (s : State) (c : Card) (g : Nat) : Bool :=
  let k := s.core g
  s.mayTake c g && !k.vacant.isEmpty && (k.parties.length < 2 || (s.freeSlot g).isSome) && s.beatsSaved g c

/-- The dies a card's parties may lie on, from one on (R322). -/
def Card.dies (c : Card) (first : Nat) : List Nat :=
  if c.used.isEmpty then (List.range 8).map fun i => (first + i) % 8 else [c.pdie]

/-- The cores a card's next parties could take, in its placement's order (R322), but for some: a spread gang goes on with the die
after the last. -/
def State.places (s : State) (c : Card) (skip : List Nat) : List Nat :=
  let onDie (d : Nat) : List Nat := ((List.range 128).map (128 * d + ·)).filter fun g => s.fits c g && !skip.contains g
  if c.placement = 2 then
    let per := (c.dies ((c.pdie + c.bound) % 8)).map onDie
    ((List.range 128).map fun i => per.filterMap fun l => l[i]?).flatten
  else ((c.dies c.pdie).map onDie).flatten

/-- The cores that the next binding of a card takes, passing some over; none when it does not fit (R322). -/
def State.bindList (s : State) (c : Card) (skip : List Nat := []) : List Nat :=
  let need := c.gsize - c.bound
  let l := s.places c skip
  if c.conc then (if need ≤ l.length then l.take need else [])
  else if c.cls = 1 then l.take need
  else l.take 1

/-- A card some of whose parties are bound and some are not. -/
def Card.partly (c : Card) : Bool := c.st == .run && c.bound < c.gsize && !c.conc

/-- The first card is chosen before the second (R320); positions compare modulo 2^32 (R313). -/
def State.before (s : State) (a b : Card) : Bool :=
  let x := s.eff a
  let y := s.eff b
  if x != y then y < x
  else if a.readyAt != b.readyAt then a.readyAt < b.readyAt
  else if a.queue != b.queue then a.queue < b.queue
  else (a.pos - b.pos).msb

/-- The tenant of a card has a set that is free for it on some core (R320). -/
def State.hasFree (s : State) (c : Card) : Bool :=
  (List.range 1024).any fun g =>
    !(s.die (g / 128)).fenced && s.owns g c.tenant && !(s.core g).vacant.isEmpty && s.beatsSaved g c

/-- A resident party of a core gives way to a card: it is of the card's tenant, and its own card's priority is lower (R327). -/
def State.givesWay (s : State) (t : CtxSet) (c : Card) : Bool :=
  t.occupied && t.tenant == c.tenant &&
    (match s.cardOf t with
     | some v => v.prio.toNat < s.eff c
     | none => false)

/-- A resident party of a core could give way to a card, and its set can be saved (R326, R327). -/
def State.yieldsTo (s : State) (g : Nat) (c : Card) : Bool :=
  (s.freeSlot g).isSome && (s.givesWay (s.core g).act c || s.givesWay (s.core g).other c)

/-- A selection may pre-empt: no set is free, and some party could give way (R327). -/
def State.couldPreempt (s : State) (c : Card) : Bool := (List.range 1024).any fun g => s.yieldsTo g c

/-- The cards of a die. -/
def State.dieCards (s : State) (d : Nat) : List (Nat × Card) := s.cards.filter fun e => e.2.die.val == d

/-- Cards of a die that bind before another selection: partly bound PAR gangs and SELECTED cards that fit (R321, R322). -/
def State.pendingBinds (s : State) (d : Nat) : List (Nat × Card) :=
  (s.dieCards d).filter fun e =>
    ((e.2.partly && e.2.cls == 1) || e.2.st == .selected) && !(s.bindList e.2).isEmpty

/-- The best of some cards (R320). -/
def State.best (s : State) : List (Nat × Card) → Option (Nat × Card)
  | [] => none
  | e :: l =>
    match s.best l with
    | some f => if s.before e.2 f.2 then some e else some f
    | none => some e

/-- The candidates for a die's next set: READY cards, and partly bound WP gangs that fit (R320, R322). -/
def State.candidates (s : State) (d : Nat) : List (Nat × Card) :=
  (s.dieCards d).filter fun e =>
    (e.2.st == .ready && (s.hasFree e.2 || s.couldPreempt e.2))
      || (e.2.partly && e.2.cls == 0 && !(s.bindList e.2).isEmpty)

/-- CARD_SELECT: a die's dispatcher selects its best READY card (R320). -/
def execCardSelect (d : Fin 8) (s : State) : Out :=
  if (s.die d.val).fenced || !(s.pendingBinds d.val).isEmpty then .next s
  else
    match s.best (s.candidates d.val) with
    | some (n, c) =>
      if c.st == .ready then
        .next { s with cards := fset s.cards n { c with st := .selected, selSeq := s.nextId }, nextId := s.nextId + 1 }
      else .next s
    | none => .next s

/-! ### Binding a party (R324) -/

/-- An empty set in place of another: the vector and mask registers stay as its occupant left them (R157, R158). -/
def emptySet (sid : Nat) (old : CtxSet) : CtxSet := { sid := sid, v := old.v, vpois := old.vpois, m := old.m }

/-- A context at card start (R71): its registers, before the party starts. -/
def startCtx (c : Card) (x : CtxId) (s : State) (die : Nat) : Ctx :=
  let sd := s.cardSdesc c
  let q := c.die.val
  let rd (off n : Nat) : Nat := s.sdescField q sd off n
  { x := Vector.ofFn fun i =>
      if h : 10 ≤ i.val ∧ i.val ≤ 17 then c.word ⟨i.val - 5, by omega⟩ else 0
    pc := c.entryLane x
    tvec := BitVec.ofNat 64 (rd 0 8), tscratch := BitVec.ofNat 64 (rd 8 8), wdog := BitVec.ofNat 32 (rd 16 4)
    occtmo := BitVec.ofNat 32 (rd 20 4), prin := BitVec.ofNat 32 (rd 24 4)
    clrptr := s.sdescClrptr q sd die &&& 0x0007FFFFFFFFFE00, evptr := s.sdescEvptr q sd die &&& 0x0007FFFFFFFFFFC0 }

/-- The code token of a party (R72), with its pin record. -/
def State.makeCode (s : State) (c : Card) (g : Nat) : Option (Token × State) :=
  let d := g / 128
  let q := s.qdesc c.die.val c.queue
  let prin := s.sdescPrin c.die.val q.sdesc
  let p : Pin :=
    { rights := 1, phys := true, lenm1 := BitVec.ofNat 40 (q.codeLen - 1), base := q.codeBase
      frames := contiguous q.codeBase false q.codeLen, tenant := c.tenant, prin := prin
      holders := 1#128 <<< (g % 128) }
  match s.newEntry d p with
  | .error _ => none
  | .ok (e, gen, s) =>
    let t := tokenOf p e gen
    some (t, s.pinRecord d (s.sdescEvptr c.die.val q.sdesc d &&& 0x0007FFFFFFFFFFC0) prin c.tag 0xFF q.codeBase t true)

/-- Binds the next party of a card to a core's vacant set: steps 1 to 6 of R324. With the first the job starts: its tiles are
placed, and give up their saved references (R131; log entry 27), and the expected counts of its barriers are fixed (R226). A tile's
token that a pret has made stale is placed as it is, and its first use withdraws (DESIGN CHOICE, log entry 74). Without a Pin Table
entry for its code token the party is not bound. -/
def State.bindParty (s : State) (n : Nat) (g : Nat) : State :=
  match fget s.cards n, (s.core g).vacant with
  | some c, p :: _ =>
    match s.makeCode c g with
    | none => s
    | some (code, s) =>
      let sid := s.nextId
      let q := s.qdesc c.die.val c.queue
      let k := (c.tiles.filterMap fun t => (c.used.find? fun u => u.1 == t.1).map fun u => (tileReg u.2.2, t.2)).foldl
        (fun (v : Vector Token 16) e => vset v e.1 e.2) (Vector.replicate 16 {})
      let t : CtxSet :=
        { emptySet sid (nget (s.core g).set p) with
          card := some n, rank := BitVec.ofNat 10 c.bound, gsize := BitVec.ofNat 11 c.gsize, reqtag := c.tag
          tenant := c.tenant, cls := BitVec.ofNat 2 c.cls
          root := s.sdescRoot c.die.val (s.cardSdesc c) (g / 128), vaultWin := (q.vaultBase, q.vaultSize)
          ctx := Vector.ofFn fun x => startCtx c x s (g / 128)
          k := k, codeTok := code }
      let s := { s with nextId := s.nextId + 1 }
      let s := s.updCore g fun k => { k with set := nset k.set p t }
      let first : Bool := c.bound == 0
      let c := { c with
        st := .run, bound := c.bound + 1, cores := c.cores ++ [g], sids := c.sids ++ [sid]
        given := if first then s.givenCounts c else c.given }
      let s := { s with cards := fset s.cards n c }
      let s := c.tiles.foldl (fun (s : State) t => s.holderBit g t.2.pte) s
      if first then c.tiles.foldl (fun (s : State) t => s.dropSaved c.pdie t.2) s else s
  | _, _ => s

/-- A card is the one that its dispatcher binds next (R321, R322). -/
def State.bindsNext (s : State) (card : Nat) (c : Card) : Bool :=
  let first := s.pendingBinds c.die.val
  if (s.die c.die.val).fenced then false
  else if c.partly && c.cls == 1 then true
  else if c.st == .selected then
    first.all fun e => !(e.2.partly && e.2.cls == 1) && (e.1 == card || c.selSeq ≤ e.2.selSeq)
  else if c.partly then
    first.isEmpty && (match s.best (s.candidates c.die.val) with
      | some (n, _) => n == card
      | none => false)
  else false

/-- The cores that dispatchers of lower dies claim now, which the dispatcher of a die passes over (R322). -/
def State.claimed (s : State) (d : Nat) : List Nat :=
  ((s.cards.filter fun e => e.2.die.val < d && s.bindsNext e.1 e.2).map fun e => s.bindList e.2).flatten

/-- PARTY_BIND: a SELECTED card, or a gang that still has parties to bind, takes the sets that it fits (R321, R322). -/
def execPartyBind (card : Nat) (s : State) : Out :=
  match fget s.cards card with
  | none => .next s
  | some c =>
    if !s.bindsNext card c then .next s
    else .next ((s.bindList c (s.claimed c.die.val)).foldl (fun (s : State) g => s.bindParty card g) s)

/-! ### The start of a party (R302, R324) -/

/-- The galley slot that a card names. -/
def Card.gslot (c : Card) : Option (BitVec 3) := if (c.word 27).getLsbD 3 then some ((c.word 27).extractLsb' 0 3) else none

/-- A card may play the galley of a slot (R302). -/
def Card.mayPlay (c : Card) (gal : Galley) : Bool :=
  hdrStatus gal.hdr == 1 && hdrByCard gal.hdr && hdrTenant gal.hdr == c.tenant && hdrCard gal.hdr == c.id.extractLsb' 0 16

/-- The 128 bytes of a card's patch vector with their poison, when all of it is mapped (R302); the poisoned zeros of a failed read
for a byte that its leaf does not reach (R4, R240). A page without right R counts as not mapped (DESIGN CHOICE, log entry 76). -/
def State.cardPatch (s : State) (c : Card) (d : Nat) (root : Nat) : Option (List (Byte × Bool)) :=
  let va := (c.word 27).toNat / 16 * 16
  let l := (List.range 128).map fun i => s.vaByte d root (va + i)
  if l.all fun x => match x with
    | some (_, _, r) => r.getLsbD 0
    | none => false
  then some (l.map fun x => match x with
    | some (loc, host, _) => if s.addrFate (128 * d) loc { host := host } == .ok then s.homeByte loc else (0, true)
    | none => (0, false))
  else none

/-- The contexts of a starting party with a nonzero entry lane run (R71). -/
def CtxSet.launch (t : CtxSet) (c : Card) : CtxSet :=
  { t with
    entered := Vector.ofFn fun x => c.entryLane x != 0
    ctx := Vector.ofFn fun x => if c.entryLane x = 0 then nget t.ctx x else { nget t.ctx x with st := .run } }

/-- A recording of a card's party begins when the card asks for it and the slot is empty (R302). -/
def State.cardRecording (s : State) (g : Nat) (c : Card) : State :=
  match c.gslot with
  | some n =>
    if (c.word 0).getLsbD 61 && (vget (s.core g).galley n).isNone && (s.core g).rec_.isNone then
      (s.startRecording g n true (c.id.extractLsb' 0 16)).updAct g fun t => { t with recRan := true }
    else s
  | none => s

/-- The party in the active set of a core starts (R324): it plays, records or is an ordinary launch (R302). -/
def State.startParty (s : State) (g : Nat) : State :=
  let t := s.aset g
  match s.cardOf t with
  | none => s
  | some c =>
    let s := (s.updAct g fun t => { t with started := true, sliceAt := s.clk }).selfInvalidate g
    let ordinary (s : State) : State := s.updAct g fun t => t.launch c
    let recorded (s : State) : State := ordinary (s.cardRecording g c)
    match c.gslot with
    | none => recorded s
    | some n =>
      match vget (s.core g).galley n with
      | none => recorded s
      | some gal =>
        if !((c.word 0).getLsbD 62 && c.mayPlay gal) then recorded s
        else
          let fell (s : State) : State := ordinary (s.updAct g fun t => { t with playFell := true })
          match s.cardPatch c (g / 128) t.root.toNat with
          | none => fell s
          | some b =>
            let s := if bytesBad b then s.collConsume ⟨g, t.sid, 1⟩ 0 else s
            let pv := patchOf (b.map (·.1))
            match s.playChecks g 1 n pv with
            | .fail _ _ s => fell s
            | .ok table s => (s.beginPlay g 1 n pv table true).updAct g fun t => { t with playRan := true }

/-- A set becomes active at a clk: its slice begins, and what its engines and contexts wait for counts on from there, not the clk that
it was out (R87, R128). -/
def CtxSet.wake (now : Nat) (t : CtxSet) : CtxSet :=
  { t with
    sliceAt := now, timerAt := none
    engStalls := t.engStalls.map fun (e : EngStall) => { e with mark := now }
    ctx := t.ctx.map fun x => { x with waitMark := if x.st == .wait then now else x.waitMark } }

/-- The other set becomes active when the active set holds no party (R324). -/
def State.activate (s : State) (g : Nat) : State :=
  let k := s.core g
  if k.act.occupied || !k.other.occupied then s
  else
    s.setCore g { k with active := k.active + 1, set := nset k.set (k.active + 1) (k.other.wake s.clk) }

/-- The party in a core's active set has not started. -/
def State.unstarted (s : State) (g : Nat) (card : Nat) : Bool := (s.aset g).card == some card && !(s.aset g).started

/-- PARTY_START: the party of the active set starts; the parties of a CONC gang start all together (R322, R324). -/
def execPartyStart (g : Nat) (s : State) : Out :=
  let t := s.aset g
  match t.card with
  | none => .next s
  | some n =>
    match fget s.cards n with
    | none => .next s
    | some c =>
      if t.started then .next s
      else if c.conc then
        if c.bound = c.gsize && c.cores.all fun h => s.unstarted h n then
          .next (c.cores.foldl (fun (s : State) h => s.startParty h) s)
        else .next s
      else .next (s.startParty g)

/-! ### The end of a party (R334) -/

/-- Every context that the card started is IDLE or halted, or the party's play has completed (R302, R334). -/
def CtxSet.over (t : CtxSet) : Bool :=
  t.started &&
    if t.cardPlay.isSome then t.playOver
    else ([0, 1, 2] : List CtxId).all fun x => !nget t.entered x || !(nget t.ctx x).live

/-- Every command that a party enqueued has completed (R17). -/
def CtxSet.quiet (t : CtxSet) : Bool :=
  (t.tl.toList.all fun l => l.done == l.issued) && t.jq.isEmpty && t.plays.isEmpty && t.fed.isEmpty && t.vdone.isEmpty
    && t.drains.isEmpty && t.nests.isEmpty && t.crun.isNone

/-- A recording of a party that is over: its end acts as gend (R302), which installs the galley in queue order (R304). -/
def State.closing (s : State) (g : Nat) : Bool :=
  match (s.core g).rec_ with
  | some r => r.sid == (s.core g).act.sid && (s.core g).act.over
  | none => false

/-- The end of a party acts as gend of a context: an entry in queue order and the end of the recording (R302, R304). -/
def State.closeRecording (s : State) (g : Nat) (c : CtxId) : State :=
  if s.closing g then
    let s := s.updAct g fun t => t.enqueue .gal { ctx := c, who := c, instr := .gend } true
    s.endRecording g ((s.aset g).time .tlg).issued
  else s

/-- The earlier of two halts. -/
def firstHalt (a b : Option (Nat × BitVec 10 × CtxId)) : Option (Nat × BitVec 10 × CtxId) :=
  match a, b with
  | some x, some y => if y.1 < x.1 then b else a
  | none, _ => b
  | _, none => a

/-- What a party's end adds to its card (R312). -/
def Card.partyEnded (c : Card) (t : CtxSet) : Card :=
  { c with
    ended := c.ended + 1
    halted := firstHalt c.halted (t.haltedAny.map fun h => (h.1, t.rank, h.2))
    withdrawn := c.withdrawn || t.withdrawnPlay, played := c.played || t.playRan, recorded := c.recorded || t.recRan
    fallback := c.fallback || t.playFell, stFail := c.stFail || t.stFail }

/-- The loads of a set end where they are: the counts of what they have still to read are to fall (R124). -/
def State.giveUpDue (s : State) (g : Nat) (t : CtxSet) : State :=
  s.giveUp g ((t.ctx.toList.map fun x => x.hold.duePtes).flatten)

/-- Takes a set off its core: what it held is released (R106, R122), and its monitors go. -/
def State.vacate (s : State) (g : Nat) (p : Fin 2) : State :=
  let t := nget (s.core g).set p
  let s := s.giveUpDue g t
  let s := s.updCore g fun k => { k with
    set := nset k.set p (emptySet s.nextId t)
    gReady := k.gReady.filter fun f => f.sid != t.sid
    rec_ := match k.rec_ with
      | some r => if r.sid = t.sid then none else some r
      | none => none }
  let s := { s with
    nextId := s.nextId + 1
    monitors := s.monitors.filter fun m => !(m.core == g && m.sid == t.sid) }
  s.releaseAll g t.tokens.dedup

/-- The party of the active set, which is over, leaves once its commands have completed (R17, R334). -/
def State.leave (s : State) (g : Nat) : State :=
  let t := s.aset g
  let s := match t.card with
    | some n => s.updCard n fun c => c.partyEnded t
    | none => s
  s.vacate g (s.core g).active

/-! ### Retirement (R17) -/

/-- The successors that a card names. -/
def Card.successors (c : Card) : List W32 :=
  [(c.word 25).extractLsb' 0 32, (c.word 25).extractLsb' 32 32, (c.word 26).extractLsb' 0 32,
   (c.word 26).extractLsb' 32 32].filter (· != 0)

/-- The card with an id and a tenant in WAIT that was accepted first (R319). -/
def State.waitingCard (s : State) (id : W32) (tenant : Byte) : Option Nat :=
  (s.cards.find? fun e => e.2.st == .wait && e.2.id == id && e.2.tenant == tenant).map (·.1)

/-- Lowers the predecessor count of a card in WAIT (R319). -/
def State.lowerPreds (s : State) (n : Nat) : State :=
  match fget s.cards n with
  | some c =>
    if c.st != .wait then s
    else
      let c := { c with preds := c.preds - 1 }
      { s with cards := fset s.cards n (if c.preds = 0 then c.toMove s.clk else c) }
  | none => s

/-- A card's counter is reached from its die: in memory, and in host memory through a host extent alone (R4, R19, R233). -/
def State.counterReached (s : State) (d loc : Nat) (host : Bool) : Bool :=
  s.addrFate (128 * d) loc { host := host } == .ok && region loc != .status

/-- The 64-bit counter at a location rises by 1 (R17). -/
def State.bumpCounter (s : State) (loc : Nat) : State :=
  s.writeHome (bytesAt loc 8 (s.readNat loc 8 + 1)) (s.poisoned loc)

/-- The final code of a retiring card (R312). -/
def Card.endCode (c : Card) : Nat × Nat :=
  match c.halted with
  | some (_, r, x) => (2, r.toNat + x.val * 2 ^ 10)
  | none => (if c.withdrawn then 5 else 1, 0)

/-- Parties of a card that have ended (R334): those that have left, and those that are over on their cores. -/
def State.partiesEnded (s : State) (n : Nat) (c : Card) : Nat :=
  c.ended + (c.cores.filter fun g => (s.core g).sets.any fun t => t.card == some n && t.over).length

/-- Poison that work with a tag has consumed, and whose purge has still to reach the dispatcher (R18, R330). -/
def State.toPurge (s : State) (tag : W16) : Bool := s.poisonHits.any fun h => h.tag == tag

/-- JOB_RETIRE: a card every party of which has ended goes to RETIRE (R316), and once every command of its parties has completed
the four steps of R17 follow, unless its tag is to be purged (R18). -/
def execJobRetire (card : Nat) (s : State) : Out :=
  match fget s.cards card with
  | none => .next s
  | some c =>
    match c.st, c.steps with
    | .run, _ =>
      if c.bound = c.gsize && s.partiesEnded card c = c.gsize then .next { s with cards := fset s.cards card { c with st := .retire } }
      else .next s
    | .retire, _ =>
      if c.ended != c.gsize || s.toPurge c.tag then .next s
      else
      let found := c.successors.map fun i => s.waitingCard i c.tenant
      let c := { c with st := .final, steps := 1, succ := found.reduceOption, noSucc := found.any Option.isNone }
      let s := { s with cards := fset s.cards card c }
      .next (((s.writeFinal c c.endCode.1 c.endCode.2 false).releaseTiles c).forgetCard card)
    | .final, 1 =>
      let s := match c.counter with
        | some (loc, host) => if s.counterReached c.die.val loc host then s.bumpCounter loc else s
        | none => s
      .next { s with cards := fset s.cards card { c with steps := 2 } }
    | .final, 2 =>
      .next (c.succ.foldl State.lowerPreds { s with cards := fset s.cards card { c with steps := 3 } })
    | .final, _ =>
      let s := { s with cards := fdel s.cards card }
      .next (if (c.word 0).getLsbD 63 then s.notifyDie c.die.val else s)
    | _, _ => .next s

end Sys2Proof.Machine
end

