-- ==== Sys2Proof/Machine/Jobs.lean ====
section
/-! DEFINITION. Sys2Proof/Machine/Jobs.lean: switching context sets (R130, R325 to R327), the job port (R333 to R337), and
containment: poison, purges and what they end (R328 to R331, R338). -/

namespace Sys2Proof.Machine

/-! ### Switching out (R325) -/

/-- A context of a set that is switched out stops: its hold is abandoned and its instruction issues again on return, unless
the hold goes on while the set is out (R325). The count of its wait stops here, and goes on when it holds for the same thing again
(R87). -/
def Ctx.switchOut (now : Nat) (x : Ctx) : Ctx :=
  let count := x.waited + (now - x.waitMark)
  if x.st != .wait then x
  else
    match x.hold with
    | .reply _ | .load .. | .purge _ => { x with waited := count, waitMark := now }
    | h => { x.abandon with st := .run, hold := .none, waited := 0, paused := some (h, count) }

/-- The contexts of the active set stop issuing (R325 step 1). -/
def State.stopContexts (s : State) (g : Nat) : State :=
  let s := ((s.interruptWaita g 0).interruptWaita g 1).interruptWaita g 2
  let s := ((s.abandonPlay g 0).abandonPlay g 1).abandonPlay g 2
  s.updAct g fun t => { t with ctx := t.ctx.map (Ctx.switchOut s.clk) }

/-- A resident set begins to leave its core (R325 step 1): a recording of it is smudged, and the contexts of an active one stop. -/
def State.beginOut (s : State) (g : Nat) (p : Fin 2) : State :=
  if p != (s.core g).active || (s.aset g).leaving then s
  else ((s.smudge g (s.aset g).sid 5).stopContexts g).updAct g fun t => { t with leaving := true }

/-- A paired exchange runs to its end while its set is out (R288). -/
def CtxSet.exchanging (t : CtxSet) : Bool :=
  match t.crun with
  | some r => r.phase == .transfer || r.phase == .zero
  | none => false

/-- A byte of a load has still to be read. -/
def Hold.reading : Hold → Bool
  | .load _ _ bytes => bytes.any fun b => match b with
    | .due .. => true
    | _ => false
  | _ => false

/-- A resident set is at rest, so that it can leave its core (R325 step 2): every engine of the active set has come to its boundary.
A V entry that has begun has completed (R164), the granules in flight are performed (R151), the matrix step or row that has begun is
over (R202), a collation command is between two entries, cells or removals or in a paired exchange (R288), and nothing that the engines,
the sequencer and the job port have asked for, or that a load has still to read on its die, is to come. -/
def State.atRest (s : State) (g : Nat) (p : Fin 2) : Bool :=
  let k := s.core g
  let t := k.act
  p != k.active ||
    (!t.vBegan && (t.srun.toList.all fun l => l.all fun r => r.flying.isEmpty)
      && (t.exchanging || !t.crun.any CollRun.midEntry)
      && (k.xfers.all fun x => x.sid != t.sid || (t.exchanging && x.key.isColl))
      && t.ctx.toList.all fun x => !x.hold.reading)

/-- The results of the V entries that have executed are written (R164). -/
def State.flushResults (s : State) (g : Nat) : State :=
  (s.aset g).vdone.foldl (fun (s : State) d =>
    match execVEntryResult g d.e.num s with
    | .next s => s
    | _ => s) s

/-- What the engines of the active set leave when it goes: results are written, and the counts of its stalls stop (R128, R164). -/
def State.stopEngines (s : State) (g : Nat) : State :=
  (s.flushResults g).updAct g fun t =>
    { t with engStalls := t.engStalls.map fun (e : EngStall) => { e with count := e.count + (s.clk - e.mark), mark := s.clk } }

/-- A saved set's tokens count as saved references, and its core no longer holds by them (R130). -/
def State.saveTokens (s : State) (g : Nat) (l : List Token) : State :=
  l.foldl (fun (s : State) t =>
    if t.valid && (s.pin (g / 128) t.pte).gen == t.gen then (s.savedBy g t true).holderBit g t.pte else s) s

/-- Moves a resident set of a core to a save slot (R325, R326): its stores are to reach their homes before its save completes. -/
def State.toSlot (s : State) (g : Nat) (p : Fin 2) (j : Nat) : State :=
  let k := s.core g
  let t := { nget k.set p with outAt := s.clk, leaving := false }
  let k := { k with
    set := nset k.set p (emptySet s.nextId t)
    slots := fset k.slots j t
    switch := some { sid := t.sid, slot := j, since := s.clk } }
  let s := { (s.setCore g k) with nextId := s.nextId + 1 }
  (s.triggerDrain g (s.core g).seq).saveTokens g t.tokens

/-- A resident set that is at rest goes to a save slot, whether it is the active one, in whose place the other comes, or the other
(R325, R327). -/
def State.takeOut (s : State) (g : Nat) (p : Fin 2) (j : Nat) : State :=
  if p = (s.core g).active then
    let s := ((s.stopEngines g).toSlot g p j).updCore g fun k => { k with active := k.active + 1 }
    if (s.aset g).occupied then s.updAct g (CtxSet.wake s.clk) else s
  else s.toSlot g p j

/-! ### The save slot in memory (R326) -/

/-- The bytes of a tile, row-major f32, with the marks of its rows. -/
def Tile.bytes (t : Tile) : List (Byte × Bool) :=
  ((List.finRange 64).map fun r => (leBytes 256 (nget t.rows r).toNat).map fun b => (b, t.pois.getLsbD r.val)).flatten

/-- The bytes of the v registers with their marks. -/
def CtxSet.vBytes (t : CtxSet) : List (Byte × Bool) :=
  ((List.finRange 32).map fun i =>
    ((leBytes 256 (nget t.v i).toNat).zipIdx).map fun b => (b.1, (nget t.vpois i).getLsbD b.2)).flatten

/-- The bits of a stopped clpeel's inq, one for each cell up to the last. -/
def inqBytes (l : List Nat) : List Byte :=
  (List.range (l.foldl max 0 / 8 + 1)).map fun i =>
    BitVec.ofNat 8 ((List.range 8).foldl (fun n b => if l.contains (8 * i + b) then n + 2 ^ b else n) 0)

/-- What a set's save, the n-th of the machine, writes into its slot (R326): the tiles that are not EMPTY, the hash-table copies of its
set class slots, the v registers, and the bitmap and queue of a stopped clpeel; and from 0x06_2000 to 0x0C_FFFF the rest of the set, of
which R326 does not say which byte holds what: free values (DESIGN CHOICE, log entry 63). -/
def CtxSet.image (t : CtxSet) (n : Nat) : List (Nat × List (Byte × Bool)) :=
  let clean (l : List Byte) : List (Byte × Bool) := l.map fun b => (b, false)
  ((List.finRange 8).filterMap fun i =>
      if (nget t.tile i).st == .empty then none else some (0x4000 * i.val, (nget t.tile i).bytes))
    ++ ((List.finRange 8).filterMap fun i =>
      if (nget t.cls8 i).set then
        some (0x20000 + 0x8000 * i.val, clean (((nget t.cls8 i).table.map fun w => leBytes 4 w.toNat).flatten))
      else none)
    ++ [(0x60000, t.vBytes), (0x62000, clean ((List.range 0x6E000).map (Config.slotByte n)))]
    ++ (match t.crun with
      | some r =>
        if r.phase == .peel then
          [(0xD0000, clean (inqBytes r.inq)), (0xE8000, clean ((r.q.map fun c => leBytes 4 c).flatten))]
        else []
      | none => [])

/-- The die-local address of save slot j of a core (R326). -/
def State.slotAddr (s : State) (g j : Nat) : Nat :=
  s.saveBase (g / 128) + 2 ^ 22 * (g % 128 * s.saveSlots (g / 128) + j)

/-- n bytes from a location on lie in HBM4E. -/
def blockInHbm (a n : Nat) : Bool := inHbm a && inHbm (a + n - 1)

/-- One part of a saved set is written from a location on; outside the die's HBM4E nothing is written (log entry 51). -/
def State.writePart (s : State) (a : Nat) (bs : List (Byte × Bool)) : State :=
  if blockInHbm a bs.length then s.writeBlock a bs else s

/-- Writes parts of a saved set, each at its offset from a location. -/
def State.writeParts (s : State) (a : Nat) (l : List (Nat × List (Byte × Bool))) : State :=
  l.foldl (fun (s : State) (b : Nat × List (Byte × Bool)) => s.writePart (a + b.1) b.2) s

/-- Writes a saved set into its slot, part by part (R326, log entry 63). -/
def State.writeSlot (s : State) (g j : Nat) (t : CtxSet) : State :=
  State.writeParts { s with nextId := s.nextId + 1 } (podAddr s (g / 128) (s.slotAddr g j)) (t.image s.nextId)

/-- The marks of 256 bytes that come back from memory: their own, and those of 8-byte words that an error has reached since (R328). -/
def State.marksBack (s : State) (a : Nat) (own : BitVec 256) : BitVec 256 :=
  (List.range 32).foldl (fun m i =>
    if own.extractLsb' (8 * i) 8 == 0 && s.poisoned (a + 8 * i) then m ||| (0xFF#256 <<< (8 * i)) else m) own

/-- A tile that comes back from memory. -/
def State.tileBack (s : State) (a : Nat) (t : Tile) : Tile :=
  if t.st == .empty || !blockInHbm a 0x4000 then t
  else
    { t with
      rows := Vector.ofFn fun r => BitVec.ofNat 2048 (s.readNat (a + 256 * r.val) 256)
      pois := (List.range 64).foldl (fun m r =>
        if (List.range 32).any fun i => s.poisoned (a + 256 * r + 8 * i) then m ||| (1#64 <<< r) else m) t.pois }

/-- A class slot whose hash table comes back from memory. -/
def State.tableBack (s : State) (a : Nat) (c : ClassSlot) : ClassSlot :=
  if c.set && blockInHbm a (4 * c.table.length) then
    { c with table := (List.range c.table.length).map fun i => BitVec.ofNat 32 (s.readNat (a + 4 * i) 4) }
  else c

/-- A stopped clpeel whose bitmap and queue come back from memory. -/
def State.peelBack (s : State) (a : Nat) (r : CollRun) : CollRun :=
  let bits := 8 * (inqBytes r.inq).length
  if r.phase != .peel then r
  else
    { r with
      inq := if blockInHbm (a + 0xD0000) (bits / 8) then
          (List.range bits).filter fun i => (s.mem.get (a + 0xD0000 + i / 8)).getLsbD (i % 8) else r.inq
      q := if blockInHbm (a + 0xE8000) (4 * r.q.length) then
          (List.range r.q.length).map fun i => s.readNat (a + 0xE8000 + 4 * i) 4 else r.q }

/-- A saved set as its slot gives it back (R326): the parts of which R326 gives the place are read there; of the rest, which no software
is meant to read or write, the core has its own account (DESIGN CHOICE, log entry 63). -/
def State.fromSlot (s : State) (g j : Nat) (t : CtxSet) : CtxSet :=
  let a := podAddr s (g / 128) (s.slotAddr g j)
  let regs := blockInHbm (a + 0x60000) 0x2000
  { t with
    tile := Vector.ofFn fun i => s.tileBack (a + 0x4000 * i.val) (nget t.tile i)
    cls8 := Vector.ofFn fun i => s.tableBack (a + 0x20000 + 0x8000 * i.val) (nget t.cls8 i)
    v := if regs then Vector.ofFn fun i => BitVec.ofNat 2048 (s.readNat (a + 0x60000 + 256 * i.val) 256) else t.v
    vpois := if regs then Vector.ofFn fun i => s.marksBack (a + 0x60000 + 256 * i.val) (nget t.vpois i) else t.vpois
    crun := t.crun.map (s.peelBack a) }

/-- SET_SAVE_COMPLETE: the stores of a set that was switched out have reached their homes, and its save is complete (R325, R326). -/
def execSetSaveComplete (g : Nat) (s : State) : Out :=
  let k := s.core g
  match k.switch with
  | none => .next s
  | some w =>
    if k.sb.any fun e => e.sid == w.sid then .next s
    else
      let s := s.setCore g { k with switch := none }
      match fget k.slots w.slot with
      | some t => .next (if t.sid = w.sid then s.writeSlot g w.slot t else s)
      | none => .next s

/-- A context halts wherever its set is (R95): HALT, an event record and a notification. -/
def State.haltWho (s : State) (w : Who) : State :=
  match s.whoSet w with
  | none => s
  | some t =>
    let x := nget t.ctx w.c
    let r := recHead s x.prin t.reqtag 0x01 w.c.val ++ leBytes 8 x.tcause.toNat ++ leBytes 8 x.tpc.toNat
    let s := (s.giveUp w.g x.hold.duePtes).updSid w.g w.sid fun t =>
      { t with haltedAny := match t.haltedAny with | none => some (s.clk, w.c) | h => h
               ctx := nset t.ctx w.c { nget t.ctx w.c with st := .halt, hold := .none } }
    (s.appendLog (w.g / 128) x.evptr r).notifyDie (w.g / 128)

/-- A context whose set returns with stale k registers takes REVK before its first instruction (R130). -/
def Ctx.staleReturn (pte : Option (BitVec 20)) (x : Ctx) : Ctx :=
  match pte with
  | some e => x.withdrawn e none
  | none => x

/-- The lowest pte of some tokens. -/
def lowestPte (l : List Token) : Option (BitVec 20) :=
  l.foldl (fun (a : Option (BitVec 20)) t => match a with
    | some e => if t.pte < e then some t.pte else a
    | none => some t.pte) none

/-- A saved set returns from its slot to a vacant set of its core (R130, R326): tokens that still name their entries hold them again, stale k
registers lose their valid bit, and a stale code token halts the set (R127). -/
def State.restore (s : State) (g j : Nat) (p : Fin 2) : State :=
  match fget (s.core g).slots j with
  | none => s
  | some t =>
    let d := g / 128
    let t := s.fromSlot g j t
    let stale (x : Token) : Bool := x.valid && (s.pin d x.pte).gen != x.gen
    let gone := lowestPte (t.k.toList.filter stale)
    let u : CtxSet :=
      { t with
        k := t.k.map fun x => if stale x then { x with valid := false } else x
        ctx := t.ctx.map (Ctx.staleReturn gone) }
    let s := s.updCore g fun k => { k with slots := fdel k.slots j, set := nset k.set p u }
    let s := t.tokens.foldl (fun (s : State) x => s.held g x) s
    let s := t.tokens.foldl (fun (s : State) x =>
      if x.valid && (s.pin d x.pte).gen == x.gen then s.savedBy g x false else s) s
    if stale t.codeTok then
      ([0, 1, 2] : List CtxId).foldl (fun (s : State) c => if (nget u.ctx c).live then s.haltWho ⟨g, t.sid, c⟩ else s) s
    else s

/-- Another party waits for a core that jyield would give way to: one in its other set, a saved one, or a SELECTED card that is to bind
there (R336). -/
def State.othersWait (s : State) (g : Nat) : Bool :=
  let k := s.core g
  k.other.occupied || !k.slots.isEmpty || s.cards.any fun e => e.2.st == .selected && s.mayTake e.2 g

/-- Another party waits for a core at the end of a slice: one that jyield would give way to, or one of a gang that is partly bound
(R327). -/
def State.partyWaits (s : State) (g : Nat) : Bool :=
  s.othersWait g || s.cards.any fun e => e.2.partly && s.mayTake e.2 g

/-- The resident set of a core that holds a party of a card. -/
def Core.partySet (k : Core) (card : Option Nat) : Option (Fin 2) :=
  ([k.active, k.active + 1] : List (Fin 2)).find? fun p => (nget k.set p).card == card

/-- The cores of the parties of a card that have not left. -/
def State.gangCores (s : State) (n : Option Nat) (c : Card) : List Nat :=
  c.cores.filter fun g => (s.core g).sets.any fun t => t.card == n

/-- A party resident on a core is switched out alone, with the parties of its CONC gang that have not left, or not at all: the cores,
the sets there and their slots (R327). -/
def State.gangOut (s : State) (g : Nat) (t : CtxSet) : Option (List (Nat × Fin 2 × Nat)) :=
  match s.cardOf t with
  | none => none
  | some c =>
    let l := if c.conc then s.gangCores t.card c else [g]
    let r := l.filterMap fun h =>
      match (s.core h).partySet t.card, s.freeSlot h with
      | some p, some j => if (s.core h).switch.isNone then some (h, p, j) else none
      | _, _ => none
    if r.length = l.length then some r else none

/-- A party resident on a core is switched out with its gang (R325, R327): their sets begin to leave, and go once all are at rest. One
that can no longer go stays. -/
def State.gangSwitch (s : State) (g : Nat) (t : CtxSet) : State :=
  match s.gangOut g t with
  | some l =>
    let s := l.foldl (fun (s : State) e => s.beginOut e.1 e.2.1) s
    if l.all fun e => s.atRest e.1 e.2.1 then l.foldl (fun (s : State) e => s.takeOut e.1 e.2.1 e.2.2) s else s
  | none => s.updAct g fun t => { t with leaving := false }

/-- The saved set of a core that returns next, by R320, unless a card of a greater priority can bind there: a CONC gang for which sets
lack elsewhere keeps none idle (R322). -/
def State.nextReturn (s : State) (g : Nat) : Option (Nat × Fin 2) :=
  let k := s.core g
  match k.vacant with
  | [] => none
  | p :: _ =>
    let best := k.waiting.foldl (fun (a : Option (Nat × CtxSet)) e => match a with
      | some b => if s.savedEff b.2 < s.savedEff e.2 || (s.savedEff b.2 == s.savedEff e.2 && e.2.outAt < b.2.outAt) then some e else a
      | none => some e) none
    match best with
    | none => none
    | some (j, t) =>
      if s.cards.any fun e => (e.2.st == .ready || e.2.st == .selected || e.2.partly) && s.savedEff t < s.eff e.2 && (s.bindList e.2).contains g
      then none else some (j, p)

/-- The slice of the active party's queue (R313). -/
def State.slice (s : State) (g : Nat) : Nat :=
  match s.cardOf (s.aset g) with
  | some c => (s.qdesc c.die.val c.queue).slice
  | none => 0

/-- A set that took TIMER has not yielded one further slice later, and another party waits (R327). -/
def State.sliceOver (s : State) (g : Nat) : Bool :=
  match (s.aset g).timerAt with
  | some n => s.slice g != 0 && n + s.slice g ≤ s.clk && s.partyWaits g
  | none => false

/-- The resident party of a core that gives way to a selected card which finds no free set (R327): the active one first. -/
def State.preempted (s : State) (g : Nat) : Option CtxSet :=
  let k := s.core g
  (s.cards.filter fun e => e.2.st == .selected && !s.hasFree e.2 && s.yieldsTo g e.2).findSome? fun e =>
    if k.act.started && s.givesWay k.act e.2 then some k.act
    else if s.givesWay k.other e.2 then some k.other else none

/-- CONTEXT_SWITCH: what the switching hardware of a core does next: a party that is over ends its recording and leaves; the other set
becomes active; a set that is leaving goes on to leave; a saved set returns; or a resident set is to be switched out (R320, R324, R325, R327, R334). -/
def execContextSwitch (g : Nat) (s : State) : Out :=
  let t := s.aset g
  if s.closing g then .next (s.closeRecording g 1)
  else if t.occupied && t.over && t.quiet then .next (s.leave g)
  else if t.leaving then .next (s.gangSwitch g t)
  else if !t.occupied && (s.core g).other.occupied then .next (s.activate g)
  else
    match s.nextReturn g with
    | some (j, p) =>
      let s := s.restore g j p
      .next (if p = (s.core g).active then s.updAct g (CtxSet.wake s.clk) else s)
    | none =>
      if t.started && s.sliceOver g then .next (s.gangSwitch g t)
      else
        match s.preempted g with
        | some u => .next (s.gangSwitch g u)
        | none => .next s

/-- TIMER becomes pending in a context (R92). -/
def Ctx.timer (x : Ctx) : Ctx := if x.live then { x with pend := { x.pend with timer := true } } else x

/-- TIME_SLICE_EXPIRY: the active set has run for its slice and another party waits: every context takes TIMER (R327). -/
def execTimeSliceExpiry (g : Nat) (s : State) : Out :=
  let t := s.aset g
  let n := s.slice g
  let since := t.timerAt.getD t.sliceAt
  if t.started && n != 0 && since + n ≤ s.clk && s.partyWaits g && (t.timerAt.isNone || (s.freeSlot g).isNone) then
    .next (s.updAct g fun t => { t with timerAt := some s.clk, ctx := t.ctx.map Ctx.timer })
  else .next s

/-! ### The job port: issue -/

/-- JPOST (R333). -/
def execJpost (xa xb : XReg) (s : State) : Out := issueEngine (.jpost xa xb) s
/-- JSTAT (R335). -/
def execJstat (xa xb : XReg) (s : State) : Out := issueEngine (.jstat xa xb) s
/-- JYIELD (R336). -/
def execJyield (s : State) : Out := issueEngine .jyield s
/-- JPRIO (R337): PRIV in user mode. -/
def execJprio (xa xb : XReg) (s : State) : Out :=
  privileged (.jprio xa xb) s fun s => issueEngine (.jprio xa xb) s

/-- JDONE at issue (R334): its context is IDLE; the end of the party ends its recording (R302). -/
def State.jdoneIssue (s : State) : State :=
  let s := s.enter .jdone true
  let s := s.updMe fun x => { x with st := .idle, hold := .none, pend := {} }
  s.closeRecording s.curCore s.curCtx

/-- JDONE. -/
def execJdone (s : State) : Out :=
  if s.mySet.queueFull s.curCtx .job then .next (s.holdMe (.queueFull .job .jdone)) else .next s.jdoneIssue

/-- The issue of a V or E instruction whose queue has room. -/
def State.issueNow (s : State) (i : Instr) : State :=
  match i with
  | .grec n => s.grecIssue n
  | .gend => s.gendIssue
  | .gplay .. => s.enter i false
  | .jdone => s.jdoneIssue
  | _ => s.enter i true

/-- ENGINE_QUEUE_FULL_RELEASE: an instruction that waits for a place in its queue issues in a slot of its context when there is one
(R11, R37), unless a cause is taken first (R92). -/
def execEngineQueueFullRelease (g : Nat) (c : CtxId) (s : State) : Out :=
  match (s.ctx g c).hold with
  | .queueFull q i =>
    if (s.aset g).queueFull c q || s.expired g c (s.ctx g c).wdog || (s.ctx g c).takeable.isSome || !s.slotOpen g c then .next s
    else .next (State.issueNow ({ s with curCore := g, curCtx := c }.useSlot g c) i)
  | _ => .next s

/-! ### The job port: execution in queue order (R38) -/

/-- The head of the job port has executed. -/
def State.jobDone (s : State) (g : Nat) (e : Entry) (mst : BitVec 8) : State :=
  (s.updAct g fun t =>
    ({ t with jq := t.jq.drop 1, jheld := false, jcard := Option.none }.updCtx e.ctx fun x => { x with mstat := x.mstat ||| mst }).unstall .job e.ctx).releaseAll g
    e.tokens

/-- The bytes of a posted card (R333): user mode writes the context's tenant; the queue field and the status word are
written. -/
def postedCard (b : List (Byte × Bool)) (user : Bool) (tenant : Byte) (q : Nat) : List (Byte × Bool) :=
  b.zipIdx.map fun e =>
    let i := e.2
    if i = 4 && user then (tenant, false)
    else if i = 10 then (BitVec.ofNat 8 q, false)
    else if i = 11 then (BitVec.ofNat 8 (q / 256), false)
    else if 224 ≤ i && i < 232 then (0, false)
    else e.1

/-- The card of a jpost has been read, with some mstat bits: it is posted, or waits for its queue to have room (R333); the bits are set
when the jpost completes (R82). One that a fenced or unreachable die, or a slot outside its HBM4E, does not take fails (R4, R240): the
descriptor is read all the same (DESIGN CHOICE, log entry 78). -/
def State.jpostWrite (s : State) (g : Nat) (e : Entry) (mst : BitVec 8) (b : List (Byte × Bool)) : State :=
  let t := s.aset g
  let w : Who := ⟨g, t.sid, e.ctx⟩
  let d := e.x1.toNat / 64 % 8
  let q : BitVec 6 := BitVec.ofNat 6 e.x1.toNat
  let k := s.qdesc d q
  let a := podAddr s d (k.slotAddr k.tail)
  let fails (f : Fate) : State := ((s.countFate g f).failOf w f).jobDone g e mst
  if 2 ^ k.logcap ≤ (k.tail - k.free).toNat then s.updAct g fun t => { t with jheld := true, jcard := some (mst, b) }
  else if !s.reaches (g / 128) (s.pkgid.toNat * 8 + d) then fails .dead
  else if !inHbm a then fails .refused
  else
    let card := postedCard b (!e.sup) t.tenant e.x1.toNat
    let s := s.engineWrite w (card.zipIdx.map fun x => (a + x.2, x.1.1, x.1.2))
    (s.setQField d q 16 (k.tail + 1)).jobDone g e mst

/-- A jpost's card is read through its pointer, once the read has passed its issue point (R123, R333); a stale token withdraws the jpost
alone (R127). -/
def State.jpostRead (s : State) (g : Nat) (e : Entry) : State :=
  let t := s.aset g
  let w : Who := ⟨g, t.sid, e.ctx⟩
  let p := s.eptr g e.x0 e.k0
  match if s.begun g t.sid .job then none else s.issuePoints g [p] with
  | some (.stall pte) => (s.engineStall g .job e.ctx pte).updAct g fun t => { t with jheld := true }
  | some (.withdrawn pte) => (s.jobDone g e mWdr).updAct g fun t => t.updCtx e.ctx (Ctx.withdrawn pte none)
  | _ =>
    match s.carry w t.reqtag .job (s.galReads g p 256) with
    | (none, s) => s.updAct g fun t => { t with jheld := true }
    | (some f, s) =>
      let (b, mst, s) := s.galRead w f p 256
      (s.updAct g fun t => t.unstall .job e.ctx).jpostWrite g e mst b

/-- JPOST's effect, once the core's earlier stores are registered (R333): the checks, the read of the card and its posting. -/
def State.jpostAct (s : State) (g : Nat) (e : Entry) : State :=
  let t := s.aset g
  match t.jcard with
  | some (mst, b) => s.jpostWrite g e mst b
  | none =>
    let d := e.x1.toNat / 64 % 8
    let k := s.qdesc d (BitVec.ofNat 6 e.x1.toNat)
    if 512 ≤ e.x1.toNat || !k.enabled || !k.coresPost || (!e.sup && s.sdescTenant d k.sdesc != t.tenant) then s.jobDone g e mStray
    else s.jpostRead g e

/-- The card that jstat and jprio find: of an id and a tenant, the one accepted first that is not final (R335). -/
def State.findCard (s : State) (id : W32) (tenant : Byte) : Option (Nat × Card) :=
  s.cards.find? fun e => e.2.id == id && e.2.tenant == tenant && e.2.st != .final

/-- The code of a card's state (R316). -/
def CardSt.code : CardSt → Nat
  | .wait => 1 | .move => 2 | .ready => 3 | .selected => 4 | .run => 5 | .retire => 6 | .final => 0

/-- The word of jstat (R335). A card in WAIT or MOVE, which has no ready time, has its plain priority as eff (DESIGN CHOICE, log entry
77). -/
def State.jstatWord (s : State) (id : W32) (tenant : Byte) : W64 :=
  match s.findCard id tenant with
  | none => 0
  | some (n, c) =>
    BitVec.ofNat 64 (c.preds.toNat * 2 ^ 34 + s.partiesEnded n c * 2 ^ 23 + c.bound * 2 ^ 12
      + (if c.st == .wait || c.st == .move then c.prio.toNat else s.eff c) * 2 ^ 8 + c.st.code)

/-- A jyield switches its set out (R336): another party waits, a save slot is free, and the job is not CONC. -/
def State.yields (s : State) (g : Nat) : Bool :=
  (match s.cardOf (s.aset g) with
   | some c => !c.conc
   | none => false) && s.othersWait g && (s.freeSlot g).isSome

/-- JYIELD executes (R336): it completes, and its set begins to leave. When it is to switch its set out, it waits for an earlier save of
the core to end. -/
def State.jyieldExecute (s : State) (g : Nat) (e : Entry) : State :=
  if !s.yields g then s.jobDone g e 0
  else if (s.core g).switch.isSome then s
  else (s.jobDone g e 0).gangSwitch g (s.aset g)

/-- JPRIO's effect (R321, R337). -/
def State.jprioAct (s : State) (tenant : Byte) (id : W32) (prio : BitVec 3) : State :=
  match s.findCard id tenant with
  | some (n, c) => { s with cards := fset s.cards n { c with prio := prio } }
  | none => s

/-- JDONE's effect: once the context's stores are done, a nonzero failure record sets stfail (R334). -/
def State.jdoneAct (s : State) (g : Nat) (e : Entry) : State :=
  let bad := (nget (s.aset g).ctx e.ctx).fail != {}
  (s.updAct g fun t => { t with stFail := t.stFail || bad }).jobDone g e 0

/-- JOB_PORT_ENTRY_EXECUTE: the head of the job port executes, or waits for the core's earlier stores (R38, R333 to R337). In a set that
is leaving its core only a card read that has begun goes on. -/
def execJobPortEntryExecute (g : Nat) (s : State) : Out :=
  let t := s.aset g
  match if t.leaving && !s.begun g t.sid .job then [] else t.jq with
  | [] => .next s
  | e :: _ =>
    match e.instr with
    | .jpost .. => if s.storesDone g e.upTo then .next (s.jpostAct g e) else .next (s.triggerDrain g e.upTo)
    | .jdone => if s.storesDone g e.upTo then .next (s.jdoneAct g e) else .next (s.triggerDrain g e.upTo)
    | .jstat .. =>
      .next ((s.deliver g e (s.jstatWord (e.x1.setWidth 32) t.tenant)).jobDone g e 0)
    | .jyield => .next (s.jyieldExecute g e)
    | .jprio .. => .next ((s.jprioAct t.tenant (e.x0.setWidth 32) (e.x1.setWidth 3)).jobDone g e 0)
    | _ => .next (s.jobDone g e 0)

/-- GALLEY_PLAY_COMPLETE: a play every command of which has completed completes on tlg; a card's play ends its party (R300,
R302). -/
def execGalleyPlayComplete (g : Nat) (s : State) : Out :=
  let t := s.aset g
  match t.fed.find? t.playDone with
  | none => .next s
  | some p =>
    .next (s.updAct g fun t =>
      { t with fed := t.fed.filter fun y => y.num != p.num
               playOver := t.playOver || t.cardPlay == some p.num }.complete .tlg p.num)

/-! ### Purging a tag (R329, R330) -/

/-- A request has not been accepted at a home yet: it has not left its core or is in the package's fabric. -/
def ReqAt.inFabric : ReqAt → Bool
  | .held | .toHome | .circuit | .returning | .backoff _ => true
  | _ => false

/-- Discards the requests in the fabric that a test picks, with their tags and in-flight counts (R124, R329). -/
def State.dropRequests (s : State) (p : Req → Bool) : State :=
  let l := s.reqs.filter fun e => e.2.pos.inFabric && p e.2
  l.foldl (fun (s : State) e =>
    let s := if e.2.dropped then s else s.freeTagOf e.2
    let s := { s with reqs := fdel s.reqs e.1 }
    match e.2.pte with
    | some x => s.flyOut (e.2.core / 128) x
    | none => s) s

/-- The in-flight counts of some accesses fall (R124). -/
def State.flyOutAll (s : State) (d : Nat) (l : List (Option (BitVec 20))) : State :=
  l.reduceOption.foldl (fun (s : State) e => s.flyOut d e) s

/-- The entries that an operation which has not been performed is still counted on. -/
def HomeOp.counted (o : HomeOp) : List (Option (BitVec 20)) :=
  match o.pos with
  | .done .. => []
  | _ => [o.pte, o.flagPte]

/-- The requests, stores and operations with a tag that have not reached a home are discarded (R329), whether the set that issued them
is still there or not. -/
def State.dropTraffic (s : State) (tag : W16) : State :=
  let s := s.dropRequests fun r => r.reqtag == tag
  let reqs := s.reqs
  let gone (e : StoreEnt) : Bool := e.reqtag == tag && (match e.req with
    | some r => (fget reqs r).isNone
    | none => true)
  let s := s.cores.foldl (fun (s : State) e =>
    (s.updCore e.1 fun k => { k with sb := k.sb.filter fun y => !gone y }).flyOutAll (e.1 / 128) ((e.2.sb.filter gone).map (·.pte))) s
  (s.ops.filter fun e => e.2.reqtag == tag && (match e.2.pos with
    | .sent r => (fget reqs r).isNone
    | _ => true)).foldl (fun (s : State) e =>
      State.flyOutAll { s with ops := fdel s.ops e.1 } (e.2.core / 128) e.2.counted) s

/-- What a killed set has outside its core: an exchange, an announcement, and what its engines have asked for. -/
def State.dropOutside (s : State) (g : Nat) (t : CtxSet) : State :=
  let s := match t.crun with
    | some r => (s.abortExchange ⟨g, t.sid, r.e.who⟩ r).unannounce ⟨g, t.sid, r.e.who⟩
    | none => s
  let s := ((t.srun.toList.flatten.map fun r => r.flying).flatten).foldl (fun (s : State) x => s.dropGranule g t.sid x) s
  s.orphan g t.sid fun _ => true

/-- A context of a set holds at a purge of a tag. -/
def CtxSet.atPurge (t : CtxSet) (tag : W16) : Bool := t.ctx.toList.any fun x => x.st == .wait && x.hold == .purge tag

/-- Kills a resident party of a core. -/
def State.killSet (s : State) (g : Nat) (p : Fin 2) : State := (s.dropOutside g (nget (s.core g).set p)).vacate g p

/-- Drops the saved party of a slot of a core. -/
def State.killSlot (s : State) (g j : Nat) (t : CtxSet) : State :=
  let s := (s.dropOutside g t).giveUpDue g t
  let s := s.updCore g fun k => { k with slots := fdel k.slots j }
  let s := { s with monitors := s.monitors.filter fun m => !(m.core == g && m.sid == t.sid) }
  let s := t.tokens.foldl (fun (s : State) x => if x.valid then s.savedBy g x false else s) s
  s.updCore g fun k => { k with
    rec_ := match k.rec_ with
      | some r => if r.sid = t.sid then none else some r
      | none => none
    gReady := k.gReady.filter fun f => f.sid != t.sid }

/-- Kills the resident and saved parties of a core that a test picks (R329). -/
def State.killParties (s : State) (g : Nat) (pick : CtxSet → Bool) : State :=
  let s := ([0, 1] : List (Fin 2)).foldl (fun (s : State) p =>
    let t := nget (s.core g).set p
    if t.occupied && pick t then s.killSet g p else s) s
  (s.core g).slots.foldl (fun (s : State) e => if pick e.2 then s.killSlot g e.1 e.2 else s) s

/-- A card with what its parties that have not left its cores add to its status (R312). -/
def State.withParties (s : State) (n : Nat) (c : Card) : Card :=
  ((c.cores.map fun g => (s.core g).sets.filter fun t => t.card == some n).flatten).foldl Card.partyEnded c

/-- The cards of a tag that are not retired become final: 0x04 in states 1 to 4, 0x03 in 5 and 6 (R316, R329, R330). -/
def State.killCards (s : State) (tag : W16) : State :=
  (s.cards.filter fun e => e.2.tag == tag && e.2.st != .final).foldl (fun (s : State) e =>
    let c := e.2
    let code := if c.st == .run || c.st == .retire then 3 else 4
    let s := { s with cards := fdel s.cards e.1 }
    ((s.writeFinal (s.withParties e.1 c) code 0 true).releaseTiles c).forgetCard e.1) s

/-- The purge of a tag reaches every die (R329): a party that holds at the purge itself is killed when its hold ends (R338). -/
def State.purgeTag (s : State) (tag : W16) : State :=
  let s := s.killCards tag
  let s := s.cores.foldl (fun (s : State) e => s.killParties e.1 fun t => t.reqtag == tag && !t.atPurge tag) s
  s.dropTraffic tag

/-- A purge starts (R331): its record, in the log of the queue of a card on the die that found it, and the host's notification. -/
def State.purgeStart (s : State) (g : Nat) (own : Option (Fin 8 × BitVec 6)) (tag : W16) (source : Nat) (off : W64) : State :=
  (s.containRecord g own tag 0x04 source off).notifyDie (g / 128)

/-- PURGE (R338). -/
def execPurge (xa : XReg) (s : State) : Out :=
  privileged (.purge xa) s fun s =>
    let s := s.smudgeMe 6
    let tag : W16 := (s.rx xa).setWidth 16
    .next ((s.purgeStart s.curCore (s.queueOf s.mySet) tag 1 0).holdMe (.purge tag))

/-- The set of a core, resident or saved, whose context holds at a purge, with its tag. -/
def State.purger (s : State) (g : Nat) (c : CtxId) : Option (CtxSet × W16) :=
  (s.core g).sets.findSome? fun t => match (nget t.ctx c).hold with
    | .purge tag => some (t, tag)
    | _ => none

/-- PURGE_COMPLETE: every die has completed the purge (R338): its hold ends, and a party that purged its own tag is killed. -/
def execPurgeComplete (g : Nat) (c : CtxId) (s : State) : Out :=
  match s.purger g c with
  | none => .next s
  | some (t, tag) =>
    let s := s.purgeTag tag
    let s := s.updWho ⟨g, t.sid, c⟩ Ctx.goOn
    .next (if t.reqtag == tag then s.killParties g fun u => u.sid == t.sid else s)

/-- POISON_CONSUME: poison that was consumed purges the tag of the work (R328, R331). -/
def execPoisonConsume (s : State) : Out :=
  match s.poisonHits with
  | [] => .next s
  | h :: rest =>
    .next ((State.purgeStart { s with poisonHits := rest } h.core h.queue h.tag 0 h.off).purgeTag h.tag)

/-- HOST_PURGE: the host purges a tag (R331). -/
def execHostPurge (tag : W16) (s : State) : Out := .next ((s.purgeStart 0 none tag 2 0).purgeTag tag)

/-- Locations from 2^61 name galley store entries: core, slot and index (R291). -/
def galleyErrAt (loc : Nat) : Nat × BitVec 3 × Nat :=
  let n := loc - 2 ^ 61
  (n / 2 ^ 16, BitVec.ofNat 3 (n / 2 ^ 12), n % 2 ^ 12)

/-- UNCORRECTABLE_ERROR: an uncorrectable error reaches an 8-byte word of memory or of a vault, or an entry of a galley store
(R291, R328). -/
def execUncorrectableError (loc : Nat) (s : State) : Out :=
  if loc < 2 ^ 61 then .next { s with mpois := insertNat s.mpois (loc / 8) }
  else
    let (g, n, i) := galleyErrAt loc
    .next (s.updCore g fun k => match vget k.galley n with
      | some gal => { k with galley := vset k.galley n (some { gal with bad := insertNat gal.bad i }) }
      | none => k)

end Sys2Proof.Machine
end

