-- ==== Sys2Proof/Machine/VectorIssue.lean ====
section
/-! DEFINITION. Sys2Proof/Machine/VectorIssue.lean: the issue of the V instructions (R13, R37, R38): each is captured with
its x operands, its rounding mode and its tokens, and the vector engine executes it later (V_ENTRY_EXECUTE). -/

namespace Sys2Proof.Machine

/-- VADD (R167). -/
def execVadd (ty : ElemTy) (mk : MReg) (s2 : VSrc) (vs1 : VReg) (vd : VReg) (s : State) : Out := issueEngine (.vadd ty mk s2 vs1 vd) s

/-- VSUB (R167). -/
def execVsub (ty : ElemTy) (mk : MReg) (s2 : VSrc) (vs1 : VReg) (vd : VReg) (s : State) : Out := issueEngine (.vsub ty mk s2 vs1 vd) s

/-- VMUL (R167). -/
def execVmul (ty : ElemTy) (mk : MReg) (s2 : VSrc) (vs1 : VReg) (vd : VReg) (s : State) : Out := issueEngine (.vmul ty mk s2 vs1 vd) s

/-- VFMA (R167). -/
def execVfma (ty : ElemTy) (mk : MReg) (s2 : VSrc) (vs1 : VReg) (vd : VReg) (s : State) : Out := issueEngine (.vfma ty mk s2 vs1 vd) s

/-- VMIN (R167). -/
def execVmin (ty : ElemTy) (mk : MReg) (s2 : VSrc) (vs1 : VReg) (vd : VReg) (s : State) : Out := issueEngine (.vmin ty mk s2 vs1 vd) s

/-- VMAX (R167). -/
def execVmax (ty : ElemTy) (mk : MReg) (s2 : VSrc) (vs1 : VReg) (vd : VReg) (s : State) : Out := issueEngine (.vmax ty mk s2 vs1 vd) s

/-- VABS (R167). -/
def execVabs (ty : ElemTy) (mk : MReg) (vs1 : VReg) (vd : VReg) (s : State) : Out := issueEngine (.vabs ty mk vs1 vd) s

/-- VNEG (R167). -/
def execVneg (ty : ElemTy) (mk : MReg) (vs1 : VReg) (vd : VReg) (s : State) : Out := issueEngine (.vneg ty mk vs1 vd) s

/-- VDIV (R168). -/
def execVdiv (mk : MReg) (s2 : VSrc) (vs1 : VReg) (vd : VReg) (s : State) : Out := issueEngine (.vdiv mk s2 vs1 vd) s

/-- VSQRT (R168). -/
def execVsqrt (mk : MReg) (vs1 : VReg) (vd : VReg) (s : State) : Out := issueEngine (.vsqrt mk vs1 vd) s

/-- VRCP (R168). -/
def execVrcp (mk : MReg) (vs1 : VReg) (vd : VReg) (s : State) : Out := issueEngine (.vrcp mk vs1 vd) s

/-- VRSQ (R168). -/
def execVrsq (mk : MReg) (vs1 : VReg) (vd : VReg) (s : State) : Out := issueEngine (.vrsq mk vs1 vd) s

/-- VEXP2 (R168). -/
def execVexp2 (mk : MReg) (vs1 : VReg) (vd : VReg) (s : State) : Out := issueEngine (.vexp2 mk vs1 vd) s

/-- VLOG2 (R168). -/
def execVlog2 (mk : MReg) (vs1 : VReg) (vd : VReg) (s : State) : Out := issueEngine (.vlog2 mk vs1 vd) s

/-- VAND (R169). -/
def execVand (ty : ElemTy) (mk : MReg) (s2 : VSrc) (vs1 : VReg) (vd : VReg) (s : State) : Out := issueEngine (.vand ty mk s2 vs1 vd) s

/-- VOR (R169). -/
def execVor (ty : ElemTy) (mk : MReg) (s2 : VSrc) (vs1 : VReg) (vd : VReg) (s : State) : Out := issueEngine (.vor ty mk s2 vs1 vd) s

/-- VXOR (R169). -/
def execVxor (ty : ElemTy) (mk : MReg) (s2 : VSrc) (vs1 : VReg) (vd : VReg) (s : State) : Out := issueEngine (.vxor ty mk s2 vs1 vd) s

/-- VNOT (R169). -/
def execVnot (ty : ElemTy) (mk : MReg) (vs1 : VReg) (vd : VReg) (s : State) : Out := issueEngine (.vnot ty mk vs1 vd) s

/-- VSHL (R169). -/
def execVshl (ty : ElemTy) (mk : MReg) (s2 : VSrc) (vs1 : VReg) (vd : VReg) (s : State) : Out := issueEngine (.vshl ty mk s2 vs1 vd) s

/-- VSHR (R169). -/
def execVshr (ty : ElemTy) (mk : MReg) (s2 : VSrc) (vs1 : VReg) (vd : VReg) (s : State) : Out := issueEngine (.vshr ty mk s2 vs1 vd) s

/-- VSRA (R169). -/
def execVsra (ty : ElemTy) (mk : MReg) (s2 : VSrc) (vs1 : VReg) (vd : VReg) (s : State) : Out := issueEngine (.vsra ty mk s2 vs1 vd) s

/-- VCMP (R170). -/
def execVcmp (rel : CmpRel) (ty : ElemTy) (mk : MReg) (s2 : VSrc) (vs1 : VReg) (md : MReg) (s : State) : Out := issueEngine (.vcmp rel ty mk s2 vs1 md) s

/-- VSEL (R171). -/
def execVsel (ty : ElemTy) (mk : MReg) (vs2 : VReg) (vs1 : VReg) (vd : VReg) (s : State) : Out := issueEngine (.vsel ty mk vs2 vs1 vd) s

/-- VCVT (R172). -/
def execVcvt (ty : ElemTy) (ts : ElemTy) (mk : MReg) (vs1 : VReg) (vd : VReg) (s : State) : Out := issueEngine (.vcvt ty ts mk vs1 vd) s

/-- VMOV (R173). -/
def execVmov (ty : ElemTy) (mk : MReg) (vs1 : VReg) (vd : VReg) (s : State) : Out := issueEngine (.vmov ty mk vs1 vd) s

/-- VBCAST (R173). -/
def execVbcast (ty : ElemTy) (mk : MReg) (xs : XReg) (vd : VReg) (s : State) : Out := issueEngine (.vbcast ty mk xs vd) s

/-- VIOTA (R173). -/
def execViota (ty : ElemTy) (mk : MReg) (vd : VReg) (s : State) : Out := issueEngine (.viota ty mk vd) s

/-- VSHUF (R173). -/
def execVshuf (ty : ElemTy) (mk : MReg) (vs2 : VReg) (vs1 : VReg) (vd : VReg) (s : State) : Out := issueEngine (.vshuf ty mk vs2 vs1 vd) s

/-- VSLIDE (R173). -/
def execVslide (down : Bool) (ty : ElemTy) (mk : MReg) (s2 : VSrc) (vs1 : VReg) (vd : VReg) (s : State) : Out := issueEngine (.vslide down ty mk s2 vs1 vd) s

/-- VCMPR (R173). -/
def execVcmpr (ty : ElemTy) (mk : MReg) (vs1 : VReg) (vd : VReg) (s : State) : Out := issueEngine (.vcmpr ty mk vs1 vd) s

/-- VPART (R174). -/
def execVpart (ty : ElemTy) (mk : MReg) (vd : VReg) (s : State) : Out := issueEngine (.vpart ty mk vd) s

/-- VRED (R175). -/
def execVred (op : RedOp) (ty : ElemTy) (mk : MReg) (vs1 : VReg) (vd : VReg) (s : State) : Out := issueEngine (.vred op ty mk vs1 vd) s

/-- VSCAN (R175). -/
def execVscan (op : RedOp) (ty : ElemTy) (mk : MReg) (vs1 : VReg) (vd : VReg) (s : State) : Out := issueEngine (.vscan op ty mk vs1 vd) s

/-- MSET (R176). -/
def execMset (ty : ElemTy) (xn : XReg) (md : MReg) (s : State) : Out := issueEngine (.mset ty xn md) s

/-- MAND (R176). -/
def execMand (mb : MReg) (ma : MReg) (md : MReg) (s : State) : Out := issueEngine (.mand mb ma md) s

/-- MOR (R176). -/
def execMor (mb : MReg) (ma : MReg) (md : MReg) (s : State) : Out := issueEngine (.mor mb ma md) s

/-- MXOR (R176). -/
def execMxor (mb : MReg) (ma : MReg) (md : MReg) (s : State) : Out := issueEngine (.mxor mb ma md) s

/-- MNOT (R176). -/
def execMnot (ma : MReg) (md : MReg) (s : State) : Out := issueEngine (.mnot ma md) s

/-- VLD (R177). -/
def execVld (ty : ElemTy) (mk : MReg) (xs : XReg) (vd : VReg) (s : State) : Out := issueEngine (.vld ty mk xs vd) s

/-- VST (R177). -/
def execVst (ty : ElemTy) (mk : MReg) (xs : XReg) (vd : VReg) (s : State) : Out := issueEngine (.vst ty mk xs vd) s

/-- VLDG (R178). -/
def execVldg (ty : ElemTy) (mk : MReg) (xs : XReg) (vs1 : VReg) (vd : VReg) (s : State) : Out := issueEngine (.vldg ty mk xs vs1 vd) s

/-- VSTS (R178). -/
def execVsts (ty : ElemTy) (mk : MReg) (xs : XReg) (vs1 : VReg) (vd : VReg) (s : State) : Out := issueEngine (.vsts ty mk xs vs1 vd) s

/-- VLDR (R179). -/
def execVldr (ty : ElemTy) (mk : MReg) (xoff : XReg) (h : HReg) (vd : VReg) (s : State) : Out := issueEngine (.vldr ty mk xoff h vd) s

/-- VSTR (R179). -/
def execVstr (ty : ElemTy) (mk : MReg) (xoff : XReg) (h : HReg) (vd : VReg) (s : State) : Out := issueEngine (.vstr ty mk xoff h vd) s

/-- VADV (R180). -/
def execVadv (xn : XReg) (h : HReg) (s : State) : Out := issueEngine (.vadv xn h) s

/-- VPUB (R180). -/
def execVpub (xn : XReg) (h : HReg) (s : State) : Out := issueEngine (.vpub xn h) s

/-- VLDA (R181). -/
def execVlda (last : Bool) (xrow : XReg) (acc : AccReg) (vd : VReg) (s : State) : Out := issueEngine (.vlda last xrow acc vd) s

end Sys2Proof.Machine
end

