-- ==== Sys2Proof/Machine/Dispatch.lean ====
section
/-! DEFINITION. Sys2Proof/Machine/Dispatch.lean: one arm for each constructor of Instr. -/

namespace Sys2Proof.Machine

def exec (i : Instr) (s : State) : Host.Outcome State Fault Refusal :=
  match i with
  | .lb rd rs1 imm => Sys2Proof.Machine.execLb rd rs1 imm s
  | .lh rd rs1 imm => Sys2Proof.Machine.execLh rd rs1 imm s
  | .lw rd rs1 imm => Sys2Proof.Machine.execLw rd rs1 imm s
  | .ld rd rs1 imm => Sys2Proof.Machine.execLd rd rs1 imm s
  | .lbu rd rs1 imm => Sys2Proof.Machine.execLbu rd rs1 imm s
  | .lhu rd rs1 imm => Sys2Proof.Machine.execLhu rd rs1 imm s
  | .lwu rd rs1 imm => Sys2Proof.Machine.execLwu rd rs1 imm s
  | .sb rs2 rs1 imm => Sys2Proof.Machine.execSb rs2 rs1 imm s
  | .sh rs2 rs1 imm => Sys2Proof.Machine.execSh rs2 rs1 imm s
  | .sw rs2 rs1 imm => Sys2Proof.Machine.execSw rs2 rs1 imm s
  | .sd rs2 rs1 imm => Sys2Proof.Machine.execSd rs2 rs1 imm s
  | .addi rd rs1 imm => Sys2Proof.Machine.execAddi rd rs1 imm s
  | .slti rd rs1 imm => Sys2Proof.Machine.execSlti rd rs1 imm s
  | .sltiu rd rs1 imm => Sys2Proof.Machine.execSltiu rd rs1 imm s
  | .xori rd rs1 imm => Sys2Proof.Machine.execXori rd rs1 imm s
  | .ori rd rs1 imm => Sys2Proof.Machine.execOri rd rs1 imm s
  | .andi rd rs1 imm => Sys2Proof.Machine.execAndi rd rs1 imm s
  | .slli rd rs1 sh => Sys2Proof.Machine.execSlli rd rs1 sh s
  | .srli rd rs1 sh => Sys2Proof.Machine.execSrli rd rs1 sh s
  | .srai rd rs1 sh => Sys2Proof.Machine.execSrai rd rs1 sh s
  | .auipc rd imm => Sys2Proof.Machine.execAuipc rd imm s
  | .addiw rd rs1 imm => Sys2Proof.Machine.execAddiw rd rs1 imm s
  | .slliw rd rs1 sh => Sys2Proof.Machine.execSlliw rd rs1 sh s
  | .srliw rd rs1 sh => Sys2Proof.Machine.execSrliw rd rs1 sh s
  | .sraiw rd rs1 sh => Sys2Proof.Machine.execSraiw rd rs1 sh s
  | .add rd rs1 rs2 => Sys2Proof.Machine.execAdd rd rs1 rs2 s
  | .sub rd rs1 rs2 => Sys2Proof.Machine.execSub rd rs1 rs2 s
  | .sll rd rs1 rs2 => Sys2Proof.Machine.execSll rd rs1 rs2 s
  | .slt rd rs1 rs2 => Sys2Proof.Machine.execSlt rd rs1 rs2 s
  | .sltu rd rs1 rs2 => Sys2Proof.Machine.execSltu rd rs1 rs2 s
  | .xor rd rs1 rs2 => Sys2Proof.Machine.execXor rd rs1 rs2 s
  | .srl rd rs1 rs2 => Sys2Proof.Machine.execSrl rd rs1 rs2 s
  | .sra rd rs1 rs2 => Sys2Proof.Machine.execSra rd rs1 rs2 s
  | .or rd rs1 rs2 => Sys2Proof.Machine.execOr rd rs1 rs2 s
  | .and rd rs1 rs2 => Sys2Proof.Machine.execAnd rd rs1 rs2 s
  | .mul rd rs1 rs2 => Sys2Proof.Machine.execMul rd rs1 rs2 s
  | .mulh rd rs1 rs2 => Sys2Proof.Machine.execMulh rd rs1 rs2 s
  | .mulhsu rd rs1 rs2 => Sys2Proof.Machine.execMulhsu rd rs1 rs2 s
  | .mulhu rd rs1 rs2 => Sys2Proof.Machine.execMulhu rd rs1 rs2 s
  | .div rd rs1 rs2 => Sys2Proof.Machine.execDiv rd rs1 rs2 s
  | .divu rd rs1 rs2 => Sys2Proof.Machine.execDivu rd rs1 rs2 s
  | .rem rd rs1 rs2 => Sys2Proof.Machine.execRem rd rs1 rs2 s
  | .remu rd rs1 rs2 => Sys2Proof.Machine.execRemu rd rs1 rs2 s
  | .addw rd rs1 rs2 => Sys2Proof.Machine.execAddw rd rs1 rs2 s
  | .subw rd rs1 rs2 => Sys2Proof.Machine.execSubw rd rs1 rs2 s
  | .sllw rd rs1 rs2 => Sys2Proof.Machine.execSllw rd rs1 rs2 s
  | .srlw rd rs1 rs2 => Sys2Proof.Machine.execSrlw rd rs1 rs2 s
  | .sraw rd rs1 rs2 => Sys2Proof.Machine.execSraw rd rs1 rs2 s
  | .mulw rd rs1 rs2 => Sys2Proof.Machine.execMulw rd rs1 rs2 s
  | .divw rd rs1 rs2 => Sys2Proof.Machine.execDivw rd rs1 rs2 s
  | .divuw rd rs1 rs2 => Sys2Proof.Machine.execDivuw rd rs1 rs2 s
  | .remw rd rs1 rs2 => Sys2Proof.Machine.execRemw rd rs1 rs2 s
  | .remuw rd rs1 rs2 => Sys2Proof.Machine.execRemuw rd rs1 rs2 s
  | .lui rd imm => Sys2Proof.Machine.execLui rd imm s
  | .beq rs1 rs2 off => Sys2Proof.Machine.execBeq rs1 rs2 off s
  | .bne rs1 rs2 off => Sys2Proof.Machine.execBne rs1 rs2 off s
  | .blt rs1 rs2 off => Sys2Proof.Machine.execBlt rs1 rs2 off s
  | .bge rs1 rs2 off => Sys2Proof.Machine.execBge rs1 rs2 off s
  | .bltu rs1 rs2 off => Sys2Proof.Machine.execBltu rs1 rs2 off s
  | .bgeu rs1 rs2 off => Sys2Proof.Machine.execBgeu rs1 rs2 off s
  | .jalr rd rs1 imm => Sys2Proof.Machine.execJalr rd rs1 imm s
  | .jal rd off => Sys2Proof.Machine.execJal rd off s
  | .ecall => Sys2Proof.Machine.execEcall s
  | .ebreak => Sys2Proof.Machine.execEbreak s
  | .csrrw rd csr rs1 => Sys2Proof.Machine.execCsrrw rd csr rs1 s
  | .csrrs rd csr rs1 => Sys2Proof.Machine.execCsrrs rd csr rs1 s
  | .csrrc rd csr rs1 => Sys2Proof.Machine.execCsrrc rd csr rs1 s
  | .csrrwi rd csr uimm => Sys2Proof.Machine.execCsrrwi rd csr uimm s
  | .csrrsi rd csr uimm => Sys2Proof.Machine.execCsrrsi rd csr uimm s
  | .csrrci rd csr uimm => Sys2Proof.Machine.execCsrrci rd csr uimm s
  | .srstAccess op rd src => Sys2Proof.Machine.execSrstAccess op rd src s
  | .rvfence pred succ rd rs1 => Sys2Proof.Machine.execRvfence pred succ rd rs1 s
  | .rvfenceI => Sys2Proof.Machine.execRvfenceI s
  | .trn kd xva xlen rights ms => Sys2Proof.Machine.execTrn kd xva xlen rights ms s
  | .trnp kd xpa xlen rights ms host => Sys2Proof.Machine.execTrnp kd xpa xlen rights ms host s
  | .tkmov kd ks => Sys2Proof.Machine.execTkmov kd ks s
  | .tkdrop ks => Sys2Proof.Machine.execTkdrop ks s
  | .tklen xd ks => Sys2Proof.Machine.execTklen xd ks s
  | .tkinfo xd ks => Sys2Proof.Machine.execTkinfo xd ks s
  | .ptr xd ks xoff policy => Sys2Proof.Machine.execPtr xd ks xoff policy s
  | .gpatch xd slot => Sys2Proof.Machine.execGpatch xd slot s
  | .guntag xd => Sys2Proof.Machine.execGuntag xd s
  | .vxmv ty xd vs1 xi => Sys2Proof.Machine.execVxmv ty xd vs1 xi s
  | .mpop ty xd mk => Sys2Proof.Machine.execMpop ty xd mk s
  | .vadd ty mk s2 vs1 vd => Sys2Proof.Machine.execVadd ty mk s2 vs1 vd s
  | .vsub ty mk s2 vs1 vd => Sys2Proof.Machine.execVsub ty mk s2 vs1 vd s
  | .vmul ty mk s2 vs1 vd => Sys2Proof.Machine.execVmul ty mk s2 vs1 vd s
  | .vfma ty mk s2 vs1 vd => Sys2Proof.Machine.execVfma ty mk s2 vs1 vd s
  | .vmin ty mk s2 vs1 vd => Sys2Proof.Machine.execVmin ty mk s2 vs1 vd s
  | .vmax ty mk s2 vs1 vd => Sys2Proof.Machine.execVmax ty mk s2 vs1 vd s
  | .vabs ty mk vs1 vd => Sys2Proof.Machine.execVabs ty mk vs1 vd s
  | .vneg ty mk vs1 vd => Sys2Proof.Machine.execVneg ty mk vs1 vd s
  | .vdiv mk s2 vs1 vd => Sys2Proof.Machine.execVdiv mk s2 vs1 vd s
  | .vsqrt mk vs1 vd => Sys2Proof.Machine.execVsqrt mk vs1 vd s
  | .vrcp mk vs1 vd => Sys2Proof.Machine.execVrcp mk vs1 vd s
  | .vrsq mk vs1 vd => Sys2Proof.Machine.execVrsq mk vs1 vd s
  | .vexp2 mk vs1 vd => Sys2Proof.Machine.execVexp2 mk vs1 vd s
  | .vlog2 mk vs1 vd => Sys2Proof.Machine.execVlog2 mk vs1 vd s
  | .vand ty mk s2 vs1 vd => Sys2Proof.Machine.execVand ty mk s2 vs1 vd s
  | .vor ty mk s2 vs1 vd => Sys2Proof.Machine.execVor ty mk s2 vs1 vd s
  | .vxor ty mk s2 vs1 vd => Sys2Proof.Machine.execVxor ty mk s2 vs1 vd s
  | .vnot ty mk vs1 vd => Sys2Proof.Machine.execVnot ty mk vs1 vd s
  | .vshl ty mk s2 vs1 vd => Sys2Proof.Machine.execVshl ty mk s2 vs1 vd s
  | .vshr ty mk s2 vs1 vd => Sys2Proof.Machine.execVshr ty mk s2 vs1 vd s
  | .vsra ty mk s2 vs1 vd => Sys2Proof.Machine.execVsra ty mk s2 vs1 vd s
  | .vcmp rel ty mk s2 vs1 md => Sys2Proof.Machine.execVcmp rel ty mk s2 vs1 md s
  | .vsel ty mk vs2 vs1 vd => Sys2Proof.Machine.execVsel ty mk vs2 vs1 vd s
  | .vcvt ty ts mk vs1 vd => Sys2Proof.Machine.execVcvt ty ts mk vs1 vd s
  | .vmov ty mk vs1 vd => Sys2Proof.Machine.execVmov ty mk vs1 vd s
  | .vbcast ty mk xs vd => Sys2Proof.Machine.execVbcast ty mk xs vd s
  | .viota ty mk vd => Sys2Proof.Machine.execViota ty mk vd s
  | .vshuf ty mk vs2 vs1 vd => Sys2Proof.Machine.execVshuf ty mk vs2 vs1 vd s
  | .vslide down ty mk s2 vs1 vd => Sys2Proof.Machine.execVslide down ty mk s2 vs1 vd s
  | .vcmpr ty mk vs1 vd => Sys2Proof.Machine.execVcmpr ty mk vs1 vd s
  | .vpart ty mk vd => Sys2Proof.Machine.execVpart ty mk vd s
  | .vred op ty mk vs1 vd => Sys2Proof.Machine.execVred op ty mk vs1 vd s
  | .vscan op ty mk vs1 vd => Sys2Proof.Machine.execVscan op ty mk vs1 vd s
  | .mset ty xn md => Sys2Proof.Machine.execMset ty xn md s
  | .mand mb ma md => Sys2Proof.Machine.execMand mb ma md s
  | .mor mb ma md => Sys2Proof.Machine.execMor mb ma md s
  | .mxor mb ma md => Sys2Proof.Machine.execMxor mb ma md s
  | .mnot ma md => Sys2Proof.Machine.execMnot ma md s
  | .vld ty mk xs vd => Sys2Proof.Machine.execVld ty mk xs vd s
  | .vst ty mk xs vd => Sys2Proof.Machine.execVst ty mk xs vd s
  | .vldg ty mk xs vs1 vd => Sys2Proof.Machine.execVldg ty mk xs vs1 vd s
  | .vsts ty mk xs vs1 vd => Sys2Proof.Machine.execVsts ty mk xs vs1 vd s
  | .vldr ty mk xoff h vd => Sys2Proof.Machine.execVldr ty mk xoff h vd s
  | .vstr ty mk xoff h vd => Sys2Proof.Machine.execVstr ty mk xoff h vd s
  | .vadv xn h => Sys2Proof.Machine.execVadv xn h s
  | .vpub xn h => Sys2Proof.Machine.execVpub xn h s
  | .vlda last xrow acc vd => Sys2Proof.Machine.execVlda last xrow acc vd s
  | .rset h xa => Sys2Proof.Machine.execRset h xa s
  | .sfill h xa xb => Sys2Proof.Machine.execSfill h xa xb s
  | .sdrain h xa xb => Sys2Proof.Machine.execSdrain h xa xb s
  | .scopy xa xb xc => Sys2Proof.Machine.execScopy xa xb xc s
  | .shint kind xa xb => Sys2Proof.Machine.execShint kind xa xb s
  | .mcfg f xa => Sys2Proof.Machine.execMcfg f xa s
  | .mgo => Sys2Proof.Machine.execMgo s
  | .mrnd rm => Sys2Proof.Machine.execMrnd rm s
  | .mzero acc => Sys2Proof.Machine.execMzero acc s
  | .mdrain acc mode xa xb => Sys2Proof.Machine.execMdrain acc mode xa xb s
  | .mchk xa => Sys2Proof.Machine.execMchk xa s
  | .clset cls xa => Sys2Proof.Machine.execClset cls xa s
  | .clclr cls xa => Sys2Proof.Machine.execClclr cls xa s
  | .clins cls xa xb xc => Sys2Proof.Machine.execClins cls xa xb xc s
  | .cldel cls xa xb xc => Sys2Proof.Machine.execCldel cls xa xb xc s
  | .clsub cls xa xb => Sys2Proof.Machine.execClsub cls xa xb s
  | .clxch cls xa xb => Sys2Proof.Machine.execClxch cls xa xb s
  | .clpeel cls t xa xb xc => Sys2Proof.Machine.execClpeel cls t xa xb xc s
  | .clstat xa cls => Sys2Proof.Machine.execClstat xa cls s
  | .grec g => Sys2Proof.Machine.execGrec g s
  | .gend => Sys2Proof.Machine.execGend s
  | .gplay xa g xb => Sys2Proof.Machine.execGplay xa g xb s
  | .gsave g xa => Sys2Proof.Machine.execGsave g xa s
  | .gload g xa => Sys2Proof.Machine.execGload g xa s
  | .gdrop g => Sys2Proof.Machine.execGdrop g s
  | .gstat xa g => Sys2Proof.Machine.execGstat xa g s
  | .jpost xa xb => Sys2Proof.Machine.execJpost xa xb s
  | .jdone => Sys2Proof.Machine.execJdone s
  | .jstat xa xb => Sys2Proof.Machine.execJstat xa xb s
  | .jyield => Sys2Proof.Machine.execJyield s
  | .jprio xa xb => Sys2Proof.Machine.execJprio xa xb s
  | .amo op ty ord sc xd xp xv => Sys2Proof.Machine.execAmo op ty ord sc xd xp xv s
  | .cas dbl ord sc xd xp xexp xnew => Sys2Proof.Machine.execCas dbl ord sc xd xp xexp xnew s
  | .fence sc xd => Sys2Proof.Machine.execFence sc xd s
  | .xfence => Sys2Proof.Machine.execXfence s
  | .rosync => Sys2Proof.Machine.execRosync s
  | .twait tl xn => Sys2Proof.Machine.execTwait tl xn s
  | .tliss xd tl => Sys2Proof.Machine.execTliss xd tl s
  | .barArv sc b xd => Sys2Proof.Machine.execBarArv sc b xd s
  | .barWt sc b xphase => Sys2Proof.Machine.execBarWt sc b xphase s
  | .barAw sc b xd => Sys2Proof.Machine.execBarAw sc b xd s
  | .barStat sc b xd => Sys2Proof.Machine.execBarStat sc b xd s
  | .waita xd xp xexp xtmo => Sys2Proof.Machine.execWaita xd xp xexp xtmo s
  | .rwaitf h xi => Sys2Proof.Machine.execRwaitf h xi s
  | .rwaite h xi => Sys2Proof.Machine.execRwaite h xi s
  | .stf xp xv xf => Sys2Proof.Machine.execStf xp xv xf s
  | .pocc xa => Sys2Proof.Machine.execPocc xa s
  | .poccW xa => Sys2Proof.Machine.execPoccW xa s
  | .pref xa xb xc => Sys2Proof.Machine.execPref xa xb xc s
  | .pret xa => Sys2Proof.Machine.execPret xa s
  | .ptstat xd xa => Sys2Proof.Machine.execPtstat xd xa s
  | .tret => Sys2Proof.Machine.execTret s
  | .purge xa => Sys2Proof.Machine.execPurge xa s
  | .engineQueueFullRelease g c => Sys2Proof.Machine.execEngineQueueFullRelease g c s
  | .watchdogExpiry g c => Sys2Proof.Machine.execWatchdogExpiry g c s
  | .asyncTrapTake g c => Sys2Proof.Machine.execAsyncTrapTake g c s
  | .twaitComplete g c => Sys2Proof.Machine.execTwaitComplete g c s
  | .trnWalkEnd g c => Sys2Proof.Machine.execTrnWalkEnd g c s
  | .walkerSlotFree g c => Sys2Proof.Machine.execWalkerSlotFree g c s
  | .occultationStallResume g c => Sys2Proof.Machine.execOccultationStallResume g c s
  | .occtmoOverrun g c src => Sys2Proof.Machine.execOcctmoOverrun g c src s
  | .occultationWaitTimeout g c => Sys2Proof.Machine.execOccultationWaitTimeout g c s
  | .holderProbe g pte => Sys2Proof.Machine.execHolderProbe g pte s
  | .requestPerformed d n => Sys2Proof.Machine.execRequestPerformed d n s
  | .vEntryExecute g => Sys2Proof.Machine.execVEntryExecute g s
  | .vEntryResult g n => Sys2Proof.Machine.execVEntryResult g n s
  | .streamCommandBegin g c => Sys2Proof.Machine.execStreamCommandBegin g c s
  | .streamGranuleIssue g => Sys2Proof.Machine.execStreamGranuleIssue g s
  | .streamGranuleDone g c n => Sys2Proof.Machine.execStreamGranuleDone g c n s
  | .matrixEntryExecute g => Sys2Proof.Machine.execMatrixEntryExecute g s
  | .mgoLaunch g => Sys2Proof.Machine.execMgoLaunch g s
  | .matrixStep g f => Sys2Proof.Machine.execMatrixStep g f s
  | .drainRowPerformed g j => Sys2Proof.Machine.execDrainRowPerformed g j s
  | .collationCommandExecute g => Sys2Proof.Machine.execCollationCommandExecute g s
  | .cellOperation g => Sys2Proof.Machine.execCellOperation g s
  | .clxchPair g => Sys2Proof.Machine.execClxchPair g s
  | .clxchTransferDone g => Sys2Proof.Machine.execClxchTransferDone g s
  | .clxchNoPartner g => Sys2Proof.Machine.execClxchNoPartner g s
  | .clxchExchangeFailed g => Sys2Proof.Machine.execClxchExchangeFailed g s
  | .galleyInstall g => Sys2Proof.Machine.execGalleyInstall g s
  | .galleyPlayCheck g => Sys2Proof.Machine.execGalleyPlayCheck g s
  | .galleyFeed g => Sys2Proof.Machine.execGalleyFeed g s
  | .galleyWaitRelease g => Sys2Proof.Machine.execGalleyWaitRelease g s
  | .galleyPlayComplete g => Sys2Proof.Machine.execGalleyPlayComplete g s
  | .storeBufferAgeDrain g => Sys2Proof.Machine.execStoreBufferAgeDrain g s
  | .storeBufferDepart g => Sys2Proof.Machine.execStoreBufferDepart g s
  | .storeRegistered g seq => Sys2Proof.Machine.execStoreRegistered g seq s
  | .scTicket op => Sys2Proof.Machine.execScTicket op s
  | .homeOperation op => Sys2Proof.Machine.execHomeOperation op s
  | .atomicReply op => Sys2Proof.Machine.execAtomicReply op s
  | .fenceComplete g c => Sys2Proof.Machine.execFenceComplete g c s
  | .barrierArrival n => Sys2Proof.Machine.execBarrierArrival n s
  | .barrierWake g c => Sys2Proof.Machine.execBarrierWake g c s
  | .waitaWakeWrite g c => Sys2Proof.Machine.execWaitaWakeWrite g c s
  | .waitaMonitorLost g c => Sys2Proof.Machine.execWaitaMonitorLost g c s
  | .waitaTimeout g c => Sys2Proof.Machine.execWaitaTimeout g c s
  | .waitaSpuriousWake g c => Sys2Proof.Machine.execWaitaSpuriousWake g c s
  | .remoteRequestArrive r accept => Sys2Proof.Machine.execRemoteRequestArrive r accept s
  | .invalidationReceive r d => Sys2Proof.Machine.execInvalidationReceive r d s
  | .invalidationAckReceive r d => Sys2Proof.Machine.execInvalidationAckReceive r d s
  | .slotReturn r => Sys2Proof.Machine.execSlotReturn r s
  | .retryBackoffExpiry r => Sys2Proof.Machine.execRetryBackoffExpiry r s
  | .remoteReplyReceive r => Sys2Proof.Machine.execRemoteReplyReceive r s
  | .transactionTimeout r => Sys2Proof.Machine.execTransactionTimeout r s
  | .tagFreeRelease g c => Sys2Proof.Machine.execTagFreeRelease g c s
  | .dieFence d => Sys2Proof.Machine.execDieFence d s
  | .uncorrectableError loc => Sys2Proof.Machine.execUncorrectableError loc s
  | .poisonConsume => Sys2Proof.Machine.execPoisonConsume s
  | .purgeComplete g c => Sys2Proof.Machine.execPurgeComplete g c s
  | .cardAccept d q => Sys2Proof.Machine.execCardAccept d q s
  | .tileMigrateDone card => Sys2Proof.Machine.execTileMigrateDone card s
  | .cardSelect d => Sys2Proof.Machine.execCardSelect d s
  | .partyBind card => Sys2Proof.Machine.execPartyBind card s
  | .partyStart g => Sys2Proof.Machine.execPartyStart g s
  | .contextSwitch g => Sys2Proof.Machine.execContextSwitch g s
  | .setSaveComplete g => Sys2Proof.Machine.execSetSaveComplete g s
  | .timeSliceExpiry g => Sys2Proof.Machine.execTimeSliceExpiry g s
  | .jobRetire card => Sys2Proof.Machine.execJobRetire card s
  | .postRegisterWrite d q t => Sys2Proof.Machine.execPostRegisterWrite d q t s
  | .mailboxTargetWrite d slot w => Sys2Proof.Machine.execMailboxTargetWrite d slot w s
  | .mailboxDataWrite d slot w => Sys2Proof.Machine.execMailboxDataWrite d slot w s
  | .mailboxReclaim d slot => Sys2Proof.Machine.execMailboxReclaim d slot s
  | .mailboxDataRead d slot => Sys2Proof.Machine.execMailboxDataRead d slot s
  | .serviceRequest w0 w1 => Sys2Proof.Machine.execServiceRequest w0 w1 s
  | .attestationReport nonce => Sys2Proof.Machine.execAttestationReport nonce s
  | .eventsRead => Sys2Proof.Machine.execEventsRead s
  | .hostWindowAccess off bytes write => Sys2Proof.Machine.execHostWindowAccess off bytes write s
  | .registerWriteOther off w => Sys2Proof.Machine.execRegisterWriteOther off w s
  | .packageReset failed => Sys2Proof.Machine.execPackageReset failed s
  | .bootImageReceived image => Sys2Proof.Machine.execBootImageReceived image s
  | .bootFetchRetry => Sys2Proof.Machine.execBootFetchRetry s
  | .bootRelease pkgid tables => Sys2Proof.Machine.execBootRelease pkgid tables s
  | .trayBudgetDeclare amps => Sys2Proof.Machine.execTrayBudgetDeclare amps s
  | .powerPeriod measured => Sys2Proof.Machine.execPowerPeriod measured s
  | .illegalInstruction w => Sys2Proof.Machine.execIllegalInstruction w s
  | .galleyEntryExecute g => Sys2Proof.Machine.execGalleyEntryExecute g s
  | .jobPortEntryExecute g => Sys2Proof.Machine.execJobPortEntryExecute g s
  | .hostPurge tag => Sys2Proof.Machine.execHostPurge tag s
  | .deadLink l => Sys2Proof.Machine.execDeadLink l s
  | .msixVectorUnmask v => Sys2Proof.Machine.execMsixVectorUnmask v s

end Sys2Proof.Machine
end

