-- ==== Sys2Proof/Machine/Duties.lean ====
section
/-! DEFINITION. Sys2Proof/Machine/Duties.lean: what the units of the package do on their own, as calls of the events' meanings
(log entry 2). -/

namespace Sys2Proof.Machine

/-- Performs a duty. -/
def State.duty (s : State) : Duty → Out
  | .partyStart g => execPartyStart g s
  | .contextSwitch g => execContextSwitch g s
  | .setSave g => execSetSaveComplete g s
  | .timeSlice g => execTimeSliceExpiry g s
  | .retire c => execJobRetire c s
  | .power => if s.clk - s.powerAt < 1900 then .next s else execPowerPeriod [] s
  | .report => execAttestationReport none s
  | .galleyEntry g => execGalleyEntryExecute g s
  | .jobPort g => execJobPortEntryExecute g s
  | .registerRead off n => execRegisterRead off n s

end Sys2Proof.Machine
end

