-- ==== Sys2Proof/Machine/Issue.lean ====
section
/-! DEFINITION. Sys2Proof/Machine/Issue.lean: what a turn of a context does when it waits (R70, R87, R92), the discarding of
copies at any time (R241, R256, R267), and the placing of one instruction word for a run from reset. -/

namespace Sys2Proof.Machine

/-- The constructor is an event: no word encodes it. -/
def isEvent (i : Instr) : Bool := (encode i).isNone

/-- What a turn of a context does. -/
inductive Turn where
  | run | retry | event (e : Instr) | done (s : State)
  deriving Repr

/-- A context that waits at an issue point reaches it again. -/
def State.retry (s : State) (g : Nat) (c : CtxId) : State := s.updCtx g c fun x => { x with st := .run, hold := .none }

/-- The count of a wait goes on when the context holds for the same thing again (R87). -/
def State.keepCount (s : State) (g : Nat) (c : CtxId) (old : Ctx) : State :=
  s.updCtx g c fun x =>
    if x.st == .wait && x.hold == old.hold && x.pc == old.pc then
      { x with waited := old.waited, waitMark := old.waitMark, slotAt := old.slotAt }
    else x

/-- A wait that a switch-out has interrupted goes on when the context holds for the same thing again at the same instruction: its count
is what it was (R87). An instruction that no longer waits has no count. -/
def State.resumeCount (s : State) (g : Nat) (c : CtxId) : State :=
  s.updCtx g c fun x =>
    match x.paused with
    | none => x
    | some (h, n) =>
      if x.st != .wait then { x with paused := none }
      else if x.hold == h || (h.resource.isSome && x.hold.resource == h.resource) then { x with waited := n, paused := none }
      else x

/-- A turn of a context: a pending cause comes first, then the watchdog, then the end of the wait (R70, R87, R92). A context of a set
that is leaving its core issues nothing (R325), and a cause does not come before the check of tvec of a trap (R93). -/
def State.waitTurn (s : State) (g : Nat) (c : CtxId) : Turn :=
  let x := s.ctx g c
  match x.st with
  | .idle | .halt => .done s
  | .run => if (s.aset g).leaving then .done s else .run
  | .wait =>
    if x.takeable.isSome && !x.entering && (x.hold.abandonable || (match x.hold with | .waita .. => true | _ => false)) then
      .event (.asyncTrapTake g c)
    else if x.hold.resource.isSome && s.expired g c x.wdog then .event (.watchdogExpiry g c)
    else
      match x.hold with
      | .none => .retry
      | .stall e =>
        let st := (s.pin (g / 128) e).state
        if st == .ebb || st == .occulted then
          (if s.expired g c x.occtmo then .event (.occtmoOverrun g c .ctx) else .done s)
        else .retry
      | .line loc => if (s.codeHere g loc).isSome then .retry else .done (s.fetchRemote g c loc)
      | .tag => if s.hasTag (g / 128) then .retry else .done s
      | .buffer => .retry
      | .walker => .event (.walkerSlotFree g c)
      | .walk .. => .event (.trnWalkEnd g c)
      | .queueFull .. => .event (.engineQueueFullRelease g c)
      | .twait .. => .event (.twaitComplete g c)
      | .fence .. => .event (.fenceComplete g c)
      | .barrier .. => .event (.barrierWake g c)
      | .purge _ => .event (.purgeComplete g c)
      | .drain .. | .ring .. | .vector .. | .occWait .. => .done (s.tryWake g c)
      | .load .. => .done (s.readDue g c)
      | .result .. | .reply _ | .waita .. => .done s

/-- A slice evicts a line: a shared copy of a remote line goes (R241), and a line of its own, which returns to HBM (R242), unless
a hint keeps it (R155) or a step has pinned it (R194). Its monitors are evicted with it (R230). -/
def State.evictL2 (s : State) (d line : Nat) : State :=
  if locDie s (64 * line) == s.pkgid.toNat * 8 + d % 8 then
    if s.pinned line || (s.die d).kept.any fun k => k.line == line then s
    else State.loseMonitors { s with moesi := fdel s.moesi line } line
  else s.updDie d fun x => { x with l2 := fdel x.l2 line }

/-- Copies are discarded at any time, and the host masks a vector of its message table (R342). -/
def State.housekeep (s : State) : Action → State
  | .evictL1 g line => s.updCore g fun k => { k with l1 := fdel k.l1 line }
  | .evictRo q line => { s with ro := s.ro.map fun e => if e.1 = q then (e.1, fdel e.2 line) else e }
  | .evictFetch g line => s.updCore g fun k => { k with fetch := fdel k.fetch line }
  | .evictL2 d line => s.evictL2 d line
  | .msixMask v => { s with masked := s.masked ||| (1#9 <<< v.val) }
  | .issue _ _ | .event _ | .duty _ => s

/-- The owner and unit nibble of lane 1 for context C, in a line header (R25, R26). -/
def unitHeader (u : LaneUnit) : Nat :=
  0x80000000 + 8 + match u with | .k => 0 | .v => 1 | .e => 2 | .y => 3

/-- The unit whose decoder reads a word; K when none does. -/
def placeUnit (w : Nat) : LaneUnit :=
  match decodeAnyUnit (BitVec.ofNat 32 w) with
  | some (u, _) => u
  | none => .k

/-- The package with one instruction word in lane 1 of line 0 of a code token of core 0, which context C issues next. -/
def State.placeWord (s : State) (w : Nat) : State :=
  let n := unitHeader (placeUnit w) + 2 ^ 32 * (w % 2 ^ 32)
  let s := { s with
    mem := (bytesAt (podAddr s 0 0) 8 n).foldl (fun (m : Memory) (b : Nat × Byte) => Memory.set m b.1 b.2) s.mem
    agenda := (0, .issue 0 1) :: s.agenda }
  let s := s.setPin 0 0
    { state := .live, rights := 1, lenm1 := 0x1FFFFF, frames := [BitVec.ofNat 64 (podAddr s 0 0)], holders := 1 }
  let s := s.updCore 0 fun k => { k with fetch := [], aFrom := 0 }
  let s := s.updAct 0 fun t => { t with codeTok := { rights := 1, valid := true, lenm1 := 0x1FFFFF } }
  s.updCtx 0 1 fun x => { x with st := .run, pc := 4, seek := false, hold := .none, pend := {}, slotAt := 0, entering := false }

end Sys2Proof.Machine
end

