-- ==== Sys2Proof/Machine/Sched.lean ====
section
/-! DEFINITION. Sys2Proof/Machine/Sched.lean: what happens next when the agenda is empty (log entry 2): every core, engine
and unit of the package takes its turn. -/

namespace Sys2Proof.Machine

/-- What a core can do on its own. -/
def coreTurns (g : Nat) : List Action :=
  [.issue g 0, .issue g 1, .issue g 2,
   .event (.trnWalkEnd g 0), .event (.trnWalkEnd g 1), .event (.trnWalkEnd g 2),
   .event (.occtmoOverrun g 0 .ctx), .event (.occtmoOverrun g 1 .ctx), .event (.occtmoOverrun g 2 .ctx),
   .event (.occtmoOverrun g 0 .vec), .event (.occtmoOverrun g 1 .vec), .event (.occtmoOverrun g 2 .vec),
   .event (.occtmoOverrun g 0 .mat), .event (.occtmoOverrun g 1 .mat), .event (.occtmoOverrun g 2 .mat),
   .event (.occtmoOverrun g 0 .str), .event (.occtmoOverrun g 1 .str), .event (.occtmoOverrun g 2 .str),
   .event (.occtmoOverrun g 0 .coll), .event (.occtmoOverrun g 1 .coll), .event (.occtmoOverrun g 2 .coll),
   .event (.occtmoOverrun g 0 .gal), .event (.occtmoOverrun g 1 .gal), .event (.occtmoOverrun g 2 .gal),
   .event (.occtmoOverrun g 0 .job), .event (.occtmoOverrun g 1 .job), .event (.occtmoOverrun g 2 .job),
   .event (.occultationWaitTimeout g 0), .event (.occultationWaitTimeout g 1), .event (.occultationWaitTimeout g 2),
   .event (.waitaWakeWrite g 0), .event (.waitaWakeWrite g 1), .event (.waitaWakeWrite g 2),
   .event (.waitaTimeout g 0), .event (.waitaTimeout g 1), .event (.waitaTimeout g 2),
   .event (.purgeComplete g 0), .event (.purgeComplete g 1), .event (.purgeComplete g 2),
   .event (.vEntryExecute g),
   .event (.streamCommandBegin g 0), .event (.streamCommandBegin g 1), .event (.streamCommandBegin g 2),
   .event (.streamGranuleIssue g),
   .event (.matrixEntryExecute g), .event (.mgoLaunch g), .event (.matrixStep g .none), .event (.drainRowPerformed g 0),
   .event (.collationCommandExecute g), .event (.cellOperation g), .event (.clxchPair g), .event (.clxchTransferDone g),
   .event (.clxchNoPartner g),
   .duty (.galleyEntry g), .event (.galleyInstall g), .event (.galleyPlayCheck g), .event (.galleyFeed g),
   .event (.galleyWaitRelease g), .event (.galleyPlayComplete g), .duty (.jobPort g),
   .event (.storeBufferAgeDrain g), .event (.storeBufferDepart g),
   .duty (.partyStart g), .duty (.timeSlice g), .duty (.contextSwitch g), .duty (.setSave g)]

/-- What depends on a core's work in flight: granules to perform and stores to register. -/
def flightTurns (g : Nat) (k : Core) : List Action :=
  (([0, 1, 2] : List CtxId).map fun c =>
    ((nget k.act.srun c).map fun r => r.flying.map fun x => Action.event (.streamGranuleDone g c x.id)).flatten).flatten
  ++ (k.act.vdone.map fun d => Action.event (.vEntryResult g d.e.num))
  ++ (k.sb.filter StoreEnt.sent).map fun e => Action.event (.storeRegistered g e.seq)

/-- What the requests in flight can do. -/
def requestTurns (r : Nat) (q : Req) : List Action :=
  let here : List Action := [.event (.remoteRequestArrive r true), .event (.slotReturn r), .event (.retryBackoffExpiry r),
    .event (.remoteReplyReceive r), .event (.transactionTimeout r)]
  match q.pos with
  | .home inval ack =>
    (inval.map fun d => Action.event (.invalidationReceive r d))
      ++ (ack.map fun d => Action.event (.invalidationAckReceive r d)) ++ here
  | _ => here

/-- What the rest of the package can do. -/
def packageTurns (s : State) : List Action :=
  (s.reqs.map fun e => requestTurns e.1 e.2).flatten
  ++ (s.ops.map fun e => [Action.event (.scTicket e.1), .event (.homeOperation e.1), .event (.atomicReply e.1)]).flatten
  ++ (s.performed.map fun p => Action.event (.requestPerformed p.1 0)).dedup
  ++ ((List.range 8).map fun d =>
      ((s.die d).pins.filterMap fun p =>
        if p.2.state == .ebb then
          ((List.range 128).find? fun i => p.2.probes.getLsbD i).map fun i =>
            Action.event (.holderProbe (128 * d + i) (BitVec.ofNat 20 p.1))
        else none)).flatten
  ++ ((s.monitors.filter fun m => m.lost && !m.hit).map fun m => Action.event (.waitaMonitorLost m.core m.ctx))
  ++ s.arrivals.zipIdx.map (fun a => Action.event (.barrierArrival a.2))
  ++ [.event .poisonConsume, .duty .power, .duty .report]
  ++ (s.cards.map fun e => [Action.event (.tileMigrateDone e.1), .event (.partyBind e.1), .duty (.retire e.1)]).flatten
  ++ if s.booted then
      ((List.finRange 8).map fun d =>
        Action.event (.cardSelect d) :: (List.range 64).map fun q => Action.event (.cardAccept d (BitVec.ofNat 6 q))).flatten
    else [.event .bootFetchRetry]

/-- Everything that can happen next, in turn. -/
def State.turns (s : State) : List Action :=
  (s.cores.map fun e => coreTurns e.1 ++ flightTurns e.1 e.2).flatten ++ packageTurns s

/-- The next action when the agenda is empty. -/
def State.nextTurn (s : State) : Action :=
  let l := s.turns
  (l[s.turn % l.length]?).getD (.event .poisonConsume)

end Sys2Proof.Machine
end

