-- ==== Sys2Proof/Machine/Step.lean ====
section
/-! DEFINITION. Sys2Proof/Machine/Step.lean: one step of the package, and the placing of one instruction where the next step
fetches. -/

namespace Sys2Proof.Machine

/-- The instruction of a word of a unit, or the illegal-instruction event (R35). -/
def State.runWord (s : State) (u : LaneUnit) (w : W32) : Out :=
  match decode u w with
  | .ok i => exec i s
  | .error _ => execIllegalInstruction w s

/-- A context in RUN issues its next instruction: fetch, then a pending cause, then the instruction (R71 to R74, R92). -/
def State.issueNext (s : State) (g : Nat) (c : CtxId) : Out :=
  match s.fetchNext g c with
  | .done s => .next s
  | .word s u w =>
    match s.takeAsync g c with
    | some s => .next s
    | none => State.runWord ({ s with curCore := g, curCtx := c }.useSlot g c) u w

/-- A context in RUN issues its next instruction; a wait that a switch-out has interrupted goes on (R87). -/
def State.issueRun (s : State) (g : Nat) (c : CtxId) : Out :=
  match s.issueNext g c with
  | .next t => .next (if (s.ctx g c).paused.isSome then t.resumeCount g c else t)
  | o => o

/-- A context that waited for an issue point tries again; if it holds for the same thing its count goes on (R87, R123). -/
def State.reissue (s : State) (g : Nat) (c : CtxId) : Out :=
  match (s.retry g c).issueRun g c with
  | .next t => .next (t.keepCount g c (s.ctx g c))
  | o => o

/-- A turn of a context: it issues in its slot, or the wait it is in ends if it can. -/
def State.issue (s : State) (g : Nat) (c : CtxId) : Out :=
  match s.waitTurn g c with
  | .run => if s.slotOpen g c then s.issueRun g c else .next s
  | .retry => if s.slotOpen g c then s.reissue g c else .next s
  | .event e => exec e s
  | .done t => .next t

/-- Performs an action. -/
def State.perform (s : State) : Action → Out
  | .issue g c => s.issue g c
  | .event e => if isEvent e then exec e s else .next s
  | .duty d => s.duty d
  | a => .next (s.housekeep a)

/-- One step: the next action of the agenda, or the next turn when it is empty. -/
def step (s : State) : Host.Outcome State Fault Refusal :=
  match s.agenda with
  | [] => State.perform { s with clk := s.clk + 1, turn := s.turn + 1 } s.nextTurn
  | (dt, a) :: rest => State.perform { s with clk := s.clk + dt, agenda := rest } a

/-- Places an instruction word where the next step fetches: line 0 of a code token of core 0, lane 1, for context C. -/
def State.withFetchWord (s : State) (_nbits w : Nat) : State := s.placeWord w

end Sys2Proof.Machine
end

