-- ==== Sys2Proof/Safety.lean ====
section
/-! DEFINITION. Sys2Proof/Safety.lean: what counts as a safe run, and the frames in which claims say what an instruction
changes and what it leaves. -/

namespace Sys2Proof.Machine

/-! ### Runs -/

/-- The machine goes on: the step answers a next state. -/
def State.GoesOn (s : State) : Prop := ∃ t, step s = .next t

/-- Memory is in its canonical form. -/
abbrev State.MemOk (s : State) : Prop := s.mem.wf = true

/-! ### Frames -/

/-- Only the issuing context has changed: every other context, set and core, memory and every other field of the state is
as before. -/
def OnlyMe (s t : State) : Prop := t = s.updMe fun _ => t.me

/-- Only the active set of the issuing core has changed. -/
def OnlyMySet (s t : State) : Prop := t = s.updMySet fun _ => t.mySet

/-- Only a context of the active set of core g has changed. -/
def OnlyCtx (g : Nat) (c : CtxId) (s t : State) : Prop := t = s.updCtx g c fun _ => t.ctx g c

/-- Every byte of memory reads as before. -/
def SameBytes (s t : State) : Prop := ∀ a, t.mem.get a = s.mem.get a

/-- Every x register of the issuing context but one keeps its value, its patch tag and its poison mark. -/
def OtherX (s t : State) (rd : XReg) : Prop :=
  ∀ r, r ≠ rd → t.rx r = s.rx r ∧ vget t.me.tag r = vget s.me.tag r ∧ t.me.marked r = s.me.marked r

/-- The frame of an instruction that writes one x register and goes on (R22, R73): every field of the issuing context but
its x registers, their tags and their marks is as goOn leaves it, x0 reads 0, and nothing outside the context changes. -/
structure WritesX (s t : State) (rd : XReg) (v : W64) : Prop where
  outside : OnlyMe s t
  inside : t.me = { s.me.goOn with x := t.me.x, tag := t.me.tag, xpois := t.me.xpois }
  value : rd ≠ 0 → t.rx rd = v
  zero : t.rx 0 = 0
  others : OtherX s t rd
  memory : SameBytes s t

/-- The instruction completes with a value in one x register, and changes nothing else. -/
def Result (i : Instr) (s : State) (rd : XReg) (v : W64) : Prop := ∃ t, exec i s = .next t ∧ WritesX s t rd v

/-- The frame of an instruction that only goes on: its context is as goOn leaves it and nothing else changes. -/
def OnlyGoesOn (s t : State) : Prop := OnlyMe s t ∧ t.me = s.me.goOn

/-- A context waits: it holds the instruction at its pc, and its x registers are as before (R70). -/
structure Waits (s t : State) (h : Hold) : Prop where
  outside : OnlyMe s t
  inside : t.me = s.me.holdAt s.clk h

/-- A trap is taken in a context of the active set of core g before the instruction at pc (R85, R93): what it saves, the
mode, and where the pc goes. -/
structure Trapped (s t : State) (g : Nat) (c : CtxId) (k : Cause) (val pc : W64) : Prop where
  tpc : (t.ctx g c).tpc = pc
  tcause : (t.ctx g c).tcause = k.word
  tval : (t.ctx g c).tval = val
  ie : (t.ctx g c).tstat.getLsbD 1 = false
  pie : (t.ctx g c).tstat.getLsbD 2 = (s.ctx g c).tstat.getLsbD 1
  pmode : (t.ctx g c).tstat.getLsbD 0 = (s.ctx g c).sup
  mode : (t.ctx g c).sup = true
  pc : (t.ctx g c).pc = (s.ctx g c).tvec
  x : ∀ r, (t.ctx g c).rx r = (s.ctx g c).rx r

/-! ### Engine queues -/

/-- The entries of an engine queue, as a context sees it: the stream engine has one queue for each context (R37). -/
def queueOf (t : CtxSet) (c : CtxId) : EngQ → List Entry
  | .vec => t.vq
  | .mat => t.mq
  | .str => nget t.sq c
  | .coll => t.cq
  | .gal => t.gq
  | .job => t.jq

/-- The issue of an engine instruction: the queue of its engine grows by one entry that holds the instruction, its context, the
values of its x operands, the tokens that its pointers name, the rounding mode and the mode; when its queue has a timeline the
entry takes the next number of it, and the other timelines stay. A result-returning instruction holds its context for
its result, and any other goes on. Nothing of the vector, mask and k registers changes, and no byte of memory. -/
def Enqueues (s : State) (q : EngQ) (i : Instr) (x0 x1 x2 : W64) (p0 p1 : Bool) (result : Option (Fin 5 × XReg)) : Prop :=
  ∃ t e, exec i s = .next t ∧ queueOf t.mySet s.curCtx q = queueOf s.mySet s.curCtx q ++ [e] ∧
    e.instr = i ∧ e.ctx = s.curCtx ∧ e.x0 = x0 ∧ e.x1 = x1 ∧ e.x2 = x2 ∧
    e.k0 = (if p0 then captureTok s.mySet x0 else none) ∧ e.k1 = (if p1 then captureTok s.mySet x1 else none) ∧
    e.k2 = none ∧ e.rm = s.me.vrnd ∧ e.sup = s.me.sup ∧ e.play = none ∧
    (∀ l, q.timeline = some l → e.num = (s.mySet.time l).issued + 1 ∧
      t.mySet.time l = { s.mySet.time l with issued := (s.mySet.time l).issued + 1 }) ∧
    (∀ l, q.timeline ≠ some l → t.mySet.time l = s.mySet.time l) ∧
    t.me = (match result with | some (k, xd) => s.me.holdAt s.clk (.result k e.num xd) | none => s.me.goOn) ∧
    t.mySet.v = s.mySet.v ∧ t.mySet.m = s.mySet.m ∧ t.mySet.k = s.mySet.k ∧ SameBytes s t

end Sys2Proof.Machine
end

