-- ==== Sys2Proof/Certificates/Slice0/Obligations.lean ====
section
/-! DEFINITION. Sys2Proof/Certificates/Slice0/Obligations.lean: the statements about the model, each with the rule of the spec
that it formalises or rests on. -/

open Sys2Proof Sys2Proof.Machine

/-! ### Encoding, fetch and the step -/

/-- A few words that the spec writes out bit by bit, or in its examples, decode under their unit to the instruction they stand
for (R39 to R47). -/
def Obligations.WordsOfTheSpec : Prop :=
  decode .k 0x04028293 = .ok (.addi 5 5 64) ∧
  decode .k 0x06B5008B = .ok (.trn 1 10 11 3 false) ∧
  decode .k 0x0261B28B = .ok (.ptr 5 3 6 1) ∧
  decode .v 0x00804020 = .ok (.vadd .f32 0 (.vv 1) 0 2) ∧
  decode .e 0x08400000 = .ok .mgo ∧
  decode .e 0x18909001 = .ok (.gplay 8 1 9) ∧
  decode .y 0x000B298E = .ok (.amo .add .w .acq .die 5 6 7) ∧
  decode .y 0x80000000 = .ok .tret

/-- Every instruction within the limits of the spec is read back from the four bytes of its word, with every operand at every
value its fields admit and whatever bytes follow: no bit of an encoding is dropped (R24, R31 to R34, R39 to R48). -/
def Obligations.EncodingRoundTrip : Prop :=
  ∀ (i : Instr) (u : LaneUnit) (w : W32) (rest : List Byte), i.WellFormed → encode i = some (u, w) →
    decode u w = .ok i ∧
    decodeBytes u (w.extractLsb' 0 8 :: w.extractLsb' 8 8 :: w.extractLsb' 16 8 :: w.extractLsb' 24 8 :: rest) =
      .ok (i, rest)

/-- A word that a unit decodes is the word of what it decodes to, in that unit and bit for bit, and what it decodes to is
within the limits of the spec: no other word of any unit decodes to it. An event has no word (R28, R31 to R35). -/
def Obligations.DecodedIsWellFormed : Prop :=
  (∀ (u : LaneUnit) (w : W32) (i : Instr), decode u w = .ok i → i.WellFormed ∧ encode i = some (u, w)) ∧
  (∀ (i : Instr) (u : LaneUnit) (w : W32), encode i = none → decode u w ≠ .ok i)

/-- A context in RUN whose slot is open, with no cause to take, of a set that does not leave its core (R325), runs the instruction that
its next lane decodes to; a word that decodes to nothing traps ILL (R28, R35, R70 to R73, R92). A wait that a switch-out interrupted
goes on with its count when the instruction waits again (R87). -/
def Obligations.StepRunsDecoded : Prop :=
  ∀ (s t : State) (g : Nat) (c : CtxId) (dt : Nat) (rest : List (Nat × Action)) (u : LaneUnit) (w : W32),
    let now : State := { s with clk := s.clk + dt, agenda := rest }
    let slot : State := { t with curCore := g, curCtx := c }.updMe fun x => { x with slotAt := t.clk + 1 }
    let at_ : State := if c = 1 then slot else slot.updCore g fun k => { k with aFrom := t.clk + 1 }
    let runs (i : Instr) : Prop :=
      ((now.ctx g c).paused = none → step s = exec i at_) ∧
      (∀ v, (now.ctx g c).paused ≠ none → exec i at_ = .next v →
        ((v.ctx g c).paused = none → step s = .next v) ∧
        (∀ h n, (v.ctx g c).paused = some (h, n) → ∃ r, step s = .next r ∧ OnlyCtx g c v r ∧ r.ctx g c =
          (if (v.ctx g c).st ≠ .wait then { v.ctx g c with paused := none }
           else if (v.ctx g c).hold = h ∨ h.resource.isSome ∧ (v.ctx g c).hold.resource = h.resource then
             { v.ctx g c with waited := n, paused := none }
           else v.ctx g c)))
    s.agenda = (dt, .issue g c) :: rest → (now.ctx g c).st = .run → (now.aset g).leaving = false → now.slotOpen g c = true →
    now.fetchNext g c = .word t u w → (t.ctx g c).takeable = none →
    (∀ i, decode u w = .ok i → runs i) ∧ (∀ e, decode u w = .error e → runs (.illegalInstruction w))

/-- The word that a context fetches at its pc is the little-endian word that memory holds at that lane of its code extent, and
its unit is the one that the line's header names for the lane, when the lane is the context's, its line is not in the fetch
buffer and lies whole in the extent and in HBM of the core's die, and the code token names a LIVE entry (R24 to R28, R72,
R76). -/
def Obligations.FetchReadsLane : Prop :=
  ∀ (s : State) (g : Nat) (c : CtxId) (loc : Nat),
    let k := (s.aset g).codeTok
    let a := (s.ctx g c).pc
    let n := a.toNat / 4 % 8
    let h : W32 := BitVec.ofNat 32 (s.readNat loc 4)
    (s.ctx g c).seek = false → (s.ctx g c).entering = false → a.toNat % 4 = 0 → n ≠ 0 →
    s.tokenByte g k 1 (a.toNat / 32 * 32) = .ok loc → a.toNat / 32 * 32 + 31 ≤ k.lenm1.toNat →
    fget (s.core g).fetch (loc / 32) = none → s.addrFate g loc {} = .ok → region loc = .hbm → s.remote g loc = false →
    (s.pin (g / 128) k.pte).gen = k.gen → (s.pin (g / 128) k.pte).state = .live →
    headerBad h = false → owns h c n = true →
    ∃ t, s.fetchNext g c = .word t (unitOfLane h n) (BitVec.ofNat 32 (s.readNat (loc + 4 * n) 4)) ∧
      t.mem = s.mem ∧ t.ctx g c = s.ctx g c

/-- What the spec gives for the package right after a reset: the contexts' status registers, limits and generator (R62, R64,
R83 to R87), a package that boots (R339) and a Pin Table of FREE entries (R109). That the fields of those entries, the failure
records and the last trap's registers are 0, that no ring is set, that no die is fenced and that no link is down are the model's
choice (log entries 4 and 31). -/
def Obligations.ResetValues : Prop :=
  (∀ (g : Nat) (c : CtxId), let x := State.reset.ctx g c
    x.vrnd = 0 ∧ x.fstat = 0 ∧ x.mstat = 0 ∧ x.srst = 0x13579BDF ∧ x.tcause = 0 ∧ x.tval = 0 ∧ x.tpc = 0 ∧ x.tstat = 0 ∧
      x.wdog = 2 ^ 24 ∧ x.occtmo = 2 ^ 20 ∧ x.fail = {}) ∧
  (∀ (d : Nat) (e : BitVec 20), State.reset.pin d e = {}) ∧
  (∀ (g : Nat) (h : HReg), (vget (State.reset.aset g).ring h).unset = true) ∧
  (∀ d : Nat, (State.reset.die d).fenced = false) ∧ State.reset.hostState = 0 ∧ State.reset.booted = false ∧
  State.reset.linkDown = [] ∧ State.reset.MemOk

/-- Memory keeps its canonical form in every step, from every state in which it has it. -/
def Obligations.StepKeepsMemory : Prop := ∀ s t : State, s.MemOk → step s = .next t → t.MemOk

/-- Every instruction and every event has an effect in every state: the machine stops in none, so no step ends in a fault or a
refusal (the spec gives every trap as a next state, R91, R93). That an event, or a duty of a unit, whose guard does not hold leaves the
state as it is, is the model's choice (log entry 2). -/
def Obligations.NothingStops : Prop :=
  (∀ (i : Instr) (s : State), ∃ t, exec i s = .next t) ∧ ∀ s : State, s.GoesOn

/-! ### Unit K: integer operations (R22, R39, R79) -/

/-- RV64I operations of one register and an immediate, LUI and AUIPC, and operations of two registers: the value of rd, in integers,
and that nothing else changes; a shift takes its count modulo 64 (R22, R39, R72, R79). The pc is an offset in the code extent.
The word operations combine the low words and sign-extend the result; a shift takes its count modulo 32. -/
def Obligations.ScalarResults : Prop :=
  (∀ (s : State) (rd rs1 : XReg) (imm : BitVec 12) (sh : BitVec 6) (up : BitVec 20),
    let a := s.rx rs1
    Result (.addi rd rs1 imm) s rd (BitVec.ofInt 64 (a.toInt + imm.toInt)) ∧
    Result (.slti rd rs1 imm) s rd (if a.toInt < imm.toInt then 1 else 0) ∧
    Result (.sltiu rd rs1 imm) s rd (if a.toNat < (imm.signExtend 64).toNat then 1 else 0) ∧
    Result (.xori rd rs1 imm) s rd (a ^^^ imm.signExtend 64) ∧
    Result (.ori rd rs1 imm) s rd (a ||| imm.signExtend 64) ∧
    Result (.andi rd rs1 imm) s rd (a &&& imm.signExtend 64) ∧
    Result (.slli rd rs1 sh) s rd (BitVec.ofNat 64 (a.toNat * 2 ^ sh.toNat)) ∧
    Result (.srli rd rs1 sh) s rd (BitVec.ofNat 64 (a.toNat / 2 ^ sh.toNat)) ∧
    Result (.srai rd rs1 sh) s rd (BitVec.ofInt 64 (a.toInt / 2 ^ sh.toNat)) ∧
    Result (.lui rd up) s rd (BitVec.ofInt 64 (up.toInt * 4096)) ∧
    Result (.auipc rd up) s rd (BitVec.ofInt 64 (s.me.pc.toInt + up.toInt * 4096))) ∧
  (∀ (s : State) (rd rs1 rs2 : XReg),
    let a := s.rx rs1
    let b := s.rx rs2
    Result (.add rd rs1 rs2) s rd (BitVec.ofInt 64 (a.toInt + b.toInt)) ∧
    Result (.sub rd rs1 rs2) s rd (BitVec.ofInt 64 (a.toInt - b.toInt)) ∧
    Result (.slt rd rs1 rs2) s rd (if a.toInt < b.toInt then 1 else 0) ∧
    Result (.sltu rd rs1 rs2) s rd (if a.toNat < b.toNat then 1 else 0) ∧
    Result (.xor rd rs1 rs2) s rd (a ^^^ b) ∧
    Result (.or rd rs1 rs2) s rd (a ||| b) ∧
    Result (.and rd rs1 rs2) s rd (a &&& b) ∧
    Result (.sll rd rs1 rs2) s rd (BitVec.ofNat 64 (a.toNat * 2 ^ (b.toNat % 64))) ∧
    Result (.srl rd rs1 rs2) s rd (BitVec.ofNat 64 (a.toNat / 2 ^ (b.toNat % 64))) ∧
    Result (.sra rd rs1 rs2) s rd (BitVec.ofInt 64 (a.toInt / 2 ^ (b.toNat % 64)))) ∧
  (∀ (s : State) (rd rs1 rs2 : XReg) (imm : BitVec 12) (sh : BitVec 5),
    let a : W32 := (s.rx rs1).setWidth 32
    let b : W32 := (s.rx rs2).setWidth 32
    let n := (s.rx rs2).toNat % 32
    Result (.addiw rd rs1 imm) s rd ((BitVec.ofInt 32 (a.toInt + imm.toInt)).signExtend 64) ∧
    Result (.slliw rd rs1 sh) s rd ((BitVec.ofNat 32 (a.toNat * 2 ^ sh.toNat)).signExtend 64) ∧
    Result (.srliw rd rs1 sh) s rd ((BitVec.ofNat 32 (a.toNat / 2 ^ sh.toNat)).signExtend 64) ∧
    Result (.sraiw rd rs1 sh) s rd (BitVec.ofInt 64 (a.toInt / 2 ^ sh.toNat)) ∧
    Result (.addw rd rs1 rs2) s rd ((BitVec.ofInt 32 (a.toInt + b.toInt)).signExtend 64) ∧
    Result (.subw rd rs1 rs2) s rd ((BitVec.ofInt 32 (a.toInt - b.toInt)).signExtend 64) ∧
    Result (.sllw rd rs1 rs2) s rd ((BitVec.ofNat 32 (a.toNat * 2 ^ n)).signExtend 64) ∧
    Result (.srlw rd rs1 rs2) s rd ((BitVec.ofNat 32 (a.toNat / 2 ^ n)).signExtend 64) ∧
    Result (.sraw rd rs1 rs2) s rd (BitVec.ofInt 64 (a.toInt / 2 ^ n)))

/-- RV64M: the low word and the high word of the product in integers for each reading of the operands; quotients and remainders
by truncated division in integers, with all ones and the dividend for a divisor of 0 (R39, R79). -/
def Obligations.MulDivResults : Prop :=
  ∀ (s : State) (rd rs1 rs2 : XReg),
    let a := s.rx rs1
    let b := s.rx rs2
    let aw : W32 := a.setWidth 32
    let bw : W32 := b.setWidth 32
    Result (.mul rd rs1 rs2) s rd (BitVec.ofInt 64 (a.toInt * b.toInt)) ∧
    Result (.mulh rd rs1 rs2) s rd (BitVec.ofInt 64 (a.toInt * b.toInt / 2 ^ 64)) ∧
    Result (.mulhsu rd rs1 rs2) s rd (BitVec.ofInt 64 (a.toInt * b.toNat / 2 ^ 64)) ∧
    Result (.mulhu rd rs1 rs2) s rd (BitVec.ofNat 64 (a.toNat * b.toNat / 2 ^ 64)) ∧
    Result (.mulw rd rs1 rs2) s rd (BitVec.ofInt 64 ((a.toInt * b.toInt).bmod (2 ^ 32))) ∧
    Result (.div rd rs1 rs2) s rd (if b = 0 then -1 else BitVec.ofInt 64 (a.toInt.tdiv b.toInt)) ∧
    Result (.divu rd rs1 rs2) s rd (if b = 0 then -1 else BitVec.ofNat 64 (a.toNat / b.toNat)) ∧
    Result (.rem rd rs1 rs2) s rd (if b = 0 then a else BitVec.ofInt 64 (a.toInt.tmod b.toInt)) ∧
    Result (.remu rd rs1 rs2) s rd (if b = 0 then a else BitVec.ofNat 64 (a.toNat % b.toNat)) ∧
    Result (.divw rd rs1 rs2) s rd
      (if bw = 0 then -1 else (BitVec.ofInt 32 (aw.toInt.tdiv bw.toInt)).signExtend 64) ∧
    Result (.divuw rd rs1 rs2) s rd
      (if bw = 0 then -1 else (BitVec.ofNat 32 (aw.toNat / bw.toNat)).signExtend 64) ∧
    Result (.remw rd rs1 rs2) s rd
      ((if bw = 0 then aw else BitVec.ofInt 32 (aw.toInt.tmod bw.toInt)).signExtend 64) ∧
    Result (.remuw rd rs1 rs2) s rd
      ((if bw = 0 then aw else BitVec.ofNat 32 (aw.toNat % bw.toNat)).signExtend 64)


/-! ### Unit K: pointers, tags, tokens -/

/-- `ptr` composes a token-space pointer, with bits [51:48] set when the offset has a bit above 47 (R100). -/
def Obligations.PtrComposes : Prop :=
  ∀ (s : State) (xd : XReg) (ks : KReg) (xoff : XReg) (policy : BitVec 2),
    let off := (s.rx xoff).toNat
    Result (.ptr xd ks xoff policy) s xd (BitVec.ofNat 64
      (2 * 2 ^ 60 + policy.toNat * 2 ^ 56 + ks.toNat * 2 ^ 52 + (if off < 2 ^ 48 then 0 else 15 * 2 ^ 48) + off % 2 ^ 48))

/-- `tkinfo` writes bits [38:0] of its token register to xd, zero-extended (R101). -/
def Obligations.TkinfoReads : Prop :=
  ∀ (s : State) (xd : XReg) (ks : KReg),
    let t := vget s.mySet.k ks
    Result (.tkinfo xd ks) s xd (BitVec.ofNat 64
      (t.pte.toNat + t.gen.toNat * 2 ^ 20 + t.rights.toNat * 2 ^ 32 + t.ms.toNat * 2 ^ 36 + t.host.toNat * 2 ^ 37
        + t.valid.toNat * 2 ^ 38))

/-- What the release of a token does to its entry of the Pin Table (R106, R122): the core's holder bit is recomputed over the tokens
that its resident sets still hold; a LIVE entry that then no core holds, no saved set names and nothing is in flight for is freed,
with gen raised and its lists back in the pool, and any other keeps its generation and its lists; a stale token, or one that is not
valid, leaves the entry's state, generation, lists and counts. -/
def releasedEntry (s t : State) (old : Token) : Prop :=
  let g := s.curCore
  let p := s.pin (g / 128) old.pte
  let q := t.pin (g / 128) old.pte
  let bit : BitVec 128 := 1#128 <<< (g % 128)
  let stays := (t.core g).set.toList.any fun a =>
    a.tokens.any fun x => x.valid && x.pte == old.pte && x.gen == old.gen
  let holders := if stays then p.holders ||| bit else p.holders &&& ~~~bit
  if old.valid ∧ p.gen = old.gen then
    if p.state = .live ∧ holders = 0 ∧ p.saved = 0 ∧ p.inflight = 0 then
      q.state = .free ∧ q.gen = p.gen + 1 ∧ q.frames = [] ∧ q.deny = [] ∧
        (t.die (g / 128)).pool = (s.die (g / 128)).pool - p.poolBytes
    else q.holders = holders ∧ q.gen = p.gen ∧ q.frames = p.frames ∧ q.deny = p.deny ∧ (p.state = .live → q.state = .live)
  else q.state = p.state ∧ q.gen = p.gen ∧ q.frames = p.frames ∧ q.saved = p.saved ∧ q.inflight = p.inflight

/-- `tklen` writes the length of a valid token, and 0 for one that is not valid; `tkmov` gives kd the token of ks and releases the one
that kd had, unless kd is ks, and the other token registers keep theirs; `tkdrop` clears the valid bit of ks, keeps every other
field and releases the token, and the other token registers keep theirs. The x registers and every byte of memory stay as they are
(R106, R122). -/
def Obligations.TokenRegisters : Prop :=
  ∀ (s : State) (xd : XReg) (kd ks : KReg),
    Result (.tklen xd ks) s xd
      (if (vget s.mySet.k ks).valid then BitVec.ofNat 64 ((vget s.mySet.k ks).lenm1.toNat + 1) else 0) ∧
    (∃ t, exec (.tkmov kd ks) s = .next t ∧ vget t.mySet.k kd = vget s.mySet.k ks ∧
      (∀ k, k ≠ kd → vget t.mySet.k k = vget s.mySet.k k) ∧ t.me = s.me.goOn ∧ SameBytes s t ∧
      (kd ≠ ks → releasedEntry s t (vget s.mySet.k kd)) ∧
      (kd = ks → ∀ d e, t.pin d e = s.pin d e)) ∧
    (∃ t, exec (.tkdrop ks) s = .next t ∧ vget t.mySet.k ks = { vget s.mySet.k ks with valid := false } ∧
      (∀ k, k ≠ ks → vget t.mySet.k k = vget s.mySet.k k) ∧ t.me = s.me.goOn ∧ SameBytes s t ∧
      releasedEntry s t (vget s.mySet.k ks) ∧
      ∀ d e, (d, e) ≠ (s.curCore / 128, (vget s.mySet.k ks).pte) → t.pin d e = s.pin d e)

/-- Outside recording, `gpatch` makes xd patched (s, 0), and `guntag`, whether or not the core records, makes it plain; the value of
xd and everything else stay as they are, and x0 stays plain (R97, R103).
While a core records, `gpatch` of a slot without a recorded value gives it the value of xd and makes xd patched (s, 0); of a
slot that holds the same value it makes xd patched (s, 0); of one that holds another value it makes xd opaque and rejects
the slot, which keeps its first value; and of a rejected slot it makes xd opaque; for x0 the value is 0 and x0 stays plain (R103).
That it does so in a recording that has been smudged too is the model's choice (log entry 72).
The tag of a sum: a patched operand and a plain one give the patched tag with its delta moved by the plain value, and
an opaque one when the delta leaves the signed 48-bit range; `sub` takes the plain value away; `addi` adds its immediate; two
operands of other kinds give plain, opaque or volatile (R98). -/
def Obligations.PatchTags : Prop :=
  (∀ (s : State) (xd : XReg) (sl : BitVec 4), s.recording = none →
    (∃ t, exec (.gpatch xd sl) s = .next t ∧ OnlyMe s t ∧ t.me = { s.me.goOn with tag := t.me.tag } ∧
      (xd ≠ 0 → vget t.me.tag xd = .patched sl 0) ∧ (∀ r, r ≠ xd → vget t.me.tag r = vget s.me.tag r) ∧
      (xd = 0 → t.me.tag = s.me.tag))) ∧
  (∀ (s : State) (xd : XReg),
    (∃ t, exec (.guntag xd) s = .next t ∧ OnlyMe s t ∧ t.me = { s.me.goOn with tag := t.me.tag } ∧
      (xd ≠ 0 → vget t.me.tag xd = .plain) ∧ (∀ r, r ≠ xd → vget t.me.tag r = vget s.me.tag r) ∧
      (xd = 0 → t.me.tag = s.me.tag))) ∧
  (∀ (s : State) (xd : XReg) (sl : BitVec 4) (r : Recording), s.recording = some r →
    ∃ t q, exec (.gpatch xd sl) s = .next t ∧ t.recording = some q ∧ t.rx xd = s.rx xd ∧
      (∀ y, y ≠ xd → vget t.me.tag y = vget s.me.tag y) ∧ (xd = 0 → t.me.tag = s.me.tag) ∧
      let tags (tag : Tag) : Prop := xd ≠ 0 → vget t.me.tag xd = tag
      (r.rejected.getLsbD sl.toNat = true → tags .opq ∧ q = r) ∧
      (r.rejected.getLsbD sl.toNat = false → r.used.getLsbD sl.toNat = false →
        tags (.patched sl 0) ∧ vget q.vals sl = (if xd = 0 then 0 else s.rx xd) ∧ q.used.getLsbD sl.toNat = true ∧
          q.rejected = r.rejected) ∧
      (r.rejected.getLsbD sl.toNat = false → r.used.getLsbD sl.toNat = true → vget r.vals sl = s.rx xd →
        tags (.patched sl 0) ∧ q = r) ∧
      (r.rejected.getLsbD sl.toNat = false → r.used.getLsbD sl.toNat = true → vget r.vals sl ≠ s.rx xd →
        tags .opq ∧ q.rejected.getLsbD sl.toNat = true ∧ q.vals = r.vals)) ∧
  (∀ (s : State) (rd rs1 rs2 : XReg) (imm : BitVec 12) (sl : BitVec 4) (d : BitVec 48), rd ≠ 0 →
    let moved (n : Int) : Tag := if -(2 ^ 47) ≤ d.toInt + n ∧ d.toInt + n < 2 ^ 47 then .patched sl (BitVec.ofInt 48 (d.toInt + n)) else .opq
    let tagAfter (i : Instr) (tag : Tag) : Prop := ∃ t, exec i s = .next t ∧ vget t.me.tag rd = tag
    (s.tagOf rs1 = .patched sl d → s.tagOf rs2 = .plain →
      tagAfter (.add rd rs1 rs2) (moved (s.rx rs2).toInt) ∧ tagAfter (.add rd rs2 rs1) (moved (s.rx rs2).toInt) ∧
      tagAfter (.sub rd rs1 rs2) (moved (-(s.rx rs2).toInt)) ∧ tagAfter (.sub rd rs2 rs1) .opq) ∧
    (s.tagOf rs1 = .patched sl d → tagAfter (.addi rd rs1 imm) (moved imm.toInt)) ∧
    (s.tagOf rs1 = .plain → s.tagOf rs2 = .plain →
      tagAfter (.add rd rs1 rs2) .plain ∧ tagAfter (.sub rd rs1 rs2) .plain ∧ tagAfter (.addi rd rs1 imm) .plain) ∧
    (s.tagOf rs1 = .vol → tagAfter (.add rd rs1 rs2) .vol ∧ tagAfter (.sub rd rs2 rs1) .vol ∧ tagAfter (.addi rd rs1 imm) .vol) ∧
    (s.tagOf rs1 = .opq → s.tagOf rs2 ≠ .vol →
      tagAfter (.add rd rs1 rs2) .opq ∧ tagAfter (.sub rd rs2 rs1) .opq ∧ tagAfter (.addi rd rs1 imm) .opq))

/-- `vxmv` and `mpop`, when no V entry waits: the element of the register, sign-extended for the integer types, or 0 past the last
element; and the count of the mask's ones among the elements of the type (R102, R157, R158). The core does not record. -/
def Obligations.VectorToScalar : Prop :=
  ∀ (s : State) (ty : ElemTy) (xd xi : XReg) (vs1 : VReg) (mk : MReg),
    (s.core s.curCore).rec_ = none → s.mySet.vq = [] →
    let i := (s.rx xi).toNat
    let v := (vget s.mySet.v vs1).toNat
    Result (.vxmv ty xd vs1 xi) s xd
      (match ty with
       | .i8 => if i < 256 then (BitVec.ofNat 8 (v / 2 ^ (8 * i))).signExtend 64 else 0
       | .i32 => if i < 64 then (BitVec.ofNat 32 (v / 2 ^ (32 * i))).signExtend 64 else 0
       | .f32 => if i < 64 then BitVec.ofNat 64 (v / 2 ^ (32 * i) % 2 ^ 32) else 0
       | .bf16 => if i < 128 then BitVec.ofNat 64 (v / 2 ^ (16 * i) % 2 ^ 16) else 0
       | .l6 => if i < 256 then BitVec.ofNat 64 (v / 2 ^ (8 * i) % 2 ^ 6) else 0
       | _ => if i < 256 then BitVec.ofNat 64 (v / 2 ^ (8 * i) % 2 ^ 8) else 0) ∧
    Result (.mpop ty xd mk) s xd (BitVec.ofNat 64
      ((List.range (elemCount ty)).countP fun j => mk == 0 || (vget s.mySet.m mk).getLsbD j))

/-! ### Unit K: control flow, traps and CSRs -/

/-- The link value of a jump (R75): the next owned lane of its context, 0 when the search meets a bad header or finds none, and no
value while the search needs a header line that the core has not got. -/
def linkOf (s : State) : Option W64 :=
  match s.nextLane s.curCore s.curCtx s.me.pc with
  | .lane a => some a
  | .badHeader _ _ | .starved _ => some 0
  | _ => none

/-- Conditional branches (R76, R79): the relation, in integers; a branch that is taken goes to pc + offset when the target is a
lane of its context, and one that is not taken only goes on, whatever its target. The core does not record and no operand is
marked.
JAL and JALR (R75, R76): rd takes the next owned lane of the context, or 0 when the search for it meets a bad header or finds no lane,
and the pc the target, with bit 0 cleared for JALR, when the target is a lane of the context. The core does not record and the base
is not marked. That a taken branch leaves the context's
next slot empty is the model's reading (log entry 29). -/
def Obligations.BranchesAndJumps : Prop :=
  (∀ (s : State) (rs1 rs2 : XReg) (off : BitVec 12),
    s.recording = none → s.me.marked rs1 = false → s.me.marked rs2 = false →
    let a := s.rx rs1
    let b := s.rx rs2
    let target : W64 := BitVec.ofInt 64 (s.me.pc.toInt + 2 * off.toInt)
    let follows (i : Instr) (taken : Prop) : Prop :=
      (¬ taken → ∃ t, exec i s = .next t ∧ OnlyGoesOn s t) ∧
      (taken → s.checkTarget s.curCore s.curCtx target = .ok →
        ∃ t, exec i s = .next t ∧ OnlyMe s t ∧ t.me = { s.me with
          pc := target, seek := false, st := .run, hold := .none
          slotAt := s.clk + (if s.curCtx = 1 then 2 else 3) })
    follows (.beq rs1 rs2 off) (a.toInt = b.toInt) ∧ follows (.bne rs1 rs2 off) (a.toInt ≠ b.toInt) ∧
    follows (.blt rs1 rs2 off) (a.toInt < b.toInt) ∧ follows (.bge rs1 rs2 off) (b.toInt ≤ a.toInt) ∧
    follows (.bltu rs1 rs2 off) (a.toNat < b.toNat) ∧ follows (.bgeu rs1 rs2 off) (b.toNat ≤ a.toNat)) ∧
  (∀ (s : State) (rd rs1 : XReg) (off : BitVec 20) (imm : BitVec 12) (next : W64),
    s.recording = none → s.me.marked rs1 = false → linkOf s = some next →
    let goes (i : Instr) (target : W64) : Prop :=
      s.checkTarget s.curCore s.curCtx target = .ok →
        ∃ t, exec i s = .next t ∧ OnlyMe s t ∧ t.me.pc = target ∧ t.me.seek = false ∧ t.me.st = .run ∧
          (rd ≠ 0 → t.rx rd = next) ∧ OtherX s t rd ∧ t.me.sup = s.me.sup ∧ SameBytes s t
    goes (.jal rd off) (BitVec.ofInt 64 (s.me.pc.toInt + 2 * off.toInt)) ∧
    goes (.jalr rd rs1 imm) (BitVec.ofNat 64 ((s.rx rs1 + imm.signExtend 64).toNat / 2 * 2)))

/-- A jump to an address that is no lane of its context traps FTGT before any register is written, with the target in tval
and the jump in tpc, and one to a line whose header is bad traps FHDR, with the header in tval and the target in tpc (R76, R91,
R93): JAL, JALR and each of the six branches where it is taken; that a jump to a bad header writes no link is the model's reading
(log entry 7). The handler is a lane of the context. -/
def Obligations.BadTargetsTrap : Prop :=
  ∀ (s : State) (rd rs1 rs2 : XReg) (off : BitVec 20) (boff imm : BitVec 12) (next : W64),
    (s.core s.curCore).rec_ = none → s.me.hold = .none → s.me.marked rs1 = false → s.me.marked rs2 = false →
    linkOf s = some next → s.checkTarget s.curCore s.curCtx s.me.tvec = .ok →
    let a := s.rx rs1
    let b := s.rx rs2
    let traps (i : Instr) (target : W64) : Prop :=
      (s.checkTarget s.curCore s.curCtx target = .ftgt →
        ∃ t, exec i s = .next t ∧ Trapped s t s.curCore s.curCtx .ftgt target s.me.pc) ∧
      (∀ h, s.checkTarget s.curCore s.curCtx target = .fhdr h →
        ∃ t, exec i s = .next t ∧ Trapped s t s.curCore s.curCtx .fhdr (h.setWidth 64) target)
    let branch (i : Instr) (taken : Prop) : Prop := taken → traps i (BitVec.ofInt 64 (s.me.pc.toInt + 2 * boff.toInt))
    traps (.jal rd off) (BitVec.ofInt 64 (s.me.pc.toInt + 2 * off.toInt)) ∧
    traps (.jalr rd rs1 imm) (BitVec.ofNat 64 ((a + imm.signExtend 64).toNat / 2 * 2)) ∧
    branch (.beq rs1 rs2 boff) (a.toInt = b.toInt) ∧ branch (.bne rs1 rs2 boff) (a.toInt ≠ b.toInt) ∧
    branch (.blt rs1 rs2 boff) (a.toInt < b.toInt) ∧ branch (.bge rs1 rs2 boff) (b.toInt ≤ a.toInt) ∧
    branch (.bltu rs1 rs2 boff) (a.toNat < b.toNat) ∧ branch (.bgeu rs1 rs2 boff) (b.toNat ≤ a.toNat)

/-- The handler of a trap is no lane of its context, or lies in a line whose header is bad (R93). -/
def badHandler (s : State) (g : Nat) (c : CtxId) : Bool :=
  match s.checkTarget g c (s.ctx g c).tvec with
  | .ftgt | .fhdr _ => true
  | _ => false

/-- Taking a trap whose handler is a lane of the context: the registers it saves and the mode, in either mode. It affects neither
the other contexts nor any engine queue, nor memory; an FHDR trap counts the fetch of the line that it names (R93). The core does not
record and the context holds nothing.
A trap whose handler is no lane of the context, or lies in a line whose header is bad, halts it, and the hardware appends one event record through its evptr with
the cycle, the principal, the request tag, code 1, the context, tcause and tpc, where evptr names the die's HBM; the halted
context issues no more (R93, R95). -/
def Obligations.TrapTaken : Prop :=
  (∀ (s : State) (g : Nat) (c : CtxId) (k : Cause) (val pc : W64),
    (s.core g).rec_ = none → (s.ctx g c).hold = .none → s.checkTarget g c (s.ctx g c).tvec = .ok →
    Trapped s (s.trap g c k val pc) g c k val pc ∧
      OnlyCtx g c (if k = .fhdr then s.countFetch g (s.aset g).codeTok pc.toNat else s) (s.trap g c k val pc) ∧
      (s.trap g c k val pc).ctx g c = (s.ctx g c).trapRegs k val pc) ∧
  (∀ (s : State) (g : Nat) (c : CtxId) (k : Cause) (val pc : W64),
    (s.core g).rec_ = none → (s.ctx g c).hold = .none → badHandler s g c = true → s.MemOk →
    let t := s.trap g c k val pc
    let x := s.ctx g c
    let a := podAddr s (g / 128) x.evptr.toNat
    let head := s.readNat (a + 16) 8
    x.evptr.toNat + 64 ≤ 0x1FC0000000 →
    (t.ctx g c).st = .halt ∧ (t.ctx g c).tpc = pc ∧ (t.ctx g c).tcause = k.word ∧
    t.readNat (a + 16) 8 = (head + 1) % 2 ^ 64 ∧
    (s.readNat (a + 8) 4 = 4 → s.readNat a 8 % 32 = 0 → s.readNat a 8 + 512 ≤ x.evptr.toNat →
      let b := podAddr s (g / 128) (s.readNat a 8 + 32 * (head % 16))
      t.mem.read b 32 = leBytes 8 s.cycle.toNat ++ leBytes 4 x.prin.toNat ++ leBytes 2 (s.aset g).reqtag.toNat ++ leBytes 1 1
        ++ leBytes 1 c.val ++ leBytes 8 k.word.toNat ++ leBytes 8 pc.toNat))

/-- `tret` in supervisor mode: with a lane of its context in tpc it takes the mode from tstat.prev and ie from pie, sets pie and goes
to tpc; with another target it traps FTGT with tpc in tval, and the trap finds every register as it was (R96). -/
def Obligations.TretReturns : Prop :=
  ∀ s : State, s.me.sup = true →
    (s.checkTarget s.curCore s.curCtx s.me.tpc = .ok →
      ∃ t, exec .tret s = .next t ∧ OnlyMe s t ∧ t.me.sup = s.me.tstat.getLsbD 0 ∧
        t.me.tstat.getLsbD 1 = s.me.tstat.getLsbD 2 ∧ t.me.tstat.getLsbD 2 = true ∧
        t.me.tstat.getLsbD 0 = s.me.tstat.getLsbD 0 ∧ t.me.pc = s.me.tpc ∧ t.me.seek = false ∧ t.me.st = .run ∧
        (∀ r, t.rx r = s.rx r)) ∧
    (s.checkTarget s.curCore s.curCtx s.me.tpc = .ftgt ∨ (∃ h, s.checkTarget s.curCore s.curCtx s.me.tpc = .fhdr h) →
      (s.core s.curCore).rec_ = none → s.me.hold = .none →
      s.checkTarget s.curCore s.curCtx s.me.tvec = .ok →
      ∃ t, exec .tret s = .next t ∧ Trapped s t s.curCore s.curCtx .ftgt s.me.tpc s.me.pc)

/-- ECALL and EBREAK trap before themselves, with the context's next owned lane in tval, and a word that decodes to nothing
traps ILL with the word in tval (R35, R75, R91, R93). In user mode a supervisor instruction, or a CSR instruction that names a
supervisor CSR, traps PRIV before itself with its word in tval, and has none of its effect (R35, R40, R91, R93). -/
def Obligations.InstructionTraps : Prop :=
  (∀ (s : State) (w : W32),
    (s.core s.curCore).rec_ = none → s.me.hold = .none → s.checkTarget s.curCore s.curCtx s.me.tvec = .ok →
    (∀ next, s.nextLane s.curCore s.curCtx s.me.pc = .lane next →
      (∃ t, exec .ecall s = .next t ∧ Trapped s t s.curCore s.curCtx .ecall next s.me.pc) ∧
      (∃ t, exec .ebreak s = .next t ∧ Trapped s t s.curCore s.curCtx .ebrk next s.me.pc)) ∧
    (∃ t, exec (.illegalInstruction w) s = .next t ∧
      Trapped s t s.curCore s.curCtx .ill (w.setWidth 64) s.me.pc)) ∧
  (∀ (s : State) (i : Instr) (w : W32) (u : LaneUnit), s.me.sup = false →
    (s.core s.curCore).rec_ = none → s.me.hold = .none → s.checkTarget s.curCore s.curCtx s.me.tvec = .ok →
    encode i = some (u, w) →
    (match i with
     | .csrrw _ csr _ | .csrrs _ csr _ | .csrrc _ csr _ | .csrrwi _ csr _ | .csrrsi _ csr _ | .csrrci _ csr _ =>
       csrSup csr = true
     | .trnp .. | .pocc _ | .poccW _ | .pref .. | .pret _ | .ptstat .. | .tret | .purge _ | .jprio .. => True
     | _ => False) →
    ∃ t, exec i s = .next t ∧ Trapped s t s.curCore s.curCtx .priv (w.setWidth 64) s.me.pc ∧
      OnlyCtx s.curCore s.curCtx s t)

/-- What a CSR holds after a write of a value, by the field maps of R64 and R83 to R89: reserved bits ignore writes, and a mode of
5 to 7 leaves vrnd unchanged. -/
def csrStored (csr : CsrName) (old v : W64) : W64 :=
  match csr with
  | .vrnd => if v.toNat % 8 ≤ 4 then BitVec.ofNat 64 (v.toNat % 8) else old
  | .fstat => v &&& 0x1F
  | .mstat => v &&& 0xFF
  | .tstat => v &&& 7
  | .wdog | .occtmo | .prin => v &&& 0xFFFFFFFF
  | .tcause => v &&& 0x80000000000000FF
  | .clrptr => v &&& 0x0007FFFFFFFFFE00
  | .evptr => v &&& 0x0007FFFFFFFFFFC0
  | .tvec | .tval | .tpc | .tscratch => v
  | _ => old

/-- The six CSR instructions (R40, R64, R83 to R89): rd takes the old value, and the CSR holds the source, or the old value with the
source's bits set or cleared, under its field map; with a source of x0 or 0 the four that set or clear bits write nothing; a
supervisor CSR asks for supervisor mode. No other CSR, no other register and no byte of memory changes.
An access to srst, when no V entry of the context waits: rd takes the old state, and a written state of 0 stores the reset
state (R62). -/
def Obligations.CsrResults : Prop :=
  (∀ (s : State) (rd rs1 : XReg) (csr : CsrName) (uimm : BitVec 5), csr ≠ .srst → (csrSup csr = true → s.me.sup = true) →
    let old := csrRead s csr
    let gives (i : Instr) (v : W64) : Prop :=
      i.WellFormed → ∃ t, exec i s = .next t ∧ OnlyMe s t ∧ csrRead t csr = v ∧ (rd ≠ 0 → t.rx rd = old) ∧ OtherX s t rd ∧
        (∀ q, q ≠ csr → csrRead t q = csrRead s q) ∧ t.me.pc = s.me.pc ∧ t.me.seek = true ∧ SameBytes s t
    let src := s.rx rs1
    let imm : W64 := BitVec.ofNat 64 uimm.toNat
    gives (.csrrw rd csr rs1) (csrStored csr old src) ∧
    gives (.csrrs rd csr rs1) (if rs1 = 0 then old else csrStored csr old (old ||| src)) ∧
    gives (.csrrc rd csr rs1) (if rs1 = 0 then old else csrStored csr old (old &&& ~~~src)) ∧
    gives (.csrrwi rd csr uimm) (csrStored csr old imm) ∧
    gives (.csrrsi rd csr uimm) (if uimm = 0 then old else csrStored csr old (old ||| imm)) ∧
    gives (.csrrci rd csr uimm) (if uimm = 0 then old else csrStored csr old (old &&& ~~~imm))) ∧
  (∀ (s : State) (op : CsrOp) (rd : XReg) (src : BitVec 5), s.mySet.vq = [] →
    let old := s.me.srst
    let v : W32 := match op with
      | .rw | .rs | .rc => (s.rx src).setWidth 32
      | _ => src.setWidth 32
    let new : Option W32 := match op with
      | .rw | .rwi => some v
      | .rs | .rsi => if src = 0 then none else some (old ||| v)
      | .rc | .rci => if src = 0 then none else some (old &&& ~~~v)
    ∃ t, exec (.srstAccess op rd src) s = .next t ∧ OnlyMe s t ∧ (rd ≠ 0 → t.rx rd = BitVec.ofNat 64 old.toNat) ∧
      OtherX s t rd ∧ SameBytes s t ∧
      t.me.srst = (match new with | none => old | some 0 => 0x13579BDF | some n => n))


/-! ### Unit K: loads and stores -/

/-- The access of a load or store of the issuing context through a pointer names a token that it finds stray: not a pointer of the
context, or one whose k register is not valid (R81). -/
def strayAccess (s : State) (p : W64) : Prop :=
  s.ptr s.curCore s.mySet p = .stray ∨
    ∃ pol k off, s.ptr s.curCore s.mySet p = .token pol k off ∧ (vget s.mySet.k k).valid = false

/-- No V store of the issuing core has begun and has still to write: a scalar access to what it writes waits for it (R255). -/
def noVStore (s : State) : Prop := ∀ t ∈ (s.core s.curCore).allSets, t.vprog.writes = []

/-- A load from the vault of its core, with no store in the buffer, no posted operation on its way, no V store under way and no
poison, on a die with at most 4,096 tags in use (R239): rd takes the
little-endian value of its bytes in memory, sign-extended or zero-extended, at any alignment, and nothing else changes (R79,
R80, R81, R134, R253). The core's die is in service. An aligned load is one read; the bytes of a misaligned one are
independent, and the hardware may leave some of them for later: the load then waits with them, and changes nothing yet (R249;
which bytes is a free choice, log entry 2). -/
def Obligations.VaultLoads : Prop :=
  ∀ (s : State) (rd rs1 : XReg) (imm : BitVec 12),
    let p := (s.rx rs1 + imm.signExtend 64).toNat
    let v (n : Nat) : Nat := s.readNat (vaultLoc s.curCore p) n
    p + 8 ≤ 2 ^ 21 → (s.die (s.curCore / 128)).fenced = false → s.curCore < 1024 → (s.die (s.curCore / 128)).tags.length ≤ 4096 →
    noVStore s → (s.core s.curCore).sb = [] → s.ops = [] → s.mpois = [] → s.me.marked rs1 = false →
    let reads (i : Instr) (n : Nat) (r : W64) : Prop :=
      (p % n = 0 ∨ s.oracle = [] → Result i s rd r) ∧
      (∀ k rest, p % n ≠ 0 → s.oracle = k :: rest → k % 2 ^ n ≠ 0 →
        ∃ t, exec i s = .next t ∧ t.me.st = .wait ∧ (∀ x, t.rx x = s.rx x) ∧ t.oracle = rest ∧ t.me.pc = s.me.pc ∧ SameBytes s t)
    reads (.lb rd rs1 imm) 1 ((BitVec.ofNat 8 (v 1)).signExtend 64) ∧
    reads (.lh rd rs1 imm) 2 ((BitVec.ofNat 16 (v 2)).signExtend 64) ∧
    reads (.lw rd rs1 imm) 4 ((BitVec.ofNat 32 (v 4)).signExtend 64) ∧
    reads (.ld rd rs1 imm) 8 (BitVec.ofNat 64 (v 8)) ∧
    reads (.lbu rd rs1 imm) 1 (BitVec.ofNat 64 (v 1)) ∧
    reads (.lhu rd rs1 imm) 2 (BitVec.ofNat 64 (v 2)) ∧
    reads (.lwu rd rs1 imm) 4 (BitVec.ofNat 64 (v 4))

/-- A load through a valid token of its set that names a LIVE entry, with read rights, policy 0 and bytes of one frame of HBM of
the core's own die, of which the core's L1 holds no copy, with no V store under way: rd takes the value of its bytes at their home, and its mstat bits, its
other registers and memory stay as they are (R80, R119, R123, R234, R256). A misaligned load is performed whole when no
choice of the hardware is at hand that leaves bytes of it for later (R249, log entry 2). -/
def Obligations.TokenLoads : Prop :=
  ∀ (s : State) (rd rs1 : XReg) (imm : BitVec 12) (k : KReg) (off : Nat),
    let t := vget s.mySet.k k
    let e := s.pin (s.curCore / 128) t.pte
    let loc := (e.frames.getD (off / 2 ^ 21) 0).toNat % 2 ^ 59 + off % 2 ^ 21
    s.ptr s.curCore s.mySet (s.rx rs1 + imm.signExtend 64) = .token 0 k off →
    t.valid = true → t.ms = false → t.host = false → t.rights &&& 1 = 1 → off + 8 ≤ t.lenm1.toNat + 1 → off + 8 ≤ 2 ^ 48 →
    off % 2 ^ 21 + 8 ≤ 2 ^ 21 → off % 2 ^ 16 + 8 ≤ 2 ^ 16 → e.gen = t.gen → e.state = .live → e.deny.contains (off / 2 ^ 16) = false →
    (∀ i, i < 8 → s.addrFate s.curCore (loc + i) { phys := e.phys } = .ok ∧ region (loc + i) = .hbm ∧ s.remote s.curCore (loc + i) = false ∧
      fget (s.core s.curCore).l1 ((loc + i) / 64) = none) →
    noVStore s → (s.core s.curCore).sb = [] → s.ops = [] → s.mpois = [] → s.me.marked rs1 = false →
    let gives (i : Instr) (n : Nat) (v : W64) : Prop := (s.rx rs1 + imm.signExtend 64).toNat % n = 0 ∨ s.oracle = [] →
      ∃ u, exec i s = .next u ∧ (rd ≠ 0 → u.rx rd = v) ∧ OtherX s u rd ∧ u.me.mstat = s.me.mstat ∧ u.me.seek = true ∧
        u.me.pc = s.me.pc ∧ SameBytes s u
    gives (.lb rd rs1 imm) 1 ((BitVec.ofNat 8 (s.readNat loc 1)).signExtend 64) ∧
    gives (.lh rd rs1 imm) 2 ((BitVec.ofNat 16 (s.readNat loc 2)).signExtend 64) ∧
    gives (.lw rd rs1 imm) 4 ((BitVec.ofNat 32 (s.readNat loc 4)).signExtend 64) ∧
    gives (.ld rd rs1 imm) 8 (BitVec.ofNat 64 (s.readNat loc 8)) ∧
    gives (.lbu rd rs1 imm) 1 (BitVec.ofNat 64 (s.readNat loc 1)) ∧
    gives (.lhu rd rs1 imm) 2 (BitVec.ofNat 64 (s.readNat loc 2)) ∧
    gives (.lwu rd rs1 imm) 4 (BitVec.ofNat 64 (s.readNat loc 4))

/-- A load is satisfied byte by byte by the youngest store that the core's buffer holds of the byte: after SD to the vault, LD of
the same address reads the value stored, at any alignment, before any byte has reached memory (R250, R253).
No V store is under way. A store to the vault of its core with room in the buffer: each of its bytes is what the buffer now holds youngest of its
location, every other location is held as before, and no register and no byte of memory changes (R79, R134, R253). -/
def Obligations.Stores : Prop :=
  (∀ (s : State) (rd rs1 rs2 : XReg) (imm : BitVec 12),
    let p := (s.rx rs1 + imm.signExtend 64).toNat
    p + 8 ≤ 2 ^ 21 → noVStore s → (s.core s.curCore).sb.length ≤ 30 → s.ops = [] → s.mpois = [] →
    s.me.marked rs1 = false → s.me.marked rs2 = false → rd ≠ 0 → p % 8 = 0 ∨ s.oracle = [] →
    ∃ t u, exec (.sd rs2 rs1 imm) s = .next t ∧ exec (.ld rd rs1 imm) t = .next u ∧ u.rx rd = s.rx rs2 ∧
      SameBytes s u) ∧
  (∀ (s : State) (rs1 rs2 : XReg) (imm : BitVec 12),
    let g := s.curCore
    let p := (s.rx rs1 + imm.signExtend 64).toNat
    p + 8 ≤ 2 ^ 21 → noVStore s → (s.core g).sb.length ≤ 30 → s.ops = [] → s.me.marked rs1 = false → s.me.marked rs2 = false →
    let buffers (i : Instr) (n : Nat) : Prop :=
      ∃ t, exec i s = .next t ∧ t.me = s.me.goOn ∧ SameBytes s t ∧
        (∀ j, j < n → (t.core g).forward (vaultLoc g (p + j)) =
          some (BitVec.ofNat 8 ((s.rx rs2).toNat / 2 ^ (8 * j)), false)) ∧
        (∀ a, (∀ j, j < n → a ≠ vaultLoc g (p + j)) → (t.core g).forward a = (s.core g).forward a)
    buffers (.sb rs2 rs1 imm) 1 ∧ buffers (.sh rs2 rs1 imm) 2 ∧ buffers (.sw rs2 rs1 imm) 4 ∧ buffers (.sd rs2 rs1 imm) 8)

/-- A stray load reads 0 and a stray store is dropped, and either sets mstat.stray; no other register, no byte of memory and no
store buffer changes (R81). The pointer register is not marked, and the core does not record. -/
def Obligations.StrayAccesses : Prop :=
  ∀ (s : State) (rd rs1 rs2 : XReg) (imm : BitVec 12),
    strayAccess s (s.rx rs1 + imm.signExtend 64) → s.me.marked rs1 = false → (s.core s.curCore).rec_ = none →
    let readsZero (i : Instr) : Prop := ∃ t, exec i s = .next t ∧ OnlyMe s t ∧ (rd ≠ 0 → t.rx rd = 0) ∧ OtherX s t rd ∧
      t.me.mstat = s.me.mstat ||| 0x20 ∧ SameBytes s t
    let dropped (i : Instr) : Prop := ∃ t, exec i s = .next t ∧ OnlyMe s t ∧
      t.me = { s.me.goOn with mstat := s.me.mstat ||| 0x20 } ∧ SameBytes s t
    readsZero (.lb rd rs1 imm) ∧ readsZero (.lh rd rs1 imm) ∧ readsZero (.lw rd rs1 imm) ∧ readsZero (.ld rd rs1 imm) ∧
    readsZero (.lbu rd rs1 imm) ∧ readsZero (.lhu rd rs1 imm) ∧ readsZero (.lwu rd rs1 imm) ∧
    dropped (.sb rs2 rs1 imm) ∧ dropped (.sh rs2 rs1 imm) ∧ dropped (.sw rs2 rs1 imm) ∧ dropped (.sd rs2 rs1 imm)

/-- A load or store at its issue point (R123): a token whose generation the entry has left traps REVK with the entry in tval;
an entry in EBB or OCCULTED makes the context wait, and the instruction has no effect. -/
def Obligations.IssuePoints : Prop :=
  ∀ (s : State) (rd rs1 rs2 : XReg) (imm : BitVec 12) (pol off : Nat) (k : KReg),
    let t := vget s.mySet.k k
    let e := s.pin (s.curCore / 128) t.pte
    s.ptr s.curCore s.mySet (s.rx rs1 + imm.signExtend 64) = .token pol k off → t.valid = true →
    (s.core s.curCore).rec_ = none → s.me.hold = .none → s.checkTarget s.curCore s.curCtx s.me.tvec = .ok →
    let finds (i : Instr) : Prop :=
      (e.gen ≠ t.gen → ∃ u, exec i s = .next u ∧ Trapped s u s.curCore s.curCtx .revk (t.pte.setWidth 64) s.me.pc) ∧
      (e.gen = t.gen → e.state = .ebb ∨ e.state = .occulted → ∃ u, exec i s = .next u ∧ Waits s u (.stall t.pte))
    finds (.lb rd rs1 imm) ∧ finds (.lh rd rs1 imm) ∧ finds (.lw rd rs1 imm) ∧ finds (.ld rd rs1 imm) ∧
    finds (.lbu rd rs1 imm) ∧ finds (.lhu rd rs1 imm) ∧ finds (.lwu rd rs1 imm) ∧
    finds (.sb rs2 rs1 imm) ∧ finds (.sh rs2 rs1 imm) ∧ finds (.sw rs2 rs1 imm) ∧ finds (.sd rs2 rs1 imm)

/-! ### The store buffer (R253, R254) -/

/-- The bytes of an entry that its home performs at once, or leaves for later: all of an entry that is performed whole, and of any other
those whose unit has a clear or a set bit in a choice of the hardware (R249). -/
def entryPart (e : StoreEnt) (choice : Nat) (later : Bool) : List (Nat × Byte) :=
  if e.units = [] then (if later then [] else e.bytes)
  else ((e.bytes.zip e.units).filter fun x => choice.testBit x.2 == later).map (·.1)

/-- An entry is performed at its home, in the units that the hardware does not leave for later: it writes their bytes and nothing else
of memory, and leaves the buffer when none is left; else it stays with the rest, on its way. -/
def entryPerformed (i : Instr) (s : State) (g : Nat) (e : StoreEnt) : Prop :=
  let now := entryPart e (s.oracle.headD 0) false
  let rest := entryPart e (s.oracle.headD 0) true
  let row (y : StoreEnt) : Nat × List (Nat × Byte) × Bool := (y.seq, y.bytes, y.sent)
  ∃ t, exec i s = .next t ∧ (∀ b ∈ now, t.mem.get b.1 = b.2) ∧
    (∀ a, (∀ b ∈ now, b.1 ≠ a) → t.mem.get a = s.mem.get a) ∧
    (rest = [] → (t.core g).sb = (s.core g).sb.filter (fun y => y.seq != e.seq)) ∧
    (rest ≠ [] → (t.core g).sb.map row = (s.core g).sb.map fun y => if y.seq = e.seq then (e.seq, rest, true) else row y)

/-- An entry performed at its home writes its bytes and nothing else of memory, and leaves the buffer (R133, R134, R213, R254): the
oldest unsent entry of a vault in service at its departure, one whose words the core owns too (that it registers at once is log
entry 6), and a registered one of a line of the core's die later; each when no earlier entry of its line is left and no step pins the
line (R194). Any other entry of such a line departs on its way and writes nothing yet, and one for another die is sent to its home
when a tag is free and no earlier write of the core to its line is on its way (R236, R238, R239). An entry that an earlier load
of the core awaits stays (R255), and one without a home in service fails and is gone (R240). No poison is about, and every bit
of each byte is written.
Entries that have reached 256 clk of age are to leave, with those before them (R254). -/
def Obligations.StoresLeave : Prop :=
  (∀ (s : State) (g : Nat) (e : StoreEnt), e.poison = false → e.bits = [] → e.marks = [] → s.mpois = [] → s.MemOk →
    (e.bytes.Pairwise fun x y => x.1 ≠ y.1) →
    let first : Prop := (∀ y ∈ (s.core g).sb, y.seq < e.seq → y.line ≠ e.line) ∧ s.pinned e.line = false
    let leaves (r : Option Nat) : List StoreEnt :=
      (s.core g).sb.map fun y => if y.seq = e.seq then { y with sent := true, req := r } else y
    ((s.core g).sb.find? (fun y => !y.sent) = some e → e.seq ≤ (s.core g).drainTo →
      let loc := (e.bytes.headD (0, 0)).1
      let v : Via := { phys := (match e.pte with | some p => (s.pin (g / 128) p).phys | none => false), host := e.host }
      let atOnce : Prop := isVault loc = true ∨ (e.ms = false ∧ e.host = false ∧ s.ownsAll g e = true)
      (s.awaited g e.seq (e.bytes.map (·.1)) = true → exec (.storeBufferDepart g) s = .next s) ∧
      (s.awaited g e.seq (e.bytes.map (·.1)) = false →
        (s.addrFate g loc v = .ok → s.remote g loc v = false →
          (atOnce ∧ first → entryPerformed (.storeBufferDepart g) s g e) ∧
          (¬ (atOnce ∧ first) →
            ∃ t, exec (.storeBufferDepart g) s = .next t ∧ SameBytes s t ∧ (t.core g).sb = leaves none)) ∧
        (s.addrFate g loc v = .ok → s.remote g loc v = true → s.writing g e.line = false → s.hasTag (g / 128) = true →
          ∃ t r q, exec (.storeBufferDepart g) s = .next t ∧ SameBytes s t ∧ (t.core g).sb = leaves (some r) ∧
            fget t.reqs r = some q ∧ q.line = e.line ∧ q.what = .store e.seq) ∧
        (s.addrFate g loc v ≠ .ok →
          ∃ t, exec (.storeBufferDepart g) s = .next t ∧ SameBytes s t ∧
            (t.core g).sb = (s.core g).sb.filter fun y => y.seq != e.seq))) ∧
    ((s.core g).sb.find? (fun y => y.sent && y.req.isNone && y.seq = e.seq) = some e → first →
      entryPerformed (.storeRegistered g e.seq) s g e)) ∧
  (∀ (s : State) (g : Nat) (e : StoreEnt), e ∈ (s.core g).sb → 256 ≤ s.clk - e.born →
    ((s.core g).sb.Pairwise fun x y => x.seq < y.seq) →
    ∃ t, exec (.storeBufferAgeDrain g) s = .next t ∧ e.seq ≤ (t.core g).drainTo ∧ (s.core g).drainTo ≤ (t.core g).drainTo ∧
      (t.core g).sb = (s.core g).sb ∧ SameBytes s t ∧ ∀ h, h ≠ g → t.core h = s.core h)

/-! ### Units V and E: issue (R13, R37, R38, R123) -/

/-- The V instructions are captured at issue, when their queue of 32 has room: the x operand of form vx, or of an instruction with an
x source, with the token that a pointer names (R13, R32, R37, R38, R123, R161, R177 to R181). A full queue holds the context. -/
def Obligations.VectorIssues : Prop :=
  ∀ (s : State) (ty ts : ElemTy) (mk md ma mb : MReg) (s2 : VSrc) (vs1 vs2 vd : VReg) (x : XReg) (h : HReg) (acc : AccReg)
    (rel : CmpRel) (op : RedOp) (b : Bool),
    let v2 := match s2 with | .vx r => s.rx r | _ => 0
    let cap (i : Instr) (x0 : W64) (p : Bool) : Prop :=
      (s.mySet.vq.length < 32 → Enqueues s .vec i x0 0 0 p false none) ∧
      (32 ≤ s.mySet.vq.length → ∃ t, exec i s = .next t ∧ Waits s t (.queueFull .vec i))
    cap (.vadd ty mk s2 vs1 vd) v2 false ∧ cap (.vsub ty mk s2 vs1 vd) v2 false ∧ cap (.vmul ty mk s2 vs1 vd) v2 false ∧
    cap (.vfma ty mk s2 vs1 vd) v2 false ∧ cap (.vmin ty mk s2 vs1 vd) v2 false ∧ cap (.vmax ty mk s2 vs1 vd) v2 false ∧
    cap (.vabs ty mk vs1 vd) 0 false ∧ cap (.vneg ty mk vs1 vd) 0 false ∧ cap (.vdiv mk s2 vs1 vd) v2 false ∧
    cap (.vsqrt mk vs1 vd) 0 false ∧ cap (.vrcp mk vs1 vd) 0 false ∧ cap (.vrsq mk vs1 vd) 0 false ∧
    cap (.vexp2 mk vs1 vd) 0 false ∧ cap (.vlog2 mk vs1 vd) 0 false ∧ cap (.vand ty mk s2 vs1 vd) v2 false ∧
    cap (.vor ty mk s2 vs1 vd) v2 false ∧ cap (.vxor ty mk s2 vs1 vd) v2 false ∧ cap (.vnot ty mk vs1 vd) 0 false ∧
    cap (.vshl ty mk s2 vs1 vd) v2 false ∧ cap (.vshr ty mk s2 vs1 vd) v2 false ∧ cap (.vsra ty mk s2 vs1 vd) v2 false ∧
    cap (.vcmp rel ty mk s2 vs1 md) v2 false ∧ cap (.vsel ty mk vs2 vs1 vd) 0 false ∧ cap (.vcvt ty ts mk vs1 vd) 0 false ∧
    cap (.vmov ty mk vs1 vd) 0 false ∧ cap (.vbcast ty mk x vd) (s.rx x) false ∧ cap (.viota ty mk vd) 0 false ∧
    cap (.vshuf ty mk vs2 vs1 vd) 0 false ∧ cap (.vslide b ty mk s2 vs1 vd) v2 false ∧ cap (.vcmpr ty mk vs1 vd) 0 false ∧
    cap (.vpart ty mk vd) 0 false ∧ cap (.vred op ty mk vs1 vd) 0 false ∧ cap (.vscan op ty mk vs1 vd) 0 false ∧
    cap (.mset ty x md) (s.rx x) false ∧ cap (.mand mb ma md) 0 false ∧ cap (.mor mb ma md) 0 false ∧
    cap (.mxor mb ma md) 0 false ∧ cap (.mnot ma md) 0 false ∧
    cap (.vld ty mk x vd) (s.rx x) true ∧ cap (.vst ty mk x vd) (s.rx x) true ∧
    cap (.vldg ty mk x vs1 vd) (s.rx x) true ∧ cap (.vsts ty mk x vs1 vd) (s.rx x) true ∧
    cap (.vldr ty mk x h vd) (s.rx x) false ∧ cap (.vstr ty mk x h vd) (s.rx x) false ∧
    cap (.vadv x h) (s.rx x) false ∧ cap (.vpub x h) (s.rx x) false ∧ cap (.vlda b x acc vd) (s.rx x) false

/-- The E instructions are captured at issue, when their queue has room, with their x operands and the tokens of their pointers
(R13, R37, R38, R123, and the rules of each instruction); `mchk`, `clstat`, `gstat` and `jstat` hold their context for their
result. The job port of the context's core holds no jpost that stalls, and `jprio` issues in supervisor mode (R35, R333). `grec` on a
core that records nothing begins an empty recording of its slot for its set, and makes every x register of every
context of the set plain; `gend` ends the recording of its set, which its number will install; `gplay` enters the queue without a
number and holds its context for its result until its checks have passed; `jdone` leaves its context IDLE and an entry in the
job port's queue (R97, R299, R303 to R305, R334); for these the queues have room. -/
def Obligations.EngineIssues : Prop :=
  (∀ (s : State) (h : HReg) (a b c : XReg) (f : BitVec 7) (rm : RMode) (acc : AccReg) (mode : DrainMode) (kind : HintKind)
    (cls g : BitVec 3) (t : Bool),
    s.mySet.jheld = false →
    let cap (q : EngQ) (i : Instr) (x0 x1 x2 : W64) (p0 p1 : Bool) (r : Option (Fin 5 × XReg)) : Prop :=
      (s.mySet.queueLen s.curCtx q < q.depth → Enqueues s q i x0 x1 x2 p0 p1 r) ∧
      (q.depth ≤ s.mySet.queueLen s.curCtx q → ∃ t, exec i s = .next t ∧ Waits s t (.queueFull q i))
    let xa := s.rx a
    let xb := s.rx b
    let xc := s.rx c
    cap .str (.rset h a) xa 0 0 false false none ∧ cap .str (.sfill h a b) xa xb 0 true false none ∧
    cap .str (.sdrain h a b) xa xb 0 true false none ∧ cap .str (.scopy a b c) xa xb xc true true none ∧
    cap .str (.shint kind a b) xa xb 0 true false none ∧
    cap .mat (.mcfg f a) xa 0 0 (f.toNat ≤ 3) false none ∧ cap .mat .mgo 0 0 0 false false none ∧
    cap .mat (.mrnd rm) 0 0 0 false false none ∧ cap .mat (.mzero acc) 0 0 0 false false none ∧
    cap .mat (.mdrain acc mode a b) xa xb 0 true false none ∧ cap .mat (.mchk a) 0 0 0 false false (some (0, a)) ∧
    cap .coll (.clset cls a) xa 0 0 true false none ∧ cap .coll (.clclr cls a) xa 0 0 true false none ∧
    cap .coll (.clins cls a b c) xa xb xc true true none ∧ cap .coll (.cldel cls a b c) xa xb xc true true none ∧
    cap .coll (.clsub cls a b) xa xb 0 true true none ∧ cap .coll (.clxch cls a b) xa xb 0 true true none ∧
    cap .coll (.clpeel cls t a b c) xa xb xc true true none ∧ cap .coll (.clstat a cls) 0 0 0 false false (some (1, a)) ∧
    cap .gal (.gsave g a) xa 0 0 true false none ∧ cap .gal (.gload g a) xa 0 0 true false none ∧
    cap .gal (.gdrop g) 0 0 0 false false none ∧ cap .gal (.gstat a g) 0 0 0 false false (some (3, a)) ∧
    cap .job (.jpost a b) xa xb 0 true false none ∧ cap .job (.jstat a b) 0 xb 0 false false (some (4, a)) ∧
    cap .job .jyield 0 0 0 false false none ∧
    (s.me.sup = true → cap .job (.jprio a b) xa xb 0 false false none)) ∧
  (∀ (s : State) (g : BitVec 3) (xa xb : XReg), s.mySet.gq.length < 8 →
    let core (t : State) : Core := t.core s.curCore
    ((core s).rec_ = none → ∃ t r e, exec (.grec g) s = .next t ∧ (core t).rec_ = some r ∧ r.g = g ∧ r.sid = s.mySet.sid ∧
      r.tenant = s.mySet.tenant ∧ r.ent = [] ∧ r.used = 0 ∧ r.rejected = 0 ∧ r.smudge = 0 ∧ r.kWritten = 0 ∧
      (∀ (c : CtxId) (x : XReg), vget (t.ctx s.curCore c).tag x = .plain) ∧ (∀ x, t.rx x = s.rx x) ∧ t.me.seek = true ∧
      t.mySet.gq = s.mySet.gq ++ [e] ∧ e.instr = .grec g ∧ e.num = (s.mySet.time .tlg).issued + 1 ∧ SameBytes s t) ∧
    (∀ r, (core s).rec_ = some r → r.sid = s.mySet.sid →
      ∃ t f e, exec .gend s = .next t ∧ (core t).rec_ = none ∧ (core t).gReady = (core s).gReady ++ [f] ∧ f.g = r.g ∧
        f.sid = r.sid ∧ f.num = (s.mySet.time .tlg).issued + 1 ∧ t.mySet.gq = s.mySet.gq ++ [e] ∧ e.instr = .gend ∧
        e.num = f.num ∧ t.me = s.me.goOn ∧ SameBytes s t) ∧
    (∃ t e, exec (.gplay xa g xb) s = .next t ∧ t.mySet.gq = s.mySet.gq ++ [e] ∧ e.instr = .gplay xa g xb ∧
      e.x1 = s.rx xb ∧ e.k1 = captureTok s.mySet (s.rx xb) ∧ t.me = s.me.holdAt s.clk (.result 2 e.num xa) ∧
      t.mySet.time .tlg = s.mySet.time .tlg ∧ SameBytes s t) ∧
    ((core s).rec_ = none → s.mySet.jq.length < 4 → s.mySet.jheld = false →
      ∃ t e, exec .jdone s = .next t ∧ t.mySet.jq = s.mySet.jq ++ [e] ∧ e.instr = .jdone ∧ e.ctx = s.curCtx ∧
        t.me.st = .idle ∧ (∀ x, t.rx x = s.rx x) ∧ SameBytes s t))

/-- A context that holds an instruction for a full queue issues it in a slot of its own when the queue has room, as if it were issued
then, while its wait has not used up wdog and no cause is to be taken (R11, R37, R87, R88, R92). -/
def Obligations.FullQueuesRelease : Prop :=
  ∀ (s : State) (g : Nat) (c : CtxId) (i : Instr) (u : LaneUnit) (w : W32), encode i = some (u, w) → u = .v ∨ u = .e →
    (match i with | .jprio .. => (s.ctx g c).sup = true | _ => True) →
    (s.ctx g c).hold = .queueFull (engQueue i) i → (s.aset g).queueFull c (engQueue i) = false →
    s.expired g c (s.ctx g c).wdog = false → (s.ctx g c).takeable = none → s.slotOpen g c = true →
    let slot : State := { s with curCore := g, curCtx := c }.updMe fun x => { x with slotAt := s.clk + 1 }
    let at_ : State := if c = 1 then slot else slot.updCore g fun k => { k with aFrom := s.clk + 1 }
    ∃ t, exec (.engineQueueFullRelease g c) s = .next t ∧ exec i at_ = .next t
/-! ### The element formats, in integers (R49 to R64)

The terms of the statements about floats. A value is a sign and a whole number of units, where the unit of a format is its
smallest subnormal; an exact value between two numbers of units is given by how parts of a unit compare with it. -/

/-- The parts of a unit: 2^33. -/
def unitParts : Nat := 2 ^ 33

/-- The magnitude of an encoding without its sign, in units (R51). An encoding past the largest finite one has the value that
a wider exponent would give it. -/
def magOf (f : Fmt) (b : Nat) : Nat :=
  if b < 2 ^ f.mb then b else (2 ^ f.mb + b % 2 ^ f.mb) * 2 ^ (b / 2 ^ f.mb - 1)

/-- The place of the sign bit. -/
def signUnit (f : Fmt) : Nat := 2 ^ (f.eb + f.mb)
/-- An encoding without its sign. -/
def absBits (f : Fmt) (b : Nat) : Nat := b % signUnit f
/-- The sign of an encoding. -/
def negBits (f : Fmt) (b : Nat) : Bool := decide (b / signUnit f % 2 = 1)
/-- An encoding with a sign and a magnitude. -/
def withSign (f : Fmt) (neg : Bool) (b : Nat) : Nat := (if neg then signUnit f else 0) + b
/-- The encoding of infinity: the exponent of all ones, and no fraction (R51). -/
def infCode (f : Fmt) : Nat := signUnit f - 2 ^ f.mb
/-- The largest finite encoding (R51). -/
def maxCode (f : Fmt) : Nat := if f.hasInf then infCode f - 1 else signUnit f - 2
/-- The positive canonical quiet NaN (R52). -/
def nanCode (f : Fmt) : Nat := if f.hasInf then infCode f + 2 ^ (f.mb - 1) else signUnit f - 1
/-- An encoding of a NaN (R51). -/
def nanBits (f : Fmt) (b : Nat) : Bool := decide (maxCode f < absBits f b ∧ absBits f b ≠ infCode f)
/-- An encoding of a signalling NaN (R52). -/
def sigBits (f : Fmt) (b : Nat) : Bool := nanBits f b && f.hasInf && decide (absBits f b < nanCode f)
/-- An encoding of an infinity. -/
def infBits (f : Fmt) (b : Nat) : Bool := f.hasInf && decide (absBits f b = infCode f)
/-- The value of a finite encoding, in units. -/
def unitsOf (f : Fmt) (b : Nat) : Int := if negBits f b then -(magOf f (absBits f b) : Int) else magOf f (absBits f b)
/-- The unit is 2^-n for this n (R51). -/
def unitExp (f : Fmt) : Nat := f.bias.toNat + f.mb - 1

/-- How n parts of a unit compare with num / den units. -/
def ratio (num den n : Nat) : Ordering := compare (n * den) (num * unitParts)

/-- A rounding that goes away from zero when a finite result is too large (R60). -/
def tooLargeGoesUp (rm : RMode) (neg : Bool) : Bool :=
  match rm with
  | .rne | .sr => true
  | .rtz => false
  | .rup => !neg
  | .rdn => neg

/-- Rounding an exact nonzero magnitude with a sign to a format (R60, R61, R64): x compares parts of a unit with it; the result
has the encoding r and the flags fl. The exact value lies between the encodings b and b + 1; overflow is a result past the
largest finite one; underflow is an inexact result that is tiny, below the smallest normal after rounding to the format's precision. -/
def Rounds (f : Fmt) (rm : RMode) (draw : Nat) (neg : Bool) (x : Nat → Ordering) (r : Nat) (fl : FFlags) : Prop :=
  ∃ b, x (unitParts * magOf f b) ≠ .gt ∧ x (unitParts * magOf f (b + 1)) = .gt ∧
    let exact := x (unitParts * magOf f b) == .eq
    let up := !exact && match rm with
      | .rne => match x (unitParts / 2 * (magOf f b + magOf f (b + 1))) with
        | .lt => true
        | .eq => b % 2 == 1
        | .gt => false
      | .rtz => false
      | .rup => !neg
      | .rdn => neg
      | .sr => x (unitParts * magOf f b + 2 * (magOf f (b + 1) - magOf f b) * (draw + 1)) != .gt
    let n := if up then b + 1 else b
    let normal := unitParts * 2 ^ f.mb
    let tiny := x normal == .gt && match rm with
      | .rne => x (normal - unitParts / 4) == .gt
      | .rtz => true
      | .rup => neg || x (normal - unitParts / 2) != .lt
      | .rdn => !neg || x (normal - unitParts / 2) != .lt
      | .sr => x (normal - unitParts / 2 + (draw + 1)) == .gt
    (maxCode f < n → r = withSign f neg (if f.hasInf && tooLargeGoesUp rm neg then infCode f else maxCode f) ∧ fl = 0b10100) ∧
    (n ≤ maxCode f → r = withSign f neg n ∧ fl = (if exact then 0 else if tiny then 0b11000 else 0b10000))

/-- The sum of two encodings (R52, R64, R167): the sum of two numbers of units, rounded once; a sum of 0 has the sign of both or,
where they differ, is negative in RDN alone. -/
def SumIs (f : Fmt) (rm : RMode) (draw a b r : Nat) (fl : FFlags) : Prop :=
  let nan := nanBits f a || nanBits f b
  let opposite := infBits f a && infBits f b && negBits f a != negBits f b
  let z := unitsOf f a + unitsOf f b
  if nan || opposite then r = nanCode f ∧ fl = (if sigBits f a || sigBits f b || (!nan && opposite) then 1 else 0)
  else if infBits f a then r = a ∧ fl = 0
  else if infBits f b then r = b ∧ fl = 0
  else if z = 0 then r = withSign f (if negBits f a = negBits f b then negBits f a else rm == .rdn) 0 ∧ fl = 0
  else Rounds f rm draw (z < 0) (ratio z.natAbs 1) r fl

/-- The product of two encodings (R52, R64, R167). -/
def ProductIs (f : Fmt) (rm : RMode) (draw a b r : Nat) (fl : FFlags) : Prop :=
  let nan := nanBits f a || nanBits f b
  let bad := (infBits f a && absBits f b == 0) || (absBits f a == 0 && infBits f b)
  let neg := negBits f a != negBits f b
  let p := magOf f (absBits f a) * magOf f (absBits f b)
  if nan || bad then r = nanCode f ∧ fl = (if sigBits f a || sigBits f b || bad then 1 else 0)
  else if infBits f a || infBits f b then r = withSign f neg (infCode f) ∧ fl = 0
  else if p = 0 then r = withSign f neg 0 ∧ fl = 0
  else Rounds f rm draw neg (ratio p (2 ^ unitExp f)) r fl

/-- a * b + c of three encodings, with one rounding (R52, R64, R167): 0 times infinity is invalid whatever c is. -/
def FmaIs (f : Fmt) (rm : RMode) (draw a b c r : Nat) (fl : FFlags) : Prop :=
  let nan := nanBits f a || nanBits f b || nanBits f c
  let bad := (infBits f a && absBits f b == 0) || (absBits f a == 0 && infBits f b)
  let neg := negBits f a != negBits f b
  let inf := infBits f a || infBits f b
  let opposite := inf && infBits f c && neg != negBits f c
  let p : Int := magOf f (absBits f a) * magOf f (absBits f b)
  let z := (if neg then -p else p) + unitsOf f c * 2 ^ unitExp f
  if nan || bad || opposite then
    r = nanCode f ∧ fl = (if sigBits f a || sigBits f b || sigBits f c || bad || (!nan && opposite) then 1 else 0)
  else if inf then r = withSign f neg (infCode f) ∧ fl = 0
  else if infBits f c then r = c ∧ fl = 0
  else if z = 0 then r = withSign f (if neg = negBits f c then neg else rm == .rdn) 0 ∧ fl = 0
  else Rounds f rm draw (z < 0) (ratio z.natAbs (2 ^ unitExp f)) r fl

/-- The smaller (max false) or the larger of two encodings (R52): the other operand for one NaN, and -0 below +0. -/
def MinMaxIs (f : Fmt) (max : Bool) (a b r : Nat) (fl : FFlags) : Prop :=
  let key (b : Nat) : Int := if negBits f b then -(absBits f b : Int) - 1 else absBits f b
  fl = (if sigBits f a || sigBits f b then 1 else 0) ∧
    r = if nanBits f a && nanBits f b then nanCode f else if nanBits f a then b else if nanBits f b then a
      else if decide (key a < key b) == max then b else a

/-- The quotient of two f32 encodings (R64, R168). -/
def QuotientIs (a b r : Nat) (fl : FFlags) : Prop :=
  let f := fmtF32
  let nan := nanBits f a || nanBits f b
  let bad := (infBits f a && infBits f b) || (absBits f a == 0 && absBits f b == 0)
  let neg := negBits f a != negBits f b
  if nan || bad then r = nanCode f ∧ fl = (if sigBits f a || sigBits f b || bad then 1 else 0)
  else if infBits f a then r = withSign f neg (infCode f) ∧ fl = 0
  else if infBits f b || absBits f a = 0 then r = withSign f neg 0 ∧ fl = 0
  else if absBits f b = 0 then r = withSign f neg (infCode f) ∧ fl = 2
  else Rounds f .rne 0 neg (ratio (magOf f (absBits f a) * 2 ^ 149) (magOf f (absBits f b))) r fl

/-- The square root of an f32 encoding, and 1 over it (R64, R168): the squares of parts of a unit are compared. -/
def RootIs (inverse : Bool) (a r : Nat) (fl : FFlags) : Prop :=
  let f := fmtF32
  let m := magOf f (absBits f a)
  if nanBits f a then r = nanCode f ∧ fl = (if sigBits f a then 1 else 0)
  else if absBits f a = 0 then (if inverse then r = withSign f (negBits f a) (infCode f) ∧ fl = 2 else r = a ∧ fl = 0)
  else if negBits f a then r = nanCode f ∧ fl = 1
  else if infBits f a then (if inverse then r = 0 ∧ fl = 0 else r = a ∧ fl = 0)
  else Rounds f .rne 0 false
    (fun n => if inverse then compare (n * n * m) (2 ^ 447 * unitParts ^ 2) else compare (n * n) (m * 2 ^ 149 * unitParts ^ 2)) r fl

/-- 2^a of an f32 encoding (R64, R168): a power of two for a whole number; of any other a the result lies between the powers of
two around it, and is inexact. -/
def Exp2Is (a r : Nat) (fl : FFlags) : Prop :=
  let f := fmtF32
  let v := unitsOf f a
  let k := v / 2 ^ 149
  if nanBits f a then r = nanCode f ∧ fl = (if sigBits f a then 1 else 0)
  else if infBits f a then r = (if negBits f a then 0 else infCode f) ∧ fl = 0
  else if v % 2 ^ 149 = 0 then
    if 128 ≤ k then r = infCode f ∧ fl = 0b10100
    else if -149 ≤ k then r < infCode f ∧ magOf f r = 2 ^ (149 + k).toNat ∧ fl = 0 else r = 0 ∧ fl = 0b11000
  else if 128 ≤ k then r = infCode f ∧ fl = 0b10100
  else
    r ≤ infCode f ∧ fl &&& 0b10111 = (if r = infCode f then 0b10100 else 0b10000) ∧
      (-149 ≤ k → 2 ^ (149 + k).toNat ≤ magOf f r) ∧ magOf f r ≤ 2 ^ (150 + k).toNat

/-- log2 a of an f32 encoding (R64, R168): a whole number for a power of two; of any other positive a the result lies between the
whole numbers around it, and is inexact. -/
def Log2Is (a r : Nat) (fl : FFlags) : Prop :=
  let f := fmtF32
  let m := magOf f (absBits f a)
  if nanBits f a then r = nanCode f ∧ fl = (if sigBits f a then 1 else 0)
  else if absBits f a = 0 then r = withSign f true (infCode f) ∧ fl = 2
  else if negBits f a then r = nanCode f ∧ fl = 1
  else if infBits f a then r = a ∧ fl = 0
  else
    let k : Int := (m.log2 : Int) - 149
    if m = 2 ^ m.log2 then unitsOf f r = k * 2 ^ 149 ∧ nanBits f r = false ∧ (k = 0 → r = 0) ∧ fl = 0
    else
      nanBits f r = false ∧ infBits f r = false ∧ k * 2 ^ 149 ≤ unitsOf f r ∧ unitsOf f r ≤ (k + 1) * 2 ^ 149 ∧ fl &&& 0b10111 = 0b10000

/-- The product of two l6 codes as `vmul.l6` delivers it (R57). -/
def L6ProductIs (a b r : Nat) (fl : FFlags) : Prop :=
  let s := (a / 32 + b / 32) % 2 * 32
  let q : Int := (a % 32 : Int) + (b % 32 : Int) - 16
  if a % 32 = 0 ∨ b % 32 = 0 then r = s ∧ fl = 0
  else if 31 < q then r = s + 31 ∧ fl = 0b10100
  else if q < 1 then r = s ∧ fl = 0b11000
  else r = s + q.toNat ∧ fl = 0

/-- The OR of flags over n elements (R65). -/
def orFlags (n : Nat) (f : Nat → FFlags) : FFlags := (List.range n).foldl (fun a i => a ||| f i) 0

/-- The significand of T[j], in units of 2^-23 (R54). -/
def l6Sig (j : Nat) : Nat := 2 ^ 23 + match j with | 0 => 0 | 1 => 0x1837F0 | 2 => 0x3504F3 | _ => 0x5744FD

/-- The value of an element that is no NaN and no infinity, as a sign and a fraction num / den (R49, R51, R54). -/
def fractionOf (ty : ElemTy) (b : Nat) : Bool × Nat × Nat :=
  match ty with
  | .i8 => (decide ((BitVec.ofNat 8 b).toInt < 0), (BitVec.ofNat 8 b).toInt.natAbs, 1)
  | .i32 => (decide ((BitVec.ofNat 32 b).toInt < 0), (BitVec.ofNat 32 b).toInt.natAbs, 1)
  | .l6 => (decide (b / 32 % 2 = 1), if b % 32 = 0 then 0 else l6Sig (b % 4) * 2 ^ (b / 4 % 8), 2 ^ 27)
  | _ => (negBits (elemFmt ty) b, magOf (elemFmt ty) (absBits (elemFmt ty) b), 2 ^ unitExp (elemFmt ty))

/-- Rounding a fraction with a sign to an integer of w bits, which saturates (R60, R61, R63). -/
def WholeIs (w : Nat) (rm : RMode) (draw : Nat) (neg : Bool) (num den r : Nat) (fl : FFlags) : Prop :=
  let lo := num / den
  let part := num % den
  let up := part != 0 && match rm with
    | .rne => decide (den < 2 * part) || (2 * part == den && lo % 2 == 1)
    | .rtz => false
    | .rup => !neg
    | .rdn => neg
    | .sr => decide (draw < part * 2 ^ 32 / den)
  let n : Int := (if up then lo + 1 else lo : Nat)
  let z : Int := if neg then -n else n
  let top : Int := (2 ^ (w - 1) : Nat)
  if z < -top then r = 2 ^ (w - 1) ∧ fl = 1
  else if top ≤ z then r = 2 ^ (w - 1) - 1 ∧ fl = 1
  else r = (z % (2 ^ w : Nat)).toNat ∧ fl = (if part = 0 then 0 else 0b10000)

/-- The conversion of a fraction that is not 0 to l6 (R58), where the fraction has the exponent k - 200. -/
def L6Is (neg : Bool) (num den r : Nat) (fl : FFlags) : Prop :=
  ∃ k : Nat, den * 2 ^ k ≤ num * 2 ^ 200 ∧ num * 2 ^ 200 < den * 2 ^ (k + 1) ∧
    let below (t : Nat) : Bool := decide (num * 2 ^ 223 < t * den * 2 ^ k)
    let frac := if below 0x8B95C2 then 0 else if below 0xA1DED4 then 1 else if below 0xBC1142 then 2
      else if below 0xDAE5C8 then 3 else 0
    let whole : Int := (k : Int) - 196 + (if below 0xDAE5C8 then 0 else 1)
    let s := if neg then 32 else 0
    if 7 < whole then r = s + 31 ∧ fl = 0b10100
    else if whole < 0 ∨ (whole = 0 ∧ frac = 0) then r = s ∧ fl = 0b11000
    else r = s + 4 * whole.toNat + frac ∧ fl = (if l6Sig frac * 2 ^ whole.toNat * den = num * 2 ^ 27 then 0 else 0b10000)

/-- The conversion of an element of type ts to type ty (R52, R58, R63): a NaN keeps its sign. -/
def ConvertIs (ty ts : ElemTy) (rm : RMode) (draw b r : Nat) (fl : FFlags) : Prop :=
  let fs := elemFmt ts
  let float := match ts with | .i8 | .i32 | .l6 => false | _ => true
  let nan := float && nanBits fs b
  let inf := float && infBits fs b
  let (neg, num, den) := fractionOf ts b
  let whole (w : Nat) : Prop :=
    if nan then r = 0 ∧ fl = 1 else if inf then r = (if neg then 2 ^ (w - 1) else 2 ^ (w - 1) - 1) ∧ fl = 1
    else WholeIs w rm draw neg num den r fl
  if ty = ts then r = b ∧ fl = 0
  else match ty with
  | .i8 => whole 8
  | .i32 => whole 32
  | .l6 =>
    if nan then r = 0 ∧ fl = 1 else if inf then r = (if neg then 32 else 0) + 31 ∧ fl = 0b10100
    else if num = 0 then r = (if neg then 32 else 0) ∧ fl = 0 else L6Is neg num den r fl
  | _ =>
    let f := elemFmt ty
    if nan then r = withSign f neg (nanCode f) ∧ fl = (if sigBits fs b then 1 else 0)
    else if inf then (if f.hasInf then r = withSign f neg (infCode f) ∧ fl = 0 else r = withSign f neg (maxCode f) ∧ fl = 0b10100)
    else if num = 0 then r = withSign f neg 0 ∧ fl = 0
    else Rounds f rm draw neg (ratio (num * 2 ^ unitExp f) den) r fl

/-- The combination of two running f32 values of a reduction or a scan (R66, R67). -/
def CombineIs (op : RedOp) (a b r : Nat) (fl : FFlags) : Prop :=
  match op with
  | .add => SumIs fmtF32 .rne 0 a b r fl
  | .min => MinMaxIs fmtF32 false a b r fl
  | .max => MinMaxIs fmtF32 true a b r fl

/-- The identity of a float reduction: -0, and the infinities (R66). -/
def redStart (op : RedOp) : Nat :=
  match op with
  | .add => 0x80000000
  | .min => 0x7F800000
  | .max => 0xFF800000

/-- The pairwise tree of a float reduction (R66, R175): w l i is place i of level l, in f32. Without an active element it
delivers the identity, and no flag. -/
def ReductionIs (op : RedOp) (ty : ElemTy) (act : Nat → Bool) (x : Nat → Nat) (r : Nat) (fl : FFlags) : Prop :=
  let n := elemCount ty
  ∃ (w : Nat → Nat → Nat) (f0 : Nat → FFlags) (f1 : Nat → Nat → FFlags) (f2 : FFlags),
    (∀ i, i < n → if act i then ConvertIs .f32 ty .rne 0 (x i) (w 0 i) (f0 i) else w 0 i = redStart op ∧ f0 i = 0) ∧
    (∀ l i, l < n.log2 → i < n / 2 ^ (l + 1) → CombineIs op (w l (2 * i)) (w l (2 * i + 1)) (w (l + 1) i) (f1 l i)) ∧
    ConvertIs ty .f32 .rne 0 (w n.log2 0) r f2 ∧
    fl = if (List.range n).any act then orFlags n f0 ||| orFlags n.log2 (fun l => orFlags (n / 2 ^ (l + 1)) (f1 l)) ||| f2 else 0

/-- A float scan (R67, R175): w i is the running f32 value before element i. -/
def ScanIs (op : RedOp) (ty : ElemTy) (act : Nat → Bool) (x old r : Nat → Nat) (fl : FFlags) : Prop :=
  let n := elemCount ty
  ∃ (w y : Nat → Nat) (f0 f1 f2 : Nat → FFlags), w 0 = redStart op ∧
    (∀ i, i < n → if act i then
        ConvertIs .f32 ty .rne 0 (x i) (y i) (f0 i) ∧ CombineIs op (w i) (y i) (w (i + 1)) (f1 i) ∧
          ConvertIs ty .f32 .rne 0 (w (i + 1)) (r i) (f2 i)
      else w (i + 1) = w i ∧ r i = old i ∧ f0 i = 0 ∧ f1 i = 0 ∧ f2 i = 0) ∧
    fl = orFlags n fun i => f0 i ||| f1 i ||| f2 i

/-- One step of the generator (R62). -/
def nextDraw (x : W32) : W32 :=
  let a := x ^^^ (x <<< 13)
  let b := a ^^^ (a >>> 17)
  b ^^^ (b <<< 5)

/-- The state of the generator after n draws. -/
def drawn (x : W32) (n : Nat) : W32 := Nat.repeat nextDraw n x


/-! ### Unit V: execution (R157 to R181) -/

/-- The entry at the head of the vector queue of core g has executed: it has left the queue and its result is to come with the flags
given, and no byte of memory has changed (R161, R162). -/
def VectorDone (s t : State) (g : Nat) (e : Entry) (rest : List Entry) (fl : BitVec 5) : Prop :=
  (t.aset g).vq = rest ∧ (t.aset g).vdone = (s.aset g).vdone ++ [{ e := e, fl := fl }] ∧ SameBytes s t

/-- An elementwise entry has executed without a flag: every active element of vd has its value, every other element and every other
register and mask keeps its own (R159, R161). -/
def LanesDone (s t : State) (g : Nat) (e : Entry) (rest : List Entry) (ty : ElemTy) (mk : MReg) (vd : VReg) (f : Nat → Nat) :
    Prop :=
  VectorDone s t g e rest 0 ∧
  (∀ i, i < elemCount ty → elem (vget (t.aset g).v vd) ty i =
    if ((s.aset g).mask mk).getLsbD i then f i else elem (vget (s.aset g).v vd) ty i) ∧
  (∀ r, r ≠ vd → vget (t.aset g).v r = vget (s.aset g).v r) ∧ (t.aset g).m = (s.aset g).m

/-- The vector engine executes the entry at the head of its queue, one instruction of the entry's in each clause: integer
arithmetic wraps, a shift of the width or more leaves 0 or the sign bits, the logical operations and the signs of floats act on
element bits (R50, R167, R169). The set does not leave its core (R325). -/
def Obligations.VectorElements : Prop :=
  ∀ (s : State) (g : Nat) (e : Entry) (rest : List Entry) (ty : ElemTy) (mk : MReg) (s2 : VSrc) (vs1 vd : VReg),
    (s.aset g).vq = e :: rest → (s.aset g).leaving = false → ty ≠ .l6 →
    let w := elemWidth ty
    let sg (n : Nat) : Int := (BitVec.ofNat w n).toInt
    let wrap (z : Int) : Nat := (z % (2 ^ w : Nat)).toNat
    let a (i : Nat) : Nat := elem (vget (s.aset g).v vs1) ty i
    let b (i : Nat) : Nat := (s.aset g).elemOperand ty s2 e.x0 i
    let c (i : Nat) : Nat := (s.aset g).countOperand ty s2 e.x0 i
    let lanes (i : Instr) (f : Nat → Nat) : Prop :=
      e.instr = i → ∃ t, exec (.vEntryExecute g) s = .next t ∧ LanesDone s t g e rest ty mk vd f
    (ty = .i8 ∨ ty = .i32 →
      lanes (.vadd ty mk s2 vs1 vd) (fun i => wrap (sg (a i) + sg (b i))) ∧
      lanes (.vsub ty mk s2 vs1 vd) (fun i => wrap (sg (a i) - sg (b i))) ∧
      lanes (.vmul ty mk s2 vs1 vd) (fun i => wrap (sg (a i) * sg (b i))) ∧
      lanes (.vmin ty mk s2 vs1 vd) (fun i => if sg (a i) ≤ sg (b i) then a i else b i) ∧
      lanes (.vmax ty mk s2 vs1 vd) (fun i => if sg (b i) ≤ sg (a i) then a i else b i) ∧
      lanes (.vabs ty mk vs1 vd) (fun i => wrap (sg (a i)).natAbs) ∧
      lanes (.vneg ty mk vs1 vd) (fun i => wrap (-sg (a i))) ∧
      lanes (.vshl ty mk s2 vs1 vd) (fun i => if w ≤ c i then 0 else a i * 2 ^ c i % 2 ^ w) ∧
      lanes (.vshr ty mk s2 vs1 vd) (fun i => if w ≤ c i then 0 else a i / 2 ^ c i) ∧
      lanes (.vsra ty mk s2 vs1 vd) (fun i =>
        wrap (if w ≤ c i then (if sg (a i) < 0 then -1 else 0) else sg (a i) / (2 ^ c i : Nat)))) ∧
    (ty ≠ .i8 → ty ≠ .i32 →
      lanes (.vabs ty mk vs1 vd) (fun i => a i % 2 ^ (w - 1)) ∧
      lanes (.vneg ty mk vs1 vd) (fun i => a i ^^^ 2 ^ (w - 1))) ∧
    lanes (.vand ty mk s2 vs1 vd) (fun i => a i &&& b i) ∧ lanes (.vor ty mk s2 vs1 vd) (fun i => a i ||| b i) ∧
    lanes (.vxor ty mk s2 vs1 vd) (fun i => a i ^^^ b i) ∧ lanes (.vnot ty mk vs1 vd) (fun i => 2 ^ w - 1 - a i)

/-- The moves and permutes copy element bits, of every type: `vsel` and `vcmpr` write every element, and `vpart` two registers (R171, R173,
R174). The set does not leave its core (R325). -/
def Obligations.VectorMoves : Prop :=
  ∀ (s : State) (g : Nat) (e : Entry) (rest : List Entry) (ty : ElemTy) (mk : MReg) (s2 : VSrc) (vs1 vs2 vd : VReg) (x : XReg)
    (down : Bool),
    (s.aset g).vq = e :: rest → (s.aset g).leaving = false →
    let n := elemCount ty
    let bits := if ty = .l6 then 6 else elemWidth ty
    let act := (s.aset g).mask mk
    let a (i : Nat) : Nat := elem (vget (s.aset g).v vs1) ty i
    let b (i : Nat) : Nat := elem (vget (s.aset g).v vs2) ty i
    let lanes (i : Instr) (mq : MReg) (f : Nat → Nat) : Prop :=
      e.instr = i → ∃ t, exec (.vEntryExecute g) s = .next t ∧ LanesDone s t g e rest ty mq vd f
    let j (i : Nat) : Nat := (vget (s.aset g).v vs2).toNat / 2 ^ (elemWidth ty * i) % 2 ^ elemWidth ty
    let k := match s2 with | .vi im => im.toNat | _ => e.x0.toNat
    let sel (want : Bool) (m : Nat) : List Nat := (List.range m).filter fun i => act.getLsbD i == want
    lanes (.vmov ty mk vs1 vd) mk a ∧
    lanes (.vbcast ty mk x vd) mk (fun _ => e.x0.toNat % 2 ^ bits) ∧
    lanes (.viota ty mk vd) mk (fun i => i % 2 ^ bits) ∧
    lanes (.vshuf ty mk vs2 vs1 vd) mk (fun i => if j i < n then a (j i) else 0) ∧
    lanes (.vslide false ty mk s2 vs1 vd) mk (fun i => if k ≤ i then a (i - k) else 0) ∧
    lanes (.vslide true ty mk s2 vs1 vd) mk (fun i => if i + k < n then a (i + k) else 0) ∧
    lanes (.vsel ty mk vs2 vs1 vd) 0 (fun i => if act.getLsbD i then a i else b i) ∧
    lanes (.vcmpr ty mk vs1 vd) 0 (fun i => match (sel true n)[i]? with | some p => a p | none => 0) ∧
    (e.instr = .vpart ty mk vd → ∃ t, exec (.vEntryExecute g) s = .next t ∧ VectorDone s t g e rest 0 ∧
      (∀ i, i < 64 → elem (vget (t.aset g).v vd) .i32 i = ((sel true 64)[i]?).getD 0xFFFFFFFF ∧
        elem (vget (t.aset g).v (vd + 1)) .i32 i = ((sel false 64)[i]?).getD 0xFFFFFFFF) ∧
      (∀ r, r ≠ vd → r ≠ vd + 1 → vget (t.aset g).v r = vget (s.aset g).v r) ∧ (t.aset g).m = (s.aset g).m)

/-- Masks, reductions and accumulator rows: an integer `vcmp`, `mset` and the mask operations write md, and no other mask and no v
register; an integer `vred` writes element 0 alone; `vlda` reads a row of a FULL tile, and 0 with mstat.stray past row 63, and
its form .last empties the tile; the set does not leave its core (R325). The result that follows completes the entry and ORs its flags (R65, R162, R170, R175, R176,
R181). -/
def Obligations.VectorMasks : Prop :=
  ∀ (s : State) (g : Nat) (e : Entry) (rest : List Entry) (ty : ElemTy) (mk md ma mb : MReg) (s2 : VSrc) (vs1 vd : VReg)
    (x : XReg) (acc : AccReg),
    let t := s.aset g
    let w := elemWidth ty
    let n := elemCount ty
    let sg (n : Nat) : Int := (BitVec.ofNat w n).toInt
    let a (i : Nat) : Int := sg (elem (vget t.v vs1) ty i)
    let b (i : Nat) : Int := sg (t.elemOperand ty s2 e.x0 i)
    let act := t.mask mk
    (t.vq = e :: rest → t.leaving = false →
      let masks (i : Instr) (f : Nat → Bool) : Prop :=
        md ≠ 0 → e.instr = i → ∃ u, exec (.vEntryExecute g) s = .next u ∧ VectorDone s u g e rest 0 ∧
          (∀ j, j < 256 → ((u.aset g).mask md).getLsbD j = f j) ∧ (∀ q, q ≠ md → (u.aset g).mask q = t.mask q) ∧
          (u.aset g).v = t.v
      let reduces (op : RedOp) (z : Int) : Prop :=
        e.instr = .vred op ty mk vs1 vd → ∃ u, exec (.vEntryExecute g) s = .next u ∧ VectorDone s u g e rest 0 ∧
          elem (vget (u.aset g).v vd) ty 0 = (z % (2 ^ w : Nat)).toNat ∧
          (∀ i, 0 < i → i < n → elem (vget (u.aset g).v vd) ty i = elem (vget t.v vd) ty i) ∧
          (∀ r, r ≠ vd → vget (u.aset g).v r = vget t.v r) ∧ (u.aset g).m = t.m
      let on := (List.range n).filter act.getLsbD
      (ty = .i8 ∨ ty = .i32 →
        masks (.vcmp .eq ty mk s2 vs1 md) (fun j => j < n && act.getLsbD j && a j == b j) ∧
        masks (.vcmp .ne ty mk s2 vs1 md) (fun j => j < n && act.getLsbD j && a j != b j) ∧
        masks (.vcmp .lt ty mk s2 vs1 md) (fun j => j < n && act.getLsbD j && decide (a j < b j)) ∧
        masks (.vcmp .le ty mk s2 vs1 md) (fun j => j < n && act.getLsbD j && decide (a j ≤ b j)) ∧
        reduces .add (on.map a).sum ∧
        reduces .min (on.foldl (fun m i => min m (a i)) (2 ^ (w - 1) - 1)) ∧
        reduces .max (on.foldl (fun m i => max m (a i)) (-(2 ^ (w - 1))))) ∧
      masks (.mset ty x md) (fun j => decide (j < e.x0.toNat) && decide (j < n)) ∧
      masks (.mand mb ma md) (fun j => (t.mask ma).getLsbD j && (t.mask mb).getLsbD j) ∧
      masks (.mor mb ma md) (fun j => (t.mask ma).getLsbD j || (t.mask mb).getLsbD j) ∧
      masks (.mxor mb ma md) (fun j => (t.mask ma).getLsbD j != (t.mask mb).getLsbD j) ∧
      masks (.mnot ma md) (fun j => !(t.mask ma).getLsbD j) ∧
      (∀ last, e.instr = .vlda last x acc vd →
        let tile := vget t.tile acc
        let others (u : State) : Prop := (u.aset g).vq = rest ∧ SameBytes s u ∧
          (∀ r, r ≠ vd → vget (u.aset g).v r = vget t.v r) ∧ (∀ q, q ≠ acc → vget (u.aset g).tile q = vget t.tile q)
        (64 ≤ e.x0.toNat → ∃ u, exec (.vEntryExecute g) s = .next u ∧ others u ∧ vget (u.aset g).v vd = 0 ∧
          (u.aset g).vdone = t.vdone ++ [{ e := e, mst := 0x20 }] ∧ vget (u.aset g).tile acc = tile) ∧
        (∀ row : BitVec 6, e.x0.toNat = row.toNat → tile.st = .full →
          ∃ u, exec (.vEntryExecute g) s = .next u ∧ others u ∧ vget (u.aset g).v vd = vget tile.rows row ∧
            (u.aset g).vdone = t.vdone ++ [{ e := e }] ∧
            (vget (u.aset g).tile acc).st = if last then .empty else .full))) ∧
    (∀ (d : VDone), t.vdone.find? (fun y => y.e.num = d.e.num) = some d → engQueue d.e.instr = .vec →
      ∃ u, exec (.vEntryResult g d.e.num) s = .next u ∧
        (u.aset g).vdone = t.vdone.filter (fun y => y.e.num != d.e.num) ∧
        (u.ctx g d.e.who).fstat = (s.ctx g d.e.who).fstat ||| d.fl ∧
        (u.ctx g d.e.who).mstat = (s.ctx g d.e.who).mstat ||| d.mst ∧
        (u.aset g).time .tlv = (t.time .tlv).complete d.e.num ∧ SameBytes s u)
/-- An elementwise entry has executed: every active element of vd and its flags are as rel says of its draw, any other element and
any other register keep their values, the flags of the elements join those of the entry, and every active element below the count
of those that draw has taken one draw of its context (R61, R62, R159, R162). -/
def FloatLanes (s t : State) (g : Nat) (e : Entry) (rest : List Entry) (ty : ElemTy) (mk : MReg) (vd : VReg) (drawing : Nat)
    (rel : Nat → Nat → Nat → FFlags → Prop) : Prop :=
  let act := (s.aset g).mask mk
  let before (i : Nat) : Nat := (List.range (min i drawing)).countP act.getLsbD
  let seed := (s.ctx g e.who).srst
  ∃ fl : Nat → FFlags, VectorDone s t g e rest (orFlags (elemCount ty) fl) ∧
    (∀ i, i < elemCount ty →
      if act.getLsbD i then rel (drawn seed (before (i + 1))).toNat i (elem (vget (t.aset g).v vd) ty i) (fl i)
      else elem (vget (t.aset g).v vd) ty i = elem (vget (s.aset g).v vd) ty i ∧ fl i = 0) ∧
    (∀ r, r ≠ vd → vget (t.aset g).v r = vget (s.aset g).v r) ∧ (t.aset g).m = (s.aset g).m ∧
    (t.ctx g e.who).srst = drawn seed (before drawing)

/-- Float arithmetic of the vector engine (R57, R60 to R62, R64, R167, R168): sums, differences, products and fused products are the
exact values rounded once in the entry's mode, with their flags; in mode SR every active element takes a draw. The smaller and
the larger of two follow R52, and `vmul.l6` multiplies codes. The functions of R168 are rounded in RNE whatever the mode: `vdiv`,
`vsqrt`, `vrcp` and `vrsq` to the nearest, and `vexp2` and `vlog2` exactly for whole numbers and powers of two and, of other
operands, between the powers of two or whole numbers around them (that no more is stated of these is the statement's limit;
the model's own precision is log entry 21). That a nonzero result which rounds to zero sets underflow is the model's reading of R64
(log entry 33). The set does not leave its core (R325). -/
def Obligations.FloatElements : Prop :=
  ∀ (s : State) (g : Nat) (e : Entry) (rest : List Entry) (ty : ElemTy) (rm : RMode) (mk : MReg) (s2 : VSrc) (vs1 vs2 vd : VReg),
    (s.aset g).vq = e :: rest → (s.aset g).leaving = false → e.rm = rm.code →
    let f := elemFmt ty
    let a (ty : ElemTy) (i : Nat) : Nat := elem (vget (s.aset g).v vs1) ty i
    let b (ty : ElemTy) (i : Nat) : Nat := (s.aset g).elemOperand ty s2 e.x0 i
    let c (i : Nat) : Nat := elem (vget (s.aset g).v vd) ty i
    let sr := if rm = .sr then elemCount ty else 0
    let lanes (i : Instr) (ty : ElemTy) (drawing : Nat) (rel : Nat → Nat → Nat → FFlags → Prop) : Prop :=
      e.instr = i → ∃ t, exec (.vEntryExecute g) s = .next t ∧ FloatLanes s t g e rest ty mk vd drawing rel
    (ty = .f32 ∨ ty = .bf16 ∨ ty = .e4m3 ∨ ty = .e5m2 →
      lanes (.vadd ty mk s2 vs1 vd) ty sr (fun d i => SumIs f rm d (a ty i) (b ty i)) ∧
      lanes (.vsub ty mk s2 vs1 vd) ty sr (fun d i => SumIs f rm d (a ty i) (b ty i ^^^ signUnit f)) ∧
      lanes (.vmul ty mk s2 vs1 vd) ty sr (fun d i => ProductIs f rm d (a ty i) (b ty i)) ∧
      lanes (.vfma ty mk s2 vs1 vd) ty sr (fun d i => FmaIs f rm d (a ty i) (b ty i) (c i)) ∧
      lanes (.vmin ty mk s2 vs1 vd) ty 0 (fun _ i => MinMaxIs f false (a ty i) (b ty i)) ∧
      lanes (.vmax ty mk s2 vs1 vd) ty 0 (fun _ i => MinMaxIs f true (a ty i) (b ty i))) ∧
    lanes (.vmul .l6 mk (.vv vs2) vs1 vd) .l6 0 (fun _ i => L6ProductIs (a .l6 i) (elem (vget (s.aset g).v vs2) .l6 i)) ∧
    lanes (.vdiv mk s2 vs1 vd) .f32 0 (fun _ i => QuotientIs (a .f32 i) (b .f32 i)) ∧
    lanes (.vsqrt mk vs1 vd) .f32 0 (fun _ i => RootIs false (a .f32 i)) ∧
    lanes (.vrcp mk vs1 vd) .f32 0 (fun _ i => QuotientIs 0x3F800000 (a .f32 i)) ∧
    lanes (.vrsq mk vs1 vd) .f32 0 (fun _ i => RootIs true (a .f32 i)) ∧
    lanes (.vexp2 mk vs1 vd) .f32 0 (fun _ i => Exp2Is (a .f32 i)) ∧
    lanes (.vlog2 mk vs1 vd) .f32 0 (fun _ i => Log2Is (a .f32 i))

/-- Conversions, comparisons, reductions and scans (R58, R60 to R63, R66, R67, R170, R172, R175): `vcvt` converts the elements that
both types have and makes the others 0, in the entry's mode, with a draw for each active element where its rounding is of that mode;
`vcmp` of floats; `vred` of floats by the pairwise tree, into element 0 alone; `vscan` of floats and of integers in ascending order,
with the inactive elements as they were. That a nonzero result which rounds to zero sets underflow is the model's reading of R64 (log
entry 33). The set does not leave its core (R325). -/
def Obligations.FloatReductions : Prop :=
  ∀ (s : State) (g : Nat) (e : Entry) (rest : List Entry) (ty ts : ElemTy) (rm : RMode) (op : RedOp) (rel : CmpRel)
    (mk md : MReg) (s2 : VSrc) (vs1 vd : VReg), (s.aset g).vq = e :: rest → (s.aset g).leaving = false →
    e.rm = rm.code →
    let t := s.aset g
    let n := elemCount ty
    let f := elemFmt ty
    let act (i : Nat) : Bool := (t.mask mk).getLsbD i
    let a (i : Nat) : Nat := elem (vget t.v vs1) ty i
    let b (i : Nat) : Nat := t.elemOperand ty s2 e.x0 i
    let old (i : Nat) : Nat := elem (vget t.v vd) ty i
    let float (ty : ElemTy) : Prop := ty = .f32 ∨ ty = .bf16 ∨ ty = .e4m3 ∨ ty = .e5m2
    let int (ty : ElemTy) : Prop := ty = .i8 ∨ ty = .i32
    let others (u : State) : Prop := (∀ r, r ≠ vd → vget (u.aset g).v r = vget t.v r) ∧ (u.aset g).m = t.m
    let byMode : Prop := rm = .sr ∧ ty ≠ ts ∧ ty ≠ .l6 ∧ ¬ (ty = .f32 ∧ ¬ int ts) ∧ ¬ (int ty ∧ int ts)
    (e.instr = .vcvt ty ts mk vs1 vd → ∀ drawing, (byMode → drawing = min n (elemCount ts)) → (¬ byMode → drawing = 0) →
      ∃ u, exec (.vEntryExecute g) s = .next u ∧ FloatLanes s u g e rest ty mk vd drawing (fun d i r fl =>
        if i < elemCount ts then ConvertIs ty ts rm d (elem (vget t.v vs1) ts i) r fl else r = 0 ∧ fl = 0)) ∧
    (e.instr = .vcmp rel ty mk s2 vs1 md → md ≠ 0 → float ty →
      let nan (i : Nat) : Bool := nanBits f (a i) || nanBits f (b i)
      let holds (i : Nat) : Bool := match rel with
        | .eq => !nan i && unitsOf f (a i) == unitsOf f (b i)
        | .ne => nan i || unitsOf f (a i) != unitsOf f (b i)
        | .lt => !nan i && decide (unitsOf f (a i) < unitsOf f (b i))
        | .le => !nan i && decide (unitsOf f (a i) ≤ unitsOf f (b i))
      let flagged (i : Nat) : Bool := sigBits f (a i) || sigBits f (b i) || (nan i && (rel == .lt || rel == .le))
      ∃ u, exec (.vEntryExecute g) s = .next u ∧
        VectorDone s u g e rest (if (List.range n).any fun i => act i && flagged i then 1 else 0) ∧ (u.aset g).v = t.v ∧
        (∀ j, j < 256 → ((u.aset g).mask md).getLsbD j = (decide (j < n) && act j && holds j)) ∧
        (∀ q, q ≠ md → (u.aset g).mask q = t.mask q)) ∧
    (e.instr = .vred op ty mk vs1 vd → float ty →
      ∃ u fl, exec (.vEntryExecute g) s = .next u ∧ VectorDone s u g e rest fl ∧
        ReductionIs op ty act a (elem (vget (u.aset g).v vd) ty 0) fl ∧ others u ∧
        ∀ i, 0 < i → i < n → elem (vget (u.aset g).v vd) ty i = old i) ∧
    (e.instr = .vscan op ty mk vs1 vd → float ty →
      ∃ u fl, exec (.vEntryExecute g) s = .next u ∧ VectorDone s u g e rest fl ∧
        ScanIs op ty act a old (elem (vget (u.aset g).v vd) ty) fl ∧ others u) ∧
    (e.instr = .vscan op ty mk vs1 vd → int ty →
      let w := elemWidth ty
      let sg (i : Nat) : Int := (BitVec.ofNat w (a i)).toInt
      let upTo (i : Nat) : List Int := ((List.range (i + 1)).filter act).map sg
      let value (i : Nat) : Int := match op with
        | .add => (upTo i).sum
        | .min => (upTo i).foldl min (2 ^ (w - 1) - 1)
        | .max => (upTo i).foldl max (-(2 ^ (w - 1)))
      ∃ u, exec (.vEntryExecute g) s = .next u ∧ VectorDone s u g e rest 0 ∧ others u ∧
        ∀ i, i < n → elem (vget (u.aset g).v vd) ty i = if act i then (value i % (2 ^ w : Nat)).toNat else old i)

/-- A byte as its core sees it: that of the youngest store of its buffer, or of memory (R253). -/
def sees (s : State) (g loc : Nat) : Byte :=
  match (s.core g).forward loc with
  | some p => p.1
  | none => s.mem.get loc

/-- A V entry has executed with the mstat bits given: it has left the queue and its result is to come (R161, R162). -/
def EntryDone (s t : State) (g : Nat) (e : Entry) (rest : List Entry) (mst : BitVec 8) : Prop :=
  (t.aset g).vq = rest ∧ (t.aset g).vdone = (s.aset g).vdone ++ [{ e := e, mst := mst }] ∧ (t.aset g).m = (s.aset g).m

/-- Bits of an element in memory: 6 for l6 (R157). -/
def memBits (ty : ElemTy) : Nat := if ty = .l6 then 6 else elemWidth ty

/-- The elements of vd have been loaded: active element i has the bits from bit pos i of a run of bytes at the locations loc, or 0
where it is skipped; the others and the other registers keep theirs, and no byte changes (R159, R177 to R179). -/
def Loaded (s t : State) (g : Nat) (ty : ElemTy) (vd : VReg) (act skip : Nat → Bool) (pos loc : Nat → Nat) : Prop :=
  (∀ i, i < elemCount ty →
    (act i = true → skip i = true → elem (vget (t.aset g).v vd) ty i = 0) ∧
    (act i = true → skip i = false → ∀ q, q < memBits ty →
      (elem (vget (t.aset g).v vd) ty i).testBit q = (sees s g (loc ((pos i + q) / 8))).getLsbD ((pos i + q) % 8)) ∧
    (act i = false → elem (vget (t.aset g).v vd) ty i = elem (vget (s.aset g).v vd) ty i)) ∧
  (∀ r, r ≠ vd → vget (t.aset g).v r = vget (s.aset g).v r) ∧ SameBytes s t

/-- The elements of vd have been stored, as the core sees its bytes: bit p of a run of bytes at the locations loc is that of the
highest element that covers it, and every other bit of every byte is as before (R163, R177 to R179). -/
def Stored (s t : State) (g : Nat) (ty : ElemTy) (vd : VReg) (on : Nat → Bool) (pos loc : Nat → Nat) : Prop :=
  let covers (i p : Nat) : Prop := i < elemCount ty ∧ on i = true ∧ pos i ≤ p ∧ p < pos i + memBits ty
  (∀ i p, covers i p → (∀ j, i < j → ¬ covers j p) →
    (sees t g (loc (p / 8))).getLsbD (p % 8) = (elem (vget (s.aset g).v vd) ty i).testBit (p - pos i)) ∧
  (∀ a b, b < 8 → (∀ i p, covers i p → a ≠ loc (p / 8) ∨ b ≠ p % 8) → (sees t g a).getLsbD b = (sees s g a).getLsbD b) ∧
  (t.aset g).v = (s.aset g).v

/-- V memory and ring entries (R157 to R163, R177 to R180), with the core's own vault: `vld` and `vst` of consecutive elements, and
`vldg` and `vsts` of elements at signed byte offsets, or of packed codes by their index, where a negative offset skips its element; a
stray pointer reads 0 and stores nothing, and sets mstat.stray when there is an element to access. `vldr` and `vstr` do the same in
the window of a ring from tail or from head, wrapping at its end, wait for a slot that is not filled or not free, and do nothing but
set mstat.stray, with 0 for `vldr`, where the ring or the window does not admit them. `vadv` frees and `vpub` publishes up to what is
filled or free, with mstat.stray past it; `vadv` first waits for the scalar loads of the core that have still bytes to read in a vault
(R142), and `vpub` for the vault stores of the buffer. No poison, no posted operation and no choice of the hardware to leave bytes for
later is about (R249, log entry 2), the die is in service, and the set does not leave its core (R325). That a load may leave bytes for
later, and the actions in which an entry is performed, are the model's choices (log entries 10 and 15). -/
def Obligations.VectorMemory : Prop :=
  ∀ (s : State) (g : Nat) (e : Entry) (rest : List Entry) (ty : ElemTy) (mk : MReg) (vs1 vd : VReg) (x : XReg) (h : HReg),
    let t := s.aset g
    let n := elemCount ty
    let act (i : Nat) : Bool := (t.mask mk).getLsbD i
    let offset (i : Nat) : Int := (BitVec.ofNat 32 (elem (vget t.v (vs1 + BitVec.ofNat 5 (i / 64))) .i32 (i % 64))).toInt
    let back (i : Nat) : Bool := decide (offset i < 0)
    let ahead (i : Nat) : Bool := act i && !back i
    let inRow (i : Nat) : Nat := memBits ty * i
    let atOffset (i : Nat) : Nat := if ty = .l6 then 6 * (offset i).toNat else 8 * (offset i).toNat
    let runs (i : Instr) : Prop := t.vq = e :: rest ∧ e.instr = i ∧ t.vprog = {} ∧ t.leaving = false
    let quiet : Prop := s.ops = [] ∧ s.mpois = [] ∧ s.oracle = [] ∧ t.vpois = Vector.replicate 32 0 ∧ g < 1024 ∧
      (s.die (g / 128)).fenced = false ∧ ∀ i, (s.core g).xfer t.sid (.vec i) = none
    let done (u : State) (mst : BitVec 8) : Prop := exec (.vEntryExecute g) s = .next u ∧ EntryDone s u g e rest mst
    let ring := vget t.ring h
    let size := 2 ^ ring.slot.toNat
    let count := 2 ^ ring.count.toNat
    let filled := (ring.head - ring.tail).toNat
    let off := e.x0.toNat
    let inRing (p : W32) (b : Nat) : Nat :=
      vaultLoc g (ring.base.toNat + (p.toNat + (off + b) / size) % count * size + (off + b) % size)
    let admitted (code : BitVec 2) : Prop := ring.slot ≠ 0 ∧ (code = 1 ∨ code = 3)
    let fits : Prop := off + memBits ty * n / 8 ≤ count * size
    let last := (off + memBits ty * n / 8 - 1) / size
    let inVault : Prop := ring.base.toNat + count * size ≤ 2 ^ 21
    (∀ o, quiet → s.eptr g e.x0 e.k0 = .vault g o →
      (runs (.vld ty mk x vd) → o + 256 ≤ 2 ^ 21 →
        ∃ u, done u 0 ∧ Loaded s u g ty vd act (fun _ => false) inRow fun b => vaultLoc g (o + b)) ∧
      (runs (.vst ty mk x vd) → o + 256 ≤ 2 ^ 21 → (s.core g).sb = [] →
        ∃ u, done u 0 ∧ Stored s u g ty vd act inRow fun b => vaultLoc g (o + b)) ∧
      ((∀ i, i < n → ahead i = true → o + atOffset i / 8 + 4 ≤ 2 ^ 21) →
        (runs (.vldg ty mk x vs1 vd) →
          ∃ u, done u 0 ∧ Loaded s u g ty vd act back atOffset fun b => vaultLoc g (o + b)) ∧
        (runs (.vsts ty mk x vs1 vd) → (s.core g).sb = [] →
          ∃ u, done u 0 ∧ Stored s u g ty vd ahead atOffset fun b => vaultLoc g (o + b)))) ∧
    (quiet → s.eptr g e.x0 e.k0 = .stray →
      let mst (some : Bool) : BitVec 8 := if some then 0x20 else 0
      (runs (.vld ty mk x vd) →
        ∃ u, done u (mst ((List.range n).any act)) ∧ Loaded s u g ty vd act (fun _ => true) inRow id) ∧
      (runs (.vldg ty mk x vs1 vd) →
        ∃ u, done u (mst ((List.range n).any ahead)) ∧ Loaded s u g ty vd act (fun _ => true) inRow id) ∧
      (runs (.vst ty mk x vd) → ∃ u, done u (mst ((List.range n).any act)) ∧ Stored s u g ty vd (fun _ => false) inRow id) ∧
      (runs (.vsts ty mk x vs1 vd) →
        ∃ u, done u (mst ((List.range n).any ahead)) ∧ Stored s u g ty vd (fun _ => false) inRow id)) ∧
    (runs (.vldr ty mk x h vd) →
      (¬ (admitted ring.consumer ∧ fits) → ∃ u, done u 0x20 ∧ Loaded s u g ty vd act (fun _ => true) inRow id) ∧
      (admitted ring.consumer → fits → filled ≤ last → exec (.vEntryExecute g) s = .next s) ∧
      (admitted ring.consumer → fits → last < filled → quiet → inVault →
        ∃ u, done u 0 ∧ Loaded s u g ty vd act (fun _ => false) inRow (inRing ring.tail))) ∧
    (runs (.vstr ty mk x h vd) →
      (¬ (admitted ring.producer ∧ fits) → ∃ u, done u 0x20 ∧ Stored s u g ty vd (fun _ => false) inRow id) ∧
      (admitted ring.producer → fits → count - filled ≤ last → exec (.vEntryExecute g) s = .next s) ∧
      (admitted ring.producer → fits → last < count - filled → quiet → inVault → (s.core g).sb = [] →
        ∃ u, done u 0 ∧ Stored s u g ty vd act inRow (inRing ring.head))) ∧
    (runs (.vadv x h) →
      (¬ admitted ring.consumer → ∃ u, done u 0x20 ∧ (u.aset g).ring = t.ring ∧ SameBytes s u) ∧
      (admitted ring.consumer → (s.core g).vaultDue = true → exec (.vEntryExecute g) s = .next s) ∧
      (admitted ring.consumer → (s.core g).vaultDue = false → ∃ u, done u (if filled < off then 0x20 else 0) ∧ SameBytes s u ∧
        (u.aset g).ring = vset t.ring h { ring with tail := ring.tail + BitVec.ofNat 32 (min off filled) })) ∧
    (runs (.vpub x h) →
      (¬ admitted ring.producer → ∃ u, done u 0x20 ∧ (u.aset g).ring = t.ring ∧ SameBytes s u) ∧
      (admitted ring.producer → (∀ y ∈ (s.core g).sb, ∀ b ∈ y.bytes, isVault b.1 = false) →
        ∃ u, done u (if count - filled < off then 0x20 else 0) ∧ SameBytes s u ∧
          (u.aset g).ring = vset t.ring h { ring with head := ring.head + BitVec.ofNat 32 (min off (count - filled)) }) ∧
      (admitted ring.producer → (∃ y ∈ (s.core g).sb, ∃ b ∈ y.bytes, isVault b.1 = true) →
        ∃ u, exec (.vEntryExecute g) s = .next u ∧ (u.aset g).vq = t.vq ∧ (u.aset g).ring = t.ring ∧ SameBytes s u ∧
          ∀ y ∈ (s.core g).sb, (∃ b ∈ y.bytes, isVault b.1 = true) →
            ((s.core g).sb.Pairwise fun y z => y.seq < z.seq) → y.seq ≤ (u.core g).drainTo))


/-! ### Tokens: walks, translation and occultation (R104 to R131) -/

/-- A new entry of a die's Pin Table and its token (R107, R114): the entry is LIVE with the generation that it had while FREE, and kd
names it with that generation. -/
structure TokenMade (s t : State) (g : Nat) (c : CtxId) (kd : KReg) (e : BitVec 20) (base len : W64) (rights : BitVec 4)
    (ms host phys : Bool) : Prop where
  token : vget (t.aset g).k kd =
    { pte := e, gen := (s.pin (g / 128) e).gen, rights := rights, ms := ms, host := host, valid := true
      lenm1 := BitVec.ofNat 40 (len.toNat - 1) }
  others : ∀ k, k ≠ kd → vget (t.aset g).k k = vget (s.aset g).k k
  state : (t.pin (g / 128) e).state = .live
  gen : (t.pin (g / 128) e).gen = (s.pin (g / 128) e).gen
  rights : (t.pin (g / 128) e).rights = rights
  ms : (t.pin (g / 128) e).ms = ms
  host : (t.pin (g / 128) e).host = host
  phys : (t.pin (g / 128) e).phys = phys
  tenant : (t.pin (g / 128) e).tenant = (s.aset g).tenant
  prin : (t.pin (g / 128) e).prin = (s.ctx g c).prin
  lenm1 : (t.pin (g / 128) e).lenm1 = BitVec.ofNat 40 (len.toNat - 1)
  base : (t.pin (g / 128) e).base = base
  holders : (t.pin (g / 128) e).holders = 1#128 <<< (g % 128)
  inflight : (t.pin (g / 128) e).inflight = 0
  goesOn : t.ctx g c = (s.ctx g c).goOn

/-- Making tokens (R107, R108, R110 to R118). `trn` takes a walker slot and holds its context, and a context without a slot holds until
one is free; the end of the walk makes the entry and the token from the frames and the host attribute that the walk found,
with the denied granules of the clearance set, or traps before the instruction with what the walk trapped on; `trnp` in
supervisor mode makes them from a physical extent, frame by frame, with no granule denied. The entry that the hardware
takes is FREE and not sealed, the list pool has room, and the register's old token names no such entry. Which entry it is
is a free choice (log entry 2); that `trnp` takes the addresses of its frames without bits [63:59], which R231 wants 0, is the model's
choice (log entry 60). -/
def Obligations.TokensMade : Prop :=
  ∀ (s : State) (g : Nat) (c : CtxId) (kd : KReg) (xa xlen : XReg) (rights : BitVec 4) (ms : Bool) (e : BitVec 20),
    let d := g / 128
    let takes (kd : KReg) (g : Nat) (p : Pin) : Prop :=
      e.toNat = s.choose.1 % 2 ^ 20 ∧ (s.pin (g / 128) e).state = .free ∧ (s.pin (g / 128) e).gen ≠ 0xFFF ∧
        (s.die (g / 128)).pool + p.poolBytes ≤ 2 ^ 29 ∧
        (vget (s.aset g).k kd).names e (s.pin (g / 128) e).gen = false
    (s.walks (s.curCore / 128) < 4096 →
      ∃ t, exec (.trn kd xa xlen rights ms) s = .next t ∧ t.me = s.me.holdAt s.clk (.walk kd (s.rx xa) (s.rx xlen) rights ms) ∧ SameBytes s t) ∧
    (4096 ≤ s.walks (s.curCore / 128) → ∃ t, exec (.trn kd xa xlen rights ms) s = .next t ∧ Waits s t .walker) ∧
    ((s.ctx g c).hold = .walker → s.walks d < 4096 →
      ∃ t, exec (.walkerSlotFree g c) s = .next t ∧ OnlyCtx g c s t ∧
        t.ctx g c = { s.ctx g c with st := .run, hold := .none }) ∧
    (∀ va len, (s.ctx g c).hold = .walk kd va len rights ms →
      (∀ fs host, s.walkExtent d (s.aset g).root.toNat va len rights ms = .frames fs host →
        let deny := s.denyBitmap d fs host len.toNat (s.ctx g c).clrptr
        takes kd g { frames := fs, deny := deny, lenm1 := BitVec.ofNat 40 (len.toNat - 1) } →
        ∃ t, exec (.trnWalkEnd g c) s = .next t ∧ TokenMade s t g c kd e va len rights ms host false ∧
          (t.pin d e).frames = fs ∧ (t.pin d e).deny = deny) ∧
      (∀ k v, s.walkExtent d (s.aset g).root.toNat va len rights ms = .trap k v →
        (s.core g).rec_ = none → s.checkTarget g c (s.ctx g c).tvec = .ok →
        ∃ t, exec (.trnWalkEnd g c) s = .next t ∧ Trapped s t g c k (BitVec.ofNat 64 v) (s.ctx g c).pc)) ∧
    (∀ host, let len := s.rx xlen
      let fs := if host then 16 else 21
      s.me.sup = true → len ≠ 0 → len.toNat ≤ 2 ^ 40 → (s.rx xa).toNat % 2 ^ fs = 0 →
      takes kd s.curCore { frames := List.replicate ((len.toNat + 2 ^ fs - 1) / 2 ^ fs) 0 } →
      ∃ t, exec (.trnp kd xa xlen rights ms host) s = .next t ∧
        TokenMade s t s.curCore s.curCtx kd e (s.rx xa) len rights ms host true ∧
        (t.pin (s.curCore / 128) e).deny = [] ∧
        (t.pin (s.curCore / 128) e).frames.length = (len.toNat + 2 ^ fs - 1) / 2 ^ fs ∧
        ∀ i, i < (len.toNat + 2 ^ fs - 1) / 2 ^ fs →
          ((t.pin (s.curCore / 128) e).frames.getD i 0).toNat = ((s.rx xa).toNat + i * 2 ^ fs) % 2 ^ 59)

/-- Occultation by a supervisor (R109, R122 to R126): `pocc` puts a LIVE entry in EBB with a probe for each holder, or in OCCULTED at
once when nothing holds it and nothing is in flight; `pocc.w` waits as long as the entry is in EBB; `pref` gives an OCCULTED
entry its new frames from the list and makes it LIVE, undenied for an xc whose value is 0, and else with the granules denied whose bits
are set in the bitmap there, and it changes nothing when the list pool has no room for that; `pret` frees it with the next
generation; `ptstat` reads its status. A register that names no entry does nothing, and `ptstat` of it reads all ones. The store
buffer is empty, and the list and the bitmap lie in the die's HBM; that one which is not aligned is read where it stands is the model's
choice (log entry 73). -/
def Obligations.Occultation : Prop :=
  ∀ (s : State) (xa xb xc xd : XReg) (e : BitVec 20), s.me.sup = true → (s.core s.curCore).sb = [] →
    let d := s.curCore / 128
    let p := s.pin d e
    let names : Prop := (s.rx xa).toNat = e.toNat
    let quiet : Prop := p.inflight = 0 ∧ p.holders = 0
    (names → p.state = .live →
      (∃ t, exec (.pocc xa) s = .next t ∧ t.me = s.me.goOn ∧ SameBytes s t ∧
        (quiet → t.pin d e = { p with state := .occulted, probes := 0 }) ∧
        (¬ quiet → t.pin d e = { p with state := .ebb, probes := p.holders })) ∧
      (∃ t, exec (.poccW xa) s = .next t ∧ SameBytes s t ∧
        (quiet → t.pin d e = { p with state := .occulted, probes := 0 } ∧ t.me = s.me.goOn) ∧
        (¬ quiet → t.pin d e = { p with state := .ebb, probes := p.holders } ∧
          t.me = s.me.holdAt s.clk (.occWait (.poccW xa) e 0)))) ∧
    (names → p.state ≠ .live →
      (∃ t, exec (.pocc xa) s = .next t ∧ t.me = s.me.goOn ∧ t.pin d e = p) ∧
      (p.state ≠ .ebb → ∃ t, exec (.poccW xa) s = .next t ∧ t.me = s.me.goOn ∧ t.pin d e = p)) ∧
    (names → p.state = .occulted → (s.rx xb).toNat + 8 * p.frames.length ≤ 0x1FC0000000 →
      s.rx xc = 0 ∨ (s.rx xc).toNat + p.lenm1.toNat / 2 ^ 19 < 0x1FC0000000 →
      let denied (i : Nat) : Bool := (s.mem.get (podAddr s d ((s.rx xc).toNat + i / 8))).getLsbD (i % 8)
      let deny := if s.rx xc = 0 then [] else (List.range (p.lenm1.toNat / 2 ^ 16 + 1)).filter denied
      let bytes := 8 * p.frames.length + if deny = [] then 0 else (p.lenm1.toNat / 2 ^ 16 + 8) / 8
      ((s.die d).pool - p.poolBytes + bytes ≤ 2 ^ 29 →
        ∃ t, exec (.pref xa xb xc) s = .next t ∧ t.me = s.me.goOn ∧ SameBytes s t ∧
          (t.die d).pool = (s.die d).pool - p.poolBytes + bytes ∧
          t.pin d e = { p with
            state := .live, deny := deny
            frames := (List.range p.frames.length).map fun i =>
              BitVec.ofNat 64 (s.readNat (podAddr s d ((s.rx xb).toNat + 8 * i)) 8 % 2 ^ 59) }) ∧
      (2 ^ 29 < (s.die d).pool - p.poolBytes + bytes →
        ∃ t, exec (.pref xa xb xc) s = .next t ∧ t.me = s.me.goOn ∧ SameBytes s t ∧ t.pin d e = p ∧
          (t.die d).pool = (s.die d).pool)) ∧
    (names → p.state = .occulted →
      ∃ t, exec (.pret xa) s = .next t ∧ t.me = s.me.goOn ∧ SameBytes s t ∧ t.pin d e = { gen := p.gen + 1 }) ∧
    (names → p.state = .ebb →
      (∃ t, exec (.pref xa xb xc) s = .next t ∧ t.me = s.me.holdAt s.clk (.occWait (.pref xa xb xc) e (s.core s.curCore).seq)) ∧
      (∃ t, exec (.pret xa) s = .next t ∧ t.me = s.me.holdAt s.clk (.occWait (.pret xa) e (s.core s.curCore).seq))) ∧
    (names → s.recording = none → Result (.ptstat xd xa) s xd (BitVec.ofNat 64
      ((match p.state with | .free => 0 | .live => 1 | .ebb => 2 | .occulted => 3)
        + (if p.state = .ebb ∧ p.probes = 0 then 8 else 0) + 16 * p.gen.toNat
        + 2 ^ 16 * (List.range 128).countP p.holders.getLsbD + 2 ^ 24 * min p.inflight 0xFFFFFF
        + 2 ^ 48 * min p.saved 0x7FFF + (if p.state = .free ∧ p.gen = 0xFFF then 2 ^ 63 else 0)))) ∧
    (2 ^ 20 ≤ (s.rx xa).toNat → s.recording = none →
      Result (.ptstat xd xa) s xd (BitVec.allOnes 64) ∧ (∃ t, exec (.pocc xa) s = .next t ∧ OnlyGoesOn s t) ∧
      (∃ t, exec (.poccW xa) s = .next t ∧ OnlyGoesOn s t) ∧ (∃ t, exec (.pref xa xb xc) s = .next t ∧ OnlyGoesOn s t) ∧
      (∃ t, exec (.pret xa) s = .next t ∧ OnlyGoesOn s t))

/-- What ends an occultation (R109, R122 to R125, R128): a holder acknowledges its probe and keeps of a line of the entry only the words
that it owns; a
request that is performed no longer counts; the last of them puts an entry in EBB in OCCULTED, and frees a LIVE one that
nothing holds; a context that stalls issues again once the entry is LIVE or FREE; a stall that goes on and reaches occtmo makes
its REVK pending, and its count starts again (that it takes the place of a pending REVK of an earlier overrun is the model's choice,
log entry 48); the wait of `pocc.w`, `pref` and `pret` for an entry to leave EBB ends at occtmo without
effect. -/
def Obligations.OccultationEvents : Prop :=
  ∀ (s : State) (g : Nat) (c : CtxId) (e : BitVec 20) (n : Nat) (src : StallSrc),
    let d := g / 128
    let p := s.pin d e
    let x := s.ctx g c
    (p.state = .ebb → p.probes.getLsbD (g % 128) = true → s.monitors = [] →
      let left := p.probes &&& ~~~(1#128 <<< (g % 128))
      (((s.core g).sb.all fun y => y.pte != some e) = true →
        ∃ t, exec (.holderProbe g e) s = .next t ∧ SameBytes s t ∧
          (t.core g).l1 = (s.core g).l1.filterMap (fun y =>
            if !p.ownsLine y.1 then some y else if y.2.own = 0 then none else some (y.1, { y.2 with words := y.2.own })) ∧
          t.pin d e = { p with probes := left, state := if p.inflight = 0 ∧ left = 0 then .occulted else .ebb }) ∧
      (∀ y ∈ (s.core g).sb, y.pte = some e → ((s.core g).sb.Pairwise fun a b => a.seq < b.seq) →
        ∃ t, exec (.holderProbe g e) s = .next t ∧ y.seq ≤ (t.core g).drainTo ∧ t.pin d e = p)) ∧
    (s.performed[n]? = some (d, e) →
      ∃ t, exec (.requestPerformed d n) s = .next t ∧ t.performed = s.performed.eraseIdx n ∧ SameBytes s t ∧
        (p.state = .ebb → t.pin d e =
          { p with inflight := p.inflight - 1, state := if p.inflight ≤ 1 ∧ p.probes = 0 then .occulted else .ebb }) ∧
        (p.state = .live → p.holders ≠ 0 ∨ p.saved ≠ 0 ∨ 1 < p.inflight → t.pin d e = { p with inflight := p.inflight - 1 }) ∧
        (p.state = .live → p.holders = 0 → p.saved = 0 → p.inflight ≤ 1 → t.pin d e = { gen := p.gen + 1 })) ∧
    (x.hold = .stall e → p.state = .live ∨ p.state = .free → s.expired g c x.occtmo = false →
      ∃ t, exec (.occultationStallResume g c) s = .next t ∧ OnlyCtx g c s t ∧ t.ctx g c = { x with st := .run, hold := .none }) ∧
    (x.hold = .stall e → s.expired g c x.occtmo = true → p.state = .ebb ∨ p.state = .occulted →
      ∃ t, exec (.occtmoOverrun g c .ctx) s = .next t ∧ OnlyCtx g c s t ∧
        t.ctx g c = { x with pend := { x.pend with overrun := some e }, waited := 0, waitMark := s.clk }) ∧
    (∀ y l r, src ≠ .ctx → (s.aset g).engStalls = l ++ y :: r → y.src = src → y.ctx = c → (∀ z ∈ l, z.src ≠ src ∨ z.ctx ≠ c) →
      x.occtmo ≠ 0 → x.occtmo.toNat ≤ y.count + (s.clk - y.mark) →
      (s.pin d y.pte).state = .ebb ∨ (s.pin d y.pte).state = .occulted →
      ∃ t, exec (.occtmoOverrun g c src) s = .next t ∧ t.ctx g c = { x with pend := { x.pend with overrun := some y.pte } } ∧
        SameBytes s t ∧ y ∉ (t.aset g).engStalls ∧ { y with count := 0, mark := s.clk } ∈ (t.aset g).engStalls) ∧
    (∀ i upTo, x.hold = .occWait i e upTo → s.expired g c x.occtmo = true → s.sbDone g upTo = true →
      (p.state = .ebb → ∃ t, exec (.occultationWaitTimeout g c) s = .next t ∧ OnlyCtx g c s t ∧ t.ctx g c = x.goOn) ∧
      (p.state ≠ .ebb → exec (.occultationWaitTimeout g c) s = .next s))

/-- The ends of waits and the asynchronous traps (R87, R88, R92, R239): a wait whose count reaches wdog traps WDOG with the
resource in tval, which is 0 for a wait for the store buffer or for accesses to leave the core (R88 lists no code for these: the
model's choice, log entry 57); a context that waits for a tag issues again when its die has one; a withdrawal is taken in any mode, and
the other causes in user mode or with ie set, in the order overrun, HOST, TIMER, before the context's next
instruction, in a set that does not leave its core (R325) and once the check of tvec of an earlier trap has ended (R93). -/
def Obligations.WaitsEndInTraps : Prop :=
  ∀ (s : State) (g : Nat) (c : CtxId) (pc : W64), (s.core g).rec_ = none → s.checkTarget g c (s.ctx g c).tvec = .ok →
    let x := s.ctx g c
    let open_ : Prop := x.sup = false ∨ x.tstat.getLsbD 1 = true
    (∀ tval : Nat, s.expired g c x.wdog = true →
      (match x.hold with
       | .queueFull q _ =>
         tval = 0x100 + (match q with | .vec => 0 | .mat => 1 | .str => 2 | .coll => 3 | .gal => 4 | .job => 5)
       | .ring _ h _ => tval = 0x200 + h.toNat
       | .twait tl _ => tval = 0x300 + (match tl with | .tlv => 0 | .tlm => 1 | .tls => 2 | .tlc => 3 | .tlg => 4)
       | .barrier _ sc b _ => tval = 0x400 + 8 * sc.code.toNat + b.toNat
       | .vector _ _ => tval = 0x500
       | .result k _ _ => tval = 0x600 + k.val
       | .buffer | .drain _ true => tval = 0
       | _ => False) →
      ∃ t, exec (.watchdogExpiry g c) s = .next t ∧ Trapped s t g c .wdog (BitVec.ofNat 64 tval) x.pc) ∧
    (x.hold = .tag → (s.die (g / 128)).tags.length < 4096 →
      ∃ t, exec (.tagFreeRelease g c) s = .next t ∧ OnlyCtx g c s t ∧ t.ctx g c = { x with st := .run, hold := .none }) ∧
    (x.st = .run → x.hold = .none → x.entering = false → (s.aset g).leaving = false →
      (x.seek = false ∧ pc = x.pc) ∨ (x.seek = true ∧ s.nextLane g c x.pc = .lane pc) →
      (∀ e, x.pend.withdraw = some e →
        ∃ t, exec (.asyncTrapTake g c) s = .next t ∧ Trapped s t g c .revk (e.setWidth 64) pc ∧
          (t.ctx g c).pend = { x.pend with withdraw := none, queues := [] }) ∧
      (x.pend.withdraw = none → open_ →
        (∀ e, x.pend.overrun = some e →
          ∃ t, exec (.asyncTrapTake g c) s = .next t ∧ Trapped s t g c .revk (BitVec.ofNat 64 (2 ^ 63 + e.toNat)) pc ∧
            (t.ctx g c).pend = { x.pend with overrun := none }) ∧
        (∀ n rest, x.pend.overrun = none → x.pend.host = n :: rest →
          ∃ t, exec (.asyncTrapTake g c) s = .next t ∧ Trapped s t g c .host (n.setWidth 64) pc ∧
            (t.ctx g c).pend = { x.pend with host := rest }) ∧
        (x.pend.overrun = none → x.pend.host = [] → x.pend.timer = true →
          ∃ t, exec (.asyncTrapTake g c) s = .next t ∧ Trapped s t g c .timer 0 pc ∧
            (t.ctx g c).pend = { x.pend with timer := false })) ∧
      (x.pend.withdraw = none → ¬ open_ → exec (.asyncTrapTake g c) s = .next s))

/-- Bits hi to lo of a word. -/
def bitsOf (x hi lo : Nat) : Nat := x / 2 ^ lo % 2 ^ (hi + 1 - lo)

/-- A walk's reads of the three levels for a virtual address (R110): the entries of levels 3, 2 and 1. -/
def tableWords (s : State) (d root va : Nat) : Nat × Nat × Nat :=
  let e3 := s.dieRead d (root + 8 * bitsOf va 47 39) 8
  let e2 := s.dieRead d (bitsOf e3 58 12 * 4096 + 8 * bitsOf va 38 30) 8
  (e3, e2, s.dieRead d (bitsOf e2 58 12 * 4096 + 8 * bitsOf va 29 21) 8)

/-- The leaf for a virtual address. -/
def leafOf (s : State) (d root va : Nat) : Nat := (tableWords s d root va).2.2

/-- A virtual address is mapped by its three entries (R111): each valid with its reserved bits 0, the leaf bit only at level 1, the
attributes 0 above it, and the low bits of the frame of a leaf that is no host leaf 0. -/
def isMapped (s : State) (d root va : Nat) : Prop :=
  let (e3, e2, e1) := tableWords s d root va
  let table (e : Nat) : Prop := bitsOf e 63 59 = 0 ∧ bitsOf e 11 1 = 0 ∧ bitsOf e 0 0 = 1
  table e3 ∧ table e2 ∧ bitsOf e1 63 59 = 0 ∧ bitsOf e1 11 8 = 0 ∧ bitsOf e1 1 0 = 3 ∧ (bitsOf e1 7 7 = 0 → bitsOf e1 20 12 = 0)

/-- The entry of the sub-table of a host leaf for a virtual address (R110, R111). -/
def hostEntry (s : State) (d root va : Nat) : Nat :=
  s.dieRead d (bitsOf (leafOf s d root va) 58 12 * 4096 + 8 * bitsOf va 20 16) 8

/-- An entry of a sub-table maps a host frame (R111). -/
def hostMapped (e : Nat) : Prop := bitsOf e 0 0 = 1 ∧ bitsOf e 15 1 = 0 ∧ bitsOf e 63 59 = 0

/-- The walk of `trn` from the bytes of the page tables (R110, R111, R114), and the entry, deny bitmap and pin record that it makes
(R112, R116, R117). A length that is 0 or past 2^40, or an extent past 2^48, traps TLEN with the length; an address off 64 KiB traps TLEN
with it; then the pages of 2 MiB go in rising order, and the first page that fails decides: TNM when it is not mapped; TLEN
when the address is off the extent's page size or the page is not of the first page's kind; TRT when its leaf lacks a right or,
for `trn.ms`, the attribute; TNM for the first frame of a host page that its sub-table does not map (after the page's other checks:
the model's choice, log entry 59). A page is named by its address, or in a host extent by the first address of the extent in
it. With no failure the entry holds each frame in order, and denies just the granules whose label is not cleared in the
clearance set (a granule outside HBM4E carries label 0: host memory, and an unpopulated address, log entry 8); the record is written at the head of the
context's event log, where the log and its descriptor lie in the die's HBM and apart. When no entry is FREE and unsealed, TPT with 0;
when the list pool has no room for the lists, TPT with 1. Which FREE entry is taken is a free choice (log entry 2). -/
def Obligations.PageWalks : Prop :=
  ∀ (s : State) (g : Nat) (c : CtxId) (kd : KReg) (va len : W64) (rights : BitVec 4) (ms : Bool) (e : BitVec 20),
    let d := g / 128
    let x := s.ctx g c
    let root := (s.aset g).root.toNat
    let v := va.toNat
    let n := len.toNat
    let first := v / 2 ^ 21 * 2 ^ 21
    let pages := (v + n - first + 2 ^ 21 - 1) / 2 ^ 21
    let host : Bool := decide (bitsOf (leafOf s d root first) 7 7 = 1)
    let size := if host then 2 ^ 16 else 2 ^ 21
    let leaf (i : Nat) : Nat := leafOf s d root (first + i * 2 ^ 21)
    let mapped (i : Nat) : Prop := isMapped s d root (first + i * 2 ^ 21)
    let sized (i : Nat) : Prop := v % size = 0 ∧ bitsOf (leaf i) 7 7 = bitsOf (leaf 0) 7 7
    let allowed (i : Nat) : Prop := (∀ j : Fin 4, rights.getLsbD j = true → (leaf i).testBit (2 + j) = true) ∧
      (ms = true → bitsOf (leaf i) 6 6 = 1)
    let frameMapped (j : Nat) : Prop := hostMapped (hostEntry s d root (v + j * 2 ^ 16))
    let granules := (n + 2 ^ 16 - 1) / 2 ^ 16
    let inPage (i j : Nat) : Prop := (v + j * 2 ^ 16) / 2 ^ 21 * 2 ^ 21 = first + i * 2 ^ 21
    let good (i : Nat) : Prop := mapped i ∧ sized i ∧ allowed i ∧ (host = true → ∀ j, j < granules → inPage i j → frameMapped j)
    let place (i : Nat) : Nat := if host = true then max (first + i * 2 ^ 21) v else first + i * 2 ^ 21
    let frames : List W64 := (List.range ((n + size - 1) / size)).map fun j =>
      if host then BitVec.ofNat 64 (bitsOf (hostEntry s d root (v + j * 2 ^ 16)) 58 16 * 2 ^ 16)
      else BitVec.ofNat 64 (bitsOf (leaf j) 58 21 * 2 ^ 21)
    let home (j : Nat) : Nat := (frames.getD (j * 2 ^ 16 / size) 0).toNat + j * 2 ^ 16 % size
    let label (j : Nat) : Nat :=
      if 0x2000000000 ≤ home j % 2 ^ 51 then 0
      else bitsOf (s.readNat (home j / 2 ^ 51 * 2 ^ 51 + 0x1FC4000000 + 2 * (home j % 2 ^ 51 / 2 ^ 16)) 2) 11 0
    let denied (j : Nat) : Bool :=
      decide (bitsOf (s.dieRead d (x.clrptr.toNat + label j / 8) 1) (label j % 8) (label j % 8) = 0)
    let deny : List Nat := (List.range granules).filter denied
    let room : Prop := (s.die d).pool + 8 * frames.length + (if deny = [] then 0 else (n + 2 ^ 19 - 1) / 2 ^ 19) ≤ 2 ^ 29
    let sound : Prop := 0 < n ∧ n ≤ 2 ^ 40 ∧ v + n ≤ 2 ^ 48
    let traps (k : Cause) (val : Nat) : Prop :=
      ∃ t, exec (.trnWalkEnd g c) s = .next t ∧ Trapped s t g c k (BitVec.ofNat 64 val) x.pc
    x.hold = .walk kd va len rights ms → (s.core g).rec_ = none → s.checkTarget g c x.tvec = .ok →
    (¬ sound → traps .tlen n) ∧
    (sound → v % 2 ^ 16 ≠ 0 → traps .tlen v) ∧
    (sound → v % 2 ^ 16 = 0 →
      (∀ i, i < pages → (∀ i', i' < i → good i') →
        (¬ mapped i → traps .tnm (if i = 0 then first else place i)) ∧
        (mapped i → ¬ sized i → traps .tlen (place i)) ∧
        (mapped i → sized i → ¬ allowed i → traps .trt (place i)) ∧
        (mapped i → sized i → allowed i → host = true →
          ∀ j, j < granules → inPage i j → ¬ frameMapped j → (∀ j', j' < j → inPage i j' → frameMapped j') → traps .tnm (v + j * 2 ^ 16))) ∧
      ((∀ i, i < pages → good i) → (∀ k, (s.pin d k).state ≠ .free ∨ (s.pin d k).gen = 0xFFF) → traps .tpt 0) ∧
      ((∀ i, i < pages → good i) → e.toNat = s.choose.1 % 2 ^ 20 → (s.pin d e).state = .free → (s.pin d e).gen ≠ 0xFFF →
        (¬ room → traps .tpt 1) ∧
        (room → (vget (s.aset g).k kd).names e (s.pin d e).gen = false →
          ∃ t, exec (.trnWalkEnd g c) s = .next t ∧ TokenMade s t g c kd e va len rights ms host false ∧
            (t.pin d e).frames = frames ∧ (t.pin d e).deny = deny ∧
            let a := podAddr s d x.evptr.toNat
            let head := s.readNat (a + 16) 8
            (s.MemOk → x.evptr.toNat + 64 ≤ 0x1FC0000000 → t.readNat (a + 16) 8 = (head + 1) % 2 ^ 64 ∧
              (s.readNat (a + 8) 4 = 4 → s.readNat a 8 % 32 = 0 → s.readNat a 8 + 512 ≤ x.evptr.toNat →
                t.mem.read (podAddr s d (s.readNat a 8 + 32 * (head % 16))) 32 =
                  leBytes 8 s.cycle.toNat ++ leBytes 4 x.prin.toNat ++ leBytes 2 (s.aset g).reqtag.toNat ++ [0x02] ++
                    leBytes 1 c.val ++ leBytes 6 v ++ leBytes 5 (n - 1) ++
                    leBytes 4 (e.toNat + 2 ^ 20 * (s.pin d e).gen.toNat) ++
                    leBytes 1 (rights.toNat + (if ms then 16 else 0) + (if host then 32 else 0)))))))

/-! ### Unit Y: atomics, fences, timelines, barriers, waits (R211 to R230) -/

/-- An order that releases, at a scope that reaches beyond the core (R214). -/
def releasesWide (ord : Order) (sc : Scope) : Bool :=
  (match ord with | .rel | .ar | .sc => true | _ => false) && (match sc with | .lane | .core => false | _ => true)

/-- The integer operations of R217 on words of w bits. -/
def amoResult (op : AmoOp) (w m v : Nat) : Nat :=
  let sg (n : Nat) : Int := (BitVec.ofNat w n).toInt
  match op with
  | .add => (m + v) % 2 ^ w
  | .min => if sg m ≤ sg v then m else v
  | .max => if sg v ≤ sg m then m else v
  | .minu => min m v
  | .maxu => max m v
  | .and => m &&& v
  | .or => m ||| v
  | .xor => m ^^^ v
  | .swp => v

/-- The issue of atomics (R211 to R219): `amo`, `cas` and `stf` whose operands pass the checks of R212 enter the core's order as an
operation on their location with the release condition of their order and scope, and hold their context for the old value; a
posted `amo` (x0 and .rlx) and every `stf` go on. A misaligned `amo` or `cas` performs nothing, reads 0 and sets mstat.stray.
An aligned address of the core's own vault is such a location. No V store of the core is under way. -/
def Obligations.AtomicsIssue : Prop :=
  ∀ (s : State) (op : AmoOp) (ty : AmoTy) (ord : Order) (sc : Scope) (dbl : Bool) (xd xp xv xe xf : XReg)
    (a b : Nat) (tok tokf : Option Token), noVStore s →
    let g := s.curCore
    let size := match ty with | .d => 8 | _ => 4
    let csize := if dbl then 8 else 4
    let enters (i : Instr) (n : Nat) (v vexp : W64) (flag : Option Nat) (posted : Bool) (after : Nat) (hold : Hold) : Prop :=
      ∃ t o, exec i s = .next t ∧ fget t.ops s.nextId = some o ∧ o.core = g ∧ o.sid = s.mySet.sid ∧ o.ctx = s.curCtx ∧
        o.instr = i ∧ o.loc = a ∧ o.size = n ∧ o.v = v ∧ o.vexp = vexp ∧ o.flag = flag ∧ o.onFlag = false ∧
        o.posted = posted ∧ o.seq = (s.core g).seq + 1 ∧ o.after = after ∧ o.pos = .waiting ∧ o.ticket = none ∧
        o.pte = tok.map (·.pte) ∧ (t.core g).seq = (s.core g).seq + 1 ∧ SameBytes s t ∧
        t.me = (match hold with | .none => s.me.goOn | h => s.me.holdAt s.clk h)
    let after := if releasesWide ord sc then (s.core g).seq + 1 else 0
    (s.atomAt (s.rx xp) size 4 ByteFail.bothBits = .loc a tok →
      (¬ (xd = 0 ∧ ord = .rlx) →
        enters (.amo op ty ord sc xd xp xv) size (s.rx xv) 0 none false after (.reply s.nextId)) ∧
      (xd = 0 ∧ ord = .rlx → enters (.amo op ty ord sc xd xp xv) size (s.rx xv) 0 none true 0 .none)) ∧
    (s.atomAt (s.rx xp) csize 4 ByteFail.bothBits = .loc a tok →
      enters (.cas dbl ord sc xd xp xe xv) csize (s.rx xv) (s.rx xe) none false after (.reply s.nextId)) ∧
    (s.atomAt (s.rx xp) 8 2 ByteFail.writeBit = .loc a tok → s.atomAt (s.rx xf) 8 4 ByteFail.bothBits = .loc b tokf →
      enters (.stf xp xv xf) 8 (s.rx xv) 0 (some b) true 0 .none) ∧
    (∀ i n, (i = .amo op ty ord sc xd xp xv ∧ n = size) ∨ (i = .cas dbl ord sc xd xp xe xv ∧ n = csize) →
      (s.rx xp).toNat % n ≠ 0 →
      ∃ t, exec i s = .next t ∧ (xd ≠ 0 → t.rx xd = 0) ∧ OtherX s t xd ∧ t.me.mstat = s.me.mstat ||| 0x20 ∧
        t.me.seek = true ∧ t.ops = s.ops ∧ SameBytes s t) ∧
    (∀ (p : W64) (n : Nat) (need : BitVec 4) (bit : ByteFail → BitVec 8), n = 4 ∨ n = 8 → p.toNat % n = 0 →
      p.toNat < 2 ^ 21 → s.atomAt p n need bit = .loc (vaultLoc g p.toNat) none)

/-- Atomics at their homes (R211, R214, R216 to R219): an .sc operation whose earlier accesses are done takes the next ticket of
its scope's sequencer; an operation whose turn has come, with a home on its core's die, reads and writes its location in one
step, and no other byte, once no step pins the line (R194) (`amo.add.f` and `amo.add.h2` add with one rounding to nearest, each half of h2 by itself); an
`stf` writes its data and then turns to its flag, which it raises by 1; the old value returns to
the context that holds for it, an acquire beyond the core discards the core's copies, and a posted operation returns only
its flags. No word is poisoned. -/
def Obligations.AtomicsPerform : Prop :=
  ∀ (s : State) (n : Nat) (o : HomeOp) (op : AmoOp) (ty : AmoTy) (ord : Order) (sc : Scope) (dbl : Bool)
    (xd xp xv xe xf : XReg), fget s.ops n = some o →
    let g := o.core
    let m := s.readNat o.loc o.size
    let w := 8 * o.size
    let v := o.v.toNat % 2 ^ w
    let via : Via := { phys := (match o.pte with | some e => (s.pin (g / 128) e).phys | none => false), host := o.host }
    let ready : Prop := o.pos = .waiting ∧ s.covered o = true ∧ s.inOrder n o = true ∧ s.ticketTurn n o = true ∧
      s.addrFate g o.loc via = .ok ∧ s.remote g o.loc via = false ∧ s.pinned (o.loc / 64) = false ∧ s.mpois = [] ∧
      o.poison = false ∧ s.MemOk
    let writes (new : Nat) (o' : HomeOp) : Prop := ready → ∃ t, exec (.homeOperation n) s = .next t ∧
      t.readNat o.loc o.size = new ∧ (∀ a, a < o.loc ∨ o.loc + o.size ≤ a → t.mem.get a = s.mem.get a) ∧
      fget t.ops n = some o'
    let finished (fl : FFlags) : HomeOp := { o with pos := .done (BitVec.ofNat 64 m) fl false }
    let done : HomeOp := finished 0
    let sums (t : State) (fl : FFlags) : Prop := (∀ a, a < o.loc ∨ o.loc + o.size ≤ a → t.mem.get a = s.mem.get a) ∧
      fget t.ops n = some (finished fl)
    (o.instr = .amo op ty ord sc xd xp xv → o.flag = none →
      (ty = .w ∧ o.size = 4) ∨ (ty = .d ∧ o.size = 8) → writes (amoResult op w m v) done) ∧
    (o.instr = .amo .add .f ord sc xd xp xv → o.flag = none → o.size = 4 → ready →
      ∃ t fl, exec (.homeOperation n) s = .next t ∧ SumIs fmtF32 .rne 0 m v (t.readNat o.loc 4) fl ∧ sums t fl) ∧
    (o.instr = .amo .add .h2 ord sc xd xp xv → o.flag = none → o.size = 4 → ready →
      ∃ t f1 f2, exec (.homeOperation n) s = .next t ∧ sums t (f1 ||| f2) ∧
        SumIs fmtBf16 .rne 0 (m % 2 ^ 16) (v % 2 ^ 16) (t.readNat o.loc 4 % 2 ^ 16) f1 ∧
        SumIs fmtBf16 .rne 0 (m / 2 ^ 16) (v / 2 ^ 16) (t.readNat o.loc 4 / 2 ^ 16) f2) ∧
    (o.instr = .cas dbl ord sc xd xp xe xv → o.flag = none → o.size = (if dbl then 8 else 4) →
      writes (if m = o.vexp.toNat % 2 ^ w then v else m) done) ∧
    (∀ f, o.instr = .stf xp xv xf → o.size = 8 → o.flag = some f →
      (o.onFlag = false → writes v
        { o with loc := f, pte := o.flagPte, ms := o.flagMs, host := o.flagHost, onFlag := true, pos := .waiting }) ∧
      (o.onFlag = true → writes ((m + 1) % 2 ^ 64) done)) ∧
    (o.pos = .waiting → o.ticket = none → o.order = (.sc, sc) → s.covered o = true → s.sequencerOk o = true →
      ∃ t, exec (.scTicket n) s = .next t ∧ SameBytes s t ∧
        match sc with
        | .pkg => fget t.ops n = some { o with ticket := some (sc, s.pkgTicket) } ∧ t.pkgTicket = (s.pkgTicket + 1) % 2 ^ 64
        | .pod => fget t.ops n = some { o with ticket := some (sc, s.podTicket) } ∧ t.podTicket = (s.podTicket + 1) % 2 ^ 64
        | _ => fget t.ops n = some { o with ticket := some (sc, (s.die (g / 128)).ticket) } ∧
            (t.die (g / 128)).ticket = ((s.die (g / 128)).ticket + 1) % 2 ^ 64) ∧
    (∀ old fl psn, o.pos = .done old fl psn → o.flag = none ∨ o.onFlag = true →
      s.reqs.all (fun e => e.2.what != .op n || e.2.dropped) = true → o.sid = (s.aset g).sid →
      let x := s.ctx g o.ctx
      let flags (t : State) : Prop := (t.ctx g o.ctx).fstat = x.fstat ||| fl ∧
        (t.ctx g o.ctx).mstat = x.mstat ||| (if psn then 0x40 else 0) ∧ t.ops = fdel s.ops n ∧ SameBytes s t
      (o.posted = true → ∃ t, exec (.atomicReply n) s = .next t ∧ flags t ∧ (t.ctx g o.ctx).hold = x.hold) ∧
      (∀ (i : Instr) (wide : Bool), o.posted = false → o.instr = i → x.hold = .reply n →
        i = .amo op ty ord sc xd xp xv ∧ wide = (ty == .d) ∨ i = .cas dbl ord sc xd xp xe xv ∧ wide = dbl →
        ∃ t, exec (.atomicReply n) s = .next t ∧ flags t ∧ (t.ctx g o.ctx).hold = .none ∧ (t.ctx g o.ctx).seek = true ∧
          (xd ≠ 0 → (t.ctx g o.ctx).rx xd = if wide then old else (old.setWidth 32).signExtend 64) ∧
          (∀ r, r ≠ xd → (t.ctx g o.ctx).rx r = x.rx r) ∧
          (t.core g).l1 = if (match ord with | .acq | .ar | .sc => true | _ => false) && (match sc with | .lane | .core => false | _ => true)
            then ownedWords (s.core g).l1 else (s.core g).l1))

/-- Fences and timelines (R78, R94, R220 to R225): `fence` writes the failure record and clears it, at once within the core, and
beyond it once the core's stores and posted operations are done, when it discards the core's copies; `xfence` goes on once the
buffer has emptied; `rosync` discards the read-only lines of the quad; `twait` goes on once the completed count has
reached its number, and one of tlc that covers a failed `clpeel.t` traps CPEEL with its number first; `tliss` reads the issue
count.
RVFENCE only goes on; RVFENCE.I, once every store of the core has left its buffer, discards the core's fetch buffer and
goes on (R78, R79). -/
def Obligations.FencesAndTimelines : Prop :=
  (∀ (s : State) (sc : Scope) (xd xn : XReg) (tl : Timeline) (g : Nat) (c : CtxId),
    let me := s.curCore
    let wide := match sc with | .lane | .core => false | _ => true
    let word (f : FailRec) : W64 := BitVec.ofNat 64
      (f.count.toNat * 2 ^ 16 + (if f.psn then 8 else 0) + (if f.lost then 4 else 0) + (if f.refused then 2 else 0)
        + (if f.dead then 1 else 0))
    let ends (t : State) (g : Nat) (c : CtxId) : Prop :=
      (xd ≠ 0 → (t.ctx g c).rx xd = word (s.ctx g c).fail) ∧ (t.ctx g c).fail = {} ∧ (t.ctx g c).hold = .none ∧
        (t.ctx g c).seek = true ∧ (∀ r, r ≠ xd → (t.ctx g c).rx r = (s.ctx g c).rx r) ∧
        (t.core g).l1 = (if wide then ownedWords (s.core g).l1 else (s.core g).l1) ∧ SameBytes s t
    let reached (g : Nat) (c : CtxId) (n : W64) (i : Instr) : Prop :=
      n.toNat ≤ ((s.aset g).time tl).done →
        (tl ≠ .tlc ∨ (∀ k ∈ (s.ctx g c).peels, n.toNat < k) →
          ∃ t, exec i s = .next t ∧ t.ctx g c = (s.ctx g c).goOn ∧ SameBytes s t ∧
            (t.core g).l1 = if tl = .tlv then (s.core g).l1 else ownedWords (s.core g).l1) ∧
        (∀ k, tl = .tlc → k ∈ (s.ctx g c).peels → k ≤ n.toNat → (∀ j ∈ (s.ctx g c).peels, k ≤ j) →
          s.checkTarget g c (s.ctx g c).tvec = .ok →
          ∃ t, exec i s = .next t ∧ Trapped s t g c .cpeel (BitVec.ofNat 64 k) (s.ctx g c).pc ∧
            k ∉ (t.ctx g c).peels)
    ((wide = false ∨ s.storesDone me (s.core me).seq = true) → ∃ t, exec (.fence sc xd) s = .next t ∧ ends t me s.curCtx) ∧
    (wide = true → s.storesDone me (s.core me).seq = false →
      ∃ t, exec (.fence sc xd) s = .next t ∧ t.me = s.me.holdAt s.clk (.fence sc xd (s.core me).seq) ∧
        (s.core me).seq ≤ (t.core me).drainTo ∧ SameBytes s t) ∧
    (∀ n, (s.ctx g c).hold = .fence sc xd n → s.storesDone g n = true →
      ∃ t, exec (.fenceComplete g c) s = .next t ∧ ends t g c) ∧
    ((s.core me).sb = [] → ∃ t, exec .xfence s = .next t ∧ t.me = s.me.goOn ∧ SameBytes s t) ∧
    (s.sbDone me (s.core me).seq = false →
      ∃ t, exec .xfence s = .next t ∧ t.me = s.me.holdAt s.clk (.drain (s.core me).seq false) ∧
        (s.core me).seq ≤ (t.core me).drainTo ∧ SameBytes s t) ∧
    ((s.ro.map Prod.fst).Nodup → ∃ t, exec .rosync s = .next t ∧ t.me = s.me.goOn ∧ fget t.ro (me / 4) = none ∧
      (∀ q, q ≠ me / 4 → fget t.ro q = fget s.ro q) ∧ SameBytes s t) ∧
    reached me s.curCtx (s.rx xn) (.twait tl xn) ∧
    (((s.aset me).time tl).done < (s.rx xn).toNat →
      ∃ t, exec (.twait tl xn) s = .next t ∧ t.me = s.me.holdAt s.clk (.twait tl (s.rx xn)) ∧ SameBytes s t) ∧
    (∀ n, (s.ctx g c).hold = .twait tl n → s.expired g c (s.ctx g c).wdog = false → reached g c n (.twaitComplete g c)) ∧
    Result (.tliss xd tl) s xd (BitVec.ofNat 64 (s.mySet.time tl).issued)) ∧
  (∀ (s : State) (p q : BitVec 4) (rd rs1 : XReg),
    (∃ t, exec (.rvfence p q rd rs1) s = .next t ∧ OnlyGoesOn s t) ∧
    ((s.core s.curCore).sb = [] → ∃ t, exec .rvfenceI s = .next t ∧ (t.core s.curCore).fetch = [] ∧ t.me = s.me.goOn ∧
      (∀ h, h ≠ s.curCore → t.core h = s.core h) ∧ SameBytes s t))

/-- Barriers of a CONC job (R226 to R229): `bar.arv` sends an arrival with the context's number, which it writes to xd and raises;
`bar.wt` waits until the phase it names has completed; `bar.aw` does both, and re-entered only waits; `bar.stat` reads the
instance and clears its overrun; an arrival is counted, and the last one expected completes the phase; a waiter whose phase
has completed goes on, and beyond the core its copies go. In a job of another class each traps BARC. That each context keeps its own
pending arrivals (log entry 54), and that `bar.stat` answers at its issue (log entry 41), are the model's choices. -/
def Obligations.Barriers : Prop :=
  ∀ (s : State) (sc : Scope) (b : BitVec 3) (xd xp : XReg) (g : Nat) (c : CtxId) (n : Nat), sc ≠ .lane →
    let me := s.curCore
    let wide := sc ≠ .core
    let member (g : Nat) : Nat := match sc with | .core | .lane => g | .quad => g / 4 | .die => g / 128 | _ => 0
    let inst (g : Nat) : BarInst := s.barrier ((s.aset g).card.getD 0) sc (member g) b
    let later (p q : W32) : Prop := (q - p).toInt < 0
    let q := nget s.me.arrive (barIdx sc b)
    let arrival : Arrival :=
      { card := s.mySet.card.getD 0, sc := sc, member := member me, b := b, q := q, core := me, sid := s.mySet.sid
        ctx := s.curCtx, after := if sc = .core then 0 else (s.core me).seq }
    let clear (t : State) : Prop := t.me.barPend = s.me.barPend &&& ~~~(1#40 <<< (barIdx sc b).val)
    let discards (t : State) (g : Nat) : Prop := (t.core g).l1 = if sc = .core then (s.core g).l1 else ownedWords (s.core g).l1
    (s.mySet.cls = 2 →
      (∃ t, exec (.barArv sc b xd) s = .next t ∧ t.arrivals = s.arrivals ++ [arrival] ∧ (xd ≠ 0 → t.rx xd = q.setWidth 64) ∧
        OtherX s t xd ∧ nget t.me.arrive (barIdx sc b) = q + 1 ∧ clear t ∧ t.me.seek = true ∧
        (wide → (s.core me).seq ≤ (t.core me).drainTo) ∧ SameBytes s t) ∧
      (later (inst me).phase ((s.rx xp).setWidth 32) →
        ∃ t, exec (.barWt sc b xp) s = .next t ∧ t.me.hold = .none ∧ t.me.seek = true ∧ clear t ∧ discards t me ∧
          (∀ r, t.rx r = s.rx r) ∧ SameBytes s t) ∧
      (¬ later (inst me).phase ((s.rx xp).setWidth 32) →
        ∃ t, exec (.barWt sc b xp) s = .next t ∧ t.me.st = .wait ∧
          t.me.hold = .barrier false sc b ((s.rx xp).setWidth 32) ∧ clear t ∧ SameBytes s t) ∧
      (s.me.barPend.getLsbD (barIdx sc b).val = false → ¬ later (inst me).phase q →
        ∃ t, exec (.barAw sc b xd) s = .next t ∧ t.arrivals = s.arrivals ++ [arrival] ∧ (xd ≠ 0 → t.rx xd = q.setWidth 64) ∧
          nget t.me.arrive (barIdx sc b) = q + 1 ∧ t.me.st = .wait ∧ t.me.hold = .barrier true sc b q ∧ SameBytes s t) ∧
      (s.me.barPend.getLsbD (barIdx sc b).val = true →
        ∃ t, exec (.barAw sc b xd) s = .next t ∧ t.arrivals = s.arrivals ∧ (∀ r, t.rx r = s.rx r) ∧ clear t ∧
          (later (inst me).phase (q - 1) → t.me.hold = .none ∧ t.me.seek = true ∧ discards t me) ∧
          (¬ later (inst me).phase (q - 1) → t.me.st = .wait ∧ t.me.hold = .barrier true sc b (q - 1)) ∧ SameBytes s t) ∧
      (∃ t, exec (.barStat sc b xd) s = .next t ∧ clear t ∧ OtherX s t xd ∧
        (xd ≠ 0 → t.rx xd = BitVec.ofNat 64
          ((if (inst me).overrun then 2 ^ 63 else 0) + (inst me).cur % 2 ^ 17 * 2 ^ 32 + (inst me).phase.toNat)) ∧
        t.barrier ((s.aset me).card.getD 0) sc (member me) b = { inst me with overrun := false } ∧ SameBytes s t)) ∧
    (s.mySet.cls ≠ 2 → (s.core me).rec_ = none → s.me.hold = .none → s.checkTarget me s.curCtx s.me.tvec = .ok →
      ∀ i u w, i = .barArv sc b xd ∨ i = .barWt sc b xp ∨ i = .barAw sc b xd ∨ i = .barStat sc b xd → encode i = some (u, w) →
      ∃ t, exec i s = .next t ∧ Trapped s t me s.curCtx .barc (w.setWidth 64) s.me.pc) ∧
    (∀ a, s.arrivals[n]? = some a → a.after = 0 →
      let i := s.barrier a.card a.sc a.member a.b
      let e := s.expected a.card a.sc a.member
      let now (t : State) : BarInst := t.barrier a.card a.sc a.member a.b
      ∃ t, exec (.barrierArrival n) s = .next t ∧ t.arrivals = s.arrivals.eraseIdx n ∧ SameBytes s t ∧
        (a.q = i.phase → i.cur + 1 < e → now t = { i with cur := i.cur + 1 }) ∧
        (a.q = i.phase → i.cur + 1 = e → i.next < e →
          now t = { i with phase := i.phase + 1, cur := i.next, next := 0 }) ∧
        (a.q = i.phase + 1 → i.cur < e → now t = { i with next := i.next + 1 })) ∧
    (∀ aw phase, (s.ctx g c).hold = .barrier aw sc b phase → s.expired g c (s.ctx g c).wdog = false →
      later (inst g).phase phase →
      ∃ t, exec (.barrierWake g c) s = .next t ∧ t.ctx g c = (s.ctx g c).goOn ∧ discards t g ∧ SameBytes s t)

/-- `waita` and the ring waits (R156, R230): `waita` of a word of its own vault, in service, that differs from the value expected writes 0;
of one that is equal it sleeps with a monitor on the line, whose oldest monitor is lost when 64 of the line are armed; misaligned it
writes 6 and sets mstat.stray; codes 0 and 6 acquire nothing, which is the model's reading (log entry 41). A sleeper wakes with code 1
after a write to its line, 2 when its monitor is lost, and, with its monitor armed, 3 at its timeout, and 5 without a reason at most
once in 2^16 clk (by an event of its own, log entry 41). `rwaitf` and
`rwaite` go on once the slot they name is filled or free, and set mstat.stray on an unset handle or for a slot that
the ring does not have. -/
def Obligations.MonitorsAndRings : Prop :=
  ∀ (s : State) (g : Nat) (c : CtxId) (xd xp xe xt xi : XReg) (h : HReg),
    let p := (s.rx xp).toNat
    let loc := vaultLoc s.curCore p
    let r := vget s.mySet.ring h
    let i := (s.rx xi).toNat
    let filled := (r.head - r.tail).toNat
    let stray (j : Instr) : Prop := ∃ t, exec j s = .next t ∧ OnlyMe s t ∧
      t.me = { s.me.goOn with mstat := s.me.mstat ||| 0x20 } ∧ SameBytes s t
    let serving : Prop := s.curCore < 1024 ∧ (s.die (s.curCore / 128)).fenced = false
    let live (m : Monitor) : Bool := m.line == loc / 64 && !m.hit && !m.lost
    let armed : List Monitor := if (s.monitors.filter live).length < 64 then s.monitors
      else s.monitors.map fun m => if s.monitors.find? live = some m then { m with lost := true } else m
    (s.recording = none → s.me.marked xp = false → s.mpois = [] →
      (p % 8 = 0 → p < 2 ^ 21 → serving → fget (s.core s.curCore).l1 (loc / 64) = none → s.readNat loc 8 ≠ (s.rx xe).toNat → Result (.waita xd xp xe xt) s xd 0) ∧
      (p % 8 ≠ 0 → ∃ t, exec (.waita xd xp xe xt) s = .next t ∧ OnlyMe s t ∧ (xd ≠ 0 → t.rx xd = 6) ∧ OtherX s t xd ∧
        t.me.mstat = s.me.mstat ||| 0x20 ∧ t.me.seek = true ∧ SameBytes s t)) ∧
    (p % 8 = 0 → p < 2 ^ 21 → serving → s.readNat loc 8 = (s.rx xe).toNat →
      ∃ t, exec (.waita xd xp xe xt) s = .next t ∧ t.me.st = .wait ∧ t.me.hold = .waita xd (loc / 64) (s.rx xt) s.clk ∧
        t.monitors = armed ++ [{ core := s.curCore, sid := s.mySet.sid, ctx := s.curCtx, line := loc / 64 }] ∧
        SameBytes s t) ∧
    (∀ wd line tmo since m, (s.ctx g c).hold = .waita wd line tmo since → s.monitorOf ⟨g, (s.aset g).sid, c⟩ = some m →
      let wakes (j : Instr) (code : W64) : Prop := ∃ t, exec j s = .next t ∧ (wd ≠ 0 → (t.ctx g c).rx wd = code) ∧
        (∀ x, x ≠ wd → (t.ctx g c).rx x = (s.ctx g c).rx x) ∧ (t.ctx g c).hold = .none ∧ (t.ctx g c).seek = true ∧
        t.monitors = s.monitors.filter (fun y => !(y.core == g && y.sid == (s.aset g).sid && y.ctx == c)) ∧
        (t.core g).l1 = ownedWords (s.core g).l1 ∧ SameBytes s t
      (m.hit = true → wakes (.waitaWakeWrite g c) 1) ∧
      (m.hit = false → wakes (.waitaMonitorLost g c) 2) ∧
      (m.hit = false → m.lost = false →
        (tmo ≠ 0 → tmo.toNat ≤ s.clk - since → wakes (.waitaTimeout g c) 3) ∧
        ((∀ n, (s.core g).spurAt = some n → 2 ^ 16 ≤ s.clk - n) → wakes (.waitaSpuriousWake g c) 5))) ∧
    (r.slot = 0 ∨ 2 ^ r.count.toNat ≤ i → stray (.rwaitf h xi) ∧ stray (.rwaite h xi)) ∧
    (r.slot ≠ 0 → i < 2 ^ r.count.toNat →
      (i < filled → ∃ t, exec (.rwaitf h xi) s = .next t ∧ OnlyGoesOn s t) ∧
      (filled ≤ i → ∃ t, exec (.rwaitf h xi) s = .next t ∧ Waits s t (.ring true h (s.rx xi))) ∧
      (i < 2 ^ r.count.toNat - filled → ∃ t, exec (.rwaite h xi) s = .next t ∧ OnlyGoesOn s t) ∧
      (2 ^ r.count.toNat - filled ≤ i → ∃ t, exec (.rwaite h xi) s = .next t ∧ Waits s t (.ring false h (s.rx xi))))

/-! ### The fabric (R235 to R245) -/

/-- Remote requests at their homes (R237, R239, R242, R243): a home discards a request older than 2^20 - 2^16 clk and counts it; it refuses
one to its second circuit and then to its sender; it answers an accepted read with the line as it stands and names the
reader's die as a sharer; it performs an accepted write at once when no die shares the line, and after every sharer has
acknowledged its invalidation otherwise, when a sharer has discarded its copies; a write to a line that a step pins waits (R194), and
one that is not single-copy atomic is performed in its units, some of which the hardware may leave for later (R249). -/
def Obligations.FabricHomes : Prop :=
  ∀ (s : State) (r : Nat) (q : Req) (d : Nat), fget s.reqs r = some q → q.dropped = false →
    let at_ (t : State) (p : ReqAt) : Prop := fget t.reqs r = some { q with pos := p }
    let young : Prop := s.clk - q.first < 2 ^ 20 - 2 ^ 16
    let travels : Prop := q.pos = .toHome ∨ q.pos = .circuit
    let written (t : State) (e : StoreEnt) : Prop :=
      let now := entryPart e (s.oracle.headD 0) false
      if s.pinned q.line then SameBytes s t ∧ at_ t (.home [] [])
      else (∀ b ∈ now, t.mem.get b.1 = b.2) ∧ (∀ a, (∀ b ∈ now, b.1 ≠ a) → t.mem.get a = s.mem.get a) ∧
        at_ t (if entryPart e (s.oracle.headD 0) true = [] then .reply none else .home [] [])
    let clean (e : StoreEnt) : Prop := e.poison = false ∧ e.bits = [] ∧ e.marks = [] ∧ s.mpois = [] ∧ s.MemOk ∧
      (e.bytes.Pairwise fun x y => x.1 ≠ y.1)
    (travels → young → (∃ t, exec (.remoteRequestArrive r false) s = .next t ∧ SameBytes s t ∧
      at_ t (if q.pos = .toHome then .circuit else .returning))) ∧
    (travels → ¬ young → ∀ a, ∃ t, exec (.remoteRequestArrive r a) s = .next t ∧ SameBytes s t ∧ at_ t .gone ∧
      (q.home / 8 = s.pkgid.toNat → (t.die (q.home % 8)).aged = (s.die (q.home % 8)).aged + 1)) ∧
    (∀ n, travels → young → q.what = .read n →
      ∃ t, exec (.remoteRequestArrive r true) s = .next t ∧ SameBytes s t ∧ at_ t (.reply (some (s.lineCopy q.line))) ∧
        (n = 1 ∨ n = 2 → fget t.sharers q.line =
          some (((fget s.sharers q.line).getD {}).add q.home (s.pkgid.toNat * 8 + q.core / 128)))) ∧
    (∀ seq e, q.what = .store seq → (s.core q.core).sb.find? (fun y => y.seq = seq) = some e → clean e →
      (travels → young → s.toInvalidate q.line = [] →
        ∃ t, exec (.remoteRequestArrive r true) s = .next t ∧ written t e) ∧
      (travels → young → s.toInvalidate q.line ≠ [] →
        ∃ t, exec (.remoteRequestArrive r true) s = .next t ∧ SameBytes s t ∧ at_ t (.home (s.toInvalidate q.line) [])) ∧
      (q.pos = .home [] [d] →
        ∃ t, exec (.invalidationAckReceive r d) s = .next t ∧ written t e)) ∧
    (∀ inv ack, q.pos = .home inv ack →
      (d ∈ inv → ∃ t, exec (.invalidationReceive r d) s = .next t ∧ SameBytes s t ∧
        at_ t (.home (inv.filter (· != d)) (ack ++ [d])) ∧
        (d / 8 = s.pkgid.toNat → ((s.die (d % 8)).l2.map Prod.fst).Nodup → fget (t.die (d % 8)).l2 q.line = none)) ∧
      (d ∈ ack → inv ≠ [] → ∃ t, exec (.invalidationAckReceive r d) s = .next t ∧ SameBytes s t ∧
        at_ t (.home inv (ack.filter (· != d)))))

/-- Remote requests at their senders (R235, R237, R239, R240, R244): a slot that comes back waits min(8192, 64 * 2^(n - 1)) clk before its n-th
retry and is sent again by the route of that moment, while it has one; after the eighth retry, at the timeout and without a route, it has failed as
REFUSED, LOST or DEAD, which its die counts, and a store that fails leaves the buffer and its context's failure record takes
it; a tag taken back changes its incarnation; a reply to a load ends it with the line's bytes and frees the tag. A fence or
a dead link is kept. That die 0 fenced stops the host port, with host state 3, is the model's choice (log entry 31). -/
def Obligations.FabricSenders : Prop :=
  (∀ (s : State) (r : Nat) (q : Req), fget s.reqs r = some q → q.dropped = false →
    let g := q.core
    let d := g / 128
    let x := s.ctx g q.ctx
    let stores (seq : Nat) : Prop := q.what = .store seq ∧ q.sid = (s.aset g).sid ∧ (s.reqs.map Prod.fst).Nodup
    let fails (t : State) (seq : Nat) : Prop := (t.core g).sb = (s.core g).sb.filter (fun y => y.seq != seq) ∧
      (t.ctx g q.ctx).fail.count = (if x.fail.count = 0xFFFF then x.fail.count else x.fail.count + 1) ∧ SameBytes s t
    (q.pos = .returning → q.returns < 8 →
      ∃ t, exec (.slotReturn r) s = .next t ∧ (t.die d).returns = (s.die d).returns + 1 ∧ SameBytes s t ∧
        fget t.reqs r = some { q with returns := q.returns + 1, pos := .backoff s.clk }) ∧
    (∀ seq, q.pos = .returning → 8 ≤ q.returns → stores seq →
      ∃ t, exec (.slotReturn r) s = .next t ∧ fails t seq ∧ (t.ctx g q.ctx).fail.refused = true ∧
        (t.die d).refused = (s.die d).refused + 1 ∧ fget t.reqs r = none) ∧
    (∀ since, q.pos = .backoff since → min 8192 (64 * 2 ^ (q.returns - 1)) ≤ s.clk - since →
      ((s.routeOf d q.home (64 * q.line)).isSome = true →
        ∃ t, exec (.retryBackoffExpiry r) s = .next t ∧ (t.die d).retries = (s.die d).retries + 1 ∧ SameBytes s t ∧
          fget t.reqs r = some { q with pos := .toHome, route := (s.routeOf d q.home (64 * q.line)).getD {} }) ∧
      (∀ seq, s.routeOf d q.home (64 * q.line) = none → stores seq →
        ∃ t, exec (.retryBackoffExpiry r) s = .next t ∧ fails t seq ∧ (t.ctx g q.ctx).fail.dead = true ∧
          (t.die d).dead = (s.die d).dead + 1 ∧ fget t.reqs r = none)) ∧
    (∀ seq, stores seq → q.pos ≠ .held → 2 ^ 20 ≤ s.clk - q.first →
      ∃ t, exec (.transactionTimeout r) s = .next t ∧ fails t seq ∧ (t.ctx g q.ctx).fail.lost = true ∧
        (t.die d).lost = (s.die d).lost + 1 ∧
        (fget (t.die d).inc q.tag).getD 0 = (fget (s.die d).inc q.tag).getD 0 + 1) ∧
    (∀ copy xd sgn off n, q.pos = .reply (some copy) → q.what = .read 0 → q.sid = (s.aset g).sid →
      x.hold = .load xd sgn ((List.range n).map fun i => .req r (off + i)) → 0 < n → copy.pois = 0 →
      (s.reqs.map Prod.fst).Nodup →
      ∃ t, exec (.remoteReplyReceive r) s = .next t ∧ fget t.reqs r = none ∧ q.tag ∉ (t.die d).tags ∧
        (t.ctx g q.ctx).hold = .none ∧ (t.ctx g q.ctx).seek = true ∧ SameBytes s t ∧
        (xd ≠ 0 → (t.ctx g q.ctx).rx xd = extendLoad sgn ((List.range n).map fun i => copy.data.extractLsb' (8 * (off + i)) 8)))) ∧
  (∀ (s : State) (d : Fin 8), (s.die d.val).fenced = false → s.reqs = [] →
    ∃ t, exec (.dieFence d) s = .next t ∧ (t.die d.val).fenced = true ∧ t.hostState = (if d = 0 then 3 else s.hostState) ∧
      SameBytes s t ∧ ∀ e : Fin 8, e ≠ d → t.die e.val = s.die e.val) ∧
  (∀ (s : State) (l : FabricLink), s.linkDown.contains l = false → s.reqs = [] →
    ∃ t, exec (.deadLink l) s = .next t ∧ t = { s with linkDown := s.linkDown ++ [l] })

/-! ### Streams and matrices -/

/-- A field of the pattern descriptor at a vault offset (R144). -/
def patField (s : State) (g : Nat) (a : W64) (o n : Nat) : Nat := s.readNat (vaultLoc g (a.toNat + o)) n

/-- The bytes of a descriptor's stream: its elements in all four dimensions, of 2^esize bytes each (R145, R146). -/
def patBytes (s : State) (g : Nat) (a : W64) : Nat :=
  patField s g a 16 4 * patField s g a 20 4 * patField s g a 24 4 * patField s g a 28 4 * 2 ^ patField s g a 8 1

/-- A descriptor is invalid (R145). -/
def patInvalid (s : State) (g : Nat) (a : W64) : Prop :=
  2 ^ 21 ≤ a.toNat ∨ a.toNat % 64 ≠ 0 ∨ 6 < patField s g a 8 1 ∨ patField s g a 9 7 ≠ 0 ∨ patField s g a 48 8 ≠ 0 ∨
    patField s g a 56 8 ≠ 0 ∨ 2 ^ 40 < patBytes s g a

/-- The offset of byte n of a descriptor's stream, for a pointer's offset (R146): dimension 0 is the innermost. -/
def patPlace (s : State) (g : Nat) (a : W64) (off n : Nat) : Int :=
  let count (k : Nat) : Nat := patField s g a (16 + 4 * k) 4
  let stride (k : Nat) : Int := (BitVec.ofNat 32 (patField s g a (32 + 4 * k) 4)).toInt
  let size := 2 ^ patField s g a 8 1
  let e := n / size
  (BitVec.ofNat 64 (off + patField s g a 0 8)).toInt + e % count 0 * stride 0 + e / count 0 % count 1 * stride 1 +
    e / count 0 / count 1 % count 2 * stride 2 + e / count 0 / count 1 / count 2 * stride 3 + n % size

/-- A byte of a token's extent may be read, in HBM4E of the core's own die (R119). -/
def HomeByte (s : State) (g : Nat) (k : Token) (need : BitVec 4) (off : Nat) : Prop :=
  ∃ l, s.tokenByte g k need off = .ok l ∧ region l = .hbm ∧ s.remote g l = false

/-- A granule reads the bytes at the locations ls and writes them to ld, all of them on the core's die in lines in service through the
extents of its command, none of them poisoned and no line of ld pinned, with no request of its own and no choice of the hardware at
hand. -/
def granuleHere (s : State) (g : Nat) (r : StreamRun) (gr : Granule) (ls ld : List Nat) : Prop :=
  gr.src = ls.map ByteRef.home ∧ gr.dst = ld.map ByteRef.home ∧ ls.length = ld.length ∧ ld.Nodup ∧ ld ≠ [] ∧
  (∀ l ∈ ls ++ ld, ∀ a ∈ [l, l / 64 * 64], (region a = .hbm ∨ isVault a = true) ∧
    ∀ v ∈ [s.srcVia g r.e, s.dstVia g r.e], s.addrFate g a v = .ok ∧ s.remote g a v = false) ∧
  (∀ l ∈ ld, s.pinned (l / 64) = false) ∧
  s.mpois = [] ∧ s.MemOk ∧ s.oracle = [] ∧ (s.core g).xfer (s.aset g).sid (.granule gr.id) = none

/-- The bytes at ls have gone to ld and those of the padding are 0; no other byte of memory has changed. -/
def granuleMoved (s t : State) (ls ld pads : List Nat) : Prop :=
  (∀ i, i < ld.length → t.mem.get (ld.getD i 0) = s.mem.get (ls.getD i 0)) ∧
    (∀ l ∈ pads, t.mem.get l = 0) ∧ (∀ l, l ∉ ld → l ∉ pads → t.mem.get l = s.mem.get l)

/-- A command whose last granule this was, or that a withdrawn request has cut, completes, the latter with mstat.wdr; another goes on
as r' (R127, R150). -/
def runEnded (s t : State) (g : Nat) (c : CtxId) (r r' : StreamRun) : Prop :=
  (r.cut = true ∨ r.total ≤ r.issued →
    nget (t.aset g).srun c = (nget (s.aset g).srun c).filter (fun y => y.e.num != r.e.num) ∧
    (t.ctx g r.e.who).mstat = (s.ctx g r.e.who).mstat ||| r.mst ||| (if r.cut then 0x80 else 0) ∧
    (t.aset g).time .tls = ((s.aset g).time .tls).complete r.e.num) ∧
  (r.cut = false → r.issued < r.total → r' ∈ nget (t.aset g).srun c)

/-- The stream engine (R149, R152, R154, R155): the next command of a queue begins once the one before it has issued its
last request and nothing holds its handle. `rset` sets its handle from an accepted value and leaves it unset, with mstat.stray, from any
other; a hint that names no token is dropped and counted; a copy begins. A granule of a copy between vaults goes to the end of its
aligned 256 bytes, and the engine turns to the next queue. A granule of a copy that is performed moves its bytes, and nothing else of
memory changes; the command completes when it was the last. No poison and no choice of the hardware to leave bytes for later is
about (R249, log entry 2), the lines lie on the die, are in service and are not pinned (R194), and the set does not leave its core
(R325). -/
def Obligations.Streams : Prop :=
  ∀ (s : State) (g : Nat) (c : CtxId) (e : Entry) (rest : List Entry) (r : StreamRun),
    let q (t : State) : List Entry := nget (t.aset g).sq c
    let runs (t : State) (c : CtxId) : List StreamRun := nget (t.aset g).srun c
    let begins : Prop := q s = e :: rest ∧ (s.aset g).leaving = false ∧ ((runs s c).all StreamRun.issuedAll) = true ∧
      (s.aset g).streamBlocked e = false
    (∀ h x, begins → e.instr = .rset h x →
      let v := e.x0.toNat
      let base := v % 2 ^ 21
      let slot := v / 2 ^ 21 % 16
      let count := v / 2 ^ 25 % 16
      let good : Prop := v < 2 ^ 33 ∧ 6 ≤ slot ∧ slot ≤ 11 ∧ 1 ≤ count ∧ count ≤ 10 ∧ v / 2 ^ 31 ≠ 2 ∧ base % 2 ^ slot = 0 ∧
        base + 2 ^ slot * 2 ^ count ≤ 2 ^ 21
      ∃ t, exec (.streamCommandBegin g c) s = .next t ∧ q t = rest ∧ SameBytes s t ∧
        (∀ h', h' ≠ h → vget (t.aset g).ring h' = vget (s.aset g).ring h') ∧
        (good → vget (t.aset g).ring h = { base := BitVec.ofNat 21 base, slot := BitVec.ofNat 4 slot
                                           count := BitVec.ofNat 4 count, producer := BitVec.ofNat 2 (v / 2 ^ 29)
                                           consumer := BitVec.ofNat 2 (v / 2 ^ 31) }) ∧
        (¬ good → vget (t.aset g).ring h = {} ∧ (t.ctx g e.who).mstat = (s.ctx g e.who).mstat ||| 0x20)) ∧
    (∀ kind a b, begins → e.instr = .shint kind a b → s.eptr g e.x0 e.k0 = .stray →
      ∃ t, exec (.streamCommandBegin g c) s = .next t ∧ q t = rest ∧ SameBytes s t ∧ (t.core g).hintDrops =
        (if (s.core g).hintDrops = 0xFFFFFFFF then 0xFFFFFFFF else (s.core g).hintDrops + 1)) ∧
    (∀ x y z, begins → e.instr = .scopy x y z → 0 < e.x2.toNat → e.x2.toNat ≤ 2 ^ 40 →
      ∃ t d, exec (.streamCommandBegin g c) s = .next t ∧ q t = rest ∧ t.mem = s.mem ∧
        runs t c = runs s c ++ [{ e := e, total := e.x2.toNat, down := d }]) ∧
    (∀ x y z da db a b, r.e.instr = .scopy x y z → r.down = false → (runs s c).find? (fun r => !r.issuedAll) = some r →
      (s.aset g).leaving = false → (s.aset g).sptr = c → s.eptr g r.e.x0 r.e.k0 = .vault da a → s.eptr g r.e.x1 r.e.k1 = .vault db b →
      a + r.total ≤ 2 ^ 21 → b + r.total ≤ 2 ^ 21 →
      let stop := min r.total (((a + r.issued) / 256 + 1) * 256 - a)
      let places (core off : Nat) : List ByteRef :=
        (List.range (stop - r.issued)).map fun i => .home (vaultLoc core (off + (r.issued + i)))
      ∃ t, exec (.streamGranuleIssue g) s = .next t ∧ SameBytes s t ∧ (t.aset g).sptr = c + 1 ∧
        { r with
          issued := stop
          flying := r.flying ++ [{ id := (s.core g).gid, start := r.issued, src := places db b, dst := places da a, ptes := [] }] } ∈
          runs t c) ∧
    (∀ (n : Nat) (gr : Granule) (ls ld : List Nat), (runs s c).find? (fun r => r.flying.any fun f => f.id = n) = some r →
      r.flying = [gr] → gr.id = n → granuleHere s g r gr ls ld →
      (∀ x y z, r.e.instr = .scopy x y z →
        ∃ t, exec (.streamGranuleDone g c n) s = .next t ∧ granuleMoved s t ls ld [] ∧ runEnded s t g c r { r with flying := [] }))

/-- `sfill` and `sdrain` (R144 to R147, R149, R153) read their descriptor and begin at head or at tail; one with an invalid descriptor, or
whose ring is unset or gives the role to another, completes with mstat.stray, and one with an empty stream with nothing. A granule
of `sfill` through a token, or of `sdrain` to the core's own vault, takes the stream's bytes to the end of their 256, and no further
than the slots that are free, or filled: its bytes of the ring lie slot by slot from the command's first one, and those of the pattern
where the descriptor puts them, where a byte off the vault, or off the offsets of a token, is nowhere and sets mstat.stray. With no
such slot, and no other command to go on with, nothing happens. A granule that is performed moves its bytes; then `sfill` publishes
the slots that are whole, the last one padded with 0, and `sdrain` frees them; nothing else of memory changes, and the command
completes when the granule was its last. No poison and no choice of the hardware to leave bytes for later is about (R249, log
entry 2), the lines lie on the die, are in service and are not pinned (R194), and the set does not leave its core (R325). That a granule
is cut at the last slot that is free or filled is the model's choice: R149 speaks of 256 consecutive bytes of the stream (log entry
16). -/
def Obligations.RingStreams : Prop :=
  ∀ (s : State) (g : Nat) (c : CtxId) (e : Entry) (rest : List Entry) (r : StreamRun),
    let q (t : State) : List Entry := nget (t.aset g).sq c
    let runs (t : State) (c : CtxId) : List StreamRun := nget (t.aset g).srun c
    let begins : Prop := q s = e :: rest ∧ (s.aset g).leaving = false ∧ ((runs s c).all StreamRun.issuedAll) = true ∧
      (s.aset g).streamBlocked e = false
    (∀ (h : HReg) (x y : XReg) (fill : Bool), begins → e.instr = (if fill then .sfill h x y else .sdrain h x y) →
      let ring := vget (s.aset g).ring h
      let off := match s.eptr g e.x0 e.k0 with | .vault _ o => o | .token _ _ _ o => o | .stray => 0
      let bad : Prop := patInvalid s g e.x1 ∨ ring.unset = true ∨ (if fill then ring.producer else ring.consumer) ≠ 0
      ∃ t, exec (.streamCommandBegin g c) s = .next t ∧ q t = rest ∧ t.mem = s.mem ∧ (t.aset g).ring = (s.aset g).ring ∧
        (bad → runs t c = runs s c ∧ (t.ctx g e.who).mstat = (s.ctx g e.who).mstat ||| 0x20 ∧
          (t.aset g).time .tls = ((s.aset g).time .tls).complete e.num) ∧
        (¬ bad → patBytes s g e.x1 = 0 → runs t c = runs s c ∧ (t.ctx g e.who).mstat = (s.ctx g e.who).mstat ∧
          (t.aset g).time .tls = ((s.aset g).time .tls).complete e.num) ∧
        (¬ bad → 0 < patBytes s g e.x1 → ∃ p : Pattern, (∀ n, n < patBytes s g e.x1 → off + p.dist n = patPlace s g e.x1 off n) ∧
          runs t c = runs s c ++
            [{ e := e, pat := p, total := patBytes s g e.x1, pos := if fill then ring.head else ring.tail }])) ∧
    (∀ (h : HReg) (x y : XReg) (fill : Bool) (path : Path) (pol : Nat) (k : Token) (off : Nat),
      r.e.instr = (if fill then .sfill h x y else .sdrain h x y) → (runs s c).find? (fun r => !r.issuedAll) = some r →
      (s.aset g).leaving = false → (s.aset g).sptr = c → s.eptr g r.e.x0 r.e.k0 = (if fill then .token path pol k off else .vault g off) →
      let ring := vget (s.aset g).ring h
      let size := 2 ^ ring.slot.toNat
      let held := (ring.head - ring.tail).toNat
      let open_ := if fill then 2 ^ ring.count.toNat - held else held
      let stop := min (min r.total ((r.issued / 256 + 1) * 256)) ((r.slots + open_) * size)
      let inRing (n : Nat) : ByteRef :=
        .home (vaultLoc g (ring.base.toNat + (r.pos.toNat + n / size) % 2 ^ ring.count.toNat * size + n % size))
      let place (n : Nat) : Int := off + r.pat.dist n
      let inside (n : Nat) : Prop := 0 ≤ place n ∧ place n < (if fill then 2 ^ 48 else 2 ^ 21)
      let taken := (List.range (stop - r.issued)).map (r.issued + ·)
      (stop ≤ r.issued → (∀ c', c' ≠ c → ((runs s c').all StreamRun.issuedAll) = true) →
        exec (.streamGranuleIssue g) s = .next s) ∧
      (r.issued < stop → (fill = true → s.issueCheck g k = .go) →
        (fill = true → ∀ n ∈ taken, inside n → HomeByte s g k (readRights pol) (place n).toNat) →
        ∃ t gr, exec (.streamGranuleIssue g) s = .next t ∧ SameBytes s t ∧ (t.aset g).sptr = c + 1 ∧ gr.start = r.issued ∧
          { r with
            issued := stop
            flying := r.flying ++ [gr]
            mst := r.mst ||| (if (taken.all fun n => decide (inside n)) = true then 0 else 0x20) } ∈ runs t c ∧
          (if fill then gr.dst else gr.src) = taken.map inRing ∧ (if fill then gr.src else gr.dst).length = stop - r.issued ∧
          ∀ i, i < stop - r.issued → let b := (if fill then gr.src else gr.dst).getD i .nowhere
            (¬ inside (r.issued + i) → b = .nowhere) ∧
            (inside (r.issued + i) → fill = false → b = .home (vaultLoc g (place (r.issued + i)).toNat)) ∧
            (∀ l, inside (r.issued + i) → fill = true → s.tokenByte g k (readRights pol) (place (r.issued + i)).toNat = .ok l →
              b = (if path = .ro then .ro l else .home l)))) ∧
    (∀ (n : Nat) (gr : Granule) (ls ld : List Nat), (runs s c).find? (fun r => r.flying.any fun f => f.id = n) = some r →
      r.flying = [gr] → gr.id = n → granuleHere s g r gr ls ld →
      (∀ h x y fill, r.e.instr = (if fill then .sfill h x y else .sdrain h x y) →
        let ring := vget (s.aset g).ring h
        let size := 2 ^ ring.slot.toNat
        let held := (ring.head - ring.tail).toNat
        let whole := if r.total ≤ r.issued then (r.total + size - 1) / size else r.issued / size
        let rise : W32 := BitVec.ofNat 32 (whole - r.slots)
        let pads : List Nat := if fill = true ∧ r.total ≤ r.issued then
          (List.range (whole * size - r.total)).map fun i => let p := r.total + i
            vaultLoc g (ring.base.toNat + (r.pos.toNat + p / size) % 2 ^ ring.count.toNat * size + p % size)
          else []
        r.slots ≤ whole → r.slots * size < r.total → whole - r.slots ≤ (if fill then 2 ^ ring.count.toNat - held else held) →
        (∀ l ∈ pads, l ∉ ld) →
        ∃ t, exec (.streamGranuleDone g c n) s = .next t ∧ granuleMoved s t ls ld pads ∧
          runEnded s t g c r { r with flying := [], slots := whole } ∧
          vget (t.aset g).ring h =
            (if fill then { ring with head := ring.head + rise } else { ring with tail := ring.tail + rise })))

/-- The product of two operand elements as a sign and a numerator over prodDen (R56, R68): that of two l6 codes by their
indices, and that of two integers, where 0 has no sign. -/
def prodTerm (ta tb : ElemTy) (a b : Nat) : Bool × Nat :=
  match ta with
  | .i8 => let z := (BitVec.ofNat 8 a).toInt * (BitVec.ofNat 8 b).toInt; (decide (z < 0), z.natAbs)
  | .l6 =>
    (decide ((a / 32 + b / 32) % 2 = 1),
      if a % 32 = 0 ∨ b % 32 = 0 then 0 else l6Sig ((a + b) % 4) * 2 ^ (a / 4 % 8 + b / 4 % 8 + (a % 4 + b % 4) / 4))
  | _ => (negBits (elemFmt ta) a != negBits (elemFmt tb) b,
      magOf (elemFmt ta) (absBits (elemFmt ta) a) * magOf (elemFmt tb) (absBits (elemFmt tb) b))

/-- The denominator of the products of two types. -/
def prodDen (ta tb : ElemTy) : Nat :=
  match ta with
  | .i8 => 1
  | .l6 => 2 ^ 31
  | _ => 2 ^ unitExp (elemFmt ta) * 2 ^ unitExp (elemFmt tb)

/-- An operand type that has NaN, and infinity where its format does. -/
def floatTy (t : ElemTy) : Bool := match t with | .i8 | .i32 | .l6 => false | _ => true
def nanElem (t : ElemTy) (a : Nat) : Bool := floatTy t && nanBits (elemFmt t) a
def infElem (t : ElemTy) (a : Nat) : Bool := floatTy t && infBits (elemFmt t) a

/-- The rounded sum of a block of 32 products (R53, R60, R68): each is scaled by 2^(sc - 254), a NaN scale makes each NaN; the sum
is exact and rounded once to f32, a NaN or infinities of both signs give the canonical NaN and invalid, and a sum of 0 is -0
when all are -0, or when they are not all +0 in RDN. -/
def BlockIs (ta tb : ElemTy) (rm : RMode) (draw : Nat) (x y : Nat → Nat) (sc : Nat) (nanScale : Bool) (r : Nat) (fl : FFlags) : Prop :=
  let ks := List.range 32
  let inf (k : Nat) : Bool := infElem ta (x k) || infElem tb (y k)
  let neg (k : Nat) : Bool := (prodTerm ta tb (x k) (y k)).1
  let num (k : Nat) : Int := (prodTerm ta tb (x k) (y k)).2
  let nan := nanScale || ks.any fun k => nanElem ta (x k) || nanElem tb (y k) ||
    (infElem ta (x k) && absBits (elemFmt tb) (y k) == 0) || (absBits (elemFmt ta) (x k) == 0 && infElem tb (y k))
  let infs (n : Bool) : Bool := ks.any fun k => inf k && neg k == n
  let z := (ks.map fun k => if neg k then -num k else num k).sum
  if nan || (infs true && infs false) then r = nanCode fmtF32 ∧ fl = 1
  else if infs true || infs false then r = withSign fmtF32 (infs true) (infCode fmtF32) ∧ fl = 0
  else if z = 0 then
    r = withSign fmtF32 ((ks.all fun k => neg k && num k == 0) || (rm == .rdn && !ks.all fun k => !neg k && num k == 0)) 0 ∧ fl = 0
  else Rounds fmtF32 rm draw (z < 0) (ratio (z.natAbs * 2 ^ 149 * 2 ^ sc) (prodDen ta tb * 2 ^ 254)) r fl

/-- An element of a tile after a step (R68): the rounded block sum, or its sum with the held value. -/
def StepIs (ta tb : ElemTy) (rm : RMode) (draws : W32 × W32) (x y : Nat → Nat) (sc : Nat) (nanScale zero : Bool) (old r : Nat)
    (fl : FFlags) : Prop :=
  ∃ b f1, BlockIs ta tb rm draws.1.toNat x y sc nanScale b f1 ∧
    if zero then r = b ∧ fl = f1 else ∃ f2, SumIs fmtF32 rm draws.2.toNat old b r f2 ∧ fl = f1 ||| f2

/-- The draws of element (i, j) of step s of the nest numbered z (R197). -/
def drawsOf (z s i j : Nat) : W32 × W32 :=
  let x := BitVec.ofNat 32 z ^^^ BitVec.ofNat 32 (s * 0x9E3779B9) ^^^ BitVec.ofNat 32 (i * 2 ^ 20) ^^^ BitVec.ofNat 32 (j * 2 ^ 10)
  let x := if x = 0 then 0x13579BDF else x
  (nextDraw x, nextDraw (nextDraw x))

/-- A byte that a step reads at a distance from an operand's pointer (R187): 0 when it is stray or fails. -/
def stepByte (s : State) (g : Nat) (p : EPtr) (d : Int) : Nat :=
  match p with
  | .token _ pol k off =>
    if 0 ≤ off + d ∧ off + d < 2 ^ 48 then
      match s.tokenByte g k (readRights pol) (off + d).toNat with
      | .ok l => (s.mem.get l).toNat
      | .error _ => 0
    else 0
  | _ => 0

/-- Code i of a row of an operand (R187): little-endian bytes, or 6 bits of the packed row. -/
def stepCode (s : State) (g : Nat) (p : EPtr) (ty : ElemTy) (row : Int) (i : Nat) : Nat :=
  let byte (n : Nat) : Nat := stepByte s g p (row + n)
  match ty with
  | .l6 => (byte (6 * i / 8) + (if 2 < 6 * i % 8 then 256 * byte (6 * i / 8 + 1) else 0)) / 2 ^ (6 * i % 8) % 64
  | .bf16 => byte (2 * i) + 256 * byte (2 * i + 1)
  | _ => byte i

/-- Every frame of an operand's extent lies in usable HBM4E of the core's own die, and nothing there is poisoned. -/
def HomeOperand (s : State) (g : Nat) (p : EPtr) : Prop :=
  match p with
  | .token _ _ k _ => s.issueCheck g k = .go ∧ k.host = false ∧
      k.lenm1.toNat / 2 ^ 21 < (s.pin (g / 128) k.pte).frames.length ∧
      ∀ f ∈ (s.pin (g / 128) k.pte).frames, f.toNat % 2 ^ 21 = 0 ∧ f.toNat / 2 ^ 51 = coreDie s g ∧ f.toNat % 2 ^ 51 < 0x1FC0000000
  | _ => True

/-- The matrix engine (R182, R185, R187 to R191, R196, R197, R199, R203 to R209): while nothing holds its queue and the set does not leave
its core (R202, R325), the entry at the head writes its field of the filling bank, sets the rounding mode, makes its tile +0 and FULL,
starts its drain, both when no earlier drain of the tile has rows left (the model's reading, log entry 17), or delivers the check
counters and clears them; `mgo` copies the filling bank, and starts a nest of as many steps as the product of its counts, or
completes with mstat.stray when the bank is not valid. A step of a valid nest reads the codes of A, B and the scales where the
loop indices put them; each element of its tile takes the rounded exact sum of the 32 products of its row and column, alone
when the step starts from zero and else added to what it holds, with one rounding; elements past the vectors of MV mode keep
theirs, or are 0; the nest takes the flags, the count of steps rises, and the check counts the soft error that strikes the step, the
event's argument, among rows and columns of finite operands (which element or lanes it strikes is a free choice, log entry 22). A row
of a drain writes the row's bytes, and the last leaves the tile EMPTY. The operands lie in HBM4E of the core's own die, no poison is
about, and no choice of the hardware leaves bytes of the operands for later (R249, log entry 2). That a nonzero result which rounds to
zero sets underflow is the model's reading of R64 (log entry 33). -/
def Obligations.Matrices : Prop :=
  ∀ (s : State) (g : Nat) (e : Entry) (rest : List Entry),
    let a (t : State) : CtxSet := t.aset g
    let runs (i : Instr) : Prop := (a s).mq = e :: rest ∧ e.instr = i ∧ (a s).matHeld = false ∧ (a s).leaving = false
    let due (k : AccReg) : Prop := ∃ d ∈ (a s).drains, d.nest = false ∧ d.tile = k
    let whole (p : EPtr) : Prop := match p with
      | .token _ pol t _ => t.ms = false ∧ t.host = false ∧ pol ≠ 3
      | _ => True
    let done (t : State) : Prop := exec (.matrixEntryExecute g) s = .next t ∧ (a t).mq = rest ∧ SameBytes s t
    (∀ f x, runs (.mcfg f x) → mcfgFieldOk f = true →
      ∃ t, done t ∧ (a t).filling.f = vset (a s).filling.f (f.setWidth 6 : BitVec 6) e.x0 ∧
        (f.toNat ≤ 3 → vget (a t).filling.cap (f.setWidth 2 : BitVec 2) = e.k0) ∧ (a t).running = (a s).running) ∧
    (∀ m, runs (.mrnd m) → ∃ t, done t ∧ (a t).mmode = m.code) ∧
    (∀ k, runs (.mzero k) → (vget (a s).tile k).st ≠ .busy → ¬ due k →
      ∃ t, done t ∧ (vget (a t).tile k).st = .full ∧ (∀ i, nget (vget (a t).tile k).rows i = 0) ∧
        ∀ k', k' ≠ k → vget (a t).tile k' = vget (a s).tile k') ∧
    (∀ k m x y, runs (.mdrain k m x y) → (vget (a s).tile k).st = .full → ¬ due k → (a s).filling.drainType ≠ 7 →
      ∃ t j, done t ∧ (a t).drains = (a s).drains ++ [j] ∧ j.tile = k ∧ j.mode = m.code ∧ j.ty = (a s).filling.drainType ∧
        j.ptr = e.x0 ∧ j.tok = e.k0 ∧ j.row = 0 ∧ j.ld = ((a s).filling.field 7).toInt) ∧
    (∀ x k, runs (.mchk x) → (a s).nests = [] → e.play = none → (s.ctx g e.ctx).hold = .result k e.num x →
      ∃ t, done t ∧ (a t).chkElem = 0 ∧ (a t).chkStep = 0 ∧ (t.ctx g e.ctx).hold = .none ∧
        (x ≠ 0 → (t.ctx g e.ctx).rx x = (a s).chkStep ++ (a s).chkElem)) ∧
    (runs .mgo → (a s).running_ = none →
      let b := (a s).filling
      ∃ t, exec (.mgoLaunch g) s = .next t ∧ (a t).mq = rest ∧ (a t).running = b ∧ SameBytes s t ∧
        (b.invalid = true → (a t).nests = (a s).nests ∧ (t.ctx g e.who).mstat = (s.ctx g e.who).mstat ||| 0x20) ∧
        (b.invalid = false → (∃ l, (b.countField l).toNat % 2 ^ 32 ≠ 0) → ∃ n, (a t).nests = (a s).nests ++ [n] ∧ n.e = e ∧
          n.bank = b ∧ n.mode = (a s).mmode ∧ n.s = 0 ∧
          n.total = b.count 0 * b.count 1 * b.count 2 * b.count 3 * b.count 4 * b.count 5)) ∧
    (∀ n f ta tb rm, (a s).running_ = some n → (a s).stepReady n = true → (a s).leaving = false → f ≠ .double → n.bank.invalid = false →
      ElemTy.ofCode n.bank.typeA = some ta → ElemTy.ofCode n.bank.typeB = some tb → RMode.ofCode n.mode = some rm →
      let b := n.bank
      let field (l : Fin 64) : Int := (b.field l).toInt
      let count (l : Fin 6) : Nat := max ((b.field ⟨8 + l.val, by omega⟩).toNat % 2 ^ 32) 1
      let index (l : Fin 6) : Nat := n.s / ((List.finRange 6).filter fun k => k < l).foldl (fun m k => m * count k) 1 % count l
      let along (base : Fin 6 → Int) : Int := ((List.finRange 6).map fun l => index l * base l).sum
      let aoff := along fun l => field ⟨0x10 + l.val, by omega⟩
      let boff := along fun l => field ⟨0x18 + l.val, by omega⟩
      let k : AccReg := BitVec.ofInt 3 (b.fmt / 2 ^ 16 + along fun l => field ⟨0x28 + l.val, by omega⟩ % 8)
      let mv : Bool := b.fmt.testBit 12
      let scaled : Bool := b.fmt.testBit 8
      let cols := if mv then b.fmt / 2 ^ 13 % 8 + 1 else 64
      let pa := s.eptr g (b.field 0) (nget b.cap 0)
      let pb := s.eptr g (b.field 1) (nget b.cap 1)
      let ps := s.eptr g (b.field 3) (nget b.cap 3)
      let x (i k : Nat) : Nat := stepCode s g pa ta (aoff + i * field 5) k
      let y (j k : Nat) : Nat := if mv then stepCode s g pb tb (boff + j * field 6) k else stepCode s g pb tb (boff + k * field 6) j
      let scale (m : Nat) : Nat := if scaled then stepByte s g ps (128 * n.s + m) else 127
      let zero := !(vget n.tiles k).open_ && (!b.fmt.testBit 20 || (vget n.tiles k).drained)
      let at_ (t : State) (i : Fin 64) (j : Nat) : Nat := elem (nget (vget (a t).tile k).rows i) .f32 j
      let fine (t : ElemTy) (c : Nat) : Bool := !nanElem t c && !infElem t c
      let rowFine : Bool := (List.range 64).any fun i => scale i != 255 && (List.range 32).all fun k => fine ta (x i k)
      let colFine : Bool := (List.range cols).any fun j => scale (64 + j) != 255 && (List.range 32).all fun k => fine tb (y j k)
      HomeOperand s g pa → HomeOperand s g pb → (scaled = true → HomeOperand s g ps) → (s.die (g / 128)).fenced = false →
      g < 1024 → s.mpois = [] → (s.core g).xfer (a s).sid .step = none → s.oracle = [] ∨ (scaled = false ∧ whole pa ∧ whole pb) →
      ∃ t, exec (.matrixStep g f) s = .next t ∧ (t.core g).matSteps = (s.core g).matSteps + 1 ∧
        (∃ fl : Fin 64 → Nat → FFlags,
          (∀ (i : Fin 64) (j : Nat), j < cols → StepIs ta tb rm (drawsOf n.e.num n.s i.val j) (x i.val) (y j)
            (scale i.val + scale (64 + j)) (scale i.val == 255 || scale (64 + j) == 255) zero (at_ s i j) (at_ t i j) (fl i j)) ∧
          (n.s + 1 < n.total → ∃ n' ∈ (a t).nests, n'.e = n.e ∧ n'.s = n.s + 1 ∧
            n'.flags = n.flags ||| ((List.finRange 64).foldl (fun m i => m ||| orFlags cols (fl i)) 0))) ∧
        (∀ (i : Fin 64) (j : Nat), cols ≤ j → j < 64 → at_ t i j = if zero then 0 else at_ s i j) ∧
        (n.s + 1 < n.total → (vget (a t).tile k).st = .busy) ∧
        (∀ k', k' ≠ k → (vget (a t).tile k').rows = (vget (a s).tile k').rows) ∧
        (a t).chkElem = (if f = .element ∧ rowFine ∧ colFine ∧ (a s).chkElem ≠ 0xFFFFFFFF then (a s).chkElem + 1 else (a s).chkElem) ∧
        (a t).chkStep =
          (if f = .step ∧ (rowFine ∨ colFine) ∧ (a s).chkStep ≠ 0xFFFFFFFF then (a s).chkStep + 1 else (a s).chkStep)) ∧
    (∀ d l core off, (a s).drains = d :: l → (a s).leaving = false → d.ring = none → d.mode = 1 → ElemTy.ofCode d.ty = some .f32 → d.row < 64 →
      s.eptr g d.ptr d.tok = .vault core off → (s.die (core / 128)).fenced = false → core < 1024 →
      (s.core g).xfer (a s).sid (.row d.tile) = none → s.oracle = [] →
      (vget (a s).tile d.tile).pois = 0 → s.mpois = [] → s.MemOk →
      let o : Int := off + d.off + d.row * d.ld
      let row := vget (vget (a s).tile d.tile).rows (BitVec.ofNat 6 d.row)
      0 ≤ o → o + 256 ≤ 2 ^ 21 → (∀ b, b < 256 → s.pinned (vaultLoc core (o.toNat + b) / 64) = false) →
      ∃ t, exec (.drainRowPerformed g 0) s = .next t ∧
        (∀ b, b < 256 → t.mem.get (vaultLoc core (o.toNat + b)) = row.extractLsb' (8 * b) 8) ∧
        (∀ x, (∀ b, b < 256 → vaultLoc core (o.toNat + b) ≠ x) → t.mem.get x = s.mem.get x) ∧
        (d.row < 63 → ∃ d', (a t).drains = d' :: l ∧ d'.row = d.row + 1) ∧
        (d.row = 63 → d.part = [] → d.nest = false → (a t).drains = l ∧ (vget (a t).tile d.tile).st = .empty))

/-! ### Collation (R271 to R288) -/

/-- Collation commands: `clstat` gives its result the status word of its slot; any other command of a slot that is not set completes
with result 4 and reads no memory; `clxch` is announced on its die. Two announcements that can pair become transfers; a side that
has written and sent every piece completes with result 0; an announcement past its limit ends with result 7; a transfer
whose partner has gone goes on to write zeros over its buffer, piece after piece, and ends with result 6. No poison is about, no
request fails, no line written is pinned (R194), no choice of the hardware leaves bytes for later (R249, log entry 2), and a set whose
command begins does not leave its core (R325). That a command goes on in steps, an exchange in pieces, is the model's choice (log entry
18). -/
def Obligations.Collations : Prop :=
  ∀ (s : State) (g : Nat) (e : Entry) (rest : List Entry) (r : CollRun) (cls : BitVec 3) (x y : XReg), s.mpois = [] → s.MemOk →
    let a (t : State) : CtxSet := t.aset g
    let head (i : Instr) : Prop := (a s).crun = none ∧ (a s).cq = e :: rest ∧ e.instr = i ∧ (a s).leaving = false
    let ran (t : State) : Prop := (a t).crun = none ∧ (a t).cq = rest ∧ SameBytes s t
    let status (t : State) : W64 := (vget (a t).cls8 cls).status
    let sl := vget (a s).cls8 cls
    let me : Nat × Nat := (g, (a s).sid)
    let pieces := 2 + 3 * 2 ^ sl.n.toNat
    let zeros (d loc : Nat) : Prop :=
      let p := s.collB g r.e
      s.eptrCheck g p = .go ∧
      (∀ need bit b, b < 32 → s.eptrByte g p need bit ((d + b : Nat) : Int) = .ok (loc + b)) ∧
      (∀ b, b < 32 → ∀ l ∈ [loc + b, 64 * ((loc + b) / 64)],
        s.addrFate g l (s.eptrVia g p) = .ok ∧ s.remote g l (s.eptrVia g p) = false ∧ s.pinned (l / 64) = false) ∧
      (s.core g).xfer (a s).sid .cell = none ∧ (s.core g).collating.length ≤ 1 ∧ s.oracle = []
    let apart (t : State) (loc n : Nat) : Prop := ∀ l, l < loc ∨ loc + n ≤ l → t.mem.get l = s.mem.get l
    (head (.clstat x cls) → e.play = none → (s.ctx g e.ctx).hold = .result 1 e.num x →
      ∃ t, exec (.collationCommandExecute g) s = .next t ∧ ran t ∧ (t.ctx g e.ctx).hold = .none ∧
        (x ≠ 0 → (t.ctx g e.ctx).rx x = sl.status) ∧ (a t).time .tlc = ((a s).time .tlc).complete e.num) ∧
    (∀ i op, head i → collOp i = some (cls, op) → op ≠ 0 → op ≠ 7 → sl.set = false →
      ∃ t, exec (.collationCommandExecute g) s = .next t ∧ ran t ∧ status t = BitVec.ofNat 64 (op * 16 + 4) ∧
        (a t).time .tlc = ((a s).time .tlc).complete e.num) ∧
    (head (.clxch cls x y) → sl.set = true →
      ∃ t q, exec (.collationCommandExecute g) s = .next t ∧ (a t).cq = rest ∧ SameBytes s t ∧
        (t.die (g / 128)).announced = (s.die (g / 128)).announced ++ [me] ∧
        (a t).crun = some q ∧ q.e = e ∧ q.phase = .announced ∧ q.since = s.clk) ∧
    (∀ (b : Nat × Nat) (ta tb : CtxSet) (ra rb : CollRun), s.collOf me = some (ta, ra) → s.collOf b = some (tb, rb) →
      s.canPair me b = true → (s.die (g / 128)).announced = [me] → (s.die (b.1 / 128)).announced = [b] →
      g / 128 < 8 → b.1 / 128 < 8 → (ta.slotOf ra.e.instr).n = (tb.slotOf rb.e.instr).n →
      ∃ t ta' tb', exec (.clxchPair g) s = .next t ∧ SameBytes s t ∧
        (t.die (g / 128)).announced = [] ∧ (t.die (b.1 / 128)).announced = [] ∧
        t.collOf me = some (ta', { ra with phase := .transfer, i := 0, j := 0, partner := some b }) ∧
        t.collOf b = some (tb', { rb with phase := .transfer, i := 0, j := 0, partner := some me })) ∧
    ((a s).crun = some r → r.e.instr = .clxch cls x y →
      (r.phase = .transfer → r.i = pieces → r.j = pieces →
        ∃ t, exec (.clxchTransferDone g) s = .next t ∧ (a t).crun = none ∧ status t = 0x50 ∧ SameBytes s t) ∧
      (r.phase = .announced → me ∈ (s.die (g / 128)).announced → (if sl.limit = 0 then 2 ^ 24 else sl.limit.toNat) ≤ s.clk - r.since →
        ∃ t, exec (.clxchNoPartner g) s = .next t ∧ (a t).crun = none ∧ status t = 0x57 ∧ SameBytes s t ∧
          me ∉ (t.die (g / 128)).announced) ∧
      (r.phase = .transfer → r.partner = none → r.j ≠ pieces → (s.core g).xfer (a s).sid .recv = none →
        ∃ t, exec (.clxchExchangeFailed g) s = .next t ∧ SameBytes s t ∧
          (a t).crun = some { r with phase := .zero, i := 0, j := 0, buf := [] }) ∧
      (∀ loc, r.phase = .zero → r.i < pieces → zeros (32 * r.i) loc →
        ∃ t, exec (.cellOperation g) s = .next t ∧ apart t loc 32 ∧ (∀ b, b < 32 → t.mem.get (loc + b) = 0) ∧
          (r.i + 1 < pieces → (a t).crun = some { r with i := r.i + 1 }) ∧
          (r.i + 1 = pieces → (a t).crun = none ∧ status t = 0x56)))

/-- Hash function j of a key (R274): the XOR of eight entries of the slot's table, one for each byte of the key. -/
def hashOf (c : ClassSlot) (j : Nat) (key : Nat) : W32 :=
  let at_ (b : Nat) : W32 := c.table.getD (256 * (8 * j + b) + key / 256 ^ b % 256) 0
  at_ 0 ^^^ at_ 1 ^^^ at_ 2 ^^^ at_ 3 ^^^ at_ 4 ^^^ at_ 5 ^^^ at_ 6 ^^^ at_ 7

/-- The cell of a key in sub-table j (R274). -/
def cellOf (c : ClassSlot) (j : Nat) (key : W64) : Nat := j * 2 ^ c.n.toNat + (hashOf c j key.toNat).toNat % 2 ^ c.n.toNat

/-- The fields of a cell's little-endian bytes (R275). -/
def cellCount (v : Nat) : Nat := bitsOf v 31 0
def cellCheck (v : Nat) : Nat := bitsOf v 63 32
def cellKey (v : Nat) : Nat := bitsOf v 127 64
def cellPay (v : Nat) : Nat := bitsOf v 255 128

/-- A cell is pure: its count is 1 or -1, and its check that of its key (R275). -/
def isPure (c : ClassSlot) (v : Nat) : Bool :=
  (cellCount v == 1 || cellCount v == 2 ^ 32 - 1) && cellCheck v == (hashOf c 3 (cellKey v)).toNat

/-- A cell with n added to its count, and a key with its check and a payload folded in by XOR; only the bytes that the class keeps
(R277, R278). -/
def folded (c : ClassSlot) (v : Nat) (n : W32) (check : W32) (key : W64) (pay : BitVec 128) : Nat :=
  let w := (BitVec.ofNat 32 (cellCount v) + n).toNat + 2 ^ 32 * (BitVec.ofNat 32 (cellCheck v) ^^^ check).toNat +
    2 ^ 64 * (BitVec.ofNat 64 (cellKey v) ^^^ key).toNat + 2 ^ 128 * (BitVec.ofNat 128 (cellPay v) ^^^ pay).toNat
  if c.keyonly then w % 2 ^ 128 else w

/-- The n bytes from distance d of a captured token pointer lie at loc, in usable HBM4E of the core's die, and may be read, or
written, when their lines are not pinned (R119, R194). -/
def Spot (s : State) (g : Nat) (x : W64) (k : Option Token) (write : Bool) (d n loc : Nat) : Prop :=
  match s.eptr g x k with
  | .token _ pol t off =>
    s.issueCheck g t = .go ∧ ∀ b, b < n → off + d + b < 2 ^ 48 ∧
      s.tokenByte g t (if write then 2 else readRights pol) (off + d + b) = .ok (loc + b) ∧ region (loc + b) = .hbm ∧
      ∀ l ∈ [loc + b, 64 * ((loc + b) / 64)], s.remote g l (s.via g (some t)) = false ∧ s.addrFate g l (s.via g (some t)) = .ok ∧
        (write = true → s.pinned (l / 64) = false)
  | _ => False

/-- Collation commands on sketches (R273 to R279, R281 to R284, R286). `clset` reads its descriptor, and leaves its slot unset with
result 4 where a field is out of its limits or the table's pointer is no valid token pointer; else it reads the table, and the
slot takes the fields, the table and result 0. A count past 2^32 - 1 gives result 4, and a header that does not match result 2, with
nothing written; `clins` and `cldel` of no entry end at once. `clclr` writes the header and zeros cell by cell. `clins` and `cldel`
fold each entry into its three cells, and then add to net, or take from it; `clsub` folds each cell of the second sketch out of
the first, and then its net. `clpeel` notes the pure cells in rising order, and takes the first noted: one that is pure still is
written as a record, when there is room (else result 3), folded out of its three cells and net, and those of the three that are
pure and not noted are noted; with none noted it counts what is not empty, and ends with result 0 or 1. Each step writes the
bytes it names and no other, and an operation on a cell waits for no access of which a part has been performed there (R278, R282). No
poison is about, no line written is pinned (R194), no choice of the hardware leaves bytes for later (R249, log entry 2), and the set
does not leave its core (R325). That a command goes on cell by cell, and that clset reads the k register of its table's pointer once,
when it executes, is the model's choice (log entry 18). -/
def Obligations.Sketches : Prop :=
  ∀ (s : State) (g : Nat) (e : Entry) (rest : List Entry) (r : CollRun) (cls : BitVec 3) (x y z : XReg) (f : Bool) (la lb : Nat),
    let a (t : State) : CtxSet := t.aset g
    let sl := vget (a s).cls8 cls
    let n := if sl.keyonly then 16 else 32
    let cells := 3 * 2 ^ sl.n.toNat
    let head (i : Instr) : Prop := (a s).crun = none ∧ (a s).cq = e :: rest ∧ e.instr = i ∧ (a s).leaving = false
    let first (i : Instr) : Prop := head i ∧ sl.set = true
    let begun (t : State) : Prop := (a t).cq = rest ∧ SameBytes s t
    let ended (t : State) (y : Entry) (st : Nat) : Prop := (a t).crun = none ∧ (vget (a t).cls8 cls).status = BitVec.ofNat 64 st ∧
      (a t).time .tlc = ((a s).time .tlc).complete y.num
    let goes (t : State) (q : CollRun) : Prop := (a t).crun = some q
    let finishes (t : State) (st : Nat) : Prop := ended t r.e st
    let apart (t : State) (loc m : Nat) : Prop := ∀ l, l < loc ∨ loc + m ≤ l → t.mem.get l = s.mem.get l
    let wrote (t : State) (loc m v : Nat) : Prop := t.readNat loc m = v ∧ apart t loc m
    let runs (i : Instr) (p : CollPhase) (j : Nat) : Prop :=
      (a s).crun = some r ∧ r.e.instr = i ∧ r.phase = p ∧ r.j = j ∧ r.mark = false ∧ (a s).leaving = false
    let readA (d m loc : Nat) : Prop := Spot s g r.e.x0 r.e.k0 false d m loc
    let writeA (d m loc : Nat) : Prop := Spot s g r.e.x0 r.e.k0 true d m loc
    let readB (d m loc : Nat) : Prop := Spot s g r.e.x1 r.e.k1 false d m loc
    let writeB (d m loc : Nat) : Prop := Spot s g r.e.x1 r.e.k1 true d m loc
    let both (d m loc : Nat) : Prop := readA d m loc ∧ writeA d m loc ∧
      let locs := (List.range m).map (loc + ·)
      s.halfRead 8 locs = false ∧ s.halfWritten locs = false
    let fits (loc : Nat) : Prop := s.readNat loc 2 = sl.id.toNat ∧ s.readNat (loc + 2) 1 = sl.n.toNat ∧ s.readNat (loc + 4) 2 = sl.round.toNat
    let insert : Instr := if f then .cldel cls x y z else .clins cls x y z
    let one : W32 := if f then 0xFFFFFFFF else 1
    let peel : Instr := .clpeel cls f x y z
    let old := s.readNat la n
    s.mpois = [] → s.MemOk → s.oracle = [] → (s.core g).xfer (a s).sid .cell = none → (s.core g).collating.length ≤ 1 →
    (head (.clset cls x) → Spot s g e.x0 e.k0 false 0 64 la →
      let d (o m : Nat) : Nat := s.readNat (la + o) m
      let v := d 8 8
      let k := vget (a s).k (BitVec.ofNat 4 (bitsOf v 55 52))
      let good : Prop := 1 ≤ d 0 2 ∧ 2 ≤ d 2 1 ∧ d 2 1 ≤ 18 ∧ d 3 1 ≤ 1 ∧ d 6 2 = 0 ∧ d 16 1 < 32 ∧ d 17 1 < 8 ∧ d 18 2 = 0 ∧
        d 24 40 = 0 ∧ bitsOf v 63 60 = 2 ∧ bitsOf v 59 56 < 4 ∧ bitsOf v 51 48 = 0 ∧ k.valid = true
      ∃ t, exec (.collationCommandExecute g) s = .next t ∧ begun t ∧
        (¬ good → ended t e 4 ∧ vget (a t).cls8 cls = { status := 4 }) ∧
        (good → ∃ q, (a t).crun = some q ∧ q.e = { e with x1 := BitVec.ofNat 64 v, k1 := some k } ∧ q.phase = .insert ∧ q.j = 1 ∧
          q.buf = (List.range 64).map fun o => (s.mem.get (la + o), false))) ∧
    (runs (.clset cls x) .insert 1 → readB 0 32768 lb →
      let d (o m : Nat) : Nat := leNat (((r.buf.drop o).take m).map (·.1))
      ∃ t, exec (.cellOperation g) s = .next t ∧ finishes t 0 ∧ SameBytes s t ∧ vget (a t).cls8 cls =
        { set := true, id := BitVec.ofNat 16 (d 0 2), n := BitVec.ofNat 8 (d 2 1), keyonly := decide (d 3 1 % 2 = 1)
          round := BitVec.ofNat 16 (d 4 2), peerPkg := BitVec.ofNat 5 (d 16 1), peerDie := BitVec.ofNat 3 (d 17 1)
          limit := BitVec.ofNat 32 (d 20 4), status := 0
          table := (List.range 8192).map fun i => BitVec.ofNat 32 (s.readNat (lb + 4 * i) 4) }) ∧
    (first (.clclr cls x) → ∃ t, exec (.collationCommandExecute g) s = .next t ∧ begun t ∧ (a t).crun = some { e := e, phase := .clear, j := 1 }) ∧
    (first insert ∨ first peel → 2 ^ 32 ≤ e.x2.toNat →
      ∃ t, exec (.collationCommandExecute g) s = .next t ∧ begun t ∧ ended t e (16 * (match e.instr with | .clins .. => 2 | .cldel .. => 3 | _ => 6) + 4)) ∧
    (first insert ∨ first peel → e.x2.toNat < 2 ^ 32 → Spot s g e.x0 e.k0 false 0 64 la →
      let op := match e.instr with | .clins .. => 2 | .cldel .. => 3 | _ => 6
      ∃ t, exec (.collationCommandExecute g) s = .next t ∧ begun t ∧ (¬ fits la → ended t e (16 * op + 2)) ∧ (fits la → op ≠ 6 → e.x2 = 0 → ended t e (16 * op)) ∧
        (fits la → op = 6 ∨ e.x2 ≠ 0 → (a t).crun = some { e := e, phase := if op = 6 then .scan else .insert, j := 1 })) ∧
    (first (.clsub cls x y) → Spot s g e.x0 e.k0 false 0 64 la → Spot s g e.x1 e.k1 false 0 64 lb →
      ∃ t, exec (.collationCommandExecute g) s = .next t ∧ begun t ∧ (¬ (fits la ∧ fits lb) → ended t e 0x42) ∧
        (fits la → fits lb → (a t).crun = some { e := e, phase := .sub, j := 1 })) ∧
    (runs (.clclr cls x) .clear 1 →
      (r.i = 0 → writeA 0 64 la → ∃ t, exec (.cellOperation g) s = .next t ∧ goes t { r with i := 1 } ∧
        wrote t la 64 (sl.id.toNat + 2 ^ 16 * sl.n.toNat + 2 ^ 32 * sl.round.toNat)) ∧
      (0 < r.i → writeA (64 + 32 * (r.i - 1)) 32 la →
        ∃ t, exec (.cellOperation g) s = .next t ∧ (r.i ≠ cells → goes t { r with i := r.i + 1 }) ∧ (r.i = cells → finishes t 0x10) ∧ wrote t la 32 0)) ∧
    (runs insert .insert 1 → let m := if sl.keyonly then 8 else 24
      readB (m * r.i) m lb → ∃ t, exec (.cellOperation g) s = .next t ∧ SameBytes s t ∧ goes t { r with
        key := BitVec.ofNat 64 (s.readNat lb 8), pay := if sl.keyonly then 0 else BitVec.ofNat 128 (s.readNat (lb + 8) 16), j := 2 }) ∧
    (∀ j, 2 ≤ j → j ≤ 4 → runs insert .insert j → both (64 + 32 * cellOf sl (j - 2) r.key) n la →
      let next : CollRun := if j < 4 then { r with j := j + 1 } else if r.i + 1 < r.e.x2.toNat then { r with i := r.i + 1, j := 1 }
        else { r with phase := .net, j := 1 }
      ∃ t, exec (.cellOperation g) s = .next t ∧ goes t next ∧ wrote t la n (folded sl old one (hashOf sl 3 r.key.toNat) r.key r.pay)) ∧
    (runs insert .net 1 → both 8 8 la →
      let w := s.readNat la 8
      ∃ t, exec (.cellOperation g) s = .next t ∧ finishes t (256 * (r.e.x2.toNat % 2 ^ 32) + (if f then 0x30 else 0x20)) ∧
        wrote t la 8 ((if f then BitVec.ofNat 64 w - r.e.x2 else BitVec.ofNat 64 w + r.e.x2).toNat)) ∧
    (runs (.clsub cls x y) .sub 1 → readB (64 + 32 * r.i) n lb →
      let v := s.readNat lb n
      ∃ t, exec (.cellOperation g) s = .next t ∧ SameBytes s t ∧ goes t { r with
        key := BitVec.ofNat 64 (cellKey v), pay := BitVec.ofNat 128 (cellPay v), check := BitVec.ofNat 32 (cellCheck v)
        side := BitVec.ofNat 32 (cellCount v), j := 2 }) ∧
    (runs (.clsub cls x y) .sub 2 → both (64 + 32 * r.i) n la →
      let next : CollRun := if r.i + 1 < cells then { r with i := r.i + 1, j := 1 } else { r with phase := .net, j := 1 }
      ∃ t, exec (.cellOperation g) s = .next t ∧ goes t next ∧ wrote t la n (folded sl old (-r.side) r.check r.key r.pay)) ∧
    (runs (.clsub cls x y) .net 1 → both 8 8 la → readB 8 8 lb →
      ∃ t, exec (.cellOperation g) s = .next t ∧ finishes t 0x40 ∧ wrote t la 8 ((BitVec.ofNat 64 (s.readNat la 8) - BitVec.ofNat 64 (s.readNat lb 8)).toNat)) ∧
    (runs peel .scan 1 → readA (64 + 32 * r.i) n la →
      let noted : CollRun := if isPure sl old then { r with q := r.q ++ [r.i], inq := insertNat r.inq r.i } else r
      let next : CollRun := if r.i + 1 < cells then { noted with i := r.i + 1 } else { noted with phase := .peel, i := 0, j := 1 }
      ∃ t, exec (.cellOperation g) s = .next t ∧ goes t next ∧ SameBytes s t) ∧
    (runs peel .peel 1 → r.q = [] → ∃ t, exec (.cellOperation g) s = .next t ∧ goes t { r with phase := .count, i := 0 } ∧ SameBytes s t) ∧
    (∀ i q, runs peel .peel 1 → r.q = i :: q → readA (64 + 32 * i) n la →
      let next : CollRun := { r with q := q, inq := r.inq.filter (· != i) }
      let taken : CollRun := { next with
        key := BitVec.ofNat 64 (cellKey old), pay := BitVec.ofNat 128 (cellPay old), side := BitVec.ofNat 32 (cellCount old), j := 2 }
      ∃ t, exec (.cellOperation g) s = .next t ∧ SameBytes s t ∧ (isPure sl old = false → goes t next) ∧
        (isPure sl old = true → r.out = r.e.x2.toNat → finishes t (256 * (r.out % 2 ^ 32) + 0x63)) ∧
        (isPure sl old = true → r.out ≠ r.e.x2.toNat → goes t taken)) ∧
    (runs peel .peel 2 → writeB (32 * r.out) 32 lb → ∃ t, exec (.cellOperation g) s = .next t ∧ goes t { r with out := r.out + 1, j := 3 } ∧
      wrote t lb 32 (r.key.toNat + 2 ^ 64 * r.pay.toNat + 2 ^ 192 * r.side.toNat)) ∧
    (∀ j, 3 ≤ j → j ≤ 5 → runs peel .peel j → both (64 + 32 * cellOf sl (j - 3) r.key) n la →
      ∃ t, exec (.cellOperation g) s = .next t ∧ goes t { r with j := j + 1 } ∧ wrote t la n (folded sl old (-r.side) (hashOf sl 3 r.key.toNat) r.key r.pay)) ∧
    (runs peel .peel 6 → both 8 8 la →
      ∃ t, exec (.cellOperation g) s = .next t ∧ goes t { r with j := 7 } ∧ wrote t la 8 ((BitVec.ofInt 64 (s.readNat la 8 - r.side.toInt)).toNat)) ∧
    (∀ j, 7 ≤ j → j ≤ 9 → runs peel .peel j → let i := cellOf sl (j - 7) r.key
      readA (64 + 32 * i) n la →
      let noted : CollRun := if isPure sl old && !r.inq.contains i then { r with q := r.q ++ [i], inq := insertNat r.inq i } else r
      ∃ t, exec (.cellOperation g) s = .next t ∧ goes t { noted with j := if j < 9 then j + 1 else 1 } ∧ SameBytes s t) ∧
    (runs peel .count 1 → readA (64 + 32 * r.i) n la →
      let left := r.residual + (if old = 0 then 0 else 1)
      ∃ t, exec (.cellOperation g) s = .next t ∧ SameBytes s t ∧ (r.i + 1 < cells → goes t { r with residual := left, i := r.i + 1 }) ∧
        (cells ≤ r.i + 1 → finishes t (2 ^ 40 * (left % 2 ^ 24) + 256 * (r.out % 2 ^ 32) + 0x60 + (if left = 0 then 0 else 1))))

/-! ### Galleys and the job port -/

/-- The galley sequencer and the job port: `gend` installs the galley its issue finished; the checks of a play that pass give it its
number, which its context receives, and the entries to feed; an empty slot traps GSMD and a guard that does not hold traps
GGRD with its index; the play feeds a command into its engine's queue with the next number, goes past a wait whose count is complete and
acquires, and ends; a play all of whose commands have completed completes on tlg; `gdrop` empties its slot, and `gstat`
describes it (R299, R300, R304, R308, R309). `jpost` copies its card into the next place of an enabled queue and moves
tail, or sets mstat.stray; `jstat` answers 0 for no card and the word of a waiting card; `jprio` sets the priority; `jyield` goes on when
no other party waits; `jdone` notes a failure (R333 to R337). No poison is about, no choice of the hardware leaves bytes for later
(R249, log entry 2), the set does not leave its core (R325), and nothing that the play feeds is being discarded (R127). That a play's
checks before its translates are one step, and that an entry of the queue is completed in the step that performs it, are the model's
choice (log entry 25). -/
def Obligations.GalleysAndJobs : Prop :=
  ∀ (s : State) (g : Nat) (e : Entry) (rest : List Entry) (n : BitVec 3) (x y : XReg), s.mpois = [] → s.MemOk → s.oracle = [] →
    (s.aset g).leaving = false →
    let a (t : State) : CtxSet := t.aset g
    let head (i : Instr) : Prop := (a s).plays = [] ∧ (a s).gq = e :: rest ∧ e.instr = i ∧ (a s).gcheck = none ∧
      (s.core g).xfer (a s).sid .gal = none
    let slot (t : State) (n : BitVec 3) : Option Galley := vget (t.core g).galley n
    let ended (t : State) : Prop := (a t).gq = rest ∧ SameBytes s t ∧ (a t).time .tlg = ((a s).time .tlg).complete e.num
    let port (i : Instr) : Prop := (a s).jq = e :: rest ∧ e.instr = i
    let left (t : State) : Prop := exec (.jobPortEntryExecute g) s = .next t ∧ (a t).jq = rest ∧ (a t).jheld = false
    (∀ f, head .gend → (s.core g).gReady.find? (fun f => f.sid == (a s).sid && f.num == e.num) = some f →
      ∃ t, exec (.galleyInstall g) s = .next t ∧ ended t ∧ slot t f.g = some f.gal ∧ (∀ m, m ≠ f.g → slot t m = slot s m) ∧
        f ∉ (t.core g).gReady) ∧
    (∀ core off gal, head (.gplay x n y) → s.eptr g e.x1 e.k1 = .vault core off → (s.die (core / 128)).fenced = false →
      core < 1024 → off + 128 ≤ 2 ^ 21 → slot s n = some gal →
      let patch : Vector W64 16 := Vector.ofFn fun i => BitVec.ofNat 64 (s.readNat (vaultLoc core (off + 8 * i.val)) 8)
      let c := s.ctx g e.ctx
      let handled : Prop := (s.core g).rec_ = none ∧ s.checkTarget g e.ctx c.tvec = .ok
      hdrTenant gal.hdr = (a s).tenant → hdrStatus gal.hdr = 1 → gal.bad = [] →
      (gal.ofKind 1 = [] → gal.ofKind 2 = [] → gal.ofKind 6 = [] →
        let num := ((a s).time .tlg).issued + 1
        ∃ t p, exec (.galleyPlayCheck g) s = .next t ∧ (a t).gq = rest ∧ (a t).plays = [p] ∧ p.num = num ∧ p.ctx = e.ctx ∧
          p.rest = gal.feed ∧ p.patch = patch ∧ p.table = (a s).k ∧ ((a t).time .tlg).issued = num ∧
          (x ≠ 0 → (t.ctx g e.ctx).rx x = BitVec.ofNat 64 num) ∧ (t.ctx g e.ctx).hold = .none ∧ SameBytes s t) ∧
      (∀ w i, gal.ofKind 1 = [(w, i, false)] → guardOk patch w = false → handled →
        ∃ t, exec (.galleyPlayCheck g) s = .next t ∧ Trapped s t g e.ctx .ggrd (BitVec.ofNat 64 i) c.pc)) ∧
    (∀ core off, head (.gplay x n y) → s.eptr g e.x1 e.k1 = .vault core off → (s.die (core / 128)).fenced = false →
      core < 1024 → off + 128 ≤ 2 ^ 21 → slot s n = none →
      (s.core g).rec_ = none → s.checkTarget g e.ctx (s.ctx g e.ctx).tvec = .ok →
      ∃ t, exec (.galleyPlayCheck g) s = .next t ∧ Trapped s t g e.ctx .gsmd 0x300 (s.ctx g e.ctx).pc) ∧
    (∀ p l, (a s).plays = p :: l →
      (p.rest = [] → ∃ t, exec (.galleyFeed g) s = .next t ∧ (a t).plays = l ∧ (a t).fed = (a s).fed ++ [p] ∧ SameBytes s t) ∧
      (∀ w at_ r i tl, p.rest = ⟨w, at_, false⟩ :: r → entKind w = 3 → (∀ x ∈ p.rest, s.feedBad g p x = false) → cmdInstr w = some i → (engQueue i).timeline = some tl →
        let ops := r.take (w.extractLsb' 118 2).toNat
        let f := feedEntry p (s.ctx g p.ctx).sup w ops i
        f.tokens = [] → (a s).queueFull f.ctx (engQueue i) = false → (s.ctx g p.ctx).pend.queues = [] →
        ∃ t p' l', exec (.galleyFeed g) s = .next t ∧ SameBytes s t ∧
          queueOf (a t) f.ctx (engQueue i) = queueOf (a s) f.ctx (engQueue i) ++ [{ f with num := ((a s).time tl).issued + 1 }] ∧
          ((a t).time tl).issued = ((a s).time tl).issued + 1 ∧
          (a t).plays = p' :: l' ∧ p'.rest = r.drop (w.extractLsb' 118 2).toNat) ∧
      (∀ w at_ r tl, p.rest = ⟨w, at_, false⟩ :: r → entKind w = 5 → s.feedBad g p ⟨w, at_, false⟩ = false → tlOfCode (w.extractLsb' 119 3).toNat = some tl →
        let rel := (w.extractLsb' 0 64).toInt
        let now := ((a s).time tl).done
        (1 ≤ rel ∧ (∃ m, (nget p.took (tlIdx tl))[rel.toNat - 1]? = some m ∧ m ≤ now)) ∨
          (rel < 1 ∧ ((nget p.base (tlIdx tl) : Nat) : Int) + rel ≤ now) →
        ∃ t p' l', exec (.galleyWaitRelease g) s = .next t ∧ (a t).plays = p' :: l' ∧ p'.rest = r ∧
          (t.core g).l1 = ownedWords (s.core g).l1 ∧ SameBytes s t)) ∧
    (∀ p, (a s).fed.find? (a s).playDone = some p →
      ∃ t, exec (.galleyPlayComplete g) s = .next t ∧ (a t).time .tlg = ((a s).time .tlg).complete p.num ∧
        (∀ q ∈ (a t).fed, q.num ≠ p.num) ∧ ((a s).cardPlay = some p.num → (a t).playOver = true) ∧ SameBytes s t) ∧
    (head (.gdrop n) → (∀ gal, slot s n = some gal → hdrTenant gal.hdr = (a s).tenant) →
      ∃ t, exec (.galleyEntryExecute g) s = .next t ∧ ended t ∧ slot t n = none ∧ ∀ m, m ≠ n → slot t m = slot s m) ∧
    (head (.gstat x n) → slot s n = none → (s.core g).rec_ = none → e.play = none → (s.ctx g e.ctx).hold = .result 3 e.num x →
      ∃ t, exec (.galleyEntryExecute g) s = .next t ∧ ended t ∧ (t.ctx g e.ctx).hold = .none ∧
        (x ≠ 0 → (t.ctx g e.ctx).rx x = BitVec.ofNat 64 (3 * 2 ^ 18 + (vget (s.core g).gLast n).toNat * 2 ^ 13))) ∧
    (port (.jpost x y) → s.storesDone g e.upTo = true → (a s).jcard = none → (s.core g).xfer (a s).sid .job = none →
      let d := e.x1.toNat / 64
      let q : BitVec 6 := BitVec.ofNat 6 e.x1.toNat
      let k := s.qdesc d q
      let card := podAddr s d (k.slotAddr k.tail)
      let tail := podAddr s d (qdescAddr q + 16)
      (512 ≤ e.x1.toNat → ∃ t, left t ∧ SameBytes s t ∧ (t.ctx g e.ctx).mstat = (s.ctx g e.ctx).mstat ||| 0x20) ∧
      (∀ core off, e.x1.toNat < 512 → k.enabled = true → k.coresPost = true → e.sup = true →
        s.eptr g e.x0 e.k0 = .vault core off → (s.die (core / 128)).fenced = false → core < 1024 → off + 256 ≤ 2 ^ 21 → (k.tail - k.free).toNat < 2 ^ k.logcap →
        s.reaches (g / 128) (s.pkgid.toNat * 8 + d) = true → k.slotAddr k.tail < 0x1FC0000000 →
        card + 256 ≤ tail ∨ tail + 4 ≤ card →
        ∃ t, left t ∧ t.readNat tail 4 = (k.tail + 1).toNat ∧
          (∀ i, i < 256 → t.mem.get (card + i) =
            if i = 10 then BitVec.ofNat 8 e.x1.toNat else if i = 11 then BitVec.ofNat 8 (e.x1.toNat / 256)
            else if 224 ≤ i ∧ i < 232 then 0 else s.mem.get (vaultLoc core (off + i))) ∧
          (∀ l, (l < card ∨ card + 256 ≤ l) → (l < tail ∨ tail + 4 ≤ l) → t.mem.get l = s.mem.get l))) ∧
    (port (.jstat x y) → e.play = none → (s.ctx g e.ctx).hold = .result 4 e.num x → x ≠ 0 →
      let found := s.findCard (e.x1.setWidth 32) (a s).tenant
      (found = none → ∃ t, left t ∧ SameBytes s t ∧ (t.ctx g e.ctx).rx x = 0) ∧
      (∀ m c, found = some (m, c) → c.st = .wait → c.cores = [] → c.ended = 0 → c.bound = 0 →
        ∃ t, left t ∧ SameBytes s t ∧ (t.ctx g e.ctx).rx x = BitVec.ofNat 64 (c.preds.toNat * 2 ^ 34 + c.prio.toNat * 2 ^ 8 + 1))) ∧
    (∀ m c, port (.jprio x y) → s.findCard (e.x0.setWidth 32) (a s).tenant = some (m, c) →
      ∃ t, left t ∧ SameBytes s t ∧ fget t.cards m = some { c with prio := e.x1.setWidth 3 }) ∧
    (port .jyield → s.othersWait g = false → ∃ t, left t ∧ SameBytes s t ∧ (t.core g).active = (s.core g).active) ∧
    (port .jdone → s.storesDone g e.upTo = true →
      ∃ t, left t ∧ SameBytes s t ∧ ((s.ctx g e.ctx).fail ≠ {} → (a t).stFail = true) ∧
        ((s.ctx g e.ctx).fail = {} → (a t).stFail = (a s).stFail))

/-- The token that an EXTK entry names passes for a tenant (R294, R299): it is not valid, or its entry has its generation, its rights and
its length, is not FREE and is the tenant's. -/
def passesExt (s : State) (g : Nat) (tenant : Byte) (e : BitVec 128) : Prop :=
  let v := e.toNat
  let p := s.pin (g / 128) (BitVec.ofNat 20 (bitsOf v 107 88))
  bitsOf v 81 81 = 0 ∨ (p.gen.toNat = bitsOf v 119 108 ∧ p.state ≠ .free ∧ p.tenant = tenant ∧ p.rights.toNat = bitsOf v 87 84 ∧
    p.lenm1.toNat = bitsOf v 80 41)

/-- The token of an EXTK entry (R294). -/
def extToken (e : BitVec 128) : Token :=
  let v := e.toNat
  { gen := BitVec.ofNat 12 (bitsOf v 119 108), pte := BitVec.ofNat 20 (bitsOf v 107 88), rights := BitVec.ofNat 4 (bitsOf v 87 84)
    ms := decide (bitsOf v 83 83 = 1), host := decide (bitsOf v 82 82 = 1), valid := decide (bitsOf v 81 81 = 1)
    lenm1 := BitVec.ofNat 40 (bitsOf v 80 41) }

/-- The kind of an entry (R292). -/
def kindOf (e : BitVec 128) : Nat := bitsOf e.toNat 127 124

/-- A header that `gload` installs for a tenant (R293, R307). -/
def goodHeader (tenant : Byte) (e : BitVec 128) : Prop :=
  let v := e.toNat
  kindOf e = 0 ∧ bitsOf v 94 93 = 1 ∧ bitsOf v 89 82 = tenant.toNat ∧ 10 ≤ bitsOf v 123 111 ∧ bitsOf v 123 111 ≤ 4096 ∧ bitsOf v 64 64 = 0

/-- A word of a CMD that a recording keeps (R295, R307): V instructions, and those of the matrix, stream and collation groups but
`clxch`. -/
def keptWord (e : BitVec 128) : Bool :=
  let v := e.toNat
  match decode (if bitsOf v 121 120 = 1 then .v else .e) (BitVec.ofNat 32 v) with
  | .ok i => match engQueue i, i with
    | .gal, _ | .job, _ => false
    | _, .clxch .. => false
    | _, _ => true
  | .error _ => false

/-- An entry between the values and END that `gload` lets in for itself (R294, R307): its reserved bits are 0. -/
def goodEntry (e : BitVec 128) : Prop :=
  let v := e.toNat
  match kindOf e with
  | 1 => bitsOf v 114 112 = 0
  | 2 => bitsOf v 69 64 = 0
  | 3 => bitsOf v 114 32 = 0 ∧ (bitsOf v 121 120 = 1 ∨ bitsOf v 121 120 = 2) ∧ keptWord e = true
  | 4 => bitsOf v 116 64 = 0
  | 5 => bitsOf v 118 64 = 0
  | 6 => bitsOf v 40 0 = 0
  | _ => False

/-- The entries of a copy that `gload` lets in (R292, R307): the values in entries 1 to 8, the others up to END, and after each CMD
exactly its OPNDs. -/
def goodCopy (l : List (BitVec 128)) : Prop :=
  let at_ (i : Nat) : BitVec 128 := l.getD i 0
  let n := l.length
  let ops (i : Nat) : Nat := if kindOf (at_ i) = 3 then bitsOf (at_ i).toNat 119 118 else 0
  (∀ i, i < 8 → kindOf (at_ (1 + i)) = 7 ∧ bitsOf (at_ (1 + i)).toNat 123 120 = 0) ∧ (at_ (n - 1)).toNat = 15 * 2 ^ 124 ∧
    kindOf (at_ 9) ≠ 4 ∧ ∀ i, i < n → 9 ≤ i → i < n - 1 → goodEntry (at_ i) ∧
      (kindOf (at_ i) ≠ 4 → i + ops i < n - 1 ∧ (∀ j, j < ops i → kindOf (at_ (i + 1 + j)) = 4) ∧ kindOf (at_ (i + 1 + ops i)) ≠ 4)

/-- Copies of galleys, and the tokens of a play (R292 to R294, R299, R306, R307). `gsave` of a set slot of its tenant writes the entries in
order, little-endian, and nothing else; of another slot it writes nothing. `gload` reads a copy: one that is not within the rules, or that
would replace another tenant's galley (R291), one of which a valid EXTK fails, and one that the pool has no room for, leave the slot as it
was with the results 2, 3 and 4; another is installed, and the saved counts of its valid tokens' entries rise. A play's first EXTK that
fails traps GSTL with its index; with all passing, its play table has their tokens over the set's registers. Its translates go
one after another: each makes a token in its register, as `trn` does for the extent that its entry and the patch vector give, and in the
play table, or traps GTRN with its index; the play enters its queue after the last. The copies and vectors lie in the vaults, no poison
is about, no recording is open, no line written is pinned (R194), the entry captured no token where counts are stated (its pointer needs
none), no choice of the hardware leaves bytes for later (R249, log entry 2),
and the set does not leave its core (R325). Which FREE entry a translate takes is a free choice (log entry 2). That a gload over another
tenant's galley gives result 2, that a play's checks before its translates are one step, and each translate one, are the model's choice
(log entry 25). -/
def Obligations.GalleyCopies : Prop :=
  ∀ (s : State) (g : Nat) (e : Entry) (rest : List Entry) (n : BitVec 3) (x y : XReg) (core off : Nat),
    let a (t : State) : CtxSet := t.aset g
    let head (i : Instr) : Prop := (a s).plays = [] ∧ (a s).gq = e :: rest ∧ e.instr = i ∧ (a s).leaving = false
    let slot (t : State) (n : BitVec 3) : Option Galley := vget (t.core g).galley n
    let last (t : State) : BitVec 4 := vget (t.core g).gLast n
    let done (t : State) : Prop := (a t).gq = rest ∧ (a t).time .tlg = ((a s).time .tlg).complete e.num ∧ (∀ m, m ≠ n → slot t m = slot s m)
    let inVault (p : EPtr) (m : Nat) : Prop :=
      p = .vault core off ∧ off + m ≤ 2 ^ 21 ∧ core < 1024 ∧ (s.die (core / 128)).fenced = false ∧ s.oracle = []
    let mine (gal : Galley) : Prop := bitsOf gal.hdr.toNat 94 93 = 1 ∧ bitsOf gal.hdr.toNat 89 82 = (a s).tenant.toNat
    let c := s.ctx g e.ctx
    s.mpois = [] → s.MemOk → (s.core g).rec_ = none → (s.core g).gReady = [] →
    (s.core g).xfer (a s).sid .gal = none → (s.core g).xfer (a s).sid .galBody = none →
    (head (.gsave n x) →
      (∀ gal, slot s n = some gal → mine gal → gal.bad = [] → inVault (s.eptr g e.x0 e.k0) (16 * gal.ent.length) →
        (∀ i, i < 16 * gal.ent.length → s.pinned (vaultLoc core (off + i) / 64) = false) →
        ∃ t, exec (.galleyEntryExecute g) s = .next t ∧ done t ∧ last t = 0 ∧ slot t n = slot s n ∧
          (∀ i, i < gal.ent.length → t.readNat (vaultLoc core (off + 16 * i)) 16 = (gal.ent.getD i 0).toNat) ∧
          ∀ l, l < vaultLoc core off ∨ vaultLoc core (off + 16 * gal.ent.length) ≤ l → t.mem.get l = s.mem.get l) ∧
      ((∀ gal, slot s n = some gal → ¬ mine gal) →
        ∃ t, exec (.galleyEntryExecute g) s = .next t ∧ done t ∧ last t = 1 ∧ slot t n = slot s n ∧ SameBytes s t)) ∧
    (head (.gload n x) →
      let at_ (i : Nat) : BitVec 128 := BitVec.ofNat 128 (s.readNat (vaultLoc core (off + 16 * i)) 16)
      let count := bitsOf (at_ 0).toNat 123 111
      let copy := (List.range count).map at_
      let exts := copy.filter fun e => kindOf e = 6 ∧ bitsOf e.toNat 81 81 = 1
      let free : Prop := ∀ gal, slot s n = some gal → bitsOf gal.hdr.toNat 89 82 = (a s).tenant.toNat
      let accepted : Prop := goodHeader (a s).tenant (at_ 0) ∧ free ∧ goodCopy copy
      let fresh : Prop := ∀ e ∈ exts, passesExt s g (a s).tenant e
      let room : Prop := ((s.core g).galley.toList.map fun x => match x with | some gal => gal.ent.length | none => 0).sum + count ≤ 4096
      inVault (s.eptr g e.x0 e.k0) (16 * max count 1) →
      ∃ t, exec (.galleyEntryExecute g) s = .next t ∧ done t ∧ SameBytes s t ∧
        (¬ accepted → last t = 2 ∧ slot t n = slot s n) ∧ (accepted → ¬ fresh → last t = 3 ∧ slot t n = slot s n) ∧
        (accepted → fresh → ¬ room → last t = 4 ∧ slot t n = slot s n) ∧
        (accepted → fresh → room → last t = 0 ∧ slot t n = some { ent := copy, bad := [] } ∧
          (slot s n = none → e.tokens = [] → ∀ p : BitVec 20, t.pin (g / 128) p =
            { s.pin (g / 128) p with saved := (s.pin (g / 128) p).saved + exts.countP fun e => (extToken e).pte == p }))) ∧
    (∀ gal, head (.gplay x n y) → (a s).gcheck = none → inVault (s.eptr g e.x1 e.k1) 128 → slot s n = some gal → mine gal →
      gal.bad = [] → (∀ e ∈ gal.ent, kindOf e ≠ 1) → s.checkTarget g e.ctx c.tvec = .ok →
      let ext (i : Nat) : Prop := kindOf (gal.ent.getD i 0) = 6 ∧ i < gal.ent.length
      let ok (i : Nat) : Prop := passesExt s g (a s).tenant (gal.ent.getD i 0)
      let held (k : KReg) : List (BitVec 128) := gal.ent.filter fun e => kindOf e = 6 ∧ bitsOf e.toNat 123 120 = k.toNat
      let table (v : Vector Token 16) : Prop := ∀ k, vget v k = match (held k).getLast? with | some e => extToken e | none => vget (a s).k k
      let patch (v : Vector W64 16) : Prop := ∀ i : Fin 16, (nget v i).toNat = s.readNat (vaultLoc core (off + 8 * i.val)) 8
      let xlats := (List.range gal.ent.length).filter fun i => kindOf (gal.ent.getD i 0) = 2
      (∀ i, ext i → ¬ ok i → (∀ j, j < i → ext j → ok j) →
        ∃ t, exec (.galleyPlayCheck g) s = .next t ∧ Trapped s t g e.ctx .gstl (BitVec.ofNat 64 i) c.pc) ∧
      ((∀ i, i < gal.ent.length → ext i → ok i) →
        ∃ t, exec (.galleyPlayCheck g) s = .next t ∧ SameBytes s t ∧
          (xlats = [] → ∃ p, (a t).plays = [p] ∧ table p.table ∧ patch p.patch ∧ (a t).gq = rest) ∧
          (xlats ≠ [] → ∃ q, (a t).gcheck = some q ∧ table q.table ∧ patch q.patch ∧ q.rest = xlats ∧ (a t).gq = (a s).gq))) ∧
    (∀ gal q i l, head (.gplay x n y) → (a s).gcheck = some q → q.rest = i :: l → slot s n = some gal → gal.bad = [] →
      i < gal.ent.length → s.checkTarget g e.ctx c.tvec = .ok →
      let v := (gal.ent.getD i 0).toNat
      let kd : KReg := BitVec.ofNat 4 (bitsOf v 123 120)
      let low : W64 := BitVec.ofNat 64 v
      let va : W64 := if bitsOf v 114 114 = 1 then vget q.patch (BitVec.ofNat 4 (bitsOf v 113 110)) + low else low
      let len : W64 := BitVec.ofNat 64 (bitsOf v 109 70 + 1)
      let rights : BitVec 4 := BitVec.ofNat 4 (bitsOf v 119 116)
      let ms : Bool := decide (bitsOf v 115 115 = 1)
      let walk := s.walkExtent (g / 128) (a s).root.toNat va len rights ms
      (∀ k val, walk = .trap k val →
        ∃ t, exec (.galleyPlayCheck g) s = .next t ∧ Trapped s t g e.ctx .gtrn (BitVec.ofNat 64 i) c.pc) ∧
      (∀ fs host (pt : BitVec 20), walk = .frames fs host →
        let deny := s.denyBitmap (g / 128) fs host len.toNat c.clrptr
        let old := s.pin (g / 128) pt
        let token : Token := { pte := pt, gen := old.gen, rights := rights, ms := ms, host := host, valid := true
                               lenm1 := BitVec.ofNat 40 (len.toNat - 1) }
        pt.toNat = s.choose.1 % 2 ^ 20 → old.state = .free → old.gen ≠ 0xFFF →
        (s.die (g / 128)).pool + 8 * fs.length + (if deny = [] then 0 else (len.toNat + 2 ^ 19 - 1) / 2 ^ 19) ≤ 2 ^ 29 →
        (vget (a s).k kd).names pt old.gen = false →
        ∃ t, exec (.galleyPlayCheck g) s = .next t ∧ vget (a t).k kd = token ∧ (∀ k, k ≠ kd → vget (a t).k k = vget (a s).k k) ∧
          (t.pin (g / 128) pt).state = .live ∧ (t.pin (g / 128) pt).gen = old.gen ∧ (t.pin (g / 128) pt).frames = fs ∧
          (t.pin (g / 128) pt).deny = deny ∧ (t.pin (g / 128) pt).base = va ∧ (t.pin (g / 128) pt).tenant = (a s).tenant ∧
          (t.pin (g / 128) pt).prin = c.prin ∧ (t.pin (g / 128) pt).holders = 1#128 <<< (g % 128) ∧
          (l ≠ [] → (a t).gcheck = some { q with table := vset q.table kd token, rest := l } ∧ (a t).gq = (a s).gq) ∧
          (l = [] → ∃ p, (a t).plays = [p] ∧ p.table = vset q.table kd token ∧ p.patch = q.patch ∧ p.rest = gal.feed ∧
            (a t).gcheck = none ∧ (a t).gq = rest ∧ (t.ctx g e.ctx).hold = .none)))

/-! ### Containment (R328 to R331, R338) -/

/-- Containment: an uncorrectable error poisons an 8-byte word, or marks an entry of a galley; `purge` holds its context until the
purge of its tag is complete, and the context then goes on; a purge, by an instruction, by the host or because poison was
consumed, leaves no resident party and no unfinished card of its tag; each consumption starts its own. A purge notifies the die
that found it, which is die 0 for the host's (the model's choice, log entry 9). That poison found is noted, and purged by a later action, and
that a purge reaches every die in the one step that ends it, are the model's choice (log entry 39). -/
def Obligations.Containment : Prop :=
  ∀ (s : State) (g : Nat) (c : CtxId) (tag : W16) (xa : XReg), (s.cards.map Prod.fst).Nodup →
    let purged (t : State) (tag : W16) : Prop :=
      (∀ h p, (nget (t.core h).set p).occupied = true → (nget (t.core h).set p).reqtag ≠ tag) ∧
      (∀ n k, fget t.cards n = some k → k.tag = tag → k.st = .final)
    let noPurger (tag : W16) : Prop :=
      ∀ h p, (nget (s.core h).set p).occupied = true → (nget (s.core h).set p).reqtag = tag →
        (nget (s.core h).set p).atPurge tag = false
    (∀ loc, loc < 2 ^ 61 → ∃ t, exec (.uncorrectableError loc) s = .next t ∧ t.poisoned loc = true ∧ SameBytes s t ∧
      ∀ l, l / 8 ≠ loc / 8 → t.poisoned l = s.poisoned l) ∧
    (∀ (n : BitVec 3) i gal, i < 4096 → vget (s.core g).galley n = some gal →
      ∃ t gal', exec (.uncorrectableError (2 ^ 61 + g * 2 ^ 16 + n.toNat * 2 ^ 12 + i)) s = .next t ∧
        vget (t.core g).galley n = some gal' ∧ i ∈ gal'.bad ∧ gal'.ent = gal.ent ∧ SameBytes s t) ∧
    (s.me.sup = true → ∃ t, exec (.purge xa) s = .next t ∧ t.me = s.me.holdAt s.clk (.purge ((s.rx xa).setWidth 16)) ∧
      t.events.getLsbD (s.curCore / 128 % 8) = true) ∧
    ((s.ctx g c).hold = .purge tag → (s.aset g).reqtag ≠ tag → noPurger tag →
      ∃ t, exec (.purgeComplete g c) s = .next t ∧ t.ctx g c = (s.ctx g c).goOn ∧ purged t tag) ∧
    (∀ h rest, s.poisonHits = h :: rest → noPurger h.tag →
      ∃ t, exec .poisonConsume s = .next t ∧ purged t h.tag ∧ t.poisonHits = rest ∧
        t.events.getLsbD (h.core / 128 % 8) = true) ∧
    (noPurger tag → ∃ t, exec (.hostPurge tag) s = .next t ∧ purged t tag ∧ t.events.getLsbD 0 = true)

/-! ### Cards and parties (R71, R312 to R327) -/

/-- Cards: a dispatcher accepts the next position of an enabled queue: a card without an id ends with status code 0x14, and one
that no check rejects, with no tile and no counter, is READY, or in WAIT while it has predecessors; a migrating tile of one
frame moves into the lowest free staging frame; the best candidate is SELECTED; a party is bound with its rank, its tokens and
its contexts' registers; it starts the contexts with an entry lane; its card retires in order: the status word, the counter, the
successors, and then it is gone (R17, R71, R312, R315 to R324). There is room while held cards and positions that have not been
accepted lie between free and tail (R343). The copy engines move a tile in a window of its tenant (R323), and the
binding passes over the cores that dispatchers of lower dies claim (R322). A card retires when no poison with its tag has still to be
purged (R18, R330). Its queue's slots lie in HBM4E. Which frame a tile takes, and into which steps selecting, placing, binding, starting
and retiring are cut, are the model's choice (log entries 26 and 27). -/
def Obligations.Cards : Prop :=
  ∀ (s : State) (d : Fin 8) (q : BitVec 6) (n : Nat) (c : Card) (g : Nat), s.MemOk →
    let k := s.qdesc d.val q
    let desc := podAddr s d.val (qdescAddr q)
    let at_ := podAddr s d.val (k.slotAddr k.head)
    let clear (a : Nat) : Prop := a + 8 ≤ desc ∨ desc + 64 ≤ a
    let taken := s.setQField d.val q 20 (k.head + 1)
    let words : Vector W64 32 := Vector.ofFn fun i => BitVec.ofNat 64 (s.readNat (at_ + 8 * i.val) 8)
    let new : Card :=
      { die := d, queue := q, pos := k.head, words := words, st := .wait, preds := words[1].extractLsb' 32 16
        prio := words[0].extractLsb' 58 3, prin := s.sdescPrin d.val k.sdesc, tenant := words[0].extractLsb' 32 8 }
    let room : Prop := s.booted = true ∧ (s.die d.val).fenced = false ∧ k.enabled = true ∧ (k.tail - k.head).msb = false ∧
      (k.head - k.free).toNat < (k.tail - k.free).toNat ∧ (k.head - k.free).toNat < 2 ^ k.logcap ∧ k.slotAddr k.head < 0x1FC0000000
    let st := podAddr s d.val (k.slotAddr k.head + 224)
    (room → clear st → new.id = 0 →
      ∃ t, exec (.cardAccept d q) s = .next t ∧ t.readNat st 8 = 0x14 ∧ (t.qdesc d.val q).head = k.head + 1) ∧
    (room → taken.cardCode new = 0 → new.used = [] → new.word 29 = 0 →
      ∃ t, exec (.cardAccept d q) s = .next t ∧ (t.qdesc d.val q).head = k.head + 1 ∧
        fget t.cards s.nextId = some (if new.preds = 0 then { new with st := .ready, readyAt := s.clk } else new)) ∧
    (∀ tok f b more, fget s.cards n = some c → c.st = .move → c.migrating = [tok] → s.issueCheck (128 * c.pdie) tok = .go →
      (s.pin c.pdie tok.pte).frames = [f] → (s.pin c.pdie tok.pte).host = false → tok.lenm1.toNat < 2 ^ 21 →
      (s.pin c.pdie tok.pte).lenm1 = tok.lenm1 → s.serves c.pdie c.tenant = true →
      s.addrFate (128 * c.pdie) (f.toNat % 2 ^ 59) { phys := (s.pin c.pdie tok.pte).phys } = .ok →
      ((List.range (s.stagingFrames c.pdie)).filter fun i => !(s.die c.pdie).staged.contains i) = b :: more →
      let dst := podAddr s c.pdie (s.stagingBase c.pdie + b * 2 ^ 21)
      ∃ t c', exec (.tileMigrateDone n) s = .next t ∧ fget t.cards n = some c' ∧ c'.st = .ready ∧ c'.readyAt = s.clk ∧
        (t.pin c.pdie tok.pte).frames = [BitVec.ofNat 64 dst] ∧ (t.die c.pdie).staged = (s.die c.pdie).staged ++ [b] ∧
        ∀ i, i ≤ tok.lenm1.toNat → t.mem.get (dst + i) = s.mem.get (f.toNat % 2 ^ 59 + i)) ∧
    ((s.die d.val).fenced = false → s.pendingBinds d.val = [] → (n, c) ∈ s.candidates d.val → c.st = .ready →
      (∀ e ∈ s.candidates d.val, e ≠ (n, c) → s.before c e.2 = true ∧ s.before e.2 c = false) →
      ∃ t, exec (.cardSelect d) s = .next t ∧ SameBytes s t ∧
        fget t.cards n = some { c with st := .selected, selSeq := s.nextId }) ∧
    (∀ p l code s', fget s.cards n = some c → c.st = .selected → s.pendingBinds c.die.val = [(n, c)] →
      (s.die c.die.val).fenced = false → s.bindList c (s.claimed c.die.val) = [g] → (s.core g).vacant = p :: l → s.makeCode c g = some (code, s') →
      ∃ t, exec (.partyBind n) s = .next t ∧
        (let u := nget (t.core g).set p
         u.card = some n ∧ u.rank = BitVec.ofNat 10 c.bound ∧ u.gsize = BitVec.ofNat 11 c.gsize ∧ u.tenant = c.tenant ∧
         u.reqtag = c.tag ∧ u.codeTok = code ∧ u.started = false ∧
         ∀ x : CtxId, (nget u.ctx x).pc = c.entryLane x ∧ (nget u.ctx x).st = .idle ∧ (nget u.ctx x).sup = false ∧
           (∀ i : Fin 8, nget (nget u.ctx x).x ⟨10 + i.val, by omega⟩ = c.word ⟨5 + i.val, by omega⟩) ∧
           (∀ i : Fin 32, i.val < 10 ∨ 17 < i.val → nget (nget u.ctx x).x i = 0)) ∧
        fget t.cards n = some { c with
          st := .run, bound := c.bound + 1, cores := c.cores ++ [g], sids := c.sids ++ [s'.nextId]
          given := if c.bound = 0 then s'.givenCounts c else c.given }) ∧
    ((s.aset g).card = some n → fget s.cards n = some c → (s.aset g).started = false → c.conc = false → c.gslot = none →
      ∃ t, exec (.partyStart g) s = .next t ∧ SameBytes s t ∧ (t.aset g).started = true ∧
        (t.core g).l1 = ownedWords (s.core g).l1 ∧
        (∀ x : CtxId, t.ctx g x = (if c.entryLane x = 0 then s.ctx g x else { s.ctx g x with st := .run })) ∧
        (t.aset g).sliceAt = s.clk) ∧
    (fget s.cards n = some c →
      (c.st = .run → c.bound = c.gsize → s.partiesEnded n c = c.gsize →
        ∃ t, exec (.jobRetire n) s = .next t ∧ SameBytes s t ∧ fget t.cards n = some { c with st := .retire }) ∧
      (c.st = .retire → c.ended = c.gsize → s.toPurge c.tag = false → c.successors = [] → c.die = d → c.queue = q →
        k.slotAddr c.pos < 0x1FC0000000 →
        let a := podAddr s d.val (k.slotAddr c.pos + 224)
        let bit (b : Bool) (i : Nat) : Nat := if b then 2 ^ i else 0
        let code := match c.halted with
          | some (_, r, x) => 2 + 2 ^ 32 * (r.toNat + x.val * 2 ^ 10)
          | none => if c.withdrawn then 5 else 1
        clear a →
        ∃ t, exec (.jobRetire n) s = .next t ∧ fget t.cards n = some { c with st := .final, steps := 1, succ := [], noSucc := false } ∧
          t.readNat a 8 = code + bit c.stFail 12 + bit c.fallback 10 + bit c.recorded 9 + bit c.played 8) ∧
      (∀ loc host, c.st = .final → c.steps = 1 → c.counter = some (loc, host) → s.counterReached c.die.val loc host = true →
        ∃ t, exec (.jobRetire n) s = .next t ∧ fget t.cards n = some { c with steps := 2 } ∧
          t.readNat loc 8 = (s.readNat loc 8 + 1) % 2 ^ 64 ∧ ∀ l, l < loc ∨ loc + 8 ≤ l → t.mem.get l = s.mem.get l) ∧
      (∀ m w, c.st = .final → c.steps = 2 → c.succ = [m] → m ≠ n → fget s.cards m = some w → w.st = .wait →
        ∃ t w', exec (.jobRetire n) s = .next t ∧ SameBytes s t ∧ fget t.cards m = some w' ∧ w'.preds = w.preds - 1 ∧
          (w.preds = 1 → w.used = [] → w'.st = .ready ∧ w'.readyAt = s.clk) ∧ (w.preds ≠ 1 → w'.st = .wait)) ∧
      (c.st = .final → 3 ≤ c.steps → (s.cards.map Prod.fst).Nodup →
        ∃ t, exec (.jobRetire n) s = .next t ∧ SameBytes s t ∧ fget t.cards n = none ∧
          ((c.word 0).getLsbD 63 = true → t.events.getLsbD c.die.val = true)))

/-- Switching sets (R17, R87, R130, R324 to R327, R334): a party that is over leaves once its commands have completed; the other set
becomes active when the active one holds no party; a saved set comes back to a vacant set, its v registers and tiles as its slot gives
them and its stale k registers not valid; a party whose slice has run out, and has not yielded for another slice, begins to leave: it
goes to a save slot at once when its engines have come to their boundaries, and stays, its contexts stopped, while a granule of it
is in flight; its save is complete when its stores have left the buffer, and writes its slot, where its tiles, hash tables and v registers
then lie, and no byte outside; and at the end of a slice, with another party waiting, TIMER becomes pending in every live context. When
a party that is over leaves, and which cards and sets count as waiting for a core, are the model's readings (log entries 27 and 40);
that a set stays until its engines have come to their boundaries, that the save is written in the step that ends it, and that what R326
gives no place does not come back from memory, are its choices (log entries 65 and 63). -/
def Obligations.SetSwitches : Prop :=
  ∀ (s : State) (g n : Nat) (c : Card),
    let a := s.aset g
    let k := s.core g
    let hbm (j : Nat) : Prop := s.slotAddr g j + 2 ^ 22 ≤ 0x1FC0000000
    let at_ (j : Nat) : Nat := podAddr s (g / 128) (s.slotAddr g j)
    (a.card = some n → fget s.cards n = some c → a.over = true → a.quiet = true → k.rec_ = none →
      ∃ t c', exec (.contextSwitch g) s = .next t ∧ (t.aset g).card = none ∧ fget t.cards n = some c' ∧ c'.ended = c.ended + 1 ∧
        SameBytes s t) ∧
    (a.occupied = false → k.other.occupied = true → s.closing g = false → a.leaving = false →
      ∃ t, exec (.contextSwitch g) s = .next t ∧ (t.core g).active = k.active + 1 ∧ (t.aset g).sid = k.other.sid ∧
        (t.aset g).card = k.other.card ∧ SameBytes s t) ∧
    (a.occupied = true → a.over = false → a.leaving = false →
      (∀ j p u, s.nextReturn g = some (j, p) → fget k.slots j = some u → (k.slots.map Prod.fst).Nodup →
        (s.pin (g / 128) u.codeTok.pte).gen = u.codeTok.gen →
        let stale (x : Token) : Prop := x.valid = true ∧ (s.pin (g / 128) x.pte).gen ≠ x.gen
        ∃ t, exec (.contextSwitch g) s = .next t ∧ fget (t.core g).slots j = none ∧ SameBytes s t ∧
          let b := nget (t.core g).set p
          b.sid = u.sid ∧ b.card = u.card ∧ b.ring = u.ring ∧ b.m = u.m ∧ b.tl = u.tl ∧
          (∀ x : KReg, (stale (vget u.k x) → vget b.k x = { vget u.k x with valid := false }) ∧ (¬ stale (vget u.k x) → vget b.k x = vget u.k x)) ∧
          (hbm j → (∀ i : Fin 32, (nget b.v i).toNat = s.readNat (at_ j + 0x60000 + 256 * i.val) 256) ∧
            ∀ i : Fin 8, (nget u.tile i).st ≠ .empty → ∀ r : Fin 64,
              (nget (nget b.tile i).rows r).toNat = s.readNat (at_ j + 0x4000 * i.val + 256 * r.val) 256)) ∧
      (∀ j, s.nextReturn g = none → a.started = true → s.sliceOver g = true → s.cardOf a = some c → c.conc = false →
        k.switch = none → s.freeSlot g = some j →
        (s.atRest g k.active = true →
          ∃ t u w, exec (.contextSwitch g) s = .next t ∧ (t.core g).active = k.active + 1 ∧ fget (t.core g).slots j = some u ∧
            u.sid = a.sid ∧ u.card = a.card ∧ u.outAt = s.clk ∧ (t.core g).switch = some w ∧ w.sid = a.sid ∧ w.slot = j ∧ SameBytes s t) ∧
        (∀ x r, r ∈ nget a.srun x → r.flying ≠ [] →
          ∃ t, exec (.contextSwitch g) s = .next t ∧ (t.core g).active = k.active ∧ (t.aset g).leaving = true ∧ SameBytes s t ∧
            (∀ x : CtxId, (nget a.ctx x).st = .run → (t.ctx g x).st = .run) ∧
            ∀ x : CtxId, (nget a.ctx x).st = .wait →
              (match (nget a.ctx x).hold with | .reply _ | .load .. | .purge _ => false | _ => true) = true → (t.ctx g x).st = .run))) ∧
    (∀ w, k.switch = some w → (∀ e ∈ k.sb, e.sid ≠ w.sid) →
      ((∀ u ∈ fget k.slots w.slot, u.sid ≠ w.sid) →
        ∃ t, exec (.setSaveComplete g) s = .next t ∧ t.core g = { k with switch := none } ∧ SameBytes s t) ∧
      (∀ u, fget k.slots w.slot = some u → u.sid = w.sid → hbm w.slot → s.MemOk →
        (∀ x : Fin 8, (nget u.cls8 x).table.length ≤ 8192) → (∀ r ∈ u.crun, r.q.length ≤ 786432 ∧ ∀ i ∈ r.inq, i < 786432) →
        ∃ t, exec (.setSaveComplete g) s = .next t ∧ (t.core g).switch = none ∧ (t.core g).slots = k.slots ∧
          (∀ i : Fin 32, t.readNat (at_ w.slot + 0x60000 + 256 * i.val) 256 = (nget u.v i).toNat) ∧
          (∀ i : Fin 8, (nget u.tile i).st ≠ .empty → ∀ r : Fin 64,
            t.readNat (at_ w.slot + 0x4000 * i.val + 256 * r.val) 256 = (nget (nget u.tile i).rows r).toNat) ∧
          (∀ (i : Fin 8) o, (nget u.cls8 i).set = true → o < (nget u.cls8 i).table.length →
            t.readNat (at_ w.slot + 0x20000 + 0x8000 * i.val + 4 * o) 4 = ((nget u.cls8 i).table.getD o 0).toNat) ∧
          ∀ l, l < at_ w.slot ∨ at_ w.slot + 2 ^ 22 ≤ l → t.mem.get l = s.mem.get l)) ∧
    (a.started = true → s.slice g ≠ 0 → a.timerAt = none → a.sliceAt + s.slice g ≤ s.clk → s.partyWaits g = true →
      ∃ t, exec (.timeSliceExpiry g) s = .next t ∧ (t.aset g).timerAt = some s.clk ∧ SameBytes s t ∧
        ∀ x : CtxId, (s.ctx g x).live = true → t.ctx g x = { s.ctx g x with pend := { (s.ctx g x).pend with timer := true } })


/-! ### The host port, boot and power (R339 to R347) -/

/-- The host port: a post moves the tail of an enabled queue the host may post to, and is dropped and counted when it would
overfill it; word 0 of an empty mailbox slot sets its target, word 1 fills it and makes HOST pending in the target context, or is
dropped and counted when the slot is full; a reclaim empties the slot and takes HOST back; a load of the data word empties
it; the service slot takes a request; a report answers its nonce; a read of the events returns and clears them; the window reads
and writes HBM; a write of BAR0 reaches the post register or the mailbox word at its offset, and does nothing at any other; an
unmasked vector sends the message it kept (R341 to R345). What a reclaim, a target word and a request at the service slot do where R344
does not say it is the model's reading (log entry 30). -/
def Obligations.HostPort : Prop :=
  ∀ (s : State) (d : Fin 8) (q n : BitVec 6) (w v : W64), s.MemOk →
    let m := s.mail d n
    let k := s.qdesc d.val q
    let tail := podAddr s d.val (qdescAddr q + 16)
    let posts : Prop := k.enabled = true ∧ k.hostPosts = true
    let plain : Prop := w.getLsbD 63 = false
    let good : Prop := w.extractLsb' 7 2 ≠ 3 ∧ w.extractLsb' 9 54 = 0
    let full (t : State) (m : Mailbox) : Prop := t.mail d n = m
    (s.hostReaches d.val = true →
      (posts → (w.setWidth 32 - k.free).toNat ≤ 2 ^ k.logcap →
        ∃ t, exec (.postRegisterWrite d q w) s = .next t ∧ t.readNat tail 4 = w.toNat % 2 ^ 32 ∧ t.postDrops = s.postDrops ∧
          ∀ l, l < tail ∨ tail + 4 ≤ l → t.mem.get l = s.mem.get l) ∧
      (posts → 2 ^ k.logcap < (w.setWidth 32 - k.free).toNat →
        ∃ t, exec (.postRegisterWrite d q w) s = .next t ∧ t.postDrops = s.postDrops + 1 ∧ SameBytes s t) ∧
      (plain → good → m.full = false →
        ∃ t, exec (.mailboxTargetWrite d n w) s = .next t ∧ full t { m with word0 := .target, target := w } ∧ SameBytes s t) ∧
      (m.full = true → ∃ t, exec (.mailboxDataWrite d n v) s = .next t ∧ full t m ∧ t.postDrops = s.postDrops + 1 ∧ SameBytes s t) ∧
      (∀ g c, m.full = false → m.word0 = .target → ¬ (d = 0 ∧ n = 63) → g = 128 * d.val + m.target.toNat % 128 →
        m.target.toNat / 128 % 4 = c.val →
        ∃ t, exec (.mailboxDataWrite d n v) s = .next t ∧ full t { m with full := true, data := v } ∧ SameBytes s t ∧
          ((s.aset g).card.isSome = true → (s.ctx g c).live = true → n ∈ (t.ctx g c).pend.host)) ∧
      (∃ t, exec (.mailboxReclaim d n) s = .next t ∧ (t.mail d n).full = false ∧ SameBytes s t ∧
        ∀ g c, g / 128 = d.val → n ∉ (t.ctx g c).pend.host)) ∧
    (∃ t, exec (.mailboxDataRead d n) s = .next t ∧ full t { m with full := false } ∧ SameBytes s t) ∧
    (s.hostReaches 0 = true →
      (plain → (s.mail 0 63).full = false → ∃ t m', exec (.serviceRequest w v) s = .next t ∧ SameBytes s t ∧
        t.mail 0 63 = m' ∧ m'.full = true ∧ m'.target = w ∧ m'.data = v) ∧
      (∀ code : Nat, s.imageRuns = true → (s.mail 0 63).full = true →
        let b := (s.mail 0 63).data.toNat
        (code = 2 ∧ (s.mail 0 63).target.toNat % 2 ^ 63 ≠ 1) ∨ (code = 1 ∧ (s.mail 0 63).target.toNat % 2 ^ 63 = 1) →
        b % 4096 = 0 → b + 4096 ≤ 0x1FC0000000 →
        ∃ t, exec (.attestationReport none) s = .next t ∧ (t.mail 0 63).full = false ∧ t.events.getLsbD 8 = true ∧
          t.readNat (podAddr s 0 (b + 4088)) 8 = code)) ∧
    (∀ nonce : List Byte, nonce.length = 32 → ∃ t r, exec (.attestationReport (some nonce)) s = .next t ∧
      t.reports = s.reports ++ [r] ∧ r.length = 4028 ∧ r.take 32 = nonce ∧
      (∀ i : Fin 8, (r.drop (32 + 32 * i.val)).take 32 = leBytes 32 (nget s.measure i).toNat) ∧ SameBytes s t) ∧
    ((s.die 0).fenced = false →
      (∃ t, exec .eventsRead s = .next t ∧ t.hostReply = leBytes 8 s.events.toNat ∧ t.events = 0 ∧
        t.raised = s.raised &&& ~~~s.events ∧ SameBytes s t) ∧
      (∀ (off : BitVec 40) (b : List Byte), (∀ i, i < b.length → s.windowLoc (off.toNat + i) =
          some (podAddr s (off.toNat / 2 ^ 37) (off.toNat % 2 ^ 37) + i)) →
        let a := podAddr s (off.toNat / 2 ^ 37) (off.toNat % 2 ^ 37)
        (∃ t, exec (.hostWindowAccess off b true) s = .next t ∧ (∀ i, i < b.length → t.mem.get (a + i) = b.getD i 0) ∧
          ∀ l, l < a ∨ a + b.length ≤ l → t.mem.get l = s.mem.get l) ∧
        (∃ t, exec (.hostWindowAccess off b false) s = .next t ∧ t.hostReply = s.mem.read a b.length ∧ SameBytes s t))) ∧
    (let post : BitVec 24 := BitVec.ofNat 24 (0x10000 + 8 * (64 * d.val + q.toNat))
      let mail : BitVec 24 := BitVec.ofNat 24 (0x20000 + 16 * (64 * d.val + n.toNat))
      exec (.registerWriteOther post w) s = exec (.postRegisterWrite d q w) s ∧
      exec (.registerWriteOther mail w) s = exec (.mailboxTargetWrite d n w) s ∧
      exec (.registerWriteOther (mail + 8) w) s = exec (.mailboxDataWrite d n w) s ∧
      ∀ off : BitVec 24, off.toNat % 8 ≠ 0 ∨ off.toNat / 0x1000 ≠ 0x10 ∧ off.toNat / 0x2000 ≠ 0x10 →
        exec (.registerWriteOther off w) s = .next s) ∧
    (∀ x : Fin 9, ∃ t, exec (.msixVectorUnmask x) s = .next t ∧ t.masked.getLsbD x.val = false ∧ SameBytes s t ∧
      (s.pending.getLsbD x.val = true → t.messages = s.messages ++ [x] ∧ t.pending.getLsbD x.val = false) ∧
      (s.pending.getLsbD x.val = false → t.messages = s.messages))

/-- Boot and power (R339 to R341, R346, R347): a package reset leaves every core in its reset state, the dies that failed their
self-test fenced, the package booting, host memory as it was and every other byte 0 (that memory is 0 after a reset is the
model's choice, log entry 3); an image that passes the checks is measured and runs, and its stages after it, each one that is
verified measured into the next register, up to one that is not (which stages an image has is a free value, log entry 20);
another image sets the host state to 2; a failed fetch is repeated; the last stage releases the dies with every Pin Table
entry FREE, and writes what it is given of the label arrays and dispatch blocks of the unfenced dies, and nothing else; the tray's budget
is taken before; a power period grants each island of an unfenced die for the period after its request, where the requests are within the
budget, and else its share of the budget or 100, rounded down and scaled down so that the grants never sum above it (R346), brings its
last grant into force, and moves its throttle level. What a package reset keeps and what the
release writes are the model's choice (log entry 31), and the rounding of the figures and the moment a grant acts its readings (log
entry 32). -/
def Obligations.BootAndPower : Prop :=
  ∀ (s : State),
    (∀ failed : BitVec 8, ∃ t, exec (.packageReset failed) s = .next t ∧ t.cores = [] ∧ t.cards = [] ∧ t.reqs = [] ∧
      t.hostState = 0 ∧ t.booted = false ∧ t.imageRuns = false ∧ t.linkDown = [] ∧ t.mpois = [] ∧
      (∀ i : Fin 8, t.die i.val = { fenced := failed.getLsbD i.val }) ∧
      (s.MemOk → ∀ l, t.mem.get l = if isVault l = false ∧ region l = .hostWin then s.mem.get l else 0)) ∧
    (∀ image, s.imageRuns = false →
      (∃ t, exec (.bootImageReceived image) s = .next t ∧
        if imageGood image then
          let l := Config.stages (imageBody image)
          t.imageRuns = true ∧ t.imageVersion = BitVec.ofNat 32 (imageField image 8 4) ∧ SameBytes s t ∧
          t.stagesRun = l.all (·.2) ∧
          nget t.measure 0 = sha3 (leBytes 32 (nget s.measure 0).toNat ++ leBytes 32 (sha3 (imageBody image)).toNat) ∧
          ∀ i : Fin 8, 0 < i.val → nget t.measure i =
            if i.val ≤ l.length ∧ (l.take i.val).all (·.2) = true then
              sha3 (leBytes 32 (nget s.measure i).toNat ++ leBytes 32 (l.getD (i.val - 1) (0, false)).1.toNat)
            else nget s.measure i
        else t = { s with hostState := 2 }) ∧
      (∃ t, exec .bootFetchRetry s = .next t ∧ t = { s with bootFails := s.bootFails + 1 })) ∧
    (∀ (pkgid : BitVec 5) (tables : List (Nat × Byte)), s.stagesRun = true → s.booted = false → s.MemOk →
      let table (l : Nat) : Bool := l / 2 ^ 54 = pkgid.toNat && !(s.die (l / 2 ^ 51)).fenced &&
        (region l == .labels || (0x1FBFF00000 ≤ l % 2 ^ 51 && l % 2 ^ 51 < 0x1FC0000000))
      ∃ t, exec (.bootRelease pkgid tables) s = .next t ∧ t.booted = true ∧ t.pkgid = pkgid ∧ t.coreResetAt = s.clk ∧
        (∀ l, t.mem.get l = match (tables.filter fun b => b.1 = l && table l).getLast? with
          | some b => b.2
          | none => s.mem.get l) ∧
        (∀ d e, t.pin d e = {}) ∧ t.hostState = (if (s.die 0).fenced then 3 else 1) ∧
        t.outReport = ((s.die 0).fenced || s.outReport)) ∧
    (∀ amps : W16, s.booted = false → amps.toNat ≤ 12000 →
      ∃ t, exec (.trayBudgetDeclare amps) s = .next t ∧ t = { s with budget := amps }) ∧
    (∀ m : Fin 32 → W32,
      let amps (i : Nat) : Nat := (m ⟨i % 32, by omega⟩).toNat
      let sum (f : Nat → Nat) : Nat := (s.livingIslands.map f).sum
      let budget := s.budget.toNat
      let share (i : Nat) : Nat := max 100 (budget * amps i / sum amps)
      let granted (i : Nat) : Nat :=
        if 11 * sum amps ≤ 10 * budget then 11 * amps i / 10
        else if sum share ≤ budget then share i else share i * budget / sum share
      ∃ t, exec (.powerPeriod ((List.finRange 32).map fun i => (m i).toNat)) s = .next t ∧ t.powerAt = s.clk ∧ SameBytes s t ∧
        (sum fun i => (vget (t.die (i / 4)).island (BitVec.ofNat 2 i)).nextGrant.toNat) ≤ budget ∧
        ∀ i : Fin 32, let old := vget (s.die (i.val / 4)).island (BitVec.ofNat 2 i.val)
          let new := vget (t.die (i.val / 4)).island (BitVec.ofNat 2 i.val)
          ((s.die (i.val / 4)).fenced = true → new = old) ∧
          ((s.die (i.val / 4)).fenced = false → new.grant = old.nextGrant ∧ new.measured = m i ∧
            new.nextGrant = BitVec.ofNat 32 (granted i.val) ∧
            new.periods = (if old.level = 0 then old.periods else old.periods + 1) ∧
            (old.grant.toNat < (m i).toNat → new.level = (if old.level.toNat < 4 then old.level + 1 else old.level)) ∧
            (9 * old.grant.toNat ≤ 10 * (m i).toNat → (m i).toNat ≤ old.grant.toNat → new.level = old.level) ∧
            (10 * (m i).toNat < 9 * old.grant.toNat → new.level = (if old.level = 0 then 0 else old.level - 1))))
end

