-- ==== Sys2Proof/Laws/State.lean ====
section
/-! SUPPORT. Sys2Proof/Laws/State.lean: what the accessors of the state read after each update: one lemma for each field and
update, so that a proof unfolds no record update. -/

namespace Sys2Proof.Machine

/-! ### Finite maps and vectors -/

theorem fget_fset_same {α : Type} (m : FMap α) (n : Nat) (a : α) : fget (fset m n a) n = some a := by
  induction m with
  | nil => simp [fset, fget]
  | cons e m ih =>
    obtain ⟨k, b⟩ := e
    unfold fset
    by_cases h : n < k
    · simp [h, fget]
    · by_cases h' : n = k
      · simp [h', fget]
      · simp [h, h', fget, Ne.symm h', ih]

theorem fget_fset_ne {α : Type} (m : FMap α) {n k : Nat} (a : α) (h : k ≠ n) : fget (fset m n a) k = fget m k := by
  induction m with
  | nil => simp [fset, fget, Ne.symm h]
  | cons e m ih =>
    obtain ⟨j, b⟩ := e
    unfold fset
    by_cases h1 : n < j
    · simp [h1, fget, Ne.symm h]
    · by_cases h2 : n = j
      · subst h2; simp [fget, Ne.symm h]
      · simp only [h1, h2, if_false, fget, ih]

theorem fset_fset {α : Type} (m : FMap α) (n : Nat) (a b : α) : fset (fset m n a) n b = fset m n b := by
  induction m with
  | nil => simp [fset]
  | cons e m ih =>
    obtain ⟨k, c⟩ := e
    by_cases h : n < k
    · simp [fset, h]
    · by_cases h' : n = k
      · simp [fset, h']
      · simp [fset, h, h', ih]

@[simp] theorem nget_nset_same {α : Type} {k : Nat} (v : Vector α k) (i : Fin k) (a : α) : nget (nset v i a) i = a := by
  simp [nget, nset]

theorem nget_nset_ne {α : Type} {k : Nat} (v : Vector α k) {i j : Fin k} (a : α) (h : j ≠ i) :
    nget (nset v i a) j = nget v j := by
  simp only [nget, nset]
  exact Vector.getElem_set_ne i.isLt j.isLt (fun e => h (Fin.ext e.symm))

@[simp] theorem nset_nset {α : Type} {k : Nat} (v : Vector α k) (i : Fin k) (a b : α) :
    nset (nset v i a) i b = nset v i b := by
  simp [nset, Vector.set_set]

@[simp] theorem vget_vset_same {α : Type} {k n : Nat} (v : Vector α k) (i : BitVec n) (a : α) (h h' : 2 ^ n ≤ k) :
    vget (vset v i a h) i h' = a := by
  simp [vget, vset]

theorem vget_vset_ne {α : Type} {k n : Nat} (v : Vector α k) {i j : BitVec n} (a : α) (h h' : 2 ^ n ≤ k) (hne : j ≠ i) :
    vget (vset v i a h) j h' = vget v j h' := by
  simp only [vget, vset]
  exact Vector.getElem_set_ne _ _ (fun e => hne (BitVec.eq_of_toNat_eq e.symm))

/-! ### Cores, sets and contexts -/

@[simp] theorem core_setCore_same (s : State) (g : Nat) (k : Core) : (s.setCore g k).core g = k := by
  simp [State.core, State.setCore, fget_fset_same]

theorem core_setCore_ne (s : State) {g h : Nat} (k : Core) (hne : h ≠ g) : (s.setCore g k).core h = s.core h := by
  simp [State.core, State.setCore, fget_fset_ne _ _ hne]

@[simp] theorem setCore_setCore (s : State) (g : Nat) (k l : Core) : (s.setCore g k).setCore g l = s.setCore g l := by
  simp [State.setCore, fset_fset]

@[simp] theorem core_updCore_same (s : State) (g : Nat) (f : Core → Core) : (s.updCore g f).core g = f (s.core g) := by
  simp [State.updCore]

theorem core_updCore_ne (s : State) {g h : Nat} (f : Core → Core) (hne : h ≠ g) :
    (s.updCore g f).core h = s.core h := by
  simp [State.updCore, core_setCore_ne s _ hne]

@[simp] theorem updCore_updCore (s : State) (g : Nat) (f h : Core → Core) :
    (s.updCore g f).updCore g h = s.updCore g fun k => h (f k) := by
  simp [State.updCore]

@[simp] theorem aset_updAct (s : State) (g : Nat) (f : CtxSet → CtxSet) : (s.updAct g f).aset g = f (s.aset g) := by
  simp [State.aset, State.updAct, Core.act]

theorem aset_updAct_ne (s : State) {g h : Nat} (f : CtxSet → CtxSet) (hne : h ≠ g) :
    (s.updAct g f).aset h = s.aset h := by
  simp [State.aset, State.updAct, core_updCore_ne s _ hne]

@[simp] theorem updAct_updAct (s : State) (g : Nat) (f h : CtxSet → CtxSet) :
    (s.updAct g f).updAct g h = s.updAct g fun t => h (f t) := by
  simp [State.updAct, Core.act]

@[simp] theorem ctx_updCtx_same (s : State) (g : Nat) (c : CtxId) (f : Ctx → Ctx) :
    (s.updCtx g c f).ctx g c = f (s.ctx g c) := by
  simp [State.ctx, State.updCtx]

theorem ctx_updCtx_ne (s : State) (g : Nat) {c d : CtxId} (f : Ctx → Ctx) (h : d ≠ c) :
    (s.updCtx g c f).ctx g d = s.ctx g d := by
  simp [State.ctx, State.updCtx, nget_nset_ne _ _ h]

theorem ctx_updCtx_core (s : State) {g h : Nat} (c d : CtxId) (f : Ctx → Ctx) (hne : h ≠ g) :
    (s.updCtx g c f).ctx h d = s.ctx h d := by
  simp [State.ctx, State.updCtx, aset_updAct_ne s _ hne]

@[simp] theorem updCtx_updCtx (s : State) (g : Nat) (c : CtxId) (f h : Ctx → Ctx) :
    (s.updCtx g c f).updCtx g c h = s.updCtx g c fun x => h (f x) := by
  simp [State.updCtx]

/-! ### The fields of the state that an update of a core, a set or a context leaves -/

@[simp] theorem setCore_mem (s : State) (g : Nat) (k : Core) : (s.setCore g k).mem = s.mem := rfl
@[simp] theorem setCore_mpois (s : State) (g : Nat) (k : Core) : (s.setCore g k).mpois = s.mpois := rfl
@[simp] theorem setCore_dies (s : State) (g : Nat) (k : Core) : (s.setCore g k).dies = s.dies := rfl
@[simp] theorem setCore_ro (s : State) (g : Nat) (k : Core) : (s.setCore g k).ro = s.ro := rfl
@[simp] theorem setCore_sharers (s : State) (g : Nat) (k : Core) : (s.setCore g k).sharers = s.sharers := rfl
@[simp] theorem setCore_moesi (s : State) (g : Nat) (k : Core) : (s.setCore g k).moesi = s.moesi := rfl
@[simp] theorem setCore_reqs (s : State) (g : Nat) (k : Core) : (s.setCore g k).reqs = s.reqs := rfl
@[simp] theorem setCore_ops (s : State) (g : Nat) (k : Core) : (s.setCore g k).ops = s.ops := rfl
@[simp] theorem setCore_nextId (s : State) (g : Nat) (k : Core) : (s.setCore g k).nextId = s.nextId := rfl
@[simp] theorem setCore_performed (s : State) (g : Nat) (k : Core) : (s.setCore g k).performed = s.performed := rfl
@[simp] theorem setCore_pkgTicket (s : State) (g : Nat) (k : Core) : (s.setCore g k).pkgTicket = s.pkgTicket := rfl
@[simp] theorem setCore_podTicket (s : State) (g : Nat) (k : Core) : (s.setCore g k).podTicket = s.podTicket := rfl
@[simp] theorem setCore_bars (s : State) (g : Nat) (k : Core) : (s.setCore g k).bars = s.bars := rfl
@[simp] theorem setCore_arrivals (s : State) (g : Nat) (k : Core) : (s.setCore g k).arrivals = s.arrivals := rfl
@[simp] theorem setCore_monitors (s : State) (g : Nat) (k : Core) : (s.setCore g k).monitors = s.monitors := rfl
@[simp] theorem setCore_cards (s : State) (g : Nat) (k : Core) : (s.setCore g k).cards = s.cards := rfl
@[simp] theorem setCore_poisonHits (s : State) (g : Nat) (k : Core) : (s.setCore g k).poisonHits = s.poisonHits := rfl
@[simp] theorem setCore_hostState (s : State) (g : Nat) (k : Core) : (s.setCore g k).hostState = s.hostState := rfl
@[simp] theorem setCore_pkgid (s : State) (g : Nat) (k : Core) : (s.setCore g k).pkgid = s.pkgid := rfl
@[simp] theorem setCore_postDrops (s : State) (g : Nat) (k : Core) : (s.setCore g k).postDrops = s.postDrops := rfl
@[simp] theorem setCore_events (s : State) (g : Nat) (k : Core) : (s.setCore g k).events = s.events := rfl
@[simp] theorem setCore_raised (s : State) (g : Nat) (k : Core) : (s.setCore g k).raised = s.raised := rfl
@[simp] theorem setCore_masked (s : State) (g : Nat) (k : Core) : (s.setCore g k).masked = s.masked := rfl
@[simp] theorem setCore_pending (s : State) (g : Nat) (k : Core) : (s.setCore g k).pending = s.pending := rfl
@[simp] theorem setCore_messages (s : State) (g : Nat) (k : Core) : (s.setCore g k).messages = s.messages := rfl
@[simp] theorem setCore_measure (s : State) (g : Nat) (k : Core) : (s.setCore g k).measure = s.measure := rfl
@[simp] theorem setCore_imageVersion (s : State) (g : Nat) (k : Core) : (s.setCore g k).imageVersion = s.imageVersion := rfl
@[simp] theorem setCore_bootFails (s : State) (g : Nat) (k : Core) : (s.setCore g k).bootFails = s.bootFails := rfl
@[simp] theorem setCore_imageRuns (s : State) (g : Nat) (k : Core) : (s.setCore g k).imageRuns = s.imageRuns := rfl
@[simp] theorem setCore_stagesRun (s : State) (g : Nat) (k : Core) : (s.setCore g k).stagesRun = s.stagesRun := rfl
@[simp] theorem setCore_booted (s : State) (g : Nat) (k : Core) : (s.setCore g k).booted = s.booted := rfl
@[simp] theorem setCore_hostReply (s : State) (g : Nat) (k : Core) : (s.setCore g k).hostReply = s.hostReply := rfl
@[simp] theorem setCore_reports (s : State) (g : Nat) (k : Core) : (s.setCore g k).reports = s.reports := rfl
@[simp] theorem setCore_outReport (s : State) (g : Nat) (k : Core) : (s.setCore g k).outReport = s.outReport := rfl
@[simp] theorem setCore_budget (s : State) (g : Nat) (k : Core) : (s.setCore g k).budget = s.budget := rfl
@[simp] theorem setCore_powerAt (s : State) (g : Nat) (k : Core) : (s.setCore g k).powerAt = s.powerAt := rfl
@[simp] theorem setCore_linkDown (s : State) (g : Nat) (k : Core) : (s.setCore g k).linkDown = s.linkDown := rfl
@[simp] theorem setCore_clk (s : State) (g : Nat) (k : Core) : (s.setCore g k).clk = s.clk := rfl
@[simp] theorem setCore_coreResetAt (s : State) (g : Nat) (k : Core) : (s.setCore g k).coreResetAt = s.coreResetAt := rfl
@[simp] theorem setCore_curCore (s : State) (g : Nat) (k : Core) : (s.setCore g k).curCore = s.curCore := rfl
@[simp] theorem setCore_curCtx (s : State) (g : Nat) (k : Core) : (s.setCore g k).curCtx = s.curCtx := rfl
@[simp] theorem setCore_agenda (s : State) (g : Nat) (k : Core) : (s.setCore g k).agenda = s.agenda := rfl
@[simp] theorem setCore_turn (s : State) (g : Nat) (k : Core) : (s.setCore g k).turn = s.turn := rfl
@[simp] theorem setCore_oracle (s : State) (g : Nat) (k : Core) : (s.setCore g k).oracle = s.oracle := rfl
@[simp] theorem updCore_mem (s : State) (g : Nat) (f : Core → Core) : (s.updCore g f).mem = s.mem := rfl
@[simp] theorem updCore_mpois (s : State) (g : Nat) (f : Core → Core) : (s.updCore g f).mpois = s.mpois := rfl
@[simp] theorem updCore_dies (s : State) (g : Nat) (f : Core → Core) : (s.updCore g f).dies = s.dies := rfl
@[simp] theorem updCore_ro (s : State) (g : Nat) (f : Core → Core) : (s.updCore g f).ro = s.ro := rfl
@[simp] theorem updCore_sharers (s : State) (g : Nat) (f : Core → Core) : (s.updCore g f).sharers = s.sharers := rfl
@[simp] theorem updCore_moesi (s : State) (g : Nat) (f : Core → Core) : (s.updCore g f).moesi = s.moesi := rfl
@[simp] theorem updCore_reqs (s : State) (g : Nat) (f : Core → Core) : (s.updCore g f).reqs = s.reqs := rfl
@[simp] theorem updCore_ops (s : State) (g : Nat) (f : Core → Core) : (s.updCore g f).ops = s.ops := rfl
@[simp] theorem updCore_nextId (s : State) (g : Nat) (f : Core → Core) : (s.updCore g f).nextId = s.nextId := rfl
@[simp] theorem updCore_performed (s : State) (g : Nat) (f : Core → Core) : (s.updCore g f).performed = s.performed := rfl
@[simp] theorem updCore_pkgTicket (s : State) (g : Nat) (f : Core → Core) : (s.updCore g f).pkgTicket = s.pkgTicket := rfl
@[simp] theorem updCore_podTicket (s : State) (g : Nat) (f : Core → Core) : (s.updCore g f).podTicket = s.podTicket := rfl
@[simp] theorem updCore_bars (s : State) (g : Nat) (f : Core → Core) : (s.updCore g f).bars = s.bars := rfl
@[simp] theorem updCore_arrivals (s : State) (g : Nat) (f : Core → Core) : (s.updCore g f).arrivals = s.arrivals := rfl
@[simp] theorem updCore_monitors (s : State) (g : Nat) (f : Core → Core) : (s.updCore g f).monitors = s.monitors := rfl
@[simp] theorem updCore_cards (s : State) (g : Nat) (f : Core → Core) : (s.updCore g f).cards = s.cards := rfl
@[simp] theorem updCore_poisonHits (s : State) (g : Nat) (f : Core → Core) : (s.updCore g f).poisonHits = s.poisonHits := rfl
@[simp] theorem updCore_hostState (s : State) (g : Nat) (f : Core → Core) : (s.updCore g f).hostState = s.hostState := rfl
@[simp] theorem updCore_pkgid (s : State) (g : Nat) (f : Core → Core) : (s.updCore g f).pkgid = s.pkgid := rfl
@[simp] theorem updCore_postDrops (s : State) (g : Nat) (f : Core → Core) : (s.updCore g f).postDrops = s.postDrops := rfl
@[simp] theorem updCore_events (s : State) (g : Nat) (f : Core → Core) : (s.updCore g f).events = s.events := rfl
@[simp] theorem updCore_raised (s : State) (g : Nat) (f : Core → Core) : (s.updCore g f).raised = s.raised := rfl
@[simp] theorem updCore_masked (s : State) (g : Nat) (f : Core → Core) : (s.updCore g f).masked = s.masked := rfl
@[simp] theorem updCore_pending (s : State) (g : Nat) (f : Core → Core) : (s.updCore g f).pending = s.pending := rfl
@[simp] theorem updCore_messages (s : State) (g : Nat) (f : Core → Core) : (s.updCore g f).messages = s.messages := rfl
@[simp] theorem updCore_measure (s : State) (g : Nat) (f : Core → Core) : (s.updCore g f).measure = s.measure := rfl
@[simp] theorem updCore_imageVersion (s : State) (g : Nat) (f : Core → Core) : (s.updCore g f).imageVersion = s.imageVersion := rfl
@[simp] theorem updCore_bootFails (s : State) (g : Nat) (f : Core → Core) : (s.updCore g f).bootFails = s.bootFails := rfl
@[simp] theorem updCore_imageRuns (s : State) (g : Nat) (f : Core → Core) : (s.updCore g f).imageRuns = s.imageRuns := rfl
@[simp] theorem updCore_stagesRun (s : State) (g : Nat) (f : Core → Core) : (s.updCore g f).stagesRun = s.stagesRun := rfl
@[simp] theorem updCore_booted (s : State) (g : Nat) (f : Core → Core) : (s.updCore g f).booted = s.booted := rfl
@[simp] theorem updCore_hostReply (s : State) (g : Nat) (f : Core → Core) : (s.updCore g f).hostReply = s.hostReply := rfl
@[simp] theorem updCore_reports (s : State) (g : Nat) (f : Core → Core) : (s.updCore g f).reports = s.reports := rfl
@[simp] theorem updCore_outReport (s : State) (g : Nat) (f : Core → Core) : (s.updCore g f).outReport = s.outReport := rfl
@[simp] theorem updCore_budget (s : State) (g : Nat) (f : Core → Core) : (s.updCore g f).budget = s.budget := rfl
@[simp] theorem updCore_powerAt (s : State) (g : Nat) (f : Core → Core) : (s.updCore g f).powerAt = s.powerAt := rfl
@[simp] theorem updCore_linkDown (s : State) (g : Nat) (f : Core → Core) : (s.updCore g f).linkDown = s.linkDown := rfl
@[simp] theorem updCore_clk (s : State) (g : Nat) (f : Core → Core) : (s.updCore g f).clk = s.clk := rfl
@[simp] theorem updCore_coreResetAt (s : State) (g : Nat) (f : Core → Core) : (s.updCore g f).coreResetAt = s.coreResetAt := rfl
@[simp] theorem updCore_curCore (s : State) (g : Nat) (f : Core → Core) : (s.updCore g f).curCore = s.curCore := rfl
@[simp] theorem updCore_curCtx (s : State) (g : Nat) (f : Core → Core) : (s.updCore g f).curCtx = s.curCtx := rfl
@[simp] theorem updCore_agenda (s : State) (g : Nat) (f : Core → Core) : (s.updCore g f).agenda = s.agenda := rfl
@[simp] theorem updCore_turn (s : State) (g : Nat) (f : Core → Core) : (s.updCore g f).turn = s.turn := rfl
@[simp] theorem updCore_oracle (s : State) (g : Nat) (f : Core → Core) : (s.updCore g f).oracle = s.oracle := rfl
@[simp] theorem updAct_mem (s : State) (g : Nat) (f : CtxSet → CtxSet) : (s.updAct g f).mem = s.mem := rfl
@[simp] theorem updAct_mpois (s : State) (g : Nat) (f : CtxSet → CtxSet) : (s.updAct g f).mpois = s.mpois := rfl
@[simp] theorem updAct_dies (s : State) (g : Nat) (f : CtxSet → CtxSet) : (s.updAct g f).dies = s.dies := rfl
@[simp] theorem updAct_ro (s : State) (g : Nat) (f : CtxSet → CtxSet) : (s.updAct g f).ro = s.ro := rfl
@[simp] theorem updAct_sharers (s : State) (g : Nat) (f : CtxSet → CtxSet) : (s.updAct g f).sharers = s.sharers := rfl
@[simp] theorem updAct_moesi (s : State) (g : Nat) (f : CtxSet → CtxSet) : (s.updAct g f).moesi = s.moesi := rfl
@[simp] theorem updAct_reqs (s : State) (g : Nat) (f : CtxSet → CtxSet) : (s.updAct g f).reqs = s.reqs := rfl
@[simp] theorem updAct_ops (s : State) (g : Nat) (f : CtxSet → CtxSet) : (s.updAct g f).ops = s.ops := rfl
@[simp] theorem updAct_nextId (s : State) (g : Nat) (f : CtxSet → CtxSet) : (s.updAct g f).nextId = s.nextId := rfl
@[simp] theorem updAct_performed (s : State) (g : Nat) (f : CtxSet → CtxSet) : (s.updAct g f).performed = s.performed := rfl
@[simp] theorem updAct_pkgTicket (s : State) (g : Nat) (f : CtxSet → CtxSet) : (s.updAct g f).pkgTicket = s.pkgTicket := rfl
@[simp] theorem updAct_podTicket (s : State) (g : Nat) (f : CtxSet → CtxSet) : (s.updAct g f).podTicket = s.podTicket := rfl
@[simp] theorem updAct_bars (s : State) (g : Nat) (f : CtxSet → CtxSet) : (s.updAct g f).bars = s.bars := rfl
@[simp] theorem updAct_arrivals (s : State) (g : Nat) (f : CtxSet → CtxSet) : (s.updAct g f).arrivals = s.arrivals := rfl
@[simp] theorem updAct_monitors (s : State) (g : Nat) (f : CtxSet → CtxSet) : (s.updAct g f).monitors = s.monitors := rfl
@[simp] theorem updAct_cards (s : State) (g : Nat) (f : CtxSet → CtxSet) : (s.updAct g f).cards = s.cards := rfl
@[simp] theorem updAct_poisonHits (s : State) (g : Nat) (f : CtxSet → CtxSet) : (s.updAct g f).poisonHits = s.poisonHits := rfl
@[simp] theorem updAct_hostState (s : State) (g : Nat) (f : CtxSet → CtxSet) : (s.updAct g f).hostState = s.hostState := rfl
@[simp] theorem updAct_pkgid (s : State) (g : Nat) (f : CtxSet → CtxSet) : (s.updAct g f).pkgid = s.pkgid := rfl
@[simp] theorem updAct_postDrops (s : State) (g : Nat) (f : CtxSet → CtxSet) : (s.updAct g f).postDrops = s.postDrops := rfl
@[simp] theorem updAct_events (s : State) (g : Nat) (f : CtxSet → CtxSet) : (s.updAct g f).events = s.events := rfl
@[simp] theorem updAct_raised (s : State) (g : Nat) (f : CtxSet → CtxSet) : (s.updAct g f).raised = s.raised := rfl
@[simp] theorem updAct_masked (s : State) (g : Nat) (f : CtxSet → CtxSet) : (s.updAct g f).masked = s.masked := rfl
@[simp] theorem updAct_pending (s : State) (g : Nat) (f : CtxSet → CtxSet) : (s.updAct g f).pending = s.pending := rfl
@[simp] theorem updAct_messages (s : State) (g : Nat) (f : CtxSet → CtxSet) : (s.updAct g f).messages = s.messages := rfl
@[simp] theorem updAct_measure (s : State) (g : Nat) (f : CtxSet → CtxSet) : (s.updAct g f).measure = s.measure := rfl
@[simp] theorem updAct_imageVersion (s : State) (g : Nat) (f : CtxSet → CtxSet) : (s.updAct g f).imageVersion = s.imageVersion := rfl
@[simp] theorem updAct_bootFails (s : State) (g : Nat) (f : CtxSet → CtxSet) : (s.updAct g f).bootFails = s.bootFails := rfl
@[simp] theorem updAct_imageRuns (s : State) (g : Nat) (f : CtxSet → CtxSet) : (s.updAct g f).imageRuns = s.imageRuns := rfl
@[simp] theorem updAct_stagesRun (s : State) (g : Nat) (f : CtxSet → CtxSet) : (s.updAct g f).stagesRun = s.stagesRun := rfl
@[simp] theorem updAct_booted (s : State) (g : Nat) (f : CtxSet → CtxSet) : (s.updAct g f).booted = s.booted := rfl
@[simp] theorem updAct_hostReply (s : State) (g : Nat) (f : CtxSet → CtxSet) : (s.updAct g f).hostReply = s.hostReply := rfl
@[simp] theorem updAct_reports (s : State) (g : Nat) (f : CtxSet → CtxSet) : (s.updAct g f).reports = s.reports := rfl
@[simp] theorem updAct_outReport (s : State) (g : Nat) (f : CtxSet → CtxSet) : (s.updAct g f).outReport = s.outReport := rfl
@[simp] theorem updAct_budget (s : State) (g : Nat) (f : CtxSet → CtxSet) : (s.updAct g f).budget = s.budget := rfl
@[simp] theorem updAct_powerAt (s : State) (g : Nat) (f : CtxSet → CtxSet) : (s.updAct g f).powerAt = s.powerAt := rfl
@[simp] theorem updAct_linkDown (s : State) (g : Nat) (f : CtxSet → CtxSet) : (s.updAct g f).linkDown = s.linkDown := rfl
@[simp] theorem updAct_clk (s : State) (g : Nat) (f : CtxSet → CtxSet) : (s.updAct g f).clk = s.clk := rfl
@[simp] theorem updAct_coreResetAt (s : State) (g : Nat) (f : CtxSet → CtxSet) : (s.updAct g f).coreResetAt = s.coreResetAt := rfl
@[simp] theorem updAct_curCore (s : State) (g : Nat) (f : CtxSet → CtxSet) : (s.updAct g f).curCore = s.curCore := rfl
@[simp] theorem updAct_curCtx (s : State) (g : Nat) (f : CtxSet → CtxSet) : (s.updAct g f).curCtx = s.curCtx := rfl
@[simp] theorem updAct_agenda (s : State) (g : Nat) (f : CtxSet → CtxSet) : (s.updAct g f).agenda = s.agenda := rfl
@[simp] theorem updAct_turn (s : State) (g : Nat) (f : CtxSet → CtxSet) : (s.updAct g f).turn = s.turn := rfl
@[simp] theorem updAct_oracle (s : State) (g : Nat) (f : CtxSet → CtxSet) : (s.updAct g f).oracle = s.oracle := rfl
@[simp] theorem updCtx_mem (s : State) (g : Nat) (c : CtxId) (f : Ctx → Ctx) : (s.updCtx g c f).mem = s.mem := rfl
@[simp] theorem updCtx_mpois (s : State) (g : Nat) (c : CtxId) (f : Ctx → Ctx) : (s.updCtx g c f).mpois = s.mpois := rfl
@[simp] theorem updCtx_dies (s : State) (g : Nat) (c : CtxId) (f : Ctx → Ctx) : (s.updCtx g c f).dies = s.dies := rfl
@[simp] theorem updCtx_ro (s : State) (g : Nat) (c : CtxId) (f : Ctx → Ctx) : (s.updCtx g c f).ro = s.ro := rfl
@[simp] theorem updCtx_sharers (s : State) (g : Nat) (c : CtxId) (f : Ctx → Ctx) : (s.updCtx g c f).sharers = s.sharers := rfl
@[simp] theorem updCtx_moesi (s : State) (g : Nat) (c : CtxId) (f : Ctx → Ctx) : (s.updCtx g c f).moesi = s.moesi := rfl
@[simp] theorem updCtx_reqs (s : State) (g : Nat) (c : CtxId) (f : Ctx → Ctx) : (s.updCtx g c f).reqs = s.reqs := rfl
@[simp] theorem updCtx_ops (s : State) (g : Nat) (c : CtxId) (f : Ctx → Ctx) : (s.updCtx g c f).ops = s.ops := rfl
@[simp] theorem updCtx_nextId (s : State) (g : Nat) (c : CtxId) (f : Ctx → Ctx) : (s.updCtx g c f).nextId = s.nextId := rfl
@[simp] theorem updCtx_performed (s : State) (g : Nat) (c : CtxId) (f : Ctx → Ctx) : (s.updCtx g c f).performed = s.performed := rfl
@[simp] theorem updCtx_pkgTicket (s : State) (g : Nat) (c : CtxId) (f : Ctx → Ctx) : (s.updCtx g c f).pkgTicket = s.pkgTicket := rfl
@[simp] theorem updCtx_podTicket (s : State) (g : Nat) (c : CtxId) (f : Ctx → Ctx) : (s.updCtx g c f).podTicket = s.podTicket := rfl
@[simp] theorem updCtx_bars (s : State) (g : Nat) (c : CtxId) (f : Ctx → Ctx) : (s.updCtx g c f).bars = s.bars := rfl
@[simp] theorem updCtx_arrivals (s : State) (g : Nat) (c : CtxId) (f : Ctx → Ctx) : (s.updCtx g c f).arrivals = s.arrivals := rfl
@[simp] theorem updCtx_monitors (s : State) (g : Nat) (c : CtxId) (f : Ctx → Ctx) : (s.updCtx g c f).monitors = s.monitors := rfl
@[simp] theorem updCtx_cards (s : State) (g : Nat) (c : CtxId) (f : Ctx → Ctx) : (s.updCtx g c f).cards = s.cards := rfl
@[simp] theorem updCtx_poisonHits (s : State) (g : Nat) (c : CtxId) (f : Ctx → Ctx) : (s.updCtx g c f).poisonHits = s.poisonHits := rfl
@[simp] theorem updCtx_hostState (s : State) (g : Nat) (c : CtxId) (f : Ctx → Ctx) : (s.updCtx g c f).hostState = s.hostState := rfl
@[simp] theorem updCtx_pkgid (s : State) (g : Nat) (c : CtxId) (f : Ctx → Ctx) : (s.updCtx g c f).pkgid = s.pkgid := rfl
@[simp] theorem updCtx_postDrops (s : State) (g : Nat) (c : CtxId) (f : Ctx → Ctx) : (s.updCtx g c f).postDrops = s.postDrops := rfl
@[simp] theorem updCtx_events (s : State) (g : Nat) (c : CtxId) (f : Ctx → Ctx) : (s.updCtx g c f).events = s.events := rfl
@[simp] theorem updCtx_raised (s : State) (g : Nat) (c : CtxId) (f : Ctx → Ctx) : (s.updCtx g c f).raised = s.raised := rfl
@[simp] theorem updCtx_masked (s : State) (g : Nat) (c : CtxId) (f : Ctx → Ctx) : (s.updCtx g c f).masked = s.masked := rfl
@[simp] theorem updCtx_pending (s : State) (g : Nat) (c : CtxId) (f : Ctx → Ctx) : (s.updCtx g c f).pending = s.pending := rfl
@[simp] theorem updCtx_messages (s : State) (g : Nat) (c : CtxId) (f : Ctx → Ctx) : (s.updCtx g c f).messages = s.messages := rfl
@[simp] theorem updCtx_measure (s : State) (g : Nat) (c : CtxId) (f : Ctx → Ctx) : (s.updCtx g c f).measure = s.measure := rfl
@[simp] theorem updCtx_imageVersion (s : State) (g : Nat) (c : CtxId) (f : Ctx → Ctx) : (s.updCtx g c f).imageVersion = s.imageVersion := rfl
@[simp] theorem updCtx_bootFails (s : State) (g : Nat) (c : CtxId) (f : Ctx → Ctx) : (s.updCtx g c f).bootFails = s.bootFails := rfl
@[simp] theorem updCtx_imageRuns (s : State) (g : Nat) (c : CtxId) (f : Ctx → Ctx) : (s.updCtx g c f).imageRuns = s.imageRuns := rfl
@[simp] theorem updCtx_stagesRun (s : State) (g : Nat) (c : CtxId) (f : Ctx → Ctx) : (s.updCtx g c f).stagesRun = s.stagesRun := rfl
@[simp] theorem updCtx_booted (s : State) (g : Nat) (c : CtxId) (f : Ctx → Ctx) : (s.updCtx g c f).booted = s.booted := rfl
@[simp] theorem updCtx_hostReply (s : State) (g : Nat) (c : CtxId) (f : Ctx → Ctx) : (s.updCtx g c f).hostReply = s.hostReply := rfl
@[simp] theorem updCtx_reports (s : State) (g : Nat) (c : CtxId) (f : Ctx → Ctx) : (s.updCtx g c f).reports = s.reports := rfl
@[simp] theorem updCtx_outReport (s : State) (g : Nat) (c : CtxId) (f : Ctx → Ctx) : (s.updCtx g c f).outReport = s.outReport := rfl
@[simp] theorem updCtx_budget (s : State) (g : Nat) (c : CtxId) (f : Ctx → Ctx) : (s.updCtx g c f).budget = s.budget := rfl
@[simp] theorem updCtx_powerAt (s : State) (g : Nat) (c : CtxId) (f : Ctx → Ctx) : (s.updCtx g c f).powerAt = s.powerAt := rfl
@[simp] theorem updCtx_linkDown (s : State) (g : Nat) (c : CtxId) (f : Ctx → Ctx) : (s.updCtx g c f).linkDown = s.linkDown := rfl
@[simp] theorem updCtx_clk (s : State) (g : Nat) (c : CtxId) (f : Ctx → Ctx) : (s.updCtx g c f).clk = s.clk := rfl
@[simp] theorem updCtx_coreResetAt (s : State) (g : Nat) (c : CtxId) (f : Ctx → Ctx) : (s.updCtx g c f).coreResetAt = s.coreResetAt := rfl
@[simp] theorem updCtx_curCore (s : State) (g : Nat) (c : CtxId) (f : Ctx → Ctx) : (s.updCtx g c f).curCore = s.curCore := rfl
@[simp] theorem updCtx_curCtx (s : State) (g : Nat) (c : CtxId) (f : Ctx → Ctx) : (s.updCtx g c f).curCtx = s.curCtx := rfl
@[simp] theorem updCtx_agenda (s : State) (g : Nat) (c : CtxId) (f : Ctx → Ctx) : (s.updCtx g c f).agenda = s.agenda := rfl
@[simp] theorem updCtx_turn (s : State) (g : Nat) (c : CtxId) (f : Ctx → Ctx) : (s.updCtx g c f).turn = s.turn := rfl
@[simp] theorem updCtx_oracle (s : State) (g : Nat) (c : CtxId) (f : Ctx → Ctx) : (s.updCtx g c f).oracle = s.oracle := rfl
@[simp] theorem updMe_mem (s : State) (f : Ctx → Ctx) : (s.updMe f).mem = s.mem := rfl
@[simp] theorem updMe_mpois (s : State) (f : Ctx → Ctx) : (s.updMe f).mpois = s.mpois := rfl
@[simp] theorem updMe_dies (s : State) (f : Ctx → Ctx) : (s.updMe f).dies = s.dies := rfl
@[simp] theorem updMe_ro (s : State) (f : Ctx → Ctx) : (s.updMe f).ro = s.ro := rfl
@[simp] theorem updMe_sharers (s : State) (f : Ctx → Ctx) : (s.updMe f).sharers = s.sharers := rfl
@[simp] theorem updMe_moesi (s : State) (f : Ctx → Ctx) : (s.updMe f).moesi = s.moesi := rfl
@[simp] theorem updMe_reqs (s : State) (f : Ctx → Ctx) : (s.updMe f).reqs = s.reqs := rfl
@[simp] theorem updMe_ops (s : State) (f : Ctx → Ctx) : (s.updMe f).ops = s.ops := rfl
@[simp] theorem updMe_nextId (s : State) (f : Ctx → Ctx) : (s.updMe f).nextId = s.nextId := rfl
@[simp] theorem updMe_performed (s : State) (f : Ctx → Ctx) : (s.updMe f).performed = s.performed := rfl
@[simp] theorem updMe_pkgTicket (s : State) (f : Ctx → Ctx) : (s.updMe f).pkgTicket = s.pkgTicket := rfl
@[simp] theorem updMe_podTicket (s : State) (f : Ctx → Ctx) : (s.updMe f).podTicket = s.podTicket := rfl
@[simp] theorem updMe_bars (s : State) (f : Ctx → Ctx) : (s.updMe f).bars = s.bars := rfl
@[simp] theorem updMe_arrivals (s : State) (f : Ctx → Ctx) : (s.updMe f).arrivals = s.arrivals := rfl
@[simp] theorem updMe_monitors (s : State) (f : Ctx → Ctx) : (s.updMe f).monitors = s.monitors := rfl
@[simp] theorem updMe_cards (s : State) (f : Ctx → Ctx) : (s.updMe f).cards = s.cards := rfl
@[simp] theorem updMe_poisonHits (s : State) (f : Ctx → Ctx) : (s.updMe f).poisonHits = s.poisonHits := rfl
@[simp] theorem updMe_hostState (s : State) (f : Ctx → Ctx) : (s.updMe f).hostState = s.hostState := rfl
@[simp] theorem updMe_pkgid (s : State) (f : Ctx → Ctx) : (s.updMe f).pkgid = s.pkgid := rfl
@[simp] theorem updMe_postDrops (s : State) (f : Ctx → Ctx) : (s.updMe f).postDrops = s.postDrops := rfl
@[simp] theorem updMe_events (s : State) (f : Ctx → Ctx) : (s.updMe f).events = s.events := rfl
@[simp] theorem updMe_raised (s : State) (f : Ctx → Ctx) : (s.updMe f).raised = s.raised := rfl
@[simp] theorem updMe_masked (s : State) (f : Ctx → Ctx) : (s.updMe f).masked = s.masked := rfl
@[simp] theorem updMe_pending (s : State) (f : Ctx → Ctx) : (s.updMe f).pending = s.pending := rfl
@[simp] theorem updMe_messages (s : State) (f : Ctx → Ctx) : (s.updMe f).messages = s.messages := rfl
@[simp] theorem updMe_measure (s : State) (f : Ctx → Ctx) : (s.updMe f).measure = s.measure := rfl
@[simp] theorem updMe_imageVersion (s : State) (f : Ctx → Ctx) : (s.updMe f).imageVersion = s.imageVersion := rfl
@[simp] theorem updMe_bootFails (s : State) (f : Ctx → Ctx) : (s.updMe f).bootFails = s.bootFails := rfl
@[simp] theorem updMe_imageRuns (s : State) (f : Ctx → Ctx) : (s.updMe f).imageRuns = s.imageRuns := rfl
@[simp] theorem updMe_stagesRun (s : State) (f : Ctx → Ctx) : (s.updMe f).stagesRun = s.stagesRun := rfl
@[simp] theorem updMe_booted (s : State) (f : Ctx → Ctx) : (s.updMe f).booted = s.booted := rfl
@[simp] theorem updMe_hostReply (s : State) (f : Ctx → Ctx) : (s.updMe f).hostReply = s.hostReply := rfl
@[simp] theorem updMe_reports (s : State) (f : Ctx → Ctx) : (s.updMe f).reports = s.reports := rfl
@[simp] theorem updMe_outReport (s : State) (f : Ctx → Ctx) : (s.updMe f).outReport = s.outReport := rfl
@[simp] theorem updMe_budget (s : State) (f : Ctx → Ctx) : (s.updMe f).budget = s.budget := rfl
@[simp] theorem updMe_powerAt (s : State) (f : Ctx → Ctx) : (s.updMe f).powerAt = s.powerAt := rfl
@[simp] theorem updMe_linkDown (s : State) (f : Ctx → Ctx) : (s.updMe f).linkDown = s.linkDown := rfl
@[simp] theorem updMe_clk (s : State) (f : Ctx → Ctx) : (s.updMe f).clk = s.clk := rfl
@[simp] theorem updMe_coreResetAt (s : State) (f : Ctx → Ctx) : (s.updMe f).coreResetAt = s.coreResetAt := rfl
@[simp] theorem updMe_curCore (s : State) (f : Ctx → Ctx) : (s.updMe f).curCore = s.curCore := rfl
@[simp] theorem updMe_curCtx (s : State) (f : Ctx → Ctx) : (s.updMe f).curCtx = s.curCtx := rfl
@[simp] theorem updMe_agenda (s : State) (f : Ctx → Ctx) : (s.updMe f).agenda = s.agenda := rfl
@[simp] theorem updMe_turn (s : State) (f : Ctx → Ctx) : (s.updMe f).turn = s.turn := rfl
@[simp] theorem updMe_oracle (s : State) (f : Ctx → Ctx) : (s.updMe f).oracle = s.oracle := rfl
@[simp] theorem updMySet_mem (s : State) (f : CtxSet → CtxSet) : (s.updMySet f).mem = s.mem := rfl
@[simp] theorem updMySet_mpois (s : State) (f : CtxSet → CtxSet) : (s.updMySet f).mpois = s.mpois := rfl
@[simp] theorem updMySet_dies (s : State) (f : CtxSet → CtxSet) : (s.updMySet f).dies = s.dies := rfl
@[simp] theorem updMySet_ro (s : State) (f : CtxSet → CtxSet) : (s.updMySet f).ro = s.ro := rfl
@[simp] theorem updMySet_sharers (s : State) (f : CtxSet → CtxSet) : (s.updMySet f).sharers = s.sharers := rfl
@[simp] theorem updMySet_moesi (s : State) (f : CtxSet → CtxSet) : (s.updMySet f).moesi = s.moesi := rfl
@[simp] theorem updMySet_reqs (s : State) (f : CtxSet → CtxSet) : (s.updMySet f).reqs = s.reqs := rfl
@[simp] theorem updMySet_ops (s : State) (f : CtxSet → CtxSet) : (s.updMySet f).ops = s.ops := rfl
@[simp] theorem updMySet_nextId (s : State) (f : CtxSet → CtxSet) : (s.updMySet f).nextId = s.nextId := rfl
@[simp] theorem updMySet_performed (s : State) (f : CtxSet → CtxSet) : (s.updMySet f).performed = s.performed := rfl
@[simp] theorem updMySet_pkgTicket (s : State) (f : CtxSet → CtxSet) : (s.updMySet f).pkgTicket = s.pkgTicket := rfl
@[simp] theorem updMySet_podTicket (s : State) (f : CtxSet → CtxSet) : (s.updMySet f).podTicket = s.podTicket := rfl
@[simp] theorem updMySet_bars (s : State) (f : CtxSet → CtxSet) : (s.updMySet f).bars = s.bars := rfl
@[simp] theorem updMySet_arrivals (s : State) (f : CtxSet → CtxSet) : (s.updMySet f).arrivals = s.arrivals := rfl
@[simp] theorem updMySet_monitors (s : State) (f : CtxSet → CtxSet) : (s.updMySet f).monitors = s.monitors := rfl
@[simp] theorem updMySet_cards (s : State) (f : CtxSet → CtxSet) : (s.updMySet f).cards = s.cards := rfl
@[simp] theorem updMySet_poisonHits (s : State) (f : CtxSet → CtxSet) : (s.updMySet f).poisonHits = s.poisonHits := rfl
@[simp] theorem updMySet_hostState (s : State) (f : CtxSet → CtxSet) : (s.updMySet f).hostState = s.hostState := rfl
@[simp] theorem updMySet_pkgid (s : State) (f : CtxSet → CtxSet) : (s.updMySet f).pkgid = s.pkgid := rfl
@[simp] theorem updMySet_postDrops (s : State) (f : CtxSet → CtxSet) : (s.updMySet f).postDrops = s.postDrops := rfl
@[simp] theorem updMySet_events (s : State) (f : CtxSet → CtxSet) : (s.updMySet f).events = s.events := rfl
@[simp] theorem updMySet_raised (s : State) (f : CtxSet → CtxSet) : (s.updMySet f).raised = s.raised := rfl
@[simp] theorem updMySet_masked (s : State) (f : CtxSet → CtxSet) : (s.updMySet f).masked = s.masked := rfl
@[simp] theorem updMySet_pending (s : State) (f : CtxSet → CtxSet) : (s.updMySet f).pending = s.pending := rfl
@[simp] theorem updMySet_messages (s : State) (f : CtxSet → CtxSet) : (s.updMySet f).messages = s.messages := rfl
@[simp] theorem updMySet_measure (s : State) (f : CtxSet → CtxSet) : (s.updMySet f).measure = s.measure := rfl
@[simp] theorem updMySet_imageVersion (s : State) (f : CtxSet → CtxSet) : (s.updMySet f).imageVersion = s.imageVersion := rfl
@[simp] theorem updMySet_bootFails (s : State) (f : CtxSet → CtxSet) : (s.updMySet f).bootFails = s.bootFails := rfl
@[simp] theorem updMySet_imageRuns (s : State) (f : CtxSet → CtxSet) : (s.updMySet f).imageRuns = s.imageRuns := rfl
@[simp] theorem updMySet_stagesRun (s : State) (f : CtxSet → CtxSet) : (s.updMySet f).stagesRun = s.stagesRun := rfl
@[simp] theorem updMySet_booted (s : State) (f : CtxSet → CtxSet) : (s.updMySet f).booted = s.booted := rfl
@[simp] theorem updMySet_hostReply (s : State) (f : CtxSet → CtxSet) : (s.updMySet f).hostReply = s.hostReply := rfl
@[simp] theorem updMySet_reports (s : State) (f : CtxSet → CtxSet) : (s.updMySet f).reports = s.reports := rfl
@[simp] theorem updMySet_outReport (s : State) (f : CtxSet → CtxSet) : (s.updMySet f).outReport = s.outReport := rfl
@[simp] theorem updMySet_budget (s : State) (f : CtxSet → CtxSet) : (s.updMySet f).budget = s.budget := rfl
@[simp] theorem updMySet_powerAt (s : State) (f : CtxSet → CtxSet) : (s.updMySet f).powerAt = s.powerAt := rfl
@[simp] theorem updMySet_linkDown (s : State) (f : CtxSet → CtxSet) : (s.updMySet f).linkDown = s.linkDown := rfl
@[simp] theorem updMySet_clk (s : State) (f : CtxSet → CtxSet) : (s.updMySet f).clk = s.clk := rfl
@[simp] theorem updMySet_coreResetAt (s : State) (f : CtxSet → CtxSet) : (s.updMySet f).coreResetAt = s.coreResetAt := rfl
@[simp] theorem updMySet_curCore (s : State) (f : CtxSet → CtxSet) : (s.updMySet f).curCore = s.curCore := rfl
@[simp] theorem updMySet_curCtx (s : State) (f : CtxSet → CtxSet) : (s.updMySet f).curCtx = s.curCtx := rfl
@[simp] theorem updMySet_agenda (s : State) (f : CtxSet → CtxSet) : (s.updMySet f).agenda = s.agenda := rfl
@[simp] theorem updMySet_turn (s : State) (f : CtxSet → CtxSet) : (s.updMySet f).turn = s.turn := rfl
@[simp] theorem updMySet_oracle (s : State) (f : CtxSet → CtxSet) : (s.updMySet f).oracle = s.oracle := rfl
@[simp] theorem goOn_mem (s : State)  : (s.goOn).mem = s.mem := rfl
@[simp] theorem goOn_mpois (s : State)  : (s.goOn).mpois = s.mpois := rfl
@[simp] theorem goOn_dies (s : State)  : (s.goOn).dies = s.dies := rfl
@[simp] theorem goOn_ro (s : State)  : (s.goOn).ro = s.ro := rfl
@[simp] theorem goOn_sharers (s : State)  : (s.goOn).sharers = s.sharers := rfl
@[simp] theorem goOn_moesi (s : State)  : (s.goOn).moesi = s.moesi := rfl
@[simp] theorem goOn_reqs (s : State)  : (s.goOn).reqs = s.reqs := rfl
@[simp] theorem goOn_ops (s : State)  : (s.goOn).ops = s.ops := rfl
@[simp] theorem goOn_nextId (s : State)  : (s.goOn).nextId = s.nextId := rfl
@[simp] theorem goOn_performed (s : State)  : (s.goOn).performed = s.performed := rfl
@[simp] theorem goOn_pkgTicket (s : State)  : (s.goOn).pkgTicket = s.pkgTicket := rfl
@[simp] theorem goOn_podTicket (s : State)  : (s.goOn).podTicket = s.podTicket := rfl
@[simp] theorem goOn_bars (s : State)  : (s.goOn).bars = s.bars := rfl
@[simp] theorem goOn_arrivals (s : State)  : (s.goOn).arrivals = s.arrivals := rfl
@[simp] theorem goOn_monitors (s : State)  : (s.goOn).monitors = s.monitors := rfl
@[simp] theorem goOn_cards (s : State)  : (s.goOn).cards = s.cards := rfl
@[simp] theorem goOn_poisonHits (s : State)  : (s.goOn).poisonHits = s.poisonHits := rfl
@[simp] theorem goOn_hostState (s : State)  : (s.goOn).hostState = s.hostState := rfl
@[simp] theorem goOn_pkgid (s : State)  : (s.goOn).pkgid = s.pkgid := rfl
@[simp] theorem goOn_postDrops (s : State)  : (s.goOn).postDrops = s.postDrops := rfl
@[simp] theorem goOn_events (s : State)  : (s.goOn).events = s.events := rfl
@[simp] theorem goOn_raised (s : State)  : (s.goOn).raised = s.raised := rfl
@[simp] theorem goOn_masked (s : State)  : (s.goOn).masked = s.masked := rfl
@[simp] theorem goOn_pending (s : State)  : (s.goOn).pending = s.pending := rfl
@[simp] theorem goOn_messages (s : State)  : (s.goOn).messages = s.messages := rfl
@[simp] theorem goOn_measure (s : State)  : (s.goOn).measure = s.measure := rfl
@[simp] theorem goOn_imageVersion (s : State)  : (s.goOn).imageVersion = s.imageVersion := rfl
@[simp] theorem goOn_bootFails (s : State)  : (s.goOn).bootFails = s.bootFails := rfl
@[simp] theorem goOn_imageRuns (s : State)  : (s.goOn).imageRuns = s.imageRuns := rfl
@[simp] theorem goOn_stagesRun (s : State)  : (s.goOn).stagesRun = s.stagesRun := rfl
@[simp] theorem goOn_booted (s : State)  : (s.goOn).booted = s.booted := rfl
@[simp] theorem goOn_hostReply (s : State)  : (s.goOn).hostReply = s.hostReply := rfl
@[simp] theorem goOn_reports (s : State)  : (s.goOn).reports = s.reports := rfl
@[simp] theorem goOn_outReport (s : State)  : (s.goOn).outReport = s.outReport := rfl
@[simp] theorem goOn_budget (s : State)  : (s.goOn).budget = s.budget := rfl
@[simp] theorem goOn_powerAt (s : State)  : (s.goOn).powerAt = s.powerAt := rfl
@[simp] theorem goOn_linkDown (s : State)  : (s.goOn).linkDown = s.linkDown := rfl
@[simp] theorem goOn_clk (s : State)  : (s.goOn).clk = s.clk := rfl
@[simp] theorem goOn_coreResetAt (s : State)  : (s.goOn).coreResetAt = s.coreResetAt := rfl
@[simp] theorem goOn_curCore (s : State)  : (s.goOn).curCore = s.curCore := rfl
@[simp] theorem goOn_curCtx (s : State)  : (s.goOn).curCtx = s.curCtx := rfl
@[simp] theorem goOn_agenda (s : State)  : (s.goOn).agenda = s.agenda := rfl
@[simp] theorem goOn_turn (s : State)  : (s.goOn).turn = s.turn := rfl
@[simp] theorem goOn_oracle (s : State)  : (s.goOn).oracle = s.oracle := rfl
@[simp] theorem holdMe_mem (s : State) (h : Hold) : (s.holdMe h).mem = s.mem := rfl
@[simp] theorem holdMe_mpois (s : State) (h : Hold) : (s.holdMe h).mpois = s.mpois := rfl
@[simp] theorem holdMe_dies (s : State) (h : Hold) : (s.holdMe h).dies = s.dies := rfl
@[simp] theorem holdMe_ro (s : State) (h : Hold) : (s.holdMe h).ro = s.ro := rfl
@[simp] theorem holdMe_sharers (s : State) (h : Hold) : (s.holdMe h).sharers = s.sharers := rfl
@[simp] theorem holdMe_moesi (s : State) (h : Hold) : (s.holdMe h).moesi = s.moesi := rfl
@[simp] theorem holdMe_reqs (s : State) (h : Hold) : (s.holdMe h).reqs = s.reqs := rfl
@[simp] theorem holdMe_ops (s : State) (h : Hold) : (s.holdMe h).ops = s.ops := rfl
@[simp] theorem holdMe_nextId (s : State) (h : Hold) : (s.holdMe h).nextId = s.nextId := rfl
@[simp] theorem holdMe_performed (s : State) (h : Hold) : (s.holdMe h).performed = s.performed := rfl
@[simp] theorem holdMe_pkgTicket (s : State) (h : Hold) : (s.holdMe h).pkgTicket = s.pkgTicket := rfl
@[simp] theorem holdMe_podTicket (s : State) (h : Hold) : (s.holdMe h).podTicket = s.podTicket := rfl
@[simp] theorem holdMe_bars (s : State) (h : Hold) : (s.holdMe h).bars = s.bars := rfl
@[simp] theorem holdMe_arrivals (s : State) (h : Hold) : (s.holdMe h).arrivals = s.arrivals := rfl
@[simp] theorem holdMe_monitors (s : State) (h : Hold) : (s.holdMe h).monitors = s.monitors := rfl
@[simp] theorem holdMe_cards (s : State) (h : Hold) : (s.holdMe h).cards = s.cards := rfl
@[simp] theorem holdMe_poisonHits (s : State) (h : Hold) : (s.holdMe h).poisonHits = s.poisonHits := rfl
@[simp] theorem holdMe_hostState (s : State) (h : Hold) : (s.holdMe h).hostState = s.hostState := rfl
@[simp] theorem holdMe_pkgid (s : State) (h : Hold) : (s.holdMe h).pkgid = s.pkgid := rfl
@[simp] theorem holdMe_postDrops (s : State) (h : Hold) : (s.holdMe h).postDrops = s.postDrops := rfl
@[simp] theorem holdMe_events (s : State) (h : Hold) : (s.holdMe h).events = s.events := rfl
@[simp] theorem holdMe_raised (s : State) (h : Hold) : (s.holdMe h).raised = s.raised := rfl
@[simp] theorem holdMe_masked (s : State) (h : Hold) : (s.holdMe h).masked = s.masked := rfl
@[simp] theorem holdMe_pending (s : State) (h : Hold) : (s.holdMe h).pending = s.pending := rfl
@[simp] theorem holdMe_messages (s : State) (h : Hold) : (s.holdMe h).messages = s.messages := rfl
@[simp] theorem holdMe_measure (s : State) (h : Hold) : (s.holdMe h).measure = s.measure := rfl
@[simp] theorem holdMe_imageVersion (s : State) (h : Hold) : (s.holdMe h).imageVersion = s.imageVersion := rfl
@[simp] theorem holdMe_bootFails (s : State) (h : Hold) : (s.holdMe h).bootFails = s.bootFails := rfl
@[simp] theorem holdMe_imageRuns (s : State) (h : Hold) : (s.holdMe h).imageRuns = s.imageRuns := rfl
@[simp] theorem holdMe_stagesRun (s : State) (h : Hold) : (s.holdMe h).stagesRun = s.stagesRun := rfl
@[simp] theorem holdMe_booted (s : State) (h : Hold) : (s.holdMe h).booted = s.booted := rfl
@[simp] theorem holdMe_hostReply (s : State) (h : Hold) : (s.holdMe h).hostReply = s.hostReply := rfl
@[simp] theorem holdMe_reports (s : State) (h : Hold) : (s.holdMe h).reports = s.reports := rfl
@[simp] theorem holdMe_outReport (s : State) (h : Hold) : (s.holdMe h).outReport = s.outReport := rfl
@[simp] theorem holdMe_budget (s : State) (h : Hold) : (s.holdMe h).budget = s.budget := rfl
@[simp] theorem holdMe_powerAt (s : State) (h : Hold) : (s.holdMe h).powerAt = s.powerAt := rfl
@[simp] theorem holdMe_linkDown (s : State) (h : Hold) : (s.holdMe h).linkDown = s.linkDown := rfl
@[simp] theorem holdMe_clk (s : State) (h : Hold) : (s.holdMe h).clk = s.clk := rfl
@[simp] theorem holdMe_coreResetAt (s : State) (h : Hold) : (s.holdMe h).coreResetAt = s.coreResetAt := rfl
@[simp] theorem holdMe_curCore (s : State) (h : Hold) : (s.holdMe h).curCore = s.curCore := rfl
@[simp] theorem holdMe_curCtx (s : State) (h : Hold) : (s.holdMe h).curCtx = s.curCtx := rfl
@[simp] theorem holdMe_agenda (s : State) (h : Hold) : (s.holdMe h).agenda = s.agenda := rfl
@[simp] theorem holdMe_turn (s : State) (h : Hold) : (s.holdMe h).turn = s.turn := rfl
@[simp] theorem holdMe_oracle (s : State) (h : Hold) : (s.holdMe h).oracle = s.oracle := rfl

@[simp] theorem updMe_me (s : State) (f : Ctx → Ctx) : (s.updMe f).me = f s.me := by
  simp [State.me, State.updMe]
@[simp] theorem updMe_updMe (s : State) (f h : Ctx → Ctx) : (s.updMe f).updMe h = s.updMe fun x => h (f x) := by
  simp [State.updMe]
@[simp] theorem updMySet_mySet (s : State) (f : CtxSet → CtxSet) : (s.updMySet f).mySet = f s.mySet := by
  simp [State.mySet, State.updMySet]
@[simp] theorem updMe_mySet (s : State) (f : Ctx → Ctx) :
    (s.updMe f).mySet = { s.mySet with ctx := nset s.mySet.ctx s.curCtx (f s.me) } := by
  simp [State.mySet, State.updMe, State.updCtx, State.me, State.ctx]
@[simp] theorem goOn_me (s : State) : s.goOn.me = s.me.goOn := updMe_me s _
@[simp] theorem holdMe_me (s : State) (h : Hold) : (s.holdMe h).me = s.me.holdAt s.clk h := updMe_me s _

/-! ### The fields of the state that an update of a die leaves -/

@[simp] theorem updDie_mem (s : State) (d : Nat) (f : Die → Die) : (s.updDie d f).mem = s.mem := rfl
@[simp] theorem updDie_mpois (s : State) (d : Nat) (f : Die → Die) : (s.updDie d f).mpois = s.mpois := rfl
@[simp] theorem updDie_cores (s : State) (d : Nat) (f : Die → Die) : (s.updDie d f).cores = s.cores := rfl
@[simp] theorem updDie_ro (s : State) (d : Nat) (f : Die → Die) : (s.updDie d f).ro = s.ro := rfl
@[simp] theorem updDie_sharers (s : State) (d : Nat) (f : Die → Die) : (s.updDie d f).sharers = s.sharers := rfl
@[simp] theorem updDie_moesi (s : State) (d : Nat) (f : Die → Die) : (s.updDie d f).moesi = s.moesi := rfl
@[simp] theorem updDie_reqs (s : State) (d : Nat) (f : Die → Die) : (s.updDie d f).reqs = s.reqs := rfl
@[simp] theorem updDie_ops (s : State) (d : Nat) (f : Die → Die) : (s.updDie d f).ops = s.ops := rfl
@[simp] theorem updDie_nextId (s : State) (d : Nat) (f : Die → Die) : (s.updDie d f).nextId = s.nextId := rfl
@[simp] theorem updDie_performed (s : State) (d : Nat) (f : Die → Die) : (s.updDie d f).performed = s.performed := rfl
@[simp] theorem updDie_pkgTicket (s : State) (d : Nat) (f : Die → Die) : (s.updDie d f).pkgTicket = s.pkgTicket := rfl
@[simp] theorem updDie_podTicket (s : State) (d : Nat) (f : Die → Die) : (s.updDie d f).podTicket = s.podTicket := rfl
@[simp] theorem updDie_bars (s : State) (d : Nat) (f : Die → Die) : (s.updDie d f).bars = s.bars := rfl
@[simp] theorem updDie_arrivals (s : State) (d : Nat) (f : Die → Die) : (s.updDie d f).arrivals = s.arrivals := rfl
@[simp] theorem updDie_monitors (s : State) (d : Nat) (f : Die → Die) : (s.updDie d f).monitors = s.monitors := rfl
@[simp] theorem updDie_cards (s : State) (d : Nat) (f : Die → Die) : (s.updDie d f).cards = s.cards := rfl
@[simp] theorem updDie_poisonHits (s : State) (d : Nat) (f : Die → Die) : (s.updDie d f).poisonHits = s.poisonHits := rfl
@[simp] theorem updDie_hostState (s : State) (d : Nat) (f : Die → Die) : (s.updDie d f).hostState = s.hostState := rfl
@[simp] theorem updDie_pkgid (s : State) (d : Nat) (f : Die → Die) : (s.updDie d f).pkgid = s.pkgid := rfl
@[simp] theorem updDie_postDrops (s : State) (d : Nat) (f : Die → Die) : (s.updDie d f).postDrops = s.postDrops := rfl
@[simp] theorem updDie_events (s : State) (d : Nat) (f : Die → Die) : (s.updDie d f).events = s.events := rfl
@[simp] theorem updDie_raised (s : State) (d : Nat) (f : Die → Die) : (s.updDie d f).raised = s.raised := rfl
@[simp] theorem updDie_masked (s : State) (d : Nat) (f : Die → Die) : (s.updDie d f).masked = s.masked := rfl
@[simp] theorem updDie_pending (s : State) (d : Nat) (f : Die → Die) : (s.updDie d f).pending = s.pending := rfl
@[simp] theorem updDie_messages (s : State) (d : Nat) (f : Die → Die) : (s.updDie d f).messages = s.messages := rfl
@[simp] theorem updDie_measure (s : State) (d : Nat) (f : Die → Die) : (s.updDie d f).measure = s.measure := rfl
@[simp] theorem updDie_imageVersion (s : State) (d : Nat) (f : Die → Die) : (s.updDie d f).imageVersion = s.imageVersion := rfl
@[simp] theorem updDie_bootFails (s : State) (d : Nat) (f : Die → Die) : (s.updDie d f).bootFails = s.bootFails := rfl
@[simp] theorem updDie_imageRuns (s : State) (d : Nat) (f : Die → Die) : (s.updDie d f).imageRuns = s.imageRuns := rfl
@[simp] theorem updDie_stagesRun (s : State) (d : Nat) (f : Die → Die) : (s.updDie d f).stagesRun = s.stagesRun := rfl
@[simp] theorem updDie_booted (s : State) (d : Nat) (f : Die → Die) : (s.updDie d f).booted = s.booted := rfl
@[simp] theorem updDie_hostReply (s : State) (d : Nat) (f : Die → Die) : (s.updDie d f).hostReply = s.hostReply := rfl
@[simp] theorem updDie_reports (s : State) (d : Nat) (f : Die → Die) : (s.updDie d f).reports = s.reports := rfl
@[simp] theorem updDie_outReport (s : State) (d : Nat) (f : Die → Die) : (s.updDie d f).outReport = s.outReport := rfl
@[simp] theorem updDie_budget (s : State) (d : Nat) (f : Die → Die) : (s.updDie d f).budget = s.budget := rfl
@[simp] theorem updDie_powerAt (s : State) (d : Nat) (f : Die → Die) : (s.updDie d f).powerAt = s.powerAt := rfl
@[simp] theorem updDie_linkDown (s : State) (d : Nat) (f : Die → Die) : (s.updDie d f).linkDown = s.linkDown := rfl
@[simp] theorem updDie_clk (s : State) (d : Nat) (f : Die → Die) : (s.updDie d f).clk = s.clk := rfl
@[simp] theorem updDie_coreResetAt (s : State) (d : Nat) (f : Die → Die) : (s.updDie d f).coreResetAt = s.coreResetAt := rfl
@[simp] theorem updDie_curCore (s : State) (d : Nat) (f : Die → Die) : (s.updDie d f).curCore = s.curCore := rfl
@[simp] theorem updDie_curCtx (s : State) (d : Nat) (f : Die → Die) : (s.updDie d f).curCtx = s.curCtx := rfl
@[simp] theorem updDie_agenda (s : State) (d : Nat) (f : Die → Die) : (s.updDie d f).agenda = s.agenda := rfl
@[simp] theorem updDie_turn (s : State) (d : Nat) (f : Die → Die) : (s.updDie d f).turn = s.turn := rfl
@[simp] theorem updDie_oracle (s : State) (d : Nat) (f : Die → Die) : (s.updDie d f).oracle = s.oracle := rfl
@[simp] theorem setPin_mem (s : State) (d : Nat) (e : BitVec 20) (p : Pin) : (s.setPin d e p).mem = s.mem := rfl
@[simp] theorem setPin_mpois (s : State) (d : Nat) (e : BitVec 20) (p : Pin) : (s.setPin d e p).mpois = s.mpois := rfl
@[simp] theorem setPin_cores (s : State) (d : Nat) (e : BitVec 20) (p : Pin) : (s.setPin d e p).cores = s.cores := rfl
@[simp] theorem setPin_ro (s : State) (d : Nat) (e : BitVec 20) (p : Pin) : (s.setPin d e p).ro = s.ro := rfl
@[simp] theorem setPin_sharers (s : State) (d : Nat) (e : BitVec 20) (p : Pin) : (s.setPin d e p).sharers = s.sharers := rfl
@[simp] theorem setPin_moesi (s : State) (d : Nat) (e : BitVec 20) (p : Pin) : (s.setPin d e p).moesi = s.moesi := rfl
@[simp] theorem setPin_reqs (s : State) (d : Nat) (e : BitVec 20) (p : Pin) : (s.setPin d e p).reqs = s.reqs := rfl
@[simp] theorem setPin_ops (s : State) (d : Nat) (e : BitVec 20) (p : Pin) : (s.setPin d e p).ops = s.ops := rfl
@[simp] theorem setPin_nextId (s : State) (d : Nat) (e : BitVec 20) (p : Pin) : (s.setPin d e p).nextId = s.nextId := rfl
@[simp] theorem setPin_performed (s : State) (d : Nat) (e : BitVec 20) (p : Pin) : (s.setPin d e p).performed = s.performed := rfl
@[simp] theorem setPin_pkgTicket (s : State) (d : Nat) (e : BitVec 20) (p : Pin) : (s.setPin d e p).pkgTicket = s.pkgTicket := rfl
@[simp] theorem setPin_podTicket (s : State) (d : Nat) (e : BitVec 20) (p : Pin) : (s.setPin d e p).podTicket = s.podTicket := rfl
@[simp] theorem setPin_bars (s : State) (d : Nat) (e : BitVec 20) (p : Pin) : (s.setPin d e p).bars = s.bars := rfl
@[simp] theorem setPin_arrivals (s : State) (d : Nat) (e : BitVec 20) (p : Pin) : (s.setPin d e p).arrivals = s.arrivals := rfl
@[simp] theorem setPin_monitors (s : State) (d : Nat) (e : BitVec 20) (p : Pin) : (s.setPin d e p).monitors = s.monitors := rfl
@[simp] theorem setPin_cards (s : State) (d : Nat) (e : BitVec 20) (p : Pin) : (s.setPin d e p).cards = s.cards := rfl
@[simp] theorem setPin_poisonHits (s : State) (d : Nat) (e : BitVec 20) (p : Pin) : (s.setPin d e p).poisonHits = s.poisonHits := rfl
@[simp] theorem setPin_hostState (s : State) (d : Nat) (e : BitVec 20) (p : Pin) : (s.setPin d e p).hostState = s.hostState := rfl
@[simp] theorem setPin_pkgid (s : State) (d : Nat) (e : BitVec 20) (p : Pin) : (s.setPin d e p).pkgid = s.pkgid := rfl
@[simp] theorem setPin_postDrops (s : State) (d : Nat) (e : BitVec 20) (p : Pin) : (s.setPin d e p).postDrops = s.postDrops := rfl
@[simp] theorem setPin_events (s : State) (d : Nat) (e : BitVec 20) (p : Pin) : (s.setPin d e p).events = s.events := rfl
@[simp] theorem setPin_raised (s : State) (d : Nat) (e : BitVec 20) (p : Pin) : (s.setPin d e p).raised = s.raised := rfl
@[simp] theorem setPin_masked (s : State) (d : Nat) (e : BitVec 20) (p : Pin) : (s.setPin d e p).masked = s.masked := rfl
@[simp] theorem setPin_pending (s : State) (d : Nat) (e : BitVec 20) (p : Pin) : (s.setPin d e p).pending = s.pending := rfl
@[simp] theorem setPin_messages (s : State) (d : Nat) (e : BitVec 20) (p : Pin) : (s.setPin d e p).messages = s.messages := rfl
@[simp] theorem setPin_measure (s : State) (d : Nat) (e : BitVec 20) (p : Pin) : (s.setPin d e p).measure = s.measure := rfl
@[simp] theorem setPin_imageVersion (s : State) (d : Nat) (e : BitVec 20) (p : Pin) : (s.setPin d e p).imageVersion = s.imageVersion := rfl
@[simp] theorem setPin_bootFails (s : State) (d : Nat) (e : BitVec 20) (p : Pin) : (s.setPin d e p).bootFails = s.bootFails := rfl
@[simp] theorem setPin_imageRuns (s : State) (d : Nat) (e : BitVec 20) (p : Pin) : (s.setPin d e p).imageRuns = s.imageRuns := rfl
@[simp] theorem setPin_stagesRun (s : State) (d : Nat) (e : BitVec 20) (p : Pin) : (s.setPin d e p).stagesRun = s.stagesRun := rfl
@[simp] theorem setPin_booted (s : State) (d : Nat) (e : BitVec 20) (p : Pin) : (s.setPin d e p).booted = s.booted := rfl
@[simp] theorem setPin_hostReply (s : State) (d : Nat) (e : BitVec 20) (p : Pin) : (s.setPin d e p).hostReply = s.hostReply := rfl
@[simp] theorem setPin_reports (s : State) (d : Nat) (e : BitVec 20) (p : Pin) : (s.setPin d e p).reports = s.reports := rfl
@[simp] theorem setPin_outReport (s : State) (d : Nat) (e : BitVec 20) (p : Pin) : (s.setPin d e p).outReport = s.outReport := rfl
@[simp] theorem setPin_budget (s : State) (d : Nat) (e : BitVec 20) (p : Pin) : (s.setPin d e p).budget = s.budget := rfl
@[simp] theorem setPin_powerAt (s : State) (d : Nat) (e : BitVec 20) (p : Pin) : (s.setPin d e p).powerAt = s.powerAt := rfl
@[simp] theorem setPin_linkDown (s : State) (d : Nat) (e : BitVec 20) (p : Pin) : (s.setPin d e p).linkDown = s.linkDown := rfl
@[simp] theorem setPin_clk (s : State) (d : Nat) (e : BitVec 20) (p : Pin) : (s.setPin d e p).clk = s.clk := rfl
@[simp] theorem setPin_coreResetAt (s : State) (d : Nat) (e : BitVec 20) (p : Pin) : (s.setPin d e p).coreResetAt = s.coreResetAt := rfl
@[simp] theorem setPin_curCore (s : State) (d : Nat) (e : BitVec 20) (p : Pin) : (s.setPin d e p).curCore = s.curCore := rfl
@[simp] theorem setPin_curCtx (s : State) (d : Nat) (e : BitVec 20) (p : Pin) : (s.setPin d e p).curCtx = s.curCtx := rfl
@[simp] theorem setPin_agenda (s : State) (d : Nat) (e : BitVec 20) (p : Pin) : (s.setPin d e p).agenda = s.agenda := rfl
@[simp] theorem setPin_turn (s : State) (d : Nat) (e : BitVec 20) (p : Pin) : (s.setPin d e p).turn = s.turn := rfl
@[simp] theorem setPin_oracle (s : State) (d : Nat) (e : BitVec 20) (p : Pin) : (s.setPin d e p).oracle = s.oracle := rfl

@[simp] theorem die_updDie_same (s : State) (d : Nat) (f : Die → Die) : (s.updDie d f).die d = f (s.die d) := by
  simp [State.die, State.updDie]
theorem die_updDie_ne (s : State) {d e : Nat} (f : Die → Die) (h : BitVec.ofNat 3 e ≠ BitVec.ofNat 3 d) :
    (s.updDie d f).die e = s.die e := by
  simp [State.die, State.updDie, vget_vset_ne _ _ _ _ h]
@[simp] theorem pin_setPin_same (s : State) (d : Nat) (e : BitVec 20) (p : Pin) : (s.setPin d e p).pin d e = p := by
  simp [State.pin, State.setPin, fget_fset_same]
theorem pin_setPin_ne (s : State) (d : Nat) {e e' : BitVec 20} (p : Pin) (h : e' ≠ e) :
    (s.setPin d e p).pin d e' = s.pin d e' := by
  have h' : e'.toNat ≠ e.toNat := fun x => h (BitVec.eq_of_toNat_eq x)
  simp [State.pin, State.setPin, fget_fset_ne _ _ h']

/-! ### Registers of a context -/

@[simp] theorem wx_st (x : Ctx) (r : XReg) (v : W64) (tag : Tag) (p : Bool) : (x.wx r v tag p).st = x.st := by unfold Ctx.wx; split <;> rfl
@[simp] theorem wx_pc (x : Ctx) (r : XReg) (v : W64) (tag : Tag) (p : Bool) : (x.wx r v tag p).pc = x.pc := by unfold Ctx.wx; split <;> rfl
@[simp] theorem wx_seek (x : Ctx) (r : XReg) (v : W64) (tag : Tag) (p : Bool) : (x.wx r v tag p).seek = x.seek := by unfold Ctx.wx; split <;> rfl
@[simp] theorem wx_sup (x : Ctx) (r : XReg) (v : W64) (tag : Tag) (p : Bool) : (x.wx r v tag p).sup = x.sup := by unfold Ctx.wx; split <;> rfl
@[simp] theorem wx_vrnd (x : Ctx) (r : XReg) (v : W64) (tag : Tag) (p : Bool) : (x.wx r v tag p).vrnd = x.vrnd := by unfold Ctx.wx; split <;> rfl
@[simp] theorem wx_fstat (x : Ctx) (r : XReg) (v : W64) (tag : Tag) (p : Bool) : (x.wx r v tag p).fstat = x.fstat := by unfold Ctx.wx; split <;> rfl
@[simp] theorem wx_mstat (x : Ctx) (r : XReg) (v : W64) (tag : Tag) (p : Bool) : (x.wx r v tag p).mstat = x.mstat := by unfold Ctx.wx; split <;> rfl
@[simp] theorem wx_srst (x : Ctx) (r : XReg) (v : W64) (tag : Tag) (p : Bool) : (x.wx r v tag p).srst = x.srst := by unfold Ctx.wx; split <;> rfl
@[simp] theorem wx_tvec (x : Ctx) (r : XReg) (v : W64) (tag : Tag) (p : Bool) : (x.wx r v tag p).tvec = x.tvec := by unfold Ctx.wx; split <;> rfl
@[simp] theorem wx_tcause (x : Ctx) (r : XReg) (v : W64) (tag : Tag) (p : Bool) : (x.wx r v tag p).tcause = x.tcause := by unfold Ctx.wx; split <;> rfl
@[simp] theorem wx_tval (x : Ctx) (r : XReg) (v : W64) (tag : Tag) (p : Bool) : (x.wx r v tag p).tval = x.tval := by unfold Ctx.wx; split <;> rfl
@[simp] theorem wx_tpc (x : Ctx) (r : XReg) (v : W64) (tag : Tag) (p : Bool) : (x.wx r v tag p).tpc = x.tpc := by unfold Ctx.wx; split <;> rfl
@[simp] theorem wx_tstat (x : Ctx) (r : XReg) (v : W64) (tag : Tag) (p : Bool) : (x.wx r v tag p).tstat = x.tstat := by unfold Ctx.wx; split <;> rfl
@[simp] theorem wx_tscratch (x : Ctx) (r : XReg) (v : W64) (tag : Tag) (p : Bool) : (x.wx r v tag p).tscratch = x.tscratch := by unfold Ctx.wx; split <;> rfl
@[simp] theorem wx_wdog (x : Ctx) (r : XReg) (v : W64) (tag : Tag) (p : Bool) : (x.wx r v tag p).wdog = x.wdog := by unfold Ctx.wx; split <;> rfl
@[simp] theorem wx_occtmo (x : Ctx) (r : XReg) (v : W64) (tag : Tag) (p : Bool) : (x.wx r v tag p).occtmo = x.occtmo := by unfold Ctx.wx; split <;> rfl
@[simp] theorem wx_prin (x : Ctx) (r : XReg) (v : W64) (tag : Tag) (p : Bool) : (x.wx r v tag p).prin = x.prin := by unfold Ctx.wx; split <;> rfl
@[simp] theorem wx_clrptr (x : Ctx) (r : XReg) (v : W64) (tag : Tag) (p : Bool) : (x.wx r v tag p).clrptr = x.clrptr := by unfold Ctx.wx; split <;> rfl
@[simp] theorem wx_evptr (x : Ctx) (r : XReg) (v : W64) (tag : Tag) (p : Bool) : (x.wx r v tag p).evptr = x.evptr := by unfold Ctx.wx; split <;> rfl
@[simp] theorem wx_fail (x : Ctx) (r : XReg) (v : W64) (tag : Tag) (p : Bool) : (x.wx r v tag p).fail = x.fail := by unfold Ctx.wx; split <;> rfl
@[simp] theorem wx_pend (x : Ctx) (r : XReg) (v : W64) (tag : Tag) (p : Bool) : (x.wx r v tag p).pend = x.pend := by unfold Ctx.wx; split <;> rfl
@[simp] theorem wx_hold (x : Ctx) (r : XReg) (v : W64) (tag : Tag) (p : Bool) : (x.wx r v tag p).hold = x.hold := by unfold Ctx.wx; split <;> rfl
@[simp] theorem wx_waited (x : Ctx) (r : XReg) (v : W64) (tag : Tag) (p : Bool) : (x.wx r v tag p).waited = x.waited := by unfold Ctx.wx; split <;> rfl
@[simp] theorem wx_waitMark (x : Ctx) (r : XReg) (v : W64) (tag : Tag) (p : Bool) : (x.wx r v tag p).waitMark = x.waitMark := by unfold Ctx.wx; split <;> rfl
@[simp] theorem wx_paused (x : Ctx) (r : XReg) (v : W64) (tag : Tag) (p : Bool) : (x.wx r v tag p).paused = x.paused := by unfold Ctx.wx; split <;> rfl
@[simp] theorem wx_slotAt (x : Ctx) (r : XReg) (v : W64) (tag : Tag) (p : Bool) : (x.wx r v tag p).slotAt = x.slotAt := by unfold Ctx.wx; split <;> rfl
@[simp] theorem wx_entering (x : Ctx) (r : XReg) (v : W64) (tag : Tag) (p : Bool) : (x.wx r v tag p).entering = x.entering := by unfold Ctx.wx; split <;> rfl
@[simp] theorem wx_arrive (x : Ctx) (r : XReg) (v : W64) (tag : Tag) (p : Bool) : (x.wx r v tag p).arrive = x.arrive := by unfold Ctx.wx; split <;> rfl
@[simp] theorem wx_barPend (x : Ctx) (r : XReg) (v : W64) (tag : Tag) (p : Bool) : (x.wx r v tag p).barPend = x.barPend := by unfold Ctx.wx; split <;> rfl
@[simp] theorem wx_peels (x : Ctx) (r : XReg) (v : W64) (tag : Tag) (p : Bool) : (x.wx r v tag p).peels = x.peels := by unfold Ctx.wx; split <;> rfl
@[simp] theorem ctxGoOn_x (x : Ctx)  : (x.goOn).x = x.x := rfl
@[simp] theorem ctxGoOn_tag (x : Ctx)  : (x.goOn).tag = x.tag := rfl
@[simp] theorem ctxGoOn_xpois (x : Ctx)  : (x.goOn).xpois = x.xpois := rfl
@[simp] theorem ctxGoOn_pc (x : Ctx)  : (x.goOn).pc = x.pc := rfl
@[simp] theorem ctxGoOn_sup (x : Ctx)  : (x.goOn).sup = x.sup := rfl
@[simp] theorem ctxGoOn_vrnd (x : Ctx)  : (x.goOn).vrnd = x.vrnd := rfl
@[simp] theorem ctxGoOn_fstat (x : Ctx)  : (x.goOn).fstat = x.fstat := rfl
@[simp] theorem ctxGoOn_mstat (x : Ctx)  : (x.goOn).mstat = x.mstat := rfl
@[simp] theorem ctxGoOn_srst (x : Ctx)  : (x.goOn).srst = x.srst := rfl
@[simp] theorem ctxGoOn_tvec (x : Ctx)  : (x.goOn).tvec = x.tvec := rfl
@[simp] theorem ctxGoOn_tcause (x : Ctx)  : (x.goOn).tcause = x.tcause := rfl
@[simp] theorem ctxGoOn_tval (x : Ctx)  : (x.goOn).tval = x.tval := rfl
@[simp] theorem ctxGoOn_tpc (x : Ctx)  : (x.goOn).tpc = x.tpc := rfl
@[simp] theorem ctxGoOn_tstat (x : Ctx)  : (x.goOn).tstat = x.tstat := rfl
@[simp] theorem ctxGoOn_tscratch (x : Ctx)  : (x.goOn).tscratch = x.tscratch := rfl
@[simp] theorem ctxGoOn_wdog (x : Ctx)  : (x.goOn).wdog = x.wdog := rfl
@[simp] theorem ctxGoOn_occtmo (x : Ctx)  : (x.goOn).occtmo = x.occtmo := rfl
@[simp] theorem ctxGoOn_prin (x : Ctx)  : (x.goOn).prin = x.prin := rfl
@[simp] theorem ctxGoOn_clrptr (x : Ctx)  : (x.goOn).clrptr = x.clrptr := rfl
@[simp] theorem ctxGoOn_evptr (x : Ctx)  : (x.goOn).evptr = x.evptr := rfl
@[simp] theorem ctxGoOn_fail (x : Ctx)  : (x.goOn).fail = x.fail := rfl
@[simp] theorem ctxGoOn_pend (x : Ctx)  : (x.goOn).pend = x.pend := rfl
@[simp] theorem ctxGoOn_waitMark (x : Ctx)  : (x.goOn).waitMark = x.waitMark := rfl
@[simp] theorem ctxGoOn_paused (x : Ctx)  : (x.goOn).paused = x.paused := rfl
@[simp] theorem ctxGoOn_slotAt (x : Ctx)  : (x.goOn).slotAt = x.slotAt := rfl
@[simp] theorem ctxGoOn_entering (x : Ctx)  : (x.goOn).entering = x.entering := rfl
@[simp] theorem ctxGoOn_arrive (x : Ctx)  : (x.goOn).arrive = x.arrive := rfl
@[simp] theorem ctxGoOn_barPend (x : Ctx)  : (x.goOn).barPend = x.barPend := rfl
@[simp] theorem ctxGoOn_peels (x : Ctx)  : (x.goOn).peels = x.peels := rfl
@[simp] theorem holdAt_x (x : Ctx) (n : Nat) (h : Hold) : (x.holdAt n h).x = x.x := rfl
@[simp] theorem holdAt_tag (x : Ctx) (n : Nat) (h : Hold) : (x.holdAt n h).tag = x.tag := rfl
@[simp] theorem holdAt_xpois (x : Ctx) (n : Nat) (h : Hold) : (x.holdAt n h).xpois = x.xpois := rfl
@[simp] theorem holdAt_pc (x : Ctx) (n : Nat) (h : Hold) : (x.holdAt n h).pc = x.pc := rfl
@[simp] theorem holdAt_sup (x : Ctx) (n : Nat) (h : Hold) : (x.holdAt n h).sup = x.sup := rfl
@[simp] theorem holdAt_vrnd (x : Ctx) (n : Nat) (h : Hold) : (x.holdAt n h).vrnd = x.vrnd := rfl
@[simp] theorem holdAt_fstat (x : Ctx) (n : Nat) (h : Hold) : (x.holdAt n h).fstat = x.fstat := rfl
@[simp] theorem holdAt_mstat (x : Ctx) (n : Nat) (h : Hold) : (x.holdAt n h).mstat = x.mstat := rfl
@[simp] theorem holdAt_srst (x : Ctx) (n : Nat) (h : Hold) : (x.holdAt n h).srst = x.srst := rfl
@[simp] theorem holdAt_tvec (x : Ctx) (n : Nat) (h : Hold) : (x.holdAt n h).tvec = x.tvec := rfl
@[simp] theorem holdAt_tcause (x : Ctx) (n : Nat) (h : Hold) : (x.holdAt n h).tcause = x.tcause := rfl
@[simp] theorem holdAt_tval (x : Ctx) (n : Nat) (h : Hold) : (x.holdAt n h).tval = x.tval := rfl
@[simp] theorem holdAt_tpc (x : Ctx) (n : Nat) (h : Hold) : (x.holdAt n h).tpc = x.tpc := rfl
@[simp] theorem holdAt_tstat (x : Ctx) (n : Nat) (h : Hold) : (x.holdAt n h).tstat = x.tstat := rfl
@[simp] theorem holdAt_tscratch (x : Ctx) (n : Nat) (h : Hold) : (x.holdAt n h).tscratch = x.tscratch := rfl
@[simp] theorem holdAt_wdog (x : Ctx) (n : Nat) (h : Hold) : (x.holdAt n h).wdog = x.wdog := rfl
@[simp] theorem holdAt_occtmo (x : Ctx) (n : Nat) (h : Hold) : (x.holdAt n h).occtmo = x.occtmo := rfl
@[simp] theorem holdAt_prin (x : Ctx) (n : Nat) (h : Hold) : (x.holdAt n h).prin = x.prin := rfl
@[simp] theorem holdAt_clrptr (x : Ctx) (n : Nat) (h : Hold) : (x.holdAt n h).clrptr = x.clrptr := rfl
@[simp] theorem holdAt_evptr (x : Ctx) (n : Nat) (h : Hold) : (x.holdAt n h).evptr = x.evptr := rfl
@[simp] theorem holdAt_fail (x : Ctx) (n : Nat) (h : Hold) : (x.holdAt n h).fail = x.fail := rfl
@[simp] theorem holdAt_pend (x : Ctx) (n : Nat) (h : Hold) : (x.holdAt n h).pend = x.pend := rfl
@[simp] theorem holdAt_paused (x : Ctx) (n : Nat) (h : Hold) : (x.holdAt n h).paused = x.paused := rfl
@[simp] theorem holdAt_slotAt (x : Ctx) (n : Nat) (h : Hold) : (x.holdAt n h).slotAt = x.slotAt := rfl
@[simp] theorem holdAt_entering (x : Ctx) (n : Nat) (h : Hold) : (x.holdAt n h).entering = x.entering := rfl
@[simp] theorem holdAt_arrive (x : Ctx) (n : Nat) (h : Hold) : (x.holdAt n h).arrive = x.arrive := rfl
@[simp] theorem holdAt_barPend (x : Ctx) (n : Nat) (h : Hold) : (x.holdAt n h).barPend = x.barPend := rfl
@[simp] theorem holdAt_peels (x : Ctx) (n : Nat) (h : Hold) : (x.holdAt n h).peels = x.peels := rfl

@[simp] theorem rx_zero (x : Ctx) : x.rx 0#5 = 0#64 := rfl
@[simp] theorem wx_zero (x : Ctx) (v : W64) (tag : Tag) (p : Bool) : x.wx 0#5 v tag p = x := rfl
@[simp] theorem marked_zero (x : Ctx) : x.marked 0#5 = false := rfl
@[simp] theorem rx_goOn (x : Ctx) (r : XReg) : x.goOn.rx r = x.rx r := rfl
@[simp] theorem rx_holdAt (x : Ctx) (n : Nat) (h : Hold) (r : XReg) : (x.holdAt n h).rx r = x.rx r := rfl
@[simp] theorem marked_goOn (x : Ctx) (r : XReg) : x.goOn.marked r = x.marked r := rfl

/-- A register that is written reads as the value written, but x0 (R22). -/
theorem rx_wx_same (x : Ctx) {r : XReg} (v : W64) (tag : Tag) (p : Bool) (h : r ≠ 0) : (x.wx r v tag p).rx r = v := by
  simp only [Ctx.wx, Ctx.rx, if_neg h, vget_vset_same]

/-- Another register keeps its value. -/
theorem rx_wx_ne (x : Ctx) {r q : XReg} (v : W64) (tag : Tag) (p : Bool) (h : q ≠ r) : (x.wx r v tag p).rx q = x.rx q := by
  by_cases hr : r = 0
  · simp only [Ctx.wx, if_pos hr]
  · simp only [Ctx.wx, Ctx.rx, if_neg hr, vget_vset_ne _ _ _ _ h]

/-- Another register keeps its patch tag. -/
theorem tag_wx_ne (x : Ctx) {r q : XReg} (v : W64) (tag : Tag) (p : Bool) (h : q ≠ r) :
    vget (x.wx r v tag p).tag q = vget x.tag q := by
  by_cases hr : r = 0
  · simp only [Ctx.wx, if_pos hr]
  · simp only [Ctx.wx, if_neg hr, vget_vset_ne _ _ _ _ h]

/-- The patch tag of a register that is written. -/
theorem tag_wx_same (x : Ctx) {r : XReg} (v : W64) (tag : Tag) (p : Bool) (h : r ≠ 0) :
    vget (x.wx r v tag p).tag r = tag := by
  simp only [Ctx.wx, if_neg h, vget_vset_same]

/-- The poison mark of a register that is written (R328). -/
theorem marked_wx_same (x : Ctx) {r : XReg} (v : W64) (tag : Tag) (p : Bool) (h : r ≠ 0) :
    (x.wx r v tag p).marked r = p := by
  have hr : r.toNat < 32 := r.isLt
  have hb : (r != 0) = true := by simpa using h
  cases p <;> simp only [Ctx.wx, Ctx.marked, if_neg h, hb] <;> simp [hr]

/-- Another register keeps its poison mark. -/
theorem marked_wx_ne (x : Ctx) {r q : XReg} (v : W64) (tag : Tag) (p : Bool) (h : q ≠ r) :
    (x.wx r v tag p).marked q = x.marked q := by
  have hq : q.toNat < 32 := q.isLt
  have hn : q.toNat ≠ r.toNat := fun e => h (BitVec.eq_of_toNat_eq e)
  by_cases hr : r = 0
  · simp only [Ctx.wx, if_pos hr]
  · by_cases hlt : q.toNat < r.toNat
    · cases p <;> simp only [Ctx.wx, Ctx.marked, if_neg hr] <;> simp [hq, hlt]
    · have hk : q.toNat - r.toNat ≠ 0 := by omega
      cases p <;> simp only [Ctx.wx, Ctx.marked, if_neg hr] <;> simp [hq, hlt, hk]

end Sys2Proof.Machine
end

