-- ==== Sys2Proof/Laws/Memory.lean ====
section
/-! SUPPORT. Sys2Proof/Laws/Memory.lean: the laws of memory: a read after a write, and that every write keeps the canonical
form. -/

namespace Sys2Proof.Machine

/-! ### Finite maps with rising keys -/

/-- The keys of a map rise strictly. -/
abbrev Rising {α : Type} (m : FMap α) : Prop := m.Pairwise fun a b => a.1 < b.1

theorem mem_fset {α : Type} {m : FMap α} {n : Nat} {a : α} {e : Nat × α} (h : e ∈ fset m n a) : e = (n, a) ∨ e ∈ m := by
  induction m with
  | nil => simp_all [fset]
  | cons k m ih =>
    obtain ⟨k, b⟩ := k
    unfold fset at h
    split at h
    · simpa using h
    · split at h
      · simp at h ⊢; tauto
      · simp at h ⊢
        rcases h with h | h
        · tauto
        · rcases ih h with h | h <;> tauto

theorem mem_fdel {α : Type} {m : FMap α} {n : Nat} {e : Nat × α} (h : e ∈ fdel m n) : e ∈ m := by
  induction m with
  | nil => simp [fdel] at h
  | cons k m ih =>
    obtain ⟨k, b⟩ := k
    unfold fdel at h
    split at h
    · simp [h]
    · simp at h ⊢
      rcases h with h | h
      · exact .inl h
      · exact .inr (ih h)

theorem rising_fset {α : Type} {m : FMap α} (n : Nat) (a : α) (h : Rising m) : Rising (fset m n a) := by
  induction m with
  | nil => simp [fset]
  | cons e m ih =>
    obtain ⟨k, b⟩ := e
    rw [Rising, List.pairwise_cons] at h
    unfold fset
    split
    · rename_i hk
      refine List.pairwise_cons.2 ⟨?_, List.pairwise_cons.2 h⟩
      intro e he
      rcases List.mem_cons.1 he with rfl | he
      · exact hk
      · exact Nat.lt_trans hk (h.1 e he)
    · split
      · rename_i hk
        exact List.pairwise_cons.2 ⟨fun e he => by simpa [hk] using h.1 e he, h.2⟩
      · refine List.pairwise_cons.2 ⟨?_, ih h.2⟩
        intro e he
        rcases mem_fset he with rfl | he
        · dsimp only; omega
        · exact h.1 e he

theorem rising_fdel {α : Type} {m : FMap α} (n : Nat) (h : Rising m) : Rising (fdel m n) := by
  induction m with
  | nil => simp [fdel]
  | cons e m ih =>
    obtain ⟨k, b⟩ := e
    rw [Rising, List.pairwise_cons] at h
    unfold fdel
    split
    · exact h.2
    · exact List.pairwise_cons.2 ⟨fun e he => h.1 e (mem_fdel he), ih h.2⟩

theorem fget_of_lt {α : Type} {m : FMap α} {n : Nat} (h : ∀ e ∈ m, n < e.1) : fget m n = none := by
  induction m with
  | nil => rfl
  | cons e m ih =>
    obtain ⟨k, b⟩ := e
    have hk : n < k := h (k, b) (by simp)
    simp only [fget, Nat.ne_of_gt hk, if_false]
    exact ih fun e he => h e (by simp [he])

theorem fget_fdel_same {α : Type} {m : FMap α} (n : Nat) (h : Rising m) : fget (fdel m n) n = none := by
  induction m with
  | nil => rfl
  | cons e m ih =>
    obtain ⟨k, b⟩ := e
    rw [Rising, List.pairwise_cons] at h
    unfold fdel
    split
    · rename_i hk
      exact fget_of_lt fun e he => by simpa [hk] using h.1 e he
    · rename_i hk
      rw [fget, if_neg (by omega)]
      exact ih h.2

theorem fget_fdel_ne {α : Type} (m : FMap α) {n k : Nat} (h : k ≠ n) : fget (fdel m n) k = fget m k := by
  induction m with
  | nil => rfl
  | cons e m ih =>
    obtain ⟨j, b⟩ := e
    unfold fdel
    split
    · rename_i hj
      subst hj
      simp [fget, Ne.symm h]
    · simp only [fget, ih]

/-! ### Memory -/

/-- The canonical form, as a proposition about the list. -/
theorem Memory.wf_iff (m : Memory) : m.wf = true ↔ Rising m ∧ ∀ e ∈ m, e.2 ≠ 0 := by
  match m with
  | [] => simp [Memory.wf]
  | [(a, b)] => simp [Memory.wf]
  | (a, b) :: (c, d) :: m =>
    have ih := Memory.wf_iff ((c, d) :: m)
    simp only [Memory.wf, Bool.and_eq_true, bne_iff_ne, decide_eq_true_eq, ih, Rising, List.pairwise_cons,
      List.mem_cons, forall_eq_or_imp]
    constructor
    · rintro ⟨⟨hb, hac⟩, ⟨hc, hp⟩, hd, hz⟩
      exact ⟨⟨⟨hac, fun e he => Nat.lt_trans hac (hc e he)⟩, hc, hp⟩, hb, hd, hz⟩
    · rintro ⟨⟨⟨hac, -⟩, hc, hp⟩, hb, hd, hz⟩
      exact ⟨⟨hb, hac⟩, ⟨hc, hp⟩, hd, hz⟩

/-- Writing a byte keeps the canonical form. -/
theorem Memory.wf_set {m : Memory} (a : Nat) (b : Byte) (h : m.wf = true) : (m.set a b).wf = true := by
  obtain ⟨hr, hz⟩ := (Memory.wf_iff m).1 h
  unfold Memory.set
  split
  · exact (Memory.wf_iff _).2 ⟨rising_fdel a hr, fun e he => hz e (mem_fdel he)⟩
  · rename_i hb
    refine (Memory.wf_iff _).2 ⟨rising_fset a b hr, fun e he => ?_⟩
    rcases mem_fset he with rfl | he
    · exact hb
    · exact hz e he

/-- A byte that is written reads as the value written. -/
theorem Memory.get_set_same {m : Memory} (a : Nat) (b : Byte) (h : m.wf = true) : (m.set a b).get a = b := by
  unfold Memory.set Memory.get
  split
  · rename_i hb
    simp [fget_fdel_same a ((Memory.wf_iff m).1 h).1, hb]
  · simp [fget_fset_same]

/-- Every other byte reads as before. -/
theorem Memory.get_set_ne (m : Memory) {a c : Nat} (b : Byte) (h : c ≠ a) : (m.set a b).get c = m.get c := by
  unfold Memory.set Memory.get
  split
  · rw [fget_fdel_ne m h]
  · rw [fget_fset_ne m b h]

/-- Bytes written one after the other: the memory that a list of writes leaves. -/
abbrev Memory.setAll (m : Memory) (l : List (Nat × Byte)) : Memory :=
  l.foldl (fun (m : Memory) (b : Nat × Byte) => Memory.set m b.1 b.2) m

/-- Writing bytes keeps the canonical form. -/
theorem Memory.wf_setAll {m : Memory} (l : List (Nat × Byte)) (h : m.wf = true) : (m.setAll l).wf = true := by
  induction l generalizing m with
  | nil => exact h
  | cons e l ih => exact ih (Memory.wf_set _ _ h)

/-- A byte that no write names reads as before. -/
theorem Memory.get_setAll_ne (m : Memory) (l : List (Nat × Byte)) (c : Nat) (h : ∀ e ∈ l, e.1 ≠ c) :
    (m.setAll l).get c = m.get c := by
  induction l generalizing m with
  | nil => rfl
  | cons e l ih =>
    have h1 : c ≠ e.1 := fun x => h e (by simp) x.symm
    exact (ih _ fun x hx => h x (by simp [hx])).trans (Memory.get_set_ne m _ h1)

/-- A byte that one write names, no two writes naming the same, reads as the value written. -/
theorem Memory.get_setAll_mem {m : Memory} {l : List (Nat × Byte)} {a : Nat} {b : Byte} (h : m.wf = true)
    (hn : l.Pairwise fun x y => x.1 ≠ y.1) (hm : (a, b) ∈ l) : (m.setAll l).get a = b := by
  induction l generalizing m with
  | nil => simp at hm
  | cons e l ih =>
    rw [List.pairwise_cons] at hn
    rcases List.mem_cons.1 hm with rfl | hm
    · exact (Memory.get_setAll_ne _ l a fun e he => Ne.symm (hn.1 e he)).trans (Memory.get_set_same a b h)
    · exact ih (Memory.wf_set _ _ h) hn.2 hm

/-! ### Writes at a home -/

theorem invalidate_mem (s : State) (n : Nat) : (s.invalidate n).mem = s.mem := by
  unfold State.invalidate
  split <;> rfl

theorem foldl_mem {α : Type} (f : State → α → State) (hf : ∀ s a, (f s a).mem = s.mem) (l : List α) (s : State) :
    (l.foldl f s).mem = s.mem := by
  induction l generalizing s with
  | nil => rfl
  | cons a l ih => exact (ih _).trans (hf s a)

theorem poisonWrite_mem (s : State) (l : List Nat) (p : Bool) (b : List Nat) : (s.poisonWrite l p b).mem = s.mem := by
  unfold State.poisonWrite
  cases p <;> rfl

theorem hitMonitors_mem (s : State) (l : List Nat) : (s.hitMonitors l).mem = s.mem := by
  unfold State.hitMonitors
  split <;> rfl

theorem setMoesi_mem (s : State) (n : Nat) (m : Moesi) : (s.setMoesi n m).mem = s.mem := by
  unfold State.setMoesi
  split <;> rfl

theorem recall_mem (s : State) (l : List Nat) : (s.recall l).mem = s.mem := rfl

/-- The memory that a write at its home leaves (R247). -/
theorem writeHome_mem (s : State) (l : List (Nat × Byte)) (p : Bool) (b : List Nat) :
    (s.writeHome l p b).mem = s.mem.setAll l := by
  unfold State.writeHome
  simp only [hitMonitors_mem, poisonWrite_mem, foldl_mem (fun (s : State) n => s.setMoesi n .modified)
    (fun s n => setMoesi_mem s n .modified), recall_mem, foldl_mem State.invalidate invalidate_mem]

/-- A write at its home keeps the canonical form of memory. -/
theorem writeHome_wf {s : State} (l : List (Nat × Byte)) (p : Bool) (b : List Nat) (h : s.mem.wf = true) :
    (s.writeHome l p b).mem.wf = true := by
  rw [writeHome_mem]
  exact Memory.wf_setAll l h

/-- A byte that a write at its home does not name reads as before. -/
theorem writeHome_get_ne (s : State) (l : List (Nat × Byte)) (p : Bool) (b : List Nat) (c : Nat) (h : ∀ e ∈ l, e.1 ≠ c) :
    (s.writeHome l p b).mem.get c = s.mem.get c := by
  rw [writeHome_mem]
  exact Memory.get_setAll_ne _ l c h

/-- What the hardware of a die writes keeps the canonical form (R113). -/
theorem dieWrite_wf {s : State} (d a : Nat) (l : List Byte) (h : s.mem.wf = true) : (s.dieWrite d a l).mem.wf = true :=
  writeHome_wf _ _ _ h

/-- A record appended to an event log keeps the canonical form (R90). -/
theorem appendLog_wf {s : State} (d : Nat) (e : W64) (r : List Byte) (h : s.mem.wf = true) :
    (s.appendLog d e r).mem.wf = true := by
  rw [State.appendLog]
  refine dieWrite_wf _ _ _ ?_
  split
  · exact dieWrite_wf _ _ _ h
  · exact h

end Sys2Proof.Machine
end

