-- ==== Sys2Proof/Laws/Scalar.lean ====
section
/-! SUPPORT. Sys2Proof/Laws/Scalar.lean: what an instruction that writes one x register and goes on does, said once. -/

namespace Sys2Proof.Machine

@[simp] theorem core_updAct_setCore (s : State) (g : Nat) (f h : CtxSet → CtxSet) :
    (s.updAct g f).updAct g h = s.updAct g fun t => h (f t) := updAct_updAct s g f h

/-- Two changes of the issuing context that agree on it give one state. -/
theorem updMe_congr (s : State) {f h : Ctx → Ctx} (e : f s.me = h s.me) : s.updMe f = s.updMe h := by
  simp only [State.me, State.ctx, State.aset] at e
  simp only [State.updMe, State.updCtx, State.updAct, State.updCore]
  simp only [e]

/-- A change of the issuing context changes nothing else. -/
theorem onlyMe_updMe (s : State) (f : Ctx → Ctx) : OnlyMe s (s.updMe f) :=
  updMe_congr s (by simp)

theorem onlyMe_goOn_wx (s : State) (rd : XReg) (v : W64) (tag : Tag) (p : Bool) : OnlyMe s (s.wx rd v tag p).goOn := by
  unfold State.goOn State.wx
  rw [updMe_updMe]
  exact onlyMe_updMe s _

/-- What a meaning that writes one x register and goes on does. -/
theorem writesX_finish (s : State) (rd : XReg) (v : W64) (tag : Tag) (p : Bool) :
    WritesX s (s.wx rd v tag p).goOn rd v := by
  have hme : (s.wx rd v tag p).goOn.me = (s.me.wx rd v tag p).goOn := by
    simp [State.wx]
  refine ⟨onlyMe_goOn_wx s rd v tag p, ?_, ?_, ?_, ?_, ?_⟩
  · rw [hme]
    unfold Ctx.wx
    split <;> rfl
  · intro h
    rw [State.rx, hme, rx_goOn]
    exact rx_wx_same _ v tag p h
  · rw [State.rx, hme]
    rfl
  · intro r hr
    refine ⟨?_, ?_, ?_⟩
    · rw [State.rx, hme, rx_goOn]
      exact rx_wx_ne _ v tag p hr
    · rw [hme]
      exact tag_wx_ne _ v tag p hr
    · rw [hme, marked_goOn]
      exact marked_wx_ne _ v tag p hr
  · intro a
    rfl

/-- An operation of one x register completes with its value. -/
theorem result_finish {i : Instr} {s : State} {rd : XReg} {v w : W64} {tag : Tag} {p : Bool}
    (h : exec i s = finish (s.wx rd w tag p)) (e : w = v) : Result i s rd v := by
  subst e
  exact ⟨_, h, writesX_finish s rd w tag p⟩

end Sys2Proof.Machine
end

