-- ==== Sys2Proof/Laws/Control.lean ====
section
/-! SUPPORT. Sys2Proof/Laws/Control.lean: what fetching, smudging, traps and the privilege check do, said once. -/

namespace Sys2Proof.Machine

/-! ### Changes that change nothing -/

@[simp] theorem updCore_setCore_self (s : State) (g : Nat) (f : Core → Core) :
    (s.setCore g (s.core g)).updCore g f = s.updCore g f := by
  simp [State.updCore]

@[simp] theorem updAct_setCore_self (s : State) (g : Nat) (f : CtxSet → CtxSet) :
    (s.setCore g (s.core g)).updAct g f = s.updAct g f := by
  simp [State.updAct]

@[simp] theorem updCtx_setCore_self (s : State) (g : Nat) (c : CtxId) (f : Ctx → Ctx) :
    (s.setCore g (s.core g)).updCtx g c f = s.updCtx g c f := by
  simp [State.updCtx]

@[simp] theorem aset_setCore_self (s : State) (g h : Nat) : (s.setCore g (s.core g)).aset h = s.aset h := by
  by_cases e : h = g
  · subst e; simp [State.aset]
  · simp [State.aset, core_setCore_ne s _ e]

@[simp] theorem ctx_setCore_self (s : State) (g h : Nat) (c : CtxId) : (s.setCore g (s.core g)).ctx h c = s.ctx h c := by
  simp [State.ctx]

/-- A smudge without a recording in progress changes nothing (R296). -/
theorem smudge_none {s : State} {g : Nat} (h : (s.core g).rec_ = none) (sid : Nat) (r : BitVec 3) :
    s.smudge g sid r = s.setCore g (s.core g) := by
  unfold State.smudge State.updCore
  congr 1
  cases hk : s.core g
  simp_all

/-- A smudge of a recording of another set changes nothing. -/
theorem smudgeMe_none {s : State} (h : s.recording = none) (r : BitVec 3) :
    s.smudgeMe r = s.setCore s.curCore (s.core s.curCore) := by
  unfold State.smudgeMe State.smudge State.updCore
  congr 1
  unfold State.recording at h
  cases hr : (s.core s.curCore).rec_ with
  | none => cases hk : s.core s.curCore; simp_all
  | some q =>
    rw [hr] at h
    by_cases hs : q.sid = s.mySet.sid
    · simp [hs] at h
    · cases hk : s.core s.curCore
      simp_all

theorem abandonPlay_none {t : CtxSet} {c : CtxId} (h : (nget t.ctx c).hold = .none) : t.abandonPlay c = t := by
  simp [CtxSet.abandonPlay, h]

theorem abandon_none {x : Ctx} (h : x.hold = .none) : x.abandon = x := by
  simp [Ctx.abandon, h]

/-- Two changes of an active set that agree on it give one state. -/
theorem updAct_congr (s : State) (g : Nat) {f h : CtxSet → CtxSet} (e : f (s.aset g) = h (s.aset g)) :
    s.updAct g f = s.updAct g h := by
  simp only [State.aset] at e
  simp only [State.updAct, State.updCore, e]

/-- Two changes of a context that agree on it give one state. -/
theorem updCtx_congr (s : State) (g : Nat) (c : CtxId) {f h : Ctx → Ctx} (e : f (s.ctx g c) = h (s.ctx g c)) :
    s.updCtx g c f = s.updCtx g c h := by
  refine updAct_congr s g ?_
  simp only [State.ctx] at e
  simp only [e]

theorem updAct_id (s : State) (g : Nat) : (s.updAct g fun t => t) = s.setCore g (s.core g) := by
  unfold State.updAct State.updCore
  congr 1
  cases h : s.core g
  simp [Core.act, nset, nget]

/-! ### Fetch does not depend on the registers of contexts -/

@[simp] theorem fetch_updCtx (s : State) (g h : Nat) (c : CtxId) (f : Ctx → Ctx) :
    ((s.updCtx g c f).core h).fetch = (s.core h).fetch := by
  by_cases e : h = g
  · subst e; simp [State.updCtx, State.updAct]
  · simp [State.updCtx, State.updAct, core_updCore_ne s _ e]

@[simp] theorem codeTok_updCtx (s : State) (g h : Nat) (c : CtxId) (f : Ctx → Ctx) :
    ((s.updCtx g c f).aset h).codeTok = (s.aset h).codeTok := by
  by_cases e : h = g
  · subst e; simp [State.updCtx]
  · simp [State.updCtx, aset_updAct_ne s _ e]

@[simp] theorem pin_updCtx (s : State) (g : Nat) (c : CtxId) (f : Ctx → Ctx) (d : Nat) (e : BitVec 20) :
    (s.updCtx g c f).pin d e = s.pin d e := rfl

/-- What an address decides of an access depends on the dies, the links and the package alone. -/
theorem ascOk_congr {s t : State} (hd : t.dies = s.dies) (hl : t.linkDown = s.linkDown) (n d : Nat) : t.ascOk d n = s.ascOk d n := by
  induction n generalizing d with
  | zero => rfl
  | succ n ih => simp only [State.ascOk, State.linkIsDown, State.die, hd, hl, ih]

theorem routeOf_congr {s t : State} (hd : t.dies = s.dies) (hl : t.linkDown = s.linkDown) (hp : t.pkgid = s.pkgid)
    (a dst loc : Nat) : t.routeOf a dst loc = s.routeOf a dst loc := by
  have hr : ∀ a b loc, t.ringDir a b loc = s.ringDir a b loc := fun a b loc => by
    simp only [State.ringDir, State.pathOk, ascOk_congr hd hl]
    rfl
  simp only [State.routeOf, State.rackDir, State.die, State.bridgeOk, hd, hl, hp, hr]
  rfl

theorem addrFate_congr {s t : State} (hd : t.dies = s.dies) (hl : t.linkDown = s.linkDown) (hp : t.pkgid = s.pkgid)
    (g loc : Nat) (v : Via) : t.addrFate g loc v = s.addrFate g loc v := by
  simp only [State.addrFate, State.reaches, State.die, State.homeDie, locDie, routeOf_congr hd hl hp, hd, hp]
  rfl

theorem codeHere_updCtx (s : State) (g h : Nat) (c : CtxId) (f : Ctx → Ctx) (loc : Nat) :
    (s.updCtx g c f).codeHere h loc = s.codeHere h loc := by
  simp only [State.codeHere, fetch_updCtx, addrFate_congr (s := s) (t := s.updCtx g c f) rfl rfl rfl]
  rfl

theorem readLine_updCtx (s : State) (g h : Nat) (c : CtxId) (f : Ctx → Ctx) (t : Token) (off : Nat) :
    (s.updCtx g c f).readLine h t off = s.readLine h t off := by
  simp only [State.readLine, fetch_updCtx, codeHere_updCtx]
  rfl

/-- What the checks of a target find does not depend on the registers of contexts. -/
@[simp] theorem checkTarget_updCtx (s : State) (g h : Nat) (c d : CtxId) (f : Ctx → Ctx) (a : W64) :
    (s.updCtx g c f).checkTarget h d a = s.checkTarget h d a := by
  simp only [State.checkTarget, codeTok_updCtx, readLine_updCtx]

@[simp] theorem checkTarget_setCore_self (s : State) (g h : Nat) (d : CtxId) (a : W64) :
    (s.setCore g (s.core g)).checkTarget h d a = s.checkTarget h d a := by
  have hf : ((s.setCore g (s.core g)).core h).fetch = (s.core h).fetch := by
    by_cases e : h = g
    · subst e; simp
    · simp [core_setCore_ne s _ e]
  have hc : ∀ loc, (s.setCore g (s.core g)).codeHere h loc = s.codeHere h loc := by
    intro loc
    simp only [State.codeHere, hf, addrFate_congr (s := s) (t := s.setCore g (s.core g)) rfl rfl rfl]
    rfl
  have hr : ∀ t off, (s.setCore g (s.core g)).readLine h t off = s.readLine h t off := by
    intro t off
    simp only [State.readLine, hf, hc]
    rfl
  simp only [State.checkTarget, aset_setCore_self, hr]

/-! ### Traps (R91 to R95) -/

/-- A trap whose handler is a lane of the context changes the context's trap registers and nothing else (R93), when the core
does not record and the context holds nothing; a bad header, whose line may be one that no request reached, is apart. -/
theorem trap_ok {s : State} {g : Nat} {c : CtxId} (k : Cause) (val pc : W64) (hk : k ≠ .fhdr) (hr : (s.core g).rec_ = none)
    (hh : (s.ctx g c).hold = .none) (ht : s.checkTarget g c (s.ctx g c).tvec = .ok) :
    s.trap g c k val pc = s.updCtx g c fun x => x.trapRegs k val pc := by
  have h1 : (s.smudge g (s.aset g).sid 5).abandonPlay g c = s.setCore g (s.core g) := by
    have hk : (nget ((s.setCore g (s.core g)).aset g).ctx c).hold = .none := by rw [aset_setCore_self]; exact hh
    have hp : ((s.setCore g (s.core g)).aset g).headPlay c = false := by simp only [CtxSet.headPlay, hk]
    rw [smudge_none hr, State.abandonPlay]
    simp only [hk, hp, if_false, Bool.false_eq_true]
    rw [updAct_setCore_self, ← updAct_id]
    exact updAct_congr s g (abandonPlay_none hh)
  have h2 : (s.updCtx g c fun x => x.abandon.trapRegs k val pc) = s.updCtx g c fun x => x.trapRegs k val pc :=
    updCtx_congr s g c (by rw [abandon_none hh])
  have htv : ((s.ctx g c).trapRegs k val pc).tvec = (s.ctx g c).tvec := rfl
  unfold State.trap
  have hf : (k == Cause.fhdr) = false := by simpa using hk
  simp only [hf, if_false, Bool.false_eq_true, h1, updCtx_setCore_self, h2, checkTarget_updCtx, ctx_updCtx_same, htv, ht]

theorem rx_trapRegs (k : Cause) (val pc : W64) (x : Ctx) (r : XReg) : (x.trapRegs k val pc).rx r = x.rx r := rfl

/-- What a trap whose registers are written leaves to be seen (R85, R93). -/
theorem trapped_updCtx (s : State) (g : Nat) (c : CtxId) (k : Cause) (val pc : W64) :
    Trapped s (s.updCtx g c fun x => x.trapRegs k val pc) g c k val pc := by
  constructor <;> rw [ctx_updCtx_same]
  · rfl
  · rfl
  · rfl
  · cases h : (s.ctx g c).tstat.getLsbD 1 <;> cases h' : (s.ctx g c).sup <;> simp only [Ctx.trapRegs, h, h'] <;> rfl
  · cases h : (s.ctx g c).tstat.getLsbD 1 <;> cases h' : (s.ctx g c).sup <;> simp only [Ctx.trapRegs, h, h'] <;> rfl
  · cases h : (s.ctx g c).tstat.getLsbD 1 <;> cases h' : (s.ctx g c).sup <;> simp only [Ctx.trapRegs, h, h'] <;> rfl
  · rfl
  · rfl
  · intro r
    rfl

/-- A trap of the issuing context. -/
theorem trapMe_trapped {s : State} (k : Cause) (val : W64) (hk : k ≠ .fhdr) (hr : (s.core s.curCore).rec_ = none)
    (hh : s.me.hold = .none) (ht : s.checkTarget s.curCore s.curCtx s.me.tvec = .ok) :
    Trapped s (s.trapMe k val) s.curCore s.curCtx k val s.me.pc := by
  unfold State.trapMe
  rw [trap_ok k val s.me.pc hk hr hh ht]
  exact trapped_updCtx ..

end Sys2Proof.Machine
end

