-- ==== Sys2Proof/Laws/Encoding.lean ====
section
/-! SUPPORT. Sys2Proof/Laws/Encoding.lean: the fields of an encoded word, format by format, as the decoder reads them, and
what each shared part of the decoder reads from an encoded word. -/

set_option linter.unusedSimpArgs false
set_option Elab.async false

namespace Sys2Proof

/-! ### Fields of each format -/

theorem encR_op (f7 : BitVec 7) (rs2 rs1 : XReg) (f3 : BitVec 3) (rd : XReg) (op : BitVec 7) : bits (encR f7 rs2 rs1 f3 rd op) 0 7 = op := by
  simp (disch := decide) only [encR, bits, BitVec.extractLsb'_append_eq_of_le, BitVec.extractLsb'_append_eq_of_add_le, Nat.reduceSub, Nat.sub_self, BitVec.extractLsb'_eq_self]
theorem encR_rd (f7 : BitVec 7) (rs2 rs1 : XReg) (f3 : BitVec 3) (rd : XReg) (op : BitVec 7) : bits (encR f7 rs2 rs1 f3 rd op) 7 5 = rd := by
  simp (disch := decide) only [encR, bits, BitVec.extractLsb'_append_eq_of_le, BitVec.extractLsb'_append_eq_of_add_le, Nat.reduceSub, Nat.sub_self, BitVec.extractLsb'_eq_self]
theorem encR_f3 (f7 : BitVec 7) (rs2 rs1 : XReg) (f3 : BitVec 3) (rd : XReg) (op : BitVec 7) : bits (encR f7 rs2 rs1 f3 rd op) 12 3 = f3 := by
  simp (disch := decide) only [encR, bits, BitVec.extractLsb'_append_eq_of_le, BitVec.extractLsb'_append_eq_of_add_le, Nat.reduceSub, Nat.sub_self, BitVec.extractLsb'_eq_self]
theorem encR_rs1 (f7 : BitVec 7) (rs2 rs1 : XReg) (f3 : BitVec 3) (rd : XReg) (op : BitVec 7) : bits (encR f7 rs2 rs1 f3 rd op) 15 5 = rs1 := by
  simp (disch := decide) only [encR, bits, BitVec.extractLsb'_append_eq_of_le, BitVec.extractLsb'_append_eq_of_add_le, Nat.reduceSub, Nat.sub_self, BitVec.extractLsb'_eq_self]
theorem encR_rs2 (f7 : BitVec 7) (rs2 rs1 : XReg) (f3 : BitVec 3) (rd : XReg) (op : BitVec 7) : bits (encR f7 rs2 rs1 f3 rd op) 20 5 = rs2 := by
  simp (disch := decide) only [encR, bits, BitVec.extractLsb'_append_eq_of_le, BitVec.extractLsb'_append_eq_of_add_le, Nat.reduceSub, Nat.sub_self, BitVec.extractLsb'_eq_self]
theorem encR_f7 (f7 : BitVec 7) (rs2 rs1 : XReg) (f3 : BitVec 3) (rd : XReg) (op : BitVec 7) : bits (encR f7 rs2 rs1 f3 rd op) 25 7 = f7 := by
  simp (disch := decide) only [encR, bits, BitVec.extractLsb'_append_eq_of_le, BitVec.extractLsb'_append_eq_of_add_le, Nat.reduceSub, Nat.sub_self, BitVec.extractLsb'_eq_self]
theorem encR_rd4 (f7 : BitVec 7) (rs2 rs1 : XReg) (f3 : BitVec 3) (rd : XReg) (op : BitVec 7) : bits (encR f7 rs2 rs1 f3 rd op) 7 4 = rd.extractLsb' 0 4 := by
  simp (disch := decide) only [encR, bits, BitVec.extractLsb'_append_eq_of_le, BitVec.extractLsb'_append_eq_of_add_le, Nat.reduceSub, Nat.sub_self, BitVec.extractLsb'_eq_self]
theorem encR_rdHi (f7 : BitVec 7) (rs2 rs1 : XReg) (f3 : BitVec 3) (rd : XReg) (op : BitVec 7) : bits (encR f7 rs2 rs1 f3 rd op) 11 1 = rd.extractLsb' 4 1 := by
  simp (disch := decide) only [encR, bits, BitVec.extractLsb'_append_eq_of_le, BitVec.extractLsb'_append_eq_of_add_le, Nat.reduceSub, Nat.sub_self, BitVec.extractLsb'_eq_self]
theorem encR_rs14 (f7 : BitVec 7) (rs2 rs1 : XReg) (f3 : BitVec 3) (rd : XReg) (op : BitVec 7) : bits (encR f7 rs2 rs1 f3 rd op) 15 4 = rs1.extractLsb' 0 4 := by
  simp (disch := decide) only [encR, bits, BitVec.extractLsb'_append_eq_of_le, BitVec.extractLsb'_append_eq_of_add_le, Nat.reduceSub, Nat.sub_self, BitVec.extractLsb'_eq_self]
theorem encR_rs1Hi (f7 : BitVec 7) (rs2 rs1 : XReg) (f3 : BitVec 3) (rd : XReg) (op : BitVec 7) : bits (encR f7 rs2 rs1 f3 rd op) 19 1 = rs1.extractLsb' 4 1 := by
  simp (disch := decide) only [encR, bits, BitVec.extractLsb'_append_eq_of_le, BitVec.extractLsb'_append_eq_of_add_le, Nat.reduceSub, Nat.sub_self, BitVec.extractLsb'_eq_self]
theorem encR_rs13 (f7 : BitVec 7) (rs2 rs1 : XReg) (f3 : BitVec 3) (rd : XReg) (op : BitVec 7) : bits (encR f7 rs2 rs1 f3 rd op) 15 3 = rs1.extractLsb' 0 3 := by
  simp (disch := decide) only [encR, bits, BitVec.extractLsb'_append_eq_of_le, BitVec.extractLsb'_append_eq_of_add_le, Nat.reduceSub, Nat.sub_self, BitVec.extractLsb'_eq_self]
theorem encR_f7at0len4 (f7 : BitVec 7) (rs2 rs1 : XReg) (f3 : BitVec 3) (rd : XReg) (op : BitVec 7) : bits (encR f7 rs2 rs1 f3 rd op) 25 4 = f7.extractLsb' 0 4 := by
  simp (disch := decide) only [encR, bits, BitVec.extractLsb'_append_eq_of_le, BitVec.extractLsb'_append_eq_of_add_le, Nat.reduceSub, Nat.sub_self, BitVec.extractLsb'_eq_self]
theorem encR_f7at0len2 (f7 : BitVec 7) (rs2 rs1 : XReg) (f3 : BitVec 3) (rd : XReg) (op : BitVec 7) : bits (encR f7 rs2 rs1 f3 rd op) 25 2 = f7.extractLsb' 0 2 := by
  simp (disch := decide) only [encR, bits, BitVec.extractLsb'_append_eq_of_le, BitVec.extractLsb'_append_eq_of_add_le, Nat.reduceSub, Nat.sub_self, BitVec.extractLsb'_eq_self]
theorem encR_f7at4len1 (f7 : BitVec 7) (rs2 rs1 : XReg) (f3 : BitVec 3) (rd : XReg) (op : BitVec 7) : bits (encR f7 rs2 rs1 f3 rd op) 29 1 = f7.extractLsb' 4 1 := by
  simp (disch := decide) only [encR, bits, BitVec.extractLsb'_append_eq_of_le, BitVec.extractLsb'_append_eq_of_add_le, Nat.reduceSub, Nat.sub_self, BitVec.extractLsb'_eq_self]
theorem encR_f7at5len1 (f7 : BitVec 7) (rs2 rs1 : XReg) (f3 : BitVec 3) (rd : XReg) (op : BitVec 7) : bits (encR f7 rs2 rs1 f3 rd op) 30 1 = f7.extractLsb' 5 1 := by
  simp (disch := decide) only [encR, bits, BitVec.extractLsb'_append_eq_of_le, BitVec.extractLsb'_append_eq_of_add_le, Nat.reduceSub, Nat.sub_self, BitVec.extractLsb'_eq_self]
theorem encR_f7at6len1 (f7 : BitVec 7) (rs2 rs1 : XReg) (f3 : BitVec 3) (rd : XReg) (op : BitVec 7) : bits (encR f7 rs2 rs1 f3 rd op) 31 1 = f7.extractLsb' 6 1 := by
  simp (disch := decide) only [encR, bits, BitVec.extractLsb'_append_eq_of_le, BitVec.extractLsb'_append_eq_of_add_le, Nat.reduceSub, Nat.sub_self, BitVec.extractLsb'_eq_self]
theorem encR_f7at5len2 (f7 : BitVec 7) (rs2 rs1 : XReg) (f3 : BitVec 3) (rd : XReg) (op : BitVec 7) : bits (encR f7 rs2 rs1 f3 rd op) 30 2 = f7.extractLsb' 5 2 := by
  simp (disch := decide) only [encR, bits, BitVec.extractLsb'_append_eq_of_le, BitVec.extractLsb'_append_eq_of_add_le, Nat.reduceSub, Nat.sub_self, BitVec.extractLsb'_eq_self]
theorem encR_f7at2len5 (f7 : BitVec 7) (rs2 rs1 : XReg) (f3 : BitVec 3) (rd : XReg) (op : BitVec 7) : bits (encR f7 rs2 rs1 f3 rd op) 27 5 = f7.extractLsb' 2 5 := by
  simp (disch := decide) only [encR, bits, BitVec.extractLsb'_append_eq_of_le, BitVec.extractLsb'_append_eq_of_add_le, Nat.reduceSub, Nat.sub_self, BitVec.extractLsb'_eq_self]
theorem encR_f7at4len3 (f7 : BitVec 7) (rs2 rs1 : XReg) (f3 : BitVec 3) (rd : XReg) (op : BitVec 7) : bits (encR f7 rs2 rs1 f3 rd op) 29 3 = f7.extractLsb' 4 3 := by
  simp (disch := decide) only [encR, bits, BitVec.extractLsb'_append_eq_of_le, BitVec.extractLsb'_append_eq_of_add_le, Nat.reduceSub, Nat.sub_self, BitVec.extractLsb'_eq_self]
theorem encI_op (imm : BitVec 12) (rs1 : XReg) (f3 : BitVec 3) (rd : XReg) (op : BitVec 7) : bits (encI imm rs1 f3 rd op) 0 7 = op := by
  simp (disch := decide) only [encI, bits, BitVec.extractLsb'_append_eq_of_le, BitVec.extractLsb'_append_eq_of_add_le, Nat.reduceSub, Nat.sub_self, BitVec.extractLsb'_eq_self]
theorem encI_rd (imm : BitVec 12) (rs1 : XReg) (f3 : BitVec 3) (rd : XReg) (op : BitVec 7) : bits (encI imm rs1 f3 rd op) 7 5 = rd := by
  simp (disch := decide) only [encI, bits, BitVec.extractLsb'_append_eq_of_le, BitVec.extractLsb'_append_eq_of_add_le, Nat.reduceSub, Nat.sub_self, BitVec.extractLsb'_eq_self]
theorem encI_f3 (imm : BitVec 12) (rs1 : XReg) (f3 : BitVec 3) (rd : XReg) (op : BitVec 7) : bits (encI imm rs1 f3 rd op) 12 3 = f3 := by
  simp (disch := decide) only [encI, bits, BitVec.extractLsb'_append_eq_of_le, BitVec.extractLsb'_append_eq_of_add_le, Nat.reduceSub, Nat.sub_self, BitVec.extractLsb'_eq_self]
theorem encI_rs1 (imm : BitVec 12) (rs1 : XReg) (f3 : BitVec 3) (rd : XReg) (op : BitVec 7) : bits (encI imm rs1 f3 rd op) 15 5 = rs1 := by
  simp (disch := decide) only [encI, bits, BitVec.extractLsb'_append_eq_of_le, BitVec.extractLsb'_append_eq_of_add_le, Nat.reduceSub, Nat.sub_self, BitVec.extractLsb'_eq_self]
theorem encI_imm (imm : BitVec 12) (rs1 : XReg) (f3 : BitVec 3) (rd : XReg) (op : BitVec 7) : bits (encI imm rs1 f3 rd op) 20 12 = imm := by
  simp (disch := decide) only [encI, bits, BitVec.extractLsb'_append_eq_of_le, BitVec.extractLsb'_append_eq_of_add_le, Nat.reduceSub, Nat.sub_self, BitVec.extractLsb'_eq_self]
theorem encI_shl6 (imm : BitVec 12) (rs1 : XReg) (f3 : BitVec 3) (rd : XReg) (op : BitVec 7) : bits (encI imm rs1 f3 rd op) 20 6 = imm.extractLsb' 0 6 := by
  simp (disch := decide) only [encI, bits, BitVec.extractLsb'_append_eq_of_le, BitVec.extractLsb'_append_eq_of_add_le, Nat.reduceSub, Nat.sub_self, BitVec.extractLsb'_eq_self]
theorem encI_hi6 (imm : BitVec 12) (rs1 : XReg) (f3 : BitVec 3) (rd : XReg) (op : BitVec 7) : bits (encI imm rs1 f3 rd op) 26 6 = imm.extractLsb' 6 6 := by
  simp (disch := decide) only [encI, bits, BitVec.extractLsb'_append_eq_of_le, BitVec.extractLsb'_append_eq_of_add_le, Nat.reduceSub, Nat.sub_self, BitVec.extractLsb'_eq_self]
theorem encI_shl5 (imm : BitVec 12) (rs1 : XReg) (f3 : BitVec 3) (rd : XReg) (op : BitVec 7) : bits (encI imm rs1 f3 rd op) 20 5 = imm.extractLsb' 0 5 := by
  simp (disch := decide) only [encI, bits, BitVec.extractLsb'_append_eq_of_le, BitVec.extractLsb'_append_eq_of_add_le, Nat.reduceSub, Nat.sub_self, BitVec.extractLsb'_eq_self]
theorem encI_hi7 (imm : BitVec 12) (rs1 : XReg) (f3 : BitVec 3) (rd : XReg) (op : BitVec 7) : bits (encI imm rs1 f3 rd op) 25 7 = imm.extractLsb' 5 7 := by
  simp (disch := decide) only [encI, bits, BitVec.extractLsb'_append_eq_of_le, BitVec.extractLsb'_append_eq_of_add_le, Nat.reduceSub, Nat.sub_self, BitVec.extractLsb'_eq_self]
theorem encI_lo4 (imm : BitVec 12) (rs1 : XReg) (f3 : BitVec 3) (rd : XReg) (op : BitVec 7) : bits (encI imm rs1 f3 rd op) 20 4 = imm.extractLsb' 0 4 := by
  simp (disch := decide) only [encI, bits, BitVec.extractLsb'_append_eq_of_le, BitVec.extractLsb'_append_eq_of_add_le, Nat.reduceSub, Nat.sub_self, BitVec.extractLsb'_eq_self]
theorem encI_mid4 (imm : BitVec 12) (rs1 : XReg) (f3 : BitVec 3) (rd : XReg) (op : BitVec 7) : bits (encI imm rs1 f3 rd op) 24 4 = imm.extractLsb' 4 4 := by
  simp (disch := decide) only [encI, bits, BitVec.extractLsb'_append_eq_of_le, BitVec.extractLsb'_append_eq_of_add_le, Nat.reduceSub, Nat.sub_self, BitVec.extractLsb'_eq_self]
theorem encI_hi4 (imm : BitVec 12) (rs1 : XReg) (f3 : BitVec 3) (rd : XReg) (op : BitVec 7) : bits (encI imm rs1 f3 rd op) 28 4 = imm.extractLsb' 8 4 := by
  simp (disch := decide) only [encI, bits, BitVec.extractLsb'_append_eq_of_le, BitVec.extractLsb'_append_eq_of_add_le, Nat.reduceSub, Nat.sub_self, BitVec.extractLsb'_eq_self]
theorem encS_op (imm : BitVec 12) (rs2 rs1 : XReg) (f3 : BitVec 3) : bits (encS imm rs2 rs1 f3) 0 7 = 0x23#7 := by
  simp (disch := decide) only [encS, bits, BitVec.extractLsb'_append_eq_of_le, BitVec.extractLsb'_append_eq_of_add_le, Nat.reduceSub, Nat.sub_self, BitVec.extractLsb'_eq_self]
theorem encS_lo (imm : BitVec 12) (rs2 rs1 : XReg) (f3 : BitVec 3) : bits (encS imm rs2 rs1 f3) 7 5 = imm.extractLsb' 0 5 := by
  simp (disch := decide) only [encS, bits, BitVec.extractLsb'_append_eq_of_le, BitVec.extractLsb'_append_eq_of_add_le, Nat.reduceSub, Nat.sub_self, BitVec.extractLsb'_eq_self]
theorem encS_f3 (imm : BitVec 12) (rs2 rs1 : XReg) (f3 : BitVec 3) : bits (encS imm rs2 rs1 f3) 12 3 = f3 := by
  simp (disch := decide) only [encS, bits, BitVec.extractLsb'_append_eq_of_le, BitVec.extractLsb'_append_eq_of_add_le, Nat.reduceSub, Nat.sub_self, BitVec.extractLsb'_eq_self]
theorem encS_rs1 (imm : BitVec 12) (rs2 rs1 : XReg) (f3 : BitVec 3) : bits (encS imm rs2 rs1 f3) 15 5 = rs1 := by
  simp (disch := decide) only [encS, bits, BitVec.extractLsb'_append_eq_of_le, BitVec.extractLsb'_append_eq_of_add_le, Nat.reduceSub, Nat.sub_self, BitVec.extractLsb'_eq_self]
theorem encS_rs2 (imm : BitVec 12) (rs2 rs1 : XReg) (f3 : BitVec 3) : bits (encS imm rs2 rs1 f3) 20 5 = rs2 := by
  simp (disch := decide) only [encS, bits, BitVec.extractLsb'_append_eq_of_le, BitVec.extractLsb'_append_eq_of_add_le, Nat.reduceSub, Nat.sub_self, BitVec.extractLsb'_eq_self]
theorem encS_hi (imm : BitVec 12) (rs2 rs1 : XReg) (f3 : BitVec 3) : bits (encS imm rs2 rs1 f3) 25 7 = imm.extractLsb' 5 7 := by
  simp (disch := decide) only [encS, bits, BitVec.extractLsb'_append_eq_of_le, BitVec.extractLsb'_append_eq_of_add_le, Nat.reduceSub, Nat.sub_self, BitVec.extractLsb'_eq_self]
theorem encB_op (off : BitVec 12) (rs2 rs1 : XReg) (f3 : BitVec 3) : bits (encB off rs2 rs1 f3) 0 7 = 0x63#7 := by
  simp (disch := decide) only [encB, bits, BitVec.extractLsb'_append_eq_of_le, BitVec.extractLsb'_append_eq_of_add_le, Nat.reduceSub, Nat.sub_self, BitVec.extractLsb'_eq_self]
theorem encB_b11 (off : BitVec 12) (rs2 rs1 : XReg) (f3 : BitVec 3) : bits (encB off rs2 rs1 f3) 7 1 = off.extractLsb' 10 1 := by
  simp (disch := decide) only [encB, bits, BitVec.extractLsb'_append_eq_of_le, BitVec.extractLsb'_append_eq_of_add_le, Nat.reduceSub, Nat.sub_self, BitVec.extractLsb'_eq_self]
theorem encB_lo (off : BitVec 12) (rs2 rs1 : XReg) (f3 : BitVec 3) : bits (encB off rs2 rs1 f3) 8 4 = off.extractLsb' 0 4 := by
  simp (disch := decide) only [encB, bits, BitVec.extractLsb'_append_eq_of_le, BitVec.extractLsb'_append_eq_of_add_le, Nat.reduceSub, Nat.sub_self, BitVec.extractLsb'_eq_self]
theorem encB_f3 (off : BitVec 12) (rs2 rs1 : XReg) (f3 : BitVec 3) : bits (encB off rs2 rs1 f3) 12 3 = f3 := by
  simp (disch := decide) only [encB, bits, BitVec.extractLsb'_append_eq_of_le, BitVec.extractLsb'_append_eq_of_add_le, Nat.reduceSub, Nat.sub_self, BitVec.extractLsb'_eq_self]
theorem encB_rs1 (off : BitVec 12) (rs2 rs1 : XReg) (f3 : BitVec 3) : bits (encB off rs2 rs1 f3) 15 5 = rs1 := by
  simp (disch := decide) only [encB, bits, BitVec.extractLsb'_append_eq_of_le, BitVec.extractLsb'_append_eq_of_add_le, Nat.reduceSub, Nat.sub_self, BitVec.extractLsb'_eq_self]
theorem encB_rs2 (off : BitVec 12) (rs2 rs1 : XReg) (f3 : BitVec 3) : bits (encB off rs2 rs1 f3) 20 5 = rs2 := by
  simp (disch := decide) only [encB, bits, BitVec.extractLsb'_append_eq_of_le, BitVec.extractLsb'_append_eq_of_add_le, Nat.reduceSub, Nat.sub_self, BitVec.extractLsb'_eq_self]
theorem encB_mid (off : BitVec 12) (rs2 rs1 : XReg) (f3 : BitVec 3) : bits (encB off rs2 rs1 f3) 25 6 = off.extractLsb' 4 6 := by
  simp (disch := decide) only [encB, bits, BitVec.extractLsb'_append_eq_of_le, BitVec.extractLsb'_append_eq_of_add_le, Nat.reduceSub, Nat.sub_self, BitVec.extractLsb'_eq_self]
theorem encB_hi (off : BitVec 12) (rs2 rs1 : XReg) (f3 : BitVec 3) : bits (encB off rs2 rs1 f3) 31 1 = off.extractLsb' 11 1 := by
  simp (disch := decide) only [encB, bits, BitVec.extractLsb'_append_eq_of_le, BitVec.extractLsb'_append_eq_of_add_le, Nat.reduceSub, Nat.sub_self, BitVec.extractLsb'_eq_self]
theorem encJ_op (off : BitVec 20) (rd : XReg) : bits (encJ off rd) 0 7 = 0x6F#7 := by
  simp (disch := decide) only [encJ, bits, BitVec.extractLsb'_append_eq_of_le, BitVec.extractLsb'_append_eq_of_add_le, Nat.reduceSub, Nat.sub_self, BitVec.extractLsb'_eq_self]
theorem encJ_rd (off : BitVec 20) (rd : XReg) : bits (encJ off rd) 7 5 = rd := by
  simp (disch := decide) only [encJ, bits, BitVec.extractLsb'_append_eq_of_le, BitVec.extractLsb'_append_eq_of_add_le, Nat.reduceSub, Nat.sub_self, BitVec.extractLsb'_eq_self]
theorem encJ_mid (off : BitVec 20) (rd : XReg) : bits (encJ off rd) 12 8 = off.extractLsb' 11 8 := by
  simp (disch := decide) only [encJ, bits, BitVec.extractLsb'_append_eq_of_le, BitVec.extractLsb'_append_eq_of_add_le, Nat.reduceSub, Nat.sub_self, BitVec.extractLsb'_eq_self]
theorem encJ_b11 (off : BitVec 20) (rd : XReg) : bits (encJ off rd) 20 1 = off.extractLsb' 10 1 := by
  simp (disch := decide) only [encJ, bits, BitVec.extractLsb'_append_eq_of_le, BitVec.extractLsb'_append_eq_of_add_le, Nat.reduceSub, Nat.sub_self, BitVec.extractLsb'_eq_self]
theorem encJ_lo (off : BitVec 20) (rd : XReg) : bits (encJ off rd) 21 10 = off.extractLsb' 0 10 := by
  simp (disch := decide) only [encJ, bits, BitVec.extractLsb'_append_eq_of_le, BitVec.extractLsb'_append_eq_of_add_le, Nat.reduceSub, Nat.sub_self, BitVec.extractLsb'_eq_self]
theorem encJ_hi (off : BitVec 20) (rd : XReg) : bits (encJ off rd) 31 1 = off.extractLsb' 19 1 := by
  simp (disch := decide) only [encJ, bits, BitVec.extractLsb'_append_eq_of_le, BitVec.extractLsb'_append_eq_of_add_le, Nat.reduceSub, Nat.sub_self, BitVec.extractLsb'_eq_self]
theorem encV_op (op : BitVec 6) (ty : BitVec 4) (mk : MReg) (s2 vs1 vd : BitVec 5) (form aux : BitVec 2) : bits (encV op ty mk s2 vs1 vd form aux) 26 6 = op := by
  simp (disch := decide) only [encV, bits, BitVec.extractLsb'_append_eq_of_le, BitVec.extractLsb'_append_eq_of_add_le, Nat.reduceSub, Nat.sub_self, BitVec.extractLsb'_eq_self]
theorem encV_ty (op : BitVec 6) (ty : BitVec 4) (mk : MReg) (s2 vs1 vd : BitVec 5) (form aux : BitVec 2) : bits (encV op ty mk s2 vs1 vd form aux) 22 4 = ty := by
  simp (disch := decide) only [encV, bits, BitVec.extractLsb'_append_eq_of_le, BitVec.extractLsb'_append_eq_of_add_le, Nat.reduceSub, Nat.sub_self, BitVec.extractLsb'_eq_self]
theorem encV_mk (op : BitVec 6) (ty : BitVec 4) (mk : MReg) (s2 vs1 vd : BitVec 5) (form aux : BitVec 2) : bits (encV op ty mk s2 vs1 vd form aux) 19 3 = mk := by
  simp (disch := decide) only [encV, bits, BitVec.extractLsb'_append_eq_of_le, BitVec.extractLsb'_append_eq_of_add_le, Nat.reduceSub, Nat.sub_self, BitVec.extractLsb'_eq_self]
theorem encV_s2 (op : BitVec 6) (ty : BitVec 4) (mk : MReg) (s2 vs1 vd : BitVec 5) (form aux : BitVec 2) : bits (encV op ty mk s2 vs1 vd form aux) 14 5 = s2 := by
  simp (disch := decide) only [encV, bits, BitVec.extractLsb'_append_eq_of_le, BitVec.extractLsb'_append_eq_of_add_le, Nat.reduceSub, Nat.sub_self, BitVec.extractLsb'_eq_self]
theorem encV_vs1 (op : BitVec 6) (ty : BitVec 4) (mk : MReg) (s2 vs1 vd : BitVec 5) (form aux : BitVec 2) : bits (encV op ty mk s2 vs1 vd form aux) 9 5 = vs1 := by
  simp (disch := decide) only [encV, bits, BitVec.extractLsb'_append_eq_of_le, BitVec.extractLsb'_append_eq_of_add_le, Nat.reduceSub, Nat.sub_self, BitVec.extractLsb'_eq_self]
theorem encV_vd (op : BitVec 6) (ty : BitVec 4) (mk : MReg) (s2 vs1 vd : BitVec 5) (form aux : BitVec 2) : bits (encV op ty mk s2 vs1 vd form aux) 4 5 = vd := by
  simp (disch := decide) only [encV, bits, BitVec.extractLsb'_append_eq_of_le, BitVec.extractLsb'_append_eq_of_add_le, Nat.reduceSub, Nat.sub_self, BitVec.extractLsb'_eq_self]
theorem encV_form (op : BitVec 6) (ty : BitVec 4) (mk : MReg) (s2 vs1 vd : BitVec 5) (form aux : BitVec 2) : bits (encV op ty mk s2 vs1 vd form aux) 2 2 = form := by
  simp (disch := decide) only [encV, bits, BitVec.extractLsb'_append_eq_of_le, BitVec.extractLsb'_append_eq_of_add_le, Nat.reduceSub, Nat.sub_self, BitVec.extractLsb'_eq_self]
theorem encV_aux (op : BitVec 6) (ty : BitVec 4) (mk : MReg) (s2 vs1 vd : BitVec 5) (form aux : BitVec 2) : bits (encV op ty mk s2 vs1 vd form aux) 0 2 = aux := by
  simp (disch := decide) only [encV, bits, BitVec.extractLsb'_append_eq_of_le, BitVec.extractLsb'_append_eq_of_add_le, Nat.reduceSub, Nat.sub_self, BitVec.extractLsb'_eq_self]
theorem encV_s23 (op : BitVec 6) (ty : BitVec 4) (mk : MReg) (s2 vs1 vd : BitVec 5) (form aux : BitVec 2) : bits (encV op ty mk s2 vs1 vd form aux) 14 3 = s2.extractLsb' 0 3 := by
  simp (disch := decide) only [encV, bits, BitVec.extractLsb'_append_eq_of_le, BitVec.extractLsb'_append_eq_of_add_le, Nat.reduceSub, Nat.sub_self, BitVec.extractLsb'_eq_self]
theorem encV_s2Hi2 (op : BitVec 6) (ty : BitVec 4) (mk : MReg) (s2 vs1 vd : BitVec 5) (form aux : BitVec 2) : bits (encV op ty mk s2 vs1 vd form aux) 17 2 = s2.extractLsb' 3 2 := by
  simp (disch := decide) only [encV, bits, BitVec.extractLsb'_append_eq_of_le, BitVec.extractLsb'_append_eq_of_add_le, Nat.reduceSub, Nat.sub_self, BitVec.extractLsb'_eq_self]
theorem encV_s24 (op : BitVec 6) (ty : BitVec 4) (mk : MReg) (s2 vs1 vd : BitVec 5) (form aux : BitVec 2) : bits (encV op ty mk s2 vs1 vd form aux) 14 4 = s2.extractLsb' 0 4 := by
  simp (disch := decide) only [encV, bits, BitVec.extractLsb'_append_eq_of_le, BitVec.extractLsb'_append_eq_of_add_le, Nat.reduceSub, Nat.sub_self, BitVec.extractLsb'_eq_self]
theorem encV_s2Hi1 (op : BitVec 6) (ty : BitVec 4) (mk : MReg) (s2 vs1 vd : BitVec 5) (form aux : BitVec 2) : bits (encV op ty mk s2 vs1 vd form aux) 18 1 = s2.extractLsb' 4 1 := by
  simp (disch := decide) only [encV, bits, BitVec.extractLsb'_append_eq_of_le, BitVec.extractLsb'_append_eq_of_add_le, Nat.reduceSub, Nat.sub_self, BitVec.extractLsb'_eq_self]
theorem encV_vs13 (op : BitVec 6) (ty : BitVec 4) (mk : MReg) (s2 vs1 vd : BitVec 5) (form aux : BitVec 2) : bits (encV op ty mk s2 vs1 vd form aux) 9 3 = vs1.extractLsb' 0 3 := by
  simp (disch := decide) only [encV, bits, BitVec.extractLsb'_append_eq_of_le, BitVec.extractLsb'_append_eq_of_add_le, Nat.reduceSub, Nat.sub_self, BitVec.extractLsb'_eq_self]
theorem encV_vs1Hi2 (op : BitVec 6) (ty : BitVec 4) (mk : MReg) (s2 vs1 vd : BitVec 5) (form aux : BitVec 2) : bits (encV op ty mk s2 vs1 vd form aux) 12 2 = vs1.extractLsb' 3 2 := by
  simp (disch := decide) only [encV, bits, BitVec.extractLsb'_append_eq_of_le, BitVec.extractLsb'_append_eq_of_add_le, Nat.reduceSub, Nat.sub_self, BitVec.extractLsb'_eq_self]
theorem encV_vs14 (op : BitVec 6) (ty : BitVec 4) (mk : MReg) (s2 vs1 vd : BitVec 5) (form aux : BitVec 2) : bits (encV op ty mk s2 vs1 vd form aux) 9 4 = vs1.extractLsb' 0 4 := by
  simp (disch := decide) only [encV, bits, BitVec.extractLsb'_append_eq_of_le, BitVec.extractLsb'_append_eq_of_add_le, Nat.reduceSub, Nat.sub_self, BitVec.extractLsb'_eq_self]
theorem encV_vs1Hi1 (op : BitVec 6) (ty : BitVec 4) (mk : MReg) (s2 vs1 vd : BitVec 5) (form aux : BitVec 2) : bits (encV op ty mk s2 vs1 vd form aux) 13 1 = vs1.extractLsb' 4 1 := by
  simp (disch := decide) only [encV, bits, BitVec.extractLsb'_append_eq_of_le, BitVec.extractLsb'_append_eq_of_add_le, Nat.reduceSub, Nat.sub_self, BitVec.extractLsb'_eq_self]
theorem encV_vd3 (op : BitVec 6) (ty : BitVec 4) (mk : MReg) (s2 vs1 vd : BitVec 5) (form aux : BitVec 2) : bits (encV op ty mk s2 vs1 vd form aux) 4 3 = vd.extractLsb' 0 3 := by
  simp (disch := decide) only [encV, bits, BitVec.extractLsb'_append_eq_of_le, BitVec.extractLsb'_append_eq_of_add_le, Nat.reduceSub, Nat.sub_self, BitVec.extractLsb'_eq_self]
theorem encV_vdHi2 (op : BitVec 6) (ty : BitVec 4) (mk : MReg) (s2 vs1 vd : BitVec 5) (form aux : BitVec 2) : bits (encV op ty mk s2 vs1 vd form aux) 7 2 = vd.extractLsb' 3 2 := by
  simp (disch := decide) only [encV, bits, BitVec.extractLsb'_append_eq_of_le, BitVec.extractLsb'_append_eq_of_add_le, Nat.reduceSub, Nat.sub_self, BitVec.extractLsb'_eq_self]
theorem encV_aux0 (op : BitVec 6) (ty : BitVec 4) (mk : MReg) (s2 vs1 vd : BitVec 5) (form aux : BitVec 2) : bits (encV op ty mk s2 vs1 vd form aux) 0 1 = aux.extractLsb' 0 1 := by
  simp (disch := decide) only [encV, bits, BitVec.extractLsb'_append_eq_of_le, BitVec.extractLsb'_append_eq_of_add_le, Nat.reduceSub, Nat.sub_self, BitVec.extractLsb'_eq_self]
theorem encV_aux1 (op : BitVec 6) (ty : BitVec 4) (mk : MReg) (s2 vs1 vd : BitVec 5) (form aux : BitVec 2) : bits (encV op ty mk s2 vs1 vd form aux) 1 1 = aux.extractLsb' 1 1 := by
  simp (disch := decide) only [encV, bits, BitVec.extractLsb'_append_eq_of_le, BitVec.extractLsb'_append_eq_of_add_le, Nat.reduceSub, Nat.sub_self, BitVec.extractLsb'_eq_self]
theorem encE_group (g op xa xb xc : BitVec 5) (sp : BitVec 7) : bits (encE g op xa xb xc sp) 27 5 = g := by
  simp (disch := decide) only [encE, bits, BitVec.extractLsb'_append_eq_of_le, BitVec.extractLsb'_append_eq_of_add_le, Nat.reduceSub, Nat.sub_self, BitVec.extractLsb'_eq_self]
theorem encE_op (g op xa xb xc : BitVec 5) (sp : BitVec 7) : bits (encE g op xa xb xc sp) 22 5 = op := by
  simp (disch := decide) only [encE, bits, BitVec.extractLsb'_append_eq_of_le, BitVec.extractLsb'_append_eq_of_add_le, Nat.reduceSub, Nat.sub_self, BitVec.extractLsb'_eq_self]
theorem encE_xa (g op xa xb xc : BitVec 5) (sp : BitVec 7) : bits (encE g op xa xb xc sp) 17 5 = xa := by
  simp (disch := decide) only [encE, bits, BitVec.extractLsb'_append_eq_of_le, BitVec.extractLsb'_append_eq_of_add_le, Nat.reduceSub, Nat.sub_self, BitVec.extractLsb'_eq_self]
theorem encE_xb (g op xa xb xc : BitVec 5) (sp : BitVec 7) : bits (encE g op xa xb xc sp) 12 5 = xb := by
  simp (disch := decide) only [encE, bits, BitVec.extractLsb'_append_eq_of_le, BitVec.extractLsb'_append_eq_of_add_le, Nat.reduceSub, Nat.sub_self, BitVec.extractLsb'_eq_self]
theorem encE_xc (g op xa xb xc : BitVec 5) (sp : BitVec 7) : bits (encE g op xa xb xc sp) 7 5 = xc := by
  simp (disch := decide) only [encE, bits, BitVec.extractLsb'_append_eq_of_le, BitVec.extractLsb'_append_eq_of_add_le, Nat.reduceSub, Nat.sub_self, BitVec.extractLsb'_eq_self]
theorem encE_spec (g op xa xb xc : BitVec 5) (sp : BitVec 7) : bits (encE g op xa xb xc sp) 0 7 = sp := by
  simp (disch := decide) only [encE, bits, BitVec.extractLsb'_append_eq_of_le, BitVec.extractLsb'_append_eq_of_add_le, Nat.reduceSub, Nat.sub_self, BitVec.extractLsb'_eq_self]
theorem encE_s3 (g op xa xb xc : BitVec 5) (sp : BitVec 7) : bits (encE g op xa xb xc sp) 0 3 = sp.extractLsb' 0 3 := by
  simp (disch := decide) only [encE, bits, BitVec.extractLsb'_append_eq_of_le, BitVec.extractLsb'_append_eq_of_add_le, Nat.reduceSub, Nat.sub_self, BitVec.extractLsb'_eq_self]
theorem encE_s4 (g op xa xb xc : BitVec 5) (sp : BitVec 7) : bits (encE g op xa xb xc sp) 0 4 = sp.extractLsb' 0 4 := by
  simp (disch := decide) only [encE, bits, BitVec.extractLsb'_append_eq_of_le, BitVec.extractLsb'_append_eq_of_add_le, Nat.reduceSub, Nat.sub_self, BitVec.extractLsb'_eq_self]
theorem encE_s2 (g op xa xb xc : BitVec 5) (sp : BitVec 7) : bits (encE g op xa xb xc sp) 0 2 = sp.extractLsb' 0 2 := by
  simp (disch := decide) only [encE, bits, BitVec.extractLsb'_append_eq_of_le, BitVec.extractLsb'_append_eq_of_add_le, Nat.reduceSub, Nat.sub_self, BitVec.extractLsb'_eq_self]
theorem encE_z43 (g op xa xb xc : BitVec 5) (sp : BitVec 7) : bits (encE g op xa xb xc sp) 4 3 = sp.extractLsb' 4 3 := by
  simp (disch := decide) only [encE, bits, BitVec.extractLsb'_append_eq_of_le, BitVec.extractLsb'_append_eq_of_add_le, Nat.reduceSub, Nat.sub_self, BitVec.extractLsb'_eq_self]
theorem encE_z34 (g op xa xb xc : BitVec 5) (sp : BitVec 7) : bits (encE g op xa xb xc sp) 3 4 = sp.extractLsb' 3 4 := by
  simp (disch := decide) only [encE, bits, BitVec.extractLsb'_append_eq_of_le, BitVec.extractLsb'_append_eq_of_add_le, Nat.reduceSub, Nat.sub_self, BitVec.extractLsb'_eq_self]
theorem encE_z25 (g op xa xb xc : BitVec 5) (sp : BitVec 7) : bits (encE g op xa xb xc sp) 2 5 = sp.extractLsb' 2 5 := by
  simp (disch := decide) only [encE, bits, BitVec.extractLsb'_append_eq_of_le, BitVec.extractLsb'_append_eq_of_add_le, Nat.reduceSub, Nat.sub_self, BitVec.extractLsb'_eq_self]
theorem encE_z52 (g op xa xb xc : BitVec 5) (sp : BitVec 7) : bits (encE g op xa xb xc sp) 5 2 = sp.extractLsb' 5 2 := by
  simp (disch := decide) only [encE, bits, BitVec.extractLsb'_append_eq_of_le, BitVec.extractLsb'_append_eq_of_add_le, Nat.reduceSub, Nat.sub_self, BitVec.extractLsb'_eq_self]
theorem encE_z32 (g op xa xb xc : BitVec 5) (sp : BitVec 7) : bits (encE g op xa xb xc sp) 3 2 = sp.extractLsb' 3 2 := by
  simp (disch := decide) only [encE, bits, BitVec.extractLsb'_append_eq_of_le, BitVec.extractLsb'_append_eq_of_add_le, Nat.reduceSub, Nat.sub_self, BitVec.extractLsb'_eq_self]
theorem encE_z33 (g op xa xb xc : BitVec 5) (sp : BitVec 7) : bits (encE g op xa xb xc sp) 3 3 = sp.extractLsb' 3 3 := by
  simp (disch := decide) only [encE, bits, BitVec.extractLsb'_append_eq_of_le, BitVec.extractLsb'_append_eq_of_add_le, Nat.reduceSub, Nat.sub_self, BitVec.extractLsb'_eq_self]
theorem encE_z61 (g op xa xb xc : BitVec 5) (sp : BitVec 7) : bits (encE g op xa xb xc sp) 6 1 = sp.extractLsb' 6 1 := by
  simp (disch := decide) only [encE, bits, BitVec.extractLsb'_append_eq_of_le, BitVec.extractLsb'_append_eq_of_add_le, Nat.reduceSub, Nat.sub_self, BitVec.extractLsb'_eq_self]

/-! ### Fields that cross two fields of a format -/

theorem bits_append_zero {w : W32} {lo a b : Nat} (h : bits w lo a = 0) (h' : bits w (lo + a) b = 0) :
    bits w lo (a + b) = 0 := by
  apply BitVec.eq_of_getLsbD_eq
  intro i hi
  by_cases hl : i < a
  · have := congrArg (fun (x : BitVec a) => x.getLsbD i) h
    simp only [bits, BitVec.getLsbD_extractLsb', hl, decide_true, Bool.true_and] at this
    simp only [bits, BitVec.getLsbD_extractLsb', hi, decide_true, Bool.true_and, this]
    simp
  · have := congrArg (fun (x : BitVec b) => x.getLsbD (i - a)) h'
    have e : lo + a + (i - a) = lo + i := by omega
    have hb : i - a < b := by omega
    simp only [bits, BitVec.getLsbD_extractLsb', hb, decide_true, Bool.true_and, e] at this
    simp only [bits, BitVec.getLsbD_extractLsb', hi, decide_true, Bool.true_and, this]
    simp

theorem encV_none (op : BitVec 6) (ty : BitVec 4) (mk : MReg) (vd : BitVec 5) (form aux : BitVec 2) :
    bits (encV op ty mk 0 0 vd form aux) 9 10 = 0 :=
  bits_append_zero (a := 5) (b := 5) (encV_vs1 ..) (encV_s2 ..)

theorem encR_none (f7 : BitVec 7) (f3 : BitVec 3) (rd : XReg) (op : BitVec 7) :
    bits (encR f7 0 0 f3 rd op) 15 10 = 0 :=
  bits_append_zero (a := 5) (b := 5) (encR_rs1 ..) (encR_rs2 ..)

theorem encR_above3 (f7 : BitVec 7) (m : BitVec 3) (f3 : BitVec 3) (rd : XReg) (op : BitVec 7) :
    bits (encR f7 0 (idx3 m) f3 rd op) 18 7 = 0 :=
  bits_append_zero (a := 2) (b := 5)
    (by simp (disch := decide) only [encR, idx3, bits, BitVec.extractLsb'_append_eq_of_le,
          BitVec.extractLsb'_append_eq_of_add_le, Nat.reduceSub, Nat.sub_self, BitVec.extractLsb'_eq_self]; rfl)
    (encR_rs2 ..)

/-! ### Parts of an index and of an immediate -/

theorem idx3_lo (m : BitVec 3) : (idx3 m).extractLsb' 0 3 = m := by
  simp (disch := decide) only [idx3, BitVec.extractLsb'_append_eq_of_add_le, BitVec.extractLsb'_eq_self]
theorem idx3_hi (m : BitVec 3) : (idx3 m).extractLsb' 3 2 = 0 := by
  simp (disch := decide) only [idx3, BitVec.extractLsb'_append_eq_of_le, Nat.sub_self]; rfl
theorem idx4_lo (m : BitVec 4) : (idx4 m).extractLsb' 0 4 = m := by
  simp (disch := decide) only [idx4, BitVec.extractLsb'_append_eq_of_add_le, BitVec.extractLsb'_eq_self]
theorem idx4_hi (m : BitVec 4) : (idx4 m).extractLsb' 4 1 = 0 := by
  simp (disch := decide) only [idx4, BitVec.extractLsb'_append_eq_of_le, Nat.sub_self]; rfl

/-- Two adjoining parts of a bit pattern, joined. -/
theorem extract_join {n : Nat} (x : BitVec n) (lo a b : Nat) :
    x.extractLsb' (lo + a) b ++ x.extractLsb' lo a = x.extractLsb' lo (b + a) := by
  apply BitVec.eq_of_getLsbD_eq
  intro i hi
  simp only [BitVec.getLsbD_append, BitVec.getLsbD_extractLsb']
  by_cases h : i < a
  · simp [h, hi]
  · have e : lo + a + (i - a) = lo + i := by omega
    have hb : i - a < b := by omega
    simp [h, hi, e, hb]

theorem immS_encS (imm : BitVec 12) (rs2 rs1 : XReg) (f3 : BitVec 3) : immS (encS imm rs2 rs1 f3) = imm := by
  rw [immS, encS_hi, encS_lo]
  exact (extract_join imm 0 5 7).trans BitVec.extractLsb'_eq_self

theorem immB_encB (off : BitVec 12) (rs2 rs1 : XReg) (f3 : BitVec 3) : immB (encB off rs2 rs1 f3) = off := by
  rw [immB, encB_hi, encB_b11, encB_mid, encB_lo]
  have h1 : off.extractLsb' 11 1 ++ off.extractLsb' 10 1 = off.extractLsb' 10 2 := extract_join off 10 1 1
  have h2 : off.extractLsb' 10 2 ++ off.extractLsb' 4 6 = off.extractLsb' 4 8 := extract_join off 4 6 2
  have h3 : off.extractLsb' 4 8 ++ off.extractLsb' 0 4 = off.extractLsb' 0 12 := extract_join off 0 4 8
  rw [h1]
  exact (congrArg (· ++ off.extractLsb' 0 4) h2).trans (h3.trans BitVec.extractLsb'_eq_self)

theorem immJ_encJ (off : BitVec 20) (rd : XReg) : immJ (encJ off rd) = off := by
  rw [immJ, encJ_hi, encJ_mid, encJ_b11, encJ_lo]
  have h1 : off.extractLsb' 19 1 ++ off.extractLsb' 11 8 = off.extractLsb' 11 9 := extract_join off 11 8 1
  have h2 : off.extractLsb' 11 9 ++ off.extractLsb' 10 1 = off.extractLsb' 10 10 := extract_join off 10 1 9
  have h3 : off.extractLsb' 10 10 ++ off.extractLsb' 0 10 = off.extractLsb' 0 20 := extract_join off 0 10 10
  rw [h1]
  exact (congrArg (fun (x : BitVec 10) => x ++ off.extractLsb' 0 10) h2).trans (h3.trans BitVec.extractLsb'_eq_self)

/-! ### Codes -/

theorem ElemTy.ofCode_code (t : ElemTy) : ElemTy.ofCode t.code = some t := by cases t <;> rfl
theorem Order.ofCode_code (t : Order) : Order.ofCode t.code = some t := by cases t <;> rfl
theorem Scope.ofCode_code (t : Scope) : Scope.ofCode t.code = some t := by cases t <;> rfl
theorem Timeline.ofCode_code (t : Timeline) : Timeline.ofCode t.code = some t := by cases t <;> rfl
theorem RMode.ofCode_code (t : RMode) : RMode.ofCode t.code = some t := by cases t <;> rfl
theorem AmoTy.ofCode_code (t : AmoTy) : AmoTy.ofCode t.code = t := by cases t <;> rfl
theorem AmoOp.ofCode_code (t : AmoOp) : AmoOp.ofCode t.code = some t := by cases t <;> rfl
theorem CmpRel.ofCode_code (t : CmpRel) : CmpRel.ofCode t.code = t := by cases t <;> rfl
theorem RedOp.ofCode_code (t : RedOp) : RedOp.ofCode t.code = some t := by cases t <;> rfl
theorem DrainMode.ofCode_code (t : DrainMode) : DrainMode.ofCode t.code = some t := by cases t <;> rfl
theorem HintKind.ofCode_code (t : HintKind) : HintKind.ofCode t.code = t := by cases t <;> rfl
theorem CsrName.ofNum_num (t : CsrName) : CsrName.ofNum t.num = some t := by cases t <;> rfl
theorem bit1_eq (b : Bool) : (bit1 b == 1) = b := by cases b <;> rfl

theorem coded_some {α : Type} (a : α) (f : α → Except DecodeError Instr) : coded (some a) f = f a := rfl
theorem demand_true (e : DecodeError) (a : Except DecodeError Instr) : demand true e a = a := rfl

/-- A word of an instruction within the limits decodes to it when its unit reads it. -/
theorem decode_of_raw {u : LaneUnit} {w : W32} {i : Instr} (h : decodeRaw u w = .ok i) (hw : i.wellFormed = true) :
    decode u w = .ok i := by
  simp only [decode, h, hw, if_true]

/-! ### The shared parts of the decoder of unit V -/

theorem vsrcOf_enc (op : BitVec 6) (t : BitVec 4) (m : MReg) (s : VSrc) (a d : VReg) (aux : BitVec 2) :
    vsrcOf (encV op t m s.field a d s.form aux) = some s := by
  simp only [vsrcOf, encV_form, encV_s2]
  cases s <;> rfl

theorem decodeV3_enc (op : BitVec 6) (t : ElemTy) (m : MReg) (s : VSrc) (a d : VReg)
    (f : ElemTy → MReg → VSrc → VReg → VReg → Instr) :
    decodeV3 (encV3 op t m s a d 0) f = .ok (f t m s a d) := by
  simp only [decodeV3, encV3, zeroBits, encV_aux, encV_ty, encV_mk, encV_vs1, encV_vd, vsrcOf_enc, ElemTy.ofCode_code]
  rfl

theorem decodeV2_enc (op : BitVec 6) (t : ElemTy) (m : MReg) (a d : VReg) (f : ElemTy → MReg → VReg → VReg → Instr) :
    decodeV2 (encV op t.code m 0 a d 0 0) f = .ok (f t m a d) := by
  simp only [decodeV2, formIs, zeroBits, encV_aux, encV_s2, encV_form, encV_ty, encV_mk, encV_vs1, encV_vd,
    ElemTy.ofCode_code]
  rfl

theorem decodeVF_enc (op : BitVec 6) (m : MReg) (a d : VReg) (f : MReg → VReg → VReg → Instr) :
    decodeVF (encV op 2 m 0 a d 0 0) f = .ok (f m a d) := by
  simp only [decodeVF, formIs, zeroBits, encV_aux, encV_s2, encV_form, encV_ty, encV_mk, encV_vs1, encV_vd]
  rfl

theorem decodeMask_enc (op : BitVec 6) (b a d : MReg) (f : MReg → MReg → MReg → Instr) :
    decodeMask (encV op 0 0 (idx3 b) (idx3 a) (idx3 d) 0 0) f = .ok (f b a d) := by
  simp only [decodeMask, formIs, zeroBits, encV_aux, encV_form, encV_ty, encV_mk, encV_s23, encV_s2Hi2, encV_vs13,
    encV_vs1Hi2, encV_vd3, encV_vdHi2, idx3_lo, idx3_hi]
  rfl

theorem decodeVMem_enc (op : BitVec 6) (t : ElemTy) (m : MReg) (x : XReg) (d : VReg)
    (f : ElemTy → MReg → XReg → VReg → Instr) : decodeVMem (encV op t.code m x 0 d 1 0) f = .ok (f t m x d) := by
  simp only [decodeVMem, formIs, zeroBits, encV_aux, encV_vs1, encV_form, encV_ty, encV_mk, encV_s2, encV_vd,
    ElemTy.ofCode_code]
  rfl

theorem decodeVIdx_enc (op : BitVec 6) (t : ElemTy) (m : MReg) (x : XReg) (a d : VReg)
    (f : ElemTy → MReg → XReg → VReg → VReg → Instr) :
    decodeVIdx (encV op t.code m x a d 1 0) f = .ok (f t m x a d) := by
  simp only [decodeVIdx, formIs, zeroBits, encV_aux, encV_vs1, encV_form, encV_ty, encV_mk, encV_s2, encV_vd,
    ElemTy.ofCode_code]
  rfl

theorem decodeVRing_enc (op : BitVec 6) (t : ElemTy) (m : MReg) (x : XReg) (h : HReg) (d : VReg)
    (f : ElemTy → MReg → XReg → HReg → VReg → Instr) :
    decodeVRing (encV op t.code m x (idx4 h) d 1 0) f = .ok (f t m x h d) := by
  simp only [decodeVRing, formIs, zeroBits, encV_aux, encV_vs14, encV_vs1Hi1, encV_form, encV_ty, encV_mk, encV_s2,
    encV_vd, idx4_lo, idx4_hi, ElemTy.ofCode_code]
  rfl

theorem decodeVAdv_enc (op : BitVec 6) (x : XReg) (h : HReg) (f : XReg → HReg → Instr) :
    decodeVAdv (encV op 0 0 x (idx4 h) 0 1 0) f = .ok (f x h) := by
  simp only [decodeVAdv, formIs, zeroBits, encV_aux, encV_vs14, encV_vs1Hi1, encV_form, encV_ty, encV_mk, encV_s2,
    encV_vd, idx4_lo, idx4_hi]
  rfl

end Sys2Proof
end

