-- ==== Sys2Proof/Laws/Enqueue.lean ====
section
/-! SUPPORT. Sys2Proof/Laws/Enqueue.lean: what the issue of an engine instruction does, said once. -/

namespace Sys2Proof.Machine

/-- The state differs at most in what the x registers' marks, recordings and the Pin Table hold: every set of every core and
memory are as before. -/
structure SameSets (s t : State) : Prop where
  set : ∀ g, (t.core g).set = (s.core g).set
  active : ∀ g, (t.core g).active = (s.core g).active
  mem : t.mem = s.mem
  clk : t.clk = s.clk
  curCore : t.curCore = s.curCore
  curCtx : t.curCtx = s.curCtx
  nextId : t.nextId = s.nextId

theorem SameSets.refl (s : State) : SameSets s s := ⟨fun _ => rfl, fun _ => rfl, rfl, rfl, rfl, rfl, rfl⟩

theorem SameSets.trans {s t u : State} (a : SameSets s t) (b : SameSets t u) : SameSets s u :=
  ⟨fun g => (b.set g).trans (a.set g), fun g => (b.active g).trans (a.active g), b.mem.trans a.mem, b.clk.trans a.clk,
    b.curCore.trans a.curCore, b.curCtx.trans a.curCtx, b.nextId.trans a.nextId⟩

theorem SameSets.aset {s t : State} (a : SameSets s t) (g : Nat) : t.aset g = s.aset g := by
  simp only [State.aset, Core.act, a.set, a.active]

theorem SameSets.mySet {s t : State} (a : SameSets s t) : t.mySet = s.mySet := by
  simp only [State.mySet, a.curCore, a.aset]

theorem SameSets.me {s t : State} (a : SameSets s t) : t.me = s.me := by
  simp only [State.me, State.ctx, a.curCore, a.curCtx, a.aset]

theorem sameSets_useX (s : State) (r : XReg) : SameSets s (s.useX r) := by
  unfold State.useX
  split
  · exact ⟨fun _ => rfl, fun _ => rfl, rfl, rfl, rfl, rfl, rfl⟩
  · exact .refl s

theorem sameSets_updCore {s : State} {g : Nat} {f : Core → Core} (h : (f (s.core g)).set = (s.core g).set)
    (h' : (f (s.core g)).active = (s.core g).active) : SameSets s (s.updCore g f) := by
  refine ⟨fun g' => ?_, fun g' => ?_, rfl, rfl, rfl, rfl, rfl⟩
  · by_cases e : g' = g
    · subst e; simp [h]
    · rw [core_updCore_ne s f e]
  · by_cases e : g' = g
    · subst e; simp [h']
    · rw [core_updCore_ne s f e]

theorem sameSets_recEntry (s : State) (g : Nat) (e : BitVec 128) : SameSets s (s.recEntry g e) := sameSets_updCore rfl rfl

theorem sameSets_smudge (s : State) (g sid : Nat) (r : BitVec 3) : SameSets s (s.smudge g sid r) := sameSets_updCore rfl rfl

theorem sameSets_recCapture (s : State) (p : W64) : SameSets s (s.recCapture p) := by
  unfold State.recCapture
  split
  · exact .refl s
  · split
    · exact .refl s
    · dsimp only
      refine .trans ?_ (sameSets_updCore rfl rfl)
      split
      · exact .refl s
      · exact sameSets_recEntry s _ _

theorem sameSets_recOperand (s : State) (f : BitVec 2) (r : XReg) : SameSets s (s.recOperand f r) := by
  unfold State.recOperand
  split
  · exact .refl s
  · split
    · exact sameSets_recEntry s _ _
    · exact sameSets_recEntry s _ _
    · exact sameSets_smudge s _ _ _

theorem sameSets_recCommand (s : State) (i : Instr) : SameSets s (s.recCommand i) := by
  unfold State.recCommand
  split
  · exact .refl s
  · split
    · exact .refl s
    · split
      · exact sameSets_smudge s _ _ _
      · split
        · exact .refl s
        · dsimp only
          refine .trans ?_ (sameSets_recOperand _ _ _)
          refine .trans ?_ (sameSets_recOperand _ _ _)
          refine .trans ?_ (sameSets_recOperand _ _ _)
          refine .trans ?_ (sameSets_recEntry _ _ _)
          have cap (b : Bool) (u : State) (p : W64) : SameSets u (if b then u.recCapture p else u) := by
            cases b
            · exact .refl u
            · exact sameSets_recCapture u p
          exact ((cap _ s _).trans (cap _ _ _)).trans (cap _ _ _)

theorem sameSets_held (s : State) (g : Nat) (t : Token) : SameSets s (s.held g t) := by
  unfold State.held
  dsimp only
  split
  · exact .refl s
  · exact ⟨fun _ => rfl, fun _ => rfl, rfl, rfl, rfl, rfl, rfl⟩

theorem sameSets_heldAll (l : List Token) (s : State) (g : Nat) : SameSets s (l.foldl (fun s t => s.held g t) s) := by
  induction l generalizing s with
  | nil => exact .refl s
  | cons t l ih => exact (sameSets_held s g t).trans (ih _)

theorem sameSets_heldAll' (l : List Token) (s : State) : SameSets s (l.foldl (fun s t => s.held s.curCore t) s) := by
  induction l generalizing s with
  | nil => exact .refl s
  | cons t l ih => exact (sameSets_held s _ t).trans (ih _)

/-- The number that an entry of a queue takes; the job port's keeps the one it has. -/
def CtxSet.nextNum (t : CtxSet) (q : EngQ) (n : Nat) : Nat :=
  match q.timeline with
  | some l => (t.time l).issued + 1
  | none => n

/-- What enqueuing an entry with a number does to a set. -/
theorem enqueue_spec (t : CtxSet) (q : EngQ) (e : Entry) :
    queueOf (t.enqueue q e true) e.ctx q = queueOf t e.ctx q ++ [{ e with num := t.nextNum q e.num }] ∧
      (∀ l, q.timeline = some l → (t.enqueue q e true).time l = { t.time l with issued := (t.time l).issued + 1 }) ∧
      (∀ l, q.timeline ≠ some l → (t.enqueue q e true).time l = t.time l) ∧
      (t.enqueue q e true).ctx = t.ctx ∧ (t.enqueue q e true).v = t.v ∧ (t.enqueue q e true).m = t.m ∧
      (t.enqueue q e true).k = t.k := by
  have ne : ∀ (a b : Timeline) (x : TLine), a ≠ b → nget (nset t.tl (tlIdx a) x) (tlIdx b) = nget t.tl (tlIdx b) := by
    intro a b x hab
    apply nget_nset_ne
    cases a <;> cases b <;> simp_all [tlIdx]
  cases q
  case job =>
    refine ⟨by simp [CtxSet.enqueue, EngQ.timeline, CtxSet.append, queueOf, CtxSet.nextNum], ?_, ?_, rfl, rfl, rfl, rfl⟩ <;>
      simp [EngQ.timeline, CtxSet.enqueue, CtxSet.append, CtxSet.time]
  all_goals
    refine ⟨?_, ?_, ?_, rfl, rfl, rfl, rfl⟩
    · simp [CtxSet.enqueue, EngQ.timeline, CtxSet.append, queueOf, CtxSet.nextNum, CtxSet.time]
    · intro l hl
      simp only [EngQ.timeline, Option.some.injEq] at hl
      subst hl
      simp [CtxSet.enqueue, EngQ.timeline, CtxSet.append, CtxSet.time, TLine.take]
    · intro l hl
      refine ne _ _ _ fun h => hl (by rw [← h]; rfl)

/-- How `enter` ends: in a state v whose sets are those of s but for the entry enqueued. -/
theorem enter_eq (s : State) (i : Instr) :
    ∃ (v : State) (e : Entry) (n : Nat),
      { e with num := 0, upTo := 0 } = { mkEntry s.mySet s.curCtx i (s.rx (xSources i).1) (s.rx (xSources i).2.1)
        (s.rx (xSources i).2.2) s.me.vrnd s.me.sup with num := 0, upTo := 0 } ∧
      n = s.mySet.nextNum (engQueue i) e.num ∧ v.mySet = s.mySet.enqueue (engQueue i) e true ∧ v.mem = s.mem ∧
      v.clk = s.clk ∧ v.curCtx = s.curCtx ∧
      s.enter i true = (match resultOf i with | some (k, xd) => v.holdMe (.result k n xd) | none => v.goOn) := by
  generalize hx : xSources i = x
  obtain ⟨a, b, c⟩ := x
  have su : SameSets s ((((s.useX a).useX b).useX c).recCommand i) :=
    (((sameSets_useX s a).trans (sameSets_useX _ b)).trans (sameSets_useX _ c)).trans (sameSets_recCommand _ i)
  unfold State.enter
  rw [hx]
  dsimp only
  generalize (((s.useX a).useX b).useX c).recCommand i = u at su
  have hrx (r : XReg) : s.rx r = u.me.rx r := by rw [su.me]; rfl
  rw [hrx a, hrx b, hrx c]
  rw [← su.mySet, ← su.curCtx, ← su.me, ← su.mem, ← su.clk]
  have key (q : EngQ) (e e' : Entry) (n : Nat) (hq : engQueue i = q)
      (he : { e' with num := 0, upTo := 0 } = { e with num := 0, upTo := 0 }) (hn : n = u.mySet.nextNum q e'.num) :
      ∃ (v : State) (e₁ : Entry) (n₁ : Nat), { e₁ with num := 0, upTo := 0 } = { e with num := 0, upTo := 0 } ∧
        n₁ = u.mySet.nextNum q e₁.num ∧ v.mySet = u.mySet.enqueue q e₁ true ∧ v.mem = u.mem ∧ v.clk = u.clk ∧
        v.curCtx = u.curCtx ∧
        (match resultOf i with
          | some (k, xd) => (List.foldl (fun (s : State) t => s.held s.curCore t)
              ({ u with nextId := u.nextId + 1 }.updMySet fun t => t.enqueue q e' true) e'.tokens).holdMe (.result k n xd)
          | none => (List.foldl (fun (s : State) t => s.held s.curCore t)
              ({ u with nextId := u.nextId + 1 }.updMySet fun t => t.enqueue q e' true) e'.tokens).goOn) =
        (match resultOf i with | some (k, xd) => v.holdMe (.result k n₁ xd) | none => v.goOn) := by
    refine ⟨_, e', n, he, hn, ?_, ?_, ?_, ?_, rfl⟩
    · rw [(sameSets_heldAll' _ _).mySet, updMySet_mySet]; rfl
    · rw [(sameSets_heldAll' _ _).mem]; rfl
    · rw [(sameSets_heldAll' _ _).clk]; rfl
    · rw [(sameSets_heldAll' _ _).curCtx]; rfl
  have h := key (engQueue i) (mkEntry u.mySet u.curCtx i (u.me.rx a) (u.me.rx b) (u.me.rx c) u.me.vrnd u.me.sup)
  cases hq : engQueue i <;> rw [hq] at h <;> refine h _ _ rfl ?_ ?_ <;> rfl

/-- What `enter` does: it enqueues the captured entry in the issuing context's set, and its context goes on or holds for its
result; the registers of the set stay, and every byte of memory. -/
theorem enqueues_enter (s : State) (i : Instr) (h2 : (ptrSources i).2.2 = false) (h : exec i s = .next (s.enter i true)) :
    Enqueues s (engQueue i) i (s.rx (xSources i).1) (s.rx (xSources i).2.1) (s.rx (xSources i).2.2) (ptrSources i).1
      (ptrSources i).2.1 (resultOf i) := by
  obtain ⟨v, e, n, he, hn, hset, hmem, hclk, hctx, heq⟩ := enter_eq s i
  obtain ⟨h1, h3, h4, h5, h6, h7, h8⟩ := enqueue_spec s.mySet (engQueue i) e
  have hfield {α : Type} (f : Entry → α) (hf : ∀ x n m, f { x with num := n, upTo := m } = f x) :
      f e = f (mkEntry s.mySet s.curCtx i (s.rx (xSources i).1) (s.rx (xSources i).2.1)
        (s.rx (xSources i).2.2) s.me.vrnd s.me.sup) := by
    rw [← hf e 0 0, he, hf]
  have hc : e.ctx = s.curCtx := hfield Entry.ctx (fun _ _ _ => rfl)
  have hme : v.me = s.me := by
    rw [State.me, State.ctx, ← State.mySet, hset, h5, hctx]; rfl
  refine ⟨_, { e with num := s.mySet.nextNum (engQueue i) e.num }, h, ?_, ?_⟩
  · rw [heq, ← hc, ← h1, ← hset]
    cases resultOf i with
    | none => simp only [State.goOn, updMe_mySet]; rw [hset]; cases engQueue i <;> rfl
    | some p => simp only [State.holdMe, updMe_mySet]; rw [hset]; cases engQueue i <;> rfl
  · have e0 := hfield Entry.instr (fun _ _ _ => rfl)
    have e1 := hfield Entry.x0 (fun _ _ _ => rfl)
    have e2 := hfield Entry.x1 (fun _ _ _ => rfl)
    have e3 := hfield Entry.x2 (fun _ _ _ => rfl)
    have e4 := hfield Entry.k0 (fun _ _ _ => rfl)
    have e5 := hfield Entry.k1 (fun _ _ _ => rfl)
    have e6 := hfield Entry.k2 (fun _ _ _ => rfl)
    have e7 := hfield Entry.rm (fun _ _ _ => rfl)
    have e8 := hfield Entry.sup (fun _ _ _ => rfl)
    have e9 := hfield Entry.play (fun _ _ _ => rfl)
    have hres : (s.enter i true).mem = s.mem ∧ (s.enter i true).mySet.v = s.mySet.v ∧ (s.enter i true).mySet.m = s.mySet.m ∧
        (s.enter i true).mySet.k = s.mySet.k ∧ (∀ l, (s.enter i true).mySet.time l = v.mySet.time l) ∧
        (s.enter i true).me = (match resultOf i with | some (k, xd) => s.me.holdAt s.clk (.result k n xd) | none => s.me.goOn) := by
      rw [heq]
      cases resultOf i with
      | none =>
        simp only [State.goOn, updMe_mySet, updMe_me, hme, updMe_mem, hmem]
        exact ⟨trivial, by rw [← h6, ← hset], by rw [← h7, ← hset], by rw [← h8, ← hset], fun _ => rfl, trivial⟩
      | some p =>
        simp only [State.holdMe, updMe_mySet, updMe_me, hme, updMe_mem, hmem, hclk]
        exact ⟨trivial, by rw [← h6, ← hset], by rw [← h7, ← hset], by rw [← h8, ← hset], fun _ => rfl, trivial⟩
    obtain ⟨r1, r2, r3, r4, r5, r6⟩ := hres
    refine ⟨e0, hc, e1, e2, e3, e4, e5, ?_, e7, e8, e9, ?_, ?_, ?_, r2, r3, r4, fun a => by rw [r1]⟩
    · rw [e6]; simp only [mkEntry, h2]; rfl
    · intro l hl
      refine ⟨by simp only [CtxSet.nextNum, hl], ?_⟩
      rw [r5, hset, h3 l hl]
    · intro l hl
      rw [r5, hset, h4 l hl]
    · first | (rw [r6, hn]; done) | (rw [r6, hn]; rfl)

end Sys2Proof.Machine
end

