-- ==== Sys2Proof/Laws/Keep.lean ====
section
/-! SUPPORT. Sys2Proof/Laws/Keep.lean: what the shared operations do to the canonical form of memory: each keeps it. An
operation that answers several things has a second lemma, for what one match on its answer names. -/

namespace Sys2Proof.Machine

set_option linter.unreachableTactic false
set_option linter.unusedTactic false
set_option Elab.async false

/-! ### Folds, lists of bytes, and answers that hold a state -/

theorem keep_foldl {α : Type} (f : State → α → State) (l : List α) (s : State) (h : s.mem.wf = true)
    (hf : ∀ (s : State) (a : α), s.mem.wf = true → (f s a).mem.wf = true) : (l.foldl f s).mem.wf = true := by
  induction l generalizing s with
  | nil => exact h
  | cons a l ih => exact ih _ (hf s a h)

theorem keep_foldl_fst {α β : Type} (f : State × β → α → State × β) (l : List α) (p : State × β) (h : p.1.mem.wf = true)
    (hf : ∀ (p : State × β) (a : α), p.1.mem.wf = true → (f p a).1.mem.wf = true) : (l.foldl f p).1.mem.wf = true := by
  induction l generalizing p with
  | nil => exact h
  | cons a l ih => exact ih _ (hf p a h)

theorem keep_foldl_snd {α β : Type} (f : β × State → α → β × State) (l : List α) (p : β × State) (h : p.2.mem.wf = true)
    (hf : ∀ (p : β × State) (a : α), p.2.mem.wf = true → (f p a).2.mem.wf = true) : (l.foldl f p).2.mem.wf = true := by
  induction l generalizing p with
  | nil => exact h
  | cons a l ih => exact ih _ (hf p a h)

theorem keep_foldl_snd_fst {α β γ : Type} (f : β × State × γ → α → β × State × γ) (l : List α) (p : β × State × γ)
    (h : p.2.1.mem.wf = true) (hf : ∀ (p : β × State × γ) (a : α), p.2.1.mem.wf = true → (f p a).2.1.mem.wf = true) :
    (l.foldl f p).2.1.mem.wf = true := by
  induction l generalizing p with
  | nil => exact h
  | cons a l ih => exact ih _ (hf p a h)

theorem Memory.wf_foldl_set (l : List (Nat × Byte)) (m : Memory) (h : m.wf = true) :
    (l.foldl (fun (m : Memory) (b : Nat × Byte) => Memory.set m b.1 b.2) m).wf = true := by
  induction l generalizing m with
  | nil => exact h
  | cons a l ih => exact ih _ (Memory.wf_set _ _ h)

theorem Memory.wf_filter (m : Memory) (p : Nat × Byte → Bool) (h : m.wf = true) : Memory.wf (m.filter p) = true := by
  rw [Memory.wf_iff] at h ⊢
  refine ⟨?_, fun e he => h.2 e (List.mem_of_mem_filter he)⟩
  exact List.Pairwise.filter p h.1

/-- A block of memory replaced by a canonical list of its bytes. -/
theorem Memory.wf_splice (m new : Memory) (dst n : Nat) (h : m.wf = true) (hn : new.wf = true)
    (hr : ∀ e ∈ new, dst ≤ e.1 ∧ e.1 < dst + n) : (m.splice dst n new).wf = true := by
  obtain ⟨hp, hz⟩ := (Memory.wf_iff _).1 h
  obtain ⟨hq, hy⟩ := (Memory.wf_iff _).1 hn
  refine (Memory.wf_iff _).2 ⟨?_, fun e he => ?_⟩
  · refine List.pairwise_append.2 ⟨List.pairwise_append.2 ⟨hp.filter _, hq, fun a ha b hb => ?_⟩, hp.filter _, fun a ha b hb => ?_⟩
    · have h1 := (List.mem_filter.1 ha).2
      have h2 := (hr b hb).1
      simp only [decide_eq_true_eq] at h1
      omega
    · have h2 := (List.mem_filter.1 hb).2
      simp only [decide_eq_true_eq] at h2
      rcases List.mem_append.1 ha with ha | ha
      · have h1 := (List.mem_filter.1 ha).2
        simp only [decide_eq_true_eq] at h1
        omega
      · have h1 := (hr a ha).2
        omega
  · rcases List.mem_append.1 he with he | he
    · rcases List.mem_append.1 he with he | he
      · exact hz e (List.mem_of_mem_filter he)
      · exact hy e he
    · exact hz e (List.mem_of_mem_filter he)

theorem Memory.wf_copy (m : Memory) (a b n : Nat) (h : m.wf = true) : (Memory.copy m a b n).wf = true := by
  obtain ⟨hp, hz⟩ := (Memory.wf_iff _).1 h
  refine Memory.wf_splice _ _ _ _ h ((Memory.wf_iff _).2 ⟨?_, fun e he => ?_⟩) fun e he => ?_
  · refine List.pairwise_map.2 ((hp.filter _).imp_of_mem fun {x y} hx hy hlt => ?_)
    have h1 := (List.mem_filter.1 hx).2
    simp only [Bool.and_eq_true, decide_eq_true_eq] at h1
    show b + (x.1 - a) < b + (y.1 - a)
    omega
  · obtain ⟨x, hx, rfl⟩ := List.mem_map.1 he
    exact hz x (List.mem_of_mem_filter hx)
  · obtain ⟨x, hx, rfl⟩ := List.mem_map.1 he
    have h1 := (List.mem_filter.1 hx).2
    simp only [Bool.and_eq_true, decide_eq_true_eq] at h1
    show b ≤ b + (x.1 - a) ∧ b + (x.1 - a) < b + n
    omega

theorem Memory.wf_host (m : Memory) (h : m.wf = true) : m.host.wf = true := Memory.wf_filter _ _ h

def VStep.keeps (o : VStep) : Prop :=
  match o with
  | .done s _ _ _ => s.mem.wf = true
  | .wait s => s.mem.wf = true
  | .withdrawn s _ => s.mem.wf = true

theorem VStep.keeps_done {o : VStep} {s : State} {a} {b} {c} (heq : o = .done s a b c) (h : VStep.keeps o) : s.mem.wf = true := by
  subst heq; exact h
theorem VStep.keeps_of_done {s : State} {a} {b} {c} (h : s.mem.wf = true) : VStep.keeps (.done s a b c) := h

theorem VStep.keeps_wait {o : VStep} {s : State}  (heq : o = .wait s) (h : VStep.keeps o) : s.mem.wf = true := by
  subst heq; exact h
theorem VStep.keeps_of_wait {s : State}  (h : s.mem.wf = true) : VStep.keeps (.wait s) := h

theorem VStep.keeps_withdrawn {o : VStep} {s : State} {a} (heq : o = .withdrawn s a) (h : VStep.keeps o) : s.mem.wf = true := by
  subst heq; exact h
theorem VStep.keeps_of_withdrawn {s : State} {a} (h : s.mem.wf = true) : VStep.keeps (.withdrawn s a) := h

def Made.keeps (o : Made) : Prop :=
  match o with
  | .token _ s => s.mem.wf = true
  | _ => True

theorem Made.keeps_token {o : Made} {s : State} {a} (heq : o = .token a s) (h : Made.keeps o) : s.mem.wf = true := by
  subst heq; exact h
theorem Made.keeps_of_token {s : State} {a} (h : s.mem.wf = true) : Made.keeps (.token a s) := h

def TilesMade.keeps (o : TilesMade) : Prop :=
  match o with
  | .ok s _ => s.mem.wf = true
  | .fail s _ _ _ => s.mem.wf = true

theorem TilesMade.keeps_ok {o : TilesMade} {s : State} {a} (heq : o = .ok s a) (h : TilesMade.keeps o) : s.mem.wf = true := by
  subst heq; exact h
theorem TilesMade.keeps_of_ok {s : State} {a} (h : s.mem.wf = true) : TilesMade.keeps (.ok s a) := h

theorem TilesMade.keeps_fail {o : TilesMade} {s : State} {a} {b} {c} (heq : o = .fail s a b c) (h : TilesMade.keeps o) : s.mem.wf = true := by
  subst heq; exact h
theorem TilesMade.keeps_of_fail {s : State} {a} {b} {c} (h : s.mem.wf = true) : TilesMade.keeps (.fail s a b c) := h

def Begun.keeps (o : Begun) : Prop :=
  match o with
  | .complete s _ => s.mem.wf = true
  | _ => True

theorem Begun.keeps_complete {o : Begun} {s : State} {a} (heq : o = .complete s a) (h : Begun.keeps o) : s.mem.wf = true := by
  subst heq; exact h
theorem Begun.keeps_of_complete {s : State} {a} (h : s.mem.wf = true) : Begun.keeps (.complete s a) := h

def Fetched.keeps (o : Fetched) : Prop :=
  match o with
  | .word s _ _ => s.mem.wf = true
  | .done s => s.mem.wf = true

theorem Fetched.keeps_word {o : Fetched} {s : State} {a} {b} (heq : o = .word s a b) (h : Fetched.keeps o) : s.mem.wf = true := by
  subst heq; exact h
theorem Fetched.keeps_of_word {s : State} {a} {b} (h : s.mem.wf = true) : Fetched.keeps (.word s a b) := h

theorem Fetched.keeps_done {o : Fetched} {s : State}  (heq : o = .done s) (h : Fetched.keeps o) : s.mem.wf = true := by
  subst heq; exact h
theorem Fetched.keeps_of_done {s : State}  (h : s.mem.wf = true) : Fetched.keeps (.done s) := h

def Turn.keeps (o : Turn) : Prop :=
  match o with
  | .done s => s.mem.wf = true
  | _ => True

theorem Turn.keeps_done {o : Turn} {s : State}  (heq : o = .done s) (h : Turn.keeps o) : s.mem.wf = true := by
  subst heq; exact h
theorem Turn.keeps_of_done {s : State}  (h : s.mem.wf = true) : Turn.keeps (.done s) := h

def Out.keeps (o : Out) : Prop :=
  match o with
  | .next s => s.mem.wf = true
  | _ => True

theorem Out.keeps_next {o : Out} {s : State}  (heq : o = .next s) (h : Out.keeps o) : s.mem.wf = true := by
  subst heq; exact h
theorem Out.keeps_of_next {s : State}  (h : s.mem.wf = true) : Out.keeps (.next s) := h

def OptS.keeps (o : Option State) : Prop :=
  match o with
  | .some s => s.mem.wf = true
  | _ => True

theorem OptS.keeps_some {o : Option State} {s : State}  (heq : o = .some s) (h : OptS.keeps o) : s.mem.wf = true := by
  subst heq; exact h
theorem OptS.keeps_of_some {s : State}  (h : s.mem.wf = true) : OptS.keeps (.some s) := h

def OptTS.keeps (o : Option (Token × State)) : Prop :=
  match o with
  | .some (_, s) => s.mem.wf = true
  | _ => True

theorem OptTS.keeps_some {o : Option (Token × State)} {s : State} {a} (heq : o = .some (a, s)) (h : OptTS.keeps o) : s.mem.wf = true := by
  subst heq; exact h
theorem OptTS.keeps_of_some {s : State} {a} (h : s.mem.wf = true) : OptTS.keeps (.some (a, s)) := h

def Exc.keeps (o : Except Nat (BitVec 20 × BitVec 12 × State)) : Prop :=
  match o with
  | .ok (_, _, s) => s.mem.wf = true
  | _ => True

theorem Exc.keeps_ok {o : Except Nat (BitVec 20 × BitVec 12 × State)} {s : State} {a} {b} (heq : o = .ok (a, b, s)) (h : Exc.keeps o) : s.mem.wf = true := by
  subst heq; exact h
theorem Exc.keeps_of_ok {s : State} {a} {b} (h : s.mem.wf = true) : Exc.keeps (.ok (a, b, s)) := h

theorem Made.keeps_of_trap (k : Cause) (v : Nat) : Made.keeps (.trap k v) := trivial

theorem Begun.keeps_of_run (r : StreamRun) : Begun.keeps (.run r) := trivial

theorem Turn.keeps_of_run  : Turn.keeps (.run ) := trivial

theorem Turn.keeps_of_retry  : Turn.keeps (.retry ) := trivial

theorem Turn.keeps_of_event (e : Instr) : Turn.keeps (.event e) := trivial

theorem OptS.keeps_of_none : OptS.keeps none := trivial

theorem OptTS.keeps_of_none : OptTS.keeps none := trivial

theorem Exc.keeps_of_error (n : Nat) : Exc.keeps (.error n) := trivial

theorem VStep.keeps_of_plain {s : State} (h : s.mem.wf = true) : VStep.keeps (VStep.plain s) := h

def PlayFound.keeps (o : PlayFound) : Prop :=
  match o with
  | .ok _ s => s.mem.wf = true
  | .fail _ _ s => s.mem.wf = true

theorem PlayFound.keeps_ok {o : PlayFound} {s : State} {a} (heq : o = .ok a s) (h : PlayFound.keeps o) : s.mem.wf = true := by
  subst heq; exact h
theorem PlayFound.keeps_of_ok {s : State} {a} (h : s.mem.wf = true) : PlayFound.keeps (.ok a s) := h

theorem PlayFound.keeps_fail {o : PlayFound} {s : State} {a b} (heq : o = .fail a b s) (h : PlayFound.keeps o) : s.mem.wf = true := by
  subst heq; exact h
theorem PlayFound.keeps_of_fail {s : State} {a b} (h : s.mem.wf = true) : PlayFound.keeps (.fail a b s) := h

def OptCS.keeps (o : Option (Copy × State)) : Prop :=
  match o with
  | .some (_, s) => s.mem.wf = true
  | _ => True

theorem OptCS.keeps_some {o : Option (Copy × State)} {s : State} {a} (heq : o = .some (a, s)) (h : OptCS.keeps o) : s.mem.wf = true := by
  subst heq; exact h
theorem OptCS.keeps_of_some {s : State} {a} (h : s.mem.wf = true) : OptCS.keeps (.some (a, s)) := h
theorem OptCS.keeps_of_none : OptCS.keeps none := trivial

/-- The bytes that writeBlock writes, as memory lists them. -/
theorem Memory.wf_block (l : List (Byte × Bool)) (dst : Nat) :
    Memory.wf ((((l.zipIdx dst).map fun b => (b.2, b.1)).filter fun e => e.2.1 != 0).map fun e => (e.1, e.2.1)) = true ∧
      ∀ e ∈ (((l.zipIdx dst).map fun b => (b.2, b.1)).filter fun e => e.2.1 != 0).map fun e => (e.1, e.2.1),
        dst ≤ e.1 ∧ e.1 < dst + l.length := by
  have hm : ∀ e ∈ (((l.zipIdx dst).map fun b => (b.2, b.1)).filter fun e => e.2.1 != 0).map fun e => (e.1, e.2.1),
      (dst ≤ e.1 ∧ e.1 < dst + l.length) ∧ e.2 ≠ 0 := by
    intro e he
    obtain ⟨x, hx, rfl⟩ := List.mem_map.1 he
    obtain ⟨hx, hz⟩ := List.mem_filter.1 hx
    obtain ⟨y, hy, rfl⟩ := List.mem_map.1 hx
    obtain ⟨h1, h2, -⟩ := List.mem_zipIdx (x := y.1) (i := y.2) hy
    exact ⟨⟨h1, h2⟩, by simpa using hz⟩
  refine ⟨(Memory.wf_iff _).2 ⟨?_, fun e he => (hm e he).2⟩, fun e he => (hm e he).1⟩
  refine List.pairwise_map.2 (List.Pairwise.filter _ (List.pairwise_map.2 ?_))
  clear hm
  induction l generalizing dst with
  | nil => exact List.Pairwise.nil
  | cons a l ih =>
    rw [List.zipIdx_cons]
    refine List.pairwise_cons.2 ⟨fun y hy => ?_, ih (dst + 1)⟩
    have := (List.mem_zipIdx (x := y.1) (i := y.2) hy).1
    show dst < y.2
    omega

theorem OptCS.keeps_map {α : Type} {o : Option α} {f : α → Copy × State} (h : ∀ c, (f c).2.mem.wf = true) :
    OptCS.keeps (o.map f) := by
  cases o with
  | none => exact trivial
  | some a => exact h a

def OptNB.keeps (o : Option ((Byte × Bool) × State)) : Prop :=
  match o with
  | .some (_, s) => s.mem.wf = true
  | _ => True

theorem OptNB.keeps_some {o : Option ((Byte × Bool) × State)} {s : State} {a} (heq : o = .some (a, s)) (h : OptNB.keeps o) :
    s.mem.wf = true := by
  subst heq; exact h
theorem OptNB.keeps_of_some {s : State} {a} (h : s.mem.wf = true) : OptNB.keeps (.some (a, s)) := h
theorem OptNB.keeps_of_none : OptNB.keeps none := trivial
theorem OptNB.keeps_map {o : Option (Copy × State)} {f : Copy × State → Byte × Bool} (h : OptCS.keeps o) :
    OptNB.keeps (o.map fun x => (f x, x.2)) := by
  cases o with
  | none => exact trivial
  | some a => exact h

theorem keep_vEach (f : State → VByte → VByte × State) (all : Bool) (l : List VByte) (n : Nat) (s : State) (h : s.mem.wf = true)
    (hf : ∀ (s : State) (b : VByte), s.mem.wf = true → (f s b).2.mem.wf = true) : (vEach f all l n s).2.mem.wf = true := by
  induction l generalizing n s with
  | nil => exact h
  | cons b l ih =>
    simp only [vEach]
    have hk : (if (n % 2 == 1) = true then (b, s) else f s b).2.mem.wf = true := by
      split
      · exact h
      · exact hf s b h
    exact ih _ _ hk

theorem if_keeps {c : Prop} [Decidable c] {a b : VStep} (ha : a.keeps) (hb : b.keeps) : (if c then a else b).keeps := by
  split
  · exact ha
  · exact hb

/-! ### The operations, each after those it calls -/

theorem keep_setCore (s : State) (g : ℕ) (c : Core) (hmem : s.mem.wf = true) : (State.setCore s g c).mem.wf = true := by
  unfold State.setCore
  repeat' first
    | with_reducible assumption | intro _ | dsimp only | split

theorem keep_updCore (s : State) (g : ℕ) (f : Core → Core) (hmem : s.mem.wf = true) : (State.updCore s g f).mem.wf = true := by
  unfold State.updCore
  repeat' first
    | with_reducible assumption | with_reducible apply keep_setCore | intro _ | dsimp only | split

theorem keep_performedPte (s : State) (d : ℕ) (e : Option (BitVec 20)) (hmem : s.mem.wf = true) : (State.performedPte s d e).mem.wf = true := by
  unfold State.performedPte
  repeat' first
    | with_reducible assumption | intro _ | dsimp only | split

theorem keep_leaveReqs (s : State) (g : ℕ) (x : Xfer) (hmem : s.mem.wf = true) : (State.leaveReqs s g x).mem.wf = true := by
  unfold State.leaveReqs
  repeat' first
    | with_reducible assumption | with_reducible apply keep_performedPte | with_reducible apply keep_foldl
    | with_reducible apply keep_foldl_fst | with_reducible apply keep_foldl_snd
    | with_reducible apply keep_foldl_snd_fst | intro _ | dsimp only | split

theorem keep_orphan (s : State) (g : ℕ) (sid : ℕ) (pick : XKey → Bool) (hmem : s.mem.wf = true) : (State.orphan s g sid pick).mem.wf = true := by
  unfold State.orphan
  repeat' first
    | with_reducible assumption | with_reducible apply keep_updCore | with_reducible apply keep_leaveReqs
    | with_reducible apply keep_foldl | with_reducible apply keep_foldl_fst | with_reducible apply keep_foldl_snd
    | with_reducible apply keep_foldl_snd_fst | intro _ | dsimp only | split

theorem keep_updAct (s : State) (g : ℕ) (f : CtxSet → CtxSet) (hmem : s.mem.wf = true) : (State.updAct s g f).mem.wf = true := by
  unfold State.updAct
  repeat' first
    | with_reducible assumption | with_reducible apply keep_updCore | intro _ | dsimp only | split

theorem keep_unkeep (s : State) (d : ℕ) (e : BitVec 20) (hmem : s.mem.wf = true) : (State.unkeep s d e).mem.wf = true := by
  unfold State.unkeep
  repeat' first
    | with_reducible assumption | intro _ | dsimp only | split

theorem keep_updDie (s : State) (d : ℕ) (f : Die → Die) (hmem : s.mem.wf = true) : (State.updDie s d f).mem.wf = true := by
  unfold State.updDie
  repeat' first
    | with_reducible assumption | intro _ | dsimp only | split

theorem keep_setPin (s : State) (d : ℕ) (e : BitVec 20) (p : Pin) (hmem : s.mem.wf = true) : (State.setPin s d e p).mem.wf = true := by
  unfold State.setPin
  repeat' first
    | with_reducible assumption | with_reducible apply keep_updDie | intro _ | dsimp only | split

theorem keep_freePin (s : State) (d : ℕ) (e : BitVec 20) (hmem : s.mem.wf = true) : (State.freePin s d e).mem.wf = true := by
  unfold State.freePin
  repeat' first
    | with_reducible assumption | with_reducible apply keep_unkeep | with_reducible apply keep_updDie
    | with_reducible apply keep_setPin | intro _ | dsimp only | split

theorem keep_settlePin (s : State) (d : ℕ) (e : BitVec 20) (hmem : s.mem.wf = true) : (State.settlePin s d e).mem.wf = true := by
  unfold State.settlePin
  repeat' first
    | with_reducible assumption | with_reducible apply keep_freePin | with_reducible apply keep_setPin | intro _
    | dsimp only | split

theorem keep_holderBit (s : State) (g : ℕ) (e : BitVec 20) (hmem : s.mem.wf = true) : (State.holderBit s g e).mem.wf = true := by
  unfold State.holderBit
  repeat' first
    | with_reducible assumption | with_reducible apply keep_setPin | intro _ | dsimp only | split

theorem keep_released (s : State) (g : ℕ) (t : Token) (hmem : s.mem.wf = true) : (State.released s g t).mem.wf = true := by
  unfold State.released
  repeat' first
    | with_reducible assumption | with_reducible apply keep_settlePin | with_reducible apply keep_holderBit
    | intro _ | dsimp only | split

theorem keep_abandonPlay (s : State) (g : ℕ) (c : CtxId) (hmem : s.mem.wf = true) : (State.abandonPlay s g c).mem.wf = true := by
  unfold State.abandonPlay
  repeat' first
    | with_reducible assumption | with_reducible apply keep_orphan | with_reducible apply keep_updAct
    | with_reducible apply keep_released | with_reducible apply keep_foldl | with_reducible apply keep_foldl_fst
    | with_reducible apply keep_foldl_snd | with_reducible apply keep_foldl_snd_fst | intro _ | dsimp only | split

theorem keep_updSid (s : State) (g : ℕ) (sid : ℕ) (f : CtxSet → CtxSet) (hmem : s.mem.wf = true) : (State.updSid s g sid f).mem.wf = true := by
  unfold State.updSid
  repeat' first
    | with_reducible assumption | with_reducible apply keep_updCore | intro _ | dsimp only | split

theorem keep_abortExchange (s : State) (w : Who) (r : CollRun) (hmem : s.mem.wf = true) : (State.abortExchange s w r).mem.wf = true := by
  unfold State.abortExchange
  repeat' first
    | with_reducible assumption | with_reducible apply keep_updSid | intro _ | dsimp only | split

theorem keep_staleReads (s : State) (line : ℕ) (ufrom2 : ℕ → Bool) (hmem : s.mem.wf = true) : (State.staleReads s line ufrom2).mem.wf = true := by
  unfold State.staleReads
  repeat' first
    | with_reducible assumption | intro _ | dsimp only | split

theorem keep_invalidate (s : State) (line : ℕ) (hmem : s.mem.wf = true) : (State.invalidate s line).mem.wf = true := by
  unfold State.invalidate
  repeat' first
    | with_reducible assumption | with_reducible apply keep_staleReads | intro _ | dsimp only | split

theorem keep_setMoesi (s : State) (line : ℕ) (m : Moesi) (hmem : s.mem.wf = true) : (State.setMoesi s line m).mem.wf = true := by
  unfold State.setMoesi
  repeat' first
    | with_reducible assumption | intro _ | dsimp only | split

theorem keep_recall (s : State) (locs : List ℕ) (hmem : s.mem.wf = true) : (State.recall s locs).mem.wf = true := by
  unfold State.recall
  repeat' first
    | with_reducible assumption | with_reducible apply keep_foldl | with_reducible apply keep_foldl_fst
    | with_reducible apply keep_foldl_snd | with_reducible apply keep_foldl_snd_fst | intro _ | dsimp only | split

theorem keep_hitMonitors (s : State) (locs : List ℕ) (hmem : s.mem.wf = true) : (State.hitMonitors s locs).mem.wf = true := by
  unfold State.hitMonitors
  repeat' first
    | with_reducible assumption | intro _ | dsimp only | split

theorem keep_poisonWrite (s : State) (locs : List ℕ) (poison : Bool) (bits : optParam (List ℕ) []) (hmem : s.mem.wf = true) : (State.poisonWrite s locs poison bits).mem.wf = true := by
  unfold State.poisonWrite
  repeat' first
    | with_reducible assumption | with_reducible apply keep_foldl | with_reducible apply keep_foldl_fst
    | with_reducible apply keep_foldl_snd | with_reducible apply keep_foldl_snd_fst | intro _ | dsimp only | split

theorem keep_writeHome (s : State) (bytes : List (ℕ × Byte)) (poison : Bool) (bits : optParam (List ℕ) []) (hmem : s.mem.wf = true) : (State.writeHome s bytes poison bits).mem.wf = true := by
  exact writeHome_wf _ _ _ hmem

theorem keep_dieWrite (s : State) (die : ℕ) (loc : ℕ) (bytes : List Byte) (hmem : s.mem.wf = true) : (State.dieWrite s die loc bytes).mem.wf = true := by
  unfold State.dieWrite
  repeat' first
    | with_reducible assumption | with_reducible apply keep_writeHome | intro _ | dsimp only | split

theorem keep_setQField (s : State) (d : ℕ) (q : BitVec 6) (off : ℕ) (v : W32) (hmem : s.mem.wf = true) : (State.setQField s d q off v).mem.wf = true := by
  unfold State.setQField
  repeat' first
    | with_reducible assumption | with_reducible apply keep_writeHome | intro _ | dsimp only | split

theorem keep_advanceFree (s : State) (d : Fin 8) (q : BitVec 6) (hmem : s.mem.wf = true) : (State.advanceFree s d q).mem.wf = true := by
  unfold State.advanceFree
  repeat' first
    | with_reducible assumption | with_reducible apply keep_setQField | intro _ | dsimp only | split

theorem keep_notify (s : State) (v : Fin 9) (hmem : s.mem.wf = true) : (State.notify s v).mem.wf = true := by
  unfold State.notify
  repeat' first
    | with_reducible assumption | intro _ | dsimp only | split

theorem keep_notifyDie (s : State) (d : ℕ) (hmem : s.mem.wf = true) : (State.notifyDie s d).mem.wf = true := by
  unfold State.notifyDie
  repeat' first
    | with_reducible assumption | with_reducible apply keep_notify | intro _ | dsimp only | split

theorem keep_writeFinal (s : State) (c : Card) (code : ℕ) (detail : ℕ) (tell : Bool) (hmem : s.mem.wf = true) : (State.writeFinal s c code detail tell).mem.wf = true := by
  unfold State.writeFinal
  repeat' first
    | with_reducible assumption | with_reducible apply keep_dieWrite | with_reducible apply keep_advanceFree
    | with_reducible apply keep_notifyDie | intro _ | dsimp only | split

theorem keep_choose (s : State) (hmem : s.mem.wf = true) : (State.choose s).2.mem.wf = true := by
  unfold State.choose
  repeat' first
    | with_reducible assumption | intro _ | dsimp only | split
theorem keep_choose' {r0} {r1} (s : State) (hmem : s.mem.wf = true) (heq : (State.choose s) = (r0, r1)) : r1.mem.wf = true := by
  have := keep_choose s hmem
  rw [heq] at this
  exact this

theorem keep_newEntry (s : State) (d : ℕ) (p : Pin) (hmem : s.mem.wf = true) : Exc.keeps (State.newEntry s d p) := by
  unfold State.newEntry
  repeat' first
    | with_reducible assumption | with_reducible apply keep_choose
    | with_reducible apply keep_choose' (heq := by assumption) | with_reducible apply keep_updDie
    | with_reducible apply keep_setPin | with_reducible apply Exc.keeps_ok (heq := by assumption)
    | with_reducible apply Exc.keeps_of_ok | with_reducible apply Exc.keeps_of_error | intro _ | dsimp only | split

theorem keep_appendLog (s : State) (die : ℕ) (evptr : W64) (r : List Byte) (hmem : s.mem.wf = true) : (State.appendLog s die evptr r).mem.wf = true := by
  exact appendLog_wf _ _ _ hmem

theorem keep_pinRecord (s : State) (d : ℕ) (evptr : W64) (prin : W32) (reqtag : W16) (who : ℕ) (base : W64) (t : Token) (phys : Bool) (hmem : s.mem.wf = true) : (State.pinRecord s d evptr prin reqtag who base t phys).mem.wf = true := by
  unfold State.pinRecord
  repeat' first
    | with_reducible assumption | with_reducible apply keep_appendLog | intro _ | dsimp only | split

theorem keep_makeTiles (s : State) (c : Card) (acc : List (ℕ × Token)) (ua3 : List (ℕ × ℕ × W64)) (hmem : s.mem.wf = true) : TilesMade.keeps (State.makeTiles s c acc ua3) := by
  induction ua3 generalizing s acc with
  | nil =>
    unfold State.makeTiles
    repeat' first
      | with_reducible assumption | with_reducible apply keep_newEntry | with_reducible apply keep_pinRecord
      | with_reducible apply Exc.keeps_ok (heq := by assumption) | with_reducible apply Exc.keeps_of_ok
      | with_reducible apply Exc.keeps_of_error | with_reducible apply TilesMade.keeps_ok (heq := by assumption)
      | with_reducible apply TilesMade.keeps_of_ok | with_reducible apply TilesMade.keeps_fail (heq := by assumption)
      | with_reducible apply TilesMade.keeps_of_fail | intro _ | dsimp only | split
  | cons hd tl ih =>
    unfold State.makeTiles
    repeat' first
      | with_reducible assumption | with_reducible apply ih | with_reducible apply keep_newEntry | with_reducible apply keep_pinRecord
      | with_reducible apply Exc.keeps_ok (heq := by assumption) | with_reducible apply Exc.keeps_of_ok
      | with_reducible apply Exc.keeps_of_error | with_reducible apply TilesMade.keeps_ok (heq := by assumption)
      | with_reducible apply TilesMade.keeps_of_ok | with_reducible apply TilesMade.keeps_fail (heq := by assumption)
      | with_reducible apply TilesMade.keeps_of_fail | intro _ | dsimp only | split

theorem keep_savedBy (s : State) (g : ℕ) (t : Token) (up : Bool) (hmem : s.mem.wf = true) : (State.savedBy s g t up).mem.wf = true := by
  unfold State.savedBy
  repeat' first
    | with_reducible assumption | with_reducible apply keep_setPin | with_reducible apply keep_settlePin | intro _
    | dsimp only | split

theorem keep_dropSaved (s : State) (d : ℕ) (t : Token) (hmem : s.mem.wf = true) : (State.dropSaved s d t).mem.wf = true := by
  unfold State.dropSaved
  repeat' first
    | with_reducible assumption | with_reducible apply keep_savedBy | intro _ | dsimp only | split

theorem keep_acceptCard (s : State) (c : Card) (hmem : s.mem.wf = true) : (State.acceptCard s c).mem.wf = true := by
  unfold State.acceptCard
  repeat' first
    | with_reducible assumption | with_reducible apply keep_writeFinal | with_reducible apply keep_makeTiles
    | with_reducible apply keep_dropSaved | with_reducible apply TilesMade.keeps_ok (heq := by assumption)
    | with_reducible apply TilesMade.keeps_of_ok | with_reducible apply TilesMade.keeps_fail (heq := by assumption)
    | with_reducible apply TilesMade.keeps_of_fail | with_reducible apply keep_foldl
    | with_reducible apply keep_foldl_fst | with_reducible apply keep_foldl_snd
    | with_reducible apply keep_foldl_snd_fst | intro _ | dsimp only | split

theorem keep_setReq (s : State) (id : ℕ) (r : Req) (hmem : s.mem.wf = true) : (State.setReq s id r).mem.wf = true := by
  unfold State.setReq
  repeat' first
    | with_reducible assumption | intro _ | dsimp only | split

theorem keep_homeShares (s : State) (line : ℕ) (hmem : s.mem.wf = true) : (State.homeShares s line).mem.wf = true := by
  unfold State.homeShares
  repeat' first
    | with_reducible assumption | with_reducible apply keep_setMoesi | intro _ | dsimp only | split

theorem keep_homeRead (s : State) (line : ℕ) (hmem : s.mem.wf = true) : (State.homeRead s line).mem.wf = true := by
  unfold State.homeRead
  repeat' first
    | with_reducible assumption | with_reducible apply keep_setMoesi | intro _ | dsimp only | split

theorem keep_readAtHome (s : State) (r : Req) (install : ℕ) (hmem : s.mem.wf = true) : (State.readAtHome s r install).mem.wf = true := by
  unfold State.readAtHome
  repeat' first
    | with_reducible assumption | with_reducible apply keep_homeShares | with_reducible apply keep_homeRead
    | intro _ | dsimp only | split

theorem keep_statusRead (s : State) (d : ℕ) (off : ℕ) (hmem : s.mem.wf = true) : (State.statusRead s d off).mem.wf = true := by
  unfold State.statusRead
  repeat' first
    | with_reducible assumption | with_reducible apply keep_updDie | intro _ | dsimp only | split

theorem keep_statusTouch (s : State) (home : ℕ) (off : ℕ) (hmem : s.mem.wf = true) : (State.statusTouch s home off).mem.wf = true := by
  unfold State.statusTouch
  repeat' first
    | with_reducible assumption | with_reducible apply keep_statusRead | intro _ | dsimp only | split

theorem keep_dropReq (s : State) (id : ℕ) (hmem : s.mem.wf = true) : (State.dropReq s id).mem.wf = true := by
  unfold State.dropReq
  repeat' first
    | with_reducible assumption | intro _ | dsimp only | split

theorem keep_writeMarked (s : State) (clean : List (ℕ × Byte)) (bad : List (ℕ × Byte)) (bits : optParam (List ℕ) []) (hmem : s.mem.wf = true) : (State.writeMarked s clean bad bits).mem.wf = true := by
  unfold State.writeMarked
  repeat' first
    | with_reducible assumption | with_reducible apply keep_writeHome | intro _ | dsimp only | split

theorem keep_containRecord (s : State) (g : ℕ) (own : Option (Fin 8 × BitVec 6)) (tag : W16) (code : ℕ) (source : ℕ) (off : W64) (hmem : s.mem.wf = true) : (State.containRecord s g own tag code source off).mem.wf = true := by
  unfold State.containRecord
  repeat' first
    | with_reducible assumption | with_reducible apply keep_appendLog | intro _ | dsimp only | split

theorem keep_engineWrite (s : State) (w : Who) (bytes : List (ℕ × Byte × Bool)) (hmem : s.mem.wf = true) : (State.engineWrite s w bytes).mem.wf = true := by
  unfold State.engineWrite
  repeat' first
    | with_reducible assumption | with_reducible apply keep_writeMarked | with_reducible apply keep_containRecord
    | intro _ | dsimp only | split

theorem keep_performLine (s : State) (id : ℕ) (r : Req) (hmem : s.mem.wf = true) : (State.performLine s id r).mem.wf = true := by
  unfold State.performLine
  repeat' first
    | with_reducible assumption | with_reducible apply keep_setReq | with_reducible apply keep_choose
    | with_reducible apply keep_choose' (heq := by assumption) | with_reducible apply keep_engineWrite | intro _
    | dsimp only | split

theorem keep_splitStore (s : State) (e : StoreEnt) (hmem : s.mem.wf = true) : (State.splitStore s e).2.2.mem.wf = true := by
  unfold State.splitStore
  repeat' first
    | with_reducible assumption | with_reducible apply keep_choose
    | with_reducible apply keep_choose' (heq := by assumption) | intro _ | dsimp only | split
theorem keep_splitStore' {r0} {r1} {r2} (s : State) (e : StoreEnt) (hmem : s.mem.wf = true) (heq : (State.splitStore s e) = (r0, r1, r2)) : r2.mem.wf = true := by
  have := keep_splitStore s e hmem
  rw [heq] at this
  exact this

theorem keep_updWho (s : State) (w : Who) (f : Ctx → Ctx) (hmem : s.mem.wf = true) : (State.updWho s w f).mem.wf = true := by
  unfold State.updWho
  repeat' first
    | with_reducible assumption | with_reducible apply keep_updSid | intro _ | dsimp only | split

theorem keep_addFail (s : State) (w : Who) (psn : Bool) (lost : Bool) (refused : Bool) (dead : Bool) (hmem : s.mem.wf = true) : (State.addFail s w psn lost refused dead).mem.wf = true := by
  unfold State.addFail
  repeat' first
    | with_reducible assumption | with_reducible apply keep_updWho | intro _ | dsimp only | split

theorem keep_performStore (s : State) (w : Who) (bytes : List (ℕ × Byte)) (poison : Bool) (bits : optParam (List ℕ) []) (marks : optParam (List ℕ) []) (hmem : s.mem.wf = true) : (State.performStore s w bytes poison bits marks).mem.wf = true := by
  unfold State.performStore
  repeat' first
    | with_reducible assumption | with_reducible apply keep_writeMarked | with_reducible apply keep_addFail
    | with_reducible apply keep_containRecord | intro _ | dsimp only | split

theorem keep_performSent (s : State) (id : ℕ) (r : Req) (e : StoreEnt) (hmem : s.mem.wf = true) : (State.performSent s id r e).mem.wf = true := by
  unfold State.performSent
  repeat' first
    | with_reducible assumption | with_reducible apply keep_splitStore
    | with_reducible apply keep_splitStore' (heq := by assumption) | with_reducible apply keep_updCore
    | with_reducible apply keep_performStore | with_reducible apply keep_setReq | intro _ | dsimp only | split

theorem keep_setOp (s : State) (id : ℕ) (o : HomeOp) (hmem : s.mem.wf = true) : (State.setOp s id o).mem.wf = true := by
  unfold State.setOp
  repeat' first
    | with_reducible assumption | intro _ | dsimp only | split

theorem keep_dropStale (s : State) (g : ℕ) (loc : ℕ) (hmem : s.mem.wf = true) : (State.dropStale s g loc).mem.wf = true := by
  unfold State.dropStale
  repeat' first
    | with_reducible assumption | with_reducible apply keep_updCore | intro _ | dsimp only | split

theorem keep_performOp (s : State) (id : ℕ) (o : HomeOp) (hmem : s.mem.wf = true) : (State.performOp s id o).mem.wf = true := by
  unfold State.performOp
  repeat' first
    | with_reducible assumption | with_reducible apply keep_addFail | with_reducible apply keep_performStore
    | with_reducible apply keep_setOp | with_reducible apply keep_dropStale | intro _ | dsimp only | split

theorem keep_performReq (s : State) (id : ℕ) (r : Req) (hmem : s.mem.wf = true) : (State.performReq s id r).mem.wf = true := by
  unfold State.performReq
  repeat' first
    | with_reducible assumption | with_reducible apply keep_dropReq | with_reducible apply keep_setReq
    | with_reducible apply keep_performLine | with_reducible apply keep_performSent
    | with_reducible apply keep_performOp | intro _ | dsimp only | split

theorem keep_acceptReq (s : State) (id : ℕ) (r : Req) (hmem : s.mem.wf = true) : (State.acceptReq s id r).mem.wf = true := by
  unfold State.acceptReq
  repeat' first
    | with_reducible assumption | with_reducible apply keep_setReq | with_reducible apply keep_readAtHome
    | with_reducible apply keep_statusTouch | with_reducible apply keep_performReq | intro _ | dsimp only | split

theorem keep_ackFenced (s : State) (d : ℕ) (id : ℕ) (hmem : s.mem.wf = true) : (State.ackFenced s d id).mem.wf = true := by
  unfold State.ackFenced
  repeat' first
    | with_reducible assumption | with_reducible apply keep_performReq | with_reducible apply keep_setReq | intro _
    | dsimp only | split

theorem keep_activate (s : State) (g : ℕ) (hmem : s.mem.wf = true) : (State.activate s g).mem.wf = true := by
  unfold State.activate
  repeat' first
    | with_reducible assumption | with_reducible apply keep_setCore | intro _ | dsimp only | split

theorem keep_setRing (s : State) (g : ℕ) (h : HReg) (r : Ring) (hmem : s.mem.wf = true) : (State.setRing s g h r).mem.wf = true := by
  unfold State.setRing
  repeat' first
    | with_reducible assumption | with_reducible apply keep_updAct | intro _ | dsimp only | split

theorem keep_advance (s : State) (g : ℕ) (h : HReg) (r : Ring × Bool) (hmem : s.mem.wf = true) : VStep.keeps (State.advance s g h r) := by
  unfold State.advance
  repeat' first
    | with_reducible assumption | with_reducible apply keep_setRing
    | with_reducible apply VStep.keeps_done (heq := by assumption) | with_reducible apply VStep.keeps_of_done
    | with_reducible apply VStep.keeps_wait (heq := by assumption) | with_reducible apply VStep.keeps_of_wait
    | with_reducible apply VStep.keeps_withdrawn (heq := by assumption)
    | with_reducible apply VStep.keeps_of_withdrawn | with_reducible apply VStep.keeps_of_plain | intro _
    | dsimp only | split

theorem keep_installRo (s : State) (g : ℕ) (line : ℕ) (c : Copy) (hmem : s.mem.wf = true) : (State.installRo s g line c).mem.wf = true := by
  unfold State.installRo
  repeat' first
    | with_reducible assumption | intro _ | dsimp only | split

theorem keep_installL1 (s : State) (g : ℕ) (line : ℕ) (c : Copy) (hmem : s.mem.wf = true) : (State.installL1 s g line c).mem.wf = true := by
  unfold State.installL1
  repeat' first
    | with_reducible assumption | with_reducible apply keep_updCore | intro _ | dsimp only | split

theorem keep_again (s : State) (g : ℕ) (line : ℕ) (c : Copy) (hmem : s.mem.wf = true) : (State.again s g line c).mem.wf = true := by
  unfold State.again
  repeat' first
    | with_reducible assumption | with_reducible apply keep_installL1 | intro _ | dsimp only | split

theorem keep_afterHome (s : State) (g : ℕ) (path : Path) (loc : ℕ) (hmem : s.mem.wf = true) : (State.afterHome s g path loc).mem.wf = true := by
  unfold State.afterHome
  repeat' first
    | with_reducible assumption | with_reducible apply keep_dropStale | with_reducible apply keep_installRo
    | with_reducible apply keep_homeRead | with_reducible apply keep_installL1 | with_reducible apply keep_again
    | intro _ | dsimp only | split

theorem keep_freeTagOf (s : State) (r : Req) (hmem : s.mem.wf = true) : (State.freeTagOf s r).mem.wf = true := by
  unfold State.freeTagOf
  repeat' first
    | with_reducible assumption | with_reducible apply keep_updDie | intro _ | dsimp only | split

theorem keep_endReq (s : State) (r : Req) (hmem : s.mem.wf = true) : (State.endReq s r).mem.wf = true := by
  unfold State.endReq
  repeat' first
    | with_reducible assumption | with_reducible apply keep_performedPte | with_reducible apply keep_freeTagOf
    | intro _ | dsimp only | split

theorem keep_fillFetch (s : State) (g : ℕ) (line : ℕ) (data : Option Copy) (hmem : s.mem.wf = true) : (State.fillFetch s g line data).mem.wf = true := by
  unfold State.fillFetch
  repeat' first
    | with_reducible assumption | with_reducible apply keep_updCore | intro _ | dsimp only | split

theorem keep_dropUnowned (s : State) (g : ℕ) (line : ℕ) (hmem : s.mem.wf = true) : (State.dropUnowned s g line).mem.wf = true := by
  unfold State.dropUnowned
  repeat' first
    | with_reducible assumption | with_reducible apply keep_updCore | intro _ | dsimp only | split

theorem keep_installRead (s : State) (r : Req) (install : ℕ) (c : Copy) (hmem : s.mem.wf = true) : (State.installRead s r install c).mem.wf = true := by
  unfold State.installRead
  repeat' first
    | with_reducible assumption | with_reducible apply keep_updDie | with_reducible apply keep_installL1
    | with_reducible apply keep_installRo | with_reducible apply keep_fillFetch
    | with_reducible apply keep_dropUnowned | intro _ | dsimp only | split

theorem keep_orMstat (s : State) (w : Who) (b : BitVec 8) (hmem : s.mem.wf = true) : (State.orMstat s w b).mem.wf = true := by
  unfold State.orMstat
  repeat' first
    | with_reducible assumption | with_reducible apply keep_updWho | intro _ | dsimp only | split

theorem keep_finishLoad (s : State) (w : Who) (xd : XReg) (sgn : Bool) (bytes : List LdByte) (hmem : s.mem.wf = true) : (State.finishLoad s w xd sgn bytes).mem.wf = true := by
  unfold State.finishLoad
  repeat' first
    | with_reducible assumption | with_reducible apply keep_orMstat | with_reducible apply keep_updWho | intro _
    | dsimp only | split

theorem keep_fillLoad (s : State) (id : ℕ) (w : Who) (data : Option Copy) (hmem : s.mem.wf = true) : (State.fillLoad s id w data).mem.wf = true := by
  unfold State.fillLoad
  repeat' first
    | with_reducible assumption | with_reducible apply keep_finishLoad | with_reducible apply keep_updWho | intro _
    | dsimp only | split

theorem keep_setXfer (s : State) (g : ℕ) (sid : ℕ) (key : XKey) (x : Option Xfer) (hmem : s.mem.wf = true) : (State.setXfer s g sid key x).mem.wf = true := by
  unfold State.setXfer
  repeat' first
    | with_reducible assumption | with_reducible apply keep_updCore | intro _ | dsimp only | split

theorem keep_lineFate (s : State) (g : ℕ) (sid : ℕ) (id : ℕ) (key : XKey) (f : Fate) (data : Option Copy) (hmem : s.mem.wf = true) : (State.lineFate s g sid id key f data).mem.wf = true := by
  unfold State.lineFate
  repeat' first
    | with_reducible assumption | with_reducible apply keep_setXfer | intro _ | dsimp only | split

theorem keep_dropStore (s : State) (g : ℕ) (seq : ℕ) (hmem : s.mem.wf = true) : (State.dropStore s g seq).mem.wf = true := by
  unfold State.dropStore
  repeat' first
    | with_reducible assumption | with_reducible apply keep_updCore | intro _ | dsimp only | split

theorem keep_nextHalf (s : State) (id : ℕ) (hmem : s.mem.wf = true) : (State.nextHalf s id).mem.wf = true := by
  unfold State.nextHalf
  repeat' first
    | with_reducible assumption | with_reducible apply keep_setOp | intro _ | dsimp only | split

theorem keep_answered (s : State) (id : ℕ) (r : Req) (data : Option Copy) (hmem : s.mem.wf = true) : (State.answered s id r data).mem.wf = true := by
  unfold State.answered
  repeat' first
    | with_reducible assumption | with_reducible apply keep_dropReq | with_reducible apply keep_endReq
    | with_reducible apply keep_installRead | with_reducible apply keep_fillLoad
    | with_reducible apply keep_lineFate | with_reducible apply keep_dropStore | with_reducible apply keep_nextHalf
    | intro _ | dsimp only | split

theorem keep_armMonitor (s : State) (m : Monitor) (hmem : s.mem.wf = true) : (State.armMonitor s m).mem.wf = true := by
  unfold State.armMonitor
  repeat' first
    | with_reducible assumption | intro _ | dsimp only | split

theorem keep_triggerDrain (s : State) (g : ℕ) (n : ℕ) (hmem : s.mem.wf = true) : (State.triggerDrain s g n).mem.wf = true := by
  unfold State.triggerDrain
  repeat' first
    | with_reducible assumption | with_reducible apply keep_updCore | intro _ | dsimp only | split

theorem keep_updCtx (s : State) (g : ℕ) (c : CtxId) (f : Ctx → Ctx) (hmem : s.mem.wf = true) : (State.updCtx s g c f).mem.wf = true := by
  unfold State.updCtx
  repeat' first
    | with_reducible assumption | with_reducible apply keep_updAct | intro _ | dsimp only | split

theorem keep_updMe (s : State) (f : Ctx → Ctx) (hmem : s.mem.wf = true) : (State.updMe s f).mem.wf = true := by
  unfold State.updMe
  repeat' first
    | with_reducible assumption | with_reducible apply keep_updCtx | intro _ | dsimp only | split

theorem keep_arrive (s : State) (sc : Scope) (b : BitVec 3) (xd : XReg) (hmem : s.mem.wf = true) : (State.arrive s sc b xd).mem.wf = true := by
  unfold State.arrive
  repeat' first
    | with_reducible assumption | with_reducible apply keep_triggerDrain | with_reducible apply keep_updMe | intro _
    | dsimp only | split

theorem keep_denialRecord (s : State) (w : Who) (t : Token) (off : ℕ) (code : ℕ) (hmem : s.mem.wf = true) : (State.denialRecord s w t off code).mem.wf = true := by
  unfold State.denialRecord
  repeat' first
    | with_reducible assumption | with_reducible apply keep_appendLog | intro _ | dsimp only | split

theorem keep_atomFails (s : State) (w : Who) (code : ℕ) (mst : BitVec 8) (denied : Option (Token × ℕ)) (hmem : s.mem.wf = true) : (State.atomFails s w code mst denied).mem.wf = true := by
  unfold State.atomFails
  repeat' first
    | with_reducible assumption | with_reducible apply keep_orMstat | with_reducible apply keep_denialRecord
    | intro _ | dsimp only | split

theorem keep_selfInvalidate (s : State) (g : ℕ) (hmem : s.mem.wf = true) : (State.selfInvalidate s g).mem.wf = true := by
  unfold State.selfInvalidate
  repeat' first
    | with_reducible assumption | with_reducible apply keep_updCore | intro _ | dsimp only | split

theorem keep_barrierEnd (s : State) (g : ℕ) (c : CtxId) (sc : Scope) (hmem : s.mem.wf = true) : (State.barrierEnd s g c sc).mem.wf = true := by
  unfold State.barrierEnd
  repeat' first
    | with_reducible assumption | with_reducible apply keep_updCtx | with_reducible apply keep_selfInvalidate
    | intro _ | dsimp only | split

theorem keep_holdMe (s : State) (h : Hold) (hmem : s.mem.wf = true) : (State.holdMe s h).mem.wf = true := by
  unfold State.holdMe
  repeat' first
    | with_reducible assumption | with_reducible apply keep_updMe | intro _ | dsimp only | split

theorem keep_barrierWait (s : State) (aw : Bool) (sc : Scope) (b : BitVec 3) (phase : W32) (hmem : s.mem.wf = true) : (State.barrierWait s aw sc b phase).mem.wf = true := by
  unfold State.barrierWait
  repeat' first
    | with_reducible assumption | with_reducible apply keep_barrierEnd | with_reducible apply keep_holdMe | intro _
    | dsimp only | split

theorem keep_engineStall (s : State) (g : ℕ) (src : StallSrc) (c : CtxId) (e : BitVec 20) (row : optParam Bool Bool.false) (hmem : s.mem.wf = true) : (State.engineStall s g src c e row).mem.wf = true := by
  unfold State.engineStall
  repeat' first
    | with_reducible assumption | with_reducible apply keep_updAct | intro _ | dsimp only | split

theorem keep_unannounce (s : State) (w : Who) (hmem : s.mem.wf = true) : (State.unannounce s w).mem.wf = true := by
  unfold State.unannounce
  repeat' first
    | with_reducible assumption | with_reducible apply keep_updDie | intro _ | dsimp only | split

theorem keep_releaseAll (s : State) (g : ℕ) (l : List Token) (hmem : s.mem.wf = true) : (State.releaseAll s g l).mem.wf = true := by
  unfold State.releaseAll
  repeat' first
    | with_reducible assumption | with_reducible apply keep_released | with_reducible apply keep_foldl
    | with_reducible apply keep_foldl_fst | with_reducible apply keep_foldl_snd
    | with_reducible apply keep_foldl_snd_fst | intro _ | dsimp only | split

theorem keep_collWithdraw (s : State) (w : Who) (r : CollRun) (pte : BitVec 20) (hmem : s.mem.wf = true) : (State.collWithdraw s w r pte).mem.wf = true := by
  unfold State.collWithdraw
  repeat' first
    | with_reducible assumption | with_reducible apply keep_orphan | with_reducible apply keep_unannounce
    | with_reducible apply keep_abortExchange | with_reducible apply keep_updSid
    | with_reducible apply keep_releaseAll | intro _ | dsimp only | split

theorem keep_giveUp (s : State) (g : ℕ) (l : List (BitVec 20)) (hmem : s.mem.wf = true) : (State.giveUp s g l).mem.wf = true := by
  unfold State.giveUp
  repeat' first
    | with_reducible assumption | with_reducible apply keep_performedPte | with_reducible apply keep_foldl
    | with_reducible apply keep_foldl_fst | with_reducible apply keep_foldl_snd
    | with_reducible apply keep_foldl_snd_fst | intro _ | dsimp only | split

theorem keep_updPin (s : State) (d : ℕ) (e : BitVec 20) (f : Pin → Pin) (hmem : s.mem.wf = true) : (State.updPin s d e f).mem.wf = true := by
  unfold State.updPin
  repeat' first
    | with_reducible assumption | with_reducible apply keep_setPin | intro _ | dsimp only | split

theorem keep_flyIn (s : State) (d : ℕ) (e : BitVec 20) (hmem : s.mem.wf = true) : (State.flyIn s d e).mem.wf = true := by
  unfold State.flyIn
  repeat' first
    | with_reducible assumption | with_reducible apply keep_updPin | intro _ | dsimp only | split

theorem keep_carryOn (s : State) (w : Who) (fresh : Bool) (mods : List ℕ) (x : Xfer) (hmem : s.mem.wf = true) : (State.carryOn s w fresh mods x).2.mem.wf = true := by
  unfold State.carryOn
  repeat' first
    | with_reducible assumption | with_reducible apply keep_choose
    | with_reducible apply keep_choose' (heq := by assumption) | with_reducible apply keep_engineWrite
    | with_reducible apply keep_giveUp | with_reducible apply keep_setXfer | with_reducible apply keep_flyIn
    | with_reducible apply keep_foldl | with_reducible apply keep_foldl_fst | with_reducible apply keep_foldl_snd
    | with_reducible apply keep_foldl_snd_fst | intro _ | dsimp only | split
theorem keep_carryOn' {r0} {r1} (s : State) (w : Who) (fresh : Bool) (mods : List ℕ) (x : Xfer) (hmem : s.mem.wf = true) (heq : (State.carryOn s w fresh mods x) = (r0, r1)) : r1.mem.wf = true := by
  have := keep_carryOn s w fresh mods x hmem
  rw [heq] at this
  exact this

theorem keep_send (s : State) (w : Who) (reqtag : W16) (what : ReqWhat) (line : ℕ) (home : ℕ) (pte : Option (BitVec 20)) (ms : Bool) (host : Bool) (hmem : s.mem.wf = true) : (State.send s w reqtag what line home pte ms host).2.mem.wf = true := by
  unfold State.send
  repeat' first
    | with_reducible assumption | with_reducible apply keep_updDie | intro _ | dsimp only | split
theorem keep_send' {r0} {r1} (s : State) (w : Who) (reqtag : W16) (what : ReqWhat) (line : ℕ) (home : ℕ) (pte : Option (BitVec 20)) (ms : Bool) (host : Bool) (hmem : s.mem.wf = true) (heq : (State.send s w reqtag what line home pte ms host) = (r0, r1)) : r1.mem.wf = true := by
  have := keep_send s w reqtag what line home pte ms host hmem
  rw [heq] at this
  exact this

theorem keep_sendLine (s : State) (w : Who) (reqtag : W16) (key : XKey) (x : Want) (hmem : s.mem.wf = true) : (State.sendLine s w reqtag key x).2.mem.wf = true := by
  unfold State.sendLine
  repeat' first
    | with_reducible assumption | with_reducible apply keep_send
    | with_reducible apply keep_send' (heq := by assumption) | intro _ | dsimp only | split
theorem keep_sendLine' {r0} {r1} (s : State) (w : Who) (reqtag : W16) (key : XKey) (x : Want) (hmem : s.mem.wf = true) (heq : (State.sendLine s w reqtag key x) = (r0, r1)) : r1.mem.wf = true := by
  have := keep_sendLine s w reqtag key x hmem
  rw [heq] at this
  exact this

theorem keep_sendLines (s : State) (w : Who) (reqtag : W16) (key : XKey) (ua4 : List Want) (hmem : s.mem.wf = true) : (State.sendLines s w reqtag key ua4).2.mem.wf = true := by
  induction ua4 generalizing s with
  | nil =>
    unfold State.sendLines
    repeat' first
      | with_reducible assumption | with_reducible apply keep_sendLine
      | with_reducible apply keep_sendLine' (heq := by assumption) | intro _ | dsimp only | split
  | cons hd tl ih =>
    unfold State.sendLines
    repeat' first
      | with_reducible assumption | with_reducible apply ih | with_reducible apply keep_sendLine
      | with_reducible apply keep_sendLine' (heq := by assumption) | intro _ | dsimp only | split
theorem keep_sendLines' {r0} {r1} (s : State) (w : Who) (reqtag : W16) (key : XKey) (ua4 : List Want) (hmem : s.mem.wf = true) (heq : (State.sendLines s w reqtag key ua4) = (r0, r1)) : r1.mem.wf = true := by
  have := keep_sendLines s w reqtag key ua4 hmem
  rw [heq] at this
  exact this

theorem keep_carry (s : State) (w : Who) (reqtag : W16) (key : XKey) (plan : Plan) (hmem : s.mem.wf = true) : (State.carry s w reqtag key plan).2.mem.wf = true := by
  unfold State.carry
  repeat' first
    | with_reducible assumption | with_reducible apply keep_carryOn
    | with_reducible apply keep_carryOn' (heq := by assumption) | with_reducible apply keep_sendLines
    | with_reducible apply keep_sendLines' (heq := by assumption) | intro _ | dsimp only | split
theorem keep_carry' {r0} {r1} (s : State) (w : Who) (reqtag : W16) (key : XKey) (plan : Plan) (hmem : s.mem.wf = true) (heq : (State.carry s w reqtag key plan) = (r0, r1)) : r1.mem.wf = true := by
  have := keep_carry s w reqtag key plan hmem
  rw [heq] at this
  exact this

theorem keep_collIssue (s : State) (w : Who) (r : CollRun) (need : List CollNeed) (act : State → Fates → State) (key : optParam XKey XKey.cell) (hmem : s.mem.wf = true)
    (hact : ∀ (s : State) (f : Fates), s.mem.wf = true → (act s f).mem.wf = true) : (State.collIssue s w r need act key).mem.wf = true := by
  unfold State.collIssue
  repeat' first
    | with_reducible assumption | with_reducible apply keep_engineStall | with_reducible apply keep_collWithdraw
    | with_reducible apply keep_carry | with_reducible apply keep_carry' (heq := by assumption)
    | with_reducible apply keep_updSid | with_reducible apply hact | intro _ | dsimp only | split

theorem keep_engineDenials (s : State) (w : Who) (p : EPtr) (code : ℕ) (logged : List ℕ) (offs : List ℕ) (hmem : s.mem.wf = true) : (State.engineDenials s w p code logged offs).1.mem.wf = true := by
  unfold State.engineDenials
  repeat' first
    | with_reducible assumption | with_reducible apply keep_denialRecord | with_reducible apply keep_foldl
    | with_reducible apply keep_foldl_fst | with_reducible apply keep_foldl_snd
    | with_reducible apply keep_foldl_snd_fst | intro _ | dsimp only | split
theorem keep_engineDenials' {r0} {r1} (s : State) (w : Who) (p : EPtr) (code : ℕ) (logged : List ℕ) (offs : List ℕ) (hmem : s.mem.wf = true) (heq : (State.engineDenials s w p code logged offs) = (r0, r1)) : r0.mem.wf = true := by
  have := keep_engineDenials s w p code logged offs hmem
  rw [heq] at this
  exact this

theorem keep_collDenials (s : State) (w : Who) (p : EPtr) (code : ℕ) (r : CollRun) (ds : List ℤ) (hmem : s.mem.wf = true) : (State.collDenials s w p code r ds).1.mem.wf = true := by
  unfold State.collDenials
  repeat' first
    | with_reducible assumption | with_reducible apply keep_engineDenials
    | with_reducible apply keep_engineDenials' (heq := by assumption) | intro _ | dsimp only | split
theorem keep_collDenials' {r0} {r1} (s : State) (w : Who) (p : EPtr) (code : ℕ) (r : CollRun) (ds : List ℤ) (hmem : s.mem.wf = true) (heq : (State.collDenials s w p code r ds) = (r0, r1)) : r0.mem.wf = true := by
  have := keep_collDenials s w p code r ds hmem
  rw [heq] at this
  exact this

theorem keep_collPlaces (s : State) (w : Who) (p : EPtr) (d : ℤ) (n : ℕ) (write : Bool) (r : CollRun) (hmem : s.mem.wf = true) : (State.collPlaces s w p d n write r).2.1.mem.wf = true := by
  unfold State.collPlaces
  repeat' first
    | with_reducible assumption | with_reducible apply keep_collDenials
    | with_reducible apply keep_collDenials' (heq := by assumption) | with_reducible apply keep_foldl
    | with_reducible apply keep_foldl_fst | with_reducible apply keep_foldl_snd
    | with_reducible apply keep_foldl_snd_fst | intro _ | dsimp only | split
theorem keep_collPlaces' {r0} {r1} {r2} (s : State) (w : Who) (p : EPtr) (d : ℤ) (n : ℕ) (write : Bool) (r : CollRun) (hmem : s.mem.wf = true) (heq : (State.collPlaces s w p d n write r) = (r0, r1, r2)) : r1.mem.wf = true := by
  have := keep_collPlaces s w p d n write r hmem
  rw [heq] at this
  exact this

theorem keep_countFate (s : State) (g : ℕ) (f : Fate) (hmem : s.mem.wf = true) : (State.countFate s g f).mem.wf = true := by
  unfold State.countFate
  repeat' first
    | with_reducible assumption | with_reducible apply keep_updDie | intro _ | dsimp only | split

theorem keep_countLines (s : State) (l : Fates) (g : ℕ) (write : Bool) (v : Via) (locs : List ℕ) (hmem : s.mem.wf = true) : (State.countLines s l g write v locs).mem.wf = true := by
  unfold State.countLines
  repeat' first
    | with_reducible assumption | with_reducible apply keep_countFate | with_reducible apply keep_foldl
    | with_reducible apply keep_foldl_fst | with_reducible apply keep_foldl_snd
    | with_reducible apply keep_foldl_snd_fst | intro _ | dsimp only | split

theorem keep_consume (s : State) (g : ℕ) (t : CtxSet) (off : W64) (hmem : s.mem.wf = true) : (State.consume s g t off).mem.wf = true := by
  unfold State.consume
  repeat' first
    | with_reducible assumption | intro _ | dsimp only | split

theorem keep_collConsume (s : State) (w : Who) (off : ℕ) (hmem : s.mem.wf = true) : (State.collConsume s w off).mem.wf = true := by
  unfold State.collConsume
  repeat' first
    | with_reducible assumption | with_reducible apply keep_consume | intro _ | dsimp only | split

theorem keep_collRead (s : State) (w : Who) (f : Fates) (p : EPtr) (d : ℤ) (n : ℕ) (r : CollRun) (hmem : s.mem.wf = true) : (State.collRead s w f p d n r).2.1.mem.wf = true := by
  unfold State.collRead
  repeat' first
    | with_reducible assumption | with_reducible apply keep_collPlaces
    | with_reducible apply keep_collPlaces' (heq := by assumption) | with_reducible apply keep_countLines
    | with_reducible apply keep_collConsume | intro _ | dsimp only | split
theorem keep_collRead' {r0} {r1} {r2} (s : State) (w : Who) (f : Fates) (p : EPtr) (d : ℤ) (n : ℕ) (r : CollRun) (hmem : s.mem.wf = true) (heq : (State.collRead s w f p d n r) = (r0, r1, r2)) : r1.mem.wf = true := by
  have := keep_collRead s w f p d n r hmem
  rw [heq] at this
  exact this

theorem keep_collDone (s : State) (w : Who) (r : CollRun) (result : ℕ) (records : ℕ) (residual : ℕ) (hmem : s.mem.wf = true) : (State.collDone s w r result records residual).mem.wf = true := by
  unfold State.collDone
  repeat' first
    | with_reducible assumption | with_reducible apply keep_updSid | with_reducible apply keep_orphan
    | with_reducible apply keep_releaseAll | intro _ | dsimp only | split

theorem keep_putSlot (s : State) (w : Who) (cls : BitVec 3) (c : W64 → ClassSlot) (hmem : s.mem.wf = true) : (State.putSlot s w cls c).mem.wf = true := by
  unfold State.putSlot
  repeat' first
    | with_reducible assumption | with_reducible apply keep_updSid | intro _ | dsimp only | split

theorem keep_putColl (s : State) (w : Who) (r : Option CollRun) (hmem : s.mem.wf = true) : (State.putColl s w r).mem.wf = true := by
  unfold State.putColl
  repeat' first
    | with_reducible assumption | with_reducible apply keep_updSid | intro _ | dsimp only | split

theorem keep_clsetAct (s : State) (w : Who) (r : CollRun) (cls : BitVec 3) (hmem : s.mem.wf = true) : (State.clsetAct s w r cls).mem.wf = true := by
  unfold State.clsetAct
  repeat' first
    | with_reducible assumption | with_reducible apply keep_collIssue | with_reducible apply keep_collRead
    | with_reducible apply keep_collRead' (heq := by assumption) | with_reducible apply keep_collDone
    | with_reducible apply keep_putSlot | with_reducible apply keep_putColl | intro _ | dsimp only | split

theorem keep_deliver (s : State) (g : ℕ) (e : Entry) (v : W64) (hmem : s.mem.wf = true) : (State.deliver s g e v).mem.wf = true := by
  unfold State.deliver
  repeat' first
    | with_reducible assumption | with_reducible apply keep_updCtx | intro _ | dsimp only | split

theorem keep_headersMatch (s : State) (w : Who) (f : Fates) (sl : ClassSlot) (r : CollRun) (ua5 : List EPtr) (hmem : s.mem.wf = true) : (State.headersMatch s w f sl r ua5).2.1.mem.wf = true := by
  induction ua5 generalizing s r with
  | nil =>
    unfold State.headersMatch
    repeat' first
      | with_reducible assumption | with_reducible apply keep_collRead
      | with_reducible apply keep_collRead' (heq := by assumption) | intro _ | dsimp only | split
  | cons hd tl ih =>
    unfold State.headersMatch
    repeat' first
      | with_reducible assumption | with_reducible apply ih | with_reducible apply keep_collRead
      | with_reducible apply keep_collRead' (heq := by assumption) | intro _ | dsimp only | split
theorem keep_headersMatch' {r0} {r1} {r2} (s : State) (w : Who) (f : Fates) (sl : ClassSlot) (r : CollRun) (ua5 : List EPtr) (hmem : s.mem.wf = true) (heq : (State.headersMatch s w f sl r ua5) = (r0, r1, r2)) : r1.mem.wf = true := by
  have := keep_headersMatch s w f sl r ua5 hmem
  rw [heq] at this
  exact this

theorem keep_beginColl (s : State) (w : Who) (r : CollRun) (hmem : s.mem.wf = true) : (State.beginColl s w r).mem.wf = true := by
  unfold State.beginColl
  repeat' first
    | with_reducible assumption | with_reducible apply keep_clsetAct | with_reducible apply keep_deliver
    | with_reducible apply keep_updAct | with_reducible apply keep_releaseAll | with_reducible apply keep_collDone
    | with_reducible apply keep_collIssue | with_reducible apply keep_headersMatch
    | with_reducible apply keep_headersMatch' (heq := by assumption) | with_reducible apply keep_putColl
    | with_reducible apply keep_updDie | intro _ | dsimp only | split

theorem keep_wakeWaita (s : State) (w : Who) (xd : XReg) (code : W64) (hmem : s.mem.wf = true) : (State.wakeWaita s w xd code).mem.wf = true := by
  unfold State.wakeWaita
  repeat' first
    | with_reducible assumption | with_reducible apply keep_selfInvalidate | with_reducible apply keep_updWho
    | intro _ | dsimp only | split

theorem keep_interruptWaita (s : State) (g : ℕ) (c : CtxId) (hmem : s.mem.wf = true) : (State.interruptWaita s g c).mem.wf = true := by
  unfold State.interruptWaita
  repeat' first
    | with_reducible assumption | with_reducible apply keep_wakeWaita | intro _ | dsimp only | split

theorem keep_stopContexts (s : State) (g : ℕ) (hmem : s.mem.wf = true) : (State.stopContexts s g).mem.wf = true := by
  unfold State.stopContexts
  repeat' first
    | with_reducible assumption | with_reducible apply keep_interruptWaita | with_reducible apply keep_abandonPlay
    | with_reducible apply keep_updAct | intro _ | dsimp only | split

theorem keep_smudge (s : State) (g : ℕ) (sid : ℕ) (reason : BitVec 3) (hmem : s.mem.wf = true) : (State.smudge s g sid reason).mem.wf = true := by
  unfold State.smudge
  repeat' first
    | with_reducible assumption | with_reducible apply keep_updCore | intro _ | dsimp only | split

theorem keep_beginOut (s : State) (g : ℕ) (p : Fin 2) (hmem : s.mem.wf = true) : (State.beginOut s g p).mem.wf = true := by
  unfold State.beginOut
  repeat' first
    | with_reducible assumption | with_reducible apply keep_updAct | with_reducible apply keep_stopContexts
    | with_reducible apply keep_smudge | intro _ | dsimp only | split

theorem keep_beginPlay (s : State) (g : ℕ) (c : CtxId) (n : BitVec 3) (p : Vector W64 16) (table : Vector Token 16) (card : Bool) (hmem : s.mem.wf = true) : (State.beginPlay s g c n p table card).mem.wf = true := by
  unfold State.beginPlay
  repeat' first
    | with_reducible assumption | with_reducible apply keep_updAct | intro _ | dsimp only | split

theorem keep_beginRing (s : State) (g : ℕ) (e : Entry) (h : HReg) (role : BitVec 2) (pos : W32) (hmem : s.mem.wf = true) : Begun.keeps (State.beginRing s g e h role pos) := by
  unfold State.beginRing
  repeat' first
    | with_reducible assumption | with_reducible apply Begun.keeps_complete (heq := by assumption)
    | with_reducible apply Begun.keeps_of_complete | with_reducible apply Begun.keeps_of_run | intro _ | dsimp only
    | split

theorem keep_keepHint (s : State) (d : ℕ) (line : ℕ) (pte : BitVec 20) (card : Option ℕ) (hmem : s.mem.wf = true) : (State.keepHint s d line pte card).2.mem.wf = true := by
  unfold State.keepHint
  repeat' first
    | with_reducible assumption | with_reducible apply keep_choose
    | with_reducible apply keep_choose' (heq := by assumption) | with_reducible apply keep_updDie | intro _
    | dsimp only | split
theorem keep_keepHint' {r0} {r1} (s : State) (d : ℕ) (line : ℕ) (pte : BitVec 20) (card : Option ℕ) (hmem : s.mem.wf = true) (heq : (State.keepHint s d line pte card) = (r0, r1)) : r1.mem.wf = true := by
  have := keep_keepHint s d line pte card hmem
  rw [heq] at this
  exact this

theorem keep_unkeepLine (s : State) (line : ℕ) (hmem : s.mem.wf = true) : (State.unkeepLine s line).mem.wf = true := by
  unfold State.unkeepLine
  repeat' first
    | with_reducible assumption | with_reducible apply keep_updDie | intro _ | dsimp only | split

theorem keep_hintLine (s : State) (g : ℕ) (kind : HintKind) (t : Token) (need : BitVec 4) (card : Option ℕ) (first : ℕ) (last : ℕ) (hmem : s.mem.wf = true) : (State.hintLine s g kind t need card first last).2.mem.wf = true := by
  unfold State.hintLine
  repeat' first
    | with_reducible assumption | with_reducible apply keep_homeRead | with_reducible apply keep_installRo
    | with_reducible apply keep_keepHint | with_reducible apply keep_keepHint' (heq := by assumption)
    | with_reducible apply keep_unkeepLine | intro _ | dsimp only | split
theorem keep_hintLine' {r0} {r1} (s : State) (g : ℕ) (kind : HintKind) (t : Token) (need : BitVec 4) (card : Option ℕ) (first : ℕ) (last : ℕ) (hmem : s.mem.wf = true) (heq : (State.hintLine s g kind t need card first last) = (r0, r1)) : r1.mem.wf = true := by
  have := keep_hintLine s g kind t need card first last hmem
  rw [heq] at this
  exact this

theorem keep_hintLines (s : State) (g : ℕ) (kind : HintKind) (t : Token) (need : BitVec 4) (card : Option ℕ) (o : ℕ) (stop : ℕ) (ua8 : ℕ) (hmem : s.mem.wf = true) : (State.hintLines s g kind t need card o stop ua8).2.mem.wf = true := by
  induction ua8 generalizing s o with
  | zero =>
    unfold State.hintLines
    repeat' first
      | with_reducible assumption | with_reducible apply keep_hintLine
      | with_reducible apply keep_hintLine' (heq := by assumption) | intro _ | dsimp only | split
  | succ n ih =>
    unfold State.hintLines
    repeat' first
      | with_reducible assumption | with_reducible apply ih | with_reducible apply keep_hintLine
      | with_reducible apply keep_hintLine' (heq := by assumption) | intro _ | dsimp only | split
theorem keep_hintLines' {r0} {r1} (s : State) (g : ℕ) (kind : HintKind) (t : Token) (need : BitVec 4) (card : Option ℕ) (o : ℕ) (stop : ℕ) (ua8 : ℕ) (hmem : s.mem.wf = true) (heq : (State.hintLines s g kind t need card o stop ua8) = (r0, r1)) : r1.mem.wf = true := by
  have := keep_hintLines s g kind t need card o stop ua8 hmem
  rw [heq] at this
  exact this

theorem keep_hint (s : State) (g : ℕ) (e : Entry) (kind : HintKind) (hmem : s.mem.wf = true) : (State.hint s g e kind).2.mem.wf = true := by
  unfold State.hint
  repeat' first
    | with_reducible assumption | with_reducible apply keep_hintLines
    | with_reducible apply keep_hintLines' (heq := by assumption) | intro _ | dsimp only | split
theorem keep_hint' {r0} {r1} (s : State) (g : ℕ) (e : Entry) (kind : HintKind) (hmem : s.mem.wf = true) (heq : (State.hint s g e kind) = (r0, r1)) : r1.mem.wf = true := by
  have := keep_hint s g e kind hmem
  rw [heq] at this
  exact this

theorem keep_beginStream (s : State) (g : ℕ) (e : Entry) (hmem : s.mem.wf = true) : Begun.keeps (State.beginStream s g e) := by
  unfold State.beginStream
  repeat' first
    | with_reducible assumption | with_reducible apply keep_setRing | with_reducible apply keep_beginRing
    | with_reducible apply keep_hint | with_reducible apply keep_hint' (heq := by assumption)
    | with_reducible apply keep_updCore | with_reducible apply Begun.keeps_complete (heq := by assumption)
    | with_reducible apply Begun.keeps_of_complete | with_reducible apply Begun.keeps_of_run | intro _ | dsimp only
    | split

theorem keep_makeCode (s : State) (c : Card) (g : ℕ) (hmem : s.mem.wf = true) : OptTS.keeps (State.makeCode s c g) := by
  unfold State.makeCode
  repeat' first
    | with_reducible assumption | with_reducible apply keep_newEntry | with_reducible apply keep_pinRecord
    | with_reducible apply Exc.keeps_ok (heq := by assumption) | with_reducible apply Exc.keeps_of_ok
    | with_reducible apply Exc.keeps_of_error | with_reducible apply OptTS.keeps_some (heq := by assumption)
    | with_reducible apply OptTS.keeps_of_some | with_reducible apply OptTS.keeps_of_none | intro _ | dsimp only
    | split

theorem keep_bindParty (s : State) (n : ℕ) (g : ℕ) (hmem : s.mem.wf = true) : (State.bindParty s n g).mem.wf = true := by
  unfold State.bindParty
  repeat' first
    | with_reducible assumption | with_reducible apply keep_makeCode | with_reducible apply keep_updCore
    | with_reducible apply keep_holderBit | with_reducible apply keep_dropSaved
    | with_reducible apply OptTS.keeps_some (heq := by assumption) | with_reducible apply OptTS.keeps_of_some
    | with_reducible apply OptTS.keeps_of_none | with_reducible apply keep_foldl
    | with_reducible apply keep_foldl_fst | with_reducible apply keep_foldl_snd
    | with_reducible apply keep_foldl_snd_fst | intro _ | dsimp only | split

theorem keep_pushStore (s : State) (w : Who) (bytes : List (ℕ × Byte)) (poison : Bool) (t : Option Token) (units : optParam (List ℕ) []) (bits : optParam (List ℕ) []) (marks : optParam (List ℕ) []) (hmem : s.mem.wf = true) : (State.pushStore s w bytes poison t units bits marks).mem.wf = true := by
  unfold State.pushStore
  repeat' first
    | with_reducible assumption | with_reducible apply keep_setCore | with_reducible apply keep_flyIn | intro _
    | dsimp only | split

theorem keep_bufferStore (s : State) (w : Who) (bytes : List (ℕ × Byte)) (poison : Bool) (t : Option Token) (split : optParam Bool Bool.false) (hmem : s.mem.wf = true) : (State.bufferStore s w bytes poison t split).mem.wf = true := by
  unfold State.bufferStore
  repeat' first
    | with_reducible assumption | with_reducible apply keep_pushStore | with_reducible apply keep_foldl
    | with_reducible apply keep_foldl_fst | with_reducible apply keep_foldl_snd
    | with_reducible apply keep_foldl_snd_fst | intro _ | dsimp only | split

theorem keep_bumpCounter (s : State) (loc : ℕ) (hmem : s.mem.wf = true) : (State.bumpCounter s loc).mem.wf = true := by
  unfold State.bumpCounter
  repeat' first
    | with_reducible assumption | with_reducible apply keep_writeHome | intro _ | dsimp only | split

theorem keep_bumpInc (s : State) (q : Req) (hmem : s.mem.wf = true) : (State.bumpInc s q).mem.wf = true := by
  unfold State.bumpInc
  repeat' first
    | with_reducible assumption | with_reducible apply keep_updDie | intro _ | dsimp only | split

theorem keep_startRecording (s : State) (g : ℕ) (n : BitVec 3) (bycard : Bool) (card : W16) (hmem : s.mem.wf = true) : (State.startRecording s g n bycard card).mem.wf = true := by
  unfold State.startRecording
  repeat' first
    | with_reducible assumption | with_reducible apply keep_updAct | with_reducible apply keep_updCore | intro _
    | dsimp only | split

theorem keep_cardRecording (s : State) (g : ℕ) (c : Card) (hmem : s.mem.wf = true) : (State.cardRecording s g c).mem.wf = true := by
  unfold State.cardRecording
  repeat' first
    | with_reducible assumption | with_reducible apply keep_updAct | with_reducible apply keep_startRecording
    | intro _ | dsimp only | split

theorem keep_lineFates (s : State) (l : Fates) (g : ℕ) (write : Bool) (v : Via) (locs : List ℕ) (hmem : s.mem.wf = true) : (State.lineFates s l g write v locs).2.mem.wf = true := by
  unfold State.lineFates
  repeat' first
    | with_reducible assumption | with_reducible apply keep_countLines | intro _ | dsimp only | split
theorem keep_lineFates' {r0} {r1} (s : State) (l : Fates) (g : ℕ) (write : Bool) (v : Via) (locs : List ℕ) (hmem : s.mem.wf = true) (heq : (State.lineFates s l g write v locs) = (r0, r1)) : r1.mem.wf = true := by
  have := keep_lineFates s l g write v locs hmem
  rw [heq] at this
  exact this

theorem keep_collModify (s : State) (w : Who) (l : Fates) (p : EPtr) (d : ℤ) (n : ℕ) (f : ℕ → ℕ) (r : CollRun) (hmem : s.mem.wf = true) : (State.collModify s w l p d n f r).1.mem.wf = true := by
  unfold State.collModify
  repeat' first
    | with_reducible assumption | with_reducible apply keep_collPlaces
    | with_reducible apply keep_collPlaces' (heq := by assumption) | with_reducible apply keep_lineFates
    | with_reducible apply keep_lineFates' (heq := by assumption) | with_reducible apply keep_collConsume
    | with_reducible apply keep_engineWrite | intro _ | dsimp only | split
theorem keep_collModify' {r0} {r1} (s : State) (w : Who) (l : Fates) (p : EPtr) (d : ℤ) (n : ℕ) (f : ℕ → ℕ) (r : CollRun) (hmem : s.mem.wf = true) (heq : (State.collModify s w l p d n f r) = (r0, r1)) : r0.mem.wf = true := by
  have := keep_collModify s w l p d n f r hmem
  rw [heq] at this
  exact this

theorem keep_cellOp (s : State) (w : Who) (f : Fates) (sl : ClassSlot) (p : EPtr) (i : ℕ) (c : Cell) (r : CollRun) (hmem : s.mem.wf = true) : (State.cellOp s w f sl p i c r).1.mem.wf = true := by
  unfold State.cellOp
  repeat' first
    | with_reducible assumption | with_reducible apply keep_collModify
    | with_reducible apply keep_collModify' (heq := by assumption) | intro _ | dsimp only | split
theorem keep_cellOp' {r0} {r1} (s : State) (w : Who) (f : Fates) (sl : ClassSlot) (p : EPtr) (i : ℕ) (c : Cell) (r : CollRun) (hmem : s.mem.wf = true) (heq : (State.cellOp s w f sl p i c r) = (r0, r1)) : r0.mem.wf = true := by
  have := keep_cellOp s w f sl p i c r hmem
  rw [heq] at this
  exact this

theorem keep_upset (s : State) (f : StepFault) (rows : List ℕ) (cols : List ℕ) (hmem : s.mem.wf = true) : (State.upset s f rows cols).2.mem.wf = true := by
  unfold State.upset
  repeat' first
    | with_reducible assumption | with_reducible apply keep_choose
    | with_reducible apply keep_choose' (heq := by assumption) | intro _ | dsimp only | split
theorem keep_upset' {r0} {r1} (s : State) (f : StepFault) (rows : List ℕ) (cols : List ℕ) (hmem : s.mem.wf = true) (heq : (State.upset s f rows cols) = (r0, r1)) : r1.mem.wf = true := by
  have := keep_upset s f rows cols hmem
  rw [heq] at this
  exact this

theorem keep_checkStep (s : State) (v : StepVals) (ta : ElemTy) (tb : ElemTy) (cols : ℕ) (rm : RMode) (f : StepFault) (hmem : s.mem.wf = true) : (State.checkStep s v ta tb cols rm f).2.mem.wf = true := by
  unfold State.checkStep
  repeat' first
    | with_reducible assumption | with_reducible apply keep_upset
    | with_reducible apply keep_upset' (heq := by assumption) | intro _ | dsimp only | split
theorem keep_checkStep' {r0} {r1} (s : State) (v : StepVals) (ta : ElemTy) (tb : ElemTy) (cols : ℕ) (rm : RMode) (f : StepFault) (hmem : s.mem.wf = true) (heq : (State.checkStep s v ta tb cols rm f) = (r0, r1)) : r1.mem.wf = true := by
  have := keep_checkStep s v ta tb cols rm f hmem
  rw [heq] at this
  exact this

theorem keep_claimWrites (s : State) (g : ℕ) (l : List (List (ElemAt × Places))) (hmem : s.mem.wf = true) : (State.claimWrites s g l).mem.wf = true := by
  unfold State.claimWrites
  repeat' first
    | with_reducible assumption | with_reducible apply keep_updAct | intro _ | dsimp only | split

theorem keep_clearBarPend (s : State) (sc : Scope) (b : BitVec 3) (hmem : s.mem.wf = true) : (State.clearBarPend s sc b).mem.wf = true := by
  unfold State.clearBarPend
  repeat' first
    | with_reducible assumption | with_reducible apply keep_updMe | intro _ | dsimp only | split

theorem keep_collWrote (s : State) (w : Who) (f : Fates) (p : EPtr) (d : ℤ) (n : ℕ) (r : CollRun) (hmem : s.mem.wf = true) : (State.collWrote s w f p d n r).1.mem.wf = true := by
  unfold State.collWrote
  repeat' first
    | with_reducible assumption | with_reducible apply keep_collPlaces
    | with_reducible apply keep_collPlaces' (heq := by assumption) | with_reducible apply keep_lineFates
    | with_reducible apply keep_lineFates' (heq := by assumption) | intro _ | dsimp only | split
theorem keep_collWrote' {r0} {r1} (s : State) (w : Who) (f : Fates) (p : EPtr) (d : ℤ) (n : ℕ) (r : CollRun) (hmem : s.mem.wf = true) (heq : (State.collWrote s w f p d n r) = (r0, r1)) : r0.mem.wf = true := by
  have := keep_collWrote s w f p d n r hmem
  rw [heq] at this
  exact this

theorem keep_clearStep (s : State) (w : Who) (sl : ClassSlot) (r : CollRun) (hmem : s.mem.wf = true) : (State.clearStep s w sl r).mem.wf = true := by
  unfold State.clearStep
  repeat' first
    | with_reducible assumption | with_reducible apply keep_collIssue | with_reducible apply keep_collWrote
    | with_reducible apply keep_collWrote' (heq := by assumption) | with_reducible apply keep_collDone
    | with_reducible apply keep_putColl | intro _ | dsimp only | split

theorem keep_clobber (s : State) (dst : ℕ) (n : ℕ) (hmem : s.mem.wf = true) : (State.clobber s dst n).mem.wf = true := by
  unfold State.clobber
  exact keep_foldl _ _ _ hmem fun s a h => keep_invalidate s a h

theorem keep_endRecording (s : State) (g : ℕ) (num : ℕ) (hmem : s.mem.wf = true) : (State.endRecording s g num).mem.wf = true := by
  unfold State.endRecording
  repeat' first
    | with_reducible assumption | with_reducible apply keep_setCore | intro _ | dsimp only | split

theorem keep_closeRecording (s : State) (g : ℕ) (c : CtxId) (hmem : s.mem.wf = true) : (State.closeRecording s g c).mem.wf = true := by
  unfold State.closeRecording
  repeat' first
    | with_reducible assumption | with_reducible apply keep_updAct | with_reducible apply keep_endRecording
    | intro _ | dsimp only | split

theorem keep_clsetTable (s : State) (w : Who) (r : CollRun) (cls : BitVec 3) (hmem : s.mem.wf = true) : (State.clsetTable s w r cls).mem.wf = true := by
  unfold State.clsetTable
  repeat' first
    | with_reducible assumption | with_reducible apply keep_collIssue | with_reducible apply keep_collRead
    | with_reducible apply keep_collRead' (heq := by assumption) | with_reducible apply keep_collDone
    | with_reducible apply keep_putSlot | intro _ | dsimp only | split

theorem keep_exchangeFail (s : State) (w : Who) (r : CollRun) (hmem : s.mem.wf = true) : (State.exchangeFail s w r).mem.wf = true := by
  unfold State.exchangeFail
  repeat' first
    | with_reducible assumption | with_reducible apply keep_abortExchange | with_reducible apply keep_putColl
    | with_reducible apply keep_orphan | intro _ | dsimp only | split

theorem keep_recvStep (s : State) (w : Who) (sl : ClassSlot) (r : CollRun) (hmem : s.mem.wf = true) : (State.recvStep s w sl r).mem.wf = true := by
  unfold State.recvStep
  repeat' first
    | with_reducible assumption | with_reducible apply keep_collIssue | with_reducible apply keep_collWrote
    | with_reducible apply keep_collWrote' (heq := by assumption) | with_reducible apply keep_exchangeFail
    | with_reducible apply keep_putColl | intro _ | dsimp only | split

theorem keep_transferFails (s : State) (w : Who) (sl : ClassSlot) (r : CollRun) (hmem : s.mem.wf = true) : (State.transferFails s w sl r).mem.wf = true := by
  unfold State.transferFails
  repeat' first
    | with_reducible assumption | with_reducible apply keep_collDone | with_reducible apply keep_abortExchange
    | with_reducible apply keep_exchangeFail | intro _ | dsimp only | split

theorem keep_sendStep (s : State) (w : Who) (sl : ClassSlot) (r : CollRun) (partner : ℕ × ℕ) (hmem : s.mem.wf = true) : (State.sendStep s w sl r partner).mem.wf = true := by
  unfold State.sendStep
  repeat' first
    | with_reducible assumption | with_reducible apply keep_transferFails | with_reducible apply keep_collIssue
    | with_reducible apply keep_collRead | with_reducible apply keep_collRead' (heq := by assumption)
    | with_reducible apply keep_updSid | with_reducible apply keep_putColl | intro _ | dsimp only | split

theorem keep_transferStep (s : State) (w : Who) (sl : ClassSlot) (r : CollRun) (hmem : s.mem.wf = true) : (State.transferStep s w sl r).mem.wf = true := by
  unfold State.transferStep
  repeat' first
    | with_reducible assumption | with_reducible apply keep_recvStep | with_reducible apply keep_exchangeFail
    | with_reducible apply keep_sendStep | intro _ | dsimp only | split

theorem keep_zeroStep (s : State) (w : Who) (sl : ClassSlot) (r : CollRun) (hmem : s.mem.wf = true) : (State.zeroStep s w sl r).mem.wf = true := by
  unfold State.zeroStep
  repeat' first
    | with_reducible assumption | with_reducible apply keep_collIssue | with_reducible apply keep_collWrote
    | with_reducible apply keep_collWrote' (heq := by assumption) | with_reducible apply keep_putColl
    | with_reducible apply keep_collDone | intro _ | dsimp only | split

theorem keep_insertStep (s : State) (w : Who) (sl : ClassSlot) (r : CollRun) (hmem : s.mem.wf = true) : (State.insertStep s w sl r).mem.wf = true := by
  unfold State.insertStep
  repeat' first
    | with_reducible assumption | with_reducible apply keep_collIssue | with_reducible apply keep_collRead
    | with_reducible apply keep_collRead' (heq := by assumption) | with_reducible apply keep_putColl
    | with_reducible apply keep_cellOp | with_reducible apply keep_cellOp' (heq := by assumption) | intro _
    | dsimp only | split

theorem keep_readCell (s : State) (w : Who) (f : Fates) (sl : ClassSlot) (p : EPtr) (i : ℕ) (r : CollRun) (hmem : s.mem.wf = true) : (State.readCell s w f sl p i r).2.1.mem.wf = true := by
  unfold State.readCell
  repeat' first
    | with_reducible assumption | with_reducible apply keep_collRead
    | with_reducible apply keep_collRead' (heq := by assumption) | intro _ | dsimp only | split
theorem keep_readCell' {r0} {r1} {r2} (s : State) (w : Who) (f : Fates) (sl : ClassSlot) (p : EPtr) (i : ℕ) (r : CollRun) (hmem : s.mem.wf = true) (heq : (State.readCell s w f sl p i r) = (r0, r1, r2)) : r1.mem.wf = true := by
  have := keep_readCell s w f sl p i r hmem
  rw [heq] at this
  exact this

theorem keep_subStep (s : State) (w : Who) (sl : ClassSlot) (r : CollRun) (hmem : s.mem.wf = true) : (State.subStep s w sl r).mem.wf = true := by
  unfold State.subStep
  repeat' first
    | with_reducible assumption | with_reducible apply keep_collIssue | with_reducible apply keep_readCell
    | with_reducible apply keep_readCell' (heq := by assumption) | with_reducible apply keep_putColl
    | with_reducible apply keep_cellOp | with_reducible apply keep_cellOp' (heq := by assumption) | intro _
    | dsimp only | split

theorem keep_netOp (s : State) (w : Who) (f : Fates) (p : EPtr) (n : W64) (r : CollRun) (hmem : s.mem.wf = true) : (State.netOp s w f p n r).1.mem.wf = true := by
  unfold State.netOp
  repeat' first
    | with_reducible assumption | with_reducible apply keep_collModify
    | with_reducible apply keep_collModify' (heq := by assumption) | intro _ | dsimp only | split
theorem keep_netOp' {r0} {r1} (s : State) (w : Who) (f : Fates) (p : EPtr) (n : W64) (r : CollRun) (hmem : s.mem.wf = true) (heq : (State.netOp s w f p n r) = (r0, r1)) : r0.mem.wf = true := by
  have := keep_netOp s w f p n r hmem
  rw [heq] at this
  exact this

theorem keep_netStep (s : State) (w : Who) (r : CollRun) (hmem : s.mem.wf = true) : (State.netStep s w r).mem.wf = true := by
  unfold State.netStep
  repeat' first
    | with_reducible assumption | with_reducible apply keep_collIssue | with_reducible apply keep_collRead
    | with_reducible apply keep_collRead' (heq := by assumption) | with_reducible apply keep_netOp
    | with_reducible apply keep_netOp' (heq := by assumption) | with_reducible apply keep_collDone | intro _
    | dsimp only | split

theorem keep_scanStep (s : State) (w : Who) (sl : ClassSlot) (r : CollRun) (hmem : s.mem.wf = true) : (State.scanStep s w sl r).mem.wf = true := by
  unfold State.scanStep
  repeat' first
    | with_reducible assumption | with_reducible apply keep_collIssue | with_reducible apply keep_readCell
    | with_reducible apply keep_readCell' (heq := by assumption) | with_reducible apply keep_putColl | intro _
    | dsimp only | split

theorem keep_peelStep (s : State) (w : Who) (sl : ClassSlot) (r : CollRun) (hmem : s.mem.wf = true) : (State.peelStep s w sl r).mem.wf = true := by
  unfold State.peelStep
  simp only []
  split
  repeat' first
    | with_reducible assumption | with_reducible apply keep_putColl | with_reducible apply keep_collIssue
    | with_reducible apply keep_readCell | with_reducible apply keep_readCell' (heq := by assumption)
    | with_reducible apply keep_collDone | with_reducible apply keep_collWrote
    | with_reducible apply keep_collWrote' (heq := by assumption) | with_reducible apply keep_cellOp
    | with_reducible apply keep_cellOp' (heq := by assumption) | with_reducible apply keep_netOp
    | with_reducible apply keep_netOp' (heq := by assumption) | intro _ | dsimp only | split


theorem keep_countStep (s : State) (w : Who) (sl : ClassSlot) (r : CollRun) (hmem : s.mem.wf = true) : (State.countStep s w sl r).mem.wf = true := by
  unfold State.countStep
  repeat' first
    | with_reducible assumption | with_reducible apply keep_collIssue | with_reducible apply keep_readCell
    | with_reducible apply keep_readCell' (heq := by assumption) | with_reducible apply keep_putColl
    | with_reducible apply keep_collDone | intro _ | dsimp only | split

theorem keep_collStep (s : State) (w : Who) (t : CtxSet) (r : CollRun) (hmem : s.mem.wf = true) : (State.collStep s w t r).mem.wf = true := by
  unfold State.collStep
  repeat' first
    | with_reducible assumption | with_reducible apply keep_transferStep | with_reducible apply keep_zeroStep
    | with_reducible apply keep_clearStep | with_reducible apply keep_clsetTable
    | with_reducible apply keep_insertStep | with_reducible apply keep_subStep | with_reducible apply keep_netStep
    | with_reducible apply keep_scanStep | with_reducible apply keep_peelStep | with_reducible apply keep_countStep
    | intro _ | dsimp only | split

theorem keep_copyBytes (s : State) (src : ℕ) (dst : ℕ) (n : ℕ) (hmem : s.mem.wf = true) : (State.copyBytes s src dst n).mem.wf = true := by
  unfold State.copyBytes
  apply Memory.wf_copy
  exact keep_clobber _ _ _ hmem

theorem keep_countAged (s : State) (home : ℕ) (hmem : s.mem.wf = true) : (State.countAged s home).mem.wf = true := by
  unfold State.countAged
  repeat' first
    | with_reducible assumption | with_reducible apply keep_updDie | intro _ | dsimp only | split

theorem keep_countFetch (s : State) (g : ℕ) (t : Token) (a : ℕ) (hmem : s.mem.wf = true) : (State.countFetch s g t a).mem.wf = true := by
  unfold State.countFetch
  repeat' first
    | with_reducible assumption | with_reducible apply keep_countFate | intro _ | dsimp only | split

theorem keep_countOps (s : State) (g : ℕ) (f : Fates) (l : List OpRows) (hmem : s.mem.wf = true) : (State.countOps s g f l).mem.wf = true := by
  unfold State.countOps
  repeat' first
    | with_reducible assumption | with_reducible apply keep_countLines | with_reducible apply keep_foldl
    | with_reducible apply keep_foldl_fst | with_reducible apply keep_foldl_snd
    | with_reducible apply keep_foldl_snd_fst | intro _ | dsimp only | split

theorem keep_wx (s : State) (r : XReg) (v : W64) (tag : Tag) (pois : Bool) (hmem : s.mem.wf = true) : (State.wx s r v tag pois).mem.wf = true := by
  unfold State.wx
  repeat' first
    | with_reducible assumption | with_reducible apply keep_updMe | intro _ | dsimp only | split

theorem keep_csrAct (s : State) (op : CsrOp) (rd : XReg) (csr : CsrName) (src : W64) (srcZero : Bool) (mark : Bool) (hmem : s.mem.wf = true) : (State.csrAct s op rd csr src srcZero mark).mem.wf = true := by
  unfold State.csrAct
  repeat' first
    | with_reducible assumption | with_reducible apply keep_updMe | with_reducible apply keep_wx | intro _
    | dsimp only | split

theorem keep_failOf (s : State) (w : Who) (f : Fate) (hmem : s.mem.wf = true) : (State.failOf s w f).mem.wf = true := by
  unfold State.failOf
  repeat' first
    | with_reducible assumption | with_reducible apply keep_addFail | intro _ | dsimp only | split

theorem keep_failOp (s : State) (id : ℕ) (o : HomeOp) (f : Fate) (hmem : s.mem.wf = true) : (State.failOp s id o f).mem.wf = true := by
  unfold State.failOp
  repeat' first
    | with_reducible assumption | with_reducible apply keep_failOf | with_reducible apply keep_countFate
    | with_reducible apply keep_performedPte | with_reducible apply keep_setOp | intro _ | dsimp only | split

theorem keep_failReq (s : State) (id : ℕ) (r : Req) (f : Fate) (hmem : s.mem.wf = true) : (State.failReq s id r f).mem.wf = true := by
  unfold State.failReq
  repeat' first
    | with_reducible assumption | with_reducible apply keep_endReq | with_reducible apply keep_countFate
    | with_reducible apply keep_fillFetch | with_reducible apply keep_fillLoad | with_reducible apply keep_lineFate
    | with_reducible apply keep_dropStore | with_reducible apply keep_failOf | with_reducible apply keep_failOp
    | intro _ | dsimp only | split

theorem keep_lose (s : State) (id : ℕ) (q : Req) (hmem : s.mem.wf = true) : (State.lose s id q).mem.wf = true := by
  unfold State.lose
  repeat' first
    | with_reducible assumption | with_reducible apply keep_bumpInc | with_reducible apply keep_failReq
    | with_reducible apply keep_dropReq | with_reducible apply keep_setReq | intro _ | dsimp only | split

theorem keep_cutOff (s : State) (id : ℕ) (fenced : Bool) (hmem : s.mem.wf = true) : (State.cutOff s id fenced).mem.wf = true := by
  unfold State.cutOff
  repeat' first
    | with_reducible assumption | with_reducible apply keep_dropReq | with_reducible apply keep_failReq
    | with_reducible apply keep_lose | intro _ | dsimp only | split

theorem keep_denialRecords (s : State) (w : Who) (t : Token) (code : ℕ) (offs : List ℕ) (hmem : s.mem.wf = true) : (State.denialRecords s w t code offs).mem.wf = true := by
  unfold State.denialRecords
  repeat' first
    | with_reducible assumption | with_reducible apply keep_denialRecord | with_reducible apply keep_foldl
    | with_reducible apply keep_foldl_fst | with_reducible apply keep_foldl_snd
    | with_reducible apply keep_foldl_snd_fst | intro _ | dsimp only | split

theorem keep_putStore (s : State) (g : ℕ) (e : StoreEnt) (hmem : s.mem.wf = true) : (State.putStore s g e).mem.wf = true := by
  unfold State.putStore
  repeat' first
    | with_reducible assumption | with_reducible apply keep_performedPte | with_reducible apply keep_dropStore
    | with_reducible apply keep_updCore | intro _ | dsimp only | split

theorem keep_own (s : State) (g : ℕ) (e : StoreEnt) (hmem : s.mem.wf = true) : (State.own s g e).mem.wf = true := by
  unfold State.own
  repeat' first
    | with_reducible assumption | with_reducible apply keep_updCore | with_reducible apply keep_foldl
    | with_reducible apply keep_foldl_fst | with_reducible apply keep_foldl_snd
    | with_reducible apply keep_foldl_snd_fst | intro _ | dsimp only | split

theorem keep_storeAtHome (s : State) (g : ℕ) (e : StoreEnt) (hmem : s.mem.wf = true) : (State.storeAtHome s g e).mem.wf = true := by
  unfold State.storeAtHome
  repeat' first
    | with_reducible assumption | with_reducible apply keep_splitStore
    | with_reducible apply keep_splitStore' (heq := by assumption) | with_reducible apply keep_putStore
    | with_reducible apply keep_performStore | with_reducible apply keep_own | with_reducible apply keep_updCore
    | intro _ | dsimp only | split

theorem keep_storeFails (s : State) (g : ℕ) (e : StoreEnt) (f : Fate) (hmem : s.mem.wf = true) : (State.storeFails s g e f).mem.wf = true := by
  unfold State.storeFails
  repeat' first
    | with_reducible assumption | with_reducible apply keep_performedPte | with_reducible apply keep_dropStore
    | with_reducible apply keep_failOf | with_reducible apply keep_countFate | intro _ | dsimp only | split

theorem keep_depart (s : State) (g : ℕ) (e : StoreEnt) (hmem : s.mem.wf = true) : (State.depart s g e).mem.wf = true := by
  unfold State.depart
  repeat' first
    | with_reducible assumption | with_reducible apply keep_updCore | with_reducible apply keep_send
    | with_reducible apply keep_send' (heq := by assumption) | with_reducible apply keep_storeAtHome
    | with_reducible apply keep_storeFails | intro _ | dsimp only | split

theorem keep_matDone (s : State) (g : ℕ) (e : Entry) (fl : BitVec 5) (mst : BitVec 8) (fail : FailRec) (old : List Token) (hmem : s.mem.wf = true) : (State.matDone s g e fl mst fail old).mem.wf = true := by
  unfold State.matDone
  repeat' first
    | with_reducible assumption | with_reducible apply keep_releaseAll | with_reducible apply keep_updAct | intro _
    | dsimp only | split

theorem keep_nestDone (s : State) (g : ℕ) (num : ℕ) (hmem : s.mem.wf = true) : (State.nestDone s g num).mem.wf = true := by
  unfold State.nestDone
  repeat' first
    | with_reducible assumption | with_reducible apply keep_matDone | with_reducible apply keep_updAct | intro _
    | dsimp only | split

theorem keep_drainEnd (s : State) (g : ℕ) (j : DrainJob) (hmem : s.mem.wf = true) : (State.drainEnd s g j).mem.wf = true := by
  unfold State.drainEnd
  repeat' first
    | with_reducible assumption | with_reducible apply keep_updAct | with_reducible apply keep_nestDone
    | with_reducible apply keep_matDone | intro _ | dsimp only | split

theorem keep_dropFetch (s : State) (g : ℕ) (hmem : s.mem.wf = true) : (State.dropFetch s g).mem.wf = true := by
  unfold State.dropFetch
  repeat' first
    | with_reducible assumption | with_reducible apply keep_updCore | intro _ | dsimp only | split

theorem keep_dropGalley (s : State) (g : ℕ) (n : BitVec 3) (hmem : s.mem.wf = true) : (State.dropGalley s g n).mem.wf = true := by
  unfold State.dropGalley
  repeat' first
    | with_reducible assumption | with_reducible apply keep_updCore | with_reducible apply keep_savedBy
    | with_reducible apply keep_foldl | with_reducible apply keep_foldl_fst | with_reducible apply keep_foldl_snd
    | with_reducible apply keep_foldl_snd_fst | intro _ | dsimp only | split

theorem keep_dropGranule (s : State) (g : ℕ) (sid : ℕ) (gr : Granule) (hmem : s.mem.wf = true) : (State.dropGranule s g sid gr).mem.wf = true := by
  unfold State.dropGranule
  repeat' first
    | with_reducible assumption | with_reducible apply keep_leaveReqs | intro _ | dsimp only | split

theorem keep_dropOutside (s : State) (g : ℕ) (t : CtxSet) (hmem : s.mem.wf = true) : (State.dropOutside s g t).mem.wf = true := by
  unfold State.dropOutside
  repeat' first
    | with_reducible assumption | with_reducible apply keep_unannounce | with_reducible apply keep_abortExchange
    | with_reducible apply keep_dropGranule | with_reducible apply keep_orphan | with_reducible apply keep_foldl
    | with_reducible apply keep_foldl_fst | with_reducible apply keep_foldl_snd
    | with_reducible apply keep_foldl_snd_fst | intro _ | dsimp only | split

theorem keep_dropPost (s : State) (hmem : s.mem.wf = true) : (State.dropPost s).mem.wf = true := by
  unfold State.dropPost
  repeat' first
    | with_reducible assumption | intro _ | dsimp only | split

theorem keep_flyOut (s : State) (d : ℕ) (e : BitVec 20) (hmem : s.mem.wf = true) : (State.flyOut s d e).mem.wf = true := by
  unfold State.flyOut
  repeat' first
    | with_reducible assumption | with_reducible apply keep_settlePin | with_reducible apply keep_updPin | intro _
    | dsimp only | split

theorem keep_dropRequests (s : State) (p : Req → Bool) (hmem : s.mem.wf = true) : (State.dropRequests s p).mem.wf = true := by
  unfold State.dropRequests
  repeat' first
    | with_reducible assumption | with_reducible apply keep_freeTagOf | with_reducible apply keep_flyOut
    | with_reducible apply keep_foldl | with_reducible apply keep_foldl_fst | with_reducible apply keep_foldl_snd
    | with_reducible apply keep_foldl_snd_fst | intro _ | dsimp only | split

theorem keep_flyOutAll (s : State) (d : ℕ) (l : List (Option (BitVec 20))) (hmem : s.mem.wf = true) : (State.flyOutAll s d l).mem.wf = true := by
  unfold State.flyOutAll
  repeat' first
    | with_reducible assumption | with_reducible apply keep_flyOut | with_reducible apply keep_foldl
    | with_reducible apply keep_foldl_fst | with_reducible apply keep_foldl_snd
    | with_reducible apply keep_foldl_snd_fst | intro _ | dsimp only | split

theorem keep_dropTraffic (s : State) (tag : W16) (hmem : s.mem.wf = true) : (State.dropTraffic s tag).mem.wf = true := by
  unfold State.dropTraffic
  repeat' first
    | with_reducible assumption | with_reducible apply keep_dropRequests | with_reducible apply keep_flyOutAll
    | with_reducible apply keep_updCore | with_reducible apply keep_foldl | with_reducible apply keep_foldl_fst
    | with_reducible apply keep_foldl_snd | with_reducible apply keep_foldl_snd_fst | intro _ | dsimp only | split

theorem keep_dueByte (s : State) (g : ℕ) (path : Path) (loc : ℕ) (t : Option Token) (hmem : s.mem.wf = true) : (State.dueByte s g path loc t).1.mem.wf = true := by
  unfold State.dueByte
  repeat' first
    | with_reducible assumption | with_reducible apply keep_performedPte | with_reducible apply keep_afterHome
    | intro _ | dsimp only | split
theorem keep_dueByte' {r0} {r1} (s : State) (g : ℕ) (path : Path) (loc : ℕ) (t : Option Token) (hmem : s.mem.wf = true) (heq : (State.dueByte s g path loc t) = (r0, r1)) : r0.mem.wf = true := by
  have := keep_dueByte s g path loc t hmem
  rw [heq] at this
  exact this

theorem keep_dueBytes (s : State) (g : ℕ) (ua2 : List LdByte) (ua3 : ℕ) (hmem : s.mem.wf = true) : (State.dueBytes s g ua2 ua3).1.mem.wf = true := by
  induction ua2 generalizing s ua3 with
  | nil => exact hmem
  | cons hd tl ih =>
    cases hd with
    | due loc path t =>
      by_cases h : ua3 % 2 = 1
      · simp only [State.dueBytes, h, if_true]; exact ih _ _ hmem
      · simp only [State.dueBytes, h, if_false]; exact ih _ _ (keep_dueByte _ _ _ _ _ hmem)
    | val _ _ => rw [State.dueBytes]; exact ih _ _ hmem; all_goals simp
    | req _ _ => rw [State.dueBytes]; exact ih _ _ hmem; all_goals simp
theorem keep_dueBytes' {r0} {r1} (s : State) (g : ℕ) (ua2 : List LdByte) (ua3 : ℕ) (hmem : s.mem.wf = true) (heq : (State.dueBytes s g ua2 ua3) = (r0, r1)) : r0.mem.wf = true := by
  have := keep_dueBytes s g ua2 ua3 hmem
  rw [heq] at this
  exact this

theorem keep_elemDenials (s : State) (w : Who) (p : EPtr) (code : ℕ) (bit : ByteFail → BitVec 8) (logged : List ℕ) (l : List (ElemAt × Places)) (hmem : s.mem.wf = true) : (State.elemDenials s w p code bit logged l).1.mem.wf = true := by
  unfold State.elemDenials
  repeat' first
    | with_reducible assumption | with_reducible apply keep_engineDenials
    | with_reducible apply keep_engineDenials' (heq := by assumption) | with_reducible apply keep_foldl
    | with_reducible apply keep_foldl_fst | with_reducible apply keep_foldl_snd
    | with_reducible apply keep_foldl_snd_fst | intro _ | dsimp only | split
theorem keep_elemDenials' {r0} {r1} (s : State) (w : Who) (p : EPtr) (code : ℕ) (bit : ByteFail → BitVec 8) (logged : List ℕ) (l : List (ElemAt × Places)) (hmem : s.mem.wf = true) (heq : (State.elemDenials s w p code bit logged l) = (r0, r1)) : r0.mem.wf = true := by
  have := keep_elemDenials s w p code bit logged l hmem
  rw [heq] at this
  exact this

theorem keep_streamDone (s : State) (g : ℕ) (e : Entry) (mst : BitVec 8) (fail : FailRec) (hmem : s.mem.wf = true) : (State.streamDone s g e mst fail).mem.wf = true := by
  unfold State.streamDone
  repeat' first
    | with_reducible assumption | with_reducible apply keep_releaseAll | with_reducible apply keep_updAct | intro _
    | dsimp only | split

theorem keep_endRun (s : State) (g : ℕ) (c : CtxId) (r : StreamRun) (hmem : s.mem.wf = true) : (State.endRun s g c r).mem.wf = true := by
  unfold State.endRun
  repeat' first
    | with_reducible assumption | with_reducible apply keep_streamDone | with_reducible apply keep_updAct | intro _
    | dsimp only | split

theorem keep_engTouch (s : State) (g : ℕ) (loc : ℕ) (hmem : s.mem.wf = true) : (State.engTouch s g loc).mem.wf = true := by
  unfold State.engTouch
  repeat' first
    | with_reducible assumption | with_reducible apply keep_installRo | intro _ | dsimp only | split

theorem keep_useX (s : State) (r : XReg) (hmem : s.mem.wf = true) : (State.useX s r).mem.wf = true := by
  unfold State.useX
  repeat' first
    | with_reducible assumption | with_reducible apply keep_consume | intro _ | dsimp only | split

theorem keep_smudgeMe (s : State) (reason : BitVec 3) (hmem : s.mem.wf = true) : (State.smudgeMe s reason).mem.wf = true := by
  unfold State.smudgeMe
  repeat' first
    | with_reducible assumption | with_reducible apply keep_smudge | intro _ | dsimp only | split

theorem keep_recEntry (s : State) (g : ℕ) (e : BitVec 128) (hmem : s.mem.wf = true) : (State.recEntry s g e).mem.wf = true := by
  unfold State.recEntry
  repeat' first
    | with_reducible assumption | with_reducible apply keep_updCore | intro _ | dsimp only | split

theorem keep_recCapture (s : State) (p : W64) (hmem : s.mem.wf = true) : (State.recCapture s p).mem.wf = true := by
  unfold State.recCapture
  repeat' first
    | with_reducible assumption | with_reducible apply keep_recEntry | with_reducible apply keep_updCore | intro _
    | dsimp only | split

theorem keep_recOperand (s : State) (field : BitVec 2) (r : XReg) (hmem : s.mem.wf = true) : (State.recOperand s field r).mem.wf = true := by
  unfold State.recOperand
  repeat' first
    | with_reducible assumption | with_reducible apply keep_recEntry | with_reducible apply keep_smudgeMe | intro _
    | dsimp only | split

theorem keep_recCommand (s : State) (i : Instr) (hmem : s.mem.wf = true) : (State.recCommand s i).mem.wf = true := by
  unfold State.recCommand
  repeat' first
    | with_reducible assumption | with_reducible apply keep_smudgeMe | with_reducible apply keep_recCapture
    | with_reducible apply keep_recEntry | with_reducible apply keep_recOperand | intro _ | dsimp only | split

theorem keep_updMySet (s : State) (f : CtxSet → CtxSet) (hmem : s.mem.wf = true) : (State.updMySet s f).mem.wf = true := by
  unfold State.updMySet
  repeat' first
    | with_reducible assumption | with_reducible apply keep_updAct | intro _ | dsimp only | split

theorem keep_held (s : State) (g : ℕ) (t : Token) (hmem : s.mem.wf = true) : (State.held s g t).mem.wf = true := by
  unfold State.held
  repeat' first
    | with_reducible assumption | with_reducible apply keep_holderBit | intro _ | dsimp only | split

theorem keep_goOn (s : State) (hmem : s.mem.wf = true) : (State.goOn s).mem.wf = true := by
  unfold State.goOn
  repeat' first
    | with_reducible assumption | with_reducible apply keep_updMe | intro _ | dsimp only | split

theorem keep_enter (s : State) (i : Instr) (numbered : Bool) (hmem : s.mem.wf = true) : (State.enter s i numbered).mem.wf = true := by
  unfold State.enter
  repeat' first
    | with_reducible assumption | with_reducible apply keep_useX | with_reducible apply keep_recCommand
    | with_reducible apply keep_updMySet | with_reducible apply keep_held | with_reducible apply keep_holdMe
    | with_reducible apply keep_goOn | with_reducible apply keep_foldl | with_reducible apply keep_foldl_fst
    | with_reducible apply keep_foldl_snd | with_reducible apply keep_foldl_snd_fst | intro _ | dsimp only | split

theorem keep_enterStore (s : State) (w : Who) (bytes : List (ℕ × Byte)) (poison : Bool) (t : Option Token) (split : Bool) (hmem : s.mem.wf = true) : (State.enterStore s w bytes poison t split).mem.wf = true := by
  unfold State.enterStore
  repeat' first
    | with_reducible assumption | with_reducible apply keep_addFail | with_reducible apply keep_bufferStore
    | intro _ | dsimp only | split

theorem keep_entered (s : State) (g : ℕ) (c : CtxId) (hmem : s.mem.wf = true) : (State.entered s g c).mem.wf = true := by
  unfold State.entered
  repeat' first
    | with_reducible assumption | with_reducible apply keep_updCtx | intro _ | dsimp only | split

theorem keep_loseMonitors (s : State) (line : ℕ) (hmem : s.mem.wf = true) : (State.loseMonitors s line).mem.wf = true := by
  unfold State.loseMonitors
  repeat' first
    | with_reducible assumption | intro _ | dsimp only | split

theorem keep_evictL2 (s : State) (d : ℕ) (line : ℕ) (hmem : s.mem.wf = true) : (State.evictL2 s d line).mem.wf = true := by
  unfold State.evictL2
  repeat' first
    | with_reducible assumption | with_reducible apply keep_loseMonitors | with_reducible apply keep_updDie
    | intro _ | dsimp only | split

theorem keep_feedPoisoned (s : State) (g : ℕ) (p : PlayRun) (i : Option Instr) (rest : List PlayEnt) (hmem : s.mem.wf = true) : (State.feedPoisoned s g p i rest).mem.wf = true := by
  unfold State.feedPoisoned
  repeat' first
    | with_reducible assumption | with_reducible apply keep_collConsume | with_reducible apply keep_updAct | intro _
    | dsimp only | split

theorem keep_feedWithdrawn (s : State) (g : ℕ) (p : PlayRun) (e : Entry) (pte : BitVec 20) (hmem : s.mem.wf = true) : (State.feedWithdrawn s g p e pte).mem.wf = true := by
  unfold State.feedWithdrawn
  repeat' first
    | with_reducible assumption | with_reducible apply keep_updAct | with_reducible apply keep_releaseAll | intro _
    | dsimp only | split

theorem keep_fenceEnd (s : State) (w : Who) (sc : Scope) (xd : XReg) (hmem : s.mem.wf = true) : (State.fenceEnd s w sc xd).mem.wf = true := by
  unfold State.fenceEnd
  repeat' first
    | with_reducible assumption | with_reducible apply keep_selfInvalidate | with_reducible apply keep_updWho
    | intro _ | dsimp only | split

theorem keep_halt (s : State) (g : ℕ) (c : CtxId) (hmem : s.mem.wf = true) : (State.halt s g c).mem.wf = true := by
  unfold State.halt
  repeat' first
    | with_reducible assumption | with_reducible apply keep_updAct | with_reducible apply keep_giveUp
    | with_reducible apply keep_notifyDie | with_reducible apply keep_appendLog | intro _ | dsimp only | split

theorem keep_keepLine (s : State) (g : ℕ) (t : Token) (off : ℕ) (hmem : s.mem.wf = true) : (State.keepLine s g t off).mem.wf = true := by
  unfold State.keepLine
  repeat' first
    | with_reducible assumption | with_reducible apply keep_updCore | intro _ | dsimp only | split

theorem keep_laneWord (s : State) (g : ℕ) (a : W64) (hmem : s.mem.wf = true) : Fetched.keeps (State.laneWord s g a) := by
  unfold State.laneWord
  repeat' first
    | with_reducible assumption | with_reducible apply keep_keepLine
    | with_reducible apply Fetched.keeps_word (heq := by assumption) | with_reducible apply Fetched.keeps_of_word
    | with_reducible apply Fetched.keeps_done (heq := by assumption) | with_reducible apply Fetched.keeps_of_done
    | intro _ | dsimp only | split

theorem keep_haltAll (s : State) (g : ℕ) (hmem : s.mem.wf = true) : (State.haltAll s g).mem.wf = true := by
  unfold State.haltAll
  repeat' first
    | with_reducible assumption | with_reducible apply keep_halt | intro _ | dsimp only | split

theorem keep_trap (s : State) (g : ℕ) (c : CtxId) (k : Cause) (val : W64) (tpc : W64) (hmem : s.mem.wf = true) : (State.trap s g c k val tpc).mem.wf = true := by
  unfold State.trap
  repeat' first
    | with_reducible assumption | with_reducible apply keep_countFetch | with_reducible apply keep_smudge
    | with_reducible apply keep_abandonPlay | with_reducible apply keep_updCtx | with_reducible apply keep_haltAll
    | with_reducible apply keep_halt | intro _ | dsimp only | split

theorem keep_fetchStall (s : State) (g : ℕ) (c : CtxId) (h : Hold) (hmem : s.mem.wf = true) : (State.fetchStall s g c h).mem.wf = true := by
  unfold State.fetchStall
  repeat' first
    | with_reducible assumption | with_reducible apply keep_updCtx | intro _ | dsimp only | split

theorem keep_fetchAt (s : State) (g : ℕ) (c : CtxId) (hmem : s.mem.wf = true) : Fetched.keeps (State.fetchAt s g c) := by
  unfold State.fetchAt
  repeat' first
    | with_reducible assumption | with_reducible apply keep_halt | with_reducible apply keep_laneWord
    | with_reducible apply keep_entered | with_reducible apply keep_trap | with_reducible apply keep_fetchStall
    | with_reducible apply keep_haltAll | with_reducible apply Fetched.keeps_word (heq := by assumption)
    | with_reducible apply Fetched.keeps_of_word | with_reducible apply Fetched.keeps_done (heq := by assumption)
    | with_reducible apply Fetched.keeps_of_done | intro _ | dsimp only | split

theorem keep_fetchNext (s : State) (g : ℕ) (c : CtxId) (hmem : s.mem.wf = true) : Fetched.keeps (State.fetchNext s g c) := by
  unfold State.fetchNext
  repeat' first
    | with_reducible assumption | with_reducible apply keep_laneWord | with_reducible apply keep_updCtx
    | with_reducible apply keep_trap | with_reducible apply keep_fetchStall | with_reducible apply keep_haltAll
    | with_reducible apply keep_fetchAt | with_reducible apply Fetched.keeps_word (heq := by assumption)
    | with_reducible apply Fetched.keeps_of_word | with_reducible apply Fetched.keeps_done (heq := by assumption)
    | with_reducible apply Fetched.keeps_of_done | intro _ | dsimp only | split

theorem keep_fetchRemote (s : State) (g : ℕ) (c : CtxId) (loc : ℕ) (hmem : s.mem.wf = true) : (State.fetchRemote s g c loc).mem.wf = true := by
  unfold State.fetchRemote
  repeat' first
    | with_reducible assumption | with_reducible apply keep_send
    | with_reducible apply keep_send' (heq := by assumption) | with_reducible apply keep_flyIn | intro _
    | dsimp only | split

theorem keep_findLane (s : State) (g : ℕ) (c : CtxId) (hmem : s.mem.wf = true) : OptS.keeps (State.findLane s g c) := by
  unfold State.findLane
  repeat' first
    | with_reducible assumption | with_reducible apply keep_updCtx
    | with_reducible apply OptS.keeps_some (heq := by assumption) | with_reducible apply OptS.keeps_of_some
    | with_reducible apply OptS.keeps_of_none | intro _ | dsimp only | split

theorem keep_execVEntryResult (g : ℕ) (n : ℕ) (s : State) (hmem : s.mem.wf = true) : Out.keeps (execVEntryResult g n s) := by
  unfold execVEntryResult
  repeat' first
    | with_reducible assumption | with_reducible apply keep_updAct
    | with_reducible apply Out.keeps_next (heq := by assumption) | with_reducible apply Out.keeps_of_next | intro _
    | dsimp only | split

theorem keep_flushResults (s : State) (g : ℕ) (hmem : s.mem.wf = true) : (State.flushResults s g).mem.wf = true := by
  unfold State.flushResults
  repeat' first
    | with_reducible assumption | with_reducible apply keep_execVEntryResult
    | with_reducible apply Out.keeps_next (heq := by assumption) | with_reducible apply Out.keeps_of_next
    | with_reducible apply keep_foldl | with_reducible apply keep_foldl_fst | with_reducible apply keep_foldl_snd
    | with_reducible apply keep_foldl_snd_fst | intro _ | dsimp only | split

theorem keep_forgetCard (s : State) (n : ℕ) (hmem : s.mem.wf = true) : (State.forgetCard s n).mem.wf = true := by
  unfold State.forgetCard
  repeat' first
    | with_reducible assumption | intro _ | dsimp only | split

theorem keep_fromCopy (s : State) (g : ℕ) (path : Path) (loc : ℕ) (hmem : s.mem.wf = true) : OptCS.keeps (State.fromCopy s g path loc) := by
  unfold State.fromCopy
  repeat' first
    | with_reducible assumption | with_reducible apply keep_installL1 | with_reducible apply keep_again
    | with_reducible apply OptCS.keeps_map | with_reducible apply OptCS.keeps_some (heq := by assumption)
    | with_reducible apply OptCS.keeps_of_some | with_reducible apply OptCS.keeps_of_none | intro _ | dsimp only
    | split

theorem keep_galDone (s : State) (g : ℕ) (e : Entry) (mst : BitVec 8) (fail : FailRec) (hmem : s.mem.wf = true) : (State.galDone s g e mst fail).mem.wf = true := by
  unfold State.galDone
  repeat' first
    | with_reducible assumption | with_reducible apply keep_releaseAll | with_reducible apply keep_updAct | intro _
    | dsimp only | split

theorem keep_withdrawCmd (s : State) (g : ℕ) (e : Entry) (pte : BitVec 20) (hmem : s.mem.wf = true) : (State.withdrawCmd s g e pte).mem.wf = true := by
  unfold State.withdrawCmd
  repeat' first
    | with_reducible assumption | with_reducible apply keep_releaseAll | with_reducible apply keep_updAct | intro _
    | dsimp only | split

theorem keep_galIssue (s : State) (g : ℕ) (e : Entry) (key : XKey) (p : EPtr) (plan : Plan) (act : State → Fates → State) (hmem : s.mem.wf = true)
    (hact : ∀ (s : State) (f : Fates), s.mem.wf = true → (act s f).mem.wf = true) : (State.galIssue s g e key p plan act).mem.wf = true := by
  unfold State.galIssue
  repeat' first
    | with_reducible assumption | with_reducible apply keep_engineStall | with_reducible apply keep_withdrawCmd
    | with_reducible apply keep_galDone | with_reducible apply keep_orphan | with_reducible apply keep_carry
    | with_reducible apply keep_carry' (heq := by assumption) | with_reducible apply hact | intro _ | dsimp only
    | split

theorem keep_galRead (s : State) (w : Who) (l : Fates) (p : EPtr) (n : ℕ) (hmem : s.mem.wf = true) : (State.galRead s w l p n).2.2.mem.wf = true := by
  unfold State.galRead
  repeat' first
    | with_reducible assumption | with_reducible apply keep_engineDenials
    | with_reducible apply keep_engineDenials' (heq := by assumption) | with_reducible apply keep_countLines
    | intro _ | dsimp only | split
theorem keep_galRead' {r0} {r1} {r2} (s : State) (w : Who) (l : Fates) (p : EPtr) (n : ℕ) (hmem : s.mem.wf = true) (heq : (State.galRead s w l p n) = (r0, r1, r2)) : r2.mem.wf = true := by
  have := keep_galRead s w l p n hmem
  rw [heq] at this
  exact this

theorem keep_galWrote (s : State) (w : Who) (l : Fates) (p : EPtr) (n : ℕ) (hmem : s.mem.wf = true) : (State.galWrote s w l p n).2.2.mem.wf = true := by
  unfold State.galWrote
  repeat' first
    | with_reducible assumption | with_reducible apply keep_engineDenials
    | with_reducible apply keep_engineDenials' (heq := by assumption) | with_reducible apply keep_lineFates
    | with_reducible apply keep_lineFates' (heq := by assumption) | intro _ | dsimp only | split
theorem keep_galWrote' {r0} {r1} {r2} (s : State) (w : Who) (l : Fates) (p : EPtr) (n : ℕ) (hmem : s.mem.wf = true) (heq : (State.galWrote s w l p n) = (r0, r1, r2)) : r2.mem.wf = true := by
  have := keep_galWrote s w l p n hmem
  rw [heq] at this
  exact this

theorem keep_saveTokens (s : State) (g : ℕ) (l : List Token) (hmem : s.mem.wf = true) : (State.saveTokens s g l).mem.wf = true := by
  unfold State.saveTokens
  repeat' first
    | with_reducible assumption | with_reducible apply keep_holderBit | with_reducible apply keep_savedBy
    | with_reducible apply keep_foldl | with_reducible apply keep_foldl_fst | with_reducible apply keep_foldl_snd
    | with_reducible apply keep_foldl_snd_fst | intro _ | dsimp only | split

theorem keep_toSlot (s : State) (g : ℕ) (p : Fin 2) (j : ℕ) (hmem : s.mem.wf = true) : (State.toSlot s g p j).mem.wf = true := by
  unfold State.toSlot
  repeat' first
    | with_reducible assumption | with_reducible apply keep_setCore | with_reducible apply keep_saveTokens
    | with_reducible apply keep_triggerDrain | intro _ | dsimp only | split

theorem keep_stopEngines (s : State) (g : ℕ) (hmem : s.mem.wf = true) : (State.stopEngines s g).mem.wf = true := by
  unfold State.stopEngines
  repeat' first
    | with_reducible assumption | with_reducible apply keep_updAct | with_reducible apply keep_flushResults
    | intro _ | dsimp only | split

theorem keep_takeOut (s : State) (g : ℕ) (p : Fin 2) (j : ℕ) (hmem : s.mem.wf = true) : (State.takeOut s g p j).mem.wf = true := by
  unfold State.takeOut
  repeat' first
    | with_reducible assumption | with_reducible apply keep_updCore | with_reducible apply keep_toSlot
    | with_reducible apply keep_stopEngines | with_reducible apply keep_updAct | intro _ | dsimp only | split

theorem keep_gangSwitch (s : State) (g : ℕ) (t : CtxSet) (hmem : s.mem.wf = true) : (State.gangSwitch s g t).mem.wf = true := by
  unfold State.gangSwitch
  repeat' first
    | with_reducible assumption | with_reducible apply keep_beginOut | with_reducible apply keep_takeOut
    | with_reducible apply keep_updAct | with_reducible apply keep_foldl | with_reducible apply keep_foldl_fst
    | with_reducible apply keep_foldl_snd | with_reducible apply keep_foldl_snd_fst | intro _ | dsimp only | split

theorem keep_gendIssue (s : State) (hmem : s.mem.wf = true) : (State.gendIssue s).mem.wf = true := by
  unfold State.gendIssue
  repeat' first
    | with_reducible assumption | with_reducible apply keep_enter | with_reducible apply keep_endRecording | intro _
    | dsimp only | split

theorem keep_giveBytes (s : State) (bytes : List (ℕ × Byte × Bool)) (y : XLine) (hmem : s.mem.wf = true) : (State.giveBytes s bytes y).mem.wf = true := by
  unfold State.giveBytes
  repeat' first
    | with_reducible assumption | with_reducible apply keep_setReq | intro _ | dsimp only | split

theorem keep_giveUpDue (s : State) (g : ℕ) (t : CtxSet) (hmem : s.mem.wf = true) : (State.giveUpDue s g t).mem.wf = true := by
  unfold State.giveUpDue
  repeat' first
    | with_reducible assumption | with_reducible apply keep_giveUp | intro _ | dsimp only | split

theorem keep_setLast (s : State) (g : ℕ) (n : BitVec 3) (v : BitVec 4) (hmem : s.mem.wf = true) : (State.setLast s g n v).mem.wf = true := by
  unfold State.setLast
  repeat' first
    | with_reducible assumption | with_reducible apply keep_updCore | intro _ | dsimp only | split

theorem keep_installGalley (s : State) (g : ℕ) (n : BitVec 3) (gal : Galley) (hmem : s.mem.wf = true) : (State.installGalley s g n gal).mem.wf = true := by
  unfold State.installGalley
  repeat' first
    | with_reducible assumption | with_reducible apply keep_dropGalley | with_reducible apply keep_updCore
    | with_reducible apply keep_savedBy | with_reducible apply keep_foldl | with_reducible apply keep_foldl_fst
    | with_reducible apply keep_foldl_snd | with_reducible apply keep_foldl_snd_fst | intro _ | dsimp only | split

theorem keep_gloadAct (s : State) (g : ℕ) (e : Entry) (n : BitVec 3) (hmem : s.mem.wf = true) : (State.gloadAct s g e n).mem.wf = true := by
  unfold State.gloadAct
  repeat' first
    | with_reducible assumption | with_reducible apply keep_galIssue | with_reducible apply keep_galRead
    | with_reducible apply keep_galRead' (heq := by assumption) | with_reducible apply keep_galDone
    | with_reducible apply keep_setLast | with_reducible apply keep_setXfer
    | with_reducible apply keep_installGalley | intro _ | dsimp only | split

theorem keep_granuleDenials (s : State) (w : Who) (r : StreamRun) (l : List (EPtr × ℕ × List ℤ)) (hmem : s.mem.wf = true) : (State.granuleDenials s w r l).1.mem.wf = true := by
  unfold State.granuleDenials
  repeat' first
    | with_reducible assumption | with_reducible apply keep_engineDenials
    | with_reducible apply keep_engineDenials' (heq := by assumption) | with_reducible apply keep_foldl
    | with_reducible apply keep_foldl_fst | with_reducible apply keep_foldl_snd
    | with_reducible apply keep_foldl_snd_fst | intro _ | dsimp only | split
theorem keep_granuleDenials' {r0} {r1} (s : State) (w : Who) (r : StreamRun) (l : List (EPtr × ℕ × List ℤ)) (hmem : s.mem.wf = true) (heq : (State.granuleDenials s w r l) = (r0, r1)) : r0.mem.wf = true := by
  have := keep_granuleDenials s w r l hmem
  rw [heq] at this
  exact this

theorem keep_granuleOver (s : State) (g : ℕ) (gr : Granule) (hmem : s.mem.wf = true) : (State.granuleOver s g gr).mem.wf = true := by
  unfold State.granuleOver
  repeat' first
    | with_reducible assumption | with_reducible apply keep_performedPte | with_reducible apply keep_foldl
    | with_reducible apply keep_foldl_fst | with_reducible apply keep_foldl_snd
    | with_reducible apply keep_foldl_snd_fst | intro _ | dsimp only | split

theorem keep_granuleEnd (s : State) (g : ℕ) (sid : ℕ) (gr : Granule) (l : Fates) (hmem : s.mem.wf = true) : (State.granuleEnd s g sid gr l).2.mem.wf = true := by
  unfold State.granuleEnd
  repeat' first
    | with_reducible assumption | with_reducible apply keep_granuleOver | with_reducible apply keep_setXfer
    | intro _ | dsimp only | split
theorem keep_granuleEnd' {r0} {r1} (s : State) (g : ℕ) (sid : ℕ) (gr : Granule) (l : Fates) (hmem : s.mem.wf = true) (heq : (State.granuleEnd s g sid gr l) = (r0, r1)) : r1.mem.wf = true := by
  have := keep_granuleEnd s g sid gr l hmem
  rw [heq] at this
  exact this

theorem keep_performGranule (s : State) (l : Fates) (w : Who) (e : Entry) (gr : Granule) (hmem : s.mem.wf = true) : (State.performGranule s l w e gr).1.mem.wf = true := by
  unfold State.performGranule
  repeat' first
    | with_reducible assumption | with_reducible apply keep_engTouch | with_reducible apply keep_countLines
    | with_reducible apply keep_engineWrite | with_reducible apply keep_giveBytes | with_reducible apply keep_foldl
    | with_reducible apply keep_foldl_fst | with_reducible apply keep_foldl_snd
    | with_reducible apply keep_foldl_snd_fst | intro _ | dsimp only | split
theorem keep_performGranule' {r0} {r1} (s : State) (l : Fates) (w : Who) (e : Entry) (gr : Granule) (hmem : s.mem.wf = true) (heq : (State.performGranule s l w e gr) = (r0, r1)) : r0.mem.wf = true := by
  have := keep_performGranule s l w e gr hmem
  rw [heq] at this
  exact this

theorem keep_release (s : State) (y : XLine) (hmem : s.mem.wf = true) : (State.release s y).mem.wf = true := by
  unfold State.release
  repeat' first
    | with_reducible assumption | with_reducible apply keep_setReq | with_reducible apply keep_dropReq
    | with_reducible apply keep_failReq | intro _ | dsimp only | split

theorem keep_granuleStep (s : State) (w : Who) (e : Entry) (gr : Granule) (l : Fates) (hmem : s.mem.wf = true) : (State.granuleStep s w e gr l).2.2.mem.wf = true := by
  unfold State.granuleStep
  repeat' first
    | with_reducible assumption | with_reducible apply keep_choose
    | with_reducible apply keep_choose' (heq := by assumption) | with_reducible apply keep_countLines
    | with_reducible apply keep_performGranule | with_reducible apply keep_performGranule' (heq := by assumption)
    | with_reducible apply keep_release | with_reducible apply keep_foldl | with_reducible apply keep_foldl_fst
    | with_reducible apply keep_foldl_snd | with_reducible apply keep_foldl_snd_fst | intro _ | dsimp only | split
theorem keep_granuleStep' {r0} {r1} {r2} (s : State) (w : Who) (e : Entry) (gr : Granule) (l : Fates) (hmem : s.mem.wf = true) (heq : (State.granuleStep s w e gr l) = (r0, r1, r2)) : r2.mem.wf = true := by
  have := keep_granuleStep s w e gr l hmem
  rw [heq] at this
  exact this

theorem keep_grecIssue (s : State) (n : BitVec 3) (hmem : s.mem.wf = true) : (State.grecIssue s n).mem.wf = true := by
  unfold State.grecIssue
  repeat' first
    | with_reducible assumption | with_reducible apply keep_enter | with_reducible apply keep_smudge
    | with_reducible apply keep_startRecording | intro _ | dsimp only | split

theorem keep_gsaveAct (s : State) (g : ℕ) (e : Entry) (n : BitVec 3) (hmem : s.mem.wf = true) : (State.gsaveAct s g e n).mem.wf = true := by
  unfold State.gsaveAct
  repeat' first
    | with_reducible assumption | with_reducible apply keep_galDone | with_reducible apply keep_setLast
    | with_reducible apply keep_galIssue | with_reducible apply keep_galWrote
    | with_reducible apply keep_galWrote' (heq := by assumption) | intro _ | dsimp only | split

theorem keep_haltWho (s : State) (w : Who) (hmem : s.mem.wf = true) : (State.haltWho s w).mem.wf = true := by
  unfold State.haltWho
  repeat' first
    | with_reducible assumption | with_reducible apply keep_updSid | with_reducible apply keep_giveUp
    | with_reducible apply keep_notifyDie | with_reducible apply keep_appendLog | intro _ | dsimp only | split

theorem keep_holdReq (s : State) (id : ℕ) (hmem : s.mem.wf = true) : (State.holdReq s id).mem.wf = true := by
  unfold State.holdReq
  repeat' first
    | with_reducible assumption | with_reducible apply keep_setReq | intro _ | dsimp only | split

theorem keep_housekeep (s : State) (ua1 : Action) (hmem : s.mem.wf = true) : (State.housekeep s ua1).mem.wf = true := by
  unfold State.housekeep
  repeat' first
    | with_reducible assumption | with_reducible apply keep_updCore | with_reducible apply keep_evictL2 | intro _
    | dsimp only | split

theorem keep_installL2 (s : State) (d : ℕ) (line : ℕ) (c : Copy) (hmem : s.mem.wf = true) : (State.installL2 s d line c).mem.wf = true := by
  unfold State.installL2
  repeat' first
    | with_reducible assumption | with_reducible apply keep_updDie | intro _ | dsimp only | split

theorem keep_withdrawRun (s : State) (g : ℕ) (c : CtxId) (r : StreamRun) (pte : BitVec 20) (hmem : s.mem.wf = true) : (State.withdrawRun s g c r pte).mem.wf = true := by
  unfold State.withdrawRun
  repeat' first
    | with_reducible assumption | with_reducible apply keep_endRun | with_reducible apply keep_withdrawCmd
    | with_reducible apply keep_updAct | intro _ | dsimp only | split

theorem keep_issueHead (s : State) (g : ℕ) (c : CtxId) (hmem : s.mem.wf = true) : (State.issueHead s g c).2.mem.wf = true := by
  unfold State.issueHead
  repeat' first
    | with_reducible assumption | with_reducible apply keep_engineStall | with_reducible apply keep_withdrawRun
    | with_reducible apply keep_granuleDenials | with_reducible apply keep_granuleDenials' (heq := by assumption)
    | with_reducible apply keep_sendLines | with_reducible apply keep_sendLines' (heq := by assumption)
    | with_reducible apply keep_holdReq | with_reducible apply keep_setXfer | with_reducible apply keep_updCore
    | with_reducible apply keep_flyIn | with_reducible apply keep_updAct | with_reducible apply keep_foldl
    | with_reducible apply keep_foldl_fst | with_reducible apply keep_foldl_snd
    | with_reducible apply keep_foldl_snd_fst | intro _ | dsimp only | split
theorem keep_issueHead' {r0} {r1} (s : State) (g : ℕ) (c : CtxId) (hmem : s.mem.wf = true) (heq : (State.issueHead s g c) = (r0, r1)) : r1.mem.wf = true := by
  have := keep_issueHead s g c hmem
  rw [heq] at this
  exact this

theorem keep_jdoneIssue (s : State) (hmem : s.mem.wf = true) : (State.jdoneIssue s).mem.wf = true := by
  unfold State.jdoneIssue
  repeat' first
    | with_reducible assumption | with_reducible apply keep_enter | with_reducible apply keep_updMe
    | with_reducible apply keep_closeRecording | intro _ | dsimp only | split

theorem keep_issueNow (s : State) (i : Instr) (hmem : s.mem.wf = true) : (State.issueNow s i).mem.wf = true := by
  unfold State.issueNow
  repeat' first
    | with_reducible assumption | with_reducible apply keep_grecIssue | with_reducible apply keep_gendIssue
    | with_reducible apply keep_enter | with_reducible apply keep_jdoneIssue | intro _ | dsimp only | split

theorem keep_jobDone (s : State) (g : ℕ) (e : Entry) (mst : BitVec 8) (hmem : s.mem.wf = true) : (State.jobDone s g e mst).mem.wf = true := by
  unfold State.jobDone
  repeat' first
    | with_reducible assumption | with_reducible apply keep_releaseAll | with_reducible apply keep_updAct | intro _
    | dsimp only | split

theorem keep_jdoneAct (s : State) (g : ℕ) (e : Entry) (hmem : s.mem.wf = true) : (State.jdoneAct s g e).mem.wf = true := by
  unfold State.jdoneAct
  repeat' first
    | with_reducible assumption | with_reducible apply keep_jobDone | with_reducible apply keep_updAct | intro _
    | dsimp only | split

theorem keep_jpostWrite (s : State) (g : ℕ) (e : Entry) (mst : BitVec 8) (b : List (Byte × Bool)) (hmem : s.mem.wf = true) : (State.jpostWrite s g e mst b).mem.wf = true := by
  unfold State.jpostWrite
  repeat' first
    | with_reducible assumption | with_reducible apply keep_jobDone | with_reducible apply keep_failOf
    | with_reducible apply keep_countFate | with_reducible apply keep_updAct | with_reducible apply keep_engineWrite
    | with_reducible apply keep_setQField | intro _ | dsimp only | split

theorem keep_jpostRead (s : State) (g : ℕ) (e : Entry) (hmem : s.mem.wf = true) : (State.jpostRead s g e).mem.wf = true := by
  unfold State.jpostRead
  repeat' first
    | with_reducible assumption | with_reducible apply keep_updAct | with_reducible apply keep_engineStall
    | with_reducible apply keep_jobDone | with_reducible apply keep_carry
    | with_reducible apply keep_carry' (heq := by assumption) | with_reducible apply keep_galRead
    | with_reducible apply keep_galRead' (heq := by assumption) | with_reducible apply keep_jpostWrite | intro _
    | dsimp only | split

theorem keep_jpostAct (s : State) (g : ℕ) (e : Entry) (hmem : s.mem.wf = true) : (State.jpostAct s g e).mem.wf = true := by
  unfold State.jpostAct
  repeat' first
    | with_reducible assumption | with_reducible apply keep_jpostWrite | with_reducible apply keep_jobDone
    | with_reducible apply keep_jpostRead | intro _ | dsimp only | split

theorem keep_jprioAct (s : State) (tenant : Byte) (id : W32) (prio : BitVec 3) (hmem : s.mem.wf = true) : (State.jprioAct s tenant id prio).mem.wf = true := by
  unfold State.jprioAct
  repeat' first
    | with_reducible assumption | intro _ | dsimp only | split

theorem keep_jyieldExecute (s : State) (g : ℕ) (e : Entry) (hmem : s.mem.wf = true) : (State.jyieldExecute s g e).mem.wf = true := by
  unfold State.jyieldExecute
  repeat' first
    | with_reducible assumption | with_reducible apply keep_jobDone | with_reducible apply keep_gangSwitch | intro _
    | dsimp only | split

theorem keep_keepCount (s : State) (g : ℕ) (c : CtxId) (old : Ctx) (hmem : s.mem.wf = true) : (State.keepCount s g c old).mem.wf = true := by
  unfold State.keepCount
  repeat' first
    | with_reducible assumption | with_reducible apply keep_updCtx | intro _ | dsimp only | split

theorem keep_releaseTiles (s : State) (c : Card) (hmem : s.mem.wf = true) : (State.releaseTiles s c).mem.wf = true := by
  unfold State.releaseTiles
  repeat' first
    | with_reducible assumption | with_reducible apply keep_dropSaved | with_reducible apply keep_updDie
    | with_reducible apply keep_foldl | with_reducible apply keep_foldl_fst | with_reducible apply keep_foldl_snd
    | with_reducible apply keep_foldl_snd_fst | intro _ | dsimp only | split

theorem keep_killCards (s : State) (tag : W16) (hmem : s.mem.wf = true) : (State.killCards s tag).mem.wf = true := by
  unfold State.killCards
  repeat' first
    | with_reducible assumption | with_reducible apply keep_forgetCard | with_reducible apply keep_releaseTiles
    | with_reducible apply keep_writeFinal | with_reducible apply keep_foldl | with_reducible apply keep_foldl_fst
    | with_reducible apply keep_foldl_snd | with_reducible apply keep_foldl_snd_fst | intro _ | dsimp only | split

theorem keep_vacate (s : State) (g : ℕ) (p : Fin 2) (hmem : s.mem.wf = true) : (State.vacate s g p).mem.wf = true := by
  unfold State.vacate
  repeat' first
    | with_reducible assumption | with_reducible apply keep_giveUpDue | with_reducible apply keep_updCore
    | with_reducible apply keep_releaseAll | intro _ | dsimp only | split

theorem keep_killSet (s : State) (g : ℕ) (p : Fin 2) (hmem : s.mem.wf = true) : (State.killSet s g p).mem.wf = true := by
  unfold State.killSet
  repeat' first
    | with_reducible assumption | with_reducible apply keep_vacate | with_reducible apply keep_dropOutside | intro _
    | dsimp only | split

theorem keep_killSlot (s : State) (g : ℕ) (j : ℕ) (t : CtxSet) (hmem : s.mem.wf = true) : (State.killSlot s g j t).mem.wf = true := by
  unfold State.killSlot
  repeat' first
    | with_reducible assumption | with_reducible apply keep_giveUpDue | with_reducible apply keep_dropOutside
    | with_reducible apply keep_updCore | with_reducible apply keep_savedBy | with_reducible apply keep_foldl
    | with_reducible apply keep_foldl_fst | with_reducible apply keep_foldl_snd
    | with_reducible apply keep_foldl_snd_fst | intro _ | dsimp only | split

theorem keep_killParties (s : State) (g : ℕ) (pick : CtxSet → Bool) (hmem : s.mem.wf = true) : (State.killParties s g pick).mem.wf = true := by
  unfold State.killParties
  repeat' first
    | with_reducible assumption | with_reducible apply keep_killSet | with_reducible apply keep_killSlot
    | with_reducible apply keep_foldl | with_reducible apply keep_foldl_fst | with_reducible apply keep_foldl_snd
    | with_reducible apply keep_foldl_snd_fst | intro _ | dsimp only | split

theorem keep_laterBytes (s : State) (n : ℕ) (p : W64) (bits : BitVec 8) (hmem : s.mem.wf = true) : (State.laterBytes s n p bits).2.mem.wf = true := by
  unfold State.laterBytes
  repeat' first
    | with_reducible assumption | with_reducible apply keep_choose
    | with_reducible apply keep_choose' (heq := by assumption) | intro _ | dsimp only | split
theorem keep_laterBytes' {r0} {r1} (s : State) (n : ℕ) (p : W64) (bits : BitVec 8) (hmem : s.mem.wf = true) (heq : (State.laterBytes s n p bits) = (r0, r1)) : r1.mem.wf = true := by
  have := keep_laterBytes s n p bits hmem
  rw [heq] at this
  exact this

theorem keep_updCard (s : State) (n : ℕ) (f : Card → Card) (hmem : s.mem.wf = true) : (State.updCard s n f).mem.wf = true := by
  unfold State.updCard
  repeat' first
    | with_reducible assumption | intro _ | dsimp only | split

theorem keep_leave (s : State) (g : ℕ) (hmem : s.mem.wf = true) : (State.leave s g).mem.wf = true := by
  unfold State.leave
  repeat' first
    | with_reducible assumption | with_reducible apply keep_updCard | with_reducible apply keep_vacate | intro _
    | dsimp only | split

theorem keep_nearByte (s : State) (g : ℕ) (path : Path) (v : Via) (loc : ℕ) (seq : optParam (Option ℕ) Option.none) (hmem : s.mem.wf = true) : OptNB.keeps (State.nearByte s g path v loc seq) := by
  unfold State.nearByte
  repeat' first
    | with_reducible assumption | with_reducible apply keep_fromCopy | with_reducible apply OptNB.keeps_map
    | with_reducible apply OptCS.keeps_some (heq := by assumption) | with_reducible apply OptCS.keeps_of_some
    | with_reducible apply OptCS.keeps_of_none | with_reducible apply OptNB.keeps_some (heq := by assumption)
    | with_reducible apply OptNB.keeps_of_some | with_reducible apply OptNB.keeps_of_none | intro _ | dsimp only
    | split

theorem keep_missByte (s : State) (w : Who) (reqtag : W16) (path : Path) (loc : ℕ) (t : Option Token) (mine : List (ℕ × ℕ)) (later : Bool) (hmem : s.mem.wf = true) : (State.missByte s w reqtag path loc t mine later).1.mem.wf = true := by
  unfold State.missByte
  repeat' first
    | with_reducible assumption | with_reducible apply keep_flyIn | with_reducible apply keep_send
    | with_reducible apply keep_send' (heq := by assumption) | with_reducible apply keep_afterHome
    | with_reducible apply keep_countFate | intro _ | dsimp only | split
theorem keep_missByte' {r0} {r1} {r2} (s : State) (w : Who) (reqtag : W16) (path : Path) (loc : ℕ) (t : Option Token) (mine : List (ℕ × ℕ)) (later : Bool) (hmem : s.mem.wf = true) (heq : (State.missByte s w reqtag path loc t mine later) = (r0, r1, r2)) : r0.mem.wf = true := by
  have := keep_missByte s w reqtag path loc t mine later hmem
  rw [heq] at this
  exact this

theorem keep_loadByte (s : State) (w : Who) (reqtag : W16) (path : Path) (loc : ℕ) (t : Option Token) (mine : List (ℕ × ℕ)) (later : optParam Bool Bool.false) (hmem : s.mem.wf = true) : (State.loadByte s w reqtag path loc t mine later).1.mem.wf = true := by
  unfold State.loadByte
  repeat' first
    | with_reducible assumption | with_reducible apply keep_nearByte | with_reducible apply keep_missByte
    | with_reducible apply keep_missByte' (heq := by assumption)
    | with_reducible apply OptNB.keeps_some (heq := by assumption) | with_reducible apply OptNB.keeps_of_some
    | with_reducible apply OptNB.keeps_of_none | intro _ | dsimp only | split
theorem keep_loadByte' {r0} {r1} {r2} (s : State) (w : Who) (reqtag : W16) (path : Path) (loc : ℕ) (t : Option Token) (mine : List (ℕ × ℕ)) (later : optParam Bool Bool.false) (hmem : s.mem.wf = true) (heq : (State.loadByte s w reqtag path loc t mine later) = (r0, r1, r2)) : r0.mem.wf = true := by
  have := keep_loadByte s w reqtag path loc t mine later hmem
  rw [heq] at this
  exact this

theorem keep_loadBytes (s : State) (w : Who) (reqtag : W16) (path : Path) (t : Option Token) (ua5 : Places) (ua6 : List (ℕ × ℕ)) (ua7 : ℕ) (hmem : s.mem.wf = true) : (State.loadBytes s w reqtag path t ua5 ua6 ua7).1.mem.wf = true := by
  induction ua5 generalizing s ua6 ua7 with
  | nil => exact hmem
  | cons hd tl ih =>
    cases hd with
    | error _ => exact ih _ _ _ hmem
    | ok loc => exact ih _ _ _ (keep_loadByte _ _ _ _ _ _ _ _ hmem)
theorem keep_loadBytes' {r0} {r1} (s : State) (w : Who) (reqtag : W16) (path : Path) (t : Option Token) (ua5 : Places) (ua6 : List (ℕ × ℕ)) (ua7 : ℕ) (hmem : s.mem.wf = true) (heq : (State.loadBytes s w reqtag path t ua5 ua6 ua7) = (r0, r1)) : r0.mem.wf = true := by
  have := keep_loadBytes s w reqtag path t ua5 ua6 ua7 hmem
  rw [heq] at this
  exact this

theorem keep_vReadByte (s : State) (g : ℕ) (p : EPtr) (lines : List XLine) (ua4 : VByte) (hmem : s.mem.wf = true) : (State.vReadByte s g p lines ua4).2.mem.wf = true := by
  unfold State.vReadByte
  repeat' first
    | with_reducible assumption | with_reducible apply keep_afterHome | intro _ | dsimp only | split
theorem keep_vReadByte' {r0} {r1} (s : State) (g : ℕ) (p : EPtr) (lines : List XLine) (ua4 : VByte) (hmem : s.mem.wf = true) (heq : (State.vReadByte s g p lines ua4) = (r0, r1)) : r1.mem.wf = true := by
  have := keep_vReadByte s g p lines ua4 hmem
  rw [heq] at this
  exact this

theorem keep_vReadElems (s : State) (g : ℕ) (p : EPtr) (sid : ℕ) (n : ℕ) (ua5 : List VElem) (ua6 : ℕ) (hmem : s.mem.wf = true) : (State.vReadElems s g p sid n ua5 ua6).2.mem.wf = true := by
  induction ua5 generalizing s ua6 with
  | nil =>
    unfold State.vReadElems
    repeat' first
      | with_reducible assumption | with_reducible apply keep_vReadByte
      | with_reducible apply keep_vReadByte' (heq := by assumption) | with_reducible apply keep_vEach | intro _
      | dsimp only | split
  | cons hd tl ih =>
    unfold State.vReadElems
    repeat' first
      | with_reducible assumption | with_reducible apply ih | with_reducible apply keep_vReadByte
      | with_reducible apply keep_vReadByte' (heq := by assumption) | with_reducible apply keep_vEach | intro _
      | dsimp only | split
theorem keep_vReadElems' {r0} {r1} (s : State) (g : ℕ) (p : EPtr) (sid : ℕ) (n : ℕ) (ua5 : List VElem) (ua6 : ℕ) (hmem : s.mem.wf = true) (heq : (State.vReadElems s g p sid n ua5 ua6) = (r0, r1)) : r1.mem.wf = true := by
  have := keep_vReadElems s g p sid n ua5 ua6 hmem
  rw [heq] at this
  exact this

theorem keep_vSettle (s : State) (g : ℕ) (sid : ℕ) (pte : Option (BitVec 20)) (els : List VElem) (hmem : s.mem.wf = true) : (State.vSettle s g sid pte els).mem.wf = true := by
  unfold State.vSettle
  repeat' first
    | with_reducible assumption | with_reducible apply keep_setXfer | with_reducible apply keep_giveUp
    | with_reducible apply keep_flyIn | with_reducible apply keep_foldl | with_reducible apply keep_foldl_fst
    | with_reducible apply keep_foldl_snd | with_reducible apply keep_foldl_snd_fst | intro _ | dsimp only | split

theorem keep_vectorLoaded (s : State) (g : ℕ) (e : Entry) (ty : ElemTy) (mk : MReg) (vd : VReg) (els : List VElem) (mst : BitVec 8) (eat : Bool) (hmem : s.mem.wf = true) : VStep.keeps (State.vectorLoaded s g e ty mk vd els mst eat) := by
  unfold State.vectorLoaded
  repeat' first
    | with_reducible assumption | with_reducible apply keep_updAct | with_reducible apply keep_consume
    | with_reducible apply VStep.keeps_done (heq := by assumption) | with_reducible apply VStep.keeps_of_done
    | with_reducible apply VStep.keeps_wait (heq := by assumption) | with_reducible apply VStep.keeps_of_wait
    | with_reducible apply VStep.keeps_withdrawn (heq := by assumption)
    | with_reducible apply VStep.keeps_of_withdrawn | with_reducible apply VStep.keeps_of_plain | intro _
    | dsimp only | split

theorem keep_loadGoesOn (s : State) (g : ℕ) (e : Entry) (ty : ElemTy) (mk : MReg) (vd : VReg) (eat : Bool) (stop : VStop) (els : List VElem) (hmem : s.mem.wf = true) : VStep.keeps (State.loadGoesOn s g e ty mk vd eat stop els) := by
  unfold State.loadGoesOn
  extract_lets t p n loc
  split
  rename_i _ later s1 h1
  have k1 : s1.mem.wf = true := by
    split at h1
    · have := keep_choose s hmem
      rw [h1] at this
      exact this
    · cases h1
      exact hmem
  split
  rename_i _ els2 s2 h2
  have k2 : s2.mem.wf = true := keep_vReadElems' (heq := h2) (hmem := k1)
  extract_lets s3 s4 s5
  have k3 : s3.mem.wf = true := keep_vSettle _ _ _ _ _ k2
  have k4 : s4.mem.wf = true := by
    unfold s4
    split
    · exact keep_updAct _ _ _ k3
    · exact k3
  have k5 : s5.mem.wf = true := by
    unfold s5
    split
    · exact k4
    · exact keep_updAct _ _ _ k4
  split
  · exact VStep.keeps_of_withdrawn k5
  · exact VStep.keeps_of_wait (keep_engineStall _ _ _ _ _ _ k5)
  · exact VStep.keeps_of_wait k5
  · exact if_keeps (keep_vectorLoaded _ _ _ _ _ _ _ _ _ k5) (VStep.keeps_of_wait k5)

theorem keep_loadStatus (s : State) (w : Who) (t : Option Token) (xd : XReg) (sgn : Bool) (loc : ℕ) (hmem : s.mem.wf = true) : (State.loadStatus s w t xd sgn loc).mem.wf = true := by
  unfold State.loadStatus
  repeat' first
    | with_reducible assumption | with_reducible apply keep_send
    | with_reducible apply keep_send' (heq := by assumption) | with_reducible apply keep_flyIn
    | with_reducible apply keep_updWho | with_reducible apply keep_finishLoad
    | with_reducible apply keep_statusTouch | with_reducible apply keep_countFate | intro _ | dsimp only | split

theorem keep_lowerPreds (s : State) (n : ℕ) (hmem : s.mem.wf = true) : (State.lowerPreds s n).mem.wf = true := by
  unfold State.lowerPreds
  repeat' first
    | with_reducible assumption | intro _ | dsimp only | split

theorem keep_setMail (s : State) (d : Fin 8) (n : BitVec 6) (m : Mailbox) (hmem : s.mem.wf = true) : (State.setMail s d n m).mem.wf = true := by
  unfold State.setMail
  repeat' first
    | with_reducible assumption | with_reducible apply keep_updDie | intro _ | dsimp only | split

theorem keep_reclaim (s : State) (d : Fin 8) (n : BitVec 6) (hmem : s.mem.wf = true) : (State.reclaim s d n).mem.wf = true := by
  unfold State.reclaim
  repeat' first
    | with_reducible assumption | with_reducible apply keep_setMail | intro _ | dsimp only | split

theorem keep_mailWord0 (s : State) (d : Fin 8) (n : BitVec 6) (w : W64) (hmem : s.mem.wf = true) : (State.mailWord0 s d n w).mem.wf = true := by
  unfold State.mailWord0
  repeat' first
    | with_reducible assumption | with_reducible apply keep_reclaim | with_reducible apply keep_setMail | intro _
    | dsimp only | split

theorem keep_raiseHost (s : State) (d : Fin 8) (n : BitVec 6) (target : W64) (hmem : s.mem.wf = true) : (State.raiseHost s d n target).mem.wf = true := by
  unfold State.raiseHost
  repeat' first
    | with_reducible assumption | with_reducible apply keep_updCtx | intro _ | dsimp only | split

theorem keep_mailWord1 (s : State) (d : Fin 8) (n : BitVec 6) (w : W64) (hmem : s.mem.wf = true) : (State.mailWord1 s d n w).mem.wf = true := by
  unfold State.mailWord1
  repeat' first
    | with_reducible assumption | with_reducible apply keep_dropPost | with_reducible apply keep_setMail
    | with_reducible apply keep_raiseHost | intro _ | dsimp only | split

theorem keep_setK (s : State) (g : ℕ) (kd : KReg) (t : Token) (hmem : s.mem.wf = true) : (State.setK s g kd t).mem.wf = true := by
  unfold State.setK
  repeat' first
    | with_reducible assumption | with_reducible apply keep_updAct | with_reducible apply keep_released
    | with_reducible apply keep_held | intro _ | dsimp only | split

theorem keep_makePhys (s : State) (g : ℕ) (c : CtxId) (kd : KReg) (pa : W64) (len : W64) (rights : BitVec 4) (ms : Bool) (host : Bool) (hmem : s.mem.wf = true) : Made.keeps (State.makePhys s g c kd pa len rights ms host) := by
  unfold State.makePhys
  repeat' first
    | with_reducible assumption | with_reducible apply keep_newEntry | with_reducible apply keep_setK
    | with_reducible apply keep_pinRecord | with_reducible apply Exc.keeps_ok (heq := by assumption)
    | with_reducible apply Exc.keeps_of_ok | with_reducible apply Exc.keeps_of_error
    | with_reducible apply Made.keeps_token (heq := by assumption) | with_reducible apply Made.keeps_of_token
    | with_reducible apply Made.keeps_of_trap | intro _ | dsimp only | split

theorem keep_makeRoom (s : State) (g : ℕ) (locs : List ℕ) (ua3 : ℕ) (hmem : s.mem.wf = true) : (State.makeRoom s g locs ua3).mem.wf = true := by
  induction ua3 generalizing s with
  | zero =>
    unfold State.makeRoom
    repeat' first
      | with_reducible assumption | with_reducible apply keep_depart | intro _ | dsimp only | split
  | succ n ih =>
    unfold State.makeRoom
    repeat' first
      | with_reducible assumption | with_reducible apply ih | with_reducible apply keep_depart | intro _ | dsimp only | split

theorem keep_withdrawMat (s : State) (g : ℕ) (e : Entry) (pte : BitVec 20) (hmem : s.mem.wf = true) : (State.withdrawMat s g e pte).mem.wf = true := by
  unfold State.withdrawMat
  repeat' first
    | with_reducible assumption | with_reducible apply keep_orphan | with_reducible apply keep_releaseAll
    | with_reducible apply keep_withdrawCmd | with_reducible apply keep_updAct | intro _ | dsimp only | split

theorem keep_performRow (s : State) (g : ℕ) (j : DrainJob) (ty : ElemTy) (l : Fates) (hmem : s.mem.wf = true) : (State.performRow s g j ty l).mem.wf = true := by
  unfold State.performRow
  repeat' first
    | with_reducible assumption | with_reducible apply keep_engineDenials
    | with_reducible apply keep_engineDenials' (heq := by assumption) | with_reducible apply keep_lineFates
    | with_reducible apply keep_lineFates' (heq := by assumption) | with_reducible apply keep_engineWrite
    | with_reducible apply keep_consume | with_reducible apply keep_updAct | with_reducible apply keep_foldl
    | with_reducible apply keep_foldl_fst | with_reducible apply keep_foldl_snd
    | with_reducible apply keep_foldl_snd_fst | intro _ | dsimp only | split

theorem keep_memDrain (s : State) (g : ℕ) (j : DrainJob) (ty : ElemTy) (hmem : s.mem.wf = true) : (State.memDrain s g j ty).mem.wf = true := by
  unfold State.memDrain
  repeat' first
    | with_reducible assumption | with_reducible apply keep_withdrawMat | with_reducible apply keep_engineStall
    | with_reducible apply keep_carry | with_reducible apply keep_carry' (heq := by assumption)
    | with_reducible apply keep_performRow | intro _ | dsimp only | split

theorem keep_mpopAct (s : State) (ty : ElemTy) (xd : XReg) (mk : MReg) (hmem : s.mem.wf = true) : (State.mpopAct s ty xd mk).mem.wf = true := by
  unfold State.mpopAct
  repeat' first
    | with_reducible assumption | with_reducible apply keep_wx | intro _ | dsimp only | split

theorem keep_nestDenials (s : State) (w : Who) (n : Nest) (p : EPtr) (ds : List ℤ) (hmem : s.mem.wf = true) : (State.nestDenials s w n p ds).1.mem.wf = true := by
  unfold State.nestDenials
  repeat' first
    | with_reducible assumption | with_reducible apply keep_engineDenials
    | with_reducible apply keep_engineDenials' (heq := by assumption) | intro _ | dsimp only | split
theorem keep_nestDenials' {r0} {r1} (s : State) (w : Who) (n : Nest) (p : EPtr) (ds : List ℤ) (hmem : s.mem.wf = true) (heq : (State.nestDenials s w n p ds) = (r0, r1)) : r0.mem.wf = true := by
  have := keep_nestDenials s w n p ds hmem
  rw [heq] at this
  exact this

theorem keep_newOp (s : State) (o : HomeOp) (t : Option Token) (hmem : s.mem.wf = true) : (State.newOp s o t).2.mem.wf = true := by
  unfold State.newOp
  repeat' first
    | with_reducible assumption | with_reducible apply keep_setCore | with_reducible apply keep_triggerDrain
    | with_reducible apply keep_flyIn | intro _ | dsimp only | split
theorem keep_newOp' {r0} {r1} (s : State) (o : HomeOp) (t : Option Token) (hmem : s.mem.wf = true) (heq : (State.newOp s o t) = (r0, r1)) : r1.mem.wf = true := by
  have := keep_newOp s o t hmem
  rw [heq] at this
  exact this

theorem keep_prefAct (s : State) (d : ℕ) (e : BitVec 20) (list : W64) (bitmap : W64) (hmem : s.mem.wf = true) : (State.prefAct s d e list bitmap).mem.wf = true := by
  unfold State.prefAct
  repeat' first
    | with_reducible assumption | with_reducible apply keep_setPin | with_reducible apply keep_updDie | intro _
    | dsimp only | split

theorem keep_pretAct (s : State) (d : ℕ) (e : BitVec 20) (hmem : s.mem.wf = true) : (State.pretAct s d e).mem.wf = true := by
  unfold State.pretAct
  repeat' first
    | with_reducible assumption | with_reducible apply keep_freePin | intro _ | dsimp only | split

theorem keep_occAct (s : State) (i : Instr) (e : BitVec 20) (hmem : s.mem.wf = true) : (State.occAct s i e).mem.wf = true := by
  unfold State.occAct
  repeat' first
    | with_reducible assumption | with_reducible apply keep_prefAct | with_reducible apply keep_pretAct | intro _
    | dsimp only | split

theorem keep_orFstat (s : State) (w : Who) (b : FFlags) (hmem : s.mem.wf = true) : (State.orFstat s w b).mem.wf = true := by
  unfold State.orFstat
  repeat' first
    | with_reducible assumption | with_reducible apply keep_updWho | intro _ | dsimp only | split

theorem keep_outOfService (s : State) (hmem : s.mem.wf = true) : (State.outOfService s).mem.wf = true := by
  unfold State.outOfService
  repeat' first
    | with_reducible assumption | intro _ | dsimp only | split

theorem keep_pairUp (s : State) (a : ℕ × ℕ) (b : ℕ × ℕ) (hmem : s.mem.wf = true) : (State.pairUp s a b).mem.wf = true := by
  unfold State.pairUp
  repeat' first
    | with_reducible assumption | with_reducible apply keep_unannounce | with_reducible apply keep_collDone
    | with_reducible apply keep_putColl | intro _ | dsimp only | split

theorem keep_stepEnds (s : State) (g : ℕ) (n : Nest) (t : CtxSet) (stop : Bool) (hmem : s.mem.wf = true) : (State.stepEnds s g n t stop).mem.wf = true := by
  unfold State.stepEnds
  repeat' first
    | with_reducible assumption | with_reducible apply keep_nestDone | with_reducible apply keep_consume
    | with_reducible apply keep_updAct | intro _ | dsimp only | split

theorem keep_performStep (s : State) (g : ℕ) (n : Nest) (l : Fates) (f : StepFault) (hmem : s.mem.wf = true) : (State.performStep s g n l f).mem.wf = true := by
  unfold State.performStep
  repeat' first
    | with_reducible assumption | with_reducible apply keep_checkStep
    | with_reducible apply keep_checkStep' (heq := by assumption) | with_reducible apply keep_countOps
    | with_reducible apply keep_nestDenials | with_reducible apply keep_nestDenials' (heq := by assumption)
    | with_reducible apply keep_updCore | with_reducible apply keep_updAct | with_reducible apply keep_stepEnds
    | with_reducible apply keep_foldl | with_reducible apply keep_foldl_fst | with_reducible apply keep_foldl_snd
    | with_reducible apply keep_foldl_snd_fst | intro _ | dsimp only | split

theorem keep_placeWord (s : State) (w : ℕ) (hmem : s.mem.wf = true) : (State.placeWord s w).mem.wf = true := by
  unfold State.placeWord
  exact Memory.wf_foldl_set _ _ hmem

theorem keep_translate (s : State) (g : ℕ) (c : CtxId) (kd : KReg) (va : W64) (len : W64) (rights : BitVec 4) (ms : Bool) (hmem : s.mem.wf = true) : Made.keeps (State.translate s g c kd va len rights ms) := by
  unfold State.translate
  repeat' first
    | with_reducible assumption | with_reducible apply keep_newEntry | with_reducible apply keep_setK
    | with_reducible apply keep_pinRecord | with_reducible apply Exc.keeps_ok (heq := by assumption)
    | with_reducible apply Exc.keeps_of_ok | with_reducible apply Exc.keeps_of_error
    | with_reducible apply Made.keeps_token (heq := by assumption) | with_reducible apply Made.keeps_of_token
    | with_reducible apply Made.keeps_of_trap | intro _ | dsimp only | split

theorem keep_playXlat (s : State) (g : ℕ) (c : CtxId) (n : BitVec 3) (p : Vector W64 16) (table : Vector Token 16) (i : ℕ) (hmem : s.mem.wf = true) : PlayFound.keeps (State.playXlat s g c n p table i) := by
  unfold State.playXlat
  repeat' first
    | with_reducible assumption | with_reducible apply keep_translate
    | with_reducible apply Made.keeps_token (heq := by assumption) | with_reducible apply Made.keeps_of_token
    | with_reducible apply Made.keeps_of_trap | with_reducible apply PlayFound.keeps_ok (heq := by assumption)
    | with_reducible apply PlayFound.keeps_of_ok | with_reducible apply PlayFound.keeps_fail (heq := by assumption)
    | with_reducible apply PlayFound.keeps_of_fail | intro _ | dsimp only | split

theorem keep_playXlatsAll (s : State) (g : ℕ) (c : CtxId) (n : BitVec 3) (p : Vector W64 16) (table : Vector Token 16) (ua6 : List ℕ) (hmem : s.mem.wf = true) : PlayFound.keeps (State.playXlatsAll s g c n p table ua6) := by
  induction ua6 generalizing s table with
  | nil =>
    unfold State.playXlatsAll
    repeat' first
      | with_reducible assumption | with_reducible apply keep_playXlat
      | with_reducible apply PlayFound.keeps_ok (heq := by assumption) | with_reducible apply PlayFound.keeps_of_ok
      | with_reducible apply PlayFound.keeps_fail (heq := by assumption)
      | with_reducible apply PlayFound.keeps_of_fail | intro _ | dsimp only | split
  | cons hd tl ih =>
    unfold State.playXlatsAll
    repeat' first
      | with_reducible assumption | with_reducible apply ih | with_reducible apply keep_playXlat
      | with_reducible apply PlayFound.keeps_ok (heq := by assumption) | with_reducible apply PlayFound.keeps_of_ok
      | with_reducible apply PlayFound.keeps_fail (heq := by assumption)
      | with_reducible apply PlayFound.keeps_of_fail | intro _ | dsimp only | split

theorem keep_playChecks (s : State) (g : ℕ) (c : CtxId) (n : BitVec 3) (p : Vector W64 16) (hmem : s.mem.wf = true) : PlayFound.keeps (State.playChecks s g c n p) := by
  unfold State.playChecks
  repeat' first
    | with_reducible assumption | with_reducible apply keep_playXlatsAll
    | with_reducible apply PlayFound.keeps_ok (heq := by assumption) | with_reducible apply PlayFound.keeps_of_ok
    | with_reducible apply PlayFound.keeps_fail (heq := by assumption)
    | with_reducible apply PlayFound.keeps_of_fail | intro _ | dsimp only | split

theorem keep_playFails (s : State) (g : ℕ) (e : Entry) (k : Cause) (v : ℕ) (hmem : s.mem.wf = true) : (State.playFails s g e k v).mem.wf = true := by
  unfold State.playFails
  repeat' first
    | with_reducible assumption | with_reducible apply keep_releaseAll | with_reducible apply keep_trap | intro _
    | dsimp only | split

theorem keep_playPasses (s : State) (g : ℕ) (e : Entry) (xa : XReg) (n : BitVec 3) (pv : Vector W64 16) (table : Vector Token 16) (hmem : s.mem.wf = true) : (State.playPasses s g e xa n pv table).mem.wf = true := by
  unfold State.playPasses
  repeat' first
    | with_reducible assumption | with_reducible apply keep_updAct | with_reducible apply keep_beginPlay
    | with_reducible apply keep_updCtx | with_reducible apply keep_releaseAll | intro _ | dsimp only | split

theorem keep_playGoesOn (s : State) (g : ℕ) (e : Entry) (xa : XReg) (n : BitVec 3) (c : PlayCheck) (hmem : s.mem.wf = true) : (State.playGoesOn s g e xa n c).mem.wf = true := by
  unfold State.playGoesOn
  repeat' first
    | with_reducible assumption | with_reducible apply keep_playPasses | with_reducible apply keep_updAct | intro _
    | dsimp only | split

theorem keep_playWithdrawn (s : State) (g : ℕ) (e : Entry) (pte : BitVec 20) (hmem : s.mem.wf = true) : (State.playWithdrawn s g e pte).mem.wf = true := by
  unfold State.playWithdrawn
  repeat' first
    | with_reducible assumption | with_reducible apply keep_updAct | intro _ | dsimp only | split

theorem keep_poccAct (s : State) (d : ℕ) (e : BitVec 20) (hmem : s.mem.wf = true) : (State.poccAct s d e).mem.wf = true := by
  unfold State.poccAct
  repeat' first
    | with_reducible assumption | with_reducible apply keep_settlePin | with_reducible apply keep_unkeep
    | with_reducible apply keep_setPin | intro _ | dsimp only | split

theorem keep_poisonBlock (s : State) (dst : ℕ) (n : ℕ) (hmem : s.mem.wf = true) : (State.poisonBlock s dst n).mem.wf = true := by
  unfold State.poisonBlock
  exact Memory.wf_splice _ _ _ _ (keep_clobber _ _ _ hmem) rfl (by simp)

theorem keep_publishSlots (s : State) (g : ℕ) (h : HReg) (fill : Bool) (ua4 : ℕ) (ua5 : StreamRun) (hmem : s.mem.wf = true) : (State.publishSlots s g h fill ua4 ua5).1.mem.wf = true := by
  induction ua4 generalizing s ua5 with
  | zero =>
    unfold State.publishSlots
    repeat' first
      | with_reducible assumption | with_reducible apply keep_writeHome | with_reducible apply keep_setRing | intro _
      | dsimp only | split
  | succ n ih =>
    unfold State.publishSlots
    repeat' first
      | with_reducible assumption | with_reducible apply ih | with_reducible apply keep_writeHome | with_reducible apply keep_setRing | intro _
      | dsimp only | split
theorem keep_publishSlots' {r0} {r1} (s : State) (g : ℕ) (h : HReg) (fill : Bool) (ua4 : ℕ) (ua5 : StreamRun) (hmem : s.mem.wf = true) (heq : (State.publishSlots s g h fill ua4 ua5) = (r0, r1)) : r0.mem.wf = true := by
  have := keep_publishSlots s g h fill ua4 ua5 hmem
  rw [heq] at this
  exact this

theorem keep_publishRun (s : State) (g : ℕ) (r : StreamRun) (hmem : s.mem.wf = true) : (State.publishRun s g r).1.mem.wf = true := by
  unfold State.publishRun
  repeat' first
    | with_reducible assumption | with_reducible apply keep_publishSlots
    | with_reducible apply keep_publishSlots' (heq := by assumption) | intro _ | dsimp only | split
theorem keep_publishRun' {r0} {r1} (s : State) (g : ℕ) (r : StreamRun) (hmem : s.mem.wf = true) (heq : (State.publishRun s g r) = (r0, r1)) : r0.mem.wf = true := by
  have := keep_publishRun s g r hmem
  rw [heq] at this
  exact this

theorem keep_purgeStart (s : State) (g : ℕ) (own : Option (Fin 8 × BitVec 6)) (tag : W16) (source : ℕ) (off : W64) (hmem : s.mem.wf = true) : (State.purgeStart s g own tag source off).mem.wf = true := by
  unfold State.purgeStart
  repeat' first
    | with_reducible assumption | with_reducible apply keep_notifyDie | with_reducible apply keep_containRecord
    | intro _ | dsimp only | split

theorem keep_purgeTag (s : State) (tag : W16) (hmem : s.mem.wf = true) : (State.purgeTag s tag).mem.wf = true := by
  unfold State.purgeTag
  repeat' first
    | with_reducible assumption | with_reducible apply keep_killCards | with_reducible apply keep_killParties
    | with_reducible apply keep_dropTraffic | with_reducible apply keep_foldl | with_reducible apply keep_foldl_fst
    | with_reducible apply keep_foldl_snd | with_reducible apply keep_foldl_snd_fst | intro _ | dsimp only | split

theorem keep_pushBytes (s : State) (w : Who) (t : Option Token) (l : List SByte) (hmem : s.mem.wf = true) : (State.pushBytes s w t l).mem.wf = true := by
  unfold State.pushBytes
  repeat' first
    | with_reducible assumption | with_reducible apply keep_addFail | with_reducible apply keep_pushStore
    | with_reducible apply keep_foldl | with_reducible apply keep_foldl_fst | with_reducible apply keep_foldl_snd
    | with_reducible apply keep_foldl_snd_fst | intro _ | dsimp only | split

theorem keep_pushGroup (s : State) (w : Who) (t : CtxSet) (ins : Instr) (ty : ElemTy) (vd : VReg) (base : ℤ) (tok : Option Token) (gr : List (ElemAt × Places)) (hmem : s.mem.wf = true) : (State.pushGroup s w t ins ty vd base tok gr).mem.wf = true := by
  unfold State.pushGroup
  repeat' first
    | with_reducible assumption | with_reducible apply keep_pushBytes | with_reducible apply keep_foldl
    | with_reducible apply keep_foldl_fst | with_reducible apply keep_foldl_snd
    | with_reducible apply keep_foldl_snd_fst | intro _ | dsimp only | split

theorem keep_readDue (s : State) (g : ℕ) (c : CtxId) (hmem : s.mem.wf = true) : (State.readDue s g c).mem.wf = true := by
  unfold State.readDue
  repeat' first
    | with_reducible assumption | with_reducible apply keep_choose
    | with_reducible apply keep_choose' (heq := by assumption) | with_reducible apply keep_dueBytes
    | with_reducible apply keep_dueBytes' (heq := by assumption) | with_reducible apply keep_finishLoad
    | with_reducible apply keep_updWho | intro _ | dsimp only | split

theorem keep_recBranch (s : State) (rel : BitVec 3) (rs1 : XReg) (rs2 : XReg) (taken : Bool) (hmem : s.mem.wf = true) : (State.recBranch s rel rs1 rs2 taken).mem.wf = true := by
  unfold State.recBranch
  repeat' first
    | with_reducible assumption | with_reducible apply keep_recEntry | with_reducible apply keep_smudgeMe | intro _
    | dsimp only | split

theorem keep_recWait (s : State) (tl : Timeline) (n : W64) (hmem : s.mem.wf = true) : (State.recWait s tl n).mem.wf = true := by
  unfold State.recWait
  repeat' first
    | with_reducible assumption | with_reducible apply keep_smudgeMe | with_reducible apply keep_recEntry | intro _
    | dsimp only | split

theorem keep_recXlat (s : State) (kd : KReg) (va : W64) (len : W64) (tva : Tag) (tlen : Tag) (rights : BitVec 4) (ms : Bool) (hmem : s.mem.wf = true) : (State.recXlat s kd va len tva tlen rights ms).mem.wf = true := by
  unfold State.recXlat
  repeat' first
    | with_reducible assumption | with_reducible apply keep_smudgeMe | with_reducible apply keep_recEntry
    | with_reducible apply keep_updCore | intro _ | dsimp only | split

theorem keep_recordDenials (s : State) (w : Who) (t : Option Token) (off : ℕ) (code : ℕ) (places : Places) (bit : ByteFail → BitVec 8) (hmem : s.mem.wf = true) : (State.recordDenials s w t off code places bit).mem.wf = true := by
  unfold State.recordDenials
  repeat' first
    | with_reducible assumption | with_reducible apply keep_denialRecords | intro _ | dsimp only | split

theorem keep_reroute (s : State) (id : ℕ) (hmem : s.mem.wf = true) : (State.reroute s id).mem.wf = true := by
  unfold State.reroute
  repeat' first
    | with_reducible assumption | with_reducible apply keep_setReq | intro _ | dsimp only | split

theorem keep_restore (s : State) (g : ℕ) (j : ℕ) (p : Fin 2) (hmem : s.mem.wf = true) : (State.restore s g j p).mem.wf = true := by
  unfold State.restore
  repeat' first
    | with_reducible assumption | with_reducible apply keep_updCore | with_reducible apply keep_held
    | with_reducible apply keep_savedBy | with_reducible apply keep_haltWho | with_reducible apply keep_foldl
    | with_reducible apply keep_foldl_fst | with_reducible apply keep_foldl_snd
    | with_reducible apply keep_foldl_snd_fst | intro _ | dsimp only | split

theorem keep_resumeCount (s : State) (g : ℕ) (c : CtxId) (hmem : s.mem.wf = true) : (State.resumeCount s g c).mem.wf = true := by
  unfold State.resumeCount
  repeat' first
    | with_reducible assumption | with_reducible apply keep_updCtx | intro _ | dsimp only | split

theorem keep_retry (s : State) (g : ℕ) (c : CtxId) (hmem : s.mem.wf = true) : (State.retry s g c).mem.wf = true := by
  unfold State.retry
  repeat' first
    | with_reducible assumption | with_reducible apply keep_updCtx | intro _ | dsimp only | split

theorem keep_ringDrainStep (s : State) (g : ℕ) (j : DrainJob) (h : HReg) (ty : ElemTy) (hmem : s.mem.wf = true) : (State.ringDrainStep s g j h ty).mem.wf = true := by
  unfold State.ringDrainStep
  repeat' first
    | with_reducible assumption | with_reducible apply keep_updAct | with_reducible apply keep_engineWrite
    | with_reducible apply keep_setRing | intro _ | dsimp only | split

theorem keep_ringLoad (s : State) (g : ℕ) (e : Entry) (ty : ElemTy) (mk : MReg) (h : HReg) (vd : VReg) (hmem : s.mem.wf = true) : VStep.keeps (State.ringLoad s g e ty mk h vd) := by
  unfold State.ringLoad
  repeat' first
    | with_reducible assumption | with_reducible apply keep_updAct
    | with_reducible apply VStep.keeps_done (heq := by assumption) | with_reducible apply VStep.keeps_of_done
    | with_reducible apply VStep.keeps_wait (heq := by assumption) | with_reducible apply VStep.keeps_of_wait
    | with_reducible apply VStep.keeps_withdrawn (heq := by assumption)
    | with_reducible apply VStep.keeps_of_withdrawn | with_reducible apply VStep.keeps_of_plain | intro _
    | dsimp only | split

theorem keep_ringStore (s : State) (g : ℕ) (e : Entry) (ty : ElemTy) (mk : MReg) (h : HReg) (vd : VReg) (hmem : s.mem.wf = true) : VStep.keeps (State.ringStore s g e ty mk h vd) := by
  rw [State.ringStore]
  extract_lets all locs s1
  have h1 : s1.mem.wf = true := keep_makeRoom _ _ _ _ hmem
  split
  · exact VStep.keeps_of_done hmem
  · split
    · exact VStep.keeps_of_wait hmem
    · split
      · exact VStep.keeps_of_wait h1
      · split
        · exact VStep.keeps_of_wait (keep_triggerDrain _ _ _ h1)
        · exact VStep.keeps_of_done (keep_pushGroup _ _ _ _ _ _ _ _ _ h1)

theorem keep_windowWrite (s : State) (o : ℕ) (b : List Byte) (hmem : s.mem.wf = true) : (State.windowWrite s o b).mem.wf = true := by
  unfold State.windowWrite
  repeat' first
    | with_reducible assumption | with_reducible apply keep_writeHome | intro _ | dsimp only | split

theorem keep_serve (s : State) (m : Mailbox) (hmem : s.mem.wf = true) : (State.serve s m).mem.wf = true := by
  unfold State.serve
  repeat' first
    | with_reducible assumption | with_reducible apply keep_setMail | with_reducible apply keep_windowWrite
    | with_reducible apply keep_notify | intro _ | dsimp only | split

theorem keep_setBarrier (s : State) (i : BarInst) (hmem : s.mem.wf = true) : (State.setBarrier s i).mem.wf = true := by
  unfold State.setBarrier
  repeat' first
    | with_reducible assumption | intro _ | dsimp only | split

theorem keep_setTag (s : State) (r : XReg) (t : Tag) (hmem : s.mem.wf = true) : (State.setTag s r t).mem.wf = true := by
  unfold State.setTag
  repeat' first
    | with_reducible assumption | with_reducible apply keep_updMe | intro _ | dsimp only | split

theorem keep_srstAct (s : State) (op : CsrOp) (rd : XReg) (src : BitVec 5) (hmem : s.mem.wf = true) : (State.srstAct s op rd src).mem.wf = true := by
  unfold State.srstAct
  repeat' first
    | with_reducible assumption | with_reducible apply keep_csrAct | intro _ | dsimp only | split

theorem keep_stageEntry (s : State) (d : ℕ) (e : BitVec 20) (dst : List ℕ) (hmem : s.mem.wf = true) : (State.stageEntry s d e dst).mem.wf = true := by
  unfold State.stageEntry
  repeat' first
    | with_reducible assumption | with_reducible apply keep_copyBytes | with_reducible apply keep_poisonBlock
    | with_reducible apply keep_setPin | with_reducible apply keep_updDie | with_reducible apply keep_foldl
    | with_reducible apply keep_foldl_fst | with_reducible apply keep_foldl_snd
    | with_reducible apply keep_foldl_snd_fst | intro _ | dsimp only | split

theorem keep_stageAll (s : State) (d : ℕ) (base : ℕ) (ua3 : List Token) (ua4 : List ℕ) (hmem : s.mem.wf = true) : (State.stageAll s d base ua3 ua4).mem.wf = true := by
  induction ua3 generalizing s ua4 with
  | nil =>
    unfold State.stageAll
    repeat' first
      | with_reducible assumption | with_reducible apply keep_stageEntry | intro _ | dsimp only | split
  | cons hd tl ih =>
    unfold State.stageAll
    repeat' first
      | with_reducible assumption | with_reducible apply ih | with_reducible apply keep_stageEntry | intro _ | dsimp only | split

theorem keep_startParty (s : State) (g : ℕ) (hmem : s.mem.wf = true) : (State.startParty s g).mem.wf = true := by
  unfold State.startParty
  repeat' first
    | with_reducible assumption | with_reducible apply keep_selfInvalidate | with_reducible apply keep_updAct
    | with_reducible apply keep_cardRecording | with_reducible apply keep_collConsume
    | with_reducible apply keep_playChecks | with_reducible apply keep_beginPlay
    | with_reducible apply PlayFound.keeps_ok (heq := by assumption) | with_reducible apply PlayFound.keeps_of_ok
    | with_reducible apply PlayFound.keeps_fail (heq := by assumption)
    | with_reducible apply PlayFound.keeps_of_fail | intro _ | dsimp only | split

theorem keep_storeSmudge (s : State) (p : W64) (hmem : s.mem.wf = true) : (State.storeSmudge s p).mem.wf = true := by
  unfold State.storeSmudge
  repeat' first
    | with_reducible assumption | with_reducible apply keep_smudge | intro _ | dsimp only | split

theorem keep_strayLoad (s : State) (rd : XReg) (hmem : s.mem.wf = true) : (State.strayLoad s rd).mem.wf = true := by
  unfold State.strayLoad
  repeat' first
    | with_reducible assumption | with_reducible apply keep_wx | with_reducible apply keep_orMstat | intro _
    | dsimp only | split

theorem keep_takeAsync (s : State) (g : ℕ) (c : CtxId) (hmem : s.mem.wf = true) : OptS.keeps (State.takeAsync s g c) := by
  unfold State.takeAsync
  repeat' first
    | with_reducible assumption | with_reducible apply keep_trap | with_reducible apply keep_updCtx
    | with_reducible apply OptS.keeps_some (heq := by assumption) | with_reducible apply OptS.keeps_of_some
    | with_reducible apply OptS.keeps_of_none | intro _ | dsimp only | split

theorem keep_takeTicket (s : State) (o : HomeOp) (hmem : s.mem.wf = true) : (State.takeTicket s o).2.mem.wf = true := by
  unfold State.takeTicket
  repeat' first
    | with_reducible assumption | with_reducible apply keep_updDie | intro _ | dsimp only | split
theorem keep_takeTicket' {r0} {r1} (s : State) (o : HomeOp) (hmem : s.mem.wf = true) (heq : (State.takeTicket s o) = (r0, r1)) : r1.mem.wf = true := by
  have := keep_takeTicket s o hmem
  rw [heq] at this
  exact this

theorem keep_trapMe (s : State) (k : Cause) (val : W64) (hmem : s.mem.wf = true) : (State.trapMe s k val).mem.wf = true := by
  unfold State.trapMe
  repeat' first
    | with_reducible assumption | with_reducible apply keep_trap | intro _ | dsimp only | split

theorem keep_trapReturn (s : State) (hmem : s.mem.wf = true) : (State.trapReturn s).mem.wf = true := by
  unfold State.trapReturn
  repeat' first
    | with_reducible assumption | with_reducible apply keep_updMe | with_reducible apply keep_holdMe
    | with_reducible apply keep_haltAll | with_reducible apply keep_trapMe | intro _ | dsimp only | split

theorem keep_vxmvAct (s : State) (ty : ElemTy) (xd : XReg) (vs1 : VReg) (xi : XReg) (hmem : s.mem.wf = true) : (State.vxmvAct s ty xd vs1 xi).mem.wf = true := by
  unfold State.vxmvAct
  repeat' first
    | with_reducible assumption | with_reducible apply keep_wx | intro _ | dsimp only | split

theorem keep_vectorAct (s : State) (i : Instr) (hmem : s.mem.wf = true) : (State.vectorAct s i).mem.wf = true := by
  unfold State.vectorAct
  repeat' first
    | with_reducible assumption | with_reducible apply keep_srstAct | with_reducible apply keep_vxmvAct
    | with_reducible apply keep_mpopAct | intro _ | dsimp only | split

theorem keep_tryWake (s : State) (g : ℕ) (c : CtxId) (hmem : s.mem.wf = true) : (State.tryWake s g c).mem.wf = true := by
  unfold State.tryWake
  repeat' first
    | with_reducible assumption | with_reducible apply keep_updCtx | with_reducible apply keep_orMstat
    | with_reducible apply keep_goOn | with_reducible apply keep_vectorAct | with_reducible apply keep_dropFetch
    | with_reducible apply keep_occAct | intro _ | dsimp only | split

theorem keep_twaitEnd (s : State) (g : ℕ) (c : CtxId) (tl : Timeline) (n : W64) (hmem : s.mem.wf = true) : (State.twaitEnd s g c tl n).mem.wf = true := by
  unfold State.twaitEnd
  repeat' first
    | with_reducible assumption | with_reducible apply keep_trap | with_reducible apply keep_updCtx
    | with_reducible apply keep_selfInvalidate | intro _ | dsimp only | split

theorem keep_updIsland (s : State) (i : ℕ) (f : Island → Island) (hmem : s.mem.wf = true) : (State.updIsland s i f).mem.wf = true := by
  unfold State.updIsland
  repeat' first
    | with_reducible assumption | with_reducible apply keep_updDie | intro _ | dsimp only | split

theorem keep_useFeed (s : State) (g : ℕ) (hmem : s.mem.wf = true) : (State.useFeed s g).mem.wf = true := by
  unfold State.useFeed
  repeat' first
    | with_reducible assumption | with_reducible apply keep_updCore | intro _ | dsimp only | split

theorem keep_useSlot (s : State) (g : ℕ) (c : CtxId) (hmem : s.mem.wf = true) : (State.useSlot s g c).mem.wf = true := by
  unfold State.useSlot
  repeat' first
    | with_reducible assumption | with_reducible apply keep_updCtx | with_reducible apply keep_updCore | intro _
    | dsimp only | split

theorem keep_vIssueByte (s : State) (g : ℕ) (p : EPtr) (seq : ℕ) (ua4 : VByte) (hmem : s.mem.wf = true) : (State.vIssueByte s g p seq ua4).2.mem.wf = true := by
  unfold State.vIssueByte
  repeat' first
    | with_reducible assumption | with_reducible apply keep_nearByte
    | with_reducible apply OptNB.keeps_some (heq := by assumption) | with_reducible apply OptNB.keeps_of_some
    | with_reducible apply OptNB.keeps_of_none | intro _ | dsimp only | split
theorem keep_vIssueByte' {r0} {r1} (s : State) (g : ℕ) (p : EPtr) (seq : ℕ) (ua4 : VByte) (hmem : s.mem.wf = true) (heq : (State.vIssueByte s g p seq ua4) = (r0, r1)) : r1.mem.wf = true := by
  have := keep_vIssueByte s g p seq ua4 hmem
  rw [heq] at this
  exact this

theorem keep_vIssueElems (s : State) (g : ℕ) (p : EPtr) (seq : ℕ) (i : ℕ) (ua5 : List VElem) (hmem : s.mem.wf = true) : (State.vIssueElems s g p seq i ua5).2.mem.wf = true := by
  induction ua5 generalizing s with
  | nil =>
    unfold State.vIssueElems
    repeat' first
      | with_reducible assumption | with_reducible apply keep_vIssueByte
      | with_reducible apply keep_vIssueByte' (heq := by assumption) | with_reducible apply keep_vReadByte
      | with_reducible apply keep_vReadByte' (heq := by assumption) | with_reducible apply keep_vEach | intro _
      | dsimp only | split
  | cons hd tl ih =>
    unfold State.vIssueElems
    repeat' first
      | with_reducible assumption | with_reducible apply ih | with_reducible apply keep_vIssueByte
      | with_reducible apply keep_vIssueByte' (heq := by assumption) | with_reducible apply keep_vReadByte
      | with_reducible apply keep_vReadByte' (heq := by assumption) | with_reducible apply keep_vEach | intro _
      | dsimp only | split
theorem keep_vIssueElems' {r0} {r1} (s : State) (g : ℕ) (p : EPtr) (seq : ℕ) (i : ℕ) (ua5 : List VElem) (hmem : s.mem.wf = true) (heq : (State.vIssueElems s g p seq i ua5) = (r0, r1)) : r1.mem.wf = true := by
  have := keep_vIssueElems s g p seq i ua5 hmem
  rw [heq] at this
  exact this

theorem keep_vIssue (s : State) (w : Who) (reqtag : W16) (p : EPtr) (seq : ℕ) (ua5 : List (List (ElemAt × Places))) (ua6 : List VElem) (hmem : s.mem.wf = true) : (State.vIssue s w reqtag p seq ua5 ua6).2.2.mem.wf = true := by
  induction ua5 generalizing s ua6 with
  | nil =>
    unfold State.vIssue
    repeat' first
      | with_reducible assumption | with_reducible apply keep_vIssueElems
      | with_reducible apply keep_vIssueElems' (heq := by assumption) | with_reducible apply keep_countLines
      | with_reducible apply keep_nearByte | with_reducible apply keep_sendLines
      | with_reducible apply keep_sendLines' (heq := by assumption) | with_reducible apply keep_setXfer
      | with_reducible apply keep_elemDenials | with_reducible apply keep_elemDenials' (heq := by assumption)
      | with_reducible apply keep_updAct | with_reducible apply OptNB.keeps_some (heq := by assumption)
      | with_reducible apply OptNB.keeps_of_some | with_reducible apply OptNB.keeps_of_none
      | with_reducible apply keep_foldl | with_reducible apply keep_foldl_fst | with_reducible apply keep_foldl_snd
      | with_reducible apply keep_foldl_snd_fst | intro _ | dsimp only | split
  | cons hd tl ih =>
    unfold State.vIssue
    repeat' first
      | with_reducible assumption | with_reducible apply ih | with_reducible apply keep_vIssueElems
      | with_reducible apply keep_vIssueElems' (heq := by assumption) | with_reducible apply keep_countLines
      | with_reducible apply keep_nearByte | with_reducible apply keep_sendLines
      | with_reducible apply keep_sendLines' (heq := by assumption) | with_reducible apply keep_setXfer
      | with_reducible apply keep_elemDenials | with_reducible apply keep_elemDenials' (heq := by assumption)
      | with_reducible apply keep_updAct | with_reducible apply OptNB.keeps_some (heq := by assumption)
      | with_reducible apply OptNB.keeps_of_some | with_reducible apply OptNB.keeps_of_none
      | with_reducible apply keep_foldl | with_reducible apply keep_foldl_fst | with_reducible apply keep_foldl_snd
      | with_reducible apply keep_foldl_snd_fst | intro _ | dsimp only | split
theorem keep_vIssue' {r0} {r1} {r2} (s : State) (w : Who) (reqtag : W16) (p : EPtr) (seq : ℕ) (ua5 : List (List (ElemAt × Places))) (ua6 : List VElem) (hmem : s.mem.wf = true) (heq : (State.vIssue s w reqtag p seq ua5 ua6) = (r0, r1, r2)) : r2.mem.wf = true := by
  have := keep_vIssue s w reqtag p seq ua5 ua6 hmem
  rw [heq] at this
  exact this

theorem keep_vectorLoad (s : State) (g : ℕ) (e : Entry) (ty : ElemTy) (mk : MReg) (vd : VReg) (l : List ElemAt) (eat : Bool) (hmem : s.mem.wf = true) : VStep.keeps (State.vectorLoad s g e ty mk vd l eat) := by
  unfold State.vectorLoad
  repeat' first
    | with_reducible assumption | with_reducible apply keep_vIssue
    | with_reducible apply keep_vIssue' (heq := by assumption) | with_reducible apply keep_loadGoesOn
    | with_reducible apply VStep.keeps_done (heq := by assumption) | with_reducible apply VStep.keeps_of_done
    | with_reducible apply VStep.keeps_wait (heq := by assumption) | with_reducible apply VStep.keeps_of_wait
    | with_reducible apply VStep.keeps_withdrawn (heq := by assumption)
    | with_reducible apply VStep.keeps_of_withdrawn | with_reducible apply VStep.keeps_of_plain | intro _
    | dsimp only | split

theorem keep_vectorStore (s : State) (g : ℕ) (e : Entry) (ty : ElemTy) (vd : VReg) (eat : Bool) (ua6 : List (List (ElemAt × Places))) (ua7 : ℕ) (hmem : s.mem.wf = true) : VStep.keeps (State.vectorStore s g e ty vd eat ua6 ua7) := by
  induction ua6 generalizing s ua7 with
  | nil =>
    rw [State.vectorStore]
    refine VStep.keeps_of_done ?_
    split
    · exact keep_consume _ _ _ _ hmem
    · exact hmem
  | cons hd tl ih =>
    rw [State.vectorStore]
    extract_lets p w locs s1 tok
    have h1 : s1.mem.wf = true := keep_makeRoom _ _ _ _ hmem
    split
    · exact ih _ _ hmem
    · split
      · exact VStep.keeps_of_withdrawn hmem
      · exact VStep.keeps_of_wait (keep_claimWrites _ _ _ (keep_engineStall _ _ _ _ _ _ hmem))
      · split
        · exact VStep.keeps_of_wait (keep_claimWrites _ _ _ h1)
        · split
          · exact VStep.keeps_of_wait (keep_claimWrites _ _ _ (keep_triggerDrain _ _ _ h1))
          · exact ih _ _ (keep_updAct _ _ _ (keep_pushGroup _ _ _ _ _ _ _ _ _ (keep_elemDenials _ _ _ _ _ _ _ h1)))

theorem keep_vadvEntry (s : State) (g : ℕ) (e : Entry) (h : HReg) (hmem : s.mem.wf = true) : VStep.keeps (State.vadvEntry s g e h) := by
  unfold State.vadvEntry
  repeat' first
    | with_reducible assumption | with_reducible apply keep_advance
    | with_reducible apply VStep.keeps_done (heq := by assumption) | with_reducible apply VStep.keeps_of_done
    | with_reducible apply VStep.keeps_wait (heq := by assumption) | with_reducible apply VStep.keeps_of_wait
    | with_reducible apply VStep.keeps_withdrawn (heq := by assumption)
    | with_reducible apply VStep.keeps_of_withdrawn | with_reducible apply VStep.keeps_of_plain | intro _
    | dsimp only | split

theorem keep_vpubEntry (s : State) (g : ℕ) (e : Entry) (h : HReg) (hmem : s.mem.wf = true) : VStep.keeps (State.vpubEntry s g e h) := by
  unfold State.vpubEntry
  repeat' first
    | with_reducible assumption | with_reducible apply keep_advance | with_reducible apply keep_updAct
    | with_reducible apply keep_triggerDrain | with_reducible apply VStep.keeps_done (heq := by assumption)
    | with_reducible apply VStep.keeps_of_done | with_reducible apply VStep.keeps_wait (heq := by assumption)
    | with_reducible apply VStep.keeps_of_wait | with_reducible apply VStep.keeps_withdrawn (heq := by assumption)
    | with_reducible apply VStep.keeps_of_withdrawn | with_reducible apply VStep.keeps_of_plain | intro _
    | dsimp only | split

theorem keep_vldaEntry (s : State) (g : ℕ) (e : Entry) (last : Bool) (acc : AccReg) (vd : VReg) (hmem : s.mem.wf = true) : VStep.keeps (State.vldaEntry s g e last acc vd) := by
  unfold State.vldaEntry
  repeat' first
    | with_reducible assumption | with_reducible apply keep_updAct
    | with_reducible apply VStep.keeps_done (heq := by assumption) | with_reducible apply VStep.keeps_of_done
    | with_reducible apply VStep.keeps_wait (heq := by assumption) | with_reducible apply VStep.keeps_of_wait
    | with_reducible apply VStep.keeps_withdrawn (heq := by assumption)
    | with_reducible apply VStep.keeps_of_withdrawn | with_reducible apply VStep.keeps_of_plain | intro _
    | dsimp only | split

theorem keep_vExec (s : State) (g : ℕ) (e : Entry) (hmem : s.mem.wf = true) : VStep.keeps (State.vExec s g e) := by
  unfold State.vExec
  repeat' first
    | with_reducible assumption | with_reducible apply keep_updAct | with_reducible apply keep_consume
    | with_reducible apply keep_vectorLoad | with_reducible apply keep_vectorStore
    | with_reducible apply keep_ringLoad | with_reducible apply keep_ringStore | with_reducible apply keep_vadvEntry
    | with_reducible apply keep_vpubEntry | with_reducible apply keep_vldaEntry
    | with_reducible apply VStep.keeps_done (heq := by assumption) | with_reducible apply VStep.keeps_of_done
    | with_reducible apply VStep.keeps_wait (heq := by assumption) | with_reducible apply VStep.keeps_of_wait
    | with_reducible apply VStep.keeps_withdrawn (heq := by assumption)
    | with_reducible apply VStep.keeps_of_withdrawn | with_reducible apply VStep.keeps_of_plain | intro _
    | dsimp only | split

theorem keep_waitTurn (s : State) (g : ℕ) (c : CtxId) (hmem : s.mem.wf = true) : Turn.keeps (State.waitTurn s g c) := by
  unfold State.waitTurn
  repeat' first
    | with_reducible assumption | with_reducible apply keep_fetchRemote | with_reducible apply keep_tryWake
    | with_reducible apply keep_readDue | with_reducible apply Turn.keeps_done (heq := by assumption)
    | with_reducible apply Turn.keeps_of_done | with_reducible apply Turn.keeps_of_run
    | with_reducible apply Turn.keeps_of_retry | with_reducible apply Turn.keeps_of_event | intro _ | dsimp only
    | split

theorem keep_withFetchWord (s : State) (unbits1 : ℕ) (w : ℕ) (hmem : s.mem.wf = true) : (State.withFetchWord s unbits1 w).mem.wf = true := by
  unfold State.withFetchWord
  repeat' first
    | with_reducible assumption | with_reducible apply keep_placeWord | intro _ | dsimp only | split

theorem keep_writeBlock (s : State) (dst : ℕ) (bytes : List (Byte × Bool)) (hmem : s.mem.wf = true) : (State.writeBlock s dst bytes).mem.wf = true := by
  unfold State.writeBlock
  exact Memory.wf_splice _ _ _ _ (keep_clobber _ _ _ hmem) (Memory.wf_block _ _).1 (Memory.wf_block _ _).2

theorem keep_writePart (s : State) (a : ℕ) (bs : List (Byte × Bool)) (hmem : s.mem.wf = true) : (State.writePart s a bs).mem.wf = true := by
  unfold State.writePart
  repeat' first
    | with_reducible assumption | with_reducible apply keep_writeBlock | intro _ | dsimp only | split

theorem keep_writeParts (s : State) (a : ℕ) (l : List (ℕ × List (Byte × Bool))) (hmem : s.mem.wf = true) : (State.writeParts s a l).mem.wf = true := by
  unfold State.writeParts
  repeat' first
    | with_reducible assumption | with_reducible apply keep_writePart | with_reducible apply keep_foldl
    | with_reducible apply keep_foldl_fst | with_reducible apply keep_foldl_snd
    | with_reducible apply keep_foldl_snd_fst | intro _ | dsimp only | split

theorem keep_writeSlot (s : State) (g : ℕ) (j : ℕ) (t : CtxSet) (hmem : s.mem.wf = true) : (State.writeSlot s g j t).mem.wf = true := by
  unfold State.writeSlot
  repeat' first
    | with_reducible assumption | with_reducible apply keep_writeParts | intro _ | dsimp only | split

theorem keep_execVEntryExecute (g : ℕ) (s : State) (hmem : s.mem.wf = true) : Out.keeps (execVEntryExecute g s) := by
  unfold execVEntryExecute
  repeat' first
    | with_reducible assumption | with_reducible apply keep_updAct | with_reducible apply keep_vExec
    | with_reducible apply keep_released | with_reducible apply keep_orphan | with_reducible apply keep_withdrawCmd
    | with_reducible apply Out.keeps_next (heq := by assumption) | with_reducible apply Out.keeps_of_next
    | with_reducible apply VStep.keeps_done (heq := by assumption) | with_reducible apply VStep.keeps_of_done
    | with_reducible apply VStep.keeps_wait (heq := by assumption) | with_reducible apply VStep.keeps_of_wait
    | with_reducible apply VStep.keeps_withdrawn (heq := by assumption)
    | with_reducible apply VStep.keeps_of_withdrawn | with_reducible apply VStep.keeps_of_plain
    | with_reducible apply keep_foldl | with_reducible apply keep_foldl_fst | with_reducible apply keep_foldl_snd
    | with_reducible apply keep_foldl_snd_fst | intro _ | dsimp only | split

end Sys2Proof.Machine
end

