-- ==== Sys2Proof/Laws/PerInstr.lean ====
section
/-! SUPPORT. Sys2Proof/Laws/PerInstr.lean: one lemma for each constructor of Instr: the word that encodes an instruction within
the limits decodes to it, with every operand at every value (R24 to R48). An event has no word. -/

set_option linter.unusedSimpArgs false
set_option Elab.async false

namespace Sys2Proof.Laws.Encoding

/-- The word of an instruction, if it has one, decodes under its unit to the instruction. -/
def Statement (i : Instr) : Prop :=
  i.wellFormed = true → ∀ u w, encode i = some (u, w) → decode u w = .ok i

/-- What is to be shown of an instruction whose unit and word are known. -/
theorem of_raw {i : Instr} {u : LaneUnit} {w : W32} (he : encode i = some (u, w)) (h : decodeRaw u w = .ok i) :
    Statement i := by
  intro hw u' w' h'
  rw [he] at h'
  obtain ⟨rfl, rfl⟩ := Prod.mk.inj (Option.some.inj h')
  exact decode_of_raw h hw

/-- An instruction without a word. -/
theorem of_none {i : Instr} (he : encode i = none) : Statement i := by
  intro _ u w h
  rw [he] at h
  cases h

theorem lb (rd : XReg) (rs1 : XReg) (imm : BitVec 12) : Statement (.lb rd rs1 imm) := by
  refine of_raw rfl ?_
  simp (disch := decide) only [decodeRaw, decodeK, decodeLoad, immI, encI_op, encI_rd, encI_f3, encI_rs1, encI_imm]
  rfl
theorem lh (rd : XReg) (rs1 : XReg) (imm : BitVec 12) : Statement (.lh rd rs1 imm) := by
  refine of_raw rfl ?_
  simp (disch := decide) only [decodeRaw, decodeK, decodeLoad, immI, encI_op, encI_rd, encI_f3, encI_rs1, encI_imm]
  rfl
theorem lw (rd : XReg) (rs1 : XReg) (imm : BitVec 12) : Statement (.lw rd rs1 imm) := by
  refine of_raw rfl ?_
  simp (disch := decide) only [decodeRaw, decodeK, decodeLoad, immI, encI_op, encI_rd, encI_f3, encI_rs1, encI_imm]
  rfl
theorem ld (rd : XReg) (rs1 : XReg) (imm : BitVec 12) : Statement (.ld rd rs1 imm) := by
  refine of_raw rfl ?_
  simp (disch := decide) only [decodeRaw, decodeK, decodeLoad, immI, encI_op, encI_rd, encI_f3, encI_rs1, encI_imm]
  rfl
theorem lbu (rd : XReg) (rs1 : XReg) (imm : BitVec 12) : Statement (.lbu rd rs1 imm) := by
  refine of_raw rfl ?_
  simp (disch := decide) only [decodeRaw, decodeK, decodeLoad, immI, encI_op, encI_rd, encI_f3, encI_rs1, encI_imm]
  rfl
theorem lhu (rd : XReg) (rs1 : XReg) (imm : BitVec 12) : Statement (.lhu rd rs1 imm) := by
  refine of_raw rfl ?_
  simp (disch := decide) only [decodeRaw, decodeK, decodeLoad, immI, encI_op, encI_rd, encI_f3, encI_rs1, encI_imm]
  rfl
theorem lwu (rd : XReg) (rs1 : XReg) (imm : BitVec 12) : Statement (.lwu rd rs1 imm) := by
  refine of_raw rfl ?_
  simp (disch := decide) only [decodeRaw, decodeK, decodeLoad, immI, encI_op, encI_rd, encI_f3, encI_rs1, encI_imm]
  rfl
theorem sb (rs2 : XReg) (rs1 : XReg) (imm : BitVec 12) : Statement (.sb rs2 rs1 imm) := by
  refine of_raw rfl ?_
  simp (disch := decide) only [decodeRaw, decodeK, decodeStore, encS_op, encS_f3, encS_rs1, encS_rs2, immS_encS]
  rfl
theorem sh (rs2 : XReg) (rs1 : XReg) (imm : BitVec 12) : Statement (.sh rs2 rs1 imm) := by
  refine of_raw rfl ?_
  simp (disch := decide) only [decodeRaw, decodeK, decodeStore, encS_op, encS_f3, encS_rs1, encS_rs2, immS_encS]
  rfl
theorem sw (rs2 : XReg) (rs1 : XReg) (imm : BitVec 12) : Statement (.sw rs2 rs1 imm) := by
  refine of_raw rfl ?_
  simp (disch := decide) only [decodeRaw, decodeK, decodeStore, encS_op, encS_f3, encS_rs1, encS_rs2, immS_encS]
  rfl
theorem sd (rs2 : XReg) (rs1 : XReg) (imm : BitVec 12) : Statement (.sd rs2 rs1 imm) := by
  refine of_raw rfl ?_
  simp (disch := decide) only [decodeRaw, decodeK, decodeStore, encS_op, encS_f3, encS_rs1, encS_rs2, immS_encS]
  rfl
theorem addi (rd : XReg) (rs1 : XReg) (imm : BitVec 12) : Statement (.addi rd rs1 imm) := by
  refine of_raw rfl ?_
  simp (disch := decide) only [decodeRaw, decodeK, decodeOpImm, immI, zeroBits, demand, encI_op, encI_rd, encI_f3, encI_rs1, encI_imm, encI_shl6, encI_hi6, encI_shl5, encI_hi7, BitVec.extractLsb'_append_eq_of_le, BitVec.extractLsb'_append_eq_of_add_le, Nat.reduceSub, Nat.sub_self, BitVec.extractLsb'_eq_self]
  rfl
theorem slti (rd : XReg) (rs1 : XReg) (imm : BitVec 12) : Statement (.slti rd rs1 imm) := by
  refine of_raw rfl ?_
  simp (disch := decide) only [decodeRaw, decodeK, decodeOpImm, immI, zeroBits, demand, encI_op, encI_rd, encI_f3, encI_rs1, encI_imm, encI_shl6, encI_hi6, encI_shl5, encI_hi7, BitVec.extractLsb'_append_eq_of_le, BitVec.extractLsb'_append_eq_of_add_le, Nat.reduceSub, Nat.sub_self, BitVec.extractLsb'_eq_self]
  rfl
theorem sltiu (rd : XReg) (rs1 : XReg) (imm : BitVec 12) : Statement (.sltiu rd rs1 imm) := by
  refine of_raw rfl ?_
  simp (disch := decide) only [decodeRaw, decodeK, decodeOpImm, immI, zeroBits, demand, encI_op, encI_rd, encI_f3, encI_rs1, encI_imm, encI_shl6, encI_hi6, encI_shl5, encI_hi7, BitVec.extractLsb'_append_eq_of_le, BitVec.extractLsb'_append_eq_of_add_le, Nat.reduceSub, Nat.sub_self, BitVec.extractLsb'_eq_self]
  rfl
theorem xori (rd : XReg) (rs1 : XReg) (imm : BitVec 12) : Statement (.xori rd rs1 imm) := by
  refine of_raw rfl ?_
  simp (disch := decide) only [decodeRaw, decodeK, decodeOpImm, immI, zeroBits, demand, encI_op, encI_rd, encI_f3, encI_rs1, encI_imm, encI_shl6, encI_hi6, encI_shl5, encI_hi7, BitVec.extractLsb'_append_eq_of_le, BitVec.extractLsb'_append_eq_of_add_le, Nat.reduceSub, Nat.sub_self, BitVec.extractLsb'_eq_self]
  rfl
theorem ori (rd : XReg) (rs1 : XReg) (imm : BitVec 12) : Statement (.ori rd rs1 imm) := by
  refine of_raw rfl ?_
  simp (disch := decide) only [decodeRaw, decodeK, decodeOpImm, immI, zeroBits, demand, encI_op, encI_rd, encI_f3, encI_rs1, encI_imm, encI_shl6, encI_hi6, encI_shl5, encI_hi7, BitVec.extractLsb'_append_eq_of_le, BitVec.extractLsb'_append_eq_of_add_le, Nat.reduceSub, Nat.sub_self, BitVec.extractLsb'_eq_self]
  rfl
theorem andi (rd : XReg) (rs1 : XReg) (imm : BitVec 12) : Statement (.andi rd rs1 imm) := by
  refine of_raw rfl ?_
  simp (disch := decide) only [decodeRaw, decodeK, decodeOpImm, immI, zeroBits, demand, encI_op, encI_rd, encI_f3, encI_rs1, encI_imm, encI_shl6, encI_hi6, encI_shl5, encI_hi7, BitVec.extractLsb'_append_eq_of_le, BitVec.extractLsb'_append_eq_of_add_le, Nat.reduceSub, Nat.sub_self, BitVec.extractLsb'_eq_self]
  rfl
theorem slli (rd : XReg) (rs1 : XReg) (sh : BitVec 6) : Statement (.slli rd rs1 sh) := by
  refine of_raw rfl ?_
  simp (disch := decide) only [decodeRaw, decodeK, decodeOpImm, immI, zeroBits, demand, encI_op, encI_rd, encI_f3, encI_rs1, encI_imm, encI_shl6, encI_hi6, encI_shl5, encI_hi7, BitVec.extractLsb'_append_eq_of_le, BitVec.extractLsb'_append_eq_of_add_le, Nat.reduceSub, Nat.sub_self, BitVec.extractLsb'_eq_self]
  rfl
theorem srli (rd : XReg) (rs1 : XReg) (sh : BitVec 6) : Statement (.srli rd rs1 sh) := by
  refine of_raw rfl ?_
  simp (disch := decide) only [decodeRaw, decodeK, decodeOpImm, immI, zeroBits, demand, encI_op, encI_rd, encI_f3, encI_rs1, encI_imm, encI_shl6, encI_hi6, encI_shl5, encI_hi7, BitVec.extractLsb'_append_eq_of_le, BitVec.extractLsb'_append_eq_of_add_le, Nat.reduceSub, Nat.sub_self, BitVec.extractLsb'_eq_self]
  rfl
theorem srai (rd : XReg) (rs1 : XReg) (sh : BitVec 6) : Statement (.srai rd rs1 sh) := by
  refine of_raw rfl ?_
  simp (disch := decide) only [decodeRaw, decodeK, decodeOpImm, immI, zeroBits, demand, encI_op, encI_rd, encI_f3, encI_rs1, encI_imm, encI_shl6, encI_hi6, encI_shl5, encI_hi7, BitVec.extractLsb'_append_eq_of_le, BitVec.extractLsb'_append_eq_of_add_le, Nat.reduceSub, Nat.sub_self, BitVec.extractLsb'_eq_self]
  rfl
theorem auipc (rd : XReg) (imm : BitVec 20) : Statement (.auipc rd imm) := by
  refine of_raw rfl ?_
  simp (disch := decide) only [decodeRaw, decodeK, bits, BitVec.extractLsb'_append_eq_of_le, BitVec.extractLsb'_append_eq_of_add_le, Nat.reduceSub, Nat.sub_self, BitVec.extractLsb'_eq_self]
  rfl
theorem addiw (rd : XReg) (rs1 : XReg) (imm : BitVec 12) : Statement (.addiw rd rs1 imm) := by
  refine of_raw rfl ?_
  simp (disch := decide) only [decodeRaw, decodeK, decodeOpImm32, immI, zeroBits, demand, encI_op, encI_rd, encI_f3, encI_rs1, encI_imm, encI_shl6, encI_hi6, encI_shl5, encI_hi7, BitVec.extractLsb'_append_eq_of_le, BitVec.extractLsb'_append_eq_of_add_le, Nat.reduceSub, Nat.sub_self, BitVec.extractLsb'_eq_self]
  rfl
theorem slliw (rd : XReg) (rs1 : XReg) (sh : BitVec 5) : Statement (.slliw rd rs1 sh) := by
  refine of_raw rfl ?_
  simp (disch := decide) only [decodeRaw, decodeK, decodeOpImm32, immI, zeroBits, demand, encI_op, encI_rd, encI_f3, encI_rs1, encI_imm, encI_shl6, encI_hi6, encI_shl5, encI_hi7, BitVec.extractLsb'_append_eq_of_le, BitVec.extractLsb'_append_eq_of_add_le, Nat.reduceSub, Nat.sub_self, BitVec.extractLsb'_eq_self]
  rfl
theorem srliw (rd : XReg) (rs1 : XReg) (sh : BitVec 5) : Statement (.srliw rd rs1 sh) := by
  refine of_raw rfl ?_
  simp (disch := decide) only [decodeRaw, decodeK, decodeOpImm32, immI, zeroBits, demand, encI_op, encI_rd, encI_f3, encI_rs1, encI_imm, encI_shl6, encI_hi6, encI_shl5, encI_hi7, BitVec.extractLsb'_append_eq_of_le, BitVec.extractLsb'_append_eq_of_add_le, Nat.reduceSub, Nat.sub_self, BitVec.extractLsb'_eq_self]
  rfl
theorem sraiw (rd : XReg) (rs1 : XReg) (sh : BitVec 5) : Statement (.sraiw rd rs1 sh) := by
  refine of_raw rfl ?_
  simp (disch := decide) only [decodeRaw, decodeK, decodeOpImm32, immI, zeroBits, demand, encI_op, encI_rd, encI_f3, encI_rs1, encI_imm, encI_shl6, encI_hi6, encI_shl5, encI_hi7, BitVec.extractLsb'_append_eq_of_le, BitVec.extractLsb'_append_eq_of_add_le, Nat.reduceSub, Nat.sub_self, BitVec.extractLsb'_eq_self]
  rfl
theorem add (rd : XReg) (rs1 : XReg) (rs2 : XReg) : Statement (.add rd rs1 rs2) := by
  refine of_raw rfl ?_
  simp (disch := decide) only [decodeRaw, decodeK, decodeOp, encR_op, encR_rd, encR_f3, encR_rs1, encR_rs2, encR_f7]
  rfl
theorem sub (rd : XReg) (rs1 : XReg) (rs2 : XReg) : Statement (.sub rd rs1 rs2) := by
  refine of_raw rfl ?_
  simp (disch := decide) only [decodeRaw, decodeK, decodeOp, encR_op, encR_rd, encR_f3, encR_rs1, encR_rs2, encR_f7]
  rfl
theorem sll (rd : XReg) (rs1 : XReg) (rs2 : XReg) : Statement (.sll rd rs1 rs2) := by
  refine of_raw rfl ?_
  simp (disch := decide) only [decodeRaw, decodeK, decodeOp, encR_op, encR_rd, encR_f3, encR_rs1, encR_rs2, encR_f7]
  rfl
theorem slt (rd : XReg) (rs1 : XReg) (rs2 : XReg) : Statement (.slt rd rs1 rs2) := by
  refine of_raw rfl ?_
  simp (disch := decide) only [decodeRaw, decodeK, decodeOp, encR_op, encR_rd, encR_f3, encR_rs1, encR_rs2, encR_f7]
  rfl
theorem sltu (rd : XReg) (rs1 : XReg) (rs2 : XReg) : Statement (.sltu rd rs1 rs2) := by
  refine of_raw rfl ?_
  simp (disch := decide) only [decodeRaw, decodeK, decodeOp, encR_op, encR_rd, encR_f3, encR_rs1, encR_rs2, encR_f7]
  rfl
theorem xor (rd : XReg) (rs1 : XReg) (rs2 : XReg) : Statement (.xor rd rs1 rs2) := by
  refine of_raw rfl ?_
  simp (disch := decide) only [decodeRaw, decodeK, decodeOp, encR_op, encR_rd, encR_f3, encR_rs1, encR_rs2, encR_f7]
  rfl
theorem srl (rd : XReg) (rs1 : XReg) (rs2 : XReg) : Statement (.srl rd rs1 rs2) := by
  refine of_raw rfl ?_
  simp (disch := decide) only [decodeRaw, decodeK, decodeOp, encR_op, encR_rd, encR_f3, encR_rs1, encR_rs2, encR_f7]
  rfl
theorem sra (rd : XReg) (rs1 : XReg) (rs2 : XReg) : Statement (.sra rd rs1 rs2) := by
  refine of_raw rfl ?_
  simp (disch := decide) only [decodeRaw, decodeK, decodeOp, encR_op, encR_rd, encR_f3, encR_rs1, encR_rs2, encR_f7]
  rfl
theorem or (rd : XReg) (rs1 : XReg) (rs2 : XReg) : Statement (.or rd rs1 rs2) := by
  refine of_raw rfl ?_
  simp (disch := decide) only [decodeRaw, decodeK, decodeOp, encR_op, encR_rd, encR_f3, encR_rs1, encR_rs2, encR_f7]
  rfl
theorem and (rd : XReg) (rs1 : XReg) (rs2 : XReg) : Statement (.and rd rs1 rs2) := by
  refine of_raw rfl ?_
  simp (disch := decide) only [decodeRaw, decodeK, decodeOp, encR_op, encR_rd, encR_f3, encR_rs1, encR_rs2, encR_f7]
  rfl
theorem mul (rd : XReg) (rs1 : XReg) (rs2 : XReg) : Statement (.mul rd rs1 rs2) := by
  refine of_raw rfl ?_
  simp (disch := decide) only [decodeRaw, decodeK, decodeOp, encR_op, encR_rd, encR_f3, encR_rs1, encR_rs2, encR_f7]
  rfl
theorem mulh (rd : XReg) (rs1 : XReg) (rs2 : XReg) : Statement (.mulh rd rs1 rs2) := by
  refine of_raw rfl ?_
  simp (disch := decide) only [decodeRaw, decodeK, decodeOp, encR_op, encR_rd, encR_f3, encR_rs1, encR_rs2, encR_f7]
  rfl
theorem mulhsu (rd : XReg) (rs1 : XReg) (rs2 : XReg) : Statement (.mulhsu rd rs1 rs2) := by
  refine of_raw rfl ?_
  simp (disch := decide) only [decodeRaw, decodeK, decodeOp, encR_op, encR_rd, encR_f3, encR_rs1, encR_rs2, encR_f7]
  rfl
theorem mulhu (rd : XReg) (rs1 : XReg) (rs2 : XReg) : Statement (.mulhu rd rs1 rs2) := by
  refine of_raw rfl ?_
  simp (disch := decide) only [decodeRaw, decodeK, decodeOp, encR_op, encR_rd, encR_f3, encR_rs1, encR_rs2, encR_f7]
  rfl
theorem div (rd : XReg) (rs1 : XReg) (rs2 : XReg) : Statement (.div rd rs1 rs2) := by
  refine of_raw rfl ?_
  simp (disch := decide) only [decodeRaw, decodeK, decodeOp, encR_op, encR_rd, encR_f3, encR_rs1, encR_rs2, encR_f7]
  rfl
theorem divu (rd : XReg) (rs1 : XReg) (rs2 : XReg) : Statement (.divu rd rs1 rs2) := by
  refine of_raw rfl ?_
  simp (disch := decide) only [decodeRaw, decodeK, decodeOp, encR_op, encR_rd, encR_f3, encR_rs1, encR_rs2, encR_f7]
  rfl
theorem rem (rd : XReg) (rs1 : XReg) (rs2 : XReg) : Statement (.rem rd rs1 rs2) := by
  refine of_raw rfl ?_
  simp (disch := decide) only [decodeRaw, decodeK, decodeOp, encR_op, encR_rd, encR_f3, encR_rs1, encR_rs2, encR_f7]
  rfl
theorem remu (rd : XReg) (rs1 : XReg) (rs2 : XReg) : Statement (.remu rd rs1 rs2) := by
  refine of_raw rfl ?_
  simp (disch := decide) only [decodeRaw, decodeK, decodeOp, encR_op, encR_rd, encR_f3, encR_rs1, encR_rs2, encR_f7]
  rfl
theorem addw (rd : XReg) (rs1 : XReg) (rs2 : XReg) : Statement (.addw rd rs1 rs2) := by
  refine of_raw rfl ?_
  simp (disch := decide) only [decodeRaw, decodeK, decodeOp32, encR_op, encR_rd, encR_f3, encR_rs1, encR_rs2, encR_f7]
  rfl
theorem subw (rd : XReg) (rs1 : XReg) (rs2 : XReg) : Statement (.subw rd rs1 rs2) := by
  refine of_raw rfl ?_
  simp (disch := decide) only [decodeRaw, decodeK, decodeOp32, encR_op, encR_rd, encR_f3, encR_rs1, encR_rs2, encR_f7]
  rfl
theorem sllw (rd : XReg) (rs1 : XReg) (rs2 : XReg) : Statement (.sllw rd rs1 rs2) := by
  refine of_raw rfl ?_
  simp (disch := decide) only [decodeRaw, decodeK, decodeOp32, encR_op, encR_rd, encR_f3, encR_rs1, encR_rs2, encR_f7]
  rfl
theorem srlw (rd : XReg) (rs1 : XReg) (rs2 : XReg) : Statement (.srlw rd rs1 rs2) := by
  refine of_raw rfl ?_
  simp (disch := decide) only [decodeRaw, decodeK, decodeOp32, encR_op, encR_rd, encR_f3, encR_rs1, encR_rs2, encR_f7]
  rfl
theorem sraw (rd : XReg) (rs1 : XReg) (rs2 : XReg) : Statement (.sraw rd rs1 rs2) := by
  refine of_raw rfl ?_
  simp (disch := decide) only [decodeRaw, decodeK, decodeOp32, encR_op, encR_rd, encR_f3, encR_rs1, encR_rs2, encR_f7]
  rfl
theorem mulw (rd : XReg) (rs1 : XReg) (rs2 : XReg) : Statement (.mulw rd rs1 rs2) := by
  refine of_raw rfl ?_
  simp (disch := decide) only [decodeRaw, decodeK, decodeOp32, encR_op, encR_rd, encR_f3, encR_rs1, encR_rs2, encR_f7]
  rfl
theorem divw (rd : XReg) (rs1 : XReg) (rs2 : XReg) : Statement (.divw rd rs1 rs2) := by
  refine of_raw rfl ?_
  simp (disch := decide) only [decodeRaw, decodeK, decodeOp32, encR_op, encR_rd, encR_f3, encR_rs1, encR_rs2, encR_f7]
  rfl
theorem divuw (rd : XReg) (rs1 : XReg) (rs2 : XReg) : Statement (.divuw rd rs1 rs2) := by
  refine of_raw rfl ?_
  simp (disch := decide) only [decodeRaw, decodeK, decodeOp32, encR_op, encR_rd, encR_f3, encR_rs1, encR_rs2, encR_f7]
  rfl
theorem remw (rd : XReg) (rs1 : XReg) (rs2 : XReg) : Statement (.remw rd rs1 rs2) := by
  refine of_raw rfl ?_
  simp (disch := decide) only [decodeRaw, decodeK, decodeOp32, encR_op, encR_rd, encR_f3, encR_rs1, encR_rs2, encR_f7]
  rfl
theorem remuw (rd : XReg) (rs1 : XReg) (rs2 : XReg) : Statement (.remuw rd rs1 rs2) := by
  refine of_raw rfl ?_
  simp (disch := decide) only [decodeRaw, decodeK, decodeOp32, encR_op, encR_rd, encR_f3, encR_rs1, encR_rs2, encR_f7]
  rfl
theorem lui (rd : XReg) (imm : BitVec 20) : Statement (.lui rd imm) := by
  refine of_raw rfl ?_
  simp (disch := decide) only [decodeRaw, decodeK, bits, BitVec.extractLsb'_append_eq_of_le, BitVec.extractLsb'_append_eq_of_add_le, Nat.reduceSub, Nat.sub_self, BitVec.extractLsb'_eq_self]
  rfl
theorem beq (rs1 : XReg) (rs2 : XReg) (off : BitVec 12) : Statement (.beq rs1 rs2 off) := by
  refine of_raw rfl ?_
  simp (disch := decide) only [decodeRaw, decodeK, decodeBranch, encB_op, encB_f3, encB_rs1, encB_rs2, immB_encB]
  rfl
theorem bne (rs1 : XReg) (rs2 : XReg) (off : BitVec 12) : Statement (.bne rs1 rs2 off) := by
  refine of_raw rfl ?_
  simp (disch := decide) only [decodeRaw, decodeK, decodeBranch, encB_op, encB_f3, encB_rs1, encB_rs2, immB_encB]
  rfl
theorem blt (rs1 : XReg) (rs2 : XReg) (off : BitVec 12) : Statement (.blt rs1 rs2 off) := by
  refine of_raw rfl ?_
  simp (disch := decide) only [decodeRaw, decodeK, decodeBranch, encB_op, encB_f3, encB_rs1, encB_rs2, immB_encB]
  rfl
theorem bge (rs1 : XReg) (rs2 : XReg) (off : BitVec 12) : Statement (.bge rs1 rs2 off) := by
  refine of_raw rfl ?_
  simp (disch := decide) only [decodeRaw, decodeK, decodeBranch, encB_op, encB_f3, encB_rs1, encB_rs2, immB_encB]
  rfl
theorem bltu (rs1 : XReg) (rs2 : XReg) (off : BitVec 12) : Statement (.bltu rs1 rs2 off) := by
  refine of_raw rfl ?_
  simp (disch := decide) only [decodeRaw, decodeK, decodeBranch, encB_op, encB_f3, encB_rs1, encB_rs2, immB_encB]
  rfl
theorem bgeu (rs1 : XReg) (rs2 : XReg) (off : BitVec 12) : Statement (.bgeu rs1 rs2 off) := by
  refine of_raw rfl ?_
  simp (disch := decide) only [decodeRaw, decodeK, decodeBranch, encB_op, encB_f3, encB_rs1, encB_rs2, immB_encB]
  rfl
theorem jalr (rd : XReg) (rs1 : XReg) (imm : BitVec 12) : Statement (.jalr rd rs1 imm) := by
  refine of_raw rfl ?_
  simp (disch := decide) only [decodeRaw, decodeK, immI, zeroBits, demand, encI_op, encI_rd, encI_f3, encI_rs1, encI_imm]
  rfl
theorem jal (rd : XReg) (off : BitVec 20) : Statement (.jal rd off) := by
  refine of_raw rfl ?_
  simp (disch := decide) only [decodeRaw, decodeK, encJ_op, encJ_rd, immJ_encJ]
  rfl
theorem ecall : Statement .ecall := of_raw rfl rfl
theorem ebreak : Statement .ebreak := of_raw rfl rfl
theorem csrrw (rd : XReg) (csr : CsrName) (rs1 : XReg) : Statement (.csrrw rd csr rs1) := by
  by_cases hc : csr = .srst
  · subst hc
    intro hw
    simp [Instr.wellFormed, csrOk] at hw
  · refine of_raw rfl ?_
    simp only [decodeRaw, decodeK, decodeSystem, decodeCsr, encI_op, encI_rd, encI_f3, encI_rs1, encI_imm, CsrName.ofNum_num]
    cases csr <;> first | exact absurd rfl hc | rfl
theorem csrrs (rd : XReg) (csr : CsrName) (rs1 : XReg) : Statement (.csrrs rd csr rs1) := by
  by_cases hc : csr = .srst
  · subst hc
    intro hw
    simp [Instr.wellFormed, csrOk] at hw
  · refine of_raw rfl ?_
    simp only [decodeRaw, decodeK, decodeSystem, decodeCsr, encI_op, encI_rd, encI_f3, encI_rs1, encI_imm, CsrName.ofNum_num]
    cases csr <;> first | exact absurd rfl hc | rfl
theorem csrrc (rd : XReg) (csr : CsrName) (rs1 : XReg) : Statement (.csrrc rd csr rs1) := by
  by_cases hc : csr = .srst
  · subst hc
    intro hw
    simp [Instr.wellFormed, csrOk] at hw
  · refine of_raw rfl ?_
    simp only [decodeRaw, decodeK, decodeSystem, decodeCsr, encI_op, encI_rd, encI_f3, encI_rs1, encI_imm, CsrName.ofNum_num]
    cases csr <;> first | exact absurd rfl hc | rfl
theorem csrrwi (rd : XReg) (csr : CsrName) (uimm : BitVec 5) : Statement (.csrrwi rd csr uimm) := by
  by_cases hc : csr = .srst
  · subst hc
    intro hw
    simp [Instr.wellFormed, csrOk] at hw
  · refine of_raw rfl ?_
    simp only [decodeRaw, decodeK, decodeSystem, decodeCsr, encI_op, encI_rd, encI_f3, encI_rs1, encI_imm, CsrName.ofNum_num]
    cases csr <;> first | exact absurd rfl hc | rfl
theorem csrrsi (rd : XReg) (csr : CsrName) (uimm : BitVec 5) : Statement (.csrrsi rd csr uimm) := by
  by_cases hc : csr = .srst
  · subst hc
    intro hw
    simp [Instr.wellFormed, csrOk] at hw
  · refine of_raw rfl ?_
    simp only [decodeRaw, decodeK, decodeSystem, decodeCsr, encI_op, encI_rd, encI_f3, encI_rs1, encI_imm, CsrName.ofNum_num]
    cases csr <;> first | exact absurd rfl hc | rfl
theorem csrrci (rd : XReg) (csr : CsrName) (uimm : BitVec 5) : Statement (.csrrci rd csr uimm) := by
  by_cases hc : csr = .srst
  · subst hc
    intro hw
    simp [Instr.wellFormed, csrOk] at hw
  · refine of_raw rfl ?_
    simp only [decodeRaw, decodeK, decodeSystem, decodeCsr, encI_op, encI_rd, encI_f3, encI_rs1, encI_imm, CsrName.ofNum_num]
    cases csr <;> first | exact absurd rfl hc | rfl
theorem srstAccess (op : CsrOp) (rd : XReg) (src : BitVec 5) : Statement (.srstAccess op rd src) := by
  refine of_raw rfl ?_
  cases op <;> (simp only [decodeRaw, decodeK, decodeSystem, decodeCsr, encI_op, encI_rd, encI_f3, encI_rs1, encI_imm]; rfl)
theorem rvfence (pred : BitVec 4) (succ : BitVec 4) (rd : XReg) (rs1 : XReg) : Statement (.rvfence pred succ rd rs1) := by
  refine of_raw rfl ?_
  simp (disch := decide) only [decodeRaw, decodeK, decodeMiscMem, zeroBits, demand, encI_op, encI_rd, encI_f3, encI_rs1, encI_lo4, encI_mid4, encI_hi4, BitVec.extractLsb'_append_eq_of_le, BitVec.extractLsb'_append_eq_of_add_le, Nat.reduceSub, Nat.sub_self, BitVec.extractLsb'_eq_self]
  rfl
theorem rvfenceI : Statement .rvfenceI := of_raw rfl rfl
theorem trn (kd : KReg) (xva : XReg) (xlen : XReg) (rights : BitVec 4) (ms : Bool) : Statement (.trn kd xva xlen rights ms) := by
  refine of_raw rfl ?_
  simp (disch := decide) only [decodeRaw, decodeK, decodeCustom0, zeroBits, demand, encR_op, encR_rd, encR_f3, encR_rs1, encR_rs2, encR_f7, encR_rd4, encR_rdHi, encR_rs14, encR_rs1Hi, encR_rs13, encR_f7at0len4, encR_f7at0len2, encR_f7at4len1, encR_f7at5len1, encR_f7at6len1, encR_f7at5len2, encR_f7at2len5, encR_f7at4len3, idx4_lo, idx4_hi, idx3_lo, idx3_hi, encR_none, encR_above3, bit1_eq, ElemTy.ofCode_code, coded_some, BitVec.extractLsb'_append_eq_of_le, BitVec.extractLsb'_append_eq_of_add_le, Nat.reduceSub, Nat.sub_self, BitVec.extractLsb'_eq_self]
  rfl
theorem trnp (kd : KReg) (xpa : XReg) (xlen : XReg) (rights : BitVec 4) (ms : Bool) (host : Bool) : Statement (.trnp kd xpa xlen rights ms host) := by
  refine of_raw rfl ?_
  simp (disch := decide) only [decodeRaw, decodeK, decodeCustom0, zeroBits, demand, encR_op, encR_rd, encR_f3, encR_rs1, encR_rs2, encR_f7, encR_rd4, encR_rdHi, encR_rs14, encR_rs1Hi, encR_rs13, encR_f7at0len4, encR_f7at0len2, encR_f7at4len1, encR_f7at5len1, encR_f7at6len1, encR_f7at5len2, encR_f7at2len5, encR_f7at4len3, idx4_lo, idx4_hi, idx3_lo, idx3_hi, encR_none, encR_above3, bit1_eq, ElemTy.ofCode_code, coded_some, BitVec.extractLsb'_append_eq_of_le, BitVec.extractLsb'_append_eq_of_add_le, Nat.reduceSub, Nat.sub_self, BitVec.extractLsb'_eq_self]
  rfl
theorem tkmov (kd : KReg) (ks : KReg) : Statement (.tkmov kd ks) := by
  refine of_raw rfl ?_
  simp (disch := decide) only [decodeRaw, decodeK, decodeCustom0, zeroBits, demand, encR_op, encR_rd, encR_f3, encR_rs1, encR_rs2, encR_f7, encR_rd4, encR_rdHi, encR_rs14, encR_rs1Hi, encR_rs13, encR_f7at0len4, encR_f7at0len2, encR_f7at4len1, encR_f7at5len1, encR_f7at6len1, encR_f7at5len2, encR_f7at2len5, encR_f7at4len3, idx4_lo, idx4_hi, idx3_lo, idx3_hi, encR_none, encR_above3, bit1_eq, ElemTy.ofCode_code, coded_some, BitVec.extractLsb'_append_eq_of_le, BitVec.extractLsb'_append_eq_of_add_le, Nat.reduceSub, Nat.sub_self, BitVec.extractLsb'_eq_self]
  rfl
theorem tkdrop (ks : KReg) : Statement (.tkdrop ks) := by
  refine of_raw rfl ?_
  simp (disch := decide) only [decodeRaw, decodeK, decodeCustom0, zeroBits, demand, encR_op, encR_rd, encR_f3, encR_rs1, encR_rs2, encR_f7, encR_rd4, encR_rdHi, encR_rs14, encR_rs1Hi, encR_rs13, encR_f7at0len4, encR_f7at0len2, encR_f7at4len1, encR_f7at5len1, encR_f7at6len1, encR_f7at5len2, encR_f7at2len5, encR_f7at4len3, idx4_lo, idx4_hi, idx3_lo, idx3_hi, encR_none, encR_above3, bit1_eq, ElemTy.ofCode_code, coded_some, BitVec.extractLsb'_append_eq_of_le, BitVec.extractLsb'_append_eq_of_add_le, Nat.reduceSub, Nat.sub_self, BitVec.extractLsb'_eq_self]
  rfl
theorem tklen (xd : XReg) (ks : KReg) : Statement (.tklen xd ks) := by
  refine of_raw rfl ?_
  simp (disch := decide) only [decodeRaw, decodeK, decodeCustom0, zeroBits, demand, encR_op, encR_rd, encR_f3, encR_rs1, encR_rs2, encR_f7, encR_rd4, encR_rdHi, encR_rs14, encR_rs1Hi, encR_rs13, encR_f7at0len4, encR_f7at0len2, encR_f7at4len1, encR_f7at5len1, encR_f7at6len1, encR_f7at5len2, encR_f7at2len5, encR_f7at4len3, idx4_lo, idx4_hi, idx3_lo, idx3_hi, encR_none, encR_above3, bit1_eq, ElemTy.ofCode_code, coded_some, BitVec.extractLsb'_append_eq_of_le, BitVec.extractLsb'_append_eq_of_add_le, Nat.reduceSub, Nat.sub_self, BitVec.extractLsb'_eq_self]
  rfl
theorem tkinfo (xd : XReg) (ks : KReg) : Statement (.tkinfo xd ks) := by
  refine of_raw rfl ?_
  simp (disch := decide) only [decodeRaw, decodeK, decodeCustom0, zeroBits, demand, encR_op, encR_rd, encR_f3, encR_rs1, encR_rs2, encR_f7, encR_rd4, encR_rdHi, encR_rs14, encR_rs1Hi, encR_rs13, encR_f7at0len4, encR_f7at0len2, encR_f7at4len1, encR_f7at5len1, encR_f7at6len1, encR_f7at5len2, encR_f7at2len5, encR_f7at4len3, idx4_lo, idx4_hi, idx3_lo, idx3_hi, encR_none, encR_above3, bit1_eq, ElemTy.ofCode_code, coded_some, BitVec.extractLsb'_append_eq_of_le, BitVec.extractLsb'_append_eq_of_add_le, Nat.reduceSub, Nat.sub_self, BitVec.extractLsb'_eq_self]
  rfl
theorem ptr (xd : XReg) (ks : KReg) (xoff : XReg) (policy : BitVec 2) : Statement (.ptr xd ks xoff policy) := by
  refine of_raw rfl ?_
  simp (disch := decide) only [decodeRaw, decodeK, decodeCustom0, zeroBits, demand, encR_op, encR_rd, encR_f3, encR_rs1, encR_rs2, encR_f7, encR_rd4, encR_rdHi, encR_rs14, encR_rs1Hi, encR_rs13, encR_f7at0len4, encR_f7at0len2, encR_f7at4len1, encR_f7at5len1, encR_f7at6len1, encR_f7at5len2, encR_f7at2len5, encR_f7at4len3, idx4_lo, idx4_hi, idx3_lo, idx3_hi, encR_none, encR_above3, bit1_eq, ElemTy.ofCode_code, coded_some, BitVec.extractLsb'_append_eq_of_le, BitVec.extractLsb'_append_eq_of_add_le, Nat.reduceSub, Nat.sub_self, BitVec.extractLsb'_eq_self]
  rfl
theorem gpatch (xd : XReg) (slot : BitVec 4) : Statement (.gpatch xd slot) := by
  refine of_raw rfl ?_
  simp (disch := decide) only [decodeRaw, decodeK, decodeCustom0, zeroBits, demand, encR_op, encR_rd, encR_f3, encR_rs1, encR_rs2, encR_f7, encR_rd4, encR_rdHi, encR_rs14, encR_rs1Hi, encR_rs13, encR_f7at0len4, encR_f7at0len2, encR_f7at4len1, encR_f7at5len1, encR_f7at6len1, encR_f7at5len2, encR_f7at2len5, encR_f7at4len3, idx4_lo, idx4_hi, idx3_lo, idx3_hi, encR_none, encR_above3, bit1_eq, ElemTy.ofCode_code, coded_some, BitVec.extractLsb'_append_eq_of_le, BitVec.extractLsb'_append_eq_of_add_le, Nat.reduceSub, Nat.sub_self, BitVec.extractLsb'_eq_self]
  rfl
theorem guntag (xd : XReg) : Statement (.guntag xd) := by
  refine of_raw rfl ?_
  simp (disch := decide) only [decodeRaw, decodeK, decodeCustom0, zeroBits, demand, encR_op, encR_rd, encR_f3, encR_rs1, encR_rs2, encR_f7, encR_rd4, encR_rdHi, encR_rs14, encR_rs1Hi, encR_rs13, encR_f7at0len4, encR_f7at0len2, encR_f7at4len1, encR_f7at5len1, encR_f7at6len1, encR_f7at5len2, encR_f7at2len5, encR_f7at4len3, idx4_lo, idx4_hi, idx3_lo, idx3_hi, encR_none, encR_above3, bit1_eq, ElemTy.ofCode_code, coded_some, BitVec.extractLsb'_append_eq_of_le, BitVec.extractLsb'_append_eq_of_add_le, Nat.reduceSub, Nat.sub_self, BitVec.extractLsb'_eq_self]
  rfl
theorem vxmv (ty : ElemTy) (xd : XReg) (vs1 : VReg) (xi : XReg) : Statement (.vxmv ty xd vs1 xi) := by
  refine of_raw rfl ?_
  simp (disch := decide) only [decodeRaw, decodeK, decodeCustom0, zeroBits, demand, encR_op, encR_rd, encR_f3, encR_rs1, encR_rs2, encR_f7, encR_rd4, encR_rdHi, encR_rs14, encR_rs1Hi, encR_rs13, encR_f7at0len4, encR_f7at0len2, encR_f7at4len1, encR_f7at5len1, encR_f7at6len1, encR_f7at5len2, encR_f7at2len5, encR_f7at4len3, idx4_lo, idx4_hi, idx3_lo, idx3_hi, encR_none, encR_above3, bit1_eq, ElemTy.ofCode_code, coded_some, BitVec.extractLsb'_append_eq_of_le, BitVec.extractLsb'_append_eq_of_add_le, Nat.reduceSub, Nat.sub_self, BitVec.extractLsb'_eq_self]
  rfl
theorem mpop (ty : ElemTy) (xd : XReg) (mk : MReg) : Statement (.mpop ty xd mk) := by
  refine of_raw rfl ?_
  simp (disch := decide) only [decodeRaw, decodeK, decodeCustom0, zeroBits, demand, encR_op, encR_rd, encR_f3, encR_rs1, encR_rs2, encR_f7, encR_rd4, encR_rdHi, encR_rs14, encR_rs1Hi, encR_rs13, encR_f7at0len4, encR_f7at0len2, encR_f7at4len1, encR_f7at5len1, encR_f7at6len1, encR_f7at5len2, encR_f7at2len5, encR_f7at4len3, idx4_lo, idx4_hi, idx3_lo, idx3_hi, encR_none, encR_above3, bit1_eq, ElemTy.ofCode_code, coded_some, BitVec.extractLsb'_append_eq_of_le, BitVec.extractLsb'_append_eq_of_add_le, Nat.reduceSub, Nat.sub_self, BitVec.extractLsb'_eq_self]
  rfl
theorem vadd (ty : ElemTy) (mk : MReg) (s2 : VSrc) (vs1 : VReg) (vd : VReg) : Statement (.vadd ty mk s2 vs1 vd) := by
  refine of_raw rfl ?_
  simp only [decodeRaw, decodeVRaw, encV3, encV_op]
  exact decodeV3_enc ..
theorem vsub (ty : ElemTy) (mk : MReg) (s2 : VSrc) (vs1 : VReg) (vd : VReg) : Statement (.vsub ty mk s2 vs1 vd) := by
  refine of_raw rfl ?_
  simp only [decodeRaw, decodeVRaw, encV3, encV_op]
  exact decodeV3_enc ..
theorem vmul (ty : ElemTy) (mk : MReg) (s2 : VSrc) (vs1 : VReg) (vd : VReg) : Statement (.vmul ty mk s2 vs1 vd) := by
  refine of_raw rfl ?_
  simp only [decodeRaw, decodeVRaw, encV3, encV_op]
  exact decodeV3_enc ..
theorem vfma (ty : ElemTy) (mk : MReg) (s2 : VSrc) (vs1 : VReg) (vd : VReg) : Statement (.vfma ty mk s2 vs1 vd) := by
  refine of_raw rfl ?_
  simp only [decodeRaw, decodeVRaw, encV3, encV_op]
  exact decodeV3_enc ..
theorem vmin (ty : ElemTy) (mk : MReg) (s2 : VSrc) (vs1 : VReg) (vd : VReg) : Statement (.vmin ty mk s2 vs1 vd) := by
  refine of_raw rfl ?_
  simp only [decodeRaw, decodeVRaw, encV3, encV_op]
  exact decodeV3_enc ..
theorem vmax (ty : ElemTy) (mk : MReg) (s2 : VSrc) (vs1 : VReg) (vd : VReg) : Statement (.vmax ty mk s2 vs1 vd) := by
  refine of_raw rfl ?_
  simp only [decodeRaw, decodeVRaw, encV3, encV_op]
  exact decodeV3_enc ..
theorem vabs (ty : ElemTy) (mk : MReg) (vs1 : VReg) (vd : VReg) : Statement (.vabs ty mk vs1 vd) := by
  refine of_raw rfl ?_
  simp only [decodeRaw, decodeVRaw, encV_op]
  exact decodeV2_enc ..
theorem vneg (ty : ElemTy) (mk : MReg) (vs1 : VReg) (vd : VReg) : Statement (.vneg ty mk vs1 vd) := by
  refine of_raw rfl ?_
  simp only [decodeRaw, decodeVRaw, encV_op]
  exact decodeV2_enc ..
theorem vdiv (mk : MReg) (s2 : VSrc) (vs1 : VReg) (vd : VReg) : Statement (.vdiv mk s2 vs1 vd) := by
  refine of_raw rfl ?_
  simp only [decodeRaw, decodeVRaw, encV_op, encV3]
  simp (disch := decide) only [decodeV3, encV3, zeroBits, demand, formIs, encV_op, encV_ty, encV_mk, encV_s2, encV_vs1, encV_vd, encV_form, encV_aux, encV_s23, encV_s2Hi2, encV_s24, encV_s2Hi1, encV_vs13, encV_vs1Hi2, encV_vs14, encV_vs1Hi1, encV_vd3, encV_vdHi2, encV_aux0, encV_aux1, encV_none, idx3_lo, idx3_hi, idx4_lo, idx4_hi, vsrcOf_enc, ElemTy.ofCode_code, Order.ofCode_code, Scope.ofCode_code, Timeline.ofCode_code, RMode.ofCode_code, AmoTy.ofCode_code, AmoOp.ofCode_code, CmpRel.ofCode_code, RedOp.ofCode_code, DrainMode.ofCode_code, HintKind.ofCode_code, bit1_eq, coded_some, BitVec.extractLsb'_append_eq_of_le, BitVec.extractLsb'_append_eq_of_add_le, Nat.reduceSub, Nat.sub_self, BitVec.extractLsb'_eq_self]
  rfl
theorem vsqrt (mk : MReg) (vs1 : VReg) (vd : VReg) : Statement (.vsqrt mk vs1 vd) := by
  refine of_raw rfl ?_
  simp only [decodeRaw, decodeVRaw, encV_op]
  exact decodeVF_enc ..
theorem vrcp (mk : MReg) (vs1 : VReg) (vd : VReg) : Statement (.vrcp mk vs1 vd) := by
  refine of_raw rfl ?_
  simp only [decodeRaw, decodeVRaw, encV_op]
  exact decodeVF_enc ..
theorem vrsq (mk : MReg) (vs1 : VReg) (vd : VReg) : Statement (.vrsq mk vs1 vd) := by
  refine of_raw rfl ?_
  simp only [decodeRaw, decodeVRaw, encV_op]
  exact decodeVF_enc ..
theorem vexp2 (mk : MReg) (vs1 : VReg) (vd : VReg) : Statement (.vexp2 mk vs1 vd) := by
  refine of_raw rfl ?_
  simp only [decodeRaw, decodeVRaw, encV_op]
  exact decodeVF_enc ..
theorem vlog2 (mk : MReg) (vs1 : VReg) (vd : VReg) : Statement (.vlog2 mk vs1 vd) := by
  refine of_raw rfl ?_
  simp only [decodeRaw, decodeVRaw, encV_op]
  exact decodeVF_enc ..
theorem vand (ty : ElemTy) (mk : MReg) (s2 : VSrc) (vs1 : VReg) (vd : VReg) : Statement (.vand ty mk s2 vs1 vd) := by
  refine of_raw rfl ?_
  simp only [decodeRaw, decodeVRaw, encV3, encV_op]
  exact decodeV3_enc ..
theorem vor (ty : ElemTy) (mk : MReg) (s2 : VSrc) (vs1 : VReg) (vd : VReg) : Statement (.vor ty mk s2 vs1 vd) := by
  refine of_raw rfl ?_
  simp only [decodeRaw, decodeVRaw, encV3, encV_op]
  exact decodeV3_enc ..
theorem vxor (ty : ElemTy) (mk : MReg) (s2 : VSrc) (vs1 : VReg) (vd : VReg) : Statement (.vxor ty mk s2 vs1 vd) := by
  refine of_raw rfl ?_
  simp only [decodeRaw, decodeVRaw, encV3, encV_op]
  exact decodeV3_enc ..
theorem vnot (ty : ElemTy) (mk : MReg) (vs1 : VReg) (vd : VReg) : Statement (.vnot ty mk vs1 vd) := by
  refine of_raw rfl ?_
  simp only [decodeRaw, decodeVRaw, encV_op]
  exact decodeV2_enc ..
theorem vshl (ty : ElemTy) (mk : MReg) (s2 : VSrc) (vs1 : VReg) (vd : VReg) : Statement (.vshl ty mk s2 vs1 vd) := by
  refine of_raw rfl ?_
  simp only [decodeRaw, decodeVRaw, encV3, encV_op]
  exact decodeV3_enc ..
theorem vshr (ty : ElemTy) (mk : MReg) (s2 : VSrc) (vs1 : VReg) (vd : VReg) : Statement (.vshr ty mk s2 vs1 vd) := by
  refine of_raw rfl ?_
  simp only [decodeRaw, decodeVRaw, encV3, encV_op]
  exact decodeV3_enc ..
theorem vsra (ty : ElemTy) (mk : MReg) (s2 : VSrc) (vs1 : VReg) (vd : VReg) : Statement (.vsra ty mk s2 vs1 vd) := by
  refine of_raw rfl ?_
  simp only [decodeRaw, decodeVRaw, encV3, encV_op]
  exact decodeV3_enc ..
theorem vcmp (rel : CmpRel) (ty : ElemTy) (mk : MReg) (s2 : VSrc) (vs1 : VReg) (md : MReg) : Statement (.vcmp rel ty mk s2 vs1 md) := by
  refine of_raw rfl ?_
  simp only [decodeRaw, decodeVRaw, encV_op, encV3]
  simp (disch := decide) only [encV3, zeroBits, demand, formIs, encV_op, encV_ty, encV_mk, encV_s2, encV_vs1, encV_vd, encV_form, encV_aux, encV_s23, encV_s2Hi2, encV_s24, encV_s2Hi1, encV_vs13, encV_vs1Hi2, encV_vs14, encV_vs1Hi1, encV_vd3, encV_vdHi2, encV_aux0, encV_aux1, encV_none, idx3_lo, idx3_hi, idx4_lo, idx4_hi, vsrcOf_enc, ElemTy.ofCode_code, Order.ofCode_code, Scope.ofCode_code, Timeline.ofCode_code, RMode.ofCode_code, AmoTy.ofCode_code, AmoOp.ofCode_code, CmpRel.ofCode_code, RedOp.ofCode_code, DrainMode.ofCode_code, HintKind.ofCode_code, bit1_eq, coded_some, BitVec.extractLsb'_append_eq_of_le, BitVec.extractLsb'_append_eq_of_add_le, Nat.reduceSub, Nat.sub_self, BitVec.extractLsb'_eq_self]
  rfl
theorem vsel (ty : ElemTy) (mk : MReg) (vs2 : VReg) (vs1 : VReg) (vd : VReg) : Statement (.vsel ty mk vs2 vs1 vd) := by
  refine of_raw rfl ?_
  simp only [decodeRaw, decodeVRaw, encV_op, encV3]
  simp (disch := decide) only [zeroBits, demand, formIs, encV_op, encV_ty, encV_mk, encV_s2, encV_vs1, encV_vd, encV_form, encV_aux, encV_s23, encV_s2Hi2, encV_s24, encV_s2Hi1, encV_vs13, encV_vs1Hi2, encV_vs14, encV_vs1Hi1, encV_vd3, encV_vdHi2, encV_aux0, encV_aux1, encV_none, idx3_lo, idx3_hi, idx4_lo, idx4_hi, vsrcOf_enc, ElemTy.ofCode_code, Order.ofCode_code, Scope.ofCode_code, Timeline.ofCode_code, RMode.ofCode_code, AmoTy.ofCode_code, AmoOp.ofCode_code, CmpRel.ofCode_code, RedOp.ofCode_code, DrainMode.ofCode_code, HintKind.ofCode_code, bit1_eq, coded_some, BitVec.extractLsb'_append_eq_of_le, BitVec.extractLsb'_append_eq_of_add_le, Nat.reduceSub, Nat.sub_self, BitVec.extractLsb'_eq_self]
  rfl
theorem vcvt (ty : ElemTy) (ts : ElemTy) (mk : MReg) (vs1 : VReg) (vd : VReg) : Statement (.vcvt ty ts mk vs1 vd) := by
  refine of_raw rfl ?_
  simp only [decodeRaw, decodeVRaw, encV_op, encV3]
  simp (disch := decide) only [zeroBits, demand, formIs, encV_op, encV_ty, encV_mk, encV_s2, encV_vs1, encV_vd, encV_form, encV_aux, encV_s23, encV_s2Hi2, encV_s24, encV_s2Hi1, encV_vs13, encV_vs1Hi2, encV_vs14, encV_vs1Hi1, encV_vd3, encV_vdHi2, encV_aux0, encV_aux1, encV_none, idx3_lo, idx3_hi, idx4_lo, idx4_hi, vsrcOf_enc, ElemTy.ofCode_code, Order.ofCode_code, Scope.ofCode_code, Timeline.ofCode_code, RMode.ofCode_code, AmoTy.ofCode_code, AmoOp.ofCode_code, CmpRel.ofCode_code, RedOp.ofCode_code, DrainMode.ofCode_code, HintKind.ofCode_code, bit1_eq, coded_some, BitVec.extractLsb'_append_eq_of_le, BitVec.extractLsb'_append_eq_of_add_le, Nat.reduceSub, Nat.sub_self, BitVec.extractLsb'_eq_self]
  rfl
theorem vmov (ty : ElemTy) (mk : MReg) (vs1 : VReg) (vd : VReg) : Statement (.vmov ty mk vs1 vd) := by
  refine of_raw rfl ?_
  simp only [decodeRaw, decodeVRaw, encV_op]
  exact decodeV2_enc ..
theorem vbcast (ty : ElemTy) (mk : MReg) (xs : XReg) (vd : VReg) : Statement (.vbcast ty mk xs vd) := by
  refine of_raw rfl ?_
  simp only [decodeRaw, decodeVRaw, encV_op]
  exact decodeVMem_enc ..
theorem viota (ty : ElemTy) (mk : MReg) (vd : VReg) : Statement (.viota ty mk vd) := by
  refine of_raw rfl ?_
  simp only [decodeRaw, decodeVRaw, encV_op, encV3]
  simp (disch := decide) only [zeroBits, demand, formIs, encV_op, encV_ty, encV_mk, encV_s2, encV_vs1, encV_vd, encV_form, encV_aux, encV_s23, encV_s2Hi2, encV_s24, encV_s2Hi1, encV_vs13, encV_vs1Hi2, encV_vs14, encV_vs1Hi1, encV_vd3, encV_vdHi2, encV_aux0, encV_aux1, encV_none, idx3_lo, idx3_hi, idx4_lo, idx4_hi, vsrcOf_enc, ElemTy.ofCode_code, Order.ofCode_code, Scope.ofCode_code, Timeline.ofCode_code, RMode.ofCode_code, AmoTy.ofCode_code, AmoOp.ofCode_code, CmpRel.ofCode_code, RedOp.ofCode_code, DrainMode.ofCode_code, HintKind.ofCode_code, bit1_eq, coded_some, BitVec.extractLsb'_append_eq_of_le, BitVec.extractLsb'_append_eq_of_add_le, Nat.reduceSub, Nat.sub_self, BitVec.extractLsb'_eq_self]
  rfl
theorem vshuf (ty : ElemTy) (mk : MReg) (vs2 : VReg) (vs1 : VReg) (vd : VReg) : Statement (.vshuf ty mk vs2 vs1 vd) := by
  refine of_raw rfl ?_
  simp only [decodeRaw, decodeVRaw, encV_op, encV3]
  simp (disch := decide) only [zeroBits, demand, formIs, encV_op, encV_ty, encV_mk, encV_s2, encV_vs1, encV_vd, encV_form, encV_aux, encV_s23, encV_s2Hi2, encV_s24, encV_s2Hi1, encV_vs13, encV_vs1Hi2, encV_vs14, encV_vs1Hi1, encV_vd3, encV_vdHi2, encV_aux0, encV_aux1, encV_none, idx3_lo, idx3_hi, idx4_lo, idx4_hi, vsrcOf_enc, ElemTy.ofCode_code, Order.ofCode_code, Scope.ofCode_code, Timeline.ofCode_code, RMode.ofCode_code, AmoTy.ofCode_code, AmoOp.ofCode_code, CmpRel.ofCode_code, RedOp.ofCode_code, DrainMode.ofCode_code, HintKind.ofCode_code, bit1_eq, coded_some, BitVec.extractLsb'_append_eq_of_le, BitVec.extractLsb'_append_eq_of_add_le, Nat.reduceSub, Nat.sub_self, BitVec.extractLsb'_eq_self]
  rfl
theorem vslide (down : Bool) (ty : ElemTy) (mk : MReg) (s2 : VSrc) (vs1 : VReg) (vd : VReg) : Statement (.vslide down ty mk s2 vs1 vd) := by
  refine of_raw rfl ?_
  simp only [decodeRaw, decodeVRaw, encV_op, encV3]
  simp (disch := decide) only [encV3, zeroBits, demand, formIs, encV_op, encV_ty, encV_mk, encV_s2, encV_vs1, encV_vd, encV_form, encV_aux, encV_s23, encV_s2Hi2, encV_s24, encV_s2Hi1, encV_vs13, encV_vs1Hi2, encV_vs14, encV_vs1Hi1, encV_vd3, encV_vdHi2, encV_aux0, encV_aux1, encV_none, idx3_lo, idx3_hi, idx4_lo, idx4_hi, vsrcOf_enc, ElemTy.ofCode_code, Order.ofCode_code, Scope.ofCode_code, Timeline.ofCode_code, RMode.ofCode_code, AmoTy.ofCode_code, AmoOp.ofCode_code, CmpRel.ofCode_code, RedOp.ofCode_code, DrainMode.ofCode_code, HintKind.ofCode_code, bit1_eq, coded_some, BitVec.extractLsb'_append_eq_of_le, BitVec.extractLsb'_append_eq_of_add_le, Nat.reduceSub, Nat.sub_self, BitVec.extractLsb'_eq_self]
  rfl
theorem vcmpr (ty : ElemTy) (mk : MReg) (vs1 : VReg) (vd : VReg) : Statement (.vcmpr ty mk vs1 vd) := by
  refine of_raw rfl ?_
  simp only [decodeRaw, decodeVRaw, encV_op]
  exact decodeV2_enc ..
theorem vpart (ty : ElemTy) (mk : MReg) (vd : VReg) : Statement (.vpart ty mk vd) := by
  refine of_raw rfl ?_
  simp only [decodeRaw, decodeVRaw, encV_op, encV3]
  simp (disch := decide) only [zeroBits, demand, formIs, encV_op, encV_ty, encV_mk, encV_s2, encV_vs1, encV_vd, encV_form, encV_aux, encV_s23, encV_s2Hi2, encV_s24, encV_s2Hi1, encV_vs13, encV_vs1Hi2, encV_vs14, encV_vs1Hi1, encV_vd3, encV_vdHi2, encV_aux0, encV_aux1, encV_none, idx3_lo, idx3_hi, idx4_lo, idx4_hi, vsrcOf_enc, ElemTy.ofCode_code, Order.ofCode_code, Scope.ofCode_code, Timeline.ofCode_code, RMode.ofCode_code, AmoTy.ofCode_code, AmoOp.ofCode_code, CmpRel.ofCode_code, RedOp.ofCode_code, DrainMode.ofCode_code, HintKind.ofCode_code, bit1_eq, coded_some, BitVec.extractLsb'_append_eq_of_le, BitVec.extractLsb'_append_eq_of_add_le, Nat.reduceSub, Nat.sub_self, BitVec.extractLsb'_eq_self]
  rfl
theorem vred (op : RedOp) (ty : ElemTy) (mk : MReg) (vs1 : VReg) (vd : VReg) : Statement (.vred op ty mk vs1 vd) := by
  refine of_raw rfl ?_
  simp only [decodeRaw, decodeVRaw, encV_op, encV3]
  simp (disch := decide) only [zeroBits, demand, formIs, encV_op, encV_ty, encV_mk, encV_s2, encV_vs1, encV_vd, encV_form, encV_aux, encV_s23, encV_s2Hi2, encV_s24, encV_s2Hi1, encV_vs13, encV_vs1Hi2, encV_vs14, encV_vs1Hi1, encV_vd3, encV_vdHi2, encV_aux0, encV_aux1, encV_none, idx3_lo, idx3_hi, idx4_lo, idx4_hi, vsrcOf_enc, ElemTy.ofCode_code, Order.ofCode_code, Scope.ofCode_code, Timeline.ofCode_code, RMode.ofCode_code, AmoTy.ofCode_code, AmoOp.ofCode_code, CmpRel.ofCode_code, RedOp.ofCode_code, DrainMode.ofCode_code, HintKind.ofCode_code, bit1_eq, coded_some, BitVec.extractLsb'_append_eq_of_le, BitVec.extractLsb'_append_eq_of_add_le, Nat.reduceSub, Nat.sub_self, BitVec.extractLsb'_eq_self]
  rfl
theorem vscan (op : RedOp) (ty : ElemTy) (mk : MReg) (vs1 : VReg) (vd : VReg) : Statement (.vscan op ty mk vs1 vd) := by
  refine of_raw rfl ?_
  simp only [decodeRaw, decodeVRaw, encV_op, encV3]
  simp (disch := decide) only [zeroBits, demand, formIs, encV_op, encV_ty, encV_mk, encV_s2, encV_vs1, encV_vd, encV_form, encV_aux, encV_s23, encV_s2Hi2, encV_s24, encV_s2Hi1, encV_vs13, encV_vs1Hi2, encV_vs14, encV_vs1Hi1, encV_vd3, encV_vdHi2, encV_aux0, encV_aux1, encV_none, idx3_lo, idx3_hi, idx4_lo, idx4_hi, vsrcOf_enc, ElemTy.ofCode_code, Order.ofCode_code, Scope.ofCode_code, Timeline.ofCode_code, RMode.ofCode_code, AmoTy.ofCode_code, AmoOp.ofCode_code, CmpRel.ofCode_code, RedOp.ofCode_code, DrainMode.ofCode_code, HintKind.ofCode_code, bit1_eq, coded_some, BitVec.extractLsb'_append_eq_of_le, BitVec.extractLsb'_append_eq_of_add_le, Nat.reduceSub, Nat.sub_self, BitVec.extractLsb'_eq_self]
  rfl
theorem mset (ty : ElemTy) (xn : XReg) (md : MReg) : Statement (.mset ty xn md) := by
  refine of_raw rfl ?_
  simp only [decodeRaw, decodeVRaw, encV_op, encV3]
  simp (disch := decide) only [zeroBits, demand, formIs, encV_op, encV_ty, encV_mk, encV_s2, encV_vs1, encV_vd, encV_form, encV_aux, encV_s23, encV_s2Hi2, encV_s24, encV_s2Hi1, encV_vs13, encV_vs1Hi2, encV_vs14, encV_vs1Hi1, encV_vd3, encV_vdHi2, encV_aux0, encV_aux1, encV_none, idx3_lo, idx3_hi, idx4_lo, idx4_hi, vsrcOf_enc, ElemTy.ofCode_code, Order.ofCode_code, Scope.ofCode_code, Timeline.ofCode_code, RMode.ofCode_code, AmoTy.ofCode_code, AmoOp.ofCode_code, CmpRel.ofCode_code, RedOp.ofCode_code, DrainMode.ofCode_code, HintKind.ofCode_code, bit1_eq, coded_some, BitVec.extractLsb'_append_eq_of_le, BitVec.extractLsb'_append_eq_of_add_le, Nat.reduceSub, Nat.sub_self, BitVec.extractLsb'_eq_self]
  rfl
theorem mand (mb : MReg) (ma : MReg) (md : MReg) : Statement (.mand mb ma md) := by
  refine of_raw rfl ?_
  simp only [decodeRaw, decodeVRaw, encV_op]
  exact decodeMask_enc ..
theorem mor (mb : MReg) (ma : MReg) (md : MReg) : Statement (.mor mb ma md) := by
  refine of_raw rfl ?_
  simp only [decodeRaw, decodeVRaw, encV_op]
  exact decodeMask_enc ..
theorem mxor (mb : MReg) (ma : MReg) (md : MReg) : Statement (.mxor mb ma md) := by
  refine of_raw rfl ?_
  simp only [decodeRaw, decodeVRaw, encV_op]
  exact decodeMask_enc ..
theorem mnot (ma : MReg) (md : MReg) : Statement (.mnot ma md) := by
  refine of_raw rfl ?_
  simp only [decodeRaw, decodeVRaw, encV_op, encV3]
  simp (disch := decide) only [decodeMask, zeroBits, demand, formIs, encV_op, encV_ty, encV_mk, encV_s2, encV_vs1, encV_vd, encV_form, encV_aux, encV_s23, encV_s2Hi2, encV_s24, encV_s2Hi1, encV_vs13, encV_vs1Hi2, encV_vs14, encV_vs1Hi1, encV_vd3, encV_vdHi2, encV_aux0, encV_aux1, encV_none, idx3_lo, idx3_hi, idx4_lo, idx4_hi, vsrcOf_enc, ElemTy.ofCode_code, Order.ofCode_code, Scope.ofCode_code, Timeline.ofCode_code, RMode.ofCode_code, AmoTy.ofCode_code, AmoOp.ofCode_code, CmpRel.ofCode_code, RedOp.ofCode_code, DrainMode.ofCode_code, HintKind.ofCode_code, bit1_eq, coded_some, BitVec.extractLsb'_append_eq_of_le, BitVec.extractLsb'_append_eq_of_add_le, Nat.reduceSub, Nat.sub_self, BitVec.extractLsb'_eq_self]
  rfl
theorem vld (ty : ElemTy) (mk : MReg) (xs : XReg) (vd : VReg) : Statement (.vld ty mk xs vd) := by
  refine of_raw rfl ?_
  simp only [decodeRaw, decodeVRaw, encV_op]
  exact decodeVMem_enc ..
theorem vst (ty : ElemTy) (mk : MReg) (xs : XReg) (vd : VReg) : Statement (.vst ty mk xs vd) := by
  refine of_raw rfl ?_
  simp only [decodeRaw, decodeVRaw, encV_op]
  exact decodeVMem_enc ..
theorem vldg (ty : ElemTy) (mk : MReg) (xs : XReg) (vs1 : VReg) (vd : VReg) : Statement (.vldg ty mk xs vs1 vd) := by
  refine of_raw rfl ?_
  simp only [decodeRaw, decodeVRaw, encV_op]
  exact decodeVIdx_enc ..
theorem vsts (ty : ElemTy) (mk : MReg) (xs : XReg) (vs1 : VReg) (vd : VReg) : Statement (.vsts ty mk xs vs1 vd) := by
  refine of_raw rfl ?_
  simp only [decodeRaw, decodeVRaw, encV_op]
  exact decodeVIdx_enc ..
theorem vldr (ty : ElemTy) (mk : MReg) (xoff : XReg) (h : HReg) (vd : VReg) : Statement (.vldr ty mk xoff h vd) := by
  refine of_raw rfl ?_
  simp only [decodeRaw, decodeVRaw, encV_op]
  exact decodeVRing_enc ..
theorem vstr (ty : ElemTy) (mk : MReg) (xoff : XReg) (h : HReg) (vd : VReg) : Statement (.vstr ty mk xoff h vd) := by
  refine of_raw rfl ?_
  simp only [decodeRaw, decodeVRaw, encV_op]
  exact decodeVRing_enc ..
theorem vadv (xn : XReg) (h : HReg) : Statement (.vadv xn h) := by
  refine of_raw rfl ?_
  simp only [decodeRaw, decodeVRaw, encV_op]
  exact decodeVAdv_enc ..
theorem vpub (xn : XReg) (h : HReg) : Statement (.vpub xn h) := by
  refine of_raw rfl ?_
  simp only [decodeRaw, decodeVRaw, encV_op]
  exact decodeVAdv_enc ..
theorem vlda (last : Bool) (xrow : XReg) (acc : AccReg) (vd : VReg) : Statement (.vlda last xrow acc vd) := by
  refine of_raw rfl ?_
  simp only [decodeRaw, decodeVRaw, encV_op, encV3]
  simp (disch := decide) only [zeroBits, demand, formIs, encV_op, encV_ty, encV_mk, encV_s2, encV_vs1, encV_vd, encV_form, encV_aux, encV_s23, encV_s2Hi2, encV_s24, encV_s2Hi1, encV_vs13, encV_vs1Hi2, encV_vs14, encV_vs1Hi1, encV_vd3, encV_vdHi2, encV_aux0, encV_aux1, encV_none, idx3_lo, idx3_hi, idx4_lo, idx4_hi, vsrcOf_enc, ElemTy.ofCode_code, Order.ofCode_code, Scope.ofCode_code, Timeline.ofCode_code, RMode.ofCode_code, AmoTy.ofCode_code, AmoOp.ofCode_code, CmpRel.ofCode_code, RedOp.ofCode_code, DrainMode.ofCode_code, HintKind.ofCode_code, bit1_eq, coded_some, BitVec.extractLsb'_append_eq_of_le, BitVec.extractLsb'_append_eq_of_add_le, Nat.reduceSub, Nat.sub_self, BitVec.extractLsb'_eq_self]
  rfl
theorem rset (h : HReg) (xa : XReg) : Statement (.rset h xa) := by
  refine of_raw rfl ?_
  simp (disch := decide) only [decodeRaw, decodeE, zeroBits, demand, encE_group, encE_op, encE_xa, encE_xb, encE_xc, encE_spec, encE_s3, encE_s4, encE_s2, encE_z43, encE_z34, encE_z25, encE_z52, encE_z32, encE_z33, encE_z61, ElemTy.ofCode_code, Order.ofCode_code, Scope.ofCode_code, Timeline.ofCode_code, RMode.ofCode_code, AmoTy.ofCode_code, AmoOp.ofCode_code, CmpRel.ofCode_code, RedOp.ofCode_code, DrainMode.ofCode_code, HintKind.ofCode_code, bit1_eq, coded_some, BitVec.extractLsb'_append_eq_of_le, BitVec.extractLsb'_append_eq_of_add_le, Nat.reduceSub, Nat.sub_self, BitVec.extractLsb'_eq_self]
  rfl
theorem sfill (h : HReg) (xa : XReg) (xb : XReg) : Statement (.sfill h xa xb) := by
  refine of_raw rfl ?_
  simp (disch := decide) only [decodeRaw, decodeE, zeroBits, demand, encE_group, encE_op, encE_xa, encE_xb, encE_xc, encE_spec, encE_s3, encE_s4, encE_s2, encE_z43, encE_z34, encE_z25, encE_z52, encE_z32, encE_z33, encE_z61, ElemTy.ofCode_code, Order.ofCode_code, Scope.ofCode_code, Timeline.ofCode_code, RMode.ofCode_code, AmoTy.ofCode_code, AmoOp.ofCode_code, CmpRel.ofCode_code, RedOp.ofCode_code, DrainMode.ofCode_code, HintKind.ofCode_code, bit1_eq, coded_some, BitVec.extractLsb'_append_eq_of_le, BitVec.extractLsb'_append_eq_of_add_le, Nat.reduceSub, Nat.sub_self, BitVec.extractLsb'_eq_self]
  rfl
theorem sdrain (h : HReg) (xa : XReg) (xb : XReg) : Statement (.sdrain h xa xb) := by
  refine of_raw rfl ?_
  simp (disch := decide) only [decodeRaw, decodeE, zeroBits, demand, encE_group, encE_op, encE_xa, encE_xb, encE_xc, encE_spec, encE_s3, encE_s4, encE_s2, encE_z43, encE_z34, encE_z25, encE_z52, encE_z32, encE_z33, encE_z61, ElemTy.ofCode_code, Order.ofCode_code, Scope.ofCode_code, Timeline.ofCode_code, RMode.ofCode_code, AmoTy.ofCode_code, AmoOp.ofCode_code, CmpRel.ofCode_code, RedOp.ofCode_code, DrainMode.ofCode_code, HintKind.ofCode_code, bit1_eq, coded_some, BitVec.extractLsb'_append_eq_of_le, BitVec.extractLsb'_append_eq_of_add_le, Nat.reduceSub, Nat.sub_self, BitVec.extractLsb'_eq_self]
  rfl
theorem scopy (xa : XReg) (xb : XReg) (xc : XReg) : Statement (.scopy xa xb xc) := by
  refine of_raw rfl ?_
  simp (disch := decide) only [decodeRaw, decodeE, zeroBits, demand, encE_group, encE_op, encE_xa, encE_xb, encE_xc, encE_spec, encE_s3, encE_s4, encE_s2, encE_z43, encE_z34, encE_z25, encE_z52, encE_z32, encE_z33, encE_z61, ElemTy.ofCode_code, Order.ofCode_code, Scope.ofCode_code, Timeline.ofCode_code, RMode.ofCode_code, AmoTy.ofCode_code, AmoOp.ofCode_code, CmpRel.ofCode_code, RedOp.ofCode_code, DrainMode.ofCode_code, HintKind.ofCode_code, bit1_eq, coded_some, BitVec.extractLsb'_append_eq_of_le, BitVec.extractLsb'_append_eq_of_add_le, Nat.reduceSub, Nat.sub_self, BitVec.extractLsb'_eq_self]
  rfl
theorem shint (kind : HintKind) (xa : XReg) (xb : XReg) : Statement (.shint kind xa xb) := by
  refine of_raw rfl ?_
  simp (disch := decide) only [decodeRaw, decodeE, zeroBits, demand, encE_group, encE_op, encE_xa, encE_xb, encE_xc, encE_spec, encE_s3, encE_s4, encE_s2, encE_z43, encE_z34, encE_z25, encE_z52, encE_z32, encE_z33, encE_z61, ElemTy.ofCode_code, Order.ofCode_code, Scope.ofCode_code, Timeline.ofCode_code, RMode.ofCode_code, AmoTy.ofCode_code, AmoOp.ofCode_code, CmpRel.ofCode_code, RedOp.ofCode_code, DrainMode.ofCode_code, HintKind.ofCode_code, bit1_eq, coded_some, BitVec.extractLsb'_append_eq_of_le, BitVec.extractLsb'_append_eq_of_add_le, Nat.reduceSub, Nat.sub_self, BitVec.extractLsb'_eq_self]
  rfl
theorem mcfg (f : BitVec 7) (xa : XReg) : Statement (.mcfg f xa) := by
  refine of_raw rfl ?_
  simp (disch := decide) only [decodeRaw, decodeE, zeroBits, demand, encE_group, encE_op, encE_xa, encE_xb, encE_xc, encE_spec, encE_s3, encE_s4, encE_s2, encE_z43, encE_z34, encE_z25, encE_z52, encE_z32, encE_z33, encE_z61, ElemTy.ofCode_code, Order.ofCode_code, Scope.ofCode_code, Timeline.ofCode_code, RMode.ofCode_code, AmoTy.ofCode_code, AmoOp.ofCode_code, CmpRel.ofCode_code, RedOp.ofCode_code, DrainMode.ofCode_code, HintKind.ofCode_code, bit1_eq, coded_some, BitVec.extractLsb'_append_eq_of_le, BitVec.extractLsb'_append_eq_of_add_le, Nat.reduceSub, Nat.sub_self, BitVec.extractLsb'_eq_self]
  rfl
theorem mgo : Statement (.mgo) := by
  refine of_raw rfl ?_
  simp (disch := decide) only [decodeRaw, decodeE, zeroBits, demand, encE_group, encE_op, encE_xa, encE_xb, encE_xc, encE_spec, encE_s3, encE_s4, encE_s2, encE_z43, encE_z34, encE_z25, encE_z52, encE_z32, encE_z33, encE_z61, ElemTy.ofCode_code, Order.ofCode_code, Scope.ofCode_code, Timeline.ofCode_code, RMode.ofCode_code, AmoTy.ofCode_code, AmoOp.ofCode_code, CmpRel.ofCode_code, RedOp.ofCode_code, DrainMode.ofCode_code, HintKind.ofCode_code, bit1_eq, coded_some, BitVec.extractLsb'_append_eq_of_le, BitVec.extractLsb'_append_eq_of_add_le, Nat.reduceSub, Nat.sub_self, BitVec.extractLsb'_eq_self]
  rfl
theorem mrnd (rm : RMode) : Statement (.mrnd rm) := by
  refine of_raw rfl ?_
  simp (disch := decide) only [decodeRaw, decodeE, zeroBits, demand, encE_group, encE_op, encE_xa, encE_xb, encE_xc, encE_spec, encE_s3, encE_s4, encE_s2, encE_z43, encE_z34, encE_z25, encE_z52, encE_z32, encE_z33, encE_z61, ElemTy.ofCode_code, Order.ofCode_code, Scope.ofCode_code, Timeline.ofCode_code, RMode.ofCode_code, AmoTy.ofCode_code, AmoOp.ofCode_code, CmpRel.ofCode_code, RedOp.ofCode_code, DrainMode.ofCode_code, HintKind.ofCode_code, bit1_eq, coded_some, BitVec.extractLsb'_append_eq_of_le, BitVec.extractLsb'_append_eq_of_add_le, Nat.reduceSub, Nat.sub_self, BitVec.extractLsb'_eq_self]
  rfl
theorem mzero (acc : AccReg) : Statement (.mzero acc) := by
  refine of_raw rfl ?_
  simp (disch := decide) only [decodeRaw, decodeE, zeroBits, demand, encE_group, encE_op, encE_xa, encE_xb, encE_xc, encE_spec, encE_s3, encE_s4, encE_s2, encE_z43, encE_z34, encE_z25, encE_z52, encE_z32, encE_z33, encE_z61, ElemTy.ofCode_code, Order.ofCode_code, Scope.ofCode_code, Timeline.ofCode_code, RMode.ofCode_code, AmoTy.ofCode_code, AmoOp.ofCode_code, CmpRel.ofCode_code, RedOp.ofCode_code, DrainMode.ofCode_code, HintKind.ofCode_code, bit1_eq, coded_some, BitVec.extractLsb'_append_eq_of_le, BitVec.extractLsb'_append_eq_of_add_le, Nat.reduceSub, Nat.sub_self, BitVec.extractLsb'_eq_self]
  rfl
theorem mdrain (acc : AccReg) (mode : DrainMode) (xa : XReg) (xb : XReg) : Statement (.mdrain acc mode xa xb) := by
  refine of_raw rfl ?_
  simp (disch := decide) only [decodeRaw, decodeE, zeroBits, demand, encE_group, encE_op, encE_xa, encE_xb, encE_xc, encE_spec, encE_s3, encE_s4, encE_s2, encE_z43, encE_z34, encE_z25, encE_z52, encE_z32, encE_z33, encE_z61, ElemTy.ofCode_code, Order.ofCode_code, Scope.ofCode_code, Timeline.ofCode_code, RMode.ofCode_code, AmoTy.ofCode_code, AmoOp.ofCode_code, CmpRel.ofCode_code, RedOp.ofCode_code, DrainMode.ofCode_code, HintKind.ofCode_code, bit1_eq, coded_some, BitVec.extractLsb'_append_eq_of_le, BitVec.extractLsb'_append_eq_of_add_le, Nat.reduceSub, Nat.sub_self, BitVec.extractLsb'_eq_self]
  rfl
theorem mchk (xa : XReg) : Statement (.mchk xa) := by
  refine of_raw rfl ?_
  simp (disch := decide) only [decodeRaw, decodeE, zeroBits, demand, encE_group, encE_op, encE_xa, encE_xb, encE_xc, encE_spec, encE_s3, encE_s4, encE_s2, encE_z43, encE_z34, encE_z25, encE_z52, encE_z32, encE_z33, encE_z61, ElemTy.ofCode_code, Order.ofCode_code, Scope.ofCode_code, Timeline.ofCode_code, RMode.ofCode_code, AmoTy.ofCode_code, AmoOp.ofCode_code, CmpRel.ofCode_code, RedOp.ofCode_code, DrainMode.ofCode_code, HintKind.ofCode_code, bit1_eq, coded_some, BitVec.extractLsb'_append_eq_of_le, BitVec.extractLsb'_append_eq_of_add_le, Nat.reduceSub, Nat.sub_self, BitVec.extractLsb'_eq_self]
  rfl
theorem clset (cls : BitVec 3) (xa : XReg) : Statement (.clset cls xa) := by
  refine of_raw rfl ?_
  simp (disch := decide) only [decodeRaw, decodeE, zeroBits, demand, encE_group, encE_op, encE_xa, encE_xb, encE_xc, encE_spec, encE_s3, encE_s4, encE_s2, encE_z43, encE_z34, encE_z25, encE_z52, encE_z32, encE_z33, encE_z61, ElemTy.ofCode_code, Order.ofCode_code, Scope.ofCode_code, Timeline.ofCode_code, RMode.ofCode_code, AmoTy.ofCode_code, AmoOp.ofCode_code, CmpRel.ofCode_code, RedOp.ofCode_code, DrainMode.ofCode_code, HintKind.ofCode_code, bit1_eq, coded_some, BitVec.extractLsb'_append_eq_of_le, BitVec.extractLsb'_append_eq_of_add_le, Nat.reduceSub, Nat.sub_self, BitVec.extractLsb'_eq_self]
  rfl
theorem clclr (cls : BitVec 3) (xa : XReg) : Statement (.clclr cls xa) := by
  refine of_raw rfl ?_
  simp (disch := decide) only [decodeRaw, decodeE, zeroBits, demand, encE_group, encE_op, encE_xa, encE_xb, encE_xc, encE_spec, encE_s3, encE_s4, encE_s2, encE_z43, encE_z34, encE_z25, encE_z52, encE_z32, encE_z33, encE_z61, ElemTy.ofCode_code, Order.ofCode_code, Scope.ofCode_code, Timeline.ofCode_code, RMode.ofCode_code, AmoTy.ofCode_code, AmoOp.ofCode_code, CmpRel.ofCode_code, RedOp.ofCode_code, DrainMode.ofCode_code, HintKind.ofCode_code, bit1_eq, coded_some, BitVec.extractLsb'_append_eq_of_le, BitVec.extractLsb'_append_eq_of_add_le, Nat.reduceSub, Nat.sub_self, BitVec.extractLsb'_eq_self]
  rfl
theorem clins (cls : BitVec 3) (xa : XReg) (xb : XReg) (xc : XReg) : Statement (.clins cls xa xb xc) := by
  refine of_raw rfl ?_
  simp (disch := decide) only [decodeRaw, decodeE, zeroBits, demand, encE_group, encE_op, encE_xa, encE_xb, encE_xc, encE_spec, encE_s3, encE_s4, encE_s2, encE_z43, encE_z34, encE_z25, encE_z52, encE_z32, encE_z33, encE_z61, ElemTy.ofCode_code, Order.ofCode_code, Scope.ofCode_code, Timeline.ofCode_code, RMode.ofCode_code, AmoTy.ofCode_code, AmoOp.ofCode_code, CmpRel.ofCode_code, RedOp.ofCode_code, DrainMode.ofCode_code, HintKind.ofCode_code, bit1_eq, coded_some, BitVec.extractLsb'_append_eq_of_le, BitVec.extractLsb'_append_eq_of_add_le, Nat.reduceSub, Nat.sub_self, BitVec.extractLsb'_eq_self]
  rfl
theorem cldel (cls : BitVec 3) (xa : XReg) (xb : XReg) (xc : XReg) : Statement (.cldel cls xa xb xc) := by
  refine of_raw rfl ?_
  simp (disch := decide) only [decodeRaw, decodeE, zeroBits, demand, encE_group, encE_op, encE_xa, encE_xb, encE_xc, encE_spec, encE_s3, encE_s4, encE_s2, encE_z43, encE_z34, encE_z25, encE_z52, encE_z32, encE_z33, encE_z61, ElemTy.ofCode_code, Order.ofCode_code, Scope.ofCode_code, Timeline.ofCode_code, RMode.ofCode_code, AmoTy.ofCode_code, AmoOp.ofCode_code, CmpRel.ofCode_code, RedOp.ofCode_code, DrainMode.ofCode_code, HintKind.ofCode_code, bit1_eq, coded_some, BitVec.extractLsb'_append_eq_of_le, BitVec.extractLsb'_append_eq_of_add_le, Nat.reduceSub, Nat.sub_self, BitVec.extractLsb'_eq_self]
  rfl
theorem clsub (cls : BitVec 3) (xa : XReg) (xb : XReg) : Statement (.clsub cls xa xb) := by
  refine of_raw rfl ?_
  simp (disch := decide) only [decodeRaw, decodeE, zeroBits, demand, encE_group, encE_op, encE_xa, encE_xb, encE_xc, encE_spec, encE_s3, encE_s4, encE_s2, encE_z43, encE_z34, encE_z25, encE_z52, encE_z32, encE_z33, encE_z61, ElemTy.ofCode_code, Order.ofCode_code, Scope.ofCode_code, Timeline.ofCode_code, RMode.ofCode_code, AmoTy.ofCode_code, AmoOp.ofCode_code, CmpRel.ofCode_code, RedOp.ofCode_code, DrainMode.ofCode_code, HintKind.ofCode_code, bit1_eq, coded_some, BitVec.extractLsb'_append_eq_of_le, BitVec.extractLsb'_append_eq_of_add_le, Nat.reduceSub, Nat.sub_self, BitVec.extractLsb'_eq_self]
  rfl
theorem clxch (cls : BitVec 3) (xa : XReg) (xb : XReg) : Statement (.clxch cls xa xb) := by
  refine of_raw rfl ?_
  simp (disch := decide) only [decodeRaw, decodeE, zeroBits, demand, encE_group, encE_op, encE_xa, encE_xb, encE_xc, encE_spec, encE_s3, encE_s4, encE_s2, encE_z43, encE_z34, encE_z25, encE_z52, encE_z32, encE_z33, encE_z61, ElemTy.ofCode_code, Order.ofCode_code, Scope.ofCode_code, Timeline.ofCode_code, RMode.ofCode_code, AmoTy.ofCode_code, AmoOp.ofCode_code, CmpRel.ofCode_code, RedOp.ofCode_code, DrainMode.ofCode_code, HintKind.ofCode_code, bit1_eq, coded_some, BitVec.extractLsb'_append_eq_of_le, BitVec.extractLsb'_append_eq_of_add_le, Nat.reduceSub, Nat.sub_self, BitVec.extractLsb'_eq_self]
  rfl
theorem clpeel (cls : BitVec 3) (t : Bool) (xa : XReg) (xb : XReg) (xc : XReg) : Statement (.clpeel cls t xa xb xc) := by
  refine of_raw rfl ?_
  simp (disch := decide) only [decodeRaw, decodeE, zeroBits, demand, encE_group, encE_op, encE_xa, encE_xb, encE_xc, encE_spec, encE_s3, encE_s4, encE_s2, encE_z43, encE_z34, encE_z25, encE_z52, encE_z32, encE_z33, encE_z61, ElemTy.ofCode_code, Order.ofCode_code, Scope.ofCode_code, Timeline.ofCode_code, RMode.ofCode_code, AmoTy.ofCode_code, AmoOp.ofCode_code, CmpRel.ofCode_code, RedOp.ofCode_code, DrainMode.ofCode_code, HintKind.ofCode_code, bit1_eq, coded_some, BitVec.extractLsb'_append_eq_of_le, BitVec.extractLsb'_append_eq_of_add_le, Nat.reduceSub, Nat.sub_self, BitVec.extractLsb'_eq_self]
  rfl
theorem clstat (xa : XReg) (cls : BitVec 3) : Statement (.clstat xa cls) := by
  refine of_raw rfl ?_
  simp (disch := decide) only [decodeRaw, decodeE, zeroBits, demand, encE_group, encE_op, encE_xa, encE_xb, encE_xc, encE_spec, encE_s3, encE_s4, encE_s2, encE_z43, encE_z34, encE_z25, encE_z52, encE_z32, encE_z33, encE_z61, ElemTy.ofCode_code, Order.ofCode_code, Scope.ofCode_code, Timeline.ofCode_code, RMode.ofCode_code, AmoTy.ofCode_code, AmoOp.ofCode_code, CmpRel.ofCode_code, RedOp.ofCode_code, DrainMode.ofCode_code, HintKind.ofCode_code, bit1_eq, coded_some, BitVec.extractLsb'_append_eq_of_le, BitVec.extractLsb'_append_eq_of_add_le, Nat.reduceSub, Nat.sub_self, BitVec.extractLsb'_eq_self]
  rfl
theorem grec (g : BitVec 3) : Statement (.grec g) := by
  refine of_raw rfl ?_
  simp (disch := decide) only [decodeRaw, decodeE, zeroBits, demand, encE_group, encE_op, encE_xa, encE_xb, encE_xc, encE_spec, encE_s3, encE_s4, encE_s2, encE_z43, encE_z34, encE_z25, encE_z52, encE_z32, encE_z33, encE_z61, ElemTy.ofCode_code, Order.ofCode_code, Scope.ofCode_code, Timeline.ofCode_code, RMode.ofCode_code, AmoTy.ofCode_code, AmoOp.ofCode_code, CmpRel.ofCode_code, RedOp.ofCode_code, DrainMode.ofCode_code, HintKind.ofCode_code, bit1_eq, coded_some, BitVec.extractLsb'_append_eq_of_le, BitVec.extractLsb'_append_eq_of_add_le, Nat.reduceSub, Nat.sub_self, BitVec.extractLsb'_eq_self]
  rfl
theorem gend : Statement (.gend) := by
  refine of_raw rfl ?_
  simp (disch := decide) only [decodeRaw, decodeE, zeroBits, demand, encE_group, encE_op, encE_xa, encE_xb, encE_xc, encE_spec, encE_s3, encE_s4, encE_s2, encE_z43, encE_z34, encE_z25, encE_z52, encE_z32, encE_z33, encE_z61, ElemTy.ofCode_code, Order.ofCode_code, Scope.ofCode_code, Timeline.ofCode_code, RMode.ofCode_code, AmoTy.ofCode_code, AmoOp.ofCode_code, CmpRel.ofCode_code, RedOp.ofCode_code, DrainMode.ofCode_code, HintKind.ofCode_code, bit1_eq, coded_some, BitVec.extractLsb'_append_eq_of_le, BitVec.extractLsb'_append_eq_of_add_le, Nat.reduceSub, Nat.sub_self, BitVec.extractLsb'_eq_self]
  rfl
theorem gplay (xa : XReg) (g : BitVec 3) (xb : XReg) : Statement (.gplay xa g xb) := by
  refine of_raw rfl ?_
  simp (disch := decide) only [decodeRaw, decodeE, zeroBits, demand, encE_group, encE_op, encE_xa, encE_xb, encE_xc, encE_spec, encE_s3, encE_s4, encE_s2, encE_z43, encE_z34, encE_z25, encE_z52, encE_z32, encE_z33, encE_z61, ElemTy.ofCode_code, Order.ofCode_code, Scope.ofCode_code, Timeline.ofCode_code, RMode.ofCode_code, AmoTy.ofCode_code, AmoOp.ofCode_code, CmpRel.ofCode_code, RedOp.ofCode_code, DrainMode.ofCode_code, HintKind.ofCode_code, bit1_eq, coded_some, BitVec.extractLsb'_append_eq_of_le, BitVec.extractLsb'_append_eq_of_add_le, Nat.reduceSub, Nat.sub_self, BitVec.extractLsb'_eq_self]
  rfl
theorem gsave (g : BitVec 3) (xa : XReg) : Statement (.gsave g xa) := by
  refine of_raw rfl ?_
  simp (disch := decide) only [decodeRaw, decodeE, zeroBits, demand, encE_group, encE_op, encE_xa, encE_xb, encE_xc, encE_spec, encE_s3, encE_s4, encE_s2, encE_z43, encE_z34, encE_z25, encE_z52, encE_z32, encE_z33, encE_z61, ElemTy.ofCode_code, Order.ofCode_code, Scope.ofCode_code, Timeline.ofCode_code, RMode.ofCode_code, AmoTy.ofCode_code, AmoOp.ofCode_code, CmpRel.ofCode_code, RedOp.ofCode_code, DrainMode.ofCode_code, HintKind.ofCode_code, bit1_eq, coded_some, BitVec.extractLsb'_append_eq_of_le, BitVec.extractLsb'_append_eq_of_add_le, Nat.reduceSub, Nat.sub_self, BitVec.extractLsb'_eq_self]
  rfl
theorem gload (g : BitVec 3) (xa : XReg) : Statement (.gload g xa) := by
  refine of_raw rfl ?_
  simp (disch := decide) only [decodeRaw, decodeE, zeroBits, demand, encE_group, encE_op, encE_xa, encE_xb, encE_xc, encE_spec, encE_s3, encE_s4, encE_s2, encE_z43, encE_z34, encE_z25, encE_z52, encE_z32, encE_z33, encE_z61, ElemTy.ofCode_code, Order.ofCode_code, Scope.ofCode_code, Timeline.ofCode_code, RMode.ofCode_code, AmoTy.ofCode_code, AmoOp.ofCode_code, CmpRel.ofCode_code, RedOp.ofCode_code, DrainMode.ofCode_code, HintKind.ofCode_code, bit1_eq, coded_some, BitVec.extractLsb'_append_eq_of_le, BitVec.extractLsb'_append_eq_of_add_le, Nat.reduceSub, Nat.sub_self, BitVec.extractLsb'_eq_self]
  rfl
theorem gdrop (g : BitVec 3) : Statement (.gdrop g) := by
  refine of_raw rfl ?_
  simp (disch := decide) only [decodeRaw, decodeE, zeroBits, demand, encE_group, encE_op, encE_xa, encE_xb, encE_xc, encE_spec, encE_s3, encE_s4, encE_s2, encE_z43, encE_z34, encE_z25, encE_z52, encE_z32, encE_z33, encE_z61, ElemTy.ofCode_code, Order.ofCode_code, Scope.ofCode_code, Timeline.ofCode_code, RMode.ofCode_code, AmoTy.ofCode_code, AmoOp.ofCode_code, CmpRel.ofCode_code, RedOp.ofCode_code, DrainMode.ofCode_code, HintKind.ofCode_code, bit1_eq, coded_some, BitVec.extractLsb'_append_eq_of_le, BitVec.extractLsb'_append_eq_of_add_le, Nat.reduceSub, Nat.sub_self, BitVec.extractLsb'_eq_self]
  rfl
theorem gstat (xa : XReg) (g : BitVec 3) : Statement (.gstat xa g) := by
  refine of_raw rfl ?_
  simp (disch := decide) only [decodeRaw, decodeE, zeroBits, demand, encE_group, encE_op, encE_xa, encE_xb, encE_xc, encE_spec, encE_s3, encE_s4, encE_s2, encE_z43, encE_z34, encE_z25, encE_z52, encE_z32, encE_z33, encE_z61, ElemTy.ofCode_code, Order.ofCode_code, Scope.ofCode_code, Timeline.ofCode_code, RMode.ofCode_code, AmoTy.ofCode_code, AmoOp.ofCode_code, CmpRel.ofCode_code, RedOp.ofCode_code, DrainMode.ofCode_code, HintKind.ofCode_code, bit1_eq, coded_some, BitVec.extractLsb'_append_eq_of_le, BitVec.extractLsb'_append_eq_of_add_le, Nat.reduceSub, Nat.sub_self, BitVec.extractLsb'_eq_self]
  rfl
theorem jpost (xa : XReg) (xb : XReg) : Statement (.jpost xa xb) := by
  refine of_raw rfl ?_
  simp (disch := decide) only [decodeRaw, decodeE, zeroBits, demand, encE_group, encE_op, encE_xa, encE_xb, encE_xc, encE_spec, encE_s3, encE_s4, encE_s2, encE_z43, encE_z34, encE_z25, encE_z52, encE_z32, encE_z33, encE_z61, ElemTy.ofCode_code, Order.ofCode_code, Scope.ofCode_code, Timeline.ofCode_code, RMode.ofCode_code, AmoTy.ofCode_code, AmoOp.ofCode_code, CmpRel.ofCode_code, RedOp.ofCode_code, DrainMode.ofCode_code, HintKind.ofCode_code, bit1_eq, coded_some, BitVec.extractLsb'_append_eq_of_le, BitVec.extractLsb'_append_eq_of_add_le, Nat.reduceSub, Nat.sub_self, BitVec.extractLsb'_eq_self]
  rfl
theorem jdone : Statement (.jdone) := by
  refine of_raw rfl ?_
  simp (disch := decide) only [decodeRaw, decodeE, zeroBits, demand, encE_group, encE_op, encE_xa, encE_xb, encE_xc, encE_spec, encE_s3, encE_s4, encE_s2, encE_z43, encE_z34, encE_z25, encE_z52, encE_z32, encE_z33, encE_z61, ElemTy.ofCode_code, Order.ofCode_code, Scope.ofCode_code, Timeline.ofCode_code, RMode.ofCode_code, AmoTy.ofCode_code, AmoOp.ofCode_code, CmpRel.ofCode_code, RedOp.ofCode_code, DrainMode.ofCode_code, HintKind.ofCode_code, bit1_eq, coded_some, BitVec.extractLsb'_append_eq_of_le, BitVec.extractLsb'_append_eq_of_add_le, Nat.reduceSub, Nat.sub_self, BitVec.extractLsb'_eq_self]
  rfl
theorem jstat (xa : XReg) (xb : XReg) : Statement (.jstat xa xb) := by
  refine of_raw rfl ?_
  simp (disch := decide) only [decodeRaw, decodeE, zeroBits, demand, encE_group, encE_op, encE_xa, encE_xb, encE_xc, encE_spec, encE_s3, encE_s4, encE_s2, encE_z43, encE_z34, encE_z25, encE_z52, encE_z32, encE_z33, encE_z61, ElemTy.ofCode_code, Order.ofCode_code, Scope.ofCode_code, Timeline.ofCode_code, RMode.ofCode_code, AmoTy.ofCode_code, AmoOp.ofCode_code, CmpRel.ofCode_code, RedOp.ofCode_code, DrainMode.ofCode_code, HintKind.ofCode_code, bit1_eq, coded_some, BitVec.extractLsb'_append_eq_of_le, BitVec.extractLsb'_append_eq_of_add_le, Nat.reduceSub, Nat.sub_self, BitVec.extractLsb'_eq_self]
  rfl
theorem jyield : Statement (.jyield) := by
  refine of_raw rfl ?_
  simp (disch := decide) only [decodeRaw, decodeE, zeroBits, demand, encE_group, encE_op, encE_xa, encE_xb, encE_xc, encE_spec, encE_s3, encE_s4, encE_s2, encE_z43, encE_z34, encE_z25, encE_z52, encE_z32, encE_z33, encE_z61, ElemTy.ofCode_code, Order.ofCode_code, Scope.ofCode_code, Timeline.ofCode_code, RMode.ofCode_code, AmoTy.ofCode_code, AmoOp.ofCode_code, CmpRel.ofCode_code, RedOp.ofCode_code, DrainMode.ofCode_code, HintKind.ofCode_code, bit1_eq, coded_some, BitVec.extractLsb'_append_eq_of_le, BitVec.extractLsb'_append_eq_of_add_le, Nat.reduceSub, Nat.sub_self, BitVec.extractLsb'_eq_self]
  rfl
theorem jprio (xa : XReg) (xb : XReg) : Statement (.jprio xa xb) := by
  refine of_raw rfl ?_
  simp (disch := decide) only [decodeRaw, decodeE, zeroBits, demand, encE_group, encE_op, encE_xa, encE_xb, encE_xc, encE_spec, encE_s3, encE_s4, encE_s2, encE_z43, encE_z34, encE_z25, encE_z52, encE_z32, encE_z33, encE_z61, ElemTy.ofCode_code, Order.ofCode_code, Scope.ofCode_code, Timeline.ofCode_code, RMode.ofCode_code, AmoTy.ofCode_code, AmoOp.ofCode_code, CmpRel.ofCode_code, RedOp.ofCode_code, DrainMode.ofCode_code, HintKind.ofCode_code, bit1_eq, coded_some, BitVec.extractLsb'_append_eq_of_le, BitVec.extractLsb'_append_eq_of_add_le, Nat.reduceSub, Nat.sub_self, BitVec.extractLsb'_eq_self]
  rfl
theorem amo (op : AmoOp) (ty : AmoTy) (ord : Order) (sc : Scope) (xd : XReg) (xp : XReg) (xv : XReg) : Statement (.amo op ty ord sc xd xp xv) := by
  refine of_raw rfl ?_
  simp (disch := decide) only [decodeRaw, decodeY, zeroBits, demand, bits, ElemTy.ofCode_code, Order.ofCode_code, Scope.ofCode_code, Timeline.ofCode_code, RMode.ofCode_code, AmoTy.ofCode_code, AmoOp.ofCode_code, CmpRel.ofCode_code, RedOp.ofCode_code, DrainMode.ofCode_code, HintKind.ofCode_code, bit1_eq, coded_some, BitVec.extractLsb'_append_eq_of_le, BitVec.extractLsb'_append_eq_of_add_le, Nat.reduceSub, Nat.sub_self, BitVec.extractLsb'_eq_self]
  rfl
theorem cas (dbl : Bool) (ord : Order) (sc : Scope) (xd : XReg) (xp : XReg) (xexp : XReg) (xnew : XReg) : Statement (.cas dbl ord sc xd xp xexp xnew) := by
  refine of_raw rfl ?_
  simp (disch := decide) only [decodeRaw, decodeY, zeroBits, demand, bits, ElemTy.ofCode_code, Order.ofCode_code, Scope.ofCode_code, Timeline.ofCode_code, RMode.ofCode_code, AmoTy.ofCode_code, AmoOp.ofCode_code, CmpRel.ofCode_code, RedOp.ofCode_code, DrainMode.ofCode_code, HintKind.ofCode_code, bit1_eq, coded_some, BitVec.extractLsb'_append_eq_of_le, BitVec.extractLsb'_append_eq_of_add_le, Nat.reduceSub, Nat.sub_self, BitVec.extractLsb'_eq_self]
  rfl
theorem fence (sc : Scope) (xd : XReg) : Statement (.fence sc xd) := by
  refine of_raw rfl ?_
  simp (disch := decide) only [decodeRaw, decodeY, zeroBits, demand, bits, ElemTy.ofCode_code, Order.ofCode_code, Scope.ofCode_code, Timeline.ofCode_code, RMode.ofCode_code, AmoTy.ofCode_code, AmoOp.ofCode_code, CmpRel.ofCode_code, RedOp.ofCode_code, DrainMode.ofCode_code, HintKind.ofCode_code, bit1_eq, coded_some, BitVec.extractLsb'_append_eq_of_le, BitVec.extractLsb'_append_eq_of_add_le, Nat.reduceSub, Nat.sub_self, BitVec.extractLsb'_eq_self]
  rfl
theorem xfence : Statement .xfence := of_raw rfl rfl
theorem rosync : Statement .rosync := of_raw rfl rfl
theorem twait (tl : Timeline) (xn : XReg) : Statement (.twait tl xn) := by
  refine of_raw rfl ?_
  simp (disch := decide) only [decodeRaw, decodeY, zeroBits, demand, bits, ElemTy.ofCode_code, Order.ofCode_code, Scope.ofCode_code, Timeline.ofCode_code, RMode.ofCode_code, AmoTy.ofCode_code, AmoOp.ofCode_code, CmpRel.ofCode_code, RedOp.ofCode_code, DrainMode.ofCode_code, HintKind.ofCode_code, bit1_eq, coded_some, BitVec.extractLsb'_append_eq_of_le, BitVec.extractLsb'_append_eq_of_add_le, Nat.reduceSub, Nat.sub_self, BitVec.extractLsb'_eq_self]
  rfl
theorem tliss (xd : XReg) (tl : Timeline) : Statement (.tliss xd tl) := by
  refine of_raw rfl ?_
  simp (disch := decide) only [decodeRaw, decodeY, zeroBits, demand, bits, ElemTy.ofCode_code, Order.ofCode_code, Scope.ofCode_code, Timeline.ofCode_code, RMode.ofCode_code, AmoTy.ofCode_code, AmoOp.ofCode_code, CmpRel.ofCode_code, RedOp.ofCode_code, DrainMode.ofCode_code, HintKind.ofCode_code, bit1_eq, coded_some, BitVec.extractLsb'_append_eq_of_le, BitVec.extractLsb'_append_eq_of_add_le, Nat.reduceSub, Nat.sub_self, BitVec.extractLsb'_eq_self]
  rfl
theorem barArv (sc : Scope) (b : BitVec 3) (xd : XReg) : Statement (.barArv sc b xd) := by
  refine of_raw rfl ?_
  simp (disch := decide) only [decodeRaw, decodeY, encBar, decodeBar, zeroBits, demand, bits, ElemTy.ofCode_code, Order.ofCode_code, Scope.ofCode_code, Timeline.ofCode_code, RMode.ofCode_code, AmoTy.ofCode_code, AmoOp.ofCode_code, CmpRel.ofCode_code, RedOp.ofCode_code, DrainMode.ofCode_code, HintKind.ofCode_code, bit1_eq, coded_some, BitVec.extractLsb'_append_eq_of_le, BitVec.extractLsb'_append_eq_of_add_le, Nat.reduceSub, Nat.sub_self, BitVec.extractLsb'_eq_self]
  rfl
theorem barWt (sc : Scope) (b : BitVec 3) (xphase : XReg) : Statement (.barWt sc b xphase) := by
  refine of_raw rfl ?_
  simp (disch := decide) only [decodeRaw, decodeY, encBar, decodeBar, zeroBits, demand, bits, ElemTy.ofCode_code, Order.ofCode_code, Scope.ofCode_code, Timeline.ofCode_code, RMode.ofCode_code, AmoTy.ofCode_code, AmoOp.ofCode_code, CmpRel.ofCode_code, RedOp.ofCode_code, DrainMode.ofCode_code, HintKind.ofCode_code, bit1_eq, coded_some, BitVec.extractLsb'_append_eq_of_le, BitVec.extractLsb'_append_eq_of_add_le, Nat.reduceSub, Nat.sub_self, BitVec.extractLsb'_eq_self]
  rfl
theorem barAw (sc : Scope) (b : BitVec 3) (xd : XReg) : Statement (.barAw sc b xd) := by
  refine of_raw rfl ?_
  simp (disch := decide) only [decodeRaw, decodeY, encBar, decodeBar, zeroBits, demand, bits, ElemTy.ofCode_code, Order.ofCode_code, Scope.ofCode_code, Timeline.ofCode_code, RMode.ofCode_code, AmoTy.ofCode_code, AmoOp.ofCode_code, CmpRel.ofCode_code, RedOp.ofCode_code, DrainMode.ofCode_code, HintKind.ofCode_code, bit1_eq, coded_some, BitVec.extractLsb'_append_eq_of_le, BitVec.extractLsb'_append_eq_of_add_le, Nat.reduceSub, Nat.sub_self, BitVec.extractLsb'_eq_self]
  rfl
theorem barStat (sc : Scope) (b : BitVec 3) (xd : XReg) : Statement (.barStat sc b xd) := by
  refine of_raw rfl ?_
  simp (disch := decide) only [decodeRaw, decodeY, encBar, decodeBar, zeroBits, demand, bits, ElemTy.ofCode_code, Order.ofCode_code, Scope.ofCode_code, Timeline.ofCode_code, RMode.ofCode_code, AmoTy.ofCode_code, AmoOp.ofCode_code, CmpRel.ofCode_code, RedOp.ofCode_code, DrainMode.ofCode_code, HintKind.ofCode_code, bit1_eq, coded_some, BitVec.extractLsb'_append_eq_of_le, BitVec.extractLsb'_append_eq_of_add_le, Nat.reduceSub, Nat.sub_self, BitVec.extractLsb'_eq_self]
  rfl
theorem waita (xd : XReg) (xp : XReg) (xexp : XReg) (xtmo : XReg) : Statement (.waita xd xp xexp xtmo) := by
  refine of_raw rfl ?_
  simp (disch := decide) only [decodeRaw, decodeY, zeroBits, demand, bits, ElemTy.ofCode_code, Order.ofCode_code, Scope.ofCode_code, Timeline.ofCode_code, RMode.ofCode_code, AmoTy.ofCode_code, AmoOp.ofCode_code, CmpRel.ofCode_code, RedOp.ofCode_code, DrainMode.ofCode_code, HintKind.ofCode_code, bit1_eq, coded_some, BitVec.extractLsb'_append_eq_of_le, BitVec.extractLsb'_append_eq_of_add_le, Nat.reduceSub, Nat.sub_self, BitVec.extractLsb'_eq_self]
  rfl
theorem rwaitf (h : HReg) (xi : XReg) : Statement (.rwaitf h xi) := by
  refine of_raw rfl ?_
  simp (disch := decide) only [decodeRaw, decodeY, zeroBits, demand, bits, ElemTy.ofCode_code, Order.ofCode_code, Scope.ofCode_code, Timeline.ofCode_code, RMode.ofCode_code, AmoTy.ofCode_code, AmoOp.ofCode_code, CmpRel.ofCode_code, RedOp.ofCode_code, DrainMode.ofCode_code, HintKind.ofCode_code, bit1_eq, coded_some, BitVec.extractLsb'_append_eq_of_le, BitVec.extractLsb'_append_eq_of_add_le, Nat.reduceSub, Nat.sub_self, BitVec.extractLsb'_eq_self]
  rfl
theorem rwaite (h : HReg) (xi : XReg) : Statement (.rwaite h xi) := by
  refine of_raw rfl ?_
  simp (disch := decide) only [decodeRaw, decodeY, zeroBits, demand, bits, ElemTy.ofCode_code, Order.ofCode_code, Scope.ofCode_code, Timeline.ofCode_code, RMode.ofCode_code, AmoTy.ofCode_code, AmoOp.ofCode_code, CmpRel.ofCode_code, RedOp.ofCode_code, DrainMode.ofCode_code, HintKind.ofCode_code, bit1_eq, coded_some, BitVec.extractLsb'_append_eq_of_le, BitVec.extractLsb'_append_eq_of_add_le, Nat.reduceSub, Nat.sub_self, BitVec.extractLsb'_eq_self]
  rfl
theorem stf (xp : XReg) (xv : XReg) (xf : XReg) : Statement (.stf xp xv xf) := by
  refine of_raw rfl ?_
  simp (disch := decide) only [decodeRaw, decodeY, zeroBits, demand, bits, ElemTy.ofCode_code, Order.ofCode_code, Scope.ofCode_code, Timeline.ofCode_code, RMode.ofCode_code, AmoTy.ofCode_code, AmoOp.ofCode_code, CmpRel.ofCode_code, RedOp.ofCode_code, DrainMode.ofCode_code, HintKind.ofCode_code, bit1_eq, coded_some, BitVec.extractLsb'_append_eq_of_le, BitVec.extractLsb'_append_eq_of_add_le, Nat.reduceSub, Nat.sub_self, BitVec.extractLsb'_eq_self]
  rfl
theorem pocc (xa : XReg) : Statement (.pocc xa) := by
  refine of_raw rfl ?_
  simp (disch := decide) only [decodeRaw, decodeY, zeroBits, demand, bits, ElemTy.ofCode_code, Order.ofCode_code, Scope.ofCode_code, Timeline.ofCode_code, RMode.ofCode_code, AmoTy.ofCode_code, AmoOp.ofCode_code, CmpRel.ofCode_code, RedOp.ofCode_code, DrainMode.ofCode_code, HintKind.ofCode_code, bit1_eq, coded_some, BitVec.extractLsb'_append_eq_of_le, BitVec.extractLsb'_append_eq_of_add_le, Nat.reduceSub, Nat.sub_self, BitVec.extractLsb'_eq_self]
  rfl
theorem poccW (xa : XReg) : Statement (.poccW xa) := by
  refine of_raw rfl ?_
  simp (disch := decide) only [decodeRaw, decodeY, zeroBits, demand, bits, ElemTy.ofCode_code, Order.ofCode_code, Scope.ofCode_code, Timeline.ofCode_code, RMode.ofCode_code, AmoTy.ofCode_code, AmoOp.ofCode_code, CmpRel.ofCode_code, RedOp.ofCode_code, DrainMode.ofCode_code, HintKind.ofCode_code, bit1_eq, coded_some, BitVec.extractLsb'_append_eq_of_le, BitVec.extractLsb'_append_eq_of_add_le, Nat.reduceSub, Nat.sub_self, BitVec.extractLsb'_eq_self]
  rfl
theorem pref (xa : XReg) (xb : XReg) (xc : XReg) : Statement (.pref xa xb xc) := by
  refine of_raw rfl ?_
  simp (disch := decide) only [decodeRaw, decodeY, zeroBits, demand, bits, ElemTy.ofCode_code, Order.ofCode_code, Scope.ofCode_code, Timeline.ofCode_code, RMode.ofCode_code, AmoTy.ofCode_code, AmoOp.ofCode_code, CmpRel.ofCode_code, RedOp.ofCode_code, DrainMode.ofCode_code, HintKind.ofCode_code, bit1_eq, coded_some, BitVec.extractLsb'_append_eq_of_le, BitVec.extractLsb'_append_eq_of_add_le, Nat.reduceSub, Nat.sub_self, BitVec.extractLsb'_eq_self]
  rfl
theorem pret (xa : XReg) : Statement (.pret xa) := by
  refine of_raw rfl ?_
  simp (disch := decide) only [decodeRaw, decodeY, zeroBits, demand, bits, ElemTy.ofCode_code, Order.ofCode_code, Scope.ofCode_code, Timeline.ofCode_code, RMode.ofCode_code, AmoTy.ofCode_code, AmoOp.ofCode_code, CmpRel.ofCode_code, RedOp.ofCode_code, DrainMode.ofCode_code, HintKind.ofCode_code, bit1_eq, coded_some, BitVec.extractLsb'_append_eq_of_le, BitVec.extractLsb'_append_eq_of_add_le, Nat.reduceSub, Nat.sub_self, BitVec.extractLsb'_eq_self]
  rfl
theorem ptstat (xd : XReg) (xa : XReg) : Statement (.ptstat xd xa) := by
  refine of_raw rfl ?_
  simp (disch := decide) only [decodeRaw, decodeY, zeroBits, demand, bits, ElemTy.ofCode_code, Order.ofCode_code, Scope.ofCode_code, Timeline.ofCode_code, RMode.ofCode_code, AmoTy.ofCode_code, AmoOp.ofCode_code, CmpRel.ofCode_code, RedOp.ofCode_code, DrainMode.ofCode_code, HintKind.ofCode_code, bit1_eq, coded_some, BitVec.extractLsb'_append_eq_of_le, BitVec.extractLsb'_append_eq_of_add_le, Nat.reduceSub, Nat.sub_self, BitVec.extractLsb'_eq_self]
  rfl
theorem tret : Statement .tret := of_raw rfl rfl
theorem purge (xa : XReg) : Statement (.purge xa) := by
  refine of_raw rfl ?_
  simp (disch := decide) only [decodeRaw, decodeY, zeroBits, demand, bits, ElemTy.ofCode_code, Order.ofCode_code, Scope.ofCode_code, Timeline.ofCode_code, RMode.ofCode_code, AmoTy.ofCode_code, AmoOp.ofCode_code, CmpRel.ofCode_code, RedOp.ofCode_code, DrainMode.ofCode_code, HintKind.ofCode_code, bit1_eq, coded_some, BitVec.extractLsb'_append_eq_of_le, BitVec.extractLsb'_append_eq_of_add_le, Nat.reduceSub, Nat.sub_self, BitVec.extractLsb'_eq_self]
  rfl
theorem engineQueueFullRelease (g : Nat) (c : CtxId) : Statement (.engineQueueFullRelease g c) := of_none rfl
theorem watchdogExpiry (g : Nat) (c : CtxId) : Statement (.watchdogExpiry g c) := of_none rfl
theorem asyncTrapTake (g : Nat) (c : CtxId) : Statement (.asyncTrapTake g c) := of_none rfl
theorem twaitComplete (g : Nat) (c : CtxId) : Statement (.twaitComplete g c) := of_none rfl
theorem trnWalkEnd (g : Nat) (c : CtxId) : Statement (.trnWalkEnd g c) := of_none rfl
theorem walkerSlotFree (g : Nat) (c : CtxId) : Statement (.walkerSlotFree g c) := of_none rfl
theorem occultationStallResume (g : Nat) (c : CtxId) : Statement (.occultationStallResume g c) := of_none rfl
theorem occtmoOverrun (g : Nat) (c : CtxId) (src : StallSrc) : Statement (.occtmoOverrun g c src) := of_none rfl
theorem occultationWaitTimeout (g : Nat) (c : CtxId) : Statement (.occultationWaitTimeout g c) := of_none rfl
theorem holderProbe (g : Nat) (pte : BitVec 20) : Statement (.holderProbe g pte) := of_none rfl
theorem requestPerformed (d : Nat) (n : Nat) : Statement (.requestPerformed d n) := of_none rfl
theorem vEntryExecute (g : Nat) : Statement (.vEntryExecute g) := of_none rfl
theorem vEntryResult (g : Nat) (n : Nat) : Statement (.vEntryResult g n) := of_none rfl
theorem streamCommandBegin (g : Nat) (c : CtxId) : Statement (.streamCommandBegin g c) := of_none rfl
theorem streamGranuleIssue (g : Nat) : Statement (.streamGranuleIssue g) := of_none rfl
theorem streamGranuleDone (g : Nat) (c : CtxId) (n : Nat) : Statement (.streamGranuleDone g c n) := of_none rfl
theorem matrixEntryExecute (g : Nat) : Statement (.matrixEntryExecute g) := of_none rfl
theorem mgoLaunch (g : Nat) : Statement (.mgoLaunch g) := of_none rfl
theorem matrixStep (g : Nat) (f : StepFault) : Statement (.matrixStep g f) := of_none rfl
theorem drainRowPerformed (g : Nat) (j : Nat) : Statement (.drainRowPerformed g j) := of_none rfl
theorem collationCommandExecute (g : Nat) : Statement (.collationCommandExecute g) := of_none rfl
theorem cellOperation (g : Nat) : Statement (.cellOperation g) := of_none rfl
theorem clxchPair (g : Nat) : Statement (.clxchPair g) := of_none rfl
theorem clxchTransferDone (g : Nat) : Statement (.clxchTransferDone g) := of_none rfl
theorem clxchNoPartner (g : Nat) : Statement (.clxchNoPartner g) := of_none rfl
theorem clxchExchangeFailed (g : Nat) : Statement (.clxchExchangeFailed g) := of_none rfl
theorem galleyInstall (g : Nat) : Statement (.galleyInstall g) := of_none rfl
theorem galleyPlayCheck (g : Nat) : Statement (.galleyPlayCheck g) := of_none rfl
theorem galleyFeed (g : Nat) : Statement (.galleyFeed g) := of_none rfl
theorem galleyWaitRelease (g : Nat) : Statement (.galleyWaitRelease g) := of_none rfl
theorem galleyPlayComplete (g : Nat) : Statement (.galleyPlayComplete g) := of_none rfl
theorem storeBufferAgeDrain (g : Nat) : Statement (.storeBufferAgeDrain g) := of_none rfl
theorem storeBufferDepart (g : Nat) : Statement (.storeBufferDepart g) := of_none rfl
theorem storeRegistered (g : Nat) (seq : Nat) : Statement (.storeRegistered g seq) := of_none rfl
theorem scTicket (op : Nat) : Statement (.scTicket op) := of_none rfl
theorem homeOperation (op : Nat) : Statement (.homeOperation op) := of_none rfl
theorem atomicReply (op : Nat) : Statement (.atomicReply op) := of_none rfl
theorem fenceComplete (g : Nat) (c : CtxId) : Statement (.fenceComplete g c) := of_none rfl
theorem barrierArrival (n : Nat) : Statement (.barrierArrival n) := of_none rfl
theorem barrierWake (g : Nat) (c : CtxId) : Statement (.barrierWake g c) := of_none rfl
theorem waitaWakeWrite (g : Nat) (c : CtxId) : Statement (.waitaWakeWrite g c) := of_none rfl
theorem waitaMonitorLost (g : Nat) (c : CtxId) : Statement (.waitaMonitorLost g c) := of_none rfl
theorem waitaTimeout (g : Nat) (c : CtxId) : Statement (.waitaTimeout g c) := of_none rfl
theorem waitaSpuriousWake (g : Nat) (c : CtxId) : Statement (.waitaSpuriousWake g c) := of_none rfl
theorem remoteRequestArrive (r : Nat) (accept : Bool) : Statement (.remoteRequestArrive r accept) := of_none rfl
theorem invalidationReceive (r : Nat) (d : Nat) : Statement (.invalidationReceive r d) := of_none rfl
theorem invalidationAckReceive (r : Nat) (d : Nat) : Statement (.invalidationAckReceive r d) := of_none rfl
theorem slotReturn (r : Nat) : Statement (.slotReturn r) := of_none rfl
theorem retryBackoffExpiry (r : Nat) : Statement (.retryBackoffExpiry r) := of_none rfl
theorem remoteReplyReceive (r : Nat) : Statement (.remoteReplyReceive r) := of_none rfl
theorem transactionTimeout (r : Nat) : Statement (.transactionTimeout r) := of_none rfl
theorem tagFreeRelease (g : Nat) (c : CtxId) : Statement (.tagFreeRelease g c) := of_none rfl
theorem dieFence (d : Fin 8) : Statement (.dieFence d) := of_none rfl
theorem uncorrectableError (loc : Nat) : Statement (.uncorrectableError loc) := of_none rfl
theorem poisonConsume : Statement (.poisonConsume) := of_none rfl
theorem purgeComplete (g : Nat) (c : CtxId) : Statement (.purgeComplete g c) := of_none rfl
theorem cardAccept (d : Fin 8) (q : BitVec 6) : Statement (.cardAccept d q) := of_none rfl
theorem tileMigrateDone (card : Nat) : Statement (.tileMigrateDone card) := of_none rfl
theorem cardSelect (d : Fin 8) : Statement (.cardSelect d) := of_none rfl
theorem partyBind (card : Nat) : Statement (.partyBind card) := of_none rfl
theorem partyStart (g : Nat) : Statement (.partyStart g) := of_none rfl
theorem contextSwitch (g : Nat) : Statement (.contextSwitch g) := of_none rfl
theorem setSaveComplete (g : Nat) : Statement (.setSaveComplete g) := of_none rfl
theorem timeSliceExpiry (g : Nat) : Statement (.timeSliceExpiry g) := of_none rfl
theorem jobRetire (card : Nat) : Statement (.jobRetire card) := of_none rfl
theorem postRegisterWrite (d : Fin 8) (q : BitVec 6) (t : W64) : Statement (.postRegisterWrite d q t) := of_none rfl
theorem mailboxTargetWrite (d : Fin 8) (slot : BitVec 6) (w : W64) : Statement (.mailboxTargetWrite d slot w) := of_none rfl
theorem mailboxDataWrite (d : Fin 8) (slot : BitVec 6) (w : W64) : Statement (.mailboxDataWrite d slot w) := of_none rfl
theorem mailboxReclaim (d : Fin 8) (slot : BitVec 6) : Statement (.mailboxReclaim d slot) := of_none rfl
theorem mailboxDataRead (d : Fin 8) (slot : BitVec 6) : Statement (.mailboxDataRead d slot) := of_none rfl
theorem serviceRequest (w0 : W64) (w1 : W64) : Statement (.serviceRequest w0 w1) := of_none rfl
theorem attestationReport (nonce : Option (List Byte)) : Statement (.attestationReport nonce) := of_none rfl
theorem eventsRead : Statement (.eventsRead) := of_none rfl
theorem hostWindowAccess (off : BitVec 40) (bytes : List Byte) (write : Bool) : Statement (.hostWindowAccess off bytes write) := of_none rfl
theorem registerWriteOther (off : BitVec 24) (w : W64) : Statement (.registerWriteOther off w) := of_none rfl
theorem packageReset (failed : BitVec 8) : Statement (.packageReset failed) := of_none rfl
theorem bootImageReceived (image : List Byte) : Statement (.bootImageReceived image) := of_none rfl
theorem bootFetchRetry : Statement (.bootFetchRetry) := of_none rfl
theorem bootRelease (pkgid : BitVec 5) (tables : List (Nat × Byte)) : Statement (.bootRelease pkgid tables) := of_none rfl
theorem trayBudgetDeclare (amps : W16) : Statement (.trayBudgetDeclare amps) := of_none rfl
theorem powerPeriod (measured : List Nat) : Statement (.powerPeriod measured) := of_none rfl
theorem illegalInstruction (w : W32) : Statement (.illegalInstruction w) := of_none rfl
theorem galleyEntryExecute (g : Nat) : Statement (.galleyEntryExecute g) := of_none rfl
theorem jobPortEntryExecute (g : Nat) : Statement (.jobPortEntryExecute g) := of_none rfl
theorem hostPurge (tag : W16) : Statement (.hostPurge tag) := of_none rfl
theorem deadLink (l : FabricLink) : Statement (.deadLink l) := of_none rfl
theorem msixVectorUnmask (v : Fin 9) : Statement (.msixVectorUnmask v) := of_none rfl

end Sys2Proof.Laws.Encoding
end

