-- ==== Sys2Proof/Machine/Assembly.lean ====
section
/-! DEFINITION. Sys2Proof/Machine/Assembly.lean: how instructions and data become the bytes of a program: the weave (R29,
R30), the headers of lines (R24 to R26), and the data directives (R29, R148). It starts from a source that is read and
whose names are resolved (R21). No step of the machine uses it. -/

namespace Sys2Proof.Machine

/-- Why balz rejects a source. -/
inductive AsmError where
  /-- an owner list names a context that has no instruction left to place -/
  | nothingToPlace
  /-- an instruction that has no word, or a field outside its limits -/
  | noWord
  /-- a value or a count outside its range -/
  | outOfRange
  /-- an alignment outside 0 to 21, or below 5 in code -/
  | badAlign
  /-- a pattern outside the vault data section -/
  | notVault
  deriving DecidableEq, Repr

/-! ### The weave (R29, R30) -/

/-- An instruction that is to be placed: its unit and its word. -/
abbrev LaneCode := LaneUnit × W32

/-- The instructions of a block still to be placed, per context in source order. -/
abbrev Unplaced := Vector (List LaneCode) 3

/-- What a lane of a line holds: nothing (a pad lane), or an instruction of a context. -/
abbrev LaneFill := Option (CtxId × LaneCode)

/-- The owner of position p (R30 step 3). -/
def ownerAt (p : Nat) : CtxId := if p % 2 = 0 then 1 else if p % 4 = 1 then 0 else 2

/-- The next unplaced instruction of the first of some contexts that has one. -/
def Unplaced.takeFirst (u : Unplaced) : List CtxId → LaneFill × Unplaced
  | [] => (none, u)
  | c :: l =>
    match nget u c with
    | [] => u.takeFirst l
    | x :: r => (some (c, x), nset u c r)

/-- The lane at position p (R30 step 4). -/
def Unplaced.lane (u : Unplaced) (p : Nat) : LaneFill × Unplaced :=
  u.takeFirst [ownerAt p, ownerAt (p + 1), ownerAt (p + 2), ownerAt (p + 3)]

/-- The n lanes from position p on. -/
def Unplaced.lanes (u : Unplaced) (p : Nat) : Nat → List LaneFill × Unplaced
  | 0 => ([], u)
  | n + 1 =>
    let (x, u) := u.lane p
    let (l, u) := u.lanes (p + 1) n
    (x :: l, u)

/-- The lanes of a line placed by an owner list (R29). -/
def Unplaced.byList (u : Unplaced) : List (Option CtxId) → Except AsmError (List LaneFill × Unplaced)
  | [] => .ok ([], u)
  | none :: l => do
    let (r, u) ← u.byList l
    return (none :: r, u)
  | some c :: l =>
    match nget u c with
    | [] => .error .nothingToPlace
    | x :: q => do
      let (r, u) ← Unplaced.byList (nset u c q) l
      return (some (c, x) :: r, u)

/-- The lines of what is left of a block, from position p on; every line places at least one instruction. -/
def Unplaced.lines : Nat → Nat → Unplaced → List (List LaneFill)
  | 0, _, _ => []
  | n + 1, p, u =>
    if u.toList.all List.isEmpty then []
    else
      let (l, u) := u.lanes p 7
      l :: Unplaced.lines n (p + 7) u

/-- The lines of a weave block, its first line by an owner list if there is one. -/
def weaveBlock (owners : Option (Vector (Option CtxId) 7)) (u : Unplaced) : Except AsmError (List (List LaneFill)) :=
  let n := (u.toList.map List.length).sum
  match owners with
  | none => .ok (Unplaced.lines n 0 u)
  | some o => do
    let (l, u) ← u.byList o.toList
    return l :: Unplaced.lines n 7 u

/-- The nibble of a lane (R26). -/
def LaneFill.nibble : LaneFill → Nat
  | none => 0
  | some (c, u, _) => 4 * (c.val + 1) + match u with | .k => 0 | .v => 1 | .e => 2 | .y => 3

/-- The header of a line, from its lanes 1 to 7 (R25). -/
def headerFrom (l : List LaneFill) : W32 :=
  BitVec.ofNat 32 (0x80000000 + (l.zipIdx.map fun x => x.1.nibble * 16 ^ x.2).sum)

/-- The eight words of a line (R24). A pad lane holds 0 (R26). -/
def lineWords (l : List LaneFill) : List W32 :=
  headerFrom l :: l.map fun x => match x with | none => 0 | some (_, _, w) => w

/-! ### Code (R29) -/

/-- An item of a code section. -/
inductive CodeItem where
  | instr (c : CtxId) (i : Instr)
  | weave (owners : Option (Vector (Option CtxId) 7))
  | align (n : Nat)
  deriving DecidableEq, Repr

/-- Code under assembly: the lines so far, each of eight words, and the block that is being read. -/
structure CodeAsm where
  lines : List (List W32) := []
  owners : Option (Vector (Option CtxId) 7) := none
  block : Unplaced := Vector.replicate 3 []
  deriving DecidableEq, Repr

/-- A block ends: its lines are placed. -/
def CodeAsm.close (a : CodeAsm) : Except AsmError CodeAsm := do
  let l ← weaveBlock a.owners a.block
  return { lines := a.lines ++ l.map lineWords }

/-- Pad lines, up to a multiple of 2^n, from a line address. -/
def padLines (n addr : Nat) : List (List W32) :=
  List.replicate ((2 ^ n - addr % 2 ^ n) % 2 ^ n / 32) (lineWords (List.replicate 7 none))

/-- Reads an item of code whose first line is at a base. -/
def CodeAsm.item (base : Nat) (a : CodeAsm) : CodeItem → Except AsmError CodeAsm
  | .instr c i =>
    match encode i with
    | some x => if i.wellFormed then .ok { a with block := nset a.block c (nget a.block c ++ [x]) } else .error .noWord
    | none => .error .noWord
  | .weave o => do
    let a ← a.close
    return { a with owners := o }
  | .align n =>
    if n < 5 || 21 < n then .error .badAlign
    else do
      let a ← a.close
      return { a with lines := a.lines ++ padLines n (base + 32 * a.lines.length) }

/-- The lines of a code section. -/
def assembleCode (base : Nat) (items : List CodeItem) : Except AsmError (List (List W32)) := do
  let a ← items.foldlM (CodeAsm.item base) {}
  let a ← a.close
  return a.lines

/-! ### Data (R29, R148) -/

/-- A floating literal: digits with a power of ten or of two, an infinity, or the canonical quiet NaN. -/
inductive FloatLit where
  | dec (neg : Bool) (digits : Nat) (exp : Int)
  | hex (neg : Bool) (digits : Nat) (exp : Int)
  | inf (neg : Bool)
  | nan (neg : Bool)
  deriving DecidableEq, Repr

/-- The value of a literal; a decimal fraction is cut off with a sticky bit far below every format's precision, and rounds as
the exact value does. -/
def FloatLit.value : FloatLit → Fl
  | .dec neg m e =>
    if 0 ≤ e then .fin neg (m * 10 ^ e.toNat) 0
    else
      let d := 10 ^ (-e).toNat
      let k := bitLen d + 64
      sticky neg (m * 2 ^ k / d) (m * 2 ^ k % d != 0) (-(k : Int))
  | .hex neg m e => .fin neg m e
  | .inf neg => .inf neg
  | .nan neg => .nan neg false

/-- A literal converted to a format by R63 in RNE, or to l6 by R58. -/
def FloatLit.code (t : ElemTy) (x : FloatLit) : Nat :=
  match t, x with
  | .l6, .nan _ => 0
  | _, .nan neg => (elemFmt t).nanBits neg
  | _, _ => (roundTo t .rne 0 x.value).1

/-- A data directive. -/
inductive Datum where
  /-- .byte, .half, .word and .dword: 2^size bytes each -/
  | int (size : Fin 4) (vs : List Int)
  /-- .f32, .bf16 and .e4m3 -/
  | flt (t : ElemTy) (x : FloatLit)
  | l6 (xs : List FloatLit)
  | space (n : Nat)
  | align (n : Nat)
  | pat (base : Int) (esize : Nat) (count : Vector Nat 4) (stride : Vector Int 4)
  deriving DecidableEq, Repr

/-- An integer in n bytes: in the signed or in the unsigned range of the width. -/
def intBytes (n : Nat) (v : Int) : Except AsmError (List Byte) :=
  if -(2 : Int) ^ (8 * n - 1) ≤ v ∧ v < (2 : Int) ^ (8 * n) then .ok (leBytes n (v % 2 ^ (8 * n)).toNat)
  else .error .outOfRange

/-- Four codes in three bytes (R55); a last group of fewer is filled with zero codes. -/
def packCodes : List Nat → List Byte
  | a :: b :: c :: d :: l => leBytes 3 (a + 2 ^ 6 * b + 2 ^ 12 * c + 2 ^ 18 * d) ++ packCodes l
  | [] => []
  | l => leBytes 3 ((l.zipIdx.map fun x => x.1 * 2 ^ (6 * x.2)).sum)

/-- Zero bytes up to a multiple of 2^n. -/
def padBytes (n loc : Nat) : List Byte := List.replicate ((2 ^ n - loc % 2 ^ n) % 2 ^ n) 0

/-- What a directive emits at a location counter of the memory or of the vault data section. -/
def Datum.emit (vault : Bool) (loc : Nat) : Datum → Except AsmError (List Byte)
  | .int n vs => return (← vs.mapM (intBytes (2 ^ n.val))).flatten
  | .flt t x => .ok (leBytes (elemWidth t / 8) (x.code t))
  | .l6 xs => .ok (packCodes (xs.map (FloatLit.code .l6)))
  | .space n => .ok (List.replicate n 0)
  | .align n => if 21 < n then .error .badAlign else .ok (padBytes n loc)
  | .pat base esize count stride =>
    if !vault then .error .notVault
    else if 6 < esize || !(-(2 : Int) ^ 63 ≤ base ∧ base < (2 : Int) ^ 63) || count.any (fun c => 2 ^ 32 ≤ c)
        || stride.any (fun x => !(-(2 : Int) ^ 31 ≤ x ∧ x < (2 : Int) ^ 31)) then .error .outOfRange
    else .ok (padBytes 6 loc ++ leBytes 8 (base % 2 ^ 64).toNat ++ leBytes 8 esize ++ (count.toList.map (leBytes 4)).flatten
      ++ (stride.toList.map fun x => leBytes 4 (x % 2 ^ 32).toNat).flatten ++ List.replicate 16 0)

/-- The bytes of a data section from a location counter on. -/
def assembleData (vault : Bool) (loc : Nat) : List Datum → Except AsmError (List Byte)
  | [] => .ok []
  | d :: l => do
    let b ← d.emit vault loc
    return b ++ (← assembleData vault (loc + b.length) l)

/-- %hi of a value: the immediate of LUI (R29). -/
def hiPart (v : W32) : BitVec 20 := (v + 0x800).extractLsb' 12 20
/-- %lo of a value: the immediate of ADDI. -/
def loPart (v : W32) : BitVec 12 := v.extractLsb' 0 12

end Sys2Proof.Machine
end

