-- ==== Sys2Proof/Tests/Slice0.lean ====
section
/-! SUPPORT. Sys2Proof/Tests/Slice0.lean: tests of the model: words of the spec's examples, ill-formed instructions that the
check refuses, single steps with results taken from the spec, and for every statement of Obligations.lean states and
operands that meet its hypotheses. -/

namespace Sys2Proof.Tests

set_option Elab.async false
open Sys2Proof Sys2Proof.Machine

/-! ### Words (the examples of the spec's instruction entries; R39, R40, R44 written out by hand) -/

/-- addi is the spec's own example; the others are RV64 words written from R39: f7/imm, rs2, rs1, f3, rd, opcode. -/
theorem test_words_scalar :
    decode .k 0x04028293 = .ok (.addi 5 5 64) ∧ decode .k 0xFFF28293 = .ok (.addi 5 5 0xFFF) ∧
    decode .k 0x00628233 = .ok (.add 4 5 6) ∧ decode .k 0x40628233 = .ok (.sub 4 5 6) ∧
    decode .k 0x43F2D293 = .ok (.srai 5 5 63) ∧ decode .k 0x02628233 = .ok (.mul 4 5 6) ∧
    decode .k 0x0073B283 = .ok (.ld 5 7 7) ∧ decode .k 0xFE53BC23 = .ok (.sd 5 7 0xFF8) ∧
    decode .k 0x00004537 = .ok (.lui 10 4) := by decide +kernel

/-- bne x5, x0, -8 and jal x1, 20 stand in the weave table of 04_control_contexts (0xFE02_9CE3, 0x0140_00EF). -/
theorem test_words_control :
    decode .k 0xFE029CE3 = .ok (.bne 5 0 0xFFC) ∧ decode .k 0x014000EF = .ok (.jal 1 10) ∧
    decode .k 0x00000073 = .ok .ecall ∧ decode .k 0x00100073 = .ok .ebreak ∧
    decode .k 0x80331573 = .ok (.srstAccess .rw 10 6) ∧ decode .k 0x00000000 = .error .badLengthMarker := by decide +kernel

theorem test_words_tokens :
    decode .k 0x06B5008B = .ok (.trn 1 10 11 3 false) ∧ decode .k 0x22B5010B = .ok (.trn 2 10 11 1 true) ∧
    decode .k 0x42D6118B = .ok (.trnp 3 12 13 1 false true) ∧ decode .k 0x0002A10B = .ok (.tkmov 2 5) ∧
    decode .k 0x0202A00B = .ok (.tkdrop 5) ∧ decode .k 0x0400A30B = .ok (.tklen 6 1) ∧
    decode .k 0x0601228B = .ok (.tkinfo 5 2) ∧ decode .k 0x0261B28B = .ok (.ptr 5 3 6 1) ∧
    decode .k 0x0400450B = .ok (.gpatch 10 2) ∧ decode .k 0x2000450B = .ok (.guntag 10) ∧
    decode .k 0x0281D38B = .ok (.vxmv .i32 7 3 8) ∧ decode .k 0x0401648B = .ok (.mpop .f32 9 2) := by decide +kernel

theorem test_words_vector_arith :
    decode .v 0x00804020 = .ok (.vadd .f32 0 (.vv 1) 0 2) ∧ decode .v 0x0CE08230 = .ok (.vfma .bf16 4 (.vv 2) 1 3) ∧
    decode .v 0x30800850 = .ok (.vexp2 0 4 5) ∧ decode .v 0x58424424 = .ok (.vsra .i32 0 (.vx 9) 2 2) ∧
    decode .v 0x60808232 = .ok (.vcmp .lt .f32 0 (.vv 2) 1 3) ∧ decode .v 0x64988260 = .ok (.vsel .f32 3 2 1 6) ∧
    decode .v 0x68C0822C = .ok (.vcvt .bf16 .f32 0 1 2) ∧ decode .v 0x90800270 = .ok (.vred .add .f32 0 1 7) ∧
    decode .v 0x94480482 = .ok (.vscan .max .i32 1 2 8) := by decide +kernel

theorem test_words_vector_moves :
    decode .v 0x70800220 = .ok (.vmov .f32 0 1 2) ∧ decode .v 0x74C14034 = .ok (.vbcast .bf16 0 5 3) ∧
    decode .v 0x78400010 = .ok (.viota .i32 0 1) ∧ decode .v 0x7C808240 = .ok (.vshuf .f32 0 2 1 4) ∧
    decode .v 0x8000C259 = .ok (.vslide true .i8 0 (.vi 3) 1 5) ∧ decode .v 0x84900260 = .ok (.vcmpr .f32 2 1 6) ∧
    decode .v 0x88480040 = .ok (.vpart .i32 1 4) ∧ decode .v 0xA0814024 = .ok (.mset .f32 5 2) ∧
    decode .v 0xA4008230 = .ok (.mand 2 1 3) ∧ decode .v 0xA8008230 = .ok (.mor 2 1 3) ∧
    decode .v 0xAC008230 = .ok (.mxor 2 1 3) ∧ decode .v 0xB0000240 = .ok (.mnot 1 4) := by decide +kernel

theorem test_words_vector_memory :
    decode .v 0xC0C28024 = .ok (.vld .bf16 0 10 2) ∧ decode .v 0xC48AC034 = .ok (.vst .f32 1 11 3) ∧
    decode .v 0xC8C28884 = .ok (.vldg .bf16 0 10 4 8) ∧ decode .v 0xD0818414 = .ok (.vldr .f32 0 6 2 1) ∧
    decode .v 0xD4800834 = .ok (.vstr .f32 0 0 4 3) ∧ decode .v 0xD8024204 = .ok (.vadv 9 1) ∧
    decode .v 0xDC024404 = .ok (.vpub 9 2) ∧ decode .v 0xE081C655 = .ok (.vlda true 7 3 5) := by decide +kernel

theorem test_words_engines :
    decode .e 0x000A0002 = .ok (.rset 2 5) ∧ decode .e 0x0054B001 = .ok (.sfill 1 10 11) ∧
    decode .e 0x0098D003 = .ok (.sdrain 3 12 13) ∧ decode .e 0x00D8D700 = .ok (.scopy 12 13 14) ∧
    decode .e 0x010A6001 = .ok (.shint .ro 5 6) ∧ decode .e 0x08120004 = .ok (.mcfg 4 9) ∧
    decode .e 0x080E0028 = .ok (.mcfg 0x28 7) ∧ decode .e 0x08400000 = .ok .mgo ∧
    decode .e 0x08800004 = .ok (.mrnd .sr) ∧ decode .e 0x08C00003 = .ok (.mzero 3) ∧
    decode .e 0x09180012 = .ok (.mdrain 2 .add 12 0) ∧ decode .e 0x0918D019 = .ok (.mdrain 1 .addc 12 13) ∧
    decode .e 0x094A0000 = .ok (.mchk 5) := by decide +kernel

theorem test_words_collation :
    decode .e 0x10140002 = .ok (.clset 2 10) ∧ decode .e 0x10560002 = .ok (.clclr 2 11) ∧
    decode .e 0x1096C682 = .ok (.clins 2 11 12 13) ∧ decode .e 0x10D6C682 = .ok (.cldel 2 11 12 13) ∧
    decode .e 0x1116E002 = .ok (.clsub 2 11 14) ∧ decode .e 0x1156E002 = .ok (.clxch 2 11 14) ∧
    decode .e 0x1196F802 = .ok (.clpeel 2 false 11 15 16) ∧ decode .e 0x1196F842 = .ok (.clpeel 2 true 11 15 16) ∧
    decode .e 0x11CA0002 = .ok (.clstat 5 2) := by decide +kernel

theorem test_words_galleys_jobs :
    decode .e 0x18000001 = .ok (.grec 1) ∧ decode .e 0x18909001 = .ok (.gplay 8 1 9) ∧
    decode .e 0x2014B000 = .ok (.jpost 10 11) ∧ decode .e 0x20400000 = .ok .jdone := by decide +kernel

theorem test_words_sync :
    decode .y 0x0043031A = .ok (.amo .add .d .rlx .die 0 12 13) ∧ decode .y 0x000B298E = .ok (.amo .add .w .acq .die 5 6 7) ∧
    decode .y 0x085302CE = .ok (.amo .swp .d .rel .die 0 11 7) ∧ decode .y 0x00843212 = .ok (.amo .add .f .rlx .pkg 6 8 9) ∧
    decode .y 0x14B3A12A = .ok (.cas true .acq .die 7 8 9 10) ∧ decode .y 0x6298E000 = .ok (.stf 5 6 7) ∧
    decode .y 0x21D40000 = .ok (.fence .die 21) ∧ decode .y 0x22140000 = .ok (.fence .pkg 5) ∧
    decode .y 0x30380000 = .ok (.twait .tlv 7) ∧ decode .y 0x39300000 = .ok (.tliss 6 .tlm) ∧
    decode .y 0x50A63A00 = .ok (.waita 5 6 7 8) ∧ decode .y 0x544A0000 = .ok (.rwaitf 1 5) ∧
    decode .y 0x584A0000 = .ok (.rwaite 1 5) := by decide +kernel

theorem test_words_system :
    decode .y 0x40828000 = .ok (.barArv .core 0 5) ∧ decode .y 0x45A28000 = .ok (.barWt .die 2 5) ∧
    decode .y 0x48828000 = .ok (.barAw .core 0 5) ∧ decode .y 0x4C848000 = .ok (.barStat .core 0 9) ∧
    decode .y 0x70500000 = .ok (.pocc 5) ∧ decode .y 0x72500000 = .ok (.poccW 5) ∧
    decode .y 0x74531C00 = .ok (.pref 5 6 7) ∧ decode .y 0x76500000 = .ok (.pret 5) ∧
    decode .y 0x78828000 = .ok (.ptstat 8 5) ∧ decode .y 0x80000000 = .ok .tret ∧
    decode .y 0x89400000 = .ok (.purge 5) := by decide +kernel

/-! ### Ill-formed instructions -/

/-- A read-only CSR is not written, and srst is reached by SRST_ACCESS alone (R40, R83). -/
theorem test_ill_csr : (Instr.csrrw 5 .cycle 6).wellFormed = false ∧ (Instr.csrrsi 5 .coreid 1).wellFormed = false ∧
    (Instr.csrrs 5 .srst 0).wellFormed = false ∧ (Instr.csrrs 5 .cycle 0).wellFormed = true := by decide

/-- Types and forms of the V instructions (R42, R43). -/
theorem test_ill_vector : (Instr.vadd .l6 0 (.vv 1) 2 3).wellFormed = false ∧ (Instr.vadd .f32 0 (.vi 1) 2 3).wellFormed = false ∧
    (Instr.vfma .i32 0 (.vv 1) 2 3).wellFormed = false ∧ (Instr.vmul .l6 0 (.vx 1) 2 3).wellFormed = false ∧
    (Instr.vabs .l6 0 1 2).wellFormed = false ∧ (Instr.vdiv 0 (.vi 1) 2 3).wellFormed = false ∧
    (Instr.vnot .l6 0 1 2).wellFormed = false ∧ (Instr.vshl .f32 0 (.vv 1) 2 3).wellFormed = false ∧
    (Instr.viota .f32 0 1).wellFormed = false ∧ (Instr.vslide true .i8 0 (.vv 1) 2 3).wellFormed = false ∧
    (Instr.vpart .i32 0 31).wellFormed = false ∧ (Instr.vred .add .l6 0 1 2).wellFormed = false ∧
    (Instr.vldg .bf16 0 1 5 6).wellFormed = false ∧ (Instr.vsts .i8 0 1 6 7).wellFormed = false := by decide

/-- m0 is not written (R158, R175). -/
theorem test_ill_masks : (Instr.vcmp .eq .i32 0 (.vv 1) 2 0).wellFormed = false ∧ (Instr.mset .i32 5 0).wellFormed = false ∧
    (Instr.mand 1 2 0).wellFormed = false ∧ (Instr.mnot 1 0).wellFormed = false := by decide

/-- Fields of mcfg, the clamp register of mdrain, types of amo and scopes of the barriers (R45, R47, R48). -/
theorem test_ill_rest : (Instr.mcfg 0x0E 5).wellFormed = false ∧ (Instr.mcfg 0x2E 5).wellFormed = false ∧
    (Instr.mdrain 0 .add 5 6).wellFormed = false ∧ (Instr.amo .min .f .rlx .die 0 5 6).wellFormed = false ∧
    (Instr.barArv .lane 0 5).wellFormed = false ∧ (Instr.barStat .lane 0 5).wellFormed = false := by decide

/-! ### The weave and the data directives -/

/-- The woven program of 04_control_contexts: its weave table gives both lines. -/
theorem test_weave_program :
    assembleCode 0x100
      [.weave (some #v[some 1, some 0, some 1, some 2, some 1, some 1, some 0]),
       .instr 0 (.addi 6 0 1), .instr 0 .jdone,
       .instr 1 (.addi 5 0 3), .instr 1 (.addi 5 5 0xFFF), .instr 1 (.bne 5 0 0xFFC), .instr 1 (.jal 1 10),
       .instr 1 (.addi 9 0 9), .instr 1 (.addi 10 1 0), .instr 1 .jdone,
       .instr 2 (.addi 7 0 2), .instr 2 .jdone] =
    .ok [[0x8688C848, 0x00300293, 0x00100313, 0xFFF28293, 0x00200393, 0xFE029CE3, 0x014000EF, 0x20400000],
         [0x8000A88E, 0x20400000, 0x00900493, 0x00008513, 0x20400000, 0, 0, 0]] := by decide +kernel

/-- The line of 02_conventions_and_encoding with all four units and a pad lane in its owner list. -/
theorem test_weave_units :
    assembleCode 0x2000
      [.weave (some #v[some 1, some 0, some 1, some 2, some 1, none, some 0]),
       .instr 0 (.trn 1 10 11 3 false), .instr 0 (.addi 6 6 1),
       .instr 1 (.addi 5 5 64), .instr 1 (.vadd .f32 0 (.vv 1) 0 2), .instr 1 .mgo,
       .instr 2 (.amo .add .d .rlx .die 0 12 13)] =
    .ok [[0x840AF948, 0x04028293, 0x06B5008B, 0x00804020, 0x0043031A, 0x08400000, 0, 0x00130313]] := by decide +kernel

/-- An owner list that names a context without an instruction left is rejected (R29). -/
theorem test_weave_rejects :
    assembleCode 0 [.weave (some #v[some 1, some 1, none, none, none, none, none]), .instr 1 (.addi 5 5 64)] =
      .error .nothingToPlace := by decide +kernel

/-- The pattern of 06_memory_access_and_rings, whose bytes stand there; the codes of R55; the literals of R29. -/
theorem test_data :
    Datum.emit true 0x7C8 (.pat 0x40 2 #v[8, 3, 1, 1] #v[4, 256, 0, 0]) = .ok
      (List.replicate 56 0 ++ [0x40, 0, 0, 0, 0, 0, 0, 0, 2, 0, 0, 0, 0, 0, 0, 0, 8, 0, 0, 0, 3, 0, 0, 0, 1, 0, 0, 0, 1, 0, 0, 0,
        4, 0, 0, 0, 0, 1, 0, 0, 0, 0, 0, 0, 0, 0, 0, 0] ++ List.replicate 16 0) ∧
    Datum.emit false 0 (.pat 0x40 2 #v[8, 3, 1, 1] #v[4, 256, 0, 0]) = .error .notVault ∧
    packCodes [0x17, 0x09, 0x10, 0x3F] = [0x57, 0x02, 0xFD] ∧
    Datum.emit false 0 (.flt .e4m3 (.inf false)) = .ok [0x7E] ∧ Datum.emit false 0 (.flt .e4m3 (.nan true)) = .ok [0xFF] ∧
    Datum.emit false 0 (.flt .f32 (.hex false 0x18 (-1))) = .ok [0, 0, 0x40, 0x41] ∧
    Datum.emit false 0 (.l6 [.inf false, .inf true, .nan false]) = .ok (leBytes 3 (0x1F + 0x3F * 64)) ∧
    Datum.emit false 0 (.int 0 [255, -128]) = .ok [0xFF, 0x80] ∧ Datum.emit false 0 (.int 0 [256]) = .error .outOfRange :=
  by decide +kernel

/-! ### Small states -/

/-- A token of Pin Table entry 1 with every right, over 1 MiB. -/
def tok : Token := { pte := 1, rights := 15, valid := true, lenm1 := 0xFFFFF }

/-- A LIVE entry with one frame of HBM of die 0. -/
def livePin : Pin := { state := .live, rights := 15, lenm1 := 0xFFFFF, frames := [0x200000] }

/-- A context that runs at pc 4 with a lane of its own as handler; x5 is 0x40, x6 is 3, and x7 a pointer through k0. -/
def runCtx : Ctx :=
  { st := .run, pc := 4, tvec := 4
    x := (Vector.replicate 32 0).set 5 (0x40 : W64) |>.set 6 3 |>.set 7 0x2000000000000040 }

/-- The party of core 0: context C runs, code through entry 2 and data through entry 1. -/
def baseSet : CtxSet :=
  { card := some 1, started := true, codeTok := { tok with pte := 2 }, k := (Vector.replicate 16 {}).set 0 tok
    ctx := (Vector.replicate 3 {}).set 1 runCtx, gsize := 1 }

/-- Writes bytes of a test's memory. -/
def wl (s : State) (a : Nat) (l : List Nat) : State :=
  { s with mem := (List.range l.length).foldl (fun m i => Memory.set m (a + i) (BitVec.ofNat 8 (l.getD i 0))) s.mem }

/-- Writes a little-endian number of n bytes. -/
def wn (s : State) (a n v : Nat) : State := wl s a ((List.range n).map fun i => v / 2 ^ (8 * i) % 256)

/-- Core 0 with a set; two lines of code at 0x200000, every lane of unit K and context C (R25). -/
def st (t : CtxSet) : State :=
  wn (wn { cores := [(0, { set := #v[t, { sid := 1 }] })], curCore := 0, curCtx := 1, nextId := 10
           dies := (Vector.replicate 8 {}).set 0 { pins := [(1, livePin), (2, livePin)] } } 0x200000 4 0x88888888)
    0x200020 4 0x88888888

def base : State := st baseSet

/-- The same in supervisor mode. -/
def sup : State := base.updMe fun x => { x with sup := true, tpc := 8, tstat := 6 }

/-- With a program running out of its code: a handler that is no lane. -/
def lost : State := wn (wn (base.updMe fun x => { x with tvec := 0x41, evptr := 0x300000, prin := 77 }) 0x300000 8 0x2F0000) 0x300008 4 4

/-- A core that records galley 1, with values in slots 0 and 1 and slot 2 rejected. -/
def recd : State := base.updCore 0 fun k => { k with
  rec_ := some { g := 1, tenant := 0, used := 7, rejected := 4, vals := (Vector.replicate 16 0).set 0 0x40 } }

/-- What a step of an instruction gives satisfies a test. -/
def after (o : Out) (p : State → Bool) : Bool := match o with | .next t => p t | _ => false

/-! ### Steps: unit K -/

/-- -1 + 1 = 0, and addi sign-extends (R22, R39). -/
theorem test_addi : after (exec (.addi 5 0 0xFFF) base) (fun t => t.rx 5 == 0xFFFFFFFFFFFFFFFF) = true ∧
    after (exec (.addi 0 5 1) base) (fun t => t.rx 0 == 0) = true := by decide +kernel

/-- x5 = 0x40 and x6 = 3 (R39). -/
theorem test_alu : after (exec (.sub 8 6 5) base) (fun t => t.rx 8 == 0xFFFFFFFFFFFFFFC3) = true ∧
    after (exec (.sltu 8 6 5) base) (fun t => t.rx 8 == 1) = true ∧
    after (exec (.sll 8 6 5) base) (fun t => t.rx 8 == 3) = true ∧
    after (exec (.lui 8 0x80000) base) (fun t => t.rx 8 == 0xFFFFFFFF80000000) = true := by decide +kernel

/-- Division by 0 and the overflow of a signed quotient (R39: RV64M). -/
theorem test_div : after (exec (.div 8 5 0) base) (fun t => t.rx 8 == 0xFFFFFFFFFFFFFFFF) = true ∧
    after (exec (.rem 8 5 0) base) (fun t => t.rx 8 == 0x40) = true ∧
    after (exec (.divw 8 5 6) base) (fun t => t.rx 8 == 21) = true ∧
    after (exec (.mulhu 8 7 5) base) (fun t => t.rx 8 == 8) = true := by decide +kernel

/-- The spec's example: `ptr x5, k3, x6, 1` with x6 = 0x40 gives 0x2130_0000_0000_0040 (R100). -/
theorem test_ptr : after (exec (.ptr 8 3 5 1) base) (fun t => t.rx 8 == 0x2130000000000040) = true ∧
    after (exec (.tklen 8 0) base) (fun t => t.rx 8 == 0x100000) = true ∧
    after (exec (.tkinfo 8 0) base) (fun t => t.rx 8 == 0x4F00000001) = true := by decide +kernel

/-- bne x5, x0, +8 is taken to the lane at 12; beq is not (R76). The context's next slots are left empty (R77). -/
theorem test_branch : after (exec (.bne 5 0 4) base) (fun t => t.me.pc == 12 && !t.me.seek) = true ∧
    after (exec (.beq 5 0 4) base) (fun t => t.me.pc == 4 && t.me.seek) = true := by decide +kernel

/-- jal x1, +8 from pc 4 links to the next lane, 8; a target of lane 0 traps FTGT (R75, R76, R91). -/
theorem test_jal : after (exec (.jal 1 4) base) (fun t => t.me.pc == 12 && t.rx 1 == 8) = true ∧
    after (exec (.jal 1 0xFFFFE) base) (fun t => t.me.sup && t.rx 1 == 0 && t.me.tpc == 4 && t.me.tval == 0) = true := by
  decide +kernel

/-- ecall saves its address, and the address of the next lane in tval (R91, R93). -/
theorem test_ecall : after (exec .ecall base) (fun t => t.me.tpc == 4 && t.me.tval == 8 && t.me.sup && t.me.pc == 4) = true ∧
    after (exec .ecall lost) (fun t => t.me.st == .halt && t.readNat 0x300010 8 == 1 && t.readNat 0x2F0008 4 == 77) = true := by
  decide +kernel

/-- tret goes to tpc, in the mode of prev, with ie from pie (R96). -/
theorem test_tret : after (exec .tret sup) (fun t => t.me.pc == 8 && !t.me.sup && t.me.tstat == 6) = true ∧
    after (exec .tret base) (fun t => t.me.tcause == Cause.priv.word && t.me.tval == 0x80000000) = true := by decide +kernel

/-- A written vrnd of 5 is ignored, fstat keeps five bits, and a read-only CSR is read (R64, R83). -/
theorem test_csr : after (exec (.csrrwi 8 .vrnd 5) base) (fun t => t.me.vrnd == 0) = true ∧
    after (exec (.csrrw 8 .fstat 5) (base.updMe fun x => { x with x := x.x.set 5 0xFF })) (fun t => t.me.fstat == 0x1F) = true ∧
    after (exec (.csrrs 8 .tvec 0) sup) (fun t => t.rx 8 == 4) = true := by decide +kernel

/-- sd to the vault and ld at an odd address see the same bytes (R250). -/
theorem test_store_load : after (exec (.sd 7 5 1) base) (fun t => after (exec (.ld 8 5 1) t) fun u => u.rx 8 == 0x2000000000000040) = true ∧
    after (exec (.lb 8 7 0) (wl base 0x200040 [0x80])) (fun t => t.rx 8 == 0xFFFFFFFFFFFFFF80) = true := by decide +kernel

/-- A stray load reads 0 and sets mstat.stray (R81). -/
theorem test_stray : after (exec (.ld 5 7 0) (base.updMySet fun t => { t with k := Vector.replicate 16 {} }))
    (fun t => t.rx 5 == 0 && t.me.mstat == 0x20) = true := by decide +kernel

/-! ### Steps: the engines -/

/-- An entry of a queue, of context C. -/
def ent (i : Instr) (n : Nat := 1) (x0 x1 x2 : W64 := 0) : Entry :=
  { instr := i, num := n, ctx := 1, who := 1, x0 := x0, x1 := x1, x2 := x2 }

/-- The vector engine has one entry, and v1 to v3 begin with the elements given. -/
def vec (i : Instr) (x0 : W64) (a b c : BitVec 2048) : State := base.updMySet fun t => { t with
  vq := [ent i 5 x0], v := (Vector.replicate 32 0).set 1 a |>.set 2 b |>.set 3 c, m := (Vector.replicate 8 0).set 1 0b101
  tl := Vector.replicate 5 { issued := 9, done := 4 } }

/-- Element 0 of v3 after the entry has executed. -/
def lane (w : Nat) (i : Instr) (a b c : BitVec 2048) (x0 : W64 := 0) : Option Nat :=
  match exec (.vEntryExecute 0) (vec i x0 a b c) with
  | .next t => some ((vget (t.aset 0).v (3 : VReg)).toNat % 2 ^ w)
  | _ => none

/-- 1.0 + 2.0 = 3.0 in f32; 0x7F + 1 wraps in i8; 1.5 * 2.0 + 1.0 = 4.0 (R50, R163, R167). -/
theorem test_vadd : lane 32 (.vadd .f32 0 (.vv 2) 1 3) 0x3F800000 0x40000000 0 = some 0x40400000 ∧
    lane 8 (.vadd .i8 0 (.vv 2) 1 3) 0x7F 1 0 = some 0x80 ∧
    lane 32 (.vfma .f32 0 (.vv 2) 1 3) 0x3FC00000 0x40000000 0x3F800000 = some 0x40800000 := by decide +kernel

/-- f32 to bf16 rounds a tie to even (R52, R172); the square root of 4.0 is 2.0, and 2 to the 1.0 is 2.0. -/
theorem test_vcvt : lane 16 (.vcvt .bf16 .f32 0 1 3) 0x3F808000 0 0 = some 0x3F80 ∧
    lane 16 (.vcvt .bf16 .f32 0 1 3) 0x3F818000 0 0 = some 0x3F82 ∧
    lane 32 (.vsqrt 0 1 3) 0x40800000 0 0 = some 0x40000000 ∧
    lane 32 (.vexp2 0 1 3) 0x3F800000 0 0 = some 0x40000000 := by decide +kernel

/-- A shift by the width leaves 0, and vsra the sign (R169); an inactive element keeps its own (R159). -/
theorem test_vshift : lane 32 (.vshl .i32 0 (.vx 5) 1 3) 1 0 7 32 = some 0 ∧
    lane 32 (.vsra .i32 0 (.vx 5) 1 3) 0x80000000 0 7 40 = some 0xFFFFFFFF ∧
    lane 64 (.vmov .i32 1 1 3) 0x200000001 0 0x900000007 = some 0x900000001 := by decide +kernel

/-- The sum of the active elements 0 and 2 of i32 (R175). -/
theorem test_vred : lane 64 (.vred .add .i32 1 1 3) 0x30000000200000001 0 0x500000000 = some 0x500000004 := by decide +kernel

/-- vld of i8 from the vault, with the mask of m1 (R177). -/
theorem test_vld : after (exec (.vEntryExecute 0) (wl (vec (.vld .i8 1 5 3) 0x40 0 0 0xFFFFFF) (vaultLoc 0 0x40) [1, 2, 3]))
    (fun t => (vget (t.aset 0).v (3 : VReg)).toNat == 0x03FF01) = true := by decide +kernel

/-- A bank of an i8 nest of one step at level 0, (R182). -/
def bank : Bank := { f := (Vector.replicate 64 0).set 0 0x100 |>.set 1 0x800 |>.set 5 32 |>.set 6 64 |>.set 8 1 }

def mat (f : CtxSet → CtxSet) : State := base.updMySet fun t => f { t with tl := Vector.replicate 5 { issued := 9, done := 4 } }

/-- mgo starts a nest, and with counts of 0 alone it has no step and completes (R182, R190). -/
theorem test_mgo : after (exec (.mgoLaunch 0) (mat fun t => { t with mq := [ent .mgo 5], filling := bank }))
      (fun t => (t.aset 0).nests.length == 1 && (t.aset 0).mq == []) = true ∧
    after (exec (.mgoLaunch 0) (mat fun t => { t with mq := [ent .mgo 5] }))
      (fun t => (t.aset 0).nests == [] && (t.aset 0).time .tlm == { issued := 9, done := 5 }) = true := by decide +kernel

/-- mzero leaves its tile +0 and FULL (R206). -/
theorem test_mzero : after (exec (.matrixEntryExecute 0) (mat fun t => { t with mq := [ent (.mzero 3) 5] }))
    (fun t => (vget (t.aset 0).tile (3 : AccReg)).st == .full && (t.aset 0).mq == []) = true := by decide +kernel

/-- rset accepts a ring of four slots of 64 bytes, and unsets its handle and sets mstat.stray for a misaligned base (R152). -/
theorem test_rset :
    after (exec (.streamCommandBegin 0 1) (mat fun t => { t with sq := t.sq.set 1 [ent (.rset 2 5) 5 0x04C01000] }))
      (fun t => !(vget (t.aset 0).ring (2 : HReg)).unset && (t.ctx 0 1).mstat == 0) = true ∧
    after (exec (.streamCommandBegin 0 1) (mat fun t => { t with sq := t.sq.set 1 [ent (.rset 2 5) 5 0x04C01020] }))
      (fun t => (vget (t.aset 0).ring (2 : HReg)).unset && (t.ctx 0 1).mstat == 0x20) = true := by decide +kernel

/-- amo.add.w of 0xFFFFFFFF and 1 leaves 0 and answers the old word sign-extended (R216). -/
def amoAdd (p : OpAt) : HomeOp :=
  { core := 0, sid := 0, ctx := 1, instr := .amo .add .w .rlx .die 5 6 7, seq := 1, posted := false, loc := vaultLoc 0 0x40
    size := 4, v := 1, pos := p }

theorem test_amo :
    after (exec (.homeOperation 4) { wn base (vaultLoc 0 0x40) 4 0xFFFFFFFF with ops := [(4, amoAdd .waiting)] })
      (fun t => t.readNat (vaultLoc 0 0x40) 4 == 0 && fget t.ops 4 == some (amoAdd (.done 0xFFFFFFFF 0 false))) = true ∧
    after (exec (.atomicReply 4) { base.updMe (fun x => { x with hold := .reply 4, st := .wait }) with
        ops := [(4, amoAdd (.done 0xFFFFFFFF 0 false))] })
      (fun t => t.rx 5 == 0xFFFFFFFFFFFFFFFF && t.me.hold == .none) = true := by decide +kernel

/-- 1.0 + 2.0 = 3.0 in f32, and in both halves of bf16 (R217). -/
theorem test_amo_float : ∀ x ∈ [(AmoTy.f, 0x3F800000, 0x40000000, 0x40400000), (AmoTy.h2, 0x3F803F80, 0x40004000, 0x40404040)],
    after (exec (.homeOperation 4) { wn base (vaultLoc 0 0x40) 4 x.2.1 with
        ops := [(4, { amoAdd .waiting with instr := .amo .add x.1 .rlx .die 5 6 7, v := BitVec.ofNat 64 x.2.2.1 })] })
      (fun t => t.readNat (vaultLoc 0 0x40) 4 == x.2.2.2) = true := by decide +kernel

/-- fence writes count, psn and refused, and clears the record (R220, R221). -/
theorem test_fence : after (exec (.fence .core 8) (base.updMe fun x => { x with fail := { count := 5, psn := true, refused := true } }))
    (fun t => t.rx 8 == 0x5000A && t.me.fail == {}) = true := by decide +kernel

/-- The two arrivals of a barrier of two: the second completes the phase (R227). -/
theorem test_barrier :
    let c : Card := { die := 0, queue := 0, pos := 0, words := (Vector.replicate 32 0).set 3 4 |>.set 4 8, st := .run, preds := 0
                      prio := 0, cores := [0], sids := [0], bound := 1 }
    let a : Arrival := { card := 1, sc := .core, member := 0, b := 1, q := 0, core := 0, sid := 0, ctx := 1, after := 0 }
    after (exec (.barrierArrival 0) { base with cards := [(1, c)], arrivals := [a, a] }) (fun t =>
      (t.barrier 1 .core 0 1).cur == 1 && after (exec (.barrierArrival 0) t) fun u =>
        (u.barrier 1 .core 0 1).phase == 1 && (u.barrier 1 .core 0 1).cur == 0) = true := by decide +kernel

/-- waita of a word that differs from the value expected answers 0, of an equal one sleeps, and misaligned answers 6 (R230). -/
theorem test_waita : after (exec (.waita 8 5 6 0) base) (fun t => t.rx 8 == 0 && t.me.st == .run) = true ∧
    after (exec (.waita 8 5 6 0) (wn base (vaultLoc 0 0x40) 8 3)) (fun t => t.me.st == .wait && t.monitors.length == 1) = true ∧
    after (exec (.waita 8 6 6 0) base) (fun t => t.rx 8 == 6 && t.me.mstat == 0x20) = true := by decide +kernel

/-- trnp makes a token of the entry the hardware takes, here 3 (R107, R118). -/
theorem test_trnp : after (exec (.trnp 2 0 5 5 false false) { sup with oracle := [3] })
    (fun t => vget t.mySet.k (2 : KReg) == { pte := 3, rights := 5, valid := true, lenm1 := 0x3F } &&
      (t.pin 0 3).state == .live && (t.pin 0 3).holders == 1) = true := by decide +kernel

/-- pocc of a LIVE entry that nothing holds makes it OCCULTED, and of a held one EBB with a probe (R122). -/
theorem test_pocc : after (exec (.pocc 8) (sup.updMe fun x => { x with x := x.x.set 8 1 })) (fun t => (t.pin 0 1).state == .occulted) = true ∧
    after (exec (.pocc 8) { sup.updMe (fun x => { x with x := x.x.set 8 1 }) with
        dies := sup.dies.set 0 { pins := [(1, { livePin with holders := 1 }), (2, livePin)] } })
      (fun t => (t.pin 0 1).state == .ebb && (t.pin 0 1).probes == 1) = true := by decide +kernel

/-- gpatch while recording: a free slot takes the value, a held one with another value is rejected (R103). -/
theorem test_gpatch : after (exec (.gpatch 5 3) recd) (fun t => vget t.me.tag (5 : XReg) == .patched 3 0) = true ∧
    after (exec (.gpatch 6 0) recd) (fun t => vget t.me.tag (6 : XReg) == .opq) = true := by decide +kernel

/-- ptstat of an entry that does not exist reads all ones (R126). -/
theorem test_ptstat : after (exec (.ptstat 8 7) sup) (fun t => t.rx 8 == 0xFFFFFFFFFFFFFFFF) = true ∧
    after (exec (.ptstat 8 5) sup) (fun t => t.rx 8 == 0) = true := by decide +kernel

/-- jstat of a card that no dispatcher holds answers 0 (R335). -/
theorem test_jstat : after (exec (.jobPortEntryExecute 0)
    ((base.updMySet fun t => { t with jq := [ent (.jstat 5 6) 5 0 77] }).updMe fun x => { x with hold := .result 4 5 5, st := .wait }))
    (fun t => t.rx 5 == 0 && t.me.hold == .none) = true := by decide +kernel

/-- A post that would overfill its queue is counted and dropped (R342). -/
theorem test_post : after (exec (.postRegisterWrite 0 3 2)
      (wn (wn { base with hostState := 1, booted := true } (dispatchBlock + 192 + 9) 1 3) (dispatchBlock + 192 + 48) 2 0x1000))
    (fun t => t.postDrops == 1) = true := by decide +kernel

/-- A package reset with die 3 failing its self-test (R339). -/
theorem test_package_reset : after (exec (.packageReset 8) base)
    (fun t => (t.die 3).fenced && !(t.die 2).fenced && t.cores == [] && t.mem == []) = true := by decide +kernel

/-- The digest that FIPS 202's example values give for the empty message: a7ffc6f8 … f8434a, first byte lowest here. -/
theorem test_sha3_empty :
    sha3 [] = 0x4A43F8804B0AD882FA493BE44DFF80F562D661A05647C15166D71EBFF8C6FFA7 := by decide +kernel

/-! ### States and operands that meet the hypotheses of the statements: encoding, fetch, unit K

One theorem for each statement that has hypotheses, or for each of its clauses; a clause with a range has its ends. -/

theorem witness_encoding_round_trip : (Instr.addi 5 5 64).WellFormed ∧ encode (.addi 5 5 64) = some (.k, 0x04028293) ∧
    (Instr.barArv .core 7 31).WellFormed ∧ (encode (.barArv .core 7 31)).isSome = true := by decide

theorem witness_decoded_is_well_formed : decode .k 0x04028293 = .ok (.addi 5 5 64) := by decide +kernel

/-- A fetched word that passes a test. -/
theorem word_of {f : Fetched} {p : State → LaneUnit → W32 → Bool}
    (h : (match f with | .word t u w => p t u w | .done _ => false) = true) : ∃ t u w, f = .word t u w ∧ p t u w = true := by
  cases f with
  | word t u w => exact ⟨t, u, w, rfl, h⟩
  | done s => exact absurd h (by simp)

/-- The first lanes hold addi x5, x5, 64 and a word that decodes to nothing. -/
def coded : State := { wn (wn base 0x200004 4 0x04028293) 0x200008 4 0xFFFFFFFF with agenda := [(1, .issue 0 1)] }

theorem witness_step_runs_decoded :
    let now : State := { coded with clk := coded.clk + 1, agenda := [] }
    (now.ctx 0 1).st = .run ∧ now.slotOpen 0 1 = true ∧
    ∃ t u w, now.fetchNext 0 1 = .word t u w ∧ ((t.ctx 0 1).takeable == none && decode u w == .ok (.addi 5 5 64)) = true := by
  refine ⟨by decide +kernel, by decide +kernel, word_of (by decide +kernel)⟩

theorem witness_step_refuses_word :
    let s : State := coded.updMe fun x => { x with pc := 8 }
    let now : State := { s with clk := s.clk + 1, agenda := [] }
    ∃ t u w, now.fetchNext 0 1 = .word t u w ∧
      ((t.ctx 0 1).takeable == none && match decode u w with | .ok _ => false | .error _ => true) = true := by
  exact word_of (by decide +kernel)

theorem witness_fetch_reads_lane : let s := base
    let k := (s.aset 0).codeTok
    let h : W32 := BitVec.ofNat 32 (s.readNat 0x200000 4)
    (s.ctx 0 1).seek = false ∧ (s.ctx 0 1).entering = false ∧ (s.ctx 0 1).pc = 4 ∧ s.addrFate 0 0x200000 {} = .ok ∧
    region 0x200000 = .hbm ∧ s.remote 0 0x200000 = false ∧ s.tokenByte 0 k 1 0 = .ok 0x200000 ∧ 31 ≤ k.lenm1.toNat ∧
    fget (s.core 0).fetch (0x200000 / 32) = none ∧ (s.pin 0 k.pte).gen = k.gen ∧ (s.pin 0 k.pte).state = .live ∧
    headerBad h = false ∧ owns h 1 1 = true := by decide +kernel

theorem witness_step_keeps_memory : base.MemOk ∧ ∃ t, step coded = .next t :=
  ⟨by decide +kernel, by
    have h : after (step coded) (fun _ => true) = true := by decide +kernel
    revert h; cases step coded <;> simp [after]⟩

/-- A token that is the last of its entry, one that another register holds too, one whose entry has left its generation, and one
that is not valid. -/
theorem witness_token_registers :
    (let s := base.updDie 0 fun d => { d with pins := [(1, { livePin with holders := 1 }), (2, livePin)] }
     (vget s.mySet.k (0 : KReg)).valid = true ∧ (s.pin 0 1).gen = (vget s.mySet.k (0 : KReg)).gen ∧ (s.pin 0 1).state = .live ∧
     (s.pin 0 1).saved = 0 ∧ (s.pin 0 1).inflight = 0 ∧ (0 : KReg) ≠ 1) ∧
    (vget (base.updMySet fun t => { t with k := t.k.set 1 tok }).mySet.k (1 : KReg)) = vget base.mySet.k (0 : KReg) ∧
    ((base.updMySet fun t => { t with k := t.k.set 1 { tok with gen := 3 } }).pin 0 1).gen ≠ 3 ∧
    (vget base.mySet.k (1 : KReg)).valid = false := by decide +kernel

/-- A patched operand at the largest delta, a volatile and an opaque one. -/
theorem witness_sum_tags :
    let p : State := base.updMe fun x => { x with tag := x.tag.set 5 (.patched 2 0x7FFFFFFFFFFF) |>.set 6 .vol |>.set 7 .opq }
    p.tagOf 5 = .patched 2 0x7FFFFFFFFFFF ∧ p.tagOf 8 = .plain ∧ p.tagOf 6 = .vol ∧ p.tagOf 7 = .opq ∧ p.tagOf 7 ≠ .vol := by
  decide +kernel

theorem witness_patch_tags : base.recording = none ∧ recd.recording.isSome = true ∧
    (match recd.recording with
     | some r => r.rejected.getLsbD 2 && !r.rejected.getLsbD 15 && !r.used.getLsbD 15 && r.used.getLsbD 0
         && vget r.vals (0 : BitVec 4) == recd.rx 5 && vget r.vals (0 : BitVec 4) != recd.rx 6
     | none => false) = true ∧ recd.rx 0 = 0 ∧ (recd.core recd.curCore).rec_ ≠ none := by decide +kernel

theorem witness_vector_to_scalar : (base.core base.curCore).rec_ = none ∧ base.mySet.vq = [] := by decide +kernel

/-- Both clauses of the branches: taken to a lane, and not taken. -/
theorem witness_branches : base.recording = none ∧ base.me.marked 5 = false ∧ (base.rx 5).toInt ≠ (base.rx 6).toInt ∧
    base.checkTarget 0 1 (BitVec.ofInt 64 (base.me.pc.toInt + 2 * (4 : BitVec 12).toInt)) = .ok := by decide +kernel

/-- A jump with a next lane, and one whose next line has a bad header. -/
theorem witness_jumps : base.recording = none ∧ base.me.marked 6 = false ∧ linkOf base = some 8 ∧
    (let s := base.updMe fun x => { x with pc := 0x3C }
     linkOf s = some 0 ∧ s.nextLane 0 1 s.me.pc = .badHeader 0x40 0 ∧
     s.checkTarget 0 1 (jalTarget s.me.pc 0xFFFE8) = .ok ∧ s.checkTarget 0 1 (jalTarget s.me.pc 0x20) = .fhdr 0) ∧
    base.checkTarget 0 1 (BitVec.ofInt 64 (base.me.pc.toInt + 2 * (4 : BitVec 20).toInt)) = .ok ∧
    base.checkTarget 0 1 (BitVec.ofNat 64 ((base.rx 6 + (1 : BitVec 12).signExtend 64).toNat / 2 * 2)) = .ok := by decide +kernel

/-- Lane 0 of the line of the code, and a line whose header is 0; x5 is not x6 and is the larger in both readings. -/
theorem witness_bad_targets : (base.core 0).rec_ = none ∧ base.me.hold = .none ∧ linkOf base = some 8 ∧
    base.checkTarget 0 1 base.me.tvec = .ok ∧ base.checkTarget 0 1 (jalTarget base.me.pc 0xFFFFE) = .ftgt ∧
    base.checkTarget 0 1 (jalrTarget (base.rx 5) 0) = .ftgt ∧ base.checkTarget 0 1 (branchTarget base.me.pc 1) = .ftgt ∧
    base.checkTarget 0 1 (jalTarget base.me.pc 0x20) = .fhdr 0 ∧ base.checkTarget 0 1 (jalrTarget (base.rx 5) 4) = .fhdr 0 ∧
    base.checkTarget 0 1 (branchTarget base.me.pc 0x20) = .fhdr 0 ∧ base.me.marked 5 = false ∧ base.me.marked 6 = false ∧
    (base.rx 5).toInt ≠ (base.rx 6).toInt ∧ (base.rx 6).toInt < (base.rx 5).toInt ∧ (base.rx 6).toNat < (base.rx 5).toNat := by
  decide +kernel

theorem witness_trap_instructions : (base.core 0).rec_ = none ∧ base.me.hold = .none ∧ base.checkTarget 0 1 base.me.tvec = .ok ∧
    base.nextLane 0 1 base.me.pc = .lane 8 := by decide +kernel

/-- Both parts: a handler that is a lane, one that is none and one in a line with a bad header, with a well-formed event log. -/
theorem witness_trap_taken : (base.core 0).rec_ = none ∧ (base.ctx 0 1).hold = .none ∧ base.checkTarget 0 1 (base.ctx 0 1).tvec = .ok ∧
    (lost.core 0).rec_ = none ∧ (lost.ctx 0 1).hold = .none ∧ badHandler lost 0 1 = true ∧ lost.MemOk ∧
    (let s := lost.updMe fun x => { x with tvec := 0x44 }
     badHandler s 0 1 = true ∧ s.checkTarget 0 1 (s.ctx 0 1).tvec = .fhdr 0) ∧
    (let a := podAddr lost 0 (lost.ctx 0 1).evptr.toNat
     lost.readNat (a + 8) 4 = 4 ∧ lost.readNat a 8 % 32 = 0 ∧ lost.readNat a 8 + 512 ≤ (lost.ctx 0 1).evptr.toNat ∧
     (lost.ctx 0 1).evptr.toNat + 64 ≤ 0x1FC0000000) := by decide +kernel

theorem witness_tret_returns : sup.me.sup = true ∧ sup.checkTarget 0 1 sup.me.tpc = .ok ∧
    (let s := sup.updMe fun x => { x with tpc := 0x44 }
     s.me.sup = true ∧ s.checkTarget 0 1 s.me.tpc = .fhdr 0 ∧ (s.core 0).rec_ = none ∧ s.me.hold = .none ∧
     s.checkTarget 0 1 s.me.tvec = .ok) ∧
    (let s := sup.updMe fun x => { x with tpc := 2 }
     s.me.sup = true ∧ s.checkTarget 0 1 s.me.tpc = .ftgt ∧ s.checkTarget 0 1 s.me.tvec = .ok) := by decide +kernel

theorem witness_privilege_traps : base.me.sup = false ∧ (base.core 0).rec_ = none ∧ base.me.hold = .none ∧
    base.checkTarget 0 1 base.me.tvec = .ok ∧ encode .tret = some (.y, 0x80000000) ∧
    (encode (.csrrs 5 .tvec 0)).isSome = true ∧ csrSup .tvec = true := by decide +kernel

theorem witness_csr_results : (Instr.csrrw 5 .tvec 6).WellFormed ∧ sup.me.sup = true ∧ base.mySet.vq = [] := by decide +kernel

theorem witness_scalar_fences : (base.core base.curCore).sb = [] := by decide +kernel

/-! ### Memory of unit K -/

/-- The last eight bytes of the vault, and a misaligned load of which the hardware leaves a byte for later. -/
theorem witness_vault_loads : let s := base.updMe fun x => { x with x := x.x.set 5 0x1FFFF8 }
    (s.rx 5 + (0 : BitVec 12).signExtend 64).toNat + 8 ≤ 2 ^ 21 ∧ (s.core s.curCore).sb = [] ∧ s.ops = [] ∧ s.mpois = [] ∧
    (∀ t ∈ (s.core s.curCore).allSets, t.vprog.writes = []) ∧ (s.die (s.curCore / 128)).tags.length ≤ 4096 ∧
    s.me.marked 5 = false ∧ (s.die (s.curCore / 128)).fenced = false ∧ s.curCore < 1024 ∧ s.oracle = [] ∧
    ({ s with oracle := [1] } : State).oracle = 1 :: [] ∧ 1 % 2 ^ 2 ≠ 0 ∧
    (s.rx 5 + (0xFFF : BitVec 12).signExtend 64).toNat % 2 ≠ 0 := by decide +kernel

theorem witness_token_loads : let s := base
    let t := vget s.mySet.k (0 : KReg)
    let e := s.pin (s.curCore / 128) t.pte
    s.ptr s.curCore s.mySet (s.rx 7 + (0 : BitVec 12).signExtend 64) = .token 0 0 0x40 ∧
    t.valid = true ∧ t.ms = false ∧ t.host = false ∧ t.rights &&& 1 = 1 ∧ 0x40 + 8 ≤ t.lenm1.toNat + 1 ∧ e.gen = t.gen ∧
    e.state = .live ∧ e.deny.contains 0 = false ∧
    (∀ i, i < 8 → s.addrFate s.curCore (0x200040 + i) { phys := e.phys } = .ok ∧ region (0x200040 + i) = .hbm ∧
      s.remote s.curCore (0x200040 + i) = false ∧ fget (s.core s.curCore).l1 ((0x200040 + i) / 64) = none) ∧
    (∀ t ∈ (s.core s.curCore).allSets, t.vprog.writes = []) ∧ 0x40 + 8 ≤ 2 ^ 48 ∧
    (s.core s.curCore).sb = [] ∧ s.ops = [] ∧ s.mpois = [] ∧ s.me.marked 7 = false ∧ s.oracle = [] ∧ 0x40 % 2 ^ 21 + 8 ≤ 2 ^ 21 ∧
    0x40 % 2 ^ 16 + 8 ≤ 2 ^ 16 := by decide +kernel

/-- A store of n bytes of the vault. -/
def sv (q off n : Nat) : StoreEnt :=
  { seq := q, sid := 0, ctx := 1, bytes := (List.range n).map fun i => (vaultLoc 0 (off + i), BitVec.ofNat 8 (q * 16 + i)) }

/-- A store to HBM of the die that has left on its way. -/
def sh (q loc n : Nat) (sent : Bool) : StoreEnt :=
  { seq := q, sid := 0, ctx := 1, bytes := (List.range n).map fun i => (loc + i, BitVec.ofNat 8 (q * 16 + i)), pte := some 1
    sent := sent }

/-- Thirty entries leave room for the two that an access across lines takes. -/
theorem witness_stores : let s := (base.updMe fun x => { x with x := x.x.set 5 0x1FFFF8 }).updCore 0 fun k =>
      { k with sb := List.replicate 30 (sv 1 0x40 8), seq := 1 }
    (s.rx 5 + (0 : BitVec 12).signExtend 64).toNat + 8 ≤ 2 ^ 21 ∧ (s.core s.curCore).sb.length ≤ 30 ∧ s.ops = [] ∧ s.mpois = [] ∧
    (∀ t ∈ (s.core s.curCore).allSets, t.vprog.writes = []) ∧
    s.me.marked 5 = false ∧ s.me.marked 6 = false := by decide +kernel

/-- Both kinds of stray pointer: of a space that does not exist, and through a token register that is not valid. -/
theorem witness_stray_accesses : (let s := base.updMe fun x => { x with x := x.x.set 5 0x6000000000000000 }
     strayAccess s (s.rx 5 + (0 : BitVec 12).signExtend 64) ∧ s.me.marked 5 = false ∧ (s.core s.curCore).rec_ = none) ∧
    (let s := base.updMySet fun t => { t with k := Vector.replicate 16 {} }
     strayAccess s (s.rx 7 + (0 : BitVec 12).signExtend 64) ∧ s.me.marked 7 = false ∧ (s.core s.curCore).rec_ = none) := by
  refine ⟨⟨.inl (by decide +kernel), by decide +kernel, by decide +kernel⟩,
    ⟨.inr ⟨0, 0, 0x40, by decide +kernel, by decide +kernel⟩, by decide +kernel, by decide +kernel⟩⟩

/-- Entry 1 as given, behind the data token. -/
def pinned (p : Pin) (s : State := base) : State := { s with dies := s.dies.set 0 { s.die 0 with pins := [(1, p), (2, livePin)] } }

theorem witness_issue_points : ∀ s ∈ [pinned { livePin with gen := 1 }, pinned { livePin with state := .ebb },
      pinned { livePin with state := .occulted }],
    s.ptr s.curCore s.mySet (s.rx 7 + (0 : BitVec 12).signExtend 64) = .token 0 0 0x40 ∧
    (vget s.mySet.k (0 : KReg)).valid = true ∧ (s.core s.curCore).rec_ = none ∧ s.me.hold = .none ∧
    s.checkTarget s.curCore s.curCtx s.me.tvec = .ok ∧
    ((s.pin 0 1).gen ≠ (vget s.mySet.k (0 : KReg)).gen ∨ (s.pin 0 1).state = .ebb ∨ (s.pin 0 1).state = .occulted) := by
  decide +kernel

/-- A core whose buffer holds the entries given, all to leave. -/
def buffer (l : List StoreEnt) (s : State := base) : State := s.updCore 0 fun k => { k with sb := l, seq := l.length, drainTo := l.length }

/-- What the statement asks of the oldest unsent entry. -/
abbrev unsent (s : State) (e : StoreEnt) : Prop :=
  e.poison = false ∧ e.bits = [] ∧ e.marks = [] ∧ s.mpois = [] ∧ s.MemOk ∧ (e.bytes.Pairwise fun x y => x.1 ≠ y.1) ∧
    (s.core 0).sb.find? (fun y => !y.sent) = some e ∧ e.seq ≤ (s.core 0).drainTo

/-- The oldest entry of the vault, of two units and whole; the oldest unsent ones of a line of the die, with its words owned, behind
one on its way, and behind one of its own line; one for die 1; one that a load awaits; one whose home is fenced. -/
theorem witness_stores_leave :
    (∀ e ∈ [sv 1 0x40 8, { sv 1 0x41 8 with units := [0, 1, 2, 3, 4, 5, 6, 7] }],
      let s := buffer [e, sv 2 0x84 2]
      unsent s e ∧ isVault (e.bytes.headD (0, 0)).1 = true ∧ s.addrFate 0 (e.bytes.headD (0, 0)).1 {} = .ok ∧
        s.remote 0 (e.bytes.headD (0, 0)).1 = false ∧ s.awaited 0 1 (e.bytes.map (·.1)) = false ∧ s.pinned e.line = false ∧
        (∀ y ∈ (s.core 0).sb, y.seq < e.seq → y.line ≠ e.line)) ∧
    (∀ l ∈ [[sh 1 0x200040 8 false], [sh 0 0x200080 8 true, sh 1 0x200040 8 false], [sh 0 0x200048 8 true, sh 1 0x200040 8 false]],
      let s := buffer l; let e := sh 1 0x200040 8 false
      unsent (s.updCore 0 fun k => { k with drainTo := 1 }) e ∧ isVault 0x200040 = false ∧
        s.addrFate 0 0x200040 { phys := (s.pin 0 1).phys } = .ok ∧ s.remote 0 0x200040 = false ∧ e.ms = false ∧ e.host = false ∧
        s.awaited 0 1 (e.bytes.map (·.1)) = false ∧ s.ownsAll 0 e = false) ∧
    (let s := (buffer [sh 1 0x200040 8 false]).updCore 0 fun k => { k with l1 := [(0x200040 / 64, { data := 0, own := 0xFFFF })] }
     s.ownsAll 0 (sh 1 0x200040 8 false) = true) ∧
    (let s := buffer [sh 1 (2 ^ 51 + 0x200040) 8 false]
     unsent s (sh 1 (2 ^ 51 + 0x200040) 8 false) ∧ s.addrFate 0 (2 ^ 51 + 0x200040) {} = .ok ∧ s.remote 0 (2 ^ 51 + 0x200040) = true ∧
       s.writing 0 ((2 ^ 51 + 0x200040) / 64) = false ∧ s.hasTag 0 = true ∧
       ({ s with dies := s.dies.set 1 { fenced := true } } : State).addrFate 0 (2 ^ 51 + 0x200040) {} ≠ .ok) ∧
    (let s := (buffer [sh 1 0x200040 8 false]).updMe fun x => { x with
        st := .wait, hold := .load 5 true [.due 0x200040 .l1 none] }
     s.awaited 0 1 ((sh 1 0x200040 8 false).bytes.map (·.1)) = true) ∧
    (let s := buffer [sh 1 0x200080 8 true, sh 2 0x200040 8 true]
     (s.core 0).sb.find? (fun y => y.sent && y.req.isNone && y.seq = 2) = some (sh 2 0x200040 8 true) ∧
     (∀ y ∈ (s.core 0).sb, y.seq < 2 → y.line ≠ (sh 2 0x200040 8 true).line) ∧ s.pinned (sh 2 0x200040 8 true).line = false) ∧
    (let s : State := { buffer [sv 1 0x40 8, sv 2 0x44 2] with clk := 256 }
     sv 1 0x40 8 ∈ (s.core 0).sb ∧ 256 ≤ s.clk - (sv 1 0x40 8).born ∧ ((s.core 0).sb.Pairwise fun x y => x.seq < y.seq)) := by
  refine ⟨by decide +kernel, by decide +kernel, by decide +kernel, by decide +kernel, by decide +kernel, by decide +kernel,
    by decide +kernel⟩


/-! ### Issue of the engines -/

/-- The set with all queues full, but for the galley and job queues when few is true. -/
def queues (n : Nat) (s : State := base) : State := s.updMySet fun t => { t with
  vq := List.replicate n (ent .mgo), mq := List.replicate n (ent .mgo), sq := Vector.replicate 3 (List.replicate n (ent .mgo))
  cq := List.replicate n (ent .mgo), gq := List.replicate n (ent .gend), jq := List.replicate n (ent .jdone) }

theorem witness_vector_issues : (queues 31).mySet.vq.length < 32 ∧ 32 ≤ (queues 32).mySet.vq.length := by decide +kernel

/-- Each depth, and the last room below it. -/
theorem witness_engine_issues : base.mySet.jheld = false ∧ sup.me.sup = true ∧
    (∀ q ∈ [EngQ.str, .mat, .coll, .gal, .job], base.mySet.queueLen base.curCtx q < q.depth ∧
      (queues (q.depth - 1)).mySet.queueLen base.curCtx q < q.depth ∧ q.depth ≤ (queues q.depth).mySet.queueLen base.curCtx q) := by
  decide +kernel

theorem witness_galley_issues : base.mySet.gq.length < 8 ∧ (base.core base.curCore).rec_ = none ∧ base.mySet.jq.length < 4 ∧
    base.mySet.jheld = false ∧ recd.mySet.gq.length < 8 ∧
    (match (recd.core recd.curCore).rec_ with | some r => r.sid == recd.mySet.sid | none => false) = true := by decide +kernel

theorem witness_full_queues_release :
    let s := base.updMe fun x => { x with hold := .queueFull .mat .mgo, st := .wait }
    encode .mgo = some (.e, 0x08400000) ∧ (s.ctx 0 1).hold = .queueFull (engQueue .mgo) .mgo ∧
    (s.aset 0).queueFull 1 (engQueue .mgo) = false ∧ s.expired 0 1 (s.ctx 0 1).wdog = false ∧ (s.ctx 0 1).takeable = none ∧
    s.slotOpen 0 1 = true := by decide +kernel

/-! ### Execution of the vector engine -/

/-- The head of the vector queue is each instruction that a statement names. -/
theorem witness_vector_elements : ∀ i ∈ [Instr.vadd .i8 1 (.vv 2) 1 3, .vsub .i8 1 (.vx 5) 1 3, .vmul .i32 0 (.vv 2) 1 3, .vmin .i32 1 (.vv 2) 1 3,
      .vmax .i8 1 (.vv 2) 1 3, .vabs .i32 1 1 3, .vneg .f32 1 1 3, .vabs .bf16 1 1 3, .vneg .i8 1 1 3, .vshl .i32 1 (.vi 31) 1 3,
      .vshr .i8 1 (.vi 8) 1 3, .vsra .i32 1 (.vx 5) 1 3, .vand .i8 1 (.vv 2) 1 3, .vor .f32 1 (.vv 2) 1 3, .vxor .e4m3 1 (.vv 2) 1 3,
      .vnot .i32 1 1 3],
    ((vec i 5 7 8 9).aset 0).vq = [ent i 5 5] ∧ i.WellFormed := by decide +kernel

theorem witness_vector_moves : ∀ i ∈ [Instr.vmov .l6 1 1 3, .vbcast .l6 1 5 3, .viota .i8 1 3, .vshuf .i32 1 2 1 3, .vslide false .bf16 1 (.vx 5) 1 3,
      .vslide true .f32 1 (.vi 31) 1 3, .vsel .f32 1 2 1 3, .vcmpr .i8 1 1 3, .vpart .i32 1 30],
    ((vec i 5 7 8 9).aset 0).vq = [ent i 5 5] ∧ i.WellFormed := by decide +kernel

/-- The last row of a FULL tile and the first past it. -/
theorem witness_vector_masks : (∀ i ∈ [Instr.vcmp .eq .i32 1 (.vv 2) 1 2, .vcmp .ne .i8 1 (.vv 2) 1 2, .vcmp .lt .i32 1 (.vv 2) 1 2,
      .vcmp .le .i8 1 (.vv 2) 1 2, .vred .add .i32 1 1 3, .vred .min .i8 1 1 3, .vred .max .i32 1 1 3, .mset .bf16 5 2, .mand 1 2 7,
      .mor 1 2 7, .mxor 1 2 7, .mnot 1 7, .vlda true 5 1 3, .vlda false 5 1 3], ((vec i 5 7 8 9).aset 0).vq = [ent i 5 5] ∧ i.WellFormed) ∧
    64 ≤ (64 : W64).toNat ∧ (63 : W64).toNat = (63 : BitVec 6).toNat ∧
    (vget ((vec (.vlda true 5 1 3) 63 0 0 0).updMySet fun t => { t with tile := t.tile.set 1 { st := .full } }).mySet.tile
      (1 : AccReg)).st = .full ∧
    (let d : VDone := { e := ent (.vnot .i32 1 1 3) 5, fl := 1 }
     ((base.updMySet fun t => { t with vdone := [d] }).aset 0).vdone.find? (fun y => y.e.num = d.e.num) = some d ∧
       engQueue d.e.instr = .vec) := by decide +kernel

/-- An entry in each rounding mode, with every mask bit of m1 below 3. -/
theorem witness_float_elements : ∀ rm ∈ [RMode.rne, .rtz, .rup, .rdn, .sr], ∀ i ∈ [Instr.vadd .f32 1 (.vv 2) 1 3, .vsub .bf16 1 (.vx 5) 1 3,
      .vmul .e4m3 1 (.vv 2) 1 3, .vfma .e5m2 1 (.vv 2) 1 3, .vmin .f32 1 (.vv 2) 1 3, .vmax .bf16 0 (.vv 2) 1 3, .vmul .l6 1 (.vv 2) 1 3,
      .vdiv 1 (.vv 2) 1 3, .vsqrt 1 1 3, .vrcp 1 1 3, .vrsq 1 1 3, .vexp2 1 1 3, .vlog2 1 1 3, .vcvt .bf16 .f32 1 1 3, .vcvt .i8 .l6 1 1 3,
      .vcmp .lt .e5m2 1 (.vv 2) 1 2, .vred .add .bf16 1 1 3, .vscan .min .f32 1 1 3, .vscan .add .i8 1 1 3],
    let e := { ent i 5 5 with rm := rm.code }
    ((base.updMySet fun t => { t with vq := [e] }).aset 0).vq = [e] ∧ e.rm = rm.code ∧ i.WellFormed := by decide +kernel

/-- One V entry, with a ring of four slots of 64 bytes whose producer is 1 and whose consumer is 3. -/
def vmem (i : Instr) (x0 : W64) (head : W32 := 3) : State := base.updMySet fun t => { t with
  vq := [ent i 5 x0], ring := t.ring.set 1 { base := 0x1000, slot := 6, count := 2, head := head, producer := 1, consumer := 3 } }

/-- The last 256 bytes of the vault and a pointer of no space; windows that the ring admits, waits for and does not admit. -/
theorem witness_vector_memory :
    (∀ i ∈ [Instr.vld .bf16 1 5 3, .vst .f32 1 5 3, .vldg .i8 1 5 4 3, .vsts .l6 1 5 4 3, .vldr .l6 1 5 1 3, .vstr .f32 1 5 1 3],
      let s := vmem i 0x1FFF00
      (s.aset 0).vq = [ent i 5 0x1FFF00] ∧ (s.aset 0).vprog = {} ∧ s.ops = [] ∧ s.mpois = [] ∧ s.oracle = [] ∧
      (s.aset 0).vpois = Vector.replicate 32 0 ∧ (s.die 0).fenced = false ∧ (∀ i ∈ List.range 64, (s.core 0).xfer (s.aset 0).sid (.vec i) = none) ∧ (s.core 0).xfers = [] ∧
      (s.aset 0).leaving = false ∧ (s.core 0).sb = []) ∧
    base.eptr 0 0x1FFF00 none = .vault 0 0x1FFF00 ∧ 0x1FFF00 + 256 ≤ 2 ^ 21 ∧ vget (base.aset 0).v (4 : VReg) = 0 ∧
    base.eptr 0 0x6000000000000000 none = .stray ∧
    (let filled := 3; let last (bits off : Nat) := (off + bits / 8 - 1) / 64
     0 + memBits .l6 * elemCount .l6 / 8 ≤ 4 * 64 ∧ last (memBits .l6 * elemCount .l6) 0 < filled ∧
     0 + memBits .f32 * elemCount .f32 / 8 ≤ 4 * 64 ∧ filled ≤ last (memBits .f32 * elemCount .f32) 0 ∧
     ¬ 1 + memBits .f32 * elemCount .f32 / 8 ≤ 4 * 64 ∧ last (memBits .f32 * elemCount .f32) 0 < 4 - 0 ∧
     4 - filled ≤ last (memBits .l6 * elemCount .l6) 0 ∧ 0x1000 + 4 * 64 ≤ 2 ^ 21) ∧
    (let r := vget ((vmem (.vadv 5 1) 4).aset 0).ring (1 : HReg)
     r.slot ≠ 0 ∧ r.consumer = 3 ∧ r.producer = 1 ∧ (r.head - r.tail).toNat = 3 ∧ 3 < 4 ∧ ¬ 3 < 3) ∧
    ((vmem (.vadv 5 1) 4).core 0).vaultDue = false ∧
    (((vmem (.vadv 5 1) 4).updCtx 0 2 fun x => { x with st := .wait, hold := .load 5 true [.due (vaultLoc 0 7) .l1 none] }).core 0).vaultDue =
      true ∧
    (vget (base.aset 0).ring (1 : HReg)).slot = 0 ∧
    (let s := (vmem (.vpub 5 1) 1).updCore 0 fun k => { k with sb := [sv 1 0x40 8], seq := 1 }
     sv 1 0x40 8 ∈ (s.core 0).sb ∧ isVault (vaultLoc 0 0x40) = true ∧ ((s.core 0).sb.Pairwise fun y z => y.seq < z.seq)) := by
  decide +kernel

/-! ### Tokens and occultation -/

/-- A set whose page tables map the two pages from 0 to frames at 0x600000 and 0x800000, and a context that walks them. -/
def walking (va len : W64) (r : BitVec 4) (ms : Bool := false) : State :=
  let s := ((base.updMe fun x => { x with hold := .walk 2 va len r ms, st := .wait }).updMySet fun t => { t with root := 0x10000 })
  wn (wn (wn (wn { s with oracle := [3] } 0x10000 8 0x11001) 0x11000 8 0x12001) 0x12000 8 0x60003F) 0x12008 8 0x80003F

/-- A walk to the end of the second page, one past it, and the ends of the conditions on trnp. -/
theorem witness_tokens_made :
    base.walks 0 < 4096 ∧
    (let s := base.updMe fun x => { x with hold := .walker, st := .wait }
     (s.ctx 0 1).hold = .walker ∧ s.walks 0 < 4096) ∧
    (let s := walking 0x10000 0x3F0000 1
     (s.ctx 0 1).hold = .walk 2 0x10000 0x3F0000 1 false ∧
     s.walkExtent 0 (s.aset 0).root.toNat 0 0x400000 1 false = .frames [0x600000, 0x800000] false ∧
     (3 : BitVec 20).toNat = s.choose.1 % 2 ^ 20 ∧ (s.pin 0 3).state = .free ∧ (s.pin 0 3).gen ≠ 0xFFF ∧
     (s.die 0).pool + ({ frames := [0x600000, 0x800000], lenm1 := 0x3FFFFF } : Pin).poolBytes ≤ 2 ^ 29 ∧
     (vget (s.aset 0).k (2 : KReg)).names 3 (s.pin 0 3).gen = false) ∧
    (let s := walking 0 0x400001 1
     s.walkExtent 0 (s.aset 0).root.toNat 0 0x400001 1 false = .trap .tnm 0x400000 ∧ (s.core 0).rec_ = none ∧
     s.checkTarget 0 1 (s.ctx 0 1).tvec = .ok) ∧
    (let s : State := { sup.updMe (fun x => { x with x := x.x.set 5 (2 ^ 40) |>.set 6 (BitVec.ofNat 64 (2 ^ 21)) }) with oracle := [3] }
     s.me.sup = true ∧ s.rx 5 ≠ 0 ∧ (s.rx 5).toNat ≤ 2 ^ 40 ∧ (s.rx 6).toNat % 2 ^ 21 = 0 ∧ (s.die 0).pool + 8 * 2 ^ 19 ≤ 2 ^ 29) := by
  decide +kernel

/-- A set whose tables have a host leaf, over a sub-table of two frames. -/
def walkingHost (len : W64) : State :=
  wn (wn (wn (walking 0 len 1) 0x12000 8 0x130BF) 0x13000 8 0x70001) 0x13008 8 0x90001

/-- The page tables of `walking`: pages 0 and 1 are mapped, and page 2 is not. -/
theorem page_mapped : (∀ va ∈ [0, 2 ^ 21], isMapped (walking 0 0x400001 1) 0 0x10000 va) ∧
    ¬ isMapped (walking 0 0x400001 1) 0 0x10000 (2 ^ 22) ∧ isMapped (walkingHost 0x30000) 0 0x10000 0 := by
  simp only [isMapped, tableWords]; decide +kernel

/-- Two frames of a host page are mapped, and the third is not. -/
theorem frame_mapped : hostMapped (hostEntry (walkingHost 0x30000) 0 0x10000 0) ∧
    hostMapped (hostEntry (walkingHost 0x30000) 0 0x10000 (2 ^ 16)) ∧ ¬ hostMapped (hostEntry (walkingHost 0x30000) 0 0x10000 (2 ^ 17)) := by
  simp only [hostMapped]; decide +kernel

/-- Lengths of 0 and past the address space; an address off 64 KiB and off its page; a leaf without `ms`; a leaf with every right;
labels that no clearance set clears; a list pool with no room, and an event log. -/
theorem witness_page_walks :
    (let s := walking 0 0 1
     (s.ctx 0 1).hold = .walk 2 0 0 1 false ∧ (s.core 0).rec_ = none ∧ s.checkTarget 0 1 (s.ctx 0 1).tvec = .ok ∧
     (s.aset 0).root.toNat = 0x10000) ∧
    2 ^ 48 < (0xFFFFFFFF0000 : W64).toNat + (0x10001 : W64).toNat ∧ (0x8000 : W64).toNat % 2 ^ 16 ≠ 0 ∧
    ((0x10000 : W64).toNat % 2 ^ 16 = 0 ∧ (0x10000 : W64).toNat % 2 ^ 21 ≠ 0) ∧
    (let s := walking 0 0x400000 1 true
     bitsOf (leafOf s 0 0x10000 0) 7 7 = 0 ∧ bitsOf (leafOf s 0 0x10000 0) 6 6 = 0 ∧
     ∀ j : Fin 4, (leafOf s 0 0x10000 0).testBit (2 + j) = true ∧ (leafOf s 0 0x10000 (2 ^ 21)).testBit (2 + j) = true) ∧
    bitsOf (leafOf (walkingHost 0x30000) 0 0x10000 0) 7 7 = 1 ∧
    (let s := walking 0 0x400000 1
     (3 : BitVec 20).toNat = s.choose.1 % 2 ^ 20 ∧ (s.pin 0 3).state = .free ∧ (s.pin 0 3).gen ≠ 0xFFF ∧
     (s.die 0).pool + 8 * 2 + (0x400000 + 2 ^ 19 - 1) / 2 ^ 19 ≤ 2 ^ 29 ∧ (vget (s.aset 0).k (2 : KReg)).names 3 (s.pin 0 3).gen = false ∧
     bitsOf (s.dieRead 0 ((s.ctx 0 1).clrptr.toNat + 0) 1) 0 0 = 0 ∧ s.MemOk) ∧
    ¬ 2 ^ 29 + 8 * 2 ≤ 2 ^ 29 ∧
    (let s := wn (wn ((walking 0 0x400000 1).updMe fun x => { x with evptr := 0x300000 }) 0x300000 8 0x2F0000) 0x300008 4 4
     let a := podAddr s 0 (s.ctx 0 1).evptr.toNat
     s.readNat (a + 8) 4 = 4 ∧ s.readNat a 8 % 32 = 0 ∧ s.readNat a 8 + 512 ≤ (s.ctx 0 1).evptr.toNat ∧
     (s.ctx 0 1).evptr.toNat + 64 ≤ 0x1FC0000000) := by decide +kernel

/-- A Pin Table of which every entry is LIVE. -/
theorem all_live : ∀ (n : Nat) (m : List Nat), n ∈ m → fget (m.map fun i => (i, livePin)) n = some livePin
  | _, [], h => by simp at h
  | n, k :: m, h => by
    simp only [List.map_cons, fget]
    split
    · rfl
    · exact all_live n m ((List.mem_cons.mp h).resolve_left fun e => absurd e.symm ‹_›)

/-- The state of `walking`, with every entry of the die LIVE. -/
def fullTable : State := { walking 0 0x200000 1 with
  dies := base.dies.set 0 { pins := (1 :: 2 :: List.range (2 ^ 20)).map fun i => (i, livePin) } }

/-- No entry of the die is FREE and unsealed, at the end of a walk of one page that is mapped with right R. -/
theorem witness_no_entry : let s := fullTable
    (s.ctx 0 1).hold = .walk 2 0 0x200000 1 false ∧ (s.core 0).rec_ = none ∧ s.checkTarget 0 1 (s.ctx 0 1).tvec = .ok ∧
    (s.aset 0).root.toNat = 0x10000 ∧ isMapped s 0 0x10000 0 ∧ bitsOf (leafOf s 0 0x10000 0) 7 7 = 0 ∧
    (leafOf s 0 0x10000 0).testBit 2 = true ∧ ∀ k : BitVec 20, (s.pin 0 k).state ≠ .free := by
  refine ⟨by decide +kernel, by decide +kernel, by decide +kernel, by decide +kernel, ?_, by decide +kernel, by decide +kernel, fun k => ?_⟩
  · simp only [isMapped, tableWords]; decide +kernel
  · have e : fget ((1 :: 2 :: List.range (2 ^ 20)).map fun i => (i, livePin)) k.toNat = some livePin :=
      all_live _ _ (List.mem_cons_of_mem _ (List.mem_cons_of_mem _ (List.mem_range.mpr k.isLt)))
    have d : fullTable.die 0 = { pins := (1 :: 2 :: List.range (2 ^ 20)).map fun i => (i, livePin) } := rfl
    show (fullTable.pin 0 k).state ≠ .free
    unfold State.pin
    rw [d, e]
    decide

/-- More walking contexts than a die has: the clause of the walker's limit holds in states that no run reaches. -/
def walkers : State :=
  let x : Ctx := { st := .wait, hold := .walk 2 0 1 1 false }
  { base with cores := (0, base.core 0) :: (List.range 1366).map fun i =>
      (1 + i % 127, { set := #v[{ ctx := Vector.replicate 3 x }, { sid := 1 }] }) }

theorem witness_walker_full : 4096 ≤ walkers.walks (walkers.curCore / 128) := by decide +kernel

/-- The states of the entry that x5 names. -/
def occ (p : Pin) : State := pinned p (sup.updMe fun x => { x with x := x.x.set 5 1 })

theorem witness_occultation :
    (∀ p ∈ [livePin, { livePin with holders := 1 }, { livePin with inflight := 1 }, { livePin with state := .ebb, probes := 1 },
        { livePin with state := .occulted, holders := 1 }, {}],
      (occ p).me.sup = true ∧ ((occ p).core (occ p).curCore).sb = [] ∧ ((occ p).rx 5).toNat = (1 : BitVec 20).toNat ∧
      (occ p).pin 0 1 = p ∧ (occ p).recording = none ∧ (occ p).rx 10 = 0 ∧
      ((occ p).die 0).pool - p.poolBytes + 8 * p.frames.length ≤ 2 ^ 29) ∧
    -- the last list and the last bitmap of HBM, with the first granule denied; a pool with room for the frames alone
    (let p := { livePin with state := .occulted }
     let s := wn (occ p) 0x1FBFFFFFF8 8 0x400001
     0x1FBFFFFFF8 + 8 * p.frames.length = 0x1FC0000000 ∧ 0x1FBFFFFFF8 + p.lenm1.toNat / 2 ^ 19 < 0x1FC0000000 ∧ p.lenm1.toNat / 2 ^ 19 = 1 ∧
     (s.mem.get (podAddr s 0 (0x1FBFFFFFF8 + 0 / 8))).getLsbD 0 = true ∧ (s.mem.get (podAddr s 0 (0x1FBFFFFFF8 + 5 / 8))).getLsbD 5 = false ∧
     (s.die 0).pool - p.poolBytes + (8 * 1 + (p.lenm1.toNat / 2 ^ 16 + 8) / 8) ≤ 2 ^ 29 ∧
     2 ^ 29 < ((s.updDie 0 fun d => { d with pool := 2 ^ 29 + 8 }).die 0).pool - p.poolBytes + (8 * 1 + 2)) ∧
    2 ^ 20 ≤ ((sup.updMe fun x => { x with x := x.x.set 5 0x100000 }).rx 5).toNat := by decide +kernel

theorem witness_occultation_events :
    (let s := occ { livePin with state := .ebb, probes := 1, holders := 1 }
     (s.pin 0 1).state = .ebb ∧ (s.pin 0 1).probes.getLsbD 0 = true ∧ s.monitors = [] ∧
     ((s.core 0).sb.all fun y => y.pte != some 1) = true) ∧
    -- a line of the entry with owned words, one without, and one of another
    (let p := { livePin with state := .ebb, probes := 1, holders := 1 }
     p.ownsLine (0x200040 / 64) = true ∧ p.ownsLine (0x3FFFC0 / 64) = true ∧ p.ownsLine (0x400000 / 64) = false) ∧
    (let s := (occ { livePin with state := .ebb, probes := 1 }).updCore 0 fun k => { k with sb := [sh 1 0x200040 8 false] }
     sh 1 0x200040 8 false ∈ (s.core 0).sb ∧ (sh 1 0x200040 8 false).pte = some 1 ∧
     ((s.core 0).sb.Pairwise fun a b => a.seq < b.seq)) ∧
    (∀ p ∈ [{ livePin with state := .ebb, inflight := 1 }, { livePin with inflight := 1, holders := 1 }, { livePin with inflight := 2 },
        { livePin with inflight := 1 }],
      ({ occ p with performed := [(0, 1)] } : State).performed[0]? = some (0, 1)) ∧
    (let s := (occ livePin).updMe fun x => { x with hold := .stall 1, st := .wait }
     (s.ctx 0 1).hold = .stall 1 ∧ (s.pin 0 1).state = .live ∧ s.expired 0 1 (s.ctx 0 1).occtmo = false) ∧
    (let s : State := { (occ { livePin with state := .occulted }).updMe (fun x => { x with hold := .stall 1, st := .wait }) with clk := 0x100000 }
     s.expired 0 1 (s.ctx 0 1).occtmo = true ∧ (s.ctx 0 1).hold = .stall 1 ∧ (s.pin 0 1).state = .occulted) ∧
    (let y : EngStall := { src := .vec, ctx := 1, pte := 1, count := 0xFFFFF }
     let s : State := { (occ { livePin with state := .ebb, probes := 1 }).updMySet (fun t => { t with engStalls := [y] }) with clk := 1 }
     StallSrc.vec ≠ .ctx ∧ (s.aset 0).engStalls = [] ++ y :: [] ∧ (s.pin 0 1).state = .ebb ∧ (s.ctx 0 1).occtmo ≠ 0 ∧
     (s.ctx 0 1).occtmo.toNat ≤ y.count + (s.clk - y.mark)) ∧
    (let s : State := { base.updMe (fun x => { x with hold := .occWait (.pret 5) 1 0, st := .wait }) with clk := 0x100000 }
     (s.ctx 0 1).hold = .occWait (.pret 5) 1 0 ∧ s.expired 0 1 (s.ctx 0 1).occtmo = true ∧ s.sbDone 0 0 = true) := by decide +kernel

/-! ### Waits and traps -/

/-- A context whose wait has reached wdog. -/
def waited (h : Hold) : State := { base.updMe (fun x => { x with hold := h, st := .wait }) with clk := 0x1000000 }

theorem witness_waits_end_in_traps :
    (∀ h ∈ [Hold.queueFull .vec .mgo, .queueFull .job .mgo, .ring true 15 0, .twait .tlv 0, .twait .tlg 0, .barrier true .core 7 0,
        .vector 0 .mgo, .result 4 0 0, .buffer, .drain 0 true], (waited h).expired 0 1 ((waited h).ctx 0 1).wdog = true ∧
      ((waited h).core 0).rec_ = none ∧ (waited h).checkTarget 0 1 ((waited h).ctx 0 1).tvec = .ok ∧ ((waited h).ctx 0 1).hold = h) ∧
    (((waited .tag).ctx 0 1).hold = .tag ∧ ((waited .tag).die 0).tags.length < 4096) ∧
    (∀ p ∈ [({ withdraw := some 3 } : Pend), { overrun := some 0xFFFFF }, { host := [63] }, { timer := true }],
      let s := base.updMe fun x => { x with pend := p }
      (s.ctx 0 1).st = .run ∧ (s.ctx 0 1).hold = .none ∧ (s.ctx 0 1).seek = false ∧ (s.ctx 0 1).sup = false ∧ (s.ctx 0 1).pend = p ∧
      (s.ctx 0 1).entering = false ∧ (s.aset 0).leaving = false) ∧
    (let s := base.updMe fun x => { x with sup := true, tstat := 2, seek := true, pend := { timer := true } }
     s.nextLane 0 1 (s.ctx 0 1).pc = .lane 8 ∧ (s.ctx 0 1).tstat.getLsbD 1 = true) ∧
    (let s := base.updMe fun x => { x with sup := true, pend := { timer := true } }
     ¬ ((s.ctx 0 1).sup = false ∨ (s.ctx 0 1).tstat.getLsbD 1 = true)) := by decide +kernel

/-! ### Atomics, fences, timelines, barriers, monitors and rings -/

theorem witness_atomics_issue :
    let s := base.updMe fun x => { x with x := x.x.set 10 0x2000000000000048 |>.set 11 0x44 }
    (∀ t ∈ (s.core s.curCore).allSets, t.vprog.writes = []) ∧
    s.atomAt (s.rx 5) 4 4 ByteFail.bothBits = .loc (vaultLoc 0 0x40) none ∧
    s.atomAt (s.rx 5) 8 2 ByteFail.writeBit = .loc (vaultLoc 0 0x40) none ∧
    s.atomAt (s.rx 10) 8 4 ByteFail.bothBits = .loc 0x200048 (some tok) ∧ (s.rx 11).toNat % 8 ≠ 0 ∧
    (0x1FFFF8 : W64).toNat % 8 = 0 ∧ (0x1FFFF8 : W64).toNat < 2 ^ 21 := by decide +kernel

/-- An operation of core 0 under number 4. -/
def op (i : Instr) (size : Nat) (f : HomeOp → HomeOp := id) : State :=
  { base with ops := [(4, f { core := 0, sid := 0, ctx := 1, instr := i, seq := 1, posted := false, loc := vaultLoc 0 0x40
                              size := size, v := 5 })] }

/-- Each kind of operation is ready, with its ticket where it is .sc; one takes a ticket of each sequencer; replies. -/
theorem witness_atomics_perform :
    (∀ s ∈ [op (.amo .add .w .rlx .die 5 6 7) 4, op (.amo .add .f .rlx .die 5 6 7) 4, op (.amo .add .h2 .acq .pkg 5 6 7) 4, op (.amo .min .d .sc .pod 5 6 7) 8 fun o => { o with ticket := some (.pod, 0) },
        op (.cas false .acq .die 5 6 7 8) 4, op (.cas true .acq .die 5 6 7 8) 8,
        op (.stf 5 6 7) 8 fun o => { o with flag := some (vaultLoc 0 0x80), posted := true },
        op (.stf 5 6 7) 8 fun o => { o with flag := some (vaultLoc 0 0x80), onFlag := true, posted := true }],
      ∀ o ∈ (fget s.ops 4).toList, o.pos = .waiting ∧ s.covered o = true ∧ s.inOrder 4 o = true ∧ s.ticketTurn 4 o = true ∧
        s.addrFate 0 o.loc {} = .ok ∧ s.remote 0 o.loc = false ∧ s.pinned (o.loc / 64) = false ∧ s.mpois = [] ∧ o.poison = false ∧ s.MemOk ∧
        o.pte = none ∧ o.host = false) ∧
    (∀ s ∈ [op (.amo .add .d .sc .core 5 6 7) 8, op (.amo .add .d .sc .pkg 5 6 7) 8, op (.amo .add .d .sc .pod 5 6 7) 8],
      ∀ o ∈ (fget s.ops 4).toList, o.pos = .waiting ∧ o.ticket = none ∧ o.order.1 = .sc ∧ s.covered o = true ∧
        s.sequencerOk o = true) ∧
    (let s := (op (.amo .add .d .acq .die 5 6 7) 8 fun o => { o with pos := .done 1 0 true }).updMe fun x => { x with hold := .reply 4 }
     (s.reqs.all fun e => e.2.what != .op 4 || e.2.dropped) = true ∧ (s.aset 0).sid = 0 ∧ (s.ctx 0 1).hold = .reply 4) := by
  decide +kernel

/-- A core with a store on its way, that reached number 1. -/
def storing (s : State := base) : State := s.updCore 0 fun k => { k with sb := [sh 1 0x200040 8 false], seq := 1 }

/-- Timelines whose issue counts are 8 and completed counts 3. -/
def timed (s : State := base) : State := s.updMySet fun t => { t with tl := Vector.replicate 5 { issued := 8, done := 3 } }

theorem witness_fences_and_timelines :
    base.storesDone 0 (base.core 0).seq = true ∧ (storing.storesDone 0 (storing.core 0).seq = false) ∧
    (let s := base.updMe fun x => { x with hold := .fence .pkg 5 0, st := .wait }
     (s.ctx 0 1).hold = .fence .pkg 5 0 ∧ s.storesDone 0 0 = true) ∧
    storing.sbDone 0 (storing.core 0).seq = false ∧ (base.core 0).sb = [] ∧ (base.ro.map Prod.fst).Nodup ∧
    (timed.rx 6).toNat ≤ ((timed.aset 0).time .tls).done ∧ ((timed.aset 0).time .tlc).done < (timed.rx 5).toNat ∧
    (let s := timed (base.updMe fun x => { x with peels := [3, 4], hold := .twait .tlc 3, st := .wait })
     (s.rx 6).toNat ≤ ((s.aset 0).time .tlc).done ∧ 3 ∈ (s.ctx 0 1).peels ∧ (∀ j ∈ (s.ctx 0 1).peels, 3 ≤ j) ∧
     s.checkTarget 0 1 (s.ctx 0 1).tvec = .ok ∧ (s.ctx 0 1).hold = .twait .tlc 3 ∧ s.expired 0 1 (s.ctx 0 1).wdog = false) ∧
    (let s := timed (base.updMe fun x => { x with peels := [4] }); ∀ k ∈ (s.ctx 0 1).peels, 3 < k) := by decide +kernel

/-- A CONC set whose context has arrived for phase 1 of die barrier 2, of which phase 0 has completed or not. -/
def conc (phase : W32) (q : W32) (pend : BitVec 40) : State :=
  { (base.updMe fun x => { x with arrive := nset x.arrive (barIdx .die 2) q, barPend := pend }).updMySet fun t => { t with cls := 2 } with
    bars := [{ card := 1, sc := .die, member := 0, b := 2, phase := phase, cur := 1, next := 1 }]
    cards := [(1, { die := 0, queue := 0, pos := 0, words := (Vector.replicate 32 0).set 3 4 |>.set 4 8, st := .run, preds := 0
                    prio := 0, cores := [0], sids := [0], bound := 1 })] }

/-- An arrival for the phase in progress and for the next. -/
def arriving (q : W32) : State := { conc 5 5 0 with
  arrivals := [{ card := 1, sc := .die, member := 0, b := 2, q := q, core := 0, sid := 0, ctx := 1, after := 0 }] }

theorem witness_barriers :
    Scope.die ≠ .lane ∧ (conc 5 5 0).mySet.cls = 2 ∧ base.mySet.cls ≠ 2 ∧ (base.core 0).rec_ = none ∧ base.me.hold = .none ∧
    base.checkTarget 0 1 base.me.tvec = .ok ∧ encode (.barAw .die 2 5) ≠ none ∧
    0 < (((conc 0 0 0).barrier 1 .die 0 2).phase - 0xFFFFFFFF : W32).toInt ∧
    ¬ 0 < (((conc 0 0 0).barrier 1 .die 0 2).phase - 0 : W32).toInt ∧
    (conc 5 5 0).me.barPend.getLsbD (barIdx .die 2).val = false ∧
    (conc 5 5 (1#40 <<< (barIdx .die 2).val)).me.barPend.getLsbD (barIdx .die 2).val = true ∧
    (let i := (arriving 5).barrier 1 .die 0 2
     (arriving 5).arrivals[0]?.map (·.after) = some 0 ∧ i.phase = 5 ∧ i.cur + 1 = (arriving 5).expected 1 .die 0 ∧
     i.next < (arriving 5).expected 1 .die 0 ∧ i.cur < (arriving 6).expected 1 .die 0) ∧
    (let s := (conc 5 5 0).updMe fun x => { x with hold := .barrier true .die 2 4, st := .wait }
     (s.ctx 0 1).hold = .barrier true .die 2 4 ∧ s.expired 0 1 (s.ctx 0 1).wdog = false ∧
     0 < ((s.barrier 1 .die 0 2).phase - 4 : W32).toInt) := by decide +kernel

/-- A sleeper with its monitor. -/
def asleep (hit : Bool) (clk : Nat) : State :=
  { base.updMe (fun x => { x with hold := .waita 5 7 16 0, st := .wait }) with
    monitors := [{ core := 0, sid := 0, ctx := 1, line := 7, hit := hit }], clk := clk }

/-- A ring of four slots of which three are filled. -/
def ringed (s : State := base) : State := s.updMySet fun t => { t with
  ring := t.ring.set 1 { base := 0x1000, slot := 6, count := 2, head := 3 } }

theorem witness_monitors_and_rings :
    (base.recording = none ∧ base.me.marked 5 = false ∧ base.mpois = [] ∧ (base.rx 5).toNat % 8 = 0 ∧ (base.rx 5).toNat < 2 ^ 21 ∧
      base.curCore < 1024 ∧ (base.die (base.curCore / 128)).fenced = false ∧ fget (base.core 0).l1 (vaultLoc 0 0x40 / 64) = none ∧
      base.readNat (vaultLoc 0 0x40) 8 ≠ (base.rx 6).toNat ∧ base.readNat (vaultLoc 0 0x40) 8 = (base.rx 0).toNat ∧
      (base.rx 6).toNat % 8 ≠ 0) ∧
    (∀ hit, ((asleep hit 16).ctx 0 1).hold = .waita 5 7 16 0 ∧
      (asleep hit 16).monitorOf ⟨0, ((asleep hit 16).aset 0).sid, 1⟩ = some { core := 0, sid := 0, ctx := 1, line := 7, hit := hit }) ∧
    -- 63 monitors of the line leave room, 64 do not
    (∀ n ∈ [63, 64], (((List.replicate n ({ core := 3, sid := 0, ctx := 1, line := vaultLoc 0 0x40 / 64 } : Monitor)).filter fun m =>
      m.line == vaultLoc 0 0x40 / 64 && !m.hit && !m.lost).length < 64) = (n = 63)) ∧
    (16 : W64).toNat ≤ (asleep false 16).clk - 0 ∧ ((asleep false 16).core 0).spurAt = none ∧
    (vget base.mySet.ring (1 : HReg)).slot = 0 ∧
    (let s := ringed; let r := vget s.mySet.ring (1 : HReg)
     let filled := (r.head - r.tail).toNat
     r.slot ≠ 0 ∧ 3 < 2 ^ r.count.toNat ∧ ¬ 2 ^ r.count.toNat ≤ 3 ∧ 2 ^ r.count.toNat ≤ 4 ∧ 2 < filled ∧ filled ≤ 3 ∧
     0 < 2 ^ r.count.toNat - filled ∧ 2 ^ r.count.toNat - filled ≤ 1) := by decide +kernel

/-! ### The fabric -/

/-- A location of die 1 and a request of core 0 for it. -/
def farLoc : Nat := 2 ^ 51 + 0x200040

def far (w : ReqWhat) (p : ReqAt) (clk : Nat) (returns : Nat := 0) : State :=
  { base.updCore 0 (fun k => { k with sb := [{ sh 2 farLoc 8 true with req := some 3 }], seq := 2 }) with
    reqs := [(3, { core := 0, sid := 0, ctx := 1, reqtag := 0, what := w, line := farLoc / 64, home := 1, tag := 7, inc := 2, first := 0
                   pos := p, returns := returns })], clk := clk }

/-- The last clk of a young request and the first of an old one; reads, stores with and without sharers. -/
theorem witness_fabric_homes :
    (far (.read 1) .toHome 0xEFFFF).clk - 0 < 2 ^ 20 - 2 ^ 16 ∧ ¬ (far (.read 1) .circuit 0xF0000).clk - 0 < 2 ^ 20 - 2 ^ 16 ∧
    (∀ p ∈ [ReqAt.toHome, .circuit, .home [2] [3], .home [] [2]], ∀ q ∈ (fget (far (.store 2) p 9).reqs 3).toList,
      q.dropped = false ∧ q.pos = p) ∧
    (let s := far (.store 2) .circuit 9; let e : StoreEnt := { sh 2 farLoc 8 true with req := some 3 }
     (s.core 0).sb.find? (fun y => y.seq = 2) = some e ∧ e.poison = false ∧ e.bits = [] ∧ e.marks = [] ∧ s.mpois = [] ∧ s.MemOk ∧
     (e.bytes.Pairwise fun x y => x.1 ≠ y.1) ∧ s.pinned (farLoc / 64) = false ∧
     ({ s with cores := (3, { xfers := [{ key := .step, sid := 0, lines := [{ line := farLoc / 64, write := false, req := 0, pin := true, data := some { data := 0 } }] }] }) :: s.cores } : State).pinned
       (farLoc / 64) = true ∧ s.toInvalidate (farLoc / 64) = [] ∧
     ({ s with sharers := [(farLoc / 64, { bits := 4 })] } : State).toInvalidate (farLoc / 64) ≠ [] ∧
     ((s.die 2).l2.map Prod.fst).Nodup) := by decide +kernel

theorem witness_fabric_senders :
    (∀ q ∈ (fget (far (.store 2) .returning 9 7).reqs 3).toList, q.dropped = false ∧ q.pos = .returning ∧ q.returns < 8 ∧
      q.what = .store 2 ∧ q.sid = (base.aset 0).sid) ∧
    (∀ q ∈ (fget (far (.store 2) .returning 9 8).reqs 3).toList, 8 ≤ q.returns) ∧
    ((far (.store 2) .returning 9 8).reqs.map Prod.fst).Nodup ∧
    min 8192 (64 * 2 ^ (1 - 1)) ≤ (far (.store 2) (.backoff 0) 64 1).clk - 0 ∧
    min 8192 (64 * 2 ^ (8 - 1)) ≤ (far (.store 2) (.backoff 0) 8192 8).clk - 0 ∧
    ((far (.store 2) (.backoff 0) 64 1).routeOf 0 1 farLoc).isSome = true ∧
    -- die 1 is reached the other way round when its link is dead, and not at all when it is fenced
    (({ far (.store 2) (.backoff 0) 64 1 with linkDown := [.ring 0] } : State).routeOf 0 1 farLoc).isSome = true ∧
    ({ far (.store 2) (.backoff 0) 64 1 with linkDown := [.ring 0] } : State).routeOf 0 1 farLoc ≠ (far (.store 2) (.backoff 0) 64 1).routeOf 0 1 farLoc ∧
    ({ far (.store 2) (.backoff 0) 64 1 with dies := base.dies.set 1 { fenced := true } } : State).routeOf 0 1 farLoc = none ∧
    ReqAt.toHome ≠ .held ∧
    2 ^ 20 ≤ (far (.store 2) .toHome 0x100000).clk - 0 ∧
    (let s := (far (.read 0) (.reply (some { data := 0 })) 9).updMe fun x => { x with
        hold := .load 5 true ((List.range 8).map fun i => .req 3 (56 + i)), st := .wait }
     (s.ctx 0 1).hold = .load 5 true ((List.range 8).map fun i => .req 3 (56 + i))) ∧
    (base.die 0).fenced = false ∧ base.reqs = [] ∧ base.linkDown.contains (.ring 0) = false := by decide +kernel

/-! ### Streams, matrices and collation -/

/-- A stream command at the head of context C's queue, with a ring whose producer is the stream engine in handle 1. -/
def streams (e : Entry) : State :=
  (wn (wn (wn (ringed base) (vaultLoc 0 0x808) 1 2) (vaultLoc 0 0x810) 8 0x300000004) (vaultLoc 0 0x818) 8 0x100000001).updMySet fun t =>
    { t with sq := t.sq.set 1 [e] }

/-- A copy of context C of which issued bytes are issued, with a granule under way or none. -/
def copying (issued : Nat) (fl : List Granule) : State := base.updMySet fun t => { t with
  sptr := 1, srun := t.srun.set 1 [{ e := ent (.scopy 5 6 7) 5 0x40 0x400, total := 600, issued := issued, flying := fl }] }

/-- What the statements ask of a granule that is performed on the core's die. -/
abbrev granuleAt (s : State) (r : StreamRun) (gr : Granule) (ls ld : List Nat) : Prop :=
  gr.src = ls.map ByteRef.home ∧ gr.dst = ld.map ByteRef.home ∧ ls.length = ld.length ∧ ld.Nodup ∧ ld ≠ [] ∧
  (∀ l ∈ ls ++ ld, ∀ a ∈ [l, l / 64 * 64], (region a = .hbm ∨ isVault a = true) ∧
    ∀ v ∈ [s.srcVia 0 r.e, s.dstVia 0 r.e], s.addrFate 0 a v = .ok ∧ s.remote 0 a v = false) ∧
  (∀ l ∈ ld, s.pinned (l / 64) = false) ∧
  s.mpois = [] ∧ s.MemOk ∧ s.oracle = [] ∧ (s.core 0).xfer (s.aset 0).sid (.granule gr.id) = none

/-- The rings at both ends of what rset accepts, a hint without a token, the longest copy; a granule at the edge of its
256 bytes, and one that is performed. -/
theorem witness_streams :
    (∀ e ∈ [ent (.rset 2 5) 5 (BitVec.ofNat 64 (6 * 2 ^ 21 + 1 * 2 ^ 25)), ent (.rset 2 5) 5 (BitVec.ofNat 64 (11 * 2 ^ 21 + 10 * 2 ^ 25 + 2 ^ 32 + 2 ^ 31)),
        ent (.shint .ro 5 6) 5 0x2000000000000000, ent (.scopy 5 6 7) 5 0 0 (2 ^ 40)],
      nget ((streams e).aset 0).sq 1 = [e] ∧ ((nget ((streams e).aset 0).srun 1).all StreamRun.issuedAll) = true ∧
      ((streams e).aset 0).streamBlocked e = false ∧ ((streams e).aset 0).leaving = false) ∧
    (let v := 11 * 2 ^ 21 + 10 * 2 ^ 25 + 2 ^ 32 + 2 ^ 31
     v < 2 ^ 33 ∧ 6 ≤ v / 2 ^ 21 % 16 ∧ v / 2 ^ 21 % 16 ≤ 11 ∧ 1 ≤ v / 2 ^ 25 % 16 ∧ v / 2 ^ 25 % 16 ≤ 10 ∧ v / 2 ^ 31 ≠ 2 ∧
     v % 2 ^ 21 % 2 ^ 11 = 0 ∧ v % 2 ^ 21 + 2 ^ 11 * 2 ^ 10 ≤ 2 ^ 21) ∧
    base.eptr 0 0x2000000000000000 none = .stray ∧ (2 ^ 40 : W64).toNat ≤ 2 ^ 40 ∧
    (let s := copying 0 []
     (nget (s.aset 0).srun 1).find? (fun r => !r.issuedAll) ≠ none ∧ (s.aset 0).sptr = 1 ∧ (s.aset 0).leaving = false ∧ s.eptr 0 0x40 none = .vault 0 0x40 ∧
     s.eptr 0 0x400 none = .vault 0 0x400) ∧
    (let n : Granule := { id := 4, start := 0, src := [.home (vaultLoc 0 0x400)], dst := [.home (vaultLoc 0 0x40)], ptes := [] }
     (nget ((copying 600 [n]).aset 0).srun 1).find? (fun r => r.flying.any fun f => f.id = 4) ≠ none ∧
     n.src = [vaultLoc 0 0x400].map ByteRef.home ∧ n.dst = [vaultLoc 0 0x40].map ByteRef.home ∧ isVault (vaultLoc 0 0x40) = true ∧
     (∀ r ∈ nget ((copying 600 [n]).aset 0).srun 1, granuleAt (copying 600 [n]) r n [vaultLoc 0 0x400] [vaultLoc 0 0x40] ∧ r.cut = false) ∧
     (∀ r ∈ nget ((copying 600 [n]).aset 0).srun 1, { r with cut := true }.cut = true)) := by decide +kernel

/-- A command on ring 1, of slots of 64 bytes, that has issued 64 of 100 bytes and published as many slots as given. -/
def ringing (i : Instr) (x0 : W64) (slots issued : Nat) (fl : List Granule) (head : W32 := 3) : State := base.updMySet fun t => { t with
  sptr := 1, ring := t.ring.set 1 { base := 0x1000, slot := 6, count := 2, head := head }
  srun := t.srun.set 1 [{ e := { ent i 5 x0 0x800 with k0 := some tok }, pat := { esize := 2, c0 := 25, c1 := 1, c2 := 1, c3 := 1, s0 := 4 }
                          total := 100, issued := issued, slots := slots, flying := fl }] }

/-- Descriptors that are good, misaligned and past the vault, and one of no element; fills and drains with a slot at hand and with none. -/
theorem witness_ring_streams :
    (∀ i ∈ [Instr.sfill 1 5 6, .sdrain 1 5 6], ∀ x1 ∈ [0x800, 0x801, 0x200000, 0x900],
      let e := ent i 5 0x40 (BitVec.ofNat 64 x1)
      nget ((streams e).aset 0).sq 1 = [e] ∧ ((nget ((streams e).aset 0).srun 1).all StreamRun.issuedAll) = true ∧
      ((streams e).aset 0).streamBlocked e = false ∧ ((streams e).aset 0).leaving = false ∧ (vget ((streams e).aset 0).ring (1 : HReg)).unset = false ∧
      (vget ((streams e).aset 0).ring (1 : HReg)).producer = 0 ∧ (vget ((streams e).aset 0).ring (1 : HReg)).consumer = 0) ∧
    (let s := streams (ent .mgo)
     0 < patBytes s 0 0x800 ∧ patBytes s 0 0x900 = 0 ∧ (0x801 : W64).toNat % 64 ≠ 0 ∧ 2 ^ 21 ≤ (0x200000 : W64).toNat ∧
     patField s 0 0x800 8 1 ≤ 6 ∧ patField s 0 0x800 9 7 = 0 ∧ patField s 0 0x800 48 8 = 0 ∧ patField s 0 0x800 56 8 = 0) ∧
    (∀ x ∈ [(Instr.sfill 1 5 6, (0x2000000000000000 : W64), (2 : W32)), (.sdrain 1 5 6, 0x300, 3)],
      let s := ringing x.1 x.2.1 1 64 [] x.2.2
      (nget (s.aset 0).srun 1).find? (fun r => !r.issuedAll) = (nget (s.aset 0).srun 1).head? ∧ (s.aset 0).sptr = 1 ∧ (s.aset 0).leaving = false ∧
      64 < min (min 100 ((64 / 256 + 1) * 256)) ((1 + 2) * 64)) ∧
    min (min 100 ((64 / 256 + 1) * 256)) ((1 + 0) * 64) ≤ 64 ∧
    (∀ c' : CtxId, c' ≠ 1 → ((nget ((ringing (.sfill 1 5 6) 0 1 64 []).aset 0).srun c').all StreamRun.issuedAll) = true) ∧
    base.eptr 0 0x300 none = .vault 0 0x300 ∧ base.eptr 0 0x2000000000000000 (some tok) = .token .l1 0 tok 0 ∧ base.issueCheck 0 tok = .go ∧
    base.tokenByte 0 tok (readRights 0) 0 = .ok 0x200000 ∧ region 0x200000 = .hbm ∧ base.remote 0 0x200000 = false := by decide +kernel

/-- The last granule of a fill, which pads its second slot. -/
theorem witness_fill_done :
    (let n : Granule := { id := 4, start := 64, src := [.home 0x200040], dst := [.home (vaultLoc 0 0x1040)], ptes := [] }
     let s := ringing (.sfill 1 5 6) 0x2000000000000000 1 100 [n] 1
     (nget (s.aset 0).srun 1).find? (fun r => r.flying.any fun f => f.id = 4) = (nget (s.aset 0).srun 1).head? ∧
     (∀ r ∈ nget (s.aset 0).srun 1, granuleAt s r n [0x200040] [vaultLoc 0 0x1040]) ∧ 1 ≤ (100 + 64 - 1) / 64 ∧ 1 * 64 < 100 ∧ (100 + 64 - 1) / 64 - 1 ≤ 4 - 1 ∧
     ∀ i ∈ List.range (2 * 64 - 100), vaultLoc 0 (0x1000 + (100 + i) / 64 % 4 * 64 + (100 + i) % 64) ≠ vaultLoc 0 0x1040) := by decide +kernel

/-- A bank of one step whose operand A lies behind a token. -/
def stepBank : Bank := { bank with f := bank.f.set 0 0x2000000000000000, cap := bank.cap.set 0 (some tok) }

/-- Matrix entries at the head of their queue, with tile 1 FULL. -/
def matq (i : Instr) (b : Bank := bank) : State :=
  (mat fun t => { t with mq := [ent i 5], filling := b, tile := t.tile.set 1 { st := .full } }).updMe fun x =>
    { x with hold := .result 0 5 5, st := .wait }

theorem witness_matrices :
    (∀ i ∈ [Instr.mcfg 3 5, .mcfg 4 5, .mrnd .rup, .mzero 2, .mdrain 1 .add 5 5, .mchk 5],
      ((matq i).aset 0).mq = [ent i 5] ∧ ((matq i).aset 0).matHeld = false) ∧
    mcfgFieldOk 3 = true ∧ mcfgFieldOk 4 = true ∧
    (let t := (matq (.mzero 2)).aset 0
     (vget t.tile (2 : AccReg)).st ≠ .busy ∧ (vget t.tile (1 : AccReg)).st = .full ∧
     t.filling.drainType ≠ 7 ∧ t.nests = []) ∧ ((matq (.mchk 5)).ctx 0 1).hold = .result 0 5 5 ∧
    ((matq .mgo).aset 0).running_ = none ∧ bank.invalid = false ∧ (bank.countField 0).toNat % 2 ^ 32 ≠ 0 ∧
    ({ bank with f := bank.f.set 4 (7 * 2 ^ 9) } : Bank).invalid = true ∧
    (let n : Nest := { e := ent .mgo 5, bank := stepBank, total := 1 }
     let s := mat fun t => { t with nests := [n] }
     (s.aset 0).running_ = some n ∧ (s.aset 0).stepReady n = true ∧ n.bank.invalid = false ∧ (ElemTy.ofCode n.bank.typeA).isSome = true ∧
     (ElemTy.ofCode n.bank.typeB).isSome = true ∧ (RMode.ofCode n.mode).isSome = true ∧ (s.die 0).fenced = false ∧ s.mpois = [] ∧
     (s.core 0).xfer (s.aset 0).sid .step = none ∧ s.eptr 0 (n.bank.field 0) (nget n.bank.cap 0) = .token .l1 0 tok 0 ∧
     s.eptr 0 (n.bank.field 1) (nget n.bank.cap 1) = .vault 0 0x800) := by decide +kernel

/-- Both operands of that step. -/
theorem witness_step_operands : HomeOperand base 0 (.token .l1 0 tok 0) ∧ HomeOperand base 0 (.vault 0 0x800) := by
  have h : base.issueCheck 0 tok = .go ∧ tok.host = false ∧ tok.lenm1.toNat / 2 ^ 21 < (base.pin 0 tok.pte).frames.length ∧
      (base.pin 0 tok.pte).frames = [0x200000] ∧ coreDie base 0 = 0 := by decide +kernel
  refine ⟨⟨h.1, h.2.1, h.2.2.1, fun f hf => ?_⟩, trivial⟩
  obtain rfl : f = 0x200000 := by simpa [h.2.2.2.1] using hf
  rw [h.2.2.2.2]; decide

/-- The last row of a drain of a FULL tile to the end of the vault. -/
theorem witness_drain_row :
    let d : DrainJob := { e := ent (.mdrain 1 .add 5 5) 5, nest := false, tile := 1, mode := 1, ty := 2, ptr := 0x1FC000, tok := none
                          off := 0, ld := 256, clamp := 0, row := 63 }
    let s := mat fun t => { t with drains := [d], tile := t.tile.set 1 { st := .busy } }
    (s.aset 0).drains = [d] ∧ d.ring = none ∧ d.mode = 1 ∧ ElemTy.ofCode d.ty = some .f32 ∧ d.row < 64 ∧
    s.eptr 0 d.ptr d.tok = .vault 0 0x1FC000 ∧ (vget (s.aset 0).tile d.tile).pois = 0 ∧ s.mpois = [] ∧ s.MemOk ∧
    (s.die 0).fenced = false ∧ (s.core 0).xfer (s.aset 0).sid (.row d.tile) = none ∧ (s.aset 0).leaving = false ∧
    (∀ b ∈ List.range 256, s.pinned (vaultLoc 0 (0x1FC000 + 63 * 256 + b) / 64) = false) ∧ s.oracle = [] ∧ d.nest = false ∧
    (0 : Int) ≤ (0x1FC000 : Int) + d.off + d.row * d.ld ∧ (0x1FC000 : Int) + d.off + d.row * d.ld + 256 ≤ 2 ^ 21 ∧ d.part = [] := by
  decide +kernel

/-- A set class slot 1 with n = 3, and a command in progress or at the head of the queue. -/
def slot : ClassSlot := { set := true, id := 7, n := 3, round := 2, peerDie := 1, limit := 40 }

def coll (i : Instr) (p : CollPhase) (f : CollRun → CollRun := id) : State := { base.updMySet fun t => { t with
    cls8 := t.cls8.set 1 slot
    crun := some (f { e := { ent i 5 0x2000000000000100 0x2000000000001000 with k0 := some tok, k1 := some tok }, phase := p, since := 60 }) }
  with clk := 100 }

def collq (i : Instr) : State := (base.updMySet fun t => { t with cls8 := t.cls8.set 1 slot, cq := [ent i 5] }).updMe fun x =>
  { x with hold := .result 1 5 5, st := .wait }

/-- Two announcements of dies 0 and 1 that name each other. -/
def pair : State :=
  let s := coll (.clxch 1 5 6) .announced
  { s with
    cores := s.cores ++ [(130, { set := #v[{ sid := 8, cls8 := (Vector.replicate 8 {}).set 1 { slot with peerDie := 0 }
                                             crun := some { e := ent (.clxch 1 5 6) 5, phase := .announced } }, { sid := 9 }] })]
    dies := (s.dies.set 0 { s.die 0 with announced := [(0, 0)] }).set 1 { announced := [(130, 8)] } }

/-- A place for n bytes at a displacement of a pointer, in plain HBM of the die. -/
def placed (s : State) (p : EPtr) (d : Int) (n loc : Nat) : Bool :=
  (s.eptrCheck 0 p == .go) && (match p with | .token _ _ t _ => t.rights == 15 | _ => false) && (List.range n).all fun b =>
    (s.addrFate 0 (loc + b) {} == .ok) && !s.remote 0 (loc + b) && (s.addrFate 0 (64 * ((loc + b) / 64)) {} == .ok) && (s.eptrVia 0 p == {}) && !s.remote 0 (64 * ((loc + b) / 64)) &&
      match s.eptrByte 0 p (fun _ => 0) (fun _ => 0) (d + (b : Int)) with
      | .ok l => l == loc + b
      | .error _ => false

/-- A token with every right lets every access through whose place it has. -/
theorem placed_spot {s : State} {p : EPtr} {d : Int} {n loc : Nat} (h : placed s p d n loc = true) :
    ∀ (need : Nat → BitVec 4) (bit : ByteFail → BitVec 8) (b : Nat), b < n → s.eptrByte 0 p need bit (d + (b : Int)) = .ok (loc + b) := by
  intro need bit b hb
  simp only [placed, Bool.and_eq_true, List.all_eq_true, List.mem_range] at h
  obtain ⟨⟨-, hr⟩, ha⟩ := h
  have hb := (ha b hb).2
  cases p with
  | stray => simp at hr
  | vault g off => simp at hr
  | token path pol t off =>
    have hand : ∀ m : BitVec 4, m &&& 15#4 = m := by decide
    have e : s.tokenByte 0 t (need pol) = s.tokenByte 0 t 0 := by
      funext o; simp [State.tokenByte, show t.rights = 15 by simpa using hr, hand]
    cases hx : s.eptrByte 0 (.token path pol t off) (fun _ => 0) (fun _ => 0) (d + (b : Int)) with
    | error f => rw [hx] at hb; simp at hb
    | ok l =>
      have hl : l = loc + b := by rw [hx] at hb; simpa using hb
      subst hl
      revert hx
      simp only [State.eptrByte, e]
      split
      · simp
      · cases s.tokenByte 0 t 0 ((off : Int) + (d + (b : Int))).toNat with
        | error f => simp
        | ok l => dsimp only; split <;> simp

theorem witness_collations :
    (∀ i ∈ [Instr.clstat 5 1, .clins 2 5 6 7, .clpeel 2 true 5 6 7, .clxch 1 5 6],
      ((collq i).aset 0).crun = none ∧ ((collq i).aset 0).cq = [ent i 5] ∧ ((collq i).aset 0).leaving = false ∧ (collq i).mpois = [] ∧ (collq i).MemOk) ∧
    ((collq (.clstat 5 1)).ctx 0 1).hold = .result 1 5 5 ∧
    (∀ i ∈ [Instr.clins 2 5 6 7, .clpeel 2 true 5 6 7], ∃ o, collOp i = some (2, o) ∧ o ≠ 0 ∧ o ≠ 7) ∧
    (vget (base.aset 0).cls8 (2 : BitVec 3)).set = false ∧ slot.set = true := by
  refine ⟨by decide +kernel, by decide +kernel, ?_, by decide +kernel, by decide +kernel⟩
  intro i h
  simp only [List.mem_cons, List.not_mem_nil, or_false] at h
  rcases h with rfl | rfl
  · exact ⟨2, by decide⟩
  · exact ⟨6, by decide⟩

/-- No engine and no request has a part of an access outstanding. -/
def settled (s : State) : Bool :=
  (s.reqs == []) && s.cores.all fun e => (e.2.xfers == []) && e.2.allSets.all fun t => (t.halfElems 8 == [])

theorem settled_pinned {s : State} (h : settled s = true) (l : Nat) : s.pinned l = false := by
  simp only [settled, Bool.and_eq_true, List.all_eq_true, beq_iff_eq] at h
  simp only [State.pinned, List.any_eq_false]
  intro e he
  rw [(h.2 e he).1]; simp

theorem settled_half {s : State} (h : settled s = true) (locs : List Nat) :
    s.halfRead 8 locs = false ∧ s.halfWritten locs = false := by
  simp only [settled, Bool.and_eq_true, List.all_eq_true, beq_iff_eq] at h
  refine ⟨?_, ?_⟩
  · simp only [State.halfRead, Bool.and_eq_false_iff, List.any_eq_false]
    refine .inr fun e he => ?_
    have z : (e.2.allSets.map (·.halfElems 8)).flatten = [] := by
      rw [List.flatten_eq_nil_iff]
      intro l hl
      obtain ⟨t, ht, rfl⟩ := List.mem_map.mp hl
      exact (h.2 e he).2 t ht
    rw [z, (h.2 e he).1]; simp
  · simp only [State.halfWritten, Bool.or_eq_false_iff, List.any_eq_false]
    refine ⟨fun e he => ?_, fun e he => ?_⟩
    · rw [(h.2 e he).1]; simp
    · rw [h.1] at he; simp at he

/-- A pointer of a captured token of the first MiB at an offset, in HBM of the core's die. -/
def plainTok (s : State) (x : W64) (off : Nat) : Bool :=
  (s.eptr 0 x (some tok) == .token .l1 0 tok off) && (s.pin 0 1 == livePin) && (s.pkgid == 0) && s.reaches 0 0 &&
    (s.issueCheck 0 tok == .go) && settled s

/-- Every byte of such a token has its place, for a read and for a write. -/
theorem plain_spot {s : State} {x : W64} {off d n : Nat} (write : Bool) (h : plainTok s x off = true) (hn : off + d + n ≤ 2 ^ 20) :
    Spot s 0 x (some tok) write d n (0x200000 + off + d) := by
  simp only [plainTok, Bool.and_eq_true, beq_iff_eq] at h
  obtain ⟨⟨⟨⟨⟨he, hp⟩, hk⟩, hr⟩, hi⟩, hz⟩ := h
  have hand : ∀ m : BitVec 4, m &&& 15#4 = m := by decide
  have hp' : s.pin (0 / 128) tok.pte = livePin := hp
  simp only [Spot, he]
  refine ⟨hi, fun b hb => ?_⟩
  refine ⟨by omega, ?_, ?_, fun l hl => ?_⟩
  · have z : (off + d + b) / 2 ^ 21 = 0 := by omega
    simp only [State.tokenByte, hp']
    rw [if_neg (by simp [tok]; omega), if_neg (by simp [tok, hand]), if_neg (by simp [livePin])]
    simp only [show tok.host = false from rfl, Bool.false_eq_true, if_false, z]
    simp only [livePin, List.getD_cons_zero, show (0x200000 : W64).toNat = 0x200000 from rfl]
    congr 1
    omega
  · simp only [region]; rw [if_pos (by omega)]
  · have hl' : l < 2 ^ 22 := by
      simp only [List.mem_cons, List.not_mem_nil, or_false] at hl
      omega
    have hv : isVault l = false := by simp [isVault]; omega
    have hd : locDie s l = 0 := by simp [locDie, hv]; omega
    have hbm : region l = .hbm := by simp only [region]; rw [if_pos (by omega)]
    have hm : s.via 0 (some tok) = {} := by simp only [State.via, hp']; rfl
    have hh : s.homeDie l {} = 0 := by simp [State.homeDie, hd]
    rw [hm]
    exact ⟨by simp [State.remote, hv, hh, coreDie, hk], by simp [State.addrFate, hv, hh, hr, hbm], fun _ => settled_pinned hz _⟩

/-- A command at the head of the queue with its tokens, over sketches whose headers match slot 1 or not. -/
def sketchq (i : Instr) (x2 : W64) (fits : Bool) : State :=
  let s := base.updMySet fun t => { t with
    cls8 := t.cls8.set 1 slot, cq := [{ ent i 5 0x2000000000000100 0x2000000000001000 x2 with k0 := some tok, k1 := some tok }] }
  if fits then wn (wn (wn (wn (wn (wn s 0x200100 2 7) 0x200102 1 3) 0x200104 2 2) 0x201000 2 7) 0x201002 1 3) 0x201004 2 2 else s

/-- The descriptor of a `clset` that is good: the table lies behind k0. -/
def describedq : State := wn (wn (wn (sketchq (.clset 1 5) 0 false) 0x200100 2 7) 0x200102 1 18) 0x200108 8 0x2000000000001000

/-- Commands at the head of the queue with a count of 0, one and too large, and in every phase at the first and the last of their
cells; by `plain_spot` their bytes have places. -/
theorem witness_sketches :
    (∀ i ∈ [Instr.clset 1 5, .clclr 1 5, .clins 1 5 6 7, .cldel 1 5 6 7, .clsub 1 5 6, .clpeel 1 true 5 6 7], ∀ n ∈ [0, 1, 2 ^ 32],
      ∀ fits, let s := sketchq i (BitVec.ofNat 64 n) fits
      (s.aset 0).crun = none ∧ (s.aset 0).cq.length = 1 ∧ (vget (s.aset 0).cls8 (1 : BitVec 3)).set = true ∧ s.mpois = [] ∧ s.MemOk ∧
      (s.core 0).xfer (s.aset 0).sid .cell = none ∧ (s.core 0).collating.length ≤ 1 ∧ s.oracle = [] ∧ (s.aset 0).leaving = false ∧ plainTok s 0x2000000000000100 0x100 = true ∧
      plainTok s 0x2000000000001000 0x1000 = true ∧ (s.readNat 0x200100 2 = slot.id.toNat ↔ fits = true)) ∧
    (let s := describedq
     let d (o m : Nat) : Nat := s.readNat (0x200100 + o) m
     1 ≤ d 0 2 ∧ 2 ≤ d 2 1 ∧ d 2 1 ≤ 18 ∧ d 3 1 ≤ 1 ∧ d 6 2 = 0 ∧ d 16 1 < 32 ∧ d 17 1 < 8 ∧ d 18 2 = 0 ∧ d 24 40 = 0 ∧
     bitsOf (d 8 8) 63 60 = 2 ∧ bitsOf (d 8 8) 59 56 < 4 ∧ bitsOf (d 8 8) 51 48 = 0 ∧ (vget (s.aset 0).k (0 : KReg)).valid = true) ∧
    (∀ x ∈ [(Instr.clset 1 5, CollPhase.insert, 1, 0), (.clclr 1 5, .clear, 1, 0), (.clclr 1 5, .clear, 1, 24), (.clins 1 5 6 7, .insert, 1, 0),
        (.cldel 1 5 6 7, .insert, 2, 3), (.clins 1 5 6 7, .insert, 4, 3), (.cldel 1 5 6 7, .net, 1, 0), (.clsub 1 5 6, .sub, 1, 0),
        (.clsub 1 5 6, .sub, 2, 23), (.clsub 1 5 6, .net, 1, 0), (.clpeel 1 true 5 6 7, .scan, 1, 23), (.clpeel 1 true 5 6 7, .peel, 1, 0),
        (.clpeel 1 false 5 6 7, .peel, 2, 0), (.clpeel 1 true 5 6 7, .peel, 3, 0), (.clpeel 1 true 5 6 7, .peel, 5, 0),
        (.clpeel 1 true 5 6 7, .peel, 6, 0), (.clpeel 1 true 5 6 7, .peel, 7, 0), (.clpeel 1 true 5 6 7, .peel, 9, 0),
        (.clpeel 1 true 5 6 7, .count, 1, 23)],
      let s := coll x.1 x.2.1 fun r => { r with j := x.2.2.1, i := x.2.2.2, q := if x.2.2.2 = 0 then [2] else [] }
      (s.aset 0).crun.isSome = true ∧ s.mpois = [] ∧ s.MemOk ∧ plainTok s 0x2000000000000100 0x100 = true ∧
      plainTok s 0x2000000000001000 0x1000 = true ∧ s.oracle = [] ∧ (s.aset 0).leaving = false ∧
        ∀ r ∈ (s.aset 0).crun.toList, r.mark = false ∧ r.e.instr = x.1 ∧ r.phase = x.2.1 ∧ r.j = x.2.2.1) ∧
    isPure slot 1 = true ∧ isPure slot 2 = false ∧ 0x1000 + 32768 ≤ 2 ^ 20 := by decide +kernel

theorem witness_exchange :
    pair.canPair (0, 0) (130, 8) = true ∧ (pair.die 0).announced = [(0, 0)] ∧ (pair.die (130 / 128)).announced = [(130, 8)] ∧
    (pair.collOf (0, 0)).isSome = true ∧ (pair.collOf (130, 8)).isSome = true ∧
    (∀ r ∈ ((coll (.clxch 1 5 6) .transfer fun r => { r with i := 26, j := 26 }).aset 0).crun.toList,
      r.phase = .transfer ∧ r.i = 2 + 3 * 2 ^ slot.n.toNat ∧ r.j = 2 + 3 * 2 ^ slot.n.toNat) ∧
    (∀ r ∈ (pair.aset 0).crun.toList, r.phase = .announced ∧ (0, 0) ∈ (pair.die 0).announced ∧
      (if slot.limit = 0 then 2 ^ 24 else slot.limit.toNat) ≤ pair.clk - r.since) ∧
    (match pair.collOf (0, 0), pair.collOf (130, 8) with
     | some (ta, ra), some (tb, rb) => (ta.slotOf ra.e.instr).n == (tb.slotOf rb.e.instr).n
     | _, _ => false) = true ∧
    (let s := coll (.clxch 1 5 6) .transfer fun r => { r with j := 5 }
     ∀ r ∈ (s.aset 0).crun.toList, r.partner = none ∧ r.j ≠ 2 + 3 * 2 ^ slot.n.toNat ∧ (s.core 0).xfer (s.aset 0).sid .recv = none) := by
  decide +kernel

/-- The first and the last piece of a buffer that a failed exchange makes zero; by `placed_spot` and `settled_pinned` its bytes have
places. -/
theorem witness_exchange_zero : ∀ i ∈ [0, 25],
    let s := coll (.clxch 1 5 6) .zero fun r => { r with i := i }
    settled s = true ∧ (s.core 0).xfer (s.aset 0).sid .cell = none ∧ (s.core 0).collating.length ≤ 1 ∧ s.oracle = [] ∧
    ∀ r ∈ (s.aset 0).crun.toList, r.phase = .zero ∧ r.i = i ∧ i < 2 + 3 * 2 ^ slot.n.toNat ∧
      placed s (s.collB 0 r.e) (32 * i : Nat) 32 (0x201000 + 32 * i) = true := by decide +kernel

/-! ### Galleys and the job port -/

/-- An entry of a galley of a kind, with fields at bit places (R294). -/
def gent (kind : Nat) (fields : List (Nat × Nat)) : BitVec 128 :=
  BitVec.ofNat 128 (kind * 2 ^ 124 + (fields.map fun p => p.2 * 2 ^ p.1).sum)

/-- vadd.f32 with one operand entry, and mgo. -/
def cmdV : BitVec 128 := gent 3 [(122, 1), (120, 1), (118, 1), (0, 0x00804020)]
def cmdE : BitVec 128 := gent 3 [(122, 1), (120, 2), (0, 0x08400000)]
def opnd : BitVec 128 := gent 4 [(0, 7)]
/-- A wait for a number of a timeline, and a guard that expects slot 0 and 5 to be equal. -/
def waitE (tl n : Nat) : BitVec 128 := gent 5 [(119, tl), (0, n)]
def guardE : BitVec 128 := gent 1 [(120, 0), (117, 0), (115, 1), (0, 5)]

def gal (l : List (BitVec 128)) : Galley := { ent := BitVec.ofNat 128 (2 ^ 93) :: l }

/-- The galley queue has an entry, galley 1 is as given, and context C waits for the result of the entry. -/
def galq (i : Instr) (g : Option Galley) : State :=
  (((timed base).updMySet fun t => { t with gq := [ent i 5 0 0x800] }).updCore 0 fun k =>
    { k with galley := k.galley.set 1 g, gReady := [{ sid := 0, num := 5, g := 3, gal := gal [] }] }).updMe fun x =>
      { x with hold := .result 3 5 5, st := .wait }

/-- A play of C with the entries given and two numbers taken on each timeline. -/
def play (l : List (BitVec 128)) : PlayRun :=
  { num := 8, ctx := 1, rest := l.zipIdx.map fun e => ⟨e.1, e.2, false⟩, base := Vector.replicate 5 3, took := Vector.replicate 5 [2, 3] }

theorem witness_galleys :
    (∀ i ∈ [Instr.gend, .gplay 5 1 6, .gdrop 1, .gstat 5 1], ∀ g ∈ [none, some (gal [])],
      ((galq i g).aset 0).plays = [] ∧ ((galq i g).aset 0).gq = [ent i 5 0 0x800] ∧ (galq i g).mpois = [] ∧ (galq i g).MemOk ∧
      ((galq i g).aset 0).gcheck = none ∧ ((galq i g).core 0).xfer ((galq i g).aset 0).sid .gal = none ∧ (galq i g).oracle = [] ∧ ((galq i g).aset 0).leaving = false ∧
      ((galq i g).ctx 0 1).pend.queues = [] ∧ ((galq i g).die 0).fenced = false ∧
      ((galq i g).core 0).rec_ = none) ∧
    ((galq .gend none).core 0).gReady.find? (fun f => f.sid == 0 && f.num == 5) = some { sid := 0, num := 5, g := 3, gal := gal [] } ∧
    (galq (.gplay 5 1 6) none).eptr 0 0x800 none = .vault 0 0x800 ∧ 0x800 + 128 ≤ 2 ^ 21 ∧
    (galq (.gplay 5 1 6) none).checkTarget 0 1 ((galq (.gplay 5 1 6) none).ctx 0 1).tvec = .ok ∧
    hdrTenant (gal [cmdV, opnd]).hdr = (base.aset 0).tenant ∧ hdrStatus (gal [cmdV, opnd]).hdr = 1 ∧ (gal [cmdV, opnd]).bad = [] ∧
    (gal [cmdV, opnd]).ofKind 1 = [] ∧ (gal [cmdV, opnd]).ofKind 2 = [] ∧ (gal [cmdV, opnd]).ofKind 6 = [] ∧
    (gal [cmdV, opnd, guardE]).ofKind 1 = [(guardE, 3, false)] ∧ guardOk (Vector.replicate 16 0) guardE = false ∧
    ((galq (.gstat 5 1) none).ctx 0 1).hold = .result 3 5 5 ∧ vget ((galq (.gstat 5 1) none).core 0).galley (1 : BitVec 3) = none := by
  decide +kernel

/-- A feed with one operand; waits that reach the second number taken, and the base. -/
theorem witness_plays :
    entKind cmdV = 3 ∧ cmdInstr cmdV = some (.vadd .f32 0 (.vv 1) 0 2) ∧ (engQueue (.vadd .f32 0 (.vv 1) 0 2)).timeline = some .tlv ∧
    (let ops := ((play [cmdV, opnd, cmdE]).rest.drop 1).take (cmdV.extractLsb' 118 2).toNat
     let f := feedEntry (play [cmdV, opnd, cmdE]) false cmdV ops (.vadd .f32 0 (.vv 1) 0 2)
     ops = [⟨opnd, 1, false⟩] ∧ f.tokens = [] ∧ (base.aset 0).queueFull f.ctx .vec = false ∧
     ∀ x ∈ (play [cmdV, opnd, cmdE]).rest, base.feedBad 0 (play [cmdV, opnd, cmdE]) x = false) ∧
    entKind (waitE 1 2) = 5 ∧ tlOfCode ((waitE 1 2).extractLsb' 119 3).toNat = some .tlm ∧
    (∃ m, (nget (play []).took (tlIdx .tlm))[((waitE 1 2).extractLsb' 0 64).toNat - 1]? = some m ∧ m ≤ ((timed.aset 0).time .tlm).done) ∧
    ((nget (play []).base (tlIdx .tlm) : Nat) : Int) + ((waitE 1 0).extractLsb' 0 64).toInt ≤ ((timed.aset 0).time .tlm).done ∧
    (let s := timed.updMySet fun t => { t with fed := [play []] }
     (s.aset 0).fed.find? (s.aset 0).playDone = some (play [])) := by
  refine ⟨by decide +kernel, by decide +kernel, by decide +kernel, by decide +kernel, by decide +kernel, by decide +kernel,
    ⟨3, by decide +kernel⟩, by decide +kernel, by decide +kernel⟩

/-- A galley of ten entries and those given, as `gload` lets it in for tenant 0 (R292, R293). -/
def copyOf (l : List (BitVec 128)) : List (BitVec 128) :=
  gent 0 [(111, 10 + l.length), (93, 1)] :: (List.replicate 8 (gent 7 []) ++ l ++ [gent 15 []])

/-- An external token of entry 1 that passes, and one of another generation (R294). -/
def extT : BitVec 128 := gent 6 [(120, 3), (88, 1), (84, 15), (81, 1), (41, 0xFFFFF)]
def extOld : BitVec 128 := gent 6 [(120, 3), (108, 1), (88, 1), (84, 15), (81, 1), (41, 0xFFFFF)]

/-- A translate of 64 KiB from the word 0 of the patch vector, into k3, with right R. -/
def xlatT : BitVec 128 := gent 2 [(120, 3), (116, 1), (114, 1), (70, 0xFFFF), (0, 0x10000)]

/-- A galley entry at the head of the queue, with a copy in the vault and another galley in slot 1. -/
def copyq (i : Instr) (c : List (BitVec 128)) (g : Option Galley) : State :=
  let s := (base.updMySet fun t => { t with gq := [ent i 5 0x800 0x800] }).updCore 0 fun k => { k with galley := k.galley.set 1 g }
  (c.zipIdx).foldl (fun s e => wn s (vaultLoc 0 (0x800 + 16 * e.2)) 16 e.1.toNat) s

/-- A copy of a translate, a passing token and a command is within the rules. -/
theorem good_copy : goodCopy (copyOf [xlatT, extT, cmdE]) ∧ goodHeader 0 ((copyOf [xlatT, extT, cmdE]).getD 0 0) := by
  have a : keptWord cmdE = true ∧ (bitsOf cmdE.toNat 121 120 = 1 ∨ bitsOf cmdE.toNat 121 120 = 2) ∧ bitsOf cmdE.toNat 114 32 = 0 ∧
      kindOf cmdE = 3 ∧ kindOf extT = 6 ∧ bitsOf extT.toNat 40 0 = 0 ∧ kindOf xlatT = 2 ∧ bitsOf xlatT.toNat 69 64 = 0 := by
    decide +kernel
  refine ⟨⟨by decide +kernel, by decide +kernel, by decide +kernel, fun i _ h9 h12 => ?_⟩, ?_⟩
  · have h : i = 9 ∨ i = 10 ∨ i = 11 := by
      have : (copyOf [xlatT, extT, cmdE]).length = 13 := by decide +kernel
      omega
    rcases h with rfl | rfl | rfl
    · refine ⟨?_, by decide +kernel⟩
      have h : (copyOf [xlatT, extT, cmdE]).getD 9 0 = xlatT := by decide +kernel
      show goodEntry ((copyOf [xlatT, extT, cmdE]).getD 9 0)
      rw [h]; simp [goodEntry, a]
    · refine ⟨?_, by decide +kernel⟩
      have h : (copyOf [xlatT, extT, cmdE]).getD 10 0 = extT := by decide +kernel
      show goodEntry ((copyOf [xlatT, extT, cmdE]).getD 10 0)
      rw [h]; simp [goodEntry, a]
    · refine ⟨?_, by decide +kernel⟩
      have h : (copyOf [xlatT, extT, cmdE]).getD 11 0 = cmdE := by decide +kernel
      show goodEntry ((copyOf [xlatT, extT, cmdE]).getD 11 0)
      rw [h]; simp [goodEntry, a]
  · simp only [goodHeader]; decide +kernel

/-- A copy with a header of nine entries, an old token, and a core without room; a set, a foreign and an empty slot; plays whose token
passes and does not; a translate that is the last, whose page is mapped, and one whose is not. -/
theorem witness_galley_copies :
    (∀ i ∈ [Instr.gsave 1 5, .gload 1 5, .gplay 5 1 6], ∀ c ∈ [copyOf [xlatT, extT, cmdE], (copyOf []).set 0 (gent 0 [(111, 9), (93, 1)])],
      ∀ g ∈ [none, some (gal [extT]), some (gal [extOld]), some { ent := [gent 0 [(111, 10), (93, 1), (82, 5)]] }],
      let s := copyq i c g
      (s.aset 0).plays = [] ∧ (s.aset 0).gq = [ent i 5 0x800 0x800] ∧ s.mpois = [] ∧ s.MemOk ∧ (s.core 0).rec_ = none ∧
      (s.core 0).gReady = [] ∧ (s.core 0).xfer (s.aset 0).sid .gal = none ∧ (s.core 0).xfer (s.aset 0).sid .galBody = none ∧ s.oracle = [] ∧ (s.aset 0).leaving = false ∧
      (s.aset 0).gq.flatMap Entry.tokens = [] ∧ settled s = true ∧
      (s.aset 0).gcheck = none ∧ (s.die 0).fenced = false ∧ s.checkTarget 0 1 (s.ctx 0 1).tvec = .ok ∧
      (List.range (if i = .gload 1 5 then c.length else 0)).all (fun k => s.readNat (vaultLoc 0 (0x800 + 16 * k)) 16 == (c.getD k 0).toNat)) ∧
    base.eptr 0 0x800 none = .vault 0 0x800 ∧ 0x800 + 16 * 13 ≤ 2 ^ 21 ∧ 0x800 + 128 ≤ 2 ^ 21 ∧
    bitsOf (gal []).hdr.toNat 94 93 = 1 ∧ bitsOf (gal []).hdr.toNat 89 82 = (base.aset 0).tenant.toNat ∧ (gal []).bad = [] ∧
    bitsOf (gent 0 [(111, 9), (93, 1)]).toNat 123 111 < 10 ∧ bitsOf (gent 0 [(111, 10), (93, 1), (82, 5)]).toNat 89 82 ≠ 0 ∧
    (kindOf extT = 6 ∧ bitsOf extT.toNat 81 81 = 1) ∧ kindOf cmdE ≠ 1 ∧
    (let q : PlayCheck := { patch := Vector.replicate 16 0xFFFFFFFFFFFF0000, table := Vector.replicate 16 {}, rest := [1] }
     let s := (walking 0 1 0).updMySet fun t => { t with gq := [ent (.gplay 5 1 6) 5 0x800 0x800], gcheck := some q }
     let w (va : W64) := s.walkExtent 0 (s.aset 0).root.toNat va 0x10000 1 false
     (s.aset 0).gcheck = some q ∧ (s.aset 0).plays = [] ∧ q.rest = 1 :: [] ∧ (gal [xlatT]).ent.getD 1 0 = xlatT ∧
     w (0xFFFFFFFFFFFF0000 + 0x10000) = .frames [0x600000] false ∧ w (0x1000000 + 0x10000) = .trap .tnm 0x1000000 ∧
     (3 : BitVec 20).toNat = s.choose.1 % 2 ^ 20 ∧ (s.pin 0 3).state = .free ∧ (s.pin 0 3).gen ≠ 0xFFF ∧
     (s.die 0).pool + 8 * 1 + (0x10000 + 2 ^ 19 - 1) / 2 ^ 19 ≤ 2 ^ 29 ∧ (vget (s.aset 0).k (3 : KReg)).names 3 (s.pin 0 3).gen = false) := by
  decide +kernel

/-- The token of entry 1 passes, and the one of another generation does not. -/
theorem witness_tokens_of_a_play : passesExt base 0 0 extT ∧ ¬ passesExt base 0 0 extOld ∧
    ¬ ((List.replicate 8 (some { ent := List.replicate 512 cmdE } : Option Galley)).map fun x => match x with
      | some (g : Galley) => g.ent.length | none => 0).sum + 10 ≤ 4096 := by
  simp only [passesExt]; decide +kernel

/-- Queue 3 of a die, enabled for the host and the cores, with 2^2 slots at 0x300000. -/
def qd (s : State) (d tail head free : Nat) : State :=
  let a := d * 2 ^ 51 + dispatchBlock + 64 * 3
  wn (wn (wn (wn (wn (wn (wn (wn s a 8 0x300000) (a + 8) 1 2) (a + 9) 1 7) (a + 12) 4 0x1000) (a + 16) 4 tail) (a + 20) 4 head) (a + 24) 4 free)
    (a + 32) 8 0x700000 |> fun s => wn s (a + 48) 8 0x1000

def card (stt : CardSt) (f : Card → Card := id) : Card :=
  f { die := 0, queue := 3, pos := 5, words := (Vector.replicate 32 0).set 0 (BitVec.ofNat 64 (77 + 9 * 2 ^ 40)) |>.set 1 1 |>.set 3 4
      st := stt, preds := 0, prio := 2 }

/-- The job port's queue has an entry of number 77 or of queue 3. -/
def jobs (i : Instr) (x1 : W64 := 77) (l : FMap Card := []) : State :=
  { (qd base 0 7 4 4).updMySet fun t => { t with jq := [{ ent i 5 77 x1 with sup := true }] } with cards := l }.updMe fun x =>
    { x with hold := .result 4 5 5, st := .wait }

/-- A post with one place left, one to a queue number past the dies, and cards in their states. -/
theorem witness_job_port :
    (let s := (jobs (.jpost 5 6) 3)
     let k := s.qdesc 0 3
     (s.aset 0).jq = [{ ent (.jpost 5 6) 5 77 3 with sup := true }] ∧ s.storesDone 0 0 = true ∧ (s.aset 0).jcard = none ∧
     (s.core 0).xfer (s.aset 0).sid .job = none ∧ (s.aset 0).leaving = false ∧ k.slotAddr k.tail < 0x1FC0000000 ∧ (s.die 0).fenced = false ∧ k.enabled = true ∧ k.coresPost = true ∧
     s.eptr 0 77 none = .vault 0 77 ∧ 77 + 256 ≤ 2 ^ 21 ∧ (k.tail - k.free).toNat < 2 ^ k.logcap ∧ (k.tail - k.free).toNat = 3 ∧
     s.reaches 0 0 = true ∧ podAddr s 0 (k.slotAddr k.tail) + 256 ≤ podAddr s 0 (qdescAddr 3 + 16)) ∧ 512 ≤ (512 : W64).toNat ∧
    ((jobs (.jstat 5 6)).findCard 77 0 = none ∧ ((jobs (.jstat 5 6)).ctx 0 1).hold = .result 4 5 5) ∧
    (jobs (.jstat 5 6) 77 [(4, card .wait)]).findCard 77 0 = some (4, card .wait) ∧ (card .wait).cores = [] ∧ (card .wait).ended = 0 ∧
    (card .wait).bound = 0 ∧ base.othersWait 0 = false ∧ base.storesDone 0 0 = true := by decide +kernel

/-! ### Containment -/

/-- A party of tag 9, with cards of tags 9 and 8 and a poison consumption. -/
def tagged (tag : W16) : State :=
  { base.updMySet fun t => { t with reqtag := tag } with cards := [(1, card .run), (2, card .wait)]
                                                         poisonHits := [{ core := 0, tag := 9, off := 0 }] }

theorem witness_containment :
    ((tagged 9).cards.map Prod.fst).Nodup ∧ sup.me.sup = true ∧ (2 ^ 61 - 1 : Nat) < 2 ^ 61 ∧
    (let s := (tagged 8).updMe fun x => { x with hold := .purge 9, st := .wait }
     (s.ctx 0 1).hold = .purge 9 ∧ (s.aset 0).reqtag ≠ 9) ∧
    vget ((galq .gend (some (gal [cmdE]))).core 0).galley (1 : BitVec 3) = some (gal [cmdE]) := by decide +kernel

/-- No set of the tag stands at a purge of its own, over every core. -/
theorem witness_no_purger : ∀ h p, (nget ((tagged 9).core h).set p).occupied = true → (nget ((tagged 9).core h).set p).reqtag = 9 →
    (nget ((tagged 9).core h).set p).atPurge 9 = false := by
  intro h p
  by_cases hc : h = 0
  · subst hc; revert p; decide +kernel
  · have e : (tagged 9).core h = {} := by
      have hl : (tagged 9).cores = [(0, (tagged 9).core 0)] := by decide +kernel
      unfold State.core; rw [hl]; simp [fget, Ne.symm hc]
    rw [e]; revert p; decide +kernel

/-! ### Cards and sets -/

/-- Core 0 with two vacant sets, and the cards given. -/
def vacant (l : FMap Card) : State := { qd base 0 7 5 4 with
  booted := true, cores := [(0, { set := #v[{}, { sid := 1 }] })], clk := 900, cards := l }

/-- The card at the head of queue 3, in its slot at 0x300100. -/
def posted (id : Nat) : State := wn (wn (wn (vacant []) 0x300100 8 (id + 9 * 2 ^ 40)) 0x300108 8 1) 0x300118 8 4

theorem witness_card_accept :
    (∀ id ∈ [0, 77], let s := posted id; let k := s.qdesc 0 3
      s.booted = true ∧ (s.die 0).fenced = false ∧ k.enabled = true ∧ (k.tail - k.head).msb = false ∧
      (k.head - k.free).toNat < (k.tail - k.free).toNat ∧ (k.head - k.free).toNat < 2 ^ k.logcap ∧ k.slotAddr k.head < 0x1FC0000000 ∧
      podAddr s 0 (k.slotAddr k.head + 224) + 8 ≤ podAddr s 0 (qdescAddr 3) ∧ s.MemOk) ∧
    (let s := posted 77; let k := s.qdesc 0 3
     let at_ := podAddr s 0 (k.slotAddr k.head)
     let taken := s.setQField 0 3 20 (k.head + 1)
     let words : Vector W64 32 := Vector.ofFn fun i => BitVec.ofNat 64 (s.readNat (at_ + 8 * i.val) 8)
     let new : Card := { die := 0, queue := 3, pos := k.head, words := words, st := .wait, preds := words[1].extractLsb' 32 16
                         prio := words[0].extractLsb' 58 3, prin := s.sdescPrin 0 k.sdesc, tenant := words[0].extractLsb' 32 8 }
     new.id = 77 ∧ taken.cardCode new = 0 ∧ new.used = [] ∧ new.word 29 = 0) ∧ (card .wait fun c => { c with
       words := Vector.replicate 32 0 }).id = 0 := by decide +kernel

/-- A migrating tile of one frame, of 1 MiB, with the staging frames 1 to 3 free. -/
theorem witness_tile_migrate :
    let c := card .move fun c => { c with words := c.words.set 14 (BitVec.ofNat 64 (2 ^ 48 + 0x100000)), tiles := [(0, tok)] }
    -- the clk 900 lies in window 28, which is tenant 0's
    let s := wn (wn (wn (pinned livePin (vacant [(4, c)])) (dispatchBlock + 0x10D0) 8 0xA00000) (dispatchBlock + 0x10D8) 4 4)
      (dispatchBlock + 0x1080) 64 (256 ^ 64 - 1 - 255 * 256 ^ 28)
    let s : State := { s with dies := s.dies.set 0 { s.die 0 with staged := [0] } }
    fget s.cards 4 = some c ∧ c.st = .move ∧ c.migrating = [tok] ∧ s.issueCheck (128 * c.pdie) tok = .go ∧
    (s.pin c.pdie tok.pte).frames = [0x200000] ∧ (s.pin c.pdie tok.pte).host = false ∧ tok.lenm1.toNat < 2 ^ 21 ∧
    (s.pin c.pdie tok.pte).lenm1 = tok.lenm1 ∧ s.slotTenant c.pdie 900 = 0 ∧ s.slotTenant c.pdie 932 = 0xFF ∧
    s.serves c.pdie c.tenant = true ∧ s.addrFate (128 * c.pdie) 0x200000 { phys := (s.pin c.pdie tok.pte).phys } = .ok ∧
    ((List.range (s.stagingFrames c.pdie)).filter fun i => !(s.die c.pdie).staged.contains i) = [1, 2, 3] := by decide +kernel

theorem witness_card_select :
    let s := vacant [(4, card .ready), (6, card .ready fun c => { c with pos := 6 })]
    (s.die 0).fenced = false ∧ s.pendingBinds 0 = [] ∧ s.candidates 0 = [(4, card .ready), (6, card .ready fun c => { c with pos := 6 })] ∧
    s.before (card .ready) (card .ready fun c => { c with pos := 6 }) = true ∧
    s.before (card .ready fun c => { c with pos := 6 }) (card .ready) = false := by decide +kernel

theorem witness_party_bind :
    let c := card .selected
    let s := vacant [(4, c)]
    fget s.cards 4 = some c ∧ s.pendingBinds 0 = [(4, c)] ∧ (s.die 0).fenced = false ∧ s.bindList c (s.claimed c.die.val) = [0] ∧ (s.core 0).vacant = [0, 1] ∧
    ∃ code s', s.makeCode c 0 = some (code, s') := by
  refine ⟨by decide +kernel, by decide +kernel, by decide +kernel, by decide +kernel, by decide +kernel, ?_⟩
  obtain ⟨⟨a, b⟩, h⟩ := Option.isSome_iff_exists.mp
    (show ((vacant [(4, card .selected)]).makeCode (card .selected) 0).isSome = true by decide +kernel)
  exact ⟨a, b, h⟩

theorem witness_party_start :
    let s : State := { base.updMySet fun t => { t with started := false } with cards := [(1, card .run)] }
    (s.aset 0).card = some 1 ∧ fget s.cards 1 = some (card .run) ∧ (s.aset 0).started = false ∧ (card .run).conc = false ∧
    (card .run).gslot = none := by decide +kernel

/-- A card that has ended, one whose last party is over, and each step of its retirement. -/
theorem witness_job_retire :
    (let c := card .run fun c => { c with bound := 1, ended := 1 }
     c.st = .run ∧ c.bound = c.gsize ∧ (vacant [(4, c)]).partiesEnded 4 c = c.gsize) ∧
    (let c := card .run fun c => { c with bound := 1, cores := [0] }
     let s := (vacant [(4, c)]).updCore 0 fun k => { k with set := #v[{ card := some 4, started := true }, { sid := 1 }] }
     s.partiesEnded 4 c = c.gsize ∧ c.ended = 0) ∧
    (let c := card .retire fun c => { c with halted := some (0, 1023, 2), recorded := true, ended := 1 }
     let s := vacant [(4, c)]
     c.ended = c.gsize ∧ s.toPurge c.tag = false ∧ (s.qdesc 0 3).slotAddr c.pos < 0x1FC0000000 ∧
     c.successors = [] ∧ podAddr s 0 ((s.qdesc 0 3).slotAddr c.pos + 224) + 8 ≤ podAddr s 0 (qdescAddr 3)) ∧
    (let c := card .final fun c => { c with steps := 1, counter := some (0x400000, false) }
     let s := vacant [(4, c)]
     c.counter = some (0x400000, false) ∧ s.counterReached c.die.val 0x400000 false = true) ∧
    (let s := vacant [(4, card .final fun c => { c with steps := 2, succ := [6] }), (6, card .wait fun c => { c with preds := 1 })]
     fget s.cards 6 = some (card .wait fun c => { c with preds := 1 }) ∧ (s.cards.map Prod.fst).Nodup ∧
     (card .wait fun c => { c with preds := 1 }).used = []) := by decide +kernel

/-- The other set, or a save slot, holds a party of card 4. -/
def other : CtxSet := { sid := 7, card := some 4, started := true }

def parties (f : CtxSet → CtxSet) (k : Core → Core := id) : State :=
  { ((wn (qd base 0 7 5 4) (dispatchBlock + 0x10C8) 1 2).updMySet f).updCore 0 k with
    clk := 0x3000, cards := [(1, card .run fun c => { c with cores := [0], sids := [0], bound := 1 }), (4, card .run)] }

/-- The active party has entered context C and goes on. -/
def going (t : CtxSet) : CtxSet := { t with entered := #v[false, true, false] }

/-- A saved set whose code token is current, with one stale k register, a FULL tile and a slot of its hash tables. -/
def savedSet : CtxSet := { other with
  codeTok := { tok with pte := 2 }, k := (Vector.replicate 16 {}).set 0 tok |>.set 1 { tok with gen := 3 }
  tile := (Vector.replicate 8 {}).set 1 { st := .full }, cls8 := (Vector.replicate 8 {}).set 1 { slot with table := [7, 8] } }

theorem witness_set_switches :
    (let s := parties fun t => { going t with ctx := Vector.replicate 3 {} }
     (s.aset 0).card = some 1 ∧ (fget s.cards 1).isSome = true ∧ (s.aset 0).over = true ∧ (s.aset 0).quiet = true ∧ (s.core 0).rec_ = none) ∧
    (let s := parties (fun t => { t with card := none }) fun k => { k with set := k.set.set 1 other }
     (s.aset 0).occupied = false ∧ (s.core 0).other.occupied = true ∧ s.closing 0 = false ∧ (s.aset 0).leaving = false) ∧
    (let s := parties (fun t => { going t with timerAt := some 0x2000, sliceAt := 0x2000 }) fun k => { k with switch := some { sid := 7, slot := 0, since := 0 } }
     (s.core 0).switch = some { sid := 7, slot := 0, since := 0 } ∧ (∀ e ∈ (s.core 0).sb, e.sid ≠ 7) ∧ fget (s.core 0).slots 0 = none) ∧
    (let s := parties (fun t => { going t with sliceAt := 0x2000 }) fun k => { k with set := k.set.set 1 other }
     (s.aset 0).started = true ∧ s.slice 0 = 0x1000 ∧ (s.aset 0).timerAt = none ∧ (s.aset 0).sliceAt + s.slice 0 ≤ s.clk ∧
     s.partyWaits 0 = true) := by decide +kernel

/-- A set comes back to the vacant set, from the slot at the end of HBM and from one past it. -/
theorem witness_set_returns : ∀ top ∈ [0x1FBFC00000, 0x1FBFC00040],
    let s := wn (parties going fun k => { k with slots := [(1, savedSet)] }) (dispatchBlock + 0x10C0) 8 (top - 2 ^ 22)
    (s.aset 0).occupied = true ∧ (s.aset 0).over = false ∧ (s.aset 0).leaving = false ∧ s.nextReturn 0 = some (1, 1) ∧
    fget (s.core 0).slots 1 = some savedSet ∧ ((s.core 0).slots.map Prod.fst).Nodup ∧
    (s.pin 0 savedSet.codeTok.pte).gen = savedSet.codeTok.gen ∧ (vget savedSet.k (1 : KReg)).valid = true ∧
    (s.pin 0 (vget savedSet.k (1 : KReg)).pte).gen ≠ (vget savedSet.k (1 : KReg)).gen ∧
    (s.pin 0 (vget savedSet.k (0 : KReg)).pte).gen = (vget savedSet.k (0 : KReg)).gen ∧
    decide (s.slotAddr 0 1 + 2 ^ 22 ≤ 0x1FC0000000) = decide (top = 0x1FBFC00000) := by decide +kernel

/-- The slice of 0x1000 has just run out: with the engines at rest, and with a granule in flight. -/
theorem witness_set_leaves : ∀ fl ∈ [[], [({ id := 4, start := 0, src := [], dst := [], ptes := [] } : Granule)]],
    let s := parties (fun t => { going t with
      timerAt := some 0x2000, srun := t.srun.set 1 [{ e := ent (.scopy 5 6 7) 5, total := 600, issued := 256, flying := fl }] })
      fun k => { k with set := k.set.set 1 other }
    s.nextReturn 0 = none ∧ (s.aset 0).started = true ∧ s.sliceOver 0 = true ∧ ((s.cardOf (s.aset 0)).map Card.conc) = some false ∧
    (s.core 0).switch = none ∧ s.freeSlot 0 = some 0 ∧ (s.aset 0).over = false ∧ (s.aset 0).leaving = false ∧
    s.atRest 0 (s.core 0).active = decide (fl = []) := by decide +kernel

/-- The set has gone to its slot, the last of HBM, and its stores have left the buffer. -/
theorem witness_set_saved :
    let s := wn (parties going fun k => { k with slots := [(0, savedSet)], switch := some { sid := 7, slot := 0, since := 0 } })
      (dispatchBlock + 0x10C0) 8 0x1FBFC00000
    (s.core 0).switch = some { sid := 7, slot := 0, since := 0 } ∧ (∀ e ∈ (s.core 0).sb, e.sid ≠ 7) ∧
    fget (s.core 0).slots 0 = some savedSet ∧ savedSet.sid = 7 ∧ s.slotAddr 0 0 + 2 ^ 22 ≤ 0x1FC0000000 ∧ s.MemOk ∧
    (∀ x : Fin 8, (nget savedSet.cls8 x).table.length ≤ 8192) ∧ savedSet.crun = none ∧
    (nget savedSet.tile 1).st ≠ .empty ∧ (nget savedSet.cls8 1).set = true ∧ 1 < (nget savedSet.cls8 1).table.length := by decide +kernel

/-! ### The host port, boot and power -/

/-- The host port is open, and a mailbox slot of die 0 is as given. -/
def hosted (n : BitVec 6) (m : Mailbox) : State :=
  let s := qd base 0 7 5 4
  { s with hostState := 1, booted := true, imageRuns := true, events := 5, pending := 5
           dies := s.dies.set 0 { s.die 0 with mailbox := vset (s.die 0).mailbox n m } }

/-- The last post that fits and the first that does not; a target and its boundary; the service slot; the window's last bytes. -/
theorem witness_host_port :
    (let s := hosted 5 {}; let k := s.qdesc 0 3
     s.MemOk ∧ s.hostReaches 0 = true ∧ k.enabled = true ∧ k.hostPosts = true ∧ ((8 : W64).setWidth 32 - k.free).toNat ≤ 2 ^ k.logcap ∧
     2 ^ k.logcap < ((9 : W64).setWidth 32 - k.free).toNat ∧ (s.mail 0 5).full = false ∧ (s.mail 0 5).word0 = .target ∧ (s.die 0).fenced = false) ∧
    ((0x17F : W64).getLsbD 63 = false ∧ (0x17F : W64).extractLsb' 7 2 ≠ 3 ∧ (0x17F : W64).extractLsb' 9 54 = 0) ∧
    ((hosted 5 { target := 0x80, full := true }).mail 0 5).full = true ∧
    (let s := hosted 5 { target := 0x80 }
     (0 : Nat) = 128 * 0 + (s.mail 0 5).target.toNat % 128 ∧ (s.mail 0 5).target.toNat / 128 % 4 = (1 : CtxId).val ∧
     (s.aset 0).card.isSome = true ∧ (s.ctx 0 1).live = true) ∧
    (let s := hosted 63 { target := 1, data := 0x1FBFFFF000, full := true }
     s.imageRuns = true ∧ (s.mail 0 63).full = true ∧ (s.mail 0 63).target.toNat % 2 ^ 63 = 1 ∧ (s.mail 0 63).data.toNat % 4096 = 0 ∧
     (s.mail 0 63).data.toNat + 4096 ≤ 0x1FC0000000) ∧ (List.replicate 32 (7 : Byte)).length = 32 ∧
    (∀ i, i < 4 → (hosted 5 {}).windowLoc (0x1FBFFFFFFC + i) = some (podAddr (hosted 5 {}) (0x1FBFFFFFFC / 2 ^ 37) (0x1FBFFFFFFC % 2 ^ 37) + i)) ∧
    (hosted 5 {}).pending.getLsbD (2 : Fin 9).val = true ∧ (hosted 5 {}).pending.getLsbD (8 : Fin 9).val = false := by decide +kernel

/-- 32 islands of which each asks for 10 A have a budget of 352 A: exactly enough. -/
theorem witness_boot_and_power :
    base.MemOk ∧ base.imageRuns = false ∧ imageGood [] = false ∧ base.booted = false ∧ (12000 : W16).toNat ≤ 12000 ∧
    ({ base with stagesRun := true } : State).stagesRun = true ∧ ({ base with stagesRun := true } : State).booted = false ∧
    (let s : State := { base with budget := 352 }
     11 * (s.livingIslands.map fun _ => (10 : W32).toNat).sum ≤ 10 * s.budget.toNat ∧ (s.die (31 / 4)).fenced = false) ∧
    -- a budget that is 1 A short, one whose shares fit, and one that the floor of 100 A overruns
    (let s : State := { base with budget := 351 }
     10 * s.budget.toNat < 11 * (s.livingIslands.map fun _ => (10 : W32).toNat).sum ∧
     s.budget.toNat < (s.livingIslands.map fun _ => max 100 (351 * 10 / 320)).sum) ∧
    (let s : State := { base with budget := 12000 }
     (s.livingIslands.map fun _ => max 100 (12000 * 400 / 12800)).sum ≤ s.budget.toNat ∧ 10 * 12000 < 11 * 12800) ∧
    -- the last label of the last die and the first byte below its dispatch block
    (let table (l : Nat) : Bool := l / 2 ^ 54 = (0 : BitVec 5).toNat && !(base.die (l / 2 ^ 51)).fenced &&
       (region l == .labels || (0x1FBFF00000 ≤ l % 2 ^ 51 && l % 2 ^ 51 < 0x1FC0000000))
     table (7 * 2 ^ 51 + 0x1FC43FFFFF) = true ∧ table (7 * 2 ^ 51 + 0x1FBFF00000) = true ∧ table (7 * 2 ^ 51 + 0x1FBFEFFFFF) = false ∧
     table (2 ^ 54 + 0x1FBFF00000) = false) ∧
    (({ base with dies := base.dies.set 7 { fenced := true } } : State).die (31 / 4)).fenced = true := by decide +kernel

end Sys2Proof.Tests
end

section
namespace Sys2Proof.Machine

/-! ### Issue of the V and E instructions (R13, R37, R38) -/

/-- What an instruction captures that its context issues as every engine instruction is issued: its queue, its x sources, which of them are pointers, and the
result that its context waits for. -/
structure IssuedTo (s : State) (i : Instr) (q : EngQ) (x : XReg × XReg × XReg) (p0 p1 : Bool) (r : Option (Fin 5 × XReg)) : Prop where
  issue : exec i s = issueEngine i s
  queue : engQueue i = q
  sources : xSources i = x
  pointers : ptrSources i = (p0, p1, false)
  result : resultOf i = r

/-- A full queue keeps an instruction out (R37), and so does the job port that holds a jpost (R333). -/
theorem queueFull_eq_false {t : CtxSet} {c : CtxId} {q : EngQ} :
    t.queueFull c q = false ↔ t.queueLen c q < q.depth ∧ (q = .job → t.jheld = false) := by
  simp [CtxSet.queueFull]

theorem queueFull_of_depth_le {t : CtxSet} {c : CtxId} {q : EngQ} (h : q.depth ≤ t.queueLen c q) : t.queueFull c q = true := by
  simp [CtxSet.queueFull, h]

/-- An instruction that finds its queue full holds its context, and nothing else changes (R37, R70). -/
theorem waits_holdMe (s : State) (h : Hold) : Waits s (s.holdMe h) h :=
  ⟨onlyMe_updMe s _, by simp [State.holdMe]⟩

/-- The issue of an instruction of a V or E queue: it enters the queue while there is room, and holds its context when there is
none (R37, R38). -/
theorem IssuedTo.captures {s : State} {i : Instr} {q : EngQ} {a b c : XReg} {p0 p1 : Bool} {r : Option (Fin 5 × XReg)}
    (hi : IssuedTo s i q (a, b, c) p0 p1 r) (hj : q = .job → s.mySet.jheld = false) :
    (s.mySet.queueLen s.curCtx q < q.depth → Enqueues s q i (s.rx a) (s.rx b) (s.rx c) p0 p1 r) ∧
    (q.depth ≤ s.mySet.queueLen s.curCtx q → ∃ t, exec i s = .next t ∧ Waits s t (.queueFull q i)) := by
  obtain ⟨hx, rfl, hs, hp, rfl⟩ := hi
  constructor
  · intro h
    have enters : exec i s = .next (s.enter i true) := by
      rw [hx, issueEngine, queueFull_eq_false.2 ⟨h, hj⟩]; rfl
    have captured := enqueues_enter s i (by rw [hp]) enters
    rw [hs, hp] at captured
    exact captured
  · intro h
    exact ⟨_, by rw [hx, issueEngine, queueFull_of_depth_le h]; rfl, waits_holdMe s _⟩

/-- The x operand of a V instruction whose second source is in form vx, and 0 in the other forms (R32). -/
theorem rx_vxReg (s : State) (s2 : VSrc) : s.rx (vxReg s2) = (match s2 with | .vx r => s.rx r | _ => 0) := by
  cases s2 <;> rfl

/-- Settles O28: every V instruction is issued alike, and its fields say which x register it captures. -/
theorem vectorIssues : Obligations.VectorIssues := by
  unfold Obligations.VectorIssues
  intro s ty ts mk md ma mb s2 vs1 vs2 vd x h acc rel op b v2 cap
  have vx (i : Instr) (hi : IssuedTo s i .vec (vxReg s2, 0, 0) false false none) : cap i v2 false := by
    have captured := hi.captures nofun
    rw [rx_vxReg] at captured
    exact captured
  have no (i : Instr) (hi : IssuedTo s i .vec (0, 0, 0) false false none) : cap i 0 false := hi.captures nofun
  have xs (i : Instr) (p : Bool) (hi : IssuedTo s i .vec (x, 0, 0) p false none) : cap i (s.rx x) p := hi.captures nofun
  refine ⟨
    vx _ ?_, vx _ ?_, vx _ ?_, vx _ ?_, vx _ ?_, vx _ ?_, no _ ?_, no _ ?_, vx _ ?_, no _ ?_, no _ ?_, no _ ?_, no _ ?_,
    no _ ?_, vx _ ?_, vx _ ?_, vx _ ?_, no _ ?_, vx _ ?_, vx _ ?_, vx _ ?_, vx _ ?_, no _ ?_, no _ ?_, no _ ?_, xs _ _ ?_,
    no _ ?_, no _ ?_, vx _ ?_, no _ ?_, no _ ?_, no _ ?_, no _ ?_, xs _ _ ?_, no _ ?_, no _ ?_, no _ ?_, no _ ?_, xs _ _ ?_,
    xs _ _ ?_, xs _ _ ?_, xs _ _ ?_, xs _ _ ?_, xs _ _ ?_, xs _ _ ?_, xs _ _ ?_, xs _ _ ?_⟩
  all_goals exact ⟨rfl, rfl, rfl, rfl, rfl⟩

end Sys2Proof.Machine
end

section
namespace Sys2Proof.Machine

/-- Every core is as before but for what its sets hold. -/
def OnlySets (s t : State) : Prop := ∀ g, t.core g = { s.core g with set := (t.core g).set }

theorem OnlySets.refl (s : State) : OnlySets s s := fun _ => rfl

theorem OnlySets.trans {s t u : State} (a : OnlySets s t) (b : OnlySets t u) : OnlySets s u := fun g => by rw [b g, a g]

theorem onlySets_updAct (s : State) (g : Nat) (f : CtxSet → CtxSet) : OnlySets s (s.updAct g f) := fun h => by
  by_cases e : h = g
  · subst e; simp [State.updAct]
  · rw [State.updAct, core_updCore_ne s _ e]

theorem onlySets_heldAll (l : List Token) (s : State) : OnlySets s (l.foldl (fun s t => s.held s.curCore t) s) := by
  induction l generalizing s with
  | nil => exact .refl s
  | cons t l ih =>
    have held : OnlySets s (s.held s.curCore t) := fun g => by
      unfold State.held
      dsimp only
      split <;> rfl
    exact held.trans (ih _)

/-- An instruction without x sources that a recording passes over, or that meets none, enters its queue and changes of the cores
only their sets. -/
theorem onlySets_enter {s : State} {i : Instr} (b : Bool) (hx : xSources i = (0, 0, 0)) (hr : s.recCommand i = s) :
    OnlySets s (s.enter i b) := by
  have unmarked : ((s.useX 0).useX 0).useX 0 = s := rfl
  unfold State.enter
  rw [hx]
  dsimp only
  rw [unmarked, hr]
  have appended (e : Entry) : OnlySets s ({ s with nextId := s.nextId + 1 }.updMySet fun t => t.enqueue (engQueue i) e b) :=
    fun g => onlySets_updAct { s with nextId := s.nextId + 1 } s.curCore _ g
  split
  · exact ((appended _).trans (onlySets_heldAll _ _)).trans (onlySets_updAct _ _ _)
  · exact ((appended _).trans (onlySets_heldAll _ _)).trans (onlySets_updAct _ _ _)

/-- The issue of an instruction is of the issuing context, and changes no byte of memory. -/
theorem enter_curCore_mem (s : State) (i : Instr) (b : Bool) : (s.enter i b).curCore = s.curCore ∧
    (s.enter i b).curCtx = s.curCtx ∧ (s.enter i b).mem = s.mem := by
  have su (a b c : XReg) : SameSets s ((((s.useX a).useX b).useX c).recCommand i) :=
    (((sameSets_useX s a).trans (sameSets_useX _ b)).trans (sameSets_useX _ c)).trans (sameSets_recCommand _ i)
  unfold State.enter
  dsimp only
  generalize hu : (((s.useX (xSources i).1).useX (xSources i).2.1).useX (xSources i).2.2).recCommand i = u
  obtain ⟨-, -, mem, -, core, ctx, -⟩ := hu ▸ su _ _ _
  split
  · simp only [holdMe_curCore, holdMe_curCtx, holdMe_mem, (sameSets_heldAll' _ _).curCore, (sameSets_heldAll' _ _).curCtx,
      (sameSets_heldAll' _ _).mem]
    exact ⟨core, ctx, mem⟩
  · simp only [goOn_curCore, goOn_curCtx, goOn_mem, (sameSets_heldAll' _ _).curCore, (sameSets_heldAll' _ _).curCtx,
      (sameSets_heldAll' _ _).mem]
    exact ⟨core, ctx, mem⟩

theorem enqueue_ctx (t : CtxSet) (q : EngQ) (e : Entry) (b : Bool) : (t.enqueue q e b).ctx = t.ctx := by
  cases q <;> cases b <;> rfl

/-- What the issue of an instruction leaves of the context's set: an entry of its queue, and the context that goes on or holds for
its result. -/
theorem enter_mySet (s : State) (i : Instr) (b : Bool) :
    ∃ e n, { e with num := 0, upTo := 0 } = { mkEntry s.mySet s.curCtx i (s.rx (xSources i).1) (s.rx (xSources i).2.1)
        (s.rx (xSources i).2.2) s.me.vrnd s.me.sup with num := 0, upTo := 0 } ∧ (b = false → n = e.num) ∧
      (s.enter i b).mySet = { s.mySet.enqueue (engQueue i) e b with
        ctx := nset s.mySet.ctx s.curCtx (match resultOf i with
          | some (k, xd) => s.me.holdAt s.clk (.result k n xd)
          | none => s.me.goOn) } := by
  generalize hx : xSources i = x
  obtain ⟨x0, x1, x2⟩ := x
  have su : SameSets s ((((s.useX x0).useX x1).useX x2).recCommand i) :=
    (((sameSets_useX s x0).trans (sameSets_useX _ x1)).trans (sameSets_useX _ x2)).trans (sameSets_recCommand _ i)
  unfold State.enter
  rw [hx]
  dsimp only
  generalize (((s.useX x0).useX x1).useX x2).recCommand i = u at su
  rw [← su.mySet, ← su.curCtx, ← su.clk]
  simp only [State.rx]
  rw [← su.me]
  have entered (e : Entry) (n : Nat) :
      (match resultOf i with
        | some (k, xd) => (List.foldl (fun (s : State) t => s.held s.curCore t)
            ({ u with nextId := u.nextId + 1 }.updMySet fun t => t.enqueue (engQueue i) e b) e.tokens).holdMe (.result k n xd)
        | none => (List.foldl (fun (s : State) t => s.held s.curCore t)
            ({ u with nextId := u.nextId + 1 }.updMySet fun t => t.enqueue (engQueue i) e b) e.tokens).goOn).mySet =
      { u.mySet.enqueue (engQueue i) e b with
        ctx := nset u.mySet.ctx u.curCtx (match resultOf i with
          | some (k, xd) => u.me.holdAt u.clk (.result k n xd)
          | none => u.me.goOn) } := by
    have same := sameSets_heldAll' e.tokens ({ u with nextId := u.nextId + 1 }.updMySet fun t => t.enqueue (engQueue i) e b)
    have mine : (({ u with nextId := u.nextId + 1 } : State).updMySet fun t => t.enqueue (engQueue i) e b).me = u.me := by
      simp only [State.me, State.ctx, State.updMySet, aset_updAct, updAct_curCore, updAct_curCtx, enqueue_ctx]
      rfl
    cases resultOf i with
    | none =>
      simp only [State.goOn, updMe_mySet, same.mySet, same.me, same.curCtx, mine, updMySet_mySet, enqueue_ctx]
      rfl
    | some p =>
      simp only [State.holdMe, updMe_mySet, same.mySet, same.me, same.curCtx, same.clk, mine, updMySet_mySet, enqueue_ctx]
      rfl
  refine ⟨_, _, ?_, ?_, entered _ _⟩
  · cases b <;> cases engQueue i <;> rfl
  · rintro rfl
    cases engQueue i <;> rfl

theorem recCommand_unrecorded (s : State) {i : Instr} (h : unrecorded i = true) : s.recCommand i = s := by
  unfold State.recCommand
  split
  · rfl
  · rw [if_pos h]

theorem recCommand_idle {s : State} (i : Instr) (h : (s.core s.curCore).rec_ = none) : s.recCommand i = s := by
  simp only [State.recCommand, State.recording, h]

/-- A change of a core outside its sets leaves its active set. -/
theorem aset_updCore_rec (s : State) (g : Nat) (r : Option Recording) :
    (s.updCore g fun k => { k with rec_ := r }).aset g = s.aset g := by
  simp [State.aset, Core.act]

/-- A recording that begins makes every x register of the contexts of its set plain (R97), and no other change to the set. -/
theorem aset_startRecording (s : State) (g : Nat) (n : BitVec 3) (b : Bool) (card : W16) :
    (s.startRecording g n b card).aset g =
      { s.aset g with ctx := (s.aset g).ctx.map fun x => { x with tag := Vector.replicate 32 .plain } } := by
  rw [State.startRecording, aset_updCore_rec, aset_updAct]

theorem me_eq_nget (s : State) : s.me = nget s.mySet.ctx s.curCtx := rfl

/-- The recording that begins is empty, and is that of the active set (R303). -/
theorem rec_startRecording (s : State) (g : Nat) (n : BitVec 3) (b : Bool) (card : W16) :
    ((s.startRecording g n b card).core g).rec_ = some
      { g := n, tenant := (s.aset g).tenant, bycard := b, card := card, sid := (s.aset g).sid
        base := (s.aset g).tl.map (·.issued) } := by
  rw [State.startRecording, core_updCore_same]

theorem enqueue_gal (t : CtxSet) (e : Entry) : (t.enqueue .gal e true).gq = t.gq ++ [{ e with num := (t.time .tlg).issued + 1 }] ∧
    ((t.enqueue .gal e true).time .tlg).issued = (t.time .tlg).issued + 1 := by
  simp [CtxSet.enqueue, EngQ.timeline, CtxSet.append, CtxSet.time, TLine.take]

theorem enqueue_sid (t : CtxSet) (q : EngQ) (e : Entry) (b : Bool) : (t.enqueue q e b).sid = t.sid ∧
    (t.enqueue q e b).tenant = t.tenant := by
  cases q <;> cases b <;> exact ⟨rfl, rfl⟩

/-- The galley queue and the context of an instruction that has entered it with a number (R38). -/
theorem enter_gal (s : State) {i : Instr} (hq : engQueue i = .gal) (hr : resultOf i = none) :
    ∃ e, (s.enter i true).mySet.gq = s.mySet.gq ++ [e] ∧ e.instr = i ∧ e.num = (s.mySet.time .tlg).issued + 1 ∧
      ((s.enter i true).mySet.time .tlg).issued = (s.mySet.time .tlg).issued + 1 ∧
      (s.enter i true).mySet.ctx = nset s.mySet.ctx s.curCtx s.me.goOn ∧ (s.enter i true).mySet.sid = s.mySet.sid ∧
      (s.enter i true).mySet.tenant = s.mySet.tenant := by
  obtain ⟨e, n, he, -, h⟩ := enter_mySet s i true
  have hi : e.instr = i := congrArg Entry.instr he
  rw [hq, hr] at h
  obtain ⟨gq, issued⟩ := enqueue_gal s.mySet e
  obtain ⟨sid, tenant⟩ := enqueue_sid s.mySet .gal e true
  exact ⟨{ e with num := (s.mySet.time .tlg).issued + 1 }, by rw [h]; exact gq, hi, rfl, by rw [h]; exact issued, by rw [h], by rw [h]; exact sid, by rw [h]; exact tenant⟩

/-- `grec` on a core that records nothing (R97, R303). -/
theorem grec_begins {s : State} (g : BitVec 3) (hg : s.mySet.gq.length < 8) (hn : (s.core s.curCore).rec_ = none) :
    ∃ t r e, exec (.grec g) s = .next t ∧ (t.core s.curCore).rec_ = some r ∧ r.g = g ∧ r.sid = s.mySet.sid ∧
      r.tenant = s.mySet.tenant ∧ r.ent = [] ∧ r.used = 0 ∧ r.rejected = 0 ∧ r.smudge = 0 ∧ r.kWritten = 0 ∧
      (∀ (c : CtxId) (x : XReg), vget (t.ctx s.curCore c).tag x = .plain) ∧ (∀ x, t.rx x = s.rx x) ∧ t.me.seek = true ∧
      t.mySet.gq = s.mySet.gq ++ [e] ∧ e.instr = .grec g ∧ e.num = (s.mySet.time .tlg).issued + 1 ∧ SameBytes s t := by
  have room : s.mySet.queueFull s.curCtx .gal = false := queueFull_eq_false.2 ⟨hg, nofun⟩
  obtain ⟨hcore, hctx, hmem⟩ := enter_curCore_mem s (.grec g) true
  obtain ⟨e, gq, instr, num, -, ctx, sid, tenant⟩ := enter_gal s (i := .grec g) rfl rfl
  have cores := onlySets_enter true rfl (recCommand_idle (.grec g) hn) s.curCore
  have runs : exec (.grec g) s = .next ((s.enter (.grec g) true).startRecording s.curCore g false 0) := by
    have hn' : ((s.enter (.grec g) true).core s.curCore).rec_ = none := by rw [cores]; exact hn
    change execGrec g s = _
    simp only [execGrec, room, State.grecIssue, hcore, hn', if_false, Bool.false_eq_true]
  generalize hu : s.enter (.grec g) true = u at *
  have hset := aset_startRecording u s.curCore g false 0
  have hmine : u.aset s.curCore = u.mySet := by rw [State.mySet, hcore]
  rw [hmine] at hset
  have hplain (c : CtxId) : (u.startRecording s.curCore g false 0).ctx s.curCore c =
      { nget u.mySet.ctx c with tag := Vector.replicate 32 .plain } := by
    simp only [State.ctx, hset, nget, Vector.getElem_map]
  have hme : (u.startRecording s.curCore g false 0).me = { s.me.goOn with tag := Vector.replicate 32 .plain } := by
    have : (u.startRecording s.curCore g false 0).me = (u.startRecording s.curCore g false 0).ctx u.curCore u.curCtx := rfl
    rw [this, hcore, hctx, hplain, ctx, nget_nset_same]
  have hmySet : (u.startRecording s.curCore g false 0).mySet = (u.startRecording s.curCore g false 0).aset u.curCore := rfl
  refine ⟨_, _, e, runs, rec_startRecording .., rfl, ?_, ?_, rfl, rfl, rfl, rfl, rfl, ?_, ?_, ?_, ?_, instr, num, ?_⟩
  · rw [hmine]; exact sid
  · rw [hmine]; exact tenant
  · intro c x
    rw [hplain]
    simp [vget]
  · intro x
    rw [State.rx, hme]
    rfl
  · rw [hme]; rfl
  · rw [hmySet, hcore, hset]; exact gq
  · intro a
    exact congrArg (Memory.get · a) hmem

/-- `gend` of a set that records (R304). -/
theorem gend_ends {s : State} {r : Recording} (hg : s.mySet.gq.length < 8) (hr : (s.core s.curCore).rec_ = some r)
    (hs : r.sid = s.mySet.sid) :
    ∃ t f e, exec .gend s = .next t ∧ (t.core s.curCore).rec_ = none ∧
      (t.core s.curCore).gReady = (s.core s.curCore).gReady ++ [f] ∧ f.g = r.g ∧ f.sid = r.sid ∧
      f.num = (s.mySet.time .tlg).issued + 1 ∧ t.mySet.gq = s.mySet.gq ++ [e] ∧ e.instr = .gend ∧ e.num = f.num ∧
      t.me = s.me.goOn ∧ SameBytes s t := by
  have room : s.mySet.queueFull s.curCtx .gal = false := queueFull_eq_false.2 ⟨hg, nofun⟩
  obtain ⟨hcore, hctx, hmem⟩ := enter_curCore_mem s .gend true
  obtain ⟨e, gq, instr, num, issued, ctx, sid, -⟩ := enter_gal s (i := .gend) rfl rfl
  have cores := onlySets_enter true rfl (recCommand_unrecorded s (i := .gend) rfl) s.curCore
  have runs : exec .gend s = .next ((s.enter .gend true).endRecording s.curCore ((s.mySet.time .tlg).issued + 1)) := by
    change execGend s = _
    simp only [execGend, room, State.gendIssue, hcore, issued, if_false, Bool.false_eq_true]
  generalize s.enter .gend true = u at *
  have hmine : (u.core s.curCore).act = u.mySet := by rw [State.mySet, hcore]; rfl
  have hrec : (u.core s.curCore).rec_ = some r := by rw [cores]; exact hr
  have hready : (u.core s.curCore).gReady = (s.core s.curCore).gReady := by rw [cores]
  have ends (n : Nat) : u.endRecording s.curCore n = u.setCore s.curCore { u.core s.curCore with
      rec_ := none, gReady := (u.core s.curCore).gReady ++ [⟨r.sid, n, r.g, r.finish (u.core s.curCore).galleyUsed⟩] } := by
    simp only [State.endRecording, hrec, hmine, sid, hs, if_true]
  rw [ends] at runs
  have hset (k : Core) (hk : k.act = u.mySet) : (u.setCore s.curCore k).mySet = u.mySet := by
    rw [State.mySet, State.aset, setCore_curCore, hcore, core_setCore_same, hk]
  have hmySet := hset { u.core s.curCore with
    rec_ := none, gReady := (u.core s.curCore).gReady ++
      [⟨r.sid, (s.mySet.time .tlg).issued + 1, r.g, r.finish (u.core s.curCore).galleyUsed⟩] } hmine
  refine ⟨_, _, e, runs, by rw [core_setCore_same], by rw [core_setCore_same, hready], rfl, rfl, rfl, ?_, instr, num, ?_, ?_⟩
  · rw [hmySet]; exact gq
  · rw [me_eq_nget, hmySet, setCore_curCtx, hctx, ctx, nget_nset_same]
  · intro a
    exact congrArg (Memory.get · a) hmem

/-- `gplay` enters the queue without a number, and its context holds for its result (R305). -/
theorem gplay_enters {s : State} (g : BitVec 3) (xa xb : XReg) (hg : s.mySet.gq.length < 8) :
    ∃ t e, exec (.gplay xa g xb) s = .next t ∧ t.mySet.gq = s.mySet.gq ++ [e] ∧ e.instr = .gplay xa g xb ∧
      e.x1 = s.rx xb ∧ e.k1 = captureTok s.mySet (s.rx xb) ∧ t.me = s.me.holdAt s.clk (.result 2 e.num xa) ∧
      t.mySet.time .tlg = s.mySet.time .tlg ∧ SameBytes s t := by
  have room : s.mySet.queueFull s.curCtx .gal = false := queueFull_eq_false.2 ⟨hg, nofun⟩
  obtain ⟨-, hctx, hmem⟩ := enter_curCore_mem s (.gplay xa g xb) false
  obtain ⟨e, n, he, hn, hset⟩ := enter_mySet s (.gplay xa g xb) false
  obtain rfl := hn rfl
  refine ⟨s.enter (.gplay xa g xb) false, e, ?_, by rw [hset]; rfl, congrArg Entry.instr he, congrArg Entry.x1 he,
    congrArg Entry.k1 he, ?_, by rw [hset]; rfl, fun a => congrArg (Memory.get · a) hmem⟩
  · change execGplay xa g xb s = _
    simp only [execGplay, room, if_false, Bool.false_eq_true]
  · rw [me_eq_nget, hset, hctx]
    exact nget_nset_same ..

/-- `jdone` on a core that records nothing leaves its context IDLE and an entry in the job port's queue (R334). -/
theorem jdone_idles {s : State} (hn : (s.core s.curCore).rec_ = none) (hq : s.mySet.jq.length < 4) (hj : s.mySet.jheld = false) :
    ∃ t e, exec .jdone s = .next t ∧ t.mySet.jq = s.mySet.jq ++ [e] ∧ e.instr = .jdone ∧ e.ctx = s.curCtx ∧
      t.me.st = .idle ∧ (∀ x, t.rx x = s.rx x) ∧ SameBytes s t := by
  have room : s.mySet.queueFull s.curCtx .job = false := queueFull_eq_false.2 ⟨hq, fun _ => hj⟩
  obtain ⟨hcore, hctx, hmem⟩ := enter_curCore_mem s .jdone true
  obtain ⟨e, n, he, -, hset⟩ := enter_mySet s .jdone true
  have cores := onlySets_enter true rfl (recCommand_unrecorded s (i := .jdone) rfl) s.curCore
  have hme : (s.enter .jdone true).me = s.me.goOn := by
    rw [me_eq_nget, hset, hctx]
    exact nget_nset_same ..
  have hclosing : ((s.enter .jdone true).updMe fun x => { x with st := .idle, hold := .none, pend := {} }).closing s.curCore =
      false := by
    have idle := (onlySets_updAct (s.enter .jdone true) s.curCore fun t =>
      { t with ctx := nset t.ctx s.curCtx { nget t.ctx s.curCtx with st := .idle, hold := .none, pend := {} } }) s.curCore
    simp only [State.closing, State.updMe, State.updCtx, hcore, hctx]
    rw [idle, cores]
    simp only [hn]
  refine ⟨(s.enter .jdone true).updMe fun x => { x with st := .idle, hold := .none, pend := {} }, e, ?_, ?_,
    congrArg Entry.instr he, congrArg Entry.ctx he, ?_, ?_, fun a => congrArg (Memory.get · a) hmem⟩
  · change execJdone s = _
    simp only [execJdone, room, State.jdoneIssue, State.closeRecording, updMe_curCore, hcore, hclosing, if_false,
      Bool.false_eq_true]
  · rw [updMe_mySet, hset]; rfl
  · rw [updMe_me]
  · intro x
    rw [State.rx, updMe_me, hme]
    rfl

/-- Settles O29: each E instruction captures what its fields say, and `grec`, `gend`, `gplay` and `jdone` do their own part as well. -/
theorem engineIssues : Obligations.EngineIssues := by
  unfold Obligations.EngineIssues
  refine ⟨?_, fun s g xa xb hg => ⟨grec_begins g hg, fun r => gend_ends hg, gplay_enters g xa xb hg, jdone_idles⟩⟩
  intro s h a b c f rm acc mode kind cls g t hj cap xa xb xc
  have issued {q : EngQ} {i : Instr} {a b c : XReg} {p0 p1 : Bool} {r : Option (Fin 5 × XReg)}
      (hi : IssuedTo s i q (a, b, c) p0 p1 r) : cap q i (s.rx a) (s.rx b) (s.rx c) p0 p1 r := hi.captures fun _ => hj
  have one {q : EngQ} {i : Instr} {a : XReg} {p0 : Bool} (hi : IssuedTo s i q (a, 0, 0) p0 false none) :
      cap q i (s.rx a) 0 0 p0 false none := issued hi
  have two {q : EngQ} {i : Instr} {a b : XReg} {p0 p1 : Bool} {r : Option (Fin 5 × XReg)}
      (hi : IssuedTo s i q (a, b, 0) p0 p1 r) : cap q i (s.rx a) (s.rx b) 0 p0 p1 r := issued hi
  have none_ {q : EngQ} {i : Instr} {r : Option (Fin 5 × XReg)} (hi : IssuedTo s i q (0, 0, 0) false false r) :
      cap q i 0 0 0 false false r := issued hi
  refine ⟨one ?_, two ?_, two ?_, issued ?_, two ?_, one ?_, none_ ?_, none_ ?_, none_ ?_, two ?_, none_ ?_, one ?_, one ?_,
    issued ?_, issued ?_, two ?_, two ?_, issued ?_, none_ ?_, one ?_, one ?_, none_ ?_, none_ ?_, two ?_,
    issued (a := 0) (c := 0) ?_, none_ ?_, fun hsup => two ⟨?_, rfl, rfl, rfl, rfl⟩⟩
  case refine_27 =>
    change execJprio a b s = _
    simp only [execJprio, privileged, hsup, if_true]
  all_goals exact ⟨rfl, rfl, rfl, rfl, rfl⟩

end Sys2Proof.Machine
end

section
namespace Sys2Proof.Machine

/-- An instruction of unit K or Y, and an event, is none of unit V or E. -/
theorem not_engine_unit {u x : LaneUnit} {w y : W32} (h : some (x, y) = some (u, w)) (hx : ¬ (x = .v ∨ x = .e)) :
    ¬ (u = .v ∨ u = .e) := by
  cases h
  exact hx

/-- A V or E instruction whose queue has room issues at once (R37); `jprio` only in supervisor mode (R337). -/
theorem exec_eq_issueNow {s : State} {i : Instr} {u : LaneUnit} {w : W32} (he : encode i = some (u, w)) (hu : u = .v ∨ u = .e)
    (hp : ∀ a b, i = .jprio a b → s.me.sup = true) (room : s.mySet.queueFull s.curCtx (engQueue i) = false) :
    exec i s = .next (s.issueNow i) := by
  have alike {i : Instr} (hx : exec i s = issueEngine i s) (hi : s.issueNow i = s.enter i true)
      (room : s.mySet.queueFull s.curCtx (engQueue i) = false) : exec i s = .next (s.issueNow i) := by
    rw [hx, hi, issueEngine, room]; rfl
  have own {i : Instr} (full : Bool) (h : State) (hx : exec i s = if full then .next h else .next (s.issueNow i))
      (hf : full = false) : exec i s = .next (s.issueNow i) := by
    rw [hx, hf]; rfl
  cases i
  case jprio a b =>
    refine alike ?_ rfl room
    change execJprio a b s = _
    simp only [execJprio, privileged, hp a b rfl, if_true]
  case grec g => exact own (i := .grec g) _ _ rfl room
  case gend => exact own (i := .gend) _ _ rfl room
  case gplay a g b => exact own (i := .gplay a g b) _ _ rfl room
  case jdone => exact own (i := .jdone) _ _ rfl room
  -- Of the rest, each is of another unit, or an event, which has no word, or issues by `issueEngine` alone.
  all_goals first
    | exact absurd hu (not_engine_unit he (by decide))
    | exact absurd he.symm (Option.some_ne_none _)
    | exact alike rfl rfl room

/-- A slot that a context uses changes of its set only the clk from which the context may issue again (R11). -/
theorem aset_useSlot (s : State) (g : Nat) (c : CtxId) : (s.useSlot g c).aset g =
    { s.aset g with ctx := nset (s.aset g).ctx c { s.ctx g c with slotAt := s.clk + 1 } } := by
  have used : (s.updCtx g c fun x => { x with slotAt := s.clk + 1 }).aset g =
      { s.aset g with ctx := nset (s.aset g).ctx c { s.ctx g c with slotAt := s.clk + 1 } } := aset_updAct ..
  unfold State.useSlot
  dsimp only
  split
  · exact used
  · rw [← used]
    simp [State.aset, Core.act]

theorem useSlot_cur (s : State) (g : Nat) (c : CtxId) :
    (s.useSlot g c).curCore = s.curCore ∧ (s.useSlot g c).curCtx = s.curCtx := by
  unfold State.useSlot
  dsimp only
  split <;> exact ⟨rfl, rfl⟩

/-- Settles O30: the release and the issue of the instruction come to the same state. -/
theorem fullQueuesRelease : Obligations.FullQueuesRelease := by
  unfold Obligations.FullQueuesRelease
  intro s g c i u w he hu hp hold room fresh quiet slotOpen slot at_
  have slotted : at_ = ({ s with curCore := g, curCtx := c } : State).useSlot g c := by
    by_cases h : c = 1
    · subst h; rfl
    · simp only [at_, if_neg h, State.useSlot, beq_eq_false_iff_ne.2 h]; rfl
  obtain ⟨hcore, hctx⟩ := useSlot_cur ({ s with curCore := g, curCtx := c } : State) g c
  have set := aset_useSlot ({ s with curCore := g, curCtx := c } : State) g c
  rw [← slotted] at hcore hctx set
  have mine : at_.mySet = at_.aset g := by rw [State.mySet, hcore]
  have sup : at_.me.sup = (s.ctx g c).sup := by
    rw [me_eq_nget, mine, set, hctx]
    simp only [nget_nset_same]
    rfl
  have enters : exec i at_ = .next (at_.issueNow i) := by
    refine exec_eq_issueNow he hu ?_ ?_
    · rintro a b rfl
      exact sup.trans hp
    · rw [mine, set, hctx]; exact room
  refine ⟨at_.issueNow i, ?_, enters⟩
  change execEngineQueueFullRelease g c s = _
  simp only [execEngineQueueFullRelease, hold, room, fresh, quiet, slotOpen, slotted, Option.isSome_none, Bool.not_true,
    Bool.or_self, Bool.false_eq_true, if_false]

end Sys2Proof.Machine
end

section
namespace Sys2Proof.Machine

/-! ### Numbers in memory -/

@[simp] theorem length_leBytes (n v : Nat) : (leBytes n v).length = n := by
  induction n generalizing v with
  | zero => rfl
  | succ n ih => simp [leBytes, ih]

/-- The bytes of a number give it back modulo 2^(8n). -/
theorem leNat_leBytes (n v : Nat) : leNat (leBytes n v) = v % 256 ^ n := by
  induction n generalizing v with
  | zero => simp [leBytes, leNat, Nat.mod_one]
  | succ n ih =>
    have step : 256 ^ (n + 1) = 256 * 256 ^ n := Nat.pow_succ'
    rw [step, Nat.mod_mul, leBytes, leNat, ih, BitVec.toNat_ofNat]

theorem leNat_lt (l : List Byte) : leNat l < 256 ^ l.length := by
  induction l with
  | nil => simp [leNat]
  | cons b l ih =>
    have hb := b.isLt
    rw [leNat, List.length_cons, Nat.pow_succ]
    omega

theorem readNat_lt (s : State) (a n : Nat) : s.readNat a n < 256 ^ n := by
  have h := leNat_lt (s.mem.read a n)
  rwa [Memory.read, List.length_map, List.length_range] at h

/-- A number in memory depends on its own bytes alone. -/
theorem readNat_congr {s t : State} {a n : Nat} (h : ∀ i, i < n → t.mem.get (a + i) = s.mem.get (a + i)) :
    t.readNat a n = s.readNat a n := by
  refine congrArg leNat (List.map_congr_left fun i hi => h i (List.mem_range.1 hi))

theorem bytesAt_eq (a n v : Nat) : bytesAt a n v = (List.range n).map fun i => (a + i, (leBytes n v).getD i 0) := by
  refine List.ext_getElem (by simp [bytesAt]) fun i h _ => ?_
  have hi : i < n := by simpa [bytesAt] using h
  simp [bytesAt, hi]

/-- Memory where the bytes of a number have been written (R247). -/
theorem get_setAll_bytesAt {m : Memory} (h : m.wf = true) (a n v i : Nat) (hi : i < n) :
    (m.setAll (bytesAt a n v)).get (a + i) = (leBytes n v).getD i 0 := by
  refine Memory.get_setAll_mem h ?_ ?_
  · rw [bytesAt_eq, List.pairwise_map]
    exact List.pairwise_lt_range.imp fun hlt => by dsimp only; omega
  · rw [bytesAt_eq]
    exact List.mem_map.2 ⟨i, List.mem_range.2 hi, rfl⟩

theorem get_setAll_bytesAt_ne (m : Memory) {a n v l : Nat} (h : l < a ∨ a + n ≤ l) :
    (m.setAll (bytesAt a n v)).get l = m.get l := by
  refine Memory.get_setAll_ne m _ l fun e he => ?_
  rw [bytesAt_eq] at he
  obtain ⟨i, hi, rfl⟩ := List.mem_map.1 he
  have := List.mem_range.1 hi
  dsimp only
  omega

/-- A number that a write at its home has left reads as written (R247). -/
theorem readNat_writeHome {s : State} (h : s.MemOk) (a n v : Nat) (p : Bool) :
    (s.writeHome (bytesAt a n v) p).readNat a n = v % 256 ^ n := by
  rw [← leNat_leBytes]
  refine congrArg leNat (List.ext_getElem (by simp [Memory.read]) fun i h1 h2 => ?_)
  have hi : i < n := by simpa using h2
  simp only [Memory.read, List.getElem_map, List.getElem_range, writeHome_mem, get_setAll_bytesAt h a n v i hi]
  rw [List.getD_eq_getElem?_getD, List.getElem?_eq_getElem h2]
  rfl

theorem get_writeHome_bytesAt_ne (s : State) {a n v l : Nat} (p : Bool) (h : l < a ∨ a + n ≤ l) :
    (s.writeHome (bytesAt a n v) p).mem.get l = s.mem.get l := by
  rw [writeHome_mem, get_setAll_bytesAt_ne _ h]

/-- A number beside the bytes that a write at their home names reads as before. -/
theorem readNat_writeHome_ne (s : State) {a n v b m : Nat} (p : Bool) (h : b + m ≤ a ∨ a + n ≤ b) :
    (s.writeHome (bytesAt a n v) p).readNat b m = s.readNat b m :=
  readNat_congr fun i hi => get_writeHome_bytesAt_ne s p (by omega)

/-! ### What writes leave of the package -/

/-- The cards, the clk, the numbers given out and the package's own number are as before. -/
structure SameBooks (s t : State) : Prop where
  cards : t.cards = s.cards
  clk : t.clk = s.clk
  nextId : t.nextId = s.nextId
  pkgid : t.pkgid = s.pkgid

theorem SameBooks.refl (s : State) : SameBooks s s := ⟨rfl, rfl, rfl, rfl⟩

theorem SameBooks.trans {s t u : State} (a : SameBooks s t) (b : SameBooks t u) : SameBooks s u :=
  ⟨b.cards.trans a.cards, b.clk.trans a.clk, b.nextId.trans a.nextId, b.pkgid.trans a.pkgid⟩

theorem SameBooks.foldl {α : Type} {f : State → α → State} (hf : ∀ s a, SameBooks s (f s a)) (l : List α) (s : State) :
    SameBooks s (l.foldl f s) := by
  induction l generalizing s with
  | nil => exact .refl s
  | cons a l ih => exact (hf s a).trans (ih _)

theorem sameBooks_invalidate (s : State) (n : Nat) : SameBooks s (s.invalidate n) := by
  unfold State.invalidate
  split <;> exact ⟨rfl, rfl, rfl, rfl⟩

theorem sameBooks_setMoesi (s : State) (n : Nat) (m : Moesi) : SameBooks s (s.setMoesi n m) := by
  unfold State.setMoesi
  split <;> exact ⟨rfl, rfl, rfl, rfl⟩

theorem sameBooks_poisonWrite (s : State) (l : List Nat) (p : Bool) (b : List Nat) : SameBooks s (s.poisonWrite l p b) := by
  cases p <;> exact ⟨rfl, rfl, rfl, rfl⟩

theorem sameBooks_hitMonitors (s : State) (l : List Nat) : SameBooks s (s.hitMonitors l) := by
  unfold State.hitMonitors
  split <;> exact ⟨rfl, rfl, rfl, rfl⟩

theorem sameBooks_writeHome (s : State) (l : List (Nat × Byte)) (p : Bool) (b : List Nat) : SameBooks s (s.writeHome l p b) := by
  unfold State.writeHome
  dsimp only
  have h1 := SameBooks.foldl sameBooks_invalidate (((l.map (·.1)).map (· / 64)).dedup) s
  generalize List.foldl State.invalidate s _ = u at h1 ⊢
  have h2 := SameBooks.foldl (fun s n => sameBooks_setMoesi s n .modified) (((l.map (·.1)).map (· / 64)).dedup)
    (u.recall (l.map (·.1)))
  generalize List.foldl (fun (s : State) line => s.setMoesi line .modified) _ _ = v at h2 ⊢
  have h3 := (sameBooks_poisonWrite { v with mem := v.mem.setAll l } (l.map (·.1)) p b).trans (sameBooks_hitMonitors _ (l.map (·.1)))
  exact (h1.trans ⟨h2.cards, h2.clk, h2.nextId, h2.pkgid⟩).trans ⟨h3.cards, h3.clk, h3.nextId, h3.pkgid⟩

/-! ### A die's own memory (R113) -/

theorem podAddr_congr {s t : State} (h : t.pkgid = s.pkgid) (d a : Nat) : podAddr t d a = podAddr s d a := by
  rw [podAddr, podAddr, h]

/-- Addresses of a die follow one another. -/
theorem podAddr_add (s : State) (d a i : Nat) (h : a + i < 2 ^ 51) : podAddr s d (a + i) = podAddr s d a + i := by
  rw [podAddr, podAddr, Nat.mod_eq_of_lt h, Nat.mod_eq_of_lt (by omega)]
  omega

theorem podAddr_mod (s : State) (d a : Nat) : podAddr s d a % 2 ^ 51 = a % 2 ^ 51 := by
  unfold podAddr
  omega

/-- The regions below the status space (R232). -/
theorem region_below {p a : Nat} (hp : p % 2 ^ 51 = a) (h : a < 0x2000000000) :
    region p = .hbm ∨ region p = .labels ∨ region p = .reserved := by
  simp only [region, hp]
  by_cases h1 : a < 0x1FC0000000
  · exact .inl (if_pos h1)
  · rw [if_neg h1, if_pos h]
    by_cases h2 : (0x1FC4000000 ≤ a && a < 0x1FC4400000) = true
    · exact .inr (.inl (if_pos h2))
    · exact .inr (.inr (if_neg h2))

theorem inHbm_below {p a : Nat} (hp : p % 2 ^ 51 = a) (h : a < 0x2000000000) : inHbm p = true := by
  unfold inHbm
  rcases region_below hp h with hr | hr | hr <;> rw [hr]

/-- The HBM4E of a die and the tables above it are its own memory. -/
theorem inHbm_podAddr (s : State) (d a : Nat) (h : a < 0x2000000000) : inHbm (podAddr s d a) = true :=
  inHbm_below (by rw [podAddr_mod]; omega) h

theorem dieRead_eq (s : State) (d a n : Nat) (h : a + n ≤ 0x1FC0000000) : s.dieRead d a n = s.readNat (podAddr s d a) n := by
  refine congrArg leNat (List.map_congr_left fun i hi => ?_)
  have hi := List.mem_range.1 hi
  have hl : (a + i) % 2 ^ 51 = a + i := Nat.mod_eq_of_lt (by omega)
  have below : (pinTable ≤ a + i && a + i < pinTable + 2 ^ 26) = false := by
    have : ¬ pinTable ≤ a + i := by unfold pinTable; omega
    simp [this]
  simp only [State.dieByte, hl, below, inHbm_podAddr s d (a + i) (by omega), if_true, Bool.false_eq_true, if_false]
  rw [podAddr_add s d a i (by omega)]

theorem dieWrite_leBytes (s : State) (d a n v : Nat) (h : a + n ≤ 0x2000000000) :
    s.dieWrite d a (leBytes n v) = s.writeHome (bytesAt (podAddr s d a) n v) false := by
  unfold State.dieWrite
  congr 1
  have bytes : ((List.range (leBytes n v).length).map fun i => podAddr s d (a + i)).zip (leBytes n v) =
      bytesAt (podAddr s d a) n v := by
    rw [bytesAt, length_leBytes]
    refine congrArg (List.zip · _) (List.map_congr_left fun i hi => ?_)
    have hi := List.mem_range.1 hi
    exact podAddr_add s d a i (by omega)
  rw [bytes, List.filter_eq_self]
  intro e he
  rw [bytesAt_eq] at he
  obtain ⟨i, hi, rfl⟩ := List.mem_map.1 he
  have hi := List.mem_range.1 hi
  rw [← podAddr_add s d a i (by omega)]
  exact inHbm_podAddr s d _ (by omega)

end Sys2Proof.Machine
end

section
namespace Sys2Proof.Machine

/-! ### Queue descriptors (R313) -/

theorem qfield_eq (s : State) (d : Nat) (q : BitVec 6) {off n : Nat} (h : off + n ≤ 64) :
    s.dieRead d (qdescAddr q + off) n = s.readNat (podAddr s d (qdescAddr q) + off) n := by
  have hq : qdescAddr q + 64 ≤ 0x1FC0000000 := by have := q.isLt; unfold qdescAddr dispatchBlock; omega
  rw [dieRead_eq s d _ n (by omega), podAddr_add s d _ off (by omega)]

theorem setQField_eq (s : State) (d : Nat) (q : BitVec 6) {off : Nat} (v : W32) (h : off ≤ 64) :
    s.setQField d q off v = s.writeHome (bytesAt (podAddr s d (qdescAddr q) + off) 4 v.toNat) false := by
  have hq : qdescAddr q + 64 ≤ 0x1FC0000000 := by have := q.isLt; unfold qdescAddr dispatchBlock; omega
  rw [State.setQField, podAddr_add s d _ off (by omega)]

/-- Descriptors that lie alike in memory are alike. -/
theorem qdesc_congr {s t : State} (d : Nat) (q : BitVec 6) (hp : t.pkgid = s.pkgid)
    (h : ∀ i, i < 64 → t.mem.get (podAddr s d (qdescAddr q) + i) = s.mem.get (podAddr s d (qdescAddr q) + i)) :
    t.qdesc d q = s.qdesc d q := by
  have rd (off n : Nat) (hn : off + n ≤ 64) : t.dieRead d (qdescAddr q + off) n = s.dieRead d (qdescAddr q + off) n := by
    rw [qfield_eq t d q hn, qfield_eq s d q hn, podAddr_congr hp]
    refine readNat_congr fun i hi => ?_
    rw [Nat.add_assoc]
    exact h (off + i) (by omega)
  simp only [State.qdesc]
  rw [rd 0 8, rd 8 1, rd 9 1, rd 10 2, rd 12 4, rd 16 4, rd 20 4, rd 24 4, rd 28 4, rd 32 8, rd 40 8, rd 48 8, rd 56 4, rd 60 4] <;>
    decide

theorem qdesc_withCards (s : State) (d : Nat) (q : BitVec 6) (l : FMap Card) (n : Nat) :
    ({ s with cards := l, nextId := n } : State).qdesc d q = s.qdesc d q :=
  qdesc_congr d q rfl fun _ _ => rfl

theorem pkgid_setQField (s : State) (d : Nat) (q : BitVec 6) (off : Nat) (v : W32) : (s.setQField d q off v).pkgid = s.pkgid :=
  (sameBooks_writeHome ..).pkgid

theorem qfield_setQField_ne (s : State) (d : Nat) (q : BitVec 6) {off o n : Nat} (v : W32) (ho : off ≤ 64) (hn : o + n ≤ 64)
    (h : o + n ≤ off ∨ off + 4 ≤ o) :
    (s.setQField d q off v).dieRead d (qdescAddr q + o) n = s.dieRead d (qdescAddr q + o) n := by
  rw [qfield_eq _ d q hn, qfield_eq s d q hn, podAddr_congr (pkgid_setQField s d q off v), setQField_eq s d q v ho]
  exact readNat_writeHome_ne s false (by omega)

theorem qfield_setQField {s : State} (hm : s.MemOk) (d : Nat) (q : BitVec 6) {off : Nat} (v : W32) (ho : off + 4 ≤ 64) :
    (s.setQField d q off v).dieRead d (qdescAddr q + off) 4 = v.toNat := by
  rw [qfield_eq _ d q ho, podAddr_congr (pkgid_setQField s d q off v), setQField_eq s d q v (by omega), readNat_writeHome hm]
  exact Nat.mod_eq_of_lt v.isLt

/-- A dispatcher that takes the next position moves the head of its queue alone (R313). -/
theorem qdesc_setHead {s : State} (hm : s.MemOk) (d : Nat) (q : BitVec 6) (v : W32) :
    (s.setQField d q 20 v).qdesc d q = { s.qdesc d q with head := v } := by
  simp (disch := decide) only [State.qdesc, qfield_setQField hm, qfield_setQField_ne, BitVec.ofNat_toNat, BitVec.setWidth_eq]

theorem head_setHead {s : State} (hm : s.MemOk) (d : Nat) (q : BitVec 6) (v : W32) :
    ((s.setQField d q 20 v).qdesc d q).head = v := by
  rw [qdesc_setHead hm]

theorem qdesc_setFree_head (s : State) (d : Nat) (q : BitVec 6) (v : W32) :
    ((s.setQField d q 24 v).qdesc d q).head = (s.qdesc d q).head := by
  simp (disch := decide) only [State.qdesc, qfield_setQField_ne]

/-- The free position of a queue moves on, or stays (R315). -/
theorem advanceFree_cases (s : State) (d : Fin 8) (q : BitVec 6) :
    s.advanceFree d q = s ∨ ∃ p, s.advanceFree d q = s.setQField d.val q 24 p := by
  unfold State.advanceFree
  dsimp only
  split
  · exact .inl rfl
  · exact .inr ⟨_, rfl⟩

theorem notify_mem (s : State) (v : Fin 9) : (s.notify v).mem = s.mem ∧ SameBooks s (s.notify v) := by
  unfold State.notify
  dsimp only
  split
  · exact ⟨rfl, rfl, rfl, rfl, rfl⟩
  · split <;> exact ⟨rfl, rfl, rfl, rfl, rfl⟩

/-! ### The status word of a card (R312) -/

/-- A flag of the status word. -/
def statusBit (b : Bool) (i : Nat) : Nat := if b then 2 ^ i else 0

theorem statusBit_le (b : Bool) (i : Nat) : statusBit b i ≤ 2 ^ i := by
  unfold statusBit
  split
  · exact Nat.le_refl _
  · exact Nat.zero_le _

theorem status_toNat (c : Card) {code detail : Nat} (hc : code < 2 ^ 8) (hd : detail < 2 ^ 16) :
    (c.status code detail).toNat = code + 2 ^ 32 * detail + statusBit c.stFail 12 + statusBit c.noSucc 11 +
      statusBit c.fallback 10 + statusBit c.recorded 9 + statusBit c.played 8 := by
  have h1 := statusBit_le c.stFail 12
  have h2 := statusBit_le c.noSucc 11
  have h3 := statusBit_le c.fallback 10
  have h4 := statusBit_le c.recorded 9
  have h5 := statusBit_le c.played 8
  have word : (c.status code detail).toNat = (detail * 2 ^ 32 + statusBit c.stFail 12 + statusBit c.noSucc 11 +
      statusBit c.fallback 10 + statusBit c.recorded 9 + statusBit c.played 8 + code) % 2 ^ 64 := BitVec.toNat_ofNat ..
  rw [word, Nat.mod_eq_of_lt (by omega)]
  omega

/-- What the final status of a card leaves: its word in its slot, the head of its queue, and the books (R312, R315). -/
theorem writeFinal_spec {s : State} (hm : s.MemOk) {c : Card} {d : Fin 8} {q : BitVec 6} {p : W32} (hd : c.die = d)
    (hq : c.queue = q) (hp : c.pos = p) (code detail : Nat) (tell : Bool) (hs : (s.qdesc d.val q).slotAddr p < 0x1FC0000000)
    (hc : podAddr s d.val ((s.qdesc d.val q).slotAddr p + 224) + 8 ≤ podAddr s d.val (qdescAddr q) ∨
      podAddr s d.val (qdescAddr q) + 64 ≤ podAddr s d.val ((s.qdesc d.val q).slotAddr p + 224)) :
    (s.writeFinal c code detail tell).readNat (podAddr s d.val ((s.qdesc d.val q).slotAddr p + 224)) 8 =
        (c.status code detail).toNat ∧
      ((s.writeFinal c code detail tell).qdesc d.val q).head = (s.qdesc d.val q).head ∧
      SameBooks s (s.writeFinal c code detail tell) := by
  subst hd hq hp
  generalize ha : podAddr s c.die.val ((s.qdesc c.die.val c.queue).slotAddr c.pos + 224) = a at hc ⊢
  -- the word is written
  let u := s.writeHome (bytesAt a 8 (c.status code detail).toNat) false
  have hu : SameBooks s u := sameBooks_writeHome ..
  have word : u.readNat a 8 = (c.status code detail).toNat :=
    (readNat_writeHome hm a 8 _ false).trans (Nat.mod_eq_of_lt (c.status code detail).isLt)
  have desc : u.qdesc c.die.val c.queue = s.qdesc c.die.val c.queue :=
    qdesc_congr _ _ hu.pkgid fun i hi => get_writeHome_bytesAt_ne s false (by omega)
  -- free moves on
  let v := u.advanceFree c.die c.queue
  have freed : v.readNat a 8 = u.readNat a 8 ∧ (v.qdesc c.die.val c.queue).head = (u.qdesc c.die.val c.queue).head ∧
      SameBooks u v := by
    rcases advanceFree_cases u c.die c.queue with h | ⟨p, h⟩
    · rw [show v = u from h]; exact ⟨rfl, rfl, .refl _⟩
    · rw [show v = u.setQField c.die.val c.queue 24 p from h]
      refine ⟨?_, qdesc_setFree_head .., sameBooks_writeHome ..⟩
      rw [setQField_eq u c.die.val c.queue p (by decide), podAddr_congr hu.pkgid]
      exact readNat_writeHome_ne u false (by omega)
  obtain ⟨freed1, freed2, freed3⟩ := freed
  have hv : v.readNat a 8 = (c.status code detail).toNat ∧
      (v.qdesc c.die.val c.queue).head = (s.qdesc c.die.val c.queue).head ∧ SameBooks s v :=
    ⟨freed1.trans word, by rw [freed2, desc], hu.trans freed3⟩
  have final : s.writeFinal c code detail tell =
      if tell && (c.word 0).getLsbD 63 then v.notifyDie c.die.val else v := by
    rw [State.writeFinal, dieWrite_leBytes s _ _ 8 _ (by omega), ha]
  rw [final]
  split
  · obtain ⟨mem, books⟩ := notify_mem v ⟨c.die.val % 8, by omega⟩
    refine ⟨?_, ?_, hv.2.2.trans books⟩
    · rw [State.notifyDie, ← hv.1]
      exact readNat_congr fun i _ => by rw [mem]
    · rw [State.notifyDie, ← hv.2.1]
      exact congrArg QDesc.head (qdesc_congr _ _ books.pkgid fun i _ => by rw [mem])
  · exact hv

/-! ### Acceptance (R317) -/

/-- The card in the slot at the head of a queue, as a dispatcher reads it (R310). -/
def State.headCard (s : State) (d : Fin 8) (q : BitVec 6) : Card :=
  let k := s.qdesc d.val q
  let at_ := podAddr s d.val (k.slotAddr k.head)
  let words : Vector W64 32 := Vector.ofFn fun i => BitVec.ofNat 64 (s.readNat (at_ + 8 * i.val) 8)
  { die := d, queue := q, pos := k.head, words := words, st := .wait, preds := words[1].extractLsb' 32 16
    prio := words[0].extractLsb' 58 3, prin := s.sdescPrin d.val k.sdesc, tenant := words[0].extractLsb' 32 8 }

/-- A queue has a position that its dispatcher may take (R313, R315, R343). -/
def State.hasNext (s : State) (d : Fin 8) (q : BitVec 6) : Prop :=
  let k := s.qdesc d.val q
  s.booted = true ∧ (s.die d.val).fenced = false ∧ k.enabled = true ∧ (k.tail - k.head).msb = false ∧
    (k.head - k.free).toNat < (k.tail - k.free).toNat ∧ (k.head - k.free).toNat < 2 ^ k.logcap ∧ k.slotAddr k.head < 0x1FC0000000

/-- A slot of an enabled queue ends where the next begins (R313). -/
theorem slotAddr_end {k : QDesc} (he : k.enabled = true) {p : W32} (h : k.slotAddr p < 0x1FC0000000) :
    k.slotAddr p + 256 ≤ 0x1FC0000000 := by
  have base : k.base % 256 = 0 := by
    simp only [QDesc.enabled, QDesc.malformed, Bool.and_eq_true, Bool.not_eq_true', Bool.or_eq_false_iff, bne_eq_false_iff_eq] at he
    tauto
  unfold QDesc.slotAddr at h ⊢
  omega

/-- A dispatcher takes the next position of a queue, and accepts or rejects its card. -/
theorem cardAccept_takes {s : State} {d : Fin 8} {q : BitVec 6} (h : s.hasNext d q) : exec (.cardAccept d q) s =
    .next ((s.setQField d.val q 20 ((s.qdesc d.val q).head + 1)).acceptCard (s.headCard d q)) := by
  obtain ⟨booted, fenced, enabled, msb, room, cap, hbm⟩ := h
  have later : ((s.qdesc d.val q).tail == (s.qdesc d.val q).head) = false := by
    refine beq_eq_false_iff_ne.2 fun e => ?_
    rw [e] at room
    exact Nat.lt_irrefl _ room
  have words : (Vector.ofFn fun i : Fin 32 =>
        BitVec.ofNat 64 (s.dieRead d.val ((s.qdesc d.val q).slotAddr (s.qdesc d.val q).head + 8 * i.val) 8)) =
      Vector.ofFn fun i => BitVec.ofNat 64
        (s.readNat (podAddr s d.val ((s.qdesc d.val q).slotAddr (s.qdesc d.val q).head) + 8 * i.val) 8) := by
    have hend := slotAddr_end enabled hbm
    refine congrArg Vector.ofFn (funext fun i => ?_)
    have hi := i.isLt
    rw [dieRead_eq s d.val _ 8 (by omega), podAddr_add s d.val _ (8 * i.val) (by omega)]
  change execCardAccept d q s = _
  simp only [execCardAccept, booted, fenced, enabled, msb, later, Nat.not_le.2 cap, words, Bool.not_true, Bool.or_self,
    decide_false, Bool.false_eq_true, if_false]
  rfl

end Sys2Proof.Machine
end

section
namespace Sys2Proof.Machine

theorem slotAddr_setHead (k : QDesc) (v p : W32) : ({ k with head := v } : QDesc).slotAddr p = k.slotAddr p := rfl

/-- A card as its dispatcher reads it has neither tokens nor a counter yet. -/
theorem headCard_plain (s : State) (d : Fin 8) (q : BitVec 6) :
    ({ s.headCard d q with tiles := [], counter := none } : Card) = s.headCard d q := by
  unfold State.headCard
  rfl

/-- A card without an id ends with status code 0x14 (R312, R317). -/
theorem cardAccept_rejects {s : State} (hm : s.MemOk) {d : Fin 8} {q : BitVec 6} (h : s.hasNext d q)
    (hc : podAddr s d.val ((s.qdesc d.val q).slotAddr (s.qdesc d.val q).head + 224) + 8 ≤ podAddr s d.val (qdescAddr q) ∨
      podAddr s d.val (qdescAddr q) + 64 ≤ podAddr s d.val ((s.qdesc d.val q).slotAddr (s.qdesc d.val q).head + 224))
    (hid : (s.headCard d q).id = 0) :
    ∃ t, exec (.cardAccept d q) s = .next t ∧
      t.readNat (podAddr s d.val ((s.qdesc d.val q).slotAddr (s.qdesc d.val q).head + 224)) 8 = 0x14 ∧
      (t.qdesc d.val q).head = (s.qdesc d.val q).head + 1 := by
  have taken := qdesc_setHead hm d.val q ((s.qdesc d.val q).head + 1)
  have pkg := podAddr_congr (pkgid_setQField s d.val q 20 ((s.qdesc d.val q).head + 1)) d.val
  have hu : (s.setQField d.val q 20 ((s.qdesc d.val q).head + 1)).MemOk := writeHome_wf _ _ _ hm
  have runs := cardAccept_takes h
  obtain ⟨-, -, -, -, -, -, hbm⟩ := h
  generalize s.setQField d.val q 20 ((s.qdesc d.val q).head + 1) = u at taken pkg hu runs
  have code : u.cardCode (s.headCard d q) = 0x14 := by
    have malformed : u.cardMalformed (s.headCard d q) = true := by simp only [State.cardMalformed, hid, BEq.rfl, Bool.true_or]
    simp only [State.cardCode, malformed, if_true]
  have final : u.acceptCard (s.headCard d q) = u.writeFinal (s.headCard d q) 0x14 0 true := by
    simp only [State.acceptCard, code]
    rfl
  have slot : (u.qdesc d.val q).slotAddr (s.qdesc d.val q).head = (s.qdesc d.val q).slotAddr (s.qdesc d.val q).head := by
    rw [taken, slotAddr_setHead]
  obtain ⟨word, head, -⟩ := writeFinal_spec hu (c := s.headCard d q) (d := d) (q := q)
    (p := (s.qdesc d.val q).head) rfl rfl rfl 0x14 0 true (by rw [slot]; exact hbm)
    (by rw [slot, pkg, pkg]; exact hc)
  rw [runs, final]
  refine ⟨_, rfl, ?_, ?_⟩
  · rw [slot, pkg] at word
    refine word.trans ((status_toNat _ (by decide) (by decide)).trans ?_)
    simp [State.headCard, statusBit]
  · rw [head, taken]

/-- A card that no check rejects, with no tile and no counter, is accepted (R316, R317). -/
theorem cardAccept_accepts {s : State} (hm : s.MemOk) {d : Fin 8} {q : BitVec 6} (h : s.hasNext d q)
    (hcode : (s.setQField d.val q 20 ((s.qdesc d.val q).head + 1)).cardCode (s.headCard d q) = 0)
    (hused : (s.headCard d q).used = []) (hctr : (s.headCard d q).word 29 = 0) :
    ∃ t, exec (.cardAccept d q) s = .next t ∧ (t.qdesc d.val q).head = (s.qdesc d.val q).head + 1 ∧
      fget t.cards s.nextId = some (if (s.headCard d q).preds = 0 then { s.headCard d q with st := .ready, readyAt := s.clk }
        else s.headCard d q) := by
  have taken := head_setHead hm d.val q ((s.qdesc d.val q).head + 1)
  have runs := cardAccept_takes h
  have books : SameBooks s (s.setQField d.val q 20 ((s.qdesc d.val q).head + 1)) := sameBooks_writeHome ..
  generalize s.setQField d.val q 20 ((s.qdesc d.val q).head + 1) = u at taken runs hcode books
  have counter : u.cardCounter (s.headCard d q) = .ok none := by
    simp [State.cardCounter, hctr]
  have toMove : (s.headCard d q).toMove u.clk = { s.headCard d q with st := .ready, readyAt := s.clk } := by
    simp only [Card.toMove, hused, List.any_nil, Bool.false_eq_true, if_false, books.clk]
  have accepted : u.acceptCard (s.headCard d q) = { u with
      cards := fset u.cards u.nextId (if (s.headCard d q).preds = 0 then { s.headCard d q with st := .ready, readyAt := s.clk }
        else s.headCard d q)
      nextId := u.nextId + 1 } := by
    simp only [State.acceptCard, hcode, hused, State.makeTiles, counter, headCard_plain, toMove, bne_self_eq_false,
      Bool.false_eq_true, if_false]
  rw [runs, accepted]
  refine ⟨_, rfl, ?_, ?_⟩
  · rw [qdesc_withCards, taken]
  · rw [← books.nextId]
    exact fget_fset_same ..

/-! ### Selection (R320) -/

/-- The one card that comes before every other is the best. -/
theorem best_eq {s : State} {c : Nat × Card} {l : List (Nat × Card)} (hc : c ∈ l)
    (h : ∀ e ∈ l, e ≠ c → s.before c.2 e.2 = true ∧ s.before e.2 c.2 = false) : s.best l = some c := by
  have mem (l : List (Nat × Card)) (f : Nat × Card) (hf : s.best l = some f) : f ∈ l := by
    induction l generalizing f with
    | nil => simp [State.best] at hf
    | cons e l ih =>
      unfold State.best at hf
      split at hf
      · rename_i g hg
        split at hf
        · simp_all
        · simp only [Option.some.injEq] at hf
          exact hf ▸ List.mem_cons_of_mem _ (ih g hg)
      · simp_all
  induction l with
  | nil => simp at hc
  | cons e l ih =>
    have rest := fun x hx => h x (List.mem_cons_of_mem _ hx)
    unfold State.best
    by_cases hl : c ∈ l
    · rw [ih hl rest]
      by_cases he : e = c
      · subst he
        dsimp only
        split <;> rfl
      · simp only [(h e List.mem_cons_self he).2, Bool.false_eq_true, if_false]
    · obtain rfl : c = e := by simpa [hl] using hc
      cases hb : s.best l with
      | none => rfl
      | some f =>
        have hf := mem l f hb
        have hne : f ≠ c := fun x => hl (x ▸ hf)
        simp only [(h f (List.mem_cons_of_mem _ hf) hne).1, if_true]

/-- The best candidate of a die is SELECTED (R320). -/
theorem cardSelect_selects {s : State} {d : Fin 8} {n : Nat} {c : Card} (hf : (s.die d.val).fenced = false)
    (hp : s.pendingBinds d.val = []) (hc : (n, c) ∈ s.candidates d.val) (hr : c.st = .ready)
    (hb : ∀ e ∈ s.candidates d.val, e ≠ (n, c) → s.before c e.2 = true ∧ s.before e.2 c = false) :
    ∃ t, exec (.cardSelect d) s = .next t ∧ SameBytes s t ∧
      fget t.cards n = some { c with st := .selected, selSeq := s.nextId } := by
  refine ⟨{ s with cards := fset s.cards n { c with st := .selected, selSeq := s.nextId }, nextId := s.nextId + 1 }, ?_,
    fun _ => rfl, fget_fset_same ..⟩
  change execCardSelect d s = _
  simp only [execCardSelect, hf, hp, best_eq hc hb, hr, List.isEmpty_nil, Bool.not_true, Bool.or_self, Bool.false_eq_true,
    if_false, BEq.rfl, if_true]

end Sys2Proof.Machine
end

section
namespace Sys2Proof.Machine

/-! ### Operations that change the dies alone (R106 to R109, R122, R130, R131) -/

/-- Nothing but the dies has changed. -/
def OnlyDies (s t : State) : Prop := t = { s with dies := t.dies }

theorem OnlyDies.refl (s : State) : OnlyDies s s := rfl

theorem OnlyDies.trans {s t u : State} (a : OnlyDies s t) (b : OnlyDies t u) : OnlyDies s u := by
  unfold OnlyDies at *
  rw [b, a]

theorem OnlyDies.foldl {α : Type} {f : State → α → State} (hf : ∀ s a, OnlyDies s (f s a)) (l : List α) (s : State) :
    OnlyDies s (l.foldl f s) := by
  induction l generalizing s with
  | nil => exact .refl s
  | cons a l ih => exact (hf s a).trans (ih _)

theorem OnlyDies.core {s t : State} (h : OnlyDies s t) (g : Nat) : t.core g = s.core g := by rw [h]; rfl
theorem OnlyDies.aset {s t : State} (h : OnlyDies s t) (g : Nat) : t.aset g = s.aset g := by rw [h]; rfl
theorem OnlyDies.mem {s t : State} (h : OnlyDies s t) : t.mem = s.mem := by rw [h]
theorem OnlyDies.books {s t : State} (h : OnlyDies s t) : SameBooks s t := by rw [h]; exact ⟨rfl, rfl, rfl, rfl⟩

theorem onlyDies_setPin (s : State) (d : Nat) (e : BitVec 20) (p : Pin) : OnlyDies s (s.setPin d e p) := rfl

theorem onlyDies_settlePin (s : State) (d : Nat) (e : BitVec 20) : OnlyDies s (s.settlePin d e) := by
  unfold State.settlePin
  dsimp only
  split
  · rfl
  · split <;> rfl

theorem onlyDies_holderBit (s : State) (g : Nat) (e : BitVec 20) : OnlyDies s (s.holderBit g e) := rfl

theorem onlyDies_released (s : State) (g : Nat) (t : Token) : OnlyDies s (s.released g t) := by
  unfold State.released
  dsimp only
  split
  · rfl
  · exact (onlyDies_holderBit s g t.pte).trans (onlyDies_settlePin _ _ _)

theorem onlyDies_held (s : State) (g : Nat) (t : Token) : OnlyDies s (s.held g t) := by
  unfold State.held
  dsimp only
  split <;> rfl

theorem onlyDies_savedBy (s : State) (g : Nat) (t : Token) (up : Bool) : OnlyDies s (s.savedBy g t up) := by
  unfold State.savedBy
  dsimp only
  split
  · rfl
  · split
    · rfl
    · exact (onlyDies_setPin ..).trans (onlyDies_settlePin _ _ _)

/-! ### Binding a party (R324) -/

/-- The set that a binding makes of a vacant one (R324). -/
def State.boundSet (s : State) (n g : Nat) (c : Card) (p : Fin 2) (code : Token) : CtxSet :=
  { emptySet s.nextId (nget (s.core g).set p) with
    card := some n, rank := BitVec.ofNat 10 c.bound, gsize := BitVec.ofNat 11 c.gsize, reqtag := c.tag, tenant := c.tenant
    cls := BitVec.ofNat 2 c.cls, root := s.sdescRoot c.die.val (s.cardSdesc c) (g / 128)
    vaultWin := ((s.qdesc c.die.val c.queue).vaultBase, (s.qdesc c.die.val c.queue).vaultSize)
    ctx := Vector.ofFn fun x => startCtx c x s (g / 128)
    k := (c.tiles.filterMap fun t => (c.used.find? fun u => u.1 == t.1).map fun u => (tileReg u.2.2, t.2)).foldl
      (fun (v : Vector Token 16) e => vset v e.1 e.2) (Vector.replicate 16 {})
    codeTok := code }

/-- A binding leaves the party in the vacant set, and its card with one more party that runs (R322, R324). -/
theorem bindParty_binds {s s' : State} {n g : Nat} {c : Card} {p : Fin 2} {l : List (Fin 2)} {code : Token}
    (hc : fget s.cards n = some c) (hv : (s.core g).vacant = p :: l) (hk : s.makeCode c g = some (code, s')) :
    nget ((s.bindParty n g).core g).set p = s'.boundSet n g c p code ∧
      fget (s.bindParty n g).cards n = some { c with
        st := .run, bound := c.bound + 1, cores := c.cores ++ [g], sids := c.sids ++ [s'.nextId]
        given := if c.bound = 0 then s'.givenCounts c else c.given } := by
  let u : State := { s' with nextId := s'.nextId + 1 }.updCore g fun k => { k with set := nset k.set p (s'.boundSet n g c p code) }
  let d : Card := { c with
    st := .run, bound := c.bound + 1, cores := c.cores ++ [g], sids := c.sids ++ [s'.nextId]
    given := if c.bound == 0 then u.givenCounts c else c.given }
  let v : State := { u with cards := fset u.cards n d }
  have dies : OnlyDies v (s.bindParty n g) := by
    have tiles := OnlyDies.foldl (fun (s : State) (t : Nat × Token) => onlyDies_holderBit s g t.2.pte) c.tiles v
    have bound : s.bindParty n g =
        if (c.bound == 0) = true then
          c.tiles.foldl (fun (s : State) t => s.dropSaved c.pdie t.2) (c.tiles.foldl (fun (s : State) t => s.holderBit g t.2.pte) v)
        else c.tiles.foldl (fun (s : State) t => s.holderBit g t.2.pte) v := by
      simp only [State.bindParty, hc, hv, hk]
      rfl
    rw [bound]
    split
    · exact tiles.trans (OnlyDies.foldl (fun s (t : Nat × Token) => onlyDies_savedBy s (128 * c.pdie) t.2 false) _ _)
    · exact tiles
  have given : u.givenCounts c = s'.givenCounts c := rfl
  constructor
  · rw [dies.core]
    have : v.core g = u.core g := rfl
    rw [this, core_updCore_same, nget_nset_same]
  · rw [dies.books.cards, fget_fset_same]
    simp only [d, given, beq_iff_eq]

/-- The one SELECTED card of a die that fits is bound next (R321, R322). -/
theorem bindsNext_selected {s : State} {n : Nat} {c : Card} (hs : c.st = .selected) (hp : s.pendingBinds c.die.val = [(n, c)])
    (hf : (s.die c.die.val).fenced = false) : s.bindsNext n c = true := by
  have partly : c.partly = false := by simp only [Card.partly, hs]; rfl
  simp only [State.bindsNext, hp, hf, partly, hs, Bool.false_and, Bool.false_eq_true, if_false, BEq.rfl, if_true, List.all_cons,
    List.all_nil, Bool.not_false, Bool.true_or, Bool.and_self]

/-- A context of a party that has just been bound (R71). -/
theorem startCtx_registers (c : Card) (x : CtxId) (s : State) (d : Nat) :
    (startCtx c x s d).pc = c.entryLane x ∧ (startCtx c x s d).st = .idle ∧ (startCtx c x s d).sup = false ∧
      (∀ i : Fin 8, nget (startCtx c x s d).x ⟨10 + i.val, by omega⟩ = c.word ⟨5 + i.val, by omega⟩) ∧
      (∀ i : Fin 32, i.val < 10 ∨ 17 < i.val → nget (startCtx c x s d).x i = 0) := by
  refine ⟨rfl, rfl, rfl, fun i => ?_, fun i hi => ?_⟩
  · have hi : 10 ≤ 10 + i.val ∧ 10 + i.val ≤ 17 := by omega
    have at_ : 10 + i.val - 5 = 5 + i.val := by omega
    simp only [startCtx, nget, Vector.getElem_ofFn, hi, at_, and_self, dite_true]
  · have out : ¬ (10 ≤ i.val ∧ i.val ≤ 17) := by omega
    simp only [startCtx, nget, Vector.getElem_ofFn, out, dite_false]

/-- A SELECTED card binds its party to the one core that it takes (R321, R322, R324). -/
theorem partyBind_binds {s s' : State} {n g : Nat} {c : Card} {p : Fin 2} {l : List (Fin 2)} {code : Token}
    (hc : fget s.cards n = some c) (hs : c.st = .selected) (hp : s.pendingBinds c.die.val = [(n, c)])
    (hf : (s.die c.die.val).fenced = false) (hb : s.bindList c (s.claimed c.die.val) = [g]) (hv : (s.core g).vacant = p :: l)
    (hk : s.makeCode c g = some (code, s')) :
    ∃ t, exec (.partyBind n) s = .next t ∧
      (let u := nget (t.core g).set p
       u.card = some n ∧ u.rank = BitVec.ofNat 10 c.bound ∧ u.gsize = BitVec.ofNat 11 c.gsize ∧ u.tenant = c.tenant ∧
       u.reqtag = c.tag ∧ u.codeTok = code ∧ u.started = false ∧
       ∀ x : CtxId, (nget u.ctx x).pc = c.entryLane x ∧ (nget u.ctx x).st = .idle ∧ (nget u.ctx x).sup = false ∧
         (∀ i : Fin 8, nget (nget u.ctx x).x ⟨10 + i.val, by omega⟩ = c.word ⟨5 + i.val, by omega⟩) ∧
         (∀ i : Fin 32, i.val < 10 ∨ 17 < i.val → nget (nget u.ctx x).x i = 0)) ∧
      fget t.cards n = some { c with
        st := .run, bound := c.bound + 1, cores := c.cores ++ [g], sids := c.sids ++ [s'.nextId]
        given := if c.bound = 0 then s'.givenCounts c else c.given } := by
  obtain ⟨set, card⟩ := bindParty_binds hc hv hk
  refine ⟨s.bindParty n g, ?_, ?_, card⟩
  · change execPartyBind n s = _
    simp only [execPartyBind, hc, bindsNext_selected hs hp hf, hb, Bool.not_true, Bool.false_eq_true, if_false, List.foldl_cons,
      List.foldl_nil]
  · rw [set]
    refine ⟨rfl, rfl, rfl, rfl, rfl, rfl, rfl, fun x => ?_⟩
    have start : nget (s'.boundSet n g c p code).ctx x = startCtx c x s' (g / 128) := by
      simp only [State.boundSet, nget, Vector.getElem_ofFn]
    rw [start]
    exact startCtx_registers c x s' (g / 128)

/-- A party without a galley starts its contexts with an entry lane (R71, R302, R324). -/
theorem partyStart_starts {s : State} {g n : Nat} {c : Card} (ha : (s.aset g).card = some n) (hc : fget s.cards n = some c)
    (hs : (s.aset g).started = false) (hn : c.conc = false) (hg : c.gslot = none) :
    ∃ t, exec (.partyStart g) s = .next t ∧ SameBytes s t ∧ (t.aset g).started = true ∧
      (t.core g).l1 = ownedWords (s.core g).l1 ∧
      (∀ x : CtxId, t.ctx g x = (if c.entryLane x = 0 then s.ctx g x else { s.ctx g x with st := .run })) ∧
      (t.aset g).sliceAt = s.clk := by
  let u := ((s.updAct g fun t => { t with started := true, sliceAt := s.clk }).selfInvalidate g).updAct g fun t => t.launch c
  have hu : (u.aset g) = ({ s.aset g with started := true, sliceAt := s.clk } : CtxSet).launch c := by
    simp only [u, aset_updAct, State.selfInvalidate]
    simp [State.aset, State.updAct, Core.act]
  refine ⟨u, ?_, fun _ => rfl, by rw [hu]; rfl, ?_, fun x => ?_, by rw [hu]; rfl⟩
  · change execPartyStart g s = _
    have cardOf : s.cardOf (s.aset g) = some c := by simp only [State.cardOf, ha, hc]
    simp only [execPartyStart, ha, hc, hs, hn, State.startParty, cardOf, hg, State.cardRecording, Bool.false_eq_true, if_false]
    rfl
  · simp [u, State.updAct, State.selfInvalidate]
  · rw [State.ctx, hu]
    simp only [CtxSet.launch, nget, Vector.getElem_ofFn]
    rfl

end Sys2Proof.Machine
end

section
namespace Sys2Proof.Machine

/-! ### Blocks of memory (R318, R326) -/

theorem fget_append {α : Type} (a b : FMap α) (n : Nat) : fget (a ++ b) n = (fget a n).or (fget b n) := by
  induction a with
  | nil => rfl
  | cons e a ih =>
    obtain ⟨k, x⟩ := e
    by_cases hk : k = n
    · simp [fget, hk]
    · simp [fget, hk, ih]

theorem fget_filter {α : Type} (m : FMap α) (p : Nat → Bool) (n : Nat) :
    fget (m.filter fun e => p e.1) n = if p n then fget m n else none := by
  induction m with
  | nil => simp [fget]
  | cons e m ih =>
    obtain ⟨k, x⟩ := e
    by_cases hk : k = n
    · subst hk
      cases hp : p k <;> simp [hp, fget, ih]
    · cases hp : p k <;> simp [hp, fget, ih, hk]

theorem fget_eq_none {α : Type} {m : FMap α} {n : Nat} (h : ∀ e ∈ m, e.1 ≠ n) : fget m n = none := by
  induction m with
  | nil => rfl
  | cons e m ih =>
    obtain ⟨k, x⟩ := e
    have hk : k ≠ n := h (k, x) List.mem_cons_self
    rw [fget, if_neg hk]
    exact ih fun e he => h e (List.mem_cons_of_mem _ he)

/-- Outside a block that is replaced, memory reads as before. -/
theorem get_splice_outside (m : Memory) {dst n : Nat} {new : Memory} (hn : ∀ e ∈ new, dst ≤ e.1 ∧ e.1 < dst + n) {l : Nat}
    (h : l < dst ∨ dst + n ≤ l) : (m.splice dst n new).get l = m.get l := by
  have gone : fget new l = none := fget_eq_none fun e he x => by have := hn e he; omega
  rw [Memory.get, Memory.splice, fget_append, fget_append, gone, fget_filter m (fun k => k < dst) l,
    fget_filter m (fun k => dst + n ≤ k) l]
  rcases h with h | h
  · have : ¬ dst + n ≤ l := by omega
    simp [h, this, Memory.get]
  · have : ¬ l < dst := by omega
    simp [h, this, Memory.get]

/-- Inside a block that is replaced, memory reads what replaces it. -/
theorem get_splice_inside (m : Memory) {dst n : Nat} (new : Memory) {l : Nat} (h : dst ≤ l) (h' : l < dst + n) :
    (m.splice dst n new).get l = Memory.get new l := by
  have h1 : ¬ l < dst := by omega
  have h2 : ¬ dst + n ≤ l := by omega
  rw [Memory.get, Memory.splice, fget_append, fget_append, fget_filter m (fun k => k < dst) l,
    fget_filter m (fun k => dst + n ≤ k) l]
  simp [h1, h2, Memory.get]

/-- A map whose keys have moved together. -/
theorem fget_shift {α : Type} {m : FMap α} {src : Nat} (dst i : Nat) (h : ∀ e ∈ m, src ≤ e.1) :
    fget (m.map fun e => (dst + (e.1 - src), e.2)) (dst + i) = fget m (src + i) := by
  induction m with
  | nil => rfl
  | cons e m ih =>
    obtain ⟨k, x⟩ := e
    have hk : src ≤ k := h (k, x) List.mem_cons_self
    have moved : dst + (k - src) = dst + i ↔ k = src + i := by omega
    simp only [List.map_cons, fget, moved, ih fun e he => h e (List.mem_cons_of_mem _ he)]

/-- A block that is copied reads as its source did. -/
theorem get_copy (m : Memory) (src dst : Nat) {n i : Nat} (h : i < n) : (m.copy src dst n).get (dst + i) = m.get (src + i) := by
  have above : ∀ e ∈ m.filter (fun e => src ≤ e.1 && e.1 < src + n), src ≤ e.1 := fun e he => by
    have := (List.mem_filter.1 he).2
    simp only [Bool.and_eq_true, decide_eq_true_eq] at this
    exact this.1
  have there : (decide (src ≤ src + i) && decide (src + i < src + n)) = true := by simp [h]
  rw [Memory.copy, get_splice_inside m _ (by omega) (by omega), Memory.get, fget_shift dst i above,
    fget_filter m (fun k => src ≤ k && k < src + n), there]
  rfl

/-- A fold keeps what each of its steps keeps. -/
theorem foldl_keeps {α β : Type} {f : State → α → State} (φ : State → β) (hf : ∀ s a, φ (f s a) = φ s) (l : List α) (s : State) :
    φ (l.foldl f s) = φ s := by
  induction l generalizing s with
  | nil => rfl
  | cons a l ih => exact (ih _).trans (hf s a)

theorem staged_invalidate (s : State) (line d : Nat) : ((s.invalidate line).die d).staged = (s.die d).staged := by
  unfold State.invalidate
  split
  · rfl
  · simp [State.die, vget]
    rfl

/-- What a block write does besides memory and poison leaves memory, the books and the staging area (R318). -/
theorem clobber_keeps (s : State) (dst n : Nat) :
    (s.clobber dst n).mem = s.mem ∧ SameBooks s (s.clobber dst n) ∧ ∀ d, ((s.clobber dst n).die d).staged = (s.die d).staged := by
  refine ⟨foldl_mem State.invalidate invalidate_mem _ s, ?_, fun d =>
    foldl_keeps (fun (s : State) => (s.die d).staged) (fun s l => staged_invalidate s l d) _ s⟩
  obtain ⟨cards, clk, nextId, pkgid⟩ := SameBooks.foldl sameBooks_invalidate
    ((s.sharers.map (·.1)).filter fun line => dst / 64 ≤ line && 64 * line < dst + n) s
  exact ⟨cards, clk, nextId, pkgid⟩

theorem copyBytes_keeps (s : State) (src dst n : Nat) :
    (s.copyBytes src dst n).mem = s.mem.copy src dst n ∧ SameBooks s (s.copyBytes src dst n) ∧
      ∀ d, ((s.copyBytes src dst n).die d).staged = (s.die d).staged := by
  obtain ⟨mem, ⟨cards, clk, nextId, pkgid⟩, staged⟩ := clobber_keeps s dst n
  exact ⟨congrArg (Memory.copy · src dst n) mem, ⟨cards, clk, nextId, pkgid⟩, staged⟩

/-! ### Migrating tiles (R318) -/

/-- The first of some tiles, when it has one frame, takes the first of the staging frames (R318). -/
theorem stageAll_one (s : State) (d base b : Nat) (more : List Nat) {tok : Token} (h : framesOf tok.lenm1.toNat = 1) :
    s.stageAll d base [tok] (b :: more) = s.stageEntry d tok.pte [podAddr s d (base + b * 2 ^ 21)] := by
  rw [State.stageAll, h]
  rfl

/-- An extent of one frame moves to a location of the staging area (R318). -/
theorem stageEntry_one {s : State} {d : Nat} {e : BitVec 20} {f : W64} (dst : Nat)
    (hp : (s.pin d e).frames = [f]) (hh : (s.pin d e).host = false) (hl : (s.pin d e).lenm1.toNat < 2 ^ 21)
    (ha : s.addrFate (128 * d) (f.toNat % 2 ^ 59) { phys := (s.pin d e).phys } = .ok) :
    SameBooks s (s.stageEntry d e [dst]) ∧ ((s.stageEntry d e [dst]).die d).staged = (s.die d).staged ∧
      ((s.stageEntry d e [dst]).pin d e).frames = [BitVec.ofNat 64 dst] ∧
      ∀ i, i ≤ (s.pin d e).lenm1.toNat → (s.stageEntry d e [dst]).mem.get (dst + i) = s.mem.get (f.toNat % 2 ^ 59 + i) := by
  have len : min (2 ^ 21) ((s.pin d e).lenm1.toNat + 1) = (s.pin d e).lenm1.toNat + 1 := by omega
  have staged : ∃ n : Die → Nat, s.stageEntry d e [dst] =
      ((s.copyBytes (f.toNat % 2 ^ 59) dst ((s.pin d e).lenm1.toNat + 1)).updDie d fun x => { x with pool := n x }).setPin d e
        { s.pin d e with frames := [BitVec.ofNat 64 dst], host := false } := by
    refine ⟨fun x => x.pool - (s.pin d e).poolBytes +
      ({ s.pin d e with frames := [BitVec.ofNat 64 dst], host := false } : Pin).poolBytes, ?_⟩
    simp only [State.stageEntry, hp, hh, ha, len, List.map_cons, List.map_nil, List.zipIdx_cons, List.zipIdx_nil, List.foldl_cons,
      List.foldl_nil, Bool.false_eq_true, if_false, Nat.zero_mul, Nat.sub_zero, Nat.zero_div, Nat.zero_mod, Nat.add_zero,
      List.getD_cons_zero, BEq.rfl, if_true]
  obtain ⟨n, ht⟩ := staged
  obtain ⟨mem, books, stage⟩ := copyBytes_keeps s (f.toNat % 2 ^ 59) dst ((s.pin d e).lenm1.toNat + 1)
  rw [ht]
  refine ⟨⟨books.cards, books.clk, books.nextId, books.pkgid⟩, ?_, by rw [pin_setPin_same], fun i hi => ?_⟩
  · simp only [State.setPin, die_updDie_same]
    exact stage d
  · rw [setPin_mem, updDie_mem, mem]
    exact get_copy s.mem _ dst (Nat.lt_succ_of_le hi)

/-- A migrating tile of one frame lands in the lowest free staging frame, and its card is READY (R318, R323). -/
theorem tileMigrate_lands {s : State} {n : Nat} {c : Card} {tok : Token} {f : W64} {b : Nat} {more : List Nat}
    (hc : fget s.cards n = some c) (hst : c.st = .move) (hmig : c.migrating = [tok])
    (hgo : s.issueCheck (128 * c.pdie) tok = .go) (hp : (s.pin c.pdie tok.pte).frames = [f])
    (hh : (s.pin c.pdie tok.pte).host = false) (hl : tok.lenm1.toNat < 2 ^ 21)
    (hm : (s.pin c.pdie tok.pte).lenm1 = tok.lenm1) (hs : s.serves c.pdie c.tenant = true)
    (ha : s.addrFate (128 * c.pdie) (f.toNat % 2 ^ 59) { phys := (s.pin c.pdie tok.pte).phys } = .ok)
    (hfr : ((List.range (s.stagingFrames c.pdie)).filter fun i => !(s.die c.pdie).staged.contains i) = b :: more) :
    let dst := podAddr s c.pdie (s.stagingBase c.pdie + b * 2 ^ 21)
    ∃ t c', exec (.tileMigrateDone n) s = .next t ∧ fget t.cards n = some c' ∧ c'.st = .ready ∧ c'.readyAt = s.clk ∧
      (t.pin c.pdie tok.pte).frames = [BitVec.ofNat 64 dst] ∧ (t.die c.pdie).staged = (s.die c.pdie).staged ++ [b] ∧
      ∀ i, i ≤ tok.lenm1.toNat → t.mem.get (dst + i) = s.mem.get (f.toNat % 2 ^ 59 + i) := by
  intro dst
  have one : framesOf tok.lenm1.toNat = 1 := by unfold framesOf; omega
  have hu := stageAll_one s c.pdie (s.stagingBase c.pdie) b [] one
  obtain ⟨books, staged, frames, mem⟩ := stageEntry_one dst hp hh (hm ▸ hl) ha
  rw [hm] at mem
  generalize s.stageEntry c.pdie tok.pte [dst] = u at books staged frames mem hu
  have runs : exec (.tileMigrateDone n) s = .next (
      let v := u.updDie c.pdie fun x => { x with staged := x.staged ++ [b] }
      { v with cards := fset v.cards n { c with
          frames := [b], st := .ready, readyAt := v.clk
          tiles := c.tiles.map fun t => if [tok].contains t.2 then (t.1, { t.2 with host := false }) else t } }) := by
    change execTileMigrateDone n s = _
    have few : ¬ (b :: more).length < 1 := by simp
    have moves : (CardSt.move != CardSt.move) = false := rfl
    have goes : (IssueCheck.go == IssueCheck.stall) = false := rfl
    have fit : (IssueCheck.go == IssueCheck.go) = true := rfl
    simp only [execTileMigrateDone, hc, hst, hmig, hfr, hs, hgo, one, few, moves, goes, fit, hu, List.map_cons, List.map_nil,
      List.sum_cons, List.sum_nil, Nat.add_zero, List.any_cons, List.any_nil, Bool.not_true, Bool.or_self, decide_false,
      Bool.false_eq_true, if_false, List.take_succ_cons, List.take_zero, List.filter_cons, List.filter_nil, if_true]
  rw [runs]
  have pinned : (u.updDie c.pdie fun x => { x with staged := x.staged ++ [b] }).pin c.pdie tok.pte = u.pin c.pdie tok.pte := by
    simp only [State.pin, die_updDie_same]
  refine ⟨_, _, rfl, fget_fset_same .., rfl, books.clk, (congrArg Pin.frames pinned).trans frames, ?_, mem⟩
  have taken : ((u.updDie c.pdie fun x => { x with staged := x.staged ++ [b] }).die c.pdie).staged =
      (s.die c.pdie).staged ++ [b] := by
    rw [die_updDie_same, ← staged]
  exact taken

end Sys2Proof.Machine
end

section
namespace Sys2Proof.Machine

/-! ### Retirement (R17) -/

/-- The code and detail of a final status fit their fields (R312). -/
theorem endCode_lt (c : Card) : c.endCode.1 < 2 ^ 8 ∧ c.endCode.2 < 2 ^ 16 := by
  unfold Card.endCode
  split
  · rename_i r x _
    have hr := r.isLt
    have hx := x.isLt
    exact ⟨by norm_num, by dsimp only; omega⟩
  · split <;> decide

/-- The number that a card's end writes: its code, with the place of a halt (R312). -/
theorem endCode_word (c : Card) : c.endCode.1 + 2 ^ 32 * c.endCode.2 = (match c.halted with
    | some (_, r, x) => 2 + 2 ^ 32 * (r.toNat + x.val * 2 ^ 10)
    | none => if c.withdrawn then 5 else 1) := by
  unfold Card.endCode
  cases c.halted with
  | some h => rfl
  | none => cases c.withdrawn <;> rfl

/-- A card every party of which has ended goes to RETIRE (R316). -/
theorem jobRetire_retires {s : State} {n : Nat} {c : Card} (hc : fget s.cards n = some c) (hs : c.st = .run)
    (hb : c.bound = c.gsize) (he : s.partiesEnded n c = c.gsize) :
    ∃ t, exec (.jobRetire n) s = .next t ∧ SameBytes s t ∧ fget t.cards n = some { c with st := .retire } := by
  refine ⟨{ s with cards := fset s.cards n { c with st := .retire } }, ?_, fun _ => rfl, fget_fset_same ..⟩
  change execJobRetire n s = _
  simp only [execJobRetire, hc, hs, hb, he, decide_true, Bool.and_self, if_true]

/-- What follows the status word of a retiring card leaves memory and the cards. -/
theorem releaseForget_keeps (s : State) (c : Card) (n : Nat) :
    ((s.releaseTiles c).forgetCard n).mem = s.mem ∧ ((s.releaseTiles c).forgetCard n).cards = s.cards := by
  have dies : OnlyDies s (s.releaseTiles c) := by
    unfold State.releaseTiles
    dsimp only
    split
    · exact (OnlyDies.foldl (fun s (t : Nat × Token) => onlyDies_savedBy s (128 * c.pdie) t.2 false) _ s).trans rfl
    · rfl
  exact ⟨dies.mem, dies.books.cards⟩

/-- A retiring card whose parties have all left writes its status word (R17, R312). -/
theorem jobRetire_writes {s : State} (hm : s.MemOk) {n : Nat} {c : Card} {d : Fin 8} {q : BitVec 6}
    (hc : fget s.cards n = some c) (hs : c.st = .retire) (he : c.ended = c.gsize) (hp : s.toPurge c.tag = false)
    (hn : c.successors = []) (hd : c.die = d) (hq : c.queue = q) (hl : (s.qdesc d.val q).slotAddr c.pos < 0x1FC0000000)
    (ha : podAddr s d.val ((s.qdesc d.val q).slotAddr c.pos + 224) + 8 ≤ podAddr s d.val (qdescAddr q) ∨
      podAddr s d.val (qdescAddr q) + 64 ≤ podAddr s d.val ((s.qdesc d.val q).slotAddr c.pos + 224)) :
    ∃ t, exec (.jobRetire n) s = .next t ∧
      fget t.cards n = some { c with st := .final, steps := 1, succ := [], noSucc := false } ∧
      t.readNat (podAddr s d.val ((s.qdesc d.val q).slotAddr c.pos + 224)) 8 = (match c.halted with
          | some (_, r, x) => 2 + 2 ^ 32 * (r.toNat + x.val * 2 ^ 10)
          | none => if c.withdrawn then 5 else 1) + statusBit c.stFail 12 + statusBit c.fallback 10 +
        statusBit c.recorded 9 + statusBit c.played 8 := by
  generalize hw : ({ c with st := .final, steps := 1, succ := [], noSucc := false } : Card) = w
  have runs : exec (.jobRetire n) s = .next
      (((({ s with cards := fset s.cards n w } : State).writeFinal w w.endCode.1 w.endCode.2 false).releaseTiles w).forgetCard n) := by
    change execJobRetire n s = _
    simp only [execJobRetire, hc, hs, he, hp, hn, bne_self_eq_false, Bool.or_self, Bool.false_eq_true, if_false, List.map_nil,
      List.any_nil, List.reduceOption_nil, ← hw]
  have desc : ({ s with cards := fset s.cards n w } : State).qdesc d.val q = s.qdesc d.val q := qdesc_withCards s d.val q _ s.nextId
  have fields : w.die = d ∧ w.queue = q ∧ w.pos = c.pos := by subst hw; exact ⟨hd, hq, rfl⟩
  obtain ⟨hd', hq', hp'⟩ := fields
  obtain ⟨word, -, books⟩ := writeFinal_spec (s := { s with cards := fset s.cards n w }) hm hd' hq' hp' w.endCode.1 w.endCode.2
    false (by rw [desc]; exact hl) (by rw [desc]; exact ha)
  rw [desc] at word
  obtain ⟨mem, cards⟩ := releaseForget_keeps
    (({ s with cards := fset s.cards n w } : State).writeFinal w w.endCode.1 w.endCode.2 false) w n
  refine ⟨_, runs, ?_, ?_⟩
  · rw [cards, books.cards]
    exact fget_fset_same ..
  · refine ((readNat_congr fun i _ => by rw [mem]).trans word).trans ?_
    rw [status_toNat w (endCode_lt w).1 (endCode_lt w).2, endCode_word]
    subst hw
    rfl

/-- The counter of a final card rises by 1, and no other byte changes (R17). -/
theorem jobRetire_counts {s : State} (hm : s.MemOk) {n loc : Nat} {host : Bool} {c : Card} (hc : fget s.cards n = some c)
    (hs : c.st = .final) (h1 : c.steps = 1) (hk : c.counter = some (loc, host)) (hr : s.counterReached c.die.val loc host = true) :
    ∃ t, exec (.jobRetire n) s = .next t ∧ fget t.cards n = some { c with steps := 2 } ∧
      t.readNat loc 8 = (s.readNat loc 8 + 1) % 2 ^ 64 ∧ ∀ l, l < loc ∨ loc + 8 ≤ l → t.mem.get l = s.mem.get l := by
  have runs : exec (.jobRetire n) s = .next { s.bumpCounter loc with
      cards := fset (s.bumpCounter loc).cards n { c with steps := 2 } } := by
    change execJobRetire n s = _
    simp only [execJobRetire, hc, hs, h1, hk, hr, if_true]
  refine ⟨_, runs, fget_fset_same .., ?_, fun l hl => get_writeHome_bytesAt_ne s _ hl⟩
  exact readNat_writeHome hm loc 8 _ _

/-- A card that waits with one predecessor less, and what becomes of it when that was its last (R319). -/
def State.lowered (s : State) (w : Card) : Card :=
  if w.preds - 1 = 0 then ({ w with preds := w.preds - 1 } : Card).toMove s.clk else { w with preds := w.preds - 1 }

theorem lowerPreds_wait {s : State} {m : Nat} {w : Card} (hw : fget s.cards m = some w) (hst : w.st = .wait) :
    s.lowerPreds m = { s with cards := fset s.cards m (s.lowered w) } := by
  have waits : (CardSt.wait != CardSt.wait) = false := rfl
  simp only [State.lowerPreds, hw, hst, waits, Bool.false_eq_true, if_false, State.lowered]

theorem lowered_preds (s : State) (w : Card) : (s.lowered w).preds = w.preds - 1 := by
  unfold State.lowered Card.toMove
  split
  · split <;> rfl
  · rfl

/-- Without tiles of a vault or HBM, the last predecessor makes a card READY (R315, R319). -/
theorem lowered_ready (s : State) {w : Card} (h : w.preds = 1) (hu : w.used = []) :
    (s.lowered w).st = .ready ∧ (s.lowered w).readyAt = s.clk := by
  have last : w.preds - 1 = 0 := by simp [h]
  have unused : ({ w with preds := w.preds - 1 } : Card).used = [] := hu
  simp only [State.lowered, last, if_true, Card.toMove]
  rw [last] at unused
  simp only [unused, List.any_nil, Bool.false_eq_true, if_false, and_self]

theorem lowered_wait (s : State) {w : Card} (h : w.preds ≠ 1) (hst : w.st = .wait) : (s.lowered w).st = .wait := by
  have more : w.preds - 1 ≠ 0 := fun h' => h (by bv_omega)
  simpa only [State.lowered, more, if_false] using hst

/-- The one successor of a final card has a predecessor less, and moves on when that was its last (R17, R319). -/
theorem jobRetire_succeeds {s : State} {n m : Nat} {c w : Card} (hc : fget s.cards n = some c) (hs : c.st = .final)
    (h2 : c.steps = 2) (hm : c.succ = [m]) (hne : m ≠ n) (hw : fget s.cards m = some w) (hst : w.st = .wait) :
    ∃ t w', exec (.jobRetire n) s = .next t ∧ SameBytes s t ∧ fget t.cards m = some w' ∧ w'.preds = w.preds - 1 ∧
      (w.preds = 1 → w.used = [] → w'.st = .ready ∧ w'.readyAt = s.clk) ∧ (w.preds ≠ 1 → w'.st = .wait) := by
  have found : fget (fset s.cards n { c with steps := 3 }) m = some w := (fget_fset_ne s.cards _ hne).trans hw
  have runs : exec (.jobRetire n) s =
      .next (({ s with cards := fset s.cards n { c with steps := 3 } } : State).lowerPreds m) := by
    change execJobRetire n s = _
    simp only [execJobRetire, hc, hs, h2, hm, List.foldl_cons, List.foldl_nil]
  rw [lowerPreds_wait found hst] at runs
  exact ⟨_, _, runs, fun _ => rfl, fget_fset_same .., lowered_preds _ w, lowered_ready _, fun h => lowered_wait _ h hst⟩

/-- A notification of a die sets its event bit (R342). -/
theorem events_notifyDie (s : State) (d : Fin 8) : (s.notifyDie d.val).events.getLsbD d.val = true := by
  have hd := d.isLt
  have bit : (s.events ||| 1#9 <<< (d.val % 8)).getLsbD d.val = true := by
    have : d.val % 8 = d.val := by omega
    rw [this]
    simp
    omega
  unfold State.notifyDie State.notify
  dsimp only
  split
  · exact bit
  · split <;> exact bit

theorem fget_fdel_nodup {α : Type} {m : FMap α} (n : Nat) (h : (m.map Prod.fst).Nodup) : fget (fdel m n) n = none := by
  induction m with
  | nil => rfl
  | cons e m ih =>
    obtain ⟨k, x⟩ := e
    rw [List.map_cons, List.nodup_cons] at h
    obtain ⟨new, rest⟩ := h
    unfold fdel
    split
    · rename_i hk
      exact fget_eq_none fun e he x => new (List.mem_map.2 ⟨e, he, x.trans hk.symm⟩)
    · rename_i hk
      rw [fget, if_neg hk]
      exact ih rest

/-- A card that has retired is gone, and its host is told when the card asks for it (R17, R312). -/
theorem jobRetire_removes {s : State} {n : Nat} {c : Card} (hc : fget s.cards n = some c) (hs : c.st = .final)
    (h3 : 3 ≤ c.steps) (hn : (s.cards.map Prod.fst).Nodup) :
    ∃ t, exec (.jobRetire n) s = .next t ∧ SameBytes s t ∧ fget t.cards n = none ∧
      ((c.word 0).getLsbD 63 = true → t.events.getLsbD c.die.val = true) := by
  let u : State := { s with cards := fdel s.cards n }
  have runs : exec (.jobRetire n) s = .next (if (c.word 0).getLsbD 63 then u.notifyDie c.die.val else u) := by
    obtain ⟨k, hk⟩ : ∃ k, c.steps = k + 3 := ⟨c.steps - 3, by omega⟩
    change execJobRetire n s = _
    simp only [execJobRetire, hc, hs, hk, u]
  have gone : fget u.cards n = none := fget_fdel_nodup n hn
  rw [runs]
  cases hb : (c.word 0).getLsbD 63 with
  | false => exact ⟨_, rfl, fun _ => rfl, gone, nofun⟩
  | true =>
    obtain ⟨mem, books⟩ := notify_mem u ⟨c.die.val % 8, by omega⟩
    refine ⟨_, rfl, fun a => ?_, ?_, fun _ => ?_⟩
    · exact congrArg (Memory.get · a) mem
    · exact (congrArg (fget · n) books.cards).trans gone
    · exact events_notifyDie u c.die

end Sys2Proof.Machine
end

section
namespace Sys2Proof.Machine

/-- Settles O57: each clause is the lemma of the step that it speaks of. -/
theorem cards : Obligations.Cards := by
  unfold Obligations.Cards
  intro s d q n c g hm k desc at_ clear taken words new room st
  refine ⟨fun (h : s.hasNext d q) hc hid => cardAccept_rejects hm h hc hid,
    fun (h : s.hasNext d q) hcode hused hctr => cardAccept_accepts hm h hcode hused hctr,
    fun tok f b more hc hst hmig hgo hp hh hl hlen hs ha hfr => tileMigrate_lands hc hst hmig hgo hp hh hl hlen hs ha hfr,
    fun hf hp hc hr hb => cardSelect_selects hf hp hc hr hb,
    fun p l code s' hc hs hp hf hb hv hk => partyBind_binds hc hs hp hf hb hv hk,
    fun ha hc hs hn hg => partyStart_starts ha hc hs hn hg,
    fun hc => ⟨fun hs hb he => jobRetire_retires hc hs hb he, ?writes,
      fun loc host hs h1 hk hr => jobRetire_counts hm hc hs h1 hk hr,
      fun m w hs h2 hm' hne hw hst => jobRetire_succeeds hc hs h2 hm' hne hw hst,
      fun hs h3 hnd => jobRetire_removes hc hs h3 hnd⟩⟩
  case writes =>
    intro hs he hp hn hd hq hl a bit code ha
    exact jobRetire_writes hm hc hs he hp hn hd hq hl ha

end Sys2Proof.Machine
end

section
namespace Sys2Proof.Machine

/-! ### Operations that leave memory, the cores and the cards -/

/-- Memory, the cores, the cards and the clock are as before. -/
structure SameCores (s t : State) : Prop where
  mem : t.mem = s.mem
  cores : t.cores = s.cores
  cards : t.cards = s.cards
  clk : t.clk = s.clk

theorem SameCores.refl (s : State) : SameCores s s := ⟨rfl, rfl, rfl, rfl⟩

theorem SameCores.trans {s t u : State} (a : SameCores s t) (b : SameCores t u) : SameCores s u :=
  ⟨b.mem.trans a.mem, b.cores.trans a.cores, b.cards.trans a.cards, b.clk.trans a.clk⟩

theorem SameCores.foldl {α : Type} {f : State → α → State} (hf : ∀ s a, SameCores s (f s a)) (l : List α) (s : State) :
    SameCores s (l.foldl f s) := by
  induction l generalizing s with
  | nil => exact .refl s
  | cons a l ih => exact (hf s a).trans (ih _)

theorem SameCores.core {s t : State} (h : SameCores s t) (g : Nat) : t.core g = s.core g := by
  unfold State.core
  rw [h.cores]

theorem OnlyDies.sameCores {s t : State} (h : OnlyDies s t) : SameCores s t := by rw [h]; exact ⟨rfl, rfl, rfl, rfl⟩

theorem sameCores_giveUp (s : State) (g : Nat) (l : List (BitVec 20)) : SameCores s (s.giveUp g l) :=
  .foldl (f := fun s e => s.performedPte (g / 128) (some e)) (fun _ _ => ⟨rfl, rfl, rfl, rfl⟩) l s

theorem sameCores_leaveReqs (s : State) (g : Nat) (x : Xfer) : SameCores s (s.leaveReqs g x) := by
  unfold State.leaveReqs
  refine .foldl (fun s e => ?_) x.ptes s
  split
  · split <;> exact ⟨rfl, rfl, rfl, rfl⟩
  · exact ⟨rfl, rfl, rfl, rfl⟩

theorem onlyDies_releaseAll (s : State) (g : Nat) (l : List Token) : OnlyDies s (s.releaseAll g l) :=
  .foldl (fun s t => onlyDies_released s g t) l s

/-! ### A party that leaves, and the set that comes in its place (R324, R334) -/

theorem aset_withMonitors (u : State) (g n : Nat) (l : List Monitor) :
    State.aset { u with nextId := n, monitors := l } g = u.aset g := rfl

/-- A set that leaves its core leaves an empty one; memory and the cards stay (R334). -/
theorem vacate_empties (s : State) (g : Nat) :
    ((s.vacate g (s.core g).active).aset g).card = none ∧ (s.vacate g (s.core g).active).cards = s.cards ∧
      (s.vacate g (s.core g).active).mem = s.mem := by
  have due : SameCores s (s.giveUpDue g (nget (s.core g).set (s.core g).active)) := sameCores_giveUp ..
  have core := due.core g
  unfold State.vacate
  dsimp only
  generalize s.giveUpDue g (nget (s.core g).set (s.core g).active) = v at due core
  refine ⟨?_, ?_, ?_⟩
  · rw [(onlyDies_releaseAll ..).aset]
    rw [aset_withMonitors, State.aset, core_updCore_same, Core.act, core, nget_nset_same]
    rfl
  · exact (onlyDies_releaseAll ..).books.cards.trans due.cards
  · exact (onlyDies_releaseAll ..).mem.trans due.mem

/-- A party that is over leaves, and its card has one more party that has ended (R17, R334). -/
theorem contextSwitch_leaves {s : State} {g n : Nat} {c : Card} (ha : (s.aset g).card = some n) (hc : fget s.cards n = some c)
    (ho : (s.aset g).over = true) (hq : (s.aset g).quiet = true) (hr : (s.core g).rec_ = none) :
    ∃ t c', exec (.contextSwitch g) s = .next t ∧ (t.aset g).card = none ∧ fget t.cards n = some c' ∧ c'.ended = c.ended + 1 ∧
      SameBytes s t := by
  have runs : exec (.contextSwitch g) s = .next (s.leave g) := by
    have open_ : s.closing g = false := by simp only [State.closing, hr]
    have here : (s.aset g).occupied = true := by simp only [CtxSet.occupied, ha, Option.isSome_some]
    change execContextSwitch g s = _
    simp only [execContextSwitch, open_, here, ho, hq, Bool.and_self, Bool.false_eq_true, if_false, if_true]
  have ended : s.leave g = State.vacate { s with cards := fset s.cards n (c.partyEnded (s.aset g)) } g (s.core g).active := by
    simp only [State.leave, ha, State.updCard, hc]
    rfl
  obtain ⟨card, cards, mem⟩ := vacate_empties { s with cards := fset s.cards n (c.partyEnded (s.aset g)) } g
  rw [runs, ended]
  exact ⟨_, _, rfl, card, (congrArg (fget · n) cards).trans (fget_fset_same ..), rfl, fun l => congrArg (Memory.get · l) mem⟩

/-- The other set becomes active when the active set holds no party (R324). -/
theorem contextSwitch_activates {s : State} {g : Nat} (ha : (s.aset g).occupied = false) (ho : (s.core g).other.occupied = true)
    (hc : s.closing g = false) (hl : (s.aset g).leaving = false) :
    ∃ t, exec (.contextSwitch g) s = .next t ∧ (t.core g).active = (s.core g).active + 1 ∧
      (t.aset g).sid = (s.core g).other.sid ∧ (t.aset g).card = (s.core g).other.card ∧ SameBytes s t := by
  have runs : exec (.contextSwitch g) s = .next (s.activate g) := by
    change execContextSwitch g s = _
    simp only [execContextSwitch, ha, ho, hc, hl, Bool.false_and, Bool.not_false, Bool.and_self, Bool.false_eq_true, if_false, if_true]
  have act : (s.core g).act.occupied = false := ha
  have active : s.activate g = s.setCore g { s.core g with
      active := (s.core g).active + 1, set := nset (s.core g).set ((s.core g).active + 1) ((s.core g).other.wake s.clk) } := by
    simp only [State.activate, act, ho, Bool.not_true, Bool.or_self, Bool.false_eq_true, if_false]
  rw [runs, active]
  refine ⟨_, rfl, by rw [core_setCore_same], ?_, ?_, fun _ => rfl⟩ <;>
    simp only [State.aset, core_setCore_same, Core.act, nget_nset_same, CtxSet.wake]

theorem nget_map {α β : Type} {k : Nat} (v : Vector α k) (f : α → β) (i : Fin k) : nget (v.map f) i = f (nget v i) := by
  simp [nget]

theorem nget_ofFn {α : Type} {k : Nat} (f : Fin k → α) (i : Fin k) : nget (Vector.ofFn f) i = f i := by
  simp [nget]

/-! ### The end of a slice (R327) -/

/-- At the end of a slice with another party waiting, TIMER becomes pending in every live context (R327). -/
theorem timeSliceExpiry_timer {s : State} {g : Nat} (hs : (s.aset g).started = true) (hn : s.slice g ≠ 0)
    (ht : (s.aset g).timerAt = none) (he : (s.aset g).sliceAt + s.slice g ≤ s.clk) (hw : s.partyWaits g = true) :
    ∃ t, exec (.timeSliceExpiry g) s = .next t ∧ (t.aset g).timerAt = some s.clk ∧ SameBytes s t ∧
      ∀ x : CtxId, (s.ctx g x).live = true → t.ctx g x = { s.ctx g x with pend := { (s.ctx g x).pend with timer := true } } := by
  have runs : exec (.timeSliceExpiry g) s =
      .next (s.updAct g fun t => { t with timerAt := some s.clk, ctx := t.ctx.map Ctx.timer }) := by
    have slice : (s.slice g != 0) = true := bne_iff_ne.2 hn
    change execTimeSliceExpiry g s = _
    simp only [execTimeSliceExpiry, hs, slice, ht, he, hw, Option.getD_none, Option.isNone_none, decide_true, Bool.true_or,
      Bool.and_self, if_true]
  refine ⟨_, runs, by rw [aset_updAct], fun _ => rfl, fun x hx => ?_⟩
  have timer : nget ((s.aset g).ctx.map Ctx.timer) x = (s.ctx g x).timer := nget_map ..
  rw [State.ctx, aset_updAct, timer, Ctx.timer, if_pos hx]

/-- A set whose slot holds another by now has nothing to write (R325). -/
theorem setSaveComplete_gone {s : State} {g : Nat} {w : Switch} (hw : (s.core g).switch = some w)
    (hb : ∀ e ∈ (s.core g).sb, e.sid ≠ w.sid) (hu : ∀ u ∈ fget (s.core g).slots w.slot, u.sid ≠ w.sid) :
    ∃ t, exec (.setSaveComplete g) s = .next t ∧ t.core g = { s.core g with switch := none } ∧ SameBytes s t := by
  have drained : ((s.core g).sb.any fun e => e.sid == w.sid) = false :=
    List.any_eq_false.2 fun e he => by simpa using hb e he
  have runs : exec (.setSaveComplete g) s = .next (s.setCore g { s.core g with switch := none }) := by
    change execSetSaveComplete g s = _
    simp only [execSetSaveComplete, hw, drained, Bool.false_eq_true, if_false]
    cases h : fget (s.core g).slots w.slot with
    | none => rfl
    | some u => simp only [hu u h, if_false]
  exact ⟨_, runs, core_setCore_same .., fun _ => rfl⟩

end Sys2Proof.Machine
end

section
namespace Sys2Proof.Machine

/-! ### A saved set that returns (R130, R326) -/

theorem closing_of_not_over {s : State} {g : Nat} (h : (s.aset g).over = false) : s.closing g = false := by
  have act : (s.core g).act.over = false := h
  unfold State.closing
  split
  · rw [act, Bool.and_false]
  · rfl

theorem readNat_toNat (s : State) (a n : Nat) : (BitVec.ofNat (8 * n) (s.readNat a n)).toNat = s.readNat a n := by
  rw [BitVec.toNat_ofNat, Nat.mod_eq_of_lt]
  have h := readNat_lt s a n
  rwa [show 256 = 2 ^ 8 from rfl, ← Nat.pow_mul] at h

/-- A part of a save slot that lies in the HBM4E of its die (R326). -/
theorem blockInHbm_part (s : State) (d : Nat) {base off n : Nat} (h : base + 2 ^ 22 ≤ 0x1FC0000000) (hn : off + n ≤ 2 ^ 22)
    (h0 : 0 < n) : blockInHbm (podAddr s d base + off) n = true := by
  have first := inHbm_podAddr s d (base + off) (by omega)
  have last := inHbm_podAddr s d (base + (off + n - 1)) (by omega)
  rw [podAddr_add s d base off (by omega)] at first
  rw [podAddr_add s d base (off + n - 1) (by omega)] at last
  have place : podAddr s d base + off + n - 1 = podAddr s d base + (off + n - 1) := by omega
  rw [blockInHbm, place, first, last]
  rfl

/-- The v registers come back from their slot (R326). -/
theorem fromSlot_v (s : State) (g j : Nat) (u : CtxSet) (h : s.slotAddr g j + 2 ^ 22 ≤ 0x1FC0000000) (i : Fin 32) :
    (nget (s.fromSlot g j u).v i).toNat =
      s.readNat (podAddr s (g / 128) (s.slotAddr g j) + 0x60000 + 256 * i.val) 256 := by
  have there := blockInHbm_part s (g / 128) h (off := 0x60000) (n := 0x2000) (by omega) (by omega)
  simp only [State.fromSlot, there, if_true, nget_ofFn]
  exact readNat_toNat s _ 256

/-- The rows of a tile come back from its slot (R326). -/
theorem fromSlot_tile (s : State) (g j : Nat) (u : CtxSet) (h : s.slotAddr g j + 2 ^ 22 ≤ 0x1FC0000000) {i : Fin 8}
    (hi : (nget u.tile i).st ≠ .empty) (r : Fin 64) :
    (nget (nget (s.fromSlot g j u).tile i).rows r).toNat =
      s.readNat (podAddr s (g / 128) (s.slotAddr g j) + 0x4000 * i.val + 256 * r.val) 256 := by
  have there := blockInHbm_part s (g / 128) h (off := 0x4000 * i.val) (n := 0x4000) (by omega) (by omega)
  have full : ((nget u.tile i).st == .empty) = false := by simpa using hi
  simp only [State.fromSlot, nget_ofFn, State.tileBack, there, full, Bool.not_true, Bool.or_self, Bool.false_eq_true, if_false]
  exact readNat_toNat s _ 256

/-- A slot gives back the tiles, the hash tables, the v registers and a stopped clpeel, and nothing else of a set (R326). -/
theorem fromSlot_rest (s : State) (g j : Nat) (u : CtxSet) : ∃ tile cls8 v vpois crun,
    s.fromSlot g j u = { u with tile := tile, cls8 := cls8, v := v, vpois := vpois, crun := crun } := by
  unfold State.fromSlot
  exact ⟨_, _, _, _, _, rfl⟩

/-- A token of a die's Pin Table is stale (R122). -/
def State.staleTok (s : State) (d : Nat) (x : Token) : Bool := x.valid && (s.pin d x.pte).gen != x.gen

/-- A set that its slot has given back, as it is on its core (R130). -/
def State.returned (s : State) (d : Nat) (t : CtxSet) : CtxSet :=
  { t with
    k := t.k.map fun x => if s.staleTok d x then { x with valid := false } else x
    ctx := t.ctx.map (Ctx.staleReturn (lowestPte (t.k.toList.filter (s.staleTok d)))) }

/-- A set that returns leaves its slot for a set of the core (R130, R326). -/
theorem restore_returns {s : State} {g j : Nat} {p : Fin 2} {u : CtxSet} (hu : fget (s.core g).slots j = some u)
    (hg : (s.pin (g / 128) u.codeTok.pte).gen = u.codeTok.gen) :
    (s.restore g j p).mem = s.mem ∧ (s.restore g j p).clk = s.clk ∧ (s.restore g j p).core g = { s.core g with
      slots := fdel (s.core g).slots j, set := nset (s.core g).set p (s.returned (g / 128) (s.fromSlot g j u)) } := by
  have fresh : s.staleTok (g / 128) (s.fromSlot g j u).codeTok = false := by
    obtain ⟨tile, cls8, v, vpois, crun, h⟩ := fromSlot_rest s g j u
    rw [h, State.staleTok, hg, bne_self_eq_false, Bool.and_false]
  unfold State.restore
  rw [hu]
  dsimp only
  generalize s.fromSlot g j u = t at fresh ⊢
  unfold State.staleTok at fresh
  rw [if_neg (Bool.eq_false_iff.1 fresh)]
  have dies (v : State) : OnlyDies v ((t.tokens.foldl (fun (s : State) x =>
      if x.valid && (s.pin (g / 128) x.pte).gen == x.gen then s.savedBy g x false else s)
      (t.tokens.foldl (fun (s : State) x => s.held g x) v))) := by
    refine (OnlyDies.foldl (fun s x => onlyDies_held s g x) _ v).trans (OnlyDies.foldl (fun s x => ?_) _ _)
    split
    · exact onlyDies_savedBy ..
    · exact .refl _
  exact ⟨(dies _).mem, (dies _).books.clk, ((dies _).core g).trans (core_updCore_same ..)⟩

/-- A set of a core that becomes active, or not, when it returns is the same but for what its waits count from. -/
theorem set_wakeIf (v : State) (g : Nat) (p q : Fin 2) (now : Nat) :
    let t := if p = q then v.updAct g (CtxSet.wake now) else v
    (nget (t.core g).set p = nget (v.core g).set p ∨ nget (t.core g).set p = (nget (v.core g).set p).wake now) ∧
      (t.core g).slots = (v.core g).slots ∧ t.mem = v.mem := by
  dsimp only
  split
  · refine ⟨?_, ?_, rfl⟩
    · simp only [State.updAct, core_updCore_same]
      by_cases h : p = (v.core g).active
      · rw [h, nget_nset_same]
        exact .inr rfl
      · rw [nget_nset_ne _ _ h]
        exact .inl rfl
    · simp only [State.updAct, core_updCore_same]
  · exact ⟨.inl rfl, rfl, rfl⟩

/-- A saved set returns to a vacant set of its core (R130, R326). -/
theorem contextSwitch_returns {s : State} {g j : Nat} {p : Fin 2} {u : CtxSet} (ha : (s.aset g).occupied = true)
    (ho : (s.aset g).over = false) (hl : (s.aset g).leaving = false) (hr : s.nextReturn g = some (j, p))
    (hu : fget (s.core g).slots j = some u) (hn : ((s.core g).slots.map Prod.fst).Nodup)
    (hg : (s.pin (g / 128) u.codeTok.pte).gen = u.codeTok.gen) :
    ∃ t, exec (.contextSwitch g) s = .next t ∧ fget (t.core g).slots j = none ∧ SameBytes s t ∧
      (nget (t.core g).set p = s.returned (g / 128) (s.fromSlot g j u) ∨
        nget (t.core g).set p = (s.returned (g / 128) (s.fromSlot g j u)).wake s.clk) := by
  obtain ⟨mem, clk, core⟩ := restore_returns (p := p) hu hg
  have runs : exec (.contextSwitch g) s = .next
      (if p = ((s.restore g j p).core g).active then (s.restore g j p).updAct g (CtxSet.wake s.clk) else s.restore g j p) := by
    change execContextSwitch g s = _
    simp only [execContextSwitch, closing_of_not_over ho, ho, ha, hl, hr, clk, Bool.and_false, Bool.false_and, Bool.not_true,
      Bool.false_eq_true, if_false]
  obtain ⟨set, slots, same⟩ := set_wakeIf (s.restore g j p) g p ((s.restore g j p).core g).active s.clk
  generalize ((s.restore g j p).core g).active = q at runs set slots same
  rw [core] at set slots
  rw [nget_nset_same] at set
  refine ⟨_, runs, ?_, fun l => congrArg (Memory.get · l) (same.trans mem), set⟩
  rw [slots]
  exact fget_fdel_nodup j hn

/-- What a set's return gives back of it (R130, R326). -/
theorem returned_registers (s : State) (d g j : Nat) (u b : CtxSet)
    (hb : b = s.returned d (s.fromSlot g j u) ∨ b = (s.returned d (s.fromSlot g j u)).wake s.clk) :
    (b.sid = u.sid ∧ b.card = u.card ∧ b.ring = u.ring ∧ b.m = u.m ∧ b.tl = u.tl) ∧
      b.k = u.k.map (fun x => if s.staleTok d x then { x with valid := false } else x) ∧
      b.v = (s.fromSlot g j u).v ∧ b.tile = (s.fromSlot g j u).tile := by
  obtain ⟨tile, cls8, v, vpois, crun, h⟩ := fromSlot_rest s g j u
  rw [h] at hb ⊢
  rcases hb with rfl | rfl <;> exact ⟨⟨rfl, rfl, rfl, rfl, rfl⟩, rfl, rfl, rfl⟩

theorem vget_map {α β : Type} {k n : Nat} (v : Vector α k) (f : α → β) (i : BitVec n) (h : 2 ^ n ≤ k) :
    vget (v.map f) i h = f (vget v i h) := by
  simp [vget]

/-- A stale k register comes back not valid, and every other as it was (R130). -/
theorem returned_token {s : State} {d : Nat} {u b : CtxSet}
    (hk : b.k = u.k.map fun x => if s.staleTok d x then { x with valid := false } else x) (x : KReg) :
    (((vget u.k x).valid = true ∧ (s.pin d (vget u.k x).pte).gen ≠ (vget u.k x).gen) →
        vget b.k x = { vget u.k x with valid := false }) ∧
      (¬ ((vget u.k x).valid = true ∧ (s.pin d (vget u.k x).pte).gen ≠ (vget u.k x).gen) → vget b.k x = vget u.k x) := by
  have stale : s.staleTok d (vget u.k x) = true ↔
      (vget u.k x).valid = true ∧ (s.pin d (vget u.k x).pte).gen ≠ (vget u.k x).gen := by
    simp [State.staleTok]
  rw [hk, vget_map, ← stale]
  exact ⟨fun h => if_pos h, fun h => if_neg h⟩

end Sys2Proof.Machine
end

section
namespace Sys2Proof.Machine

/-! ### Blocks of bytes and the numbers in them -/

/-- The memory that lists the nonzero bytes of a block reads as the block. -/
theorem get_listed (l : List (Byte × Bool)) (a i : Nat) :
    Memory.get ((((l.zipIdx a).map fun b => (b.2, b.1)).filter fun e => e.2.1 != 0).map fun e => (e.1, e.2.1)) (a + i) =
      (l.map Prod.fst).getD i 0 := by
  induction l generalizing a i with
  | nil => rfl
  | cons b l ih =>
    obtain ⟨x, bad⟩ := b
    have rest : ∀ j, fget ((((l.zipIdx (a + 1)).map fun b => (b.2, b.1)).filter fun e => e.2.1 != 0).map fun e => (e.1, e.2.1)) j =
        none ∨ a < j := fun j => by
      by_cases h : a < j
      · exact .inr h
      · refine .inl (fget_eq_none fun e he hk => ?_)
        obtain ⟨e', he', rfl⟩ := List.mem_map.1 he
        obtain ⟨e'', he'', rfl⟩ := List.mem_map.1 (List.mem_filter.1 he').1
        have := List.le_snd_of_mem_zipIdx he''
        dsimp only at hk
        omega
    cases i with
    | zero =>
      by_cases hx : x = 0#8
      · have none_ := (rest a).resolve_right (Nat.lt_irrefl a)
        simpa [hx, Memory.get] using congrArg (fun o : Option Byte => o.getD 0) none_
      · simp [hx, Memory.get, fget]
    | succ i =>
      have later := ih (a + 1) i
      have place : a + (i + 1) = a + 1 + i := by omega
      have ne : a ≠ a + 1 + i := by omega
      rw [place]
      by_cases hx : x = 0#8
      · simpa [hx] using later
      · simpa [List.filter_cons, hx, Memory.get, fget, ne] using later

/-- A place of a row of blocks of one length. -/
theorem getD_flatten {α β : Type} {f : α → List β} {n : Nat} (hf : ∀ a, (f a).length = n) (l : List α) {i b : Nat} (hi : i < l.length)
    (hb : b < n) (d : β) : ((l.map f).flatten).getD (n * i + b) d = (f l[i]).getD b d := by
  induction l generalizing i with
  | nil => exact absurd hi (Nat.not_lt_zero _)
  | cons a l ih =>
    rw [List.map_cons, List.flatten_cons]
    cases i with
    | zero =>
      rw [List.getD_append _ _ _ _ (by rw [hf]; omega)]
      simp
    | succ i =>
      have later : n ≤ n * (i + 1) + b := by rw [Nat.mul_succ]; omega
      have place : n * (i + 1) + b - n = n * i + b := by rw [Nat.mul_succ]; omega
      rw [List.getD_append_right _ _ _ _ (by rw [hf]; exact later), hf, place, ih (by simpa using hi)]
      rfl

theorem length_flatten_map {α β : Type} {f : α → List β} {n : Nat} (hf : ∀ a, (f a).length = n) (l : List α) :
    ((l.map f).flatten).length = n * l.length := by
  induction l with
  | nil => simp
  | cons a l ih => rw [List.map_cons, List.flatten_cons, List.length_append, ih, hf, List.length_cons, Nat.mul_succ, Nat.add_comm]

/-- Memory that holds the bytes of a number reads as the number. -/
theorem readNat_of_bytes {t : State} {a n x : Nat} (h : ∀ b, b < n → t.mem.get (a + b) = (leBytes n x).getD b 0) :
    t.readNat a n = x % 256 ^ n := by
  rw [← leNat_leBytes]
  refine congrArg leNat (List.ext_getElem (by simp [Memory.read]) fun i h1 h2 => ?_)
  simp only [Memory.read, List.getElem_map, List.getElem_range]
  rw [h i (by simpa using h2), List.getD_eq_getElem?_getD, List.getElem?_eq_getElem h2]
  rfl

/-! ### Blocks that are written (R318, R326) -/

theorem get_writeBlock_outside (s : State) {a l : Nat} {bs : List (Byte × Bool)} (h : l < a ∨ a + bs.length ≤ l) :
    (s.writeBlock a bs).mem.get l = s.mem.get l := by
  obtain ⟨mem, -, -⟩ := clobber_keeps s a bs.length
  refine (get_splice_outside _ (fun e he => ?_) h).trans (congrArg (Memory.get · l) mem)
  obtain ⟨e', he', rfl⟩ := List.mem_map.1 he
  obtain ⟨e'', he'', rfl⟩ := List.mem_map.1 (List.mem_filter.1 he').1
  exact ⟨List.le_snd_of_mem_zipIdx he'', List.snd_lt_add_of_mem_zipIdx he''⟩

theorem get_writeBlock (s : State) {a i : Nat} {bs : List (Byte × Bool)} (h : i < bs.length) :
    (s.writeBlock a bs).mem.get (a + i) = (bs.map Prod.fst).getD i 0 :=
  (get_splice_inside _ _ (Nat.le_add_right ..) (Nat.add_lt_add_left h a)).trans (get_listed bs a i)

theorem get_writePart_outside (s : State) {a l : Nat} {bs : List (Byte × Bool)} (h : l < a ∨ a + bs.length ≤ l) :
    (s.writePart a bs).mem.get l = s.mem.get l := by
  unfold State.writePart
  split
  · exact get_writeBlock_outside s h
  · rfl

theorem get_writePart (s : State) {a i : Nat} {bs : List (Byte × Bool)} (ha : blockInHbm a bs.length = true) (h : i < bs.length) :
    (s.writePart a bs).mem.get (a + i) = (bs.map Prod.fst).getD i 0 := by
  rw [State.writePart, if_pos ha, get_writeBlock s h]

/-- Parts that are written leave what lies in none of them. -/
theorem get_writeParts_outside (s : State) {a l : Nat} {parts : List (Nat × List (Byte × Bool))}
    (h : ∀ p ∈ parts, l < a + p.1 ∨ a + p.1 + p.2.length ≤ l) : (s.writeParts a parts).mem.get l = s.mem.get l := by
  induction parts generalizing s with
  | nil => rfl
  | cons p parts ih =>
    refine (ih (s.writePart (a + p.1) p.2) fun q hq => h q (List.mem_cons_of_mem _ hq)).trans ?_
    exact get_writePart_outside s (h p List.mem_cons_self)

/-- Parts in ascending order that do not overlap. -/
def Ascending (parts : List (Nat × List (Byte × Bool))) : Prop := parts.Pairwise fun p q => p.1 + p.2.length ≤ q.1

/-- A part that is written reads as written. -/
theorem get_writeParts (s : State) {a i : Nat} {parts : List (Nat × List (Byte × Bool))} (hp : Ascending parts)
    {p : Nat × List (Byte × Bool)} (hm : p ∈ parts) (ha : blockInHbm (a + p.1) p.2.length = true) (hi : i < p.2.length) :
    (s.writeParts a parts).mem.get (a + p.1 + i) = (p.2.map Prod.fst).getD i 0 := by
  induction parts generalizing s with
  | nil => exact absurd hm List.not_mem_nil
  | cons q parts ih =>
    obtain ⟨later, hp⟩ := List.pairwise_cons.1 hp
    rcases List.mem_cons.1 hm with rfl | hm
    · refine (get_writeParts_outside (s.writePart (a + p.1) p.2) fun r hr => ?_).trans (get_writePart s ha hi)
      have := later r hr
      omega
    · exact ih (s.writePart (a + q.1) q.2) hp hm

/-- A part that is a row of numbers reads as the numbers. -/
theorem readNat_writeParts (s : State) {a off n : Nat} {bs : List (Byte × Bool)} {parts : List (Nat × List (Byte × Bool))}
    (hp : Ascending parts) (hm : (off, bs) ∈ parts) (ha : blockInHbm (a + off) bs.length = true) {nums : List Nat}
    (hb : bs.map Prod.fst = (nums.map (leBytes n)).flatten) {i : Nat} (hi : i < nums.length) :
    (s.writeParts a parts).readNat (a + off + n * i) n = nums[i] % 256 ^ n := by
  have len : bs.length = n * nums.length := by
    rw [← List.length_map (f := Prod.fst), hb, length_flatten_map (length_leBytes n)]
  refine readNat_of_bytes fun b hlt => ?_
  have inside : n * i + b < bs.length := by
    have : n * i + n ≤ n * nums.length := by rw [← Nat.mul_succ]; exact Nat.mul_le_mul_left n hi
    omega
  rw [Nat.add_assoc, get_writeParts s hp hm ha inside, hb, getD_flatten (length_leBytes n) nums hi hlt]

end Sys2Proof.Machine
end

section
namespace Sys2Proof.Machine

/-! ### The image of a saved set (R326) -/

/-- Parts in ascending order, without overlaps, from one offset to another. -/
structure Laid (lo hi : Nat) (parts : List (Nat × List (Byte × Bool))) : Prop where
  ascending : Ascending parts
  within : ∀ p ∈ parts, lo ≤ p.1 ∧ p.1 + p.2.length ≤ hi

theorem Laid.nil (lo hi : Nat) : Laid lo hi [] := ⟨.nil, nofun⟩

theorem Laid.single {lo hi off : Nat} {bs : List (Byte × Bool)} (h : lo ≤ off) (h' : off + bs.length ≤ hi) :
    Laid lo hi [(off, bs)] :=
  ⟨List.pairwise_singleton _ _, fun p hp => by rw [List.mem_singleton.1 hp]; exact ⟨h, h'⟩⟩

theorem Laid.append {lo mid hi : Nat} {a b : List (Nat × List (Byte × Bool))} (ha : Laid lo mid a) (hb : Laid mid hi b)
    (h : lo ≤ mid) (h' : mid ≤ hi) : Laid lo hi (a ++ b) := by
  refine ⟨List.pairwise_append.2 ⟨ha.ascending, hb.ascending, fun p hp q hq => ?_⟩, fun p hp => ?_⟩
  · exact (ha.within p hp).2.trans (hb.within q hq).1
  · rcases List.mem_append.1 hp with hp | hp
    · have := ha.within p hp
      omega
    · have := hb.within p hp
      omega

/-- Parts of at most w bytes, w bytes apart. -/
theorem Laid.row {lo w k : Nat} {f : Fin k → Option (Nat × List (Byte × Bool))}
    (h : ∀ i p, f i = some p → p.1 = lo + w * i.val ∧ p.2.length ≤ w) : Laid lo (lo + w * k) ((List.finRange k).filterMap f) := by
  refine ⟨List.pairwise_filterMap.2 ((List.pairwise_lt_finRange k).imp fun {i j} hij p hp q hq => ?_), fun p hp => ?_⟩
  · obtain ⟨hp, hl⟩ := h i p hp
    obtain ⟨hq, -⟩ := h j q hq
    have : w * i.val + w ≤ w * j.val := by rw [← Nat.mul_succ]; exact Nat.mul_le_mul_left w hij
    omega
  · obtain ⟨i, -, hi⟩ := List.mem_filterMap.1 hp
    obtain ⟨hp, hl⟩ := h i p hi
    have : w * i.val + w ≤ w * k := by rw [← Nat.mul_succ]; exact Nat.mul_le_mul_left w i.isLt
    omega

theorem marks_fst (l : List Byte) : (l.map fun b => (b, false)).map Prod.fst = l := by
  rw [List.map_map]
  exact List.map_id _

/-- The rows of a tile as numbers. -/
def Tile.numbers (t : Tile) : List Nat := (List.finRange 64).map fun r => (nget t.rows r).toNat

theorem tile_bytes (t : Tile) : t.bytes.map Prod.fst = (t.numbers.map (leBytes 256)).flatten := by
  simp [Tile.bytes, Tile.numbers, List.map_flatten, List.map_map, Function.comp_def]

/-- The v registers as numbers. -/
def CtxSet.vNumbers (t : CtxSet) : List Nat := (List.finRange 32).map fun i => (nget t.v i).toNat

theorem vBytes_numbers (t : CtxSet) : t.vBytes.map Prod.fst = (t.vNumbers.map (leBytes 256)).flatten := by
  simp [CtxSet.vBytes, CtxSet.vNumbers, List.map_flatten, List.map_map, Function.comp_def, List.zipIdx_map_fst]

/-- The cells of a class slot's hash table as numbers. -/
def ClassSlot.numbers (c : ClassSlot) : List Nat := c.table.map fun w => w.toNat

theorem table_bytes (c : ClassSlot) : (c.table.map fun w => leBytes 4 w.toNat).flatten = (c.numbers.map (leBytes 4)).flatten := by
  simp [ClassSlot.numbers, List.map_map, Function.comp_def]

theorem length_of_numbers {bs : List (Byte × Bool)} {n : Nat} {nums : List Nat}
    (h : bs.map Prod.fst = (nums.map (leBytes n)).flatten) : bs.length = n * nums.length := by
  rw [← List.length_map (f := Prod.fst), h, length_flatten_map (length_leBytes n)]

theorem foldl_max_lt {l : List Nat} {b : Nat} (hb : 0 < b) (h : ∀ i ∈ l, i < b) : l.foldl max 0 < b := by
  have general : ∀ (l : List Nat) (a : Nat), a < b → (∀ i ∈ l, i < b) → l.foldl max a < b := by
    intro l
    induction l with
    | nil => exact fun a ha _ => ha
    | cons i l ih =>
      exact fun a ha h => ih _ (Nat.max_lt.2 ⟨ha, h i List.mem_cons_self⟩) fun j hj => h j (List.mem_cons_of_mem _ hj)
  exact general l 0 hb h

theorem length_inqBytes {l : List Nat} {n : Nat} (hn : 0 < n) (h : ∀ i ∈ l, i < 8 * n) : (inqBytes l).length ≤ n := by
  have := foldl_max_lt (b := 8 * n) (by omega) h
  rw [inqBytes, List.length_map, List.length_range]
  omega

/-- The parts of a saved set's image follow one another in its slot (R326). -/
theorem image_laid {u : CtxSet} (n : Nat) (ht : ∀ x : Fin 8, (nget u.cls8 x).table.length ≤ 8192)
    (hr : ∀ r ∈ u.crun, r.q.length ≤ 786432 ∧ ∀ i ∈ r.inq, i < 786432) : Laid 0 (2 ^ 22) (u.image n) := by
  unfold CtxSet.image
  dsimp only
  refine Laid.append (mid := 0xD0000) (Laid.append (mid := 0x60000) (Laid.append (mid := 0x20000) ?tiles ?tables
    (by omega) (by omega)) ?registers (by omega) (by omega)) ?peel (by omega) (by omega)
  case tiles =>
    refine Laid.row (w := 0x4000) (lo := 0) (k := 8) fun i p hp => ?_
    split at hp
    · cases hp
    · cases hp
      exact ⟨(Nat.zero_add _).symm, (length_of_numbers (tile_bytes _)).le.trans (by simp [Tile.numbers])⟩
  case tables =>
    refine Laid.row (w := 0x8000) (lo := 0x20000) (k := 8) fun i p hp => ?_
    split at hp
    · cases hp
      have := ht i
      refine ⟨rfl, ?_⟩
      rw [List.length_map, length_flatten_map fun w : W32 => length_leBytes 4 w.toNat]
      omega
    · cases hp
  case registers =>
    refine Laid.append (a := [_]) (b := [_]) (mid := 0x62000) (.single (Nat.le_refl _) ?_) (.single (Nat.le_refl _) ?_)
      (by omega) (by omega)
    · rw [length_of_numbers (vBytes_numbers u)]
      simp [CtxSet.vNumbers]
    · rw [List.length_map, List.length_map, List.length_range]
  case peel =>
    split
    · rename_i r hc
      obtain ⟨hq, hi⟩ := hr r hc
      split
      · refine Laid.append (a := [_]) (b := [_]) (mid := 0xE8000) (.single (Nat.le_refl _) ?_) (.single (Nat.le_refl _) ?_)
          (by omega) (by omega)
        · have := length_inqBytes (n := 98304) (by omega) (fun i h => hi i h)
          rw [List.length_map]
          omega
        · rw [List.length_map, length_flatten_map (length_leBytes 4)]
          omega
      · exact .nil ..
    · exact .nil ..

end Sys2Proof.Machine
end

section
namespace Sys2Proof.Machine

/-! ### The parts of an image -/

theorem image_tile (u : CtxSet) (n : Nat) {i : Fin 8} (h : (nget u.tile i).st ≠ .empty) :
    (0x4000 * i.val, (nget u.tile i).bytes) ∈ u.image n := by
  have full : ((nget u.tile i).st == .empty) = false := by simpa using h
  refine List.mem_append_left _ (List.mem_append_left _ (List.mem_append_left _ (List.mem_filterMap.2 ⟨i, List.mem_finRange i, ?_⟩)))
  rw [full]
  rfl

theorem image_table (u : CtxSet) (n : Nat) {i : Fin 8} (h : (nget u.cls8 i).set = true) :
    (0x20000 + 0x8000 * i.val, (((nget u.cls8 i).table.map fun w => leBytes 4 w.toNat).flatten).map fun b => (b, false)) ∈
      u.image n := by
  refine List.mem_append_left _ (List.mem_append_left _ (List.mem_append_right _ (List.mem_filterMap.2 ⟨i, List.mem_finRange i, ?_⟩)))
  rw [if_pos h]

theorem image_v (u : CtxSet) (n : Nat) : (0x60000, u.vBytes) ∈ u.image n :=
  List.mem_append_left _ (List.mem_append_right _ List.mem_cons_self)

/-! ### What the writes of a save leave of its core -/

/-- The cores have their sets, slots and saves as before. -/
def SameSaves (s t : State) : Prop := ∀ g, (t.core g).slots = (s.core g).slots ∧ (t.core g).switch = (s.core g).switch

theorem SameSaves.trans {s t u : State} (a : SameSaves s t) (b : SameSaves t u) : SameSaves s u := fun g =>
  ⟨(b g).1.trans (a g).1, (b g).2.trans (a g).2⟩

theorem SameSaves.foldl {α : Type} {f : State → α → State} (hf : ∀ s a, SameSaves s (f s a)) (l : List α) (s : State) :
    SameSaves s (l.foldl f s) := by
  induction l generalizing s with
  | nil => exact fun _ => ⟨rfl, rfl⟩
  | cons a l ih => exact (hf s a).trans (ih _)

/-- A core of a map whose cores have each been changed. -/
theorem fget_map {α β : Type} {m : FMap α} {f : Nat × α → Nat × α} (hf : ∀ e, (f e).1 = e.1) {φ : α → β}
    (hφ : ∀ e, φ (f e).2 = φ e.2) (n : Nat) : (fget (m.map f) n).map φ = (fget m n).map φ := by
  induction m with
  | nil => rfl
  | cons e m ih =>
    obtain ⟨k, x⟩ := e
    obtain ⟨key, val⟩ : (f (k, x)).1 = k ∧ φ (f (k, x)).2 = φ x := ⟨hf (k, x), hφ (k, x)⟩
    rw [List.map_cons]
    generalize f (k, x) = e at key val
    obtain ⟨k', y⟩ := e
    dsimp only at key val
    subst key
    by_cases hn : k' = n
    · simp [fget, hn, val]
    · simp [fget, hn, ih]

/-- The slots of a core and the save that it has under way. -/
def Core.saves (k : Core) : FMap CtxSet × Option Switch := (k.slots, k.switch)

theorem sameSaves_map {s t : State} {f : Nat × Core → Nat × Core} (hc : t.cores = s.cores.map f) (hf : ∀ e, (f e).1 = e.1)
    (hs : ∀ e, (f e).2.slots = e.2.slots ∧ (f e).2.switch = e.2.switch) : SameSaves s t := by
  intro g
  have same := congrArg (fun o => o.getD (Core.saves {})) (fget_map (m := s.cores) (φ := Core.saves) hf (fun e => Prod.ext (hs e).1 (hs e).2) g)
  rw [← hc] at same
  simp only [Option.getD_map] at same
  exact ⟨congrArg Prod.fst same, congrArg Prod.snd same⟩

theorem sameSaves_invalidate (s : State) (line : Nat) : SameSaves s (s.invalidate line) := by
  unfold State.invalidate
  split
  · exact fun _ => ⟨rfl, rfl⟩
  · refine sameSaves_map rfl (fun e => ?_) fun e => ?_
    · split <;> rfl
    · split <;> exact ⟨rfl, rfl⟩

theorem sameSaves_clobber (s : State) (dst n : Nat) : SameSaves s (s.clobber dst n) :=
  (SameSaves.foldl sameSaves_invalidate _ s).trans (sameSaves_map rfl (fun _ => rfl) fun _ => ⟨rfl, rfl⟩)

theorem sameSaves_writePart (s : State) (a : Nat) (bs : List (Byte × Bool)) : SameSaves s (s.writePart a bs) := by
  unfold State.writePart
  split
  · exact sameSaves_clobber s a bs.length
  · exact fun _ => ⟨rfl, rfl⟩

theorem sameSaves_writeParts (s : State) (a : Nat) (parts : List (Nat × List (Byte × Bool))) : SameSaves s (s.writeParts a parts) := by
  unfold State.writeParts
  exact .foldl (fun s b => sameSaves_writePart s (a + b.1) b.2) parts s

/-! ### A save that is complete (R325, R326) -/

/-- A save whose stores have left the buffer writes its slot (R325, R326). -/
theorem setSaveComplete_runs {s : State} {g : Nat} {w : Switch} {u : CtxSet} (hw : (s.core g).switch = some w)
    (hb : ∀ e ∈ (s.core g).sb, e.sid ≠ w.sid) (hu : fget (s.core g).slots w.slot = some u) (hs : u.sid = w.sid) :
    exec (.setSaveComplete g) s = .next ((s.setCore g { s.core g with switch := none }).writeSlot g w.slot u) := by
  have drained : ((s.core g).sb.any fun e => e.sid == w.sid) = false :=
    List.any_eq_false.2 fun e he => by simpa using hb e he
  change execSetSaveComplete g s = _
  simp only [execSetSaveComplete, hw, drained, Bool.false_eq_true, if_false, hu, hs, if_true]

/-- A slot holds the v registers, the tiles that are not EMPTY and the hash tables of the set class slots of a set (R326). -/
structure SlotHolds (t : State) (a : Nat) (u : CtxSet) : Prop where
  v : ∀ i : Fin 32, t.readNat (a + 0x60000 + 256 * i.val) 256 = (nget u.v i).toNat
  tile : ∀ i : Fin 8, (nget u.tile i).st ≠ .empty → ∀ r : Fin 64,
    t.readNat (a + 0x4000 * i.val + 256 * r.val) 256 = (nget (nget u.tile i).rows r).toNat
  table : ∀ (i : Fin 8) o, (nget u.cls8 i).set = true → o < (nget u.cls8 i).table.length →
    t.readNat (a + 0x20000 + 0x8000 * i.val + 4 * o) 4 = ((nget u.cls8 i).table.getD o 0).toNat

theorem toNat_mod_bytes {w : Nat} (x : BitVec w) {n : Nat} (h : w = 8 * n) : x.toNat % 256 ^ n = x.toNat := by
  refine Nat.mod_eq_of_lt ?_
  have := x.isLt
  rwa [show 256 = 2 ^ 8 from rfl, ← Nat.pow_mul, ← h]

/-- The parts of a set's image that are written to its slot in HBM4E hold it (R326). -/
theorem writeParts_holds (s : State) {d base n : Nat} {u : CtxSet} (hbm : base + 2 ^ 22 ≤ 0x1FC0000000)
    (laid : Laid 0 (2 ^ 22) (u.image n)) : SlotHolds (s.writeParts (podAddr s d base) (u.image n)) (podAddr s d base) u := by
  have block {off : Nat} {bs : List (Byte × Bool)} (h : (off, bs) ∈ u.image n) (h0 : 0 < bs.length) :
      blockInHbm (podAddr s d base + off) bs.length = true :=
    blockInHbm_part s d hbm (laid.within _ h).2 h0
  refine ⟨fun i => ?_, fun i hi r => ?_, fun i o hi ho => ?_⟩
  · have len : i.val < u.vNumbers.length := by simp [CtxSet.vNumbers]
    have part := image_v u n
    refine (readNat_writeParts s laid.ascending part (block part ?_) (vBytes_numbers u) len).trans ?_
    · rw [length_of_numbers (vBytes_numbers u)]
      omega
    · have number : u.vNumbers[i.val] = (nget u.v i).toNat := by simp [CtxSet.vNumbers]
      rw [number]
      exact toNat_mod_bytes _ rfl
  · have len : r.val < (nget u.tile i).numbers.length := by simp [Tile.numbers]
    have part := image_tile u n hi
    refine (readNat_writeParts s laid.ascending part (block part ?_) (tile_bytes _) len).trans ?_
    · rw [length_of_numbers (tile_bytes _)]
      omega
    · have number : (nget u.tile i).numbers[r.val] = (nget (nget u.tile i).rows r).toNat := by simp [Tile.numbers]
      rw [number]
      exact toNat_mod_bytes _ rfl
  · have len : o < (nget u.cls8 i).numbers.length := by simpa [ClassSlot.numbers] using ho
    have part := image_table u n hi
    have bytes := (marks_fst (((nget u.cls8 i).table.map fun w => leBytes 4 w.toNat).flatten)).trans (table_bytes (nget u.cls8 i))
    rw [Nat.add_assoc (podAddr s d base)]
    refine (readNat_writeParts s laid.ascending part (block part ?_) bytes len).trans ?_
    · rw [length_of_numbers bytes]
      omega
    · have number : (nget u.cls8 i).numbers[o] = ((nget u.cls8 i).table.getD o 0).toNat := by
        simp [ClassSlot.numbers, List.getD_eq_getElem?_getD, List.getElem?_eq_getElem ho]
      rw [number]
      exact toNat_mod_bytes _ rfl

/-- A save that is complete writes its slot, where the registers then lie, and no byte outside (R325, R326). -/
theorem setSaveComplete_writes {s : State} {g : Nat} {w : Switch} {u : CtxSet} (hw : (s.core g).switch = some w)
    (hb : ∀ e ∈ (s.core g).sb, e.sid ≠ w.sid) (hu : fget (s.core g).slots w.slot = some u) (hs : u.sid = w.sid)
    (hbm : s.slotAddr g w.slot + 2 ^ 22 ≤ 0x1FC0000000) (ht : ∀ x : Fin 8, (nget u.cls8 x).table.length ≤ 8192)
    (hr : ∀ r ∈ u.crun, r.q.length ≤ 786432 ∧ ∀ i ∈ r.inq, i < 786432) :
    ∃ t, exec (.setSaveComplete g) s = .next t ∧ (t.core g).switch = none ∧ (t.core g).slots = (s.core g).slots ∧
      SlotHolds t (podAddr s (g / 128) (s.slotAddr g w.slot)) u ∧
      ∀ l, l < podAddr s (g / 128) (s.slotAddr g w.slot) ∨ podAddr s (g / 128) (s.slotAddr g w.slot) + 2 ^ 22 ≤ l →
        t.mem.get l = s.mem.get l := by
  have laid := image_laid s.nextId ht hr
  let v : State := { s.setCore g { s.core g with switch := none } with nextId := s.nextId + 1 }
  have runs : exec (.setSaveComplete g) s = .next (v.writeParts (podAddr s (g / 128) (s.slotAddr g w.slot)) (u.image s.nextId)) :=
    setSaveComplete_runs hw hb hu hs
  have core : v.core g = { s.core g with switch := none } := core_setCore_same s g _
  refine ⟨_, runs, ?_, ?_, writeParts_holds v (d := g / 128) hbm laid, fun l hl => ?_⟩
  · rw [(sameSaves_writeParts v _ _ g).2, core]
  · rw [(sameSaves_writeParts v _ _ g).1, core]
  · refine get_writeParts_outside v fun p hp => ?_
    have := laid.within p hp
    omega

end Sys2Proof.Machine
end

section
namespace Sys2Proof.Machine

/-! ### A set whose contexts stop (R325) -/

/-- A context that has gone on to stop: as it was, or without its hold. -/
def Ctx.StopsTo (x y : Ctx) : Prop :=
  (y.hold = x.hold ∧ y.st = x.st) ∨ (y.hold = .none ∧ y.st = if x.st = .wait then .run else x.st)

theorem Ctx.StopsTo.refl (x : Ctx) : x.StopsTo x := .inl ⟨rfl, rfl⟩

theorem Ctx.StopsTo.trans {x y z : Ctx} (a : x.StopsTo y) (b : y.StopsTo z) : x.StopsTo z := by
  rcases b with ⟨hold, st⟩ | ⟨hold, st⟩
  · unfold Ctx.StopsTo
    rw [hold, st]
    exact a
  · refine .inr ⟨hold, ?_⟩
    rcases a with ⟨-, hx⟩ | ⟨-, hx⟩
    · rw [st, hx]
    · rw [st, hx]
      by_cases h : x.st = .wait
      · simp [h]
      · simp [h]

/-- What a set keeps while its contexts stop. -/
structure CtxSet.StopsTo (t u : CtxSet) : Prop where
  sid : u.sid = t.sid
  card : u.card = t.card
  vprog : u.vprog = t.vprog
  srun : u.srun = t.srun
  crun : u.crun = t.crun
  ctx : ∀ x, (nget t.ctx x).StopsTo (nget u.ctx x)

theorem CtxSet.StopsTo.trans {t u v : CtxSet} (a : t.StopsTo u) (b : u.StopsTo v) : t.StopsTo v :=
  ⟨b.sid.trans a.sid, b.card.trans a.card, b.vprog.trans a.vprog, b.srun.trans a.srun, b.crun.trans a.crun,
    fun x => (a.ctx x).trans (b.ctx x)⟩

theorem CtxSet.StopsTo.refl (t : CtxSet) : t.StopsTo t := ⟨rfl, rfl, rfl, rfl, rfl, fun _ => .refl _⟩

/-- What a core and memory keep while the contexts of its active set stop. -/
structure State.StopsTo (g : Nat) (s t : State) : Prop where
  mem : t.mem = s.mem
  clk : t.clk = s.clk
  active : (t.core g).active = (s.core g).active
  slots : (t.core g).slots = (s.core g).slots
  xfers : ∀ x ∈ (t.core g).xfers, x ∈ (s.core g).xfers
  act : (s.aset g).StopsTo (t.aset g)

theorem State.StopsTo.trans {g : Nat} {s t u : State} (a : State.StopsTo g s t) (b : State.StopsTo g t u) : State.StopsTo g s u :=
  ⟨b.mem.trans a.mem, b.clk.trans a.clk, b.active.trans a.active, b.slots.trans a.slots, fun x hx => a.xfers x (b.xfers x hx),
    a.act.trans b.act⟩

theorem stopsTo_of_sameCores {s t : State} (h : SameCores s t) (g : Nat) : State.StopsTo g s t := by
  have aset : t.aset g = s.aset g := congrArg Core.act (h.core g)
  exact ⟨h.mem, h.clk, by rw [h.core], by rw [h.core], fun x hx => by rwa [h.core] at hx, by rw [aset]; exact .refl _⟩

theorem stopsTo_updAct (s : State) (g : Nat) {f : CtxSet → CtxSet} (h : (s.aset g).StopsTo (f (s.aset g))) :
    State.StopsTo g s (s.updAct g f) := by
  have core : (s.updAct g f).core g = { s.core g with set := nset (s.core g).set (s.core g).active (f (s.core g).act) } :=
    core_updCore_same ..
  exact ⟨rfl, rfl, by rw [core], by rw [core], fun x hx => by rwa [core] at hx, by rw [aset_updAct]; exact h⟩

/-- A change of a core beside its sets, slots and line requests. -/
theorem stopsTo_updCore (s : State) (g : Nat) {f : Core → Core} (ha : (f (s.core g)).active = (s.core g).active)
    (hs : (f (s.core g)).set = (s.core g).set) (hl : (f (s.core g)).slots = (s.core g).slots)
    (hx : ∀ x ∈ (f (s.core g)).xfers, x ∈ (s.core g).xfers) : State.StopsTo g s (s.updCore g f) := by
  have aset : (s.updCore g f).aset g = s.aset g := by
    rw [State.aset, core_updCore_same, Core.act, ha, hs]
    rfl
  refine ⟨rfl, rfl, ?_, ?_, fun x h => ?_, by rw [aset]; exact .refl _⟩
  · rw [core_updCore_same, ha]
  · rw [core_updCore_same, hl]
  · rw [core_updCore_same] at h
    exact hx x h

theorem stopsTo_smudge (s : State) (g sid : Nat) (reason : BitVec 3) : State.StopsTo g s (s.smudge g sid reason) :=
  stopsTo_updCore s g rfl rfl rfl fun _ h => h

theorem stopsTo_orphan (s : State) (g sid : Nat) (pick : XKey → Bool) : State.StopsTo g s (s.orphan g sid pick) := by
  have gone (l : List Xfer) : State.StopsTo g s (l.foldl (fun (s : State) x => s.leaveReqs g x) s) :=
    stopsTo_of_sameCores (SameCores.foldl (fun s x => sameCores_leaveReqs s g x) l s) g
  unfold State.orphan
  exact (gone _).trans (stopsTo_updCore _ g rfl rfl rfl fun x h => (List.mem_filter.1 h).1)

theorem stopsTo_setAbandonPlay (t : CtxSet) (c : CtxId) : t.StopsTo (t.abandonPlay c) := by
  unfold CtxSet.abandonPlay
  split
  · exact ⟨rfl, rfl, rfl, rfl, rfl, fun _ => .refl _⟩
  · exact .refl t

theorem stopsTo_abandonPlay (s : State) (g : Nat) (c : CtxId) : State.StopsTo g s (s.abandonPlay g c) := by
  have first : State.StopsTo g s (if (s.aset g).headPlay c then s.orphan g (s.aset g).sid (· == .gal) else s) := by
    split
    · exact stopsTo_orphan ..
    · exact stopsTo_of_sameCores (.refl s) g
  unfold State.abandonPlay
  dsimp only
  generalize (if (s.aset g).headPlay c then s.orphan g (s.aset g).sid (· == .gal) else s) = v at first ⊢
  refine first.trans ((stopsTo_updAct v g (f := fun t => t.abandonPlay c) (stopsTo_setAbandonPlay _ c)).trans ?_)
  split
  · exact stopsTo_of_sameCores (OnlyDies.foldl (f := fun s k => s.released g k) (fun s k => onlyDies_released s g k) _ _).sameCores g
  · exact stopsTo_of_sameCores (.refl _) g

theorem stopsTo_goOn (x : Ctx) : x.StopsTo x.goOn := by
  refine .inr ⟨rfl, ?_⟩
  cases h : x.st <;> simp [Ctx.goOn, h]

theorem stopsTo_wx (x : Ctx) (r : XReg) (v : W64) (tag : Tag) (p : Bool) : x.StopsTo (x.wx r v tag p) := by
  unfold Ctx.wx
  split <;> exact .refl x

/-- A change of one context of a set. -/
theorem stopsTo_updCtx (t : CtxSet) (c : CtxId) {f : Ctx → Ctx} (h : (nget t.ctx c).StopsTo (f (nget t.ctx c))) :
    t.StopsTo (t.updCtx c f) := by
  refine ⟨rfl, rfl, rfl, rfl, rfl, fun x => ?_⟩
  by_cases hx : x = c
  · subst hx
    simpa only [CtxSet.updCtx, nget_nset_same] using h
  · simp only [CtxSet.updCtx, nget_nset_ne _ _ hx]
    exact .refl _

/-- The active set of a core by its number. -/
theorem updSid_aset (s : State) (g : Nat) (f : CtxSet → CtxSet) : s.updSid g (s.aset g).sid f = s.updAct g f :=
  congrArg (s.setCore g) (if_pos rfl)

theorem stopsTo_updWho (s : State) (g : Nat) (c : CtxId) {f : Ctx → Ctx} (hf : ∀ x : Ctx, x.StopsTo (f x)) {sid : Nat}
    (h : (s.aset g).sid = sid) : State.StopsTo g s (s.updWho ⟨g, sid, c⟩ f) := by
  subst h
  unfold State.updWho
  dsimp only
  rw [updSid_aset]
  exact stopsTo_updAct s g (stopsTo_updCtx _ c (hf _))

theorem stopsTo_wakeWaita (s : State) (g : Nat) (c : CtxId) (xd : XReg) (code : W64) :
    State.StopsTo g s (s.wakeWaita ⟨g, (s.aset g).sid, c⟩ xd code) := by
  unfold State.wakeWaita
  dsimp only
  generalize (s.monitors.filter fun m => !(m.core == g && m.sid == (s.aset g).sid && m.ctx == c)) = l
  have same : SameCores s { s with monitors := l } := ⟨rfl, rfl, rfl, rfl⟩
  have wakes := stopsTo_updWho { s with monitors := l } g c (f := fun x => (x.wx xd code .vol false).goOn)
    (fun x => (stopsTo_wx x xd code .vol false).trans (stopsTo_goOn _)) (sid := (s.aset g).sid) rfl
  exact ((stopsTo_of_sameCores same g).trans wakes).trans (stopsTo_updCore _ g rfl rfl rfl fun _ h => h)

theorem stopsTo_interruptWaita (s : State) (g : Nat) (c : CtxId) : State.StopsTo g s (s.interruptWaita g c) := by
  unfold State.interruptWaita State.sleeper
  split
  case h_2 => exact stopsTo_of_sameCores (.refl s) g
  rename_i w xd tmo armed m hw
  obtain rfl : w = ⟨g, (s.aset g).sid, c⟩ := by
    dsimp only at hw
    split at hw
    · cases hw; rfl
    · cases hw
  exact stopsTo_wakeWaita ..

/-- Before its contexts leave off, those of a set have been interrupted and their plays abandoned (R325). -/
theorem stopsTo_interrupts (s : State) (g : Nat) :
    State.StopsTo g s ((((((s.interruptWaita g 0).interruptWaita g 1).interruptWaita g 2).abandonPlay g 0).abandonPlay g 1).abandonPlay
      g 2) := by
  have waits := ((stopsTo_interruptWaita s g 0).trans (stopsTo_interruptWaita _ g 1)).trans (stopsTo_interruptWaita _ g 2)
  exact ((waits.trans (stopsTo_abandonPlay _ g 0)).trans (stopsTo_abandonPlay _ g 1)).trans (stopsTo_abandonPlay _ g 2)

/-! ### What a context's hold comes to when its set is switched out (R325) -/

/-- A hold goes on while its set is out. -/
def Hold.goesOn : Hold → Bool
  | .reply _ | .load .. | .purge _ => true
  | _ => false

theorem switchOut_awake {now : Nat} {x : Ctx} (h : x.st ≠ .wait) : x.switchOut now = x := by
  have awake : (x.st != .wait) = true := bne_iff_ne.2 h
  rw [Ctx.switchOut, if_pos awake]

/-- A hold that goes on stays with its context. -/
theorem switchOut_goesOn {now : Nat} {x : Ctx} (h : x.st = .wait) (hh : x.hold.goesOn = true) :
    (x.switchOut now).hold = x.hold ∧ (x.switchOut now).st = x.st := by
  have waits : (CtxSt.wait != CtxSt.wait) = false := rfl
  unfold Ctx.switchOut
  simp only [h, waits, Bool.false_eq_true, if_false]
  split
  case h_4 h1 h2 h3 => 
    cases hx : x.hold <;> simp_all [Hold.goesOn]
  all_goals exact ⟨rfl, rfl⟩

/-- Any other hold is abandoned, and its context's instruction issues again. -/
theorem switchOut_abandons {now : Nat} {x : Ctx} (h : x.st = .wait) (hh : x.hold.goesOn = false) :
    (x.switchOut now).hold = .none ∧ (x.switchOut now).st = .run := by
  have waits : (CtxSt.wait != CtxSt.wait) = false := rfl
  unfold Ctx.switchOut
  simp only [h, waits, Bool.false_eq_true, if_false]
  split
  case h_4 => exact ⟨rfl, rfl⟩
  all_goals (rename_i hx; rw [hx] at hh; cases hh)

theorem switchOut_stopsTo (now : Nat) (x : Ctx) : x.StopsTo (x.switchOut now) := by
  by_cases h : x.st = .wait
  · cases hh : x.hold.goesOn with
    | true => exact .inl (switchOut_goesOn h hh)
    | false =>
      obtain ⟨hold, st⟩ := switchOut_abandons (now := now) h hh
      exact .inr ⟨hold, by rw [st, if_pos h]⟩
  · rw [switchOut_awake h]
    exact .refl x

/-- A context that runs when its set leaves still runs, and so does one whose hold does not go on. -/
theorem switchOut_runs {now : Nat} {x y : Ctx} (h : x.StopsTo y) :
    (x.st = .run → (y.switchOut now).st = .run) ∧ (x.st = .wait → x.hold.goesOn = false → (y.switchOut now).st = .run) := by
  have awake (hy : y.st = .run) : (y.switchOut now).st = .run := by
    rw [switchOut_awake (by rw [hy]; exact nofun), hy]
  rcases h with ⟨hold, st⟩ | ⟨hold, st⟩
  · refine ⟨fun hx => awake (st.trans hx), fun hx hh => ?_⟩
    rw [← hold] at hh
    exact (switchOut_abandons (st.trans hx) hh).2
  · refine ⟨fun hx => awake (by rw [st, hx]; rfl), fun hx _ => awake (by rw [st, if_pos hx])⟩

end Sys2Proof.Machine
end

section
namespace Sys2Proof.Machine

/-! ### A set at rest (R325) -/

theorem forall_mem_toList {α : Type} {k : Nat} (v : Vector α k) (p : α → Prop) : (∀ a ∈ v.toList, p a) ↔ ∀ i : Fin k, p (nget v i) := by
  constructor
  · exact fun h i => h _ (by simp [nget])
  · intro h a ha
    obtain ⟨i, hi, rfl⟩ := List.mem_iff_getElem.1 ha
    simpa [nget] using h ⟨i, by simpa using hi⟩

/-- What rest asks of an active set: the engines' boundaries, and that nothing is to come (R325 step 2). -/
theorem atRest_iff (s : State) (g : Nat) : s.atRest g (s.core g).active = true ↔
    (s.aset g).vBegan = false ∧ (∀ x, ∀ r ∈ nget (s.aset g).srun x, r.flying = []) ∧
      ((s.aset g).exchanging || !(s.aset g).crun.any CollRun.midEntry) = true ∧
      (∀ x ∈ (s.core g).xfers, (x.sid != (s.aset g).sid || ((s.aset g).exchanging && x.key.isColl)) = true) ∧
      ∀ x, (nget (s.aset g).ctx x).hold.reading = false := by
  unfold State.atRest
  change (((s.core g).active != (s.core g).active) || _) = true ↔ _
  rw [bne_self_eq_false, Bool.false_or]
  simp only [Bool.and_eq_true, List.all_eq_true, List.isEmpty_iff, Bool.not_eq_true', and_assoc, forall_mem_toList]
  rfl

/-- A set that was at rest is so when its contexts have stopped. -/
theorem atRest_stops {s t : State} {g : Nat} (h : State.StopsTo g s t) (hr : s.atRest g (s.core g).active = true) :
    t.atRest g (s.core g).active = true := by
  obtain ⟨vec, streams, coll, lines, reads⟩ := (atRest_iff s g).1 hr
  obtain ⟨sid, card, vprog, srun, crun, ctx⟩ := h.act
  have exchanging : (t.aset g).exchanging = (s.aset g).exchanging := by rw [CtxSet.exchanging, crun]; rfl
  rw [← h.active]
  refine (atRest_iff t g).2 ⟨?_, ?_, ?_, fun x hx => ?_, fun x => ?_⟩
  · rw [CtxSet.vBegan, vprog]
    exact vec
  · rw [srun]
    exact streams
  · rw [exchanging, crun]
    exact coll
  · rw [sid, exchanging]
    exact lines x (h.xfers x hx)
  · rcases ctx x with ⟨hold, -⟩ | ⟨hold, -⟩
    · rw [hold]
      exact reads x
    · rw [hold]
      rfl

/-- While a granule is in flight, a set is not at rest (R151, R325). -/
theorem atRest_flying {s : State} {g : Nat} {x : CtxId} {r : StreamRun} (hr : r ∈ nget (s.aset g).srun x) (hf : r.flying ≠ []) :
    s.atRest g (s.core g).active = false := by
  by_contra h
  obtain ⟨-, streams, -, -, -⟩ := (atRest_iff s g).1 (Bool.not_eq_false _ ▸ h)
  exact hf (streams x r hr)

/-- A set that begins to leave has its contexts stopped, and keeps what its engines do (R325 step 1). -/
theorem beginOut_stops {s : State} {g : Nat} (hl : (s.aset g).leaving = false) :
    State.StopsTo g s (s.beginOut g (s.core g).active) ∧ ((s.beginOut g (s.core g).active).aset g).leaving = true ∧
      ∀ x, ∃ y : Ctx, (s.ctx g x).StopsTo y ∧ (s.beginOut g (s.core g).active).ctx g x = y.switchOut s.clk := by
  have begins : s.beginOut g (s.core g).active =
      ((s.smudge g (s.aset g).sid 5).stopContexts g).updAct g fun t => { t with leaving := true } := by
    simp only [State.beginOut, bne_self_eq_false, hl, Bool.or_self, Bool.false_eq_true, if_false]
  have stops := (stopsTo_smudge s g (s.aset g).sid 5).trans (stopsTo_interrupts _ g)
  rw [begins]
  unfold State.stopContexts
  dsimp only
  generalize ((((((s.smudge g (s.aset g).sid 5).interruptWaita g 0).interruptWaita g 1).interruptWaita g 2).abandonPlay g
    0).abandonPlay g 1).abandonPlay g 2 = v at stops ⊢
  have out : (v.aset g).StopsTo { v.aset g with ctx := (v.aset g).ctx.map (Ctx.switchOut v.clk) } :=
    ⟨rfl, rfl, rfl, rfl, rfl, fun x => by rw [nget_map]; exact switchOut_stopsTo _ _⟩
  refine ⟨(stops.trans (stopsTo_updAct v g (f := fun t => { t with ctx := t.ctx.map (Ctx.switchOut v.clk) }) out)).trans
    (stopsTo_updAct _ g ⟨rfl, rfl, rfl, rfl, rfl, fun _ => .refl _⟩), by rw [aset_updAct], fun x => ⟨v.ctx g x, stops.act.ctx x, ?_⟩⟩
  rw [State.ctx, aset_updAct, aset_updAct, nget_map, stops.clk]
  rfl

/-! ### A set that goes to a save slot (R325, R326) -/

theorem stopsTo_completeEntry (t : CtxSet) (e : Entry) (fl : BitVec 5) (mst : BitVec 8) (fail : FailRec) :
    t.StopsTo (t.completeEntry e fl mst fail) := by
  have flags := stopsTo_updCtx t e.who
    (f := fun x => ({ x with fstat := x.fstat ||| fl, mstat := x.mstat ||| mst } : Ctx).addFailures fail) (.inl ⟨rfl, rfl⟩)
  unfold CtxSet.completeEntry
  dsimp only
  split
  · exact flags.trans ⟨rfl, rfl, rfl, rfl, rfl, fun _ => .refl _⟩
  · exact flags

theorem stopsTo_flushResults (s : State) (g : Nat) : State.StopsTo g s (s.flushResults g) := by
  have one (s : State) (d : VDone) : State.StopsTo g s (match execVEntryResult g d.e.num s with
      | .next s => s
      | _ => s) := by
    unfold execVEntryResult
    cases (s.aset g).vdone.find? fun x => x.e.num = d.e.num with
    | none => exact stopsTo_of_sameCores (.refl s) g
    | some d' =>
      refine stopsTo_updAct s g ?_
      have taken : (s.aset g).StopsTo { s.aset g with vdone := (s.aset g).vdone.filter fun x => x.e.num != d.e.num } :=
        ⟨rfl, rfl, rfl, rfl, rfl, fun _ => .refl _⟩
      exact taken.trans (stopsTo_completeEntry ..)
  have all (l : List VDone) (s : State) : State.StopsTo g s (l.foldl (fun (s : State) d => match execVEntryResult g d.e.num s with
      | .next s => s
      | _ => s) s) := by
    induction l generalizing s with
    | nil => exact stopsTo_of_sameCores (.refl s) g
    | cons d l ih => exact (one s d).trans (ih _)
  exact all ..

theorem stopsTo_stopEngines (s : State) (g : Nat) : State.StopsTo g s (s.stopEngines g) :=
  (stopsTo_flushResults s g).trans (stopsTo_updAct _ g ⟨rfl, rfl, rfl, rfl, rfl, fun _ => .refl _⟩)

/-- A set that goes to a save slot lies there, and its save begins (R325, R326). -/
theorem toSlot_saves (s : State) (g : Nat) (p : Fin 2) (j : Nat) :
    (s.toSlot g p j).mem = s.mem ∧ ((s.toSlot g p j).core g).active = (s.core g).active ∧
      ((s.toSlot g p j).core g).slots =
        fset (s.core g).slots j { nget (s.core g).set p with outAt := s.clk, leaving := false } ∧
      ((s.toSlot g p j).core g).switch = some { sid := (nget (s.core g).set p).sid, slot := j, since := s.clk } := by
  unfold State.toSlot
  dsimp only
  generalize hk : ({ s.core g with
    set := nset (s.core g).set p (emptySet s.nextId { nget (s.core g).set p with outAt := s.clk, leaving := false })
    slots := fset (s.core g).slots j { nget (s.core g).set p with outAt := s.clk, leaving := false }
    switch := some { sid := (nget (s.core g).set p).sid, slot := j, since := s.clk } } : Core) = k
  have dies (v : State) (l : List Token) : OnlyDies v (v.saveTokens g l) := by
    refine .foldl (fun v t => ?_) l v
    split
    · exact (onlyDies_savedBy ..).trans (onlyDies_holderBit ..)
    · exact .refl v
  have core (u : State) (n : Nat) (l : List Token) : (((u.triggerDrain g n).saveTokens g l).core g) =
      { u.core g with drainTo := max (u.core g).drainTo n } := ((dies _ l).core g).trans (core_updCore_same ..)
  have here (n : Nat) : State.core { s.setCore g k with nextId := n } g = k := core_setCore_same s g k
  rw [core, here]
  subst hk
  exact ⟨(dies _ _).mem, rfl, rfl, rfl⟩

/-- Whether the set that comes is occupied and wakes, or not, its core's slots and saves stay. -/
theorem wakeOccupied_keeps (s : State) (g : Nat) :
    ∀ t, t = (if (s.aset g).occupied then s.updAct g (CtxSet.wake s.clk) else s) →
      (t.core g).active = (s.core g).active ∧ (t.core g).slots = (s.core g).slots ∧ (t.core g).switch = (s.core g).switch ∧
        t.mem = s.mem := by
  rintro t rfl
  split
  · simp only [State.updAct, core_updCore_same, updCore_mem, and_self]
  · exact ⟨rfl, rfl, rfl, rfl⟩

/-- The active set that goes to a save slot leaves its place to the other (R325). -/
theorem takeOut_leaves (s : State) (g j : Nat) :
    ∃ t u w, s.takeOut g (s.core g).active j = t ∧ (t.core g).active = (s.core g).active + 1 ∧
      fget (t.core g).slots j = some u ∧ u.sid = (s.aset g).sid ∧ u.card = (s.aset g).card ∧
      u.outAt = s.clk ∧ (t.core g).switch = some w ∧ w.sid = (s.aset g).sid ∧ w.slot = j ∧ t.mem = s.mem := by
  have stops := stopsTo_stopEngines s g
  unfold State.takeOut
  rw [if_pos rfl]
  dsimp only
  generalize s.stopEngines g = y at stops ⊢
  obtain ⟨mem, active, slots, switch⟩ := toSlot_saves y g (s.core g).active j
  have act : nget (y.core g).set (s.core g).active = y.aset g := by
    rw [← stops.active]
    rfl
  rw [act] at slots switch
  generalize y.toSlot g (s.core g).active j = z at mem active slots switch ⊢
  have core := core_updCore_same z g fun k => { k with active := k.active + 1 }
  have same := updCore_mem z g fun k => { k with active := k.active + 1 }
  generalize z.updCore g (fun k => { k with active := k.active + 1 }) = v at core same ⊢
  obtain ⟨wakes, wslots, wswitch, wmem⟩ := wakeOccupied_keeps v g _ rfl
  refine ⟨_, { y.aset g with outAt := y.clk, leaving := false }, { sid := (y.aset g).sid, slot := j, since := y.clk }, rfl, ?_, ?_,
    stops.act.sid, stops.act.card, stops.clk, ?_, stops.act.sid, rfl, wmem.trans (same.trans (mem.trans stops.mem))⟩
  · rw [wakes, core]
    dsimp only
    rw [active, stops.active]
  · rw [wslots, core]
    dsimp only
    rw [slots, fget_fset_same]
  · rw [wswitch, core]
    exact switch

end Sys2Proof.Machine
end

section
namespace Sys2Proof.Machine

/-! ### A party whose slice has run out (R325, R327) -/

/-- A party that is not of a CONC gang is switched out alone, to the free slot (R327). -/
theorem gangOut_alone {s : State} {g j : Nat} {c : Card} (hc : s.cardOf (s.aset g) = some c) (hn : c.conc = false)
    (hs : (s.core g).switch = none) (hf : s.freeSlot g = some j) :
    s.gangOut g (s.aset g) = some [(g, (s.core g).active, j)] := by
  have here : (s.core g).partySet (s.aset g).card = some (s.core g).active := by
    have own : ((nget (s.core g).set (s.core g).active).card == (s.aset g).card) = true := BEq.rfl
    rw [Core.partySet, List.find?_cons, own]
  simp only [State.gangOut, hc, hn, Bool.false_eq_true, if_false, List.filterMap_cons, List.filterMap_nil, here, hf, hs,
    Option.isNone_none, if_true, List.length_cons, List.length_nil]

/-- A party that goes alone begins to leave, and goes when its set is at rest (R325). -/
theorem gangSwitch_alone {s : State} {g j : Nat} {c : Card} (hc : s.cardOf (s.aset g) = some c) (hn : c.conc = false)
    (hs : (s.core g).switch = none) (hf : s.freeSlot g = some j) :
    s.gangSwitch g (s.aset g) =
      if (s.beginOut g (s.core g).active).atRest g (s.core g).active then
        (s.beginOut g (s.core g).active).takeOut g (s.core g).active j
      else s.beginOut g (s.core g).active := by
  simp only [State.gangSwitch, gangOut_alone hc hn hs hf, List.foldl_cons, List.foldl_nil, List.all_cons, List.all_nil, Bool.and_true]

/-- When a slice is over and no saved set returns, the active party begins to leave (R327). -/
theorem contextSwitch_sliceOver {s : State} {g : Nat} (ha : (s.aset g).occupied = true) (ho : (s.aset g).over = false)
    (hl : (s.aset g).leaving = false) (hr : s.nextReturn g = none) (hs : (s.aset g).started = true) (hv : s.sliceOver g = true) :
    exec (.contextSwitch g) s = .next (s.gangSwitch g (s.aset g)) := by
  change execContextSwitch g s = _
  simp only [execContextSwitch, closing_of_not_over ho, ho, ha, hl, hr, hs, hv, Bool.and_false, Bool.and_self, Bool.false_and,
    Bool.not_true, Bool.false_eq_true, if_false, if_true]

/-- A set at rest goes to its save slot at once (R325, R327). -/
theorem contextSwitch_goes {s : State} {g j : Nat} {c : Card}
    (runs : exec (.contextSwitch g) s = .next (s.gangSwitch g (s.aset g))) (hl : (s.aset g).leaving = false)
    (hc : s.cardOf (s.aset g) = some c) (hn : c.conc = false) (hs : (s.core g).switch = none) (hf : s.freeSlot g = some j)
    (hr : s.atRest g (s.core g).active = true) :
    ∃ t u w, exec (.contextSwitch g) s = .next t ∧ (t.core g).active = (s.core g).active + 1 ∧ fget (t.core g).slots j = some u ∧
      u.sid = (s.aset g).sid ∧ u.card = (s.aset g).card ∧ u.outAt = s.clk ∧ (t.core g).switch = some w ∧
      w.sid = (s.aset g).sid ∧ w.slot = j ∧ SameBytes s t := by
  obtain ⟨stops, -, -⟩ := beginOut_stops hl
  have rest := atRest_stops stops hr
  rw [gangSwitch_alone hc hn hs hf, if_pos rest] at runs
  obtain ⟨t, u, w, taken, active, slot, sid, card, out, switch, wsid, wslot, mem⟩ :=
    takeOut_leaves (s.beginOut g (s.core g).active) g j
  rw [stops.active] at taken active
  rw [taken] at runs
  exact ⟨t, u, w, runs, active, slot, sid.trans stops.act.sid, card.trans stops.act.card, out.trans stops.clk, switch,
    wsid.trans stops.act.sid, wslot, fun l => congrArg (Memory.get · l) (mem.trans stops.mem)⟩

/-- A set with a granule in flight stays, its contexts stopped (R325). -/
theorem contextSwitch_stays {s : State} {g j : Nat} {c : Card}
    (runs : exec (.contextSwitch g) s = .next (s.gangSwitch g (s.aset g))) (hl : (s.aset g).leaving = false)
    (hc : s.cardOf (s.aset g) = some c) (hn : c.conc = false) (hs : (s.core g).switch = none) (hf : s.freeSlot g = some j)
    {x : CtxId} {r : StreamRun} (hr : r ∈ nget (s.aset g).srun x) (hfly : r.flying ≠ []) :
    ∃ t, exec (.contextSwitch g) s = .next t ∧ (t.core g).active = (s.core g).active ∧ (t.aset g).leaving = true ∧ SameBytes s t ∧
      ∀ x : CtxId, ((s.ctx g x).st = .run → (t.ctx g x).st = .run) ∧
        ((s.ctx g x).st = .wait → (s.ctx g x).hold.goesOn = false → (t.ctx g x).st = .run) := by
  obtain ⟨stops, leaving, ctx⟩ := beginOut_stops hl
  have busy : (s.beginOut g (s.core g).active).atRest g (s.core g).active = false := by
    have busy := atRest_flying (s := s.beginOut g (s.core g).active) (by rwa [stops.act.srun]) hfly
    rwa [stops.active] at busy
  rw [gangSwitch_alone hc hn hs hf, if_neg (Bool.eq_false_iff.1 busy)] at runs
  refine ⟨_, runs, stops.active, leaving, fun l => congrArg (Memory.get · l) stops.mem, fun x => ?_⟩
  obtain ⟨y, hy, out⟩ := ctx x
  have after := switchOut_runs (now := s.clk) hy
  rwa [← out] at after

/-- Settles O58: each clause is the lemma of the switching step that it speaks of. -/
theorem setSwitches : Obligations.SetSwitches := by
  unfold Obligations.SetSwitches
  intro s g n c a k hbm at_
  refine ⟨fun ha hc ho hq hr => contextSwitch_leaves ha hc ho hq hr, fun ha ho hc hl => contextSwitch_activates ha ho hc hl,
    fun ha ho hl => ⟨?returns, ?sliceOver⟩, fun w hw hb => ⟨fun hu => setSaveComplete_gone hw hb hu, ?saves⟩,
    fun hs hn ht he hw => timeSliceExpiry_timer hs hn ht he hw⟩
  case returns =>
    intro j p u hr hu hn hg stale
    obtain ⟨t, runs, slot, same, set⟩ := contextSwitch_returns ha ho hl hr hu hn hg
    obtain ⟨⟨sid, card, ring, m, tl⟩, hk, hv, htile⟩ := returned_registers s (g / 128) g j u _ set
    refine ⟨t, runs, slot, same, sid, card, ring, m, tl, fun x => returned_token hk x, fun h => ⟨fun i => ?_, fun i hi r => ?_⟩⟩
    · rw [hv]
      exact fromSlot_v s g j u h i
    · rw [htile]
      exact fromSlot_tile s g j u h hi r
  case sliceOver =>
    intro j hr hs hv hc hn hw hf
    have runs := contextSwitch_sliceOver ha ho hl hr hs hv
    refine ⟨fun rest => contextSwitch_goes runs hl hc hn hw hf rest, fun x r hx hfly => ?_⟩
    obtain ⟨t, runs, active, leaving, same, ctx⟩ := contextSwitch_stays runs hl hc hn hw hf hx hfly
    refine ⟨t, runs, active, leaving, same, fun x => (ctx x).1, fun x hx hh => (ctx x).2 hx ?_⟩
    change (nget a.ctx x).hold.goesOn = false
    generalize (nget a.ctx x).hold = h at hh ⊢
    cases h with
    | reply | load | purge => cases hh
    | _ => rfl
  case saves =>
    intro u hu hs h _ ht hr
    obtain ⟨t, runs, switch, slots, ⟨v, tile, table⟩, outside⟩ := setSaveComplete_writes hw hb hu hs h ht hr
    exact ⟨t, runs, switch, slots, v, tile, table, outside⟩

end Sys2Proof.Machine
end

section
namespace Sys2Proof.Machine

/-! ### Integer readings of the scalar operations (R39, R79) -/

theorem ofBool64_eq_ite {p : Prop} [Decidable p] {b : Bool} (h : b = true ↔ p) : ofBool64 b = if p then 1 else 0 := by
  simp [ofBool64, h]

theorem toInt_simm (imm : BitVec 12) : (simm imm).toInt = imm.toInt :=
  BitVec.toInt_signExtend_of_le (by decide)

theorem lo32_eq_ofInt (a : W64) : lo32 a = BitVec.ofInt 32 a.toInt :=
  (BitVec.signExtend_eq_setWidth_of_le a (by decide)).symm

theorem lo32_add_simm (a : W64) (imm : BitVec 12) : lo32 (a + simm imm) = BitVec.ofInt 32 ((lo32 a).toInt + imm.toInt) := by
  rw [BitVec.ofInt_add, BitVec.ofInt_toInt, ← toInt_simm, ← lo32_eq_ofInt]
  exact BitVec.setWidth_add a (simm imm) (by decide)

theorem uimm20_eq (up : BitVec 20) : uimm20 up = BitVec.ofInt 64 (up.toInt * 4096) := by
  rw [uimm20, BitVec.signExtend, BitVec.toInt_append_zero, Int.mul_comm]; rfl

theorem sub_eq_ofInt {w : Nat} (a b : BitVec w) : a - b = BitVec.ofInt w (a.toInt - b.toInt) := by
  rw [Int.sub_eq_add_neg, BitVec.ofInt_add, BitVec.ofInt_neg, BitVec.ofInt_toInt, BitVec.ofInt_toInt, BitVec.sub_eq_add_neg]

theorem add_eq_ofInt {w : Nat} (a b : BitVec w) : a + b = BitVec.ofInt w (a.toInt + b.toInt) := by
  rw [BitVec.ofInt_add, BitVec.ofInt_toInt, BitVec.ofInt_toInt]

theorem mul_eq_ofInt {w : Nat} (a b : BitVec w) : a * b = BitVec.ofInt w (a.toInt * b.toInt) := by
  rw [BitVec.ofInt_mul, BitVec.ofInt_toInt, BitVec.ofInt_toInt]

theorem shiftLeft_eq_ofNat {w : Nat} (a : BitVec w) (n : Nat) : a <<< n = BitVec.ofNat w (a.toNat * 2 ^ n) := by
  rw [← Nat.shiftLeft_eq]; rfl

theorem ushiftRight_eq_ofNat {w : Nat} (a : BitVec w) (n : Nat) : a >>> n = BitVec.ofNat w (a.toNat / 2 ^ n) := by
  rw [← Nat.shiftRight_eq_div_pow, ← BitVec.toNat_ushiftRight, BitVec.ofNat_toNat, BitVec.setWidth_eq]

theorem sshiftRight_eq_ofInt {w : Nat} (a : BitVec w) (n : Nat) : a.sshiftRight n = BitVec.ofInt w (a.toInt / 2 ^ n) := by
  rw [BitVec.sshiftRight, Int.shiftRight_eq_div_pow]; norm_cast

theorem sx32_sshiftRight (a : W32) (n : Nat) : sx32 (a.sshiftRight n) = BitVec.ofInt 64 (a.toInt / 2 ^ n) := by
  rw [sx32, BitVec.signExtend, BitVec.toInt_sshiftRight, Int.shiftRight_eq_div_pow]; norm_cast

theorem highProduct_eq (a b : Int) : highProduct a b = BitVec.ofInt 64 (a * b / 2 ^ 64) := by
  have floor : a * b / 2 ^ 64 = (a * b) >>> (64 : Nat) := (Int.shiftRight_eq_div_pow ..).symm
  rw [floor]
  unfold highProduct
  cases a * b <;> rfl

theorem sx32_mul (a b : W64) : sx32 (lo32 a * lo32 b) = BitVec.ofInt 64 ((a.toInt * b.toInt).bmod (2 ^ 32)) := by
  have product : lo32 a * lo32 b = BitVec.ofInt 32 (a.toInt * b.toInt) := by
    rw [BitVec.ofInt_mul, lo32_eq_ofInt, lo32_eq_ofInt]
  rw [product, sx32, BitVec.signExtend, BitVec.toInt_ofInt]

/-! ### Division of RV64M in integers (R39) -/

theorem rvDiv_eq {w : Nat} (a b : BitVec w) : rvDiv a b = if b = 0 then -1 else BitVec.ofInt w (a.toInt.tdiv b.toInt) := by
  have quotient : a.sdiv b = BitVec.ofInt w (a.toInt.tdiv b.toInt) := by
    apply BitVec.eq_of_toInt_eq
    rw [BitVec.toInt_sdiv, BitVec.toInt_ofInt]
  rw [rvDiv, quotient, ← BitVec.neg_one_eq_allOnes]; rfl

theorem rvDivu_eq {w : Nat} (a b : BitVec w) : rvDivu a b = if b = 0 then -1 else BitVec.ofNat w (a.toNat / b.toNat) := by
  have quotient : a.udiv b = BitVec.ofNat w (a.toNat / b.toNat) := by
    rw [← BitVec.toNat_udiv, BitVec.ofNat_toNat, BitVec.setWidth_eq]; rfl
  rw [rvDivu, quotient, ← BitVec.neg_one_eq_allOnes]; rfl

theorem rvRem_eq {w : Nat} (a b : BitVec w) : rvRem a b = if b = 0 then a else BitVec.ofInt w (a.toInt.tmod b.toInt) := by
  rw [rvRem, ← BitVec.toInt_srem, BitVec.ofInt_toInt]
theorem rvRemu_eq {w : Nat} (a b : BitVec w) : rvRemu a b = if b = 0 then a else BitVec.ofNat w (a.toNat % b.toNat) := by
  rw [rvRemu, ← BitVec.toNat_umod, BitVec.ofNat_toNat, BitVec.setWidth_eq]; rfl

theorem sx32_ite {p : Prop} [Decidable p] (v : W32) : sx32 (if p then -1 else v) = if p then -1 else sx32 v := by
  split <;> rfl

/-! ### Results of the scalar operations -/

/-- Settles O9: each operation is a function of its operands, whose value is read in integers. -/
theorem scalarResults : Obligations.ScalarResults := by
  unfold Obligations.ScalarResults
  refine ⟨fun s rd rs1 imm sh up => ⟨?addi, ?slti, ?sltiu, ?xori, ?ori, ?andi, ?slli, ?srli, ?srai, ?lui, ?auipc⟩,
    fun s rd rs1 rs2 => ⟨?add, ?sub, ?slt, ?sltu, ?xor, ?or, ?and, ?sll, ?srl, ?sra⟩,
    fun s rd rs1 rs2 imm sh => ⟨?addiw, ?slliw, ?srliw, ?sraiw, ?addw, ?subw, ?sllw, ?srlw, ?sraw⟩⟩
  case addi => exact result_finish rfl (by rw [add_eq_ofInt, toInt_simm])
  case slti => exact result_finish rfl (ofBool64_eq_ite (by rw [BitVec.slt_iff_toInt_lt, toInt_simm]))
  case sltiu => exact result_finish rfl (ofBool64_eq_ite BitVec.ult_iff_toNat_lt)
  case xori | ori | andi => exact result_finish rfl rfl
  case slli => exact result_finish rfl (shiftLeft_eq_ofNat _ _)
  case srli => exact result_finish rfl (ushiftRight_eq_ofNat _ _)
  case srai => exact result_finish rfl (sshiftRight_eq_ofInt _ _)
  case lui => exact result_finish rfl (uimm20_eq up)
  case auipc => exact result_finish rfl (by rw [BitVec.ofInt_add, BitVec.ofInt_toInt, uimm20_eq])
  case add => exact result_finish rfl (add_eq_ofInt _ _)
  case sub => exact result_finish rfl (sub_eq_ofInt _ _)
  case slt => exact result_finish rfl (ofBool64_eq_ite BitVec.slt_iff_toInt_lt)
  case sltu => exact result_finish rfl (ofBool64_eq_ite BitVec.ult_iff_toNat_lt)
  case xor | or | and => exact result_finish rfl rfl
  case sll => exact result_finish rfl (shiftLeft_eq_ofNat _ _)
  case srl => exact result_finish rfl (ushiftRight_eq_ofNat _ _)
  case sra => exact result_finish rfl (sshiftRight_eq_ofInt _ _)
  case addiw => exact result_finish rfl (congrArg sx32 (lo32_add_simm _ _))
  case slliw => exact result_finish rfl (congrArg sx32 (shiftLeft_eq_ofNat _ _))
  case srliw => exact result_finish rfl (congrArg sx32 (ushiftRight_eq_ofNat _ _))
  case sraiw => exact result_finish rfl (sx32_sshiftRight _ _)
  case addw => exact result_finish rfl (congrArg sx32 (add_eq_ofInt _ _))
  case subw => exact result_finish rfl (congrArg sx32 (sub_eq_ofInt _ _))
  case sllw => exact result_finish rfl (congrArg sx32 (shiftLeft_eq_ofNat _ _))
  case srlw => exact result_finish rfl (congrArg sx32 (ushiftRight_eq_ofNat _ _))
  case sraw => exact result_finish rfl (sx32_sshiftRight _ _)

/-- Settles O10: products by the integers of the operands, and division truncated towards 0 (R39). -/
theorem mulDivResults : Obligations.MulDivResults := by
  unfold Obligations.MulDivResults
  intro s rd rs1 rs2
  refine ⟨?mul, ?mulh, ?mulhsu, ?mulhu, ?mulw, ?div, ?divu, ?rem, ?remu, ?divw, ?divuw, ?remw, ?remuw⟩
  case mul => exact result_finish rfl (mul_eq_ofInt _ _)
  case mulh => exact result_finish rfl (highProduct_eq _ _)
  case mulhsu => exact result_finish rfl (highProduct_eq _ _)
  case mulhu => exact result_finish rfl ((highProduct_eq _ _).trans (BitVec.ofInt_natCast _ _))
  case mulw => exact result_finish rfl (sx32_mul _ _)
  case div => exact result_finish rfl (rvDiv_eq _ _)
  case divu => exact result_finish rfl (rvDivu_eq _ _)
  case rem => exact result_finish rfl (rvRem_eq _ _)
  case remu => exact result_finish rfl (rvRemu_eq _ _)
  case divw => exact result_finish rfl ((congrArg sx32 (rvDiv_eq _ _)).trans (sx32_ite _))
  case divuw => exact result_finish rfl ((congrArg sx32 (rvDivu_eq _ _)).trans (sx32_ite _))
  case remw => exact result_finish rfl (congrArg sx32 (rvRem_eq _ _))
  case remuw => exact result_finish rfl (congrArg sx32 (rvRemu_eq _ _))

end Sys2Proof.Machine
end

section
namespace Sys2Proof.Laws.Encoding

open Sys2Proof

/-- A word is the little-endian word of its four bytes (R24). -/
theorem wordOfBytes_extractLsb (w : W32) :
    wordOfBytes (w.extractLsb' 0 8) (w.extractLsb' 8 8) (w.extractLsb' 16 8) (w.extractLsb' 24 8) = w := by
  have high : w.extractLsb' 24 8 ++ w.extractLsb' 16 8 = w.extractLsb' 16 16 := extract_join w 16 8 8
  have upper : w.extractLsb' 16 16 ++ w.extractLsb' 8 8 = w.extractLsb' 8 24 := extract_join w 8 8 16
  have whole : w.extractLsb' 8 24 ++ w.extractLsb' 0 8 = w.extractLsb' 0 32 := extract_join w 0 8 24
  rw [wordOfBytes, high]
  exact (congrArg (fun x : BitVec 24 => x ++ w.extractLsb' 0 8) upper).trans (whole.trans BitVec.extractLsb'_eq_self)

/-- The word of every instruction decodes to it; an event has none (R24, R31 to R34, R39 to R48). -/
theorem decode_encode (i : Instr) : Statement i := by
  cases i with
  | lb => exact lb _ _ _
  | lh => exact lh _ _ _
  | lw => exact lw _ _ _
  | ld => exact ld _ _ _
  | lbu => exact lbu _ _ _
  | lhu => exact lhu _ _ _
  | lwu => exact lwu _ _ _
  | sb => exact sb _ _ _
  | sh => exact sh _ _ _
  | sw => exact sw _ _ _
  | sd => exact sd _ _ _
  | addi => exact addi _ _ _
  | slti => exact slti _ _ _
  | sltiu => exact sltiu _ _ _
  | xori => exact xori _ _ _
  | ori => exact ori _ _ _
  | andi => exact andi _ _ _
  | slli => exact slli _ _ _
  | srli => exact srli _ _ _
  | srai => exact srai _ _ _
  | auipc => exact auipc _ _
  | addiw => exact addiw _ _ _
  | slliw => exact slliw _ _ _
  | srliw => exact srliw _ _ _
  | sraiw => exact sraiw _ _ _
  | add => exact add _ _ _
  | sub => exact sub _ _ _
  | sll => exact sll _ _ _
  | slt => exact slt _ _ _
  | sltu => exact sltu _ _ _
  | xor => exact xor _ _ _
  | srl => exact srl _ _ _
  | sra => exact sra _ _ _
  | or => exact or _ _ _
  | and => exact and _ _ _
  | mul => exact mul _ _ _
  | mulh => exact mulh _ _ _
  | mulhsu => exact mulhsu _ _ _
  | mulhu => exact mulhu _ _ _
  | div => exact div _ _ _
  | divu => exact divu _ _ _
  | rem => exact rem _ _ _
  | remu => exact remu _ _ _
  | addw => exact addw _ _ _
  | subw => exact subw _ _ _
  | sllw => exact sllw _ _ _
  | srlw => exact srlw _ _ _
  | sraw => exact sraw _ _ _
  | mulw => exact mulw _ _ _
  | divw => exact divw _ _ _
  | divuw => exact divuw _ _ _
  | remw => exact remw _ _ _
  | remuw => exact remuw _ _ _
  | lui => exact lui _ _
  | beq => exact beq _ _ _
  | bne => exact bne _ _ _
  | blt => exact blt _ _ _
  | bge => exact bge _ _ _
  | bltu => exact bltu _ _ _
  | bgeu => exact bgeu _ _ _
  | jalr => exact jalr _ _ _
  | jal => exact jal _ _
  | ecall => exact ecall
  | ebreak => exact ebreak
  | csrrw => exact csrrw _ _ _
  | csrrs => exact csrrs _ _ _
  | csrrc => exact csrrc _ _ _
  | csrrwi => exact csrrwi _ _ _
  | csrrsi => exact csrrsi _ _ _
  | csrrci => exact csrrci _ _ _
  | srstAccess => exact srstAccess _ _ _
  | rvfence => exact rvfence _ _ _ _
  | rvfenceI => exact rvfenceI
  | trn => exact trn _ _ _ _ _
  | trnp => exact trnp _ _ _ _ _ _
  | tkmov => exact tkmov _ _
  | tkdrop => exact tkdrop _
  | tklen => exact tklen _ _
  | tkinfo => exact tkinfo _ _
  | ptr => exact ptr _ _ _ _
  | gpatch => exact gpatch _ _
  | guntag => exact guntag _
  | vxmv => exact vxmv _ _ _ _
  | mpop => exact mpop _ _ _
  | vadd => exact vadd _ _ _ _ _
  | vsub => exact vsub _ _ _ _ _
  | vmul => exact vmul _ _ _ _ _
  | vfma => exact vfma _ _ _ _ _
  | vmin => exact vmin _ _ _ _ _
  | vmax => exact vmax _ _ _ _ _
  | vabs => exact vabs _ _ _ _
  | vneg => exact vneg _ _ _ _
  | vdiv => exact vdiv _ _ _ _
  | vsqrt => exact vsqrt _ _ _
  | vrcp => exact vrcp _ _ _
  | vrsq => exact vrsq _ _ _
  | vexp2 => exact vexp2 _ _ _
  | vlog2 => exact vlog2 _ _ _
  | vand => exact vand _ _ _ _ _
  | vor => exact vor _ _ _ _ _
  | vxor => exact vxor _ _ _ _ _
  | vnot => exact vnot _ _ _ _
  | vshl => exact vshl _ _ _ _ _
  | vshr => exact vshr _ _ _ _ _
  | vsra => exact vsra _ _ _ _ _
  | vcmp => exact vcmp _ _ _ _ _ _
  | vsel => exact vsel _ _ _ _ _
  | vcvt => exact vcvt _ _ _ _ _
  | vmov => exact vmov _ _ _ _
  | vbcast => exact vbcast _ _ _ _
  | viota => exact viota _ _ _
  | vshuf => exact vshuf _ _ _ _ _
  | vslide => exact vslide _ _ _ _ _ _
  | vcmpr => exact vcmpr _ _ _ _
  | vpart => exact vpart _ _ _
  | vred => exact vred _ _ _ _ _
  | vscan => exact vscan _ _ _ _ _
  | mset => exact mset _ _ _
  | mand => exact mand _ _ _
  | mor => exact mor _ _ _
  | mxor => exact mxor _ _ _
  | mnot => exact mnot _ _
  | vld => exact vld _ _ _ _
  | vst => exact vst _ _ _ _
  | vldg => exact vldg _ _ _ _ _
  | vsts => exact vsts _ _ _ _ _
  | vldr => exact vldr _ _ _ _ _
  | vstr => exact vstr _ _ _ _ _
  | vadv => exact vadv _ _
  | vpub => exact vpub _ _
  | vlda => exact vlda _ _ _ _
  | rset => exact rset _ _
  | sfill => exact sfill _ _ _
  | sdrain => exact sdrain _ _ _
  | scopy => exact scopy _ _ _
  | shint => exact shint _ _ _
  | mcfg => exact mcfg _ _
  | mgo => exact mgo
  | mrnd => exact mrnd _
  | mzero => exact mzero _
  | mdrain => exact mdrain _ _ _ _
  | mchk => exact mchk _
  | clset => exact clset _ _
  | clclr => exact clclr _ _
  | clins => exact clins _ _ _ _
  | cldel => exact cldel _ _ _ _
  | clsub => exact clsub _ _ _
  | clxch => exact clxch _ _ _
  | clpeel => exact clpeel _ _ _ _ _
  | clstat => exact clstat _ _
  | grec => exact grec _
  | gend => exact gend
  | gplay => exact gplay _ _ _
  | gsave => exact gsave _ _
  | gload => exact gload _ _
  | gdrop => exact gdrop _
  | gstat => exact gstat _ _
  | jpost => exact jpost _ _
  | jdone => exact jdone
  | jstat => exact jstat _ _
  | jyield => exact jyield
  | jprio => exact jprio _ _
  | amo => exact amo _ _ _ _ _ _ _
  | cas => exact cas _ _ _ _ _ _ _
  | fence => exact fence _ _
  | xfence => exact xfence
  | rosync => exact rosync
  | twait => exact twait _ _
  | tliss => exact tliss _ _
  | barArv => exact barArv _ _ _
  | barWt => exact barWt _ _ _
  | barAw => exact barAw _ _ _
  | barStat => exact barStat _ _ _
  | waita => exact waita _ _ _ _
  | rwaitf => exact rwaitf _ _
  | rwaite => exact rwaite _ _
  | stf => exact stf _ _ _
  | pocc => exact pocc _
  | poccW => exact poccW _
  | pref => exact pref _ _ _
  | pret => exact pret _
  | ptstat => exact ptstat _ _
  | tret => exact tret
  | purge => exact purge _
  | _ => exact of_none rfl

/-- Settles O2: instruction by instruction for the word, and the bytes of a word make it again. -/
theorem encodingRoundTrip : Obligations.EncodingRoundTrip := by
  unfold Obligations.EncodingRoundTrip
  intro i u w rest hw he
  have decoded : decode u w = .ok i := decode_encode i hw u w he
  refine ⟨decoded, ?_⟩
  rw [decodeBytes, wordOfBytes_extractLsb, decoded]

/-- Settles O1, by running the decoder on each word. -/
theorem wordsOfTheSpec : Obligations.WordsOfTheSpec := by
  unfold Obligations.WordsOfTheSpec
  decide +kernel

end Sys2Proof.Laws.Encoding
end

section
namespace Sys2Proof

/-! ### A word is joined from its fields (R24, R31 to R34) -/

theorem bits_eq_ofNat {w : W32} {lo len n : Nat} (h : (bits w lo len).toNat = n) : bits w lo len = BitVec.ofNat len n := by
  rw [← h, BitVec.ofNat_toNat, BitVec.setWidth_eq]

theorem zeroBits_iff {w : W32} {lo len : Nat} : zeroBits w lo len = true ↔ bits w lo len = 0 := beq_iff_eq

theorem formIs_iff {w : W32} {f : BitVec 2} : formIs w f = true ↔ bits w 2 2 = f := beq_iff_eq

/-- Two adjoining fields, joined. -/
theorem bits_join {w : W32} (lo a b : Nat) {x : BitVec b} {y : BitVec a} (hx : bits w (lo + a) b = x) (hy : bits w lo a = y) :
    bits w lo (b + a) = x ++ y := by
  rw [← hx, ← hy]
  exact (extract_join w lo a b).symm

theorem bits_all (w : W32) : bits w 0 32 = w := BitVec.extractLsb'_eq_self

theorem bit1_beq_one (x : BitVec 1) : x = bit1 (x == 1) := by revert x; decide

theorem bits_encR {w : W32} {f7 : BitVec 7} {rs2 rs1 : XReg} {f3 : BitVec 3} {rd : XReg} {op : BitVec 7}
    (h25 : bits w 25 7 = f7) (h20 : bits w 20 5 = rs2) (h15 : bits w 15 5 = rs1) (h12 : bits w 12 3 = f3)
    (h7 : bits w 7 5 = rd) (h0 : bits w 0 7 = op) : w = encR f7 rs2 rs1 f3 rd op := by
  have h20 := bits_join 20 5 7 h25 h20
  have h15 := bits_join 15 5 12 h20 h15
  have h12 := bits_join 12 3 17 h15 h12
  have h7 := bits_join 7 5 20 h12 h7
  exact (bits_all w).symm.trans (bits_join 0 7 25 h7 h0)

theorem bits_encI {w : W32} {imm : BitVec 12} {rs1 : XReg} {f3 : BitVec 3} {rd : XReg} {op : BitVec 7}
    (h20 : bits w 20 12 = imm) (h15 : bits w 15 5 = rs1) (h12 : bits w 12 3 = f3)
    (h7 : bits w 7 5 = rd) (h0 : bits w 0 7 = op) : w = encI imm rs1 f3 rd op := by
  have h15 := bits_join 15 5 12 h20 h15
  have h12 := bits_join 12 3 17 h15 h12
  have h7 := bits_join 7 5 20 h12 h7
  exact (bits_all w).symm.trans (bits_join 0 7 25 h7 h0)

theorem bits_encS {w : W32} {imm : BitVec 12} {rs2 rs1 : XReg} {f3 : BitVec 3} (h25 : bits w 25 7 = imm.extractLsb' 5 7)
    (h20 : bits w 20 5 = rs2) (h15 : bits w 15 5 = rs1) (h12 : bits w 12 3 = f3) (h7 : bits w 7 5 = imm.extractLsb' 0 5)
    (h0 : bits w 0 7 = 0x23) : w = encS imm rs2 rs1 f3 :=
  bits_encR h25 h20 h15 h12 h7 h0

theorem bits_encB {w : W32} {off : BitVec 12} {rs2 rs1 : XReg} {f3 : BitVec 3} (h31 : bits w 31 1 = off.extractLsb' 11 1)
    (h25 : bits w 25 6 = off.extractLsb' 4 6) (h20 : bits w 20 5 = rs2) (h15 : bits w 15 5 = rs1) (h12 : bits w 12 3 = f3)
    (h8 : bits w 8 4 = off.extractLsb' 0 4) (h7 : bits w 7 1 = off.extractLsb' 10 1) (h0 : bits w 0 7 = 0x63) :
    w = encB off rs2 rs1 f3 := by
  have h25 := bits_join 25 6 1 h31 h25
  have h20 := bits_join 20 5 7 h25 h20
  have h15 := bits_join 15 5 12 h20 h15
  have h12 := bits_join 12 3 17 h15 h12
  have h8 := bits_join 8 4 20 h12 h8
  have h7 := bits_join 7 1 24 h8 h7
  exact (bits_all w).symm.trans (bits_join 0 7 25 h7 h0)

theorem bits_encJ {w : W32} {off : BitVec 20} {rd : XReg} (h31 : bits w 31 1 = off.extractLsb' 19 1)
    (h21 : bits w 21 10 = off.extractLsb' 0 10) (h20 : bits w 20 1 = off.extractLsb' 10 1) (h12 : bits w 12 8 = off.extractLsb' 11 8)
    (h7 : bits w 7 5 = rd) (h0 : bits w 0 7 = 0x6F) : w = encJ off rd := by
  have h21 := bits_join 21 10 1 h31 h21
  have h20 := bits_join 20 1 11 h21 h20
  have h12 := bits_join 12 8 12 h20 h12
  have h7 := bits_join 7 5 20 h12 h7
  exact (bits_all w).symm.trans (bits_join 0 7 25 h7 h0)

theorem bits_encV {w : W32} {op : BitVec 6} {ty : BitVec 4} {mk : MReg} {s2 vs1 vd : BitVec 5} {form aux : BitVec 2}
    (h26 : bits w 26 6 = op) (h22 : bits w 22 4 = ty) (h19 : bits w 19 3 = mk) (h14 : bits w 14 5 = s2) (h9 : bits w 9 5 = vs1)
    (h4 : bits w 4 5 = vd) (h2 : bits w 2 2 = form) (h0 : bits w 0 2 = aux) : w = encV op ty mk s2 vs1 vd form aux := by
  have h22 := bits_join 22 4 6 h26 h22
  have h19 := bits_join 19 3 10 h22 h19
  have h14 := bits_join 14 5 13 h19 h14
  have h9 := bits_join 9 5 18 h14 h9
  have h4 := bits_join 4 5 23 h9 h4
  have h2 := bits_join 2 2 28 h4 h2
  exact (bits_all w).symm.trans (bits_join 0 2 30 h2 h0)

theorem bits_encE {w : W32} {group op xa xb xc : BitVec 5} {spec : BitVec 7} (h27 : bits w 27 5 = group) (h22 : bits w 22 5 = op)
    (h17 : bits w 17 5 = xa) (h12 : bits w 12 5 = xb) (h7 : bits w 7 5 = xc) (h0 : bits w 0 7 = spec) :
    w = encE group op xa xb xc spec := by
  have h22 := bits_join 22 5 5 h27 h22
  have h17 := bits_join 17 5 10 h22 h17
  have h12 := bits_join 12 5 15 h17 h12
  have h7 := bits_join 7 5 20 h12 h7
  exact (bits_all w).symm.trans (bits_join 0 7 25 h7 h0)

/-! ### What a decoder answers has the word that it read -/

/-- What a decoder answers has the word that it read, under its unit. -/
def Encodes (u : LaneUnit) (w : W32) (r : Except DecodeError Instr) : Prop := ∀ i, r = .ok i → encode i = some (u, w)

theorem encodes_error {u : LaneUnit} {w : W32} {e : DecodeError} : Encodes u w (.error e) := by
  rintro _ ⟨⟩

/-- An instruction has the word read when the fields of the word, joined, are its word. -/
theorem encodes_word {u : LaneUnit} {w v : W32} {i : Instr} (he : encode i = some (u, v)) (hw : w = v) : Encodes u w (.ok i) := by
  rintro _ ⟨⟩
  rw [he, hw]

theorem encodes_demand {u : LaneUnit} {w : W32} {c : Bool} {e : DecodeError} {r : Except DecodeError Instr}
    (h : c = true → Encodes u w r) : Encodes u w (demand c e r) := by
  cases c
  · exact encodes_error
  · exact h rfl

theorem encodes_zero {u : LaneUnit} {w : W32} {lo len : Nat} {e : DecodeError} {r : Except DecodeError Instr}
    (h : bits w lo len = 0 → Encodes u w r) : Encodes u w (demand (zeroBits w lo len) e r) :=
  encodes_demand fun z => h (zeroBits_iff.1 z)

theorem encodes_coded {α : Type} {u : LaneUnit} {w : W32} {o : Option α} {f : α → Except DecodeError Instr}
    (h : ∀ a, o = some a → Encodes u w (f a)) : Encodes u w (coded o f) := by
  cases o
  · exact encodes_error
  · exact h _ rfl

theorem encodes_ite {u : LaneUnit} {w : W32} {c : Bool} {a b : Except DecodeError Instr} (ha : c = true → Encodes u w a)
    (hb : c = false → Encodes u w b) : Encodes u w (if c then a else b) := by
  cases c
  · exact hb rfl
  · exact ha rfl

/-! ### Codes (R48) -/

theorem ElemTy.code_of_ofCode {c : BitVec 4} {t : ElemTy} : ElemTy.ofCode c = some t → c = t.code := by
  revert c; cases t <;> decide
theorem ElemTy.eq_f32_of_code {t : ElemTy} : t.code = 2 → t = .f32 := by
  cases t <;> decide
theorem Order.code_of_ofCode {c : BitVec 3} {t : Order} : Order.ofCode c = some t → c = t.code := by
  revert c; cases t <;> decide
theorem Scope.code_of_ofCode {c : BitVec 3} {t : Scope} : Scope.ofCode c = some t → c = t.code := by
  revert c; cases t <;> decide
theorem Timeline.code_of_ofCode {c : BitVec 3} {t : Timeline} : Timeline.ofCode c = some t → c = t.code := by
  revert c; cases t <;> decide
theorem RMode.code_of_ofCode {c : BitVec 3} {t : RMode} : RMode.ofCode c = some t → c = t.code := by
  revert c; cases t <;> decide
theorem AmoTy.code_ofCode (c : BitVec 2) : c = (AmoTy.ofCode c).code := by revert c; decide
theorem AmoOp.code_of_ofCode {c : BitVec 4} {t : AmoOp} : AmoOp.ofCode c = some t → c = t.code := by
  revert c; cases t <;> decide
theorem CmpRel.code_ofCode (c : BitVec 2) : c = (CmpRel.ofCode c).code := by revert c; decide
theorem RedOp.code_of_ofCode {c : BitVec 2} {t : RedOp} : RedOp.ofCode c = some t → c = t.code := by
  revert c; cases t <;> decide
theorem DrainMode.code_of_ofCode {c : BitVec 2} {t : DrainMode} : DrainMode.ofCode c = some t → c = t.code := by
  revert c; cases t <;> decide
theorem HintKind.code_ofCode (c : BitVec 2) : c = (HintKind.ofCode c).code := by revert c; decide

theorem CsrName.num_of_ofNum {n : BitVec 12} {c : CsrName} (h : CsrName.ofNum n = some c) : n = c.num := by
  unfold CsrName.ofNum at h
  split at h <;> cases h <;> exact BitVec.eq_of_toNat_eq (by assumption)

/-! ### Unit K (R31, R39 to R41) -/

theorem decodeOp_encodes {w : W32} (h : bits w 0 7 = 0x33) : Encodes .k w (decodeOp w) := by
  unfold decodeOp
  dsimp only
  split
  case h_19 => exact encodes_error
  all_goals
    rename_i h7 h3
    exact encodes_word rfl (bits_encR (bits_eq_ofNat h7) rfl rfl (bits_eq_ofNat h3) rfl h)

theorem decodeOp32_encodes {w : W32} (h : bits w 0 7 = 0x3B) : Encodes .k w (decodeOp32 w) := by
  unfold decodeOp32
  dsimp only
  split
  case h_11 => exact encodes_error
  all_goals
    rename_i h7 h3
    exact encodes_word rfl (bits_encR (bits_eq_ofNat h7) rfl rfl (bits_eq_ofNat h3) rfl h)

theorem decodeLoad_encodes {w : W32} (h : bits w 0 7 = 0x03) : Encodes .k w (decodeLoad w) := by
  unfold decodeLoad
  dsimp only
  split
  case h_8 => exact encodes_error
  all_goals
    rename_i h3
    exact encodes_word rfl (bits_encI rfl rfl (bits_eq_ofNat h3) rfl h)

theorem bits_encS_immS {w : W32} {f3 : BitVec 3} (h12 : bits w 12 3 = f3) (h0 : bits w 0 7 = 0x23) :
    w = encS (immS w) (bits w 20 5) (bits w 15 5) f3 := by
  refine bits_encS ?_ rfl rfl h12 ?_ h0 <;>
    simp (disch := decide) only [immS, BitVec.extractLsb'_append_eq_of_le, BitVec.extractLsb'_append_eq_of_add_le,
      Nat.sub_self, BitVec.extractLsb'_eq_self]

theorem decodeStore_encodes {w : W32} (h : bits w 0 7 = 0x23) : Encodes .k w (decodeStore w) := by
  unfold decodeStore
  dsimp only
  split
  case h_5 => exact encodes_error
  all_goals
    rename_i h3
    exact encodes_word rfl (bits_encS_immS (bits_eq_ofNat h3) h)

theorem bits_encB_immB {w : W32} {f3 : BitVec 3} (h12 : bits w 12 3 = f3) (h0 : bits w 0 7 = 0x63) :
    w = encB (immB w) (bits w 20 5) (bits w 15 5) f3 := by
  refine bits_encB ?_ ?_ rfl rfl h12 ?_ ?_ h0 <;>
    simp (disch := decide) only [immB, BitVec.extractLsb'_append_eq_of_le, BitVec.extractLsb'_append_eq_of_add_le,
      Nat.reduceSub, Nat.sub_self, BitVec.extractLsb'_eq_self]

theorem decodeBranch_encodes {w : W32} (h : bits w 0 7 = 0x63) : Encodes .k w (decodeBranch w) := by
  unfold decodeBranch
  dsimp only
  split
  case h_7 => exact encodes_error
  all_goals
    rename_i h3
    exact encodes_word rfl (bits_encB_immB (bits_eq_ofNat h3) h)

theorem bits_encJ_immJ {w : W32} (h0 : bits w 0 7 = 0x6F) : w = encJ (immJ w) (bits w 7 5) := by
  refine bits_encJ ?_ ?_ ?_ ?_ rfl h0 <;>
    simp (disch := decide) only [immJ, BitVec.extractLsb'_append_eq_of_le, BitVec.extractLsb'_append_eq_of_add_le,
      Nat.reduceSub, Nat.sub_self, BitVec.extractLsb'_eq_self]

theorem bit_one_of_zeroBits {w : W32} {lo : Nat} (h : zeroBits w lo 1 = false) : bits w lo 1 = 1 := by
  have bit (x : BitVec 1) : (x == 0) = false → x = 1 := by revert x; decide
  exact bit _ h

/-- A field of two bits that is none of 0 to 2. -/
theorem toNat_eq_three {x : BitVec 2} (h0 : x.toNat ≠ 0) (h1 : x.toNat ≠ 1) (h2 : x.toNat ≠ 2) : x = 3 := by
  have := x.isLt
  exact BitVec.eq_of_toNat_eq (show x.toNat = 3 by omega)

/-- A field of three bits that is none of 0 to 6. -/
theorem toNat_eq_seven {x : BitVec 3} (h0 : x.toNat ≠ 0) (h1 : x.toNat ≠ 1) (h2 : x.toNat ≠ 2) (h3 : x.toNat ≠ 3)
    (h4 : x.toNat ≠ 4) (h5 : x.toNat ≠ 5) (h6 : x.toNat ≠ 6) : x = 7 := by
  have := x.isLt
  exact BitVec.eq_of_toNat_eq (show x.toNat = 7 by omega)

theorem decodeOpImm_encodes {w : W32} (h : bits w 0 7 = 0x13) : Encodes .k w (decodeOpImm w) := by
  unfold decodeOpImm
  dsimp only
  split
  case h_2 h3 =>
    exact encodes_zero fun z => encodes_word rfl (bits_encI (bits_join 20 6 6 z rfl) rfl (bits_eq_ofNat h3) rfl h)
  case h_6 h3 =>
    refine encodes_ite (fun z => ?_) fun _ => encodes_demand fun z => ?_
    · exact encodes_word rfl (bits_encI (bits_join 20 6 6 (zeroBits_iff.1 z) rfl) rfl (bits_eq_ofNat h3) rfl h)
    · exact encodes_word rfl (bits_encI (bits_join 20 6 6 (beq_iff_eq.1 z) rfl) rfl (bits_eq_ofNat h3) rfl h)
  case h_8 h0 h1 h2 h3 h4 h5 h6 =>
    exact encodes_word rfl (bits_encI rfl rfl (toNat_eq_seven h0 h1 h2 h3 h4 h5 h6) rfl h)
  all_goals
    rename_i h3
    exact encodes_word rfl (bits_encI rfl rfl (bits_eq_ofNat h3) rfl h)

theorem decodeOpImm32_encodes {w : W32} (h : bits w 0 7 = 0x1B) : Encodes .k w (decodeOpImm32 w) := by
  unfold decodeOpImm32
  dsimp only
  split
  case h_1 h3 => exact encodes_word rfl (bits_encI rfl rfl (bits_eq_ofNat h3) rfl h)
  case h_2 h3 =>
    exact encodes_zero fun z => encodes_word rfl (bits_encI (bits_join 20 5 7 z rfl) rfl (bits_eq_ofNat h3) rfl h)
  case h_3 h3 =>
    refine encodes_ite (fun z => ?_) fun _ => encodes_demand fun z => ?_
    · exact encodes_word rfl (bits_encI (bits_join 20 5 7 (zeroBits_iff.1 z) rfl) rfl (bits_eq_ofNat h3) rfl h)
    · exact encodes_word rfl (bits_encI (bits_join 20 5 7 (beq_iff_eq.1 z) rfl) rfl (bits_eq_ofNat h3) rfl h)
  case h_4 => exact encodes_error

theorem decodeCsr_encodes {w : W32} {op : CsrOp} {mk : XReg → CsrName → BitVec 5 → Instr} {f3 : BitVec 3} (h12 : bits w 12 3 = f3)
    (h : bits w 0 7 = 0x73) (hs : ∀ rd s, encode (.srstAccess op rd s) = some (.k, encI 0x803 s f3 rd 0x73))
    (hm : ∀ rd c s, encode (mk rd c s) = some (.k, encI c.num s f3 rd 0x73)) : Encodes .k w (decodeCsr w op mk) := by
  unfold decodeCsr
  split
  case h_1 => exact encodes_error
  case h_2 hc => exact encodes_word (hs _ _) (bits_encI (CsrName.num_of_ofNum hc) rfl h12 rfl h)
  case h_3 hc => exact encodes_word (hm _ _ _) (bits_encI (CsrName.num_of_ofNum hc) rfl h12 rfl h)

theorem decodeSystem_encodes {w : W32} (h : bits w 0 7 = 0x73) : Encodes .k w (decodeSystem w) := by
  unfold decodeSystem
  split
  case h_1 =>
    exact encodes_ite (fun z => encodes_word rfl (beq_iff_eq.1 z)) fun _ => encodes_demand fun z => encodes_word rfl (beq_iff_eq.1 z)
  case h_8 => exact encodes_error
  all_goals
    rename_i h3
    exact decodeCsr_encodes (bits_eq_ofNat h3) h (fun _ _ => rfl) fun _ _ _ => rfl

theorem decodeMiscMem_encodes {w : W32} (h : bits w 0 7 = 0x0F) : Encodes .k w (decodeMiscMem w) := by
  unfold decodeMiscMem
  split
  case h_1 h3 =>
    refine encodes_zero fun z => encodes_word rfl (bits_encI ?_ rfl (bits_eq_ofNat h3) rfl h)
    exact bits_join 20 4 8 (bits_join 24 4 4 z rfl) rfl
  case h_2 h3 =>
    refine encodes_demand fun z => encodes_word rfl ?_
    simp only [Bool.and_eq_true, zeroBits_iff] at z
    obtain ⟨z15, z7⟩ := z
    have fields := bits_join 0 7 25 (bits_join 7 5 20 (bits_join 12 3 17 z15 (bits_eq_ofNat h3)) z7) h
    exact ((bits_all w).symm.trans fields).trans (by decide)
  case h_3 => exact encodes_error

/-- A field with zeroes above it. -/
theorem bits_zero_above {w : W32} (lo a b : Nat) (z : bits w (lo + a) b = 0) : bits w lo (b + a) = 0#b ++ bits w lo a :=
  bits_join lo a b z rfl

/-- A part of a field that is 0. -/
theorem bits_zero_part {w : W32} {lo len : Nat} (z : bits w lo len = 0) (mid n : Nat) (hl : lo ≤ mid) (hn : mid + n ≤ lo + len) :
    bits w mid n = 0 := by
  apply BitVec.eq_of_getLsbD_eq
  intro i hi
  have bit : (bits w lo len).getLsbD (mid - lo + i) = false := by rw [z]; exact BitVec.getLsbD_zero
  have inside : mid - lo + i < len := by omega
  have place : lo + (mid - lo + i) = mid + i := by omega
  rw [bits, BitVec.getLsbD_extractLsb', place] at bit
  rw [bits, BitVec.getLsbD_extractLsb']
  simpa [inside, hi] using bit

theorem decodeCustom0_encodes {w : W32} (h : bits w 0 7 = 0x0B) : Encodes .k w (decodeCustom0 w) := by
  unfold decodeCustom0
  dsimp only
  split
  case h_1 h3 =>
    refine encodes_zero fun z30 => encodes_zero fun z11 => encodes_word rfl ?_
    have f7 := bits_join 25 4 3 (bits_join 29 1 2 z30 (bit1_beq_one _)) rfl
    exact bits_encR f7 rfl rfl (bits_eq_ofNat h3) (bits_zero_above 7 4 1 z11) h
  case h_2 h3 =>
    refine encodes_zero fun z31 => encodes_zero fun z11 => encodes_word rfl ?_
    have f7 := bits_join 25 4 3 (bits_join 29 1 2 (bits_join 30 1 1 z31 (bit1_beq_one _)) (bit1_beq_one _)) rfl
    exact bits_encR f7 rfl rfl (bits_eq_ofNat h3) (bits_zero_above 7 4 1 z11) h
  case h_3 h3 =>
    refine encodes_zero fun z19 => encodes_zero fun z20 => ?_
    have ks := bits_zero_above 15 4 1 z19
    split
    case h_1 h7 =>
      exact encodes_zero fun z11 =>
        encodes_word rfl (bits_encR (bits_eq_ofNat h7) z20 ks (bits_eq_ofNat h3) (bits_zero_above 7 4 1 z11) h)
    case h_2 h7 => exact encodes_zero fun z7 => encodes_word rfl (bits_encR (bits_eq_ofNat h7) z20 ks (bits_eq_ofNat h3) z7 h)
    case h_5 => exact encodes_error
    all_goals
      rename_i h7
      exact encodes_word rfl (bits_encR (bits_eq_ofNat h7) z20 ks (bits_eq_ofNat h3) rfl h)
  case h_4 h3 =>
    refine encodes_zero fun z27 => encodes_zero fun z19 => encodes_word rfl ?_
    exact bits_encR (bits_zero_above 25 2 5 z27) rfl (bits_zero_above 15 4 1 z19) (bits_eq_ofNat h3) rfl h
  case h_5 h3 =>
    refine encodes_zero fun z15 => ?_
    have z20 := bits_zero_part z15 20 5 (by decide) (by decide)
    have z15 := bits_zero_part z15 15 5 (by decide) (by decide)
    refine encodes_ite (fun z29 => ?_) fun _ => encodes_demand fun f7 => ?_
    · exact encodes_word rfl (bits_encR (bits_zero_above 25 4 3 (zeroBits_iff.1 z29)) z20 z15 (bits_eq_ofNat h3) rfl h)
    · exact encodes_word rfl (bits_encR (beq_iff_eq.1 f7) z20 z15 (bits_eq_ofNat h3) rfl h)
  case h_6 h3 =>
    refine encodes_zero fun z29 => encodes_coded fun t ht => encodes_word rfl ?_
    exact bits_encR (bits_join 25 4 3 z29 (ElemTy.code_of_ofCode ht)) rfl rfl (bits_eq_ofNat h3) rfl h
  case h_7 h3 =>
    refine encodes_zero fun z29 => encodes_zero fun z18 => encodes_coded fun t ht => encodes_word rfl ?_
    have z20 := bits_zero_part z18 20 5 (by decide) (by decide)
    have z18 := bits_zero_part z18 18 2 (by decide) (by decide)
    exact bits_encR (bits_join 25 4 3 z29 (ElemTy.code_of_ofCode ht)) z20 (bits_zero_above 15 3 2 z18) (bits_eq_ofNat h3) rfl h
  case h_8 => exact encodes_error

theorem decodeK_encodes (w : W32) : Encodes .k w (decodeK w) := by
  unfold decodeK
  split
  case h_1 h => exact decodeLoad_encodes (bits_eq_ofNat h)
  case h_2 h => exact decodeCustom0_encodes (bits_eq_ofNat h)
  case h_3 h => exact decodeMiscMem_encodes (bits_eq_ofNat h)
  case h_4 h => exact decodeOpImm_encodes (bits_eq_ofNat h)
  case h_6 h => exact decodeOpImm32_encodes (bits_eq_ofNat h)
  case h_7 h => exact decodeStore_encodes (bits_eq_ofNat h)
  case h_8 h => exact decodeOp_encodes (bits_eq_ofNat h)
  case h_10 h => exact decodeOp32_encodes (bits_eq_ofNat h)
  case h_11 h => exact decodeBranch_encodes (bits_eq_ofNat h)
  case h_12 h => exact encodes_zero fun z => encodes_word rfl (bits_encI rfl rfl z rfl (bits_eq_ofNat h))
  case h_13 h => exact encodes_word rfl (bits_encJ_immJ (bits_eq_ofNat h))
  case h_14 h => exact decodeSystem_encodes (bits_eq_ofNat h)
  case h_15 => exact encodes_ite (fun _ => encodes_error) fun _ => encodes_error
  all_goals
    rename_i h
    exact encodes_word rfl ((bits_all w).symm.trans (bits_join 0 7 25 (bits_join 7 5 20 rfl rfl) (bits_eq_ofNat h)))

/-! ### Unit V (R32, R42, R43) -/

theorem field_form_of_vsrcOf {w : W32} {s : VSrc} (h : vsrcOf w = some s) : bits w 14 5 = s.field ∧ bits w 2 2 = s.form := by
  unfold vsrcOf at h
  split at h <;> cases h <;> exact ⟨rfl, bits_eq_ofNat (by assumption)⟩

theorem decodeV3_encodes {w : W32} {op : BitVec 6} {mk : ElemTy → MReg → VSrc → VReg → VReg → Instr} (hop : bits w 26 6 = op)
    (he : ∀ t m s a d, bits w 22 4 = t.code → encode (mk t m s a d) = some (.v, encV3 op t m s a d 0)) :
    Encodes .v w (decodeV3 w mk) := by
  unfold decodeV3
  refine encodes_zero fun z0 => encodes_coded fun t ht => ?_
  have ty := ElemTy.code_of_ofCode ht
  split
  case h_1 s hs =>
    obtain ⟨field, form⟩ := field_form_of_vsrcOf hs
    exact encodes_word (he _ _ _ _ _ ty) (bits_encV hop ty rfl field rfl rfl form z0)
  case h_2 => exact encodes_error

theorem decodeV2_encodes {w : W32} {op : BitVec 6} {mk : ElemTy → MReg → VReg → VReg → Instr} (hop : bits w 26 6 = op)
    (he : ∀ t m a d, encode (mk t m a d) = some (.v, encV op t.code m 0 a d 0 0)) : Encodes .v w (decodeV2 w mk) := by
  refine encodes_demand fun z => encodes_demand fun form => encodes_coded fun t ht => ?_
  simp only [Bool.and_eq_true, zeroBits_iff] at z
  obtain ⟨z0, z14⟩ := z
  exact encodes_word (he ..) (bits_encV hop (ElemTy.code_of_ofCode ht) rfl z14 rfl rfl (formIs_iff.1 form) z0)

theorem decodeVF_encodes {w : W32} {op : BitVec 6} {mk : MReg → VReg → VReg → Instr} (hop : bits w 26 6 = op)
    (he : ∀ m a d, encode (mk m a d) = some (.v, encV op 2 m 0 a d 0 0)) : Encodes .v w (decodeVF w mk) := by
  refine encodes_demand fun ty => encodes_demand fun z => encodes_demand fun form => ?_
  simp only [Bool.and_eq_true, zeroBits_iff] at z
  obtain ⟨z0, z14⟩ := z
  exact encodes_word (he ..) (bits_encV hop (beq_iff_eq.1 ty) rfl z14 rfl rfl (formIs_iff.1 form) z0)

theorem decodeMask_encodes {w : W32} {op : BitVec 6} {mk : MReg → MReg → MReg → Instr} (hop : bits w 26 6 = op)
    (he : ∀ b a d, bits w 14 5 = idx3 b → encode (mk b a d) = some (.v, encV op 0 0 (idx3 b) (idx3 a) (idx3 d) 0 0)) :
    Encodes .v w (decodeMask w mk) := by
  refine encodes_demand fun z => encodes_demand fun form => encodes_demand fun regs => ?_
  simp only [Bool.and_eq_true, zeroBits_iff] at z regs
  obtain ⟨⟨z22, z19⟩, z0⟩ := z
  obtain ⟨⟨z17, z12⟩, z7⟩ := regs
  have mb := bits_zero_above 14 3 2 z17
  exact encodes_word (he _ _ _ mb)
    (bits_encV hop z22 z19 mb (bits_zero_above 9 3 2 z12) (bits_zero_above 4 3 2 z7) (formIs_iff.1 form) z0)

theorem decodeVMem_encodes {w : W32} {op : BitVec 6} {mk : ElemTy → MReg → XReg → VReg → Instr} (hop : bits w 26 6 = op)
    (he : ∀ t m x d, encode (mk t m x d) = some (.v, encV op t.code m x 0 d 1 0)) : Encodes .v w (decodeVMem w mk) := by
  refine encodes_demand fun z => encodes_demand fun form => encodes_coded fun t ht => ?_
  simp only [Bool.and_eq_true, zeroBits_iff] at z
  obtain ⟨z0, z9⟩ := z
  exact encodes_word (he ..) (bits_encV hop (ElemTy.code_of_ofCode ht) rfl rfl z9 rfl (formIs_iff.1 form) z0)

theorem decodeVIdx_encodes {w : W32} {op : BitVec 6} {mk : ElemTy → MReg → XReg → VReg → VReg → Instr} (hop : bits w 26 6 = op)
    (he : ∀ t m x a d, encode (mk t m x a d) = some (.v, encV op t.code m x a d 1 0)) : Encodes .v w (decodeVIdx w mk) :=
  encodes_zero fun z0 => encodes_demand fun form => encodes_coded fun _ ht =>
    encodes_word (he ..) (bits_encV hop (ElemTy.code_of_ofCode ht) rfl rfl rfl rfl (formIs_iff.1 form) z0)

theorem decodeVRing_encodes {w : W32} {op : BitVec 6} {mk : ElemTy → MReg → XReg → HReg → VReg → Instr} (hop : bits w 26 6 = op)
    (he : ∀ t m x h d, encode (mk t m x h d) = some (.v, encV op t.code m x (idx4 h) d 1 0)) : Encodes .v w (decodeVRing w mk) :=
  encodes_zero fun z0 => encodes_demand fun form => encodes_zero fun z13 => encodes_coded fun _ ht => encodes_word (he ..)
    (bits_encV hop (ElemTy.code_of_ofCode ht) rfl rfl (bits_zero_above 9 4 1 z13) rfl (formIs_iff.1 form) z0)

theorem decodeVAdv_encodes {w : W32} {op : BitVec 6} {mk : XReg → HReg → Instr} (hop : bits w 26 6 = op)
    (he : ∀ x h, encode (mk x h) = some (.v, encV op 0 0 x (idx4 h) 0 1 0)) : Encodes .v w (decodeVAdv w mk) := by
  refine encodes_demand fun z => encodes_demand fun form => encodes_zero fun z13 => ?_
  simp only [Bool.and_eq_true, zeroBits_iff] at z
  obtain ⟨⟨⟨z22, z19⟩, z4⟩, z0⟩ := z
  exact encodes_word (he ..) (bits_encV hop z22 z19 rfl (bits_zero_above 9 4 1 z13) z4 (formIs_iff.1 form) z0)

theorem decodeVRaw_encodes (w : W32) : Encodes .v w (decodeVRaw w) := by
  unfold decodeVRaw
  dsimp only
  split
  case h_1 | h_2 | h_3 | h_4 | h_5 | h_6 | h_15 | h_16 | h_17 | h_19 | h_20 | h_21 =>
    rename_i h
    exact decodeV3_encodes (bits_eq_ofNat h) fun _ _ _ _ _ _ => rfl
  case h_7 | h_8 | h_18 | h_25 | h_30 =>
    rename_i h
    exact decodeV2_encodes (bits_eq_ofNat h) fun _ _ _ _ => rfl
  case h_9 h =>
    refine encodes_demand fun ty => decodeV3_encodes (bits_eq_ofNat h) fun t m s a d ht => ?_
    rw [ElemTy.eq_f32_of_code (ht.symm.trans (beq_iff_eq.1 ty))]
    rfl
  case h_10 | h_11 | h_12 | h_13 | h_14 =>
    rename_i h
    exact decodeVF_encodes (bits_eq_ofNat h) fun _ _ _ => rfl
  case h_22 h =>
    refine encodes_zero fun z7 => encodes_coded fun t ht => ?_
    split
    case h_1 s hs =>
      obtain ⟨field, form⟩ := field_form_of_vsrcOf hs
      exact encodes_word rfl (bits_encV (bits_eq_ofNat h) (ElemTy.code_of_ofCode ht) rfl field rfl (bits_zero_above 4 3 2 z7) form
        (CmpRel.code_ofCode _))
    case h_2 => exact encodes_error
  case h_23 | h_28 =>
    rename_i h
    exact encodes_zero fun z0 => encodes_demand fun form => encodes_coded fun t ht => encodes_word rfl
      (bits_encV (bits_eq_ofNat h) (ElemTy.code_of_ofCode ht) rfl rfl rfl rfl (formIs_iff.1 form) z0)
  case h_24 h =>
    refine encodes_demand fun z => encodes_demand fun form => encodes_coded fun t ht => encodes_coded fun ts hts => ?_
    simp only [Bool.and_eq_true, zeroBits_iff] at z
    obtain ⟨z0, z18⟩ := z
    have source := bits_join 14 4 1 z18 (ElemTy.code_of_ofCode hts)
    exact encodes_word rfl (bits_encV (bits_eq_ofNat h) (ElemTy.code_of_ofCode ht) rfl source rfl rfl (formIs_iff.1 form) z0)
  case h_26 | h_39 | h_40 =>
    rename_i h
    exact decodeVMem_encodes (bits_eq_ofNat h) fun _ _ _ _ => rfl
  case h_27 | h_31 =>
    rename_i h
    refine encodes_demand fun z => encodes_demand fun form => encodes_coded fun t ht => ?_
    simp only [Bool.and_eq_true, zeroBits_iff] at z
    obtain ⟨z0, z9⟩ := z
    have s2 := bits_zero_part z9 14 5 (by decide) (by decide)
    have vs1 := bits_zero_part z9 9 5 (by decide) (by decide)
    exact encodes_word rfl (bits_encV (bits_eq_ofNat h) (ElemTy.code_of_ofCode ht) rfl s2 vs1 rfl (formIs_iff.1 form) z0)
  case h_29 h =>
    refine encodes_zero fun z1 => encodes_coded fun t ht => ?_
    split
    case h_1 s hs =>
      obtain ⟨field, form⟩ := field_form_of_vsrcOf hs
      exact encodes_word rfl (bits_encV (bits_eq_ofNat h) (ElemTy.code_of_ofCode ht) rfl field rfl rfl form
        (bits_join 0 1 1 z1 (bit1_beq_one _)))
    case h_2 => exact encodes_error
  case h_32 | h_33 =>
    rename_i h
    exact encodes_zero fun z14 => encodes_demand fun form => encodes_coded fun o ho => encodes_coded fun t ht => encodes_word rfl
      (bits_encV (bits_eq_ofNat h) (ElemTy.code_of_ofCode ht) rfl z14 rfl rfl (formIs_iff.1 form) (RedOp.code_of_ofCode ho))
  case h_34 h =>
    refine encodes_demand fun z => encodes_demand fun form => encodes_zero fun z7 => encodes_coded fun t ht => ?_
    simp only [Bool.and_eq_true, zeroBits_iff] at z
    obtain ⟨⟨z0, z9⟩, z19⟩ := z
    exact encodes_word rfl (bits_encV (bits_eq_ofNat h) (ElemTy.code_of_ofCode ht) z19 rfl z9 (bits_zero_above 4 3 2 z7)
      (formIs_iff.1 form) z0)
  case h_35 | h_36 | h_37 =>
    rename_i h
    exact decodeMask_encodes (bits_eq_ofNat h) fun _ _ _ _ => rfl
  case h_38 h =>
    refine encodes_zero fun z14 => decodeMask_encodes (bits_eq_ofNat h) fun b a d hb => ?_
    rw [← hb, z14]
    rfl
  case h_41 | h_42 =>
    rename_i h
    exact decodeVIdx_encodes (bits_eq_ofNat h) fun _ _ _ _ _ => rfl
  case h_43 | h_44 =>
    rename_i h
    exact decodeVRing_encodes (bits_eq_ofNat h) fun _ _ _ _ _ => rfl
  case h_45 | h_46 =>
    rename_i h
    exact decodeVAdv_encodes (bits_eq_ofNat h) fun _ _ => rfl
  case h_47 h =>
    refine encodes_demand fun ty => encodes_demand fun z => encodes_demand fun form => encodes_zero fun z12 => ?_
    simp only [Bool.and_eq_true, zeroBits_iff] at z
    obtain ⟨z1, z19⟩ := z
    exact encodes_word rfl (bits_encV (bits_eq_ofNat h) (beq_iff_eq.1 ty) z19 rfl (bits_zero_above 9 3 2 z12) rfl
      (formIs_iff.1 form) (bits_join 0 1 1 z1 (bit1_beq_one _)))
  case h_48 => exact encodes_error

/-! ### Unit E (R33, R44, R45) -/

theorem decodeE_encodes (w : W32) : Encodes .e w (decodeE w) := by
  unfold decodeE
  dsimp only
  split
  case h_1 hg ho =>
    refine encodes_demand fun z => ?_
    simp only [Bool.and_eq_true, zeroBits_iff] at z
    obtain ⟨⟨z12, z7⟩, z4⟩ := z
    exact encodes_word rfl (bits_encE (bits_eq_ofNat hg) (bits_eq_ofNat ho) rfl z12 z7 (bits_zero_above 0 4 3 z4))
  case h_2 | h_3 =>
    rename_i hg ho
    refine encodes_demand fun z => ?_
    simp only [Bool.and_eq_true, zeroBits_iff] at z
    obtain ⟨z7, z4⟩ := z
    exact encodes_word rfl (bits_encE (bits_eq_ofNat hg) (bits_eq_ofNat ho) rfl rfl z7 (bits_zero_above 0 4 3 z4))
  case h_4 hg ho =>
    exact encodes_zero fun z0 => encodes_word rfl (bits_encE (bits_eq_ofNat hg) (bits_eq_ofNat ho) rfl rfl rfl z0)
  case h_5 hg ho =>
    refine encodes_demand fun z => ?_
    simp only [Bool.and_eq_true, zeroBits_iff] at z
    obtain ⟨z7, z2⟩ := z
    exact encodes_word rfl (bits_encE (bits_eq_ofNat hg) (bits_eq_ofNat ho) rfl rfl z7 (bits_join 0 2 5 z2 (HintKind.code_ofCode _)))
  case h_6 hg ho =>
    refine encodes_demand fun z => ?_
    simp only [Bool.and_eq_true, zeroBits_iff] at z
    obtain ⟨z12, z7⟩ := z
    exact encodes_word rfl (bits_encE (bits_eq_ofNat hg) (bits_eq_ofNat ho) rfl z12 z7 rfl)
  case h_7 | h_21 | h_28 | h_30 =>
    rename_i hg ho
    refine encodes_demand fun z => ?_
    simp only [Bool.and_eq_true, zeroBits_iff] at z
    obtain ⟨⟨⟨z17, z12⟩, z7⟩, z0⟩ := z
    exact encodes_word rfl (bits_encE (bits_eq_ofNat hg) (bits_eq_ofNat ho) z17 z12 z7 z0)
  case h_8 hg ho =>
    refine encodes_demand fun z => encodes_coded fun r hr => ?_
    simp only [Bool.and_eq_true, zeroBits_iff] at z
    obtain ⟨⟨⟨z17, z12⟩, z7⟩, z3⟩ := z
    exact encodes_word rfl
      (bits_encE (bits_eq_ofNat hg) (bits_eq_ofNat ho) z17 z12 z7 (bits_join 0 3 4 z3 (RMode.code_of_ofCode hr)))
  case h_9 | h_20 | h_25 =>
    rename_i hg ho
    refine encodes_demand fun z => ?_
    simp only [Bool.and_eq_true, zeroBits_iff] at z
    obtain ⟨⟨⟨z17, z12⟩, z7⟩, z3⟩ := z
    exact encodes_word rfl (bits_encE (bits_eq_ofNat hg) (bits_eq_ofNat ho) z17 z12 z7 (bits_zero_above 0 3 4 z3))
  case h_10 hg ho =>
    refine encodes_demand fun z => encodes_coded fun m hm => ?_
    simp only [Bool.and_eq_true, zeroBits_iff] at z
    obtain ⟨z7, z5⟩ := z
    have spec := bits_join 0 3 4 (bits_join 3 2 2 z5 (DrainMode.code_of_ofCode hm)) rfl
    exact encodes_word rfl (bits_encE (bits_eq_ofNat hg) (bits_eq_ofNat ho) rfl rfl z7 spec)
  case h_11 hg ho =>
    refine encodes_demand fun z => ?_
    simp only [Bool.and_eq_true, zeroBits_iff] at z
    obtain ⟨⟨z12, z7⟩, z0⟩ := z
    exact encodes_word rfl (bits_encE (bits_eq_ofNat hg) (bits_eq_ofNat ho) rfl z12 z7 z0)
  case h_12 | h_13 | h_19 | h_23 | h_24 | h_26 =>
    rename_i hg ho
    refine encodes_demand fun z => ?_
    simp only [Bool.and_eq_true, zeroBits_iff] at z
    obtain ⟨⟨z12, z7⟩, z3⟩ := z
    exact encodes_word rfl (bits_encE (bits_eq_ofNat hg) (bits_eq_ofNat ho) rfl z12 z7 (bits_zero_above 0 3 4 z3))
  case h_14 | h_15 =>
    rename_i hg ho
    exact encodes_zero fun z3 =>
      encodes_word rfl (bits_encE (bits_eq_ofNat hg) (bits_eq_ofNat ho) rfl rfl rfl (bits_zero_above 0 3 4 z3))
  case h_16 | h_17 | h_22 =>
    rename_i hg ho
    refine encodes_demand fun z => ?_
    simp only [Bool.and_eq_true, zeroBits_iff] at z
    obtain ⟨z7, z3⟩ := z
    exact encodes_word rfl (bits_encE (bits_eq_ofNat hg) (bits_eq_ofNat ho) rfl rfl z7 (bits_zero_above 0 3 4 z3))
  case h_18 hg ho =>
    refine encodes_zero fun z3 => encodes_word rfl (bits_encE (bits_eq_ofNat hg) (bits_eq_ofNat ho) rfl rfl rfl ?_)
    exact bits_join 0 3 4 (bits_join 3 3 1 (bit1_beq_one _) z3) rfl
  case h_27 | h_29 | h_31 =>
    rename_i hg ho
    refine encodes_demand fun z => ?_
    simp only [Bool.and_eq_true, zeroBits_iff] at z
    obtain ⟨z7, z0⟩ := z
    exact encodes_word rfl (bits_encE (bits_eq_ofNat hg) (bits_eq_ofNat ho) rfl rfl z7 z0)
  case h_32 => exact encodes_error

/-! ### Unit Y (R34, R46, R47) -/

theorem decodeBar_encodes {w : W32} {sub : BitVec 2} {mk : Scope → BitVec 3 → XReg → Instr} (h28 : bits w 28 4 = 4)
    (h26 : bits w 26 2 = sub) (he : ∀ sc b x, encode (mk sc b x) = some (.y, encBar sub sc b x)) : Encodes .y w (decodeBar w mk) := by
  refine encodes_zero fun z0 => encodes_coded fun sc hsc => encodes_word (he ..) ?_
  have h23 := bits_join 23 3 6 (bits_join 26 2 4 h28 h26) (Scope.code_of_ofCode hsc)
  exact (bits_all w).symm.trans (bits_join 0 15 17 (bits_join 15 5 12 (bits_join 20 3 9 h23 rfl) rfl) z0)

theorem decodeY_encodes (w : W32) : Encodes .y w (decodeY w) := by
  have whole {v : W32} (h : bits w 0 32 = v) : w = v := (bits_all w).symm.trans h
  unfold decodeY
  split
  case h_1 h =>
    refine encodes_zero fun z0 => encodes_coded fun op hop => encodes_coded fun o ho => encodes_coded fun sc hsc =>
      encodes_word rfl (whole ?_)
    have h22 := bits_join 22 2 8 (bits_join 24 4 4 (bits_eq_ofNat h) (AmoOp.code_of_ofCode hop)) (AmoTy.code_ofCode _)
    have h16 := bits_join 16 3 13 (bits_join 19 3 10 h22 (Order.code_of_ofCode ho)) (Scope.code_of_ofCode hsc)
    exact bits_join 0 1 31 (bits_join 1 5 26 (bits_join 6 5 21 (bits_join 11 5 16 h16 rfl) rfl) rfl) z0
  case h_2 h =>
    refine encodes_zero fun z27 => encodes_coded fun o ho => encodes_coded fun sc hsc => encodes_word rfl (whole ?_)
    have h26 := bits_join 26 1 5 (bits_join 27 1 4 (bits_eq_ofNat h) z27) (bit1_beq_one _)
    have h20 := bits_join 20 3 9 (bits_join 23 3 6 h26 (Order.code_of_ofCode ho)) (Scope.code_of_ofCode hsc)
    exact bits_join 0 5 27 (bits_join 5 5 22 (bits_join 10 5 17 (bits_join 15 5 12 h20 rfl) rfl) rfl) rfl
  case h_3 h =>
    split
    case h_1 h' =>
      refine encodes_zero fun z0 => encodes_coded fun sc hsc => encodes_word rfl (whole ?_)
      have h23 := bits_join 23 3 6 (bits_join 26 2 4 (bits_eq_ofNat h) (bits_eq_ofNat h')) (Scope.code_of_ofCode hsc)
      exact bits_join 0 18 14 (bits_join 18 5 9 h23 rfl) z0
    case h_4 => exact encodes_error
    all_goals
      rename_i h'
      exact encodes_zero fun z0 => encodes_word rfl
        ((whole (bits_join 0 26 6 (bits_join 26 2 4 (bits_eq_ofNat h) (bits_eq_ofNat h')) z0)).trans (by decide))
  case h_4 h =>
    refine encodes_zero fun z0 => encodes_coded fun tl htl => ?_
    have timeline {b : BitVec 1} (h27 : bits w 27 1 = b) :=
      bits_join 24 3 5 (bits_join 27 1 4 (bits_eq_ofNat h) h27) (Timeline.code_of_ofCode htl)
    refine encodes_ite (fun z27 => encodes_word rfl (whole ?_)) fun z27 => encodes_word rfl (whole ?_)
    · exact bits_join 0 19 13 (bits_join 19 5 8 (timeline (zeroBits_iff.1 z27)) rfl) z0
    · exact bits_join 0 19 13 (bits_join 19 5 8 (timeline (bit_one_of_zeroBits z27)) rfl) z0
  case h_5 h =>
    split
    case h_4 h0 h1 h2 => exact decodeBar_encodes (bits_eq_ofNat h) (toNat_eq_three h0 h1 h2) fun _ _ _ => rfl
    all_goals
      rename_i h'
      exact decodeBar_encodes (bits_eq_ofNat h) (bits_eq_ofNat h') fun _ _ _ => rfl
  case h_6 h =>
    split
    case h_1 h' =>
      refine encodes_zero fun z0 => encodes_word rfl (whole ?_)
      have h16 := bits_join 16 5 11 (bits_join 21 5 6 (bits_join 26 2 4 (bits_eq_ofNat h) (bits_eq_ofNat h')) rfl) rfl
      exact bits_join 0 6 26 (bits_join 6 5 21 (bits_join 11 5 16 h16 rfl) rfl) z0
    case h_4 => exact encodes_error
    all_goals
      rename_i h'
      refine encodes_zero fun z0 => encodes_word rfl (whole ?_)
      have h26 := bits_join 26 2 4 (bits_eq_ofNat h) (bits_eq_ofNat h')
      exact bits_join 0 17 15 (bits_join 17 5 10 (bits_join 22 4 6 h26 rfl) rfl) z0
  case h_7 h =>
    refine encodes_zero fun z0 => encodes_word rfl (whole ?_)
    have h28 := bits_join 28 0 4 (y := 0#0) (bits_eq_ofNat h) (BitVec.eq_nil _)
    exact bits_join 0 13 19 (bits_join 13 5 14 (bits_join 18 5 9 (bits_join 23 5 4 h28 rfl) rfl) rfl) z0
  case h_8 h =>
    split
    case h_3 h' =>
      refine encodes_zero fun z0 => encodes_word rfl (whole ?_)
      have h20 := bits_join 20 5 7 (bits_join 25 3 4 (bits_eq_ofNat h) (bits_eq_ofNat h')) rfl
      exact bits_join 0 10 22 (bits_join 10 5 17 (bits_join 15 5 12 h20 rfl) rfl) z0
    case h_5 h' =>
      refine encodes_zero fun z0 => encodes_word rfl (whole ?_)
      have h20 := bits_join 20 5 7 (bits_join 25 3 4 (bits_eq_ofNat h) (bits_eq_ofNat h')) rfl
      exact bits_join 0 15 17 (bits_join 15 5 12 h20 rfl) z0
    case h_6 => exact encodes_error
    all_goals
      rename_i h'
      refine encodes_zero fun z0 => encodes_word rfl (whole ?_)
      exact bits_join 0 20 12 (bits_join 20 5 7 (bits_join 25 3 4 (bits_eq_ofNat h) (bits_eq_ofNat h')) rfl) z0
  case h_9 h =>
    refine encodes_ite (fun z27 => encodes_zero fun z0 => encodes_word rfl ?_) fun z27 => encodes_zero fun z0 =>
      encodes_word rfl (whole ?_)
    · exact (whole (bits_join 0 27 5 (bits_join 27 1 4 (bits_eq_ofNat h) (zeroBits_iff.1 z27)) z0)).trans (by decide)
    · exact bits_join 0 22 10 (bits_join 22 5 5 (bits_join 27 1 4 (bits_eq_ofNat h) (bit_one_of_zeroBits z27)) rfl) z0
  case h_10 => exact encodes_error

/-! ### The decoder (R28, R35) -/

theorem decodeRaw_encodes (u : LaneUnit) (w : W32) : Encodes u w (decodeRaw u w) := by
  cases u with
  | k => exact decodeK_encodes w
  | v => exact decodeVRaw_encodes w
  | e => exact decodeE_encodes w
  | y => exact decodeY_encodes w

/-- What decodes is within the limits, and is what its unit reads before them. -/
theorem decode_ok_iff {u : LaneUnit} {w : W32} {i : Instr} : decode u w = .ok i ↔ decodeRaw u w = .ok i ∧ i.WellFormed := by
  unfold decode
  cases h : decodeRaw u w with
  | error e => simp
  | ok j =>
    by_cases hj : j.wellFormed = true
    · simp only [hj, if_true, Except.ok.injEq]
      exact ⟨fun e => ⟨e, e ▸ hj⟩, And.left⟩
    · simp only [hj, Bool.false_eq_true, if_false, reduceCtorEq, Except.ok.injEq, false_iff, not_and]
      rintro rfl
      exact hj

/-- Settles O3: the word is joined again from the fields that its unit's decoder reads. -/
theorem decodedIsWellFormed : Obligations.DecodedIsWellFormed := by
  unfold Obligations.DecodedIsWellFormed
  have word {u : LaneUnit} {w : W32} {i : Instr} (h : decode u w = .ok i) : i.WellFormed ∧ encode i = some (u, w) := by
    obtain ⟨raw, wf⟩ := decode_ok_iff.1 h
    exact ⟨wf, decodeRaw_encodes u w i raw⟩
  refine ⟨fun u w i => word, fun i u w none h => ?_⟩
  rw [(word h).2] at none
  cases none

end Sys2Proof
end

section
namespace Sys2Proof.Machine

/-! ### What a CSR reads after a write (R40, R64, R83 to R89) -/

/-- The low bits of a value, read again as a doubleword. -/
theorem setWidth_setWidth_eq_and (v : W64) (n : Nat) (h : n ≤ 64) : (v.setWidth n).setWidth 64 = v &&& BitVec.ofNat 64 (2 ^ n - 1) := by
  have hp : 2 ^ n ≤ 2 ^ 64 := Nat.pow_le_pow_right (by decide) h
  have hv := v.isLt
  have small : v.toNat % 2 ^ n < 2 ^ 64 := lt_of_le_of_lt (Nat.mod_le _ _) hv
  have mask : (2 ^ n - 1) % 2 ^ 64 = 2 ^ n - 1 := Nat.mod_eq_of_lt (by have := Nat.two_pow_pos n; omega)
  apply BitVec.eq_of_toNat_eq
  rw [BitVec.toNat_setWidth, BitVec.toNat_setWidth, Nat.mod_eq_of_lt small, BitVec.toNat_and, BitVec.toNat_ofNat, mask,
    Nat.and_two_pow_sub_one_eq_mod]

theorem mode_setWidth (v : W64) : (v.setWidth 3).setWidth 64 = BitVec.ofNat 64 (v.toNat % 8) :=
  BitVec.eq_of_toNat_eq (by simp only [BitVec.toNat_setWidth, BitVec.toNat_ofNat])

/-- What a CSR reads in a state whose issuing context is another: a register of that context, or what it reads anyway (R83). -/
def csrOf (s : State) (x : Ctx) : CsrName → W64
  | .vrnd => x.vrnd.setWidth 64
  | .fstat => x.fstat.setWidth 64
  | .mstat => x.mstat.setWidth 64
  | .srst => x.srst.setWidth 64
  | .tvec => x.tvec
  | .tcause => x.tcause
  | .tval => x.tval
  | .tpc => x.tpc
  | .tstat => x.tstat.setWidth 64
  | .tscratch => x.tscratch
  | .wdog => x.wdog.setWidth 64
  | .occtmo => x.occtmo.setWidth 64
  | .prin => x.prin.setWidth 64
  | .clrptr => x.clrptr
  | .evptr => x.evptr
  | q => csrRead s q

theorem csrOf_me (s : State) (q : CsrName) : csrOf s s.me q = csrRead s q := by
  cases q <;> rfl

theorem csrRead_updMe (s : State) (f : Ctx → Ctx) (q : CsrName) : csrRead (s.updMe f) q = csrOf s (f s.me) q := by
  cases q <;> simp only [csrRead, csrOf, updMe_me, updMe_mySet] <;> rfl

theorem csrOf_goOn (s : State) (x : Ctx) (q : CsrName) : csrOf s x.goOn q = csrOf s x q := by
  cases q <;> rfl

theorem csrOf_wx (s : State) (x : Ctx) (rd : XReg) (v : W64) (tag : Tag) (p : Bool) (q : CsrName) :
    csrOf s (x.wx rd v tag p) q = csrOf s x q := by
  unfold Ctx.wx
  split
  · rfl
  · cases q <;> rfl

/-- A CSR reads what its field map keeps of the value written; srst, whose state 0 stands for the reset state, is apart (R62). -/
theorem csrOf_csrWrite_same (s : State) (x : Ctx) {csr : CsrName} (v : W64) (h : csr ≠ .srst) :
    csrOf s (csrWrite csr v x) csr = csrStored csr (csrOf s x csr) v := by
  cases csr with
  | srst => exact absurd rfl h
  | vrnd =>
    rw [csrWrite, csrStored]
    split
    · exact mode_setWidth v
    · rfl
  | fstat | mstat | tstat | wdog | occtmo | prin => exact setWidth_setWidth_eq_and v _ (by decide)
  | _ => rfl

/-- No other CSR reads otherwise (R83). -/
theorem csrOf_csrWrite_ne (s : State) (x : Ctx) {csr q : CsrName} (v : W64) (h : q ≠ csr) :
    csrOf s (csrWrite csr v x) q = csrOf s x q := by
  cases csr with
  | vrnd =>
    rw [csrWrite]
    split
    · cases q <;> first | rfl | exact absurd rfl h
    · rfl
  | cycle | coreid | quadid | dieid | pkgid | rank | gsize | ctxid | reqtag | tenant => rfl
  | _ => cases q <;> first | rfl | exact absurd rfl h

/-- A write of a CSR changes no x register. -/
theorem csrWrite_keeps_x (csr : CsrName) (v : W64) (x : Ctx) :
    (csrWrite csr v x).x = x.x ∧ (csrWrite csr v x).tag = x.tag ∧ (csrWrite csr v x).xpois = x.xpois ∧ (csrWrite csr v x).pc = x.pc := by
  cases csr with
  | vrnd =>
    rw [csrWrite]
    split <;> exact ⟨rfl, rfl, rfl, rfl⟩
  | _ => exact ⟨rfl, rfl, rfl, rfl⟩

/-! ### The CSR instructions -/

/-- What a CSR instruction leaves: the old value in rd, what the CSR reads, and nothing else changed. -/
structure CsrDone (s t : State) (rd : XReg) (csr : CsrName) (v : W64) : Prop where
  outside : OnlyMe s t
  value : csrRead t csr = v
  old : rd ≠ 0 → t.rx rd = csrRead s csr
  others : OtherX s t rd
  csrs : ∀ q, q ≠ csr → csrRead t q = csrRead s q
  pc : t.me.pc = s.me.pc
  seek : t.me.seek = true
  memory : SameBytes s t

/-- What the CSR instructions leave when their change of the context keeps its x registers and every CSR but one. -/
theorem csrDone_of_change (s : State) {f : Ctx → Ctx} (rd : XReg) {csr : CsrName} (p : Bool)
    (hx : (f s.me).x = s.me.x ∧ (f s.me).tag = s.me.tag ∧ (f s.me).xpois = s.me.xpois ∧ (f s.me).pc = s.me.pc)
    (hq : ∀ q, q ≠ csr → csrOf s (f s.me) q = csrRead s q) :
    CsrDone s (s.updMe fun x => ((f x).wx rd (csrRead s csr) .vol p).goOn) rd csr (csrOf s (f s.me) csr) := by
  obtain ⟨x, tag, pois, pc⟩ := hx
  have rx (r : XReg) : (f s.me).rx r = s.me.rx r := by simp only [Ctx.rx, x]
  have marked (r : XReg) : (f s.me).marked r = s.me.marked r := by simp only [Ctx.marked, pois]
  have reads (q : CsrName) : csrRead (s.updMe fun x => ((f x).wx rd (csrRead s csr) .vol p).goOn) q = csrOf s (f s.me) q := by
    rw [csrRead_updMe, csrOf_goOn, csrOf_wx]
  refine ⟨onlyMe_updMe s _, reads csr, fun h => ?old, fun r hr => ⟨?kept, ?patch, ?mark⟩, fun q h => (reads q).trans (hq q h),
    ?pc, ?seek, fun _ => rfl⟩ <;> simp only [State.rx, updMe_me]
  case old => exact rx_wx_same _ _ _ _ h
  case kept => exact (rx_wx_ne _ _ _ _ hr).trans (rx r)
  case patch => exact (tag_wx_ne _ _ _ _ hr).trans (by rw [tag])
  case mark => exact (marked_wx_ne _ _ _ _ hr).trans (marked r)
  case pc =>
    refine Eq.trans ?_ pc
    unfold Ctx.wx
    split <;> rfl
  case seek => rfl

/-- The effect of a CSR instruction that has a value to write (R40). -/
theorem csrDone_of_some {s : State} {op : CsrOp} {rd : XReg} {csr : CsrName} {src v : W64} {z : Bool} (p : Bool)
    (h : csrNext op (csrRead s csr) src z = some v) :
    CsrDone s (s.csrAct op rd csr src z p).goOn rd csr (csrOf s (csrWrite csr v s.me) csr) := by
  have change : (s.csrAct op rd csr src z p).goOn = s.updMe fun x => ((csrWrite csr v x).wx rd (csrRead s csr) .vol p).goOn := by
    simp only [State.csrAct, h, State.wx, State.goOn, updMe_updMe]
  rw [change]
  exact csrDone_of_change s rd p (csrWrite_keeps_x csr v s.me) fun q hq => (csrOf_csrWrite_ne s s.me v hq).trans (csrOf_me s q)

/-- The effect of one that has none (R40). -/
theorem csrDone_of_none {s : State} {op : CsrOp} {rd : XReg} {csr : CsrName} {src : W64} {z : Bool} (p : Bool)
    (h : csrNext op (csrRead s csr) src z = none) : CsrDone s (s.csrAct op rd csr src z p).goOn rd csr (csrRead s csr) := by
  have change : (s.csrAct op rd csr src z p).goOn = s.updMe fun x => (x.wx rd (csrRead s csr) .vol p).goOn := by
    simp only [State.csrAct, h, State.wx, State.goOn, updMe_updMe]
  have done := csrDone_of_change s rd (csr := csr) p (f := fun x => x) ⟨rfl, rfl, rfl, rfl⟩ fun q _ => csrOf_me s q
  rw [csrOf_me] at done
  rw [change]
  exact done

/-- A CSR that the instruction leaves, or holds what its field map keeps of the value that it writes. -/
def csrAfter (csr : CsrName) (old : W64) : Option W64 → W64
  | some v => csrStored csr old v
  | none => old

theorem csrDone_csrAct (s : State) (op : CsrOp) (rd : XReg) {csr : CsrName} (src : W64) (z p : Bool) (hs : csr ≠ .srst) :
    CsrDone s (s.csrAct op rd csr src z p).goOn rd csr (csrAfter csr (csrRead s csr) (csrNext op (csrRead s csr) src z)) := by
  cases h : csrNext op (csrRead s csr) src z with
  | none => exact csrDone_of_none p h
  | some v =>
    have done := csrDone_of_some p h (rd := rd)
    rw [csrOf_csrWrite_same s s.me v hs, csrOf_me] at done
    exact done

/-- A CSR instruction acts when the mode allows its CSR (R40). -/
theorem csrInstr_acts {i : Instr} {op : CsrOp} {rd : XReg} {csr : CsrName} {src : W64} {z p : Bool} {s : State}
    (hm : csrSup csr = true → s.me.sup = true) : csrInstr i op rd csr src z p s = finish (s.csrAct op rd csr src z p) := by
  unfold csrInstr privileged
  by_cases h : csrSup csr = true
  · rw [if_pos h, if_pos (hm h)]
  · rw [if_neg h]

/-- The instructions that set bits write nothing from a source of x0 or 0 (R40). -/
theorem csrAfter_set (csr : CsrName) (old src : W64) (r : BitVec 5) (op : CsrOp) (h : op = .rs ∨ op = .rsi) :
    csrAfter csr old (csrNext op old src (r == 0)) = if r = 0 then old else csrStored csr old (old ||| src) := by
  refine Eq.trans ?_ (if_congr beq_iff_eq rfl rfl)
  rcases h with rfl | rfl <;> cases r == 0 <;> rfl

/-- So do those that clear bits (R40). -/
theorem csrAfter_clear (csr : CsrName) (old src : W64) (r : BitVec 5) (op : CsrOp) (h : op = .rc ∨ op = .rci) :
    csrAfter csr old (csrNext op old src (r == 0)) = if r = 0 then old else csrStored csr old (old &&& ~~~src) := by
  refine Eq.trans ?_ (if_congr beq_iff_eq rfl rfl)
  rcases h with rfl | rfl <;> cases r == 0 <;> rfl

/-- The low word of a value that may not be written. -/
theorem low_map_ite (r : BitVec 5) (v : W64) : (if (r == 0) = true then none else some v).map (BitVec.setWidth 32) =
    if r = 0 then none else some (v.setWidth 32) := by
  refine Eq.trans ?_ (if_congr beq_iff_eq rfl rfl)
  cases r == 0 <;> rfl

theorem csrWrite_srst (v : W64) (x : Ctx) :
    (csrWrite .srst v x).srst = if v.setWidth 32 = 0 then 0x13579BDF else v.setWidth 32 := rfl

theorem srst_of_csrRead {t : State} {v : W32} (h : csrRead t .srst = v.setWidth 64) : t.me.srst = v := by
  have low := congrArg (BitVec.setWidth 32) h
  simpa [csrRead] using low

theorem exec_srstAccess {s : State} (op : CsrOp) (rd : XReg) (src : BitVec 5) (h : s.mySet.vq = []) :
    exec (.srstAccess op rd src) s = finish (s.srstAct op rd src) := by
  have done (n : Nat) (c : Option CtxId) : s.mySet.vDone n c = true := by simp [CtxSet.vDone, h]
  change vectorWait _ s = _
  rw [vectorWait, if_pos (done _ _), State.vectorAct]

/-- Settles O21: the write and the read of a CSR, and for srst the state that a 0 stands for. -/
theorem csrResults : Obligations.CsrResults := by
  unfold Obligations.CsrResults
  refine ⟨fun s rd rs1 csr uimm hs hm => ?_, fun s op rd src hv => ?_⟩
  · intro old gives src imm
    have acts {i : Instr} {op : CsrOp} {a v : W64} {z p : Bool} (he : exec i s = csrInstr i op rd csr a z p s)
        (e : csrAfter csr old (csrNext op old a z) = v) : gives i v := by
      intro _
      have ⟨outside, value, old, others, csrs, pc, seek, memory⟩ := csrDone_csrAct s op rd a z p hs
      exact ⟨_, he.trans (csrInstr_acts hm), outside, value.trans e, old, others, csrs, pc, seek, memory⟩
    have himm : imm = uimm.setWidth 64 := BitVec.ofNat_toNat 64 uimm
    rw [himm]
    exact ⟨acts rfl rfl, acts rfl (csrAfter_set csr old src rs1 .rs (.inl rfl)), acts rfl (csrAfter_clear csr old src rs1 .rc (.inl rfl)),
      acts rfl rfl, acts rfl (csrAfter_set csr old _ uimm .rsi (.inr rfl)), acts rfl (csrAfter_clear csr old _ uimm .rci (.inr rfl))⟩
  · intro old v new
    rw [exec_srstAccess op rd src hv]
    -- the source as the instruction reads it, and its low word
    obtain ⟨a, p, effect, low⟩ : ∃ (a : W64) (p : Bool), s.srstAct op rd src = s.csrAct op rd .srst a (src == 0) p ∧ a.setWidth 32 = v := by
      cases op
      case rw | rs | rc => exact ⟨_, _, rfl, rfl⟩
      all_goals exact ⟨_, _, rfl, BitVec.setWidth_setWidth_of_le _ (by decide)⟩
    have read : csrRead s .srst = BitVec.ofNat 64 old.toNat := (BitVec.ofNat_toNat 64 old).symm
    have next : (csrNext op (csrRead s .srst) a (src == 0)).map (BitVec.setWidth 32) = new := by
      have word : (csrRead s .srst).setWidth 32 = old := BitVec.setWidth_setWidth_of_le _ (by decide)
      cases op
      case rw | rwi => exact congrArg some low
      case rs | rsi => exact (low_map_ite _ _).trans (by rw [BitVec.setWidth_or, low, word])
      case rc | rci => exact (low_map_ite _ _).trans (by rw [BitVec.setWidth_and, BitVec.setWidth_not (by decide), low, word])
    rw [effect]
    clear_value new
    subst next
    cases written : csrNext op (csrRead s .srst) a (src == 0) with
    | none =>
      have ⟨outside, value, rdOld, others, _, _, _, memory⟩ := csrDone_of_none (rd := rd) p written
      exact ⟨_, rfl, outside, fun h => (rdOld h).trans read, others, memory, srst_of_csrRead value⟩
    | some n =>
      have ⟨outside, value, rdOld, others, _, _, _, memory⟩ := csrDone_of_some (rd := rd) p written
      refine ⟨_, rfl, outside, fun h => (rdOld h).trans read, others, memory, (srst_of_csrRead value).trans ?_⟩
      rw [csrWrite_srst, Option.map_some]
      generalize n.setWidth 32 = state
      split
      case isTrue zero => subst zero; rfl
      case isFalse nonzero =>
        split
        case h_1 e => cases e
        case h_2 e => exact absurd (Option.some.inj e) nonzero
        case h_3 e => exact Option.some.inj e

end Sys2Proof.Machine
end

section
namespace Sys2Proof.Machine

/-! ### Traps by instruction (R35, R75, R91, R93) -/

/-- The link value of a context that has a next owned lane (R75). -/
theorem withLink_lane {s : State} {next : W64} (k : W64 → Out) (h : s.nextLane s.curCore s.curCtx s.me.pc = .lane next) :
    withLink s k = k next := by
  rw [withLink, State.link, h]

theorem onlyCtx_updCtx (s : State) (g : Nat) (c : CtxId) (f : Ctx → Ctx) : OnlyCtx g c s (s.updCtx g c f) :=
  updCtx_congr s g c (by rw [ctx_updCtx_same])

/-- A trap of the issuing context changes nothing outside it (R93). -/
theorem trapMe_onlyCtx {s : State} (k : Cause) (val : W64) (hk : k ≠ .fhdr) (hr : (s.core s.curCore).rec_ = none)
    (hh : s.me.hold = .none) (ht : s.checkTarget s.curCore s.curCtx s.me.tvec = .ok) :
    OnlyCtx s.curCore s.curCtx s (s.trapMe k val) := by
  rw [State.trapMe, trap_ok k val s.me.pc hk hr hh ht]
  exact onlyCtx_updCtx ..

/-- In user mode the privilege check traps with the instruction's word (R35). -/
theorem privileged_user {i : Instr} {s : State} {u : LaneUnit} {w : W32} (act : State → Out) (hm : s.me.sup = false)
    (he : encode i = some (u, w)) : privileged i s act = .next (s.trapMe .priv (w.setWidth 64)) := by
  rw [privileged, hm, he]
  rfl

theorem csrInstr_supervisor {i : Instr} {op : CsrOp} {rd : XReg} {csr : CsrName} {src : W64} {z p : Bool} {s : State}
    (h : csrSup csr = true) : csrInstr i op rd csr src z p s = privileged i s fun s => finish (s.csrAct op rd csr src z p) :=
  if_pos h

theorem exec_ecall {s : State} {next : W64} (h : s.nextLane s.curCore s.curCtx s.me.pc = .lane next) :
    exec .ecall s = .next (s.trapMe .ecall next) :=
  withLink_lane (fun v => .next (s.trapMe .ecall v)) h

theorem exec_ebreak {s : State} {next : W64} (h : s.nextLane s.curCore s.curCtx s.me.pc = .lane next) :
    exec .ebreak s = .next (s.trapMe .ebrk next) :=
  withLink_lane (fun v => .next (s.trapMe .ebrk v)) h

theorem exec_illegalInstruction (w : W32) (s : State) :
    exec (.illegalInstruction w) s = .next (s.trapMe .ill (w.setWidth 64)) := rfl

/-- Settles O20: each instruction comes to a trap of the issuing context, or to the privilege check. -/
theorem instructionTraps : Obligations.InstructionTraps := by
  unfold Obligations.InstructionTraps
  constructor
  · intro s w hr hh ht
    have taken (k : Cause) (val : W64) (hk : k ≠ .fhdr) := trapMe_trapped k val hk hr hh ht
    refine ⟨fun next hn => ⟨⟨_, exec_ecall hn, taken .ecall next (by decide)⟩, ⟨_, exec_ebreak hn, taken .ebrk next (by decide)⟩⟩,
      ⟨_, exec_illegalInstruction w s, taken .ill _ (by decide)⟩⟩
  · intro s i w u hm hr hh ht he hi
    have traps (act : State → Out) (h : exec i s = privileged i s act) :
        ∃ t, exec i s = .next t ∧ Trapped s t s.curCore s.curCtx .priv (w.setWidth 64) s.me.pc ∧ OnlyCtx s.curCore s.curCtx s t :=
      ⟨_, h.trans (privileged_user act hm he), trapMe_trapped .priv _ (by decide) hr hh ht, trapMe_onlyCtx .priv _ (by decide) hr hh ht⟩
    cases i with
    | csrrw | csrrs | csrrc | csrrwi | csrrsi | csrrci => exact traps _ (csrInstr_supervisor hi)
    | trnp => exact traps _ (by change execTrnp _ _ _ _ _ _ s = _; rw [execTrnp])
    | pocc => exact traps _ (by change execPocc _ s = _; rw [execPocc])
    | poccW => exact traps _ (by change execPoccW _ s = _; rw [execPoccW])
    | pref => exact traps _ (by change execPref _ _ _ s = _; rw [execPref])
    | pret => exact traps _ (by change execPret _ s = _; rw [execPret])
    | ptstat => exact traps _ (by change execPtstat _ _ s = _; rw [execPtstat])
    | tret => exact traps _ (by change execTret s = _; rw [execTret])
    | purge => exact traps _ (by change execPurge _ s = _; rw [execPurge])
    | jprio => exact traps _ (by change execJprio _ _ s = _; rw [execJprio])
    | _ => exact False.elim hi

end Sys2Proof.Machine
end

section
namespace Sys2Proof.Machine

/-! ### The words of a code line (R24, R72) -/

theorem leNat_append (l m : List Byte) : leNat (l ++ m) = leNat l + 256 ^ l.length * leNat m := by
  induction l with
  | nil => simp [leNat]
  | cons b l ih => rw [List.cons_append, leNat, leNat, ih, List.length_cons, Nat.pow_succ]; ring

/-- A number in memory is its low bytes and, above them, the rest. -/
theorem readNat_add (s : State) (a m n : Nat) :
    s.readNat a (m + n) = s.readNat a m + 256 ^ m * s.readNat (a + m) n := by
  have split : s.mem.read a (m + n) = s.mem.read a m ++ s.mem.read (a + m) n := by
    simp [Memory.read, List.range_add, Nat.add_assoc]
  rw [State.readNat, split, leNat_append]
  simp [State.readNat, Memory.read]

/-- The bytes in the midst of a number in memory. -/
theorem readNat_part (s : State) (a m n k : Nat) :
    s.readNat a (m + n + k) / 256 ^ m % 256 ^ n = s.readNat (a + m) n := by
  have low := readNat_lt s a m
  have mid := readNat_lt s (a + m) n
  rw [Nat.add_assoc, readNat_add, Nat.add_mul_div_left _ _ (by positivity), Nat.div_eq_of_lt low, Nat.zero_add,
    readNat_add, Nat.add_mul_mod_self_left, Nat.mod_eq_of_lt mid]

/-- The word of a lane is the one that memory holds at its place in the line. -/
theorem laneOf_lineBits (s : State) (loc : Nat) {n : Nat} (hn : n < 8) :
    laneOf (s.lineBits loc) n = BitVec.ofNat 32 (s.readNat (loc + 4 * n) 4) := by
  have part := readNat_part s loc (4 * n) 4 (28 - 4 * n)
  have fits := readNat_lt s loc 32
  rw [show 4 * n + 4 + (28 - 4 * n) = 32 by omega, show 256 ^ (4 * n) = 2 ^ (32 * n) by
    rw [show (256 : Nat) = 2 ^ 8 from rfl, ← Nat.pow_mul]; congr 1; omega] at part
  apply BitVec.eq_of_toNat_eq
  rw [laneOf, State.lineBits, BitVec.extractLsb'_toNat, BitVec.toNat_ofNat, BitVec.toNat_ofNat,
    Nat.mod_eq_of_lt (a := s.readNat loc 32) (by omega), Nat.shiftRight_eq_div_pow, ← part]
  exact (Nat.mod_mod _ _).symm

/-- The header is the word at the start of the line. -/
theorem headerOf_lineBits (s : State) (loc : Nat) :
    headerOf (s.lineBits loc) = BitVec.ofNat 32 (s.readNat loc 4) :=
  laneOf_lineBits s loc (n := 0) (by omega)

theorem lineAddr_toNat (a : W64) : (lineAddr a).toNat = a.toNat / 32 * 32 := by
  have mask : ∀ i : Fin 64, (~~~31#64)[i] = decide (5 ≤ i.val) := by decide
  have clear : lineAddr a = (a >>> 5) <<< 5 := by
    ext i hi
    rw [lineAddr, BitVec.getElem_and, show (~~~31#64)[i] = decide (5 ≤ i) from mask ⟨i, hi⟩]
    by_cases low : i < 5
    · simp [low, Nat.not_le_of_lt low]
    · simp [low, Nat.le_of_not_lt low, BitVec.getLsbD_eq_getElem hi, Nat.add_sub_cancel' (Nat.le_of_not_lt low)]
  have fits := a.isLt
  rw [clear, BitVec.toNat_shiftLeft, BitVec.toNat_ushiftRight, Nat.shiftRight_eq_div_pow, Nat.shiftLeft_eq,
    Nat.mod_eq_of_lt (by omega)]

/-! ### Reading a line of code from HBM of the core's die (R72, R78) -/

theorem issueCheck_live {s : State} {g : Nat} {k : Token} (gen : (s.pin (g / 128) k.pte).gen = k.gen)
    (live : (s.pin (g / 128) k.pte).state = .live) : s.issueCheck g k = .go := by
  simp [State.issueCheck, gen, live]

theorem codeLoc_ok {s : State} {g : Nat} {k : Token} {off loc : Nat} (ok : s.tokenByte g k 1 off = .ok loc) :
    s.codeLoc g k off = some loc := by
  rw [State.codeLoc, ok]

/-- What decides an address of HBM does not ask by which extent it is reached. -/
theorem addrFate_hbm {s : State} {g loc : Nat} {v : Via} (hbm : region loc = .hbm) (host : v.host = false) :
    s.addrFate g loc v = s.addrFate g loc {} := by
  simp [State.addrFate, State.homeDie, hbm, host]

/-- A line of HBM of the core's die that is not in the fetch buffer is read at its home. -/
theorem codeHere_hbm {s : State} {g loc : Nat} (miss : fget (s.core g).fetch (loc / 32) = none)
    (fate : s.addrFate g loc {} = .ok) (hbm : region loc = .hbm) (near : s.remote g loc = false) :
    s.codeHere g loc = some (s.lineBits loc) := by
  have code : s.addrFate g loc codeVia = .ok := (addrFate_hbm hbm rfl).trans fate
  simp [State.codeHere, miss, code, hbm, near]

theorem codeMask_whole {k : Token} {off : Nat} (inside : off + 31 ≤ k.lenm1.toNat) (w : BitVec 256) :
    codeMask k off w = w :=
  if_neg (by omega)

section
variable {s : State} {g : Nat} {k : Token} {off loc : Nat}

theorem readLine_hbm (gen : (s.pin (g / 128) k.pte).gen = k.gen) (live : (s.pin (g / 128) k.pte).state = .live)
    (at_ : s.codeLoc g k off = some loc) (here : s.codeHere g loc = some (s.lineBits loc))
    (inside : off + 31 ≤ k.lenm1.toNat) : s.readLine g k off = .line (s.lineBits loc) := by
  simp [State.readLine, issueCheck_live gen live, at_, here, codeMask_whole inside]

/-- Keeping a line in the fetch buffer writes no memory. -/
theorem keepLine_mem : (s.keepLine g k off).mem = s.mem := by
  unfold State.keepLine
  split
  · rfl
  · split <;> rfl

theorem ctx_updCore_of_act {f : Core → Core} (same : (f (s.core g)).act = (s.core g).act) (c : CtxId) :
    (s.updCore g f).ctx g c = s.ctx g c := by
  rw [State.ctx, State.aset, core_updCore_same, same]
  rfl

theorem ctx_keepLine (c : CtxId) : (s.keepLine g k off).ctx g c = s.ctx g c := by
  unfold State.keepLine
  split
  · rfl
  · split
    · exact ctx_updCore_of_act rfl c
    · rfl

end

/-- The word at a lane whose line is read at its home. -/
theorem laneWord_line {s : State} {g loc : Nat} {a : W64}
    (line : s.readLine g (s.aset g).codeTok (lineAddr a).toNat = .line (s.lineBits loc)) :
    s.laneWord g a = .word (s.keepLine g (s.aset g).codeTok (lineAddr a).toNat)
      (unitOfLane (headerOf (s.lineBits loc)) (laneIdx a)) (laneOf (s.lineBits loc) (laneIdx a)) := by
  rw [State.laneWord, line]

/-- A lane that its context owns, in a line with a good header, passes the checks of a target (R76). -/
theorem checkTarget_ok {s : State} {g loc : Nat} {c : CtxId} {a : W64}
    (line : s.readLine g (s.aset g).codeTok (lineAddr a).toNat = .line (s.lineBits loc)) (lane : misLane a = false)
    (good : headerBad (headerOf (s.lineBits loc)) = false) (own : owns (headerOf (s.lineBits loc)) c (laneIdx a) = true) :
    s.checkTarget g c a = .ok := by
  simp [State.checkTarget, lane, line, good, own]

/-- A context that seeks no lane, and whose pc passes the checks, fetches the word at its pc. -/
theorem fetchNext_ok {s : State} {g : Nat} {c : CtxId} (still : (s.ctx g c).seek = false)
    (settled : (s.ctx g c).entering = false) (ok : s.checkTarget g c (s.ctx g c).pc = .ok) :
    s.fetchNext g c = s.laneWord g (s.ctx g c).pc := by
  simp [State.fetchNext, State.fetchAt, State.entered, still, settled, ok]

/-- Settles O5: the line is read at its home, whose words are the words of memory. -/
theorem fetchReadsLane : Obligations.FetchReadsLane := by
  unfold Obligations.FetchReadsLane
  intro s g c loc k a n h still settled aligned lane ok whole miss fate hbm near gen live good own
  have line : s.readLine g k (lineAddr a).toNat = .line (s.lineBits loc) := by
    rw [lineAddr_toNat]
    exact readLine_hbm gen live (codeLoc_ok ok) (codeHere_hbm miss fate hbm near) whole
  have header : headerOf (s.lineBits loc) = h := headerOf_lineBits s loc
  have notMis : misLane a = false := by simp [misLane, laneIdx, aligned, show a.toNat / 4 % 8 ≠ 0 from lane]
  have checked : s.checkTarget g c a = .ok := checkTarget_ok line notMis (by rwa [header]) (by rwa [header])
  have word : laneOf (s.lineBits loc) (laneIdx a) = BitVec.ofNat 32 (s.readNat (loc + 4 * n) 4) :=
    laneOf_lineBits s loc (Nat.mod_lt _ (by omega))
  refine ⟨s.keepLine g k (lineAddr a).toNat, ?_, keepLine_mem, ctx_keepLine c⟩
  rw [fetchNext_ok still settled checked, laneWord_line line, header, word]
  rfl

end Sys2Proof.Machine
end

section
namespace Sys2Proof.Machine

/-! ### A next state in every case (R91, R93)

The meaning of an instruction is a tree of conditions and matches. `Goes` says of a meaning that it answers a
next state. A tree of conditions is built from its leaves by `goes_ite`; in one with matches `split` walks down to the leaves. -/

/-- The outcome is a next state. -/
def Goes (o : Out) : Prop := ∃ t, o = .next t

theorem goes_next (t : State) : Goes (.next t) := ⟨t, rfl⟩

theorem goes_ite {p : Prop} [Decidable p] {a b : Out} (ha : Goes a) (hb : Goes b) : Goes (if p then a else b) := by
  split
  · exact ha
  · exact hb

/-! ### The shared meanings of unit K and of the engines' queues -/

section
variable (i : Instr) (s : State) {act : State → Out}

/-- An instruction that enters an engine's queue, or waits for a free entry, goes on (R37). -/
theorem issueEngine_goes : Goes (issueEngine i s) := goes_ite (goes_next _) (goes_next _)

theorem vectorWait_goes : Goes (vectorWait i s) := goes_ite (goes_next _) (goes_next _)

theorem occWaitOr_goes (e : BitVec 20) (n : Nat) : Goes (occWaitOr i e n s) := goes_ite (goes_next _) (goes_next _)

theorem ringWait_goes (full : Bool) (h : HReg) (x : W64) : Goes (ringWait full h x s) :=
  goes_ite (goes_next _) (goes_ite (goes_next _) (goes_next _))

/-- A supervisor instruction has its effect or traps PRIV (R35). -/
theorem privileged_goes (h : ∀ t, Goes (act t)) : Goes (privileged i s act) := goes_ite (h s) (goes_next _)

/-- A barrier instruction has its effect or traps BARC (R228). -/
theorem barrierInstr_goes (h : ∀ t, Goes (act t)) : Goes (barrierInstr i s act) := goes_ite (goes_next _) (h _)

theorem csrInstr_goes (op : CsrOp) (rd : XReg) (csr : CsrName) (src : W64) (zero mark : Bool) :
    Goes (csrInstr i op rd csr src zero mark s) :=
  goes_ite (privileged_goes i s fun _ => goes_next _) (goes_next _)

theorem withLink_goes {k : W64 → Out} (h : ∀ v, Goes (k v)) : Goes (withLink s k) := by
  unfold withLink
  split
  · exact h _
  all_goals exact goes_next _

theorem jumpTo_goes (a : W64) (pre write : State → State) : Goes (jumpTo a pre write s) := by
  unfold jumpTo
  split <;> exact goes_next _

theorem scalarLoad_goes (n : Nat) (sgn : Bool) (rd rs1 : XReg) (imm : BitVec 12) : Goes (scalarLoad n sgn rd rs1 imm s) := by
  unfold scalarLoad
  dsimp only
  repeat' split
  all_goals exact goes_next _

theorem scalarStore_goes (n : Nat) (rs2 rs1 : XReg) (imm : BitVec 12) : Goes (scalarStore n rs2 rs1 imm s) := by
  unfold scalarStore
  dsimp only
  repeat' split
  all_goals exact goes_next _

theorem atomic_goes (size : Nat) (xd xp : XReg) (v vexp : W64) (poison posted : Bool) :
    Goes (atomic i size xd xp v vexp poison posted s) := by
  unfold atomic
  dsimp only
  repeat' split
  all_goals exact goes_next _

end

/-! ### Meanings of their own -/

section
variable (g r op card n : Nat) (c : CtxId) (d : Fin 8) (s : State)

theorem execGpatch_goes (xd : XReg) (slot : BitVec 4) : Goes (execGpatch xd slot s) := by
  unfold execGpatch
  dsimp only
  repeat' split
  all_goals exact goes_next _

theorem execWaita_goes (xd : XReg) (xp : XReg) (xexp : XReg) (xtmo : XReg) : Goes (execWaita xd xp xexp xtmo s) := by
  unfold execWaita
  dsimp only
  repeat' split
  all_goals exact goes_next _

theorem execStf_goes (xp : XReg) (xv : XReg) (xf : XReg) : Goes (execStf xp xv xf s) := by
  unfold execStf
  dsimp only
  repeat' split
  all_goals exact goes_next _

theorem execEngineQueueFullRelease_goes : Goes (execEngineQueueFullRelease g c s) := by
  unfold execEngineQueueFullRelease
  repeat' split
  all_goals exact goes_next _

theorem execWatchdogExpiry_goes : Goes (execWatchdogExpiry g c s) := by
  unfold execWatchdogExpiry
  dsimp only
  repeat' split
  all_goals exact goes_next _

theorem execAsyncTrapTake_goes : Goes (execAsyncTrapTake g c s) := by
  unfold execAsyncTrapTake
  dsimp only
  repeat' split
  all_goals exact goes_next _

theorem execTwaitComplete_goes : Goes (execTwaitComplete g c s) := by
  unfold execTwaitComplete
  repeat' split
  all_goals exact goes_next _

theorem execTrnWalkEnd_goes : Goes (execTrnWalkEnd g c s) := by
  unfold execTrnWalkEnd
  dsimp only
  repeat' split
  all_goals exact goes_next _

theorem execWalkerSlotFree_goes : Goes (execWalkerSlotFree g c s) := by
  unfold execWalkerSlotFree
  repeat' split
  all_goals exact goes_next _

theorem execOccultationStallResume_goes : Goes (execOccultationStallResume g c s) := by
  unfold execOccultationStallResume
  dsimp only
  repeat' split
  all_goals exact goes_next _

theorem execOcctmoOverrun_goes (src : StallSrc) : Goes (execOcctmoOverrun g c src s) := by
  unfold execOcctmoOverrun
  dsimp only
  repeat' split
  all_goals exact goes_next _

theorem execOccultationWaitTimeout_goes : Goes (execOccultationWaitTimeout g c s) := by
  unfold execOccultationWaitTimeout
  repeat' split
  all_goals exact goes_next _

theorem execHolderProbe_goes (pte : BitVec 20) : Goes (execHolderProbe g pte s) := by
  unfold execHolderProbe
  dsimp only
  repeat' split
  all_goals exact goes_next _

theorem execRequestPerformed_goes (d : Nat) : Goes (execRequestPerformed d n s) := by
  unfold execRequestPerformed
  repeat' split
  all_goals exact goes_next _

theorem execVEntryExecute_goes : Goes (execVEntryExecute g s) := by
  unfold execVEntryExecute
  repeat' split
  all_goals exact goes_next _

theorem execVEntryResult_goes : Goes (execVEntryResult g n s) := by
  unfold execVEntryResult
  split <;> exact goes_next _

theorem execStreamCommandBegin_goes : Goes (execStreamCommandBegin g c s) := by
  unfold execStreamCommandBegin
  dsimp only
  repeat' split
  all_goals exact goes_next _

theorem execStreamGranuleDone_goes : Goes (execStreamGranuleDone g c n s) := by
  unfold execStreamGranuleDone
  dsimp only
  repeat' split
  all_goals exact goes_next _

theorem execMatrixEntryExecute_goes : Goes (execMatrixEntryExecute g s) := by
  unfold execMatrixEntryExecute
  dsimp only
  repeat' split
  all_goals exact goes_next _

theorem execMgoLaunch_goes : Goes (execMgoLaunch g s) := by
  unfold execMgoLaunch
  dsimp only
  repeat' split
  all_goals exact goes_next _

theorem execMatrixStep_goes (f : StepFault) : Goes (execMatrixStep g f s) := by
  unfold execMatrixStep
  dsimp only
  repeat' split
  all_goals exact goes_next _

theorem execDrainRowPerformed_goes (j : Nat) : Goes (execDrainRowPerformed g j s) := by
  unfold execDrainRowPerformed
  dsimp only
  repeat' split
  all_goals exact goes_next _

theorem execCollationCommandExecute_goes : Goes (execCollationCommandExecute g s) := by
  unfold execCollationCommandExecute
  dsimp only
  repeat' split
  all_goals exact goes_next _

theorem execClxchPair_goes : Goes (execClxchPair g s) := by
  unfold execClxchPair
  split <;> exact goes_next _

theorem execClxchTransferDone_goes : Goes (execClxchTransferDone g s) := by
  unfold execClxchTransferDone
  split <;> exact goes_next _

theorem execClxchNoPartner_goes : Goes (execClxchNoPartner g s) := by
  unfold execClxchNoPartner
  split <;> exact goes_next _

theorem execClxchExchangeFailed_goes : Goes (execClxchExchangeFailed g s) := by
  unfold execClxchExchangeFailed
  split <;> exact goes_next _

theorem execGalleyInstall_goes : Goes (execGalleyInstall g s) := by
  unfold execGalleyInstall
  dsimp only
  repeat' split
  all_goals exact goes_next _

theorem execGalleyPlayCheck_goes : Goes (execGalleyPlayCheck g s) := by
  unfold execGalleyPlayCheck
  dsimp only
  repeat' split
  all_goals exact goes_next _

theorem execGalleyFeed_goes : Goes (execGalleyFeed g s) := by
  unfold execGalleyFeed
  dsimp only
  repeat' split
  all_goals exact goes_next _

theorem execGalleyWaitRelease_goes : Goes (execGalleyWaitRelease g s) := by
  unfold execGalleyWaitRelease
  dsimp only
  repeat' split
  all_goals exact goes_next _

theorem execGalleyPlayComplete_goes : Goes (execGalleyPlayComplete g s) := by
  unfold execGalleyPlayComplete
  extract_lets
  split <;> exact goes_next _

theorem execStoreBufferAgeDrain_goes : Goes (execStoreBufferAgeDrain g s) := by
  unfold execStoreBufferAgeDrain
  split <;> exact goes_next _

theorem execStoreBufferDepart_goes : Goes (execStoreBufferDepart g s) := by
  unfold execStoreBufferDepart
  repeat' split
  all_goals exact goes_next _

theorem execStoreRegistered_goes (seq : Nat) : Goes (execStoreRegistered g seq s) := by
  unfold execStoreRegistered
  repeat' split
  all_goals exact goes_next _

theorem execScTicket_goes : Goes (execScTicket op s) := by
  unfold execScTicket
  repeat' split
  all_goals exact goes_next _

theorem execHomeOperation_goes : Goes (execHomeOperation op s) := by
  unfold execHomeOperation
  dsimp only
  repeat' split
  all_goals exact goes_next _

theorem execAtomicReply_goes : Goes (execAtomicReply op s) := by
  unfold execAtomicReply
  repeat' split
  all_goals exact goes_next _

theorem execFenceComplete_goes : Goes (execFenceComplete g c s) := by
  unfold execFenceComplete
  repeat' split
  all_goals exact goes_next _

theorem execBarrierArrival_goes : Goes (execBarrierArrival n s) := by
  unfold execBarrierArrival
  dsimp only
  repeat' split
  all_goals exact goes_next _

theorem execBarrierWake_goes : Goes (execBarrierWake g c s) := by
  unfold execBarrierWake
  repeat' split
  all_goals exact goes_next _

theorem execWaitaWakeWrite_goes : Goes (execWaitaWakeWrite g c s) := by
  unfold execWaitaWakeWrite
  repeat' split
  all_goals exact goes_next _

theorem execWaitaMonitorLost_goes : Goes (execWaitaMonitorLost g c s) := by
  unfold execWaitaMonitorLost
  repeat' split
  all_goals exact goes_next _

theorem execWaitaTimeout_goes : Goes (execWaitaTimeout g c s) := by
  unfold execWaitaTimeout
  repeat' split
  all_goals exact goes_next _

theorem execWaitaSpuriousWake_goes : Goes (execWaitaSpuriousWake g c s) := by
  unfold execWaitaSpuriousWake
  repeat' split
  all_goals exact goes_next _

theorem execRemoteRequestArrive_goes (accept : Bool) : Goes (execRemoteRequestArrive r accept s) := by
  unfold execRemoteRequestArrive
  repeat' split
  all_goals exact goes_next _

theorem execInvalidationReceive_goes (d : Nat) : Goes (execInvalidationReceive r d s) := by
  unfold execInvalidationReceive
  repeat' split
  all_goals exact goes_next _

theorem execInvalidationAckReceive_goes (d : Nat) : Goes (execInvalidationAckReceive r d s) := by
  unfold execInvalidationAckReceive
  repeat' split
  all_goals exact goes_next _

theorem execSlotReturn_goes : Goes (execSlotReturn r s) := by
  unfold execSlotReturn
  repeat' split
  all_goals exact goes_next _

theorem execRetryBackoffExpiry_goes : Goes (execRetryBackoffExpiry r s) := by
  unfold execRetryBackoffExpiry
  dsimp only
  repeat' split
  all_goals exact goes_next _

theorem execRemoteReplyReceive_goes : Goes (execRemoteReplyReceive r s) := by
  unfold execRemoteReplyReceive
  repeat' split
  all_goals exact goes_next _

theorem execTransactionTimeout_goes : Goes (execTransactionTimeout r s) := by
  unfold execTransactionTimeout
  repeat' split
  all_goals exact goes_next _

theorem execTagFreeRelease_goes : Goes (execTagFreeRelease g c s) := by
  unfold execTagFreeRelease
  repeat' split
  all_goals exact goes_next _

theorem execPoisonConsume_goes : Goes (execPoisonConsume s) := by
  unfold execPoisonConsume
  split <;> exact goes_next _

theorem execPurgeComplete_goes : Goes (execPurgeComplete g c s) := by
  unfold execPurgeComplete
  split <;> exact goes_next _

theorem execTileMigrateDone_goes : Goes (execTileMigrateDone card s) := by
  unfold execTileMigrateDone
  dsimp only
  repeat' split
  all_goals exact goes_next _

theorem execCardSelect_goes : Goes (execCardSelect d s) := by
  unfold execCardSelect
  repeat' split
  all_goals exact goes_next _

theorem execPartyBind_goes : Goes (execPartyBind card s) := by
  unfold execPartyBind
  repeat' split
  all_goals exact goes_next _

theorem execPartyStart_goes : Goes (execPartyStart g s) := by
  unfold execPartyStart
  dsimp only
  repeat' split
  all_goals exact goes_next _

theorem execContextSwitch_goes : Goes (execContextSwitch g s) := by
  unfold execContextSwitch
  dsimp only
  repeat' split
  all_goals exact goes_next _

theorem execSetSaveComplete_goes : Goes (execSetSaveComplete g s) := by
  unfold execSetSaveComplete
  dsimp only
  repeat' split
  all_goals exact goes_next _

theorem execJobRetire_goes : Goes (execJobRetire card s) := by
  unfold execJobRetire
  repeat' split
  all_goals exact goes_next _

theorem execAttestationReport_goes (nonce : Option (List Byte)) : Goes (execAttestationReport nonce s) := by
  unfold execAttestationReport
  dsimp only
  repeat' split
  all_goals exact goes_next _

theorem execGalleyEntryExecute_goes : Goes (execGalleyEntryExecute g s) := by
  unfold execGalleyEntryExecute
  extract_lets
  split
  · exact goes_next _
  · next e _ =>
    generalize e.instr = i
    cases i with
    | gdrop => exact goes_ite (goes_next _) (goes_next _)
    | _ => exact goes_next _

theorem execJobPortEntryExecute_goes : Goes (execJobPortEntryExecute g s) := by
  unfold execJobPortEntryExecute
  extract_lets
  split
  · exact goes_next _
  · next e _ _ =>
    generalize e.instr = i
    cases i with
    | jpost | jdone => exact goes_ite (goes_next _) (goes_next _)
    | _ => exact goes_next _

end

/-! ### Supervisor instructions, barriers and the register file of the host -/

section
variable (s : State) (xa xb xc : XReg)

theorem execTret_goes : Goes (execTret s) := privileged_goes _ _ fun _ => goes_next _

theorem execPurge_goes : Goes (execPurge xa s) := privileged_goes _ _ fun _ => goes_next _

theorem execPtstat_goes : Goes (execPtstat xa xb s) := privileged_goes _ _ fun _ => goes_next _

theorem execJprio_goes : Goes (execJprio xa xb s) := privileged_goes _ _ fun _ => issueEngine_goes ..

theorem execBarArv_goes (sc : Scope) (b : BitVec 3) : Goes (execBarArv sc b xa s) :=
  barrierInstr_goes _ _ fun _ => goes_next _

theorem execBarWt_goes (sc : Scope) (b : BitVec 3) : Goes (execBarWt sc b xa s) :=
  barrierInstr_goes _ _ fun _ => goes_next _

theorem execBarAw_goes (sc : Scope) (b : BitVec 3) : Goes (execBarAw sc b xa s) :=
  barrierInstr_goes _ _ fun _ => goes_next _

theorem execBarStat_goes (sc : Scope) (b : BitVec 3) : Goes (execBarStat sc b xa s) :=
  barrierInstr_goes _ _ fun _ => goes_next _

theorem execTrnp_goes (kd : KReg) (xpa xlen : XReg) (rights : BitVec 4) (ms host : Bool) :
    Goes (execTrnp kd xpa xlen rights ms host s) := by
  refine privileged_goes _ _ fun t => ?_
  dsimp only
  split <;> exact goes_next _

theorem execPocc_goes : Goes (execPocc xa s) := by
  refine privileged_goes _ _ fun t => ?_
  dsimp only
  split <;> exact goes_next _

theorem execPoccW_goes : Goes (execPoccW xa s) := by
  refine privileged_goes _ _ fun t => ?_
  dsimp only
  split
  · exact goes_next _
  · exact occWaitOr_goes ..

theorem execPref_goes : Goes (execPref xa xb xc s) := by
  refine privileged_goes _ _ fun t => ?_
  dsimp only
  split
  · exact goes_next _
  · exact occWaitOr_goes ..

theorem execPret_goes : Goes (execPret xa s) := by
  refine privileged_goes _ _ fun t => ?_
  dsimp only
  split
  · exact goes_next _
  · exact occWaitOr_goes ..

theorem execEventsRead_goes : Goes (execEventsRead s) := goes_ite (goes_next _) (goes_next _)

theorem execRegisterRead_goes (off : BitVec 24) (n : Nat) : Goes (execRegisterRead off n s) :=
  goes_ite (goes_next _) (goes_ite (execEventsRead_goes s) (goes_next _))

/-- A write to the host's registers is a post, half of a mailbox slot, or nothing. -/
theorem execRegisterWriteOther_goes (off : BitVec 24) (w : W64) : Goes (execRegisterWriteOther off w s) :=
  goes_ite (goes_next _) (goes_ite (goes_ite (goes_next _) (goes_ite (goes_next _) (goes_next _)))
    (goes_ite (goes_ite (goes_ite (goes_next _) (goes_next _)) (goes_ite (goes_next _) (goes_next _))) (goes_next _)))

end

/-! ### Every instruction, every duty and every step -/

theorem exec_goes (i : Instr) (s : State) : Goes (exec i s) := by
  cases i with
  | lb | lh | lw | ld | lbu | lhu | lwu => exact scalarLoad_goes ..
  | sb | sh | sw | sd => exact scalarStore_goes ..
  | addi | auipc | add | sub | lui | rvfence | tklen | tkinfo | ptr | guntag | rosync | tliss | cellOperation
  | mailboxDataRead | packageReset | powerPeriod | illegalInstruction | hostPurge | slti | sltiu | xori | ori | andi
  | slli | srli | srai | addiw | slliw | srliw | sraiw | sll | slt | sltu | xor | srl | sra | or | and | mul | mulh
  | mulhsu | mulhu | div | divu | rem | remu | addw | subw | sllw | srlw | sraw | mulw | divw | divuw | remw | remuw =>
    exact goes_next _
  | beq | bne | blt | bge | bltu | bgeu => exact goes_ite (jumpTo_goes ..) (goes_next _)
  | jalr | jal => exact withLink_goes _ fun _ => jumpTo_goes ..
  | ecall | ebreak => exact withLink_goes _ fun _ => goes_next _
  | csrrw | csrrs | csrrc | csrrwi | csrrsi | csrrci => exact csrInstr_goes ..
  | srstAccess | vxmv | mpop => exact vectorWait_goes ..
  | rvfenceI | trn | tkmov | tkdrop | grec | gend | gplay | jdone | xfence | twait | streamGranuleIssue | dieFence
  | uncorrectableError | cardAccept | timeSliceExpiry | mailboxTargetWrite | mailboxDataWrite | mailboxReclaim
  | serviceRequest | eventsRead | bootFetchRetry | bootRelease | trayBudgetDeclare | deadLink | msixVectorUnmask =>
    exact goes_ite (goes_next _) (goes_next _)
  | trnp => exact execTrnp_goes ..
  | pocc => exact execPocc_goes ..
  | ptstat => exact execPtstat_goes ..
  | tret => exact execTret_goes ..
  | purge => exact execPurge_goes ..
  | gpatch => exact execGpatch_goes ..
  | vadd | vsub | vmul | vfma | vmin | vmax | vabs | vneg | vdiv | vsqrt | vrcp | vrsq | vexp2 | vlog2 | vand | vor
  | vxor | vnot | vshl | vshr | vsra | vcmp | vsel | vcvt | vmov | vbcast | viota | vshuf | vslide | vcmpr | vpart | vred
  | vscan | mset | mand | mor | mxor | mnot | vld | vst | vldg | vsts | vldr | vstr | vadv | vpub | vlda | rset | sfill
  | sdrain | scopy | shint | mcfg | mgo | mrnd | mzero | mdrain | mchk | clset | clclr | clins | cldel | clsub | clxch
  | clpeel | clstat | gsave | gload | gdrop | gstat | jpost | jstat | jyield =>
    exact issueEngine_goes ..
  | jprio => exact execJprio_goes ..
  | amo | cas => exact atomic_goes ..
  | fence | postRegisterWrite | hostWindowAccess | bootImageReceived =>
    exact goes_ite (goes_next _) (goes_ite (goes_next _) (goes_next _))
  | barArv => exact execBarArv_goes ..
  | barWt => exact execBarWt_goes ..
  | barAw => exact execBarAw_goes ..
  | barStat => exact execBarStat_goes ..
  | waita => exact execWaita_goes ..
  | rwaitf | rwaite => exact ringWait_goes ..
  | stf => exact execStf_goes ..
  | poccW => exact execPoccW_goes ..
  | pref => exact execPref_goes ..
  | pret => exact execPret_goes ..
  | engineQueueFullRelease => exact execEngineQueueFullRelease_goes ..
  | watchdogExpiry => exact execWatchdogExpiry_goes ..
  | asyncTrapTake => exact execAsyncTrapTake_goes ..
  | twaitComplete => exact execTwaitComplete_goes ..
  | trnWalkEnd => exact execTrnWalkEnd_goes ..
  | walkerSlotFree => exact execWalkerSlotFree_goes ..
  | occultationStallResume => exact execOccultationStallResume_goes ..
  | occtmoOverrun => exact execOcctmoOverrun_goes ..
  | occultationWaitTimeout => exact execOccultationWaitTimeout_goes ..
  | holderProbe => exact execHolderProbe_goes ..
  | requestPerformed => exact execRequestPerformed_goes ..
  | vEntryExecute => exact execVEntryExecute_goes ..
  | vEntryResult => exact execVEntryResult_goes ..
  | streamCommandBegin => exact execStreamCommandBegin_goes ..
  | streamGranuleDone => exact execStreamGranuleDone_goes ..
  | matrixEntryExecute => exact execMatrixEntryExecute_goes ..
  | mgoLaunch => exact execMgoLaunch_goes ..
  | matrixStep => exact execMatrixStep_goes ..
  | drainRowPerformed => exact execDrainRowPerformed_goes ..
  | collationCommandExecute => exact execCollationCommandExecute_goes ..
  | clxchPair => exact execClxchPair_goes ..
  | clxchTransferDone => exact execClxchTransferDone_goes ..
  | clxchNoPartner => exact execClxchNoPartner_goes ..
  | clxchExchangeFailed => exact execClxchExchangeFailed_goes ..
  | galleyInstall => exact execGalleyInstall_goes ..
  | galleyPlayCheck => exact execGalleyPlayCheck_goes ..
  | galleyFeed => exact execGalleyFeed_goes ..
  | galleyWaitRelease => exact execGalleyWaitRelease_goes ..
  | galleyPlayComplete => exact execGalleyPlayComplete_goes ..
  | storeBufferAgeDrain => exact execStoreBufferAgeDrain_goes ..
  | storeBufferDepart => exact execStoreBufferDepart_goes ..
  | storeRegistered => exact execStoreRegistered_goes ..
  | scTicket => exact execScTicket_goes ..
  | homeOperation => exact execHomeOperation_goes ..
  | atomicReply => exact execAtomicReply_goes ..
  | fenceComplete => exact execFenceComplete_goes ..
  | barrierArrival => exact execBarrierArrival_goes ..
  | barrierWake => exact execBarrierWake_goes ..
  | waitaWakeWrite => exact execWaitaWakeWrite_goes ..
  | waitaMonitorLost => exact execWaitaMonitorLost_goes ..
  | waitaTimeout => exact execWaitaTimeout_goes ..
  | waitaSpuriousWake => exact execWaitaSpuriousWake_goes ..
  | remoteRequestArrive => exact execRemoteRequestArrive_goes ..
  | invalidationReceive => exact execInvalidationReceive_goes ..
  | invalidationAckReceive => exact execInvalidationAckReceive_goes ..
  | slotReturn => exact execSlotReturn_goes ..
  | retryBackoffExpiry => exact execRetryBackoffExpiry_goes ..
  | remoteReplyReceive => exact execRemoteReplyReceive_goes ..
  | transactionTimeout => exact execTransactionTimeout_goes ..
  | tagFreeRelease => exact execTagFreeRelease_goes ..
  | poisonConsume => exact execPoisonConsume_goes ..
  | purgeComplete => exact execPurgeComplete_goes ..
  | tileMigrateDone => exact execTileMigrateDone_goes ..
  | cardSelect => exact execCardSelect_goes ..
  | partyBind => exact execPartyBind_goes ..
  | partyStart => exact execPartyStart_goes ..
  | contextSwitch => exact execContextSwitch_goes ..
  | setSaveComplete => exact execSetSaveComplete_goes ..
  | jobRetire => exact execJobRetire_goes ..
  | attestationReport => exact execAttestationReport_goes ..
  | registerWriteOther => exact execRegisterWriteOther_goes ..
  | galleyEntryExecute => exact execGalleyEntryExecute_goes ..
  | jobPortEntryExecute => exact execJobPortEntryExecute_goes ..

theorem duty_goes (s : State) (d : Duty) : Goes (s.duty d) := by
  cases d with
  | partyStart => exact execPartyStart_goes ..
  | contextSwitch => exact execContextSwitch_goes ..
  | setSave => exact execSetSaveComplete_goes ..
  | timeSlice => exact goes_ite (goes_next _) (goes_next _)
  | retire => exact execJobRetire_goes ..
  | power => exact goes_ite (goes_next _) (goes_next _)
  | report => exact execAttestationReport_goes s none
  | galleyEntry => exact execGalleyEntryExecute_goes ..
  | jobPort => exact execJobPortEntryExecute_goes ..
  | registerRead => exact execRegisterRead_goes ..

theorem runWord_goes (s : State) (u : LaneUnit) (w : W32) : Goes (s.runWord u w) := by
  unfold State.runWord
  split
  · exact exec_goes ..
  · exact goes_next _

section
variable (s : State) (g : Nat) (c : CtxId)

theorem issueNext_goes : Goes (s.issueNext g c) := by
  unfold State.issueNext
  split
  · exact goes_next _
  · split
    · exact goes_next _
    · exact runWord_goes ..

theorem issueRun_goes : Goes (s.issueRun g c) := by
  obtain ⟨t, ht⟩ := issueNext_goes s g c
  rw [State.issueRun, ht]
  exact goes_next _

theorem reissue_goes : Goes (s.reissue g c) := by
  obtain ⟨t, ht⟩ := issueRun_goes (s.retry g c) g c
  rw [State.reissue, ht]
  exact goes_next _

theorem issue_goes : Goes (s.issue g c) := by
  unfold State.issue
  split
  · exact goes_ite (issueRun_goes ..) (goes_next _)
  · exact goes_ite (reissue_goes ..) (goes_next _)
  · exact exec_goes ..
  · exact goes_next _

end

theorem perform_goes (s : State) (a : Action) : Goes (s.perform a) := by
  cases a with
  | issue => exact issue_goes ..
  | event => exact goes_ite (exec_goes ..) (goes_next _)
  | duty => exact duty_goes ..
  | evictL1 | evictRo | evictFetch | evictL2 | msixMask => exact goes_next _

/-- Settles O8: every meaning and every duty ends in a next state, and a step performs one of them. -/
theorem nothingStops : Obligations.NothingStops := by
  unfold Obligations.NothingStops
  refine ⟨exec_goes, fun s => ?_⟩
  unfold State.GoesOn step
  split
  · exact perform_goes ..
  · exact perform_goes ..

end Sys2Proof.Machine
end

section
namespace Sys2Proof.Machine

/-! ### The package after a reset (R62, R64, R83 to R87, R109, R339) -/

theorem nget_replicate {α : Type} {k : Nat} (a : α) (i : Fin k) : nget (Vector.replicate k a) i = a := by
  simp [nget]

theorem vget_replicate {α : Type} {k n : Nat} (a : α) (i : BitVec n) (h : 2 ^ n ≤ k) : vget (Vector.replicate k a) i h = a := by
  simp [vget]

/-- After a reset no core is listed: each holds two empty sets. -/
theorem reset_aset (g : Nat) : State.reset.aset g = {} := rfl

theorem reset_ctx (g : Nat) (c : CtxId) : State.reset.ctx g c = {} := by
  rw [State.ctx, reset_aset]
  exact nget_replicate ..

theorem reset_die (d : Nat) : State.reset.die d = {} := vget_replicate ..

theorem reset_pin (d : Nat) (e : BitVec 20) : State.reset.pin d e = {} := by
  rw [State.pin, reset_die]
  rfl

/-- Settles O6: every part of the package is at its default, by the lemmas about what reset leaves of each. -/
theorem resetValues : Obligations.ResetValues := by
  unfold Obligations.ResetValues
  refine ⟨fun g c => ?_, reset_pin, fun g h => ?_, fun d => ?_, rfl, rfl, rfl, rfl⟩
  · rw [reset_ctx]
    decide
  · rw [reset_aset]
    exact congrArg Ring.unset (vget_replicate ..)
  · rw [reset_die]

end Sys2Proof.Machine
end

section
namespace Sys2Proof.Machine

/-! ### Lanes of a v register (R49, R157) -/

theorem packLanes_fold_lt (w : Nat) (l : List Nat) :
    l.foldr (fun n acc => n % 2 ^ w + 2 ^ w * acc) 0 < 2 ^ (w * l.length) := by
  induction l with
  | nil => simp
  | cons n l ih =>
    have low : n % 2 ^ w < 2 ^ w := Nat.mod_lt _ (by positivity)
    have above := Nat.mul_le_mul_left (2 ^ w) (Nat.succ_le_of_lt ih)
    rw [← Nat.pow_add, Nat.add_comm w, ← Nat.mul_add_one, Nat.mul_add_one] at above
    rw [List.foldr_cons, List.length_cons]
    omega

theorem packLanes_fold_lane (w : Nat) (l : List Nat) (i : Nat) :
    l.foldr (fun n acc => n % 2 ^ w + 2 ^ w * acc) 0 >>> (w * i) % 2 ^ w = l.getD i 0 % 2 ^ w := by
  induction l generalizing i with
  | nil => simp
  | cons n l ih =>
    cases i with
    | zero => simp [Nat.add_mul_mod_self_left]
    | succ i =>
      have tail : (n % 2 ^ w + 2 ^ w * l.foldr (fun n acc => n % 2 ^ w + 2 ^ w * acc) 0) / 2 ^ w =
          l.foldr (fun n acc => n % 2 ^ w + 2 ^ w * acc) 0 := by
        rw [Nat.add_mul_div_left _ _ (by positivity), Nat.div_eq_of_lt (Nat.mod_lt _ (by positivity)), Nat.zero_add]
      rw [List.foldr_cons, Nat.mul_succ, Nat.add_comm (w * i), Nat.shiftRight_add, Nat.shiftRight_eq_div_pow _ w, tail, ih]
      simp

/-- The lane of a register that was packed of lanes which fit it. -/
theorem lane_packLanes {w : Nat} {l : List Nat} (h : w * l.length ≤ 2048) (i : Nat) :
    lane (packLanes w l) w i = l.getD i 0 % 2 ^ w := by
  have fits := (packLanes_fold_lt w l).trans_le (Nat.pow_le_pow_right (by decide) h)
  rw [lane, packLanes, BitVec.toNat_ofNat, Nat.mod_eq_of_lt fits, packLanes_fold_lane]

theorem elemWidth_mul_elemCount (ty : ElemTy) : elemWidth ty * elemCount ty = 2048 := by cases ty <;> rfl

theorem elem_rawLane (v : BitVec 2048) (ty : ElemTy) (i : Nat) : written ty (rawLane v ty i) = elem v ty i := by
  cases ty <;> simp [written, rawLane, elem, elemWidth, lane]

theorem written_lane (ty : ElemTy) (n : Nat) : written ty (n % 2 ^ elemWidth ty) = written ty n := by
  cases ty <;> simp [written, elemWidth]

theorem written_written (ty : ElemTy) (n : Nat) : written ty (written ty n) = written ty n := by
  cases ty <;> simp [written]

/-- Element i of a packed register is the part of its number that the type writes (R55, R157). -/
theorem elem_packLanes {ty : ElemTy} {l : List Nat} (h : l.length = elemCount ty) (i : Nat) :
    elem (packLanes (elemWidth ty) l) ty i = written ty (l.getD i 0) := by
  have fits : elemWidth ty * l.length ≤ 2048 := by rw [h, elemWidth_mul_elemCount]
  rw [← elem_rawLane, rawLane, lane_packLanes fits, written_lane]

/-! ### What an elementwise entry leaves in its register (R61, R159) -/

theorem orFlags_succ (n : Nat) (f : Nat → FFlags) : orFlags (n + 1) f = orFlags n f ||| f n := by
  simp [orFlags, List.range_succ]

theorem drawn_succ (x : W32) (n : Nat) : drawn x (n + 1) = xorShift (drawn x n) := rfl

section
variable (old : BitVec 2048) (marks : BitVec 256) (ty : ElemTy) (act : BitVec 256) (draws : Nat → Bool) (seed : W32)
  (f : Nat → Nat → ElemOut)

/-- The active elements below i that draw. -/
def drawsBelow (i : Nat) : Nat := (List.range i).countP fun j => act.getLsbD j && draws j

/-- The element that an entry computes at i, from the generator as its draw leaves it. -/
def outAt (i : Nat) : ElemOut := f (drawn seed (drawsBelow act draws (i + 1))).toNat i

/-- The lane that an entry leaves at i. -/
def laneAt (i : Nat) : Nat :=
  if act.getLsbD i then written ty (outAt act draws seed f i).n else rawLane old ty i

theorem drawsBelow_succ (i : Nat) :
    drawsBelow act draws (i + 1) = drawsBelow act draws i + if act.getLsbD i && draws i then 1 else 0 := by
  simp [drawsBelow, List.range_succ, List.countP_append, List.countP_cons]

/-- The lanes, the flags and the generator after the first k elements of an entry. -/
theorem mapElems_upTo (k : Nat) :
    let r := (List.range k).foldl (elemStep old marks ty act draws f) { marks := marks, srst := seed }
    r.lanes.reverse = (List.range k).map (laneAt old ty act draws seed f) ∧
      r.fl = orFlags k (fun i => if act.getLsbD i then (outAt act draws seed f i).fl else 0) ∧
      r.srst = drawn seed (drawsBelow act draws k) := by
  induction k with
  | zero => exact ⟨rfl, rfl, rfl⟩
  | succ k ih =>
    dsimp only at ih ⊢
    rw [List.range_succ, List.foldl_append, List.foldl_cons, List.foldl_nil]
    generalize (List.range k).foldl (elemStep old marks ty act draws f) { marks := marks, srst := seed } = r at ih ⊢
    obtain ⟨lanes, flags, state⟩ := ih
    by_cases active : act.getLsbD k = true
    · by_cases draw : draws k = true <;>
        simp [elemStep, laneAt, outAt, active, draw, lanes, flags, state, drawsBelow_succ, orFlags_succ, drawn_succ]
    · simp [elemStep, laneAt, active, lanes, flags, state, drawsBelow_succ, orFlags_succ]

end

/-- The active elements that draw when only the first elements do (R61). -/
theorem drawsBelow_eq {act : BitVec 256} {draws : Nat → Bool} {n drawing : Nat}
    (hd : ∀ i, i < n → draws i = decide (i < drawing)) {i : Nat} (hi : i ≤ n) :
    drawsBelow act draws i = (List.range (min i drawing)).countP act.getLsbD := by
  induction i with
  | zero => simp [drawsBelow]
  | succ i ih =>
    rw [drawsBelow_succ, ih (Nat.le_of_succ_le hi), hd i hi]
    by_cases below : i < drawing
    · rw [Nat.min_eq_left below.le, Nat.min_eq_left (Nat.succ_le_of_lt below), List.range_succ]
      simp [List.countP_append, List.countP_cons, below]
    · rw [Nat.min_eq_right (Nat.le_of_not_lt below), Nat.min_eq_right (by omega)]
      simp [below]

/-! ### The vector engine executes a register entry (R161, R162) -/

theorem exec_vEntryExecute (g : Nat) (s : State) : exec (.vEntryExecute g) s = execVEntryExecute g s := rfl

section
variable {s : State} {g : Nat} {e : Entry} {rest : List Entry}

theorem aset_consume (s : State) (g h : Nat) (t : CtxSet) (off : W64) : (s.consume g t off).aset h = s.aset h := rfl
theorem mem_consume (s : State) (g : Nat) (t : CtxSet) (off : W64) : (s.consume g t off).mem = s.mem := rfl

/-- A register entry at the head of the queue executes: it leaves the queue, its result is to come, the registers, masks and
contexts are as the entry's meaning leaves them, and memory does not change (R161, R162). -/
theorem vEntryExecute_register {r : SetOut} (hq : (s.aset g).vq = e :: rest) (hl : (s.aset g).leaving = false)
    (hr : (s.aset g).regEntry e = some r) (hv : r.t.vdone = (s.aset g).vdone) :
    ∃ t, exec (.vEntryExecute g) s = .next t ∧ VectorDone s t g e rest r.fl ∧ (t.aset g).v = r.t.v ∧ (t.aset g).m = r.t.m ∧
      (t.aset g).ctx = r.t.ctx := by
  have same : ∀ u : State, OnlyDies u (e.tokens.foldl (fun s t => s.released g t) u) :=
    fun u => OnlyDies.foldl (fun s t => onlyDies_released s g t) _ u
  have eats : (if r.eat then (s.updAct g fun _ => r.t).consume g (s.aset g) 0 else s.updAct g fun _ => r.t).aset g = r.t := by
    split
    · rw [aset_consume, aset_updAct]
    · rw [aset_updAct]
  have keeps : (if r.eat then (s.updAct g fun _ => r.t).consume g (s.aset g) 0 else s.updAct g fun _ => r.t).mem = s.mem := by
    split
    · rw [mem_consume, updAct_mem]
    · rw [updAct_mem]
  rw [exec_vEntryExecute, execVEntryExecute]
  simp only [hq, hl, State.vExec, hr, Bool.false_and, Bool.false_eq_true, if_false]
  refine ⟨_, rfl, ⟨?_, ?_, fun a => ?_⟩, ?_, ?_, ?_⟩
  · rw [(same _).aset, aset_updAct, aset_updAct]
  · rw [(same _).aset, aset_updAct, aset_updAct, eats]
    exact congrArg (· ++ _) hv
  · rw [(same _).mem, updAct_mem, updAct_mem, keeps]
  all_goals
    rw [(same _).aset, aset_updAct, aset_updAct, eats]
    rfl

section
variable {ty : ElemTy} {mk : MReg} {vd : VReg}

/-- What an elementwise entry makes of its set, from the lanes, the flags and the generator that its elements leave. -/
theorem elementwise_eq (t : CtxSet) (draws : Nat → Bool) (f : Nat → Nat → ElemOut) :
    let act := t.mask mk
    let seed := (nget t.ctx e.who).srst
    let r := t.elementwise e ty mk vd draws f
    r.t.vdone = t.vdone ∧ r.t.m = t.m ∧
      r.t.v = vset t.v vd (packLanes (elemWidth ty) ((List.range (elemCount ty)).map (laneAt (vget t.v vd) ty act draws seed f))) ∧
      r.fl = orFlags (elemCount ty) (fun i => if act.getLsbD i then (outAt act draws seed f i).fl else 0) ∧
      (nget r.t.ctx e.who).srst = drawn seed (drawsBelow act draws (elemCount ty)) := by
  obtain ⟨lanes, flags, state⟩ :=
    mapElems_upTo (vget t.v vd) (vget t.vpois vd) ty (t.mask mk) draws (nget t.ctx e.who).srst f (elemCount ty)
  refine ⟨rfl, rfl, ?_, flags, ?_⟩
  · rw [← lanes]
    rfl
  · rw [← state]
    simp [CtxSet.elementwise, CtxSet.updCtx, CtxSet.setV, mapElems]

/-- An elementwise entry of which the first elements draw: what it leaves of its register, its flags and the generator
(R61, R62, R159, R162). -/
theorem elementwise_floatLanes {draws : Nat → Bool} {f : Nat → Nat → ElemOut} {drawing : Nat}
    (hq : (s.aset g).vq = e :: rest) (hl : (s.aset g).leaving = false)
    (hr : (s.aset g).regEntry e = some ((s.aset g).elementwise e ty mk vd draws f))
    (hn : drawing ≤ elemCount ty) (hd : ∀ i, i < elemCount ty → draws i = decide (i < drawing)) :
    ∃ t, exec (.vEntryExecute g) s = .next t ∧
      FloatLanes s t g e rest ty mk vd drawing fun d i r fl => r = written ty (f d i).n ∧ fl = (f d i).fl := by
  obtain ⟨vdone, m, v, fl, srst⟩ := elementwise_eq (e := e) (ty := ty) (mk := mk) (vd := vd) (s.aset g) draws f
  obtain ⟨t, runs, done, regs, masks, ctxs⟩ := vEntryExecute_register hq hl hr vdone
  rw [v] at regs
  rw [fl] at done
  refine ⟨t, runs, _, done, fun i hi => ?_, fun r hne => ?_, masks.trans m, ?_⟩
  · rw [regs, vget_vset_same, elem_packLanes (by simp)]
    by_cases active : ((s.aset g).mask mk).getLsbD i = true
    · simp [hi, active, laneAt, written_written, outAt, drawsBelow_eq hd hi, State.ctx]
    · simp [hi, active, laneAt, elem_rawLane]
  · rw [regs, vget_vset_ne _ _ _ _ hne]
  · have count := drawsBelow_eq (act := (s.aset g).mask mk) hd le_rfl
    rw [Nat.min_eq_right hn] at count
    simp [State.ctx, ctxs, srst, count]

theorem FloatLanes.mono {t : State} {drawing : Nat} {rel rel' : Nat → Nat → Nat → FFlags → Prop}
    (h : FloatLanes s t g e rest ty mk vd drawing rel) (hrel : ∀ d i r fl, i < elemCount ty → rel d i r fl → rel' d i r fl) : FloatLanes s t g e rest ty mk vd drawing rel' := by
  obtain ⟨fl, done, lanes, others, masks, state⟩ := h
  refine ⟨fl, done, fun i hi => ?_, others, masks, state⟩
  have := lanes i hi
  split
  · rename_i active
    rw [if_pos active] at this
    exact hrel _ _ _ _ hi this
  · rename_i inactive
    rwa [if_neg inactive] at this

/-- An elementwise entry that takes no draw and sets no flag. -/
theorem elementwise_lanesDone {f : Nat → Nat → ElemOut} {value : Nat → Nat}
    (hq : (s.aset g).vq = e :: rest) (hl : (s.aset g).leaving = false)
    (hr : (s.aset g).regEntry e = some ((s.aset g).elementwise e ty mk vd (fun _ => false) f))
    (hf : ∀ d i, i < elemCount ty → written ty (f d i).n = value i ∧ (f d i).fl = 0) :
    ∃ t, exec (.vEntryExecute g) s = .next t ∧ LanesDone s t g e rest ty mk vd value := by
  obtain ⟨t, runs, fl, done, lanes, others, masks, -⟩ :=
    elementwise_floatLanes (drawing := 0) hq hl hr (Nat.zero_le _) (by simp)
  have quiet : ∀ n, n ≤ elemCount ty → orFlags n fl = 0 := by
    intro n hn
    induction n with
    | zero => rfl
    | succ n ih =>
      have := lanes n hn
      rw [orFlags_succ, ih (Nat.le_of_succ_le hn)]
      split at this
      · rw [this.2, (hf _ _ hn).2]; rfl
      · rw [this.2]; rfl
  refine ⟨t, runs, quiet _ le_rfl ▸ done, fun i hi => ?_, others, masks⟩
  have := lanes i hi
  split
  · rename_i active
    rw [if_pos active] at this
    rw [this.1, (hf _ _ hi).1]
  · rename_i inactive
    rw [if_neg inactive] at this
    exact this.1

end
end

end Sys2Proof.Machine
end

section
namespace Sys2Proof.Machine

/-! ### Integer and logical operations of elements (R50, R167, R169) -/

theorem lane_lt (v : BitVec 2048) (w i : Nat) : lane v w i < 2 ^ w := Nat.mod_lt _ (by positivity)

theorem elem_lt (v : BitVec 2048) (ty : ElemTy) (i : Nat) : elem v ty i < 2 ^ elemWidth ty := by
  cases ty
  case l6 => exact (Nat.mod_lt _ (by decide)).trans (by decide)
  all_goals exact lane_lt ..

theorem elemOperand_lt (t : CtxSet) (ty : ElemTy) (s2 : VSrc) (x : W64) (i : Nat) :
    t.elemOperand ty s2 x i < 2 ^ elemWidth ty := by
  cases s2 with
  | vv r => exact elem_lt ..
  | vx r => exact Nat.mod_lt _ (by positivity)
  | vi im => exact BitVec.isLt _

theorem written_of_lt {ty : ElemTy} (ht : ty ≠ .l6) {n : Nat} (hn : n < 2 ^ elemWidth ty) : written ty n = n := by
  cases ty
  case l6 => exact absurd rfl ht
  all_goals exact Nat.mod_eq_of_lt hn

theorem elemWidth_pos (ty : ElemTy) : 0 < elemWidth ty := by cases ty <;> decide

theorem ite_lt {p : Prop} [Decidable p] {a b n : Nat} (ha : a < n) (hb : b < n) : (if p then a else b) < n := by
  split <;> assumption

theorem wrapInt_lt (ty : ElemTy) (z : Int) : wrapInt ty z < 2 ^ elemWidth ty := by
  have pos : (0 : Int) < (2 ^ elemWidth ty : Nat) := by positivity
  have low := Int.emod_nonneg z pos.ne'
  have high := Int.emod_lt_of_pos z pos
  unfold wrapInt
  omega

/-- The two readings of a two's complement number agree. -/
theorem toSigned_eq_toInt {w n : Nat} (hw : 0 < w) (hn : n < 2 ^ w) : toSigned w n = (BitVec.ofNat w n).toInt := by
  obtain ⟨k, rfl⟩ := Nat.exists_eq_succ_of_ne_zero hw.ne'
  rw [toSigned, BitVec.toInt_eq_toNat_cond, BitVec.toNat_ofNat, Nat.mod_eq_of_lt hn, Nat.succ_sub_one]
  push_cast
  simp only [Nat.pow_succ, Nat.mul_comm _ 2, Nat.mul_lt_mul_left (by decide : 0 < 2)]

theorem signedElem_eq_toInt {ty : ElemTy} {n : Nat} (hn : n < 2 ^ elemWidth ty) :
    signedElem ty n = (BitVec.ofNat (elemWidth ty) n).toInt := toSigned_eq_toInt (elemWidth_pos ty) hn

theorem toInt_ofNat_inj {w m n : Nat} (hm : m < 2 ^ w) (hn : n < 2 ^ w)
    (h : (BitVec.ofNat w m).toInt = (BitVec.ofNat w n).toInt) : m = n := by
  simpa [Nat.mod_eq_of_lt, hm, hn] using congrArg BitVec.toNat (BitVec.eq_of_toInt_eq h)

theorem xor_two_pow_of_lt {a k : Nat} (h : a < 2 ^ k) : a ^^^ 2 ^ k = a + 2 ^ k := by
  have low : (a ^^^ 2 ^ k) % 2 ^ k = a := by simp [Nat.xor_mod_two_pow, Nat.mod_eq_of_lt h]
  have high : (a ^^^ 2 ^ k) / 2 ^ k = 1 := by simp [Nat.xor_div_two_pow, Nat.div_eq_of_lt h]
  have split := Nat.div_add_mod (a ^^^ 2 ^ k) (2 ^ k)
  rw [low, high] at split
  omega

/-- Inverting the top bit adds it or takes it away. -/
theorem xor_two_pow {a k : Nat} (h : a < 2 ^ (k + 1)) : a ^^^ 2 ^ k = if a < 2 ^ k then a + 2 ^ k else a - 2 ^ k := by
  split
  · exact xor_two_pow_of_lt ‹_›
  · have rest : a - 2 ^ k < 2 ^ k := by omega
    have back : a = (a - 2 ^ k) ^^^ 2 ^ k := by rw [xor_two_pow_of_lt rest]; omega
    rw [back, Nat.xor_xor_cancel_right, ← back]

theorem isInt_iff {ty : ElemTy} : ty.isInt = true ↔ ty = .i8 ∨ ty = .i32 := by cases ty <;> decide

theorem isInt_eq_false {ty : ElemTy} (h8 : ty ≠ .i8) (h32 : ty ≠ .i32) : ty.isInt = false := by
  cases ty
  case i8 => exact absurd rfl h8
  case i32 => exact absurd rfl h32
  all_goals rfl

theorem elemAbs_float {ty : ElemTy} (hi : ty.isInt = false) (a : Nat) : elemAbs ty a = a % 2 ^ (elemWidth ty - 1) := by
  cases ty
  case i8 | i32 => exact absurd hi (by decide)
  all_goals rfl

theorem elemNeg_float {ty : ElemTy} (hi : ty.isInt = false) {a : Nat} (ha : a < 2 ^ elemWidth ty) :
    elemNeg ty a = a ^^^ 2 ^ (elemWidth ty - 1) := by
  cases ty
  case i8 | i32 => exact absurd hi (by decide)
  all_goals exact (xor_two_pow ha).symm

/-- A right shift by the width or more leaves the sign bits (R169). -/
theorem div_two_pow_min {w c : Nat} {z : Int} (hw : 0 < w) (low : -2 ^ (w - 1) ≤ z) (high : z < 2 ^ (w - 1)) :
    z / (2 ^ min c w : Nat) = if w ≤ c then (if z < 0 then -1 else 0) else z / (2 ^ c : Nat) := by
  obtain ⟨k, rfl⟩ := Nat.exists_eq_succ_of_ne_zero hw.ne'
  split
  · rename_i all
    rw [Nat.min_eq_right all]
    have half : (2 : Int) ^ k < (2 ^ k.succ : Nat) := by exact_mod_cast Nat.pow_lt_pow_right (by decide) (Nat.lt_succ_self k)
    rw [Nat.succ_sub_one] at low high
    split
    · exact Int.ediv_eq_neg_one_of_neg_of_le (by assumption) (by omega)
    · exact Int.ediv_eq_zero_of_lt (by omega) (by omega)
  · rw [Nat.min_eq_left (by omega)]

section
variable {s : State} {g : Nat} {e : Entry} {rest : List Entry} {ty : ElemTy} {mk : MReg} {s2 : VSrc} {vs1 vd : VReg}
  (hq : (s.aset g).vq = e :: rest) (hl : (s.aset g).leaving = false) (ht : ty ≠ .l6)
include hq hl ht

/-- An entry of two operands whose result is given by a function on element bits. -/
theorem binary_lanesDone {f : Nat → Nat → Nat → Nat × FFlags} {value : Nat → Nat → Nat}
    (hr : (s.aset g).regEntry e = some ((s.aset g).binary e ty mk s2 vs1 vd false f))
    (hf : ∀ d a b, a < 2 ^ elemWidth ty → b < 2 ^ elemWidth ty →
      f d a b = (value a b, 0) ∧ value a b < 2 ^ elemWidth ty) :
    ∃ t, exec (.vEntryExecute g) s = .next t ∧ LanesDone s t g e rest ty mk vd
      fun i => value (elem (vget (s.aset g).v vs1) ty i) ((s.aset g).elemOperand ty s2 e.x0 i) := by
  refine elementwise_lanesDone hq hl hr fun d i _ => ?_
  obtain ⟨eq, lt⟩ := hf d _ _ (elem_lt (vget (s.aset g).v vs1) ty i) (elemOperand_lt (s.aset g) ty s2 e.x0 i)
  exact ⟨by rw [eq]; exact written_of_lt ht lt, by rw [eq]⟩

/-- An entry of one operand whose result is given by a function on element bits. -/
theorem unary_lanesDone {f : Nat → Nat × FFlags} {value : Nat → Nat}
    (hr : (s.aset g).regEntry e = some ((s.aset g).unary e ty mk vs1 vd f))
    (hf : ∀ a, a < 2 ^ elemWidth ty → f a = (value a, 0) ∧ value a < 2 ^ elemWidth ty) :
    ∃ t, exec (.vEntryExecute g) s = .next t ∧ LanesDone s t g e rest ty mk vd
      fun i => value (elem (vget (s.aset g).v vs1) ty i) := by
  refine elementwise_lanesDone hq hl hr fun d i _ => ?_
  obtain ⟨eq, lt⟩ := hf _ (elem_lt (vget (s.aset g).v vs1) ty i)
  exact ⟨by rw [eq]; exact written_of_lt ht lt, by rw [eq]⟩

/-- A shift entry, whose second operand is a count (R169). -/
theorem shift_lanesDone {o : BitOp} {value : Nat → Nat → Nat}
    (hr : (s.aset g).regEntry e = some ((s.aset g).shift e ty mk s2 vs1 vd o))
    (hf : ∀ a c, a < 2 ^ elemWidth ty → elemBits o ty a c = value a c ∧ value a c < 2 ^ elemWidth ty) :
    ∃ t, exec (.vEntryExecute g) s = .next t ∧ LanesDone s t g e rest ty mk vd
      fun i => value (elem (vget (s.aset g).v vs1) ty i) ((s.aset g).countOperand ty s2 e.x0 i) := by
  refine elementwise_lanesDone hq hl hr fun d i _ => ⟨?_, rfl⟩
  obtain ⟨eq, lt⟩ := hf _ ((s.aset g).countOperand ty s2 e.x0 i) (elem_lt (vget (s.aset g).v vs1) ty i)
  exact (congrArg _ eq).trans (written_of_lt ht lt)

end

/-! ### What the operations of integer elements are, in integers -/

section
variable {ty : ElemTy} (ht : ty.isInt = true) (rm : RMode) (d : Nat) {a b : Nat} (ha : a < 2 ^ elemWidth ty)
  (hb : b < 2 ^ elemWidth ty)
include ht

theorem elemMinMax_int (max : Bool) :
    elemMinMax max ty a b = (if decide (signedElem ty a < signedElem ty b) == max then b else a, 0) := by
  rcases isInt_iff.1 ht with rfl | rfl <;> rfl

include ha

theorem elemAbs_int : elemAbs ty a = wrapInt ty (BitVec.ofNat (elemWidth ty) a).toInt.natAbs := by
  rw [← signedElem_eq_toInt ha]
  rcases isInt_iff.1 ht with rfl | rfl <;> rfl

theorem elemNeg_int : elemNeg ty a = wrapInt ty (-(BitVec.ofNat (elemWidth ty) a).toInt) := by
  rw [← signedElem_eq_toInt ha]
  rcases isInt_iff.1 ht with rfl | rfl <;> rfl

include hb

theorem elemAdd_int (neg : Bool) : elemAdd neg ty rm d a b =
    (wrapInt ty (if neg then (BitVec.ofNat (elemWidth ty) a).toInt - (BitVec.ofNat (elemWidth ty) b).toInt
      else (BitVec.ofNat (elemWidth ty) a).toInt + (BitVec.ofNat (elemWidth ty) b).toInt), 0) := by
  rw [← signedElem_eq_toInt ha, ← signedElem_eq_toInt hb]
  rcases isInt_iff.1 ht with rfl | rfl <;> rfl

theorem elemMul_int : elemMul ty rm d a b =
    (wrapInt ty ((BitVec.ofNat (elemWidth ty) a).toInt * (BitVec.ofNat (elemWidth ty) b).toInt), 0) := by
  rw [← signedElem_eq_toInt ha, ← signedElem_eq_toInt hb]
  rcases isInt_iff.1 ht with rfl | rfl <;> rfl

theorem elemMin_int : elemMinMax false ty a b =
    (if (BitVec.ofNat (elemWidth ty) a).toInt ≤ (BitVec.ofNat (elemWidth ty) b).toInt then a else b, 0) := by
  rw [elemMinMax_int ht, signedElem_eq_toInt ha, signedElem_eq_toInt hb]
  rcases lt_trichotomy (BitVec.ofNat (elemWidth ty) a).toInt (BitVec.ofNat (elemWidth ty) b).toInt with lt | eq | gt
  · simp [lt, lt.le]
  · simp [toInt_ofNat_inj ha hb eq]
  · simp [gt.not_gt, gt.not_ge]

theorem elemMax_int : elemMinMax true ty a b =
    (if (BitVec.ofNat (elemWidth ty) b).toInt ≤ (BitVec.ofNat (elemWidth ty) a).toInt then a else b, 0) := by
  rw [elemMinMax_int ht, signedElem_eq_toInt ha, signedElem_eq_toInt hb]
  by_cases lt : (BitVec.ofNat (elemWidth ty) a).toInt < (BitVec.ofNat (elemWidth ty) b).toInt
  · simp [lt, lt.not_ge]
  · simp [lt, not_lt.1 lt]

end

theorem elemBits_sra {ty : ElemTy} {a : Nat} (c : Nat) (ha : a < 2 ^ elemWidth ty) :
    elemBits .sra ty a c = wrapInt ty (if elemWidth ty ≤ c then (if (BitVec.ofNat (elemWidth ty) a).toInt < 0 then -1 else 0)
      else (BitVec.ofNat (elemWidth ty) a).toInt / (2 ^ c : Nat)) := by
  have low : -2 ^ (elemWidth ty - 1) ≤ (BitVec.ofNat (elemWidth ty) a).toInt := BitVec.le_toInt _
  have high : (BitVec.ofNat (elemWidth ty) a).toInt < 2 ^ (elemWidth ty - 1) := BitVec.toInt_lt
  rw [← div_two_pow_min (elemWidth_pos ty) low high, ← signedElem_eq_toInt ha]
  rfl

/-! ### The register entries of the vector engine, as what each does to its set -/

section
variable {t : CtxSet} {e : Entry} {ty : ElemTy} {mk : MReg} {s2 : VSrc} {vs1 vd : VReg}

theorem regEntry_vadd (h : e.instr = .vadd ty mk s2 vs1 vd) : t.regEntry e =
    some (t.binary e ty mk s2 vs1 vd (modeOf e.rm == .sr && ty.isFloat) (elemAdd false ty (modeOf e.rm))) := by
  rw [CtxSet.regEntry, h]
theorem regEntry_vsub (h : e.instr = .vsub ty mk s2 vs1 vd) : t.regEntry e =
    some (t.binary e ty mk s2 vs1 vd (modeOf e.rm == .sr && ty.isFloat) (elemAdd true ty (modeOf e.rm))) := by
  rw [CtxSet.regEntry, h]
theorem regEntry_vmul (h : e.instr = .vmul ty mk s2 vs1 vd) : t.regEntry e =
    some (t.binary e ty mk s2 vs1 vd (modeOf e.rm == .sr && ty.isFloat) (elemMul ty (modeOf e.rm))) := by
  rw [CtxSet.regEntry, h]
theorem regEntry_vmin (h : e.instr = .vmin ty mk s2 vs1 vd) : t.regEntry e =
    some (t.binary e ty mk s2 vs1 vd false fun _ a b => elemMinMax false ty a b) := by
  rw [CtxSet.regEntry, h]
theorem regEntry_vmax (h : e.instr = .vmax ty mk s2 vs1 vd) : t.regEntry e =
    some (t.binary e ty mk s2 vs1 vd false fun _ a b => elemMinMax true ty a b) := by
  rw [CtxSet.regEntry, h]
theorem regEntry_vabs (h : e.instr = .vabs ty mk vs1 vd) : t.regEntry e =
    some (t.unary e ty mk vs1 vd fun a => (elemAbs ty a, 0)) := by
  rw [CtxSet.regEntry, h]
theorem regEntry_vneg (h : e.instr = .vneg ty mk vs1 vd) : t.regEntry e =
    some (t.unary e ty mk vs1 vd fun a => (elemNeg ty a, 0)) := by
  rw [CtxSet.regEntry, h]
theorem regEntry_vshl (h : e.instr = .vshl ty mk s2 vs1 vd) : t.regEntry e = some (t.shift e ty mk s2 vs1 vd .shl) := by
  rw [CtxSet.regEntry, h]
theorem regEntry_vshr (h : e.instr = .vshr ty mk s2 vs1 vd) : t.regEntry e = some (t.shift e ty mk s2 vs1 vd .shr) := by
  rw [CtxSet.regEntry, h]
theorem regEntry_vsra (h : e.instr = .vsra ty mk s2 vs1 vd) : t.regEntry e = some (t.shift e ty mk s2 vs1 vd .sra) := by
  rw [CtxSet.regEntry, h]
theorem regEntry_vand (h : e.instr = .vand ty mk s2 vs1 vd) : t.regEntry e =
    some (t.binary e ty mk s2 vs1 vd false fun _ a b => (elemBits .and ty a b, 0)) := by
  rw [CtxSet.regEntry, h]
theorem regEntry_vor (h : e.instr = .vor ty mk s2 vs1 vd) : t.regEntry e =
    some (t.binary e ty mk s2 vs1 vd false fun _ a b => (elemBits .or ty a b, 0)) := by
  rw [CtxSet.regEntry, h]
theorem regEntry_vxor (h : e.instr = .vxor ty mk s2 vs1 vd) : t.regEntry e =
    some (t.binary e ty mk s2 vs1 vd false fun _ a b => (elemBits .xor ty a b, 0)) := by
  rw [CtxSet.regEntry, h]
theorem regEntry_vnot (h : e.instr = .vnot ty mk vs1 vd) : t.regEntry e =
    some (t.unary e ty mk vs1 vd fun a => (elemBits .not ty a 0, 0)) := by
  rw [CtxSet.regEntry, h]

end

/-- An integer entry takes no draw, whatever its mode. -/
theorem draws_int (rm : RMode) {ty : ElemTy} (hi : ty.isInt = true) : (rm == .sr && ty.isFloat) = false := by
  rcases isInt_iff.1 hi with rfl | rfl <;> exact Bool.and_false _

/-- Settles O31: each instruction executes as an elementwise entry without flags or draws, and its operation on element bits is
the one in integers. -/
theorem vectorElements : Obligations.VectorElements := by
  unfold Obligations.VectorElements
  intro s g e rest ty mk s2 vs1 vd hq hl ht
  dsimp only
  let sg (n : Nat) : Int := (BitVec.ofNat (elemWidth ty) n).toInt
  refine ⟨fun hi => ?_, fun h8 h32 => ⟨fun h => ?_, fun h => ?_⟩, fun h => ?_, fun h => ?_, fun h => ?_, fun h => ?_⟩
  · have hi := isInt_iff.2 hi
    refine ⟨fun h => ?vadd, fun h => ?vsub, fun h => ?vmul, fun h => ?vmin, fun h => ?vmax, fun h => ?vabs, fun h => ?vneg,
      fun h => ?vshl, fun h => ?vshr, fun h => ?vsra⟩
    case vadd =>
      exact binary_lanesDone (value := fun a b => wrapInt ty (sg a + sg b)) hq hl ht (draws_int _ hi ▸ regEntry_vadd h)
        fun d a b ha hb => ⟨elemAdd_int hi _ d ha hb false, wrapInt_lt ..⟩
    case vsub =>
      exact binary_lanesDone (value := fun a b => wrapInt ty (sg a - sg b)) hq hl ht (draws_int _ hi ▸ regEntry_vsub h)
        fun d a b ha hb => ⟨elemAdd_int hi _ d ha hb true, wrapInt_lt ..⟩
    case vmul =>
      exact binary_lanesDone (value := fun a b => wrapInt ty (sg a * sg b)) hq hl ht (draws_int _ hi ▸ regEntry_vmul h)
        fun d a b ha hb => ⟨elemMul_int hi _ d ha hb, wrapInt_lt ..⟩
    case vmin =>
      exact binary_lanesDone (value := fun a b => if sg a ≤ sg b then a else b) hq hl ht (regEntry_vmin h)
        fun d a b ha hb => ⟨elemMin_int hi ha hb, ite_lt ha hb⟩
    case vmax =>
      exact binary_lanesDone (value := fun a b => if sg b ≤ sg a then a else b) hq hl ht (regEntry_vmax h)
        fun d a b ha hb => ⟨elemMax_int hi ha hb, ite_lt ha hb⟩
    case vabs =>
      exact unary_lanesDone (value := fun a => wrapInt ty (sg a).natAbs) hq hl ht (regEntry_vabs h)
        fun a ha => ⟨by rw [elemAbs_int hi ha], wrapInt_lt ..⟩
    case vneg =>
      exact unary_lanesDone (value := fun a => wrapInt ty (-sg a)) hq hl ht (regEntry_vneg h)
        fun a ha => ⟨by rw [elemNeg_int hi ha], wrapInt_lt ..⟩
    case vshl =>
      exact shift_lanesDone (value := fun a c => if elemWidth ty ≤ c then 0 else a * 2 ^ c % 2 ^ elemWidth ty) hq hl ht
        (regEntry_vshl h) fun a c ha => ⟨rfl, ite_lt (by positivity) (Nat.mod_lt _ (by positivity))⟩
    case vshr =>
      exact shift_lanesDone (value := fun a c => if elemWidth ty ≤ c then 0 else a / 2 ^ c) hq hl ht
        (regEntry_vshr h) fun a c ha => ⟨rfl, ite_lt (by positivity) ((Nat.div_le_self ..).trans_lt ha)⟩
    case vsra =>
      exact shift_lanesDone (value := fun a c =>
        wrapInt ty (if elemWidth ty ≤ c then (if sg a < 0 then -1 else 0) else sg a / (2 ^ c : Nat))) hq hl ht
        (regEntry_vsra h) fun a c ha => ⟨elemBits_sra c ha, wrapInt_lt ..⟩
  · exact unary_lanesDone (value := fun a => a % 2 ^ (elemWidth ty - 1)) hq hl ht (regEntry_vabs h)
      fun a ha => ⟨by rw [elemAbs_float (isInt_eq_false h8 h32)], (Nat.mod_le ..).trans_lt ha⟩
  · exact unary_lanesDone (value := fun a => a ^^^ 2 ^ (elemWidth ty - 1)) hq hl ht (regEntry_vneg h)
      fun a ha => ⟨by rw [elemNeg_float (isInt_eq_false h8 h32) ha], Nat.xor_lt_two_pow ha
        (Nat.pow_lt_pow_right (by decide) (Nat.sub_lt (elemWidth_pos ty) (by decide)))⟩
  · exact binary_lanesDone (value := fun a b => a &&& b) hq hl ht (regEntry_vand h)
      fun d a b ha hb => ⟨rfl, Nat.and_lt_two_pow _ hb⟩
  · exact binary_lanesDone (value := fun a b => a ||| b) hq hl ht (regEntry_vor h)
      fun d a b ha hb => ⟨rfl, Nat.or_lt_two_pow ha hb⟩
  · exact binary_lanesDone (value := fun a b => a ^^^ b) hq hl ht (regEntry_vxor h)
      fun d a b ha hb => ⟨rfl, Nat.xor_lt_two_pow ha hb⟩
  · exact unary_lanesDone (value := fun a => 2 ^ elemWidth ty - 1 - a) hq hl ht (regEntry_vnot h)
      fun a ha => ⟨rfl, by omega⟩

end Sys2Proof.Machine
end

section
namespace Sys2Proof.Machine

/-! ### Rounding at a quantum, in whole numbers (R60, R61) -/

/-- Whether a magnitude V is rounded up to the next multiple of Q. -/
def roundsUp (rm : RMode) (draw : Nat) (neg : Bool) (V Q : Nat) : Bool :=
  match rm with
  | .rne => decide (Q < 2 * (V % Q)) || (2 * (V % Q) == Q && V / Q % 2 == 1)
  | .rtz => false
  | .rup => !neg && V % Q != 0
  | .rdn => neg && V % Q != 0
  | .sr => decide (draw < V % Q * 2 ^ 32 / Q)

theorem roundsUp_scale (rm : RMode) (draw : Nat) (neg : Bool) (V Q : Nat) {k : Nat} (hk : 0 < k) :
    roundsUp rm draw neg (V * k) (Q * k) = roundsUp rm draw neg V Q := by
  have div : V * k / (Q * k) = V / Q := Nat.mul_div_mul_right _ _ hk
  have mod : V * k % (Q * k) = V % Q * k := Nat.mul_mod_mul_right ..
  have lt : (Q * k < 2 * (V % Q * k)) ↔ Q < 2 * (V % Q) := by rw [← Nat.mul_assoc, Nat.mul_lt_mul_right hk]
  have eq : (2 * (V % Q * k) = Q * k) ↔ 2 * (V % Q) = Q := by rw [← Nat.mul_assoc, Nat.mul_left_inj hk.ne']
  have part : V % Q * k * 2 ^ 32 / (Q * k) = V % Q * 2 ^ 32 / Q := by
    rw [Nat.mul_right_comm, Nat.mul_div_mul_right _ _ hk]
  have beq : (2 * (V % Q * k) == Q * k) = (2 * (V % Q) == Q) := by rw [Bool.eq_iff_iff]; simpa using eq
  have bne : (V % Q * k != 0) = (V % Q != 0) := by rw [Bool.eq_iff_iff]; simp [hk.ne']
  cases rm <;> simp only [roundsUp, mod, div, part, lt, beq, bne]

theorem roundsUp_of_dvd (rm : RMode) (draw : Nat) (neg : Bool) {V Q : Nat} (hQ : 0 < Q) (h : Q ∣ V) :
    roundsUp rm draw neg V Q = false := by
  have rem := Nat.mod_eq_zero_of_dvd h
  cases rm <;> simp [roundsUp, rem, hQ.ne]

/-- Rounding m * 2^e at the quantum 2^q is rounding in units of 2^w, for any w that both are multiples of. -/
theorem roundAt_eq {e q w : Int} (he : w ≤ e) (hq : w ≤ q) (rm : RMode) (draw : Nat) (neg : Bool) (m : Nat) :
    let V := m * 2 ^ (e - w).toNat
    let Q := 2 ^ (q - w).toNat
    roundAt rm draw neg m e q = (V / Q + (if roundsUp rm draw neg V Q then 1 else 0), V % Q != 0) := by
  intro V Q
  by_cases coarse : q ≤ e
  · have split : (e - w).toNat = (e - q).toNat + (q - w).toNat := by omega
    have hV : V = m * 2 ^ (e - q).toNat * Q := by rw [Nat.mul_assoc, ← Nat.pow_add, ← split]
    have dvd : Q ∣ V := hV ▸ Nat.dvd_mul_left ..
    have pos : 0 < Q := by positivity
    rw [roundsUp_of_dvd rm draw neg pos dvd, Nat.mod_eq_zero_of_dvd dvd, hV, Nat.mul_div_cancel _ pos]
    simp [roundAt, coarse]
  · have split : (q - w).toNat = (q - e).toNat + (e - w).toNat := by omega
    have hQ : Q = 2 ^ (q - e).toNat * 2 ^ (e - w).toNat := by rw [← Nat.pow_add, ← split]
    have pos : 0 < 2 ^ (e - w).toNat := by positivity
    have bne : (m % 2 ^ (q - e).toNat * 2 ^ (e - w).toNat != 0) = (m % 2 ^ (q - e).toNat != 0) := by
      rw [Bool.eq_iff_iff]; simp
    rw [hQ, roundsUp_scale _ _ _ _ _ pos, Nat.mul_div_mul_right _ _ pos, Nat.mul_mod_mul_right, bne]
    have add (c : Bool) (a : Nat) : (if c then a + 1 else a) = a + if c then 1 else 0 := by cases c <;> rfl
    rw [roundAt, if_neg coarse]
    exact Prod.ext (add (roundsUp rm draw neg m (2 ^ (q - e).toNat)) _) rfl

/-! ### Encodings as multiples of the unit (R51) -/

theorem magOf_of_lt {f : Fmt} {b : Nat} (h : b < 2 ^ f.mb) : magOf f b = b := if_pos h

theorem magOf_normal {f : Fmt} (d : Nat) {r : Nat} (low : 2 ^ f.mb ≤ r) (high : r < 2 ^ (f.mb + 1)) :
    magOf f (d * 2 ^ f.mb + r) = r * 2 ^ d := by
  have pos : 0 < 2 ^ f.mb := by positivity
  obtain ⟨m, rfl⟩ := Nat.exists_eq_add_of_le low
  have hm : m < 2 ^ f.mb := by rw [Nat.pow_succ] at high; omega
  have eq : d * 2 ^ f.mb + (2 ^ f.mb + m) = m + 2 ^ f.mb * (d + 1) := by ring
  have big : ¬ m + 2 ^ f.mb * (d + 1) < 2 ^ f.mb := by
    have := Nat.le_mul_of_pos_right (2 ^ f.mb) d.succ_pos
    omega
  rw [eq, magOf, if_neg big, Nat.add_mul_mod_self_left, Nat.mod_eq_of_lt hm, Nat.add_mul_div_left _ _ pos,
    Nat.div_eq_of_lt hm]
  simp

/-- A significand of up to one bit more than the fraction, d binades above the subnormal numbers. -/
theorem magOf_add {f : Fmt} {d r : Nat} (low : d = 0 ∨ 2 ^ f.mb ≤ r) (high : r ≤ 2 ^ (f.mb + 1)) :
    magOf f (d * 2 ^ f.mb + r) = r * 2 ^ d := by
  rcases Nat.lt_or_ge r (2 ^ f.mb) with small | normal
  · obtain rfl := low.resolve_right (Nat.not_le.2 small)
    rw [Nat.zero_mul, Nat.zero_add, magOf_of_lt small, Nat.pow_zero, Nat.mul_one]
  · rcases Nat.lt_or_eq_of_le high with lt | rfl
    · exact magOf_normal d normal lt
    · have eq : d * 2 ^ f.mb + 2 ^ (f.mb + 1) = (d + 1) * 2 ^ f.mb + 2 ^ f.mb := by ring
      rw [eq, magOf_normal (d + 1) le_rfl (Nat.pow_lt_pow_right (by decide) (Nat.lt_succ_self _))]
      ring

/-- What holds of each format: a fraction, an exponent field and a bias of at least one. -/
structure Fmt.Ok (f : Fmt) : Prop where
  mb : 1 ≤ f.mb
  eb : 1 ≤ f.eb
  bias : 1 ≤ f.bias

theorem elemFmt_ok (ty : ElemTy) : (elemFmt ty).Ok := by
  cases ty <;> exact ⟨by decide, by decide, by decide⟩

theorem Fmt.Ok.qmin {f : Fmt} (h : f.Ok) : f.qmin = -(unitExp f : Int) := by
  have := h.bias
  unfold Fmt.qmin unitExp
  omega

theorem infBits_eq (f : Fmt) : f.infBits = infCode f := by
  rw [Fmt.infBits, infCode, signUnit, Nat.sub_mul, Nat.one_mul, Nat.pow_add]

theorem maxBits_eq (f : Fmt) : f.maxBits = maxCode f := by
  unfold Fmt.maxBits maxCode
  rw [← infBits_eq]
  rfl

theorem sign_add (f : Fmt) (neg : Bool) (b : Nat) : f.sign neg + b = withSign f neg b := rfl

theorem nanBits_false_eq (f : Fmt) : f.nanBits false = nanCode f := by
  rw [Fmt.nanBits, nanCode, infBits_eq]
  simp [signUnit]

theorem nanBits_eq (f : Fmt) (neg : Bool) : f.nanBits neg = withSign f neg (nanCode f) := by
  rw [Fmt.nanBits, nanCode, infBits_eq]
  rfl

end Sys2Proof.Machine
end

section
namespace Sys2Proof.Machine

/-! ### The parts of a rounding (R60, R61, R64) -/

/-- Whether a rounding goes from the encoding b to b + 1. -/
def stepsUp (f : Fmt) (rm : RMode) (draw : Nat) (neg : Bool) (x : Nat → Ordering) (b : Nat) : Bool :=
  !(x (unitParts * magOf f b) == .eq) && match rm with
    | .rne => match x (unitParts / 2 * (magOf f b + magOf f (b + 1))) with
      | .lt => true
      | .eq => b % 2 == 1
      | .gt => false
    | .rtz => false
    | .rup => !neg
    | .rdn => neg
    | .sr => x (unitParts * magOf f b + 2 * (magOf f (b + 1) - magOf f b) * (draw + 1)) != .gt

/-- Whether a result is below the smallest normal after rounding to the format's precision. -/
def isTiny (f : Fmt) (rm : RMode) (draw : Nat) (neg : Bool) (x : Nat → Ordering) : Bool :=
  let normal := unitParts * 2 ^ f.mb
  x normal == .gt && match rm with
    | .rne => x (normal - unitParts / 4) == .gt
    | .rtz => true
    | .rup => neg || x (normal - unitParts / 2) != .lt
    | .rdn => !neg || x (normal - unitParts / 2) != .lt
    | .sr => x (normal - unitParts / 2 + (draw + 1)) == .gt

/-- What a rounding to the encoding n delivers. -/
def Delivers (f : Fmt) (rm : RMode) (neg exact tiny : Bool) (n r : Nat) (fl : FFlags) : Prop :=
  (maxCode f < n → r = withSign f neg (if f.hasInf && tooLargeGoesUp rm neg then infCode f else maxCode f) ∧ fl = 0b10100) ∧
    (n ≤ maxCode f → r = withSign f neg n ∧ fl = (if exact then 0 else if tiny then 0b11000 else 0b10000))

theorem rounds_iff {f : Fmt} {rm : RMode} {draw : Nat} {neg : Bool} {x : Nat → Ordering} {r : Nat} {fl : FFlags} :
    Rounds f rm draw neg x r fl ↔ ∃ b, x (unitParts * magOf f b) ≠ .gt ∧ x (unitParts * magOf f (b + 1)) = .gt ∧
      Delivers f rm neg (x (unitParts * magOf f b) == .eq) (isTiny f rm draw neg x)
        (if stepsUp f rm draw neg x b then b + 1 else b) r fl := Iff.rfl

/-! ### Comparisons with a magnitude, in whole numbers -/

theorem compare_mul_left {c : Nat} (hc : 0 < c) (a b : Nat) : compare (c * a) (c * b) = compare a b := by
  rw [← cmp_eq_compare, cmp_mul_pos_left hc, cmp_eq_compare]

/-- A point between a multiple of Q and V compares as the rest does. -/
theorem compare_add_rest (V Q n : Nat) : compare (V / Q * Q + n) V = compare n (V % Q) := by
  have split := Nat.div_add_mod' V Q
  rcases lt_trichotomy n (V % Q) with h | h | h
  · rw [compare_lt_iff_lt.2 h, compare_lt_iff_lt.2 (by omega)]
  · rw [compare_eq_iff_eq.2 h, compare_eq_iff_eq.2 (by omega)]
  · rw [compare_gt_iff_gt.2 h, compare_gt_iff_gt.2 (by omega)]

theorem compare_ne_gt (a b : Nat) : (compare a b != .gt) = decide (a ≤ b) := by
  rw [Bool.eq_iff_iff, bne_iff_ne, compare_le_iff_le, decide_eq_true_iff]

theorem compare_ne_lt (a b : Nat) : (compare a b != .lt) = decide (b ≤ a) := by
  rw [Bool.eq_iff_iff, bne_iff_ne, compare_ge_iff_ge, decide_eq_true_iff]

theorem compare_beq_gt (a b : Nat) : (compare a b == .gt) = decide (b < a) := by
  rw [Bool.eq_iff_iff, beq_iff_eq, compare_gt_iff_gt, decide_eq_true_iff]

theorem compare_beq_eq (a b : Nat) : (compare a b == .eq) = decide (a = b) := by
  rw [Bool.eq_iff_iff, beq_iff_eq, compare_eq_iff_eq, decide_eq_true_iff]

/-- A draw rounds up when the part of the quantum, in units of 2^-32, is past it (R61). -/
theorem draw_lt_iff {draw rest h : Nat} (hh : 0 < h) : draw < rest * 2 ^ 32 / (h * 2 ^ 32) ↔ h * (draw + 1) ≤ rest := by
  rw [Nat.mul_div_mul_right _ _ (by decide), Nat.lt_iff_add_one_le, Nat.le_div_iff_mul_le hh, Nat.mul_comm]

section
variable {f : Fmt} (hf : f.Ok) (rm : RMode) (draw : Nat) (neg : Bool) {x : Nat → Ordering} {S V : Nat} (hS : 0 < S)
  (hx : ∀ n, x n = compare (n * S) V)

section
variable {D lo : Nat} (low : D = 0 ∨ 2 ^ f.mb ≤ lo) (high : lo < 2 ^ (f.mb + 1))

include low high in
theorem magOf_floor : magOf f (D * 2 ^ f.mb + lo) = lo * 2 ^ D ∧ magOf f (D * 2 ^ f.mb + lo + 1) = (lo + 1) * 2 ^ D :=
  ⟨magOf_add low high.le, magOf_add (low.imp_right Nat.le_succ_of_le) high⟩

include hf hS hx low high in
/-- The step up in points of the quantum is the step up of the whole numbers. -/
theorem stepsUp_eq {Q : Nat} (hQ : Q = 2 * S * 2 ^ D * 2 ^ 32) (hlo : lo = V / Q) :
    stepsUp f rm draw neg x (D * 2 ^ f.mb + lo) = roundsUp rm draw neg V Q := by
  obtain ⟨mag, mag'⟩ := magOf_floor low high
  have floor : unitParts * (lo * 2 ^ D) * S = V / Q * Q := by rw [← hlo, hQ, unitParts]; ring
  have exact : (x (unitParts * (lo * 2 ^ D)) == .eq) = (V % Q == 0) := by
    rw [hx, floor, ← Nat.add_zero (V / Q * Q), compare_add_rest, compare_beq_eq, Bool.eq_iff_iff, decide_eq_true_iff, beq_iff_eq]
    exact eq_comm
  have parity : (D * 2 ^ f.mb + lo) % 2 = V / Q % 2 := by
    obtain ⟨k, hk⟩ := Nat.exists_eq_add_of_le hf.mb
    rw [hlo, hk, Nat.pow_add, show D * (2 ^ 1 * 2 ^ k) = 2 * (D * 2 ^ k) by ring, Nat.mul_add_mod]
  unfold stepsUp
  rw [mag, mag', exact]
  cases rm with
  | rtz => simp [roundsUp]
  | rup => simp [roundsUp, Bool.and_comm, bne]
  | rdn => simp [roundsUp, Bool.and_comm, bne]
  | sr =>
    have point : (unitParts * (lo * 2 ^ D) + 2 * ((lo + 1) * 2 ^ D - lo * 2 ^ D) * (draw + 1)) * S =
        V / Q * Q + 2 * S * 2 ^ D * (draw + 1) := by
      rw [← floor, ← Nat.sub_mul, Nat.add_sub_cancel_left]; ring
    have pos : 0 < 2 * S * 2 ^ D := by positivity
    have some_rest : 2 * S * 2 ^ D * (draw + 1) ≤ V % Q → V % Q ≠ 0 := fun h => by
      have := Nat.mul_pos pos (Nat.add_pos_right draw Nat.one_pos)
      omega
    dsimp only
    rw [hx, point, compare_add_rest, compare_ne_gt, roundsUp, Bool.eq_iff_iff]
    rw [hQ, Bool.and_eq_true, Bool.not_eq_true', beq_eq_false_iff_ne, decide_eq_true_iff, decide_eq_true_iff, ← hQ]
    conv_rhs => rw [hQ, draw_lt_iff pos, ← hQ]
    exact ⟨And.right, fun h => ⟨some_rest h, h⟩⟩
  | rne =>
    have point : 2 * (unitParts / 2 * (lo * 2 ^ D + (lo + 1) * 2 ^ D) * S) = 2 * (V / Q * Q) + Q := by
      rw [← floor, hQ, unitParts]; norm_num; ring
    have mid : x (unitParts / 2 * (lo * 2 ^ D + (lo + 1) * 2 ^ D)) = compare Q (2 * (V % Q)) := by
      have split := Nat.div_add_mod' V Q
      rw [hx, ← compare_mul_left (by decide : 0 < 2), point]
      rcases lt_trichotomy Q (2 * (V % Q)) with h | h | h
      · rw [compare_lt_iff_lt.2 h, compare_lt_iff_lt.2 (by omega)]
      · rw [compare_eq_iff_eq.2 h, compare_eq_iff_eq.2 (by omega)]
      · rw [compare_gt_iff_gt.2 h, compare_gt_iff_gt.2 (by omega)]
    have pos : 0 < Q := by rw [hQ]; positivity
    dsimp only
    rw [mid, parity, roundsUp]
    rcases lt_trichotomy Q (2 * (V % Q)) with h | h | h
    · have : V % Q ≠ 0 := by omega
      simp [compare_lt_iff_lt.2 h, h, this]
    · have : V % Q ≠ 0 := by omega
      simp [← h, this]
    · simp [compare_gt_iff_gt.2 h, h.not_gt, h.ne]

end

section
variable {H : Nat} (hH : H = S * 2 ^ 32)

include hx hH in
/-- The points of a rounding below the smallest normal, in steps of half a unit. -/
theorem isTiny_eq : isTiny f rm draw neg x = (decide (V < 2 ^ (f.mb + 1) * H) && match (generalizing := false) rm with
    | .rne => decide (2 * V < 2 * ((2 ^ (f.mb + 1) - 1) * H) + H)
    | .rtz => true
    | .rup => neg || decide (V ≤ (2 ^ (f.mb + 1) - 1) * H)
    | .rdn => !neg || decide (V ≤ (2 ^ (f.mb + 1) - 1) * H)
    | .sr => decide (V < (2 ^ (f.mb + 1) - 1) * H + S * (draw + 1))) := by
  have unit : 0 < 2 ^ f.mb := by positivity
  have normal : unitParts * 2 ^ f.mb * S = 2 ^ (f.mb + 1) * H := by rw [hH, unitParts]; ring
  have half : (unitParts * 2 ^ f.mb - unitParts / 2) * S = (2 ^ (f.mb + 1) - 1) * H := by
    have : unitParts * 2 ^ f.mb - unitParts / 2 = (2 ^ (f.mb + 1) - 1) * 2 ^ 32 := by
      rw [unitParts, Nat.pow_succ 2 f.mb]; omega
    rw [this, hH]; ring
  have quarter : 2 * ((unitParts * 2 ^ f.mb - unitParts / 4) * S) = 2 * ((2 ^ (f.mb + 1) - 1) * H) + H := by
    have : unitParts * 2 ^ f.mb - unitParts / 4 = (2 ^ (f.mb + 1) - 1) * 2 ^ 32 + 2 ^ 31 := by
      rw [unitParts, Nat.pow_succ 2 f.mb]; omega
    rw [this, hH]; ring
  have drawn : (unitParts * 2 ^ f.mb - unitParts / 2 + (draw + 1)) * S = (2 ^ (f.mb + 1) - 1) * H + S * (draw + 1) := by
    rw [Nat.add_mul, half, Nat.mul_comm S]
  unfold isTiny
  simp only [hx, normal, compare_beq_gt, compare_ne_lt]
  cases rm with
  | rne => simp only [← quarter, Nat.mul_lt_mul_left (by decide : 0 < 2)]
  | rtz => rfl
  | rup | rdn => rw [half]
  | sr => rw [drawn]

include hx hH in
/-- A value from the smallest normal up is not tiny. -/
theorem isTiny_of_normal (h : 2 ^ (f.mb + 1) * H ≤ V) : isTiny f rm draw neg x = false := by
  rw [isTiny_eq rm draw neg hx hH, decide_eq_false h.not_gt, Bool.false_and]

include hx hH in
/-- A value below the last step before the smallest normal is tiny. -/
theorem isTiny_of_lt (h : V < (2 ^ (f.mb + 1) - 1) * H) : isTiny f rm draw neg x = true := by
  have le : (2 ^ (f.mb + 1) - 1) * H ≤ 2 ^ (f.mb + 1) * H := Nat.mul_le_mul_right _ (Nat.sub_le ..)
  rw [isTiny_eq rm draw neg hx hH, decide_eq_true (h.trans_le le), Bool.true_and]
  cases rm with
  | rne => exact decide_eq_true (by omega)
  | rtz => rfl
  | rup | rdn => exact Bool.or_eq_true_iff.2 (.inr (decide_eq_true h.le))
  | sr => exact decide_eq_true (h.trans_le (Nat.le_add_right ..))

include hx hS hH in
/-- In the last binade below the smallest normal a value is tiny unless it is rounded up to that. -/
theorem isTiny_of_binade (h : V < 2 ^ (f.mb + 1) * H) :
    isTiny f rm draw neg x = decide (V / H + (if roundsUp rm draw neg V H then 1 else 0) < 2 ^ (f.mb + 1)) := by
  have step : 0 < H := by rw [hH]; positivity
  have floor : V / H < 2 ^ (f.mb + 1) := (Nat.div_lt_iff_lt_mul step).2 h
  rcases Nat.lt_or_ge (V / H) (2 ^ (f.mb + 1) - 1) with below | last
  · rw [isTiny_of_lt rm draw neg hx hH ((Nat.div_lt_iff_lt_mul step).1 below), eq_comm, decide_eq_true_iff]
    generalize V / H = lo at below ⊢
    split <;> omega
  · have last : V / H = 2 ^ (f.mb + 1) - 1 := Nat.le_antisymm (Nat.le_sub_one_of_lt floor) last
    have split := Nat.div_add_mod' V H
    have pos : 0 < 2 ^ f.mb := by positivity
    have carries (c : Bool) : decide (V / H + (if c then 1 else 0) < 2 ^ (f.mb + 1)) = !c := by
      rw [last, Nat.pow_succ]
      cases c
      · exact decide_eq_true (by rw [if_neg Bool.false_ne_true]; omega)
      · exact decide_eq_false (by rw [if_pos rfl]; omega)
    have odd : V / H % 2 = 1 := by rw [last, Nat.pow_succ]; omega
    have rest : decide (V ≤ V / H * H) = !(V % H != 0) := by
      rw [Bool.eq_iff_iff]; simp; omega
    rw [carries, isTiny_eq rm draw neg hx hH, decide_eq_true h, Bool.true_and, ← last]
    cases rm with
    | rne =>
      rw [roundsUp, odd, Bool.eq_iff_iff]
      simp
      omega
    | rtz => rfl
    | rup => rw [rest, roundsUp, Bool.not_and, Bool.not_not]
    | rdn => rw [rest, roundsUp, Bool.not_and]
    | sr =>
      rw [roundsUp, Bool.eq_iff_iff, Bool.not_eq_true', decide_eq_false_iff_not, decide_eq_true_iff, hH, draw_lt_iff hS, ← hH]
      omega

end
end

end Sys2Proof.Machine
end

section
namespace Sys2Proof.Machine

/-! ### Rounding an exact value (R60, R61, R64) -/

/-- x compares parts of the format's unit with an exact magnitude. -/
def Measures (f : Fmt) (x : Nat → Ordering) (v : ℚ) : Prop := ∀ n : Nat, x n = compare ((n : ℚ) * 2 ^ (f.qmin - 33)) v

/-- A multiple of 2^e in units of 2^w. -/
theorem scaled_pow {e w : Int} (h : w ≤ e) (m : Nat) : ((m * 2 ^ (e - w).toNat : Nat) : ℚ) * 2 ^ w = m * 2 ^ e := by
  have split : e = ((e - w).toNat : Int) + w := by omega
  conv_rhs => rw [split, zpow_add₀ (by norm_num), zpow_natCast]
  push_cast
  ring

theorem compare_scaled (w : Int) (a b : Nat) : compare ((a : ℚ) * 2 ^ w) (b * 2 ^ w) = compare a b := by
  rw [← cmp_eq_compare, cmp_mul_pos_right (by positivity), ← cmp_eq_compare]
  exact Nat.strictMono_cast.cmp_map_eq a b

theorem Measures.scaled {f : Fmt} {x : Nat → Ordering} {m : Nat} {e w : Int} (h : Measures f x (m * 2 ^ e)) (he : w ≤ e)
    (hq : w ≤ f.qmin - 33) (n : Nat) : x n = compare (n * 2 ^ (f.qmin - 33 - w).toNat) (m * 2 ^ (e - w).toNat) := by
  rw [h, ← scaled_pow he, ← scaled_pow hq, compare_scaled]

theorem bitLen_eq {m : Nat} (h : m ≠ 0) : bitLen m = m.log2 + 1 := by simp [bitLen, h]

section
variable {f : Fmt} {m : Nat} {e : Int}

/-- The quantum of a value with the format's precision and any exponent. -/
def Fmt.freeQuantum (f : Fmt) (m : Nat) (e : Int) : Int := e + bitLen m - (f.mb + 1 : Nat)

/-- A magnitude in its own quantum has the precision of the format. -/
theorem scaled_precision (hm : m ≠ 0) {w : Int} (he : w ≤ e) (hq : w ≤ f.freeQuantum m e) :
    2 ^ f.mb * 2 ^ (f.freeQuantum m e - w).toNat ≤ m * 2 ^ (e - w).toNat ∧
      m * 2 ^ (e - w).toNat < 2 ^ (f.mb + 1) * 2 ^ (f.freeQuantum m e - w).toNat := by
  have len := bitLen_eq hm
  unfold Fmt.freeQuantum at *
  have exps : f.mb + (e + bitLen m - (f.mb + 1 : Nat) - w).toNat = m.log2 + (e - w).toNat := by omega
  constructor
  · rw [← Nat.pow_add, exps, Nat.pow_add]
    exact Nat.mul_le_mul_right _ (Nat.log2_self_le hm)
  · rw [← Nat.pow_add, Nat.add_right_comm, exps, Nat.add_right_comm, Nat.pow_add]
    exact Nat.mul_lt_mul_of_pos_right Nat.lt_log2_self (by positivity)

/-- The test for a tiny result: the precision is that of the format, and the exponent below its smallest. -/
theorem isTiny_round (rm : RMode) (draw : Nat) (neg : Bool) {x : Nat → Ordering} (hm : m ≠ 0) {w : Int} (he : w ≤ e)
    (hq : w ≤ f.qmin - 33) (hu : w ≤ f.freeQuantum m e) (hx : Measures f x (m * 2 ^ e)) :
    isTiny f rm draw neg x = (decide (f.freeQuantum m e < f.qmin) &&
      decide ((roundAt rm draw neg m e (f.freeQuantum m e)).1 < 2 ^ (f.qmin + f.mb - f.freeQuantum m e).toNat)) := by
  obtain ⟨low, high⟩ := scaled_precision hm he hu
  have hx := hx.scaled he hq
  have hH : 2 ^ (f.qmin - 1 - w).toNat = 2 ^ (f.qmin - 33 - w).toNat * 2 ^ 32 := by rw [← Nat.pow_add]; congr 1; omega
  rw [roundAt_eq he hu]
  generalize f.freeQuantum m e = qu at *
  dsimp only
  rcases lt_trichotomy qu (f.qmin - 1) with below | rfl | normal
  · have finer : 2 * 2 ^ (qu - w).toNat ≤ 2 ^ (f.qmin - 1 - w).toNat := by
      rw [← Nat.pow_succ']
      exact Nat.pow_le_pow_right (by decide) (by omega)
    have small : m * 2 ^ (e - w).toNat < (2 ^ (f.mb + 1) - 1) * 2 ^ (f.qmin - 1 - w).toNat := by
      have : 2 ^ f.mb ≤ 2 ^ (f.mb + 1) - 1 := by
        have : 0 < 2 ^ f.mb := by positivity
        rw [Nat.pow_succ]; omega
      calc m * 2 ^ (e - w).toNat < 2 ^ f.mb * (2 * 2 ^ (qu - w).toNat) := by rwa [← Nat.mul_assoc, ← Nat.pow_succ]
        _ ≤ _ := Nat.mul_le_mul this finer
    have rounded : m * 2 ^ (e - w).toNat / 2 ^ (qu - w).toNat + 1 < 2 ^ (f.qmin + f.mb - qu).toNat := by
      have := (Nat.div_lt_iff_lt_mul (by positivity)).2 high
      have : 2 ^ (f.mb + 1) < 2 ^ (f.qmin + f.mb - qu).toNat := Nat.pow_lt_pow_right (by decide) (by omega)
      omega
    rw [isTiny_of_lt rm draw neg hx hH small, decide_eq_true (by omega : qu < f.qmin), Bool.true_and, eq_comm,
      decide_eq_true_iff]
    split <;> omega
  · have exps : (f.qmin + f.mb - (f.qmin - 1)).toNat = f.mb + 1 := by omega
    rw [isTiny_of_binade rm draw neg (by positivity) hx hH high, exps, decide_eq_true (by omega : f.qmin - 1 < f.qmin),
      Bool.true_and]
  · have coarser : 2 * 2 ^ (f.qmin - 1 - w).toNat ≤ 2 ^ (qu - w).toNat := by
      rw [← Nat.pow_succ']
      exact Nat.pow_le_pow_right (by decide) (by omega)
    have big : 2 ^ (f.mb + 1) * 2 ^ (f.qmin - 1 - w).toNat ≤ m * 2 ^ (e - w).toNat := by
      rw [Nat.pow_succ, Nat.mul_assoc]
      exact (Nat.mul_le_mul_left _ coarser).trans low
    rw [isTiny_of_normal rm draw neg hx hH big, decide_eq_false (by omega : ¬ qu < f.qmin), Bool.false_and]

/-- The encoding and the flags of a rounding to the encoding n. -/
def Fmt.delivered (f : Fmt) (rm : RMode) (neg inexact tiny : Bool) (n : Nat) : Nat × FFlags :=
  if maxCode f < n then (withSign f neg (if f.hasInf && tooLargeGoesUp rm neg then infCode f else maxCode f), 0b10100)
  else (withSign f neg n, if inexact then (if tiny then 0b11000 else 0b10000) else 0)

theorem delivers_delivered (rm : RMode) (neg inexact tiny : Bool) (n : Nat) :
    Delivers f rm neg (!inexact) tiny n (f.delivered rm neg inexact tiny n).1 (f.delivered rm neg inexact tiny n).2 := by
  unfold Delivers Fmt.delivered
  by_cases h : maxCode f < n
  · simp [h, h.not_ge]
  · cases inexact <;> simp [h]

theorem round_fin (rm : RMode) (draw : Nat) (neg : Bool) (hm : m ≠ 0) {q : Int} (hq : q = max (f.freeQuantum m e) f.qmin) :
    f.round rm draw (.fin neg m e) = f.delivered rm neg (roundAt rm draw neg m e q).2
      (decide (f.freeQuantum m e < f.qmin) &&
        decide ((roundAt rm draw neg m e (f.freeQuantum m e)).1 < 2 ^ (f.qmin + f.mb - f.freeQuantum m e).toNat))
      ((q - f.qmin).toNat * 2 ^ f.mb + (roundAt rm draw neg m e q).1) := by
  have zero : ¬ (m == 0) = true := by rw [beq_iff_eq]; exact hm
  unfold Fmt.round Fmt.delivered
  rw [hq, ← infBits_eq, ← maxBits_eq]
  exact (if_neg zero).trans rfl

/-- The quantum of the format is that of the value's precision, and at least the unit: the value lies in the binade of the quantum. -/
theorem quantum_binade (hm : m ≠ 0) {q w : Int} (he : w ≤ e) (hu : w ≤ f.freeQuantum m e)
    (hq : q = max (f.freeQuantum m e) f.qmin) :
    let lo := m * 2 ^ (e - w).toNat / 2 ^ (q - w).toNat
    lo < 2 ^ (f.mb + 1) ∧ ((q - f.qmin).toNat = 0 ∨ 2 ^ f.mb ≤ lo) := by
  obtain ⟨low, high⟩ := scaled_precision hm he hu
  have pos : 0 < 2 ^ (q - w).toNat := by positivity
  constructor
  · refine (Nat.div_lt_iff_lt_mul pos).2 (high.trans_le (Nat.mul_le_mul_left _ ?_))
    exact Nat.pow_le_pow_right (by decide) (by omega)
  · by_cases sub : f.freeQuantum m e ≤ f.qmin
    · exact .inl (by omega)
    · have : q = f.freeQuantum m e := by omega
      exact .inr ((Nat.le_div_iff_mul_le pos).2 (this ▸ low))

/-- Rounding an exact nonzero value to a format is the rounding of the statements (R60, R61, R64). -/
theorem round_rounds (hf : f.Ok) (rm : RMode) (draw : Nat) (neg : Bool) {x : Nat → Ordering} (hm : m ≠ 0)
    (hx : Measures f x (m * 2 ^ e)) :
    Rounds f rm draw neg x (f.round rm draw (.fin neg m e)).1 (f.round rm draw (.fin neg m e)).2 := by
  have len := bitLen_eq hm
  obtain ⟨w, hw⟩ : ∃ w, w = min e (f.qmin - 33) - (f.mb + 1 : Nat) := ⟨_, rfl⟩
  have he : w ≤ e := by omega
  have hq : w ≤ f.qmin - 33 := by omega
  have hu : w ≤ f.freeQuantum m e := by unfold Fmt.freeQuantum; omega
  obtain ⟨q, hqu⟩ : ∃ q, q = max (f.freeQuantum m e) f.qmin := ⟨_, rfl⟩
  obtain ⟨D, hD⟩ : ∃ D, D = (q - f.qmin).toNat := ⟨_, rfl⟩
  have hQ : 2 ^ (q - w).toNat = 2 * 2 ^ (f.qmin - 33 - w).toNat * 2 ^ D * 2 ^ 32 := by
    rw [← Nat.pow_succ', ← Nat.pow_add, ← Nat.pow_add]
    congr 1
    omega
  obtain ⟨top, bottom⟩ := quantum_binade hm he hu hqu
  rw [round_fin rm draw neg hm hqu, ← isTiny_round rm draw neg hm he hq hu hx, roundAt_eq he (by omega : w ≤ q), rounds_iff]
  replace hx := hx.scaled he hq
  have posS : 0 < 2 ^ (f.qmin - 33 - w).toNat := by positivity
  rw [← hD] at bottom ⊢
  generalize m * 2 ^ (e - w).toNat = V at *
  generalize 2 ^ (q - w).toNat = Q at *
  generalize 2 ^ (f.qmin - 33 - w).toNat = S at *
  have pos : 0 < Q := by rw [hQ]; positivity
  obtain ⟨mag, mag'⟩ := magOf_floor bottom top
  have up := stepsUp_eq hf rm draw neg posS hx bottom top hQ rfl
  have point (k : Nat) : unitParts * (k * 2 ^ D) * S = k * Q := by rw [hQ, unitParts]; ring
  have floor := Nat.div_add_mod' V Q
  have rest := Nat.mod_lt V pos
  have exact : (x (unitParts * magOf f (D * 2 ^ f.mb + V / Q)) == .eq) = !(V % Q != 0) := by
    rw [mag, hx, point, compare_beq_eq, Bool.eq_iff_iff, decide_eq_true_iff]
    simp
    omega
  have next : (if stepsUp f rm draw neg x (D * 2 ^ f.mb + V / Q) then D * 2 ^ f.mb + V / Q + 1 else D * 2 ^ f.mb + V / Q) =
      D * 2 ^ f.mb + (V / Q + if roundsUp rm draw neg V Q then 1 else 0) := by
    rw [up]
    split <;> rfl
  refine ⟨D * 2 ^ f.mb + V / Q, ?_, ?_, ?_⟩
  · rw [mag, hx, point, compare_le_iff_le]
    omega
  · rw [mag', hx, point, compare_gt_iff_gt, Nat.add_mul]
    omega
  · rw [exact, next]
    exact delivers_delivered ..

end

end Sys2Proof.Machine
end

section
namespace Sys2Proof.Machine

/-! ### Rounding a truncated value with a sticky bit (R168) -/

/-- x compares with a value strictly between m * 2^e and (m + 1) * 2^e. -/
structure Brackets (f : Fmt) (x : Nat → Ordering) (m : Nat) (e : Int) : Prop where
  below : ∀ n : Nat, (n : ℚ) * 2 ^ (f.qmin - 33) ≤ m * 2 ^ e → x n = .lt
  above : ∀ n : Nat, ((m + 1 : Nat) : ℚ) * 2 ^ e ≤ n * 2 ^ (f.qmin - 33) → x n = .gt

/-- Every encoding lies in a binade: its magnitude and the next are neighbours there. -/
theorem exists_magOf (f : Fmt) (b : Nat) :
    ∃ D lo, magOf f b = lo * 2 ^ D ∧ magOf f (b + 1) = (lo + 1) * 2 ^ D ∧ lo < 2 ^ (f.mb + 1) := by
  have pos : 0 < 2 ^ f.mb := by positivity
  rcases Nat.lt_or_ge b (2 ^ f.mb) with sub | normal
  · have top : b < 2 ^ (f.mb + 1) := sub.trans (Nat.pow_lt_pow_right (by decide) (Nat.lt_succ_self _))
    obtain ⟨mag, mag'⟩ := magOf_floor (f := f) (D := 0) (.inl rfl) top
    rw [Nat.zero_mul, Nat.zero_add] at mag mag'
    exact ⟨0, b, mag, mag', top⟩
  · have split := Nat.div_add_mod' b (2 ^ f.mb)
    have rest := Nat.mod_lt b pos
    have quot : 1 ≤ b / 2 ^ f.mb := (Nat.one_le_div_iff pos).2 normal
    obtain ⟨D, hD⟩ := Nat.exists_eq_add_of_le' quot
    have hb : b = D * 2 ^ f.mb + (2 ^ f.mb + b % 2 ^ f.mb) := by rw [hD, Nat.add_mul] at split; omega
    have top : 2 ^ f.mb + b % 2 ^ f.mb < 2 ^ (f.mb + 1) := by rw [Nat.pow_succ]; omega
    obtain ⟨mag, mag'⟩ := magOf_floor (f := f) (D := D) (.inr (Nat.le_add_right ..)) top
    rw [← hb] at mag mag'
    exact ⟨D, _, mag, mag', top⟩

section
variable {f : Fmt} {m s t : Nat} {x y : Nat → Ordering} (hm : 2 ^ (f.mb + 2) ≤ m)
  (hy : ∀ n, y n = compare (n * 2 ^ s) ((2 * m + 1) * 2 ^ t))
  (below : ∀ n, n * 2 ^ s ≤ 2 * m * 2 ^ t → x n = .lt) (above : ∀ n, (2 * m + 2) * 2 ^ t ≤ n * 2 ^ s → x n = .gt)

include hy below above

/-- At a multiple of the last place a bracketed value compares as the middle of its bracket. -/
theorem bracket_agrees {n : Nat} (h : 2 ^ (t + 1) ∣ n * 2 ^ s) : x n = y n := by
  obtain ⟨k, hk⟩ := h
  have pos : 0 < 2 ^ t := by positivity
  have point : n * 2 ^ s = 2 * k * 2 ^ t := by rw [hk]; ring
  rw [hy, point]
  rcases Nat.lt_or_ge m k with big | small
  · rw [above n (point ▸ Nat.mul_le_mul_right _ (by omega)), eq_comm, compare_gt_iff_gt]
    exact Nat.mul_lt_mul_of_pos_right (by omega) pos
  · rw [below n (point ▸ Nat.mul_le_mul_right _ (by omega)), eq_comm, compare_lt_iff_lt]
    exact Nat.mul_lt_mul_of_pos_right (by omega) pos

include hm

theorem bracket_isTiny (draw : Nat) (neg : Bool) : isTiny f .rne draw neg x = isTiny f .rne draw neg y := by
  have agrees {n : Nat} := bracket_agrees hy below above (n := n)
  have normal : unitParts * 2 ^ f.mb * 2 ^ s = 2 ^ (f.mb + 33 + s) := by rw [unitParts]; ring
  have large : 2 ^ (f.mb + 3 + t) ≤ 2 * m * 2 ^ t := by
    rw [Nat.pow_add]
    exact Nat.mul_le_mul_right _ (by rw [Nat.pow_succ' (n := f.mb + 2)]; exact Nat.mul_le_mul_left 2 hm)
  rcases Nat.lt_or_ge t (31 + s) with fine | coarse
  · have quarter : unitParts * 2 ^ f.mb - unitParts / 4 = (2 ^ (f.mb + 2) - 1) * 2 ^ 31 := by
      rw [unitParts, Nat.pow_add]; omega
    have whole : x (unitParts * 2 ^ f.mb) = y (unitParts * 2 ^ f.mb) :=
      agrees (normal ▸ Nat.pow_dvd_pow 2 (by omega))
    have part : x (unitParts * 2 ^ f.mb - unitParts / 4) = y (unitParts * 2 ^ f.mb - unitParts / 4) := by
      refine agrees ?_
      rw [quarter, Nat.mul_assoc, ← Nat.pow_add]
      exact (Nat.pow_dvd_pow 2 (by omega)).mul_left _
    unfold isTiny
    dsimp only
    rw [whole, part]
  · have low : unitParts * 2 ^ f.mb * 2 ^ s ≤ 2 * m * 2 ^ t :=
      normal ▸ (Nat.pow_le_pow_right (by decide) (by omega)).trans large
    have hx : x (unitParts * 2 ^ f.mb) = .lt := below _ low
    have hy : y (unitParts * 2 ^ f.mb) = .lt := by
      rw [hy, compare_lt_iff_lt]
      exact low.trans_lt (Nat.mul_lt_mul_of_pos_right (by omega) (by positivity))
    simp only [isTiny, hx, hy]
    rfl

theorem bracket_rounds {draw : Nat} {neg : Bool} {r : Nat} {fl : FFlags} (h : Rounds f .rne draw neg y r fl) :
    Rounds f .rne draw neg x r fl := by
  rw [rounds_iff] at h ⊢
  obtain ⟨b, low, high, delivers⟩ := h
  obtain ⟨D, lo, mag, mag', top⟩ := exists_magOf f b
  have large : 2 ^ (f.mb + 3 + t) ≤ 2 * m * 2 ^ t := by
    rw [Nat.pow_add]
    exact Nat.mul_le_mul_right _ (by rw [Nat.pow_succ' (n := f.mb + 2)]; exact Nat.mul_le_mul_left 2 hm)
  have next : unitParts * ((lo + 1) * 2 ^ D) * 2 ^ s = (lo + 1) * 2 ^ (D + 33 + s) := by rw [unitParts]; ring
  have fine : t + 1 ≤ D + 31 + s := by
    rw [mag', hy, compare_gt_iff_gt, next] at high
    have : 2 ^ (f.mb + 3 + t) < 2 ^ (f.mb + 1 + (D + 33 + s)) := by
      calc 2 ^ (f.mb + 3 + t) ≤ 2 * m * 2 ^ t := large
        _ ≤ (2 * m + 1) * 2 ^ t := Nat.mul_le_mul_right _ (by omega)
        _ < (lo + 1) * 2 ^ (D + 33 + s) := high
        _ ≤ 2 ^ (f.mb + 1) * 2 ^ (D + 33 + s) := Nat.mul_le_mul_right _ top
        _ = _ := (Nat.pow_add ..).symm
    have := (Nat.pow_lt_pow_iff_right (by decide)).1 this
    omega
  have agrees {k : Nat} (j : Nat) (h : k * 2 ^ s = j * 2 ^ (D + 32 + s)) : x k = y k :=
    bracket_agrees hy below above (h ▸ (Nat.pow_dvd_pow 2 (by omega)).mul_left _)
  have floor : x (unitParts * magOf f b) = y (unitParts * magOf f b) :=
    agrees (2 * lo) (by rw [mag, unitParts]; ring)
  have ceil : x (unitParts * magOf f (b + 1)) = y (unitParts * magOf f (b + 1)) :=
    agrees (2 * (lo + 1)) (by rw [mag', unitParts]; ring)
  have middle : x (unitParts / 2 * (magOf f b + magOf f (b + 1))) = y (unitParts / 2 * (magOf f b + magOf f (b + 1))) :=
    agrees (2 * lo + 1) (by rw [mag, mag', unitParts]; norm_num; ring)
  have up : stepsUp f .rne draw neg x b = stepsUp f .rne draw neg y b := by
    unfold stepsUp
    dsimp only
    rw [floor, middle]
  exact ⟨b, floor ▸ low, ceil ▸ high, floor ▸ up ▸ bracket_isTiny hm hy below above draw neg ▸ delivers⟩

end

/-- A truncated value with its sticky bit rounds as the exact value does: the truncation has more bits than the format and the
bit that decides a tie. -/
theorem sticky_rounds {f : Fmt} (hf : f.Ok) {x : Nat → Ordering} {m : Nat} {e : Int} (draw : Nat) (neg more : Bool)
    (hm : 2 ^ (f.mb + 2) ≤ m) (exact : more = false → Measures f x (m * 2 ^ e)) (inexact : more = true → Brackets f x m e) :
    Rounds f .rne draw neg x (f.round .rne draw (sticky neg m more e)).1 (f.round .rne draw (sticky neg m more e)).2 := by
  have pos : 0 < m := (Nat.two_pow_pos _).trans_le hm
  have halve : (2 : ℚ) ^ e = 2 * 2 ^ (e - 1) := by rw [← zpow_one_add₀ (by norm_num)]; congr 1; omega
  cases more with
  | false =>
    refine round_rounds hf .rne draw neg (m := 2 * m + 0) (e := e - 1) (by omega) ?_
    have same : ((2 * m + 0 : Nat) : ℚ) * 2 ^ (e - 1) = m * 2 ^ e := by rw [halve]; push_cast; ring
    exact same ▸ exact rfl
  | true =>
    obtain ⟨w, hw⟩ : ∃ w, w = min (e - 1) (f.qmin - 33) := ⟨_, rfl⟩
    have he : w ≤ e - 1 := by omega
    have hq : w ≤ f.qmin - 33 := by omega
    obtain ⟨below, above⟩ := inexact rfl
    have hy : Measures f (fun n => compare ((n : ℚ) * 2 ^ (f.qmin - 33)) ((2 * m + 1 : Nat) * 2 ^ (e - 1)))
        ((2 * m + 1 : Nat) * 2 ^ (e - 1)) := fun _ => rfl
    have pow : (0 : ℚ) < 2 ^ w := by positivity
    have scale (a b : Nat) : (a : ℚ) * 2 ^ (f.qmin - 33) ≤ b * 2 ^ (e - 1) ↔
        a * 2 ^ (f.qmin - 33 - w).toNat ≤ b * 2 ^ (e - 1 - w).toNat := by
      rw [← scaled_pow he, ← scaled_pow hq, mul_le_mul_iff_left₀ pow, Nat.cast_le]
    have scale' (a b : Nat) : (b : ℚ) * 2 ^ (e - 1) ≤ a * 2 ^ (f.qmin - 33) ↔
        b * 2 ^ (e - 1 - w).toNat ≤ a * 2 ^ (f.qmin - 33 - w).toNat := by
      rw [← scaled_pow he, ← scaled_pow hq, mul_le_mul_iff_left₀ pow, Nat.cast_le]
    refine bracket_rounds (s := (f.qmin - 33 - w).toNat) (t := (e - 1 - w).toNat) hm (hy.scaled he hq) (fun n h => ?_)
      (fun n h => ?_) (round_rounds hf .rne draw neg (m := 2 * m + 1) (e := e - 1) (by omega) hy)
    · refine below n (((scale n (2 * m)).2 h).trans_eq ?_)
      rw [halve]; push_cast; ring
    · refine above n (Eq.trans_le ?_ ((scale' n (2 * m + 2)).2 h))
      rw [halve]; push_cast; ring

end Sys2Proof.Machine
end

section
namespace Sys2Proof.Machine

/-! ### What an encoding reads as (R51, R52) -/

theorem magOf_eq_zero {f : Fmt} {b : Nat} : magOf f b = 0 ↔ b = 0 := by
  have pos : 0 < 2 ^ f.mb := by positivity
  unfold magOf
  split
  · exact Iff.rfl
  · have : (2 ^ f.mb + b % 2 ^ f.mb) * 2 ^ (b / 2 ^ f.mb - 1) ≠ 0 := by positivity
    exact ⟨fun h => absurd h this, fun h => by omega⟩

theorem signUnit_eq (f : Fmt) : signUnit f = infCode f + 2 ^ f.mb := by
  have : 2 ^ f.mb ≤ signUnit f := Nat.pow_le_pow_right (by decide) (Nat.le_add_left ..)
  unfold infCode
  omega

theorem absBits_lt (f : Fmt) (b : Nat) : absBits f b < signUnit f := Nat.mod_lt _ (by unfold signUnit; positivity)

/-- An encoding of its width is its sign and its magnitude. -/
theorem withSign_absBits {f : Fmt} {b : Nat} (h : b < 2 * signUnit f) : withSign f (negBits f b) (absBits f b) = b := by
  have split := Nat.div_add_mod b (signUnit f)
  have quot : b / signUnit f < 2 := Nat.div_lt_of_lt_mul (by rwa [Nat.mul_comm])
  unfold withSign negBits absBits
  generalize b / signUnit f = k at quot split ⊢
  obtain rfl | rfl := Nat.le_one_iff_eq_zero_or_eq_one.1 (Nat.le_of_lt_succ quot)
  · simpa using split
  · simpa using split

/-- What an encoding is: a NaN, an infinity or a finite number. -/
inductive Reads (f : Fmt) (b : Nat) : Fl → Prop
  | nan (nan : nanBits f b = true) (inf : infBits f b = false) (abs : absBits f b ≠ 0) : Reads f b (.nan (negBits f b) (sigBits f b))
  | inf (nan : nanBits f b = false) (sig : sigBits f b = false) (inf : infBits f b = true) (hasInf : f.hasInf = true)
      (abs : absBits f b = infCode f) (some_exp : infCode f ≠ 0) : Reads f b (.inf (negBits f b))
  | fin (m : Nat) (e : Int) (nan : nanBits f b = false) (sig : sigBits f b = false) (inf : infBits f b = false)
      (exp : f.qmin ≤ e) (mag : m * 2 ^ (e - f.qmin).toNat = magOf f (absBits f b)) (lt : m < 2 ^ (f.mb + 1)) :
      Reads f b (.fin (negBits f b) m e)

/-- An encoding that is no NaN and no infinity reads as a number of units. -/
theorem reads_fin {f : Fmt} {b : Nat} (nan : nanBits f b = false) (inf : infBits f b = false) :
    Reads f b (if (absBits f b / 2 ^ f.mb == 0) = true then .fin (negBits f b) (absBits f b % 2 ^ f.mb) f.qmin
      else .fin (negBits f b) (2 ^ f.mb + absBits f b % 2 ^ f.mb) ((absBits f b / 2 ^ f.mb : Nat) - f.bias - f.mb)) := by
  have pos : 0 < 2 ^ f.mb := by positivity
  have sig : sigBits f b = false := by rw [sigBits, nan]; rfl
  split
  · rename_i zero
    have small : absBits f b < 2 ^ f.mb := (Nat.div_eq_zero_iff_lt pos).1 (beq_iff_eq.1 zero)
    rw [Nat.mod_eq_of_lt small]
    refine .fin _ _ nan sig inf le_rfl ?_ (small.trans (Nat.pow_lt_pow_right (by decide) (Nat.lt_succ_self _)))
    rw [magOf_of_lt small]
    simp
  · rename_i normal
    have quot : 1 ≤ absBits f b / 2 ^ f.mb := Nat.one_le_iff_ne_zero.2 fun h => normal (beq_iff_eq.2 h)
    have large : ¬ absBits f b < 2 ^ f.mb := Nat.not_lt.2 ((Nat.one_le_div_iff pos).1 quot)
    have rest := Nat.mod_lt (absBits f b) pos
    refine .fin _ _ nan sig inf (by unfold Fmt.qmin; omega) ?_ (by rw [Nat.pow_succ]; omega)
    rw [magOf, if_neg large]
    congr 2
    unfold Fmt.qmin
    omega

/-- The significand of a finite number is zero when its encoding is that of a zero. -/
theorem significand_eq_zero {f : Fmt} {b m k : Nat} (mag : m * 2 ^ k = magOf f (absBits f b)) : m = 0 ↔ absBits f b = 0 := by
  rw [← magOf_eq_zero (f := f) (b := absBits f b), ← mag]
  simp

theorem reads_unpack {f : Fmt} (hf : f.Ok) (b : Nat) : Reads f b (f.unpack b) := by
  have pos : 0 < 2 ^ f.mb := by positivity
  have half : 2 ^ f.mb = 2 * 2 ^ (f.mb - 1) := by rw [← Nat.pow_succ']; congr 1; have := hf.mb; omega
  have exps : 2 ≤ 2 ^ f.eb := Nat.le_self_pow (by have := hf.eb; omega) 2
  have unit : signUnit f = 2 ^ f.mb * 2 ^ f.eb := by rw [signUnit, Nat.add_comm, Nat.pow_add]
  have top := absBits_lt f b
  have code := signUnit_eq f
  have codes : infCode f = (2 ^ f.eb - 1) * 2 ^ f.mb := by rw [← infBits_eq, Fmt.infBits]
  have exp : b / 2 ^ f.mb % 2 ^ f.eb = absBits f b / 2 ^ f.mb := by rw [absBits, unit, Nat.mod_mul_right_div_self]
  have frac : b % 2 ^ f.mb = absBits f b % 2 ^ f.mb := by rw [absBits, unit, Nat.mod_mul_right_mod]
  have sign : (b / 2 ^ (f.eb + f.mb) % 2 == 1) = negBits f b := rfl
  unfold Fmt.unpack
  rw [exp, frac, sign]
  dsimp only
  rcases Nat.lt_or_ge (absBits f b) (infCode f) with finite | special
  · have low : absBits f b / 2 ^ f.mb < 2 ^ f.eb - 1 := (Nat.div_lt_iff_lt_mul pos).2 (codes ▸ finite)
    have ne : (absBits f b / 2 ^ f.mb == 2 ^ f.eb - 1) = false := beq_false_of_ne low.ne
    have below : absBits f b ≤ maxCode f := by unfold maxCode; split <;> omega
    rw [ne, Bool.and_false, Bool.and_false, Bool.false_and, if_neg Bool.false_ne_true, if_neg Bool.false_ne_true]
    exact reads_fin (decide_eq_false fun h => h.1.not_ge below)
      (by rw [infBits, decide_eq_false finite.ne, Bool.and_false])
  · have quot : absBits f b / 2 ^ f.mb = 2 ^ f.eb - 1 := by
      refine Nat.div_eq_of_lt_le (codes ▸ special) ?_
      rw [Nat.sub_add_cancel (by omega), Nat.mul_comm]
      exact unit ▸ top
    have split := Nat.div_add_mod (absBits f b) (2 ^ f.mb)
    have rest : absBits f b % 2 ^ f.mb = absBits f b - infCode f := by
      rw [quot, Nat.mul_comm, ← codes] at split
      omega
    have eq : (absBits f b / 2 ^ f.mb == 2 ^ f.eb - 1) = true := beq_iff_eq.2 quot
    have some_exp : ¬ (absBits f b / 2 ^ f.mb == 0) = true := by rw [quot, beq_iff_eq]; omega
    cases hasInf : f.hasInf with
    | true =>
      have max : maxCode f = infCode f - 1 := by rw [maxCode, if_pos hasInf]
      have two : 0 < infCode f := codes ▸ Nat.mul_pos (by omega) pos
      rw [eq, Bool.and_true, if_pos rfl, rest]
      split
      · rename_i zero
        have abs : absBits f b = infCode f := by rw [beq_iff_eq] at zero; omega
        have nan : nanBits f b = false := decide_eq_false fun h => h.2 abs
        exact .inf nan (by rw [sigBits, nan]; rfl) (by rw [infBits, hasInf, decide_eq_true abs]; rfl) hasInf abs two.ne'
      · rename_i some_frac
        have abs : absBits f b ≠ infCode f := fun h => some_frac (by rw [beq_iff_eq]; omega)
        have nan : nanBits f b = true := decide_eq_true ⟨by omega, abs⟩
        have sig : decide (absBits f b - infCode f < 2 ^ (f.mb - 1)) = sigBits f b := by
          rw [sigBits, nan, hasInf, nanCode, if_pos hasInf, Bool.true_and, Bool.true_and]
          exact decide_eq_decide.2 (by omega)
        rw [sig]
        exact .nan nan (by rw [infBits, decide_eq_false abs, Bool.and_false]) (by omega)
    | false =>
      have max : maxCode f = signUnit f - 2 := by rw [maxCode, hasInf]; rfl
      have inf : infBits f b = false := by rw [infBits, hasInf]; rfl
      rw [Bool.false_and, if_neg Bool.false_ne_true, eq, rest]
      split
      · rename_i ones
        have abs : absBits f b = signUnit f - 1 := by
          rw [Bool.not_false, Bool.true_and, Bool.true_and, beq_iff_eq] at ones
          omega
        have sig : sigBits f b = false := by rw [sigBits, hasInf, Bool.and_false, Bool.false_and]
        have nan : nanBits f b = true := decide_eq_true ⟨by omega, by omega⟩
        exact sig ▸ .nan nan inf (by omega)
      · rename_i some_zero
        have abs : absBits f b ≤ maxCode f := by
          rw [Bool.not_false, Bool.true_and, Bool.true_and, beq_iff_eq] at some_zero
          omega
        have reads := reads_fin (decide_eq_false fun h => h.1.not_ge abs) inf
        rwa [if_neg some_exp, rest] at reads

end Sys2Proof.Machine
end

section
namespace Sys2Proof.Machine

/-! ### Sums and products by exact values (R52, R64, R167) -/

/-- An exact result rounded to a format, with the flags of the operation and of the rounding. -/
def Fmt.rounded (f : Fmt) (rm : RMode) (draw : Nat) (x : Fl × FFlags) : Nat × FFlags :=
  ((f.round rm draw x.1).1, x.2 ||| (f.round rm draw x.1).2)

section
variable {f : Fmt} (rm : RMode) (draw : Nat)

theorem rounded_exact (x : Fl) : f.rounded rm draw (x, 0) = f.round rm draw x := Prod.ext rfl BitVec.zero_or

theorem rounded_nan (neg sig : Bool) (fl : FFlags) : f.rounded rm draw (.nan neg sig, fl) = (nanCode f, fl) := by
  rw [← nanBits_false_eq]
  exact Prod.ext rfl BitVec.or_zero

theorem rounded_inf (hasInf : f.hasInf = true) (neg : Bool) (fl : FFlags) :
    f.rounded rm draw (.inf neg, fl) = (withSign f neg (infCode f), fl) := by
  rw [Fmt.rounded, Fmt.round, if_pos hasInf, infBits_eq]
  exact Prod.ext rfl BitVec.or_zero

theorem rounded_zero (neg : Bool) (e : Int) (fl : FFlags) :
    f.rounded rm draw (.fin neg 0 e, fl) = (withSign f neg 0, fl) := Prod.ext rfl BitVec.or_zero

/-- A fraction compares as a magnitude that is as many units. -/
theorem measures_ratio {num den : Nat} (hd : 0 < den) {v : ℚ} (h : v * den = num * 2 ^ f.qmin) : Measures f (ratio num den) v := by
  intro n
  have pos : (0 : ℚ) < den * 2 ^ (33 - f.qmin) := by positivity
  have one : (2 : ℚ) ^ (f.qmin - 33) * 2 ^ (33 - f.qmin) = 1 := by rw [← zpow_add₀ (by norm_num)]; norm_num
  have parts : (2 : ℚ) ^ f.qmin * 2 ^ (33 - f.qmin) = 2 ^ 33 := by rw [← zpow_add₀ (by norm_num)]; norm_num
  have left : (n : ℚ) * 2 ^ (f.qmin - 33) * (den * 2 ^ (33 - f.qmin)) = (n * den : Nat) := by
    rw [mul_mul_mul_comm, mul_comm (n : ℚ), mul_assoc, mul_comm _ (n * _ : ℚ), mul_assoc, one]; push_cast; ring
  have right : v * (den * 2 ^ (33 - f.qmin)) = (num * unitParts : Nat) := by
    rw [← mul_assoc, h, mul_assoc, parts, unitParts]; push_cast; ring
  rw [ratio, ← cmp_eq_compare (_ : ℚ), ← cmp_mul_pos_right pos, left, right, Nat.strictMono_cast.cmp_map_eq, cmp_eq_compare]

theorem rounded_fin (hf : f.Ok) (neg : Bool) {m num den : Nat} {e : Int} (hm : m ≠ 0) (hd : 0 < den)
    (h : (m : ℚ) * 2 ^ e * den = num * 2 ^ f.qmin) :
    Rounds f rm draw neg (ratio num den) (f.rounded rm draw (.fin neg m e, 0)).1 (f.rounded rm draw (.fin neg m e, 0)).2 := by
  rw [rounded_exact]
  exact round_rounds hf rm draw neg hm (measures_ratio hd h)

end

/-- A magnitude with its sign. -/
def signed (neg : Bool) (n : Nat) : Int := if neg then -n else n

theorem unitsOf_eq (f : Fmt) (b : Nat) : unitsOf f b = signed (negBits f b) (magOf f (absBits f b)) := rfl

theorem signed_eq_zero {neg : Bool} {n : Nat} : signed neg n = 0 ↔ n = 0 := by
  cases neg <;> simp [signed]

theorem signed_mul (neg : Bool) (n k : Nat) : signed neg (n * k) = signed neg n * k := by
  cases neg <;> simp [signed]

theorem sign_mul_eq_signed (neg : Bool) (n : Nat) : (if neg then -1 else 1) * (n : Int) = signed neg n := by
  cases neg <;> simp [signed]

/-- Terms of one sign sum to zero only when both are. -/
theorem signed_add_eq_zero {x y : Bool} {m n : Nat} (h : signed x m + signed y n = 0) (hm : m ≠ 0 ∨ n ≠ 0) : x ≠ y := by
  rintro rfl
  cases x <;> simp only [signed, if_true, Bool.false_eq_true, if_false] at h <;> omega

/-- An exact sum in units of 2^q₀, of which both exponents are multiples: its sign, also of a zero, and its magnitude. -/
theorem add_fin (rm : RMode) {x y : Bool} {m n : Nat} {e f q₀ : Int} (he : q₀ ≤ e) (hf : q₀ ≤ f) :
    let z := signed x (m * 2 ^ (e - q₀).toNat) + signed y (n * 2 ^ (f - q₀).toNat)
    ∃ s k q, Fl.add rm (.fin x m e) (.fin y n f) = (.fin s k q, 0) ∧
      (z = 0 → k = 0 ∧ s = if x = y then x else rm == .rdn) ∧
      (z ≠ 0 → k ≠ 0 ∧ s = decide (z < 0) ∧ (k : ℚ) * 2 ^ q = z.natAbs * 2 ^ q₀) := by
  intro z
  obtain ⟨q, hq⟩ : ∃ q, q = min e f := ⟨_, rfl⟩
  obtain ⟨i, hi⟩ : ∃ i, i = signed x (m * 2 ^ (e - q).toNat) + signed y (n * 2 ^ (f - q).toNat) := ⟨_, rfl⟩
  have pow : 0 < 2 ^ (q - q₀).toNat := by positivity
  have scale : z = i * (2 ^ (q - q₀).toNat : Nat) := by
    have left : (e - q₀).toNat = (e - q).toNat + (q - q₀).toNat := by omega
    have right : (f - q₀).toNat = (f - q).toNat + (q - q₀).toNat := by omega
    rw [hi, Int.add_mul, ← signed_mul, ← signed_mul, Nat.mul_assoc, Nat.mul_assoc, ← Nat.pow_add, ← Nat.pow_add, ← left,
      ← right]
  have zero : z = 0 ↔ i = 0 := by rw [scale]; simp
  have pos : (0 : Int) < (2 ^ (q - q₀).toNat : Nat) := by exact_mod_cast pow
  have neg : z < 0 ↔ i < 0 := by
    rw [scale]
    exact ⟨fun h => lt_of_not_ge fun c => h.not_ge (mul_nonneg c pos.le), fun h => mul_neg_of_neg_of_pos h pos⟩
  have sum : Fl.add rm (.fin x m e) (.fin y n f) =
      if m == 0 && n == 0 then (.fin (if x == y then x else zeroSign rm) 0 0, 0)
      else if i == 0 then (.fin (zeroSign rm) 0 0, 0) else (.fin (i < 0) i.natAbs q, 0) := by
    rw [hi, ← sign_mul_eq_signed, ← sign_mul_eq_signed, hq]
    rfl
  rw [sum]
  by_cases both : m = 0 ∧ n = 0
  · obtain ⟨rfl, rfl⟩ := both
    have : z = 0 := by simp [z, signed]
    exact ⟨_, _, _, rfl, fun _ => ⟨rfl, by simp [zeroSign]⟩, fun h => absurd this h⟩
  · have some_part : ¬ (m == 0 && n == 0) = true := by simpa using both
    rw [if_neg some_part]
    by_cases hz : i = 0
    · have differ : x ≠ y := signed_add_eq_zero (hi.symm.trans hz) (by
        simp only [ne_eq, Nat.mul_eq_zero, Nat.pow_eq_zero]; omega)
      rw [if_pos (beq_iff_eq.2 hz)]
      exact ⟨_, _, _, rfl, fun _ => ⟨rfl, by rw [if_neg differ]; rfl⟩, fun h => absurd (zero.2 hz) h⟩
    · rw [if_neg (by rwa [beq_iff_eq])]
      refine ⟨_, _, _, rfl, fun h => absurd (zero.1 h) hz, fun _ => ⟨Int.natAbs_ne_zero.2 hz, decide_eq_decide.2 neg.symm, ?_⟩⟩
      rw [scale, Int.natAbs_mul, Int.natAbs_natCast, scaled_pow (by omega)]

end Sys2Proof.Machine
end

section
namespace Sys2Proof.Machine

/-! ### Float arithmetic of elements (R52, R64, R167) -/

/-- The value of a finite number from its units. -/
theorem value_eq {f : Fmt} {m M : Nat} {e : Int} (exp : f.qmin ≤ e) (mag : m * 2 ^ (e - f.qmin).toNat = M) :
    (m : ℚ) * 2 ^ e = M * 2 ^ f.qmin := by rw [← scaled_pow exp, mag]

theorem unit_cancels {f : Fmt} (hf : f.Ok) : (2 : ℚ) ^ f.qmin * 2 ^ unitExp f = 1 := by
  rw [hf.qmin, zpow_neg, zpow_natCast, inv_mul_cancel₀ (by positivity)]

/-- An infinity is its own encoding. -/
theorem rounded_infinity {f : Fmt} (rm : RMode) (draw : Nat) {a : Nat} (ha : a < 2 * signUnit f) (hasInf : f.hasInf = true)
    (abs : absBits f a = infCode f) : f.rounded rm draw (.inf (negBits f a), 0) = (a, 0) := by
  rw [rounded_inf rm draw hasInf, ← abs, withSign_absBits ha]

section
variable {f : Fmt} (hf : f.Ok) (rm : RMode) (draw : Nat) {a b c : Nat}

include hf

theorem add_sumIs (ha : a < 2 * signUnit f) (hb : b < 2 * signUnit f) :
    SumIs f rm draw a b (f.rounded rm draw (Fl.add rm (f.unpack a) (f.unpack b))).1
      (f.rounded rm draw (Fl.add rm (f.unpack a) (f.unpack b))).2 := by
  have readA := reads_unpack hf a
  have readB := reads_unpack hf b
  generalize f.unpack a = u at readA ⊢
  generalize f.unpack b = v at readB ⊢
  unfold SumIs
  cases readA with
  | nan nanA infA absA =>
    have : Fl.add rm (.nan (negBits f a) (sigBits f a)) v = (.nan false false, if sigBits f a || v.isSig then flInvalid else 0) := rfl
    rw [this, rounded_nan]
    cases readB <;> simp [*, Fl.isSig, flInvalid]
  | inf nanA sigA infA hasInf absA expA =>
    cases readB with
    | nan nanB infB absB => simp [*, Fl.add, Fl.isSig, rounded_nan, flInvalid]
    | inf nanB sigB infB _ absB expB =>
      by_cases same : negBits f a = negBits f b
      · have sum : Fl.add rm (.inf (negBits f a)) (.inf (negBits f b)) = (.inf (negBits f a), 0) := by simp [Fl.add, same]
        rw [sum, rounded_infinity rm draw ha hasInf absA]
        simp [*]
      · have sum : Fl.add rm (.inf (negBits f a)) (.inf (negBits f b)) = (.nan false false, flInvalid) := by simp [Fl.add, same]
        rw [sum, rounded_nan]
        simp [*, flInvalid]
    | fin n e nanB sigB infB expB magB =>
      have sum : Fl.add rm (.inf (negBits f a)) (.fin (negBits f b) n e) = (.inf (negBits f a), 0) := rfl
      rw [sum, rounded_infinity rm draw ha hasInf absA]
      simp [*]
  | fin m e nanA sigA infA expA magA =>
    cases readB with
    | nan nanB infB absB => simp [*, Fl.add, Fl.isSig, rounded_nan, flInvalid]
    | inf nanB sigB infB hasInf absB expB =>
      have sum : Fl.add rm (.fin (negBits f a) m e) (.inf (negBits f b)) = (.inf (negBits f b), 0) := rfl
      rw [sum, rounded_infinity rm draw hb hasInf absB]
      simp [*]
    | fin n e' nanB sigB infB expB magB =>
      obtain ⟨s, k, q, sum, zero, other⟩ := add_fin (x := negBits f a) (y := negBits f b) (m := m) (n := n) rm expA expB
      rw [magA, magB, ← unitsOf_eq, ← unitsOf_eq] at zero other
      rw [sum]
      dsimp only
      simp only [nanA, nanB, infA, infB, Bool.or_self, Bool.and_self, Bool.false_and, Bool.false_eq_true, if_false]
      split
      · rename_i hz
        obtain ⟨rfl, rfl⟩ := zero hz
        rw [rounded_zero]
        exact ⟨rfl, rfl⟩
      · rename_i hz
        obtain ⟨some_part, rfl, value⟩ := other hz
        exact rounded_fin rm draw hf _ some_part Nat.one_pos (by rw [value]; push_cast; ring)

omit hf in
theorem invalid_or (p q : Bool) : ((if p then 1 else 0 : FFlags) ||| if q then 1 else 0) = if p || q then 1 else 0 := by
  cases p <;> cases q <;> rfl

omit hf in
theorem zero_or_flags (fl : FFlags) : 0 ||| fl = fl := BitVec.zero_or

/-- A product of 0 and an infinity. -/
def badProduct (f : Fmt) (a b : Nat) : Bool := (infBits f a && absBits f b == 0) || (absBits f a == 0 && infBits f b)

/-- What the exact product of two encodings is, with its invalid flag: a NaN, an infinity, or a finite number in units of the
square of the format's. -/
inductive ProductReads (f : Fmt) (a b : Nat) : Fl × FFlags → Prop
  | nan (nan : (nanBits f a || nanBits f b || badProduct f a b) = true) :
      ProductReads f a b (.nan false false, if sigBits f a || sigBits f b || badProduct f a b then 1 else 0)
  | inf (nan : (nanBits f a || nanBits f b) = false) (bad : badProduct f a b = false) (inf : (infBits f a || infBits f b) = true)
      (sig : (sigBits f a || sigBits f b) = false) (hasInf : f.hasInf = true) :
      ProductReads f a b (.inf (negBits f a != negBits f b), 0)
  | fin (m : Nat) (e : Int) (nan : (nanBits f a || nanBits f b) = false) (bad : badProduct f a b = false)
      (inf : (infBits f a || infBits f b) = false) (sig : (sigBits f a || sigBits f b) = false) (exp : 2 * f.qmin ≤ e)
      (mag : m * 2 ^ (e - 2 * f.qmin).toNat = magOf f (absBits f a) * magOf f (absBits f b)) :
      ProductReads f a b (.fin (negBits f a != negBits f b) m e, 0)

theorem reads_mul (a b : Nat) : ProductReads f a b (Fl.mul (f.unpack a) (f.unpack b)) := by
  have readA := reads_unpack hf a
  have readB := reads_unpack hf b
  generalize f.unpack a = u at readA ⊢
  generalize f.unpack b = v at readB ⊢
  cases readA with
  | nan nanA infA absA =>
    have bad : badProduct f a b = false := by simp [badProduct, *]
    have product : Fl.mul (.nan (negBits f a) (sigBits f a)) v =
        (.nan false false, if sigBits f a || sigBits f b || badProduct f a b then 1 else 0) := by
      cases readB <;> simp [*, Fl.mul, Fl.isSig, flInvalid]
    exact product ▸ .nan (by simp [nanA])
  | inf nanA sigA infA hasInf absA expA =>
    cases readB with
    | nan nanB infB absB =>
      have bad : badProduct f a b = false := by simp [badProduct, *]
      have product : Fl.mul (.inf (negBits f a)) (.nan (negBits f b) (sigBits f b)) =
          (.nan false false, if sigBits f a || sigBits f b || badProduct f a b then 1 else 0) := by
        simp [*, Fl.mul, Fl.isSig, flInvalid]
      exact product ▸ .nan (by simp [nanB])
    | inf nanB sigB infB _ absB expB =>
      exact .inf (by simp [*]) (by simp [badProduct, *]) (by simp [*]) (by simp [*]) hasInf
    | fin n e nanB sigB infB expB' magB =>
      by_cases zero : n = 0
      · have bad : badProduct f a b = true := by simp [badProduct, infA, (significand_eq_zero magB).1 zero]
        have product : Fl.mul (.inf (negBits f a)) (.fin (negBits f b) n e) =
            (.nan false false, if sigBits f a || sigBits f b || badProduct f a b then 1 else 0) := by
          simp [Fl.mul, zero, bad, flInvalid]
        exact product ▸ .nan (by simp [bad])
      · have bad : badProduct f a b = false := by simp [badProduct, *, mt (significand_eq_zero magB).2 zero]
        have product : Fl.mul (.inf (negBits f a)) (.fin (negBits f b) n e) = (.inf (negBits f a != negBits f b), 0) := by
          simp [Fl.mul, zero]
        exact product ▸ .inf (by simp [*]) bad (by simp [*]) (by simp [*]) hasInf
  | fin m e nanA sigA infA expA magA =>
    cases readB with
    | nan nanB infB absB =>
      have bad : badProduct f a b = false := by simp [badProduct, *]
      have product : Fl.mul (.fin (negBits f a) m e) (.nan (negBits f b) (sigBits f b)) =
          (.nan false false, if sigBits f a || sigBits f b || badProduct f a b then 1 else 0) := by
        simp [*, Fl.mul, Fl.isSig, flInvalid]
      exact product ▸ .nan (by simp [nanB])
    | inf nanB sigB infB hasInf absB expB =>
      by_cases zero : m = 0
      · have bad : badProduct f a b = true := by simp [badProduct, infB, (significand_eq_zero magA).1 zero]
        have product : Fl.mul (.fin (negBits f a) m e) (.inf (negBits f b)) =
            (.nan false false, if sigBits f a || sigBits f b || badProduct f a b then 1 else 0) := by
          simp [Fl.mul, zero, bad, flInvalid]
        exact product ▸ .nan (by simp [bad])
      · have bad : badProduct f a b = false := by simp [badProduct, *, mt (significand_eq_zero magA).2 zero]
        have product : Fl.mul (.fin (negBits f a) m e) (.inf (negBits f b)) = (.inf (negBits f a != negBits f b), 0) := by
          simp [Fl.mul, zero]
        exact product ▸ .inf (by simp [*]) bad (by simp [*]) (by simp [*]) hasInf
    | fin n e' nanB sigB infB expB magB =>
      have exps : (e + e' - 2 * f.qmin).toNat = (e - f.qmin).toNat + (e' - f.qmin).toNat := by omega
      exact .fin (m * n) (e + e') (by simp [*]) (by simp [badProduct, *]) (by simp [*]) (by simp [*]) (by omega)
        (by rw [exps, Nat.pow_add, Nat.mul_mul_mul_comm, magA, magB])

theorem mul_productIs (a b : Nat) : ProductIs f rm draw a b (f.rounded rm draw (Fl.mul (f.unpack a) (f.unpack b))).1
    (f.rounded rm draw (Fl.mul (f.unpack a) (f.unpack b))).2 := by
  have reads := reads_mul hf a b
  generalize Fl.mul (f.unpack a) (f.unpack b) = p at reads ⊢
  unfold ProductIs
  cases reads with
  | nan nan =>
    rw [rounded_nan]
    exact (if_pos nan).symm ▸ ⟨rfl, rfl⟩
  | inf nan bad inf sig hasInf =>
    rw [rounded_inf rm draw hasInf]
    unfold badProduct at bad
    simp [nan, bad, inf]
  | fin m e nan bad inf sig exp mag =>
    have zero : magOf f (absBits f a) * magOf f (absBits f b) = 0 ↔ m = 0 := by rw [← mag]; simp
    unfold badProduct at bad
    simp only [nan, bad, inf, Bool.or_self, Bool.false_eq_true, if_false]
    split
    · rename_i hz
      rw [zero.1 hz, rounded_zero]
      exact ⟨rfl, rfl⟩
    · rename_i hz
      refine rounded_fin rm draw hf _ (mt zero.2 hz) (by positivity) ?_
      rw [← scaled_pow exp, mag, two_mul, zpow_add₀ (by norm_num)]
      push_cast
      linear_combination ((magOf f (absBits f a) : ℚ) * magOf f (absBits f b) * 2 ^ f.qmin) * unit_cancels hf

theorem fma_fmaIs (hc : c < 2 * signUnit f) (a b : Nat) :
    FmaIs f rm draw a b c (f.rounded rm draw (Fl.fma rm (f.unpack a) (f.unpack b) (f.unpack c))).1
      (f.rounded rm draw (Fl.fma rm (f.unpack a) (f.unpack b) (f.unpack c))).2 := by
  have reads := reads_mul hf a b
  have readC := reads_unpack hf c
  unfold Fl.fma
  generalize Fl.mul (f.unpack a) (f.unpack b) = p at reads ⊢
  generalize f.unpack c = u at readC ⊢
  unfold FmaIs
  cases reads with
  | nan nan =>
    have sum : Fl.add rm (.nan false false) u = (.nan false false, if sigBits f c then 1 else 0) := by
      cases readC <;> simp [*, Fl.add, Fl.isSig, flInvalid]
    dsimp only
    rw [sum, rounded_nan, invalid_or]
    unfold badProduct at *
    cases hn : nanBits f a || nanBits f b
    · rw [hn, Bool.false_or] at nan
      simp [nan]
    · simp [Bool.or_right_comm _ _ (sigBits f c)]
  | inf nan bad inf sig hasInf =>
    unfold badProduct at *
    rw [Bool.or_eq_false_iff] at nan sig
    obtain ⟨nanA, nanB⟩ := nan
    obtain ⟨sigA, sigB⟩ := sig
    generalize (negBits f a != negBits f b) = neg
    cases readC with
    | nan nanC infC absC =>
      have sum : Fl.add rm (.inf neg) (.nan (negBits f c) (sigBits f c)) =
          (.nan false false, if sigBits f c then 1 else 0) := by simp [Fl.add, Fl.isSig, flInvalid]
      dsimp only
      rw [sum, rounded_nan]
      simp [*]
    | inf nanC sigC infC _ absC expC =>
      by_cases same : neg = negBits f c
      · have sum : Fl.add rm (.inf neg) (.inf (negBits f c)) =
            (.inf neg, 0) := by simp [Fl.add, same]
        dsimp only
        rw [sum]
        dsimp only
        rw [zero_or_flags, rounded_inf rm draw hasInf]
        simp [*]
      · have sum : Fl.add rm (.inf neg) (.inf (negBits f c)) = (.nan false false, flInvalid) := by
          simp [Fl.add, same]
        dsimp only
        rw [sum, rounded_nan]
        simp [*, flInvalid]
    | fin n e nanC sigC infC expC magC =>
      have sum : Fl.add rm (.inf neg) (.fin (negBits f c) n e) = (.inf neg, 0) := rfl
      dsimp only
      rw [sum]
      dsimp only
      rw [zero_or_flags, rounded_inf rm draw hasInf]
      simp [*]
  | fin m e nan bad inf sig exp mag =>
    unfold badProduct at *
    rw [Bool.or_eq_false_iff] at nan sig
    obtain ⟨nanA, nanB⟩ := nan
    obtain ⟨sigA, sigB⟩ := sig
    generalize (negBits f a != negBits f b) = neg
    cases readC with
    | nan nanC infC absC =>
      have sum : Fl.add rm (.fin neg m e) (.nan (negBits f c) (sigBits f c)) =
          (.nan false false, if sigBits f c then 1 else 0) := by simp [Fl.add, Fl.isSig, flInvalid]
      dsimp only
      rw [sum, rounded_nan]
      simp [*]
    | inf nanC sigC infC hasInf absC expC =>
      have sum : Fl.add rm (.fin neg m e) (.inf (negBits f c)) = (.inf (negBits f c), 0) := rfl
      dsimp only
      rw [sum]
      dsimp only
      rw [zero_or_flags, rounded_infinity rm draw hc hasInf absC]
      simp [*]
    | fin n e' nanC sigC infC expC magC =>
      have units := hf.qmin
      have exps : (e' - 2 * f.qmin).toNat = (e' - f.qmin).toNat + unitExp f := by omega
      obtain ⟨s, k, q, sum, zero, other⟩ := add_fin (x := neg) (y := negBits f c) (m := m) (n := n)
        rm exp (by omega : 2 * f.qmin ≤ e')
      have term : signed (negBits f c) (n * 2 ^ (e' - 2 * f.qmin).toNat) = unitsOf f c * 2 ^ unitExp f := by
        rw [exps, Nat.pow_add, ← Nat.mul_assoc, magC, signed_mul, unitsOf_eq]
        norm_cast
      have product : signed neg (m * 2 ^ (e - 2 * f.qmin).toNat) =
          if neg then -(magOf f (absBits f a) * magOf f (absBits f b) : Int)
          else magOf f (absBits f a) * magOf f (absBits f b) := by
        rw [mag, signed]
        norm_cast
      rw [term, product] at zero other
      dsimp only
      rw [sum]
      dsimp only
      rw [zero_or_flags]
      simp only [nanA, nanB, nanC, bad, inf, infC, Bool.or_self, Bool.and_false, Bool.false_and, Bool.false_eq_true, if_false]
      generalize (if neg then -(magOf f (absBits f a) * magOf f (absBits f b) : Int)
        else magOf f (absBits f a) * magOf f (absBits f b)) + unitsOf f c * 2 ^ unitExp f = z at zero other ⊢
      by_cases hz : z = 0
      · obtain ⟨rfl, rfl⟩ := zero hz
        rw [if_pos hz, rounded_zero]
        exact ⟨rfl, rfl⟩
      · obtain ⟨some_part, rfl, value⟩ := other hz
        rw [if_neg hz]
        refine rounded_fin rm draw hf _ some_part (by positivity) ?_
        rw [value, two_mul, zpow_add₀ (by norm_num)]
        push_cast
        linear_combination ((z.natAbs : ℚ) * 2 ^ f.qmin) * unit_cancels hf

end

end Sys2Proof.Machine
end

section
namespace Sys2Proof.Machine

/-! ### The order of encodings (R51, R52, R170) -/

theorem magOf_strictMono (f : Fmt) : StrictMono (magOf f) := strictMono_nat_of_lt_succ fun b => by
  obtain ⟨D, lo, mag, mag', -⟩ := exists_magOf f b
  rw [mag, mag', Nat.add_mul, Nat.one_mul]
  exact Nat.lt_add_of_pos_right (by positivity)

/-- An encoding that is no NaN and no infinity is at most the largest finite one. -/
theorem absBits_le_maxCode {f : Fmt} (hf : f.Ok) {b : Nat} (nan : nanBits f b = false) (inf : infBits f b = false) :
    absBits f b ≤ maxCode f := by
  by_contra above
  have abs : absBits f b = infCode f := by
    have := of_decide_eq_false nan
    omega
  have top := absBits_lt f b
  have code := signUnit_eq f
  have two : 2 ≤ 2 ^ f.mb := Nat.le_self_pow (by have := hf.mb; omega) 2
  cases hasInf : f.hasInf
  · rw [maxCode, hasInf] at above
    simp at above
    omega
  · simp [infBits, hasInf, abs] at inf

theorem infCode_pos {f : Fmt} (hf : f.Ok) : 0 < infCode f := by
  have : 2 ≤ 2 ^ f.eb := Nat.le_self_pow (by have := hf.eb; omega) 2
  rw [← infBits_eq, Fmt.infBits]
  exact Nat.mul_pos (by omega) (by positivity)

theorem maxCode_lt_infCode {f : Fmt} (hf : f.Ok) (hasInf : f.hasInf = true) : maxCode f < infCode f := by
  have := infCode_pos hf
  rw [maxCode, if_pos hasInf]
  omega

/-- The comparison of two values that are no NaN is that of their units, where an infinity counts as the encoding it is. -/
theorem lt_unpack {f : Fmt} (hf : f.Ok) {a b : Nat} (ha : nanBits f a = false) (hb : nanBits f b = false) :
    Fl.lt (f.unpack a) (f.unpack b) = decide (unitsOf f a < unitsOf f b) := by
  have readA := reads_unpack hf a
  have readB := reads_unpack hf b
  have mono := magOf_strictMono f
  have inf_pos : 0 < magOf f (infCode f) := (Nat.zero_le _).trans_lt (mono (infCode_pos hf))
  have below {c : Nat} (hasInf : f.hasInf = true) (nan : nanBits f c = false) (inf : infBits f c = false) :
      magOf f (absBits f c) < magOf f (infCode f) :=
    mono ((absBits_le_maxCode hf nan inf).trans_lt (maxCode_lt_infCode hf hasInf))
  generalize f.unpack a = u at readA ⊢
  generalize f.unpack b = v at readB ⊢
  rw [unitsOf_eq, unitsOf_eq]
  cases readA with
  | nan nanA => rw [ha] at nanA; exact absurd nanA Bool.false_ne_true
  | inf nanA sigA infA hasInf absA =>
    cases readB with
    | nan nanB => rw [hb] at nanB; exact absurd nanB Bool.false_ne_true
    | inf nanB sigB infB _ absB =>
      rw [absA, absB]
      have opposite : -(magOf f (infCode f) : Int) < magOf f (infCode f) ∧ ¬ (magOf f (infCode f) : Int) < -magOf f (infCode f) := by
        omega
      cases negBits f a <;> cases negBits f b <;> simp [Fl.lt, signed, opposite]
    | fin n e nanB sigB infB expB magB =>
      have := below hasInf nanB infB
      rw [absA]
      cases negBits f a <;> cases negBits f b <;> simp [Fl.lt, signed] <;> omega
  | fin m e nanA sigA infA expA magA =>
    cases readB with
    | nan nanB => rw [hb] at nanB; exact absurd nanB Bool.false_ne_true
    | inf nanB sigB infB hasInf absB =>
      have := below hasInf nanA infA
      rw [absB]
      cases negBits f a <;> cases negBits f b <;> simp [Fl.lt, signed] <;> omega
    | fin n e' nanB sigB infB expB magB =>
      obtain ⟨q, hq⟩ : ∃ q, q = min e e' := ⟨_, rfl⟩
      have pos : (0 : Int) < (2 ^ (q - f.qmin).toNat : Nat) := by positivity
      have left : (e - f.qmin).toNat = (e - q).toNat + (q - f.qmin).toNat := by omega
      have right : (e' - f.qmin).toNat = (e' - q).toNat + (q - f.qmin).toNat := by omega
      have unitsA : signed (negBits f a) (magOf f (absBits f a)) =
          signed (negBits f a) (m * 2 ^ (e - q).toNat) * (2 ^ (q - f.qmin).toNat : Nat) := by
        rw [← magA, left, Nat.pow_add, ← Nat.mul_assoc, signed_mul]
      have unitsB : signed (negBits f b) (magOf f (absBits f b)) =
          signed (negBits f b) (n * 2 ^ (e' - q).toNat) * (2 ^ (q - f.qmin).toNat : Nat) := by
        rw [← magB, right, Nat.pow_add, ← Nat.mul_assoc, signed_mul]
      rw [unitsA, unitsB, ← sign_mul_eq_signed, ← sign_mul_eq_signed, hq, Fl.lt, ← hq]
      exact decide_eq_decide.2 (mul_lt_mul_iff_left₀ pos).symm

theorem isNan_unpack {f : Fmt} (hf : f.Ok) (b : Nat) : (f.unpack b).isNan = nanBits f b := by
  have := reads_unpack hf b
  generalize f.unpack b = u at this ⊢
  cases this <;> simp [Fl.isNan, *]

theorem isSig_unpack {f : Fmt} (hf : f.Ok) (b : Nat) : (f.unpack b).isSig = sigBits f b := by
  have := reads_unpack hf b
  generalize f.unpack b = u at this ⊢
  cases this <;> simp [Fl.isSig, *]

theorem isNeg_unpack {f : Fmt} (hf : f.Ok) (b : Nat) : (f.unpack b).isNeg = negBits f b := by
  have := reads_unpack hf b
  generalize f.unpack b = u at this ⊢
  cases this <;> rfl

theorem eqv_unpack {f : Fmt} (hf : f.Ok) {a b : Nat} (ha : nanBits f a = false) (hb : nanBits f b = false) :
    Fl.eqv (f.unpack a) (f.unpack b) = decide (unitsOf f a = unitsOf f b) := by
  rw [Fl.eqv, isNan_unpack hf, isNan_unpack hf, ha, hb, lt_unpack hf ha hb, lt_unpack hf hb ha, Bool.eq_iff_iff]
  simp
  omega

/-! ### Rounding an exact number of units (R52, R60) -/

/-- A number of units that an encoding has rounds to that encoding, with no flag. -/
theorem round_exact {f : Fmt} (hf : f.Ok) (rm : RMode) (draw : Nat) (neg : Bool) {m n : Nat} {e : Int} (hn : n ≤ maxCode f)
    (h : (m : ℚ) * 2 ^ e = magOf f n * 2 ^ f.qmin) : f.round rm draw (.fin neg m e) = (withSign f neg n, 0) := by
  by_cases hm : m = 0
  · subst hm
    have : magOf f n = 0 := by
      have unit : (2 : ℚ) ^ f.qmin ≠ 0 := by positivity
      rw [Nat.cast_zero, zero_mul, eq_comm, mul_eq_zero, or_iff_left unit] at h
      exact_mod_cast h
    rw [magOf_eq_zero.1 this]
    rfl
  · have hx : Measures f (ratio (magOf f n) 1) (m * 2 ^ e) := measures_ratio Nat.one_pos (by rw [h]; push_cast; ring)
    have rounds := round_rounds hf rm draw neg hm hx
    rw [rounds_iff] at rounds
    obtain ⟨b, low, high, -, delivers⟩ := rounds
    have scale (k : Nat) : ratio (magOf f n) 1 (unitParts * magOf f k) = compare (magOf f k) (magOf f n) := by
      rw [ratio, Nat.mul_one]
      exact Nat.mul_comm unitParts _ ▸ compare_mul_left (by decide) _ _
    rw [scale] at low high
    have floor : b = n := by
      rw [compare_le_iff_le, (magOf_strictMono f).le_iff_le] at low
      rw [compare_gt_iff_gt, (magOf_strictMono f).lt_iff_lt] at high
      omega
    subst floor
    have exact : (ratio (magOf f b) 1 (unitParts * magOf f b) == .eq) = true := by
      rw [scale, beq_iff_eq, compare_eq_iff_eq]
    rw [exact] at delivers
    have stays : stepsUp f rm draw neg (ratio (magOf f b) 1) b = false := by
      unfold stepsUp
      rw [exact]
      rfl
    rw [stays] at delivers
    obtain ⟨code, flags⟩ := delivers hn
    exact Prod.ext code flags

/-- An element that is no NaN rounds to itself. -/
theorem round_unpack {f : Fmt} (hf : f.Ok) (rm : RMode) (draw : Nat) {b : Nat} (hb : b < 2 * signUnit f)
    (nan : nanBits f b = false) : f.round rm draw (f.unpack b) = (b, 0) := by
  have read := reads_unpack hf b
  generalize f.unpack b = u at read ⊢
  cases read with
  | nan h => rw [nan] at h; exact absurd h Bool.false_ne_true
  | inf _ _ _ hasInf abs => rw [← rounded_exact, rounded_infinity rm draw hb hasInf abs]
  | fin m e nan sig inf exp mag =>
    rw [round_exact hf rm draw _ (absBits_le_maxCode hf nan inf) (value_eq exp mag), withSign_absBits hb]

/-- The order of the encodings of one sign, with -0 below +0 (R52). -/
theorem key_lt (f : Fmt) (a b : Nat) :
    let key (b : Nat) : Int := if negBits f b then -(absBits f b : Int) - 1 else absBits f b
    (decide (unitsOf f a < unitsOf f b) || decide (unitsOf f a = unitsOf f b) && negBits f a && !negBits f b) =
      decide (key a < key b) := by
  have order : absBits f a < absBits f b ∧ magOf f (absBits f a) < magOf f (absBits f b) ∨
      absBits f a = absBits f b ∧ magOf f (absBits f a) = magOf f (absBits f b) ∨
      absBits f b < absBits f a ∧ magOf f (absBits f b) < magOf f (absBits f a) := by
    rcases lt_trichotomy (absBits f a) (absBits f b) with lt | eq | gt
    · exact .inl ⟨lt, magOf_strictMono f lt⟩
    · exact .inr (.inl ⟨eq, by rw [eq]⟩)
    · exact .inr (.inr ⟨gt, magOf_strictMono f gt⟩)
  intro key
  rw [Bool.eq_iff_iff, unitsOf_eq, unitsOf_eq]
  cases hA : negBits f a <;> cases hB : negBits f b <;> simp [signed, key, hA, hB] <;> omega

theorem minMax_minMaxIs {f : Fmt} (hf : f.Ok) (max : Bool) {a b : Nat} (ha : a < 2 * signUnit f) (hb : b < 2 * signUnit f) :
    MinMaxIs f max a b (f.round .rne 0 (Fl.minMax max (f.unpack a) (f.unpack b)).1).1
      (Fl.minMax max (f.unpack a) (f.unpack b)).2 := by
  unfold MinMaxIs Fl.minMax
  rw [isNan_unpack hf, isNan_unpack hf, isSig_unpack hf, isSig_unpack hf, isNeg_unpack hf, isNeg_unpack hf]
  cases nanA : nanBits f a <;> cases nanB : nanBits f b
  case true.true => exact ⟨rfl, by rw [← nanBits_false_eq]; rfl⟩
  case true.false => exact ⟨rfl, congrArg Prod.fst (round_unpack hf .rne 0 hb nanB)⟩
  case false.true => exact ⟨rfl, congrArg Prod.fst (round_unpack hf .rne 0 ha nanA)⟩
  case false.false =>
    rw [lt_unpack hf nanA nanB, eqv_unpack hf nanA nanB, key_lt]
    refine ⟨rfl, ?_⟩
    simp only [Bool.and_self, Bool.false_eq_true, if_false]
    rw [apply_ite (fun x => (f.round .rne 0 x).1), round_unpack hf .rne 0 ha nanA, round_unpack hf .rne 0 hb nanB]

end Sys2Proof.Machine
end

section
namespace Sys2Proof.Machine

/-! ### Truncated quotients and roots (R168) -/

theorem Measures.brackets {f : Fmt} {x : Nat → Ordering} {v : ℚ} (h : Measures f x v) {m : Nat} {e : Int}
    (low : (m : ℚ) * 2 ^ e < v) (high : v < (m + 1 : Nat) * 2 ^ e) : Brackets f x m e :=
  ⟨fun n hn => (h n).trans (compare_lt_iff_lt.2 (hn.trans_lt low)), fun n hn => (h n).trans (compare_gt_iff_gt.2 (high.trans_le hn))⟩

/-- x compares the squares of parts of the format's unit with an exact magnitude. -/
def MeasuresSquare (f : Fmt) (x : Nat → Ordering) (v : ℚ) : Prop :=
  ∀ n : Nat, x n = compare (((n : ℚ) * 2 ^ (f.qmin - 33)) ^ 2) v

theorem MeasuresSquare.measures {f : Fmt} {x : Nat → Ordering} {r : ℚ} (hr : 0 ≤ r) (h : MeasuresSquare f x (r ^ 2)) :
    Measures f x r := by
  intro n
  have part : (0 : ℚ) ≤ (n : ℚ) * 2 ^ (f.qmin - 33) := by positivity
  rw [h]
  rcases lt_trichotomy ((n : ℚ) * 2 ^ (f.qmin - 33)) r with lt | eq | gt
  · rw [compare_lt_iff_lt.2 lt, compare_lt_iff_lt.2 (pow_lt_pow_left₀ lt part (by decide))]
  · rw [compare_eq_iff_eq.2 eq, compare_eq_iff_eq.2 (by rw [eq])]
  · rw [compare_gt_iff_gt.2 gt, compare_gt_iff_gt.2 (pow_lt_pow_left₀ gt hr (by decide))]

theorem MeasuresSquare.brackets {f : Fmt} {x : Nat → Ordering} {v : ℚ} (h : MeasuresSquare f x v) {m : Nat} {e : Int}
    (low : ((m : ℚ) * 2 ^ e) ^ 2 < v) (high : v < ((m + 1 : Nat) * 2 ^ e) ^ 2) : Brackets f x m e := by
  refine ⟨fun n hn => (h n).trans (compare_lt_iff_lt.2 ?_), fun n hn => (h n).trans (compare_gt_iff_gt.2 ?_)⟩
  · exact (pow_le_pow_left₀ (by positivity) hn 2).trans_lt low
  · exact high.trans_le (pow_le_pow_left₀ (by positivity) hn 2)

theorem isqrtBits_spec {x : Nat} (n : Nat) {r : Nat} (low : r * r ≤ x) (high : x < (r + 2 ^ n) * (r + 2 ^ n)) :
    isqrtBits x n r * isqrtBits x n r ≤ x ∧ x < (isqrtBits x n r + 1) * (isqrtBits x n r + 1) := by
  induction n generalizing r with
  | zero => exact ⟨low, high⟩
  | succ n ih =>
    rw [isqrtBits]
    split
    · refine ih ‹_› ?_
      rwa [Nat.add_assoc, ← Nat.two_mul, ← Nat.pow_succ']
    · exact ih low (by omega)

/-- The integer square root. -/
theorem isqrt_spec (x : Nat) : isqrt x * isqrt x ≤ x ∧ x < (isqrt x + 1) * (isqrt x + 1) := by
  refine isqrtBits_spec _ (Nat.zero_le _) ?_
  have len : x < 2 ^ bitLen x := by
    by_cases h : x = 0
    · subst h; decide
    · rw [bitLen_eq h]; exact Nat.lt_log2_self
  rw [Nat.zero_add, ← Nat.pow_add]
  exact len.trans_le (Nat.pow_le_pow_right (by decide) (by omega))

theorem le_isqrt {x k : Nat} (h : k * k ≤ x) : k ≤ isqrt x := by
  have := (isqrt_spec x).2
  by_contra lt
  exact absurd (h.trans_lt this) (Nat.not_lt.2 (Nat.mul_le_mul (by omega) (by omega)))

/-- The quotient of two finite numbers is the exact one, truncated with a sticky bit. -/
theorem sticky_quotient {m n : Nat} {e e' : Int} (neg : Bool) (hm : m ≠ 0) (hn : n ≠ 0) (lt : n < 2 ^ 24)
    (expA : fmtF32.qmin ≤ e) (expB : fmtF32.qmin ≤ e') {A B : Nat} (magA : m * 2 ^ (e - fmtF32.qmin).toNat = A)
    (magB : n * 2 ^ (e' - fmtF32.qmin).toNat = B) :
    let s := sticky neg (m * 2 ^ 64 / n) (m * 2 ^ 64 % n != 0) (e - e' - 64)
    Rounds fmtF32 .rne 0 neg (ratio (A * 2 ^ 149) B) (fmtF32.round .rne 0 s).1 (fmtF32.round .rne 0 s).2 := by
  have pos : 0 < n := Nat.pos_of_ne_zero hn
  have large : 2 ^ 25 ≤ m * 2 ^ 64 / n := by
    rw [Nat.le_div_iff_mul_le pos]
    have : 1 ≤ m := Nat.one_le_iff_ne_zero.2 hm
    omega
  have valueA := value_eq expA magA
  have valueB := value_eq expB magB
  have posB : 0 < B := by rw [← magB]; positivity
  have unit : (2 : ℚ) ^ fmtF32.qmin * 2 ^ 149 = 1 := unit_cancels (elemFmt_ok .f32)
  have posn : (0 : ℚ) < n := by exact_mod_cast pos
  have hx : Measures fmtF32 (ratio (A * 2 ^ 149) B) ((m : ℚ) * 2 ^ 64 / n * 2 ^ (e - e' - 64)) := by
    refine measures_ratio posB ?_
    have unitsA : (A : ℚ) = m * 2 ^ e * 2 ^ 149 := by rw [valueA]; linear_combination (-A : ℚ) * unit
    have unitsB : (B : ℚ) = n * 2 ^ e' * 2 ^ 149 := by rw [valueB]; linear_combination (-B : ℚ) * unit
    have exps : (2 : ℚ) ^ (e - e' - 64) * 2 ^ 64 * 2 ^ e' = 2 ^ e := by
      rw [← zpow_natCast, ← zpow_add₀ (by norm_num), ← zpow_add₀ (by norm_num)]; congr 1; omega
    rw [Nat.cast_mul, Nat.cast_pow, Nat.cast_ofNat, unitsA, mul_assoc _ (2 ^ 149 : ℚ), mul_comm (2 ^ 149 : ℚ), unit, unitsB, ← exps]
    field_simp
  have split : (m * 2 ^ 64 / n : Nat) * (n : ℚ) + (m * 2 ^ 64 % n : Nat) = m * 2 ^ 64 := by
    exact_mod_cast Nat.div_add_mod' (m * 2 ^ 64) n
  have rest : ((m * 2 ^ 64 % n : Nat) : ℚ) < n := by exact_mod_cast Nat.mod_lt (m * 2 ^ 64) pos
  have pow : (0 : ℚ) < 2 ^ (e - e' - 64) := by positivity
  refine sticky_rounds (elemFmt_ok .f32) 0 neg _ large (fun more => ?_) (fun more => hx.brackets ?_ ?_)
  · have none : m * 2 ^ 64 % n = 0 := by simpa using more
    rw [none, Nat.cast_zero, add_zero] at split
    rwa [← split, mul_div_cancel_right₀ _ posn.ne'] at hx
  · have some_rest : 0 < m * 2 ^ 64 % n := Nat.pos_of_ne_zero (by simpa using more)
    have : (0 : ℚ) < (m * 2 ^ 64 % n : Nat) := by exact_mod_cast some_rest
    refine mul_lt_mul_of_pos_right ?_ pow
    rw [lt_div_iff₀ posn, ← split]
    exact lt_add_of_pos_right _ this
  · refine mul_lt_mul_of_pos_right ?_ pow
    rw [div_lt_iff₀ posn]
    push_cast at rest split ⊢
    linarith

theorem div_quotientIs {a b : Nat} {u : Fl} (readA : Reads fmtF32 a u) :
    QuotientIs a b (fmtF32.rounded .rne 0 (Fl.div u (fmtF32.unpack b))).1 (fmtF32.rounded .rne 0 (Fl.div u (fmtF32.unpack b))).2 := by
  have readB := reads_unpack (elemFmt_ok .f32) b
  change Reads fmtF32 b (fmtF32.unpack b) at readB
  generalize fmtF32.unpack b = v at readB ⊢
  unfold QuotientIs
  cases readA with
  | nan nanA infA absA =>
    have quotient : Fl.div (.nan (negBits fmtF32 a) (sigBits fmtF32 a)) v =
        (.nan false false, if sigBits fmtF32 a || v.isSig then flInvalid else 0) := rfl
    rw [quotient, rounded_nan]
    cases readB <;> simp [*, Fl.isSig, flInvalid]
  | inf nanA sigA infA hasInf absA some_exp =>
    cases readB with
    | nan nanB infB absB => simp [*, Fl.div, Fl.isSig, rounded_nan, flInvalid]
    | inf nanB sigB infB => simp [*, Fl.div, rounded_nan, flInvalid]
    | fin n e nanB sigB infB expB magB ltB =>
      have quotient : Fl.div (.inf (negBits fmtF32 a)) (.fin (negBits fmtF32 b) n e) =
          (.inf (negBits fmtF32 a != negBits fmtF32 b), 0) := rfl
      rw [quotient, rounded_inf _ _ hasInf]
      simp [*]
  | fin m e nanA sigA infA expA magA ltA =>
    have zeroA := significand_eq_zero magA
    cases readB with
    | nan nanB infB absB => simp [*, Fl.div, Fl.isSig, rounded_nan, flInvalid]
    | inf nanB sigB infB hasInf absB some_exp =>
      have quotient : Fl.div (.fin (negBits fmtF32 a) m e) (.inf (negBits fmtF32 b)) =
          (.fin (negBits fmtF32 a != negBits fmtF32 b) 0 0, 0) := rfl
      rw [quotient, rounded_zero]
      simp [*]
    | fin n e' nanB sigB infB expB magB ltB =>
      have zeroB := significand_eq_zero magB
      by_cases hn : n = 0
      · by_cases hm : m = 0
        · simp [*, Fl.div, rounded_nan, flInvalid, zeroA.1 hm, zeroB.1 hn]
        · have quotient : Fl.div (.fin (negBits fmtF32 a) m e) (.fin (negBits fmtF32 b) n e') =
              (.inf (negBits fmtF32 a != negBits fmtF32 b), flDivz) := by simp [Fl.div, hn, hm]
          rw [quotient, rounded_inf _ _ rfl]
          simp [*, mt zeroA.2 hm, zeroB.1 hn, flDivz]
      · by_cases hm : m = 0
        · subst hm
          have quotient : Fl.div (.fin (negBits fmtF32 a) 0 e) (.fin (negBits fmtF32 b) n e') =
              (.fin (negBits fmtF32 a != negBits fmtF32 b) 0 (e - e' - 64 - 1), 0) := by simp [Fl.div, hn, sticky]
          rw [quotient, rounded_zero]
          simp [*, zeroA.1 rfl, mt zeroB.2 hn]
        · have quotient : Fl.div (.fin (negBits fmtF32 a) m e) (.fin (negBits fmtF32 b) n e') =
              (sticky (negBits fmtF32 a != negBits fmtF32 b) (m * 2 ^ 64 / n) (m * 2 ^ 64 % n != 0) (e - e' - 64), 0) := by
            simp [Fl.div, hn]
          rw [quotient, rounded_exact]
          simp only [nanA, nanB, infA, infB, mt zeroA.2 hm, mt zeroB.2 hn, beq_false_of_ne, ne_eq, not_false_iff, Bool.or_self,
            Bool.and_self, decide_false, Bool.false_eq_true, if_false]
          exact sticky_quotient _ hm hn ltB expA expB magA magB

end Sys2Proof.Machine
end

section
namespace Sys2Proof.Machine

/-! ### Square roots (R168) -/

/-- A finite number with an even exponent. -/
def evenExp (m : Nat) (e : Int) : Nat × Int := if e % 2 == 0 then (m, e) else (2 * m, e - 1)

theorem evenExp_spec {m : Nat} (e : Int) (hm : m ≠ 0) :
    (evenExp m e).1 ≠ 0 ∧ (evenExp m e).1 ≤ 2 * m ∧ (∃ h, (evenExp m e).2 = 2 * h) ∧
      ((evenExp m e).1 : ℚ) * 2 ^ (evenExp m e).2 = m * 2 ^ e := by
  unfold evenExp
  split
  · rename_i even
    exact ⟨hm, by omega, ⟨e / 2, by rw [beq_iff_eq] at even; omega⟩, rfl⟩
  · rename_i odd
    refine ⟨by omega, le_rfl, ⟨(e - 1) / 2, by rw [beq_iff_eq] at odd; omega⟩, ?_⟩
    have halve : (2 : ℚ) ^ e = 2 * 2 ^ (e - 1) := by rw [← zpow_one_add₀ (by norm_num)]; congr 1; omega
    rw [halve]
    push_cast
    ring

/-- The square of a number with half the exponent. -/
theorem sq_half_exp (r : Nat) (h : Int) : ((r : ℚ) * 2 ^ h) ^ 2 = (r * r : Nat) * 2 ^ (2 * h) := by
  rw [mul_pow, ← zpow_natCast (2 ^ h : ℚ), ← zpow_mul, mul_comm h]
  push_cast
  ring

theorem sqrt_fin {m : Nat} (e : Int) (hm : m ≠ 0) : Fl.sqrt (.fin false m e) =
    (sticky false (isqrt ((evenExp m e).1 * 2 ^ 80))
      (isqrt ((evenExp m e).1 * 2 ^ 80) * isqrt ((evenExp m e).1 * 2 ^ 80) != (evenExp m e).1 * 2 ^ 80)
      ((evenExp m e).2 / 2 - 40), 0) := by
  have some_part : ¬ (m == 0) = true := by rwa [beq_iff_eq]
  unfold Fl.sqrt evenExp
  dsimp only
  rw [if_neg some_part]
  cases e % 2 == 0 <;> rfl

theorem rsqrt_fin {m : Nat} (e : Int) (hm : m ≠ 0) : Fl.rsqrt (.fin false m e) =
    (sticky false (isqrt (2 ^ 160 / (evenExp m e).1))
      (isqrt (2 ^ 160 / (evenExp m e).1) * isqrt (2 ^ 160 / (evenExp m e).1) * (evenExp m e).1 != 2 ^ 160)
      (-((evenExp m e).2 / 2) - 80), 0) := by
  have some_part : ¬ (m == 0) = true := by rwa [beq_iff_eq]
  unfold Fl.rsqrt evenExp
  dsimp only
  rw [if_neg some_part]
  cases e % 2 == 0 <;> rfl

theorem two_zpow_mul {a b c : Int} (h : a + b = c) : (2 : ℚ) ^ a * 2 ^ b = 2 ^ c := by rw [← zpow_add₀ (by norm_num), h]

theorem unitParts_sq : unitParts ^ 2 = 2 ^ 66 := by rw [unitParts, ← Nat.pow_mul]

theorem qmin_f32 : fmtF32.qmin = -149 := rfl

section
variable {M p : Nat} {h : Int} (hp : p ≠ 0) (value : (p : ℚ) * 2 ^ (2 * h) = M * 2 ^ fmtF32.qmin)
include hp value

/-- The root of a positive number with an even exponent is the exact one, truncated with a sticky bit. -/
theorem sticky_root :
    let r := isqrt (p * 2 ^ 80)
    let s := sticky false r (r * r != p * 2 ^ 80) (h - 40)
    Rounds fmtF32 .rne 0 false (fun n => compare (n * n) (M * 2 ^ 149 * unitParts ^ 2)) (fmtF32.round .rne 0 s).1
      (fmtF32.round .rne 0 s).2 := by
  obtain ⟨low, high⟩ := isqrt_spec (p * 2 ^ 80)
  have large : 2 ^ 25 ≤ isqrt (p * 2 ^ 80) := le_isqrt (by omega)
  generalize isqrt (p * 2 ^ 80) = r at low high large
  have hx : MeasuresSquare fmtF32 (fun n => compare (n * n) (M * 2 ^ 149 * unitParts ^ 2)) (p * 2 ^ (2 * h)) := by
    intro n
    have parts : (M : ℚ) * 2 ^ fmtF32.qmin = (M * 2 ^ 149 * unitParts ^ 2 : Nat) * 2 ^ (2 * (fmtF32.qmin - 33)) := by
      rw [unitParts_sq, Nat.mul_assoc, ← Nat.pow_add, Nat.cast_mul, Nat.cast_pow, Nat.cast_ofNat, ← zpow_natCast (2 : ℚ),
        mul_assoc, two_zpow_mul rfl]
      rfl
    dsimp only
    rw [value, parts, sq_half_exp, compare_scaled]
  have square (k : Nat) : ((k : ℚ) * 2 ^ (h - 40)) ^ 2 = (k * k : Nat) * 2 ^ (2 * h - 80) := by
    rw [sq_half_exp]
    congr 2
    omega
  have target : (p : ℚ) * 2 ^ (2 * h) = (p * 2 ^ 80 : Nat) * 2 ^ (2 * h - 80) := by
    rw [Nat.cast_mul, Nat.cast_pow, mul_assoc, Nat.cast_ofNat, ← zpow_natCast (2 : ℚ) 80, ← zpow_add₀ (by norm_num)]
    congr 2
    omega
  have pow : (0 : ℚ) < 2 ^ (2 * h - 80) := by positivity
  refine sticky_rounds (elemFmt_ok .f32) 0 false _ large (fun more => ?_) (fun more => hx.brackets ?_ ?_)
  · have exact : r * r = p * 2 ^ 80 := by simpa using more
    refine MeasuresSquare.measures (by positivity) ?_
    rwa [square, exact, ← target]
  · have strict : r * r < p * 2 ^ 80 := lt_of_le_of_ne low (by simpa using more)
    rw [square, target]
    exact mul_lt_mul_of_pos_right (by exact_mod_cast strict) pow
  · rw [square, target]
    exact mul_lt_mul_of_pos_right (by exact_mod_cast high) pow

/-- One over the root of a positive number with an even exponent is the exact one, truncated with a sticky bit. -/
theorem sticky_inverseRoot (lt : p < 2 ^ 25) :
    let r := isqrt (2 ^ 160 / p)
    let s := sticky false r (r * r * p != 2 ^ 160) (-h - 80)
    Rounds fmtF32 .rne 0 false (fun n => compare (n * n * M) (2 ^ 447 * unitParts ^ 2)) (fmtF32.round .rne 0 s).1
      (fmtF32.round .rne 0 s).2 := by
  have pos : 0 < p := Nat.pos_of_ne_zero hp
  have posM : (0 : ℚ) < M := by
    have : (0 : ℚ) < M * 2 ^ fmtF32.qmin := value ▸ by positivity
    exact pos_of_mul_pos_left this (by positivity)
  obtain ⟨low, high⟩ := isqrt_spec (2 ^ 160 / p)
  have large : 2 ^ 25 ≤ isqrt (2 ^ 160 / p) := le_isqrt ((Nat.le_div_iff_mul_le pos).2 (by omega))
  rw [Nat.le_div_iff_mul_le pos] at low
  rw [Nat.div_lt_iff_lt_mul pos] at high
  generalize isqrt (2 ^ 160 / p) = r at low high large
  have hx : MeasuresSquare fmtF32 (fun n => compare (n * n * M) (2 ^ 447 * unitParts ^ 2)) (p * 2 ^ (2 * h))⁻¹ := by
    intro n
    have left : ((n : ℚ) * 2 ^ (fmtF32.qmin - 33)) ^ 2 * M = (n * n * M : Nat) * 2 ^ (2 * (fmtF32.qmin - 33)) := by
      rw [sq_half_exp, mul_right_comm, ← Nat.cast_mul]
    have right : ((M : ℚ) * 2 ^ fmtF32.qmin)⁻¹ * M = (2 ^ 447 * unitParts ^ 2 : Nat) * 2 ^ (2 * (fmtF32.qmin - 33)) := by
      rw [mul_inv, mul_right_comm, inv_mul_cancel₀ posM.ne', one_mul, ← zpow_neg, unitParts_sq, Nat.cast_mul, Nat.cast_pow,
        Nat.cast_pow, Nat.cast_ofNat, ← zpow_natCast (2 : ℚ) 447, ← zpow_natCast (2 : ℚ) 66, two_zpow_mul rfl, two_zpow_mul rfl]
      rfl
    dsimp only
    rw [value, ← cmp_eq_compare (_ : ℚ), ← cmp_mul_pos_right posM, left, right, cmp_eq_compare, compare_scaled]
  obtain ⟨c, hc⟩ : ∃ c : ℚ, c = 2 ^ (-(2 * h) - 160) * (p : ℚ)⁻¹ := ⟨_, rfl⟩
  have pow : 0 < c := by rw [hc]; positivity
  have square (k : Nat) : ((k : ℚ) * 2 ^ (-h - 80)) ^ 2 = (k * k * p : Nat) * c := by
    have exps : 2 * (-h - 80) = -(2 * h) - 160 := by omega
    rw [sq_half_exp, exps, hc]
    push_cast
    field_simp
  have target : ((p : ℚ) * 2 ^ (2 * h))⁻¹ = (2 ^ 160 : Nat) * c := by
    rw [hc, mul_inv, ← zpow_neg, zpow_sub₀ (by norm_num)]
    push_cast
    norm_num
    ring
  refine sticky_rounds (elemFmt_ok .f32) 0 false _ large (fun more => ?_) (fun more => hx.brackets ?_ ?_)
  · have exact : r * r * p = 2 ^ 160 := by simpa using more
    refine MeasuresSquare.measures (by positivity) ?_
    rwa [square, exact, ← target]
  · have strict : r * r * p < 2 ^ 160 := lt_of_le_of_ne low (by simpa using more)
    rw [square, target]
    exact mul_lt_mul_of_pos_right (by exact_mod_cast strict) pow
  · rw [square, target]
    exact mul_lt_mul_of_pos_right (by exact_mod_cast high) pow

end

theorem sqrt_rootIs {a : Nat} (ha : a < 2 ^ 32) : RootIs false a (fmtF32.rounded .rne 0 (Fl.sqrt (fmtF32.unpack a))).1
    (fmtF32.rounded .rne 0 (Fl.sqrt (fmtF32.unpack a))).2 := by
  have read := reads_unpack (elemFmt_ok .f32) a
  have code : withSign fmtF32 (negBits fmtF32 a) (absBits fmtF32 a) = a := withSign_absBits ha
  change Reads fmtF32 a (fmtF32.unpack a) at read
  generalize fmtF32.unpack a = u at read ⊢
  unfold RootIs
  cases read with
  | nan nan inf abs => simp [Fl.sqrt, rounded_nan, *, flInvalid]
  | inf nan sig inf hasInf abs some_exp =>
    cases neg : negBits fmtF32 a
    · have root : Fl.sqrt (.inf false) = (.inf (negBits fmtF32 a), 0) := by rw [neg]; rfl
      rw [root, rounded_infinity _ _ ha hasInf abs]
      simp [*]
    · simp [Fl.sqrt, rounded_nan, *, flInvalid]
  | fin m e nan sig inf exp mag lt =>
    have zero := significand_eq_zero mag
    by_cases hm : m = 0
    · subst hm
      have root : Fl.sqrt (.fin (negBits fmtF32 a) 0 e) = (.fin (negBits fmtF32 a) 0 0, 0) := rfl
      rw [root, rounded_zero, ← zero.1 rfl, code]
      simp [nan, zero.1 rfl]
    · cases neg : negBits fmtF32 a
      · have root := sqrt_fin e hm
        obtain ⟨some_part, -, ⟨h, half⟩, value⟩ := evenExp_spec e hm
        generalize evenExp m e = p at root some_part half value
        rw [half, Int.mul_ediv_cancel_left _ (by decide)] at root
        rw [half] at value
        rw [root, rounded_exact]
        simp only [nan, inf, neg, mt zero.2 hm, Bool.false_eq_true, if_false]
        exact sticky_root some_part (value.trans (value_eq exp mag))
      · simp [Fl.sqrt, rounded_nan, *, flInvalid, mt zero.2 hm]

theorem rsqrt_rootIs (a : Nat) : RootIs true a (fmtF32.rounded .rne 0 (Fl.rsqrt (fmtF32.unpack a))).1
    (fmtF32.rounded .rne 0 (Fl.rsqrt (fmtF32.unpack a))).2 := by
  have read := reads_unpack (elemFmt_ok .f32) a
  change Reads fmtF32 a (fmtF32.unpack a) at read
  generalize fmtF32.unpack a = u at read ⊢
  unfold RootIs
  cases read with
  | nan nan inf abs => simp [Fl.rsqrt, rounded_nan, *, flInvalid]
  | inf nan sig inf hasInf abs some_exp =>
    cases neg : negBits fmtF32 a
    · have root : Fl.rsqrt (.inf false) = (.fin false 0 0, 0) := rfl
      rw [root, rounded_zero]
      simp [*, withSign]
    · simp [Fl.rsqrt, rounded_nan, *, flInvalid]
  | fin m e nan sig inf exp mag lt =>
    have zero := significand_eq_zero mag
    by_cases hm : m = 0
    · subst hm
      have root : Fl.rsqrt (.fin (negBits fmtF32 a) 0 e) = (.inf (negBits fmtF32 a), flDivz) := rfl
      rw [root, rounded_inf _ _ rfl]
      simp [nan, zero.1 rfl, flDivz]
    · cases neg : negBits fmtF32 a
      · have root := rsqrt_fin e hm
        obtain ⟨some_part, bound, ⟨h, half⟩, value⟩ := evenExp_spec e hm
        generalize evenExp m e = p at root some_part bound half value
        rw [half, Int.mul_ediv_cancel_left _ (by decide)] at root
        rw [half] at value
        rw [root, rounded_exact]
        simp only [nan, inf, neg, mt zero.2 hm, Bool.false_eq_true, if_false, if_true]
        exact sticky_inverseRoot some_part (value.trans (value_eq exp mag)) (by have : m < 2 ^ 24 := lt; omega)
      · simp [Fl.rsqrt, rounded_nan, *, flInvalid, mt zero.2 hm]

end Sys2Proof.Machine
end

section
namespace Sys2Proof.Machine

/-! ### Between which encodings a result lies (R60, R168) -/

theorem measures_self (f : Fmt) (v : ℚ) : Measures f (fun n => compare ((n : ℚ) * 2 ^ (f.qmin - 33)) v) v := fun _ => rfl

/-- Parts of a unit in units. -/
theorem parts_mul (f : Fmt) (k : Nat) : ((unitParts * k : Nat) : ℚ) * 2 ^ (f.qmin - 33) = k * 2 ^ f.qmin := by
  have : (2 : ℚ) ^ (33 : Int) * 2 ^ (f.qmin - 33) = 2 ^ f.qmin := two_zpow_mul (by omega)
  rw [← this, unitParts]
  push_cast
  ring

theorem magOf_le_iff (f : Fmt) (a b : Nat) : (magOf f a : ℚ) * 2 ^ f.qmin ≤ magOf f b * 2 ^ f.qmin ↔ a ≤ b := by
  rw [mul_le_mul_iff_left₀ (by positivity), Nat.cast_le, (magOf_strictMono f).le_iff_le]

theorem magOf_lt_iff (f : Fmt) (a b : Nat) : (magOf f a : ℚ) * 2 ^ f.qmin < magOf f b * 2 ^ f.qmin ↔ a < b := by
  rw [mul_lt_mul_iff_left₀ (by positivity), Nat.cast_lt, (magOf_strictMono f).lt_iff_lt]

/-- What is known of a rounding in RNE without the exact value: the encodings at and below the value stay below the result, those
at and above it stay above, and an odd multiple of a part of a unit is inexact. -/
structure Between (f : Fmt) (neg : Bool) (v : ℚ) (inexact : Prop) (out : Nat × FFlags) (n : Nat) : Prop where
  code : out.1 = withSign f neg n
  le : n ≤ infCode f
  low : ∀ lo, lo ≤ infCode f → (magOf f lo : ℚ) * 2 ^ f.qmin ≤ v → lo ≤ n
  high : ∀ hi, v ≤ magOf f hi * 2 ^ f.qmin → n ≤ hi
  overflow : n = infCode f → out.2 = 0b10100
  flags : inexact → out.2 &&& 0b10111 = if n = infCode f then 0b10100 else 0b10000

theorem round_between {f : Fmt} (hf : f.Ok) (hasInf : f.hasInf = true) (neg : Bool) {m : Nat} {e : Int} (hm : m ≠ 0) :
    ∃ n, Between f neg (m * 2 ^ e) (m % 2 = 1 ∧ e < f.qmin) (f.round .rne 0 (.fin neg m e)) n := by
  have rounds := round_rounds hf .rne 0 neg hm (measures_self f (m * 2 ^ e))
  generalize f.round .rne 0 (.fin neg m e) = out at rounds
  rw [rounds_iff] at rounds
  obtain ⟨b, low, high, delivers⟩ := rounds
  rw [compare_le_iff_le, parts_mul] at low
  rw [compare_gt_iff_gt, parts_mul] at high
  have max := maxCode_lt_infCode hf hasInf
  have next : infCode f = maxCode f + 1 := by
    have := infCode_pos hf
    rw [maxCode, if_pos hasInf]
    omega
  have exact : (compare (((unitParts * magOf f b : Nat) : ℚ) * 2 ^ (f.qmin - 33)) (m * 2 ^ e) == .eq) = true ↔
      (magOf f b : ℚ) * 2 ^ f.qmin = m * 2 ^ e := by
    rw [beq_iff_eq, compare_eq_iff_eq, parts_mul]
  obtain ⟨n, hn⟩ : ∃ n, n = if stepsUp f .rne 0 neg (fun n => compare ((n : ℚ) * 2 ^ (f.qmin - 33)) (m * 2 ^ e)) b then b + 1
    else b := ⟨_, rfl⟩
  have atLeast : b ≤ n := by rw [hn]; split <;> omega
  have atMost : ∀ hi, (m : ℚ) * 2 ^ e ≤ magOf f hi * 2 ^ f.qmin → n ≤ hi := by
    intro hi h
    rcases Nat.lt_or_eq_of_le ((magOf_le_iff f b hi).1 (low.trans h)) with lt | rfl
    · rw [hn]; split <;> omega
    · have stays : stepsUp f .rne 0 neg (fun n => compare ((n : ℚ) * 2 ^ (f.qmin - 33)) (m * 2 ^ e)) b = false := by
        unfold stepsUp
        rw [exact.2 (low.antisymm h)]
        rfl
      rw [hn, stays]
      exact le_rfl
  have floor : ∀ lo, (magOf f lo : ℚ) * 2 ^ f.qmin ≤ m * 2 ^ e → lo ≤ b := fun lo h =>
    Nat.le_of_lt_succ ((magOf_lt_iff f lo (b + 1)).1 (h.trans_lt high))
  rw [← hn] at delivers
  obtain ⟨large, finite⟩ := delivers
  rcases Nat.lt_or_ge (maxCode f) n with hover | hfinite
  · obtain ⟨code, flags⟩ := large hover
    rw [hasInf] at code
    exact ⟨infCode f, code, le_rfl, fun lo h _ => h, fun hi h => by have := atMost hi h; omega, fun _ => flags,
      fun _ => by rw [flags, if_pos rfl]; rfl⟩
  · obtain ⟨code, flags⟩ := finite hfinite
    refine ⟨n, code, by omega, fun lo _ h => (floor lo h).trans atLeast, atMost, fun h => absurd h (by omega), ?_⟩
    rintro ⟨odd, fine⟩
    have inexact : (compare (((unitParts * magOf f b : Nat) : ℚ) * 2 ^ (f.qmin - 33)) (m * 2 ^ e) == .eq) = false := by
      rw [← Bool.not_eq_true, exact]
      intro eq
      have : m = magOf f b * 2 ^ (f.qmin - e).toNat := by
        have scaled : (m : ℚ) * 2 ^ e = (magOf f b * 2 ^ (f.qmin - e).toNat : Nat) * 2 ^ e := by
          rw [scaled_pow (by omega), eq]
        have unit : (2 : ℚ) ^ e ≠ 0 := by positivity
        exact_mod_cast mul_right_cancel₀ unit scaled
      obtain ⟨j, hj⟩ := Nat.exists_eq_succ_of_ne_zero (by omega : (f.qmin - e).toNat ≠ 0)
      rw [hj, Nat.pow_succ, ← Nat.mul_assoc] at this
      omega
    rw [flags, inexact, if_neg Bool.false_ne_true, if_neg (by omega : n ≠ infCode f)]
    cases isTiny f .rne 0 neg (fun n => compare ((n : ℚ) * 2 ^ (f.qmin - 33)) (m * 2 ^ e)) <;> rfl

theorem exists_double (f : Fmt) (b : Nat) : ∃ b', magOf f b' = magOf f b * 2 := by
  have pos : 0 < 2 ^ f.mb := by positivity
  by_cases small : b < 2 ^ f.mb
  · refine ⟨0 * 2 ^ f.mb + 2 * b, ?_⟩
    rw [magOf_add (.inl rfl) (by rw [Nat.pow_succ]; omega), magOf_of_lt small]
    ring
  · refine ⟨b + 2 ^ f.mb, ?_⟩
    obtain ⟨j, hj⟩ := Nat.exists_eq_succ_of_ne_zero (Nat.div_pos (Nat.not_lt.1 small) pos).ne'
    rw [magOf, magOf, if_neg (by omega), if_neg small, Nat.add_mod_right, Nat.add_div_right _ pos, hj]
    simp [Nat.pow_succ, Nat.mul_assoc]

/-- Every small whole number of a power of two units has an encoding. -/
theorem exists_code (f : Fmt) {i : Nat} (D : Nat) (hi : i < 2 ^ (f.mb + 1)) : ∃ b, magOf f b = i * 2 ^ D := by
  induction D with
  | zero => exact ⟨0 * 2 ^ f.mb + i, magOf_add (.inl rfl) hi.le⟩
  | succ D ih =>
    obtain ⟨b, hb⟩ := ih
    obtain ⟨b', hb'⟩ := exists_double f b
    exact ⟨b', by rw [hb', hb, Nat.pow_succ, Nat.mul_assoc]⟩

theorem negBits_withSign {f : Fmt} (neg : Bool) {n : Nat} (hn : n < signUnit f) : negBits f (withSign f neg n) = neg := by
  have pos : 0 < signUnit f := (Nat.zero_le n).trans_lt hn
  cases neg <;> simp [negBits, withSign, Nat.div_eq_of_lt hn, Nat.add_div_left _ pos]

theorem absBits_withSign {f : Fmt} (neg : Bool) {n : Nat} (hn : n < signUnit f) : absBits f (withSign f neg n) = n := by
  cases neg <;> simp [absBits, withSign, Nat.mod_eq_of_lt hn]

theorem infCode_lt (f : Fmt) : infCode f < signUnit f := by
  have := signUnit_eq f
  have : 0 < 2 ^ f.mb := by positivity
  omega

theorem unitsOf_withSign {f : Fmt} (neg : Bool) {n : Nat} (hn : n ≤ infCode f) :
    unitsOf f (withSign f neg n) = signed neg (magOf f n) := by
  have := hn.trans_lt (infCode_lt f)
  rw [unitsOf_eq, negBits_withSign neg this, absBits_withSign neg this]

theorem nanBits_withSign {f : Fmt} (neg : Bool) {n : Nat} (hn : n ≤ maxCode f) (hi : n ≤ infCode f) :
    nanBits f (withSign f neg n) = false := by
  rw [nanBits, absBits_withSign neg (hi.trans_lt (infCode_lt f))]
  exact decide_eq_false (by omega)

theorem infBits_withSign {f : Fmt} (neg : Bool) {n : Nat} (hn : n < infCode f) : infBits f (withSign f neg n) = false := by
  rw [infBits, absBits_withSign neg (hn.trans (infCode_lt f)), decide_eq_false hn.ne, Bool.and_false]

/-! ### 2^a (R168) -/

/-- A power of two of half the unit or less rounds to zero. -/
theorem round_below_half {k : Int} (hk : k < -149) : fmtF32.round .rne 0 (.fin false 1 k) = (0, 0b11000) := by
  have free : fmtF32.freeQuantum 1 k = k - 23 := by
    have : bitLen 1 = 1 := rfl
    rw [Fmt.freeQuantum, this, show fmtF32.mb = 23 from rfl]
    omega
  obtain ⟨j, hj⟩ := Nat.exists_eq_succ_of_ne_zero (by omega : (-149 - k).toNat ≠ 0)
  have pow : 1 < 2 ^ (-149 - k).toNat := by rw [hj]; exact Nat.one_lt_two_pow (by omega)
  have rounded : roundAt .rne 0 false 1 k (-149) = (0, true) := by
    rw [roundAt_eq (w := k) le_rfl (by omega)]
    simp only [sub_self, Int.toNat_zero, pow_zero, mul_one, Nat.div_eq_of_lt pow, Nat.mod_eq_of_lt pow]
    simp [roundsUp, Nat.mod_eq_of_lt pow, Nat.div_eq_of_lt pow, hk]
  have precise : (roundAt .rne 0 false 1 k (k - 23)).1 < 2 ^ (fmtF32.qmin + fmtF32.mb - (k - 23)).toNat := by
    have shift : (k - (k - 23)).toNat = 23 := by omega
    have : roundAt .rne 0 false 1 k (k - 23) = (1 * 2 ^ (k - (k - 23)).toNat, false) := if_pos (by omega)
    rw [this, shift, Nat.one_mul]
    refine Nat.pow_lt_pow_right (by decide) ?_
    rw [qmin_f32, show fmtF32.mb = 23 from rfl]
    omega
  rw [round_fin .rne 0 false Nat.one_ne_zero (q := -149) (by rw [free, qmin_f32]; omega), free, rounded, decide_eq_true precise,
    decide_eq_true (by rw [qmin_f32]; omega : k - 23 < fmtF32.qmin)]
  decide

/-- The units of infinity's encoding. -/
theorem magOf_infCode_f32 : ∃ top : Nat, top = 277 ∧ magOf fmtF32 (infCode fmtF32) = 2 ^ top := by
  obtain ⟨d, hd⟩ : ∃ d, d = 254 := ⟨_, rfl⟩
  have code : infCode fmtF32 = d * 2 ^ fmtF32.mb + 2 ^ fmtF32.mb := by rw [hd]; rfl
  refine ⟨fmtF32.mb + d, by rw [hd]; rfl, ?_⟩
  rw [code, magOf_add (.inr le_rfl) (Nat.pow_le_pow_right (by decide) (Nat.le_succ _)), Nat.pow_add]

/-- A power of two in units. -/
theorem two_pow_units (j : Nat) : ((2 ^ j : Nat) : ℚ) * 2 ^ fmtF32.qmin = 2 ^ ((j : Int) - 149) := by
  rw [Nat.cast_pow, Nat.cast_ofNat, ← zpow_natCast, two_zpow_mul rfl]
  rfl

/-- A power of two rounded to f32: exact where it has an encoding, infinity above and 0 with underflow below. -/
theorem round_two_pow (k : Int) :
    let out := fmtF32.round .rne 0 (.fin false 1 k)
    if 128 ≤ k then out = (infCode fmtF32, 0b10100)
    else if -149 ≤ k then out.1 < infCode fmtF32 ∧ magOf fmtF32 out.1 = 2 ^ (149 + k).toNat ∧ out.2 = 0 else out = (0, 0b11000) := by
  intro out
  obtain ⟨top, htop, inf⟩ := magOf_infCode_f32
  split
  · rename_i large
    obtain ⟨n, between⟩ := round_between (elemFmt_ok .f32) rfl false (m := 1) (e := k) Nat.one_ne_zero
    change Between fmtF32 _ _ _ out n at between
    have n_eq : n = infCode fmtF32 := by
      refine between.le.antisymm (between.low _ le_rfl ?_)
      rw [inf, two_pow_units, Nat.cast_one, one_mul]
      exact zpow_le_zpow_right₀ (by norm_num) (by omega)
    exact Prod.ext (between.code.trans (by rw [n_eq]; rfl)) (between.overflow n_eq)
  · split
    · rename_i small normal
      obtain ⟨n, hn⟩ := exists_code fmtF32 (149 + k).toNat (i := 1) (by decide)
      rw [Nat.one_mul] at hn
      have lt : n < infCode fmtF32 := by
        rw [← (magOf_strictMono fmtF32).lt_iff_lt, hn, inf]
        exact Nat.pow_lt_pow_right (by decide) (by omega)
      have out_eq : out = (withSign fmtF32 false n, 0) := by
        refine round_exact (elemFmt_ok .f32) .rne 0 false (Nat.le_sub_one_of_lt lt) ?_
        rw [show magOf (elemFmt .f32) n = _ from hn]
        refine Eq.trans ?_ (two_pow_units _).symm
        rw [Nat.cast_one, one_mul]
        congr 1
        omega
      rw [out_eq]
      exact ⟨by simpa [withSign] using lt, by simpa [withSign] using hn, rfl⟩
    · rename_i small tiny
      exact round_below_half (by omega)

/-- The loop of exp2 keeps the product from 1 up and below 2, while the root is that far from 1. -/
theorem exp2Loop_bounds {P : Nat} (hP : P = 2 ^ funPrec) (f n k : Nat) {root acc : Nat} (hk : 4 ^ k ≤ P) (hr : P + 4 ^ k ≤ root)
    (ha : P ≤ acc) (hp : acc * root ≤ 2 * P * P) : P ≤ exp2Loop f n k root acc ∧ exp2Loop f n k root acc < 2 * P := by
  have pos : 0 < P := by rw [hP]; positivity
  induction k generalizing root acc with
  | zero =>
    refine ⟨ha, ?_⟩
    by_contra large
    have : 2 * P * (P + 1) ≤ acc * root := Nat.mul_le_mul (Nat.not_lt.1 large) hr
    rw [Nat.mul_add_one] at this
    omega
  | succ k ih =>
    rw [exp2Loop, ← hP]
    have low := (isqrt_spec (root * P)).1
    rw [Nat.pow_succ] at hk hr
    generalize 4 ^ k = d at ih hk hr
    have next : P + d ≤ isqrt (root * P) := le_isqrt <| by
      calc (P + d) * (P + d) = P * P + 2 * (d * P) + d * d := by ring
        _ ≤ P * P + 2 * (d * P) + d * P := Nat.add_le_add_left (Nat.mul_le_mul_left d (by omega)) _
        _ ≤ (P + d * 4) * P := by linarith [Nat.zero_le (d * P)]
        _ ≤ root * P := Nat.mul_le_mul_right P hr
    generalize isqrt (root * P) = root' at low next ⊢
    split
    · refine ih (by omega) next ((Nat.le_div_iff_mul_le pos).2 (Nat.mul_le_mul ha (by omega))) ?_
      refine Nat.le_of_mul_le_mul_right ?_ pos
      calc acc * root' / P * root' * P = acc * root' / P * P * root' := by ring
        _ ≤ acc * root' * root' := Nat.mul_le_mul_right _ (Nat.div_mul_le_self _ _)
        _ = acc * (root' * root') := Nat.mul_assoc ..
        _ ≤ acc * (root * P) := Nat.mul_le_mul_left _ low
        _ = acc * root * P := (Nat.mul_assoc ..).symm
        _ ≤ 2 * P * P * P := Nat.mul_le_mul_right _ hp
    · have less : root' ≤ root := Nat.mul_self_le_mul_self_iff.1 (low.trans (Nat.mul_le_mul_left _ (by omega)))
      exact ih (by omega) next ha ((Nat.mul_le_mul_left _ less).trans hp)

/-- The result of a whole power of two. -/
theorem rounded_two_pow {a : Nat} {k : Int} (nan : nanBits fmtF32 a = false) (inf : infBits fmtF32 a = false)
    (hk : unitsOf fmtF32 a / 2 ^ 149 = k) (whole : unitsOf fmtF32 a % 2 ^ 149 = 0) :
    Exp2Is a (fmtF32.rounded .rne 0 (.fin false 1 k, 0)).1 (fmtF32.rounded .rne 0 (.fin false 1 k, 0)).2 := by
  have power := round_two_pow k
  rw [rounded_exact]
  unfold Exp2Is
  simp only [nan, inf, hk, whole, Bool.false_eq_true, if_false, if_true]
  split at power
  · rename_i large
    simp [large, power]
  · rename_i large
    rw [if_neg large]
    split at power
    · rename_i normal
      rw [if_pos normal]
      exact power
    · rename_i tiny
      rw [if_neg tiny]
      simp [power]

/-- A product between 1 and 2 times a power of two, with a sticky bit. -/
theorem rounded_between_powers {a acc : Nat} {k : Int} (nan : nanBits fmtF32 a = false) (inf : infBits fmtF32 a = false)
    (hk : unitsOf fmtF32 a / 2 ^ 149 = k) (part : unitsOf fmtF32 a % 2 ^ 149 ≠ 0) (low : 2 ^ funPrec ≤ acc)
    (high : acc < 2 * 2 ^ funPrec) :
    Exp2Is a (fmtF32.rounded .rne 0 (sticky false acc true (k - funPrec), 0)).1
      (fmtF32.rounded .rne 0 (sticky false acc true (k - funPrec), 0)).2 := by
  obtain ⟨top, htop, units⟩ := magOf_infCode_f32
  obtain ⟨n, between⟩ := round_between (elemFmt_ok .f32) rfl false (m := 2 * acc + 1) (e := k - funPrec - 1) (by omega)
  have power : (2 : ℚ) ^ k = (2 * 2 ^ funPrec : Nat) * 2 ^ (k - funPrec - 1) := by
    rw [← Nat.pow_succ', Nat.cast_pow, Nat.cast_ofNat, ← zpow_natCast, two_zpow_mul]
    push_cast
    omega
  have floor : (2 : ℚ) ^ k ≤ (2 * acc + 1 : Nat) * 2 ^ (k - funPrec - 1) := by
    rw [power]
    refine mul_le_mul_of_nonneg_right ?_ (by positivity)
    exact_mod_cast (by omega : 2 * 2 ^ funPrec ≤ 2 * acc + 1)
  have ceil : ((2 * acc + 1 : Nat) : ℚ) * 2 ^ (k - funPrec - 1) ≤ 2 ^ (k + 1) := by
    rw [zpow_add_one₀ (by norm_num), power, mul_right_comm]
    refine mul_le_mul_of_nonneg_right ?_ (by positivity)
    exact_mod_cast (by omega : 2 * acc + 1 ≤ 2 * 2 ^ funPrec * 2)
  change Between fmtF32 _ _ _ (fmtF32.round .rne 0 (sticky false acc true (k - funPrec))) n at between
  rw [rounded_exact]
  generalize fmtF32.round .rne 0 (sticky false acc true (k - funPrec)) = out at between ⊢
  have code : out.1 = n := between.code.trans (by simp [withSign])
  unfold Exp2Is
  simp only [nan, inf, hk, part, code, Bool.false_eq_true, if_false]
  split
  · rename_i large
    have n_eq : n = infCode fmtF32 := by
      refine between.le.antisymm (between.low _ le_rfl ?_)
      rw [units, two_pow_units]
      exact (zpow_le_zpow_right₀ (by norm_num) (by omega)).trans floor
    exact ⟨n_eq, between.overflow n_eq⟩
  · rename_i small
    have fine : k - funPrec - 1 < fmtF32.qmin := by rw [qmin_f32, funPrec]; omega
    refine ⟨between.le, between.flags ⟨by omega, fine⟩, fun normal => ?_, ?_⟩
    · obtain ⟨lo, hlo⟩ := exists_code fmtF32 (149 + k).toNat (i := 1) (by decide)
      rw [Nat.one_mul] at hlo
      rw [← hlo, (magOf_strictMono _).le_iff_le]
      refine between.low _ ?_ ?_
      · rw [← (magOf_strictMono _).le_iff_le, hlo, units]
        exact Nat.pow_le_pow_right (by decide) (by omega)
      · rw [hlo, two_pow_units]
        exact (zpow_le_zpow_right₀ (by norm_num) (by omega)).trans floor
    · obtain ⟨hi, hhi⟩ := exists_code fmtF32 (150 + k).toNat (i := 1) (by decide)
      rw [Nat.one_mul] at hhi
      rw [← hhi, (magOf_strictMono _).le_iff_le]
      refine between.high _ ?_
      rw [hhi, two_pow_units]
      exact ceil.trans (zpow_le_zpow_right₀ (by norm_num) (by omega))

end Sys2Proof.Machine
end

section
namespace Sys2Proof.Machine

/-! ### The functions exp2 and log2 (R168) -/

/-- The product that exp2 forms of a fraction with up to 149 bits lies between 1 and 2. -/
theorem exp2Loop_start (f : Nat) {n : Nat} (hn : n ≤ 149) :
    2 ^ funPrec ≤ exp2Loop f n n (2 * 2 ^ funPrec) (2 ^ funPrec) ∧
      exp2Loop f n n (2 * 2 ^ funPrec) (2 ^ funPrec) < 2 * 2 ^ funPrec := by
  have small : 4 ^ n ≤ 2 ^ funPrec := by
    rw [show 4 = 2 ^ 2 from rfl, ← Nat.pow_mul]
    exact Nat.pow_le_pow_right (by decide) (by unfold funPrec; omega)
  generalize hP : 2 ^ funPrec = P at small ⊢
  exact exp2Loop_bounds hP.symm f n n small (by omega) le_rfl (le_of_eq (by ring))

/-- exp2 of a nonzero number of moderate size, by its whole part and its fraction. -/
theorem exp2_fin (neg : Bool) {m : Nat} {e : Int} (hm : m ≠ 0) (moderate : e + bitLen m ≤ 11) :
    let i := signed neg (m * 2 ^ e.toNat)
    let n := (-e).toNat
    Fl.exp2 (.fin neg m e) = if i % (2 ^ n : Nat) = 0 then (.fin false 1 (i / (2 ^ n : Nat)), 0)
      else (sticky false (exp2Loop (i % (2 ^ n : Nat)).toNat n n (2 * 2 ^ funPrec) (2 ^ funPrec)) true
        (i / (2 ^ n : Nat) - funPrec), 0) := by
  intro i n
  have zero : ((i % (2 ^ n : Nat)).toNat == 0) = decide (i % (2 ^ n : Nat) = 0) := by
    have := Int.emod_nonneg i (by positivity : ((2 ^ n : Nat) : Int) ≠ 0)
    rw [Bool.eq_iff_iff, beq_iff_eq, decide_eq_true_iff]
    omega
  have some_part : ¬ (m == 0) = true := by rwa [beq_iff_eq]
  have start : Fl.exp2 (.fin neg m e) = if ((i % (2 ^ n : Nat)).toNat == 0) = true then (.fin false 1 (i / (2 ^ n : Nat)), 0)
      else (sticky false (exp2Loop (i % (2 ^ n : Nat)).toNat n n (2 * 2 ^ funPrec) (2 ^ funPrec)) true
        (i / (2 ^ n : Nat) - funPrec), 0) := by
    rw [Fl.exp2, if_neg some_part, if_neg (by omega), sign_mul_eq_signed]
  rw [start, zero]
  exact if_congr decide_eq_true_iff rfl rfl

theorem exp2_exp2Is (a : Nat) : Exp2Is a (fmtF32.rounded .rne 0 (Fl.exp2 (fmtF32.unpack a))).1
    (fmtF32.rounded .rne 0 (Fl.exp2 (fmtF32.unpack a))).2 := by
  have read := reads_unpack (elemFmt_ok .f32) a
  change Reads fmtF32 a (fmtF32.unpack a) at read
  generalize fmtF32.unpack a = u at read ⊢
  cases read with
  | nan nan inf abs =>
    unfold Exp2Is
    simp [Fl.exp2, rounded_nan, *, flInvalid]
  | inf nan sig inf hasInf abs some_exp =>
    unfold Exp2Is
    cases neg : negBits fmtF32 a
    · have power : Fl.exp2 (.inf false) = (.inf false, 0) := rfl
      rw [power, rounded_inf _ _ hasInf]
      simp [*, withSign]
    · have power : Fl.exp2 (.inf true) = (.fin false 0 0, 0) := rfl
      rw [power, rounded_zero]
      simp [*, withSign]
  | fin m e nan sig inf exp mag lt =>
    have units : unitsOf fmtF32 a = signed (negBits fmtF32 a) (m * 2 ^ (e - fmtF32.qmin).toNat) := by rw [unitsOf_eq, mag]
    generalize negBits fmtF32 a = neg at units ⊢
    rw [qmin_f32] at exp units
    by_cases hm : m = 0
    · have none : unitsOf fmtF32 a = 0 := by rw [units, hm, Nat.zero_mul]; exact signed_eq_zero.2 rfl
      have power : Fl.exp2 (.fin neg m e) = (.fin false 1 0, 0) := by simp [Fl.exp2, hm]
      rw [power]
      exact rounded_two_pow nan inf (by rw [none]; rfl) (by rw [none]; rfl)
    · by_cases moderate : e + bitLen m ≤ 11
      · obtain ⟨n, hn⟩ : ∃ n, n = (-e).toNat := ⟨_, rfl⟩
        obtain ⟨i, hi⟩ : ∃ i, i = signed neg (m * 2 ^ e.toNat) := ⟨_, rfl⟩
        have scale : unitsOf fmtF32 a = i * 2 ^ (149 - n) := by
          have exps : (e - -149).toNat = e.toNat + (149 - n) := by omega
          rw [units, hi, exps, Nat.pow_add, ← Nat.mul_assoc, signed_mul]
          norm_cast
        have unit : (2 : Int) ^ 149 = (2 ^ n : Nat) * 2 ^ (149 - n) := by
          rw [Nat.cast_pow, Nat.cast_ofNat, ← pow_add]
          congr 1
          omega
        have pos : (0 : Int) < 2 ^ (149 - n) := by positivity
        have quot : unitsOf fmtF32 a / 2 ^ 149 = i / (2 ^ n : Nat) := by
          rw [scale, unit, Int.mul_ediv_mul_of_pos_left _ _ pos]
        have rest : unitsOf fmtF32 a % 2 ^ 149 = 0 ↔ i % (2 ^ n : Nat) = 0 := by
          rw [scale, unit, Int.mul_comm i, Int.mul_comm _ (2 ^ (149 - n)), Int.mul_emod_mul_of_pos _ _ pos]
          simp
        rw [exp2_fin neg hm moderate, ← hi, ← hn]
        split
        · exact rounded_two_pow nan inf quot (rest.2 ‹_›)
        · obtain ⟨low, high⟩ := exp2Loop_start (i % (2 ^ n : Nat)).toNat (by omega : n ≤ 149)
          exact rounded_between_powers nan inf quot (mt rest.1 ‹_›) low high
      · have large : 2 ^ (149 + 11) ≤ m * 2 ^ (e - -149).toNat := by
          have len := bitLen_eq hm
          calc 2 ^ (149 + 11) ≤ 2 ^ (m.log2 + (e - -149).toNat) := Nat.pow_le_pow_right (by decide) (by omega)
            _ ≤ m * 2 ^ (e - -149).toNat := by
              rw [Nat.pow_add]
              exact Nat.mul_le_mul_right _ (Nat.log2_self_le hm)
        have power : Fl.exp2 (.fin neg m e) = (.fin false 1 (if neg then -2048 else 2048), 0) := by
          have some_part : ¬ (m == 0) = true := by rwa [beq_iff_eq]
          rw [Fl.exp2, if_neg some_part, if_pos (by omega)]
        rw [power, rounded_exact]
        unfold Exp2Is
        simp only [nan, inf, Bool.false_eq_true, if_false]
        cases neg
        · have top : 128 ≤ unitsOf fmtF32 a / 2 ^ 149 := by
            rw [units, Int.le_ediv_iff_mul_le (by positivity), signed, if_neg Bool.false_ne_true]
            exact_mod_cast (by omega : 128 * 2 ^ 149 ≤ m * 2 ^ (e - -149).toNat)
          have out := round_two_pow 2048
          simp only [top, if_true, Bool.false_eq_true, if_false]
          simp at out
          simp [out]
        · have bottom : unitsOf fmtF32 a / 2 ^ 149 < -149 := by
            rw [units, Int.ediv_lt_iff_lt_mul (by positivity), signed, if_pos rfl]
            have : 149 * 2 ^ 149 < m * 2 ^ (e - -149).toNat := by omega
            have : ((149 * 2 ^ 149 : Nat) : Int) < (m * 2 ^ (e - -149).toNat : Nat) := by exact_mod_cast this
            push_cast at this ⊢
            linarith
          have not_normal : ¬ -149 ≤ unitsOf fmtF32 a / 2 ^ 149 := by omega
          have not_large : ¬ 128 ≤ unitsOf fmtF32 a / 2 ^ 149 := by omega
          have out := round_below_half (by decide : (-2048 : Int) < -149)
          have code : 0 < infCode fmtF32 := infCode_pos (elemFmt_ok .f32)
          simp only [not_normal, not_large, if_true, if_false, out, false_implies, true_and]
          split
          · trivial
          · exact ⟨Nat.zero_le _, by rw [if_neg code.ne]; rfl, Nat.zero_le _⟩

/-- The loop of log2 appends as many bits as it has steps. -/
theorem log2Loop_lt (k x acc : Nat) : log2Loop k x acc < (acc + 1) * 2 ^ k := by
  induction k generalizing x acc with
  | zero => simp [log2Loop]
  | succ k ih =>
    have pow : 0 < 2 ^ k := by positivity
    have double : (acc + 1) * 2 ^ (k + 1) = (2 * acc + 1 + 1) * 2 ^ k := by rw [Nat.pow_succ]; ring
    rw [log2Loop, double]
    split
    · exact (ih ..).trans_le (Nat.mul_le_mul_right _ (by omega))
    · exact ih ..

theorem log2_mul_two_pow {m : Nat} (hm : m ≠ 0) (j : Nat) : (m * 2 ^ j).log2 = m.log2 + j := by
  have pow : 0 < 2 ^ j := by positivity
  refine (Nat.log2_eq_iff (by positivity)).2 ⟨?_, ?_⟩
  · rw [Nat.pow_add]
    exact Nat.mul_le_mul_right _ (Nat.log2_self_le hm)
  · rw [Nat.add_right_comm, Nat.pow_add]
    exact Nat.mul_lt_mul_of_pos_right Nat.lt_log2_self pow

/-- A whole number of f32, exactly. -/
theorem round_whole {k : Int} (hk : k.natAbs < 2 ^ 24) :
    ∃ n, fmtF32.round .rne 0 (.ofInt k) = (withSign fmtF32 (decide (k < 0)) n, 0) ∧ n < infCode fmtF32 ∧
      magOf fmtF32 n = k.natAbs * 2 ^ 149 := by
  obtain ⟨n, hn⟩ := exists_code fmtF32 149 hk
  obtain ⟨top, htop, inf⟩ := magOf_infCode_f32
  have lt : n < infCode fmtF32 := by
    rw [← (magOf_strictMono fmtF32).lt_iff_lt, hn, inf]
    calc k.natAbs * 2 ^ 149 < 2 ^ 24 * 2 ^ 149 := Nat.mul_lt_mul_of_pos_right hk (by positivity)
      _ = 2 ^ (24 + 149) := (Nat.pow_add ..).symm
      _ ≤ 2 ^ top := Nat.pow_le_pow_right (by decide) (by omega)
  refine ⟨n, round_exact (elemFmt_ok .f32) .rne 0 _ (Nat.le_sub_one_of_lt lt) ?_, lt, hn⟩
  change _ = (magOf fmtF32 n : ℚ) * 2 ^ fmtF32.qmin
  rw [hn, Nat.cast_mul, mul_assoc, two_pow_units]
  rfl

/-- An odd number of small parts between two whole numbers rounds between them, inexact. -/
theorem round_between_wholes (neg : Bool) {x lo : Nat} (odd : x % 2 = 1) (hlo : lo < 2 ^ 10) (low : 2 * (lo * 2 ^ logBits) ≤ x)
    (high : x ≤ 2 * ((lo + 1) * 2 ^ logBits)) :
    let out := fmtF32.round .rne 0 (.fin neg x (-logBits - 1))
    ∃ n, out.1 = withSign fmtF32 neg n ∧ n < infCode fmtF32 ∧ lo * 2 ^ 149 ≤ magOf fmtF32 n ∧
      magOf fmtF32 n ≤ (lo + 1) * 2 ^ 149 ∧ out.2 &&& 0b10111 = 0b10000 := by
  obtain ⟨n, between⟩ := round_between (elemFmt_ok .f32) rfl neg (m := x) (e := -logBits - 1) (by omega)
  change Between fmtF32 _ _ _ (fmtF32.round .rne 0 (.fin neg x (-logBits - 1))) n at between
  obtain ⟨top, htop, inf⟩ := magOf_infCode_f32
  have below {i b : Nat} (hi : i < 2 ^ 24) (hb : magOf fmtF32 b = i * 2 ^ 149) : b < infCode fmtF32 := by
    rw [← (magOf_strictMono fmtF32).lt_iff_lt, hb, inf]
    calc i * 2 ^ 149 < 2 ^ 24 * 2 ^ 149 := Nat.mul_lt_mul_of_pos_right hi (by positivity)
      _ = 2 ^ (24 + 149) := (Nat.pow_add ..).symm
      _ ≤ 2 ^ top := Nat.pow_le_pow_right (by decide) (by omega)
  have whole {i b : Nat} (hb : magOf fmtF32 b = i * 2 ^ 149) :
      (magOf fmtF32 b : ℚ) * 2 ^ fmtF32.qmin = (2 * (i * 2 ^ logBits) : Nat) * 2 ^ (-logBits - 1 : Int) := by
    have one : ((2 ^ (logBits + 1) : Nat) : ℚ) * 2 ^ (-logBits - 1 : Int) = 1 := by
      rw [Nat.cast_pow, Nat.cast_ofNat, ← zpow_natCast, two_zpow_mul (c := 0) (by push_cast; ring), zpow_zero]
    rw [hb, Nat.cast_mul, mul_assoc, two_pow_units, Nat.mul_left_comm, ← Nat.pow_succ', Nat.cast_mul, mul_assoc, one]
    rfl
  obtain ⟨lower, hlower⟩ := exists_code fmtF32 149 (hlo.trans (by decide))
  obtain ⟨upper, hupper⟩ := exists_code fmtF32 149 ((Nat.succ_le_of_lt hlo).trans_lt (by decide))
  have pow : (0 : ℚ) ≤ 2 ^ (-logBits - 1 : Int) := by positivity
  have least : lower ≤ n := between.low lower (below (by omega) hlower).le (by
    rw [whole hlower]; exact mul_le_mul_of_nonneg_right (by exact_mod_cast low) pow)
  have most : n ≤ upper := between.high upper (by
    rw [whole hupper]; exact mul_le_mul_of_nonneg_right (by exact_mod_cast high) pow)
  have lt : n < infCode fmtF32 := most.trans_lt (below (by omega) hupper)
  refine ⟨n, between.code, lt, ?_, ?_, ?_⟩
  · rw [← hlower, (magOf_strictMono _).le_iff_le]
    exact least
  · rw [← hupper, (magOf_strictMono _).le_iff_le]
    exact most
  · exact (between.flags ⟨odd, by decide⟩).trans (if_neg lt.ne)

/-- A result in units of f32 is no NaN and no infinity. -/
theorem withSign_finite (neg : Bool) {n : Nat} (hn : n < infCode fmtF32) : nanBits fmtF32 (withSign fmtF32 neg n) = false ∧
    infBits fmtF32 (withSign fmtF32 neg n) = false ∧ unitsOf fmtF32 (withSign fmtF32 neg n) = signed neg (magOf fmtF32 n) :=
  ⟨nanBits_withSign neg (Nat.le_sub_one_of_lt hn) hn.le, infBits_withSign neg hn, unitsOf_withSign neg hn.le⟩

theorem signed_natAbs (k : Int) : signed (decide (k < 0)) k.natAbs = k := by
  by_cases h : k < 0
  · simp [signed, h, abs_of_neg h]
  · simp [signed, h, abs_of_nonneg (not_lt.1 h)]

/-- The truncated bits of log2, with a sticky bit. -/
def logSticky (v : Int) : Fl :=
  if v < 0 then sticky true (v.natAbs - 1) true (-logBits) else sticky false v.toNat true (-logBits)

theorem log2_fin {m : Nat} (e : Int) (hm : m ≠ 0) : Fl.log2 (.fin false m e) =
    if m = 2 ^ m.log2 then (.ofInt (e + m.log2), 0)
    else (logSticky ((e + m.log2) * (2 ^ logBits : Nat) + log2Loop logBits (m * 2 ^ funPrec / 2 ^ m.log2) 0), 0) := by
  have some_part : ¬ (m == 0) = true := by rwa [beq_iff_eq]
  have exp : e + (m.log2 + 1 : Nat) - 1 = e + m.log2 := by push_cast; ring
  rw [Fl.log2, if_neg some_part, if_neg Bool.false_ne_true, bitLen_eq hm]
  dsimp only
  rw [Nat.add_sub_cancel, exp]
  refine (if_congr beq_iff_eq rfl ?_)
  rw [logSticky, apply_ite (Prod.mk · (0 : FFlags))]

theorem round_logSticky {k v : Int} (hk : k.natAbs < 2 ^ 10) (low : k * (2 ^ logBits : Nat) ≤ v)
    (high : v < (k + 1) * (2 ^ logBits : Nat)) :
    let out := fmtF32.round .rne 0 (logSticky v)
    nanBits fmtF32 out.1 = false ∧ infBits fmtF32 out.1 = false ∧ k * 2 ^ 149 ≤ unitsOf fmtF32 out.1 ∧
      unitsOf fmtF32 out.1 ≤ (k + 1) * 2 ^ 149 ∧ out.2 &&& 0b10111 = 0b10000 := by
  intro out
  have pos : (0 : Int) < (2 ^ logBits : Nat) := by positivity
  have between : ∃ neg lo x, logSticky v = .fin neg x (-logBits - 1) ∧ x % 2 = 1 ∧ lo < 2 ^ 10 ∧ 2 * (lo * 2 ^ logBits) ≤ x ∧
      x ≤ 2 * ((lo + 1) * 2 ^ logBits) ∧ (if neg then k = -(lo + 1 : Int) else k = lo) := by
    generalize 2 ^ logBits = P at low high pos ⊢
    by_cases neg : v < 0
    · have hneg : k < 0 := by
        by_contra h
        exact absurd ((mul_nonneg (not_lt.1 h) pos.le).trans low) (not_le.2 neg)
      obtain ⟨lo, rfl⟩ : ∃ lo : Nat, k = -(lo + 1 : Int) := ⟨(-k).toNat - 1, by omega⟩
      refine ⟨true, lo, 2 * (v.natAbs - 1) + 1, if_pos neg, by omega, by omega, ?_, ?_, rfl⟩
      · have : ((lo * P : Nat) : Int) + 1 ≤ v.natAbs := by push_cast; rw [abs_of_neg neg]; linarith
        omega
      · have : (v.natAbs : Int) ≤ ((lo + 1) * P : Nat) := by push_cast; rw [abs_of_neg neg]; linarith
        omega
    · have hpos : 0 ≤ k := by
        by_contra h
        have : (k + 1) * (P : Int) ≤ 0 := mul_nonpos_of_nonpos_of_nonneg (by omega) pos.le
        omega
      obtain ⟨lo, rfl⟩ : ∃ lo : Nat, k = lo := ⟨k.toNat, by omega⟩
      refine ⟨false, lo, 2 * v.toNat + 1, if_neg neg, by omega, by omega, ?_, ?_, rfl⟩
      · have : ((lo * P : Nat) : Int) ≤ v.toNat := by rw [Int.toNat_of_nonneg (not_lt.1 neg)]; exact_mod_cast low
        omega
      · have : (v.toNat : Int) < ((lo + 1) * P : Nat) := by rw [Int.toNat_of_nonneg (not_lt.1 neg)]; exact_mod_cast high
        omega
  obtain ⟨neg, lo, x, eq, odd, hlo, least, most, sign⟩ := between
  obtain ⟨n, code, lt, lower, upper, flags⟩ := round_between_wholes neg odd hlo least most
  rw [← eq] at code flags
  obtain ⟨nan, inf, units⟩ := withSign_finite neg lt
  change out.1 = _ at code
  rw [code, units]
  zify at lower upper
  cases neg
  · obtain rfl : k = lo := sign
    exact ⟨nan, inf, lower, upper, flags⟩
  · obtain rfl : k = -(lo + 1 : Int) := sign
    simp only [signed, if_true]
    exact ⟨nan, inf, by linarith, by linarith, flags⟩

theorem log2_log2Is {a : Nat} (ha : a < 2 ^ 32) : Log2Is a (fmtF32.rounded .rne 0 (Fl.log2 (fmtF32.unpack a))).1
    (fmtF32.rounded .rne 0 (Fl.log2 (fmtF32.unpack a))).2 := by
  have read := reads_unpack (elemFmt_ok .f32) a
  change Reads fmtF32 a (fmtF32.unpack a) at read
  generalize fmtF32.unpack a = u at read ⊢
  unfold Log2Is
  cases read with
  | nan nan inf abs => simp [Fl.log2, rounded_nan, *, flInvalid]
  | inf nan sig inf hasInf abs some_exp =>
    cases neg : negBits fmtF32 a
    · have log : Fl.log2 (.inf false) = (.inf (negBits fmtF32 a), 0) := by rw [neg]; rfl
      rw [log, rounded_infinity _ _ ha hasInf abs]
      simp [*]
    · simp [Fl.log2, rounded_nan, *, flInvalid]
  | fin m e nan sig inf exp mag lt =>
    have zero := significand_eq_zero mag
    by_cases hm : m = 0
    · subst hm
      have log : Fl.log2 (.fin (negBits fmtF32 a) 0 e) = (.inf true, flDivz) := rfl
      rw [log, rounded_inf _ _ rfl]
      simp [nan, zero.1 rfl, flDivz]
    · cases neg : negBits fmtF32 a
      · rw [qmin_f32] at exp mag
        have log := log2_mul_two_pow hm (e - -149).toNat
        rw [mag] at log
        have exps : ((magOf fmtF32 (absBits fmtF32 a)).log2 : Int) - 149 = e + m.log2 := by omega
        have power : magOf fmtF32 (absBits fmtF32 a) = 2 ^ (magOf fmtF32 (absBits fmtF32 a)).log2 ↔ m = 2 ^ m.log2 := by
          rw [log, ← mag, Nat.pow_add]
          exact Nat.mul_left_inj (by positivity)
        have bound : (e + m.log2).natAbs < 2 ^ 10 := by
          obtain ⟨top, htop, infinity⟩ := magOf_infCode_f32
          have below : magOf fmtF32 (absBits fmtF32 a) < 2 ^ top := infinity ▸ magOf_strictMono fmtF32
            (Nat.lt_of_le_pred (infCode_pos (elemFmt_ok .f32)) (absBits_le_maxCode (elemFmt_ok .f32) nan inf))
          rw [← Nat.log2_lt (mt magOf_eq_zero.1 (mt zero.2 hm))] at below
          omega
        simp only [nan, inf, neg, exps, power, mt zero.2 hm, Bool.false_eq_true, if_false]
        rw [log2_fin e hm]
        split
        · obtain ⟨n, out, lt, units⟩ := round_whole (bound.trans (by decide))
          obtain ⟨nan, inf, value⟩ := withSign_finite (decide (e + m.log2 < 0)) lt
          rw [rounded_exact, out]
          refine ⟨?_, nan, fun h => ?_, rfl⟩
          · rw [value, units, signed_mul, signed_natAbs, Nat.cast_pow, Nat.cast_ofNat]
          · rw [h] at units ⊢
            rw [magOf_eq_zero.1 (units.trans (Nat.zero_mul _))]
            rfl
        · rw [rounded_exact]
          obtain ⟨nan, inf, low, high, flags⟩ := round_logSticky (v := (e + m.log2) * (2 ^ logBits : Nat) +
            log2Loop logBits (m * 2 ^ funPrec / 2 ^ m.log2) 0) bound (by omega) (by
            have bits := log2Loop_lt logBits (m * 2 ^ funPrec / 2 ^ m.log2) 0
            rw [Int.add_mul (e + m.log2) 1, Int.one_mul]
            exact Int.add_lt_add_left (Int.ofNat_lt.2 (bits.trans_eq (Nat.one_mul _))) _)
          exact ⟨nan, inf, low, high, flags⟩
      · simp [Fl.log2, rounded_nan, *, flInvalid, mt zero.2 hm]

end Sys2Proof.Machine
end

section
namespace Sys2Proof.Machine

/-! ### Results of a float type (R49, R167) -/

theorem maxCode_lt (f : Fmt) : maxCode f < signUnit f := by
  have := infCode_lt f
  unfold maxCode
  split <;> omega

theorem nanCode_lt {f : Fmt} (hf : f.Ok) : nanCode f < signUnit f := by
  have code := signUnit_eq f
  have half : 2 ^ f.mb = 2 * 2 ^ (f.mb - 1) := by rw [← Nat.pow_succ']; congr 1; have := hf.mb; omega
  have pos : 0 < 2 ^ (f.mb - 1) := by positivity
  unfold nanCode
  split <;> omega

theorem withSign_lt {f : Fmt} (neg : Bool) {n : Nat} (hn : n < signUnit f) : withSign f neg n < 2 * signUnit f := by
  unfold withSign
  split <;> omega

/-- A rounded value fits its format. -/
theorem round_lt {f : Fmt} (hf : f.Ok) (rm : RMode) (draw : Nat) (x : Fl) : (f.round rm draw x).1 < 2 * signUnit f := by
  have max := maxCode_lt f
  have inf := infCode_lt f
  cases x with
  | nan neg sig =>
    have := nanCode_lt hf
    rw [Fmt.round, nanBits_false_eq]
    dsimp only
    omega
  | inf neg =>
    rw [Fmt.round, infBits_eq, maxBits_eq, sign_add, sign_add, apply_ite Prod.fst]
    exact ite_lt (withSign_lt neg inf) (withSign_lt neg max)
  | fin neg m e =>
    by_cases hm : m = 0
    · subst hm
      exact withSign_lt neg (Nat.zero_lt_of_lt max)
    · rw [round_fin rm draw neg hm rfl, Fmt.delivered]
      split
      · exact withSign_lt neg (ite_lt inf max)
      · exact withSign_lt neg (by omega)

theorem isFloat_iff {ty : ElemTy} : ty.isFloat = true ↔ ty = .f32 ∨ ty = .bf16 ∨ ty = .e4m3 ∨ ty = .e5m2 := by
  cases ty <;> decide

section
variable {ty : ElemTy} (ht : ty.isFloat = true)
include ht

theorem two_mul_signUnit : 2 * signUnit (elemFmt ty) = 2 ^ elemWidth ty := by
  rcases isFloat_iff.1 ht with rfl | rfl | rfl | rfl <;> rfl

theorem elem_lt_signUnit (v : BitVec 2048) (i : Nat) : elem v ty i < 2 * signUnit (elemFmt ty) :=
  two_mul_signUnit ht ▸ elem_lt v ty i

theorem elemOperand_lt_signUnit (t : CtxSet) (s2 : VSrc) (x : W64) (i : Nat) :
    t.elemOperand ty s2 x i < 2 * signUnit (elemFmt ty) := two_mul_signUnit ht ▸ elemOperand_lt t ty s2 x i

theorem isFloat_ne_l6 : ty ≠ .l6 := by
  rintro rfl
  exact absurd ht (by decide)

theorem written_float {n : Nat} (hn : n < 2 * signUnit (elemFmt ty)) : written ty n = n :=
  written_of_lt (isFloat_ne_l6 ht) (two_mul_signUnit ht ▸ hn)

theorem elemValue_float (b : Nat) : elemValue ty b = (elemFmt ty).unpack b := by
  rcases isFloat_iff.1 ht with rfl | rfl | rfl | rfl <;> rfl

theorem roundTo_float (rm : RMode) (d : Nat) (x : Fl) : roundTo ty rm d x = (elemFmt ty).round rm d x := by
  rcases isFloat_iff.1 ht with rfl | rfl | rfl | rfl <;> rfl

theorem rounded_float (rm : RMode) (d : Nat) (x : Fl × FFlags) : rounded ty rm d x = (elemFmt ty).rounded rm d x := by
  rw [rounded, roundTo_float ht]
  rfl

theorem written_rounded (rm : RMode) (d : Nat) (x : Fl × FFlags) :
    written ty ((elemFmt ty).rounded rm d x).1 = ((elemFmt ty).rounded rm d x).1 :=
  written_float ht (round_lt (elemFmt_ok ty) rm d x.1)

theorem elemAdd_float (neg : Bool) (rm : RMode) (d a b : Nat) : elemAdd neg ty rm d a b =
    (elemFmt ty).rounded rm d (Fl.add rm ((elemFmt ty).unpack a)
      (if neg then ((elemFmt ty).unpack b).neg else (elemFmt ty).unpack b)) := by
  rw [← rounded_float ht, ← elemValue_float ht, ← elemValue_float ht]
  rcases isFloat_iff.1 ht with rfl | rfl | rfl | rfl <;> rfl

theorem elemMul_float (rm : RMode) (d a b : Nat) : elemMul ty rm d a b =
    (elemFmt ty).rounded rm d (Fl.mul ((elemFmt ty).unpack a) ((elemFmt ty).unpack b)) := by
  rw [← rounded_float ht, ← elemValue_float ht, ← elemValue_float ht]
  rcases isFloat_iff.1 ht with rfl | rfl | rfl | rfl <;> rfl

theorem elemFma_float (rm : RMode) (d a b c : Nat) : elemFma ty rm d a b c =
    (elemFmt ty).rounded rm d (Fl.fma rm ((elemFmt ty).unpack a) ((elemFmt ty).unpack b) ((elemFmt ty).unpack c)) := by
  rw [elemFma, rounded_float ht, elemValue_float ht, elemValue_float ht, elemValue_float ht]

theorem elemMinMax_float (max : Bool) (a b : Nat) : elemMinMax max ty a b =
    (((elemFmt ty).round .rne 0 (Fl.minMax max ((elemFmt ty).unpack a) ((elemFmt ty).unpack b)).1).1,
      (Fl.minMax max ((elemFmt ty).unpack a) ((elemFmt ty).unpack b)).2) := by
  rw [← roundTo_float ht, ← elemValue_float ht, ← elemValue_float ht]
  rcases isFloat_iff.1 ht with rfl | rfl | rfl | rfl <;> rfl

end

/-! ### The sign bit inverted (R167) -/

theorem unpack_xor_signUnit (f : Fmt) (b : Nat) : f.unpack (b ^^^ signUnit f) =
    match f.unpack b with
    | .nan neg sig => .nan (!neg) sig
    | x => x.neg := by
  have frac : (b ^^^ 2 ^ (f.eb + f.mb)) % 2 ^ f.mb = b % 2 ^ f.mb := by
    refine Nat.eq_of_testBit_eq fun i => ?_
    rw [Nat.testBit_mod_two_pow, Nat.testBit_mod_two_pow, Nat.testBit_xor, Nat.testBit_two_pow]
    by_cases h : i < f.mb
    · rw [decide_eq_false (by omega : ¬ f.eb + f.mb = i), Bool.xor_false]
    · rw [decide_eq_false h, Bool.false_and, Bool.false_and]
  have exp : (b ^^^ 2 ^ (f.eb + f.mb)) / 2 ^ f.mb % 2 ^ f.eb = b / 2 ^ f.mb % 2 ^ f.eb := by
    refine Nat.eq_of_testBit_eq fun i => ?_
    rw [Nat.testBit_mod_two_pow, Nat.testBit_mod_two_pow, Nat.testBit_div_two_pow, Nat.testBit_div_two_pow, Nat.testBit_xor,
      Nat.testBit_two_pow]
    by_cases h : i < f.eb
    · rw [decide_eq_false (by omega : ¬ f.eb + f.mb = i + f.mb), Bool.xor_false]
    · rw [decide_eq_false h, Bool.false_and, Bool.false_and]
  have sign : ((b ^^^ 2 ^ (f.eb + f.mb)) / 2 ^ (f.eb + f.mb) % 2 == 1) = !(b / 2 ^ (f.eb + f.mb) % 2 == 1) := by
    have bit (n k : Nat) : (n / 2 ^ k % 2 == 1) = n.testBit k := by rw [Nat.testBit_eq_decide_div_mod_eq]; rfl
    rw [bit, bit, Nat.testBit_xor, Nat.testBit_two_pow_self, Bool.xor_true]
  unfold Fmt.unpack signUnit
  rw [frac, exp, sign]
  dsimp only
  split
  · split <;> rfl
  · split
    · rfl
    · split <;> rfl

theorem xor_signUnit_lt {f : Fmt} {b : Nat} (hb : b < 2 * signUnit f) : b ^^^ signUnit f < 2 * signUnit f := by
  unfold signUnit at *
  rw [← Nat.pow_succ'] at *
  exact Nat.xor_lt_two_pow hb (Nat.pow_lt_pow_right (by decide) (Nat.lt_succ_self _))

/-- A difference is the sum with the second sign bit inverted. -/
theorem add_unpack_xor (f : Fmt) (rm : RMode) (x : Fl) (b : Nat) :
    Fl.add rm x (f.unpack (b ^^^ signUnit f)) = Fl.add rm x (f.unpack b).neg := by
  rw [unpack_xor_signUnit]
  cases f.unpack b with
  | nan neg sig => cases x <;> rfl
  | inf | fin => rfl

end Sys2Proof.Machine
end

section
namespace Sys2Proof.Machine

/-! ### Float entries of the vector engine (R60 to R62, R159) -/

theorem modeOf_code (rm : RMode) : modeOf rm.code = rm := by cases rm <;> rfl

theorem regEntry_vfma {t : CtxSet} {e : Entry} {ty : ElemTy} {mk : MReg} {s2 : VSrc} {vs1 vd : VReg}
    (h : e.instr = .vfma ty mk s2 vs1 vd) : t.regEntry e =
      some (t.elementwise e ty mk vd (fun _ => modeOf e.rm == .sr && ty.isFloat) fun draw i =>
        let (n, fl) := elemFma ty (modeOf e.rm) draw (elem (vget t.v vs1) ty i) (t.elemOperand ty s2 e.x0 i) (elem (vget t.v vd) ty i)
        let p := elemMarked (vget t.vpois vs1) ty i || t.operandMark ty s2 i || elemMarked (vget t.vpois vd) ty i
        { n := n, fl := fl, mark := p, eat := p }) := by
  rw [CtxSet.regEntry, h]

theorem regEntry_vdiv {t : CtxSet} {e : Entry} {mk : MReg} {s2 : VSrc} {vs1 vd : VReg} (h : e.instr = .vdiv mk s2 vs1 vd) :
    t.regEntry e = some (t.binary e .f32 mk s2 vs1 vd false fun _ a b => elemTrans .div a b) := by
  rw [CtxSet.regEntry, h]

/-- The entries of the functions of one operand. -/
theorem regEntry_trans {t : CtxSet} {e : Entry} {mk : MReg} {vs1 vd : VReg} {o : Trans} {i : Instr} (h : e.instr = i)
    (ho : match o with
      | .div => False
      | .sqrt => i = .vsqrt mk vs1 vd
      | .rcp => i = .vrcp mk vs1 vd
      | .rsq => i = .vrsq mk vs1 vd
      | .exp2 => i = .vexp2 mk vs1 vd
      | .log2 => i = .vlog2 mk vs1 vd) :
    t.regEntry e = some (t.unary e .f32 mk vs1 vd fun a => elemTrans o a 0) := by
  rw [CtxSet.regEntry, h]
  cases o
  case div => exact ho.elim
  all_goals rw [ho]

/-- The number that a float entry takes of its elements' draws (R61, R62). -/
theorem draws_float (rm : RMode) {ty : ElemTy} (ht : ty.isFloat = true) (i : Nat) (hi : i < elemCount ty) :
    (rm == .sr && ty.isFloat) = decide (i < if rm = .sr then elemCount ty else 0) := by
  rw [ht, Bool.and_true, Bool.eq_iff_iff, beq_iff_eq, decide_eq_true_iff]
  split
  · exact ⟨fun _ => hi, fun _ => by assumption⟩
  · exact ⟨fun h => absurd h (by assumption), fun h => absurd h (Nat.not_lt_zero _)⟩

theorem drawing_le (rm : RMode) (ty : ElemTy) : (if rm = .sr then elemCount ty else 0) ≤ elemCount ty := by
  split
  · exact le_rfl
  · exact Nat.zero_le _

section
variable {s : State} {g : Nat} {e : Entry} {rest : List Entry} {ty : ElemTy} {rm : RMode} {mk : MReg} {s2 : VSrc} {vs1 vd : VReg}
  (hq : (s.aset g).vq = e :: rest) (hl : (s.aset g).leaving = false)
include hq hl

/-- An elementwise entry whose elements are in a relation to their draws. -/
theorem elementwise_floatLanes_of {draws : Nat → Bool} {f : Nat → Nat → ElemOut} {drawing : Nat}
    {rel : Nat → Nat → Nat → FFlags → Prop}
    (hr : (s.aset g).regEntry e = some ((s.aset g).elementwise e ty mk vd draws f)) (hn : drawing ≤ elemCount ty)
    (hd : ∀ i, i < elemCount ty → draws i = decide (i < drawing))
    (hf : ∀ d i, i < elemCount ty → rel d i (written ty (f d i).n) (f d i).fl) :
    ∃ t, exec (.vEntryExecute g) s = .next t ∧ FloatLanes s t g e rest ty mk vd drawing rel :=
  (elementwise_floatLanes hq hl hr hn hd).imp fun t h =>
    ⟨h.1, FloatLanes.mono h.2 <| by rintro d i r fl hi ⟨rfl, rfl⟩; exact hf d i hi⟩

/-- A float entry of two operands, in the entry's mode. -/
theorem binary_floatLanes {f : Nat → Nat → Nat → Nat × FFlags} {rel : Nat → Nat → Nat → Nat → FFlags → Prop}
    (ht : ty.isFloat = true)
    (hr : (s.aset g).regEntry e = some ((s.aset g).binary e ty mk s2 vs1 vd (rm == .sr && ty.isFloat) f))
    (hf : ∀ d a b, a < 2 * signUnit (elemFmt ty) → b < 2 * signUnit (elemFmt ty) →
      rel d a b (written ty (f d a b).1) (f d a b).2) :
    ∃ t, exec (.vEntryExecute g) s = .next t ∧ FloatLanes s t g e rest ty mk vd (if rm = .sr then elemCount ty else 0) fun d i =>
      rel d (elem (vget (s.aset g).v vs1) ty i) ((s.aset g).elemOperand ty s2 e.x0 i) :=
  elementwise_floatLanes_of hq hl hr (drawing_le rm ty) (draws_float rm ht) fun d i _ =>
    hf d _ _ (elem_lt_signUnit ht _ i) (elemOperand_lt_signUnit ht _ s2 e.x0 i)

/-- A float entry of two operands that takes no draw. -/
theorem binary_floatLanes_noDraw {f : Nat → Nat → Nat × FFlags} {rel : Nat → Nat → Nat → FFlags → Prop}
    (ht : ty.isFloat = true)
    (hr : (s.aset g).regEntry e = some ((s.aset g).binary e ty mk s2 vs1 vd false fun _ => f))
    (hf : ∀ a b, a < 2 * signUnit (elemFmt ty) → b < 2 * signUnit (elemFmt ty) → rel a b (written ty (f a b).1) (f a b).2) :
    ∃ t, exec (.vEntryExecute g) s = .next t ∧ FloatLanes s t g e rest ty mk vd 0 fun _ i =>
      rel (elem (vget (s.aset g).v vs1) ty i) ((s.aset g).elemOperand ty s2 e.x0 i) :=
  elementwise_floatLanes_of hq hl hr (Nat.zero_le _) (by simp) fun _ i _ =>
    hf _ _ (elem_lt_signUnit ht _ i) (elemOperand_lt_signUnit ht _ s2 e.x0 i)

/-- A function of R168 of one operand. -/
theorem trans_floatLanes (o : Trans) {i : Instr} {rel : Nat → Nat → FFlags → Prop} (h : e.instr = i)
    (ho : match o with
      | .div => False
      | .sqrt => i = .vsqrt mk vs1 vd
      | .rcp => i = .vrcp mk vs1 vd
      | .rsq => i = .vrsq mk vs1 vd
      | .exp2 => i = .vexp2 mk vs1 vd
      | .log2 => i = .vlog2 mk vs1 vd)
    (hf : ∀ a, a < 2 ^ 32 → rel a (fmtF32.rounded .rne 0 (transValue o (fmtF32.unpack a) (fmtF32.unpack 0))).1
      (fmtF32.rounded .rne 0 (transValue o (fmtF32.unpack a) (fmtF32.unpack 0))).2) :
    ∃ t, exec (.vEntryExecute g) s = .next t ∧ FloatLanes s t g e rest .f32 mk vd 0 fun _ i =>
      rel (elem (vget (s.aset g).v vs1) .f32 i) := by
  refine elementwise_floatLanes_of hq hl (regEntry_trans h ho) (Nat.zero_le _) (by simp) fun _ i _ => ?_
  have fits := written_rounded (ty := .f32) rfl .rne 0
    (transValue o (fmtF32.unpack (elem (vget (s.aset g).v vs1) .f32 i)) (fmtF32.unpack 0))
  have := hf _ (elem_lt (vget (s.aset g).v vs1) .f32 i)
  change rel _ (written .f32 (fmtF32.rounded .rne 0 _).1) _
  exact fits.symm ▸ this

end

/-! ### The product of l6 codes (R57) -/

theorem l6Mul_l6ProductIs (a b : Nat) :
    L6ProductIs a b (written .l6 (l6Mul a b).1) (l6Mul a b).2 := by
  have zero : (a % 32 == 0 || b % 32 == 0) = decide (a % 32 = 0 ∨ b % 32 = 0) := by
    rw [Bool.eq_iff_iff]; simp
  unfold L6ProductIs l6Mul written
  dsimp only
  rw [zero]
  simp only [decide_eq_true_iff]
  push_cast
  split
  · exact ⟨Nat.mod_eq_of_lt (by omega), rfl⟩
  · split
    · exact ⟨Nat.mod_eq_of_lt (by omega), rfl⟩
    · split
      · exact ⟨Nat.mod_eq_of_lt (by omega), rfl⟩
      · exact ⟨Nat.mod_eq_of_lt (by omega), rfl⟩

/-! ### One over a value (R168) -/

/-- The value 1 is the encoding 0x3F800000. -/
theorem reads_one : Reads fmtF32 0x3F800000 (.fin false 1 0) := by
  obtain ⟨d, hd⟩ : ∃ d, d = 126 := ⟨_, rfl⟩
  have abs : absBits fmtF32 0x3F800000 = d * 2 ^ fmtF32.mb + 2 ^ fmtF32.mb := by rw [hd]; rfl
  have neg : negBits fmtF32 0x3F800000 = false := by decide
  refine neg ▸ .fin 1 0 (by decide) (by decide) (by decide) (by decide) ?_ (by decide)
  rw [abs, magOf_add (.inr le_rfl) (Nat.pow_le_pow_right (by decide) (Nat.le_succ _)), ← Nat.pow_add, Nat.one_mul, hd]
  rfl

/-- Settles O34: each entry executes elementwise with the draws of its mode, and each element's result is the exact value rounded once. -/
theorem floatElements : Obligations.FloatElements := by
  unfold Obligations.FloatElements
  intro s g e rest ty rm mk s2 vs1 vs2 vd hq hl hrm
  have mode : modeOf e.rm = rm := hrm ▸ modeOf_code rm
  dsimp only
  refine ⟨fun hf => ?floats, fun h => ?l6, fun h => ?vdiv, fun h => ?vsqrt, fun h => ?vrcp, fun h => ?vrsq, fun h => ?vexp2,
    fun h => ?vlog2⟩
  case floats =>
    have ht := isFloat_iff.2 hf
    have ok := elemFmt_ok ty
    refine ⟨fun h => ?vadd, fun h => ?vsub, fun h => ?vmul, fun h => ?vfma, fun h => ?vmin, fun h => ?vmax⟩
    case vadd =>
      refine binary_floatLanes (rel := SumIs (elemFmt ty) rm) hq hl ht (mode ▸ regEntry_vadd h) fun d a b ha hb => ?_
      rw [elemAdd_float ht, written_rounded ht]
      exact add_sumIs ok rm d ha hb
    case vsub =>
      refine binary_floatLanes (rel := fun d a b => SumIs (elemFmt ty) rm d a (b ^^^ signUnit (elemFmt ty))) hq hl ht
        (mode ▸ regEntry_vsub h) fun d a b ha hb => ?_
      rw [elemAdd_float ht, written_rounded ht, if_pos rfl, ← add_unpack_xor]
      exact add_sumIs ok rm d ha (xor_signUnit_lt hb)
    case vmul =>
      refine binary_floatLanes (rel := ProductIs (elemFmt ty) rm) hq hl ht (mode ▸ regEntry_vmul h) fun d a b ha hb => ?_
      rw [elemMul_float ht, written_rounded ht]
      exact mul_productIs ok rm d a b
    case vfma =>
      refine elementwise_floatLanes_of hq hl (mode ▸ regEntry_vfma h) (drawing_le rm ty) (draws_float rm ht) fun d i _ => ?_
      dsimp only
      rw [elemFma_float ht, written_rounded ht]
      exact fma_fmaIs ok rm d (elem_lt_signUnit ht _ i) _ _
    case vmin =>
      refine binary_floatLanes_noDraw (rel := MinMaxIs (elemFmt ty) false) hq hl ht (regEntry_vmin h) fun a b ha hb => ?_
      rw [elemMinMax_float ht, written_float ht (round_lt ok ..)]
      exact minMax_minMaxIs ok false ha hb
    case vmax =>
      refine binary_floatLanes_noDraw (rel := MinMaxIs (elemFmt ty) true) hq hl ht (regEntry_vmax h) fun a b ha hb => ?_
      rw [elemMinMax_float ht, written_float ht (round_lt ok ..)]
      exact minMax_minMaxIs ok true ha hb
  case l6 =>
    refine elementwise_floatLanes_of hq hl (regEntry_vmul h) (Nat.zero_le _)
      (fun i _ => by rw [decide_eq_false (Nat.not_lt_zero i)]; exact Bool.and_false _) fun _ i _ => ?_
    exact l6Mul_l6ProductIs _ _
  case vdiv =>
    refine binary_floatLanes_noDraw (rel := QuotientIs) hq hl rfl (regEntry_vdiv h) fun a b ha hb => ?_
    rw [elemTrans, rounded_float rfl, written_rounded rfl]
    exact div_quotientIs (reads_unpack (elemFmt_ok .f32) a)
  case vsqrt => exact trans_floatLanes (rel := RootIs false) hq hl .sqrt h rfl fun a ha => sqrt_rootIs ha
  case vrcp =>
    exact trans_floatLanes (rel := QuotientIs 0x3F800000) hq hl .rcp h rfl fun a ha => div_quotientIs reads_one
  case vrsq => exact trans_floatLanes (rel := RootIs true) hq hl .rsq h rfl fun a ha => rsqrt_rootIs a
  case vexp2 => exact trans_floatLanes (rel := Exp2Is) hq hl .exp2 h rfl fun a ha => exp2_exp2Is a
  case vlog2 => exact trans_floatLanes (rel := Log2Is) hq hl .log2 h rfl fun a ha => log2_log2Is ha

end Sys2Proof.Machine
end

section
namespace Sys2Proof.Machine

/-! ### What an element reads as (R49, R51, R54) -/

/-- What the value of an element is: a NaN or an infinity of a float type, or a finite number, as the fraction of the statements. -/
inductive SourceReads (ts : ElemTy) (b : Nat) : Fl → Prop
  | nan (float : ts.isFloat = true) (nan : nanBits (elemFmt ts) b = true) :
      SourceReads ts b (.nan (negBits (elemFmt ts) b) (sigBits (elemFmt ts) b))
  | inf (float : ts.isFloat = true) (nan : nanBits (elemFmt ts) b = false) (inf : infBits (elemFmt ts) b = true) :
      SourceReads ts b (.inf (negBits (elemFmt ts) b))
  | fin (neg : Bool) (m : Nat) (e : Int) (num den : Nat) (nan : (ts.isFloat && nanBits (elemFmt ts) b) = false)
      (inf : (ts.isFloat && infBits (elemFmt ts) b) = false) (frac : fractionOf ts b = (neg, num, den)) (pos : 0 < den)
      (small : den ≤ 2 ^ 200) (value : (m : ℚ) * 2 ^ e * den = num) : SourceReads ts b (.fin neg m e)

theorem fractionOf_float {ts : ElemTy} (ht : ts.isFloat = true) (b : Nat) :
    fractionOf ts b = (negBits (elemFmt ts) b, magOf (elemFmt ts) (absBits (elemFmt ts) b), 2 ^ unitExp (elemFmt ts)) := by
  rcases isFloat_iff.1 ht with rfl | rfl | rfl | rfl <;> rfl

theorem unitExp_le (ts : ElemTy) : unitExp (elemFmt ts) ≤ 200 := by cases ts <;> decide

theorem sourceReads_float {ts : ElemTy} (ht : ts.isFloat = true) (b : Nat) : SourceReads ts b (elemValue ts b) := by
  rw [elemValue_float ht]
  have read := reads_unpack (elemFmt_ok ts) b
  generalize (elemFmt ts).unpack b = u at read ⊢
  cases read with
  | nan nan inf abs => exact .nan ht nan
  | inf nan sig inf hasInf abs some_exp => exact .inf ht nan inf
  | fin m e nan sig inf exp mag lt =>
    refine .fin _ m e _ _ (by rw [nan, Bool.and_false]) (by rw [inf, Bool.and_false]) (fractionOf_float ht b) (by positivity)
      (Nat.pow_le_pow_right (by decide) (unitExp_le ts)) ?_
    rw [value_eq exp mag]
    push_cast
    rw [mul_assoc, unit_cancels (elemFmt_ok ts), mul_one]

/-- The value of a two's complement number. -/
theorem sourceReads_int {ts : ElemTy} (hi : ts.isFloat = false) {b : Nat} {z : Int}
    (frac : fractionOf ts b = (decide (z < 0), z.natAbs, 1)) : SourceReads ts b (.ofInt z) :=
  .fin _ _ _ _ _ (by rw [hi]; rfl) (by rw [hi]; rfl) frac Nat.one_pos (by decide)
    (by rw [zpow_zero, mul_one, Nat.cast_one, mul_one])

theorem l6T_eq (j : Nat) : l6T (j % 4) = l6Sig (j % 4) := by
  have : j % 4 < 4 := Nat.mod_lt _ (by decide)
  generalize j % 4 = i at this ⊢
  match i, this with
  | 0, _ | 1, _ | 2, _ | 3, _ => rfl

theorem sourceReads_l6 (b : Nat) : SourceReads .l6 b (elemValue .l6 b) := by
  have sign : (b / 32 % 2 == 1) = decide (b / 32 % 2 = 1) := rfl
  change SourceReads .l6 b (l6Index (b / 32 % 2 == 1) (b % 32))
  unfold l6Index
  split
  · rename_i zero
    refine .fin _ 0 0 0 (2 ^ 27) rfl rfl ?_ (by positivity) (Nat.pow_le_pow_right (by decide) (by decide)) (by simp)
    rw [fractionOf, if_pos (beq_iff_eq.1 zero), sign]
  · rename_i some_code
    refine .fin _ _ _ (l6Sig (b % 4) * 2 ^ (b / 4 % 8)) (2 ^ 27) rfl rfl ?_ (by positivity)
      (Nat.pow_le_pow_right (by decide) (by decide)) ?_
    · rw [fractionOf, if_neg (fun h => some_code (beq_iff_eq.2 h)), sign]
    · have low : b % 32 % 4 = b % 4 := by omega
      have high : b % 32 / 4 = b / 4 % 8 := by omega
      rw [low, high, l6T_eq, Nat.cast_pow, Nat.cast_ofNat, ← zpow_natCast, mul_assoc, two_zpow_mul (c := (b / 4 % 8 : Nat)) (by
        push_cast; ring), zpow_natCast]
      push_cast
      ring

theorem elemValue_reads {ts : ElemTy} {b : Nat} (hb : b < 2 ^ elemWidth ts) : SourceReads ts b (elemValue ts b) := by
  cases ts
  case f32 | bf16 | e4m3 | e5m2 => exact sourceReads_float rfl b
  case l6 => exact sourceReads_l6 b
  case i8 =>
    have signed : toSigned 8 b = (BitVec.ofNat 8 b).toInt := toSigned_eq_toInt (by decide) hb
    exact sourceReads_int rfl (by rw [signed]; rfl)
  case i32 =>
    have signed : toSigned 32 b = (BitVec.ofNat 32 b).toInt := toSigned_eq_toInt (by decide) hb
    exact sourceReads_int rfl (by rw [signed]; rfl)

/-! ### Rounding a fraction (R58, R60, R63) -/

section
variable {neg : Bool} {m num den : Nat} {e : Int} (pos : 0 < den) (value : (m : ℚ) * 2 ^ e * den = num)
include pos value

theorem significand_eq_zero_iff : m = 0 ↔ num = 0 := by
  have unit : (2 : ℚ) ^ e ≠ 0 := by positivity
  have ne : (den : ℚ) ≠ 0 := by exact_mod_cast pos.ne'
  rw [← Nat.cast_eq_zero (R := ℚ), ← Nat.cast_eq_zero (R := ℚ) (n := num), ← value, mul_eq_zero, mul_eq_zero]
  simp [unit, ne]

/-- A value rounded to a float type. -/
theorem round_fraction {f : Fmt} (hf : f.Ok) (rm : RMode) (draw : Nat) (some_part : num ≠ 0) :
    Rounds f rm draw neg (ratio (num * 2 ^ unitExp f) den) (f.round rm draw (.fin neg m e)).1 (f.round rm draw (.fin neg m e)).2 := by
  refine round_rounds hf rm draw neg (mt (significand_eq_zero_iff pos value).1 some_part) (measures_ratio pos ?_)
  rw [value]
  push_cast
  linear_combination (-(num : ℚ)) * unit_cancels hf

/-- A value rounded to a whole number. -/
theorem roundAt_fraction (rm : RMode) (draw : Nat) :
    roundAt rm draw neg m e 0 = (num / den + (if roundsUp rm draw neg num den then 1 else 0), num % den != 0) := by
  obtain ⟨w, hw⟩ : ∃ w, w = min e 0 := ⟨_, rfl⟩
  have he : w ≤ e := by omega
  have h0 : w ≤ 0 := by omega
  have posQ : 0 < 2 ^ (0 - w).toNat := by positivity
  have cross : m * 2 ^ (e - w).toNat * den = num * 2 ^ (0 - w).toNat := by
    have unit : (2 : ℚ) ^ w ≠ 0 := by positivity
    have left := scaled_pow he m
    have right := scaled_pow h0 1
    have : ((m * 2 ^ (e - w).toNat * den : Nat) : ℚ) * 2 ^ w = (num * 2 ^ (0 - w).toNat : Nat) * 2 ^ w := by
      rw [Nat.cast_mul _ den, mul_right_comm, left, value, Nat.cast_mul, mul_assoc]
      rw [Nat.one_mul, Nat.cast_one, zpow_zero, mul_one] at right
      rw [right, mul_one]
    exact_mod_cast mul_right_cancel₀ unit this
  rw [roundAt_eq he h0]
  generalize m * 2 ^ (e - w).toNat = V at cross ⊢
  generalize 2 ^ (0 - w).toNat = Q at cross posQ ⊢
  have quot : V / Q = num / den := by
    rw [← Nat.mul_div_mul_right V Q pos, cross, Nat.mul_comm Q den, Nat.mul_div_mul_right _ _ posQ]
  have up : roundsUp rm draw neg V Q = roundsUp rm draw neg num den := by
    rw [← roundsUp_scale rm draw neg V Q pos, cross, Nat.mul_comm Q den, roundsUp_scale rm draw neg num den posQ]
  have rest : (V % Q != 0) = (num % den != 0) := by
    have : V % Q * den = num % den * Q := by
      rw [← Nat.mul_mod_mul_right, cross, Nat.mul_comm Q den, Nat.mul_mod_mul_right]
    have zero : V % Q = 0 ↔ num % den = 0 :=
      ⟨fun h => by simpa [h, posQ.ne'] using this.symm, fun h => by simpa [h, pos.ne'] using this⟩
    rw [Bool.eq_iff_iff, bne_iff_ne, bne_iff_ne, ne_eq, ne_eq, zero]
  rw [quot, up, rest]

end

/-! ### Rounding to an integer type (R63) -/

/-- Whether a rounding of a fraction goes away from zero. -/
def wholeUp (rm : RMode) (draw : Nat) (neg : Bool) (num den : Nat) : Bool :=
  num % den != 0 && match rm with
    | .rne => decide (den < 2 * (num % den)) || (2 * (num % den) == den && num / den % 2 == 1)
    | .rtz => false
    | .rup => !neg
    | .rdn => neg
    | .sr => decide (draw < num % den * 2 ^ 32 / den)

/-- What a rounding to the magnitude n delivers to an integer of w bits. -/
def DeliversWhole (w : Nat) (neg : Bool) (n part r : Nat) (fl : FFlags) : Prop :=
  let z : Int := if neg then -n else n
  let top : Int := (2 ^ (w - 1) : Nat)
  if z < -top then r = 2 ^ (w - 1) ∧ fl = 1
  else if top ≤ z then r = 2 ^ (w - 1) - 1 ∧ fl = 1
  else r = (z % (2 ^ w : Nat)).toNat ∧ fl = (if part = 0 then 0 else 0b10000)

theorem wholeIs_iff {w : Nat} {rm : RMode} {draw : Nat} {neg : Bool} {num den r : Nat} {fl : FFlags} :
    WholeIs w rm draw neg num den r fl ↔
      DeliversWhole w neg (if wholeUp rm draw neg num den then num / den + 1 else num / den) (num % den) r fl := Iff.rfl

theorem wholeUp_eq (rm : RMode) (draw : Nat) (neg : Bool) (num : Nat) {den : Nat} (pos : 0 < den) :
    wholeUp rm draw neg num den = roundsUp rm draw neg num den := by
  unfold wholeUp
  by_cases rest : num % den = 0
  · rw [roundsUp_of_dvd rm draw neg pos (Nat.dvd_of_mod_eq_zero rest), rest]
    rfl
  · have : (num % den != 0) = true := bne_iff_ne.2 rest
    rw [this, Bool.true_and]
    cases rm <;> simp [roundsUp, rest]

theorem roundInt_fin (w : Nat) (rm : RMode) (draw : Nat) (neg : Bool) {m : Nat} (hm : m ≠ 0) (e : Int) :
    roundInt w rm draw (.fin neg m e) =
      let n := (roundAt rm draw neg m e 0).1
      let fl := if (roundAt rm draw neg m e 0).2 then flInexact else 0
      if neg then (if 2 ^ (w - 1) < n then (2 ^ (w - 1), flInvalid) else ((2 ^ w - n) % 2 ^ w, fl))
      else if 2 ^ (w - 1) - 1 < n then (2 ^ (w - 1) - 1, flInvalid) else (n, fl) := by
  have some_part : ¬ (m == 0) = true := by rwa [beq_iff_eq]
  rw [roundInt, if_neg some_part]

section
variable {neg : Bool} {m num den : Nat} {e : Int} (pos : 0 < den) (value : (m : ℚ) * 2 ^ e * den = num)
include pos value

/-- A value rounded to an integer type, which saturates. -/
theorem roundInt_wholeIs {w : Nat} (hw : 0 < w) (rm : RMode) (draw : Nat) :
    WholeIs w rm draw neg num den (roundInt w rm draw (.fin neg m e)).1 (roundInt w rm draw (.fin neg m e)).2 := by
  have top : 0 < 2 ^ (w - 1) := by positivity
  have double : 2 ^ w = 2 * 2 ^ (w - 1) := by rw [← Nat.pow_succ']; congr 1; omega
  rw [wholeIs_iff, wholeUp_eq rm draw neg num pos]
  by_cases hm : m = 0
  · obtain rfl := (significand_eq_zero_iff pos value).1 hm
    subst hm
    have whole : roundInt w rm draw (.fin neg 0 e) = (0, 0) := rfl
    rw [whole, roundsUp_of_dvd rm draw neg pos (Nat.dvd_zero den)]
    simp [DeliversWhole]
  · have next (c : Bool) : (if c then num / den + 1 else num / den) = num / den + if c then 1 else 0 := by cases c <;> rfl
    rw [roundInt_fin w rm draw neg hm, roundAt_fraction pos value, next]
    dsimp only
    generalize num / den + (if roundsUp rm draw neg num den then 1 else 0) = n
    have flags : (if (num % den != 0) = true then flInexact else 0) = if num % den = 0 then 0 else 0b10000 := by
      by_cases rest : num % den = 0 <;> simp [rest, flInexact]
    unfold DeliversWhole
    rw [flags]
    cases neg
    · simp only [Bool.false_eq_true, if_false]
      rw [if_neg (by omega)]
      by_cases large : 2 ^ (w - 1) - 1 < n
      · rw [if_pos large, if_pos (by omega)]
        exact ⟨rfl, rfl⟩
      · rw [if_neg large, if_neg (by omega)]
        exact ⟨by rw [Int.emod_eq_of_lt (by omega) (by omega), Int.toNat_natCast], rfl⟩
    · simp only [if_true]
      by_cases large : 2 ^ (w - 1) < n
      · rw [if_pos large, if_pos (by omega)]
        exact ⟨rfl, rfl⟩
      · rw [if_neg large, if_neg (by omega), if_neg (by omega)]
        refine ⟨?_, rfl⟩
        have : (-(n : Int)) % (2 ^ w : Nat) = ((2 ^ w - n : Nat) : Int) % (2 ^ w : Nat) := by
          rw [Nat.cast_sub (by omega), ← Int.add_emod_left, sub_eq_add_neg]
        rw [this, ← Int.natCast_mod, Int.toNat_natCast]

end

theorem roundInt_lt {w : Nat} (hw : 0 < w) (rm : RMode) (draw : Nat) (x : Fl) : (roundInt w rm draw x).1 < 2 ^ w := by
  have top : 0 < 2 ^ (w - 1) := by positivity
  have double : 2 ^ w = 2 * 2 ^ (w - 1) := by rw [← Nat.pow_succ']; congr 1; omega
  cases x with
  | nan neg sig => exact top.trans (by omega)
  | inf neg => cases neg <;> simp [roundInt] <;> omega
  | fin neg m e =>
    by_cases hm : m = 0
    · subst hm
      exact top.trans (by omega)
    · rw [roundInt_fin w rm draw neg hm]
      have wraps (n : Nat) : (2 ^ w - n) % 2 ^ w < 2 ^ w := Nat.mod_lt _ (by omega)
      cases neg
      · simp only [Bool.false_eq_true, if_false, apply_ite Prod.fst]
        split <;> omega
      · simp only [if_true, apply_ite Prod.fst]
        exact ite_lt (by omega) (wraps _)

end Sys2Proof.Machine
end

section
namespace Sys2Proof.Machine

/-! ### Conversion to l6 (R58) -/

theorem sameValue_eq (m : Nat) (e : Int) (m' : Nat) (e' : Int) :
    sameValue m e m' e' = decide ((m : ℚ) * 2 ^ e = m' * 2 ^ e') := by
  unfold sameValue
  split
  · rename_i le
    have unit : (2 : ℚ) ^ e ≠ 0 := by positivity
    rw [Bool.eq_iff_iff, decide_eq_true_iff, beq_iff_eq, ← scaled_pow le m', mul_left_inj' unit, Nat.cast_inj]
  · rename_i gt
    have unit : (2 : ℚ) ^ e' ≠ 0 := by positivity
    rw [Bool.eq_iff_iff, decide_eq_true_iff, beq_iff_eq, ← scaled_pow (by omega : e' ≤ e) m, mul_left_inj' unit, Nat.cast_inj]

/-- The fraction of the l6 code nearest to a significand, from the thresholds that the significand is below. -/
def l6Frac (below : Nat → Bool) : Nat :=
  if below 0x8B95C2 then 0 else if below 0xA1DED4 then 1 else if below 0xBC1142 then 2 else if below 0xDAE5C8 then 3 else 0

/-- What a conversion to l6 delivers. -/
def l6Deliver (s : Nat) (whole : Int) (frac : Nat) (exact : Bool) : Nat × FFlags :=
  if 7 < whole then (s + 31, 0b10100)
  else if whole < 0 ∨ (whole = 0 ∧ frac = 0) then (s, 0b11000)
  else (s + 4 * whole.toNat + frac, if exact then 0 else 0b10000)

theorem l6Frac_lt (below : Nat → Bool) : l6Frac below < 4 := by
  unfold l6Frac
  repeat' split
  all_goals decide

/-- The binade goes up by one where the significand is below no threshold. -/
theorem l6_binade {below : Nat → Bool} (mono : ∀ t, t ≤ 0xDAE5C8 → below t = true → below 0xDAE5C8 = true) (exp : Int) :
    (if below 0x8B95C2 then (0, exp) else if below 0xA1DED4 then (1, exp) else if below 0xBC1142 then (2, exp)
      else if below 0xDAE5C8 then (3, exp) else (0, exp + 1)) =
      (l6Frac below, exp + (if below 0xDAE5C8 then 0 else 1)) := by
  unfold l6Frac
  cases last : below 0xDAE5C8
  · have none (t : Nat) (h : t ≤ 0xDAE5C8) : below t = false :=
      Bool.eq_false_iff.2 fun hb => absurd (mono t h hb) (last ▸ Bool.false_ne_true)
    rw [none 0x8B95C2 (by decide), none 0xA1DED4 (by decide), none 0xBC1142 (by decide)]
    rfl
  · rw [if_pos rfl, if_pos rfl, if_pos rfl, Int.add_zero]
    split
    · rfl
    · split
      · rfl
      · split <;> rfl

/-- The code of a finite number with the exponent given, from the thresholds that its significand is below. -/
def l6Round (s m : Nat) (e exp : Int) (below : Nat → Bool) : Nat × FFlags :=
  let (f, ex) : Nat × Int :=
    if below 0x8B95C2 then (0, exp) else if below 0xA1DED4 then (1, exp) else if below 0xBC1142 then (2, exp)
    else if below 0xDAE5C8 then (3, exp) else (0, exp + 1)
  let i := ex + 4
  if i > 7 then (s + 31, flOverflow ||| flInexact)
  else if i < 0 || (i == 0 && f == 0) then (s, flUnderflow ||| flInexact)
  else
    let q := 4 * i.toNat + f
    (s + q, if sameValue m e (l6T f) (((q / 4 : Nat) : Int) - 4 - 23) then 0 else flInexact)

theorem l6Round_eq {below : Nat → Bool} (mono : ∀ t, t ≤ 0xDAE5C8 → below t = true → below 0xDAE5C8 = true) (s m : Nat)
    (e exp : Int) :
    let whole := exp + (if below 0xDAE5C8 then 0 else 1) + 4
    l6Round s m e exp below = l6Deliver s whole (l6Frac below)
      (decide ((m : ℚ) * 2 ^ e = l6Sig (l6Frac below) * 2 ^ ((whole.toNat : Int) - 4 - 23))) := by
  intro whole
  have lt := l6Frac_lt below
  have quarter (i : Nat) : (4 * i + l6Frac below) / 4 = i := by omega
  have sig : l6T (l6Frac below) = l6Sig (l6Frac below) := by rw [← Nat.mod_eq_of_lt lt, l6T_eq]
  have zero : (decide (whole < 0) || whole == 0 && l6Frac below == 0) =
      decide (whole < 0 ∨ (whole = 0 ∧ l6Frac below = 0)) := by rw [Bool.eq_iff_iff]; simp
  rw [l6Round, l6_binade mono]
  dsimp only
  rw [quarter, sig, sameValue_eq, ← Nat.add_assoc, zero]
  simp only [l6Deliver, decide_eq_true_iff]
  rfl

/-- The conversion of a finite number that is not 0. The thresholds stay behind a name: the numerals are too large to unfold. -/
theorem toL6_fin (neg : Bool) {m : Nat} (hm : m ≠ 0) (e : Int) :
    ∃ below : Nat → Bool, (∀ t, below t = decide (m * 2 ^ 23 < t * 2 ^ (bitLen m - 1))) ∧
      toL6 (.fin neg m e) = l6Round (if neg then 32 else 0) m e (e + bitLen m - 1) below := by
  have some_part : ¬ (m == 0) = true := by rwa [beq_iff_eq]
  obtain ⟨code, hcode⟩ : ∃ code, code = toL6 (.fin neg m e) := ⟨_, rfl⟩
  rw [← hcode]
  rw [toL6, if_neg some_part] at hcode
  extract_lets len thresholds exp at hcode
  obtain ⟨below, hbelow⟩ : ∃ below, below = thresholds := ⟨_, rfl⟩
  rw [← hbelow] at hcode
  exact ⟨below, fun t => by rw [hbelow], hcode⟩

theorem l6Deliver_fits (neg : Bool) {frac : Nat} (hf : frac < 4) (whole : Int) (exact : Bool) :
    written .l6 (l6Deliver (if neg then 32 else 0) whole frac exact).1 = (l6Deliver (if neg then 32 else 0) whole frac exact).1 := by
  refine Nat.mod_eq_of_lt (b := 64) ?_
  have sign : (if neg then 32 else 0) ≤ 32 := by cases neg <;> decide
  unfold l6Deliver
  split
  · dsimp only; omega
  · split <;> dsimp only <;> omega

/-- What the statement of the conversion says of a code. -/
def DeliversL6 (below : Nat → Bool) (neg : Bool) (num den : Nat) (whole : Int) (r : Nat) (fl : FFlags) : Prop :=
  let s := if neg then 32 else 0
  if 7 < whole then r = s + 31 ∧ fl = 0b10100
  else if whole < 0 ∨ (whole = 0 ∧ l6Frac below = 0) then r = s ∧ fl = 0b11000
  else r = s + 4 * whole.toNat + l6Frac below ∧
    fl = (if l6Sig (l6Frac below) * 2 ^ whole.toNat * den = num * 2 ^ 27 then 0 else 0b10000)

theorem l6Is_iff {neg : Bool} {num den r : Nat} {fl : FFlags} : L6Is neg num den r fl ↔
    ∃ k : Nat, den * 2 ^ k ≤ num * 2 ^ 200 ∧ num * 2 ^ 200 < den * 2 ^ (k + 1) ∧
      let below (t : Nat) : Bool := decide (num * 2 ^ 223 < t * den * 2 ^ k)
      DeliversL6 below neg num den ((k : Int) - 196 + (if below 0xDAE5C8 then 0 else 1)) r fl := Iff.rfl

section
variable {neg : Bool} {m num den : Nat} {e : Int} (hm : m ≠ 0) (pos : 0 < den) (small : den ≤ 2 ^ 200)
  (value : (m : ℚ) * 2 ^ e * den = num)
include hm pos value

include small in
/-- A fraction that is not 0 has an exponent of -200 or more. -/
theorem l6_exponent : 0 ≤ e + m.log2 + 200 := by
  by_contra low
  have some_num : 1 ≤ num := Nat.one_le_iff_ne_zero.2 (mt (significand_eq_zero_iff pos value).2 hm)
  have top : (m : ℚ) < 2 ^ (m.log2 + 1) := by exact_mod_cast Nat.lt_log2_self (n := m)
  have bound : (den : ℚ) ≤ 2 ^ 200 := by exact_mod_cast small
  have unit : (0 : ℚ) < 2 ^ e := by positivity
  have : (num : ℚ) < 1 := by
    calc (num : ℚ) = m * 2 ^ e * den := value.symm
      _ ≤ m * 2 ^ e * 2 ^ 200 := mul_le_mul_of_nonneg_left bound (by positivity)
      _ < 2 ^ (m.log2 + 1) * 2 ^ e * 2 ^ 200 := by gcongr
      _ = 2 ^ (e + m.log2 + 1 + 200 : Int) := by
        rw [← zpow_natCast, ← zpow_natCast, two_zpow_mul rfl, two_zpow_mul rfl]
        congr 1
        push_cast
        ring
      _ ≤ 2 ^ (0 : Int) := zpow_le_zpow_right₀ (by norm_num) (by omega)
      _ = 1 := zpow_zero _
  have : (1 : ℚ) ≤ num := by exact_mod_cast some_num
  linarith

/-- A finite number that is not 0 converts to l6 by its thresholds. -/
theorem toL6_l6Is {k : Nat} (hk : (k : Int) = e + m.log2 + 200) :
    L6Is neg num den (toL6 (.fin neg m e)).1 (toL6 (.fin neg m e)).2 ∧
      written .l6 (toL6 (.fin neg m e)).1 = (toL6 (.fin neg m e)).1 := by
  obtain ⟨c, hc⟩ : ∃ c : ℚ, c = 2 ^ e * 2 ^ 200 * den := ⟨_, rfl⟩
  have posc : 0 < c := by
    have : (0 : ℚ) < den := by exact_mod_cast pos
    rw [hc]
    positivity
  have significand : (m : ℚ) * c = (num * 2 ^ 200 : Nat) := by
    rw [hc, mul_comm ((2 : ℚ) ^ e), mul_assoc, ← mul_assoc, mul_comm (m : ℚ), mul_assoc, ← mul_assoc (m : ℚ), value]
    push_cast
    ring
  have power (i : Nat) : (2 ^ (m.log2 + i) : Nat) * c = (den * 2 ^ (k + i) : Nat) := by
    have : (2 : ℚ) ^ (m.log2 + i) * (2 ^ e * 2 ^ 200) = 2 ^ (k + i) := by
      rw [← zpow_natCast, ← zpow_natCast, ← zpow_natCast, two_zpow_mul rfl, two_zpow_mul]
      push_cast
      omega
    rw [hc, Nat.cast_pow, Nat.cast_ofNat, ← mul_assoc, this]
    push_cast
    ring
  have lt_iff {x y u v : Nat} (hx : (x : ℚ) * c = u) (hy : (y : ℚ) * c = v) : x < y ↔ u < v := by
    rw [← Nat.cast_lt (α := ℚ), ← mul_lt_mul_iff_left₀ posc, hx, hy, Nat.cast_lt]
  obtain ⟨below, hbelow, code⟩ := toL6_fin neg hm e
  have threshold (t : Nat) : below t = decide (num * 2 ^ 223 < t * den * 2 ^ k) := by
    rw [hbelow, bitLen_eq hm, Nat.add_sub_cancel]
    refine decide_eq_decide.2 (lt_iff ?_ ?_)
    · rw [Nat.cast_mul, mul_right_comm, significand, ← Nat.cast_mul, Nat.mul_assoc, ← Nat.pow_add]
    · have := power 0
      rw [Nat.add_zero, Nat.add_zero] at this
      rw [Nat.cast_mul, mul_assoc, this, ← Nat.cast_mul, Nat.mul_assoc]
  have mono (t : Nat) (h : t ≤ 0xDAE5C8) (hb : below t = true) : below 0xDAE5C8 = true := by
    rw [hbelow, decide_eq_true_iff] at hb ⊢
    exact hb.trans_le (Nat.mul_le_mul_right _ h)
  have frac := l6Frac_lt below
  have exp : e + (m.log2 + 1 : Nat) - 1 = k - 200 := by push_cast; omega
  have whole : (k : Int) - 200 + (if below 0xDAE5C8 then 0 else 1) + 4 = k - 196 + (if below 0xDAE5C8 then 0 else 1) := by omega
  rw [code, bitLen_eq hm, exp, l6Round_eq mono, whole, l6Is_iff]
  refine ⟨⟨k, ?_, ?_, ?_⟩, l6Deliver_fits neg frac _ _⟩
  · have := lt_iff significand (power 0)
    rw [Nat.add_zero, Nat.add_zero] at this
    exact Nat.le_of_not_lt (mt this.2 (Nat.not_lt.2 (Nat.log2_self_le hm)))
  · exact (lt_iff significand (power 1)).1 Nat.lt_log2_self
  · rw [← (funext threshold : below = _)]
    dsimp only
    generalize (k : Int) - 196 + (if below 0xDAE5C8 then 0 else 1) = whole
    have cross (t i : Nat) : (m : ℚ) * 2 ^ e = t * 2 ^ ((i : Int) - 4 - 23) ↔ t * 2 ^ i * den = num * 2 ^ 27 := by
      have unit : (2 : ℚ) ^ ((i : Int) - 4 - 23) * 2 ^ 27 = 2 ^ i := by
        rw [← zpow_natCast, ← zpow_natCast, two_zpow_mul]
        push_cast
        ring
      have posd : (den : ℚ) * 2 ^ 27 ≠ 0 := by
        have : (den : ℚ) ≠ 0 := by exact_mod_cast pos.ne'
        positivity
      have left : (m : ℚ) * 2 ^ e * (den * 2 ^ 27) = (num * 2 ^ 27 : Nat) := by
        rw [← mul_assoc, value]
        push_cast
        ring
      have right : (t : ℚ) * 2 ^ ((i : Int) - 4 - 23) * (den * 2 ^ 27) = (t * 2 ^ i * den : Nat) := by
        rw [Nat.cast_mul, Nat.cast_mul, Nat.cast_pow, Nat.cast_ofNat, ← unit]
        ring
      rw [← mul_left_inj' posd, left, right, Nat.cast_inj]
      exact eq_comm
    unfold DeliversL6 l6Deliver
    dsimp only
    split
    · exact ⟨rfl, rfl⟩
    · split
      · exact ⟨rfl, rfl⟩
      · exact ⟨rfl, if_congr (decide_eq_true_iff.trans (cross _ _)) rfl rfl⟩

end

end Sys2Proof.Machine
end

section
namespace Sys2Proof.Machine

/-! ### Conversions (R58, R63, R172) -/

/-- What a conversion delivers to an integer of w bits. -/
def WholeTarget (w : Nat) (rm : RMode) (draw : Nat) (nan inf : Bool) (x : Bool × Nat × Nat) (r : Nat) (fl : FFlags) : Prop :=
  if nan then r = 0 ∧ fl = 1 else if inf then r = (if x.1 then 2 ^ (w - 1) else 2 ^ (w - 1) - 1) ∧ fl = 1
  else WholeIs w rm draw x.1 x.2.1 x.2.2 r fl

/-- What a conversion delivers to l6. -/
def L6Target (nan inf : Bool) (x : Bool × Nat × Nat) (r : Nat) (fl : FFlags) : Prop :=
  if nan then r = 0 ∧ fl = 1 else if inf then r = (if x.1 then 32 else 0) + 31 ∧ fl = 0b10100
  else if x.2.1 = 0 then r = (if x.1 then 32 else 0) ∧ fl = 0 else L6Is x.1 x.2.1 x.2.2 r fl

/-- What a conversion delivers to a float format. -/
def FloatTarget (f : Fmt) (rm : RMode) (draw : Nat) (nan inf sig : Bool) (x : Bool × Nat × Nat) (r : Nat) (fl : FFlags) : Prop :=
  if nan then r = withSign f x.1 (nanCode f) ∧ fl = (if sig then 1 else 0)
  else if inf then (if f.hasInf then r = withSign f x.1 (infCode f) ∧ fl = 0 else r = withSign f x.1 (maxCode f) ∧ fl = 0b10100)
  else if x.2.1 = 0 then r = withSign f x.1 0 ∧ fl = 0
  else Rounds f rm draw x.1 (ratio (x.2.1 * 2 ^ unitExp f) x.2.2) r fl

/-- What a conversion delivers to a type. -/
def ConvertTarget (ty : ElemTy) (rm : RMode) (draw : Nat) (nan inf sig : Bool) (x : Bool × Nat × Nat) (r : Nat) (fl : FFlags) : Prop :=
  match ty with
  | .i8 => WholeTarget 8 rm draw nan inf x r fl
  | .i32 => WholeTarget 32 rm draw nan inf x r fl
  | .l6 => L6Target nan inf x r fl
  | _ => FloatTarget (elemFmt ty) rm draw nan inf sig x r fl

theorem convertIs_iff {ty ts : ElemTy} {rm : RMode} {draw b r : Nat} {fl : FFlags} : ConvertIs ty ts rm draw b r fl ↔
    if ty = ts then r = b ∧ fl = 0
    else ConvertTarget ty rm draw (ts.isFloat && nanBits (elemFmt ts) b) (ts.isFloat && infBits (elemFmt ts) b)
      (sigBits (elemFmt ts) b) (fractionOf ts b) r fl := by
  cases ts <;> exact Iff.rfl

/-- The conversion of a value to a type. -/
def convertValue (ty : ElemTy) (rm : RMode) (draw : Nat) (x : Fl) : Nat × FFlags :=
  match x with
  | .nan neg sig =>
    match ty with
    | .i8 | .i32 | .l6 => (0, flInvalid)
    | _ => ((elemFmt ty).nanBits neg, if sig then flInvalid else 0)
  | x => roundTo ty rm draw x

theorem convertValue_nan {ty : ElemTy} (ht : ty.isFloat = true) (rm : RMode) (draw : Nat) (neg sig : Bool) :
    convertValue ty rm draw (.nan neg sig) = ((elemFmt ty).nanBits neg, if sig then 1 else 0) := by
  rcases isFloat_iff.1 ht with rfl | rfl | rfl | rfl <;> rfl

theorem convert_eq (ty ts : ElemTy) (rm : RMode) (draw b : Nat) :
    convert ty ts rm draw b = if ty = ts then (b, 0) else convertValue ty rm draw (elemValue ts b) :=
  if_congr beq_iff_eq rfl (by cases elemValue ts b <;> rfl)

section
variable {ts : ElemTy} {b : Nat} {x : Fl} (reads : SourceReads ts b x)
include reads

theorem wholeTarget_roundInt {w : Nat} (hw : 0 < w) (rm : RMode) (draw : Nat) :
    WholeTarget w rm draw (ts.isFloat && nanBits (elemFmt ts) b) (ts.isFloat && infBits (elemFmt ts) b) (fractionOf ts b)
      (roundInt w rm draw x).1 (roundInt w rm draw x).2 := by
  unfold WholeTarget
  cases reads with
  | nan float nan =>
    rw [float, nan]
    exact ⟨rfl, rfl⟩
  | inf float nan inf =>
    rw [float, nan, inf, fractionOf_float float]
    exact ⟨rfl, rfl⟩
  | fin neg m e num den nan inf frac pos small value =>
    rw [nan, inf, frac]
    exact roundInt_wholeIs pos value hw rm draw

theorem l6Target_toL6 : L6Target (ts.isFloat && nanBits (elemFmt ts) b) (ts.isFloat && infBits (elemFmt ts) b) (fractionOf ts b)
    (toL6 x).1 (toL6 x).2 ∧ written .l6 (toL6 x).1 = (toL6 x).1 := by
  unfold L6Target
  cases reads with
  | nan float nan =>
    rw [float, nan]
    exact ⟨⟨rfl, rfl⟩, rfl⟩
  | inf float nan inf =>
    rw [float, nan, inf, fractionOf_float float]
    exact ⟨⟨rfl, rfl⟩, by cases negBits (elemFmt ts) b <;> rfl⟩
  | fin neg m e num den nan inf frac pos small value =>
    rw [nan, inf, frac, if_neg Bool.false_ne_true, if_neg Bool.false_ne_true]
    by_cases hm : m = 0
    · rw [if_pos ((significand_eq_zero_iff pos value).1 hm), hm]
      exact ⟨⟨rfl, rfl⟩, by cases neg <;> rfl⟩
    · rw [if_neg (mt (significand_eq_zero_iff pos value).2 hm)]
      exact toL6_l6Is hm pos value (Int.toNat_of_nonneg (l6_exponent hm pos small value))

theorem floatTarget_convertValue {ty : ElemTy} (ht : ty.isFloat = true) (rm : RMode) (draw : Nat) :
    FloatTarget (elemFmt ty) rm draw (ts.isFloat && nanBits (elemFmt ts) b) (ts.isFloat && infBits (elemFmt ts) b)
      (sigBits (elemFmt ts) b) (fractionOf ts b) (convertValue ty rm draw x).1 (convertValue ty rm draw x).2 ∧
      (convertValue ty rm draw x).1 < 2 * signUnit (elemFmt ty) := by
  have ok := elemFmt_ok ty
  unfold FloatTarget
  cases reads with
  | nan float nan =>
    rw [float, nan, convertValue_nan ht, nanBits_eq, fractionOf_float float]
    exact ⟨⟨rfl, rfl⟩, withSign_lt _ (nanCode_lt ok)⟩
  | inf float nan inf =>
    have delivered : convertValue ty rm draw (.inf (negBits (elemFmt ts) b)) = _ := roundTo_float ht rm draw _
    rw [delivered]
    refine ⟨?_, round_lt ok ..⟩
    rw [float, nan, inf, fractionOf_float float, Fmt.round, infBits_eq, maxBits_eq, sign_add, sign_add]
    dsimp only
    rw [Bool.and_false, Bool.and_true, if_neg Bool.false_ne_true, if_pos rfl]
    split <;> exact ⟨rfl, rfl⟩
  | fin neg m e num den nan inf frac pos small value =>
    have delivered : convertValue ty rm draw (.fin neg m e) = _ := roundTo_float ht rm draw _
    rw [delivered]
    refine ⟨?_, round_lt ok ..⟩
    rw [nan, inf, frac, if_neg Bool.false_ne_true, if_neg Bool.false_ne_true]
    dsimp only
    split
    · rename_i zero
      rw [(significand_eq_zero_iff pos value).2 zero]
      exact ⟨rfl, rfl⟩
    · rename_i some_part
      exact round_fraction pos value ok rm draw some_part

end

/-- A conversion delivers what the statement says, and an element that its type writes. -/
theorem convert_convertIs (ty : ElemTy) {ts : ElemTy} (rm : RMode) (draw : Nat) {b : Nat} (hb : b < 2 ^ elemWidth ts)
    (hw : written ts b = b) : ConvertIs ty ts rm draw b (convert ty ts rm draw b).1 (convert ty ts rm draw b).2 ∧
      written ty (convert ty ts rm draw b).1 = (convert ty ts rm draw b).1 := by
  rw [convertIs_iff, convert_eq]
  by_cases same : ty = ts
  · subst same
    rw [if_pos rfl, if_pos rfl]
    exact ⟨⟨rfl, rfl⟩, hw⟩
  · rw [if_neg same, if_neg same]
    have reads := elemValue_reads hb
    generalize elemValue ts b = x at reads
    cases ty
    case i8 =>
      have delivered : convertValue .i8 rm draw x = roundInt 8 rm draw x := by cases x <;> rfl
      rw [delivered]
      exact ⟨wholeTarget_roundInt reads (by decide) rm draw, written_of_lt (by decide) (roundInt_lt (by decide) ..)⟩
    case i32 =>
      have delivered : convertValue .i32 rm draw x = roundInt 32 rm draw x := by cases x <;> rfl
      rw [delivered]
      exact ⟨wholeTarget_roundInt reads (by decide) rm draw, written_of_lt (by decide) (roundInt_lt (by decide) ..)⟩
    case l6 =>
      have delivered : convertValue .l6 rm draw x = toL6 x := by cases x <;> rfl
      rw [delivered]
      exact l6Target_toL6 reads
    case f32 | bf16 | e4m3 | e5m2 =>
      exact ⟨(floatTarget_convertValue reads rfl rm draw).1, written_float rfl (floatTarget_convertValue reads rfl rm draw).2⟩

theorem written_elem (v : BitVec 2048) (ty : ElemTy) (i : Nat) : written ty (elem v ty i) = elem v ty i := by
  rw [← elem_rawLane, written_written]

/-- A conversion rounds in the entry's mode where the statement says so. -/
theorem cvtRounds_eq {ty ts : ElemTy} : cvtRounds ty ts = true ↔
    ty ≠ ts ∧ ty ≠ .l6 ∧ ¬ (ty = .f32 ∧ ¬ (ts = .i8 ∨ ts = .i32)) ∧
      ¬ ((ty = .i8 ∨ ty = .i32) ∧ (ts = .i8 ∨ ts = .i32)) := by
  cases ty <;> cases ts <;> decide

end Sys2Proof.Machine
end

section
namespace Sys2Proof.Machine

/-! ### Comparisons of floats (R52, R170) -/

section
variable {f : Fmt} (hf : f.Ok) (a b : Nat)
include hf

theorem lt_unpack_eq : Fl.lt (f.unpack a) (f.unpack b) =
    (!(nanBits f a || nanBits f b) && decide (unitsOf f a < unitsOf f b)) := by
  cases ha : nanBits f a
  · cases hb : nanBits f b
    · rw [lt_unpack hf ha hb]; rfl
    · have nan := isNan_unpack hf b
      rw [hb] at nan
      generalize f.unpack b = v at nan
      cases v with
      | nan => cases f.unpack a <;> rfl
      | inf | fin => exact absurd nan Bool.false_ne_true
  · have nan := isNan_unpack hf a
    rw [ha] at nan
    generalize f.unpack a = u at nan
    cases u with
    | nan => rfl
    | inf | fin => exact absurd nan Bool.false_ne_true

theorem eqv_unpack_eq : Fl.eqv (f.unpack a) (f.unpack b) =
    (!(nanBits f a || nanBits f b) && decide (unitsOf f a = unitsOf f b)) := by
  cases ha : nanBits f a
  · cases hb : nanBits f b
    · rw [eqv_unpack hf ha hb]; rfl
    · rw [Fl.eqv, isNan_unpack hf b, hb]
      simp
  · rw [Fl.eqv, isNan_unpack hf a, ha]
    rfl

end

/-- Either operand of a comparison is a NaN. -/
def cmpNan (f : Fmt) (a b : Nat) : Bool := nanBits f a || nanBits f b

/-- What a relation of two floats comes to. -/
def cmpHolds (f : Fmt) (rel : CmpRel) (a b : Nat) : Bool :=
  match rel with
  | .eq => !cmpNan f a b && unitsOf f a == unitsOf f b
  | .ne => cmpNan f a b || unitsOf f a != unitsOf f b
  | .lt => !cmpNan f a b && decide (unitsOf f a < unitsOf f b)
  | .le => !cmpNan f a b && decide (unitsOf f a ≤ unitsOf f b)

/-- The operands of a comparison that is invalid. -/
def cmpFlagged (f : Fmt) (rel : CmpRel) (a b : Nat) : Bool :=
  sigBits f a || sigBits f b || (cmpNan f a b && (rel == .lt || rel == .le))

theorem sig_or_nan (f : Fmt) (a b : Nat) : (sigBits f a || sigBits f b || cmpNan f a b) = cmpNan f a b := by
  unfold sigBits cmpNan
  cases nanBits f a <;> cases nanBits f b <;> simp

theorem cmpFlagged_quiet {rel : CmpRel} (h : (rel == .lt || rel == .le) = false) (f : Fmt) (a b : Nat) :
    cmpFlagged f rel a b = (sigBits f a || sigBits f b) := by
  rw [cmpFlagged, h, Bool.and_false, Bool.or_false]

theorem cmpFlagged_signalling {rel : CmpRel} (h : (rel == .lt || rel == .le) = true) (f : Fmt) (a b : Nat) :
    cmpFlagged f rel a b = cmpNan f a b := by
  rw [cmpFlagged, h, Bool.and_true, sig_or_nan]

theorem elemCmp_float {ty : ElemTy} (ht : ty.isFloat = true) (rel : CmpRel) (a b : Nat) :
    elemCmp rel ty a b =
      (cmpHolds (elemFmt ty) rel a b, if cmpFlagged (elemFmt ty) rel a b then 1 else 0) := by
  have ok := elemFmt_ok ty
  have start : elemCmp rel ty a b =
      let x := (elemFmt ty).unpack a
      let y := (elemFmt ty).unpack b
      match rel with
      | .eq => (Fl.eqv x y, if x.isSig || y.isSig then 1 else 0)
      | .ne => (!Fl.eqv x y, if x.isSig || y.isSig then 1 else 0)
      | .lt => (Fl.lt x y, if x.isNan || y.isNan then 1 else 0)
      | .le => (Fl.lt x y || Fl.eqv x y, if x.isNan || y.isNan then 1 else 0) := by
    rcases isFloat_iff.1 ht with rfl | rfl | rfl | rfl <;> cases rel <;> rfl
  rw [start]
  dsimp only
  rw [isSig_unpack ok, isSig_unpack ok, isNan_unpack ok, isNan_unpack ok, lt_unpack_eq ok, eqv_unpack_eq ok]
  cases rel
  case eq => exact Prod.ext rfl (by rw [cmpFlagged_quiet rfl])
  case ne => exact Prod.ext (by rw [Bool.not_and, Bool.not_not]; rfl) (by rw [cmpFlagged_quiet rfl])
  case lt => exact Prod.ext rfl (by rw [cmpFlagged_signalling rfl]; rfl)
  case le =>
    refine Prod.ext ?_ (by rw [cmpFlagged_signalling rfl]; rfl)
    have le (x y : Int) : (decide (x < y) || decide (x = y)) = decide (x ≤ y) := by
      rw [Bool.eq_iff_iff, Bool.or_eq_true, decide_eq_true_iff, decide_eq_true_iff, decide_eq_true_iff, le_iff_lt_or_eq]
    rw [← Bool.and_or_distrib_left, le]
    rfl

theorem orFlags_ite (n : Nat) (p : Nat → Bool) :
    orFlags n (fun i => if p i then 1 else 0) = if (List.range n).any p then 1 else 0 := by
  induction n with
  | zero => rfl
  | succ n ih =>
    rw [orFlags_succ, ih, invalid_or, List.range_succ, List.any_append]
    simp

/-- The result and the flags of a comparison after the first elements. -/
theorem compare_upTo (act : Nat → Bool) (out : Nat → Bool × FFlags) (eats : Nat → Bool) (k : Nat) :
    let r := (List.range k).foldl (fun (a : BitVec 256 × FFlags × Bool) i =>
      if act i then (if (out i).1 then a.1 ||| (1#256 <<< i) else a.1, a.2.1 ||| (out i).2, a.2.2 || eats i) else a) (0, 0, false)
    (∀ j, j < 256 → r.1.getLsbD j = (decide (j < k) && act j && (out j).1)) ∧
      r.2.1 = orFlags k (fun i => if act i then (out i).2 else 0) := by
  induction k with
  | zero => simp [orFlags]
  | succ k ih =>
    dsimp only at ih ⊢
    rw [List.range_succ, List.foldl_append, List.foldl_cons, List.foldl_nil, orFlags_succ]
    obtain ⟨bits, flags⟩ := ih
    generalize (List.range k).foldl _ ((0, 0, false) : BitVec 256 × FFlags × Bool) = r at bits flags ⊢
    have below (j : Nat) : decide (j < k + 1) = (decide (j < k) || decide (j = k)) := by
      rw [Bool.eq_iff_iff]; simp; omega
    by_cases active : act k = true
    · refine ⟨fun j hj => ?_, by rw [if_pos active, if_pos active, flags]⟩
      have bit : (1#256 <<< k).getLsbD j = decide (j = k) := by
        rw [BitVec.getLsbD_shiftLeft, BitVec.getLsbD_one, Bool.eq_iff_iff]
        simp
        omega
      rw [if_pos active, below]
      dsimp only
      by_cases same : j = k
      · subst same
        split
        · rename_i out_true
          rw [BitVec.getLsbD_or, bit]
          simp [active, out_true]
        · rename_i out_false
          rw [bits j hj]
          simp [out_false]
      · rw [apply_ite (fun x : BitVec 256 => x.getLsbD j), BitVec.getLsbD_or, bit, decide_eq_false same, Bool.or_false,
          Bool.or_false, ite_self, bits j hj]
    · refine ⟨fun j hj => ?_, by rw [if_neg active, if_neg active, flags]; exact BitVec.or_zero.symm⟩
      rw [if_neg active, bits j hj, below]
      by_cases same : j = k
      · subst same; simp [active]
      · simp [same]

end Sys2Proof.Machine
end

section
namespace Sys2Proof.Machine

/-! ### Conversion and comparison entries (R170, R172) -/

theorem regEntry_vcvt {t : CtxSet} {e : Entry} {ty ts : ElemTy} {mk : MReg} {vs1 vd : VReg} (h : e.instr = .vcvt ty ts mk vs1 vd) :
    t.regEntry e = some (t.convertV e ty ts mk vs1 vd) := by
  rw [CtxSet.regEntry, h]

theorem regEntry_vcmp {t : CtxSet} {e : Entry} {rel : CmpRel} {ty : ElemTy} {mk md : MReg} {s2 : VSrc} {vs1 : VReg}
    (h : e.instr = .vcmp rel ty mk s2 vs1 md) : t.regEntry e = some (t.compare e rel ty mk s2 vs1 md) := by
  rw [CtxSet.regEntry, h]

theorem mask_setMask_same (t : CtxSet) {md : MReg} (hmd : md ≠ 0) (v : BitVec 256) : (t.setMask md v).mask md = v := by
  rw [CtxSet.setMask, if_neg hmd, CtxSet.mask, if_neg hmd, vget_vset_same]

theorem mask_setMask_ne (t : CtxSet) {md q : MReg} (hq : q ≠ md) (v : BitVec 256) : (t.setMask md v).mask q = t.mask q := by
  have regs : vget (t.setMask md v).m q = vget t.m q := by
    unfold CtxSet.setMask
    split
    · rfl
    · rw [vget_vset_ne _ _ _ _ hq]
  rw [CtxSet.mask, CtxSet.mask, regs]

theorem mask_congr {t u : CtxSet} (h : t.m = u.m) (q : MReg) : t.mask q = u.mask q := by
  unfold CtxSet.mask
  rw [h]

theorem setMask_v (t : CtxSet) (md : MReg) (v : BitVec 256) : (t.setMask md v).v = t.v := by
  unfold CtxSet.setMask
  split <;> rfl

theorem setMask_vdone (t : CtxSet) (md : MReg) (v : BitVec 256) : (t.setMask md v).vdone = t.vdone := by
  unfold CtxSet.setMask
  split <;> rfl

section
variable {s : State} {g : Nat} {e : Entry} {rest : List Entry} (hq : (s.aset g).vq = e :: rest) (hl : (s.aset g).leaving = false)
include hq hl

/-- A conversion entry, with a draw for each active element that its source has where it rounds in mode SR. -/
theorem vcvt_floatLanes {ty ts : ElemTy} {mk : MReg} {vs1 vd : VReg} (h : e.instr = .vcvt ty ts mk vs1 vd) {rm : RMode}
    (mode : modeOf e.rm = rm) {drawing : Nat}
    (hd : drawing = if rm = .sr ∧ cvtRounds ty ts = true then min (elemCount ty) (elemCount ts) else 0) :
    ∃ u, exec (.vEntryExecute g) s = .next u ∧ FloatLanes s u g e rest ty mk vd drawing fun d i r fl =>
      if i < elemCount ts then ConvertIs ty ts rm d (elem (vget (s.aset g).v vs1) ts i) r fl else r = 0 ∧ fl = 0 := by
  refine elementwise_floatLanes_of hq hl (regEntry_vcvt h) ?_ (fun i hi => ?_) fun d i hi => ?_
  · rw [hd]
    split
    · exact Nat.min_le_left ..
    · exact Nat.zero_le _
  · have sr : (modeOf e.rm == .sr && cvtRounds ty ts) = decide (rm = .sr ∧ cvtRounds ty ts = true) := by
      rw [mode, Bool.eq_iff_iff, Bool.and_eq_true, beq_iff_eq, decide_eq_true_iff]
    rw [sr, hd]
    split
    · rename_i rounds
      rw [decide_eq_true rounds, Bool.true_and]
      exact decide_eq_decide.2 (by omega)
    · rename_i exact_mode
      rw [decide_eq_false exact_mode, decide_eq_false (Nat.not_lt_zero i)]
      rfl
  · have fits := written_elem (vget (s.aset g).v vs1) ts i
    obtain ⟨converts, delivered⟩ := convert_convertIs ty rm d (elem_lt (vget (s.aset g).v vs1) ts i) fits
    rw [mode]
    dsimp only
    by_cases source : i < elemCount ts
    · rw [if_pos source, if_neg (Nat.not_le.2 source)]
      dsimp only
      rw [delivered]
      exact converts
    · rw [if_neg source, if_pos (Nat.le_of_not_lt source)]
      exact ⟨by cases ty <;> rfl, rfl⟩

/-- A comparison entry: the mask that it writes, and its flags. -/
theorem vcmp_masks {rel : CmpRel} {ty : ElemTy} {mk md : MReg} {s2 : VSrc} {vs1 : VReg} (ht : ty.isFloat = true)
    (h : e.instr = .vcmp rel ty mk s2 vs1 md) (hmd : md ≠ 0) :
    let t := s.aset g
    let act (i : Nat) : Bool := (t.mask mk).getLsbD i
    let a (i : Nat) : Nat := elem (vget t.v vs1) ty i
    let b (i : Nat) : Nat := t.elemOperand ty s2 e.x0 i
    ∃ u, exec (.vEntryExecute g) s = .next u ∧
      VectorDone s u g e rest
        (if (List.range (elemCount ty)).any fun i => act i && cmpFlagged (elemFmt ty) rel (a i) (b i) then 1 else 0) ∧
      (u.aset g).v = t.v ∧
      (∀ j, j < 256 → ((u.aset g).mask md).getLsbD j =
        (decide (j < elemCount ty) && act j && cmpHolds (elemFmt ty) rel (a j) (b j))) ∧
      (∀ q, q ≠ md → (u.aset g).mask q = t.mask q) := by
  intro t act a b
  obtain ⟨bits, flags⟩ := compare_upTo act (fun i => elemCmp rel ty (a i) (b i))
    (fun i => elemMarked (vget t.vpois vs1) ty i || t.operandMark ty s2 i) (elemCount ty)
  obtain ⟨u, runs, done, regs, masks, -⟩ := vEntryExecute_register hq hl (regEntry_vcmp h) (setMask_vdone ..)
  refine ⟨u, runs, ?_, regs.trans (setMask_v ..), fun j hj => ?_, fun q hne => ?_⟩
  · rw [← orFlags_ite]
    have same : (fun i => if (act i && cmpFlagged (elemFmt ty) rel (a i) (b i)) = true then (1 : FFlags) else 0) =
        fun i => if act i = true then (elemCmp rel ty (a i) (b i)).2 else 0 := by
      funext i
      rw [elemCmp_float ht]
      cases act i <;> rfl
    rw [same, ← flags]
    exact done
  · rw [mask_congr masks]
    refine (congrArg (·.getLsbD j) (mask_setMask_same t hmd _)).trans ((bits j hj).trans ?_)
    rw [elemCmp_float ht]
  · rw [mask_congr masks]
    exact mask_setMask_ne t hne _

end

end Sys2Proof.Machine
end

section
namespace Sys2Proof.Machine

/-! ### Element 0 of a register (R175) -/

theorem testBit_lane (v : BitVec 2048) (w i k : Nat) : (lane v w i).testBit k = (decide (k < w) && v.getLsbD (w * i + k)) := by
  rw [lane, Nat.testBit_mod_two_pow, Nat.testBit_shiftRight, BitVec.testBit_toNat]

theorem lane_setLane_zero {w : Nat} (hw : w ≤ 2048) (v : BitVec 2048) (n i : Nat) :
    lane (setLane v w 0 n) w i = if i = 0 then n % 2 ^ w else lane v w i := by
  have bit (p : Nat) : (setLane v w 0 n).getLsbD p = if p < w then n.testBit p else v.getLsbD p := by
    have low : p < w → p < 2048 := fun h => h.trans_le hw
    rw [setLane, Nat.mul_zero, Nat.shiftLeft_zero, Nat.shiftLeft_zero]
    simp only [BitVec.getLsbD_or, BitVec.getLsbD_and, BitVec.getLsbD_not, BitVec.getLsbD_ofNat, Nat.testBit_two_pow_sub_one,
      Nat.testBit_mod_two_pow]
    by_cases h : p < w
    · simp [h, low h]
    · by_cases hp : p < 2048
      · simp [h, hp]
      · simp [h, hp, BitVec.getLsbD_of_ge v p (Nat.le_of_not_lt hp)]
  refine Nat.eq_of_testBit_eq fun k => ?_
  rw [testBit_lane]
  by_cases inside : k < w
  · split
    · rename_i zero
      rw [zero, Nat.mul_zero, Nat.zero_add, bit, if_pos inside, Nat.testBit_mod_two_pow]
    · rename_i later
      have : w ≤ w * i := Nat.le_mul_of_pos_right w (Nat.pos_of_ne_zero later)
      rw [bit, if_neg (by omega), testBit_lane]
  · have none : decide (k < w) = false := decide_eq_false inside
    split
    · rw [Nat.testBit_mod_two_pow, none, Bool.false_and, Bool.false_and]
    · rw [testBit_lane, none, Bool.false_and, Bool.false_and]

/-- Only element 0 is written. -/
theorem elem_setElem_zero {ty : ElemTy} (ht : ty.isFloat = true) (v : BitVec 2048) (n i : Nat) :
    elem (setElem v ty 0 n) ty i = if i = 0 then written ty n else elem v ty i := by
  rcases isFloat_iff.1 ht with rfl | rfl | rfl | rfl <;> exact lane_setLane_zero (by decide) v n i

/-! ### The pairwise tree (R66) -/

theorem orFlags_succ_left (n : Nat) (f : Nat → FFlags) : orFlags (n + 1) f = f 0 ||| orFlags n fun i => f (i + 1) := by
  induction n with
  | zero => exact (orFlags_succ 0 f).trans (BitVec.or_comm ..)
  | succ n ih => rw [orFlags_succ, ih, orFlags_succ, BitVec.or_assoc]

theorem map_range_succ (n : Nat) {α : Type} (x : Nat → α) :
    (List.range (n + 1)).map x = x 0 :: (List.range n).map fun i => x (i + 1) := by
  rw [List.range_succ_eq_map, List.map_cons, List.map_map]
  rfl

section
variable (o : RedOp) (ty : ElemTy)

/-- The place i of level l of the tree. -/
def treeAt (x : Nat → Nat) : Nat → Nat → Nat
  | 0, i => x i
  | l + 1, i => (redCombine o ty (treeAt x l (2 * i)) (treeAt x l (2 * i + 1))).1

/-- The flags of place i of level l + 1 of the tree. -/
def treeFlags (x : Nat → Nat) (l i : Nat) : FFlags := (redCombine o ty (treeAt o ty x l (2 * i)) (treeAt o ty x l (2 * i + 1))).2

theorem treeAt_level (x : Nat → Nat) (l i : Nat) : treeAt o ty (treeAt o ty x 1) l i = treeAt o ty x (l + 1) i := by
  induction l generalizing i with
  | zero => rfl
  | succ l ih =>
    rw [treeAt, ih, ih]
    rfl

theorem redLevel_map (m : Nat) (x : Nat → Nat) : redLevel o ty ((List.range (2 * m)).map x) =
    ((List.range m).map (treeAt o ty x 1), orFlags m (treeFlags o ty x 0)) := by
  induction m generalizing x with
  | zero => rfl
  | succ m ih =>
    rw [Nat.mul_succ, map_range_succ, map_range_succ, redLevel, ih, map_range_succ, orFlags_succ_left]
    rfl

theorem redTree_map (k : Nat) (x : Nat → Nat) : redTree o ty k ((List.range (2 ^ k)).map x) =
    (treeAt o ty x k 0, orFlags k fun l => orFlags (2 ^ k / 2 ^ (l + 1)) (treeFlags o ty x l)) := by
  induction k generalizing x with
  | zero => rfl
  | succ k ih =>
    have level (l : Nat) : treeFlags o ty (treeAt o ty x 1) l = treeFlags o ty x (l + 1) := by
      funext i
      rw [treeFlags, treeAt_level, treeAt_level]
      rfl
    have half (l : Nat) : 2 ^ (k + 1) / 2 ^ (l + 1 + 1) = 2 ^ k / 2 ^ (l + 1) := by
      rw [Nat.pow_succ 2 k, Nat.pow_succ 2 (l + 1), Nat.mul_div_mul_right _ _ (by decide)]
    have first : 2 ^ (k + 1) / 2 ^ (0 + 1) = 2 ^ k := by rw [Nat.pow_succ]; exact Nat.mul_div_cancel _ (by decide)
    rw [orFlags_succ_left, first, Nat.pow_succ', redTree, redLevel_map]
    dsimp only
    rw [ih, treeAt_level]
    simp only [level, ← Nat.pow_succ', half]

end

end Sys2Proof.Machine
end

section
namespace Sys2Proof.Machine

/-! ### The running values of a float reduction (R66, R67) -/

theorem nanCode_nan {f : Fmt} (hf : f.Ok) : negBits f (nanCode f) = false ∧ sigBits f (nanCode f) = false := by
  have lt := nanCode_lt hf
  refine ⟨decide_eq_false ?_, ?_⟩
  · rw [Nat.div_eq_of_lt lt]
    decide
  · rw [sigBits, absBits, Nat.mod_eq_of_lt lt, decide_eq_false (Nat.lt_irrefl _), Bool.and_false]

/-- A rounded value is a NaN only as the canonical one. -/
theorem round_nan {f : Fmt} (rm : RMode) (draw : Nat) (x : Fl) (h : nanBits f (f.round rm draw x).1 = true) :
    (f.round rm draw x).1 = nanCode f := by
  have finite (neg : Bool) {n : Nat} (hn : n ≤ maxCode f) : nanBits f (withSign f neg n) = false := by
    rw [nanBits, absBits_withSign neg (hn.trans_lt (maxCode_lt f))]
    exact decide_eq_false (by omega)
  have infinite (neg : Bool) : nanBits f (withSign f neg (infCode f)) = false := by
    rw [nanBits, absBits_withSign neg (infCode_lt f)]
    exact decide_eq_false (by omega)
  cases x with
  | nan neg sig => exact nanBits_false_eq f
  | inf neg =>
    rw [Fmt.round, infBits_eq, maxBits_eq, sign_add, sign_add, apply_ite Prod.fst] at h
    split at h
    · rw [infinite] at h; exact absurd h Bool.false_ne_true
    · rw [finite neg le_rfl] at h; exact absurd h Bool.false_ne_true
  | fin neg m e =>
    by_cases hm : m = 0
    · subst hm
      rw [show (f.round rm draw (.fin neg 0 e)).1 = withSign f neg 0 from rfl, finite neg (Nat.zero_le _)] at h
      exact absurd h Bool.false_ne_true
    · rw [round_fin rm draw neg hm rfl, Fmt.delivered] at h
      split at h
      · dsimp only at h
        split at h
        · rw [infinite] at h; exact absurd h Bool.false_ne_true
        · rw [finite neg le_rfl] at h; exact absurd h Bool.false_ne_true
      · rw [finite neg (by omega)] at h; exact absurd h Bool.false_ne_true

/-- A running value: an f32 encoding that is a NaN only as the canonical one. -/
structure Running (b : Nat) : Prop where
  lt : b < 2 ^ 32
  nan : nanBits fmtF32 b = true → b = nanCode fmtF32

theorem running_round (rm : RMode) (draw : Nat) (x : Fl) : Running (fmtF32.round rm draw x).1 :=
  ⟨round_lt (elemFmt_ok .f32) rm draw x, round_nan rm draw x⟩

theorem isFloat_isInt {ty : ElemTy} (ht : ty.isFloat = true) : ty.isInt = false := by
  rcases isFloat_iff.1 ht with rfl | rfl | rfl | rfl <;> rfl

section
variable {ty : ElemTy} (ht : ty.isFloat = true)
include ht

theorem redType_float : redType ty = .f32 := by rw [redType, isFloat_isInt ht]; rfl

theorem redIdentity_float (o : RedOp) : redIdentity o ty = redStart o := by
  rcases isFloat_iff.1 ht with rfl | rfl | rfl | rfl <;> cases o <;> rfl

omit ht in
theorem redStart_lt (o : RedOp) : redStart o < 2 ^ 32 := by cases o <;> decide

theorem redElem_convertIs {b : Nat} (hb : b < 2 ^ elemWidth ty) : ConvertIs .f32 ty .rne 0 b (redElem ty b).1 (redElem ty b).2 ∧
    (redElem ty b).1 < 2 ^ 32 := by
  have elem : redElem ty b = convert .f32 ty .rne 0 b := by rw [redElem, isFloat_isInt ht]; rfl
  obtain ⟨converts, fits⟩ := convert_convertIs .f32 .rne 0 hb (written_of_lt (isFloat_ne_l6 ht) hb)
  rw [elem]
  exact ⟨converts, fits ▸ Nat.mod_lt _ (by decide)⟩

/-- Two running values combine as the statement says, and the result is a running value. -/
theorem redCombine_combineIs (o : RedOp) {a b : Nat} (ha : a < 2 ^ 32) (hb : b < 2 ^ 32) :
    CombineIs o a b (redCombine o ty a b).1 (redCombine o ty a b).2 ∧ Running (redCombine o ty a b).1 := by
  have ok := elemFmt_ok .f32
  cases o
  case add =>
    rw [redCombine, redType_float ht, elemAdd_float rfl]
    exact ⟨add_sumIs ok .rne 0 ha hb, running_round ..⟩
  case min =>
    rw [redCombine, redType_float ht, elemMinMax_float rfl]
    exact ⟨minMax_minMaxIs ok false ha hb, running_round ..⟩
  case max =>
    rw [redCombine, redType_float ht, elemMinMax_float rfl]
    exact ⟨minMax_minMaxIs ok true ha hb, running_round ..⟩

/-- A running value is delivered in the type of the reduction by conversion. -/
theorem redDeliver_eq {b : Nat} (h : Running b) : redDeliver ty b = convert ty .f32 .rne 0 b := by
  rw [redDeliver, isFloat_isInt ht, Bool.false_or, convert_eq]
  refine if_congr beq_iff_eq rfl ?_
  have canonical : negBits fmtF32 (nanCode fmtF32) = false ∧ sigBits fmtF32 (nanCode fmtF32) = false :=
    nanCode_nan (elemFmt_ok .f32)
  have value : elemValue .f32 b = fmtF32.unpack b := rfl
  have read := reads_unpack (elemFmt_ok .f32) b
  change Reads fmtF32 b (fmtF32.unpack b) at read
  rw [value]
  generalize fmtF32.unpack b = x at read
  cases read with
  | nan nan inf abs =>
    rw [h.nan nan, canonical.1, canonical.2, convertValue_nan ht, roundTo_float ht]
    rfl
  | inf => rfl
  | fin => rfl

theorem redDeliver_convertIs {b : Nat} (h : Running b) : ConvertIs ty .f32 .rne 0 b (redDeliver ty b).1 (redDeliver ty b).2 ∧
    written ty (redDeliver ty b).1 = (redDeliver ty b).1 := by
  rw [redDeliver_eq ht h]
  exact convert_convertIs ty .rne 0 h.lt (written_of_lt (by decide) h.lt)

end

/-- The element i of a reduction, in f32: the identity where it is not active. -/
def redLeaf (o : RedOp) (ty : ElemTy) (v : BitVec 2048) (act : BitVec 256) (i : Nat) : Nat × FFlags :=
  if act.getLsbD i then redElem ty (elem v ty i) else (redIdentity o ty, 0)

/-- The value at a place of the tree of a register's elements. -/
def redPlace (o : RedOp) (ty : ElemTy) (v : BitVec 2048) (act : BitVec 256) : Nat → Nat → Nat :=
  treeAt o ty fun i => (redLeaf o ty v act i).1

theorem reduce_eq (o : RedOp) {ty : ElemTy} (v : BitVec 2048) (act : BitVec 256) {k : Nat} (hk : elemCount ty = 2 ^ k) :
    let r := redDeliver ty (redPlace o ty v act k 0)
    reduce o ty v act = (r.1, if (List.range (elemCount ty)).any act.getLsbD then
      orFlags (elemCount ty) (fun i => (redLeaf o ty v act i).2) |||
        orFlags k (fun l => orFlags (elemCount ty / 2 ^ (l + 1)) (treeFlags o ty (fun i => (redLeaf o ty v act i).1) l)) ||| r.2
      else 0) := by
  have count : bitLen (elemCount ty) - 1 = k := by
    rw [hk, bitLen_eq (by positivity), Nat.log2_two_pow, Nat.add_sub_cancel]
  have tree := redTree_map o ty k fun i => (redLeaf o ty v act i).1
  rw [← hk] at tree
  have leaves : (List.range (elemCount ty)).map (fun i => (redLeaf o ty v act i).1) =
      ((List.range (elemCount ty)).map fun i => if act.getLsbD i then redElem ty (elem v ty i) else (redIdentity o ty, 0)).map
        (·.1) := by
    rw [List.map_map]
    rfl
  rw [leaves] at tree
  rw [reduce, count, List.foldl_map]
  dsimp only
  rw [tree]
  rfl

/-- The reduction of a register's active elements. -/
theorem reduce_reductionIs {ty : ElemTy} (ht : ty.isFloat = true) (o : RedOp) (v : BitVec 2048) (act : BitVec 256) :
    ReductionIs o ty act.getLsbD (elem v ty) (reduce o ty v act).1 (reduce o ty v act).2 ∧
      written ty (reduce o ty v act).1 = (reduce o ty v act).1 := by
  obtain ⟨k, hk, levels⟩ : ∃ k, elemCount ty = 2 ^ (k + 1) ∧ (elemCount ty).log2 = k + 1 := by
    rcases isFloat_iff.1 ht with rfl | rfl | rfl | rfl
    · exact ⟨5, rfl, rfl⟩
    · exact ⟨6, rfl, rfl⟩
    · exact ⟨7, rfl, rfl⟩
    · exact ⟨7, rfl, rfl⟩
  have leaf (i : Nat) : (redLeaf o ty v act i).1 < 2 ^ 32 := by
    unfold redLeaf
    split
    · exact (redElem_convertIs ht (elem_lt v ty i)).2
    · rw [redIdentity_float ht]
      exact redStart_lt o
  have place (l i : Nat) : redPlace o ty v act l i < 2 ^ 32 := by
    induction l generalizing i with
    | zero => exact leaf i
    | succ l ih => exact (redCombine_combineIs ht o (ih _) (ih _)).2.lt
  have root : Running (redPlace o ty v act (k + 1) 0) := (redCombine_combineIs ht o (place k _) (place k _)).2
  obtain ⟨delivers, fits⟩ := redDeliver_convertIs ht root
  rw [reduce_eq o v act hk]
  refine ⟨⟨redPlace o ty v act, fun i => (redLeaf o ty v act i).2, treeFlags o ty fun i => (redLeaf o ty v act i).1,
    (redDeliver ty (redPlace o ty v act (k + 1) 0)).2, fun i _ => ?_,
    fun l i _ _ => (redCombine_combineIs ht o (place l _) (place l _)).1, ?_, ?_⟩, fits⟩
  · change if act.getLsbD i then ConvertIs .f32 ty .rne 0 (elem v ty i) (redLeaf o ty v act i).1 (redLeaf o ty v act i).2
      else (redLeaf o ty v act i).1 = redStart o ∧ (redLeaf o ty v act i).2 = 0
    rw [redLeaf]
    split
    · exact (redElem_convertIs ht (elem_lt v ty i)).1
    · exact ⟨redIdentity_float ht o, rfl⟩
  · rw [levels]
    exact delivers
  · rw [levels]

end Sys2Proof.Machine
end

section
namespace Sys2Proof.Machine

/-! ### Scans (R67, R175) -/

section
variable (o : RedOp) (ty : ElemTy) (src old : BitVec 2048) (act : BitVec 256)

/-- The combination of a running value with element i. -/
def scanAt (w i : Nat) : Nat × FFlags := redCombine o ty w (redElem ty (elem src ty i)).1

/-- The running value of a scan before element i. -/
def scanValue : Nat → Nat
  | 0 => redIdentity o ty
  | i + 1 => if act.getLsbD i then (scanAt o ty src (scanValue i) i).1 else scanValue i

/-- The lane that a scan leaves at i. -/
def scanLane (i : Nat) : Nat :=
  if act.getLsbD i then written ty (redDeliver ty (scanValue o ty src act (i + 1))).1 else rawLane old ty i

/-- The flags of an active element of a scan. -/
def scanFlags (i : Nat) : FFlags :=
  (redElem ty (elem src ty i)).2 ||| (scanAt o ty src (scanValue o ty src act i) i).2 |||
    (redDeliver ty (scanValue o ty src act (i + 1))).2

/-- The running value, the lanes and the flags after the first k elements of a scan. -/
theorem scan_upTo (srcMarks oldMarks : BitVec 256) (k : Nat) :
    let r := (List.range k).foldl (scanStep o ty src old srcMarks oldMarks act)
      { w := redIdentity o ty, out := { marks := oldMarks } }
    r.w = scanValue o ty src act k ∧ r.out.lanes.reverse = (List.range k).map (scanLane o ty src old act) ∧
      r.out.fl = orFlags k fun i => if act.getLsbD i then scanFlags o ty src act i else 0 := by
  induction k with
  | zero => exact ⟨rfl, rfl, rfl⟩
  | succ k ih =>
    dsimp only at ih ⊢
    rw [List.range_succ, List.foldl_append, List.foldl_cons, List.foldl_nil, List.map_append, orFlags_succ]
    generalize (List.range k).foldl (scanStep o ty src old srcMarks oldMarks act)
      { w := redIdentity o ty, out := { marks := oldMarks } } = r at ih ⊢
    obtain ⟨value, lanes, flags⟩ := ih
    by_cases active : act.getLsbD k = true
    · have next : scanValue o ty src act (k + 1) = (scanAt o ty src r.w k).1 := by rw [scanValue, if_pos active, value]
      have lane : scanLane o ty src old act k = written ty (redDeliver ty (scanAt o ty src r.w k).1).1 := by
        rw [scanLane, if_pos active, next]
      rw [scanStep, if_pos active, if_pos active, next, List.map_singleton, lane, scanFlags, ← value, next, ← lanes, ← flags]
      exact ⟨rfl, List.reverse_cons, by simp only [BitVec.or_assoc]; rfl⟩
    · have lane : scanLane o ty src old act k = rawLane old ty k := by rw [scanLane, if_neg active]
      rw [scanStep, if_neg active, if_neg active, scanValue, if_neg active, List.map_singleton, lane, ← lanes, ← flags]
      exact ⟨value, List.reverse_cons, BitVec.or_zero.symm⟩

end

theorem regEntry_vred {t : CtxSet} {e : Entry} {o : RedOp} {ty : ElemTy} {mk : MReg} {vs1 vd : VReg}
    (h : e.instr = .vred o ty mk vs1 vd) : t.regEntry e = some (t.reduceV o ty mk vs1 vd) := by
  rw [CtxSet.regEntry, h]

theorem regEntry_vscan {t : CtxSet} {e : Entry} {o : RedOp} {ty : ElemTy} {mk : MReg} {vs1 vd : VReg}
    (h : e.instr = .vscan o ty mk vs1 vd) : t.regEntry e = some (t.scanV o ty mk vs1 vd) := by
  rw [CtxSet.regEntry, h]

section
variable {s : State} {g : Nat} {e : Entry} {rest : List Entry} {o : RedOp} {ty : ElemTy} {mk : MReg} {vs1 vd : VReg}
  (hq : (s.aset g).vq = e :: rest) (hl : (s.aset g).leaving = false)
include hq hl

/-- A float reduction writes element 0 alone. -/
theorem vred_reductionIs (ht : ty.isFloat = true) (h : e.instr = .vred o ty mk vs1 vd) :
    let t := s.aset g
    ∃ u fl, exec (.vEntryExecute g) s = .next u ∧ VectorDone s u g e rest fl ∧
      ReductionIs o ty (t.mask mk).getLsbD (elem (vget t.v vs1) ty) (elem (vget (u.aset g).v vd) ty 0) fl ∧
      ((∀ r, r ≠ vd → vget (u.aset g).v r = vget t.v r) ∧ (u.aset g).m = t.m) ∧
      ∀ i, 0 < i → elem (vget (u.aset g).v vd) ty i = elem (vget t.v vd) ty i := by
  intro t
  obtain ⟨reduction, fits⟩ := reduce_reductionIs ht o (vget t.v vs1) (t.mask mk)
  obtain ⟨u, runs, done, regs, masks, -⟩ := vEntryExecute_register hq hl (regEntry_vred h) rfl
  have written : (u.aset g).v = vset t.v vd (setElem (vget t.v vd) ty 0 (reduce o ty (vget t.v vs1) (t.mask mk)).1) := regs
  have element (i : Nat) := elem_setElem_zero ht (vget t.v vd) (reduce o ty (vget t.v vs1) (t.mask mk)).1 i
  refine ⟨u, _, runs, done, ?_, ⟨fun r hne => ?_, masks⟩, fun i hi => ?_⟩
  · rw [written, vget_vset_same, element, if_pos rfl, fits]
    exact reduction
  · rw [written, vget_vset_ne _ _ _ _ hne]
  · rw [written, vget_vset_same, element, if_neg hi.ne']

/-- A scan entry: its elements and its flags. -/
theorem vscan_elements (h : e.instr = .vscan o ty mk vs1 vd) :
    let t := s.aset g
    let act := t.mask mk
    let src := vget t.v vs1
    ∃ u, exec (.vEntryExecute g) s = .next u ∧
      VectorDone s u g e rest (orFlags (elemCount ty) fun i => if act.getLsbD i then scanFlags o ty src act i else 0) ∧
      ((∀ r, r ≠ vd → vget (u.aset g).v r = vget t.v r) ∧ (u.aset g).m = t.m) ∧
      ∀ i, i < elemCount ty → elem (vget (u.aset g).v vd) ty i =
        if act.getLsbD i then written ty (redDeliver ty (scanValue o ty src act (i + 1))).1 else elem (vget t.v vd) ty i := by
  intro t act src
  obtain ⟨-, lanes, flags⟩ := scan_upTo o ty src (vget t.v vd) act (vget t.vpois vs1) (vget t.vpois vd) (elemCount ty)
  obtain ⟨u, runs, done, regs, masks, -⟩ := vEntryExecute_register hq hl (regEntry_vscan h) rfl
  have written : (u.aset g).v = vset t.v vd (packLanes (elemWidth ty)
      ((List.range (elemCount ty)).map (scanLane o ty src (vget t.v vd) act))) := by
    rw [← lanes]
    exact regs
  refine ⟨u, runs, flags ▸ done, ⟨fun r hne => ?_, masks⟩, fun i hi => ?_⟩
  · rw [written, vget_vset_ne _ _ _ _ hne]
  · rw [written, vget_vset_same, elem_packLanes (by simp)]
    by_cases active : act.getLsbD i = true
    · simp [hi, active, scanLane, written_written]
    · simp [hi, active, scanLane, elem_rawLane]

end

section
variable {o : RedOp} {ty : ElemTy} (ht : ty.isFloat = true) (src : BitVec 2048) (act : BitVec 256)
include ht

theorem scanValue_lt (i : Nat) : scanValue o ty src act i < 2 ^ 32 := by
  induction i with
  | zero =>
    rw [scanValue, redIdentity_float ht]
    exact redStart_lt o
  | succ i ih =>
    rw [scanValue]
    split
    · exact (redCombine_combineIs ht o ih (redElem_convertIs ht (elem_lt src ty i)).2).2.lt
    · exact ih

/-- The elements and the flags of a float scan are those of the statement. -/
theorem scanIs_of_elements {old r : Nat → Nat} (elements : ∀ i, i < elemCount ty →
    r i = if act.getLsbD i then written ty (redDeliver ty (scanValue o ty src act (i + 1))).1 else old i) :
    ScanIs o ty act.getLsbD (elem src ty) old r
      (orFlags (elemCount ty) fun i => if act.getLsbD i then scanFlags o ty src act i else 0) := by
  have flag (i : Nat) (a b c : FFlags) : (if act.getLsbD i then a ||| b ||| c else 0) =
      (if act.getLsbD i then a else 0) ||| (if act.getLsbD i then b else 0) ||| if act.getLsbD i then c else 0 := by
    cases act.getLsbD i <;> simp
  refine ⟨scanValue o ty src act, fun i => (redElem ty (elem src ty i)).1, _, _, _, redIdentity_float ht o, fun i hi => ?_,
    congrArg _ (funext fun i => flag i _ _ _)⟩
  rw [elements i hi]
  by_cases active : act.getLsbD i = true
  · have element := redElem_convertIs ht (elem_lt src ty i)
    obtain ⟨combines, running⟩ := redCombine_combineIs ht o (scanValue_lt ht src act i) element.2
    have next : scanValue o ty src act (i + 1) = (redCombine o ty (scanValue o ty src act i) (redElem ty (elem src ty i)).1).1 := by
      rw [scanValue, if_pos active]
      rfl
    obtain ⟨delivers, fits⟩ := redDeliver_convertIs ht running
    simp only [active, if_true]
    rw [next, fits]
    exact ⟨element.1, combines, delivers⟩
  · have stays : scanValue o ty src act (i + 1) = scanValue o ty src act i := by rw [scanValue, if_neg active]
    simp [active, stays]

end

/-! ### Integer scans (R67, R175) -/

/-- Two integers combined. -/
def redInt (o : RedOp) (x y : Int) : Int :=
  match o with
  | .add => x + y
  | .min => min x y
  | .max => max x y

/-- The identity of an integer reduction of w bits. -/
def redIntStart (o : RedOp) (w : Nat) : Int :=
  match o with
  | .add => 0
  | .min => 2 ^ (w - 1) - 1
  | .max => -(2 ^ (w - 1))

/-- A running minimum or maximum fits its type; a sum need not. -/
def RedFits (o : RedOp) (w : Nat) (z : Int) : Prop := o = .add ∨ (-(2 ^ (w - 1)) ≤ z ∧ z < 2 ^ (w - 1))

theorem ofNat_wrapInt (ty : ElemTy) (z : Int) : BitVec.ofNat (elemWidth ty) (wrapInt ty z) = BitVec.ofInt (elemWidth ty) z := by
  refine BitVec.eq_of_toNat_eq ?_
  rw [BitVec.toNat_ofNat, BitVec.toNat_ofInt, Nat.mod_eq_of_lt (wrapInt_lt ty z)]
  rfl

theorem wrapInt_toInt {ty : ElemTy} {n : Nat} (hn : n < 2 ^ elemWidth ty) :
    wrapInt ty (BitVec.ofNat (elemWidth ty) n).toInt = n := by
  have same := congrArg BitVec.toNat (BitVec.ofInt_toInt (x := BitVec.ofNat (elemWidth ty) n))
  rwa [BitVec.toNat_ofInt, BitVec.toNat_ofNat, Nat.mod_eq_of_lt hn] at same

section
variable {ty : ElemTy} (hi : ty.isInt = true) (o : RedOp)
include hi

theorem redIdentity_int : redIdentity o ty = wrapInt ty (redIntStart o (elemWidth ty)) := by
  rcases isInt_iff.1 hi with rfl | rfl <;> cases o <;> decide

theorem redIntStart_fits : RedFits o (elemWidth ty) (redIntStart o (elemWidth ty)) := by
  cases o
  case add => exact .inl rfl
  case min | max => rcases isInt_iff.1 hi with rfl | rfl <;> exact .inr (by decide)

/-- The combination of a running integer with an element. -/
theorem redCombine_int {z : Int} (hz : RedFits o (elemWidth ty) z) {b : Nat} (hb : b < 2 ^ elemWidth ty) :
    redCombine o ty (wrapInt ty z) b = (wrapInt ty (redInt o z (BitVec.ofNat (elemWidth ty) b).toInt), 0) ∧
      RedFits o (elemWidth ty) (redInt o z (BitVec.ofNat (elemWidth ty) b).toInt) := by
  have type : redType ty = ty := by rw [redType, hi]; rfl
  have low := BitVec.le_toInt (BitVec.ofNat (elemWidth ty) b)
  have high := BitVec.toInt_lt (x := BitVec.ofNat (elemWidth ty) b)
  have same := wrapInt_toInt hb
  have lt := wrapInt_lt ty z
  have back (h : o ≠ .add) : (BitVec.ofNat (elemWidth ty) (wrapInt ty z)).toInt = z := by
    obtain ⟨lower, upper⟩ := hz.resolve_left h
    rw [ofNat_wrapInt]
    exact BitVec.toInt_ofInt_eq_self (elemWidth_pos ty) lower upper
  cases o
  case add =>
    rw [redCombine, type, elemAdd_int hi .rne 0 lt hb, if_neg Bool.false_ne_true, ofNat_wrapInt, BitVec.toInt_ofInt]
    refine ⟨?_, .inl rfl⟩
    rw [redInt, wrapInt, wrapInt, ← Int.emod_add_emod, Int.bmod_emod, Int.emod_add_emod]
  case min =>
    obtain ⟨lower, upper⟩ := hz.resolve_left (by decide)
    rw [redCombine, type, elemMin_int hi lt hb, back (by decide), redInt, min_def, apply_ite (wrapInt ty), same]
    exact ⟨rfl, .inr (by split <;> exact ⟨by assumption, by assumption⟩)⟩
  case max =>
    obtain ⟨lower, upper⟩ := hz.resolve_left (by decide)
    rw [redCombine, type, elemMax_int hi lt hb, back (by decide), redInt, max_def', apply_ite (wrapInt ty), same]
    exact ⟨rfl, .inr (by split <;> exact ⟨by assumption, by assumption⟩)⟩

variable (src : BitVec 2048) (act : BitVec 256)

omit hi in
/-- The active elements below i, as integers. -/
def activeInts (ty : ElemTy) (src : BitVec 2048) (act : BitVec 256) (i : Nat) : List Int :=
  ((List.range i).filter act.getLsbD).map fun j => (BitVec.ofNat (elemWidth ty) (elem src ty j)).toInt

omit hi in
theorem activeInts_succ (i : Nat) : activeInts ty src act (i + 1) = activeInts ty src act i ++
    if act.getLsbD i then [(BitVec.ofNat (elemWidth ty) (elem src ty i)).toInt] else [] := by
  rw [activeInts, List.range_succ, List.filter_append, List.map_append, activeInts]
  by_cases active : act.getLsbD i = true <;> simp [active]

theorem redElem_int (b : Nat) : redElem ty b = (b, 0) := if_pos hi

theorem redDeliver_int (b : Nat) : redDeliver ty b = (b, 0) := by rw [redDeliver, hi]; rfl

/-- The running value of an integer scan. -/
theorem scanValue_int (i : Nat) :
    let z := (activeInts ty src act i).foldl (redInt o) (redIntStart o (elemWidth ty))
    scanValue o ty src act i = wrapInt ty z ∧ RedFits o (elemWidth ty) z := by
  induction i with
  | zero => exact ⟨redIdentity_int hi o, redIntStart_fits hi o⟩
  | succ i ih =>
    obtain ⟨value, fits⟩ := ih
    dsimp only
    rw [activeInts_succ, List.foldl_append, scanValue]
    split
    · obtain ⟨next, fits⟩ := redCombine_int hi o fits (elem_lt src ty i)
      rw [scanAt, redElem_int hi, value]
      exact ⟨congrArg Prod.fst next, fits⟩
    · exact ⟨value, fits⟩

theorem scanFlags_int (i : Nat) : scanFlags o ty src act i = 0 := by
  obtain ⟨value, fits⟩ := scanValue_int hi o src act i
  rw [scanFlags, scanAt, redElem_int hi, redDeliver_int hi, value, (redCombine_int hi o fits (elem_lt src ty i)).1]
  exact (by decide : (0 ||| 0 ||| 0 : FFlags) = 0)

end

end Sys2Proof.Machine
end

section
namespace Sys2Proof.Machine

/-! ### Conversions, comparisons, reductions and scans (R170, R172, R175) -/

theorem orFlags_zero (n : Nat) : orFlags n (fun _ => 0) = 0 := by
  induction n with
  | zero => rfl
  | succ n ih => rw [orFlags_succ, ih]; rfl

/-- An integer scan: its elements, and no flag. -/
theorem vscan_int {s : State} {g : Nat} {e : Entry} {rest : List Entry} {o : RedOp} {ty : ElemTy} {mk : MReg} {vs1 vd : VReg}
    (hq : (s.aset g).vq = e :: rest) (hl : (s.aset g).leaving = false) (hi : ty.isInt = true) (h : e.instr = .vscan o ty mk vs1 vd) :
    let t := s.aset g
    let act := t.mask mk
    ∃ u, exec (.vEntryExecute g) s = .next u ∧ VectorDone s u g e rest 0 ∧
      ((∀ r, r ≠ vd → vget (u.aset g).v r = vget t.v r) ∧ (u.aset g).m = t.m) ∧
      ∀ i, i < elemCount ty → elem (vget (u.aset g).v vd) ty i =
        if act.getLsbD i then
          wrapInt ty ((activeInts ty (vget t.v vs1) act (i + 1)).foldl (redInt o) (redIntStart o (elemWidth ty)))
        else elem (vget t.v vd) ty i := by
  intro t act
  obtain ⟨u, runs, done, others, elements⟩ := vscan_elements hq hl h
  have ne : ty ≠ .l6 := by rintro rfl; exact absurd hi (by decide)
  have quiet : (orFlags (elemCount ty) fun i => if act.getLsbD i then scanFlags o ty (vget t.v vs1) act i else 0) = 0 := by
    simp only [scanFlags_int hi, ite_self, orFlags_zero]
  refine ⟨u, runs, quiet ▸ done, others, fun i hi' => ?_⟩
  rw [elements i hi', redDeliver_int hi, (scanValue_int hi o _ _ (i + 1)).1, written_of_lt ne (wrapInt_lt ty _)]

/-- Settles O35: conversions and comparisons element by element, a reduction by the levels of its tree, and a scan by its running value. -/
theorem floatReductions : Obligations.FloatReductions := by
  unfold Obligations.FloatReductions
  intro s g e rest ty ts rm op rel mk md s2 vs1 vd hq hl hrm
  have mode : modeOf e.rm = rm := hrm ▸ modeOf_code rm
  dsimp only
  refine ⟨fun h drawing hsr hno => ?vcvt, fun h hmd hf => ?vcmp, fun h hf => ?vred, fun h hf => ?vscan, fun h hint => ?vscanInt⟩
  case vcvt =>
    refine vcvt_floatLanes hq hl h mode ?_
    split
    · rename_i rounds
      exact hsr ⟨rounds.1, cvtRounds_eq.1 rounds.2⟩
    · rename_i other
      exact hno fun byMode => other ⟨byMode.1, cvtRounds_eq.2 byMode.2⟩
  case vcmp =>
    obtain ⟨u, runs, done, regs, mask, others⟩ := vcmp_masks hq hl (isFloat_iff.2 hf) h hmd
    refine ⟨u, runs, done, regs, fun j hj => ?_, others⟩
    rw [mask j hj]
    cases rel <;> rfl
  case vred =>
    obtain ⟨u, fl, runs, done, reduction, others, rest⟩ := vred_reductionIs hq hl (isFloat_iff.2 hf) h
    exact ⟨u, fl, runs, done, reduction, others, fun i hi _ => rest i hi⟩
  case vscan =>
    obtain ⟨u, runs, done, others, elements⟩ := vscan_elements hq hl h
    exact ⟨u, _, runs, done, scanIs_of_elements (isFloat_iff.2 hf) _ _ elements, others⟩
  case vscanInt =>
    have hi := isInt_iff.2 hint
    obtain ⟨u, runs, done, others, elements⟩ := vscan_int hq hl hi h
    refine ⟨u, runs, done, others, fun i hi' => ?_⟩
    rw [elements i hi', wrapInt]
    cases op
    case add => rw [List.sum_eq_foldl]; rfl
    case min | max => rfl

end Sys2Proof.Machine
end

section
namespace Sys2Proof.Machine

/-! ### Operations that leave the contexts -/

/-- Every context of every active set is as before. -/
structure SameCtxs (s t : State) : Prop where
  ctx : ∀ g c, t.ctx g c = s.ctx g c

theorem SameCtxs.refl (s : State) : SameCtxs s s := ⟨fun _ _ => rfl⟩

theorem SameCtxs.trans {s t u : State} (a : SameCtxs s t) (b : SameCtxs t u) : SameCtxs s u :=
  ⟨fun g c => (b.ctx g c).trans (a.ctx g c)⟩

theorem SameCtxs.foldl {α : Type} {f : State → α → State} (hf : ∀ s a, SameCtxs s (f s a)) (l : List α) (s : State) :
    SameCtxs s (l.foldl f s) := by
  induction l generalizing s with
  | nil => exact .refl s
  | cons a l ih => exact (hf s a).trans (ih _)

theorem sameCtxs_of_core {s t : State} (h : ∀ g, t.core g = s.core g) : SameCtxs s t :=
  ⟨fun g c => by rw [State.ctx, State.aset, h]; rfl⟩

theorem sameCtxs_of_cores {s t : State} (h : t.cores = s.cores) : SameCtxs s t :=
  sameCtxs_of_core fun g => by rw [State.core, h]; rfl

theorem SameCores.sameCtxs {s t : State} (h : SameCores s t) : SameCtxs s t := sameCtxs_of_core h.core

/-- A change of a core beside its sets leaves the contexts. -/
theorem sameCtxs_updCore (s : State) (g : Nat) {f : Core → Core} (h : (f (s.core g)).act = (s.core g).act) :
    SameCtxs s (s.updCore g f) := by
  refine ⟨fun g' c => ?_⟩
  by_cases e : g' = g
  · subst e
    exact ctx_updCore_of_act h c
  · rw [State.ctx, State.aset, core_updCore_ne s f e]
    rfl

/-- Changes of the cores that leave their active sets leave the contexts. -/
theorem sameCtxs_map {s t : State} {f : Nat × Core → Nat × Core} (hc : t.cores = s.cores.map f) (hf : ∀ e, (f e).1 = e.1)
    (ha : ∀ e, (f e).2.act = e.2.act) : SameCtxs s t := by
  refine ⟨fun g c => ?_⟩
  have same := congrArg (fun o => o.getD (Core.act {})) (fget_map (m := s.cores) (φ := Core.act) hf ha g)
  rw [← hc] at same
  simp only [Option.getD_map] at same
  exact congrArg (fun t : CtxSet => nget t.ctx c) same

theorem sameCtxs_invalidate (s : State) (line : Nat) : SameCtxs s (s.invalidate line) := by
  unfold State.invalidate
  split
  · exact .refl s
  · refine sameCtxs_map rfl (fun e => ?_) fun e => ?_ <;> split <;> rfl

theorem sameCtxs_setMoesi (s : State) (line : Nat) (m : Moesi) : SameCtxs s (s.setMoesi line m) := by
  unfold State.setMoesi
  split <;> exact sameCtxs_of_cores rfl

/-- A core that gives up owned words keeps its active set. -/
theorem sameCtxs_recall (s : State) (locs : List Nat) : SameCtxs s (s.recall locs) := by
  refine sameCtxs_map rfl (fun e => rfl) fun e => ?_
  dsimp only
  generalize ((locs.map (· / 64)).dedup) = lines
  generalize e.2 = k
  induction lines generalizing k with
  | nil => rfl
  | cons line lines ih =>
    refine (ih _).trans ?_
    dsimp only
    split
    · rfl
    · split <;> rfl

theorem sameCtxs_poisonWrite (s : State) (l : List Nat) (p : Bool) (b : List Nat) : SameCtxs s (s.poisonWrite l p b) := by
  cases p <;> exact sameCtxs_of_cores rfl

theorem sameCtxs_hitMonitors (s : State) (l : List Nat) : SameCtxs s (s.hitMonitors l) := by
  unfold State.hitMonitors
  split <;> exact sameCtxs_of_cores rfl

theorem sameCtxs_writeHome (s : State) (l : List (Nat × Byte)) (p : Bool) (b : List Nat) : SameCtxs s (s.writeHome l p b) := by
  unfold State.writeHome
  dsimp only
  have first := (SameCtxs.foldl sameCtxs_invalidate (((l.map (·.1)).map (· / 64)).dedup) s).trans (sameCtxs_recall _ (l.map (·.1)))
  have second := first.trans (SameCtxs.foldl (fun s n => sameCtxs_setMoesi s n .modified) (((l.map (·.1)).map (· / 64)).dedup) _)
  generalize List.foldl (fun (s : State) line => s.setMoesi line .modified) _ _ = v at second ⊢
  have written : SameCtxs v { v with mem := v.mem.setAll l } := sameCtxs_of_cores rfl
  exact ((second.trans written).trans (sameCtxs_poisonWrite _ _ p b)).trans (sameCtxs_hitMonitors ..)

theorem sameCtxs_dieWrite (s : State) (d a : Nat) (l : List Byte) : SameCtxs s (s.dieWrite d a l) := sameCtxs_writeHome ..

theorem sameCtxs_appendLog (s : State) (d : Nat) (e : W64) (r : List Byte) : SameCtxs s (s.appendLog d e r) := by
  unfold State.appendLog
  dsimp only
  split
  · exact (sameCtxs_dieWrite ..).trans (sameCtxs_dieWrite ..)
  · exact sameCtxs_dieWrite ..

theorem sameCtxs_notify (s : State) (v : Fin 9) : SameCtxs s (s.notify v) := by
  unfold State.notify
  dsimp only
  split
  · exact sameCtxs_of_cores rfl
  · split <;> exact sameCtxs_of_cores rfl

theorem sameCtxs_giveUp (s : State) (g : Nat) (l : List (BitVec 20)) : SameCtxs s (s.giveUp g l) := (sameCores_giveUp s g l).sameCtxs

theorem sameCtxs_smudge (s : State) (g sid : Nat) (reason : BitVec 3) : SameCtxs s (s.smudge g sid reason) :=
  sameCtxs_updCore s g rfl

theorem sameCtxs_countFate (s : State) (g : Nat) (f : Fate) : SameCtxs s (s.countFate g f) :=
  sameCtxs_of_cores rfl

theorem sameCtxs_countFetch (s : State) (g : Nat) (t : Token) (a : Nat) : SameCtxs s (s.countFetch g t a) := by
  unfold State.countFetch
  split
  · split
    · exact .refl s
    · exact sameCtxs_countFate ..
  · exact .refl s

theorem sameCtxs_orphan (s : State) (g sid : Nat) (pick : XKey → Bool) : SameCtxs s (s.orphan g sid pick) := by
  unfold State.orphan
  exact (SameCores.foldl (fun s x => sameCores_leaveReqs s g x) _ s).sameCtxs.trans (sameCtxs_updCore _ g rfl)

/-- A change of an active set beside its contexts. -/
theorem sameCtxs_updAct (s : State) (g : Nat) {f : CtxSet → CtxSet} (h : (f (s.aset g)).ctx = (s.aset g).ctx) :
    SameCtxs s (s.updAct g f) := by
  refine ⟨fun g' c => ?_⟩
  by_cases e : g' = g
  · subst e
    rw [State.ctx, aset_updAct, h]
    rfl
  · rw [State.ctx, aset_updAct_ne s f e]
    rfl

theorem ctx_setAbandonPlay (t : CtxSet) (c : CtxId) : (t.abandonPlay c).ctx = t.ctx := by
  unfold CtxSet.abandonPlay
  split <;> rfl

theorem sameCtxs_abandonPlay (s : State) (g : Nat) (c : CtxId) : SameCtxs s (s.abandonPlay g c) := by
  have first : SameCtxs s (if (s.aset g).headPlay c then s.orphan g (s.aset g).sid (· == .gal) else s) := by
    split
    · exact sameCtxs_orphan ..
    · exact .refl s
  unfold State.abandonPlay
  dsimp only
  generalize (if (s.aset g).headPlay c then s.orphan g (s.aset g).sid (· == .gal) else s) = v at first ⊢
  refine (first.trans (sameCtxs_updAct v g (f := fun t => t.abandonPlay c) (ctx_setAbandonPlay _ c))).trans ?_
  split
  · exact (OnlyDies.foldl (f := fun s k => s.released g k) (fun s k => onlyDies_released s g k) _ _).sameCores.sameCtxs
  · exact .refl _

/-! ### What a halt and a trap leave of their context (R93, R95) -/

/-- A context that halts keeps its registers (R95). -/
theorem ctx_halt (s : State) (g : Nat) (c : CtxId) : (s.halt g c).ctx g c = { s.ctx g c with st := .halt, hold := .none } := by
  unfold State.halt
  dsimp only
  rw [State.notifyDie, (sameCtxs_notify ..).ctx, (sameCtxs_appendLog ..).ctx, State.ctx, aset_updAct]
  have kept := (sameCtxs_giveUp s g (nget (s.aset g).ctx c).hold.duePtes).ctx g c
  exact (nget_nset_same ..).trans (congrArg (fun x : Ctx => { x with st := .halt, hold := .none }) kept)

/-- The other contexts of its core do not change. -/
theorem ctx_halt_ne (s : State) (g : Nat) {c d : CtxId} (h : d ≠ c) : (s.halt g c).ctx g d = s.ctx g d := by
  unfold State.halt
  dsimp only
  rw [State.notifyDie, (sameCtxs_notify ..).ctx, (sameCtxs_appendLog ..).ctx, State.ctx, aset_updAct]
  exact (nget_nset_ne _ _ h).trans ((sameCtxs_giveUp s g _).ctx g d)

/-- A context is as another, but for whether it runs, what it holds and whether the check of its handler is open. -/
def Ctx.SameRegs (x y : Ctx) : Prop := y = { x with st := y.st, hold := y.hold, entering := y.entering }

theorem Ctx.SameRegs.refl (x : Ctx) : x.SameRegs x := rfl

theorem Ctx.SameRegs.trans {x y z : Ctx} (a : x.SameRegs y) (b : y.SameRegs z) : x.SameRegs z := by
  unfold Ctx.SameRegs at *
  rw [b, a]

theorem sameRegs_halt (s : State) (g : Nat) (c d : CtxId) : (s.ctx g d).SameRegs ((s.halt g c).ctx g d) := by
  by_cases h : d = c
  · subst h
    rw [ctx_halt]
    rfl
  · rw [ctx_halt_ne s g h]
    exact .refl _

theorem sameRegs_haltAll (s : State) (g : Nat) (d : CtxId) : (s.ctx g d).SameRegs ((s.haltAll g).ctx g d) := by
  have one (u : State) (c : CtxId) : (u.ctx g d).SameRegs ((if (u.ctx g c).live then u.halt g c else u).ctx g d) := by
    split
    · exact sameRegs_halt ..
    · exact .refl _
  exact ((one s 0).trans (one _ 1)).trans (one _ 2)

/-- Whatever becomes of the handler, the context of a trap has the registers that the trap writes (R93). -/
theorem sameRegs_trap (s : State) (g : Nat) (c : CtxId) (k : Cause) (val pc : W64) :
    ((s.ctx g c).abandon.trapRegs k val pc).SameRegs ((s.trap g c k val pc).ctx g c) := by
  have counted : SameCtxs s (if (k == .fhdr) = true then s.countFetch g (s.aset g).codeTok pc.toNat else s) := by
    split
    · exact sameCtxs_countFetch ..
    · exact .refl s
  unfold State.trap
  dsimp only
  generalize (if (k == .fhdr) = true then s.countFetch g (s.aset g).codeTok pc.toNat else s) = u at counted ⊢
  have before := (counted.trans (sameCtxs_smudge u g (u.aset g).sid 5)).trans (sameCtxs_abandonPlay _ g c)
  generalize (u.smudge g (u.aset g).sid 5).abandonPlay g c = v at before ⊢
  have written : (s.ctx g c).abandon.trapRegs k val pc = (v.updCtx g c fun x => x.abandon.trapRegs k val pc).ctx g c := by
    rw [ctx_updCtx_same, before.ctx g c]
  rw [written]
  generalize (v.updCtx g c fun x => x.abandon.trapRegs k val pc) = w
  split
  · exact .refl _
  · rw [ctx_updCtx_same]
    rfl
  · exact sameRegs_haltAll ..
  · exact sameRegs_halt ..
  · have kept := (sameCtxs_countFetch w g (s.aset g).codeTok (w.ctx g c).tvec.toNat).ctx g c
    have halted := sameRegs_halt (w.countFetch g (s.aset g).codeTok (w.ctx g c).tvec.toNat) g c c
    rwa [kept] at halted

/-- An abandoned hold leaves the registers of its context. -/
theorem abandon_regs (x : Ctx) :
    x.abandon.tstat = x.tstat ∧ x.abandon.sup = x.sup ∧ x.abandon.tvec = x.tvec ∧ x.abandon.x = x.x ∧ x.abandon.pend = x.pend ∧
      x.abandon.peels = x.peels := by
  unfold Ctx.abandon
  split <;> exact ⟨rfl, rfl, rfl, rfl, rfl, rfl⟩

theorem trapTstat_bits (ie sup : Bool) :
    let w : BitVec 3 := (if ie then 4#3 else 0) ||| (if sup then 1#3 else 0)
    w.getLsbD 0 = sup ∧ w.getLsbD 1 = false ∧ w.getLsbD 2 = ie := by
  cases ie <;> cases sup <;> decide

/-- What a context shows that has taken a trap with registers like those of another (R85, R93). -/
theorem trapped_of_sameRegs {s t : State} {g : Nat} {c : CtxId} {k : Cause} {val pc : W64} {x : Ctx}
    (h : (x.abandon.trapRegs k val pc).SameRegs (t.ctx g c)) (tstat : x.tstat = (s.ctx g c).tstat) (sup : x.sup = (s.ctx g c).sup)
    (tvec : x.tvec = (s.ctx g c).tvec) (regs : x.x = (s.ctx g c).x) : Trapped s t g c k val pc := by
  obtain ⟨atstat, asup, atvec, aregs, -, -⟩ := abandon_regs x
  have ⟨mode, ie, pie⟩ := trapTstat_bits ((s.ctx g c).tstat.getLsbD 1) (s.ctx g c).sup
  have written : (t.ctx g c).tstat = (if (s.ctx g c).tstat.getLsbD 1 then 4#3 else 0) ||| (if (s.ctx g c).sup then 1#3 else 0) := by
    rw [h, Ctx.trapRegs, atstat, asup, tstat, sup]
  constructor
  case tpc | tcause | tval | mode => rw [h]; rfl
  case ie => rw [written, ie]
  case pie => rw [written, pie]
  case pmode => rw [written, mode]
  case pc => rw [h, ← tvec, ← atvec]; rfl
  case x =>
    intro r
    have : (t.ctx g c).x = (s.ctx g c).x := by rw [h, ← regs, ← aregs]; rfl
    rw [Ctx.rx, Ctx.rx, this]

/-- A trap is taken whatever its context held and whatever becomes of its handler (R85, R93). -/
theorem trap_trapped (s : State) (g : Nat) (c : CtxId) (k : Cause) (val pc : W64) : Trapped s (s.trap g c k val pc) g c k val pc :=
  trapped_of_sameRegs (sameRegs_trap ..) rfl rfl rfl rfl

end Sys2Proof.Machine
end

section
namespace Sys2Proof.Machine

/-! ### The issuing context -/

theorem useX_of_unmarked {s : State} {r : XReg} (h : s.me.marked r = false) : s.useX r = s := by
  simp [State.useX, h]

theorem recording_of_none {s : State} (h : (s.core s.curCore).rec_ = none) : s.recording = none := by
  simp [State.recording, h]

/-- A context of an active set, named by its set's number. -/
theorem updWho_updCtx (s : State) (g : Nat) (c : CtxId) (f : Ctx → Ctx) : s.updWho ⟨g, (s.aset g).sid, c⟩ f = s.updCtx g c f :=
  updSid_aset ..

theorem updWho_iam (s : State) (f : Ctx → Ctx) : s.updWho s.iam f = s.updMe f := updWho_updCtx ..

theorem orMstat_iam (s : State) (b : BitVec 8) : s.orMstat s.iam b = s.updMe fun t => { t with mstat := t.mstat ||| b } :=
  updWho_iam ..

/-! ### Pointers and the attributes of tokens (R100, R101) -/

/-- Two fields side by side, as a number. -/
theorem toNat_append_eq {m n : Nat} (x : BitVec m) (y : BitVec n) : (x ++ y).toNat = x.toNat * 2 ^ n + y.toNat := by
  rw [BitVec.toNat_append, ← Nat.shiftLeft_add_eq_or_of_lt y.isLt, Nat.shiftLeft_eq]

/-- The fields of a pointer, with bits [51:48] as given. -/
theorem pointerFields_eq (ks : KReg) (off : W64) (policy : BitVec 2) (spill : BitVec 4) :
    (2#4 ++ (0#2 ++ policy) ++ ks ++ spill ++ off.extractLsb' 0 48 : W64) = BitVec.ofNat 64 (2 * 2 ^ 60 + policy.toNat * 2 ^ 56 +
      ks.toNat * 2 ^ 52 + spill.toNat * 2 ^ 48 + off.toNat % 2 ^ 48) := by
  apply BitVec.eq_of_toNat_eq
  have hp := policy.isLt
  have hk := ks.isLt
  have hs := spill.isLt
  simp only [toNat_append_eq, BitVec.extractLsb'_toNat, BitVec.toNat_ofNat, Nat.shiftRight_zero]
  omega

theorem composePtr_eq (ks : KReg) (off : W64) (policy : BitVec 2) :
    composePtr ks off policy = BitVec.ofNat 64 (2 * 2 ^ 60 + policy.toNat * 2 ^ 56 + ks.toNat * 2 ^ 52 +
      (if off.toNat < 2 ^ 48 then 0 else 15 * 2 ^ 48) + off.toNat % 2 ^ 48) := by
  have high : off.extractLsb' 48 16 = 0 ↔ off.toNat < 2 ^ 48 := by
    have := off.isLt
    rw [← BitVec.toNat_inj, BitVec.extractLsb'_toNat, Nat.shiftRight_eq_div_pow]
    simp only [BitVec.ofNat_eq_ofNat, BitVec.toNat_ofNat]
    omega
  have spilled : (2#4 ++ (0#2 ++ policy) ++ ks ++ 0#4 ++ off.extractLsb' 0 48 : W64) ||| (0xF#64 <<< 48) =
      (2#4 ++ (0#2 ++ policy) ++ ks ++ 15#4 ++ off.extractLsb' 0 48 : W64) := by
    have mask : (0xF#64 <<< 48 : W64) = (0#4 ++ 0#4 ++ 0#4 ++ 15#4 ++ 0#48 : W64) := by decide
    rw [mask, BitVec.or_append, BitVec.or_append, BitVec.or_append, BitVec.or_append]
    simp only [BitVec.or_zero, BitVec.zero_or]
  unfold composePtr
  dsimp only
  by_cases small : off.toNat < 2 ^ 48
  · rw [if_pos (high.2 small), if_pos small, pointerFields_eq]
    rfl
  · rw [if_neg (fun h => small (high.1 h)), if_neg small, spilled, pointerFields_eq]
    rfl

theorem info_eq (t : Token) : t.info = BitVec.ofNat 64 (t.pte.toNat + t.gen.toNat * 2 ^ 20 + t.rights.toNat * 2 ^ 32
    + t.ms.toNat * 2 ^ 36 + t.host.toNat * 2 ^ 37 + t.valid.toNat * 2 ^ 38) := by
  apply BitVec.eq_of_toNat_eq
  unfold Token.info
  simp only [BitVec.toNat_setWidth, toNat_append_eq, BitVec.toNat_ofBool, BitVec.toNat_ofNat]
  congr 1
  ring

/-- Settles O11: the pointer is its fields side by side, and the mask of an offset that spills over sets the four bits between them. -/
theorem ptrComposes : Obligations.PtrComposes := by
  unfold Obligations.PtrComposes
  intro s xd ks xoff policy
  exact result_finish rfl (composePtr_eq ks (s.rx xoff) policy)

/-- Settles O12: the fields of a token register from its valid bit down are side by side. -/
theorem tkinfoReads : Obligations.TkinfoReads := by
  unfold Obligations.TkinfoReads
  intro s xd ks
  exact result_finish rfl (info_eq (vget s.mySet.k ks))

/-! ### Patch tags (R97, R98, R103) -/

theorem recording_useX (s : State) (r : XReg) : (s.useX r).recording = s.recording := by
  unfold State.useX
  split <;> rfl

theorem me_useX (s : State) (r : XReg) : (s.useX r).me = s.me := by
  unfold State.useX
  split <;> rfl

end Sys2Proof.Machine
end

section
namespace Sys2Proof.Machine

theorem rec_updCtx (s : State) (g h : Nat) (c : CtxId) (f : Ctx → Ctx) : ((s.updCtx g c f).core h).rec_ = (s.core h).rec_ := by
  by_cases e : h = g
  · subst e; simp [State.updCtx, State.updAct]
  · simp [State.updCtx, State.updAct, core_updCore_ne s _ e]

theorem recording_updMe (s : State) (f : Ctx → Ctx) : (s.updMe f).recording = s.recording := by
  have rec_ : ((s.updMe f).core s.curCore).rec_ = (s.core s.curCore).rec_ := rec_updCtx ..
  have sid : (s.updMe f).mySet.sid = s.mySet.sid := by rw [updMe_mySet]
  unfold State.recording
  rw [updMe_curCore, rec_, sid]

/-- A change of the recording that a core makes. -/
def State.changeRec (s : State) (f : Recording → Recording) : State :=
  s.updCore s.curCore fun k => { k with rec_ := k.rec_.map f }

theorem aset_changeRec (s : State) (f : Recording → Recording) : (s.changeRec f).mySet = s.mySet := by
  rw [State.mySet, State.aset, State.changeRec, updCore_curCore, core_updCore_same]
  rfl

theorem me_changeRec (s : State) (f : Recording → Recording) : (s.changeRec f).me = s.me :=
  congrArg (fun t : CtxSet => nget t.ctx s.curCtx) (aset_changeRec s f)

theorem recording_changeRec {s : State} {r : Recording} {f : Recording → Recording} (h : s.recording = some r)
    (hf : (f r).sid = r.sid) : (s.changeRec f).recording = some (f r) := by
  unfold State.recording at h ⊢
  rw [aset_changeRec, State.changeRec, updCore_curCore, core_updCore_same]
  cases hk : (s.core s.curCore).rec_ with
  | none => rw [hk] at h; cases h
  | some q =>
    rw [hk] at h
    dsimp only [Option.map_some] at h ⊢
    by_cases own : q.sid = s.mySet.sid
    · rw [if_pos own] at h
      cases h
      rw [hf, if_pos own]
    · rw [if_neg own] at h
      cases h

/-- The state after an instruction that changes the patch tag of one x register and goes on (R97). -/
structure Retagged (s t : State) (r : XReg) (tag : Tag) : Prop where
  outside : OnlyMe s t
  inside : t.me = { s.me.goOn with tag := t.me.tag }
  named : r ≠ 0 → vget t.me.tag r = tag
  others : ∀ q, q ≠ r → vget t.me.tag q = vget s.me.tag q
  zero : r = 0 → t.me.tag = s.me.tag

theorem retagged_finish (s : State) (r : XReg) (tag : Tag) : Retagged s (s.setTag r tag).goOn r tag := by
  by_cases h : r = 0
  · have done : (s.setTag r tag).goOn = s.updMe Ctx.goOn := by rw [State.setTag, if_pos h]; rfl
    rw [done]
    refine ⟨onlyMe_updMe .., ?_, fun n => absurd h n, fun _ _ => ?_, fun _ => ?_⟩ <;> rw [updMe_me] <;> rfl
  · have done : (s.setTag r tag).goOn = s.updMe fun x => ({ x with tag := vset x.tag r tag } : Ctx).goOn := by
      rw [State.setTag, if_neg h, State.goOn, updMe_updMe]
    rw [done]
    refine ⟨onlyMe_updMe .., ?_, fun _ => ?_, fun q hq => ?_, fun z => absurd z h⟩ <;> rw [updMe_me]
    · rfl
    · exact vget_vset_same _ _ _ (by decide) _
    · exact vget_vset_ne _ _ (by decide) (by decide) hq

theorem recording_retagged (s : State) (r : XReg) (tag : Tag) : (s.setTag r tag).goOn.recording = s.recording := by
  unfold State.goOn State.setTag
  rw [recording_updMe]
  split
  · rfl
  · exact recording_updMe ..

theorem Retagged.rx {s t : State} {r : XReg} {tag : Tag} (h : Retagged s t r tag) (q : XReg) : t.rx q = s.rx q := by
  unfold State.rx Ctx.rx
  rw [h.inside]
  rfl

theorem exec_gpatch_unrecorded {s : State} (xd : XReg) (sl : BitVec 4) (h : s.recording = none) :
    exec (.gpatch xd sl) s = finish (s.setTag xd (.patched sl 0)) := by
  change execGpatch xd sl s = _
  rw [execGpatch, h]

/-- What `gpatch` leaves when it comes to a tag of xd in a state with a recording: the recording and the tag, and nothing else of the
context changed (R103). -/
theorem gpatch_leaves {s u : State} {xd : XReg} {sl : BitVec 4} {tag : Tag} {q : Recording}
    (h : exec (.gpatch xd sl) s = finish (u.setTag xd tag)) (me : u.me = s.me) (kept : u.recording = some q) :
    ∃ t, exec (.gpatch xd sl) s = .next t ∧ t.recording = some q ∧ t.rx xd = s.rx xd ∧
      (∀ y, y ≠ xd → vget t.me.tag y = vget s.me.tag y) ∧ (xd = 0 → t.me.tag = s.me.tag) ∧ (xd ≠ 0 → vget t.me.tag xd = tag) := by
  have done := retagged_finish u xd tag
  refine ⟨_, h, (recording_retagged ..).trans kept, (done.rx xd).trans ?_, fun y hy => (done.others y hy).trans (by rw [me]),
    fun z => (done.zero z).trans (by rw [me]), done.named⟩
  rw [State.rx, me, State.rx]

section
variable {s : State} {r : Recording} {sl : BitVec 4} (xd : XReg) (hr : s.recording = some r)
include hr

theorem exec_gpatch_rejected (rejected : r.rejected.getLsbD sl.toNat = true) :
    exec (.gpatch xd sl) s = finish ((s.useX xd).setTag xd .opq) := by
  change execGpatch xd sl s = _
  rw [execGpatch, hr]
  dsimp only
  rw [if_pos rejected]

theorem exec_gpatch_new (open_ : r.rejected.getLsbD sl.toNat = false) (new : r.used.getLsbD sl.toNat = false) :
    exec (.gpatch xd sl) s = finish (((s.useX xd).changeRec fun r =>
      { r with used := r.used ||| (1#16 <<< sl.toNat), vals := vset r.vals sl (s.rx xd) }).setTag xd (.patched sl 0)) := by
  have value : (s.useX xd).rx xd = s.rx xd := congrArg (Ctx.rx · xd) (me_useX s xd)
  change execGpatch xd sl s = _
  rw [execGpatch, hr]
  dsimp only
  rw [open_, new, value]
  rfl

theorem exec_gpatch_same (open_ : r.rejected.getLsbD sl.toNat = false) (used : r.used.getLsbD sl.toNat = true)
    (same : vget r.vals sl = s.rx xd) : exec (.gpatch xd sl) s = finish ((s.useX xd).setTag xd (.patched sl 0)) := by
  have value : (s.useX xd).rx xd = s.rx xd := congrArg (Ctx.rx · xd) (me_useX s xd)
  change execGpatch xd sl s = _
  rw [execGpatch, hr]
  dsimp only
  rw [open_, used, value, if_pos same]
  rfl

theorem exec_gpatch_other (open_ : r.rejected.getLsbD sl.toNat = false) (used : r.used.getLsbD sl.toNat = true)
    (other : vget r.vals sl ≠ s.rx xd) : exec (.gpatch xd sl) s = finish (((s.useX xd).changeRec fun r =>
      { r with rejected := r.rejected ||| (1#16 <<< sl.toNat) }).setTag xd .opq) := by
  have value : (s.useX xd).rx xd = s.rx xd := congrArg (Ctx.rx · xd) (me_useX s xd)
  change execGpatch xd sl s = _
  rw [execGpatch, hr]
  dsimp only
  rw [open_, used, value, if_neg other]
  rfl

end

theorem getLsbD_or_slot (w : W16) (sl : BitVec 4) : (w ||| (1#16 <<< sl.toNat)).getLsbD sl.toNat = true := by
  have := sl.isLt
  simp [this]

/-! ### The tags of sums (R98) -/

theorem tag_of_finish {i : Instr} {s : State} {rd : XReg} {v : W64} {tag : Tag} {p : Bool}
    (h : exec i s = finish (s.wx rd v tag p)) (hrd : rd ≠ 0) : ∃ t, exec i s = .next t ∧ vget t.me.tag rd = tag := by
  refine ⟨_, h, ?_⟩
  rw [State.wx, State.goOn, updMe_updMe, updMe_me]
  exact tag_wx_same _ _ _ _ hrd

theorem moveTag_eq (sl : BitVec 4) (d : BitVec 48) (n : Int) : moveTag sl d n =
    if -(2 ^ 47) ≤ d.toInt + n ∧ d.toInt + n < 2 ^ 47 then .patched sl (BitVec.ofInt 48 (d.toInt + n)) else .opq := by
  simp [moveTag]

theorem addTag_vol (t : Tag) (a b : W64) : addTag .vol t a b = .vol := by cases t <;> rfl

theorem subTag_vol (t : Tag) (b : W64) : subTag t .vol b = .vol := by cases t <;> rfl

theorem addTag_opq {t : Tag} (a b : W64) (h : t ≠ .vol) : addTag .opq t a b = .opq := by
  cases t
  case vol => exact absurd rfl h
  all_goals rfl

theorem subTag_opq {t : Tag} (b : W64) (h : t ≠ .vol) : subTag t .opq b = .opq := by
  cases t
  case vol => exact absurd rfl h
  all_goals rfl

section
variable {s : State} {rd : XReg} (hrd : rd ≠ 0)
include hrd

theorem add_tag {a b : XReg} {tag : Tag} (e : addTag (s.tagOf a) (s.tagOf b) (s.rx a) (s.rx b) = tag) :
    ∃ t, exec (.add rd a b) s = .next t ∧ vget t.me.tag rd = tag :=
  e ▸ tag_of_finish (i := .add rd a b) rfl hrd

theorem sub_tag {a b : XReg} {tag : Tag} (e : subTag (s.tagOf a) (s.tagOf b) (s.rx b) = tag) :
    ∃ t, exec (.sub rd a b) s = .next t ∧ vget t.me.tag rd = tag :=
  e ▸ tag_of_finish (i := .sub rd a b) rfl hrd

theorem addi_tag_patched {a : XReg} (imm : BitVec 12) {sl : BitVec 4} {d : BitVec 48} (h : s.tagOf a = .patched sl d) :
    ∃ t, exec (.addi rd a imm) s = .next t ∧ vget t.me.tag rd = moveTag sl d imm.toInt := by
  refine tag_of_finish (i := .addi rd a imm) (v := s.rx a + simm imm) (p := s.anyMarked [a]) ?_ hrd
  change execAddi rd a imm s = _
  simp only [execAddi, h]

theorem addi_tag_other {a : XReg} (imm : BitVec 12) {tag : Tag} (h : s.tagOf a = tag) (other : ∀ sl d, tag ≠ .patched sl d) :
    ∃ t, exec (.addi rd a imm) s = .next t ∧ vget t.me.tag rd = anyTag [tag] := by
  refine tag_of_finish (i := .addi rd a imm) (v := s.rx a + simm imm) (p := s.anyMarked [a]) ?_ hrd
  change execAddi rd a imm s = _
  cases tag
  case patched sl d => exact absurd rfl (other sl d)
  all_goals simp only [execAddi, h]

end

/-- Settles O14: `gpatch` by what it finds of its slot, `guntag`, and the tag of each sum by the kinds of its operands. -/
theorem patchTags : Obligations.PatchTags := by
  unfold Obligations.PatchTags
  refine ⟨fun s xd sl h => ?outside, fun s xd => ?untag, fun s xd sl r hr => ?recording, fun s rd rs1 rs2 imm sl d hrd => ?sums⟩
  case outside =>
    have ⟨outside, inside, named, others, zero⟩ := retagged_finish s xd (.patched sl 0)
    exact ⟨_, exec_gpatch_unrecorded xd sl h, outside, inside, named, others, zero⟩
  case untag =>
    have ⟨outside, inside, named, others, zero⟩ := retagged_finish s xd .plain
    exact ⟨_, rfl, outside, inside, named, others, zero⟩
  case recording =>
    have me := me_useX s xd
    have kept := (recording_useX s xd).trans hr
    by_cases rejected : r.rejected.getLsbD sl.toNat = true
    · obtain ⟨t, runs, rec_, value, others, zero, named⟩ := gpatch_leaves (exec_gpatch_rejected xd hr rejected) me kept
      refine ⟨t, r, runs, rec_, value, others, zero, fun _ => ⟨named, rfl⟩, ?_, ?_, ?_⟩ <;> simp [rejected]
    have open_ : r.rejected.getLsbD sl.toNat = false := by simpa using rejected
    by_cases used : r.used.getLsbD sl.toNat = true
    · by_cases same : vget r.vals sl = s.rx xd
      · obtain ⟨t, runs, rec_, value, others, zero, named⟩ := gpatch_leaves (exec_gpatch_same xd hr open_ used same) me kept
        refine ⟨t, r, runs, rec_, value, others, zero, ?_, ?_, fun _ _ _ => ⟨named, rfl⟩, ?_⟩ <;> simp [open_, used, same]
      · obtain ⟨t, runs, rec_, value, others, zero, named⟩ := gpatch_leaves (exec_gpatch_other xd hr open_ used same)
          ((me_changeRec ..).trans me) (recording_changeRec kept rfl)
        refine ⟨t, _, runs, rec_, value, others, zero, ?_, ?_, ?_, fun _ _ _ => ⟨named, getLsbD_or_slot .., rfl⟩⟩ <;>
          simp [open_, used, same]
    · have new : r.used.getLsbD sl.toNat = false := by simpa using used
      obtain ⟨t, runs, rec_, value, others, zero, named⟩ := gpatch_leaves (exec_gpatch_new xd hr open_ new)
        ((me_changeRec ..).trans me) (recording_changeRec kept rfl)
      have stored : (if xd = 0 then 0 else s.rx xd) = s.rx xd := by
        split
        · rename_i z; rw [z]; rfl
        · rfl
      refine ⟨t, _, runs, rec_, value, others, zero, ?_, fun _ _ => ⟨named, ?_, getLsbD_or_slot .., rfl⟩, ?_, ?_⟩
      · simp [open_]
      · rw [stored]; exact vget_vset_same _ _ _ (by decide) _
      · simp [new]
      · simp [new]
  case sums =>
    intro moved tagAfter
    refine ⟨fun h1 h2 => ⟨add_tag hrd ?_, add_tag hrd ?_, sub_tag hrd ?_, sub_tag hrd ?_⟩,
      fun h1 => ?_,
      fun h1 h2 => ⟨add_tag hrd ?_, sub_tag hrd ?_, addi_tag_other hrd imm h1 nofun⟩,
      fun h1 => ⟨add_tag hrd ?_, sub_tag hrd ?_, addi_tag_other hrd imm h1 nofun⟩,
      fun h1 h2 => ⟨add_tag hrd ?_, sub_tag hrd ?_, addi_tag_other hrd imm h1 nofun⟩⟩
    · rw [h1, h2]; exact moveTag_eq ..
    · rw [h1, h2]; exact moveTag_eq ..
    · rw [h1, h2]; exact moveTag_eq ..
    · rw [h1, h2]; rfl
    · have tagged := addi_tag_patched hrd imm h1
      rwa [moveTag_eq] at tagged
    · rw [h1, h2]; rfl
    · rw [h1, h2]; rfl
    · rw [h1]; exact addTag_vol ..
    · rw [h1]; exact subTag_vol ..
    · rw [h1]; exact addTag_opq _ _ h2
    · rw [h1]; exact subTag_opq _ h2

end Sys2Proof.Machine
end

section
namespace Sys2Proof.Machine

/-! ### Results of the vector engine in x registers (R102, R157, R158) -/

/-- What a smudge that finds no recording leaves, changed in the issuing context, is the state so changed. -/
theorem updMe_setCore_self (s : State) (f : Ctx → Ctx) : (s.setCore s.curCore (s.core s.curCore)).updMe f = s.updMe f := by
  rw [State.updMe, setCore_curCore, setCore_curCtx, updCtx_setCore_self]
  rfl

theorem wx_setCore_self (s : State) (rd : XReg) (v : W64) (tag : Tag) (p : Bool) :
    (s.setCore s.curCore (s.core s.curCore)).wx rd v tag p = s.wx rd v tag p :=
  updMe_setCore_self ..

theorem mySet_setCore_self (s : State) : (s.setCore s.curCore (s.core s.curCore)).mySet = s.mySet := aset_setCore_self ..

theorem me_setCore_self (s : State) : (s.setCore s.curCore (s.core s.curCore)).me = s.me := ctx_setCore_self ..

/-- An instruction that waits for the vector engine acts at once when no V entry waits, and a core that does not record is not
smudged (R99, R102). -/
theorem vectorWait_idle {s : State} (i : Instr) (hr : (s.core s.curCore).rec_ = none) (hv : s.mySet.vq = []) :
    vectorWait i (s.smudgeMe 7) = finish ((s.setCore s.curCore (s.core s.curCore)).vectorAct i) := by
  have done (n : Nat) (c : Option CtxId) : s.mySet.vDone n c = true := by simp [CtxSet.vDone, hv]
  rw [smudgeMe_none (recording_of_none hr), vectorWait, mySet_setCore_self, if_pos (done _ _)]

/-- The value that `vxmv` gives of an element of a register (R102). -/
def scalarOfElem (v : BitVec 2048) (ty : ElemTy) (i : Nat) : W64 :=
  if elemCount ty ≤ i then 0
  else match ty with
    | .i8 => (BitVec.ofNat 8 (elem v ty i)).signExtend 64
    | .i32 => (BitVec.ofNat 32 (elem v ty i)).signExtend 64
    | _ => BitVec.ofNat 64 (elem v ty i)

theorem vxmvAct_writes (s : State) (ty : ElemTy) (xd : XReg) (vs1 : VReg) (xi : XReg) :
    ∃ p, s.vxmvAct ty xd vs1 xi = s.wx xd (scalarOfElem (vget s.mySet.v vs1) ty (s.rx xi).toNat) .vol p := by
  unfold State.vxmvAct scalarOfElem
  dsimp only
  split
  · exact ⟨_, rfl⟩
  · exact ⟨_, rfl⟩

theorem vxmv_result {s : State} (ty : ElemTy) (xd : XReg) (vs1 : VReg) (xi : XReg) (hr : (s.core s.curCore).rec_ = none)
    (hv : s.mySet.vq = []) : Result (.vxmv ty xd vs1 xi) s xd (scalarOfElem (vget s.mySet.v vs1) ty (s.rx xi).toNat) := by
  obtain ⟨p, writes⟩ := vxmvAct_writes (s.setCore s.curCore (s.core s.curCore)) ty xd vs1 xi
  rw [wx_setCore_self, mySet_setCore_self, State.rx, me_setCore_self] at writes
  exact result_finish ((vectorWait_idle _ hr hv).trans (congrArg finish writes)) rfl

theorem mpop_result {s : State} (ty : ElemTy) (xd : XReg) (mk : MReg) (hr : (s.core s.curCore).rec_ = none)
    (hv : s.mySet.vq = []) : Result (.mpop ty xd mk) s xd
      (BitVec.ofNat 64 ((List.range (elemCount ty)).filter fun i => (s.mySet.mask mk).getLsbD i).length) := by
  refine result_finish (tag := .vol) (p := false) ((vectorWait_idle _ hr hv).trans (congrArg finish ?_)) rfl
  rw [State.vectorAct, State.mpopAct, wx_setCore_self, mySet_setCore_self]

theorem elemCount_le (ty : ElemTy) : elemCount ty ≤ 256 := by cases ty <;> decide

/-- The bits of a mask below an element count: m0 reads as all ones (R158). -/
theorem getLsbD_mask (t : CtxSet) (mk : MReg) {i : Nat} (h : i < 256) :
    (t.mask mk).getLsbD i = (mk == 0 || (vget t.m mk).getLsbD i) := by
  unfold CtxSet.mask
  by_cases zero : mk = 0
  · have ones : (BitVec.allOnes 256).getLsbD i = true := by rw [BitVec.getLsbD_allOnes, decide_eq_true h]
    rw [if_pos zero, ones, zero]
    rfl
  · rw [if_neg zero, beq_eq_false_iff_ne.2 zero, Bool.false_or]

theorem ofNat_mod_two_pow (w n : Nat) : BitVec.ofNat w (n % 2 ^ w) = BitVec.ofNat w n :=
  BitVec.eq_of_toNat_eq (by simp only [BitVec.toNat_ofNat, Nat.mod_mod])

/-- An element past the last reads 0, and one of l6 has six bits (R55, R102, R157). -/
theorem scalarOfElem_eq (v : BitVec 2048) (ty : ElemTy) (i : Nat) : scalarOfElem v ty i =
    if i < elemCount ty then match ty with
      | .i8 => (BitVec.ofNat 8 (v.toNat / 2 ^ (8 * i))).signExtend 64
      | .i32 => (BitVec.ofNat 32 (v.toNat / 2 ^ (32 * i))).signExtend 64
      | .l6 => BitVec.ofNat 64 (v.toNat / 2 ^ (8 * i) % 2 ^ 6)
      | ty => BitVec.ofNat 64 (v.toNat / 2 ^ (elemWidth ty * i) % 2 ^ elemWidth ty)
    else 0 := by
  unfold scalarOfElem
  by_cases inside : i < elemCount ty
  · rw [if_neg (Nat.not_le.2 inside), if_pos inside]
    cases ty
    case i8 | i32 => simp only [elem, lane, elemWidth, Nat.shiftRight_eq_div_pow, ofNat_mod_two_pow]
    case l6 => simp only [elem, lane, Nat.shiftRight_eq_div_pow]; congr 1; omega
    all_goals simp only [elem, lane, Nat.shiftRight_eq_div_pow]
  · rw [if_pos (Nat.le_of_not_lt inside), if_neg inside]

/-- Settles O15: no V entry is waited for, and the value is that of the element, or the count of the mask's ones. -/
theorem vectorToScalar : Obligations.VectorToScalar := by
  unfold Obligations.VectorToScalar
  intro s ty xd xi vs1 mk hr hv
  constructor
  · have moved := vxmv_result ty xd vs1 xi hr hv
    rw [scalarOfElem_eq] at moved
    cases ty <;> exact moved
  · have counted := mpop_result ty xd mk hr hv
    rw [← List.countP_eq_length_filter, List.countP_congr fun i hi => by
      rw [getLsbD_mask _ _ ((List.mem_range.1 hi).trans_le (elemCount_le ty))]] at counted
    exact counted

end Sys2Proof.Machine
end

section
namespace Sys2Proof.Machine

/-! ### Targets and link values (R75, R76) -/

theorem offset_eq {n : Nat} (pc : W64) (off : BitVec n) :
    pc + (off ++ 0#1).signExtend 64 = BitVec.ofInt 64 (pc.toInt + 2 * off.toInt) := by
  rw [BitVec.ofInt_add, BitVec.ofInt_toInt, BitVec.signExtend, BitVec.toInt_append_zero]
  rfl

theorem branchTarget_eq (pc : W64) (off : BitVec 12) : branchTarget pc off = BitVec.ofInt 64 (pc.toInt + 2 * off.toInt) :=
  offset_eq pc off

theorem jalTarget_eq (pc : W64) (off : BitVec 20) : jalTarget pc off = BitVec.ofInt 64 (pc.toInt + 2 * off.toInt) :=
  offset_eq pc off

/-- Clearing bit 0 rounds a number down to an even one. -/
theorem clearBit0_eq (a : W64) : a &&& ~~~1#64 = BitVec.ofNat 64 (a.toNat / 2 * 2) := by
  have shifted : a &&& ~~~1#64 = (a >>> 1) <<< 1 := by
    ext i hi
    rw [BitVec.getElem_and, BitVec.getElem_not, BitVec.getElem_one]
    cases i <;> simp [Nat.add_comm, BitVec.getLsbD_eq_getElem, hi]
  rw [shifted, shiftLeft_eq_ofNat, BitVec.toNat_ushiftRight, Nat.shiftRight_eq_div_pow, Nat.pow_one]

theorem jalrTarget_eq (base : W64) (imm : BitVec 12) :
    jalrTarget base imm = BitVec.ofNat 64 ((base + imm.signExtend 64).toNat / 2 * 2) :=
  clearBit0_eq _

/-- The link value that the search finds goes to the jump (R75). -/
theorem withLink_of_linkOf {s : State} {next : W64} (k : W64 → Out) (h : linkOf s = some next) : withLink s k = k next := by
  have value : s.link = .value next := by
    unfold linkOf at h
    unfold State.link
    cases found : s.nextLane s.curCore s.curCtx s.me.pc <;> rw [found] at h <;> simp_all
  rw [withLink, value]

/-! ### Jumps by what their target's checks find (R76) -/

/-- A context that goes on at a checked target, one slot later than it could (R76, R77). -/
def Ctx.jumpsTo (c : CtxId) (clk : Nat) (a : W64) (x : Ctx) : Ctx :=
  { x with pc := a, seek := false, st := .run, hold := .none, slotAt := slotAfterJump c clk }

theorem slotAfterJump_eq (c : CtxId) (clk : Nat) : slotAfterJump c clk = clk + (if c = 1 then 2 else 3) := by
  unfold slotAfterJump
  split <;> rfl

section
variable {s : State} {a : W64} (pre write : State → State)

theorem jumpTo_ok (h : s.checkTarget s.curCore s.curCtx a = .ok) :
    jumpTo a pre write s = .next ((write (pre s)).updMe (Ctx.jumpsTo s.curCtx s.clk a)) := by
  rw [jumpTo, h]
  rfl

theorem jumpTo_ftgt (h : s.checkTarget s.curCore s.curCtx a = .ftgt) : jumpTo a pre write s = .next ((pre s).trapMe .ftgt a) := by
  rw [jumpTo, h]

theorem jumpTo_fhdr {w : W32} (h : s.checkTarget s.curCore s.curCtx a = .fhdr w) :
    jumpTo a pre write s = .next ((pre s).trap s.curCore s.curCtx .fhdr (w.setWidth 64) a) := by
  rw [jumpTo, h]

end

/-- A trap in a state whose contexts are as before (R93). -/
theorem trapped_of_sameCtxs {s u : State} (same : SameCtxs s u) (g : Nat) (c : CtxId) (k : Cause) (val pc : W64) :
    Trapped s (u.trap g c k val pc) g c k val pc :=
  trapped_of_sameRegs (sameRegs_trap ..) (by rw [same.ctx]) (by rw [same.ctx]) (by rw [same.ctx]) (by rw [same.ctx])

/-- The issuing context is the same one, and no context has changed. -/
structure SameIssuer (s t : State) : Prop where
  core : t.curCore = s.curCore
  num : t.curCtx = s.curCtx
  ctxs : SameCtxs s t

theorem SameIssuer.refl (s : State) : SameIssuer s s := ⟨rfl, rfl, .refl s⟩

theorem SameIssuer.trans {s t u : State} (a : SameIssuer s t) (b : SameIssuer t u) : SameIssuer s u :=
  ⟨b.core.trans a.core, b.num.trans a.num, a.ctxs.trans b.ctxs⟩

theorem SameIssuer.me {s t : State} (h : SameIssuer s t) : t.me = s.me := by
  rw [State.me, h.core, h.num, h.ctxs.ctx]
  rfl

theorem sameIssuer_smudgeMe (s : State) (r : BitVec 3) : SameIssuer s (s.smudgeMe r) := ⟨rfl, rfl, sameCtxs_smudge ..⟩

theorem sameIssuer_useX (s : State) (r : XReg) : SameIssuer s (s.useX r) := by
  unfold State.useX
  split
  · exact ⟨rfl, rfl, sameCtxs_of_cores rfl⟩
  · exact .refl s

theorem trapMe_of_sameIssuer {s u : State} (same : SameIssuer s u) (k : Cause) (val : W64) :
    Trapped s (u.trapMe k val) s.curCore s.curCtx k val s.me.pc := by
  rw [State.trapMe, same.me, same.core, same.num]
  exact trapped_of_sameCtxs same.ctxs ..

/-- An instruction traps for a bad target (R76, R91): FTGT for one that is no lane, FHDR for one whose header is bad. -/
def TrapsAt (s : State) (i : Instr) (target : W64) : Prop :=
  (s.checkTarget s.curCore s.curCtx target = .ftgt →
    ∃ t, exec i s = .next t ∧ Trapped s t s.curCore s.curCtx .ftgt target s.me.pc) ∧
  (∀ h, s.checkTarget s.curCore s.curCtx target = .fhdr h →
    ∃ t, exec i s = .next t ∧ Trapped s t s.curCore s.curCtx .fhdr (h.setWidth 64) target)

theorem trapsAt_of_jumpTo {i : Instr} {s : State} {target : W64} {pre write : State → State}
    (h : exec i s = jumpTo target pre write s) (same : SameIssuer s (pre s)) : TrapsAt s i target :=
  ⟨fun bad => ⟨_, h.trans (jumpTo_ftgt pre write bad), trapMe_of_sameIssuer same ..⟩,
    fun _ bad => ⟨_, h.trans (jumpTo_fhdr pre write bad), trapped_of_sameCtxs same.ctxs ..⟩⟩

/-! ### The branches (R76) -/

/-- What the issue of a branch does in any case (R99, R328). -/
def State.branchPre (rel : BitVec 3) (rs1 rs2 : XReg) (taken : Bool) (s : State) : State :=
  ((s.useX rs1).useX rs2).recBranch rel rs1 rs2 taken

theorem branchPre_idle {s : State} {rs1 rs2 : XReg} (rel : BitVec 3) (taken : Bool) (hr : s.recording = none)
    (h1 : s.me.marked rs1 = false) (h2 : s.me.marked rs2 = false) : s.branchPre rel rs1 rs2 taken = s := by
  rw [State.branchPre, useX_of_unmarked h1, useX_of_unmarked h2, State.recBranch, hr]

/-- A branch with its relation, read in integers (R79). -/
structure BranchIs (s : State) (i : Instr) (rs1 rs2 : XReg) (off : BitVec 12) (taken : Prop) : Prop where
  runs : ∃ rel cond, exec i s = branchIf rel cond rs1 rs2 off s ∧ (cond (s.rx rs1) (s.rx rs2) = true ↔ taken)

section
variable {s : State} {i : Instr} {rs1 rs2 : XReg} {off : BitVec 12} {taken : Prop}

/-- A branch that is not taken only goes on. -/
theorem BranchIs.untaken (h : BranchIs s i rs1 rs2 off taken) (hr : s.recording = none) (h1 : s.me.marked rs1 = false)
    (h2 : s.me.marked rs2 = false) (no : ¬ taken) : exec i s = finish s := by
  obtain ⟨rel, cond, runs, holds⟩ := h.runs
  have cold : cond (s.rx rs1) (s.rx rs2) = false := Bool.eq_false_iff.2 fun h => no (holds.1 h)
  rw [runs, branchIf]
  simp only [cold, Bool.false_eq_true, if_false]
  exact congrArg finish (branchPre_idle rel false hr h1 h2)

/-- One that is taken jumps to its target. -/
theorem BranchIs.jumps (h : BranchIs s i rs1 rs2 off taken) (yes : taken) :
    ∃ rel, exec i s = jumpTo (BitVec.ofInt 64 (s.me.pc.toInt + 2 * off.toInt)) (State.branchPre rel rs1 rs2 true) id s := by
  obtain ⟨rel, cond, runs, holds⟩ := h.runs
  refine ⟨rel, ?_⟩
  rw [runs, branchIf]
  simp only [holds.2 yes, if_true]
  rw [branchTarget_eq]
  rfl

end

section
variable (s : State) (rs1 rs2 : XReg) (off : BitVec 12)

theorem beq_is : BranchIs s (.beq rs1 rs2 off) rs1 rs2 off ((s.rx rs1).toInt = (s.rx rs2).toInt) :=
  ⟨_, _, rfl, beq_iff_eq.trans BitVec.toInt_inj.symm⟩

theorem bne_is : BranchIs s (.bne rs1 rs2 off) rs1 rs2 off ((s.rx rs1).toInt ≠ (s.rx rs2).toInt) :=
  ⟨_, _, rfl, bne_iff_ne.trans (not_congr BitVec.toInt_inj.symm)⟩

theorem blt_is : BranchIs s (.blt rs1 rs2 off) rs1 rs2 off ((s.rx rs1).toInt < (s.rx rs2).toInt) :=
  ⟨_, _, rfl, BitVec.slt_iff_toInt_lt⟩

theorem bge_is : BranchIs s (.bge rs1 rs2 off) rs1 rs2 off ((s.rx rs2).toInt ≤ (s.rx rs1).toInt) :=
  ⟨5, fun a b => !a.slt b, rfl, by rw [Bool.not_eq_true', ← Bool.not_eq_true, BitVec.slt_iff_toInt_lt, Int.not_lt]⟩

theorem bltu_is : BranchIs s (.bltu rs1 rs2 off) rs1 rs2 off ((s.rx rs1).toNat < (s.rx rs2).toNat) :=
  ⟨_, _, rfl, BitVec.ult_iff_toNat_lt⟩

theorem bgeu_is : BranchIs s (.bgeu rs1 rs2 off) rs1 rs2 off ((s.rx rs2).toNat ≤ (s.rx rs1).toNat) :=
  ⟨7, fun a b => !a.ult b, rfl, by rw [Bool.not_eq_true', ← Bool.not_eq_true, BitVec.ult_iff_toNat_lt, Nat.not_lt]⟩

end

/-! ### JAL and JALR (R75, R76) -/

theorem exec_jal {s : State} {next : W64} (rd : XReg) (off : BitVec 20) (h : linkOf s = some next) :
    exec (.jal rd off) s =
      jumpTo (BitVec.ofInt 64 (s.me.pc.toInt + 2 * off.toInt)) id (fun s => s.wx rd next .plain false) s := by
  rw [← jalTarget_eq]
  exact withLink_of_linkOf _ h

/-- What the issue of JALR does in any case (R99, R328). -/
def State.jalrPre (tag : Tag) (rs1 : XReg) (s : State) : State := (if tag == .plain then s else s.smudgeMe 2).useX rs1

theorem exec_jalr {s : State} {next : W64} (rd rs1 : XReg) (imm : BitVec 12) (h : linkOf s = some next) :
    ∃ tag, exec (.jalr rd rs1 imm) s = jumpTo (BitVec.ofNat 64 ((s.rx rs1 + imm.signExtend 64).toNat / 2 * 2))
      (State.jalrPre (s.tagOf rs1) rs1) (fun s => s.wx rd next tag false) s := by
  rw [← jalrTarget_eq]
  exact ⟨_, withLink_of_linkOf _ h⟩

theorem sameIssuer_jalrPre (tag : Tag) (rs1 : XReg) (s : State) : SameIssuer s (s.jalrPre tag rs1) := by
  unfold State.jalrPre
  split
  · exact sameIssuer_useX ..
  · exact (sameIssuer_smudgeMe s 2).trans (sameIssuer_useX ..)

/-- A core that does not record, with a base that is not marked, writes its link in the state as it was. -/
theorem wx_jalrPre {s : State} {rs1 : XReg} (base : Tag) (hr : s.recording = none) (h1 : s.me.marked rs1 = false) (rd : XReg) (v : W64)
    (tag : Tag) (p : Bool) : (s.jalrPre base rs1).wx rd v tag p = s.wx rd v tag p := by
  unfold State.jalrPre
  split
  · rw [useX_of_unmarked h1]
  · rw [smudgeMe_none hr, useX_of_unmarked (by rw [me_setCore_self]; exact h1), wx_setCore_self]

/-- What a jump with a link does when its target passes (R75, R76). -/
theorem jump_links {i : Instr} {s : State} {rd : XReg} {next target : W64} {tag : Tag}
    (h : exec i s = .next ((s.wx rd next tag false).updMe (Ctx.jumpsTo s.curCtx s.clk target))) :
    ∃ t, exec i s = .next t ∧ OnlyMe s t ∧ t.me.pc = target ∧ t.me.seek = false ∧ t.me.st = .run ∧
      (rd ≠ 0 → t.rx rd = next) ∧ OtherX s t rd ∧ t.me.sup = s.me.sup ∧ SameBytes s t := by
  have me : ((s.wx rd next tag false).updMe (Ctx.jumpsTo s.curCtx s.clk target)).me =
      (s.me.wx rd next tag false).jumpsTo s.curCtx s.clk target := by rw [updMe_me, State.wx, updMe_me]
  refine ⟨_, h, ?_, ?_, ?_, ?_, fun hrd => ?_, fun r hr => ⟨?_, ?_, ?_⟩, ?_, fun _ => rfl⟩
  · rw [State.wx, updMe_updMe]
    exact onlyMe_updMe ..
  all_goals simp only [State.rx, me]
  · rfl
  · rfl
  · rfl
  · exact rx_wx_same _ _ _ _ hrd
  · exact rx_wx_ne _ _ _ _ hr
  · exact tag_wx_ne _ _ _ _ hr
  · exact marked_wx_ne _ _ _ _ hr
  · exact wx_sup ..

/-- Settles O16: a branch goes on or jumps, and a jump with a link writes it in its context. -/
theorem branchesAndJumps : Obligations.BranchesAndJumps := by
  unfold Obligations.BranchesAndJumps
  refine ⟨fun s rs1 rs2 off hr h1 h2 => ?branches, fun s rd rs1 off imm next hr h1 hn => ?jumps⟩
  case branches =>
    intro a b target follows
    have is {i : Instr} {taken : Prop} (h : BranchIs s i rs1 rs2 off taken) : follows i taken := by
      refine ⟨fun no => ⟨_, h.untaken hr h1 h2 no, onlyMe_updMe .., updMe_me ..⟩, fun yes ok => ?_⟩
      obtain ⟨rel, runs⟩ := h.jumps yes
      rw [jumpTo_ok _ _ ok, branchPre_idle rel true hr h1 h2] at runs
      refine ⟨_, runs, onlyMe_updMe .., (updMe_me ..).trans ?_⟩
      rw [Ctx.jumpsTo, slotAfterJump_eq]
      rfl
    exact ⟨is (beq_is ..), is (bne_is ..), is (blt_is ..), is (bge_is ..), is (bltu_is ..), is (bgeu_is ..)⟩
  case jumps =>
    intro goes
    refine ⟨fun ok => jump_links ((exec_jal rd off hn).trans (jumpTo_ok _ _ ok)), fun ok => ?_⟩
    obtain ⟨tag, runs⟩ := exec_jalr rd rs1 imm hn
    rw [jumpTo_ok _ _ ok, wx_jalrPre _ hr h1] at runs
    exact jump_links runs

/-- Settles O17: each jump, and each branch that is taken, comes to the checks of its target in a state with the same contexts. -/
theorem badTargetsTrap : Obligations.BadTargetsTrap := by
  unfold Obligations.BadTargetsTrap
  intro s rd rs1 rs2 off boff imm next hr _ h1 h2 hn _ a b traps branch
  have is {i : Instr} {taken : Prop} (h : BranchIs s i rs1 rs2 boff taken) : branch i taken := fun yes => by
    obtain ⟨rel, runs⟩ := h.jumps yes
    have idle := branchPre_idle rel true (recording_of_none hr) h1 h2
    exact trapsAt_of_jumpTo runs (by rw [idle]; exact .refl s)
  obtain ⟨tag, runs⟩ := exec_jalr rd rs1 imm hn
  exact ⟨trapsAt_of_jumpTo (exec_jal rd off hn) (.refl s), trapsAt_of_jumpTo runs (sameIssuer_jalrPre ..),
    is (beq_is ..), is (bne_is ..), is (blt_is ..), is (bge_is ..), is (bltu_is ..), is (bgeu_is ..)⟩

/-! ### The return from a trap (R96) -/

/-- In supervisor mode a supervisor instruction acts (R35). -/
theorem privileged_supervisor {i : Instr} {s : State} (act : State → Out) (h : s.me.sup = true) : privileged i s act = act s :=
  if_pos h

theorem exec_tret {s : State} (h : s.me.sup = true) : exec .tret s = .next s.trapReturn := by
  change execTret s = _
  rw [execTret, privileged_supervisor _ h]

/-- The context of a return: the mode, ie and pie come back, and its pc is tpc (R96). -/
def Ctx.returns (c : CtxId) (clk : Nat) (x : Ctx) : Ctx :=
  { x with
    sup := x.tstat.getLsbD 0
    tstat := (x.tstat &&& 1#3) ||| (if x.tstat.getLsbD 2 then 2#3 else 0) ||| 4#3
    pc := x.tpc, seek := false, st := .run, hold := .none, waited := 0, slotAt := slotAfterJump c clk }

theorem trapReturn_ok {s : State} (h : s.checkTarget s.curCore s.curCtx s.me.tpc = .ok) :
    s.trapReturn = s.updMe (Ctx.returns s.curCtx s.clk) := by
  unfold State.trapReturn
  dsimp only
  rw [h]
  rfl

theorem trapReturn_bad {s : State} (h : s.checkTarget s.curCore s.curCtx s.me.tpc = .ftgt ∨
    ∃ w, s.checkTarget s.curCore s.curCtx s.me.tpc = .fhdr w) : s.trapReturn = s.trapMe .ftgt s.me.tpc := by
  unfold State.trapReturn
  dsimp only
  rcases h with h | ⟨w, h⟩ <;> rw [h]

theorem returnTstat_bits (t : BitVec 3) :
    let w : BitVec 3 := (t &&& 1#3) ||| (if t.getLsbD 2 then 2#3 else 0) ||| 4#3
    w.getLsbD 1 = t.getLsbD 2 ∧ w.getLsbD 2 = true ∧ w.getLsbD 0 = t.getLsbD 0 := by
  revert t
  decide

/-- Settles O19: the return changes the context's mode, tstat and pc, or is a trap of the state as it was. -/
theorem tretReturns : Obligations.TretReturns := by
  unfold Obligations.TretReturns
  intro s sup
  refine ⟨fun ok => ⟨_, (exec_tret sup).trans (congrArg _ (trapReturn_ok ok)), onlyMe_updMe .., ?_⟩, fun bad _ _ _ =>
    ⟨_, (exec_tret sup).trans (congrArg _ (trapReturn_bad bad)), trapMe_of_sameIssuer (.refl s) ..⟩⟩
  obtain ⟨ie, pie, prev⟩ := returnTstat_bits s.me.tstat
  simp only [State.rx, updMe_me]
  exact ⟨rfl, ie, pie, prev, rfl, rfl, rfl, fun _ => rfl⟩

end Sys2Proof.Machine
end

section
namespace Sys2Proof.Machine

/-! ### Stray accesses (R81) -/

theorem resolve_stray {s : State} {p : W64} (h : strayAccess s p) (n : Nat) (need : Nat → BitVec 4) (bit : ByteFail → BitVec 8) :
    s.resolve p n need bit = .stray := by
  unfold State.resolve
  rcases h with h | ⟨pol, k, off, h, invalid⟩
  · dsimp only
    rw [h]
  · dsimp only
    rw [h]
    simp only [invalid, Bool.not_false, if_true]

/-- A stray load writes 0 and mstat.stray in its context and goes on. -/
theorem strayLoad_finish (s : State) (rd : XReg) :
    (s.strayLoad rd).goOn = s.updMe fun x => (({ x with mstat := x.mstat ||| mStray } : Ctx).wx rd 0 .vol false).goOn := by
  rw [State.strayLoad, orMstat_iam, State.wx, State.goOn, updMe_updMe, updMe_updMe]

/-- What a stray access leaves of a load. -/
theorem strayLoad_readsZero {i : Instr} {s : State} {n : Nat} {sgn : Bool} {rd rs1 : XReg} {imm : BitVec 12}
    (hi : exec i s = scalarLoad n sgn rd rs1 imm s) (h : strayAccess s (s.rx rs1 + imm.signExtend 64))
    (hm : s.me.marked rs1 = false) : ∃ t, exec i s = .next t ∧ OnlyMe s t ∧ (rd ≠ 0 → t.rx rd = 0) ∧ OtherX s t rd ∧
      t.me.mstat = s.me.mstat ||| 0x20 ∧ SameBytes s t := by
  have runs : exec i s = finish (s.strayLoad rd) := by
    rw [hi, scalarLoad, show s.rx rs1 + simm imm = s.rx rs1 + imm.signExtend 64 from rfl, resolve_stray h]
    dsimp only
    rw [useX_of_unmarked hm]
  rw [finish, strayLoad_finish] at runs
  refine ⟨_, runs, onlyMe_updMe .., fun hrd => ?_, fun r hr => ⟨?_, ?_, ?_⟩, ?_, fun _ => rfl⟩ <;> simp only [State.rx, updMe_me]
  · exact rx_wx_same _ _ _ _ hrd
  · exact rx_wx_ne _ _ _ _ hr
  · exact tag_wx_ne _ _ _ _ hr
  · exact marked_wx_ne _ _ _ _ hr
  · exact wx_mstat ..

/-- A store that finds no recording smudges none (R99). -/
theorem orMstat_storeSmudge {s : State} (hr : (s.core s.curCore).rec_ = none) (p : W64) (b : BitVec 8) :
    (s.storeSmudge p).orMstat s.iam b = s.orMstat s.iam b := by
  unfold State.storeSmudge
  split
  · rw [smudge_none hr]
    have iam : (s.setCore s.curCore (s.core s.curCore)).iam = s.iam := by
      rw [State.iam, mySet_setCore_self]
      rfl
    rw [← iam, orMstat_iam, updMe_setCore_self, iam, orMstat_iam]
  · rfl

/-- What a stray access leaves of a store. -/
theorem strayStore_dropped {i : Instr} {s : State} {n : Nat} {rs1 rs2 : XReg} {imm : BitVec 12}
    (hi : exec i s = scalarStore n rs2 rs1 imm s) (h : strayAccess s (s.rx rs1 + imm.signExtend 64))
    (hm : s.me.marked rs1 = false) (hr : (s.core s.curCore).rec_ = none) : ∃ t, exec i s = .next t ∧ OnlyMe s t ∧
      t.me = { s.me.goOn with mstat := s.me.mstat ||| 0x20 } ∧ SameBytes s t := by
  have runs : exec i s = finish (s.orMstat s.iam mStray) := by
    rw [hi, scalarStore, show s.rx rs1 + simm imm = s.rx rs1 + imm.signExtend 64 from rfl]
    dsimp only
    rw [resolve_stray h]
    dsimp only
    rw [useX_of_unmarked hm, orMstat_storeSmudge hr]
  rw [finish, orMstat_iam, State.goOn, updMe_updMe] at runs
  exact ⟨_, runs, onlyMe_updMe .., updMe_me .., fun _ => rfl⟩

/-- Settles O25: a stray access comes to mstat.stray and the next instruction, and a load to 0 besides. -/
theorem strayAccesses : Obligations.StrayAccesses := by
  unfold Obligations.StrayAccesses
  intro s rd rs1 rs2 imm h hm hr readsZero dropped
  have load {i : Instr} {n : Nat} {sgn : Bool} (hi : exec i s = scalarLoad n sgn rd rs1 imm s) : readsZero i :=
    strayLoad_readsZero hi h hm
  have store {i : Instr} {n : Nat} (hi : exec i s = scalarStore n rs2 rs1 imm s) : dropped i := strayStore_dropped hi h hm hr
  exact ⟨load rfl, load rfl, load rfl, load rfl, load rfl, load rfl, load rfl, store rfl, store rfl, store rfl, store rfl⟩

end Sys2Proof.Machine
end

section
namespace Sys2Proof.Machine

/-! ### Fetch depends on memory, the cores, the Pin Table and what decides an address (R72, R244) -/

/-- What a fetch looks at is as before. -/
structure SameFetch (s t : State) : Prop where
  mem : t.mem = s.mem
  cores : t.cores = s.cores
  linkDown : t.linkDown = s.linkDown
  pkgid : t.pkgid = s.pkgid
  fenced : ∀ d, (t.die d).fenced = (s.die d).fenced
  pins : ∀ d, (t.die d).pins = (s.die d).pins
  l2 : ∀ d, (t.die d).l2 = (s.die d).l2

/-- A change of a die keeps in every die what it keeps in that one. -/
theorem die_updDie_keeps {α : Type} (s : State) (d : Nat) {f : Die → Die} (φ : Die → α) (h : φ (f (s.die d)) = φ (s.die d)) (e : Nat) :
    φ ((s.updDie d f).die e) = φ (s.die e) := by
  by_cases same : BitVec.ofNat 3 e = BitVec.ofNat 3 d
  · have there (t : State) : t.die e = t.die d := by rw [State.die, same]; rfl
    rw [there, there, die_updDie_same, h]
  · rw [die_updDie_ne s f same]

theorem sameFetch_countFate (s : State) (g : Nat) (f : Fate) : SameFetch s (s.countFate g f) := by
  unfold State.countFate
  refine ⟨rfl, rfl, rfl, rfl, fun d => ?_, fun d => ?_, fun d => ?_⟩
  · exact die_updDie_keeps s _ Die.fenced (by cases f <;> rfl) d
  · exact die_updDie_keeps s _ Die.pins (by cases f <;> rfl) d
  · exact die_updDie_keeps s _ Die.l2 (by cases f <;> rfl) d

theorem sameFetch_countFetch (s : State) (g : Nat) (t : Token) (a : Nat) : SameFetch s (s.countFetch g t a) := by
  have refl : SameFetch s s := ⟨rfl, rfl, rfl, rfl, fun _ => rfl, fun _ => rfl, fun _ => rfl⟩
  unfold State.countFetch
  split
  · split
    · exact refl
    · exact sameFetch_countFate ..
  · exact refl

section
variable {s t : State} (h : SameFetch s t)
include h

theorem SameFetch.core (g : Nat) : t.core g = s.core g := by
  rw [State.core, h.cores]
  rfl

theorem SameFetch.aset (g : Nat) : t.aset g = s.aset g := congrArg Core.act (h.core g)

theorem SameFetch.pin (d : Nat) (e : BitVec 20) : t.pin d e = s.pin d e := by
  rw [State.pin, h.pins]
  rfl

theorem SameFetch.ascOk (n d : Nat) : t.ascOk d n = s.ascOk d n := by
  induction n generalizing d with
  | zero => rfl
  | succ n ih => simp only [State.ascOk, State.linkIsDown, h.linkDown, h.fenced, ih]

theorem SameFetch.routeOf (a dst loc : Nat) : t.routeOf a dst loc = s.routeOf a dst loc := by
  have dir (a b loc : Nat) : t.ringDir a b loc = s.ringDir a b loc := by
    simp only [State.ringDir, State.pathOk, h.ascOk]
    rfl
  simp only [State.routeOf, State.rackDir, State.bridgeOk, h.linkDown, h.fenced, h.pkgid, dir]
  rfl

theorem SameFetch.addrFate (g loc : Nat) (v : Via) : t.addrFate g loc v = s.addrFate g loc v := by
  simp only [State.addrFate, State.reaches, State.homeDie, locDie, h.routeOf, h.fenced, h.pkgid]
  rfl

theorem SameFetch.remote (g loc : Nat) (v : Via) : t.remote g loc v = s.remote g loc v := by
  simp only [State.remote, State.homeDie, locDie, coreDie, h.pkgid]

theorem SameFetch.codeHere (g loc : Nat) : t.codeHere g loc = s.codeHere g loc := by
  simp only [State.codeHere, h.core, h.addrFate, h.remote, h.l2, State.lineBits, State.readNat, h.mem]

theorem SameFetch.readLine (g : Nat) (k : Token) (off : Nat) : t.readLine g k off = s.readLine g k off := by
  simp only [State.readLine, State.issueCheck, State.codeLoc, State.tokenByte, h.pin, h.codeHere, h.core]

/-- The checks of a target look at nothing else (R76). -/
theorem SameFetch.checkTarget (g : Nat) (c : CtxId) (a : W64) : t.checkTarget g c a = s.checkTarget g c a := by
  simp only [State.checkTarget, h.aset, h.readLine]

end

/-! ### A trap of a context that holds nothing (R93) -/

/-- The state that a trap counts its bad header in (R93). -/
def State.counted (s : State) (g : Nat) (k : Cause) (pc : W64) : State :=
  if k = .fhdr then s.countFetch g (s.aset g).codeTok pc.toNat else s

theorem sameFetch_counted (s : State) (g : Nat) (k : Cause) (pc : W64) : SameFetch s (s.counted g k pc) := by
  unfold State.counted
  split
  · exact sameFetch_countFetch ..
  · exact ⟨rfl, rfl, rfl, rfl, fun _ => rfl, fun _ => rfl, fun _ => rfl⟩

/-- Where a trap that has written its registers goes: to its handler, or to a halt (R93, R95). -/
def State.toHandler (s : State) (g : Nat) (c : CtxId) : State :=
  match s.checkTarget g c (s.ctx g c).tvec with
  | .ok => s
  | .stall _ => s.updCtx g c fun x => { x with entering := true }
  | .stale => s.haltAll g
  | .ftgt => s.halt g c
  | .fhdr _ => (s.countFetch g (s.aset g).codeTok (s.ctx g c).tvec.toNat).halt g c

/-- A context that holds nothing has nothing to abandon, and a core that does not record nothing to smudge. -/
theorem abandon_idle {s : State} {g : Nat} {c : CtxId} (hr : (s.core g).rec_ = none) (hh : (s.ctx g c).hold = .none) :
    (s.smudge g (s.aset g).sid 5).abandonPlay g c = s.setCore g (s.core g) := by
  have hold : (nget ((s.setCore g (s.core g)).aset g).ctx c).hold = .none := by rw [aset_setCore_self]; exact hh
  have head : ((s.setCore g (s.core g)).aset g).headPlay c = false := by simp only [CtxSet.headPlay, hold]
  rw [smudge_none hr, State.abandonPlay]
  simp only [hold, head, if_false, Bool.false_eq_true]
  rw [updAct_setCore_self, ← updAct_id]
  exact updAct_congr s g (abandonPlay_none hh)

theorem trap_idle {s : State} {g : Nat} {c : CtxId} (k : Cause) (val pc : W64) (hr : (s.core g).rec_ = none)
    (hh : (s.ctx g c).hold = .none) :
    s.trap g c k val pc = ((s.counted g k pc).updCtx g c (Ctx.trapRegs k val pc)).toHandler g c := by
  have same := sameFetch_counted s g k pc
  have counted : (if (k == .fhdr) = true then s.countFetch g (s.aset g).codeTok pc.toNat else s) = s.counted g k pc :=
    if_congr beq_iff_eq rfl rfl
  have ctx : (s.counted g k pc).ctx g c = s.ctx g c := congrArg (fun t : CtxSet => nget t.ctx c) (same.aset g)
  have idle := abandon_idle (s := s.counted g k pc) (c := c) (by rw [same.core]; exact hr) (by rw [ctx]; exact hh)
  have written : ((s.counted g k pc).updCtx g c fun x => x.abandon.trapRegs k val pc) =
      (s.counted g k pc).updCtx g c (Ctx.trapRegs k val pc) :=
    updCtx_congr _ g c (by rw [abandon_none (by rw [ctx]; exact hh)])
  unfold State.trap
  dsimp only
  rw [counted, idle, updCtx_setCore_self, written, State.toHandler]
  generalize ((s.counted g k pc).updCtx g c (Ctx.trapRegs k val pc)).checkTarget g c _ = found
  cases found with
  | fhdr =>
    dsimp only
    rw [codeTok_updCtx, same.aset]
  | ok | stall | stale | ftgt => rfl

/-- The registers of a trap written, and no other change. -/
theorem ctx_counted_trapRegs (s : State) (g : Nat) (c : CtxId) (k : Cause) (val pc : W64) :
    ((s.counted g k pc).updCtx g c (Ctx.trapRegs k val pc)).ctx g c = (s.ctx g c).trapRegs k val pc := by
  rw [ctx_updCtx_same]
  exact congrArg (fun t : CtxSet => (nget t.ctx c).trapRegs k val pc) ((sameFetch_counted s g k pc).aset g)

/-- The check of a handler after the registers of a trap have been written (R93). -/
theorem checkTarget_counted (s : State) (g : Nat) (c : CtxId) (k : Cause) (val pc : W64) :
    ((s.counted g k pc).updCtx g c (Ctx.trapRegs k val pc)).checkTarget g c
      (((s.counted g k pc).updCtx g c (Ctx.trapRegs k val pc)).ctx g c).tvec = s.checkTarget g c (s.ctx g c).tvec := by
  rw [checkTarget_updCtx, (sameFetch_counted s g k pc).checkTarget, ctx_counted_trapRegs]
  rfl

theorem trap_handled {s : State} {g : Nat} {c : CtxId} (k : Cause) (val pc : W64) (hr : (s.core g).rec_ = none)
    (hh : (s.ctx g c).hold = .none) (ht : s.checkTarget g c (s.ctx g c).tvec = .ok) :
    s.trap g c k val pc = (s.counted g k pc).updCtx g c (Ctx.trapRegs k val pc) := by
  rw [trap_idle k val pc hr hh, State.toHandler, checkTarget_counted, ht]

end Sys2Proof.Machine
end

section
namespace Sys2Proof.Machine

/-! ### The event log (R90) -/

theorem leBytes_leNat (l : List Byte) : leBytes l.length (leNat l) = l := by
  induction l with
  | nil => rfl
  | cons b l ih =>
    have hb := b.isLt
    have low : BitVec.ofNat 8 (b.toNat + 256 * leNat l) = b := by
      apply BitVec.eq_of_toNat_eq
      rw [BitVec.toNat_ofNat]
      omega
    have high : (b.toNat + 256 * leNat l) / 256 = leNat l := by omega
    rw [List.length_cons, leNat, leBytes, low, high, ih]

theorem podAddr_dieWrite (s : State) (d a : Nat) (l : List Byte) (d' a' : Nat) :
    podAddr (s.dieWrite d a l) d' a' = podAddr s d' a' :=
  podAddr_congr (sameBooks_writeHome ..).pkgid d' a'

/-- Bytes that the hardware of a die writes to its HBM read as written. -/
theorem read_dieWrite {s : State} (hm : s.MemOk) (d a : Nat) (l : List Byte) (h : a + l.length ≤ 0x2000000000) :
    (s.dieWrite d a l).mem.read (podAddr s d a) l.length = l := by
  have bytes : s.dieWrite d a l = s.writeHome (bytesAt (podAddr s d a) l.length (leNat l)) false := by
    rw [← dieWrite_leBytes s d a l.length (leNat l) h, leBytes_leNat]
  rw [bytes]
  refine List.ext_getElem (by simp [Memory.read]) fun i _ hi => ?_
  simp only [Memory.read, List.getElem_map, List.getElem_range, writeHome_mem]
  rw [get_setAll_bytesAt hm _ _ _ _ hi, leBytes_leNat, List.getD_eq_getElem?_getD, List.getElem?_eq_getElem hi]
  rfl

/-- The state that an appended record is written in, before the head rises (R90). -/
def State.logged (s : State) (die a : Nat) (r : List Byte) : State :=
  let cap := s.dieRead die (a + 8) 4
  if 4 ≤ cap && cap ≤ 20 then s.dieWrite die (s.dieRead die a 8 + 32 * (s.dieRead die (a + 16) 8 % 2 ^ cap)) r else s

theorem appendLog_eq (s : State) (die : Nat) (evptr : W64) (r : List Byte) : s.appendLog die evptr r =
    (s.logged die evptr.toNat r).dieWrite die (evptr.toNat + 16) (leBytes 8 (s.dieRead die (evptr.toNat + 16) 8 + 1)) := rfl

theorem logged_keeps {s : State} (hm : s.MemOk) (die a : Nat) (r : List Byte) :
    (s.logged die a r).MemOk ∧ ∀ d a', podAddr (s.logged die a r) d a' = podAddr s d a' := by
  unfold State.logged
  dsimp only
  split
  · exact ⟨dieWrite_wf _ _ _ hm, fun _ _ => podAddr_dieWrite ..⟩
  · exact ⟨hm, fun _ _ => rfl⟩

section
variable {s : State} (hm : s.MemOk) (die : Nat) {evptr : W64} (r : List Byte) (hb : evptr.toNat + 64 ≤ 0x1FC0000000)
include hm hb

/-- The write of the head that ends an append. -/
theorem appendLog_writes : s.appendLog die evptr r = (s.logged die evptr.toNat r).writeHome
    (bytesAt (podAddr s die evptr.toNat + 16) 8 (s.readNat (podAddr s die evptr.toNat + 16) 8 + 1)) false := by
  have ⟨_, same⟩ := logged_keeps hm die evptr.toNat r
  rw [appendLog_eq, dieWrite_leBytes _ _ _ _ _ (by omega), same, podAddr_add s die _ 16 (by omega), dieRead_eq s die _ 8 (by omega),
    podAddr_add s die _ 16 (by omega)]

/-- The head of a log rises by one with each record. -/
theorem appendLog_head : (s.appendLog die evptr r).readNat (podAddr s die evptr.toNat + 16) 8 =
    (s.readNat (podAddr s die evptr.toNat + 16) 8 + 1) % 2 ^ 64 := by
  rw [appendLog_writes hm die r hb]
  exact readNat_writeHome (logged_keeps hm die _ r).1 ..

/-- The record lies at the place of the head, below the descriptor. -/
theorem appendLog_record (hr : r.length = 32) (cap : s.readNat (podAddr s die evptr.toNat + 8) 4 = 4)
    (low : s.readNat (podAddr s die evptr.toNat) 8 + 512 ≤ evptr.toNat) :
    (s.appendLog die evptr r).mem.read (podAddr s die (s.readNat (podAddr s die evptr.toNat) 8 +
      32 * (s.readNat (podAddr s die evptr.toNat + 16) 8 % 16))) 32 = r := by
  have place : s.logged die evptr.toNat r = s.dieWrite die (s.readNat (podAddr s die evptr.toNat) 8 +
      32 * (s.readNat (podAddr s die evptr.toNat + 16) 8 % 16)) r := by
    unfold State.logged
    rw [dieRead_eq s die _ 4 (by omega), dieRead_eq s die _ 8 (by omega), dieRead_eq s die _ 8 (by omega), podAddr_add s die _ 8 (by omega),
      podAddr_add s die _ 16 (by omega), cap]
    rfl
  have slot := Nat.mod_lt (s.readNat (podAddr s die evptr.toNat + 16) 8) (show 0 < 16 by decide)
  rw [appendLog_writes hm die r hb, place]
  have bound : s.readNat (podAddr s die evptr.toNat) 8 + 32 * (s.readNat (podAddr s die evptr.toNat + 16) 8 % 16) + 32 ≤ evptr.toNat := by
    omega
  generalize s.readNat (podAddr s die evptr.toNat) 8 + 32 * (s.readNat (podAddr s die evptr.toNat + 16) 8 % 16) = at_ at bound ⊢
  have written := read_dieWrite hm die at_ r (by omega)
  rw [hr] at written
  refine Eq.trans (List.map_congr_left fun i hi => ?_) written
  have hi := List.mem_range.1 hi
  refine get_writeHome_bytesAt_ne _ _ (.inl ?_)
  rw [← podAddr_add s die at_ i (by omega), ← podAddr_add s die evptr.toNat 16 (by omega)]
  unfold podAddr
  omega

end

/-! ### A halt and its record (R95) -/

/-- The event record of a halt: the cycle, the principal, the request tag, code 1, the context, tcause and tpc. -/
def State.haltRecord (s : State) (g : Nat) (c : CtxId) : List Byte :=
  recHead s (s.ctx g c).prin (s.aset g).reqtag 0x01 c.val ++ leBytes 8 (s.ctx g c).tcause.toNat ++ leBytes 8 (s.ctx g c).tpc.toNat

theorem length_haltRecord (s : State) (g : Nat) (c : CtxId) : (s.haltRecord g c).length = 32 := by
  simp [State.haltRecord, recHead]

/-- The memory that a halt leaves is that of an append in a state with the same memory. -/
theorem halt_appends (s : State) (g : Nat) (c : CtxId) : ∃ v : State, v.mem = s.mem ∧ v.pkgid = s.pkgid ∧
    (s.halt g c).mem = (v.appendLog (g / 128) (s.ctx g c).evptr (s.haltRecord g c)).mem := by
  have kept := sameCores_giveUp s g (s.ctx g c).hold.duePtes
  refine ⟨(s.giveUp g (s.ctx g c).hold.duePtes).updAct g fun t =>
    { t with haltedAny := match t.haltedAny with | none => some (s.clk, c) | h => h
             ctx := nset t.ctx c { nget t.ctx c with st := .halt, hold := .none } }, kept.mem, ?_, (notify_mem ..).1⟩
  exact foldl_keeps (f := fun (s : State) e => s.performedPte (g / 128) (some e)) State.pkgid (fun _ _ => rfl) _ s

theorem cycle_countFetch (s : State) (g : Nat) (t : Token) (a : Nat) : (s.countFetch g t a).cycle = s.cycle := by
  unfold State.countFetch
  split
  · split <;> rfl
  · rfl

/-- A state with the memory, the place and the clock of another, in which a context shows registers `x`. -/
structure ReadsAs (s u : State) (g : Nat) (c : CtxId) (x : Ctx) : Prop where
  mem : u.mem = s.mem
  pkgid : u.pkgid = s.pkgid
  cycle : u.cycle = s.cycle
  reqtag : (u.aset g).reqtag = (s.aset g).reqtag
  ctx : u.ctx g c = x

theorem ReadsAs.countFetch {s u : State} {g : Nat} {c : CtxId} {x : Ctx} (h : ReadsAs s u g c x) (t : Token) (a : Nat) :
    ReadsAs s (u.countFetch g t a) g c x := by
  have same := sameFetch_countFetch u g t a
  exact { mem := same.mem.trans h.mem, pkgid := same.pkgid.trans h.pkgid, cycle := (cycle_countFetch ..).trans h.cycle
          reqtag := (congrArg CtxSet.reqtag (same.aset g)).trans h.reqtag, ctx := ((sameCtxs_countFetch u g t a).ctx g c).trans h.ctx }

/-- The state in which the registers of a trap are written. -/
theorem readsAs_counted (s : State) (g : Nat) (c : CtxId) (k : Cause) (val pc : W64) :
    ReadsAs s ((s.counted g k pc).updCtx g c (Ctx.trapRegs k val pc)) g c ((s.ctx g c).trapRegs k val pc) := by
  have same := sameFetch_counted s g k pc
  have cycle : (s.counted g k pc).cycle = s.cycle := by
    unfold State.counted
    split
    · exact cycle_countFetch ..
    · rfl
  refine ⟨same.mem, same.pkgid, cycle, ?_, ctx_counted_trapRegs ..⟩
  rw [State.updCtx, aset_updAct, same.aset]

/-- A trap whose handler is bad halts its context, with the registers of the trap (R93, R95). -/
theorem trap_halts {s : State} {g : Nat} {c : CtxId} (k : Cause) (val pc : W64) (hr : (s.core g).rec_ = none)
    (hh : (s.ctx g c).hold = .none) (hb : badHandler s g c = true) :
    ∃ u, ReadsAs s u g c ((s.ctx g c).trapRegs k val pc) ∧ s.trap g c k val pc = u.halt g c := by
  have written := readsAs_counted s g c k val pc
  rw [trap_idle k val pc hr hh, State.toHandler, checkTarget_counted]
  unfold badHandler at hb
  generalize s.checkTarget g c (s.ctx g c).tvec = found at hb
  cases found with
  | ftgt => exact ⟨_, written, rfl⟩
  | fhdr => exact ⟨_, written.countFetch .., rfl⟩
  | ok | stall | stale => cases hb

/-- Settles O18: a trap writes its registers and goes to its handler, and one with a bad handler halts its context with its record. -/
theorem trapTaken : Obligations.TrapTaken := by
  refine ⟨fun s g c k val pc hr hh ht => ?_, fun s g c k val pc hr hh hb hm => ?_⟩
  · refine ⟨trap_trapped .., ?_, ?_⟩ <;> rw [trap_handled k val pc hr hh ht]
    · exact onlyCtx_updCtx ..
    · exact ctx_counted_trapRegs ..
  · intro t x a head hev
    obtain ⟨u, same, trapped⟩ := trap_halts k val pc hr hh hb
    have halted : t.ctx g c = { x.trapRegs k val pc with st := .halt, hold := .none } := by
      rw [← same.ctx, ← ctx_halt, ← trapped]
    obtain ⟨v, vmem, vpkgid, appended⟩ := halt_appends u g c
    have mem : t.mem = (v.appendLog (g / 128) x.evptr (u.haltRecord g c)).mem := by
      rw [← trapped, same.ctx] at appended
      exact appended
    have reads (b n : Nat) : v.readNat b n = s.readNat b n := by rw [State.readNat, vmem, same.mem, State.readNat]
    have place (b : Nat) : podAddr v (g / 128) b = podAddr s (g / 128) b := podAddr_congr (vpkgid.trans same.pkgid) ..
    have hv : v.MemOk := by rw [State.MemOk, vmem, same.mem]; exact hm
    refine ⟨by rw [halted], by rw [halted]; rfl, by rw [halted]; rfl, ?_, fun cap _ low => ?_⟩
    · have rises := appendLog_head hv (g / 128) (u.haltRecord g c) hev
      rw [State.readNat, ← mem, place, reads] at rises
      exact rises
    · have record := appendLog_record hv (g / 128) (u.haltRecord g c) hev (length_haltRecord ..)
      simp only [place, reads, ← mem] at record
      refine (record cap low).trans ?_
      rw [State.haltRecord, recHead, same.ctx, same.reqtag, same.cycle]
      rfl

end Sys2Proof.Machine
end

section
namespace Sys2Proof.Machine

/-! ### Waits that end by their count (R87, R88) -/

/-- A wait that has reached wdog traps with the resource that it waits for (R87, R88). -/
theorem watchdogExpiry_traps {s : State} {g : Nat} {c : CtxId} {n : Nat} (hn : (s.ctx g c).hold.resource = some n)
    (he : s.expired g c (s.ctx g c).wdog = true) :
    ∃ t, exec (.watchdogExpiry g c) s = .next t ∧ Trapped s t g c .wdog (BitVec.ofNat 64 n) (s.ctx g c).pc := by
  refine ⟨_, ?_, trap_trapped ..⟩
  change execWatchdogExpiry g c s = _
  rw [execWatchdogExpiry]
  simp only [hn, he, if_true]

/-- A context that waits for a tag goes on once its die has one (R239). -/
theorem tagFreeRelease_goesOn {s : State} {g : Nat} {c : CtxId} (hh : (s.ctx g c).hold = .tag)
    (ht : (s.die (g / 128)).tags.length < 4096) :
    exec (.tagFreeRelease g c) s = .next (s.updCtx g c fun x => { x with st := .run, hold := .none }) := by
  have free : s.hasTag (g / 128) = true := decide_eq_true ht
  change execTagFreeRelease g c s = _
  rw [execTagFreeRelease]
  simp only [hh, free, if_true]

/-! ### The lane before which a cause is taken (R92) -/

/-- A search that finds a lane finds it with every way to read lines that gives the same lines where the first gives one. -/
theorem searchLines_lane {read read' : Nat → LineRead} (h : ∀ off l, read off = .line l → read' off = .line l) {c : CtxId} {a : W64}
    (n : Nat) (line : W64) (found : searchLines read c line n = .lane a) : searchLines read' c line n = .lane a := by
  induction n generalizing line with
  | zero => cases found
  | succ n ih =>
    unfold searchLines at found ⊢
    cases e : read line.toNat with
    | stall | stale => rw [e] at found; cases found
    | line l =>
      rw [e] at found
      rw [h _ _ e]
      by_cases bad : headerBad (headerOf l) = true
      · simp only [bad, if_true] at found
        cases found
      · simp only [bad, if_false, Bool.false_eq_true] at found ⊢
        cases i : nextIn (headerOf l) c 0 with
        | some i => rw [i] at found; exact found
        | none => rw [i] at found; exact ih _ found

theorem nextLaneBy_lane {read read' : Nat → LineRead} (h : ∀ off l, read off = .line l → read' off = .line l) {c : CtxId} {a pc : W64}
    (found : nextLaneBy read c pc = .lane a) : nextLaneBy read' c pc = .lane a := by
  unfold nextLaneBy at found ⊢
  cases e : read (lineAddr pc).toNat with
  | stall | stale => rw [e] at found; cases found
  | line l =>
    rw [e] at found
    rw [h _ _ e]
    dsimp only at found ⊢
    cases i : nextIn (headerOf l) c (laneIdx pc) with
    | some i => rw [i] at found; exact found
    | none => rw [i] at found; exact searchLines_lane h _ _ found

/-- A line that a fetch reads lies so at its home. -/
theorem peekLine_of_readLine {s : State} {g : Nat} {k : Token} {off : Nat} {l : BitVec 256} (h : s.readLine g k off = .line l) :
    s.peekLine g k off = .line l := by
  unfold State.readLine at h
  unfold State.peekLine
  cases hi : s.issueCheck g k with
  | withdrawn => rw [hi] at h; cases h
  | go =>
    cases hl : s.codeLoc g k off with
    | none => rw [hi, hl] at h; exact h
    | some loc =>
      rw [hi, hl] at h
      dsimp only at h ⊢
      cases hc : s.codeHere g loc with
      | none => rw [hc] at h; cases h
      | some w => rw [hc] at h; exact h
  | stall =>
    cases hl : s.codeLoc g k off with
    | none => rw [hi, hl] at h; cases h
    | some loc =>
      rw [hi, hl] at h
      dsimp only at h ⊢
      cases hf : fget (s.core g).fetch (loc / 32) with
      | none => rw [hf] at h; cases h
      | some w =>
        have hc : s.codeHere g loc = some w := by rw [State.codeHere, hf]
        rw [hf] at h
        rw [hc]
        exact h

/-- The lane that a context would issue next is the one before which a cause is taken. -/
theorem findLane_lane {s : State} {g : Nat} {c : CtxId} {pc : W64}
    (h : ((s.ctx g c).seek = false ∧ pc = (s.ctx g c).pc) ∨ ((s.ctx g c).seek = true ∧ s.nextLane g c (s.ctx g c).pc = .lane pc)) :
    ∃ u, s.findLane g c = some u ∧ u.ctx g c = { s.ctx g c with pc := pc, seek := false } := by
  unfold State.findLane
  obtain ⟨seek, rfl⟩ | ⟨seek, lane⟩ := h
  · refine ⟨s, by simp [seek], ?_⟩
    rw [← seek]
  · have peeked : nextLaneBy (s.peekLine g (s.aset g).codeTok) c (s.ctx g c).pc = .lane pc :=
      nextLaneBy_lane (fun _ _ => peekLine_of_readLine) lane
    refine ⟨s.updCtx g c fun x => { x with pc := pc, seek := false }, ?_, ctx_updCtx_same ..⟩
    simp only [seek, if_true, peeked]

/-! ### Asynchronous traps (R92) -/

/-- A cause that a context can take depends on its pending causes, its mode and its tstat alone. -/
theorem takeAsync_traps {s u : State} {g : Nat} {c : CtxId} {k : Cause} {val pc : W64} {p : Pend}
    (hu : u.ctx g c = { s.ctx g c with pc := pc, seek := false }) (he : (s.ctx g c).entering = false)
    (ht : (s.ctx g c).takeable = some (k, val, p)) :
    ∃ t, u.takeAsync g c = some t ∧ Trapped s t g c k val pc ∧ (t.ctx g c).pend = p := by
  have taken : (u.ctx g c).takeable = some (k, val, p) := by rw [hu, ← ht]; rfl
  have regs := sameRegs_trap (u.updCtx g c fun x => { x with pend := p }) g c k val pc
  rw [ctx_updCtx_same, hu] at regs
  refine ⟨(u.updCtx g c fun x => { x with pend := p }).trap g c k val pc, ?_, trapped_of_sameRegs regs rfl rfl rfl rfl, ?_⟩
  · rw [State.takeAsync, taken, hu]
    simp only [he]
    rfl
  · obtain ⟨-, -, -, -, pend, -⟩ := abandon_regs { s.ctx g c with pc := pc, seek := false, pend := p }
    rw [regs]
    exact pend

section
variable {s : State} {g : Nat} {c : CtxId}

/-- A context takes a pending cause before its next instruction (R92). -/
theorem asyncTrapTake_traps {k : Cause} {val pc : W64} {p : Pend} (hst : (s.ctx g c).st = .run) (hh : (s.ctx g c).hold = .none)
    (he : (s.ctx g c).entering = false) (hl : (s.aset g).leaving = false)
    (lane : ((s.ctx g c).seek = false ∧ pc = (s.ctx g c).pc) ∨ ((s.ctx g c).seek = true ∧ s.nextLane g c (s.ctx g c).pc = .lane pc))
    (ht : (s.ctx g c).takeable = some (k, val, p)) :
    ∃ t, exec (.asyncTrapTake g c) s = .next t ∧ Trapped s t g c k val pc ∧ (t.ctx g c).pend = p := by
  obtain ⟨u, found, hu⟩ := findLane_lane lane
  obtain ⟨t, taken, trapped⟩ := takeAsync_traps hu he ht
  refine ⟨t, ?_, trapped⟩
  change execAsyncTrapTake g c s = _
  rw [execAsyncTrapTake]
  simp only [ht, Ctx.live, hst, hh, he, hl, found, taken]
  rfl

theorem asyncTrapTake_none (ht : (s.ctx g c).takeable = none) : exec (.asyncTrapTake g c) s = .next s := by
  change execAsyncTrapTake g c s = _
  rw [execAsyncTrapTake]
  simp only [ht, Option.isNone_none, Bool.true_or, if_true]

end

section
variable {x : Ctx}

theorem takeable_withdraw {e : BitVec 20} (h : x.pend.withdraw = some e) :
    x.takeable = some (.revk, e.setWidth 64, { x.pend with withdraw := none, queues := [] }) := by
  rw [Ctx.takeable, h]

theorem takeable_closed (h : x.pend.withdraw = none) (closed : ¬ (x.sup = false ∨ x.tstat.getLsbD 1 = true)) : x.takeable = none := by
  rw [not_or, Bool.not_eq_false, Bool.not_eq_true] at closed
  simp only [Ctx.takeable, h, closed, Bool.not_false, Bool.and_self, if_true]

/-- The causes that wait for user mode or for ie are taken in their order (R92). -/
theorem takeable_open (h : x.pend.withdraw = none) (opened : x.sup = false ∨ x.tstat.getLsbD 1 = true) :
    x.takeable = match x.pend.overrun, x.pend.host with
      | some e, _ => some (.revk, 1#64 <<< 63 ||| BitVec.setWidth 64 e, { x.pend with overrun := none })
      | none, n :: rest => some (.host, BitVec.setWidth 64 n, { x.pend with host := rest })
      | none, [] => if x.pend.timer then some (.timer, 0, { x.pend with timer := false }) else none := by
  have free : (x.sup && !x.tstat.getLsbD 1) = false := by
    obtain sup | ie := opened
    · rw [sup, Bool.false_and]
    · rw [ie, Bool.not_true, Bool.and_false]
  rw [Ctx.takeable, h]
  simp only [free, Bool.false_eq_true, if_false] <;> rfl

end

/-- The tval of an overrun (R92). -/
theorem overrun_tval (e : BitVec 20) : (1#64 <<< 63 ||| BitVec.setWidth 64 e) = BitVec.ofNat 64 (2 ^ 63 + e.toNat) := by
  have he := e.isLt
  have top : (1#64 <<< 63).toNat = 2 ^ 63 := by decide
  have or := Nat.two_pow_add_eq_or_of_lt (show e.toNat < 2 ^ 63 by omega) 1
  rw [Nat.mul_one] at or
  apply BitVec.eq_of_toNat_eq
  have low : (BitVec.setWidth 64 e).toNat = e.toNat := by
    rw [BitVec.toNat_setWidth, Nat.mod_eq_of_lt (by omega)]
  have sum : (BitVec.ofNat 64 (2 ^ 63 + e.toNat)).toNat = 2 ^ 63 + e.toNat := Nat.mod_eq_of_lt (by omega)
  rw [sum, or, BitVec.toNat_or, low, top]

/-- The resource of a wait, by its codes in R88. -/
theorem resource_of_codes {h : Hold} {tval : Nat}
    (hv : match h with
      | .queueFull q _ => tval = 0x100 + (match q with | .vec => 0 | .mat => 1 | .str => 2 | .coll => 3 | .gal => 4 | .job => 5)
      | .ring _ r _ => tval = 0x200 + r.toNat
      | .twait tl _ => tval = 0x300 + (match tl with | .tlv => 0 | .tlm => 1 | .tls => 2 | .tlc => 3 | .tlg => 4)
      | .barrier _ sc b _ => tval = 0x400 + 8 * sc.code.toNat + b.toNat
      | .vector _ _ => tval = 0x500
      | .result k _ _ => tval = 0x600 + k.val
      | .buffer | .drain _ true => tval = 0
      | _ => False) : h.resource = some tval := by
  cases h with
  | queueFull q => subst hv; cases q <;> rfl
  | twait tl => subst hv; cases tl <;> rfl
  | barrier i sc b =>
    subst hv
    exact congrArg (fun n => some (0x400 + n + b.toNat)) (Nat.mul_comm ..)
  | drain _ more =>
    cases more with
    | false => cases hv
    | true => subst hv; rfl
  | ring | vector | result | buffer => subst hv; rfl
  | _ => cases hv

/-- Settles O40: waits end by their count, by a free tag or by a pending cause. -/
theorem waitsEndInTraps : Obligations.WaitsEndInTraps := by
  intro s g c pc _ _ x open_
  refine ⟨fun tval he hold => ?_, fun hh ht => ?_, fun hst hh hent hl lane => ⟨fun e hw => ?_, fun hw opened => ⟨fun e ho => ?_,
    fun n rest ho hn => ?_, fun ho hn htimer => ?_⟩, fun hw closed => ?_⟩⟩
  · refine watchdogExpiry_traps ?_ he
    exact resource_of_codes hold
  · exact ⟨_, tagFreeRelease_goesOn hh ht, onlyCtx_updCtx .., ctx_updCtx_same ..⟩
  · exact asyncTrapTake_traps hst hh hent hl lane (takeable_withdraw hw)
  · rw [← overrun_tval]
    exact asyncTrapTake_traps hst hh hent hl lane (by rw [takeable_open hw opened, ho])
  · exact asyncTrapTake_traps hst hh hent hl lane (by rw [takeable_open hw opened, ho, hn])
  · exact asyncTrapTake_traps hst hh hent hl lane (by rw [takeable_open hw opened, ho, hn, htimer]; rfl)
  · exact asyncTrapTake_none (takeable_closed hw closed)

end Sys2Proof.Machine
end

section
namespace Sys2Proof.Machine

/-! ### Operations that leave the sets and the copies of every core -/

/-- The memory, the clock, the issuing context, and of every core its active set and its copies are as before. -/
structure SameActs (s t : State) : Prop where
  mem : t.mem = s.mem
  clk : t.clk = s.clk
  curCore : t.curCore = s.curCore
  curCtx : t.curCtx = s.curCtx
  aset : ∀ g, t.aset g = s.aset g
  l1 : ∀ g, (t.core g).l1 = (s.core g).l1

theorem SameActs.refl (s : State) : SameActs s s := ⟨rfl, rfl, rfl, rfl, fun _ => rfl, fun _ => rfl⟩

theorem sameActs_updCore (s : State) (g : Nat) {f : Core → Core} (ha : (f (s.core g)).act = (s.core g).act)
    (hl : (f (s.core g)).l1 = (s.core g).l1) : SameActs s (s.updCore g f) := by
  refine ⟨rfl, rfl, rfl, rfl, fun h => ?_, fun h => ?_⟩ <;> by_cases e : h = g
  · subst e
    rw [State.aset, core_updCore_same, ha]
    rfl
  · rw [State.aset, core_updCore_ne s f e]
    rfl
  · subst e
    rw [core_updCore_same, hl]
  · rw [core_updCore_ne s f e]

theorem sameActs_triggerDrain (s : State) (g n : Nat) : SameActs s (s.triggerDrain g n) := sameActs_updCore s g rfl rfl

/-- A recording takes a twait or is smudged by it, and nothing else changes (R296, R298). -/
theorem sameActs_recWait (s : State) (tl : Timeline) (n : W64) : SameActs s (s.recWait tl n) := by
  unfold State.recWait
  split
  · exact .refl s
  · split
    · rw [State.smudgeMe, State.smudge]
      exact sameActs_updCore s _ rfl rfl
    · rw [State.recEntry]
      exact sameActs_updCore s _ rfl rfl

section
variable {s t : State} (h : SameActs s t)
include h

theorem SameActs.ctx (g : Nat) (c : CtxId) : t.ctx g c = s.ctx g c := congrArg (fun t : CtxSet => nget t.ctx c) (h.aset g)

theorem SameActs.me : t.me = s.me := by rw [State.me, h.curCore, h.curCtx, h.ctx]; rfl

theorem SameActs.holdMe (k : Hold) : (t.holdMe k).me = s.me.holdAt s.clk k := by rw [holdMe_me, h.me, h.clk]

end

/-- What a change of a context leaves of a core. -/
theorem coreField_updCtx {α : Type} (φ : Core → α) (hφ : ∀ (k : Core) v, φ { k with set := v } = φ k) (s : State) (g h : Nat) (c : CtxId)
    (f : Ctx → Ctx) : φ ((s.updCtx g c f).core h) = φ (s.core h) := by
  unfold State.updCtx State.updAct
  by_cases e : h = g
  · subst e
    rw [core_updCore_same, hφ]
  · rw [core_updCore_ne s _ e]

theorem l1_updCtx (s : State) (g h : Nat) (c : CtxId) (f : Ctx → Ctx) : ((s.updCtx g c f).core h).l1 = (s.core h).l1 :=
  coreField_updCtx Core.l1 (fun _ _ => rfl) s g h c f

theorem le_drainTo_triggerDrain (s : State) (g n : Nat) (c : CtxId) (f : Ctx → Ctx) :
    n ≤ (((s.triggerDrain g n).updCtx g c f).core g).drainTo := by
  rw [coreField_updCtx Core.drainTo (fun _ _ => rfl), State.triggerDrain, core_updCore_same]
  exact le_max_right ..

/-! ### Fences (R220 to R222) -/

theorem storesDone_triggerDrain (s : State) (g n m : Nat) : (s.triggerDrain g n).storesDone g m = s.storesDone g m := by
  unfold State.storesDone State.triggerDrain
  rw [core_updCore_same]
  rfl

theorem sbDone_triggerDrain (s : State) (g n m : Nat) : (s.triggerDrain g n).sbDone g m = s.sbDone g m := by
  unfold State.sbDone State.triggerDrain
  rw [core_updCore_same]

theorem sbDone_nil {s : State} {g : Nat} (h : (s.core g).sb = []) (n : Nat) : s.sbDone g n = true := by
  rw [State.sbDone, h]
  rfl

/-- The end of a fence: the failure record read and cleared, and the core's copies discarded beyond the core (R220, R221). -/
structure FenceEnds (s t : State) (g : Nat) (c : CtxId) (sc : Scope) (xd : XReg) : Prop where
  ctx : t.ctx g c = ({ (s.ctx g c).wx xd (s.ctx g c).fail.word .vol false with fail := {} } : Ctx).goOn
  l1 : (t.core g).l1 = if scopeWide sc then ownedWords (s.core g).l1 else (s.core g).l1
  mem : t.mem = s.mem

theorem fenceEnd_ends {s u : State} (h : SameActs s u) (g : Nat) (c : CtxId) (sc : Scope) (xd : XReg) :
    FenceEnds s (u.fenceEnd ⟨g, (u.aset g).sid, c⟩ sc xd) g c sc xd := by
  unfold State.fenceEnd
  cases wide : scopeWide sc with
  | false =>
    simp only [Bool.false_eq_true, if_false]
    rw [updWho_updCtx]
    exact ⟨by rw [ctx_updCtx_same, h.ctx], by rw [l1_updCtx, h.l1, wide]; rfl, h.mem⟩
  | true =>
    have own : (u.aset g).sid = ((u.selfInvalidate g).aset g).sid := by
      rw [State.selfInvalidate, State.aset, State.aset, core_updCore_same]
      rfl
    have ctx := (sameCtxs_updCore u g (f := fun k => { k with l1 := ownedWords k.l1 }) rfl).ctx g c
    simp only [if_true]
    rw [own, updWho_updCtx]
    refine ⟨?_, ?_, h.mem⟩
    · rw [ctx_updCtx_same, State.selfInvalidate, ctx, h.ctx]
    · rw [l1_updCtx, State.selfInvalidate, core_updCore_same, h.l1, wide]
      rfl

/-- What the context shows after a fence has ended. -/
theorem FenceEnds.shown {s t : State} {g : Nat} {c : CtxId} {sc : Scope} {xd : XReg} (h : FenceEnds s t g c sc xd) :
    (xd ≠ 0 → (t.ctx g c).rx xd = (s.ctx g c).fail.word) ∧ (t.ctx g c).fail = {} ∧ (t.ctx g c).hold = .none ∧
      (t.ctx g c).seek = true ∧ (∀ r, r ≠ xd → (t.ctx g c).rx r = (s.ctx g c).rx r) ∧
      (t.core g).l1 = (if scopeWide sc then ownedWords (s.core g).l1 else (s.core g).l1) ∧ SameBytes s t := by
  have regs (r : XReg) : (t.ctx g c).rx r = ((s.ctx g c).wx xd (s.ctx g c).fail.word .vol false).rx r := by rw [h.ctx]; rfl
  refine ⟨fun ne => (regs xd).trans (rx_wx_same _ _ _ _ ne), by rw [h.ctx]; rfl, by rw [h.ctx]; rfl, by rw [h.ctx]; rfl,
    fun r ne => (regs r).trans (rx_wx_ne _ _ _ _ ne), h.l1, fun a => by rw [h.mem]⟩

section
variable {s : State}

theorem fence_ends {sc : Scope} (xd : XReg) (h : scopeWide sc = false ∨ s.storesDone s.curCore (s.core s.curCore).seq = true) :
    ∃ t, exec (.fence sc xd) s = .next t ∧ FenceEnds s t s.curCore s.curCtx sc xd := by
  by_cases wide : scopeWide sc = true
  · have done : s.storesDone s.curCore (s.core s.curCore).seq = true := h.resolve_left (by rw [wide]; decide)
    refine ⟨_, ?_, fenceEnd_ends (sameActs_triggerDrain s s.curCore (s.core s.curCore).seq) s.curCore s.curCtx sc xd⟩
    change execFence sc xd s = _
    rw [execFence]
    simp only [wide, Bool.not_true, Bool.false_eq_true, if_false, storesDone_triggerDrain, done, if_true]
    rfl
  · refine ⟨_, ?_, fenceEnd_ends (.refl s) s.curCore s.curCtx sc xd⟩
    change execFence sc xd s = _
    rw [execFence]
    simp only [eq_false_of_ne_true wide, Bool.not_false, if_true]
    rfl

theorem fence_waits {sc : Scope} (xd : XReg) (wide : scopeWide sc = true)
    (h : s.storesDone s.curCore (s.core s.curCore).seq = false) : exec (.fence sc xd) s =
      .next ((s.triggerDrain s.curCore (s.core s.curCore).seq).holdMe (.fence sc xd (s.core s.curCore).seq)) := by
  change execFence sc xd s = _
  rw [execFence]
  simp only [wide, Bool.not_true, Bool.false_eq_true, if_false, storesDone_triggerDrain, h]

theorem fenceComplete_ends {g : Nat} {c : CtxId} {sc : Scope} {xd : XReg} {n : Nat} (hh : (s.ctx g c).hold = .fence sc xd n)
    (h : s.storesDone g n = true) : ∃ t, exec (.fenceComplete g c) s = .next t ∧ FenceEnds s t g c sc xd := by
  refine ⟨_, ?_, fenceEnd_ends (.refl s) g c sc xd⟩
  change execFenceComplete g c s = _
  rw [execFenceComplete]
  simp only [hh, h, if_true]

theorem xfence_goesOn (h : (s.core s.curCore).sb = []) :
    exec .xfence s = finish (s.triggerDrain s.curCore (s.core s.curCore).seq) := by
  change execXfence s = _
  rw [execXfence]
  simp only [sbDone_triggerDrain, sbDone_nil h, if_true]

theorem xfence_waits (h : s.sbDone s.curCore (s.core s.curCore).seq = false) : exec .xfence s =
    .next ((s.triggerDrain s.curCore (s.core s.curCore).seq).holdMe (.drain (s.core s.curCore).seq false)) := by
  change execXfence s = _
  rw [execXfence]
  simp only [sbDone_triggerDrain, h, Bool.false_eq_true, if_false]

theorem rvfenceI_goesOn (h : (s.core s.curCore).sb = []) : exec .rvfenceI s = finish (s.dropFetch s.curCore) := by
  change execRvfenceI s = _
  rw [execRvfenceI]
  simp only [sbDone_nil h, if_true]

end

/-! ### Timelines (R94, R225) -/

/-- One step of the search for the lowest number up to n. -/
def lowerUpTo (n : Nat) (a : Option Nat) (k : Nat) : Option Nat :=
  if n < k then a else match a with | some m => some (min m k) | none => some k

theorem lowestUpTo_eq (n : Nat) (l : List Nat) : lowestUpTo n l = l.foldl (lowerUpTo n) none := rfl

/-- No number of the list is at most n. -/
theorem lowestUpTo_none {n : Nat} {l : List Nat} (h : ∀ k ∈ l, n < k) : lowestUpTo n l = none := by
  rw [lowestUpTo_eq]
  induction l with
  | nil => rfl
  | cons k l ih =>
    rw [List.foldl_cons, lowerUpTo, if_pos (h k List.mem_cons_self)]
    exact ih fun j hj => h j (List.mem_cons_of_mem k hj)

/-- The least number of a list, from any number found before that is not below it. -/
theorem foldl_lowerUpTo {n k : Nat} (hk : k ≤ n) (l : List Nat) (least : ∀ j ∈ l, k ≤ j) (a : Option Nat)
    (h : a = some k ∨ (∀ m, a = some m → k ≤ m) ∧ k ∈ l) : l.foldl (lowerUpTo n) a = some k := by
  induction l generalizing a with
  | nil => exact h.resolve_right fun ⟨_, mem⟩ => by cases mem
  | cons j l ih =>
    have hj := least j List.mem_cons_self
    refine ih (fun i hi => least i (List.mem_cons_of_mem j hi)) _ ?_
    unfold lowerUpTo
    obtain rfl | ⟨above, mem⟩ := h
    · left
      split
      · rfl
      · exact congrArg some (min_eq_left hj)
    · by_cases same : j = k
      · left
        subst same
        rw [if_neg (by omega)]
        cases a with
        | none => rfl
        | some m => exact congrArg some (min_eq_right (above m rfl))
      · right
        refine ⟨fun m hm => ?_, (List.mem_cons.1 mem).resolve_left (Ne.symm same)⟩
        split at hm
        · exact above m hm
        · cases a with
          | none => cases hm; exact hj
          | some i => cases hm; exact le_min (above i rfl) hj

theorem lowestUpTo_some {n k : Nat} {l : List Nat} (mem : k ∈ l) (hk : k ≤ n) (least : ∀ j ∈ l, k ≤ j) : lowestUpTo n l = some k :=
  foldl_lowerUpTo hk l least none (.inr ⟨nofun, mem⟩)

/-- A twait whose count is reached goes on when it owes no CPEEL: beyond the vector timeline it discards copies (R94, R225). -/
theorem twaitEnd_goesOn {s u : State} (h : SameActs s u) {g : Nat} {c : CtxId} {tl : Timeline} {n : W64}
    (owes : tl ≠ .tlc ∨ ∀ k ∈ (s.ctx g c).peels, n.toNat < k) :
    (u.twaitEnd g c tl n).ctx g c = (s.ctx g c).goOn ∧ SameBytes s (u.twaitEnd g c tl n) ∧
      ((u.twaitEnd g c tl n).core g).l1 = if tl = .tlv then (s.core g).l1 else ownedWords (s.core g).l1 := by
  have none_ : (if tl == .tlc then lowestUpTo n.toNat (u.ctx g c).peels else none) = none := by
    split
    · rename_i tlc
      rw [h.ctx]
      exact lowestUpTo_none (owes.resolve_left (by simpa using tlc))
    · rfl
  unfold State.twaitEnd
  rw [none_]
  dsimp only
  by_cases v : tl = .tlv
  · subst v
    exact ⟨by rw [← h.ctx]; exact ctx_updCtx_same .., fun a => congrArg (fun m => m.get a) h.mem, by rw [l1_updCtx]; exact h.l1 g⟩
  · have ctx := (sameCtxs_updCore u g (f := fun k => { k with l1 := ownedWords k.l1 }) rfl).ctx g c
    simp only [beq_iff_eq, v, if_false]
    refine ⟨?_, fun a => congrArg (fun m => m.get a) h.mem, ?_⟩
    · rw [ctx_updCtx_same, State.selfInvalidate, ctx, h.ctx]
    · rw [l1_updCtx, State.selfInvalidate, core_updCore_same, h.l1]

/-- A twait that covers a failed peel traps CPEEL with the lowest of them, which is not reported again (R94). -/
theorem twaitEnd_traps {s u : State} (h : SameActs s u) {g : Nat} {c : CtxId} {n : W64} {k : Nat} (mem : k ∈ (s.ctx g c).peels)
    (hk : k ≤ n.toNat) (least : ∀ j ∈ (s.ctx g c).peels, k ≤ j) :
    Trapped s (u.twaitEnd g c .tlc n) g c .cpeel (BitVec.ofNat 64 k) (s.ctx g c).pc ∧ k ∉ ((u.twaitEnd g c .tlc n).ctx g c).peels := by
  have found : u.twaitEnd g c .tlc n = (u.updCtx g c fun x => { x with peels := dropNat k x.peels }).trap g c .cpeel (BitVec.ofNat 64 k)
      (u.ctx g c).pc := by
    have lowest : (if Timeline.tlc == .tlc then lowestUpTo n.toNat (u.ctx g c).peels else none) = some k := by
      rw [h.ctx]
      exact lowestUpTo_some mem hk least
    unfold State.twaitEnd
    rw [lowest]
  have regs := sameRegs_trap (u.updCtx g c fun x => { x with peels := dropNat k x.peels }) g c .cpeel (BitVec.ofNat 64 k) (u.ctx g c).pc
  rw [← found, ctx_updCtx_same, h.ctx] at regs
  obtain ⟨-, -, -, -, -, peels⟩ := abandon_regs { s.ctx g c with peels := dropNat k (s.ctx g c).peels }
  refine ⟨trapped_of_sameRegs regs rfl rfl rfl rfl, ?_⟩
  have left : ((u.twaitEnd g c .tlc n).ctx g c).peels = dropNat k (s.ctx g c).peels := by
    rw [regs]
    exact peels
  rw [left, dropNat]
  simp

section
variable {s : State}

theorem twait_reached {tl : Timeline} {xn : XReg} (h : (s.rx xn).toNat ≤ ((s.aset s.curCore).time tl).done) :
    exec (.twait tl xn) s = .next ((s.recWait tl (s.rx xn)).twaitEnd s.curCore s.curCtx tl (s.rx xn)) := by
  have same := sameActs_recWait s tl (s.rx xn)
  have reached : (s.recWait tl (s.rx xn)).mySet.reached tl (s.rx xn) = true := by
    rw [State.mySet, same.curCore, same.aset]
    exact decide_eq_true h
  change execTwait tl xn s = _
  rw [execTwait]
  simp only [reached, if_true, same.curCore, same.curCtx]

theorem twait_waits {tl : Timeline} {xn : XReg} (h : ((s.aset s.curCore).time tl).done < (s.rx xn).toNat) :
    exec (.twait tl xn) s = .next ((s.recWait tl (s.rx xn)).holdMe (.twait tl (s.rx xn))) := by
  have same := sameActs_recWait s tl (s.rx xn)
  have reached : (s.recWait tl (s.rx xn)).mySet.reached tl (s.rx xn) = false := by
    rw [State.mySet, same.curCore, same.aset]
    exact decide_eq_false (Nat.not_le.2 h)
  change execTwait tl xn s = _
  rw [execTwait]
  simp only [reached, Bool.false_eq_true, if_false]

theorem twaitComplete_reached {g : Nat} {c : CtxId} {tl : Timeline} {n : W64} (hh : (s.ctx g c).hold = .twait tl n)
    (he : s.expired g c (s.ctx g c).wdog = false) (h : n.toNat ≤ ((s.aset g).time tl).done) :
    exec (.twaitComplete g c) s = .next (s.twaitEnd g c tl n) := by
  have reached : (s.aset g).reached tl n = true := decide_eq_true h
  change execTwaitComplete g c s = _
  rw [execTwaitComplete]
  simp only [hh, reached, he, Bool.not_false, Bool.and_true, if_true]

end

/-- Settles O44: fences end by their scope, waits for timelines by their count or by the CPEEL that they owe. -/
theorem fencesAndTimelines : Obligations.FencesAndTimelines := by
  refine ⟨fun s sc xd xn tl g c => ?_, fun s p q rd rs1 => ⟨⟨_, rfl, onlyMe_updMe .., goOn_me s⟩, fun hb => ?_⟩⟩
  · intro me wide word ends reached
    have hends {t : State} {g : Nat} {c : CtxId} (h : FenceEnds s t g c sc xd) : ends t g c := h.shown
    have hreached {g : Nat} {c : CtxId} {n : W64} {i : Instr} {u : State} (same : SameActs s u)
        (h : n.toNat ≤ ((s.aset g).time tl).done → exec i s = .next (u.twaitEnd g c tl n)) : reached g c n i := by
      refine fun hn => ⟨fun owes => ⟨_, h hn, twaitEnd_goesOn same owes⟩, fun k tlc mem hk least _ => ⟨_, h hn, ?_⟩⟩
      subst tlc
      exact twaitEnd_traps same mem hk least
    refine ⟨fun h => ?_, fun hw h => ⟨_, fence_waits xd hw h, ?_, le_drainTo_triggerDrain .., fun _ => rfl⟩, fun n hh h => ?_,
      fun h => ⟨_, xfence_goesOn h, ?_, fun _ => rfl⟩, fun h => ⟨_, xfence_waits h, ?_, le_drainTo_triggerDrain .., fun _ => rfl⟩,
      fun h => ⟨_, rfl, goOn_me _, fget_fdel_nodup _ h, fun q hq => fget_fdel_ne _ hq, fun _ => rfl⟩,
      hreached (sameActs_recWait s tl (s.rx xn)) twait_reached, fun h => ⟨_, twait_waits h, ?_, fun a => ?_⟩,
      fun n hh he => hreached (.refl s) (twaitComplete_reached hh he), result_finish rfl rfl⟩
    · obtain ⟨t, done, ended⟩ := fence_ends xd h
      exact ⟨t, done, hends ended⟩
    · exact (sameActs_triggerDrain ..).holdMe _
    · obtain ⟨t, done, ended⟩ := fenceComplete_ends hh h
      exact ⟨t, done, hends ended⟩
    · rw [goOn_me, (sameActs_triggerDrain ..).me]
    · exact (sameActs_triggerDrain ..).holdMe _
    · exact (sameActs_recWait ..).holdMe _
    · rw [holdMe_mem, (sameActs_recWait ..).mem]
  · refine ⟨_, rvfenceI_goesOn hb, ?_, ?_, fun h ne => ?_, fun _ => rfl⟩
    · exact (coreField_updCtx Core.fetch (fun _ _ => rfl) ..).trans (congrArg Core.fetch (core_updCore_same ..))
    · rw [goOn_me]
      exact congrArg Ctx.goOn ((sameActs_updCore s s.curCore rfl rfl).me)
    · exact (core_updCore_ne _ _ ne).trans (core_updCore_ne s _ ne)

end Sys2Proof.Machine
end

section
namespace Sys2Proof.Machine

/-! ### Values of loads (R79, R80) -/

theorem extendLoad_unsigned (s : State) (loc n : Nat) : extendLoad false (s.mem.read loc n) = BitVec.ofNat 64 (s.readNat loc n) := rfl

/-- A sign-extended number of w bits. -/
theorem signExtend_ofNat {w v : Nat} (hw : 0 < w) (hw' : w ≤ 64) (hv : v < 2 ^ w) : (BitVec.ofNat w v).signExtend 64 =
    if 2 ^ w ≤ 2 * v then BitVec.ofNat 64 (v + (2 ^ 64 - 2 ^ w)) else BitVec.ofNat 64 v := by
  have fits : 2 ^ w ≤ 2 ^ 64 := Nat.pow_le_pow_right (by decide) hw'
  have half : 2 * 2 ^ (w - 1) = 2 ^ w := by rw [← Nat.pow_succ', Nat.succ_eq_add_one, Nat.sub_add_cancel hw]
  have value : (BitVec.ofNat w v).toNat = v := Nat.mod_eq_of_lt hv
  apply BitVec.eq_of_toNat_eq
  rw [BitVec.toNat_signExtend, BitVec.msb_eq_decide, BitVec.toNat_setWidth, value, Nat.mod_eq_of_lt (by omega)]
  by_cases neg : 2 ^ w ≤ 2 * v
  · rw [if_pos neg, if_pos (decide_eq_true (by omega)), BitVec.toNat_ofNat, Nat.mod_eq_of_lt (by omega)]
  · rw [if_neg neg, if_neg (by rw [decide_eq_true_eq]; omega), BitVec.toNat_ofNat, Nat.mod_eq_of_lt (by omega), Nat.add_zero]

theorem extendLoad_signed (s : State) (loc : Nat) {n : Nat} (h0 : 0 < n) (h8 : n ≤ 8) :
    extendLoad true (s.mem.read loc n) = (BitVec.ofNat (8 * n) (s.readNat loc n)).signExtend 64 := by
  have bound : s.readNat loc n < 2 ^ (8 * n) := by
    rw [Nat.pow_mul]
    exact readNat_lt s loc n
  rw [signExtend_ofNat (by omega) (by omega) bound, extendLoad, Memory.read, List.length_map, List.length_range]
  simp only [Bool.true_and, decide_eq_true_eq]
  rfl

/-! ### The bytes of a line that a core's L1 takes from its home (R256) -/

/-- A byte of the line that a home holds. -/
theorem lineCopy_byte (s : State) (loc : Nat) :
    (s.lineCopy (loc / 64)).data.extractLsb' (8 * (loc % 64)) 8 = s.mem.get loc := by
  have inside := Nat.mod_lt loc (show 0 < 64 by decide)
  have part := readNat_part s (64 * (loc / 64)) (loc % 64) 1 (63 - loc % 64)
  have fits : s.readNat (64 * (loc / 64)) 64 < 2 ^ 512 :=
    lt_of_lt_of_eq (readNat_lt s (64 * (loc / 64)) 64) (by rw [show (256 : Nat) = 2 ^ 8 from rfl, ← Nat.pow_mul])
  have one : s.readNat loc 1 = (s.mem.get loc).toNat := by simp [State.readNat, Memory.read, leNat]
  rw [show loc % 64 + 1 + (63 - loc % 64) = 64 by omega, Nat.div_add_mod, one, show 256 ^ (loc % 64) = 2 ^ (8 * (loc % 64)) by
    rw [show (256 : Nat) = 2 ^ 8 from rfl, ← Nat.pow_mul]] at part
  apply BitVec.eq_of_toNat_eq
  rw [← part, State.lineCopy, BitVec.extractLsb'_toNat, BitVec.toNat_ofNat, Nat.mod_eq_of_lt fits, Nat.shiftRight_eq_div_pow,
    Nat.pow_one]

/-- A line of a home without poison comes without marks. -/
theorem lineCopy_pois {s : State} (h : s.mpois = []) (line : Nat) : (s.lineCopy line).pois = 0 := by
  simp [State.lineCopy, State.poisoned, h]

theorem wordBit_full (loc : Nat) : (0xFF#8 &&& wordBit loc != 0) = true := by
  have all : ∀ i : Fin 8, (0xFF#8 &&& 1#8 <<< i.val != 0) = true := by decide
  exact all ⟨loc / 8 % 8, Nat.mod_lt _ (by decide)⟩

/-! ### A byte of a load that the core's own die holds (R234, R253, R256) -/

/-- A byte of a location whose home is the core's die, on the path of the L1, while the buffer holds no store. -/
theorem loadByte_near {s : State} {w : Who} {loc : Nat} {t : Option Token} (reqtag : W16)
    (fate : s.addrFate w.g loc (s.via w.g t) = .ok) (near : s.remote w.g loc = false)
    (hv : (s.via w.g t).host = false) (hb : (s.core w.g).sb = []) :
    s.loadByte w reqtag .l1 loc t [] = match (s.core w.g).l1Word loc with
      | some c => (s, .val (c.byte (loc % 64)).1 (c.byte (loc % 64)).2, [])
      | none => (s.afterHome w.g .l1 loc, .val (s.homeByte loc).1 (s.homeByte loc).2, []) := by
  have nearVia : s.remote w.g loc (s.via w.g t) = false := by
    rw [← near, State.remote, State.remote, State.homeDie, State.homeDie, hv]
  have buffer : (s.core w.g).forward loc = none := by rw [Core.forward, hb]; rfl
  have found : s.nearByte w.g .l1 (s.via w.g t) loc = ((s.core w.g).l1Word loc).map fun c => (c.byte (loc % 64), s) := by
    rw [State.nearByte, fate, State.fromCopy, near, buffer]
    cases (s.core w.g).l1Word loc <;> rfl
  have miss : s.missByte w reqtag .l1 loc t [] false =
      (s.afterHome w.g .l1 loc, .val (s.homeByte loc).1 (s.homeByte loc).2, []) := by
    unfold State.missByte
    simp only [List.find?_nil, fate, nearVia, Bool.false_eq_true, if_false]
  rw [State.loadByte, found, miss]
  cases (s.core w.g).l1Word loc <;> rfl

/-! ### A load from HBM of the core's own die (R119, R123, R234, R256) -/

/-- A line that an L1 holds after a load from home memory: the line as its home holds it, without a mark. -/
def HoldsLine (s : State) (o : Option Copy) (line : Nat) : Prop :=
  ∀ c, o = some c → c.data = (s.lineCopy line).data ∧ c.pois = 0 ∧ c.words = 0xFF

/-- A state that a load has reached: as the one before, but for the lines that its core's L1 has taken and for their homes. -/
structure Loading (s u : State) (lines : Nat → Prop) : Prop where
  mem : u.mem = s.mem
  dies : u.dies = s.dies
  pkgid : u.pkgid = s.pkgid
  linkDown : u.linkDown = s.linkDown
  mpois : u.mpois = s.mpois
  curCore : u.curCore = s.curCore
  curCtx : u.curCtx = s.curCtx
  aset : u.aset s.curCore = s.aset s.curCore
  sb : (u.core s.curCore).sb = (s.core s.curCore).sb
  l1 : ∀ line, lines line → HoldsLine s (fget (u.core s.curCore).l1 line) line

/-- A byte of the core's own HBM that a load reads: its address succeeds, and its home is the core's die. -/
structure OwnHbm (s : State) (v : Via) (loc : Nat) : Prop where
  fate : s.addrFate s.curCore loc v = .ok
  region : region loc = .hbm
  near : s.remote s.curCore loc = false

section
variable {s u : State} {lines : Nat → Prop} (h : Loading s u lines)
include h

theorem Loading.me : u.me = s.me := by
  rw [State.me, h.curCore, h.curCtx]
  exact congrArg (fun t : CtxSet => nget t.ctx s.curCtx) h.aset

theorem Loading.iam : u.iam = s.iam := by
  rw [State.iam, State.mySet, h.curCore, h.curCtx, h.aset]
  rfl

theorem Loading.addrFate (g loc : Nat) (v : Via) : u.addrFate g loc v = s.addrFate g loc v :=
  addrFate_congr h.dies h.linkDown h.pkgid g loc v

theorem Loading.remote (g loc : Nat) (v : Via) : u.remote g loc v = s.remote g loc v := by
  simp only [State.remote, State.homeDie, locDie, coreDie, h.pkgid]

theorem Loading.via (g : Nat) (t : Option Token) : u.via g t = s.via g t := by
  cases t with
  | none => rfl
  | some t => rw [State.via, State.pin, State.die, h.dies]; rfl

theorem Loading.lineCopy (line : Nat) : u.lineCopy line = s.lineCopy line := by
  simp only [State.lineCopy, State.readNat, State.poisoned, h.mem, h.mpois]
  rfl

/-- A line that is read at its home is held there, and nothing else changes. -/
theorem Loading.homeRead (line : Nat) : Loading s (u.homeRead line) lines := by
  unfold State.homeRead State.setMoesi
  split
  · exact h
  · split
    · exact ⟨h.mem, h.dies, h.pkgid, h.linkDown, h.mpois, h.curCore, h.curCtx, h.aset, h.sb, h.l1⟩
    · exact h

theorem Loading.installL1 (hp : s.mpois = []) (line : Nat) : Loading s (u.installL1 s.curCore line (s.lineCopy line)) lines := by
  unfold State.installL1
  refine ⟨h.mem, h.dies, h.pkgid, h.linkDown, h.mpois, h.curCore, h.curCtx, ?_, ?_, fun line' hl => ?_⟩
  · rw [State.aset, core_updCore_same]
    exact h.aset
  · rw [core_updCore_same]
    exact h.sb
  · rw [core_updCore_same]
    by_cases same : line' = line
    · subst same
      intro c hc
      rw [fget_fset_same] at hc
      rw [← Option.some.inj hc]
      exact ⟨rfl, lineCopy_pois hp _, rfl⟩
    · dsimp only
      rw [fget_fset_ne _ _ same]
      exact h.l1 line' hl

/-- A byte of a load takes its value from its home, through the L1 (R234, R253, R256). -/
theorem Loading.loadByte (hp : s.mpois = []) (hb : (s.core s.curCore).sb = []) {loc : Nat} (hl : lines (loc / 64)) (reqtag : W16)
    {t : Option Token} (hv : (s.via s.curCore t).host = false) (own : OwnHbm s (s.via s.curCore t) loc) :
    ∃ u', u.loadByte s.iam reqtag .l1 loc t [] = (u', .val (s.mem.get loc) false, []) ∧ Loading s u' lines := by
  have read := loadByte_near (s := u) (w := s.iam) (loc := loc) (t := t) reqtag
    (by rw [h.via, h.addrFate]; exact own.fate) (by rw [h.remote]; exact own.near) (by rw [h.via]; exact hv) (h.sb.trans hb)
  rw [read]
  cases held : fget (u.core s.curCore).l1 (loc / 64) with
  | none =>
    have word : (u.core s.iam.g).l1Word loc = none := by rw [Core.l1Word]; exact congrArg (Option.filter _) held
    rw [word]
    refine ⟨u.afterHome s.curCore .l1 loc, ?_, ?_⟩
    · dsimp only
      rw [State.homeByte, h.mem, State.poisoned, h.mpois, hp]
      rfl
    · rw [State.afterHome, h.lineCopy]
      exact (h.homeRead _).installL1 hp _
  | some c =>
    obtain ⟨data, pois, words⟩ := h.l1 _ hl c held
    have touched : (c.words &&& wordBit loc != 0) = true := by rw [words]; exact wordBit_full loc
    have word : (u.core s.iam.g).l1Word loc = some c := by
      rw [Core.l1Word]
      exact (congrArg (Option.filter _) held).trans (if_pos touched)
    rw [word]
    refine ⟨u, ?_, h⟩
    dsimp only
    rw [Copy.byte, data, pois, lineCopy_byte, show (0 : Byte).getLsbD (loc % 64 / 8) = false from BitVec.getLsbD_zero]

end

/-- The bytes of a load in home memory. -/
theorem Loading.loadBytes {s u : State} {lines : Nat → Prop} (h : Loading s u lines) (hp : s.mpois = [])
    (hb : (s.core s.curCore).sb = []) (reqtag : W16) {t : Option Token} (hv : (s.via s.curCore t).host = false) (l : List Nat)
    (hl : ∀ loc ∈ l, lines (loc / 64) ∧ OwnHbm s (s.via s.curCore t) loc) :
    ∃ u', u.loadBytes s.iam reqtag .l1 t (l.map .ok) [] 0 = (u', l.map fun a => .val (s.mem.get a) false) ∧ Loading s u' lines := by
  induction l generalizing u with
  | nil => exact ⟨u, rfl, h⟩
  | cons loc l ih =>
    obtain ⟨line, own⟩ := hl loc List.mem_cons_self
    obtain ⟨v, byte, hv'⟩ := h.loadByte hp hb line reqtag hv own
    obtain ⟨w, rest, hw⟩ := ih hv' fun a ha => hl a (List.mem_cons_of_mem loc ha)
    refine ⟨w, ?_, hw⟩
    rw [List.map_cons, State.loadBytes, show (0 % 2 == 1) = false from rfl, byte]
    dsimp only
    rw [rest]
    rfl

/-! ### The places of an access whose bytes all succeed -/

/-- The places of bytes at some locations. -/
def Places.at_ (l : List Nat) : Places := l.map .ok

theorem bits_at (l : List Nat) : (Places.at_ l).bits = 0 := by
  unfold Places.bits Places.at_
  induction l with
  | nil => rfl
  | cons a l ih => exact ih

theorem locs_at (l : List Nat) : (Places.at_ l).locs = l := by
  unfold Places.locs Places.at_
  induction l with
  | nil => rfl
  | cons a l ih => exact congrArg (a :: ·) ih

theorem inStatus_at {l : List Nat} (h : ∀ a ∈ l, region a = .hbm) : (Places.at_ l).inStatus = false := by
  rw [Places.inStatus, locs_at, List.any_eq_false]
  intro a ha
  rw [h a ha]
  simp

/-- An access whose bytes all succeed leaves no denial record (R121). -/
theorem recordDenials_at (s : State) (w : Who) (t : Option Token) (off code : Nat) (l : List Nat) (bit : ByteFail → BitVec 8) :
    s.recordDenials w t off code (Places.at_ l) bit = s := by
  cases t with
  | none => rfl
  | some t =>
    have none_ : ((Places.at_ l).zipIdx.filterMap fun (p : Except (BitVec 8) Nat × Nat) =>
        match p.1 with
        | .error b => if b = bit .denied then some (off + p.2) else none
        | .ok _ => none) = [] := by
      refine List.filterMap_eq_nil_iff.2 fun p hp => ?_
      obtain ⟨a, -, ok⟩ := List.mem_map.1 (List.fst_mem_of_mem_zipIdx hp)
      rw [← ok]
    rw [State.recordDenials]
    refine Eq.trans (congrArg (s.denialRecords w t code) ?_) (show s.denialRecords w t code [] = s from rfl)
    exact none_

/-- The bytes of a token access inside one frame of its extent (R119). -/
theorem tokenByte_frame {s : State} {g : Nat} {t : Token} {off i : Nat} (host : t.host = false) (right : t.rights &&& 1 = 1)
    (len : off + 8 ≤ t.lenm1.toNat + 1) (frame : off % 2 ^ 21 + 8 ≤ 2 ^ 21) (granule : off % 2 ^ 16 + 8 ≤ 2 ^ 16)
    (deny : (s.pin (g / 128) t.pte).deny.contains (off / 2 ^ 16) = false) (hi : i < 8) : s.tokenByte g t 1 (off + i) =
      .ok (((s.pin (g / 128) t.pte).frames.getD (off / 2 ^ 21) 0).toNat % 2 ^ 59 + off % 2 ^ 21 + i) := by
  have granule' : (off + i) / 2 ^ 16 = off / 2 ^ 16 := by omega
  have frame' : (off + i) / 2 ^ 21 = off / 2 ^ 21 := by omega
  have place : (off + i) % 2 ^ 21 = off % 2 ^ 21 + i := by omega
  have right' : (1 &&& t.rights != 1) = false := by rw [BitVec.and_comm, right]; rfl
  rw [State.tokenByte]
  simp only [granule', deny, right', host, Bool.false_eq_true, if_false, if_neg (show ¬ t.lenm1.toNat < off + i by omega), frame', place,
    Nat.add_assoc]

theorem tokenPlaces_at {s : State} {g : Nat} {t : Token} {need : BitVec 4} {off n loc : Nat} {bit : ByteFail → BitVec 8}
    (h48 : off + n ≤ 2 ^ 48) (h : ∀ i, i < n → s.tokenByte g t need (off + i) = .ok (loc + i)) :
    s.tokenPlaces g t need off n bit = Places.at_ ((List.range n).map (loc + ·)) := by
  unfold State.tokenPlaces Places.at_
  rw [List.map_map]
  refine List.map_congr_left fun i hi => ?_
  have hi := List.mem_range.1 hi
  rw [if_neg (by omega), h i hi]
  rfl

/-! ### Scalar loads from HBM of the core's own die -/

/-- A misaligned access is performed whole when no choice is at hand (R249). -/
theorem laterBytes_none {s : State} {n : Nat} {p : W64} (h : p.toNat % n = 0 ∨ s.oracle = []) : s.laterBytes n p 0 = (0, s) := by
  unfold State.laterBytes State.choose
  split
  · rename_i split
    obtain aligned | none_ := h
    · simp [splitAccess, aligned] at split
    · rw [none_]
  · rfl

/-- What a core needs to load at once: no store, no posted operation and no V store on its way, and no poison. -/
structure Quiet (s : State) : Prop where
  vstores : noVStore s
  sb : (s.core s.curCore).sb = []
  ops : s.ops = []
  mpois : s.mpois = []

theorem Quiet.vStoring {s : State} (h : Quiet s) (l : List Nat) : s.vStoring s.curCore l = false := by
  rw [State.vStoring, List.any_eq_false]
  intro t ht
  rw [h.vstores t ht]
  simp

theorem Quiet.postedOver {s : State} (h : Quiet s) (g : Nat) (l : List Nat) : s.postedOver g l = false := by
  rw [State.postedOver, h.ops]
  rfl

/-- A load that has found all its bytes writes its register and goes on. -/
theorem Loading.finishLoad {s u : State} {lines : Nat → Prop} (h : Loading s u lines) (rd : XReg) (sgn : Bool) (bytes : List Byte) :
    u.finishLoad s.iam rd sgn (bytes.map fun b => .val b false) = u.updMe fun x => (x.wx rd (extendLoad sgn bytes) .vol false).goOn := by
  have clean : anyPoison (bytes.map fun b => .val b false) = false := by
    rw [anyPoison, List.any_map]
    exact List.any_eq_false.2 fun _ _ => Bool.false_ne_true
  have known : knownBytes (bytes.map fun b => .val b false) = bytes := by
    rw [knownBytes, List.map_map]
    exact List.map_id _
  rw [State.finishLoad, clean, known, ← h.iam]
  exact updWho_iam ..

theorem updMe_id (s : State) : (s.updMe fun x => x) = s.setCore s.curCore (s.core s.curCore) := by
  rw [← updAct_id, State.updMe, State.updCtx]
  refine updAct_congr s _ ?_
  rw [show nset (s.aset s.curCore).ctx s.curCtx (nget (s.aset s.curCore).ctx s.curCtx) = (s.aset s.curCore).ctx from
    Vector.set_getElem_self ..]

/-- A load of bytes that lie in HBM of the core's own die, of which its L1 holds no copy. -/
theorem scalarLoad_near {s : State} {n : Nat} {sgn : Bool} {rd rs1 : XReg} {imm : BitVec 12} {t : Option Token} {off : Nat} {l : List Nat}
    (quiet : Quiet s) (hm : s.me.marked rs1 = false) (aligned : (s.rx rs1 + imm.signExtend 64).toNat % n = 0 ∨ s.oracle = [])
    (resolved : s.resolve (s.rx rs1 + imm.signExtend 64) n readRights ByteFail.readBit = .access .l1 t off (Places.at_ l))
    (hv : (s.via s.curCore t).host = false)
    (hl : ∀ loc ∈ l, fget (s.core s.curCore).l1 (loc / 64) = none ∧ OwnHbm s (s.via s.curCore t) loc) :
    ∃ u lines, Loading s u lines ∧ scalarLoad n sgn rd rs1 imm s =
      .next (u.updMe fun x => (x.wx rd (extendLoad sgn (l.map s.mem.get)) .vol false).goOn) := by
  have start : Loading s (s.setCore s.curCore (s.core s.curCore)) fun line => fget (s.core s.curCore).l1 line = none := by
    refine ⟨rfl, rfl, rfl, rfl, rfl, rfl, rfl, aset_setCore_self .., ?_, fun line none_ c hc => ?_⟩
    · rw [core_setCore_same]
    · rw [core_setCore_same, none_] at hc
      cases hc
  have mark : s.orMstat s.iam 0 = s.setCore s.curCore (s.core s.curCore) := by
    rw [orMstat_iam, ← updMe_id]
    refine updMe_congr s ?_
    rw [show s.me.mstat ||| 0 = s.me.mstat from BitVec.or_zero]
  obtain ⟨u, bytes, loading⟩ := start.loadBytes quiet.mpois quiet.sb s.mySet.reqtag hv l hl
  refine ⟨u, _, loading, ?_⟩
  have known : allKnown (l.map fun a => .val (s.mem.get a) false) = true := by
    rw [allKnown, List.all_map]
    exact List.all_eq_true.2 fun _ _ => rfl
  rw [scalarLoad, show s.rx rs1 + simm imm = s.rx rs1 + imm.signExtend 64 from rfl, resolved]
  dsimp only
  have status := inStatus_at fun a ha => (hl a ha).2.region
  have later := laterBytes_none (s := s.setCore s.curCore (s.core s.curCore)) aligned
  have read : (s.setCore s.curCore (s.core s.curCore)).loadBytes s.iam s.mySet.reqtag .l1 t (Places.at_ l) [] 0 = _ := bytes
  have posted : s.postedOver s.iam.g l = false := quiet.postedOver _ l
  have vstores : s.vStoring s.iam.g l = false := quiet.vStoring l
  rw [locs_at, bits_at, recordDenials_at, useX_of_unmarked hm, mark, status, later, posted, vstores]
  simp only [Bool.or_self, Bool.false_eq_true, if_false, read, known, if_true]
  have done := loading.finishLoad rd sgn (l.map s.mem.get)
  rw [List.map_map] at done
  exact congrArg Host.Outcome.next done

/-- What a load from home memory shows that has gone on. -/
theorem Loading.shown {s u : State} {lines : Nat → Prop} (h : Loading s u lines) (rd : XReg) (v : W64) :
    let t := u.updMe fun x => (x.wx rd v .vol false).goOn
    (rd ≠ 0 → t.rx rd = v) ∧ OtherX s t rd ∧ t.me.mstat = s.me.mstat ∧ t.me.seek = true ∧ t.me.pc = s.me.pc ∧ SameBytes s t := by
  intro t
  have me : t.me = (s.me.wx rd v .vol false).goOn := by rw [updMe_me, h.me]
  refine ⟨fun hrd => ?_, fun r hr => ⟨?_, ?_, ?_⟩, ?_, ?_, ?_, fun a => congrArg (fun m => m.get a) h.mem⟩
  · rw [State.rx, me]
    exact rx_wx_same _ _ _ _ hrd
  · rw [State.rx, me]
    exact rx_wx_ne _ _ _ _ hr
  · rw [me]
    exact tag_wx_ne _ _ _ _ hr
  · rw [me]
    exact marked_wx_ne _ _ _ _ hr
  · rw [me]
    exact wx_mstat ..
  · rw [me]
    rfl
  · rw [me]
    exact wx_pc ..

/-- Settles O23: a load through a token reads its bytes at their home. -/
theorem tokenLoads : Obligations.TokenLoads := by
  intro s rd rs1 imm k off t e loc hptr valid ms host right len h48 frame granule gen live deny home hvst hsb hops hpois hm gives
  have quiet : Quiet s := ⟨hvst, hsb, hops, hpois⟩
  have via : s.via s.curCore (some t) = { phys := e.phys } := by rw [State.via, host]
  have resolved (n : Nat) (hn : n ≤ 8) : s.resolve (s.rx rs1 + imm.signExtend 64) n readRights ByteFail.readBit =
      .access .l1 (some t) off (Places.at_ ((List.range n).map (loc + ·))) := by
    have places : s.tokenPlaces s.curCore t 1 off n ByteFail.readBit = Places.at_ ((List.range n).map (loc + ·)) :=
      tokenPlaces_at (by omega) fun i hi => tokenByte_frame host right len frame granule deny (by omega)
    have path : tokenPath 0 t = .l1 := by simp [tokenPath, ms, host]
    have policy : readRights (t.policy 0) = 1 := by rw [Token.policy, host]; rfl
    unfold State.resolve
    dsimp only
    rw [hptr]
    simp only [show vget s.mySet.k k = t from rfl, valid, Bool.not_true, Bool.false_eq_true, if_false, issueCheck_live gen live, path, policy,
      places]
  have loads {i : Instr} {n : Nat} {sgn : Bool} {v : W64} (hn : n ≤ 8) (hi : exec i s = scalarLoad n sgn rd rs1 imm s)
      (hv : extendLoad sgn (s.mem.read loc n) = v) : gives i n v := by
    intro aligned
    obtain ⟨u, lines, loading, done⟩ := scalarLoad_near (sgn := sgn) (rd := rd) quiet hm aligned (resolved n hn) (by rw [via]) fun a ha => by
      obtain ⟨j, hj, rfl⟩ := List.mem_map.1 ha
      obtain ⟨fate, region, near, none_⟩ := home j (by have := List.mem_range.1 hj; omega)
      exact ⟨none_, by rw [via]; exact fate, region, near⟩
    rw [List.map_map] at done
    rw [← hi] at done
    refine ⟨_, done, ?_⟩
    rw [← hv]
    exact loading.shown rd _
  exact ⟨loads (by decide) rfl (extendLoad_signed s loc (n := 1) (by decide) (by decide)),
    loads (by decide) rfl (extendLoad_signed s loc (n := 2) (by decide) (by decide)),
    loads (by decide) rfl (extendLoad_signed s loc (n := 4) (by decide) (by decide)),
    loads (by decide) rfl (extendLoad_unsigned ..), loads (by decide) rfl (extendLoad_unsigned ..),
    loads (by decide) rfl (extendLoad_unsigned ..), loads (by decide) rfl (extendLoad_unsigned ..)⟩

end Sys2Proof.Machine
end
